-- ==== Sys2Proof/Word.lean ====
section
/-! DEFINITION. Words of the Lorrus E8: the 64-bit word, the 128-bit register with its tag (R95), and sparse tables in one canonical form. -/

namespace Sys2Proof

/-- A 64-bit word, bits 0-63 of a w register. -/
abbrev Word := BitVec 64

/-- A w register or a 16-byte granule: 128 bits and the capability tag (R95). -/
structure Wreg where
  bits : BitVec 128
  tag  : Bool
deriving DecidableEq, Repr, Inhabited

/-- Plain zero: the reset value of a w register (R98). -/
def Wreg.zero : Wreg := ⟨0, false⟩

/-- A plain integer result: bits 64-127 zero, tag clear (R117). -/
def Wreg.plain (x : Word) : Wreg := ⟨x.setWidth 128, false⟩

/-- Bits 0-63 of a w register (R117). -/
def Wreg.lo (r : Wreg) : Word := r.bits.setWidth 64

/-- Bits 64-127 of a w register. -/
def Wreg.hi (r : Wreg) : Word := (r.bits >>> 64).setWidth 64

/-- A sparse table: keys strictly rising, no entry equal to the value of an unlisted key. -/
abbrev Tab (α : Type) := List (Nat × α)

/-- The value at key `k`, `d` where the table lists none. -/
def Tab.get {α : Type} (d : α) : Tab α → Nat → α
  | [], _ => d
  | (k', v) :: t, k => if k < k' then d else if k = k' then v else Tab.get d t k

/-- Writes `v` at key `k`, keeping the canonical form for the default `d`. -/
def Tab.set {α : Type} [DecidableEq α] (d : α) : Tab α → Nat → α → Tab α
  | [], k, v => if v = d then [] else [(k, v)]
  | (k', v') :: t, k, v =>
    if k < k' then (if v = d then (k', v') :: t else (k, v) :: (k', v') :: t)
    else if k = k' then (if v = d then t else (k, v) :: t)
    else (k', v') :: Tab.set d t k v

/-- The canonical form: keys strictly rising and no listed value equal to `d`. -/
def Tab.wf {α : Type} [DecidableEq α] (d : α) : Tab α → Bool
  | [] => true
  | [(_, v)] => decide (v ≠ d)
  | (k, v) :: (k', v') :: t => decide (v ≠ d) && decide (k < k') && Tab.wf d ((k', v') :: t)

end Sys2Proof
end

