-- ==== Sys2Proof/Syntax.lean ====
section
/-! DEFINITION. The instructions and device steps of the Lorrus E8: one constructor per row of spec/opcode_table.json, encoded words first, then the steps of the device that no word encodes (95_what_each_step_holds.md). -/

namespace Sys2Proof

/-- The constant word that a K form names: KWIN and KOFF of its extension word (R58). -/
structure KRef where
  win : Fin 8
  off : Fin 131072
deriving DecidableEq, Repr

/-- The b operand of an instruction whose K form shares its row: a register, or a constant word (R180). -/
inductive BOp where
  | reg (b : Fin 64)
  | konst (k : KRef)
deriving DecidableEq, Repr

/-- Every row of the table of operations. Register fields keep the width of the word's field; the steps that
are no words name the core, slot, packet or register they act on. -/
inductive Instr where
  /-- R118: Adds two registers modulo 2^64. -/
  | add (d : Fin 64) (a : Fin 64) (b : Fin 64)
  /-- R118: Subtracts modulo 2^64. -/
  | sub (d : Fin 64) (a : Fin 64) (b : Fin 64)
  /-- R118: Multiplies modulo 2^64. -/
  | mul (d : Fin 64) (a : Fin 64) (b : Fin 64)
  /-- R118: High half of the signed product. -/
  | mulh (d : Fin 64) (a : Fin 64) (b : Fin 64)
  /-- R118: High half of the unsigned product. -/
  | mulhU (d : Fin 64) (a : Fin 64) (b : Fin 64)
  /-- R118: Signed division toward zero; a zero divisor sets DZ. -/
  | div (d : Fin 64) (a : Fin 64) (b : Fin 64)
  /-- R118: Unsigned division. -/
  | divU (d : Fin 64) (a : Fin 64) (b : Fin 64)
  /-- R118: Signed remainder. -/
  | rem (d : Fin 64) (a : Fin 64) (b : Fin 64)
  /-- R118: Unsigned remainder. -/
  | remU (d : Fin 64) (a : Fin 64) (b : Fin 64)
  /-- R118: Bitwise AND. -/
  | and (d : Fin 64) (a : Fin 64) (b : Fin 64)
  /-- R118: Bitwise OR. -/
  | or (d : Fin 64) (a : Fin 64) (b : Fin 64)
  /-- R118: Bitwise XOR. -/
  | xor (d : Fin 64) (a : Fin 64) (b : Fin 64)
  /-- R118: Logical shift left. -/
  | shl (d : Fin 64) (a : Fin 64) (b : Fin 64)
  /-- R118: Logical shift right. -/
  | shr (d : Fin 64) (a : Fin 64) (b : Fin 64)
  /-- R118: Arithmetic shift right. -/
  | sra (d : Fin 64) (a : Fin 64) (b : Fin 64)
  /-- R118: Signed minimum. -/
  | min (d : Fin 64) (a : Fin 64) (b : Fin 64)
  /-- R118: Unsigned minimum. -/
  | minU (d : Fin 64) (a : Fin 64) (b : Fin 64)
  /-- R118: Signed maximum. -/
  | max (d : Fin 64) (a : Fin 64) (b : Fin 64)
  /-- R118: Unsigned maximum. -/
  | maxU (d : Fin 64) (a : Fin 64) (b : Fin 64)
  /-- R118: Selects a or b by bit 0 of the destination. -/
  | sel (d : Fin 64) (a : Fin 64) (b : Fin 64)
  /-- R118: Counts leading zeros. -/
  | clz (d : Fin 64) (a : Fin 64)
  /-- R118: Counts one bits. -/
  | popc (d : Fin 64) (a : Fin 64)
  /-- R118: add with its b operand taken from a constant window. -/
  | addK (d : Fin 64) (a : Fin 64) (k : KRef)
  /-- R118: sub with a constant operand. -/
  | subK (d : Fin 64) (a : Fin 64) (k : KRef)
  /-- R118: mul with a constant operand. -/
  | mulK (d : Fin 64) (a : Fin 64) (k : KRef)
  /-- R118: mulh with a constant operand. -/
  | mulhK (d : Fin 64) (a : Fin 64) (k : KRef)
  /-- R118: mulh.u with a constant operand. -/
  | mulhUK (d : Fin 64) (a : Fin 64) (k : KRef)
  /-- R118: div with a constant operand. -/
  | divK (d : Fin 64) (a : Fin 64) (k : KRef)
  /-- R118: div.u with a constant operand. -/
  | divUK (d : Fin 64) (a : Fin 64) (k : KRef)
  /-- R118: rem with a constant operand. -/
  | remK (d : Fin 64) (a : Fin 64) (k : KRef)
  /-- R118: rem.u with a constant operand. -/
  | remUK (d : Fin 64) (a : Fin 64) (k : KRef)
  /-- R118: and with a constant operand. -/
  | andK (d : Fin 64) (a : Fin 64) (k : KRef)
  /-- R118: or with a constant operand. -/
  | orK (d : Fin 64) (a : Fin 64) (k : KRef)
  /-- R118: xor with a constant operand. -/
  | xorK (d : Fin 64) (a : Fin 64) (k : KRef)
  /-- R118: shl with a constant operand. -/
  | shlK (d : Fin 64) (a : Fin 64) (k : KRef)
  /-- R118: shr with a constant operand. -/
  | shrK (d : Fin 64) (a : Fin 64) (k : KRef)
  /-- R118: sra with a constant operand. -/
  | sraK (d : Fin 64) (a : Fin 64) (k : KRef)
  /-- R118: min with a constant operand. -/
  | minK (d : Fin 64) (a : Fin 64) (k : KRef)
  /-- R118: min.u with a constant operand. -/
  | minUK (d : Fin 64) (a : Fin 64) (k : KRef)
  /-- R118: max with a constant operand. -/
  | maxK (d : Fin 64) (a : Fin 64) (k : KRef)
  /-- R118: max.u with a constant operand. -/
  | maxUK (d : Fin 64) (a : Fin 64) (k : KRef)
  /-- R118: sel with a constant operand. -/
  | selK (d : Fin 64) (a : Fin 64) (k : KRef)
  /-- R119: Writes 1 when the operands are equal. -/
  | cmpEq (d : Fin 64) (a : Fin 64) (b : Fin 64)
  /-- R119: Writes 1 when the operands differ. -/
  | cmpNe (d : Fin 64) (a : Fin 64) (b : Fin 64)
  /-- R119: Signed less-than compare. -/
  | cmpLt (d : Fin 64) (a : Fin 64) (b : Fin 64)
  /-- R119: Signed greater-or-equal compare. -/
  | cmpGe (d : Fin 64) (a : Fin 64) (b : Fin 64)
  /-- R119: Unsigned less-than compare. -/
  | cmpLtU (d : Fin 64) (a : Fin 64) (b : Fin 64)
  /-- R119: Unsigned greater-or-equal compare. -/
  | cmpGeU (d : Fin 64) (a : Fin 64) (b : Fin 64)
  /-- R119: cmp.eq with a constant operand. -/
  | cmpEqK (d : Fin 64) (a : Fin 64) (k : KRef)
  /-- R119: cmp.ne with a constant operand. -/
  | cmpNeK (d : Fin 64) (a : Fin 64) (k : KRef)
  /-- R119: cmp.lt with a constant operand. -/
  | cmpLtK (d : Fin 64) (a : Fin 64) (k : KRef)
  /-- R119: cmp.ge with a constant operand. -/
  | cmpGeK (d : Fin 64) (a : Fin 64) (k : KRef)
  /-- R119: cmp.lt.u with a constant operand. -/
  | cmpLtUK (d : Fin 64) (a : Fin 64) (k : KRef)
  /-- R119: cmp.ge.u with a constant operand. -/
  | cmpGeUK (d : Fin 64) (a : Fin 64) (k : KRef)
  /-- R120: Adds a signed immediate. -/
  | addi (d : Fin 64) (a : Fin 64) (i : BitVec 13)
  /-- R120: ANDs an immediate. -/
  | andi (d : Fin 64) (a : Fin 64) (i : BitVec 13)
  /-- R120: ORs an immediate. -/
  | ori (d : Fin 64) (a : Fin 64) (i : BitVec 13)
  /-- R120: XORs an immediate. -/
  | xori (d : Fin 64) (a : Fin 64) (i : BitVec 13)
  /-- R120: Shifts left by an immediate. -/
  | shli (d : Fin 64) (a : Fin 64) (i : BitVec 13)
  /-- R120: Shifts right logically by an immediate. -/
  | shri (d : Fin 64) (a : Fin 64) (i : BitVec 13)
  /-- R120: Shifts right arithmetically by an immediate. -/
  | srai (d : Fin 64) (a : Fin 64) (i : BitVec 13)
  /-- R120: Shifts left by 13 and inserts an unsigned 13-bit field. -/
  | lhi (d : Fin 64) (a : Fin 64) (i : BitVec 13)
  /-- R121: Derives a capability with bounds rounded outward. -/
  | cbnd (d : Fin 64) (a : Fin 64) (b : Fin 64)
  /-- R121: Derives exact bounds or faults. -/
  | cbndX (d : Fin 64) (a : Fin 64) (b : Fin 64)
  /-- R122: ANDs a capability's permissions with a mask. -/
  | cprm (d : Fin 64) (a : Fin 64) (b : Fin 64)
  /-- R122: Seals a capability. -/
  | csea (d : Fin 64) (a : Fin 64)
  /-- R122: Privileged unseal of a capability. -/
  | cuns (d : Fin 64) (a : Fin 64)
  /-- R123: Sets a capability's address, clearing the tag if the bounds change. -/
  | cadr (d : Fin 64) (a : Fin 64) (b : Fin 64)
  /-- R124: Writes a capability's length. -/
  | clen (d : Fin 64) (a : Fin 64)
  /-- R124: Writes a capability's base. -/
  | cbas (d : Fin 64) (a : Fin 64)
  /-- R124: Tests that a capability is usable with given permissions. -/
  | ctst (d : Fin 64) (a : Fin 64) (b : Fin 64)
  /-- R123: Moves a capability's address by an immediate. -/
  | cadrInc (d : Fin 64) (a : Fin 64) (i : BitVec 13)
  /-- R126: Branches to a header. -/
  | br (o : BitVec 19)
  /-- R126: Writes the return header into w1 and branches to a label. -/
  | call (o : BitVec 19)
  /-- R127: Branches when a register is non-zero. -/
  | bc (c : Fin 64) (o : BitVec 19)
  /-- R127: Branches when a register is zero. -/
  | bcZ (c : Fin 64) (o : BitVec 19)
  /-- R127: Branches when some predicate bit is set. -/
  | bpAny (p : Fin 8) (o : BitVec 19)
  /-- R127: Branches when all predicate bits are set. -/
  | bpAll (p : Fin 8) (o : BitVec 19)
  /-- R127: Branches when no predicate bit is set. -/
  | bpNone (p : Fin 8) (o : BitVec 19)
  /-- R127: Branches when some predicate bit is clear. -/
  | bpNall (p : Fin 8) (o : BitVec 19)
  /-- R131: Starts a hardware loop with a register count. -/
  | loop (c : Fin 64) (o : BitVec 19)
  /-- R128: Jumps to a register address. -/
  | jr (a : Fin 64)
  /-- R128: Transfers to w1. -/
  | ret
  /-- R128: Writes w1 and transfers to a register address. -/
  | callReg (a : Fin 64)
  /-- R133: Starts a helper slot after the context's writes reach .core. -/
  | hstart (d : Fin 64) (a : Fin 64) (b : Fin 64)
  /-- R134: Closes fibres and streams, then parks until the context's commands and messages are done. -/
  | hend
  /-- R135: Parks until the named closed helpers are idle. -/
  | hjoin (a : Fin 64)
  /-- R135: Passes issue and stays ready. -/
  | yield
  /-- R60: Prefix that sets PP and the payload of formats and rounding for the next instruction. -/
  | fmt (r : Fin 8) (n : Fin 2) (d : Fin 8) (b : Fin 8) (a : Fin 8)
  /-- R132: Does nothing. -/
  | nop
  /-- R132: Repeats the next instruction an immediate number of times. -/
  | rep (i : BitVec 13)
  /-- R132: Repeats the next instruction a register count of times. -/
  | repW (a : Fin 64)
  /-- R142: 8-byte load with displacement. -/
  | ld (d : Fin 64) (a : Fin 64) (i : BitVec 13)
  /-- R142: 8-byte store with displacement. -/
  | st (d : Fin 64) (a : Fin 64) (i : BitVec 13)
  /-- R144: 16-byte load with tag. -/
  | ldc (d : Fin 64) (a : Fin 64) (i : BitVec 13)
  /-- R144: 16-byte store with tag, subject to the G and stack/frame rules. -/
  | stc (d : Fin 64) (a : Fin 64) (i : BitVec 13)
  /-- R143: Indexed sized load, optionally sign-extending or acquiring. -/
  | ldSized (d : Fin 64) (a : Fin 64) (b : Fin 64) (o : Fin 8) (x : Fin 2) (s : Fin 4)
  /-- R143: Sized load indexed by a constant. -/
  | ldSizedK (d : Fin 64) (a : Fin 64) (k : KRef) (o : Fin 8) (x : Fin 2) (s : Fin 4)
  /-- R143: Indexed sized store, optionally releasing. -/
  | stSized (d : Fin 64) (a : Fin 64) (b : Fin 64) (o : Fin 8) (s : Fin 4)
  /-- R143: Sized store indexed by a constant. -/
  | stSizedK (d : Fin 64) (a : Fin 64) (k : KRef) (o : Fin 8) (s : Fin 4)
  /-- R145: Waits for a full granule and loads 8 bytes. -/
  | ldfe (d : Fin 64) (a : Fin 64) (b : Fin 64)
  /-- R145: Waits for a full granule and loads it. -/
  | ldfeG (d : Fin 64) (a : Fin 64) (b : Fin 64)
  /-- R145: Waits for two full granules and loads a register pair. -/
  | ldfeP (d : Fin 64) (a : Fin 64) (b : Fin 64)
  /-- R145: Stores a granule and sets it full. -/
  | stfe (d : Fin 64) (a : Fin 64) (b : Fin 64)
  /-- R145: Consuming 8-byte load that clears the full bit. -/
  | ldfeClr (d : Fin 64) (a : Fin 64) (b : Fin 64)
  /-- R145: Consuming granule load that clears the full bit. -/
  | ldfeClrG (d : Fin 64) (a : Fin 64) (b : Fin 64)
  /-- R145: Consuming pair load that clears both full bits. -/
  | ldfeClrP (d : Fin 64) (a : Fin 64) (b : Fin 64)
  /-- R145: Waits until the granule is empty, then stores and sets it full. -/
  | stfeWait (d : Fin 64) (a : Fin 64) (b : Fin 64)
  /-- R147: Atomic add. -/
  | amoAdd (d : Fin 64) (a : Fin 64) (b : Fin 64) (o : Fin 4) (z : Fin 2)
  /-- R147: Atomic AND. -/
  | amoAnd (d : Fin 64) (a : Fin 64) (b : Fin 64) (o : Fin 4) (z : Fin 2)
  /-- R147: Atomic OR. -/
  | amoOr (d : Fin 64) (a : Fin 64) (b : Fin 64) (o : Fin 4) (z : Fin 2)
  /-- R147: Atomic XOR. -/
  | amoXor (d : Fin 64) (a : Fin 64) (b : Fin 64) (o : Fin 4) (z : Fin 2)
  /-- R147: Atomic unsigned minimum. -/
  | amoMinU (d : Fin 64) (a : Fin 64) (b : Fin 64) (o : Fin 4) (z : Fin 2)
  /-- R147: Atomic unsigned maximum. -/
  | amoMaxU (d : Fin 64) (a : Fin 64) (b : Fin 64) (o : Fin 4) (z : Fin 2)
  /-- R147: Atomic swap. -/
  | amoSwap (d : Fin 64) (a : Fin 64) (b : Fin 64) (o : Fin 4) (z : Fin 2)
  /-- R147: Atomic compare-and-swap. -/
  | amoCas (d : Fin 64) (a : Fin 64) (b : Fin 64) (o : Fin 4) (z : Fin 2)
  /-- R146: Atomic add ordered at .clu or wider. -/
  | amoAddScoped (k : Fin 4) (d : Fin 64) (a : Fin 64) (b : Fin 64) (o : Fin 4) (z : Fin 2)
  /-- R146: Atomic AND ordered at .clu or wider. -/
  | amoAndScoped (k : Fin 4) (d : Fin 64) (a : Fin 64) (b : Fin 64) (o : Fin 4) (z : Fin 2)
  /-- R146: Atomic OR ordered at .clu or wider. -/
  | amoOrScoped (k : Fin 4) (d : Fin 64) (a : Fin 64) (b : Fin 64) (o : Fin 4) (z : Fin 2)
  /-- R146: Atomic XOR ordered at .clu or wider. -/
  | amoXorScoped (k : Fin 4) (d : Fin 64) (a : Fin 64) (b : Fin 64) (o : Fin 4) (z : Fin 2)
  /-- R146: Atomic unsigned minimum ordered at .clu or wider. -/
  | amoMinUScoped (k : Fin 4) (d : Fin 64) (a : Fin 64) (b : Fin 64) (o : Fin 4) (z : Fin 2)
  /-- R146: Atomic unsigned maximum ordered at .clu or wider. -/
  | amoMaxUScoped (k : Fin 4) (d : Fin 64) (a : Fin 64) (b : Fin 64) (o : Fin 4) (z : Fin 2)
  /-- R146: Atomic swap ordered at .clu or wider. -/
  | amoSwapScoped (k : Fin 4) (d : Fin 64) (a : Fin 64) (b : Fin 64) (o : Fin 4) (z : Fin 2)
  /-- R146: Atomic compare-and-swap ordered at .clu or wider. -/
  | amoCasScoped (k : Fin 4) (d : Fin 64) (a : Fin 64) (b : Fin 64) (o : Fin 4) (z : Fin 2)
  /-- R32: Release fence at a scope. -/
  | fenceRel (s : Fin 8)
  /-- R32: Acquire fence at a scope. -/
  | fenceAcq (s : Fin 8)
  /-- R32: Acquire-release fence at a scope. -/
  | fenceAr (s : Fin 8)
  /-- R149: Read prefetch hint. -/
  | pf (a : Fin 64) (i : BitVec 13)
  /-- R149: Exclusive prefetch hint for a coming write. -/
  | pfW (a : Fin 64) (i : BitVec 13)
  /-- R149: Residency hint to keep a line. -/
  | pfKeep (a : Fin 64) (i : BitVec 13)
  /-- R149: Residency hint to evict a line first. -/
  | pfDrop (a : Fin 64) (i : BitVec 13)
  /-- R150: Reads 8 bytes and arms a watch on the line in one step. -/
  | mon (d : Fin 64) (a : Fin 64) (b : Fin 64)
  /-- R151: Parks until a watch fires, a timeout or another wake event. -/
  | mwait (d : Fin 64) (a : Fin 64)
  /-- R154: Gang barrier at a scope. -/
  | gbar (s : Fin 8)
  /-- R154: Gang barrier combining operands by AND. -/
  | gvoteAnd (d : Fin 64) (a : Fin 64) (s : Fin 8)
  /-- R154: Gang barrier combining operands by OR. -/
  | gvoteOr (d : Fin 64) (a : Fin 64) (s : Fin 8)
  /-- R154: Gang barrier combining operands by unsigned minimum. -/
  | gvoteMinU (d : Fin 64) (a : Fin 64) (s : Fin 8)
  /-- R154: Gang barrier combining operands by unsigned maximum. -/
  | gvoteMaxU (d : Fin 64) (a : Fin 64) (s : Fin 8)
  /-- R154: Gang barrier combining operands by sum. -/
  | gvoteAdd (d : Fin 64) (a : Fin 64) (s : Fin 8)
  /-- R161: Derives a register name for a range of the context's own registers. -/
  | rcap (d : Fin 64) (a : Fin 64) (b : Fin 64) (c : Fin 4)
  /-- R161: Derives a w-register name with SC. -/
  | rcapC (d : Fin 64) (a : Fin 64) (b : Fin 64)
  /-- R161: Sets awaiting bits of a register range. -/
  | rarm (a : Fin 64) (b : Fin 64) (c : Fin 4)
  /-- R161: Clears awaiting bits of a register range. -/
  | rdis (a : Fin 64) (b : Fin 64) (c : Fin 4)
  /-- R161: Reads the awaiting bits of a class. -/
  | rstat (d : Fin 64) (c : Fin 4)
  /-- R161: Privileged: makes a sealed cross-tenant name. -/
  | rcapX (d : Fin 64) (a : Fin 64) (b : Fin 64)
  /-- R162: Sends a register value into a named register, optionally with a release. -/
  | rput (d : Fin 64) (a : Fin 64) (b : Fin 64) (o : Fin 8) (c : Fin 4)
  /-- R84: Writes a valid image into a format register. -/
  | fmset (d : Fin 64) (b : Fin 64)
  /-- R84: Writes a format register from a constant. -/
  | fmsetK (d : Fin 64) (k : KRef)
  /-- R84: Reads a format register. -/
  | fmget (d : Fin 64) (a : Fin 64)
  /-- R157: Reads a system register. -/
  | getsr (d : Fin 64) (a : Fin 64)
  /-- R157: Writes a system register under its rules. -/
  | setsr (a : Fin 64) (b : Fin 64)
  /-- R157: Reads the global time counter. -/
  | tcnt (d : Fin 64)
  /-- R157: Sets a constant window capability. -/
  | setcw (d : Fin 64) (b : Fin 64)
  /-- R158: System call trap 0x14. -/
  | sys (i : BitVec 13)
  /-- R158: Breakpoint trap 0x15. -/
  | trap
  /-- R111: Returns from a trap using ESR, EPC and the resume header. -/
  | rfe
  /-- R384: Queues a launch and returns its ticket. -/
  | launch (d : Fin 64) (a : Fin 64)
  /-- R385: Writes a continuation record and returns its handle. -/
  | cpush (d : Fin 64) (a : Fin 64)
  /-- R386: Decrements a continuation's join counter. -/
  | cjoin (a : Fin 64)
  /-- R387: Privileged: sets a tenant's stop cycle. -/
  | stopat (a : Fin 64) (b : Fin 64)
  /-- R401: Reports a cross-check disagreement against a resource. -/
  | hq (d : Fin 64) (a : Fin 64)
  /-- R401: Reads a resource's FSTAT. -/
  | hqRd (d : Fin 64) (a : Fin 64)
  /-- R402: Registers the context for capacity notices. -/
  | lack
  /-- R402: Cancels registration for notices. -/
  | lackOff
  /-- R403: Privileged: grants, revokes, authorises or denies retirement. -/
  | hauth (a : Fin 64) (b : Fin 64)
  /-- R362: Migrates frame F onto frame G's backing. -/
  | pmig (a : Fin 64) (b : Fin 64)
  /-- R363: Clears a frame's policy tag. -/
  | pmigClr (a : Fin 64)
  /-- R364: Merges a software-managed region and makes it coherent. -/
  | mcohHw (a : Fin 64) (b : Fin 64)
  /-- R364: Switches a region to software-managed mode. -/
  | mcohSw (a : Fin 64)
  /-- R365: Sets a tenant's way mask in a slice. -/
  | wmask (a : Fin 64) (b : Fin 64)
  /-- R182: Floating-point vector add. -/
  | vaddF (t : Fin 4) (d : Fin 64) (a : Fin 64) (b : BOp) (g : Fin 8)
  /-- R182: Floating-point vector subtract. -/
  | vsubF (t : Fin 4) (d : Fin 64) (a : Fin 64) (b : BOp) (g : Fin 8)
  /-- R182: Floating-point vector multiply. -/
  | vmulF (t : Fin 4) (d : Fin 64) (a : Fin 64) (b : BOp) (g : Fin 8)
  /-- R182: Floating-point vector minimum. -/
  | vminF (t : Fin 4) (d : Fin 64) (a : Fin 64) (b : BOp) (g : Fin 8)
  /-- R182: Floating-point vector maximum. -/
  | vmaxF (t : Fin 4) (d : Fin 64) (a : Fin 64) (b : BOp) (g : Fin 8)
  /-- R182: Fused multiply-add into vD. -/
  | vfma (t : Fin 4) (d : Fin 64) (a : Fin 64) (b : BOp) (g : Fin 8)
  /-- R182: Fused multiply-subtract from vD. -/
  | vfms (t : Fin 4) (d : Fin 64) (a : Fin 64) (b : BOp) (g : Fin 8)
  /-- R183: Clears the sign bit. -/
  | vabs (d : Fin 64) (a : Fin 64) (t : Fin 64) (g : Fin 8)
  /-- R183: Inverts the sign bit. -/
  | vneg (d : Fin 64) (a : Fin 64) (t : Fin 64) (g : Fin 8)
  /-- R183: Correctly rounded 2^x. -/
  | vexp2 (d : Fin 64) (a : Fin 64) (t : Fin 64) (g : Fin 8)
  /-- R183: Correctly rounded reciprocal. -/
  | vrcp (d : Fin 64) (a : Fin 64) (t : Fin 64) (g : Fin 8)
  /-- R183: Correctly rounded reciprocal square root. -/
  | vrsq (d : Fin 64) (a : Fin 64) (t : Fin 64) (g : Fin 8)
  /-- R184: FP compare equal into a predicate. -/
  | vcmpEqF (t : Fin 4) (d : Fin 64) (a : Fin 64) (b : BOp) (g : Fin 8)
  /-- R184: FP compare not-equal into a predicate. -/
  | vcmpNeF (t : Fin 4) (d : Fin 64) (a : Fin 64) (b : BOp) (g : Fin 8)
  /-- R184: FP compare less-than into a predicate. -/
  | vcmpLtF (t : Fin 4) (d : Fin 64) (a : Fin 64) (b : BOp) (g : Fin 8)
  /-- R184: FP compare less-or-equal into a predicate. -/
  | vcmpLeF (t : Fin 4) (d : Fin 64) (a : Fin 64) (b : BOp) (g : Fin 8)
  /-- R184: FP unordered compare into a predicate. -/
  | vcmpUnF (t : Fin 4) (d : Fin 64) (a : Fin 64) (b : BOp) (g : Fin 8)
  /-- R185: 32-bit integer vector add. -/
  | vaddW (d : Fin 64) (a : Fin 64) (b : BOp) (g : Fin 8)
  /-- R185: 32-bit integer vector subtract. -/
  | vsubW (d : Fin 64) (a : Fin 64) (b : BOp) (g : Fin 8)
  /-- R185: 32-bit integer vector multiply. -/
  | vmulW (d : Fin 64) (a : Fin 64) (b : BOp) (g : Fin 8)
  /-- R185: 32-bit signed minimum. -/
  | vminW (d : Fin 64) (a : Fin 64) (b : BOp) (g : Fin 8)
  /-- R185: 32-bit signed maximum. -/
  | vmaxW (d : Fin 64) (a : Fin 64) (b : BOp) (g : Fin 8)
  /-- R185: 32-bit unsigned minimum. -/
  | vminUW (d : Fin 64) (a : Fin 64) (b : BOp) (g : Fin 8)
  /-- R185: 32-bit unsigned maximum. -/
  | vmaxUW (d : Fin 64) (a : Fin 64) (b : BOp) (g : Fin 8)
  /-- R185: 32-bit vector AND. -/
  | vandW (d : Fin 64) (a : Fin 64) (b : BOp) (g : Fin 8)
  /-- R185: 32-bit vector OR. -/
  | vorW (d : Fin 64) (a : Fin 64) (b : BOp) (g : Fin 8)
  /-- R185: 32-bit vector XOR. -/
  | vxorW (d : Fin 64) (a : Fin 64) (b : BOp) (g : Fin 8)
  /-- R185: 32-bit vector shift left. -/
  | vshlW (d : Fin 64) (a : Fin 64) (b : BOp) (g : Fin 8)
  /-- R185: 32-bit vector logical shift right. -/
  | vshrW (d : Fin 64) (a : Fin 64) (b : BOp) (g : Fin 8)
  /-- R185: 32-bit vector arithmetic shift right. -/
  | vsraW (d : Fin 64) (a : Fin 64) (b : BOp) (g : Fin 8)
  /-- R185: 16-bit integer vector add. -/
  | vaddH (d : Fin 64) (a : Fin 64) (b : BOp) (g : Fin 8)
  /-- R185: 16-bit integer vector subtract. -/
  | vsubH (d : Fin 64) (a : Fin 64) (b : BOp) (g : Fin 8)
  /-- R185: 16-bit integer vector multiply. -/
  | vmulH (d : Fin 64) (a : Fin 64) (b : BOp) (g : Fin 8)
  /-- R185: 16-bit signed minimum. -/
  | vminH (d : Fin 64) (a : Fin 64) (b : BOp) (g : Fin 8)
  /-- R185: 16-bit signed maximum. -/
  | vmaxH (d : Fin 64) (a : Fin 64) (b : BOp) (g : Fin 8)
  /-- R185: 16-bit unsigned minimum. -/
  | vminUH (d : Fin 64) (a : Fin 64) (b : BOp) (g : Fin 8)
  /-- R185: 16-bit unsigned maximum. -/
  | vmaxUH (d : Fin 64) (a : Fin 64) (b : BOp) (g : Fin 8)
  /-- R185: 16-bit vector AND. -/
  | vandH (d : Fin 64) (a : Fin 64) (b : BOp) (g : Fin 8)
  /-- R185: 16-bit vector OR. -/
  | vorH (d : Fin 64) (a : Fin 64) (b : BOp) (g : Fin 8)
  /-- R185: 16-bit vector XOR. -/
  | vxorH (d : Fin 64) (a : Fin 64) (b : BOp) (g : Fin 8)
  /-- R185: 16-bit vector shift left. -/
  | vshlH (d : Fin 64) (a : Fin 64) (b : BOp) (g : Fin 8)
  /-- R185: 16-bit vector logical shift right. -/
  | vshrH (d : Fin 64) (a : Fin 64) (b : BOp) (g : Fin 8)
  /-- R185: 16-bit vector arithmetic shift right. -/
  | vsraH (d : Fin 64) (a : Fin 64) (b : BOp) (g : Fin 8)
  /-- R186: 32-bit integer compare equal. -/
  | vcmpEqW (d : Fin 64) (a : Fin 64) (b : BOp) (g : Fin 8)
  /-- R186: 32-bit integer compare not-equal. -/
  | vcmpNeW (d : Fin 64) (a : Fin 64) (b : BOp) (g : Fin 8)
  /-- R186: 32-bit signed less-than. -/
  | vcmpLtW (d : Fin 64) (a : Fin 64) (b : BOp) (g : Fin 8)
  /-- R186: 32-bit signed less-or-equal. -/
  | vcmpLeW (d : Fin 64) (a : Fin 64) (b : BOp) (g : Fin 8)
  /-- R186: 32-bit unsigned less-than. -/
  | vcmpLtUW (d : Fin 64) (a : Fin 64) (b : BOp) (g : Fin 8)
  /-- R186: 32-bit unsigned less-or-equal. -/
  | vcmpLeUW (d : Fin 64) (a : Fin 64) (b : BOp) (g : Fin 8)
  /-- R186: 16-bit integer compare equal. -/
  | vcmpEqH (d : Fin 64) (a : Fin 64) (b : BOp) (g : Fin 8)
  /-- R186: 16-bit integer compare not-equal. -/
  | vcmpNeH (d : Fin 64) (a : Fin 64) (b : BOp) (g : Fin 8)
  /-- R186: 16-bit signed less-than. -/
  | vcmpLtH (d : Fin 64) (a : Fin 64) (b : BOp) (g : Fin 8)
  /-- R186: 16-bit signed less-or-equal. -/
  | vcmpLeH (d : Fin 64) (a : Fin 64) (b : BOp) (g : Fin 8)
  /-- R186: 16-bit unsigned less-than. -/
  | vcmpLtUH (d : Fin 64) (a : Fin 64) (b : BOp) (g : Fin 8)
  /-- R186: 16-bit unsigned less-or-equal. -/
  | vcmpLeUH (d : Fin 64) (a : Fin 64) (b : BOp) (g : Fin 8)
  /-- R187: Selects 32-bit elements by predicate. -/
  | vselW (d : Fin 64) (a : Fin 64) (b : Fin 64) (s : Fin 8)
  /-- R187: Selects 16-bit elements by predicate. -/
  | vselH (d : Fin 64) (a : Fin 64) (b : Fin 64) (s : Fin 8)
  /-- R189: Converts FP32 to FP16 in one half. -/
  | vcvtF16F32 (d : Fin 64) (a : Fin 64) (h : Fin 64) (g : Fin 8)
  /-- R189: Converts FP32 to BF16 in one half. -/
  | vcvtBf16F32 (d : Fin 64) (a : Fin 64) (h : Fin 64) (g : Fin 8)
  /-- R189: Converts FP16 to FP32. -/
  | vcvtF32F16 (d : Fin 64) (a : Fin 64) (h : Fin 64) (g : Fin 8)
  /-- R189: Converts BF16 to FP32. -/
  | vcvtF32Bf16 (d : Fin 64) (a : Fin 64) (h : Fin 64) (g : Fin 8)
  /-- R189: Converts FP32 to a 32-bit integer. -/
  | vcvtWF32 (d : Fin 64) (a : Fin 64) (g : Fin 8)
  /-- R189: Converts a 32-bit integer to FP32. -/
  | vcvtF32W (d : Fin 64) (a : Fin 64) (g : Fin 8)
  /-- R190: Converts FP32 into a narrow format with block scales. -/
  | vcvtN (d : Fin 64) (a : Fin 64) (b : Fin 64) (g : Fin 8) (q : Fin 4)
  /-- R190: Converts narrow codes into FP32. -/
  | vcvtNf (d : Fin 64) (a : Fin 64) (b : Fin 64) (g : Fin 8) (q : Fin 4)
  /-- R188: Moves a vector register. -/
  | vmov (d : Fin 64) (a : Fin 64) (g : Fin 8)
  /-- R188: Permutes 32-bit elements. -/
  | vpermW (d : Fin 64) (a : Fin 64) (b : Fin 64) (g : Fin 8)
  /-- R188: Permutes 16-bit elements. -/
  | vpermH (d : Fin 64) (a : Fin 64) (b : Fin 64) (g : Fin 8)
  /-- R188: Broadcasts a 32-bit value. -/
  | vbcstW (d : Fin 64) (a : Fin 64) (g : Fin 8)
  /-- R188: Broadcasts a 16-bit value. -/
  | vbcstH (d : Fin 64) (a : Fin 64) (g : Fin 8)
  /-- R188: Extracts a 32-bit element into a w register. -/
  | vextW (d : Fin 64) (a : Fin 64) (b : Fin 64)
  /-- R188: Extracts a 16-bit element into a w register. -/
  | vextH (d : Fin 64) (a : Fin 64) (b : Fin 64)
  /-- R191: Pairwise FP32 sum reduction. -/
  | vredSumF32 (d : Fin 64) (a : Fin 64) (g : Fin 8)
  /-- R191: FP16 sum reduction. -/
  | vredSumF16 (d : Fin 64) (a : Fin 64) (g : Fin 8)
  /-- R191: BF16 sum reduction. -/
  | vredSumBf16 (d : Fin 64) (a : Fin 64) (g : Fin 8)
  /-- R191: FP32 maximum reduction. -/
  | vredMaxF32 (d : Fin 64) (a : Fin 64) (g : Fin 8)
  /-- R191: FP32 minimum reduction. -/
  | vredMinF32 (d : Fin 64) (a : Fin 64) (g : Fin 8)
  /-- R191: 32-bit integer sum reduction. -/
  | vredSumW (d : Fin 64) (a : Fin 64) (g : Fin 8)
  /-- R192: Predicate AND. -/
  | pand (d : Fin 64) (a : Fin 64) (b : Fin 64)
  /-- R192: Predicate OR. -/
  | por (d : Fin 64) (a : Fin 64) (b : Fin 64)
  /-- R192: Predicate XOR. -/
  | pxor (d : Fin 64) (a : Fin 64) (b : Fin 64)
  /-- R192: Predicate AND-NOT. -/
  | pandn (d : Fin 64) (a : Fin 64) (b : Fin 64)
  /-- R192: Sets the first n 16-bit lane bits. -/
  | pwhileH (d : Fin 64) (a : Fin 64)
  /-- R192: Sets the bits of the first n 32-bit elements. -/
  | pwhileW (d : Fin 64) (a : Fin 64)
  /-- R192: Moves a w register into a predicate. -/
  | pmov (d : Fin 64) (a : Fin 64)
  /-- R192: Moves a predicate into a w register. -/
  | pget (d : Fin 64) (a : Fin 64)
  /-- R193: Predicated vector load. -/
  | vld (d : Fin 64) (a : Fin 64) (b : BOp) (g : Fin 8)
  /-- R193: Predicated vector store. -/
  | vst (d : Fin 64) (a : Fin 64) (b : BOp) (g : Fin 8)
  /-- R193: Loads a word and broadcasts it. -/
  | vldBcW (d : Fin 64) (a : Fin 64) (b : BOp) (g : Fin 8)
  /-- R193: Loads a halfword and broadcasts it. -/
  | vldBcH (d : Fin 64) (a : Fin 64) (b : BOp) (g : Fin 8)
  /-- R228: Dense tile product into an accumulator. -/
  | mmac (a : Fin 64) (b : Fin 64) (t : Fin 4) (z : Fin 4)
  /-- R229: Sparse-A tile product from a packed cut. -/
  | mmacS (d : Fin 64) (a : Fin 64) (b : Fin 64) (t : Fin 4) (z : Fin 4)
  /-- R229: Sparse-A, sparse-B tile product. -/
  | mmacSs (d : Fin 64) (a : Fin 64) (b : Fin 64) (t : Fin 4) (z : Fin 4)
  /-- R231: Triangular tile product that sets MSK and TRIV. -/
  | mmacTri (a : Fin 64) (b : Fin 64) (t : Fin 4) (z : Fin 4)
  /-- R232: Ragged grouped product. -/
  | mgrp (d : Fin 64) (a : Fin 64) (b : Fin 64) (t : Fin 4) (z : Fin 4)
  /-- R233: Clears an accumulator and sets its anchor. -/
  | zclr (a : Fin 64) (z : Fin 4)
  /-- R233: Re-expresses an accumulator at a new anchor. -/
  | zanchor (a : Fin 64) (z : Fin 4)
  /-- R233: Fits an anchor to an FP32 magnitude. -/
  | zfit (a : Fin 64) (z : Fin 4)
  /-- R234: Reads an accumulator out, rounded once, to memory. -/
  | zread (a : Fin 64) (b : Fin 64) (f : Fin 2) (z : Fin 4)
  /-- R234: Readout substituting a constant for masked elements. -/
  | zreadTri (d : Fin 64) (a : Fin 64) (b : Fin 64) (f : Fin 2) (z : Fin 4)
  /-- R234: Exports raw accumulator elements and control word. -/
  | zraw (a : Fin 64) (b : Fin 64) (z : Fin 4)
  /-- R221: Cuts a sparse tile into a packing buffer. -/
  | dcut (d : Fin 64) (a : Fin 64) (b : Fin 64) (t : Fin 4)
  /-- R223: Cuts the dense partner to a tile's k range. -/
  | dcutP (d : Fin 64) (a : Fin 64) (b : Fin 64) (t : Fin 4)
  /-- R224: Co-cuts two sparse operands. -/
  | dcutCo (d : Fin 64) (a : Fin 64) (b : Fin 64) (t : Fin 4)
  /-- R235: Reads a tb register. -/
  | mtbr (d : Fin 64) (a : Fin 64)
  /-- R235: Writes a tb register unchecked. -/
  | mtbw (d : Fin 64) (a : Fin 64)
  /-- R236: Carries the next matrix instruction to another core's unit. -/
  | mcmd (a : Fin 64) (c : Instr)
  /-- R265: Binds a stream generator to a register. -/
  | sbind (d : Fin 64) (a : Fin 64) (b : Fin 64) (n : Fin 4) (e : Fin 2) (r : Fin 2)
  /-- R267: Releases a stream generator. -/
  | sfree (d : Fin 64)
  /-- R268: Reads a stream generator summary. -/
  | sstat (d : Fin 64) (a : Fin 64)
  /-- R269: Bulk copy, optionally ordered. -/
  | cpy (d : Fin 64) (a : Fin 64) (b : Fin 64) (o : Fin 2)
  /-- R269: Masked multicast copy into the own scratch. -/
  | cpyMc (d : Fin 64) (a : Fin 64) (b : Fin 64) (o : Fin 2)
  /-- R270: Fills a message-build register. -/
  | mbset (d : Fin 64) (a : Fin 64) (b : Fin 64)
  /-- R270: Sends a message to a target core, optionally releasing. -/
  | msend (d : Fin 64) (a : Fin 64) (o : Fin 8)
  /-- R271: Posts a receive or takes a queued message. -/
  | mrecv (d : Fin 64) (a : Fin 64) (b : Fin 64)
  /-- R272: Reads a message counter. -/
  | mcnt (d : Fin 64) (a : Fin 64)
  /-- R272: Writes a message counter. -/
  | mcntSet (a : Fin 64) (b : Fin 64)
  /-- R257: Parks until a message counter reaches a threshold. -/
  | mwcnt (a : Fin 64) (b : Fin 64)
  /-- R273: Parks until the mailbox holds a message. -/
  | wfm (d : Fin 64)
  /-- R273: Takes the oldest mailbox message, acting as an acquire. -/
  | mpop (d : Fin 64)
  /-- R274: Sets full bits over a scratch range. -/
  | feset (a : Fin 64) (b : Fin 64)
  /-- R274: Clears full bits over a scratch range. -/
  | feclr (a : Fin 64) (b : Fin 64)
  /-- R284: Loads a kernel image into a slot. -/
  | pkload (d : Fin 64) (a : Fin 64)
  /-- R284: Starts a walker on a kernel over an index array. -/
  | pkrun (d : Fin 64) (a : Fin 64) (b : Fin 64) (k : Fin 4)
  /-- R284: Reads a walker's status. -/
  | pkstat (d : Fin 64) (a : Fin 64)
  /-- R284: Stops a walker and discards uncommitted runs. -/
  | pkstop (a : Fin 64)
  /-- R287: Opens a fibre register. -/
  | fbopen (d : Fin 64) (a : Fin 64)
  /-- R287: Hands over the next fibre entry. -/
  | fbadv (d : Fin 64) (a : Fin 64)
  /-- R287: Tests whether a fibre is exhausted. -/
  | fbend (d : Fin 64) (a : Fin 64)
  /-- R287: Closes a fibre. -/
  | fbclose (a : Fin 64)
  /-- R288: Exact dot product of two fibres. -/
  | fbdot (d : Fin 64) (a : Fin 64) (b : Fin 64)
  /-- R328: Declares a field and takes its pages. -/
  | fdecl (d : Fin 64) (a : Fin 64)
  /-- R329: Puts a field into run. -/
  | fstart (d : Fin 64) (a : Fin 64)
  /-- R330: Ends a field at a boundary. -/
  | fstop (a : Fin 64)
  /-- R329: Advances a field k boundaries and holds. -/
  | fstep (d : Fin 64) (a : Fin 64) (b : Fin 64)
  /-- R331: Enters a furnish entry that changes β or the mode. -/
  | fctl (d : Fin 64) (a : Fin 64) (b : Fin 64)
  /-- R334: Reads a field's position, mode and counters. -/
  | fq (d : Fin 64) (a : Fin 64)
  /-- R333: Takes a pull of site lines at a boundary. -/
  | fpull (d : Fin 64) (a : Fin 64) (b : Fin 64)
  /-- R332: Enters coupling or bias values in the furnish queue. -/
  | fcoup (d : Fin 64) (a : Fin 64) (b : Fin 64)
  /-- R335: Waits for a boundary to be published. -/
  | fwait (d : Fin 64) (a : Fin 64) (b : Fin 64)
  /-- R412: Power is applied: time counter reads 0, MEAS registers are cleared and the boot ROM starts. -/
  | powerOn
  /-- R412: When Flaide link training ends, the device locks its time counter to the domain reference or becomes the reference itself. -/
  | timeCounterLock (ref : Option Nat) (peers : List Nat)
  /-- R415: Every 1 ms each thermal sensor is sampled into TEMP and TMAX. -/
  | sensorSample (d s : Nat) (temp : BitVec 16)
  /-- R415: A read of a THERM register returns it and resets TMAX to TEMP. -/
  | thermRead (d s : Nat)
  /-- R417: The power stage removes power when its own sensors read 130 °C. -/
  | powerStageCutoff
  /-- R416: A privileged store to offsets 0–48 of a key slot fills its staging register. -/
  | kslotStage (t off : Nat) (v : BitVec 64)
  /-- R416: A store to offset 56 of a key slot commits the whole key and advances KGEN if all eight dwords were written, and otherwise discards the staging. -/
  | kslotCommit (t : Nat) (v : BitVec 64)
  /-- R414: A privileged store to MEXT offsets 0–40 stages part of a 48-byte hash. -/
  | mextStage (off : Nat) (v : BitVec 64)
  /-- R414: A store to MEXT offset 48 extends MEAS4–MEAS7 with the staged hash in one step. -/
  | mextExtend (v : BitVec 64)
  /-- R416: A load of offset 0 of a MEAS register latches the whole 384-bit register and returns its first dword. -/
  | measLatch (n : Nat)
  /-- R409: A privileged write of a route table entry binds a destination device to up to four ports, or marks it unreachable. -/
  | rtabWrite (n : Nat) (v : BitVec 64)
  /-- R410: Writing bit 1 of DDEAD clears the dead mark of a device. -/
  | ddeadClear (n : Nat) (v : BitVec 64)
  /-- R410: Writing bit 1 of LDEAD clears a link's dead mark and returns it to Fastness state 0. -/
  | ldeadClear (n : Nat) (v : BitVec 64)
  /-- R22: A privileged write of a configuration register that has no row of its own sets that register, effective from the next cycle. -/
  | configWrite (addr : Nat) (v : BitVec 64)
  /-- R408: A link flit that fails its CRC is replayed from the sender's replay buffer, and a corrected error is counted against the link. -/
  | linkFlitReplay (port : Nat)
  /-- R358: Every 10 µs each Flaide link carries a heartbeat in class CTL. -/
  | heartbeat (port : Nat) (heard : Bool)
  /-- R358: A link whose peer misses three heartbeats is declared dead and its traffic is rerouted. -/
  | linkDead (port : Nat)
  /-- R358: After 30 µs without a live route, the remote device becomes dead, its held pages are poisoned and a fault record goes to the Fastness unit. -/
  | deviceDead (n : Nat)
  /-- R358: The Flaide egress answers a packet addressed to a dead device in that device's place. -/
  | deadPeerSynthesis (k : Nat)
  /-- R359: A new network frame of 2,048 cycles begins, and waiting packets are admitted under their quotas. -/
  | qosFrame
  /-- R27: The oldest store queue entry leaves for its bank queue or for the outbound port. -/
  | storeQueueLeave (h slot : Nat)
  /-- R28: An agent applies a write, or serves a read, at the bank queue or home slice that holds the bytes. -/
  | writeApplied (k : Nat)
  /-- R38: An engine finishes with a recalled line, and the waiting access proceeds and sees the engine's write. -/
  | recallComplete (k : Nat)
  /-- R26: The value of an off-core load returns, is written to its register, and the parked context becomes ready. -/
  | loadReturn (h slot : Nat)
  /-- R36: The applying agent performs an atomic's read and write with no access between them and returns the old value. -/
  | atomicPerformed (k : Nat)
  /-- R35: An agent answers a completion probe once every earlier write of the prober's tenant has been applied. -/
  | completionProbeAnswer (h slot agent : Nat)
  /-- R110: A pending register overwrite, receive overflow or mailbox interrupt is taken before the context's next instruction. -/
  | asyncTrapEntry
  /-- R134: Once hend's waits are met, the context's mailbox is discarded, its watches are released and its slot becomes idle. -/
  | contextEnd (h slot : Nat)
  /-- R379: At global cycle T every context of the tenant halts at an instruction boundary. -/
  | stopCycleReached (t : Nat)
  /-- R380: Once halted store queues drain, a felt token sweeps the tenant's packets into felt buffers. -/
  | feltToken (t : Nat)
  /-- R380: When the token has passed and fields and slice commands are done, the saved state is written and TSTATE becomes stopped. -/
  | stopComplete (t : Nat)
  /-- R381: Writing 1 to TRESUME while stopped makes TSTATE resuming. -/
  | tresumeWrite (t : Nat) (v : BitVec 64)
  /-- R381: Once the cores are free, gangs are restored, felt buffers re-injected, field modes restored and contexts issue. -/
  | resumeStart (t : Nat)
  /-- R115: Writing 1 to bit 0 of DHALT halts all contexts of the core and drains its issue latches. -/
  | dhaltHalt (h : Nat)
  /-- R115: Writing 0 to bit 0 of DHALT releases the halted contexts. -/
  | dhaltRelease (h : Nat)
  /-- R116: A store to SBW or SBVP while the core is halted sets or clears awaiting bits. -/
  | scoreboardWrite (h off : Nat) (v : BitVec 64)
  /-- R116: DCMD value 1 writes the register selected by DSEL from DLO, DHI and DTAG, or is refused with REF set. -/
  | dcmdWrite (h : Nat)
  /-- R116: DCMD value 2 reads the register selected by DSEL into DLO, DHI and DTAG. -/
  | dcmdRead (h : Nat)
  /-- R109: Writing RESUME to CTXCTL of a double-trapped slot returns it as rfe would. -/
  | ctxctlResume (h slot : Nat)
  /-- R109: Writing DISMISS to CTXCTL ends a double-trapped context as hend does. -/
  | ctxctlDismiss (h slot : Nat)
  /-- R168: A privileged store changes a context location entry from saved to cold. -/
  | locationSavedToCold (id : Nat)
  /-- R168: A privileged store changes a context location entry from cold to saved. -/
  | locationColdToSaved (id : Nat)
  /-- R369: A store to TPART sets the tenant's partition unless the range, live gangs or a stop forbid it. -/
  | tpartWrite (t : Nat) (v : BitVec 64)
  /-- R344: A store to TINV drops overlapping entries from every TLB and pending walk and is applied when all have done so. -/
  | tinvWrite (t : Nat) (v : BitVec 64)
  /-- R343: A walker completes a translation walk and the waiting access takes its result or its fault. -/
  | tlbWalk (h t va : Nat)
  /-- R169: An arrival at the target device is checked in the context location table and routed by the entry's state. -/
  | fabArrivalResolve (k : Nat)
  /-- R164: The target core applies one arrival to a resident register, or discards it as an overwrite. -/
  | arrivalApply (k : Nat)
  /-- R165: An arrival credit returns to the sending context. -/
  | arrivalCreditReturn (k : Nat)
  /-- R260: An engine message enters the context's mailbox, or waits at the input while the mailbox is full. -/
  | mailboxEntry (h slot : Nat)
  /-- R327: The answer of the Vat, dispatch engine or Fastness unit arrives and is written to w[d], or trapped as a refusal. -/
  | engineAnswer (h slot : Nat)
  /-- R201: The matrix engine takes the next command, alternating between the local and remote queues. -/
  | matrixCommandTake (h : Nat)
  /-- R204: The matrix engine reads an operand granule at its bank queue. -/
  | operandRead (h granule : Nat)
  /-- R204: A matrix command retires when its reads have returned and its products or writes are complete. -/
  | matrixCommandRetire (h : Nat)
  /-- R208: A carried matrix command reaches the target unit, which accepts it into the remote queue or refuses it. -/
  | remoteCommandArrival (k : Nat)
  /-- R244: The transfer engine reads the next element of a read stream, up to four ahead. -/
  | streamReadAhead (h slot g : Nat)
  /-- R244: The transfer engine writes one appended element of a write stream. -/
  | streamElementWrite (h slot g : Nat)
  /-- R247: The copy engine reads and writes one destination line in ascending order and posts the completion after the last. -/
  | cpyLine (h k : Nat)
  /-- R250: A multicast line request at the home slice joins or opens an entry, and the entry closes when every member has joined. -/
  | multicastRequest (h k : Nat)
  /-- R250: A multicast entry open for 512 network cycles closes, and the line is read once and replied to the joined cores. -/
  | multicastEntryTimeout (k : Nat)
  /-- R255: A message reaches the target core's receive port and is matched, queued in overflow, or discarded and refused. -/
  | messageArrival (k : Nat)
  /-- R255: Once a delivery's granules are applied, the message counter is incremented. -/
  | messageCounterIncrement (h : Nat)
  /-- R253: A send allowance returns once the target has matched, queued or refused the message. -/
  | sendAllowanceReturn (k : Nat)
  /-- R290: A walker reads an index line ahead of its runs. -/
  | indexReadAhead (h n : Nat)
  /-- R280: A walker runs the kernel on one element until kend or a stall. -/
  | kernelRun (h n : Nat)
  /-- R280: The data of a kernel kld returns and its run resumes. -/
  | kldReturn (h n : Nat)
  /-- R281: A gather waits for its slot to be empty, then writes the bytes and sets the full bit, and its run commits. -/
  | gatherStep (h n : Nat)
  /-- R281: A scatter waits for its slot to be full, then reads and clears it and writes the target, and its run commits. -/
  | scatterStep (h n : Nat)
  /-- R284: A kernel image has been read and checked, and the slot becomes valid or invalid with a message. -/
  | pkloadImageRead (h n : Nat)
  /-- R289: An open fibre reads its next entry, up to eight ahead. -/
  | fibreReadAhead (h slot n : Nat)
  /-- R299: A Vat lane updates one site of the current phase with the conditional routine and uniforms. -/
  | siteUpdate (f site : Nat)
  /-- R303: A Vat reports to the phase master that every site write of the phase has been applied. -/
  | phaseReport (f vat : Nat)
  /-- R303: Once every Vat has reported, the phase master applies furnish entries and mode changes and publishes the boundary. -/
  | boundaryPublish (f : Nat)
  /-- R303: A Vat receives a published boundary and starts the following phase when the mode runs. -/
  | boundaryReceive (f vat : Nat)
  /-- R307: A Vat copies one line of a pull's range to the destination. -/
  | pullBackgroundCopy (f k line : Nat)
  /-- R307: Once every line of the range has been applied, the pull posts its completion. -/
  | pullComplete (f k : Nat)
  /-- R349: A device takes a remote page held or as a read copy, with copies dropped and the home's data sent. -/
  | pageTakeHeld (frame dev : Nat) (write : Bool)
  /-- R350: A device blocks, writes back and sends a held page to the home or the new holder. -/
  | pageGiveUp (frame dev : Nat)
  /-- R357: When a frame's copy and remap are done, the queued accesses are replayed at the new home slices. -/
  | migrationReplay (frame : Nat)
  /-- R373: The dispatch engine places the next gang of an eligible launch at the lowest fitting H-index and starts it. -/
  | gangPlacement (t : Nat)
  /-- R375: When every control context has ended and every open slot is idle, the gang's writes are released and its cores freed. -/
  | gangEnd (k : Nat)
  /-- R377: An idle open slot takes the highest-priority ready record of its tenant and starts or resumes it. -/
  | continuationPop (h slot : Nat)
  /-- R378: The engine signals the slot running the lowest-priority continuation to yield for waiting work. -/
  | yieldSignal (t : Nat)
  /-- R154: A gang barrier arrival reaches the dispatch engine, and the last arrival completes the instance and its vote. -/
  | barrierArrival (h slot : Nat)
  /-- R151: The mwait timeout expires and the context wakes with code 1. -/
  | mwaitTimeout (h slot : Nat)
  /-- R391: A resource's AGE reaches its class interval, or a quarter of it at high score, and the resource becomes due. -/
  | leaseDue (x : Nat)
  /-- R391: A quadrant test engine takes the first due resource it can take and starts its test session. -/
  | leaseTake (q : Nat)
  /-- R395: A test session ends, charges a miscompare if any, and returns the resource to service. -/
  | testSessionEnd (q : Nat) (miscompare : Bool)
  /-- R396: A corrected error, poison or dead link charges a fade score and tests the retirement threshold. -/
  | fadeEvent (x kind : Nat)
  /-- R396: At each 24-hour multiple of the time counter, every unretired score is halved. -/
  | scoreHalving
  /-- R398: When LRESOK changes, a deferred channel retirement is tried again. -/
  | channelRetirementRetry (x : Nat)
  /-- R417: Power to the module is lost, and the device stands as after a loss of power until the next power-on. -/
  | powerLoss
deriving DecidableEq, Repr

end Sys2Proof
end

