-- ==== Sys2Proof/WellFormed.lean ====
section
/-! DEFINITION. Which field values the entries allow (R62): an instruction whose fields are not well formed has no word, and the decoder refuses its word as an illegal encoding. -/

namespace Sys2Proof

/-- A range of registers a to a+n of a class with `size` registers, which for w registers leaves w0 out (R161). -/
def rangeOk (cls a n : Nat) : Bool :=
  match cls with
  | 0 => decide (1 ≤ a ∧ a + n ≤ 63)
  | 1 => decide (a + n ≤ 31)
  | 2 => decide (a + n ≤ 7)
  | _ => false

/-- A first register of a block of n registers: not w0, and the block ends at w63 or below (R215). -/
def blockOk (a : Fin 64) (n : Nat) : Bool := decide (1 ≤ a.val ∧ a.val + n ≤ 64)

/-- The b operand names v0-v31, or a constant (R180). -/
def BOp.isV : BOp → Bool
  | .reg b => decide (b.val < 32)
  | .konst _ => true

/-- d and a name v registers. -/
def vv (d a : Fin 64) : Bool := decide (d.val < 32 ∧ a.val < 32)

/-- A register pair d, d+1 for results of two registers: even, 2 to 62 (R145, R287). -/
def pairOk (d : Fin 64) : Bool := decide (d.val % 2 = 0 ∧ 2 ≤ d.val)

/-- The fields of an encoded instruction that may not be `mcmd`. -/
def Instr.wfFlat : Instr → Bool
  | .add d a b => decide (¬(d = 0 ∧ a = 0 ∧ b = 0))
  | .shli _ _ i | .shri _ _ i | .srai _ _ i => decide (i.toNat < 64)
  | .hstart d _ _ => decide (d.val < 10)
  | .fmt r _ _ _ _ => decide (r.val < 6)
  | .rep i => decide (1 ≤ i.toNat ∧ i.toNat < 4096)
  | .repW a => decide (a ≠ 0)
  | .ldSized _ _ _ o x s => decide (o.val < 7 ∧ ¬(x = 1 ∧ s = 3))
  | .ldSizedK _ _ _ o x s => decide (o.val < 7 ∧ ¬(x = 1 ∧ s = 3))
  | .stSized _ _ _ o _ => decide (o.val < 7)
  | .stSizedK _ _ _ o _ => decide (o.val < 7)
  | .ldfeP d _ _ | .ldfeClrP d _ _ => pairOk d
  | .amoAddScoped _ _ _ _ o _ | .amoAndScoped _ _ _ _ o _ | .amoOrScoped _ _ _ _ o _ | .amoXorScoped _ _ _ _ o _
  | .amoMinUScoped _ _ _ _ o _ | .amoMaxUScoped _ _ _ _ o _ | .amoSwapScoped _ _ _ _ o _
  | .amoCasScoped _ _ _ _ o _ => decide (o ≠ 0)
  | .fenceRel s | .fenceAcq s | .fenceAr s | .gbar s => decide (s.val < 6)
  | .gvoteAnd _ _ s | .gvoteOr _ _ s | .gvoteMinU _ _ s | .gvoteMaxU _ _ s | .gvoteAdd _ _ s => decide (s.val < 6)
  | .rcap _ a b c => rangeOk c.val a.val b.val
  | .rcapC _ a b => rangeOk 0 a.val b.val
  | .rarm a b c | .rdis a b c => rangeOk c.val a.val b.val
  | .rstat _ c => decide (c.val < 3)
  | .rput _ _ b o c => decide (o.val < 7 ∧ c.val < 3 ∧ (c = 1 → b.val < 32) ∧ (c = 2 → b.val < 8))
  | .fmset d _ => decide (d.val < 8)
  | .fmsetK d _ => decide (d.val < 8)
  | .fmget _ a => decide (a.val < 8)
  | .getsr _ a => decide (a.val < 8)
  | .setsr a _ => decide (a.val = 0 ∨ a.val = 1 ∨ a.val = 2 ∨ a.val = 5)
  | .setcw d _ => decide (d.val < 8)
  | .launch _ a => blockOk a 5
  | .cpush _ a => blockOk a 3
  | .vaddF t d a b _ | .vsubF t d a b _ | .vmulF t d a b _ | .vminF t d a b _ | .vmaxF t d a b _ | .vfma t d a b _
  | .vfms t d a b _ => decide (t.val < 3) && vv d a && b.isV
  | .vabs d a t _ | .vneg d a t _ | .vexp2 d a t _ | .vrcp d a t _ | .vrsq d a t _ => decide (t.val < 3) && vv d a
  | .vcmpEqF t d a b _ | .vcmpNeF t d a b _ | .vcmpLtF t d a b _ | .vcmpLeF t d a b _
  | .vcmpUnF t d a b _ => decide (t.val < 3 ∧ d.val < 8 ∧ a.val < 32) && b.isV
  | .vaddW d a b _ | .vsubW d a b _ | .vmulW d a b _ | .vminW d a b _ | .vmaxW d a b _ | .vminUW d a b _
  | .vmaxUW d a b _ | .vandW d a b _ | .vorW d a b _ | .vxorW d a b _ | .vshlW d a b _ | .vshrW d a b _
  | .vsraW d a b _ | .vaddH d a b _ | .vsubH d a b _ | .vmulH d a b _ | .vminH d a b _ | .vmaxH d a b _
  | .vminUH d a b _ | .vmaxUH d a b _ | .vandH d a b _ | .vorH d a b _ | .vxorH d a b _ | .vshlH d a b _
  | .vshrH d a b _ | .vsraH d a b _ => vv d a && b.isV
  | .vcmpEqW d a b _ | .vcmpNeW d a b _ | .vcmpLtW d a b _ | .vcmpLeW d a b _ | .vcmpLtUW d a b _ | .vcmpLeUW d a b _
  | .vcmpEqH d a b _ | .vcmpNeH d a b _ | .vcmpLtH d a b _ | .vcmpLeH d a b _ | .vcmpLtUH d a b _
  | .vcmpLeUH d a b _ => decide (d.val < 8 ∧ a.val < 32) && b.isV
  | .vselW d a b _ | .vselH d a b _ => vv d a && decide (b.val < 32)
  | .vcvtF16F32 d a h _ | .vcvtBf16F32 d a h _ | .vcvtF32F16 d a h _ | .vcvtF32Bf16 d a h _ => vv d a && decide (h.val < 2)
  | .vcvtWF32 d a _ | .vcvtF32W d a _ => vv d a
  | .vcvtN d a _ _ _ | .vcvtNf d a _ _ _ => vv d a
  | .vmov d a _ => vv d a
  | .vpermW d a b _ | .vpermH d a b _ => vv d a && decide (b.val < 32)
  | .vbcstW d _ _ | .vbcstH d _ _ => decide (d.val < 32)
  | .vextW _ a _ | .vextH _ a _ => decide (a.val < 32)
  | .vredSumF32 _ a _ | .vredSumF16 _ a _ | .vredSumBf16 _ a _ | .vredMaxF32 _ a _ | .vredMinF32 _ a _
  | .vredSumW _ a _ => decide (a.val < 32)
  | .pand d a b | .por d a b | .pxor d a b | .pandn d a b => decide (d.val < 8 ∧ a.val < 8 ∧ b.val < 8)
  | .pwhileH d _ | .pwhileW d _ | .pmov d _ => decide (d.val < 8)
  | .pget _ a => decide (a.val < 8)
  | .vld d _ _ _ | .vst d _ _ _ | .vldBcW d _ _ _ | .vldBcH d _ _ _ => decide (d.val < 32)
  | .mmac a _ t _ | .mmacTri a _ t _ => decide (t.val < 3) && blockOk a 3
  | .mmacS d a _ t _ => decide (t.val < 3 ∧ d.val < 8) && blockOk a 3
  | .mmacSs d a _ t _ => decide (t.val < 3 ∧ d.val < 8 ∧ d.val % 2 = 0) && blockOk a 3
  | .mgrp _ a _ t _ => decide (t.val < 3) && blockOk a 3
  | .dcut d a _ t => decide (t.val < 3 ∧ d.val < 8) && blockOk a 4
  | .dcutP d a _ t => decide (t.val < 3 ∧ d.val < 8) && blockOk a 2
  | .dcutCo d a _ t => decide (t.val < 3 ∧ d.val < 8 ∧ d.val % 2 = 0) && blockOk a 8
  | .mtbr _ a => decide (a.val < 8)
  | .mtbw d _ => decide (d.val < 8)
  | .sbind d a b _ e _ => decide (d.val < 8 ∧ b.val < 32 ∧ (e = 1 → 16 ≤ b.val)) && blockOk a 4
  | .sfree d => decide (d.val < 8)
  | .sstat _ a => decide (a.val < 8)
  | .mbset d _ _ => decide (d.val < 8)
  | .msend _ _ o => decide (o.val < 7)
  | .mrecv _ _ b => decide (1 ≤ b.val ∧ b.val ≤ 62)
  | .mcnt _ a => decide (a.val < 32)
  | .mcntSet a _ | .mwcnt a _ => decide (a.val < 32)
  | .pkload d _ => decide (d.val < 4)
  | .pkrun d a _ _ => decide (d.val < 4) && blockOk a 4
  | .pkstat _ a => decide (a.val < 4)
  | .pkstop a => decide (a.val < 4)
  | .fbopen d a => decide (d.val < 8) && blockOk a 3
  | .fbadv d a => decide (a.val < 8) && pairOk d
  | .fbend _ a => decide (a.val < 8)
  | .fbclose a => decide (a.val < 8)
  | .fbdot _ a b => decide (a.val < 8 ∧ b.val < 8 ∧ a ≠ b)
  | .fpull _ _ b | .fcoup _ _ b => decide (1 ≤ b.val ∧ b.val ≤ 62)
  | .mcmd .. => false
  | _ => true

/-- The instructions that `mcmd` may carry (R236). -/
def Instr.carriable : Instr → Bool
  | .mmac .. | .mmacS .. | .mmacSs .. | .mmacTri .. | .mgrp .. | .zclr .. | .zanchor .. | .zfit .. | .zread ..
  | .zreadTri .. | .zraw .. => true
  | _ => false

/-- Whether every field of an instruction holds a value that its entry allows. -/
def Instr.wellFormed : Instr → Bool
  | .mcmd _ c => c.carriable && c.wfFlat
  | i => i.wfFlat

end Sys2Proof
end

