-- ==== Sys2Proof/Decode.lean ====
section
/-! DEFINITION. The decoder of instruction words, total on any words (R56-R62), and the encoder, both from the encoding tables of the entries. The decoder is marked noncomputable only because Lean's runtime numbers no more than 244 constructors of one type; the kernel evaluates it. -/

namespace Sys2Proof

/-- Bits lo to lo+n-1 of a word. -/
def fld (w lo n : Nat) : Nat := w / 2 ^ lo % 2 ^ n

/-- A field of six bits: a register number. -/
def r6 (w lo : Nat) : Fin 64 := ⟨w / 2 ^ lo % 64, Nat.mod_lt _ (by decide)⟩

/-- A field of three bits. -/
def r3 (w lo : Nat) : Fin 8 := ⟨w / 2 ^ lo % 8, Nat.mod_lt _ (by decide)⟩

/-- A field of two bits. -/
def r2 (w lo : Nat) : Fin 4 := ⟨w / 2 ^ lo % 4, Nat.mod_lt _ (by decide)⟩

/-- A field of one bit. -/
def r1 (w lo : Nat) : Fin 2 := ⟨w / 2 ^ lo % 2, Nat.mod_lt _ (by decide)⟩

/-- The immediate of the I format, bits 0-12 (R56). -/
def i13 (w : Nat) : BitVec 13 := BitVec.ofNat 13 w

/-- The offset of the J format, bits 0-18 (R56). -/
def o19 (w : Nat) : BitVec 19 := BitVec.ofNat 19 w

/-- KOFF and KWIN of a K-form extension word (R58). -/
def kref (x : Nat) : KRef := ⟨r3 x 17, ⟨x % 131072, Nat.mod_lt _ (by decide)⟩⟩

/-- The K-form extension word of a constant reference (R58). -/
def KRef.word (k : KRef) : Nat := k.off.val + k.win.val * 131072

/-- What the b operand puts into the main word: its register number, or func bit 6 with a b field of zero (R58). -/
def BOp.field : BOp → Nat
  | .reg b => b.val * 128
  | .konst _ => 64

/-- The extension word that the b operand asks for. -/
def BOp.ext : BOp → List Nat
  | .reg _ => []
  | .konst k => [k.word]

/-- Major 0x00 of the opcode map (R61). -/
def decode00 (w x : Nat) : Option Instr :=
  if fld w 0 7 = 0 then some (.add (r6 w 19) (r6 w 13) (r6 w 7))
  else if fld w 0 7 = 1 then some (.sub (r6 w 19) (r6 w 13) (r6 w 7))
  else if fld w 0 7 = 2 then some (.mul (r6 w 19) (r6 w 13) (r6 w 7))
  else if fld w 0 7 = 3 then some (.mulh (r6 w 19) (r6 w 13) (r6 w 7))
  else if fld w 0 7 = 4 then some (.mulhU (r6 w 19) (r6 w 13) (r6 w 7))
  else if fld w 0 7 = 5 then some (.div (r6 w 19) (r6 w 13) (r6 w 7))
  else if fld w 0 7 = 6 then some (.divU (r6 w 19) (r6 w 13) (r6 w 7))
  else if fld w 0 7 = 7 then some (.rem (r6 w 19) (r6 w 13) (r6 w 7))
  else if fld w 0 7 = 8 then some (.remU (r6 w 19) (r6 w 13) (r6 w 7))
  else if fld w 0 7 = 9 then some (.and (r6 w 19) (r6 w 13) (r6 w 7))
  else if fld w 0 7 = 10 then some (.or (r6 w 19) (r6 w 13) (r6 w 7))
  else if fld w 0 7 = 11 then some (.xor (r6 w 19) (r6 w 13) (r6 w 7))
  else if fld w 0 7 = 12 then some (.shl (r6 w 19) (r6 w 13) (r6 w 7))
  else if fld w 0 7 = 13 then some (.shr (r6 w 19) (r6 w 13) (r6 w 7))
  else if fld w 0 7 = 14 then some (.sra (r6 w 19) (r6 w 13) (r6 w 7))
  else if fld w 0 7 = 15 then some (.min (r6 w 19) (r6 w 13) (r6 w 7))
  else if fld w 0 7 = 16 then some (.minU (r6 w 19) (r6 w 13) (r6 w 7))
  else if fld w 0 7 = 17 then some (.max (r6 w 19) (r6 w 13) (r6 w 7))
  else if fld w 0 7 = 18 then some (.maxU (r6 w 19) (r6 w 13) (r6 w 7))
  else if fld w 0 7 = 19 then some (.sel (r6 w 19) (r6 w 13) (r6 w 7))
  else if fld w 0 7 = 20 ∧ fld w 7 6 = 0 then some (.clz (r6 w 19) (r6 w 13))
  else if fld w 0 7 = 21 ∧ fld w 7 6 = 0 then some (.popc (r6 w 19) (r6 w 13))
  else if fld w 0 7 = 64 ∧ fld w 7 6 = 0 ∧ x < 1048576 then some (.addK (r6 w 19) (r6 w 13) (kref x))
  else if fld w 0 7 = 65 ∧ fld w 7 6 = 0 ∧ x < 1048576 then some (.subK (r6 w 19) (r6 w 13) (kref x))
  else if fld w 0 7 = 66 ∧ fld w 7 6 = 0 ∧ x < 1048576 then some (.mulK (r6 w 19) (r6 w 13) (kref x))
  else if fld w 0 7 = 67 ∧ fld w 7 6 = 0 ∧ x < 1048576 then some (.mulhK (r6 w 19) (r6 w 13) (kref x))
  else if fld w 0 7 = 68 ∧ fld w 7 6 = 0 ∧ x < 1048576 then some (.mulhUK (r6 w 19) (r6 w 13) (kref x))
  else if fld w 0 7 = 69 ∧ fld w 7 6 = 0 ∧ x < 1048576 then some (.divK (r6 w 19) (r6 w 13) (kref x))
  else if fld w 0 7 = 70 ∧ fld w 7 6 = 0 ∧ x < 1048576 then some (.divUK (r6 w 19) (r6 w 13) (kref x))
  else if fld w 0 7 = 71 ∧ fld w 7 6 = 0 ∧ x < 1048576 then some (.remK (r6 w 19) (r6 w 13) (kref x))
  else if fld w 0 7 = 72 ∧ fld w 7 6 = 0 ∧ x < 1048576 then some (.remUK (r6 w 19) (r6 w 13) (kref x))
  else if fld w 0 7 = 73 ∧ fld w 7 6 = 0 ∧ x < 1048576 then some (.andK (r6 w 19) (r6 w 13) (kref x))
  else if fld w 0 7 = 74 ∧ fld w 7 6 = 0 ∧ x < 1048576 then some (.orK (r6 w 19) (r6 w 13) (kref x))
  else if fld w 0 7 = 75 ∧ fld w 7 6 = 0 ∧ x < 1048576 then some (.xorK (r6 w 19) (r6 w 13) (kref x))
  else if fld w 0 7 = 76 ∧ fld w 7 6 = 0 ∧ x < 1048576 then some (.shlK (r6 w 19) (r6 w 13) (kref x))
  else if fld w 0 7 = 77 ∧ fld w 7 6 = 0 ∧ x < 1048576 then some (.shrK (r6 w 19) (r6 w 13) (kref x))
  else if fld w 0 7 = 78 ∧ fld w 7 6 = 0 ∧ x < 1048576 then some (.sraK (r6 w 19) (r6 w 13) (kref x))
  else if fld w 0 7 = 79 ∧ fld w 7 6 = 0 ∧ x < 1048576 then some (.minK (r6 w 19) (r6 w 13) (kref x))
  else if fld w 0 7 = 80 ∧ fld w 7 6 = 0 ∧ x < 1048576 then some (.minUK (r6 w 19) (r6 w 13) (kref x))
  else if fld w 0 7 = 81 ∧ fld w 7 6 = 0 ∧ x < 1048576 then some (.maxK (r6 w 19) (r6 w 13) (kref x))
  else if fld w 0 7 = 82 ∧ fld w 7 6 = 0 ∧ x < 1048576 then some (.maxUK (r6 w 19) (r6 w 13) (kref x))
  else if fld w 0 7 = 83 ∧ fld w 7 6 = 0 ∧ x < 1048576 then some (.selK (r6 w 19) (r6 w 13) (kref x))
  else none

/-- Major 0x01 of the opcode map (R61). -/
def decode01 (w x : Nat) : Option Instr :=
  if fld w 0 7 = 0 then some (.cmpEq (r6 w 19) (r6 w 13) (r6 w 7))
  else if fld w 0 7 = 1 then some (.cmpNe (r6 w 19) (r6 w 13) (r6 w 7))
  else if fld w 0 7 = 2 then some (.cmpLt (r6 w 19) (r6 w 13) (r6 w 7))
  else if fld w 0 7 = 3 then some (.cmpGe (r6 w 19) (r6 w 13) (r6 w 7))
  else if fld w 0 7 = 4 then some (.cmpLtU (r6 w 19) (r6 w 13) (r6 w 7))
  else if fld w 0 7 = 5 then some (.cmpGeU (r6 w 19) (r6 w 13) (r6 w 7))
  else if fld w 0 7 = 64 ∧ fld w 7 6 = 0 ∧ x < 1048576 then some (.cmpEqK (r6 w 19) (r6 w 13) (kref x))
  else if fld w 0 7 = 65 ∧ fld w 7 6 = 0 ∧ x < 1048576 then some (.cmpNeK (r6 w 19) (r6 w 13) (kref x))
  else if fld w 0 7 = 66 ∧ fld w 7 6 = 0 ∧ x < 1048576 then some (.cmpLtK (r6 w 19) (r6 w 13) (kref x))
  else if fld w 0 7 = 67 ∧ fld w 7 6 = 0 ∧ x < 1048576 then some (.cmpGeK (r6 w 19) (r6 w 13) (kref x))
  else if fld w 0 7 = 68 ∧ fld w 7 6 = 0 ∧ x < 1048576 then some (.cmpLtUK (r6 w 19) (r6 w 13) (kref x))
  else if fld w 0 7 = 69 ∧ fld w 7 6 = 0 ∧ x < 1048576 then some (.cmpGeUK (r6 w 19) (r6 w 13) (kref x))
  else none

/-- Major 0x02 of the opcode map (R61). -/
def decode02 (w _x : Nat) : Option Instr :=
  if True then some (.addi (r6 w 19) (r6 w 13) (i13 w))
  else none

/-- Major 0x03 of the opcode map (R61). -/
def decode03 (w _x : Nat) : Option Instr :=
  if True then some (.andi (r6 w 19) (r6 w 13) (i13 w))
  else none

/-- Major 0x04 of the opcode map (R61). -/
def decode04 (w _x : Nat) : Option Instr :=
  if True then some (.ori (r6 w 19) (r6 w 13) (i13 w))
  else none

/-- Major 0x05 of the opcode map (R61). -/
def decode05 (w _x : Nat) : Option Instr :=
  if True then some (.xori (r6 w 19) (r6 w 13) (i13 w))
  else none

/-- Major 0x06 of the opcode map (R61). -/
def decode06 (w _x : Nat) : Option Instr :=
  if True then some (.shli (r6 w 19) (r6 w 13) (i13 w))
  else none

/-- Major 0x07 of the opcode map (R61). -/
def decode07 (w _x : Nat) : Option Instr :=
  if True then some (.shri (r6 w 19) (r6 w 13) (i13 w))
  else none

/-- Major 0x08 of the opcode map (R61). -/
def decode08 (w _x : Nat) : Option Instr :=
  if True then some (.srai (r6 w 19) (r6 w 13) (i13 w))
  else none

/-- Major 0x09 of the opcode map (R61). -/
def decode09 (w _x : Nat) : Option Instr :=
  if True then some (.lhi (r6 w 19) (r6 w 13) (i13 w))
  else none

/-- Major 0x10 of the opcode map (R61). -/
def decode10 (w _x : Nat) : Option Instr :=
  if fld w 0 7 = 0 then some (.cbnd (r6 w 19) (r6 w 13) (r6 w 7))
  else if fld w 0 7 = 1 then some (.cbndX (r6 w 19) (r6 w 13) (r6 w 7))
  else if fld w 0 7 = 2 then some (.cprm (r6 w 19) (r6 w 13) (r6 w 7))
  else if fld w 0 7 = 3 ∧ fld w 7 6 = 0 then some (.csea (r6 w 19) (r6 w 13))
  else if fld w 0 7 = 4 ∧ fld w 7 6 = 0 then some (.cuns (r6 w 19) (r6 w 13))
  else if fld w 0 7 = 5 then some (.cadr (r6 w 19) (r6 w 13) (r6 w 7))
  else if fld w 0 7 = 6 ∧ fld w 7 6 = 0 then some (.clen (r6 w 19) (r6 w 13))
  else if fld w 0 7 = 7 ∧ fld w 7 6 = 0 then some (.cbas (r6 w 19) (r6 w 13))
  else if fld w 0 7 = 8 then some (.ctst (r6 w 19) (r6 w 13) (r6 w 7))
  else none

/-- Major 0x11 of the opcode map (R61). -/
def decode11 (w _x : Nat) : Option Instr :=
  if True then some (.cadrInc (r6 w 19) (r6 w 13) (i13 w))
  else none

/-- Major 0x18 of the opcode map (R61). -/
def decode18 (w _x : Nat) : Option Instr :=
  if fld w 19 6 = 0 then some (.br (o19 w))
  else if fld w 19 6 = 1 then some (.call (o19 w))
  else none

/-- Major 0x19 of the opcode map (R61). -/
def decode19 (w _x : Nat) : Option Instr :=
  if True then some (.bc (r6 w 19) (o19 w))
  else none

/-- Major 0x1A of the opcode map (R61). -/
def decode1A (w _x : Nat) : Option Instr :=
  if True then some (.bcZ (r6 w 19) (o19 w))
  else none

/-- Major 0x1B of the opcode map (R61). -/
def decode1B (w _x : Nat) : Option Instr :=
  if fld w 22 3 = 0 then some (.bpAny (r3 w 19) (o19 w))
  else if fld w 22 3 = 1 then some (.bpAll (r3 w 19) (o19 w))
  else if fld w 22 3 = 2 then some (.bpNone (r3 w 19) (o19 w))
  else if fld w 22 3 = 3 then some (.bpNall (r3 w 19) (o19 w))
  else none

/-- Major 0x1C of the opcode map (R61). -/
def decode1C (w _x : Nat) : Option Instr :=
  if True then some (.loop (r6 w 19) (o19 w))
  else none

/-- Major 0x1D of the opcode map (R61). -/
def decode1D (w _x : Nat) : Option Instr :=
  if fld w 0 7 = 0 ∧ fld w 7 6 = 0 ∧ fld w 19 6 = 0 then some (.jr (r6 w 13))
  else if fld w 0 7 = 1 ∧ fld w 7 6 = 0 ∧ fld w 13 6 = 0 ∧ fld w 19 6 = 0 then some (.ret)
  else if fld w 0 7 = 2 ∧ fld w 7 6 = 0 ∧ fld w 19 6 = 0 then some (.callReg (r6 w 13))
  else if fld w 0 7 = 3 then some (.hstart (r6 w 19) (r6 w 13) (r6 w 7))
  else if fld w 0 7 = 4 ∧ fld w 7 6 = 0 ∧ fld w 13 6 = 0 ∧ fld w 19 6 = 0 then some (.hend)
  else if fld w 0 7 = 5 ∧ fld w 7 6 = 0 ∧ fld w 19 6 = 0 then some (.hjoin (r6 w 13))
  else if fld w 0 7 = 6 ∧ fld w 7 6 = 0 ∧ fld w 13 6 = 0 ∧ fld w 19 6 = 0 then some (.yield)
  else none

/-- Major 0x1E of the opcode map (R61). -/
def decode1E (w _x : Nat) : Option Instr :=
  if fld w 13 6 = 0 ∧ fld w 19 6 = 0 then some (.fmt (r3 w 10) (r1 w 9) (r3 w 6) (r3 w 3) (r3 w 0))
  else none

/-- Major 0x1F of the opcode map (R61). -/
def decode1F (w _x : Nat) : Option Instr :=
  if fld w 0 7 = 0 ∧ fld w 7 6 = 0 ∧ fld w 13 6 = 0 ∧ fld w 19 6 = 0 then some (.nop)
  else if fld w 13 6 = 0 ∧ fld w 19 6 = 0 then some (.rep (i13 w))
  else if fld w 0 7 = 0 ∧ fld w 7 6 = 0 ∧ fld w 19 6 = 0 then some (.repW (r6 w 13))
  else none

/-- Major 0x20 of the opcode map (R61). -/
def decode20 (w _x : Nat) : Option Instr :=
  if True then some (.ld (r6 w 19) (r6 w 13) (i13 w))
  else none

/-- Major 0x21 of the opcode map (R61). -/
def decode21 (w _x : Nat) : Option Instr :=
  if True then some (.st (r6 w 19) (r6 w 13) (i13 w))
  else none

/-- Major 0x22 of the opcode map (R61). -/
def decode22 (w _x : Nat) : Option Instr :=
  if True then some (.ldc (r6 w 19) (r6 w 13) (i13 w))
  else none

/-- Major 0x23 of the opcode map (R61). -/
def decode23 (w _x : Nat) : Option Instr :=
  if True then some (.stc (r6 w 19) (r6 w 13) (i13 w))
  else none

/-- Major 0x24 of the opcode map (R61). -/
def decode24 (w x : Nat) : Option Instr :=
  if fld w 6 1 = 0 then some (.ldSized (r6 w 19) (r6 w 13) (r6 w 7) (r3 w 3) (r1 w 2) (r2 w 0))
  else if fld w 6 1 = 1 ∧ fld w 7 6 = 0 ∧ x < 1048576 then some (.ldSizedK (r6 w 19) (r6 w 13) (kref x) (r3 w 3) (r1 w 2) (r2 w 0))
  else none

/-- Major 0x25 of the opcode map (R61). -/
def decode25 (w x : Nat) : Option Instr :=
  if fld w 2 1 = 0 ∧ fld w 6 1 = 0 then some (.stSized (r6 w 19) (r6 w 13) (r6 w 7) (r3 w 3) (r2 w 0))
  else if fld w 2 1 = 0 ∧ fld w 6 1 = 1 ∧ fld w 7 6 = 0 ∧ x < 1048576 then some (.stSizedK (r6 w 19) (r6 w 13) (kref x) (r3 w 3) (r2 w 0))
  else none

/-- Major 0x26 of the opcode map (R61). -/
def decode26 (w _x : Nat) : Option Instr :=
  if fld w 0 7 = 0 then some (.ldfe (r6 w 19) (r6 w 13) (r6 w 7))
  else if fld w 0 7 = 1 then some (.ldfeG (r6 w 19) (r6 w 13) (r6 w 7))
  else if fld w 0 7 = 2 then some (.ldfeP (r6 w 19) (r6 w 13) (r6 w 7))
  else if fld w 0 7 = 3 then some (.stfe (r6 w 19) (r6 w 13) (r6 w 7))
  else if fld w 0 7 = 4 then some (.ldfeClr (r6 w 19) (r6 w 13) (r6 w 7))
  else if fld w 0 7 = 5 then some (.ldfeClrG (r6 w 19) (r6 w 13) (r6 w 7))
  else if fld w 0 7 = 6 then some (.ldfeClrP (r6 w 19) (r6 w 13) (r6 w 7))
  else if fld w 0 7 = 7 then some (.stfeWait (r6 w 19) (r6 w 13) (r6 w 7))
  else none

/-- Major 0x27 of the opcode map (R61). -/
def decode27 (w _x : Nat) : Option Instr :=
  if fld w 0 3 = 0 ∧ fld w 6 1 = 0 then some (.amoAdd (r6 w 19) (r6 w 13) (r6 w 7) (r2 w 4) (r1 w 3))
  else if fld w 0 3 = 1 ∧ fld w 6 1 = 0 then some (.amoAnd (r6 w 19) (r6 w 13) (r6 w 7) (r2 w 4) (r1 w 3))
  else if fld w 0 3 = 2 ∧ fld w 6 1 = 0 then some (.amoOr (r6 w 19) (r6 w 13) (r6 w 7) (r2 w 4) (r1 w 3))
  else if fld w 0 3 = 3 ∧ fld w 6 1 = 0 then some (.amoXor (r6 w 19) (r6 w 13) (r6 w 7) (r2 w 4) (r1 w 3))
  else if fld w 0 3 = 4 ∧ fld w 6 1 = 0 then some (.amoMinU (r6 w 19) (r6 w 13) (r6 w 7) (r2 w 4) (r1 w 3))
  else if fld w 0 3 = 5 ∧ fld w 6 1 = 0 then some (.amoMaxU (r6 w 19) (r6 w 13) (r6 w 7) (r2 w 4) (r1 w 3))
  else if fld w 0 3 = 6 ∧ fld w 6 1 = 0 then some (.amoSwap (r6 w 19) (r6 w 13) (r6 w 7) (r2 w 4) (r1 w 3))
  else if fld w 0 3 = 7 ∧ fld w 6 1 = 0 then some (.amoCas (r6 w 19) (r6 w 13) (r6 w 7) (r2 w 4) (r1 w 3))
  else none

/-- Major 0x28 of the opcode map (R61). -/
def decode28 (w _x : Nat) : Option Instr :=
  if fld w 0 2 = 1 ∧ fld w 5 2 = 0 ∧ fld w 7 6 = 0 ∧ fld w 13 6 = 0 ∧ fld w 19 6 = 0 then some (.fenceRel (r3 w 2))
  else if fld w 0 2 = 2 ∧ fld w 5 2 = 0 ∧ fld w 7 6 = 0 ∧ fld w 13 6 = 0 ∧ fld w 19 6 = 0 then some (.fenceAcq (r3 w 2))
  else if fld w 0 2 = 3 ∧ fld w 5 2 = 0 ∧ fld w 7 6 = 0 ∧ fld w 13 6 = 0 ∧ fld w 19 6 = 0 then some (.fenceAr (r3 w 2))
  else none

/-- Major 0x29 of the opcode map (R61). -/
def decode29 (w _x : Nat) : Option Instr :=
  if fld w 19 6 = 0 then some (.pf (r6 w 13) (i13 w))
  else if fld w 19 6 = 1 then some (.pfW (r6 w 13) (i13 w))
  else if fld w 19 6 = 2 then some (.pfKeep (r6 w 13) (i13 w))
  else if fld w 19 6 = 3 then some (.pfDrop (r6 w 13) (i13 w))
  else none

/-- Major 0x2A of the opcode map (R61). -/
def decode2A (w _x : Nat) : Option Instr :=
  if fld w 0 7 = 0 then some (.mon (r6 w 19) (r6 w 13) (r6 w 7))
  else if fld w 0 7 = 1 ∧ fld w 7 6 = 0 then some (.mwait (r6 w 19) (r6 w 13))
  else none

/-- Major 0x2B of the opcode map (R61). -/
def decode2B (w _x : Nat) : Option Instr :=
  if fld w 0 3 = 0 ∧ fld w 6 1 = 0 ∧ fld w 7 6 = 0 ∧ fld w 13 6 = 0 ∧ fld w 19 6 = 0 then some (.gbar (r3 w 3))
  else if fld w 0 3 = 1 ∧ fld w 6 1 = 0 ∧ fld w 7 6 = 0 then some (.gvoteAnd (r6 w 19) (r6 w 13) (r3 w 3))
  else if fld w 0 3 = 2 ∧ fld w 6 1 = 0 ∧ fld w 7 6 = 0 then some (.gvoteOr (r6 w 19) (r6 w 13) (r3 w 3))
  else if fld w 0 3 = 3 ∧ fld w 6 1 = 0 ∧ fld w 7 6 = 0 then some (.gvoteMinU (r6 w 19) (r6 w 13) (r3 w 3))
  else if fld w 0 3 = 4 ∧ fld w 6 1 = 0 ∧ fld w 7 6 = 0 then some (.gvoteMaxU (r6 w 19) (r6 w 13) (r3 w 3))
  else if fld w 0 3 = 5 ∧ fld w 6 1 = 0 ∧ fld w 7 6 = 0 then some (.gvoteAdd (r6 w 19) (r6 w 13) (r3 w 3))
  else none

/-- Major 0x2C of the opcode map (R61). -/
def decode2C (w _x : Nat) : Option Instr :=
  if fld w 0 3 = 0 ∧ fld w 6 1 = 0 then some (.amoAddScoped (r2 w 25) (r6 w 19) (r6 w 13) (r6 w 7) (r2 w 4) (r1 w 3))
  else if fld w 0 3 = 1 ∧ fld w 6 1 = 0 then some (.amoAndScoped (r2 w 25) (r6 w 19) (r6 w 13) (r6 w 7) (r2 w 4) (r1 w 3))
  else if fld w 0 3 = 2 ∧ fld w 6 1 = 0 then some (.amoOrScoped (r2 w 25) (r6 w 19) (r6 w 13) (r6 w 7) (r2 w 4) (r1 w 3))
  else if fld w 0 3 = 3 ∧ fld w 6 1 = 0 then some (.amoXorScoped (r2 w 25) (r6 w 19) (r6 w 13) (r6 w 7) (r2 w 4) (r1 w 3))
  else if fld w 0 3 = 4 ∧ fld w 6 1 = 0 then some (.amoMinUScoped (r2 w 25) (r6 w 19) (r6 w 13) (r6 w 7) (r2 w 4) (r1 w 3))
  else if fld w 0 3 = 5 ∧ fld w 6 1 = 0 then some (.amoMaxUScoped (r2 w 25) (r6 w 19) (r6 w 13) (r6 w 7) (r2 w 4) (r1 w 3))
  else if fld w 0 3 = 6 ∧ fld w 6 1 = 0 then some (.amoSwapScoped (r2 w 25) (r6 w 19) (r6 w 13) (r6 w 7) (r2 w 4) (r1 w 3))
  else if fld w 0 3 = 7 ∧ fld w 6 1 = 0 then some (.amoCasScoped (r2 w 25) (r6 w 19) (r6 w 13) (r6 w 7) (r2 w 4) (r1 w 3))
  else none

/-- Major 0x2D of the opcode map (R61). -/
def decode2D (w _x : Nat) : Option Instr :=
  if fld w 0 3 = 0 ∧ fld w 6 1 = 0 then some (.amoAddScoped (r2 w 25) (r6 w 19) (r6 w 13) (r6 w 7) (r2 w 4) (r1 w 3))
  else if fld w 0 3 = 1 ∧ fld w 6 1 = 0 then some (.amoAndScoped (r2 w 25) (r6 w 19) (r6 w 13) (r6 w 7) (r2 w 4) (r1 w 3))
  else if fld w 0 3 = 2 ∧ fld w 6 1 = 0 then some (.amoOrScoped (r2 w 25) (r6 w 19) (r6 w 13) (r6 w 7) (r2 w 4) (r1 w 3))
  else if fld w 0 3 = 3 ∧ fld w 6 1 = 0 then some (.amoXorScoped (r2 w 25) (r6 w 19) (r6 w 13) (r6 w 7) (r2 w 4) (r1 w 3))
  else if fld w 0 3 = 4 ∧ fld w 6 1 = 0 then some (.amoMinUScoped (r2 w 25) (r6 w 19) (r6 w 13) (r6 w 7) (r2 w 4) (r1 w 3))
  else if fld w 0 3 = 5 ∧ fld w 6 1 = 0 then some (.amoMaxUScoped (r2 w 25) (r6 w 19) (r6 w 13) (r6 w 7) (r2 w 4) (r1 w 3))
  else if fld w 0 3 = 6 ∧ fld w 6 1 = 0 then some (.amoSwapScoped (r2 w 25) (r6 w 19) (r6 w 13) (r6 w 7) (r2 w 4) (r1 w 3))
  else if fld w 0 3 = 7 ∧ fld w 6 1 = 0 then some (.amoCasScoped (r2 w 25) (r6 w 19) (r6 w 13) (r6 w 7) (r2 w 4) (r1 w 3))
  else none

/-- Major 0x2E of the opcode map (R61). -/
def decode2E (w _x : Nat) : Option Instr :=
  if fld w 0 3 = 0 ∧ fld w 6 1 = 0 then some (.amoAddScoped (r2 w 25) (r6 w 19) (r6 w 13) (r6 w 7) (r2 w 4) (r1 w 3))
  else if fld w 0 3 = 1 ∧ fld w 6 1 = 0 then some (.amoAndScoped (r2 w 25) (r6 w 19) (r6 w 13) (r6 w 7) (r2 w 4) (r1 w 3))
  else if fld w 0 3 = 2 ∧ fld w 6 1 = 0 then some (.amoOrScoped (r2 w 25) (r6 w 19) (r6 w 13) (r6 w 7) (r2 w 4) (r1 w 3))
  else if fld w 0 3 = 3 ∧ fld w 6 1 = 0 then some (.amoXorScoped (r2 w 25) (r6 w 19) (r6 w 13) (r6 w 7) (r2 w 4) (r1 w 3))
  else if fld w 0 3 = 4 ∧ fld w 6 1 = 0 then some (.amoMinUScoped (r2 w 25) (r6 w 19) (r6 w 13) (r6 w 7) (r2 w 4) (r1 w 3))
  else if fld w 0 3 = 5 ∧ fld w 6 1 = 0 then some (.amoMaxUScoped (r2 w 25) (r6 w 19) (r6 w 13) (r6 w 7) (r2 w 4) (r1 w 3))
  else if fld w 0 3 = 6 ∧ fld w 6 1 = 0 then some (.amoSwapScoped (r2 w 25) (r6 w 19) (r6 w 13) (r6 w 7) (r2 w 4) (r1 w 3))
  else if fld w 0 3 = 7 ∧ fld w 6 1 = 0 then some (.amoCasScoped (r2 w 25) (r6 w 19) (r6 w 13) (r6 w 7) (r2 w 4) (r1 w 3))
  else none

/-- Major 0x2F of the opcode map (R61). -/
def decode2F (w _x : Nat) : Option Instr :=
  if fld w 0 3 = 0 ∧ fld w 6 1 = 0 then some (.amoAddScoped (r2 w 25) (r6 w 19) (r6 w 13) (r6 w 7) (r2 w 4) (r1 w 3))
  else if fld w 0 3 = 1 ∧ fld w 6 1 = 0 then some (.amoAndScoped (r2 w 25) (r6 w 19) (r6 w 13) (r6 w 7) (r2 w 4) (r1 w 3))
  else if fld w 0 3 = 2 ∧ fld w 6 1 = 0 then some (.amoOrScoped (r2 w 25) (r6 w 19) (r6 w 13) (r6 w 7) (r2 w 4) (r1 w 3))
  else if fld w 0 3 = 3 ∧ fld w 6 1 = 0 then some (.amoXorScoped (r2 w 25) (r6 w 19) (r6 w 13) (r6 w 7) (r2 w 4) (r1 w 3))
  else if fld w 0 3 = 4 ∧ fld w 6 1 = 0 then some (.amoMinUScoped (r2 w 25) (r6 w 19) (r6 w 13) (r6 w 7) (r2 w 4) (r1 w 3))
  else if fld w 0 3 = 5 ∧ fld w 6 1 = 0 then some (.amoMaxUScoped (r2 w 25) (r6 w 19) (r6 w 13) (r6 w 7) (r2 w 4) (r1 w 3))
  else if fld w 0 3 = 6 ∧ fld w 6 1 = 0 then some (.amoSwapScoped (r2 w 25) (r6 w 19) (r6 w 13) (r6 w 7) (r2 w 4) (r1 w 3))
  else if fld w 0 3 = 7 ∧ fld w 6 1 = 0 then some (.amoCasScoped (r2 w 25) (r6 w 19) (r6 w 13) (r6 w 7) (r2 w 4) (r1 w 3))
  else none

/-- Major 0x30 of the opcode map (R61). -/
def decode30 (w _x : Nat) : Option Instr :=
  if fld w 2 5 = 0 then some (.rcap (r6 w 19) (r6 w 13) (r6 w 7) (r2 w 0))
  else if fld w 0 7 = 4 then some (.rcapC (r6 w 19) (r6 w 13) (r6 w 7))
  else if fld w 2 5 = 2 ∧ fld w 19 6 = 0 then some (.rarm (r6 w 13) (r6 w 7) (r2 w 0))
  else if fld w 2 5 = 3 ∧ fld w 19 6 = 0 then some (.rdis (r6 w 13) (r6 w 7) (r2 w 0))
  else if fld w 2 5 = 4 ∧ fld w 7 6 = 0 ∧ fld w 13 6 = 0 then some (.rstat (r6 w 19) (r2 w 0))
  else if fld w 0 7 = 20 then some (.rcapX (r6 w 19) (r6 w 13) (r6 w 7))
  else none

/-- Major 0x31 of the opcode map (R61). -/
def decode31 (w _x : Nat) : Option Instr :=
  if fld w 5 2 = 0 then some (.rput (r6 w 19) (r6 w 13) (r6 w 7) (r3 w 2) (r2 w 0))
  else none

/-- Major 0x36 of the opcode map (R61). -/
def decode36 (w x : Nat) : Option Instr :=
  if fld w 0 7 = 0 ∧ fld w 13 6 = 0 then some (.fmset (r6 w 19) (r6 w 7))
  else if fld w 0 7 = 64 ∧ fld w 13 6 = 0 ∧ fld w 7 6 = 0 ∧ x < 1048576 then some (.fmsetK (r6 w 19) (kref x))
  else if fld w 0 7 = 1 ∧ fld w 7 6 = 0 then some (.fmget (r6 w 19) (r6 w 13))
  else none

/-- Major 0x37 of the opcode map (R61). -/
def decode37 (w _x : Nat) : Option Instr :=
  if fld w 0 7 = 0 ∧ fld w 7 6 = 0 then some (.getsr (r6 w 19) (r6 w 13))
  else if fld w 0 7 = 1 ∧ fld w 19 6 = 0 then some (.setsr (r6 w 13) (r6 w 7))
  else if fld w 0 7 = 2 ∧ fld w 7 6 = 0 ∧ fld w 13 6 = 0 then some (.tcnt (r6 w 19))
  else if fld w 0 7 = 3 ∧ fld w 13 6 = 0 then some (.setcw (r6 w 19) (r6 w 7))
  else none

/-- Major 0x38 of the opcode map (R61). -/
def decode38 (w _x : Nat) : Option Instr :=
  if fld w 13 6 = 0 ∧ fld w 19 6 = 0 then some (.sys (i13 w))
  else if fld w 0 7 = 0 ∧ fld w 7 6 = 0 ∧ fld w 13 6 = 0 ∧ fld w 19 6 = 1 then some (.trap)
  else if fld w 0 7 = 0 ∧ fld w 7 6 = 0 ∧ fld w 13 6 = 0 ∧ fld w 19 6 = 2 then some (.rfe)
  else none

/-- Major 0x39 of the opcode map (R61). -/
def decode39 (w _x : Nat) : Option Instr :=
  if fld w 0 7 = 0 ∧ fld w 7 6 = 0 then some (.launch (r6 w 19) (r6 w 13))
  else if fld w 0 7 = 1 ∧ fld w 7 6 = 0 then some (.cpush (r6 w 19) (r6 w 13))
  else if fld w 0 7 = 2 ∧ fld w 7 6 = 0 ∧ fld w 19 6 = 0 then some (.cjoin (r6 w 13))
  else if fld w 0 7 = 3 ∧ fld w 19 6 = 0 then some (.stopat (r6 w 13) (r6 w 7))
  else none

/-- Major 0x3A of the opcode map (R61). -/
def decode3A (w _x : Nat) : Option Instr :=
  if fld w 0 7 = 0 ∧ fld w 7 6 = 0 then some (.hq (r6 w 19) (r6 w 13))
  else if fld w 0 7 = 1 ∧ fld w 7 6 = 0 then some (.hqRd (r6 w 19) (r6 w 13))
  else if fld w 0 7 = 2 ∧ fld w 7 6 = 0 ∧ fld w 13 6 = 0 ∧ fld w 19 6 = 0 then some (.lack)
  else if fld w 0 7 = 3 ∧ fld w 7 6 = 0 ∧ fld w 13 6 = 0 ∧ fld w 19 6 = 0 then some (.lackOff)
  else if fld w 0 7 = 4 ∧ fld w 19 6 = 0 then some (.hauth (r6 w 13) (r6 w 7))
  else none

/-- Major 0x3E of the opcode map (R61). -/
def decode3E (w _x : Nat) : Option Instr :=
  if fld w 0 7 = 0 ∧ fld w 19 6 = 0 then some (.pmig (r6 w 13) (r6 w 7))
  else if fld w 0 7 = 1 ∧ fld w 7 6 = 0 ∧ fld w 19 6 = 0 then some (.pmigClr (r6 w 13))
  else if fld w 0 7 = 2 ∧ fld w 19 6 = 0 then some (.mcohHw (r6 w 13) (r6 w 7))
  else if fld w 0 7 = 3 ∧ fld w 7 6 = 0 ∧ fld w 19 6 = 0 then some (.mcohSw (r6 w 13))
  else if fld w 0 7 = 4 ∧ fld w 19 6 = 0 then some (.wmask (r6 w 13) (r6 w 7))
  else none

/-- Major 0x40 of the opcode map (R61). -/
def decode40 (w x : Nat) : Option Instr :=
  if fld w 0 3 = 0 ∧ fld w 6 1 = 0 then some (.vaddF (r2 w 25) (r6 w 19) (r6 w 13) (.reg (r6 w 7)) (r3 w 3))
  else if fld w 0 3 = 0 ∧ fld w 6 1 = 1 ∧ fld w 7 6 = 0 ∧ x < 1048576 then some (.vaddF (r2 w 25) (r6 w 19) (r6 w 13) (.konst (kref x)) (r3 w 3))
  else if fld w 0 3 = 1 ∧ fld w 6 1 = 0 then some (.vsubF (r2 w 25) (r6 w 19) (r6 w 13) (.reg (r6 w 7)) (r3 w 3))
  else if fld w 0 3 = 1 ∧ fld w 6 1 = 1 ∧ fld w 7 6 = 0 ∧ x < 1048576 then some (.vsubF (r2 w 25) (r6 w 19) (r6 w 13) (.konst (kref x)) (r3 w 3))
  else if fld w 0 3 = 2 ∧ fld w 6 1 = 0 then some (.vmulF (r2 w 25) (r6 w 19) (r6 w 13) (.reg (r6 w 7)) (r3 w 3))
  else if fld w 0 3 = 2 ∧ fld w 6 1 = 1 ∧ fld w 7 6 = 0 ∧ x < 1048576 then some (.vmulF (r2 w 25) (r6 w 19) (r6 w 13) (.konst (kref x)) (r3 w 3))
  else if fld w 0 3 = 3 ∧ fld w 6 1 = 0 then some (.vminF (r2 w 25) (r6 w 19) (r6 w 13) (.reg (r6 w 7)) (r3 w 3))
  else if fld w 0 3 = 3 ∧ fld w 6 1 = 1 ∧ fld w 7 6 = 0 ∧ x < 1048576 then some (.vminF (r2 w 25) (r6 w 19) (r6 w 13) (.konst (kref x)) (r3 w 3))
  else if fld w 0 3 = 4 ∧ fld w 6 1 = 0 then some (.vmaxF (r2 w 25) (r6 w 19) (r6 w 13) (.reg (r6 w 7)) (r3 w 3))
  else if fld w 0 3 = 4 ∧ fld w 6 1 = 1 ∧ fld w 7 6 = 0 ∧ x < 1048576 then some (.vmaxF (r2 w 25) (r6 w 19) (r6 w 13) (.konst (kref x)) (r3 w 3))
  else if fld w 0 3 = 5 ∧ fld w 6 1 = 0 then some (.vfma (r2 w 25) (r6 w 19) (r6 w 13) (.reg (r6 w 7)) (r3 w 3))
  else if fld w 0 3 = 5 ∧ fld w 6 1 = 1 ∧ fld w 7 6 = 0 ∧ x < 1048576 then some (.vfma (r2 w 25) (r6 w 19) (r6 w 13) (.konst (kref x)) (r3 w 3))
  else if fld w 0 3 = 6 ∧ fld w 6 1 = 0 then some (.vfms (r2 w 25) (r6 w 19) (r6 w 13) (.reg (r6 w 7)) (r3 w 3))
  else if fld w 0 3 = 6 ∧ fld w 6 1 = 1 ∧ fld w 7 6 = 0 ∧ x < 1048576 then some (.vfms (r2 w 25) (r6 w 19) (r6 w 13) (.konst (kref x)) (r3 w 3))
  else none

/-- Major 0x41 of the opcode map (R61). -/
def decode41 (w x : Nat) : Option Instr :=
  if fld w 0 3 = 0 ∧ fld w 6 1 = 0 then some (.vaddF (r2 w 25) (r6 w 19) (r6 w 13) (.reg (r6 w 7)) (r3 w 3))
  else if fld w 0 3 = 0 ∧ fld w 6 1 = 1 ∧ fld w 7 6 = 0 ∧ x < 1048576 then some (.vaddF (r2 w 25) (r6 w 19) (r6 w 13) (.konst (kref x)) (r3 w 3))
  else if fld w 0 3 = 1 ∧ fld w 6 1 = 0 then some (.vsubF (r2 w 25) (r6 w 19) (r6 w 13) (.reg (r6 w 7)) (r3 w 3))
  else if fld w 0 3 = 1 ∧ fld w 6 1 = 1 ∧ fld w 7 6 = 0 ∧ x < 1048576 then some (.vsubF (r2 w 25) (r6 w 19) (r6 w 13) (.konst (kref x)) (r3 w 3))
  else if fld w 0 3 = 2 ∧ fld w 6 1 = 0 then some (.vmulF (r2 w 25) (r6 w 19) (r6 w 13) (.reg (r6 w 7)) (r3 w 3))
  else if fld w 0 3 = 2 ∧ fld w 6 1 = 1 ∧ fld w 7 6 = 0 ∧ x < 1048576 then some (.vmulF (r2 w 25) (r6 w 19) (r6 w 13) (.konst (kref x)) (r3 w 3))
  else if fld w 0 3 = 3 ∧ fld w 6 1 = 0 then some (.vminF (r2 w 25) (r6 w 19) (r6 w 13) (.reg (r6 w 7)) (r3 w 3))
  else if fld w 0 3 = 3 ∧ fld w 6 1 = 1 ∧ fld w 7 6 = 0 ∧ x < 1048576 then some (.vminF (r2 w 25) (r6 w 19) (r6 w 13) (.konst (kref x)) (r3 w 3))
  else if fld w 0 3 = 4 ∧ fld w 6 1 = 0 then some (.vmaxF (r2 w 25) (r6 w 19) (r6 w 13) (.reg (r6 w 7)) (r3 w 3))
  else if fld w 0 3 = 4 ∧ fld w 6 1 = 1 ∧ fld w 7 6 = 0 ∧ x < 1048576 then some (.vmaxF (r2 w 25) (r6 w 19) (r6 w 13) (.konst (kref x)) (r3 w 3))
  else if fld w 0 3 = 5 ∧ fld w 6 1 = 0 then some (.vfma (r2 w 25) (r6 w 19) (r6 w 13) (.reg (r6 w 7)) (r3 w 3))
  else if fld w 0 3 = 5 ∧ fld w 6 1 = 1 ∧ fld w 7 6 = 0 ∧ x < 1048576 then some (.vfma (r2 w 25) (r6 w 19) (r6 w 13) (.konst (kref x)) (r3 w 3))
  else if fld w 0 3 = 6 ∧ fld w 6 1 = 0 then some (.vfms (r2 w 25) (r6 w 19) (r6 w 13) (.reg (r6 w 7)) (r3 w 3))
  else if fld w 0 3 = 6 ∧ fld w 6 1 = 1 ∧ fld w 7 6 = 0 ∧ x < 1048576 then some (.vfms (r2 w 25) (r6 w 19) (r6 w 13) (.konst (kref x)) (r3 w 3))
  else none

/-- Major 0x42 of the opcode map (R61). -/
def decode42 (w x : Nat) : Option Instr :=
  if fld w 0 3 = 0 ∧ fld w 6 1 = 0 then some (.vaddF (r2 w 25) (r6 w 19) (r6 w 13) (.reg (r6 w 7)) (r3 w 3))
  else if fld w 0 3 = 0 ∧ fld w 6 1 = 1 ∧ fld w 7 6 = 0 ∧ x < 1048576 then some (.vaddF (r2 w 25) (r6 w 19) (r6 w 13) (.konst (kref x)) (r3 w 3))
  else if fld w 0 3 = 1 ∧ fld w 6 1 = 0 then some (.vsubF (r2 w 25) (r6 w 19) (r6 w 13) (.reg (r6 w 7)) (r3 w 3))
  else if fld w 0 3 = 1 ∧ fld w 6 1 = 1 ∧ fld w 7 6 = 0 ∧ x < 1048576 then some (.vsubF (r2 w 25) (r6 w 19) (r6 w 13) (.konst (kref x)) (r3 w 3))
  else if fld w 0 3 = 2 ∧ fld w 6 1 = 0 then some (.vmulF (r2 w 25) (r6 w 19) (r6 w 13) (.reg (r6 w 7)) (r3 w 3))
  else if fld w 0 3 = 2 ∧ fld w 6 1 = 1 ∧ fld w 7 6 = 0 ∧ x < 1048576 then some (.vmulF (r2 w 25) (r6 w 19) (r6 w 13) (.konst (kref x)) (r3 w 3))
  else if fld w 0 3 = 3 ∧ fld w 6 1 = 0 then some (.vminF (r2 w 25) (r6 w 19) (r6 w 13) (.reg (r6 w 7)) (r3 w 3))
  else if fld w 0 3 = 3 ∧ fld w 6 1 = 1 ∧ fld w 7 6 = 0 ∧ x < 1048576 then some (.vminF (r2 w 25) (r6 w 19) (r6 w 13) (.konst (kref x)) (r3 w 3))
  else if fld w 0 3 = 4 ∧ fld w 6 1 = 0 then some (.vmaxF (r2 w 25) (r6 w 19) (r6 w 13) (.reg (r6 w 7)) (r3 w 3))
  else if fld w 0 3 = 4 ∧ fld w 6 1 = 1 ∧ fld w 7 6 = 0 ∧ x < 1048576 then some (.vmaxF (r2 w 25) (r6 w 19) (r6 w 13) (.konst (kref x)) (r3 w 3))
  else if fld w 0 3 = 5 ∧ fld w 6 1 = 0 then some (.vfma (r2 w 25) (r6 w 19) (r6 w 13) (.reg (r6 w 7)) (r3 w 3))
  else if fld w 0 3 = 5 ∧ fld w 6 1 = 1 ∧ fld w 7 6 = 0 ∧ x < 1048576 then some (.vfma (r2 w 25) (r6 w 19) (r6 w 13) (.konst (kref x)) (r3 w 3))
  else if fld w 0 3 = 6 ∧ fld w 6 1 = 0 then some (.vfms (r2 w 25) (r6 w 19) (r6 w 13) (.reg (r6 w 7)) (r3 w 3))
  else if fld w 0 3 = 6 ∧ fld w 6 1 = 1 ∧ fld w 7 6 = 0 ∧ x < 1048576 then some (.vfms (r2 w 25) (r6 w 19) (r6 w 13) (.konst (kref x)) (r3 w 3))
  else none

/-- Major 0x43 of the opcode map (R61). -/
def decode43 (w x : Nat) : Option Instr :=
  if fld w 0 3 = 0 ∧ fld w 6 1 = 0 then some (.vabs (r6 w 19) (r6 w 13) (r6 w 7) (r3 w 3))
  else if fld w 0 3 = 1 ∧ fld w 6 1 = 0 then some (.vneg (r6 w 19) (r6 w 13) (r6 w 7) (r3 w 3))
  else if fld w 0 3 = 2 ∧ fld w 6 1 = 0 then some (.vexp2 (r6 w 19) (r6 w 13) (r6 w 7) (r3 w 3))
  else if fld w 0 3 = 3 ∧ fld w 6 1 = 0 then some (.vrcp (r6 w 19) (r6 w 13) (r6 w 7) (r3 w 3))
  else if fld w 0 3 = 4 ∧ fld w 6 1 = 0 then some (.vrsq (r6 w 19) (r6 w 13) (r6 w 7) (r3 w 3))
  else none

/-- Major 0x44 of the opcode map (R61). -/
def decode44 (w x : Nat) : Option Instr :=
  if fld w 0 3 = 0 ∧ fld w 6 1 = 0 then some (.vcmpEqF (r2 w 25) (r6 w 19) (r6 w 13) (.reg (r6 w 7)) (r3 w 3))
  else if fld w 0 3 = 0 ∧ fld w 6 1 = 1 ∧ fld w 7 6 = 0 ∧ x < 1048576 then some (.vcmpEqF (r2 w 25) (r6 w 19) (r6 w 13) (.konst (kref x)) (r3 w 3))
  else if fld w 0 3 = 1 ∧ fld w 6 1 = 0 then some (.vcmpNeF (r2 w 25) (r6 w 19) (r6 w 13) (.reg (r6 w 7)) (r3 w 3))
  else if fld w 0 3 = 1 ∧ fld w 6 1 = 1 ∧ fld w 7 6 = 0 ∧ x < 1048576 then some (.vcmpNeF (r2 w 25) (r6 w 19) (r6 w 13) (.konst (kref x)) (r3 w 3))
  else if fld w 0 3 = 2 ∧ fld w 6 1 = 0 then some (.vcmpLtF (r2 w 25) (r6 w 19) (r6 w 13) (.reg (r6 w 7)) (r3 w 3))
  else if fld w 0 3 = 2 ∧ fld w 6 1 = 1 ∧ fld w 7 6 = 0 ∧ x < 1048576 then some (.vcmpLtF (r2 w 25) (r6 w 19) (r6 w 13) (.konst (kref x)) (r3 w 3))
  else if fld w 0 3 = 3 ∧ fld w 6 1 = 0 then some (.vcmpLeF (r2 w 25) (r6 w 19) (r6 w 13) (.reg (r6 w 7)) (r3 w 3))
  else if fld w 0 3 = 3 ∧ fld w 6 1 = 1 ∧ fld w 7 6 = 0 ∧ x < 1048576 then some (.vcmpLeF (r2 w 25) (r6 w 19) (r6 w 13) (.konst (kref x)) (r3 w 3))
  else if fld w 0 3 = 4 ∧ fld w 6 1 = 0 then some (.vcmpUnF (r2 w 25) (r6 w 19) (r6 w 13) (.reg (r6 w 7)) (r3 w 3))
  else if fld w 0 3 = 4 ∧ fld w 6 1 = 1 ∧ fld w 7 6 = 0 ∧ x < 1048576 then some (.vcmpUnF (r2 w 25) (r6 w 19) (r6 w 13) (.konst (kref x)) (r3 w 3))
  else none

/-- Major 0x45 of the opcode map (R61). -/
def decode45 (w x : Nat) : Option Instr :=
  if fld w 0 3 = 0 ∧ fld w 6 1 = 0 then some (.vcmpEqF (r2 w 25) (r6 w 19) (r6 w 13) (.reg (r6 w 7)) (r3 w 3))
  else if fld w 0 3 = 0 ∧ fld w 6 1 = 1 ∧ fld w 7 6 = 0 ∧ x < 1048576 then some (.vcmpEqF (r2 w 25) (r6 w 19) (r6 w 13) (.konst (kref x)) (r3 w 3))
  else if fld w 0 3 = 1 ∧ fld w 6 1 = 0 then some (.vcmpNeF (r2 w 25) (r6 w 19) (r6 w 13) (.reg (r6 w 7)) (r3 w 3))
  else if fld w 0 3 = 1 ∧ fld w 6 1 = 1 ∧ fld w 7 6 = 0 ∧ x < 1048576 then some (.vcmpNeF (r2 w 25) (r6 w 19) (r6 w 13) (.konst (kref x)) (r3 w 3))
  else if fld w 0 3 = 2 ∧ fld w 6 1 = 0 then some (.vcmpLtF (r2 w 25) (r6 w 19) (r6 w 13) (.reg (r6 w 7)) (r3 w 3))
  else if fld w 0 3 = 2 ∧ fld w 6 1 = 1 ∧ fld w 7 6 = 0 ∧ x < 1048576 then some (.vcmpLtF (r2 w 25) (r6 w 19) (r6 w 13) (.konst (kref x)) (r3 w 3))
  else if fld w 0 3 = 3 ∧ fld w 6 1 = 0 then some (.vcmpLeF (r2 w 25) (r6 w 19) (r6 w 13) (.reg (r6 w 7)) (r3 w 3))
  else if fld w 0 3 = 3 ∧ fld w 6 1 = 1 ∧ fld w 7 6 = 0 ∧ x < 1048576 then some (.vcmpLeF (r2 w 25) (r6 w 19) (r6 w 13) (.konst (kref x)) (r3 w 3))
  else if fld w 0 3 = 4 ∧ fld w 6 1 = 0 then some (.vcmpUnF (r2 w 25) (r6 w 19) (r6 w 13) (.reg (r6 w 7)) (r3 w 3))
  else if fld w 0 3 = 4 ∧ fld w 6 1 = 1 ∧ fld w 7 6 = 0 ∧ x < 1048576 then some (.vcmpUnF (r2 w 25) (r6 w 19) (r6 w 13) (.konst (kref x)) (r3 w 3))
  else none

/-- Major 0x46 of the opcode map (R61). -/
def decode46 (w x : Nat) : Option Instr :=
  if fld w 0 3 = 0 ∧ fld w 6 1 = 0 then some (.vcmpEqF (r2 w 25) (r6 w 19) (r6 w 13) (.reg (r6 w 7)) (r3 w 3))
  else if fld w 0 3 = 0 ∧ fld w 6 1 = 1 ∧ fld w 7 6 = 0 ∧ x < 1048576 then some (.vcmpEqF (r2 w 25) (r6 w 19) (r6 w 13) (.konst (kref x)) (r3 w 3))
  else if fld w 0 3 = 1 ∧ fld w 6 1 = 0 then some (.vcmpNeF (r2 w 25) (r6 w 19) (r6 w 13) (.reg (r6 w 7)) (r3 w 3))
  else if fld w 0 3 = 1 ∧ fld w 6 1 = 1 ∧ fld w 7 6 = 0 ∧ x < 1048576 then some (.vcmpNeF (r2 w 25) (r6 w 19) (r6 w 13) (.konst (kref x)) (r3 w 3))
  else if fld w 0 3 = 2 ∧ fld w 6 1 = 0 then some (.vcmpLtF (r2 w 25) (r6 w 19) (r6 w 13) (.reg (r6 w 7)) (r3 w 3))
  else if fld w 0 3 = 2 ∧ fld w 6 1 = 1 ∧ fld w 7 6 = 0 ∧ x < 1048576 then some (.vcmpLtF (r2 w 25) (r6 w 19) (r6 w 13) (.konst (kref x)) (r3 w 3))
  else if fld w 0 3 = 3 ∧ fld w 6 1 = 0 then some (.vcmpLeF (r2 w 25) (r6 w 19) (r6 w 13) (.reg (r6 w 7)) (r3 w 3))
  else if fld w 0 3 = 3 ∧ fld w 6 1 = 1 ∧ fld w 7 6 = 0 ∧ x < 1048576 then some (.vcmpLeF (r2 w 25) (r6 w 19) (r6 w 13) (.konst (kref x)) (r3 w 3))
  else if fld w 0 3 = 4 ∧ fld w 6 1 = 0 then some (.vcmpUnF (r2 w 25) (r6 w 19) (r6 w 13) (.reg (r6 w 7)) (r3 w 3))
  else if fld w 0 3 = 4 ∧ fld w 6 1 = 1 ∧ fld w 7 6 = 0 ∧ x < 1048576 then some (.vcmpUnF (r2 w 25) (r6 w 19) (r6 w 13) (.konst (kref x)) (r3 w 3))
  else none

/-- Major 0x47 of the opcode map (R61). -/
def decode47 (w x : Nat) : Option Instr :=
  if fld w 0 3 = 0 ∧ fld w 6 1 = 0 then some (.vaddW (r6 w 19) (r6 w 13) (.reg (r6 w 7)) (r3 w 3))
  else if fld w 0 3 = 0 ∧ fld w 6 1 = 1 ∧ fld w 7 6 = 0 ∧ x < 1048576 then some (.vaddW (r6 w 19) (r6 w 13) (.konst (kref x)) (r3 w 3))
  else if fld w 0 3 = 1 ∧ fld w 6 1 = 0 then some (.vsubW (r6 w 19) (r6 w 13) (.reg (r6 w 7)) (r3 w 3))
  else if fld w 0 3 = 1 ∧ fld w 6 1 = 1 ∧ fld w 7 6 = 0 ∧ x < 1048576 then some (.vsubW (r6 w 19) (r6 w 13) (.konst (kref x)) (r3 w 3))
  else if fld w 0 3 = 2 ∧ fld w 6 1 = 0 then some (.vmulW (r6 w 19) (r6 w 13) (.reg (r6 w 7)) (r3 w 3))
  else if fld w 0 3 = 2 ∧ fld w 6 1 = 1 ∧ fld w 7 6 = 0 ∧ x < 1048576 then some (.vmulW (r6 w 19) (r6 w 13) (.konst (kref x)) (r3 w 3))
  else if fld w 0 3 = 3 ∧ fld w 6 1 = 0 then some (.vminW (r6 w 19) (r6 w 13) (.reg (r6 w 7)) (r3 w 3))
  else if fld w 0 3 = 3 ∧ fld w 6 1 = 1 ∧ fld w 7 6 = 0 ∧ x < 1048576 then some (.vminW (r6 w 19) (r6 w 13) (.konst (kref x)) (r3 w 3))
  else if fld w 0 3 = 4 ∧ fld w 6 1 = 0 then some (.vmaxW (r6 w 19) (r6 w 13) (.reg (r6 w 7)) (r3 w 3))
  else if fld w 0 3 = 4 ∧ fld w 6 1 = 1 ∧ fld w 7 6 = 0 ∧ x < 1048576 then some (.vmaxW (r6 w 19) (r6 w 13) (.konst (kref x)) (r3 w 3))
  else if fld w 0 3 = 5 ∧ fld w 6 1 = 0 then some (.vminUW (r6 w 19) (r6 w 13) (.reg (r6 w 7)) (r3 w 3))
  else if fld w 0 3 = 5 ∧ fld w 6 1 = 1 ∧ fld w 7 6 = 0 ∧ x < 1048576 then some (.vminUW (r6 w 19) (r6 w 13) (.konst (kref x)) (r3 w 3))
  else if fld w 0 3 = 6 ∧ fld w 6 1 = 0 then some (.vmaxUW (r6 w 19) (r6 w 13) (.reg (r6 w 7)) (r3 w 3))
  else if fld w 0 3 = 6 ∧ fld w 6 1 = 1 ∧ fld w 7 6 = 0 ∧ x < 1048576 then some (.vmaxUW (r6 w 19) (r6 w 13) (.konst (kref x)) (r3 w 3))
  else none

/-- Major 0x48 of the opcode map (R61). -/
def decode48 (w x : Nat) : Option Instr :=
  if fld w 0 3 = 0 ∧ fld w 6 1 = 0 then some (.vandW (r6 w 19) (r6 w 13) (.reg (r6 w 7)) (r3 w 3))
  else if fld w 0 3 = 0 ∧ fld w 6 1 = 1 ∧ fld w 7 6 = 0 ∧ x < 1048576 then some (.vandW (r6 w 19) (r6 w 13) (.konst (kref x)) (r3 w 3))
  else if fld w 0 3 = 1 ∧ fld w 6 1 = 0 then some (.vorW (r6 w 19) (r6 w 13) (.reg (r6 w 7)) (r3 w 3))
  else if fld w 0 3 = 1 ∧ fld w 6 1 = 1 ∧ fld w 7 6 = 0 ∧ x < 1048576 then some (.vorW (r6 w 19) (r6 w 13) (.konst (kref x)) (r3 w 3))
  else if fld w 0 3 = 2 ∧ fld w 6 1 = 0 then some (.vxorW (r6 w 19) (r6 w 13) (.reg (r6 w 7)) (r3 w 3))
  else if fld w 0 3 = 2 ∧ fld w 6 1 = 1 ∧ fld w 7 6 = 0 ∧ x < 1048576 then some (.vxorW (r6 w 19) (r6 w 13) (.konst (kref x)) (r3 w 3))
  else if fld w 0 3 = 3 ∧ fld w 6 1 = 0 then some (.vshlW (r6 w 19) (r6 w 13) (.reg (r6 w 7)) (r3 w 3))
  else if fld w 0 3 = 3 ∧ fld w 6 1 = 1 ∧ fld w 7 6 = 0 ∧ x < 1048576 then some (.vshlW (r6 w 19) (r6 w 13) (.konst (kref x)) (r3 w 3))
  else if fld w 0 3 = 4 ∧ fld w 6 1 = 0 then some (.vshrW (r6 w 19) (r6 w 13) (.reg (r6 w 7)) (r3 w 3))
  else if fld w 0 3 = 4 ∧ fld w 6 1 = 1 ∧ fld w 7 6 = 0 ∧ x < 1048576 then some (.vshrW (r6 w 19) (r6 w 13) (.konst (kref x)) (r3 w 3))
  else if fld w 0 3 = 5 ∧ fld w 6 1 = 0 then some (.vsraW (r6 w 19) (r6 w 13) (.reg (r6 w 7)) (r3 w 3))
  else if fld w 0 3 = 5 ∧ fld w 6 1 = 1 ∧ fld w 7 6 = 0 ∧ x < 1048576 then some (.vsraW (r6 w 19) (r6 w 13) (.konst (kref x)) (r3 w 3))
  else none

/-- Major 0x49 of the opcode map (R61). -/
def decode49 (w x : Nat) : Option Instr :=
  if fld w 0 3 = 0 ∧ fld w 6 1 = 0 then some (.vaddH (r6 w 19) (r6 w 13) (.reg (r6 w 7)) (r3 w 3))
  else if fld w 0 3 = 0 ∧ fld w 6 1 = 1 ∧ fld w 7 6 = 0 ∧ x < 1048576 then some (.vaddH (r6 w 19) (r6 w 13) (.konst (kref x)) (r3 w 3))
  else if fld w 0 3 = 1 ∧ fld w 6 1 = 0 then some (.vsubH (r6 w 19) (r6 w 13) (.reg (r6 w 7)) (r3 w 3))
  else if fld w 0 3 = 1 ∧ fld w 6 1 = 1 ∧ fld w 7 6 = 0 ∧ x < 1048576 then some (.vsubH (r6 w 19) (r6 w 13) (.konst (kref x)) (r3 w 3))
  else if fld w 0 3 = 2 ∧ fld w 6 1 = 0 then some (.vmulH (r6 w 19) (r6 w 13) (.reg (r6 w 7)) (r3 w 3))
  else if fld w 0 3 = 2 ∧ fld w 6 1 = 1 ∧ fld w 7 6 = 0 ∧ x < 1048576 then some (.vmulH (r6 w 19) (r6 w 13) (.konst (kref x)) (r3 w 3))
  else if fld w 0 3 = 3 ∧ fld w 6 1 = 0 then some (.vminH (r6 w 19) (r6 w 13) (.reg (r6 w 7)) (r3 w 3))
  else if fld w 0 3 = 3 ∧ fld w 6 1 = 1 ∧ fld w 7 6 = 0 ∧ x < 1048576 then some (.vminH (r6 w 19) (r6 w 13) (.konst (kref x)) (r3 w 3))
  else if fld w 0 3 = 4 ∧ fld w 6 1 = 0 then some (.vmaxH (r6 w 19) (r6 w 13) (.reg (r6 w 7)) (r3 w 3))
  else if fld w 0 3 = 4 ∧ fld w 6 1 = 1 ∧ fld w 7 6 = 0 ∧ x < 1048576 then some (.vmaxH (r6 w 19) (r6 w 13) (.konst (kref x)) (r3 w 3))
  else if fld w 0 3 = 5 ∧ fld w 6 1 = 0 then some (.vminUH (r6 w 19) (r6 w 13) (.reg (r6 w 7)) (r3 w 3))
  else if fld w 0 3 = 5 ∧ fld w 6 1 = 1 ∧ fld w 7 6 = 0 ∧ x < 1048576 then some (.vminUH (r6 w 19) (r6 w 13) (.konst (kref x)) (r3 w 3))
  else if fld w 0 3 = 6 ∧ fld w 6 1 = 0 then some (.vmaxUH (r6 w 19) (r6 w 13) (.reg (r6 w 7)) (r3 w 3))
  else if fld w 0 3 = 6 ∧ fld w 6 1 = 1 ∧ fld w 7 6 = 0 ∧ x < 1048576 then some (.vmaxUH (r6 w 19) (r6 w 13) (.konst (kref x)) (r3 w 3))
  else none

/-- Major 0x4A of the opcode map (R61). -/
def decode4A (w x : Nat) : Option Instr :=
  if fld w 0 3 = 0 ∧ fld w 6 1 = 0 then some (.vandH (r6 w 19) (r6 w 13) (.reg (r6 w 7)) (r3 w 3))
  else if fld w 0 3 = 0 ∧ fld w 6 1 = 1 ∧ fld w 7 6 = 0 ∧ x < 1048576 then some (.vandH (r6 w 19) (r6 w 13) (.konst (kref x)) (r3 w 3))
  else if fld w 0 3 = 1 ∧ fld w 6 1 = 0 then some (.vorH (r6 w 19) (r6 w 13) (.reg (r6 w 7)) (r3 w 3))
  else if fld w 0 3 = 1 ∧ fld w 6 1 = 1 ∧ fld w 7 6 = 0 ∧ x < 1048576 then some (.vorH (r6 w 19) (r6 w 13) (.konst (kref x)) (r3 w 3))
  else if fld w 0 3 = 2 ∧ fld w 6 1 = 0 then some (.vxorH (r6 w 19) (r6 w 13) (.reg (r6 w 7)) (r3 w 3))
  else if fld w 0 3 = 2 ∧ fld w 6 1 = 1 ∧ fld w 7 6 = 0 ∧ x < 1048576 then some (.vxorH (r6 w 19) (r6 w 13) (.konst (kref x)) (r3 w 3))
  else if fld w 0 3 = 3 ∧ fld w 6 1 = 0 then some (.vshlH (r6 w 19) (r6 w 13) (.reg (r6 w 7)) (r3 w 3))
  else if fld w 0 3 = 3 ∧ fld w 6 1 = 1 ∧ fld w 7 6 = 0 ∧ x < 1048576 then some (.vshlH (r6 w 19) (r6 w 13) (.konst (kref x)) (r3 w 3))
  else if fld w 0 3 = 4 ∧ fld w 6 1 = 0 then some (.vshrH (r6 w 19) (r6 w 13) (.reg (r6 w 7)) (r3 w 3))
  else if fld w 0 3 = 4 ∧ fld w 6 1 = 1 ∧ fld w 7 6 = 0 ∧ x < 1048576 then some (.vshrH (r6 w 19) (r6 w 13) (.konst (kref x)) (r3 w 3))
  else if fld w 0 3 = 5 ∧ fld w 6 1 = 0 then some (.vsraH (r6 w 19) (r6 w 13) (.reg (r6 w 7)) (r3 w 3))
  else if fld w 0 3 = 5 ∧ fld w 6 1 = 1 ∧ fld w 7 6 = 0 ∧ x < 1048576 then some (.vsraH (r6 w 19) (r6 w 13) (.konst (kref x)) (r3 w 3))
  else none

/-- Major 0x4B of the opcode map (R61). -/
def decode4B (w x : Nat) : Option Instr :=
  if fld w 0 3 = 0 ∧ fld w 6 1 = 0 then some (.vcmpEqW (r6 w 19) (r6 w 13) (.reg (r6 w 7)) (r3 w 3))
  else if fld w 0 3 = 0 ∧ fld w 6 1 = 1 ∧ fld w 7 6 = 0 ∧ x < 1048576 then some (.vcmpEqW (r6 w 19) (r6 w 13) (.konst (kref x)) (r3 w 3))
  else if fld w 0 3 = 1 ∧ fld w 6 1 = 0 then some (.vcmpNeW (r6 w 19) (r6 w 13) (.reg (r6 w 7)) (r3 w 3))
  else if fld w 0 3 = 1 ∧ fld w 6 1 = 1 ∧ fld w 7 6 = 0 ∧ x < 1048576 then some (.vcmpNeW (r6 w 19) (r6 w 13) (.konst (kref x)) (r3 w 3))
  else if fld w 0 3 = 2 ∧ fld w 6 1 = 0 then some (.vcmpLtW (r6 w 19) (r6 w 13) (.reg (r6 w 7)) (r3 w 3))
  else if fld w 0 3 = 2 ∧ fld w 6 1 = 1 ∧ fld w 7 6 = 0 ∧ x < 1048576 then some (.vcmpLtW (r6 w 19) (r6 w 13) (.konst (kref x)) (r3 w 3))
  else if fld w 0 3 = 3 ∧ fld w 6 1 = 0 then some (.vcmpLeW (r6 w 19) (r6 w 13) (.reg (r6 w 7)) (r3 w 3))
  else if fld w 0 3 = 3 ∧ fld w 6 1 = 1 ∧ fld w 7 6 = 0 ∧ x < 1048576 then some (.vcmpLeW (r6 w 19) (r6 w 13) (.konst (kref x)) (r3 w 3))
  else if fld w 0 3 = 4 ∧ fld w 6 1 = 0 then some (.vcmpLtUW (r6 w 19) (r6 w 13) (.reg (r6 w 7)) (r3 w 3))
  else if fld w 0 3 = 4 ∧ fld w 6 1 = 1 ∧ fld w 7 6 = 0 ∧ x < 1048576 then some (.vcmpLtUW (r6 w 19) (r6 w 13) (.konst (kref x)) (r3 w 3))
  else if fld w 0 3 = 5 ∧ fld w 6 1 = 0 then some (.vcmpLeUW (r6 w 19) (r6 w 13) (.reg (r6 w 7)) (r3 w 3))
  else if fld w 0 3 = 5 ∧ fld w 6 1 = 1 ∧ fld w 7 6 = 0 ∧ x < 1048576 then some (.vcmpLeUW (r6 w 19) (r6 w 13) (.konst (kref x)) (r3 w 3))
  else none

/-- Major 0x4C of the opcode map (R61). -/
def decode4C (w x : Nat) : Option Instr :=
  if fld w 0 3 = 0 ∧ fld w 6 1 = 0 then some (.vcmpEqH (r6 w 19) (r6 w 13) (.reg (r6 w 7)) (r3 w 3))
  else if fld w 0 3 = 0 ∧ fld w 6 1 = 1 ∧ fld w 7 6 = 0 ∧ x < 1048576 then some (.vcmpEqH (r6 w 19) (r6 w 13) (.konst (kref x)) (r3 w 3))
  else if fld w 0 3 = 1 ∧ fld w 6 1 = 0 then some (.vcmpNeH (r6 w 19) (r6 w 13) (.reg (r6 w 7)) (r3 w 3))
  else if fld w 0 3 = 1 ∧ fld w 6 1 = 1 ∧ fld w 7 6 = 0 ∧ x < 1048576 then some (.vcmpNeH (r6 w 19) (r6 w 13) (.konst (kref x)) (r3 w 3))
  else if fld w 0 3 = 2 ∧ fld w 6 1 = 0 then some (.vcmpLtH (r6 w 19) (r6 w 13) (.reg (r6 w 7)) (r3 w 3))
  else if fld w 0 3 = 2 ∧ fld w 6 1 = 1 ∧ fld w 7 6 = 0 ∧ x < 1048576 then some (.vcmpLtH (r6 w 19) (r6 w 13) (.konst (kref x)) (r3 w 3))
  else if fld w 0 3 = 3 ∧ fld w 6 1 = 0 then some (.vcmpLeH (r6 w 19) (r6 w 13) (.reg (r6 w 7)) (r3 w 3))
  else if fld w 0 3 = 3 ∧ fld w 6 1 = 1 ∧ fld w 7 6 = 0 ∧ x < 1048576 then some (.vcmpLeH (r6 w 19) (r6 w 13) (.konst (kref x)) (r3 w 3))
  else if fld w 0 3 = 4 ∧ fld w 6 1 = 0 then some (.vcmpLtUH (r6 w 19) (r6 w 13) (.reg (r6 w 7)) (r3 w 3))
  else if fld w 0 3 = 4 ∧ fld w 6 1 = 1 ∧ fld w 7 6 = 0 ∧ x < 1048576 then some (.vcmpLtUH (r6 w 19) (r6 w 13) (.konst (kref x)) (r3 w 3))
  else if fld w 0 3 = 5 ∧ fld w 6 1 = 0 then some (.vcmpLeUH (r6 w 19) (r6 w 13) (.reg (r6 w 7)) (r3 w 3))
  else if fld w 0 3 = 5 ∧ fld w 6 1 = 1 ∧ fld w 7 6 = 0 ∧ x < 1048576 then some (.vcmpLeUH (r6 w 19) (r6 w 13) (.konst (kref x)) (r3 w 3))
  else none

/-- Major 0x4D of the opcode map (R61). -/
def decode4D (w _x : Nat) : Option Instr :=
  if fld w 0 3 = 0 ∧ fld w 6 1 = 0 then some (.vselW (r6 w 19) (r6 w 13) (r6 w 7) (r3 w 3))
  else if fld w 0 3 = 1 ∧ fld w 6 1 = 0 then some (.vselH (r6 w 19) (r6 w 13) (r6 w 7) (r3 w 3))
  else none

/-- Major 0x4E of the opcode map (R61). -/
def decode4E (w _x : Nat) : Option Instr :=
  if fld w 0 3 = 0 ∧ fld w 6 1 = 0 then some (.vcvtF16F32 (r6 w 19) (r6 w 13) (r6 w 7) (r3 w 3))
  else if fld w 0 3 = 1 ∧ fld w 6 1 = 0 then some (.vcvtBf16F32 (r6 w 19) (r6 w 13) (r6 w 7) (r3 w 3))
  else if fld w 0 3 = 2 ∧ fld w 6 1 = 0 then some (.vcvtF32F16 (r6 w 19) (r6 w 13) (r6 w 7) (r3 w 3))
  else if fld w 0 3 = 3 ∧ fld w 6 1 = 0 then some (.vcvtF32Bf16 (r6 w 19) (r6 w 13) (r6 w 7) (r3 w 3))
  else if fld w 0 3 = 4 ∧ fld w 6 1 = 0 ∧ fld w 7 6 = 0 then some (.vcvtWF32 (r6 w 19) (r6 w 13) (r3 w 3))
  else if fld w 0 3 = 5 ∧ fld w 6 1 = 0 ∧ fld w 7 6 = 0 then some (.vcvtF32W (r6 w 19) (r6 w 13) (r3 w 3))
  else none

/-- Major 0x4F of the opcode map (R61). -/
def decode4F (w _x : Nat) : Option Instr :=
  if fld w 2 1 = 0 ∧ fld w 6 1 = 0 then some (.vcvtN (r6 w 19) (r6 w 13) (r6 w 7) (r3 w 3) (r2 w 0))
  else if fld w 2 1 = 1 ∧ fld w 6 1 = 0 then some (.vcvtNf (r6 w 19) (r6 w 13) (r6 w 7) (r3 w 3) (r2 w 0))
  else none

/-- Major 0x50 of the opcode map (R61). -/
noncomputable def decode50 (w _x : Nat) : Option Instr :=
  if fld w 0 3 = 0 ∧ fld w 6 1 = 0 ∧ fld w 7 6 = 0 then some (.vmov (r6 w 19) (r6 w 13) (r3 w 3))
  else if fld w 0 3 = 1 ∧ fld w 6 1 = 0 then some (.vpermW (r6 w 19) (r6 w 13) (r6 w 7) (r3 w 3))
  else if fld w 0 3 = 2 ∧ fld w 6 1 = 0 then some (.vpermH (r6 w 19) (r6 w 13) (r6 w 7) (r3 w 3))
  else if fld w 0 3 = 3 ∧ fld w 6 1 = 0 ∧ fld w 7 6 = 0 then some (.vbcstW (r6 w 19) (r6 w 13) (r3 w 3))
  else if fld w 0 3 = 4 ∧ fld w 6 1 = 0 ∧ fld w 7 6 = 0 then some (.vbcstH (r6 w 19) (r6 w 13) (r3 w 3))
  else if fld w 0 7 = 5 then some (.vextW (r6 w 19) (r6 w 13) (r6 w 7))
  else if fld w 0 7 = 6 then some (.vextH (r6 w 19) (r6 w 13) (r6 w 7))
  else none

/-- Major 0x51 of the opcode map (R61). -/
noncomputable def decode51 (w _x : Nat) : Option Instr :=
  if fld w 0 3 = 0 ∧ fld w 6 1 = 0 ∧ fld w 7 6 = 0 then some (.vredSumF32 (r6 w 19) (r6 w 13) (r3 w 3))
  else if fld w 0 3 = 1 ∧ fld w 6 1 = 0 ∧ fld w 7 6 = 0 then some (.vredSumF16 (r6 w 19) (r6 w 13) (r3 w 3))
  else if fld w 0 3 = 2 ∧ fld w 6 1 = 0 ∧ fld w 7 6 = 0 then some (.vredSumBf16 (r6 w 19) (r6 w 13) (r3 w 3))
  else if fld w 0 3 = 3 ∧ fld w 6 1 = 0 ∧ fld w 7 6 = 0 then some (.vredMaxF32 (r6 w 19) (r6 w 13) (r3 w 3))
  else if fld w 0 3 = 4 ∧ fld w 6 1 = 0 ∧ fld w 7 6 = 0 then some (.vredMinF32 (r6 w 19) (r6 w 13) (r3 w 3))
  else if fld w 0 3 = 5 ∧ fld w 6 1 = 0 ∧ fld w 7 6 = 0 then some (.vredSumW (r6 w 19) (r6 w 13) (r3 w 3))
  else none

/-- Major 0x52 of the opcode map (R61). -/
noncomputable def decode52 (w _x : Nat) : Option Instr :=
  if fld w 0 7 = 0 then some (.pand (r6 w 19) (r6 w 13) (r6 w 7))
  else if fld w 0 7 = 1 then some (.por (r6 w 19) (r6 w 13) (r6 w 7))
  else if fld w 0 7 = 2 then some (.pxor (r6 w 19) (r6 w 13) (r6 w 7))
  else if fld w 0 7 = 3 then some (.pandn (r6 w 19) (r6 w 13) (r6 w 7))
  else if fld w 0 7 = 4 ∧ fld w 7 6 = 0 then some (.pwhileH (r6 w 19) (r6 w 13))
  else if fld w 0 7 = 5 ∧ fld w 7 6 = 0 then some (.pwhileW (r6 w 19) (r6 w 13))
  else if fld w 0 7 = 6 ∧ fld w 7 6 = 0 then some (.pmov (r6 w 19) (r6 w 13))
  else if fld w 0 7 = 7 ∧ fld w 7 6 = 0 then some (.pget (r6 w 19) (r6 w 13))
  else none

/-- Major 0x53 of the opcode map (R61). -/
noncomputable def decode53 (w x : Nat) : Option Instr :=
  if fld w 0 3 = 0 ∧ fld w 6 1 = 0 then some (.vld (r6 w 19) (r6 w 13) (.reg (r6 w 7)) (r3 w 3))
  else if fld w 0 3 = 0 ∧ fld w 6 1 = 1 ∧ fld w 7 6 = 0 ∧ x < 1048576 then some (.vld (r6 w 19) (r6 w 13) (.konst (kref x)) (r3 w 3))
  else if fld w 0 3 = 1 ∧ fld w 6 1 = 0 then some (.vst (r6 w 19) (r6 w 13) (.reg (r6 w 7)) (r3 w 3))
  else if fld w 0 3 = 1 ∧ fld w 6 1 = 1 ∧ fld w 7 6 = 0 ∧ x < 1048576 then some (.vst (r6 w 19) (r6 w 13) (.konst (kref x)) (r3 w 3))
  else if fld w 0 3 = 2 ∧ fld w 6 1 = 0 then some (.vldBcW (r6 w 19) (r6 w 13) (.reg (r6 w 7)) (r3 w 3))
  else if fld w 0 3 = 2 ∧ fld w 6 1 = 1 ∧ fld w 7 6 = 0 ∧ x < 1048576 then some (.vldBcW (r6 w 19) (r6 w 13) (.konst (kref x)) (r3 w 3))
  else if fld w 0 3 = 3 ∧ fld w 6 1 = 0 then some (.vldBcH (r6 w 19) (r6 w 13) (.reg (r6 w 7)) (r3 w 3))
  else if fld w 0 3 = 3 ∧ fld w 6 1 = 1 ∧ fld w 7 6 = 0 ∧ x < 1048576 then some (.vldBcH (r6 w 19) (r6 w 13) (.konst (kref x)) (r3 w 3))
  else none

/-- Major 0x60 of the opcode map (R61). -/
noncomputable def decode60 (w _x : Nat) : Option Instr :=
  if fld w 2 2 = 0 ∧ fld w 6 1 = 0 ∧ fld w 19 6 = 0 then some (.mmac (r6 w 13) (r6 w 7) (r2 w 4) (r2 w 0))
  else if fld w 2 2 = 1 ∧ fld w 6 1 = 0 then some (.mmacS (r6 w 19) (r6 w 13) (r6 w 7) (r2 w 4) (r2 w 0))
  else if fld w 2 2 = 2 ∧ fld w 6 1 = 0 then some (.mmacSs (r6 w 19) (r6 w 13) (r6 w 7) (r2 w 4) (r2 w 0))
  else none

/-- Major 0x61 of the opcode map (R61). -/
noncomputable def decode61 (w _x : Nat) : Option Instr :=
  if fld w 2 2 = 0 ∧ fld w 6 1 = 0 ∧ fld w 19 6 = 0 then some (.mmacTri (r6 w 13) (r6 w 7) (r2 w 4) (r2 w 0))
  else none

/-- Major 0x62 of the opcode map (R61). -/
noncomputable def decode62 (w _x : Nat) : Option Instr :=
  if fld w 2 2 = 0 ∧ fld w 6 1 = 0 then some (.mgrp (r6 w 19) (r6 w 13) (r6 w 7) (r2 w 4) (r2 w 0))
  else none

/-- Major 0x63 of the opcode map (R61). -/
noncomputable def decode63 (w _x : Nat) : Option Instr :=
  if fld w 2 5 = 0 ∧ fld w 7 6 = 0 ∧ fld w 19 6 = 0 then some (.zclr (r6 w 13) (r2 w 0))
  else if fld w 2 5 = 1 ∧ fld w 7 6 = 0 ∧ fld w 19 6 = 0 then some (.zanchor (r6 w 13) (r2 w 0))
  else if fld w 2 5 = 2 ∧ fld w 7 6 = 0 ∧ fld w 19 6 = 0 then some (.zfit (r6 w 13) (r2 w 0))
  else none

/-- Major 0x64 of the opcode map (R61). -/
noncomputable def decode64 (w _x : Nat) : Option Instr :=
  if fld w 2 2 = 0 ∧ fld w 5 2 = 0 ∧ fld w 19 6 = 0 then some (.zread (r6 w 13) (r6 w 7) (r1 w 4) (r2 w 0))
  else if fld w 2 2 = 1 ∧ fld w 5 2 = 0 then some (.zreadTri (r6 w 19) (r6 w 13) (r6 w 7) (r1 w 4) (r2 w 0))
  else if fld w 2 5 = 2 ∧ fld w 19 6 = 0 then some (.zraw (r6 w 13) (r6 w 7) (r2 w 0))
  else none

/-- Major 0x65 of the opcode map (R61). -/
noncomputable def decode65 (w _x : Nat) : Option Instr :=
  if fld w 0 2 = 0 ∧ fld w 4 3 = 0 then some (.dcut (r6 w 19) (r6 w 13) (r6 w 7) (r2 w 2))
  else if fld w 0 2 = 1 ∧ fld w 4 3 = 0 then some (.dcutP (r6 w 19) (r6 w 13) (r6 w 7) (r2 w 2))
  else if fld w 0 2 = 2 ∧ fld w 4 3 = 0 then some (.dcutCo (r6 w 19) (r6 w 13) (r6 w 7) (r2 w 2))
  else none

/-- Major 0x66 of the opcode map (R61). -/
noncomputable def decode66 (w _x : Nat) : Option Instr :=
  if fld w 0 7 = 0 ∧ fld w 7 6 = 0 then some (.mtbr (r6 w 19) (r6 w 13))
  else if fld w 0 7 = 1 ∧ fld w 7 6 = 0 then some (.mtbw (r6 w 19) (r6 w 13))
  else none

/-- Major 0x68 of the opcode map (R61). -/
noncomputable def decode68 (w _x : Nat) : Option Instr :=
  if fld w 0 2 = 0 ∧ fld w 6 1 = 0 then some (.sbind (r6 w 19) (r6 w 13) (r6 w 7) (r2 w 4) (r1 w 3) (r1 w 2))
  else if fld w 0 7 = 1 ∧ fld w 7 6 = 0 ∧ fld w 13 6 = 0 then some (.sfree (r6 w 19))
  else if fld w 0 7 = 2 ∧ fld w 7 6 = 0 then some (.sstat (r6 w 19) (r6 w 13))
  else none

/-- Major 0x69 of the opcode map (R61). -/
noncomputable def decode69 (w _x : Nat) : Option Instr :=
  if fld w 0 1 = 0 ∧ fld w 2 5 = 0 then some (.cpy (r6 w 19) (r6 w 13) (r6 w 7) (r1 w 1))
  else if fld w 0 1 = 1 ∧ fld w 2 5 = 0 then some (.cpyMc (r6 w 19) (r6 w 13) (r6 w 7) (r1 w 1))
  else none

/-- Major 0x6A of the opcode map (R61). -/
noncomputable def decode6A (w _x : Nat) : Option Instr :=
  if fld w 0 7 = 0 then some (.mbset (r6 w 19) (r6 w 13) (r6 w 7))
  else if fld w 0 3 = 1 ∧ fld w 6 1 = 0 ∧ fld w 7 6 = 0 then some (.msend (r6 w 19) (r6 w 13) (r3 w 3))
  else none

/-- Major 0x6B of the opcode map (R61). -/
noncomputable def decode6B (w _x : Nat) : Option Instr :=
  if fld w 0 7 = 0 then some (.mrecv (r6 w 19) (r6 w 13) (r6 w 7))
  else none

/-- Major 0x6C of the opcode map (R61). -/
noncomputable def decode6C (w _x : Nat) : Option Instr :=
  if fld w 0 7 = 0 ∧ fld w 7 6 = 0 then some (.mcnt (r6 w 19) (r6 w 13))
  else if fld w 0 7 = 1 ∧ fld w 19 6 = 0 then some (.mcntSet (r6 w 13) (r6 w 7))
  else if fld w 0 7 = 2 ∧ fld w 19 6 = 0 then some (.mwcnt (r6 w 13) (r6 w 7))
  else none

/-- Major 0x6D of the opcode map (R61). -/
noncomputable def decode6D (w _x : Nat) : Option Instr :=
  if fld w 0 7 = 0 ∧ fld w 7 6 = 0 ∧ fld w 13 6 = 0 then some (.wfm (r6 w 19))
  else if fld w 0 7 = 1 ∧ fld w 7 6 = 0 ∧ fld w 13 6 = 0 then some (.mpop (r6 w 19))
  else none

/-- Major 0x6E of the opcode map (R61). -/
noncomputable def decode6E (w _x : Nat) : Option Instr :=
  if fld w 0 7 = 0 ∧ fld w 19 6 = 0 then some (.feset (r6 w 13) (r6 w 7))
  else if fld w 0 7 = 1 ∧ fld w 19 6 = 0 then some (.feclr (r6 w 13) (r6 w 7))
  else none

/-- Major 0x70 of the opcode map (R61). -/
noncomputable def decode70 (w _x : Nat) : Option Instr :=
  if fld w 0 7 = 0 ∧ fld w 7 6 = 0 then some (.pkload (r6 w 19) (r6 w 13))
  else if fld w 0 3 = 1 ∧ fld w 5 2 = 0 then some (.pkrun (r6 w 19) (r6 w 13) (r6 w 7) (r2 w 3))
  else if fld w 0 7 = 2 ∧ fld w 7 6 = 0 then some (.pkstat (r6 w 19) (r6 w 13))
  else if fld w 0 7 = 3 ∧ fld w 7 6 = 0 ∧ fld w 19 6 = 0 then some (.pkstop (r6 w 13))
  else none

/-- Major 0x71 of the opcode map (R61). -/
noncomputable def decode71 (w _x : Nat) : Option Instr :=
  if fld w 0 7 = 0 ∧ fld w 7 6 = 0 then some (.fbopen (r6 w 19) (r6 w 13))
  else if fld w 0 7 = 1 ∧ fld w 7 6 = 0 then some (.fbadv (r6 w 19) (r6 w 13))
  else if fld w 0 7 = 2 ∧ fld w 7 6 = 0 then some (.fbend (r6 w 19) (r6 w 13))
  else if fld w 0 7 = 3 ∧ fld w 7 6 = 0 ∧ fld w 19 6 = 0 then some (.fbclose (r6 w 13))
  else none

/-- Major 0x72 of the opcode map (R61). -/
noncomputable def decode72 (w _x : Nat) : Option Instr :=
  if fld w 0 7 = 0 then some (.fbdot (r6 w 19) (r6 w 13) (r6 w 7))
  else none

/-- Major 0x74 of the opcode map (R61). -/
noncomputable def decode74 (w _x : Nat) : Option Instr :=
  if fld w 0 7 = 0 ∧ fld w 7 6 = 0 then some (.fdecl (r6 w 19) (r6 w 13))
  else if fld w 0 7 = 1 ∧ fld w 7 6 = 0 then some (.fstart (r6 w 19) (r6 w 13))
  else if fld w 0 7 = 2 ∧ fld w 7 6 = 0 ∧ fld w 19 6 = 0 then some (.fstop (r6 w 13))
  else if fld w 0 7 = 3 then some (.fstep (r6 w 19) (r6 w 13) (r6 w 7))
  else if fld w 0 7 = 4 then some (.fctl (r6 w 19) (r6 w 13) (r6 w 7))
  else if fld w 0 7 = 5 ∧ fld w 7 6 = 0 then some (.fq (r6 w 19) (r6 w 13))
  else none

/-- Major 0x75 of the opcode map (R61). -/
noncomputable def decode75 (w _x : Nat) : Option Instr :=
  if fld w 0 7 = 0 then some (.fpull (r6 w 19) (r6 w 13) (r6 w 7))
  else if fld w 0 7 = 1 then some (.fcoup (r6 w 19) (r6 w 13) (r6 w 7))
  else if fld w 0 7 = 2 then some (.fwait (r6 w 19) (r6 w 13) (r6 w 7))
  else none

/-- The instruction of a word w, before its field values are checked; x is the word after it, which only a K form
reads. Every major that no entry assigns is refused (R61, R62). -/
noncomputable def decodeFlat (w x : Nat) : Option Instr :=
  match w / 33554432 with
  | 0x00 => decode00 w x
  | 0x01 => decode01 w x
  | 0x02 => decode02 w x
  | 0x03 => decode03 w x
  | 0x04 => decode04 w x
  | 0x05 => decode05 w x
  | 0x06 => decode06 w x
  | 0x07 => decode07 w x
  | 0x08 => decode08 w x
  | 0x09 => decode09 w x
  | 0x10 => decode10 w x
  | 0x11 => decode11 w x
  | 0x18 => decode18 w x
  | 0x19 => decode19 w x
  | 0x1A => decode1A w x
  | 0x1B => decode1B w x
  | 0x1C => decode1C w x
  | 0x1D => decode1D w x
  | 0x1E => decode1E w x
  | 0x1F => decode1F w x
  | 0x20 => decode20 w x
  | 0x21 => decode21 w x
  | 0x22 => decode22 w x
  | 0x23 => decode23 w x
  | 0x24 => decode24 w x
  | 0x25 => decode25 w x
  | 0x26 => decode26 w x
  | 0x27 => decode27 w x
  | 0x28 => decode28 w x
  | 0x29 => decode29 w x
  | 0x2A => decode2A w x
  | 0x2B => decode2B w x
  | 0x2C => decode2C w x
  | 0x2D => decode2D w x
  | 0x2E => decode2E w x
  | 0x2F => decode2F w x
  | 0x30 => decode30 w x
  | 0x31 => decode31 w x
  | 0x36 => decode36 w x
  | 0x37 => decode37 w x
  | 0x38 => decode38 w x
  | 0x39 => decode39 w x
  | 0x3A => decode3A w x
  | 0x3E => decode3E w x
  | 0x40 => decode40 w x
  | 0x41 => decode41 w x
  | 0x42 => decode42 w x
  | 0x43 => decode43 w x
  | 0x44 => decode44 w x
  | 0x45 => decode45 w x
  | 0x46 => decode46 w x
  | 0x47 => decode47 w x
  | 0x48 => decode48 w x
  | 0x49 => decode49 w x
  | 0x4A => decode4A w x
  | 0x4B => decode4B w x
  | 0x4C => decode4C w x
  | 0x4D => decode4D w x
  | 0x4E => decode4E w x
  | 0x4F => decode4F w x
  | 0x50 => decode50 w x
  | 0x51 => decode51 w x
  | 0x52 => decode52 w x
  | 0x53 => decode53 w x
  | 0x60 => decode60 w x
  | 0x61 => decode61 w x
  | 0x62 => decode62 w x
  | 0x63 => decode63 w x
  | 0x64 => decode64 w x
  | 0x65 => decode65 w x
  | 0x66 => decode66 w x
  | 0x68 => decode68 w x
  | 0x69 => decode69 w x
  | 0x6A => decode6A w x
  | 0x6B => decode6B w x
  | 0x6C => decode6C w x
  | 0x6D => decode6D w x
  | 0x6E => decode6E w x
  | 0x70 => decode70 w x
  | 0x71 => decode71 w x
  | 0x72 => decode72 w x
  | 0x74 => decode74 w x
  | 0x75 => decode75 w x
  | _ => none

/-- The decoder: the instruction that word w, followed by word x, stands for, or none for an illegal encoding (R62). `mcmd`
carries the instruction of the next word (R236). -/
noncomputable def decode (w x : Nat) : Option Instr :=
  if w / 33554432 = 0x67 then
    if fld w 0 13 = 0 ∧ fld w 19 6 = 0 then
      match decodeFlat x 0 with
      | some c => if Instr.wellFormed (.mcmd (r6 w 13) c) then some (.mcmd (r6 w 13) c) else none
      | none => none
    else none
  else
    match decodeFlat w x with
    | some i => if i.wellFormed then some i else none
    | none => none

/-- The words of an instruction other than `mcmd`; a step of the device has none. -/
def encodeFlat : Instr → List Nat
  | .powerOn .. => []
  | .timeCounterLock .. => []
  | .sensorSample .. => []
  | .thermRead .. => []
  | .powerStageCutoff .. => []
  | .kslotStage .. => []
  | .kslotCommit .. => []
  | .mextStage .. => []
  | .mextExtend .. => []
  | .measLatch .. => []
  | .rtabWrite .. => []
  | .ddeadClear .. => []
  | .ldeadClear .. => []
  | .configWrite .. => []
  | .linkFlitReplay .. => []
  | .heartbeat .. => []
  | .linkDead .. => []
  | .deviceDead .. => []
  | .deadPeerSynthesis .. => []
  | .qosFrame .. => []
  | .storeQueueLeave .. => []
  | .writeApplied .. => []
  | .recallComplete .. => []
  | .loadReturn .. => []
  | .atomicPerformed .. => []
  | .completionProbeAnswer .. => []
  | .asyncTrapEntry .. => []
  | .contextEnd .. => []
  | .stopCycleReached .. => []
  | .feltToken .. => []
  | .stopComplete .. => []
  | .tresumeWrite .. => []
  | .resumeStart .. => []
  | .dhaltHalt .. => []
  | .dhaltRelease .. => []
  | .scoreboardWrite .. => []
  | .dcmdWrite .. => []
  | .dcmdRead .. => []
  | .ctxctlResume .. => []
  | .ctxctlDismiss .. => []
  | .locationSavedToCold .. => []
  | .locationColdToSaved .. => []
  | .tpartWrite .. => []
  | .tinvWrite .. => []
  | .tlbWalk .. => []
  | .fabArrivalResolve .. => []
  | .arrivalApply .. => []
  | .arrivalCreditReturn .. => []
  | .mailboxEntry .. => []
  | .engineAnswer .. => []
  | .matrixCommandTake .. => []
  | .operandRead .. => []
  | .matrixCommandRetire .. => []
  | .remoteCommandArrival .. => []
  | .streamReadAhead .. => []
  | .streamElementWrite .. => []
  | .cpyLine .. => []
  | .multicastRequest .. => []
  | .multicastEntryTimeout .. => []
  | .messageArrival .. => []
  | .messageCounterIncrement .. => []
  | .sendAllowanceReturn .. => []
  | .indexReadAhead .. => []
  | .kernelRun .. => []
  | .kldReturn .. => []
  | .gatherStep .. => []
  | .scatterStep .. => []
  | .pkloadImageRead .. => []
  | .fibreReadAhead .. => []
  | .siteUpdate .. => []
  | .phaseReport .. => []
  | .boundaryPublish .. => []
  | .boundaryReceive .. => []
  | .pullBackgroundCopy .. => []
  | .pullComplete .. => []
  | .pageTakeHeld .. => []
  | .pageGiveUp .. => []
  | .migrationReplay .. => []
  | .gangPlacement .. => []
  | .gangEnd .. => []
  | .continuationPop .. => []
  | .yieldSignal .. => []
  | .barrierArrival .. => []
  | .mwaitTimeout .. => []
  | .leaseDue .. => []
  | .leaseTake .. => []
  | .testSessionEnd .. => []
  | .fadeEvent .. => []
  | .scoreHalving .. => []
  | .channelRetirementRetry .. => []
  | .add d a b => [0x0 + d.val * 524288 + a.val * 8192 + b.val * 128]
  | .sub d a b => [0x1 + d.val * 524288 + a.val * 8192 + b.val * 128]
  | .mul d a b => [0x2 + d.val * 524288 + a.val * 8192 + b.val * 128]
  | .mulh d a b => [0x3 + d.val * 524288 + a.val * 8192 + b.val * 128]
  | .mulhU d a b => [0x4 + d.val * 524288 + a.val * 8192 + b.val * 128]
  | .div d a b => [0x5 + d.val * 524288 + a.val * 8192 + b.val * 128]
  | .divU d a b => [0x6 + d.val * 524288 + a.val * 8192 + b.val * 128]
  | .rem d a b => [0x7 + d.val * 524288 + a.val * 8192 + b.val * 128]
  | .remU d a b => [0x8 + d.val * 524288 + a.val * 8192 + b.val * 128]
  | .and d a b => [0x9 + d.val * 524288 + a.val * 8192 + b.val * 128]
  | .or d a b => [0xa + d.val * 524288 + a.val * 8192 + b.val * 128]
  | .xor d a b => [0xb + d.val * 524288 + a.val * 8192 + b.val * 128]
  | .shl d a b => [0xc + d.val * 524288 + a.val * 8192 + b.val * 128]
  | .shr d a b => [0xd + d.val * 524288 + a.val * 8192 + b.val * 128]
  | .sra d a b => [0xe + d.val * 524288 + a.val * 8192 + b.val * 128]
  | .min d a b => [0xf + d.val * 524288 + a.val * 8192 + b.val * 128]
  | .minU d a b => [0x10 + d.val * 524288 + a.val * 8192 + b.val * 128]
  | .max d a b => [0x11 + d.val * 524288 + a.val * 8192 + b.val * 128]
  | .maxU d a b => [0x12 + d.val * 524288 + a.val * 8192 + b.val * 128]
  | .sel d a b => [0x13 + d.val * 524288 + a.val * 8192 + b.val * 128]
  | .clz d a => [0x14 + d.val * 524288 + a.val * 8192]
  | .popc d a => [0x15 + d.val * 524288 + a.val * 8192]
  | .addK d a k => [0x40 + d.val * 524288 + a.val * 8192, k.word]
  | .subK d a k => [0x41 + d.val * 524288 + a.val * 8192, k.word]
  | .mulK d a k => [0x42 + d.val * 524288 + a.val * 8192, k.word]
  | .mulhK d a k => [0x43 + d.val * 524288 + a.val * 8192, k.word]
  | .mulhUK d a k => [0x44 + d.val * 524288 + a.val * 8192, k.word]
  | .divK d a k => [0x45 + d.val * 524288 + a.val * 8192, k.word]
  | .divUK d a k => [0x46 + d.val * 524288 + a.val * 8192, k.word]
  | .remK d a k => [0x47 + d.val * 524288 + a.val * 8192, k.word]
  | .remUK d a k => [0x48 + d.val * 524288 + a.val * 8192, k.word]
  | .andK d a k => [0x49 + d.val * 524288 + a.val * 8192, k.word]
  | .orK d a k => [0x4a + d.val * 524288 + a.val * 8192, k.word]
  | .xorK d a k => [0x4b + d.val * 524288 + a.val * 8192, k.word]
  | .shlK d a k => [0x4c + d.val * 524288 + a.val * 8192, k.word]
  | .shrK d a k => [0x4d + d.val * 524288 + a.val * 8192, k.word]
  | .sraK d a k => [0x4e + d.val * 524288 + a.val * 8192, k.word]
  | .minK d a k => [0x4f + d.val * 524288 + a.val * 8192, k.word]
  | .minUK d a k => [0x50 + d.val * 524288 + a.val * 8192, k.word]
  | .maxK d a k => [0x51 + d.val * 524288 + a.val * 8192, k.word]
  | .maxUK d a k => [0x52 + d.val * 524288 + a.val * 8192, k.word]
  | .selK d a k => [0x53 + d.val * 524288 + a.val * 8192, k.word]
  | .cmpEq d a b => [0x2000000 + d.val * 524288 + a.val * 8192 + b.val * 128]
  | .cmpNe d a b => [0x2000001 + d.val * 524288 + a.val * 8192 + b.val * 128]
  | .cmpLt d a b => [0x2000002 + d.val * 524288 + a.val * 8192 + b.val * 128]
  | .cmpGe d a b => [0x2000003 + d.val * 524288 + a.val * 8192 + b.val * 128]
  | .cmpLtU d a b => [0x2000004 + d.val * 524288 + a.val * 8192 + b.val * 128]
  | .cmpGeU d a b => [0x2000005 + d.val * 524288 + a.val * 8192 + b.val * 128]
  | .cmpEqK d a k => [0x2000040 + d.val * 524288 + a.val * 8192, k.word]
  | .cmpNeK d a k => [0x2000041 + d.val * 524288 + a.val * 8192, k.word]
  | .cmpLtK d a k => [0x2000042 + d.val * 524288 + a.val * 8192, k.word]
  | .cmpGeK d a k => [0x2000043 + d.val * 524288 + a.val * 8192, k.word]
  | .cmpLtUK d a k => [0x2000044 + d.val * 524288 + a.val * 8192, k.word]
  | .cmpGeUK d a k => [0x2000045 + d.val * 524288 + a.val * 8192, k.word]
  | .addi d a i => [0x4000000 + d.val * 524288 + a.val * 8192 + i.toNat]
  | .andi d a i => [0x6000000 + d.val * 524288 + a.val * 8192 + i.toNat]
  | .ori d a i => [0x8000000 + d.val * 524288 + a.val * 8192 + i.toNat]
  | .xori d a i => [0xa000000 + d.val * 524288 + a.val * 8192 + i.toNat]
  | .shli d a i => [0xc000000 + d.val * 524288 + a.val * 8192 + i.toNat]
  | .shri d a i => [0xe000000 + d.val * 524288 + a.val * 8192 + i.toNat]
  | .srai d a i => [0x10000000 + d.val * 524288 + a.val * 8192 + i.toNat]
  | .lhi d a i => [0x12000000 + d.val * 524288 + a.val * 8192 + i.toNat]
  | .cbnd d a b => [0x20000000 + d.val * 524288 + a.val * 8192 + b.val * 128]
  | .cbndX d a b => [0x20000001 + d.val * 524288 + a.val * 8192 + b.val * 128]
  | .cprm d a b => [0x20000002 + d.val * 524288 + a.val * 8192 + b.val * 128]
  | .csea d a => [0x20000003 + d.val * 524288 + a.val * 8192]
  | .cuns d a => [0x20000004 + d.val * 524288 + a.val * 8192]
  | .cadr d a b => [0x20000005 + d.val * 524288 + a.val * 8192 + b.val * 128]
  | .clen d a => [0x20000006 + d.val * 524288 + a.val * 8192]
  | .cbas d a => [0x20000007 + d.val * 524288 + a.val * 8192]
  | .ctst d a b => [0x20000008 + d.val * 524288 + a.val * 8192 + b.val * 128]
  | .cadrInc d a i => [0x22000000 + d.val * 524288 + a.val * 8192 + i.toNat]
  | .br o => [0x30000000 + o.toNat]
  | .call o => [0x30080000 + o.toNat]
  | .bc c o => [0x32000000 + c.val * 524288 + o.toNat]
  | .bcZ c o => [0x34000000 + c.val * 524288 + o.toNat]
  | .bpAny p o => [0x36000000 + p.val * 524288 + o.toNat]
  | .bpAll p o => [0x36400000 + p.val * 524288 + o.toNat]
  | .bpNone p o => [0x36800000 + p.val * 524288 + o.toNat]
  | .bpNall p o => [0x36c00000 + p.val * 524288 + o.toNat]
  | .loop c o => [0x38000000 + c.val * 524288 + o.toNat]
  | .jr a => [0x3a000000 + a.val * 8192]
  | .ret => [0x3a000001]
  | .callReg a => [0x3a000002 + a.val * 8192]
  | .hstart d a b => [0x3a000003 + d.val * 524288 + a.val * 8192 + b.val * 128]
  | .hend => [0x3a000004]
  | .hjoin a => [0x3a000005 + a.val * 8192]
  | .yield => [0x3a000006]
  | .fmt r n d b a => [0x3c000000 + r.val * 1024 + n.val * 512 + d.val * 64 + b.val * 8 + a.val]
  | .nop => [0x3e000000]
  | .rep i => [0x3e000000 + i.toNat]
  | .repW a => [0x3e000000 + a.val * 8192]
  | .ld d a i => [0x40000000 + d.val * 524288 + a.val * 8192 + i.toNat]
  | .st d a i => [0x42000000 + d.val * 524288 + a.val * 8192 + i.toNat]
  | .ldc d a i => [0x44000000 + d.val * 524288 + a.val * 8192 + i.toNat]
  | .stc d a i => [0x46000000 + d.val * 524288 + a.val * 8192 + i.toNat]
  | .ldSized d a b o x s => [0x48000000 + d.val * 524288 + a.val * 8192 + b.val * 128 + o.val * 8 + x.val * 4 + s.val]
  | .ldSizedK d a k o x s => [0x48000040 + d.val * 524288 + a.val * 8192 + o.val * 8 + x.val * 4 + s.val, k.word]
  | .stSized d a b o s => [0x4a000000 + d.val * 524288 + a.val * 8192 + b.val * 128 + o.val * 8 + s.val]
  | .stSizedK d a k o s => [0x4a000040 + d.val * 524288 + a.val * 8192 + o.val * 8 + s.val, k.word]
  | .ldfe d a b => [0x4c000000 + d.val * 524288 + a.val * 8192 + b.val * 128]
  | .ldfeG d a b => [0x4c000001 + d.val * 524288 + a.val * 8192 + b.val * 128]
  | .ldfeP d a b => [0x4c000002 + d.val * 524288 + a.val * 8192 + b.val * 128]
  | .stfe d a b => [0x4c000003 + d.val * 524288 + a.val * 8192 + b.val * 128]
  | .ldfeClr d a b => [0x4c000004 + d.val * 524288 + a.val * 8192 + b.val * 128]
  | .ldfeClrG d a b => [0x4c000005 + d.val * 524288 + a.val * 8192 + b.val * 128]
  | .ldfeClrP d a b => [0x4c000006 + d.val * 524288 + a.val * 8192 + b.val * 128]
  | .stfeWait d a b => [0x4c000007 + d.val * 524288 + a.val * 8192 + b.val * 128]
  | .amoAdd d a b o z => [0x4e000000 + d.val * 524288 + a.val * 8192 + b.val * 128 + o.val * 16 + z.val * 8]
  | .amoAnd d a b o z => [0x4e000001 + d.val * 524288 + a.val * 8192 + b.val * 128 + o.val * 16 + z.val * 8]
  | .amoOr d a b o z => [0x4e000002 + d.val * 524288 + a.val * 8192 + b.val * 128 + o.val * 16 + z.val * 8]
  | .amoXor d a b o z => [0x4e000003 + d.val * 524288 + a.val * 8192 + b.val * 128 + o.val * 16 + z.val * 8]
  | .amoMinU d a b o z => [0x4e000004 + d.val * 524288 + a.val * 8192 + b.val * 128 + o.val * 16 + z.val * 8]
  | .amoMaxU d a b o z => [0x4e000005 + d.val * 524288 + a.val * 8192 + b.val * 128 + o.val * 16 + z.val * 8]
  | .amoSwap d a b o z => [0x4e000006 + d.val * 524288 + a.val * 8192 + b.val * 128 + o.val * 16 + z.val * 8]
  | .amoCas d a b o z => [0x4e000007 + d.val * 524288 + a.val * 8192 + b.val * 128 + o.val * 16 + z.val * 8]
  | .amoAddScoped k d a b o z => [0x58000000 + k.val * 33554432 + d.val * 524288 + a.val * 8192 + b.val * 128 + o.val * 16 + z.val * 8]
  | .amoAndScoped k d a b o z => [0x58000001 + k.val * 33554432 + d.val * 524288 + a.val * 8192 + b.val * 128 + o.val * 16 + z.val * 8]
  | .amoOrScoped k d a b o z => [0x58000002 + k.val * 33554432 + d.val * 524288 + a.val * 8192 + b.val * 128 + o.val * 16 + z.val * 8]
  | .amoXorScoped k d a b o z => [0x58000003 + k.val * 33554432 + d.val * 524288 + a.val * 8192 + b.val * 128 + o.val * 16 + z.val * 8]
  | .amoMinUScoped k d a b o z => [0x58000004 + k.val * 33554432 + d.val * 524288 + a.val * 8192 + b.val * 128 + o.val * 16 + z.val * 8]
  | .amoMaxUScoped k d a b o z => [0x58000005 + k.val * 33554432 + d.val * 524288 + a.val * 8192 + b.val * 128 + o.val * 16 + z.val * 8]
  | .amoSwapScoped k d a b o z => [0x58000006 + k.val * 33554432 + d.val * 524288 + a.val * 8192 + b.val * 128 + o.val * 16 + z.val * 8]
  | .amoCasScoped k d a b o z => [0x58000007 + k.val * 33554432 + d.val * 524288 + a.val * 8192 + b.val * 128 + o.val * 16 + z.val * 8]
  | .fenceRel s => [0x50000001 + s.val * 4]
  | .fenceAcq s => [0x50000002 + s.val * 4]
  | .fenceAr s => [0x50000003 + s.val * 4]
  | .pf a i => [0x52000000 + a.val * 8192 + i.toNat]
  | .pfW a i => [0x52080000 + a.val * 8192 + i.toNat]
  | .pfKeep a i => [0x52100000 + a.val * 8192 + i.toNat]
  | .pfDrop a i => [0x52180000 + a.val * 8192 + i.toNat]
  | .mon d a b => [0x54000000 + d.val * 524288 + a.val * 8192 + b.val * 128]
  | .mwait d a => [0x54000001 + d.val * 524288 + a.val * 8192]
  | .gbar s => [0x56000000 + s.val * 8]
  | .gvoteAnd d a s => [0x56000001 + d.val * 524288 + a.val * 8192 + s.val * 8]
  | .gvoteOr d a s => [0x56000002 + d.val * 524288 + a.val * 8192 + s.val * 8]
  | .gvoteMinU d a s => [0x56000003 + d.val * 524288 + a.val * 8192 + s.val * 8]
  | .gvoteMaxU d a s => [0x56000004 + d.val * 524288 + a.val * 8192 + s.val * 8]
  | .gvoteAdd d a s => [0x56000005 + d.val * 524288 + a.val * 8192 + s.val * 8]
  | .rcap d a b c => [0x60000000 + d.val * 524288 + a.val * 8192 + b.val * 128 + c.val]
  | .rcapC d a b => [0x60000004 + d.val * 524288 + a.val * 8192 + b.val * 128]
  | .rarm a b c => [0x60000008 + a.val * 8192 + b.val * 128 + c.val]
  | .rdis a b c => [0x6000000c + a.val * 8192 + b.val * 128 + c.val]
  | .rstat d c => [0x60000010 + d.val * 524288 + c.val]
  | .rcapX d a b => [0x60000014 + d.val * 524288 + a.val * 8192 + b.val * 128]
  | .rput d a b o c => [0x62000000 + d.val * 524288 + a.val * 8192 + b.val * 128 + o.val * 4 + c.val]
  | .fmset d b => [0x6c000000 + d.val * 524288 + b.val * 128]
  | .fmsetK d k => [0x6c000040 + d.val * 524288, k.word]
  | .fmget d a => [0x6c000001 + d.val * 524288 + a.val * 8192]
  | .getsr d a => [0x6e000000 + d.val * 524288 + a.val * 8192]
  | .setsr a b => [0x6e000001 + a.val * 8192 + b.val * 128]
  | .tcnt d => [0x6e000002 + d.val * 524288]
  | .setcw d b => [0x6e000003 + d.val * 524288 + b.val * 128]
  | .sys i => [0x70000000 + i.toNat]
  | .trap => [0x70080000]
  | .rfe => [0x70100000]
  | .launch d a => [0x72000000 + d.val * 524288 + a.val * 8192]
  | .cpush d a => [0x72000001 + d.val * 524288 + a.val * 8192]
  | .cjoin a => [0x72000002 + a.val * 8192]
  | .stopat a b => [0x72000003 + a.val * 8192 + b.val * 128]
  | .hq d a => [0x74000000 + d.val * 524288 + a.val * 8192]
  | .hqRd d a => [0x74000001 + d.val * 524288 + a.val * 8192]
  | .lack => [0x74000002]
  | .lackOff => [0x74000003]
  | .hauth a b => [0x74000004 + a.val * 8192 + b.val * 128]
  | .pmig a b => [0x7c000000 + a.val * 8192 + b.val * 128]
  | .pmigClr a => [0x7c000001 + a.val * 8192]
  | .mcohHw a b => [0x7c000002 + a.val * 8192 + b.val * 128]
  | .mcohSw a => [0x7c000003 + a.val * 8192]
  | .wmask a b => [0x7c000004 + a.val * 8192 + b.val * 128]
  | .vaddF t d a b g => (0x80000000 + t.val * 33554432 + d.val * 524288 + a.val * 8192 + b.field + g.val * 8) :: b.ext
  | .vsubF t d a b g => (0x80000001 + t.val * 33554432 + d.val * 524288 + a.val * 8192 + b.field + g.val * 8) :: b.ext
  | .vmulF t d a b g => (0x80000002 + t.val * 33554432 + d.val * 524288 + a.val * 8192 + b.field + g.val * 8) :: b.ext
  | .vminF t d a b g => (0x80000003 + t.val * 33554432 + d.val * 524288 + a.val * 8192 + b.field + g.val * 8) :: b.ext
  | .vmaxF t d a b g => (0x80000004 + t.val * 33554432 + d.val * 524288 + a.val * 8192 + b.field + g.val * 8) :: b.ext
  | .vfma t d a b g => (0x80000005 + t.val * 33554432 + d.val * 524288 + a.val * 8192 + b.field + g.val * 8) :: b.ext
  | .vfms t d a b g => (0x80000006 + t.val * 33554432 + d.val * 524288 + a.val * 8192 + b.field + g.val * 8) :: b.ext
  | .vabs d a t g => [0x86000000 + d.val * 524288 + a.val * 8192 + t.val * 128 + g.val * 8]
  | .vneg d a t g => [0x86000001 + d.val * 524288 + a.val * 8192 + t.val * 128 + g.val * 8]
  | .vexp2 d a t g => [0x86000002 + d.val * 524288 + a.val * 8192 + t.val * 128 + g.val * 8]
  | .vrcp d a t g => [0x86000003 + d.val * 524288 + a.val * 8192 + t.val * 128 + g.val * 8]
  | .vrsq d a t g => [0x86000004 + d.val * 524288 + a.val * 8192 + t.val * 128 + g.val * 8]
  | .vcmpEqF t d a b g => (0x88000000 + t.val * 33554432 + d.val * 524288 + a.val * 8192 + b.field + g.val * 8) :: b.ext
  | .vcmpNeF t d a b g => (0x88000001 + t.val * 33554432 + d.val * 524288 + a.val * 8192 + b.field + g.val * 8) :: b.ext
  | .vcmpLtF t d a b g => (0x88000002 + t.val * 33554432 + d.val * 524288 + a.val * 8192 + b.field + g.val * 8) :: b.ext
  | .vcmpLeF t d a b g => (0x88000003 + t.val * 33554432 + d.val * 524288 + a.val * 8192 + b.field + g.val * 8) :: b.ext
  | .vcmpUnF t d a b g => (0x88000004 + t.val * 33554432 + d.val * 524288 + a.val * 8192 + b.field + g.val * 8) :: b.ext
  | .vaddW d a b g => (0x8e000000 + d.val * 524288 + a.val * 8192 + b.field + g.val * 8) :: b.ext
  | .vsubW d a b g => (0x8e000001 + d.val * 524288 + a.val * 8192 + b.field + g.val * 8) :: b.ext
  | .vmulW d a b g => (0x8e000002 + d.val * 524288 + a.val * 8192 + b.field + g.val * 8) :: b.ext
  | .vminW d a b g => (0x8e000003 + d.val * 524288 + a.val * 8192 + b.field + g.val * 8) :: b.ext
  | .vmaxW d a b g => (0x8e000004 + d.val * 524288 + a.val * 8192 + b.field + g.val * 8) :: b.ext
  | .vminUW d a b g => (0x8e000005 + d.val * 524288 + a.val * 8192 + b.field + g.val * 8) :: b.ext
  | .vmaxUW d a b g => (0x8e000006 + d.val * 524288 + a.val * 8192 + b.field + g.val * 8) :: b.ext
  | .vandW d a b g => (0x90000000 + d.val * 524288 + a.val * 8192 + b.field + g.val * 8) :: b.ext
  | .vorW d a b g => (0x90000001 + d.val * 524288 + a.val * 8192 + b.field + g.val * 8) :: b.ext
  | .vxorW d a b g => (0x90000002 + d.val * 524288 + a.val * 8192 + b.field + g.val * 8) :: b.ext
  | .vshlW d a b g => (0x90000003 + d.val * 524288 + a.val * 8192 + b.field + g.val * 8) :: b.ext
  | .vshrW d a b g => (0x90000004 + d.val * 524288 + a.val * 8192 + b.field + g.val * 8) :: b.ext
  | .vsraW d a b g => (0x90000005 + d.val * 524288 + a.val * 8192 + b.field + g.val * 8) :: b.ext
  | .vaddH d a b g => (0x92000000 + d.val * 524288 + a.val * 8192 + b.field + g.val * 8) :: b.ext
  | .vsubH d a b g => (0x92000001 + d.val * 524288 + a.val * 8192 + b.field + g.val * 8) :: b.ext
  | .vmulH d a b g => (0x92000002 + d.val * 524288 + a.val * 8192 + b.field + g.val * 8) :: b.ext
  | .vminH d a b g => (0x92000003 + d.val * 524288 + a.val * 8192 + b.field + g.val * 8) :: b.ext
  | .vmaxH d a b g => (0x92000004 + d.val * 524288 + a.val * 8192 + b.field + g.val * 8) :: b.ext
  | .vminUH d a b g => (0x92000005 + d.val * 524288 + a.val * 8192 + b.field + g.val * 8) :: b.ext
  | .vmaxUH d a b g => (0x92000006 + d.val * 524288 + a.val * 8192 + b.field + g.val * 8) :: b.ext
  | .vandH d a b g => (0x94000000 + d.val * 524288 + a.val * 8192 + b.field + g.val * 8) :: b.ext
  | .vorH d a b g => (0x94000001 + d.val * 524288 + a.val * 8192 + b.field + g.val * 8) :: b.ext
  | .vxorH d a b g => (0x94000002 + d.val * 524288 + a.val * 8192 + b.field + g.val * 8) :: b.ext
  | .vshlH d a b g => (0x94000003 + d.val * 524288 + a.val * 8192 + b.field + g.val * 8) :: b.ext
  | .vshrH d a b g => (0x94000004 + d.val * 524288 + a.val * 8192 + b.field + g.val * 8) :: b.ext
  | .vsraH d a b g => (0x94000005 + d.val * 524288 + a.val * 8192 + b.field + g.val * 8) :: b.ext
  | .vcmpEqW d a b g => (0x96000000 + d.val * 524288 + a.val * 8192 + b.field + g.val * 8) :: b.ext
  | .vcmpNeW d a b g => (0x96000001 + d.val * 524288 + a.val * 8192 + b.field + g.val * 8) :: b.ext
  | .vcmpLtW d a b g => (0x96000002 + d.val * 524288 + a.val * 8192 + b.field + g.val * 8) :: b.ext
  | .vcmpLeW d a b g => (0x96000003 + d.val * 524288 + a.val * 8192 + b.field + g.val * 8) :: b.ext
  | .vcmpLtUW d a b g => (0x96000004 + d.val * 524288 + a.val * 8192 + b.field + g.val * 8) :: b.ext
  | .vcmpLeUW d a b g => (0x96000005 + d.val * 524288 + a.val * 8192 + b.field + g.val * 8) :: b.ext
  | .vcmpEqH d a b g => (0x98000000 + d.val * 524288 + a.val * 8192 + b.field + g.val * 8) :: b.ext
  | .vcmpNeH d a b g => (0x98000001 + d.val * 524288 + a.val * 8192 + b.field + g.val * 8) :: b.ext
  | .vcmpLtH d a b g => (0x98000002 + d.val * 524288 + a.val * 8192 + b.field + g.val * 8) :: b.ext
  | .vcmpLeH d a b g => (0x98000003 + d.val * 524288 + a.val * 8192 + b.field + g.val * 8) :: b.ext
  | .vcmpLtUH d a b g => (0x98000004 + d.val * 524288 + a.val * 8192 + b.field + g.val * 8) :: b.ext
  | .vcmpLeUH d a b g => (0x98000005 + d.val * 524288 + a.val * 8192 + b.field + g.val * 8) :: b.ext
  | .vselW d a b s => [0x9a000000 + d.val * 524288 + a.val * 8192 + b.val * 128 + s.val * 8]
  | .vselH d a b s => [0x9a000001 + d.val * 524288 + a.val * 8192 + b.val * 128 + s.val * 8]
  | .vcvtF16F32 d a h g => [0x9c000000 + d.val * 524288 + a.val * 8192 + h.val * 128 + g.val * 8]
  | .vcvtBf16F32 d a h g => [0x9c000001 + d.val * 524288 + a.val * 8192 + h.val * 128 + g.val * 8]
  | .vcvtF32F16 d a h g => [0x9c000002 + d.val * 524288 + a.val * 8192 + h.val * 128 + g.val * 8]
  | .vcvtF32Bf16 d a h g => [0x9c000003 + d.val * 524288 + a.val * 8192 + h.val * 128 + g.val * 8]
  | .vcvtWF32 d a g => [0x9c000004 + d.val * 524288 + a.val * 8192 + g.val * 8]
  | .vcvtF32W d a g => [0x9c000005 + d.val * 524288 + a.val * 8192 + g.val * 8]
  | .vcvtN d a b g q => [0x9e000000 + d.val * 524288 + a.val * 8192 + b.val * 128 + g.val * 8 + q.val]
  | .vcvtNf d a b g q => [0x9e000004 + d.val * 524288 + a.val * 8192 + b.val * 128 + g.val * 8 + q.val]
  | .vmov d a g => [0xa0000000 + d.val * 524288 + a.val * 8192 + g.val * 8]
  | .vpermW d a b g => [0xa0000001 + d.val * 524288 + a.val * 8192 + b.val * 128 + g.val * 8]
  | .vpermH d a b g => [0xa0000002 + d.val * 524288 + a.val * 8192 + b.val * 128 + g.val * 8]
  | .vbcstW d a g => [0xa0000003 + d.val * 524288 + a.val * 8192 + g.val * 8]
  | .vbcstH d a g => [0xa0000004 + d.val * 524288 + a.val * 8192 + g.val * 8]
  | .vextW d a b => [0xa0000005 + d.val * 524288 + a.val * 8192 + b.val * 128]
  | .vextH d a b => [0xa0000006 + d.val * 524288 + a.val * 8192 + b.val * 128]
  | .vredSumF32 d a g => [0xa2000000 + d.val * 524288 + a.val * 8192 + g.val * 8]
  | .vredSumF16 d a g => [0xa2000001 + d.val * 524288 + a.val * 8192 + g.val * 8]
  | .vredSumBf16 d a g => [0xa2000002 + d.val * 524288 + a.val * 8192 + g.val * 8]
  | .vredMaxF32 d a g => [0xa2000003 + d.val * 524288 + a.val * 8192 + g.val * 8]
  | .vredMinF32 d a g => [0xa2000004 + d.val * 524288 + a.val * 8192 + g.val * 8]
  | .vredSumW d a g => [0xa2000005 + d.val * 524288 + a.val * 8192 + g.val * 8]
  | .pand d a b => [0xa4000000 + d.val * 524288 + a.val * 8192 + b.val * 128]
  | .por d a b => [0xa4000001 + d.val * 524288 + a.val * 8192 + b.val * 128]
  | .pxor d a b => [0xa4000002 + d.val * 524288 + a.val * 8192 + b.val * 128]
  | .pandn d a b => [0xa4000003 + d.val * 524288 + a.val * 8192 + b.val * 128]
  | .pwhileH d a => [0xa4000004 + d.val * 524288 + a.val * 8192]
  | .pwhileW d a => [0xa4000005 + d.val * 524288 + a.val * 8192]
  | .pmov d a => [0xa4000006 + d.val * 524288 + a.val * 8192]
  | .pget d a => [0xa4000007 + d.val * 524288 + a.val * 8192]
  | .vld d a b g => (0xa6000000 + d.val * 524288 + a.val * 8192 + b.field + g.val * 8) :: b.ext
  | .vst d a b g => (0xa6000001 + d.val * 524288 + a.val * 8192 + b.field + g.val * 8) :: b.ext
  | .vldBcW d a b g => (0xa6000002 + d.val * 524288 + a.val * 8192 + b.field + g.val * 8) :: b.ext
  | .vldBcH d a b g => (0xa6000003 + d.val * 524288 + a.val * 8192 + b.field + g.val * 8) :: b.ext
  | .mmac a b t z => [0xc0000000 + a.val * 8192 + b.val * 128 + t.val * 16 + z.val]
  | .mmacS d a b t z => [0xc0000004 + d.val * 524288 + a.val * 8192 + b.val * 128 + t.val * 16 + z.val]
  | .mmacSs d a b t z => [0xc0000008 + d.val * 524288 + a.val * 8192 + b.val * 128 + t.val * 16 + z.val]
  | .mmacTri a b t z => [0xc2000000 + a.val * 8192 + b.val * 128 + t.val * 16 + z.val]
  | .mgrp d a b t z => [0xc4000000 + d.val * 524288 + a.val * 8192 + b.val * 128 + t.val * 16 + z.val]
  | .zclr a z => [0xc6000000 + a.val * 8192 + z.val]
  | .zanchor a z => [0xc6000004 + a.val * 8192 + z.val]
  | .zfit a z => [0xc6000008 + a.val * 8192 + z.val]
  | .zread a b f z => [0xc8000000 + a.val * 8192 + b.val * 128 + f.val * 16 + z.val]
  | .zreadTri d a b f z => [0xc8000004 + d.val * 524288 + a.val * 8192 + b.val * 128 + f.val * 16 + z.val]
  | .zraw a b z => [0xc8000008 + a.val * 8192 + b.val * 128 + z.val]
  | .dcut d a b t => [0xca000000 + d.val * 524288 + a.val * 8192 + b.val * 128 + t.val * 4]
  | .dcutP d a b t => [0xca000001 + d.val * 524288 + a.val * 8192 + b.val * 128 + t.val * 4]
  | .dcutCo d a b t => [0xca000002 + d.val * 524288 + a.val * 8192 + b.val * 128 + t.val * 4]
  | .mtbr d a => [0xcc000000 + d.val * 524288 + a.val * 8192]
  | .mtbw d a => [0xcc000001 + d.val * 524288 + a.val * 8192]
  | .mcmd .. => []
  | .sbind d a b n e r => [0xd0000000 + d.val * 524288 + a.val * 8192 + b.val * 128 + n.val * 16 + e.val * 8 + r.val * 4]
  | .sfree d => [0xd0000001 + d.val * 524288]
  | .sstat d a => [0xd0000002 + d.val * 524288 + a.val * 8192]
  | .cpy d a b o => [0xd2000000 + d.val * 524288 + a.val * 8192 + b.val * 128 + o.val * 2]
  | .cpyMc d a b o => [0xd2000001 + d.val * 524288 + a.val * 8192 + b.val * 128 + o.val * 2]
  | .mbset d a b => [0xd4000000 + d.val * 524288 + a.val * 8192 + b.val * 128]
  | .msend d a o => [0xd4000001 + d.val * 524288 + a.val * 8192 + o.val * 8]
  | .mrecv d a b => [0xd6000000 + d.val * 524288 + a.val * 8192 + b.val * 128]
  | .mcnt d a => [0xd8000000 + d.val * 524288 + a.val * 8192]
  | .mcntSet a b => [0xd8000001 + a.val * 8192 + b.val * 128]
  | .mwcnt a b => [0xd8000002 + a.val * 8192 + b.val * 128]
  | .wfm d => [0xda000000 + d.val * 524288]
  | .mpop d => [0xda000001 + d.val * 524288]
  | .feset a b => [0xdc000000 + a.val * 8192 + b.val * 128]
  | .feclr a b => [0xdc000001 + a.val * 8192 + b.val * 128]
  | .pkload d a => [0xe0000000 + d.val * 524288 + a.val * 8192]
  | .pkrun d a b k => [0xe0000001 + d.val * 524288 + a.val * 8192 + b.val * 128 + k.val * 8]
  | .pkstat d a => [0xe0000002 + d.val * 524288 + a.val * 8192]
  | .pkstop a => [0xe0000003 + a.val * 8192]
  | .fbopen d a => [0xe2000000 + d.val * 524288 + a.val * 8192]
  | .fbadv d a => [0xe2000001 + d.val * 524288 + a.val * 8192]
  | .fbend d a => [0xe2000002 + d.val * 524288 + a.val * 8192]
  | .fbclose a => [0xe2000003 + a.val * 8192]
  | .fbdot d a b => [0xe4000000 + d.val * 524288 + a.val * 8192 + b.val * 128]
  | .fdecl d a => [0xe8000000 + d.val * 524288 + a.val * 8192]
  | .fstart d a => [0xe8000001 + d.val * 524288 + a.val * 8192]
  | .fstop a => [0xe8000002 + a.val * 8192]
  | .fstep d a b => [0xe8000003 + d.val * 524288 + a.val * 8192 + b.val * 128]
  | .fctl d a b => [0xe8000004 + d.val * 524288 + a.val * 8192 + b.val * 128]
  | .fq d a => [0xe8000005 + d.val * 524288 + a.val * 8192]
  | .fpull d a b => [0xea000000 + d.val * 524288 + a.val * 8192 + b.val * 128]
  | .fcoup d a b => [0xea000001 + d.val * 524288 + a.val * 8192 + b.val * 128]
  | .fwait d a b => [0xea000002 + d.val * 524288 + a.val * 8192 + b.val * 128]
  | .powerLoss .. => []

/-- The words of an instruction, the main word first (R56, R58, R236); none for a step of the device. -/
def encode : Instr → List Nat
  | .mcmd a c => (0xCE000000 + a.val * 8192) :: encodeFlat c
  | i => encodeFlat i

/-- How many words an instruction takes (R58, R236). -/
def Instr.words (i : Instr) : Nat := (encode i).length

/-- Whether a row is an instruction with a word, and not a step of the device. -/
def Instr.isWord (i : Instr) : Bool := decide (i.words ≠ 0)

/-- The instruction that the decoder reads from the bits of a table row: the word, and zeros above it. -/
noncomputable def decodeTableWord (nbits w : Nat) : Option Instr :=
  decode (w % 2 ^ nbits % 4294967296) (w % 2 ^ nbits / 4294967296 % 4294967296)

end Sys2Proof
end

