-- ==== Sys2Proof/Machine/Bits.lean ====
section
/-! DEFINITION. Bit fields, sign extension and byte order (R6): the small functions that every other definition uses. -/

namespace Sys2Proof.Machine

/-- Bits lo to lo+n-1 of a bit vector, as a number. -/
def bits {w : Nat} (x : BitVec w) (lo n : Nat) : Nat := x.toNat / 2 ^ lo % 2 ^ n

/-- One bit of a bit vector. -/
def bit {w : Nat} (x : BitVec w) (i : Nat) : Bool := x.getLsbD i

/-- `x` with bits lo to lo+n-1 replaced by the low n bits of `v`. -/
def setBits {w : Nat} (x : BitVec w) (lo n v : Nat) : BitVec w :=
  BitVec.ofNat w (x.toNat - bits x lo n * 2 ^ lo + v % 2 ^ n * 2 ^ lo)

/-- `x` with bit i set to `b`. -/
def setBit {w : Nat} (x : BitVec w) (i : Nat) (b : Bool) : BitVec w := setBits x i 1 b.toNat

/-- The signed value of an n-bit number. -/
def signedOf (n v : Nat) : Int := if v % 2 ^ n < 2 ^ (n - 1) then (v % 2 ^ n : Nat) else (v % 2 ^ n : Nat) - (2 ^ n : Nat)

/-- An integer modulo 2^n. -/
def wrap (n : Nat) (i : Int) : Nat := (i % (2 ^ n : Nat)).toNat

/-- A number of n bits sign-extended to 64 bits (R71). -/
def sext (n v : Nat) : Word := BitVec.ofNat 64 (wrap 64 (signedOf n v))

/-- The number that little-endian bytes stand for (R6). -/
def ofBytes : List (BitVec 8) → Nat
  | [] => 0
  | b :: t => b.toNat + 256 * ofBytes t

/-- The n little-endian bytes of a number (R6). -/
def toBytes : Nat → Nat → List (BitVec 8)
  | 0, _ => []
  | n + 1, x => BitVec.ofNat 8 x :: toBytes n (x / 256)

/-- A mask of n one bits. -/
def ones (w n : Nat) : BitVec w := BitVec.ofNat w (2 ^ n - 1)

/-- Rounds up to a multiple of 8. -/
def align8 (a : Word) : Word := BitVec.ofNat 64 ((a.toNat + 7) / 8 * 8)

/-- Floor and ceiling of a quotient. -/
def ceilDiv (a b : Nat) : Nat := (a + b - 1) / b

/-- The numbers of a list that satisfy a test, in a range. -/
def upTo (n : Nat) : List Nat := List.range n

/-- Number of one bits. -/
def popCount (n v : Nat) : Nat := ((List.range n).filter (fun i => v / 2 ^ i % 2 = 1)).length

/-- Number of zero bits above the highest one bit, n for zero. -/
def leadZeros (n v : Nat) : Nat := if v = 0 then n else n - 1 - Nat.log2 v

/-- Replaces the element at an index. -/
def listSet {α : Type} : List α → Nat → α → List α
  | [], _, _ => []
  | _ :: t, 0, y => y :: t
  | x :: t, n + 1, y => x :: listSet t n y

/-- Removes the element at an index. -/
def listDrop {α : Type} : List α → Nat → List α
  | [], _ => []
  | _ :: t, 0 => t
  | x :: t, n + 1 => x :: listDrop t n

end Sys2Proof.Machine
end

