-- ==== Sys2Proof/Machine/Classes.lean ====
section
/-! DEFINITION. What the entries say of each instruction as a whole: its activity class (R105), and whether it accepts a `fmt` prefix (R60). -/

namespace Sys2Proof.Machine

/-- The major opcode of an instruction (R61); 128 for a step of the device. -/
def majorOf (i : Instr) : Nat :=
  match encode i with
  | w :: _ => w / 2 ^ 25
  | [] => 128

/-- Bits lo to lo+n-1 of the main word of an instruction. -/
def wordBits (i : Instr) (lo n : Nat) : Nat :=
  match encode i with
  | w :: _ => w / 2 ^ lo % 2 ^ n
  | [] => 0

/-- The activity class of an instruction that carries no other (R105, R138, R160, R181, R215). -/
def classFlat (i : Instr) : Nat :=
  let m := majorOf i
  if m < 0x20 then 0
  else if m < 0x30 then 1
  else if m < 0x32 then 13
  else if m < 0x40 then 14
  else if m = 0x40 ∨ m = 0x44 then 3
  else if m = 0x41 ∨ m = 0x42 ∨ m = 0x45 ∨ m = 0x46 then 4
  else if m = 0x43 then (if wordBits i 0 3 ≤ 1 then (if wordBits i 7 6 = 0 then 3 else 4) else 5)
  else if m = 0x4E ∨ m = 0x4F ∨ m = 0x51 then 5
  else if m = 0x53 then 6
  else if m < 0x60 then 2
  else if m < 0x68 then
    match i with
    | .mmac _ _ t _ | .mmacS _ _ _ t _ | .mmacSs _ _ _ t _ | .mmacTri _ _ t _ | .mgrp _ _ _ t _ => if t = 2 then 8 else 7
    | _ => 9
  else if m < 0x70 then 10
  else if m < 0x74 then 11
  else 12

/-- The activity class of an instruction; `mcmd` is weighed as what it carries (R212). -/
def classOf (i : Instr) : Nat :=
  match i with
  | .mcmd _ c => classFlat c
  | i => classFlat i

/-- An instruction that carries no other accepts `fmt` (R60, R181, R215, 17 R287). -/
def prefixFlat (i : Instr) : Bool :=
  let m := majorOf i
  decide (m = 0x40 ∨ m = 0x41 ∨ m = 0x42 ∨ m = 0x43 ∨ m = 0x4E ∨ m = 0x4F ∨ m = 0x51) ||
  match i with
  | .mmac .. | .mmacS .. | .mmacSs .. | .mmacTri .. | .mgrp .. | .dcut .. | .dcutP .. | .dcutCo .. | .zread .. | .zreadTri ..
  | .fbdot .. => true
  | _ => false

/-- An instruction accepts `fmt`; `mcmd` does when what it carries does (R215). -/
def prefixOk (i : Instr) : Bool :=
  match i with
  | .mcmd _ c => prefixFlat c
  | i => prefixFlat i

end Sys2Proof.Machine
end

