-- ==== Sys2Proof/Config.lean ====
section
/-! DEFINITION. What the specification leaves to each part, or leaves open: constants without a body, so that a statement holds for every value they may have (log 4). Each is applied to a counter of State, so that two uses need not agree. -/

namespace Sys2Proof.Config

/-- Which free context identifier the dispatch engine takes (R94: not defined). -/
opaque freeIdent : Nat → Nat

/-- The value of an operation whose operands the specification gives no result for. -/
opaque freeWord : Nat → BitVec 64

/-- ECDSA signatures: SIGR and SIGS of a retirement record (R398) and those of an attestation report (R413); the device key is not in the specification. -/
opaque signature : Nat → BitVec 384

/-- The hash of the key that the fuses hold, and the fused counter (R413). -/
opaque fusedKey : BitVec 384
/-- The fused counter of security versions (R413). -/
opaque fusedVersion : Nat
/-- The hash of the key that a first stage read from flash is signed with, whether the signature verifies, and its security version (R413). -/
opaque stageKey : Nat → BitVec 384
/-- The signature of a first stage verifies. -/
opaque stageSigned : Nat → Bool
/-- The security version of a first stage. -/
opaque stageVersion : Nat → Nat

/-- The number of the device at the other end of a Flaide link (R393): how devices are connected is not in the specification. -/
opaque peerOf : Nat → Nat

/-- SHA-384 of a boot image and of the measurement register it extends (R413): the images are not in the specification. -/
opaque stageHash : Nat → BitVec 384

/-- What the patterns of a core's test session leave in a byte of its scratch memory (R395): the patterns are not in the specification. -/
opaque testByte : Nat → BitVec 8

/-- The form in which the resumable position of an `mgrp` names a group and a k index (R232): the specification gives none. -/
opaque groupPos : Nat → Nat → BitVec 16

/-- The one comparison of `fbern` that R325 leaves without a result: an exponential of 0 against a uniform of 0. An update is a function of its inputs alone (R299). -/
opaque bernEdge : Bool

end Sys2Proof.Config
end

