-- ==== Sys2Proof/Machine/State.lean ====
section
/-! DEFINITION. The whole state of one Lorrus E8 module: what each context, each core, memory, the network and the units of the device hold (INVENTORY.md lists every piece with its rule), the state after reset, and the reasons why a step may stop. -/

namespace Sys2Proof.Machine

/-! ### Contexts -/

/-- A stream generator (R242), with the elements it holds ahead of the pops or behind the appends (R244). -/
structure Stream where
  cap  : Wreg
  bnd  : Bool
  wr   : Bool
  clsW : Bool
  tg   : Bool
  reg  : Fin 16
  ndim : Fin 4
  flt  : Bool
  cnt  : BitVec 64
  str  : BitVec 128
  /-- elements read ahead, or appended and not yet written, oldest first, with their tags -/
  held : List (BitVec 1024 × Bool)
  /-- number of the element that `held` begins with -/
  head : Nat
  /-- pops or appends since `sbind` (R268) -/
  done : Nat
  /-- number of the element at which the stream stopped at a fault (R245) -/
  fltAt : Nat
  /-- the number of its `sbind`, whether that has entered the command queue, and the packets of the core numbered below this precede its accesses (R37) -/
  seq : BitVec 16
  started : Bool
  after : Nat
deriving DecidableEq, Repr

/-- An unbound generator: the reset image of R242. -/
def Stream.reset : Stream :=
  ⟨.zero, false, false, false, false, 0, 0, false, 0, 0, [], 0, 0, 0, 0, false, 0⟩

/-- An entry of a fibre as read ahead (R288, R289): its index, where that was read; its value bits, or the address at which its read met a fault; and that fault's cause, or 0. -/
structure Ahead where
  idx   : Option (BitVec 64)
  val   : BitVec 64
  fault : Nat
deriving DecidableEq, Repr

/-- A fibre register (R286), with the entries read ahead (R289). -/
structure Fibre where
  capI : Wreg
  capV : Wreg
  len  : BitVec 32
  pos  : BitVec 32
  wide : Bool
  vt   : Fin 8
  dns  : Bool
  opn  : Bool
  idx0 : BitVec 24
  ahead : List Ahead
  /-- `fbopen` has entered the engine, and the packets of the core numbered below this precede its reads (R37, R289) -/
  started : Bool
  after : Nat
deriving DecidableEq, Repr

/-- A closed fibre: the reset of R286. -/
def Fibre.closed : Fibre := ⟨.zero, .zero, 0, 0, false, 0, false, false, 0, [], false, 0⟩

/-- An agent at which writes are applied (R28): a core's bank queues, a slice, another device, or a register block of
configuration space, by its number (R156, log 98). -/
inductive Agent where
  | bank (h : Nat)
  | slice (n : Nat)
  | remote (dev : Nat)
  | config (block : Nat)
deriving DecidableEq, Repr

/-- A write of up to 128 bytes; only bytes whose mask bit is set are written. `cap` carries a tag (R144), `full` sets the full bit (R145). -/
structure WriteOp where
  pa   : Nat
  swz  : Nat
  n    : Nat
  data : BitVec 1024
  mask : BitVec 128
  tag  : Bool
  full : Bool
deriving DecidableEq, Repr

/-- The kinds of read that an agent serves. -/
inductive ReadKind where
  | plain
  /-- full/empty load; with clear (R145) -/
  | consume (clr : Bool)
  /-- read and arm a watch (R150) -/
  | watch
deriving DecidableEq, Repr

/-- A read of up to 128 bytes within one line; its bytes stand from `off` in the value that returns. -/
structure ReadOp where
  pa   : Nat
  swz  : Nat
  n    : Nat
  mask : BitVec 128
  off  : Nat
  kind : ReadKind
deriving DecidableEq, Repr

/-- The eight atomic operations (R146). -/
inductive AmoOp where
  | add | and | or | xor | minU | maxU | swap | cas
deriving DecidableEq, Repr

/-- What an applying agent does with a packet. -/
inductive PacketOp where
  | write (w : WriteOp)
  | read (r : ReadOp)
  | amo (op : AmoOp) (pa swz n : Nat) (y cmp : BitVec 64)
  /-- `stfe.wait`: waits until the granule is empty (R145) -/
  | stfeWait (w : WriteOp)
  | cfgWrite (addr : Nat) (v : BitVec 64)
  | cfgRead (addr : Nat)
  /-- sets or clears the full bits of a range (R274) -/
  | fullBits (pa swz n : Nat) (on : Bool)
  /-- a completion probe of a release (R35) -/
  | probe
deriving DecidableEq, Repr

/-- How far a packet has come: outbound port, cluster ring stop, Flaide egress (R23, R24), or accepted by the queue of the bank or slice that acts on it. -/
inductive Stage where
  | port | ring | egress | agent
deriving DecidableEq, Repr

/-- A packet of class REQ between its source core and its destination agent. -/
structure Packet where
  id     : Nat
  h      : Nat
  slot   : Nat
  tenant : Nat
  dest   : Agent
  op     : PacketOp
  stage  : Stage
  /-- order of acceptance at the ring stop, and at the egress or the agent's queue -/
  ringAt : Nat
  egrAt  : Nat
  /-- it has reached its bank queue and waits there for a full or empty bit (R145) -/
  waiting : Bool
deriving DecidableEq, Repr

/-- A value on its way to a register (R162). -/
structure Arrival where
  faddr   : Nat
  gen     : BitVec 8
  ten     : Nat
  xt      : Bool
  sten    : Nat
  sender  : BitVec 20
  sgen    : BitVec 8
  sten0   : Nat
  sh      : Nat
  sslot   : Nat
  seq     : BitVec 16
  value   : BitVec 1024
  tag     : Bool
  /-- resolved to a core's arrival port (R167) -/
  atPort  : Option (Nat × Nat)
deriving DecidableEq, Repr

/-- The commands that engines take from instructions (R13), with the small operands of their words. -/
inductive CmdOp where
  /-- `mmac` and its forms: MODE 0 dense, 1 sparse, 2 sparse by sparse; triangular; TYPE and accumulator -/
  | mmac (mode : Fin 3) (tri : Bool) (t z : Fin 4)
  | mgrp (t z : Fin 4)
  | zclr (z : Fin 4)
  | zanchor (z : Fin 4)
  | zfit (z : Fin 4)
  | zread (tri : Bool) (f : Fin 2) (z : Fin 4)
  | zraw (z : Fin 4)
  /-- `dcut` forms: 0 `dcut`, 1 `dcut.p`, 2 `dcut.co`; the first tb register -/
  | dcut (form : Fin 3) (t : Fin 4) (d : Fin 8)
  | cpy
  | cpyMc
  | msend
  | sbind (g : Fin 8)
  | sfree
  | fbopen (n : Fin 8)
  | pkload (k : Fin 4)
  | pkrun (k w : Fin 4)
  | pkstop (w : Fin 4)
  | fdecl | fstart | fstop | fstep | fctl | fq | fpull | fcoup | fwait
  | launch | cpush | cjoin | stopat
  | hq | hqRd | lack | lackOff | hauth
  | pmig | pmigClr | mcohHw | mcohSw | wmask
deriving DecidableEq, Repr

/-- An engine command with what it captured at issue (R13, R37): its core and context, its sequence number, the registers it named in order, other captured
images (format registers, tile bounds, mb registers) and the prefix payload. -/
structure Cmd where
  op     : CmdOp
  h      : Nat
  slot   : Nat
  ident  : BitVec 20
  gen    : BitVec 8
  tenant : Nat
  prv    : Bool
  seq    : BitVec 16
  /-- packets of the core numbered below this precede its accesses (R37) -/
  after  : Nat
  ord    : Bool
  /-- the cycle of its issue: a core issues at most one command in each (R40) -/
  issued : Nat
  d      : Fin 64
  regs   : List Wreg
  imgs   : List (BitVec 384)
  ppl    : Option Nat
  /-- progress: lines copied, granules read with their values; of a `cpy` that owns its line (`taken`), which of the writes in `outs` carry poison -/
  prog   : Nat
  got    : List (Nat × BitVec 128)
  taken  : Bool
  /-- a fault found, cause, value and position -/
  fault  : Option (Nat × Nat × Nat)
  /-- writes of memory still to be made, and tb registers to be written after them (R219) -/
  outs   : List WriteOp
  tbs    : List (Nat × BitVec 128)
  /-- the generator that `sbind` starts or `sfree` has released (R265, R267) -/
  strm   : Option Stream
deriving DecidableEq, Repr

/-- An entry of a store queue (R23, R141): a store, an atomic, a release marker (R32), or a command or value that leaves in
program order with the stores (R37, R42). -/
inductive SqEntry where
  /-- one store, in the parts that different agents apply (R194) -/
  | store (parts : List (Agent × WriteOp))
  | amo (dest : Agent) (op : PacketOp)
  | cfg (addr : Nat) (v : BitVec 64)
  /-- `feset` or `feclr` of ranges: agent, address, swizzle code, length (R274) -/
  | fullBits (parts : List (Agent × Nat × Nat × Nat)) (on : Bool)
  /-- `fence.rel` at the scope; `ar` also holds later loads -/
  | fence (scope : Nat) (ar : Bool)
  | command (eng : Nat) (c : Cmd)
  | rput (a : Arrival)
  | message (target : Nat) (c : Cmd)
  /-- a gang barrier arrival, with a vote's operation and operand (R154) -/
  | barrier (vote : Option (Nat × BitVec 64))
deriving DecidableEq, Repr

/-- What keeps a load or atomic from being performed (R103): a `fence.ar` (R32), or entries of the own store queue. -/
inductive Held where
  | fence
  | store
deriving DecidableEq, Repr

/-- Why a context is parked (R103). -/
inductive Wait where
  /-- the value of an off-core load (R26) or atomic (R36) -/
  | load
  /-- a load or atomic that cannot be performed in its cycle -/
  | queue (w : Held)
  /-- a load or atomic of a frame whose policy tag the home is clearing (R363) -/
  | clearing (frame : Nat)
  /-- a register that awaits an arrival (R163) -/
  | reg (cls n : Nat)
  /-- a store queue that is full (R141) -/
  | sqRoom
  /-- an engine command queue that is full -/
  | cmdRoom (eng : Nat)
  /-- an arrival credit (R165) -/
  | credit
  /-- an element of stream generator g (R179, R244) -/
  | stream (g : Nat)
  /-- a pending tile register (R219) -/
  | tile (n : Nat)
  /-- entries of a fibre (R287) -/
  | fibre (n : Nat)
  /-- every remaining entry of two fibres (R288) -/
  | dot (a b : Nat)
  /-- `mwait` until time t (R151) -/
  | watch (t : Nat)
  /-- `wfm` (R273) -/
  | mailbox
  /-- `mwcnt` on a message counter (R257) -/
  | counter (n : Nat) (threshold : BitVec 32)
  /-- a gang barrier (R154) -/
  | barrier
  /-- `hjoin` on helper slots (R135) -/
  | join (mask : BitVec 10)
  /-- `hend` (R134) -/
  | ending
  /-- an engine's answer (R327, R383, R400) -/
  | answer (eng : Nat)
  /-- as `answer`, given up for a mailbox interrupt (R336) -/
  | ask (eng : Nat)
  /-- a translation walk of a load (R343) -/
  | walk
  /-- its saved registers, which are being read (R167) -/
  | restore
deriving DecidableEq, Repr

/-- Why a context is halted. -/
inductive HaltCause where
  | stop | double
deriving DecidableEq, Repr

/-- The state of a context slot (R93). -/
inductive Run where
  | idle
  | ready
  | issuing
  | parked (w : Wait)
  | halted (c : HaltCause) (before : Option Wait)
deriving DecidableEq, Repr

/-- How the next block is entered: not at a header, by fall-through (R50), after a loop redirect (R106), or at TVEC (R108); after `rfe` the program counter may
name an extension word (R111); a context that RESUME has released from a double trap is first to return as by `rfe` (R109). -/
inductive Entry where
  | inside | fall | direct | vector | resume | returning
deriving DecidableEq, Repr

/-- How a returned value is written back: to a w register with n bytes (sign-extended), as a granule with its tag, as a pair, to a v
register under a lane mask, or broadcast. -/
inductive Back where
  | word (d : Fin 64) (n : Nat) (sx : Bool)
  | granule (d : Fin 64) (lc : Bool)
  | pair (d : Fin 64)
  | vec (d : Fin 64) (mask : BitVec 128)
  | bcast (d : Fin 64) (n : Nat) (mask : BitVec 128)
  /-- the constant of a K form, with which its instruction issues again (R58, R117) -/
  | konst
  | none
deriving DecidableEq, Repr

/-- An off-core load or atomic that its context waits for: where the value goes, bytes forwarded from the store queue (R27), the packets of it that have
not been served, the bytes served so far with the tag, and the lowest poisoned byte that they met. -/
structure Pending where
  back   : Back
  pops   : List Nat
  words  : Nat
  fwd    : BitVec 1024
  fwdMask : BitVec 128
  fwdTag : Option Bool
  ea     : Nat
  left   : Nat
  acc    : BitVec 1024
  tag    : Bool
  poison : Option Nat
deriving DecidableEq, Repr

/-- One context slot (R93, R98, R100). -/
structure Ctx where
  w : Vector Wreg 64
  v : Vector (BitVec 1024) 32
  p : Vector Word 8
  lc : Vector (BitVec 128) 4
  fm : Vector Word 8
  cw : Vector Wreg 8
  mb : Vector (BitVec 128) 8
  tb : Vector (BitVec 128) 8
  tbPend : BitVec 8
  fb : Vector Fibre 8
  sg : Vector Stream 8
  st : Word
  epc : Word
  esr : Word
  ecause : Word
  einfo : Word
  erh : Word
  /-- of the block whose header stands at `erh`, where the trap struck inside it: its LEN and PFH as they were read at its entry, and the word that trap entry left in
  EPC, known to begin an instruction (R108, R111, log 97) -/
  erl : Option (Nat × Nat × Option Word)
  tvec : Wreg
  hdrop : BitVec 32
  ident : BitVec 20
  gen : BitVec 8
  tenant : Nat
  /-- code capability (R125), and the capability through which the current block was entered -/
  code : Wreg
  fcap : Wreg
  /-- program counter, header of the current block and its LEN -/
  pc : Word
  hdr : Word
  len : Nat
  entry : Entry
  run : Run
  dbl : Bool
  awW : Word
  awV : BitVec 32
  awP : BitVec 8
  povr : Option Word
  rovf : Option Word
  mbox : List (BitVec 128)
  seqs : Vector (BitVec 16) 9
  sq : List SqEntry
  aset : List Agent
  credits : Nat
  allow : Nat
  failedMon : Bool
  stopMark : Bool
  ras : List Word
  pend : Option Pending
  /-- an engine's answer that it waits for, and the registers its instruction has read (R327, R383, R400) -/
  answer : Option (Nat × List Nat)
  /-- running continuation: queue slot, handle, priority, frame capability (R377); yield signal (R378) -/
  cont : Option (Nat × BitVec 32 × Nat × Wreg)
  yieldSig : Bool
  /-- a translation walk it waits for: tenant and page, and the fault it ended with (R343) -/
  walk : Option (Nat × Nat)
  walkFault : Option (Nat × Nat)
  /-- the instruction waits without passing issue (R133) -/
  stalled : Bool
  /-- the instruction has passed issue and is to look again (R103); for `mwait` the cycle of its timeout -/
  passed : Option Nat
  /-- the weight of the instruction has been counted: it issued, parked, and is to look again (R105) -/
  counted : Bool
  /-- a gang barrier instance that this context waits in has completed with this value (R154) -/
  gbar : Option Word
  /-- the constant that a K form has read and issues again with (R58, R117) -/
  kv : Option Word
  /-- the order in which it parked for room in a command queue (R201, R241) -/
  place : Option Nat
  /-- PFH of the current block while its hint may still be acted on (R54) -/
  pfh : Nat
  isOpen : Bool
deriving DecidableEq, Repr

/-- An idle slot: every register at its reset value of R98 and R100. -/
def Ctx.reset : Ctx where
  w := Vector.replicate 64 .zero
  v := Vector.replicate 32 0
  p := Vector.replicate 8 0
  lc := Vector.replicate 4 0
  fm := Vector.replicate 8 0x7E030739#64
  cw := Vector.replicate 8 .zero
  mb := Vector.replicate 8 0
  tb := Vector.replicate 8 0
  tbPend := 0
  fb := Vector.replicate 8 .closed
  sg := Vector.replicate 8 .reset
  st := 0
  epc := 0
  esr := 0
  ecause := 0
  einfo := 0
  erh := 0
  erl := none
  tvec := .zero
  hdrop := 0
  ident := 0
  gen := 0
  tenant := 0
  code := .zero
  fcap := .zero
  pc := 0
  hdr := 0
  len := 0
  entry := .inside
  run := .idle
  dbl := false
  awW := 0
  awV := 0
  awP := 0
  povr := none
  rovf := none
  mbox := []
  seqs := Vector.replicate 9 0
  sq := []
  aset := []
  credits := 0
  allow := 0
  failedMon := false
  stopMark := false
  ras := []
  pend := none
  answer := none
  cont := none
  yieldSig := false
  walk := none
  walkFault := none
  stalled := false
  passed := none
  counted := false
  gbar := none
  kv := none
  place := none
  pfh := 0
  isOpen := false

/-! ### Cores -/

/-- An element of an accumulator (R198). -/
structure Elem where
  q   : BitVec 96
  tag : BitVec 2
  msk : Bool
deriving DecidableEq, Repr

/-- An accumulator: elements at 32 × row + column, unlisted ones zero, and the control word (R198, R199). -/
structure Accum where
  elems  : Tab Elem
  anchor : BitVec 12
  triv   : Bool
deriving DecidableEq, Repr

/-- A posted receive (R254). -/
structure PostedRecv where
  buf : Wreg
  src : BitVec 20
  any : Bool
  tagv : BitVec 32
  tmsk : BitVec 32
  len : BitVec 3
  mc  : Fin 32
deriving DecidableEq, Repr

/-- A message of the transfer engine in flight or in an overflow queue (R253, R255). -/
structure Msg where
  target : Nat
  sender : BitVec 20
  sgen   : BitVec 8
  sh     : Nat
  sslot  : Nat
  tenant : Nat
  dev    : Nat
  seq    : BitVec 16
  tagv   : BitVec 32
  body   : List (BitVec 128)
  after  : Nat
deriving DecidableEq, Repr

/-- A delivery whose counter has yet to be incremented (R255 step 3). -/
structure Delivery where
  mc : Fin 32
deriving DecidableEq, Repr

/-- A watch entry of a core (R150): its context slot, its line, and the code it fired with. -/
structure Watch where
  slot  : Nat
  line  : Nat
  fired : Option Nat
deriving DecidableEq, Repr

/-- A translation that a TLB holds (R342, R343). -/
structure TlbEntry where
  tenant : Nat
  va     : Nat
  bits   : Nat
  pa     : Nat
  rd     : Bool
  wr     : Bool
  ex     : Bool
  pol    : Fin 4
  home   : Nat
deriving DecidableEq, Repr

/-- What a kernel run waits for (R280, R281). -/
inductive KWait where
  | kld (d ea : Nat)
  /-- a gather: its address, size, and the bytes once read, with their poison -/
  | gather (ea n : Nat) (got : Option (BitVec 128 × Bool))
  /-- a scatter, and whether its target has been checked -/
  | scatter (ea n : Nat) (seen : Bool)
  | ended
  /-- a walker fault, cause and address -/
  | fault (code addr : Nat)
deriving DecidableEq, Repr

/-- One run of a kernel by a walker (R280): element number, registers, next word, what it waits for, and whether its gather or scatter has been applied, which
commits it (R281). -/
structure KRun where
  elem  : Nat
  regs  : List (BitVec 64)
  kpc   : Nat
  wait  : KWait
  applied : Bool
deriving DecidableEq, Repr

/-- A walker (R277, R280-R285): the command it runs, the next element to run, indices read ahead, runs in flight, runs committed, and
gathers or scatters numbered. -/
structure Walker where
  busy  : Bool
  slotK : Fin 4
  flt   : Bool
  cmd   : Option Cmd
  next  : Nat
  read  : List (BitVec 64)
  runs  : List KRun
  done  : Nat
  cnt   : Nat
deriving DecidableEq, Repr

/-- An idle walker. -/
def Walker.idle : Walker := ⟨false, 0, false, none, 0, [], [], 0, 0⟩

/-- A kernel slot (R277): invalid, loading or valid, with its words. -/
structure KSlot where
  state : Fin 4
  words : List (BitVec 32)
deriving DecidableEq, Repr

/-- What one core holds beside its contexts. -/
structure Core where
  z : Vector Accum 4
  mc : Vector (BitVec 32) 32
  posted : List PostedRecv
  overflow : List Msg
  deliveries : List Delivery
  gseq : BitVec 24
  mq : List Cmd
  mrq : List Cmd
  lastRemote : Bool
  /-- commands that the matrix engine has taken, in order; whether each came from the remote queue -/
  mact : List (Bool × Cmd)
  /-- accumulate-only commands of a context on an accumulator not yet covered: identifier, generation, accumulator, count (R211) -/
  uncov : List (BitVec 20 × BitVec 8 × Nat × Nat)
  tq : List Cmd
  pq : List Cmd
  ks : Vector KSlot 4
  pw : Vector Walker 4
  watches : List Watch
  budget : BitVec 12
  wtab0 : Word
  wtab1 : Word
  /-- the cycle of the last write of one of these three, and the values that hold through that cycle (R105) -/
  rates : Option (Nat × BitVec 12 × Word × Word)
  dhalt : Bool
  /-- the cycle in which a debug halt began -/
  haltedAt : Nat
  dsel : Word
  dlo : Word
  dhi : Word
  dtag : Bool
  ovfl : BitVec 32
  /-- cycles and weights of the activity window (R105), and the cycle of the last issue -/
  act : List (Nat × Nat)
  lastIssue : Option Nat
  /-- the slot that holds issue or held it last (R103) -/
  ring : Fin 11
  /-- gang, position and tenant that the core serves or served last -/
  gang : Option (Nat × Nat)
  lastTenant : Option Nat
  tlb : List TlbEntry
deriving DecidableEq, Repr

/-- A cleared accumulator (R200). -/
def Accum.zero : Accum := ⟨[], 0, false⟩

/-- A core right after reset (R98, R116). -/
def Core.reset : Core where
  z := Vector.replicate 4 .zero
  mc := Vector.replicate 32 0
  posted := []
  overflow := []
  deliveries := []
  gseq := 0
  mq := []
  mrq := []
  lastRemote := true
  mact := []
  uncov := []
  tq := []
  pq := []
  ks := Vector.replicate 4 ⟨0, []⟩
  pw := Vector.replicate 4 .idle
  watches := []
  budget := 96
  wtab0 := 0x3004080606020201#64
  wtab1 := 0x0001020202030830#64
  rates := none
  dhalt := false
  haltedAt := 0
  dsel := 0
  dlo := 0
  dhi := 0
  dtag := false
  ovfl := 0
  act := []
  lastIssue := none
  ring := 10
  gang := none
  lastTenant := none
  tlb := []

/-! ### Memory -/

/-- Memory by fabric physical address (R18): bytes, and per 16-byte granule the tag (R95), the poison mark (R140) and the mark that the
full/empty bit is empty (R102). Scratch bytes stand at the place that R101 gives. -/
structure Memory where
  cells  : List Host.Cell
  tags   : Tab Bool
  poison : Tab Bool
  empty  : Tab Bool
deriving DecidableEq, Repr

/-- What a byte that nothing has written reads as (log 1). -/
def Memory.blank : BitVec 8 := 0

/-- Canonical form: addresses strictly rising, and nothing listed that an unlisted address reads as. -/
def Memory.wf (m : Memory) : Bool :=
  Tab.wf Memory.blank m.cells && Tab.wf false m.tags && Tab.wf false m.poison && Tab.wf false m.empty

/-- Memory at reset: nothing listed. -/
def Memory.init : Memory := ⟨[], [], [], []⟩

/-- A quadrant's copy of a line of a software-managed page (R355): bytes, dirty mask, tags and poison of its granules; the tenant that filled it and the way of its slice that
it stands in (R353). -/
structure QLine where
  data  : BitVec 1024
  dirty : BitVec 128
  tags  : BitVec 8
  poison : BitVec 8
  here  : Bool
  tenant : Nat
  way   : Nat
deriving DecidableEq, Repr

/-- No copy. -/
def QLine.none : QLine := ⟨0, 0, 0, 0, false, 0, 0⟩

/-- A page pinned in a slice (R347): the slice, the tenant that pinned it, and its place there: place n lies in way 15 - n / 4. -/
structure Pin where
  slice  : Nat
  tenant : Nat
  place  : Nat
deriving DecidableEq, Repr

/-- The state of a page in the directory between devices (R349). -/
inductive PageDir where
  | home
  | shared (devs : List Nat)
  | held (dev : Nat)
deriving DecidableEq, Repr

/-- A frame that a migration blocks (R357), the frame whose backing it takes, and the command that asked for it with its core; a channel lease or retirement
has no command, and `h` is the channel's status index (R394). -/
structure Blocked where
  frame : Nat
  other : Nat
  cmd   : Option Cmd
  h     : Nat
deriving DecidableEq, Repr

/-! ### Dispatch engine -/

/-- A launch accepted and not yet complete (R370, R384). -/
structure Launch where
  id     : Nat
  tenant : Nat
  ident  : BitVec 20
  igen   : BitVec 8
  seq    : BitVec 16
  prv    : Bool
  code   : Wreg
  table  : Wreg
  size   : Nat
  count  : Nat
  pri    : Nat
  ra     : Nat
  hopen  : Nat
  co     : Nat
  ticket : BitVec 32
  deps   : List (BitVec 32)
  handle : BitVec 32
  next   : Nat
  failed : Option (Nat × Nat × Nat)
deriving DecidableEq, Repr

/-- A barrier instance of a gang (R154): arrivals and their values. -/
structure Barrier where
  arrivals : List (Nat × Option (Nat × BitVec 64))
deriving DecidableEq, Repr

/-- A live or saved gang (R373, R381). -/
structure Gang where
  id      : Nat
  launch  : Nat
  number  : Nat
  tenant  : Nat
  members : List Nat
  barrier : Barrier
  saved   : Bool
deriving DecidableEq, Repr

/-- A slot of a tenant's continuation queue (R376): in use, its generation, its age, and whether its continuation runs. -/
structure QSlot where
  used : Bool
  sgen : BitVec 16
  age  : Nat
  busy : Bool
  /-- the identifier of a yielded continuation, and its command numbers -/
  ident : BitVec 20
  seqs : Vector (BitVec 16) 9
deriving DecidableEq, Repr

/-- A free slot (R376). -/
def QSlot.free : QSlot := ⟨false, 0, 0, false, 0, Vector.replicate 9 0⟩

/-- A completion object (R371). -/
structure Obj where
  gen  : BitVec 20
  done : Bool
deriving DecidableEq, Repr

/-- The registers and queues of one tenant (R360, R368). -/
structure Tenant where
  troot : Word
  mrgauth : Bool
  qosq : Vector (BitVec 12) 6
  tpart : Word
  tstop : Word
  tstate : Fin 5
  tprio : BitVec 7
  cqb : Word
  tsave : Word
  sysctx : BitVec 20
  objs : Tab Obj
  qslots : Tab QSlot
  deferred : List Arrival
  felt : List Packet
  feltArr : List Arrival
  feltMsg : List Msg
  tokenDone : Bool
  admitted : List Nat
deriving DecidableEq, Repr

/-- A tenant at reset (R360, R368). -/
def Tenant.reset : Tenant where
  troot := 0
  mrgauth := false
  qosq := Vector.replicate 6 0
  tpart := 0
  tstop := 0
  tstate := 0
  tprio := 127
  cqb := 0
  tsave := 0
  sysctx := 0
  objs := []
  qslots := []
  deferred := []
  felt := []
  feltArr := []
  feltMsg := []
  tokenDone := false
  admitted := []

/-- States of a context location entry (R167). -/
inductive LocState where
  | free | resident | moving | saved | cold
deriving DecidableEq, Repr

/-- An entry of the context location table (R168). -/
structure Loc where
  state : LocState
  gen   : BitVec 8
  ten   : BitVec 6
  hidx  : BitVec 11
  slot  : BitVec 4
  img   : BitVec 43
  pov   : Bool
  aww   : Word
  awv   : BitVec 32
  awp   : BitVec 8
  /-- EINFO of the pending overwrite that POV records -/
  povInfo : Word
deriving DecidableEq, Repr

/-- The entry of an identifier that no context has taken (R168). -/
def Loc.free : Loc := ⟨.free, 0, 0, 0, 0, 0, false, 0, 0, 0, 0⟩

/-! ### Vats -/

/-- A field's mode (R302). -/
inductive Mode where
  | hold | run | step | faulted
deriving DecidableEq, Repr

/-- A furnish entry (R308): its boundary, positions and FP16 values of couplings or biases, a new β, and a mode change. -/
structure Furnish where
  bound : Nat
  vals  : List (Nat × BitVec 16)
  bias  : Bool
  beta  : Option (BitVec 32)
  mode  : Option Mode
deriving DecidableEq, Repr

/-- A pull (R306, R307): its boundary, range of lines of the site array, destination, command, whether its boundary is published, and the lines copied. -/
structure Pull where
  bound : Nat
  first : Nat
  count : Nat
  dest  : Wreg
  cmd   : Cmd
  live  : Bool
  lines : List Nat
deriving DecidableEq, Repr

/-- A live field (R295-R313). -/
structure Field where
  num    : Nat
  tenant : Nat
  owner  : BitVec 20
  ogen   : BitVec 8
  /-- address of the descriptor, and its bits as `fdecl` read them (R315) -/
  desc   : Nat
  parms  : BitVec 2048
  /-- virtual page and frame of every page that the arrays use, and the field-owned frames (R296) -/
  map    : List (Nat × Nat)
  pages  : List Nat
  code   : List (BitVec 32)
  beta   : BitVec 32
  mode   : Mode
  steps  : Nat
  nfc    : Nat
  /-- last published boundary index; whether the phase after it has started; the sweep counter has ended; the field has ended and waits for its pulls -/
  bound  : Nat
  started : Bool
  spent  : Bool
  ended  : Bool
  /-- sites of the phase that are done, Vats that reported, Vats that have received the last boundary -/
  sites  : List Nat
  reports : List Nat
  received : List Nat
  conflict : Option Nat
  furnish : List Furnish
  pulls  : List Pull
  /-- the `fstop` that has been taken -/
  stopBy : Option Cmd
  /-- mode and STEPS saved at a synchronized stop (R313) -/
  saved  : Option (Mode × Nat)
  discarded : Nat
deriving DecidableEq, Repr

/-! ### Fastness unit and module -/

/-- The state of a resource (R390). -/
structure FStat where
  score : BitVec 16
  state : BitVec 3
  since : Nat
  /-- the cycle in which it became due, and the gang that was asked to release it (R391, R392) -/
  duePos : Option Nat
  asked  : Option Nat
  mcnt  : BitVec 16
  /-- tenants whose cross-check report has been counted since the last halving (R401) -/
  reports : List Nat
  /-- a retirement that is authorised and deferred, or waits for its core: the AUTH code of its record (R398) -/
  wanted : Option Nat
deriving DecidableEq, Repr

/-- A resource at reset: in service, score 0 (R390). -/
def FStat.reset : FStat := ⟨0, 0, 0, none, none, 0, [], none⟩

/-- A retirement record (R398). -/
structure Record where
  rseq : Nat
  rid  : BitVec 14
  auth : BitVec 2
  score : BitVec 16
  time : Nat
  devno : BitVec 13
  mcnt : BitVec 16
  sigr : BitVec 384
  sigs : BitVec 384
deriving DecidableEq, Repr

/-- A test session of a quadrant's engine (R391, R395). -/
structure Session where
  quad : Nat
  res  : Nat
  /-- the leave notice has been posted; the frames that a channel backed when the lease began -/
  told : Bool
  frames : List Nat
deriving DecidableEq, Repr

/-- The Fastness unit (R389-R403). -/
structure Fast where
  lintc : BitVec 32
  lintl : BitVec 32
  lintm : BitVec 32
  stand : BitVec 3
  lres  : Word
  stat  : Tab FStat
  log   : List Record
  reg   : List (BitVec 20 × BitVec 8 × Nat)
  sessions : List Session
  lastHalving : Nat
  unbacked : List Nat
  /-- fault records: dead devices (R358) -/
  faults : List Nat
deriving DecidableEq, Repr

/-- A thermal sensor (R415). -/
structure Therm where
  temp : BitVec 16
  tmax : BitVec 16
  val  : Bool
deriving DecidableEq, Repr

/-- A key slot (R416): the key, its staging dwords and which are written, and the commits counted. -/
structure KeySlot where
  key : BitVec 512
  staging : BitVec 512
  written : BitVec 8
  gen : BitVec 32
deriving DecidableEq, Repr

/-- An attestation report (R413): the measurement registers, the device number, the requester's nonce, and the two halves of the signature. -/
structure Attestation where
  meas  : Vector (BitVec 384) 8
  devno : BitVec 13
  nonce : BitVec 384
  sigr  : BitVec 384
  sigs  : BitVec 384
deriving DecidableEq, Repr

/-- The module's own state (R405-R418). -/
structure Module where
  power : Bool
  /-- boot stages done, and recovery (R413) -/
  stage : Nat
  recovery : Bool
  devno : BitVec 13
  /-- the time counter has locked (R412); cycles by which it was put forward, and from which cycle on it loses how many cycles, one in two -/
  locked : Bool
  /-- the other locked devices of the domain that this one reaches, and the one that is the reference; none: itself -/
  peers : List Nat
  refDev : Option Nat
  ahead : Nat
  slowFrom : Nat
  slowLen : Nat
  therm : Tab Therm
  kslot : Tab KeySlot
  /-- by context identifier, the data units of its paged image in the tenant's namespace on the storage port, as they were encrypted (R382, R407) -/
  cold : Tab (List (BitVec 4096))
  /-- the last attestation report made (R413) -/
  report : Option Attestation
  meas : Vector (BitVec 384) 8
  latch : Vector (BitVec 384) 8
  /-- the staged hash, and the staging stores since the last extension (R414) -/
  mext : BitVec 384
  mextN : Nat
  rtab : Tab Word
  ddead : Tab Bool
  ldead : Tab Bool
  /-- heartbeats missed in a row, and since when a link has a replay under way; since when no live route has led to a device (R358, R408) -/
  missed : Tab Nat
  replays : Tab Nat
  routedAt : Tab Nat
deriving DecidableEq, Repr

/-! ### The device -/

/-- Which agent moves next: core `h` issues; a step of the device; packet `k` of the network hops to its next ordering point; time passes;
a slice evicts a copy of a software-managed line (R355) or goes on with the command at place `k` of the requests, a core acts on the fetch hint of a header (R54), or the saving or restoring of a continuation ends (R167);
the device at the other end of a link starts a lease of it (R393), the replay of a link's flit completes (R408), another device of the domain locks its counter (R412), a report is
made for a requester's nonce (R413), or the debugger reads or writes a fibre (R292). -/
inductive Turn where
  | issue (h : Nat)
  | dev (e : Instr)
  | hop (k : Nat)
  | tick (n : Nat)
  | evictCopy (rank line : Nat)
  | codeHint (h : Nat)
  | moved (id : Nat)
  | slice (k : Nat)
  | peerLease (port : Nat)
  | replayed (port : Nat)
  | peerLocks (dev : Nat)
  | attest (nonce : BitVec 384)
  | fibreRead (h slot n : Nat)
  | fibreWrite (h slot n : Nat) (capI capV : Wreg) (bits : BitVec 128)
deriving DecidableEq, Repr

/-- A line that an engine owns (R38, R348): line number, core, and whether the engine has finished with it. -/
structure Owned where
  line : Nat
  h    : Nat
  excl : Bool
deriving DecidableEq, Repr

/-- A multicast entry (R250): its line, cluster, mask and tenant, the requests that have joined (core, command and line of it), and when it opened. One that has closed
before every core of its mask joined is remembered, with the cores that have asked for the line, until the others have made their own reads. -/
structure McEntry where
  line : Nat
  clu  : Nat
  mask : BitVec 16
  tenant : Nat
  joined : List (Nat × Nat × Nat)
  since : Nat
  closed : Bool
deriving DecidableEq, Repr

/-- A matrix command carried to another core's unit (R208). -/
structure RemoteCmd where
  cap : Wreg
  sh  : Nat
  sslot : Nat
  cmd : Cmd
deriving DecidableEq, Repr

/-- A message on its way to a mailbox (R15, R258), to the context with the identifier and generation. -/
structure Post where
  ident : BitVec 20
  gen   : BitVec 8
  msg   : BitVec 128
deriving DecidableEq, Repr

/-- The whole device. `cpu` is the context and `core` the core that the model looks at; the tables hold the others. -/
structure State where
  cpu  : Ctx
  core : Core
  cur  : Nat
  slot : Nat
  ctxs : Tab Ctx
  cores : Tab Core
  mem  : Memory
  time : Nat
  agenda : List Turn
  /-- counters of the model: free values used, packets numbered, acceptances numbered -/
  freeN : Nat
  packetN : Nat
  net : List Packet
  arrivals : List Arrival
  creditsDue : List (BitVec 20 × BitVec 8)
  msgs : List Msg
  allowDue : List (BitVec 20 × BitVec 8)
  remotes : List RemoteCmd
  posts : List Post
  /-- messages whose engine has one waiting at that mailbox already (R260) -/
  owed : List Post
  requests : List (Nat × Cmd)
  owned : List Owned
  mcast : List McEntry
  policy : Tab Nat
  /-- the policy tag that a frame had before it was last cleared, which accesses issued before that set again when they arrive (R45, R363) -/
  oldTag : Tab Nat
  frmap : Tab (Option Nat)
  pageDir : Tab PageDir
  /-- guest frames in use, by the page of another device that each holds (R349) -/
  guests : Tab (Option Nat)
  /-- pages that this device is giving up: their lines are blocked in its slices (R350) -/
  leaving : List Nat
  /-- per frame, the lines that are software-managed -/
  swm : Tab (BitVec 512)
  qlines : Tab QLine
  wmk : Tab (BitVec 16)
  pins : Tab (Option Pin)
  /-- per slice, the lines of its directory entries, the one used least recently first (R348) -/
  dirs : Tab (List Nat)
  /-- write-completion counters, by slice and tenant (R35, R352) -/
  wcc : Tab Nat
  /-- translation walks asked for, in order of arrival: die, tenant and page (R343) -/
  walks : List (Nat × Nat × Nat)
  ctlb : Tab (List TlbEntry)
  blocked : List Blocked
  guestb : Word
  frame : Nat
  tenants : Tab Tenant
  launches : List Launch
  gangs : List Gang
  launchN : Nat
  gangN : Nat
  locs : Tab Loc
  fields : List Field
  fast : Fast
  mdl : Module
  /-- value that the last privileged read by an agent outside the cores returned, and the fibre that the debugger read last (R292) -/
  readback : Word
  fibreRead : Option Fibre
deriving DecidableEq, Repr

/-- The Fastness unit at reset (R390). -/
def Fast.reset : Fast where
  lintc := 86400
  lintl := 21600
  lintm := 43200
  stand := 0
  lres := 0
  stat := []
  log := []
  reg := []
  sessions := []
  lastHalving := 0
  unbacked := []
  faults := []

/-- The module at reset (R410, R415, R416). -/
def Module.reset : Module where
  power := true
  stage := 0
  recovery := false
  devno := 0
  locked := false
  peers := []
  refDev := none
  ahead := 0
  slowFrom := 0
  slowLen := 0
  therm := []
  kslot := []
  cold := []
  report := none
  meas := Vector.replicate 8 0
  latch := Vector.replicate 8 0
  mext := 0
  mextN := 0
  rtab := []
  ddead := []
  ldead := []
  missed := []
  replays := []
  routedAt := []

/-- The device right after reset: every context slot idle, every register at the value the specification states or log 3 names. -/
def State.reset : State where
  cpu := .reset
  core := .reset
  cur := 0
  slot := 0
  ctxs := []
  cores := []
  mem := .init
  time := 0
  agenda := []
  freeN := 0
  packetN := 0
  net := []
  arrivals := []
  creditsDue := []
  msgs := []
  allowDue := []
  remotes := []
  posts := []
  owed := []
  requests := []
  owned := []
  mcast := []
  policy := []
  oldTag := []
  frmap := []
  pageDir := []
  guests := []
  leaving := []
  swm := []
  qlines := []
  wmk := []
  pins := []
  dirs := []
  wcc := []
  walks := []
  ctlb := []
  blocked := []
  guestb := 0
  frame := 0
  tenants := []
  launches := []
  gangs := []
  launchN := 0
  gangN := 0
  locs := []
  fields := []
  fast := .reset
  mdl := .reset
  readback := 0
  fibreRead := none

/-- Reasons why the machine stops with a fault. -/
inductive Fault where
  /-- Raised by `step` while power is off and no turn is left that could apply it (R417): nothing happens until the next power-on. Safe: the part stands still too. -/
  | powerOff
deriving DecidableEq, Repr

/-- Reasons why a step has no meaning. -/
inductive Refusal where
  /-- Raised by `exec` for an instruction that has no meaning yet. Safe: the model stops where the part goes on. -/
  | notModelled (mnemonic : String)
deriving DecidableEq, Repr

end Sys2Proof.Machine
end

