-- ==== Sys2Proof/Machine/Cap.lean ====
section
/-! DEFINITION. Capabilities: their fields (R95), bounds (R96), what makes one malformed (R97, R159), the checks of R63 step 4, and the causes of traps (R110). -/

namespace Sys2Proof.Machine

/-- A trap that an instruction takes: cause and operand of ECAUSE, EINFO (R110), whether it arose at a block entry, and whether EPC is after
the instruction (R110). -/
structure Trap where
  code  : Nat
  opnd  : Nat
  info  : Word
  entry : Bool
  after : Bool
deriving DecidableEq, Repr

/-- How an instruction ends without completing: a precise trap, a park (R103), a wait that does not pass issue (R133), a wait for
the translation walk of an address (R343), which passes issue for a load, or the read of a constant (R58): physical address, swizzle code, policy and home, and
the address that the program names. -/
inductive Stop where
  | trap (t : Trap)
  | park (w : Wait)
  | stall
  | walk (va : Nat) (pass : Bool)
  | read (pa swz : Nat) (map : Option (Fin 4 × Nat)) (ea : Nat)
deriving DecidableEq, Repr

/-- A precise trap. -/
def trap {α : Type} (code opnd : Nat) (info : Word) : Except Stop α := .error (.trap ⟨code, opnd, info, false, false⟩)

/-- An engine refusal trap: cause 0x12, the reason in bits 0-7 of EINFO (R137). -/
def refuse {α : Type} (reason : Nat) : Except Stop α := trap 0x12 0 (BitVec.ofNat 64 reason)

/-- Traps unless the condition holds. -/
def need (b : Bool) (code opnd : Nat) (info : Word) : Except Stop Unit := if b then .ok () else trap code opnd info

/-- Refuses unless the condition holds. -/
def needR (b : Bool) (reason : Nat) : Except Stop Unit := if b then .ok () else refuse reason

/-! ### Fields -/

/-- ADDR. -/
def capAddr (c : Wreg) : Word := c.lo
/-- The permission bits 64-76: L S X LC SC G E N M F W D P. -/
def capPerm (c : Wreg) : Nat := bits c.bits 64 13
/-- OKIND. -/
def capOkind (c : Wreg) : Nat := bits c.bits 77 3
/-- KIND. -/
def capKind (c : Wreg) : Nat := bits c.bits 80 4
/-- The swizzle code of kind 4. -/
def capSwz (c : Wreg) : Nat := bits c.bits 84 3
/-- The bounds exponent of kinds 0 and 4. -/
def capExpo (c : Wreg) : Nat := if capKind c = 4 then bits c.bits 87 3 else bits c.bits 84 6

/-- Permission masks. -/
def permL : Nat := 1
def permS : Nat := 2
def permX : Nat := 4
def permLC : Nat := 8
def permSC : Nat := 16
def permG : Nat := 32
def permE : Nat := 64
def permN : Nat := 128
def permM : Nat := 256
def permF : Nat := 512
def permW : Nat := 1024
def permD : Nat := 2048
def permP : Nat := 4096

/-- All permissions of a mask are set. -/
def capHas (c : Wreg) (m : Nat) : Bool := decide (Nat.land (capPerm c) m = m)

/-- Base and top of a capability of kind 0 or 4 (R96). -/
def capBounds (c : Wreg) : Option (Nat × Nat) :=
  let e := capExpo c
  if e > 38 ∨ bits c.bits 57 7 ≠ 0 then none
  else
    let a := bits c.bits 0 57
    let b := bits c.bits 90 19
    let t := bits c.bits 109 19
    let mid := a / 2 ^ e % 2 ^ 19
    let hi : Int := (a / 2 ^ (e + 19) : Nat)
    let edge := (b + 2 ^ 19 - 65536) % 2 ^ 19
    let one (p : Prop) [Decidable p] : Int := if p then 1 else 0
    let cb := one (b < edge) - one (mid < edge)
    let ct := one (t < edge) - one (mid < edge)
    let base : Int := (hi + cb) * (2 ^ (e + 19) : Nat) + (b * 2 ^ e : Nat)
    let top : Int := (hi + ct) * (2 ^ (e + 19) : Nat) + (t * 2 ^ e : Nat)
    if base < 0 ∨ top > (2 ^ 57 : Nat) ∨ top < base then none else some (base.toNat, top.toNat)

/-- The malformed register names of R159, for a kind-1 value. -/
def nameMalformed (c : Wreg) : Bool :=
  let f := bits c.bits 0 56
  let loc := f % 2 ^ 43
  let off := loc - 0x20000000000
  let cls := off / 8192 % 16
  let first := off / 128 % 64
  let last := match cls with | 0 => 63 | 1 => 31 | _ => 7
  decide (Nat.land (capPerm c) (8191 - (permN + permSC + permG + permD)) ≠ 0)
  || decide (bits c.bits 103 25 ≠ 0)
  || decide (loc < 0x20000000000 ∨ loc ≥ 0x22000000000)
  || decide (off % 128 ≠ 0)
  || decide (cls ≥ 3)
  || decide (first + bits c.bits 84 6 > last)
  || decide (cls = 0 ∧ first = 0)

/-- The kind-1 value that a sealed cross-tenant grant unseals to. -/
def unsealed (c : Wreg) : Wreg := ⟨setBits (setBits c.bits 80 4 (capOkind c)) 77 3 0, c.tag⟩

/-- A tagged value that no check accepts (R97, R159). -/
def capMalformed (c : Wreg) : Bool :=
  let k := capKind c
  decide (k ≥ 5) || decide (k = 4 ∧ capSwz c = 7) || decide (k ≠ 3 ∧ capOkind c ≠ 0)
  || (decide (k = 1) && nameMalformed c)
  || (decide (k = 3 ∧ capOkind c = 1) && nameMalformed (unsealed c))

/-- An access of n bytes at x passes the bounds check (R96); an address of 2^57 or more never does (R139). -/
def capCovers (c : Wreg) (x n : Nat) : Bool :=
  match capBounds c with
  | some (base, top) => decide (base ≤ x ∧ x + n ≤ top)
  | none => false

/-- Tag, seal and kind of an operand of kind 0 or 4, and its permissions: the checks that do not depend on the address (R63 step 4). -/
def checkCap (c : Wreg) (opnd : Nat) (info : Word) (perm : Nat) : Except Stop Unit := do
  need (c.tag && !capMalformed c) 0x03 opnd info
  need (decide (capKind c ≠ 3)) 0x06 opnd info
  need (decide (capKind c = 0 ∨ capKind c = 4)) 0x05 opnd info
  need (capHas c perm) 0x05 opnd info

/-- As `checkCap`, and only kind 0 is accepted. -/
def checkKind0 (c : Wreg) (opnd : Nat) (info : Word) (perm : Nat) : Except Stop Unit := do
  need (c.tag && !capMalformed c) 0x03 opnd info
  need (decide (capKind c ≠ 3)) 0x06 opnd info
  need (decide (capKind c = 0)) 0x05 opnd info
  need (capHas c perm) 0x05 opnd info

/-- Bounds over n bytes and natural alignment (R63 step 4). -/
def checkRange (c : Wreg) (opnd : Nat) (x : Word) (n align : Nat) : Except Stop Unit := do
  need (capCovers c x.toNat n) 0x04 opnd x
  need (decide (x.toNat % align = 0)) 0x07 opnd x

/-! ### Messages (R258) -/

/-- A mailbox message. -/
def message (typ eng cause reason count seq pos info : Nat) : BitVec 128 :=
  BitVec.ofNat 128 (typ % 16 + eng % 16 * 2 ^ 4 + cause % 256 * 2 ^ 8 + reason % 256 * 2 ^ 16 + count % 256 * 2 ^ 24
    + seq % 65536 * 2 ^ 32 + pos % 65536 * 2 ^ 48 + info % 2 ^ 64 * 2 ^ 64)

end Sys2Proof.Machine
end

