-- ==== Sys2Proof/Machine/Flags.lean ====
section
/-! DEFINITION. The status register st (R99): its fields, its sticky flags, and the conditions of compares (R119) and predicate branches (R127). -/

namespace Sys2Proof.Machine

/-- TM: the context is in trap mode. -/
def Ctx.tm (c : Ctx) : Bool := bit c.st 0
/-- PP: a fmt prefix is pending. -/
def Ctx.pp (c : Ctx) : Bool := bit c.st 1
/-- PPL: bits 0-12 of the fmt word. -/
def Ctx.ppl (c : Ctx) : Nat := bits c.st 2 13
/-- PRV: privileged. -/
def Ctx.prv (c : Ctx) : Bool := bit c.st 15
/-- RC: repetitions owed. -/
def Ctx.rc (c : Ctx) : Nat := bits c.st 16 16
/-- LDEPTH: active hardware loops. -/
def Ctx.ldepth (c : Ctx) : Nat := bits c.st 32 3
/-- MBIE: a non-empty mailbox raises an interrupt. -/
def Ctx.mbie (c : Ctx) : Bool := bit c.st 35

/-- The sticky flags of R76, as one set. -/
structure Sticky where
  nv : Bool := false
  dz : Bool := false
  ofl : Bool := false
  uf : Bool := false
  ix : Bool := false
  nfs : Bool := false
  clp : Bool := false
  nnl : Bool := false
  zi : Bool := false
  zo : Bool := false
deriving DecidableEq, Repr

/-- Two sets of flags together. -/
def Sticky.join (a b : Sticky) : Sticky where
  nv := a.nv || b.nv
  dz := a.dz || b.dz
  ofl := a.ofl || b.ofl
  uf := a.uf || b.uf
  ix := a.ix || b.ix
  nfs := a.nfs || b.nfs
  clp := a.clp || b.clp
  nnl := a.nnl || b.nnl
  zi := a.zi || b.zi
  zo := a.zo || b.zo

/-- The flags at their places in st, bits 40-49 (R99). -/
def Sticky.toWord (f : Sticky) : Word :=
  BitVec.ofNat 64 (2 ^ 40 * (f.nv.toNat + 2 * f.dz.toNat + 4 * f.ofl.toNat + 8 * f.uf.toNat + 16 * f.ix.toNat
    + 32 * f.nfs.toNat + 64 * f.clp.toNat + 128 * f.nnl.toNat + 256 * f.zi.toNat + 512 * f.zo.toNat))

/-- ORs flags into st. -/
def Ctx.setSticky (c : Ctx) (f : Sticky) : Ctx := { c with st := c.st ||| f.toWord }

/-- The bits of st that are not reserved (R99). -/
def stDefined : Word := 0x0003FF0FFFFFFFFF#64

/-- The bits of st that `setsr` writes: MBIE and the sticky flags (R99). -/
def stWritable : Word := 0x0003FF0800000000#64

/-- st as R111 restores it: reserved bits stay zero, and an LDEPTH of 5-7, which never stands in st, is taken as 4 (log 6). PRV comes from ESR with the others, whatever a handler
has written there (log 101). -/
def stRestored (x : Word) : Word :=
  let y := x &&& stDefined
  if bits y 32 3 > 4 then setBits y 32 3 4 else y

/-- The conditions of `cmp` (R119). -/
inductive Cond where
  | eq | ne | lt | ge | ltU | geU
deriving DecidableEq, Repr

/-- Whether a condition holds between two words (R119). -/
def Cond.holds (c : Cond) (x y : Word) : Bool :=
  match c with
  | .eq => x == y
  | .ne => x != y
  | .lt => decide (x.toInt < y.toInt)
  | .ge => decide (x.toInt ≥ y.toInt)
  | .ltU => decide (x.toNat < y.toNat)
  | .geU => decide (x.toNat ≥ y.toNat)

/-- The tests of a predicate branch (R127). -/
inductive PTest where
  | any | all | none | nall
deriving DecidableEq, Repr

/-- Whether a test holds of the 64 bits of a predicate register (R127). -/
def PTest.holds (t : PTest) (x : Word) : Bool :=
  match t with
  | .any => x != 0
  | .all => x == BitVec.allOnes 64
  | .none => x == 0
  | .nall => x != BitVec.allOnes 64

end Sys2Proof.Machine
end

