-- ==== Sys2Proof/Machine/Ops.lean ====
section
/-! DEFINITION. The named operations that the meanings share: looking at a context or core, reading and writing registers with awaiting bits and
stream bindings (R163, R179, R266), completing an instruction, taking an exception (R108, R109), parking (R103), mailbox messages (R258). -/

namespace Sys2Proof.Machine

/-! ### Looking at contexts, cores and tenants -/

/-- The key of a context slot in the tables. -/
def ctxKey (h slot : Nat) : Nat := h * 16 + slot

/-- The context in a slot of a core. -/
def State.ctx (s : State) (h slot : Nat) : Ctx :=
  if s.cur = h ∧ s.slot = slot then s.cpu else Tab.get Ctx.reset s.ctxs (ctxKey h slot)

/-- Replaces the context in a slot of a core. -/
def State.setCtx (s : State) (h slot : Nat) (c : Ctx) : State :=
  if s.cur = h ∧ s.slot = slot then { s with cpu := c } else { s with ctxs := Tab.set Ctx.reset s.ctxs (ctxKey h slot) c }

/-- What a core holds. -/
def State.coreOf (s : State) (h : Nat) : Core := if s.cur = h then s.core else Tab.get Core.reset s.cores h

/-- Replaces what a core holds. -/
def State.setCore (s : State) (h : Nat) (c : Core) : State :=
  if s.cur = h then { s with core := c } else { s with cores := Tab.set Core.reset s.cores h c }

/-- Looks at a context: puts the one looked at back into its table. -/
def State.focus (s : State) (h slot : Nat) : State :=
  if s.cur = h ∧ s.slot = slot then s
  else
    let c := s.ctx h slot
    let ctxs := Tab.set Ctx.reset (Tab.set Ctx.reset s.ctxs (ctxKey s.cur s.slot) s.cpu) (ctxKey h slot) Ctx.reset
    if s.cur = h then { s with cpu := c, slot := slot, ctxs := ctxs }
    else
      { s with
        cpu := c, slot := slot, ctxs := ctxs
        core := s.coreOf h, cur := h
        cores := Tab.set Core.reset (Tab.set Core.reset s.cores s.cur s.core) h Core.reset }

/-- The registers and queues of a tenant. -/
def State.tenantOf (s : State) (t : Nat) : Tenant := Tab.get Tenant.reset s.tenants t

/-- Replaces the registers and queues of a tenant. -/
def State.setTenant (s : State) (t : Nat) (x : Tenant) : State :=
  { s with tenants := Tab.set Tenant.reset s.tenants t x }

/-- The context location entry of an identifier (R168). -/
def State.loc (s : State) (id : BitVec 20) : Loc := Tab.get Loc.free s.locs id.toNat

/-- Replaces a context location entry. -/
def State.setLoc (s : State) (id : BitVec 20) (l : Loc) : State :=
  { s with locs := Tab.set Loc.free s.locs id.toNat l }

/-- The own device's number. -/
def State.dev (s : State) : Nat := s.mdl.devno.toNat

/-- Cycles that the slowed time counter has lost (R412). -/
def State.lag (s : State) : Nat := Nat.min s.mdl.slowLen ((s.time - s.mdl.slowFrom + 1) / 2)

/-- The time counter (R411, R412): it advances with the arithmetic cycles, from the domain reference once it has locked. -/
def State.counter (s : State) : Nat := s.time + s.mdl.ahead - s.lag

/-- A core that is leased or retired is a hole (R369, R399). -/
def State.hole (s : State) (h : Nat) : Bool :=
  let x := (Tab.get FStat.reset s.fast.stat h).state
  decide (x = 2 ∨ x = 4 ∨ x = 5)

/-- The number under which a core's saved contexts and registers are kept while its tenant is stopped (R380, log 40). -/
def savedKey (t h : Nat) : Nat := 2048 * (t + 1) + h

/-- A context slot that holds a live context. -/
def Ctx.live (c : Ctx) : Bool := c.run != .idle

/-- Where the live context with an identifier and generation is resident, if it is. -/
def State.find (s : State) (id : BitVec 20) (gen : BitVec 8) : Option (Nat × Nat) :=
  let l := s.loc id
  if l.state = .resident ∧ l.gen = gen then some (l.hidx.toNat, l.slot.toNat) else none

/-! ### Status -/

/-- Sets a field of st. -/
def Ctx.setSt (c : Ctx) (lo n v : Nat) : Ctx := { c with st := setBits c.st lo n v }

/-- The address of the header that follows the current block (R48, R126). -/
def Ctx.nextHdr (c : Ctx) : Word := align8 (BitVec.ofNat 64 (c.hdr.toNat + 8 + 4 * c.len))

/-- The first address after the last word of the current block. -/
def Ctx.blockEnd (c : Ctx) : Nat := c.hdr.toNat + 8 + 4 * c.len

/-- Moves past n words; at the end of the block the next header is entered by fall-through (R50). -/
def Ctx.stepOver (c : Ctx) (n : Nat) : Ctx :=
  if c.pc.toNat + 4 * n ≥ c.blockEnd then { c with pc := c.nextHdr, entry := .fall }
  else { c with pc := BitVec.ofNat 64 (c.pc.toNat + 4 * n) }

/-- An instruction of n words completes: it consumes the prefix, PP and its payload (R60, log 9), and under a repeat it issues again until the count is used up (R107). -/
def Ctx.advance (c0 : Ctx) (n : Nat) : Ctx :=
  let c := { c0 with passed := none, counted := false, kv := none, place := none }
  if c.rc ≥ 2 then c.setSt 16 16 (c.rc - 1)
  else ((if c.pp then c.setSt 1 14 0 else c).setSt 16 16 0).stepOver n

/-! ### Registers -/

/-- The generator that a w register is bound to (R242). -/
def Ctx.boundW (c : Ctx) (r : Nat) : Option Nat :=
  (List.range 8).find? fun g =>
    match c.sg[g]? with
    | some x => x.bnd && x.clsW && decide (48 + x.reg.val = r)
    | none => false

/-- The generator that a v register is bound to (R242). -/
def Ctx.boundV (c : Ctx) (r : Nat) : Option Nat :=
  (List.range 8).find? fun g =>
    match c.sg[g]? with
    | some x => x.bnd && !x.clsW && decide (16 + x.reg.val = r)
    | none => false

/-- A stream generator, by number. -/
def Ctx.stream (c : Ctx) (g : Nat) : Stream := (c.sg[g]?).getD .reset

/-- Replaces a stream generator. -/
def Ctx.setStream (c : Ctx) (g : Nat) (x : Stream) : Ctx := { c with sg := c.sg.setIfInBounds g x }

/-- Number of elements in a stream's pattern (R243). -/
def Stream.total (x : Stream) : Nat :=
  ((List.range (x.ndim.val + 1)).map fun i => bits x.cnt (16 * i) 16).foldl (· * ·) 1

/-- Head element of a read stream, or why it cannot be read (R179, R245, R266). -/
def Ctx.headOf (c : Ctx) (g opnd : Nat) : Except Stop (BitVec 1024 × Bool) :=
  let x := c.stream g
  if x.wr then trap 0x12 opnd 0x74
  else if x.done ≥ x.total then trap 0x12 opnd 0x60
  else match x.held with
    | e :: _ => .ok e
    | [] => if x.flt then trap 0x12 opnd 0x62 else .error (.park (.stream g))

/-- Whether a write may be appended to the stream (R244, R245, R266). -/
def Ctx.roomIn (c : Ctx) (g opnd : Nat) : Except Stop Unit :=
  let x := c.stream g
  if !x.wr then trap 0x12 opnd 0x73
  else if x.done ≥ x.total then trap 0x12 opnd 0x61
  else if x.flt then trap 0x12 opnd 0x62
  else if x.held.length ≥ 4 then .error (.park (.stream g))
  else .ok ()

/-- Appends an element to a write stream. -/
def Ctx.append (c : Ctx) (g : Nat) (e : BitVec 1024 × Bool) : Ctx :=
  let x := c.stream g
  c.setStream g { x with held := x.held ++ [e], done := x.done + 1 }

/-- Takes the head element from a read stream. -/
def Ctx.pop (c : Ctx) (g : Nat) : Ctx :=
  let x := c.stream g
  c.setStream g { x with held := x.held.drop 1, head := x.head + 1, done := x.done + 1 }

/-- The number by which the list of used registers names a v register. -/
def vId (r : Nat) : Nat := 64 + r

/-- Pops every read stream whose register an instruction has read, once each (R179, R266). -/
def Ctx.popAll (c : Ctx) (uses : List Nat) : Ctx :=
  (List.range 8).foldl (fun c g =>
    let x := c.stream g
    if x.bnd && !x.wr && uses.contains (if x.clsW then 48 + x.reg.val else vId (16 + x.reg.val)) then c.pop g else c) c

/-- Awaiting bit of a register: class 0 w, 1 v, 2 p (R163). -/
def Ctx.awaits (c : Ctx) (cls r : Nat) : Bool :=
  match cls with
  | 0 => bit c.awW r
  | 1 => bit c.awV r
  | _ => bit c.awP r

/-- The first use of an awaiting register parks (R163). -/
def useReg (c : Ctx) (cls r : Nat) : Except Stop Unit := if c.awaits cls r then .error (.park (.reg cls r)) else .ok ()

/-- Reads a w register as an operand (R117, R163, R266): 1 d, 2 a, 3 b name the operand in ECAUSE. -/
def readW (s : State) (r : Fin 64) (opnd : Nat) : Except Stop Wreg :=
  if r = 0 then .ok .zero
  else if bit s.cpu.awW r.val then .error (.park (.reg 0 r.val))
  else match s.cpu.boundW r.val with
    | none => .ok s.cpu.w[r]
    | some g => do
      let (x, t) ← s.cpu.headOf g opnd
      .ok (if (s.cpu.stream g).tg then ⟨x.setWidth 128, t⟩ else .plain (x.setWidth 64))

/-- A destination w register may be written: it does not await (R163), and a stream bound to it has room (R244). -/
def useW (s : State) (r : Fin 64) (opnd : Nat) : Except Stop Unit :=
  if r = 0 then .ok ()
  else if bit s.cpu.awW r.val then .error (.park (.reg 0 r.val))
  else match s.cpu.boundW r.val with
    | none => .ok ()
    | some g => s.cpu.roomIn g opnd

/-- A tagged value without G is not appended to a stream, whatever the size of its elements (R266). -/
def mayAppend (s : State) (r : Fin 64) (x : Wreg) : Except Stop Unit :=
  match s.cpu.boundW r.val with
  | none => .ok ()
  | some _ => need (!(x.tag && !capHas x permG)) 0x05 1 (capAddr x)

/-- Writes a w register: w0 discards (R98), a bound register appends (R266). -/
def Ctx.writeW (c : Ctx) (r : Fin 64) (x : Wreg) : Ctx :=
  if r = 0 then c
  else match c.boundW r.val with
    | none => { c with w := c.w.set r x }
    | some g => if (c.stream g).wr then c.append g (x.bits.setWidth 1024, x.tag) else { c with w := c.w.set r x }

/-- Reads a v register as an operand (R163, R179). -/
def readV (s : State) (r : Fin 64) (opnd : Nat) : Except Stop (BitVec 1024) :=
  if bit s.cpu.awV r.val then .error (.park (.reg 1 r.val))
  else match s.cpu.boundV r.val with
    | none => .ok ((s.cpu.v[r.val]?).getD 0)
    | some g => do
      let (x, _) ← s.cpu.headOf g opnd
      .ok x

/-- A destination v register may be written (R163, R179, R244). -/
def useV (s : State) (r : Fin 64) (opnd : Nat) : Except Stop Unit :=
  if bit s.cpu.awV r.val then .error (.park (.reg 1 r.val))
  else match s.cpu.boundV r.val with
    | none => .ok ()
    | some g => s.cpu.roomIn g opnd

/-- The value a v destination holds before a merging write: its contents, or zero when it is bound to a write stream (R178, R179). -/
def oldV (s : State) (r : Fin 64) : BitVec 1024 :=
  match s.cpu.boundV r.val with
  | none => (s.cpu.v[r.val]?).getD 0
  | some _ => 0

/-- Writes a v register; a bound register appends a strip (R179). -/
def Ctx.writeV (c : Ctx) (r : Fin 64) (x : BitVec 1024) : Ctx :=
  match c.boundV r.val with
  | none => { c with v := c.v.setIfInBounds r.val x }
  | some g => if (c.stream g).wr then c.append g (x, false) else { c with v := c.v.setIfInBounds r.val x }

/-- Reads a predicate register as an operand (R163). -/
def readP (s : State) (r : Nat) : Except Stop Word :=
  if bit s.cpu.awP r then .error (.park (.reg 2 r)) else .ok ((s.cpu.p[r]?).getD 0)

/-- A destination predicate register may be written (R163). -/
def useP (s : State) (r : Nat) : Except Stop Unit :=
  if bit s.cpu.awP r then .error (.park (.reg 2 r)) else .ok ()

/-- Writes a predicate register. -/
def Ctx.writeP (c : Ctx) (r : Nat) (x : Word) : Ctx := { c with p := c.p.setIfInBounds r x }

/-- Applies a function to the context looked at. -/
def State.onCpu (s : State) (f : Ctx → Ctx) : State := { s with cpu := f s.cpu }

/-- Applies a function to the core looked at. -/
def State.onCore (s : State) (f : Core → Core) : State := { s with core := f s.core }

/-- Completes an instruction of n words that has read the listed registers: pops, then moves on (R179, R60, R107). -/
def State.finish (s : State) (n : Nat) (uses : List Nat) : State := s.onCpu fun c => (c.popAll uses).advance n

/-- Completes with a result in a w register. The pops precede the append of a bound destination. -/
def State.finishW (s : State) (n : Nat) (uses : List Nat) (d : Fin 64) (x : Wreg) : State :=
  s.onCpu fun c => ((c.popAll uses).writeW d x).advance n

/-- Completes with a result in a v register. -/
def State.finishV (s : State) (n : Nat) (uses : List Nat) (d : Fin 64) (x : BitVec 1024) : State :=
  s.onCpu fun c => ((c.popAll uses).writeV d x).advance n

/-! ### Messages to mailboxes -/

/-- An engine may post to a context: no earlier message of it to that context waits for its mailbox (R260). -/
def State.mayPost (s : State) (ident : BitVec 20) (gen : BitVec 8) (eng : Nat) : Bool :=
  s.posts.all fun p => !(decide (p.ident = ident ∧ p.gen = gen ∧ bits p.msg 4 4 = eng))

/-- Posts a message to a context, after an earlier one of its engine that still waits (R260); one to a context that has ended is discarded (R134, R166, R310). -/
def State.post (s : State) (ident : BitVec 20) (gen : BitVec 8) (m : BitVec 128) : State :=
  let l := s.loc ident
  if l.state = .free ∨ l.gen ≠ gen then s
  else if s.mayPost ident gen (bits m 4 4) then { s with posts := s.posts ++ [⟨ident, gen, m⟩] }
  else { s with owed := s.owed ++ [⟨ident, gen, m⟩] }

/-- Posts a message to whatever context an identifier names now (SYSCTX, R368). -/
def State.postId (s : State) (ident : BitVec 20) (m : BitVec 128) : State := s.post ident (s.loc ident).gen m

/-- The next SEQ number of the context looked at for an engine, and the state after it is taken (R259). -/
def State.takeSeq (s : State) (eng : Fin 9) : BitVec 16 × State :=
  (s.cpu.seqs[eng], s.onCpu fun c => { c with seqs := c.seqs.set eng (c.seqs[eng] + 1) })

/-! ### Exceptions -/

/-- EPC of a trap (R51, R108, R110). -/
def Ctx.trapPc (c : Ctx) (t : Trap) : Word := if t.after then (c.stepOver 1).pc else c.pc

/-- The resume header of a trap (R108): the header of the block that EPC names a word of, or EPC itself where it is a header address. -/
def Ctx.trapHdr (c : Ctx) (t : Trap) : Word :=
  let c' := if t.after then c.stepOver 1 else c
  if c'.entry = .inside ∨ c'.entry = .resume then c'.hdr else c'.pc

/-- What the core keeps with the resume header of a trap inside a block: LEN and PFH of the block, and the word that EPC names (R108, R111). -/
def Ctx.trapBlock (c : Ctx) (t : Trap) : Option (Nat × Nat × Option Word) :=
  let c' := if t.after then c.stepOver 1 else c
  match c'.entry with
  | .inside => some (c'.len, c'.pfh, some c'.pc)
  | .resume => some (c'.len, c'.pfh, none)
  | _ => none

/-- st in a handler: TM set; PP, PPL, RC, LDEPTH and MBIE clear (R108). -/
def stInTrap (st : Word) : Word :=
  setBits (setBits (setBits (setBits (setBits st 0 1 1) 1 1 0) 2 13 0) 16 19 0) 35 1 0

/-- ECAUSE (R100). -/
def Trap.cause (t : Trap) : Word := BitVec.ofNat 64 (t.code % 256 + t.opnd % 4 * 256 + t.entry.toNat * 1024)

/-- Halts a context for a double trap, and sends the notice with the new cause (R109). -/
def State.doubleTrap (s : State) (code : Nat) : State :=
  let c := s.cpu
  let s := s.onCpu fun c => { c with run := .halted .double none, dbl := true, walk := none, walkFault := none, passed := none, counted := false, kv := none, place := none }
  s.postId (s.tenantOf c.tenant).sysctx (message 3 7 code 0 0 0 0 (c.ident.toNat + s.slot * 2 ^ 20))

/-- Takes an exception: saves EPC, the resume header, ESR, ECAUSE and EINFO, enters trap mode, and is to enter the header at TVEC (R108);
in trap mode it is a double trap (R109). -/
def State.takeTrap (s : State) (t : Trap) : State :=
  if s.cpu.tm then s.doubleTrap t.code
  else s.onCpu fun c =>
    { c with
      epc := c.trapPc t, erh := c.trapHdr t, erl := c.trapBlock t, esr := c.st, ecause := t.cause, einfo := t.info
      st := stInTrap c.st, pc := capAddr c.tvec, entry := .vector, walk := none, walkFault := none, passed := none, counted := false, kv := none, place := none }

/-- A context that parks for room in a command queue takes its place in the order in which such contexts parked, and keeps it (R201, R241). -/
def State.queueUp (s : State) (w : Wait) : State :=
  match w, s.cpu.place with
  | .cmdRoom _, none => { s with packetN := s.packetN + 1 }.onCpu fun c => { c with place := some s.packetN }
  | _, _ => s

/-- Parks the context looked at (R103); the waits that an instruction enters after it has passed issue are marked. -/
def State.parkOn (s : State) (w : Wait) : State :=
  (s.queueUp w).onCpu fun c => { c with run := .parked w, passed := match w with | .watch t => some t | .join _ | .mailbox | .counter .. | .barrier => some 0 | _ => c.passed }

end Sys2Proof.Machine
end

