-- ==== Sys2Proof/Machine/Mem.lean ====
section
/-! DEFINITION. Memory: the address map (R18-R22), the place of scratch bytes (R101), reads and writes of bytes with tags, poison and full/empty bits, translation (R341-R344), policy tags and pinning (R45, R347), homes (R28, R345), and the copies of software-managed pages (R355). -/

namespace Sys2Proof.Machine

/-! ### The address map -/

/-- The parts of the local address map (R19). -/
inductive Region where
  | dram
  | scratch (h : Nat)
  | fabric
  | config
  | hole
deriving DecidableEq, Repr

/-- The local address, bits 0-42 (R18). -/
def localOf (pa : Nat) : Nat := pa % 2 ^ 43

/-- The device number, bits 43-55 (R18). -/
def devOf (pa : Nat) : Nat := pa / 2 ^ 43 % 8192

/-- What an address names (R18-R20, R22): a device number from 6,144 and the unbacked part of a scratch window name nothing. -/
def regionOf (pa : Nat) : Region :=
  let a := localOf pa
  if devOf pa ≥ 6144 then .hole
  else if a < 0xC000000000 then .dram
  else if a < 0x10000000000 then .hole
  else if a < 0x10040000000 then (if (a - 0x10000000000) % 0x80000 < 0x60000 then .scratch ((a - 0x10000000000) / 0x80000) else .hole)
  else if a < 0x20000000000 then .hole
  else if a < 0x22000000000 then .fabric
  else if a < 0x40000000000 then .hole
  else if a < 0x41000000000 then .config
  else .hole

/-- The first address of core h's scratch window on a device (R20). -/
def scratchBase (dev h : Nat) : Nat := dev * 2 ^ 43 + 0x10000000000 + h * 0x80000

/-- Where a byte stands: in scratch, the bank that swizzle code `swz` gives (R101). -/
def locate (swz pa : Nat) : Nat :=
  match regionOf pa with
  | .scratch _ =>
    if swz = 0 then pa
    else
      let o := (localOf pa - 0x10000000000) % 0x80000
      let bank := Nat.xor (o / 16 % 32) (o / 2 ^ (swz + 8) % 32)
      pa - o + o / 512 * 512 + bank * 16 + o % 16
  | _ => pa

/-- The granule of a byte. -/
def granuleOf (swz pa : Nat) : Nat := locate swz pa / 16

/-- The 128-byte line of a byte. -/
def lineOf (swz pa : Nat) : Nat := locate swz pa / 128

/-- The 64 KiB frame of an address. -/
def frameOf (pa : Nat) : Nat := pa / 65536

/-! ### Bytes -/

/-- One byte. -/
def Memory.byte (m : Memory) (a : Nat) : BitVec 8 := Tab.get Memory.blank m.cells a

/-- Writes one byte. -/
def Memory.setByte (m : Memory) (a : Nat) (v : BitVec 8) : Memory := { m with cells := Tab.set Memory.blank m.cells a v }

/-- The tag of a granule. -/
def Memory.tagAt (m : Memory) (g : Nat) : Bool := Tab.get false m.tags g

/-- The poison mark of a granule. -/
def Memory.poisonAt (m : Memory) (g : Nat) : Bool := Tab.get false m.poison g

/-- The full bit of a granule (R102). -/
def Memory.fullAt (m : Memory) (g : Nat) : Bool := !Tab.get false m.empty g

/-- Sets the tag of a granule. -/
def Memory.setTag (m : Memory) (g : Nat) (b : Bool) : Memory := { m with tags := Tab.set false m.tags g b }

/-- Sets the poison mark of a granule. -/
def Memory.setPoison (m : Memory) (g : Nat) (b : Bool) : Memory := { m with poison := Tab.set false m.poison g b }

/-- Sets the full bit of a granule. -/
def Memory.setFull (m : Memory) (g : Nat) (b : Bool) : Memory := { m with empty := Tab.set false m.empty g (!b) }

/-- n bytes from an address, little-endian, each at the place its granule has. -/
def Memory.read (m : Memory) (swz pa n : Nat) : Nat := ofBytes ((List.range n).map fun i => m.byte (locate swz (pa + i)))

/-- The granules that n bytes from an address touch. -/
def granules (swz pa n : Nat) : List Nat :=
  if n = 0 then [] else (List.range ((pa + n - 1) / 16 - pa / 16 + 1)).map fun i => granuleOf swz ((pa / 16 + i) * 16)

/-- What a write does to a granule: its tag, and its poison when the write covers it whole (R95, R140), and the full bit (R145). -/
def Memory.touch (m : Memory) (w : WriteOp) (i : Nat) : Memory :=
  let ga := (w.pa / 16 + i) * 16
  let inside := (List.range 16).map fun j => decide (w.pa ≤ ga + j ∧ ga + j < w.pa + w.n) && bit w.mask (ga + j - w.pa)
  if inside.any id then
    let g := granuleOf w.swz ga
    let m := m.setTag g (w.tag && inside.all id)
    let m := if inside.all id then m.setPoison g false else m
    if w.full then m.setFull g true else m
  else m

/-- Applies a write (R28): the bytes whose mask bit is set, then tags, poison and full bits. -/
def Memory.write (m : Memory) (w : WriteOp) : Memory :=
  let m := (List.range w.n).foldl (fun m i =>
    if bit w.mask i then m.setByte (locate w.swz (w.pa + i)) (BitVec.ofNat 8 (bits w.data (8 * i) 8)) else m) m
  (List.range ((w.pa + w.n - 1) / 16 - w.pa / 16 + 1)).foldl (fun m i => m.touch w i) m

/-- The lowest accessed byte that lies in a poisoned granule, if a read touches one (R140, R193). -/
def Memory.poisoned (m : Memory) (swz pa n : Nat) (mask : BitVec 128) : Option Nat :=
  ((List.range n).find? fun i => bit mask i && m.poisonAt (granuleOf swz (pa + i))).map fun i => pa + i

/-- A block of memory is copied, with tags, poison and full bits, in place of what stands at the other address; both are whole granules. -/
def Tab.copyRange {α : Type} [DecidableEq α] (d : α) (t : Tab α) (lo n dst : Nat) : Tab α :=
  (t.filter fun x => lo ≤ x.1 ∧ x.1 < lo + n).foldl (fun r x => Tab.set d r (x.1 - lo + dst) x.2)
    (t.filter fun x => !(decide (dst ≤ x.1 ∧ x.1 < dst + n)))

/-- Copies n bytes of whole granules to another address, with tags, poison and full bits. -/
def Memory.copyBlock (m : Memory) (src n dst : Nat) : Memory where
  cells := Tab.copyRange Memory.blank m.cells src n dst
  tags := Tab.copyRange false m.tags (src / 16) (n / 16) (dst / 16)
  poison := Tab.copyRange false m.poison (src / 16) (n / 16) (dst / 16)
  empty := Tab.copyRange false m.empty (src / 16) (n / 16) (dst / 16)

/-! ### Homes (R28, R345-R347) -/

/-- The channel that backs a frame of the own device at reset (R345). -/
def resetChannel (f : Nat) : Nat := 96 * (f % 8) + f / 8 % 96

/-- The channel and channel frame that back a frame, packed as FRMAP gives them (R346, R360). -/
def State.backing (s : State) (f : Nat) : Nat :=
  match Tab.get none s.frmap f with
  | some b => b
  | none => resetChannel f + f / 768 * 1024

/-- The home slice of a line of device memory (R345, R347). -/
def State.homeSlice (s : State) (pa : Nat) : Nat :=
  let f := frameOf (localOf pa)
  match Tab.get none s.pins f with
  | some p => p.slice
  | none =>
    let ch := s.backing f % 1024
    let stack := ch / 96
    let quad := stack % 2 * 2 + ch % 96 / 48
    64 * (stack / 2) + 16 * quad + Nat.xor (pa / 128 % 16) (pa / 65536 % 16)

/-- Where this device keeps the bytes of an address: a page of another device that it holds or shares stands in a guest frame (R349). -/
def State.guestPa (s : State) (pa : Nat) : Nat :=
  if devOf pa = s.dev then pa
  else match Tab.get none s.guests (frameOf pa) with
    | some g => g * 65536 + pa % 65536
    | none => pa

/-- The register block of a local address of configuration space: of each core its own, of the slice engine, the dispatch engine, the Fastness unit and the module one each,
the remap table, and the context location table (R156, log 98). -/
def configBlock (a : Nat) : Nat :=
  let r := a - 0x40000000000
  if r < 0x10000000 then r / 0x1000000
  else if r < 0x20000000 then 0x10
  else if r < 0x20800000 then 0x10000 + (r - 0x20000000) / 4096
  else 0x20

/-- The agent that applies writes to an address (R28): for a page of another device that this one holds, the home slice of its guest frame (R349). -/
def State.agentOf (s : State) (pa : Nat) : Agent :=
  if devOf pa ≠ s.dev then
    match Tab.get .home s.pageDir (frameOf pa) with
    | .held d => if d = s.dev then .slice (s.homeSlice (s.guestPa pa)) else .remote (devOf pa)
    | _ => .remote (devOf pa)
  else match regionOf pa with
    | .scratch h => .bank h
    | .config => .config (configBlock (localOf pa))
    | _ => .slice (s.homeSlice pa)

/-- The agent that serves reads of an address: a read copy serves the pages of another device, and a page that another device holds is served
there (R349). -/
def State.agentRd (s : State) (pa : Nat) : Agent :=
  match Tab.get .home s.pageDir (frameOf pa) with
  | .shared l => if devOf pa ≠ s.dev ∧ l.contains s.dev then .slice (s.homeSlice (s.guestPa pa)) else s.agentOf pa
  | .held d => if devOf pa = s.dev then .remote d else s.agentOf pa
  | .home => s.agentOf pa

/-- The agent is a device that is dead to this one (R358). -/
def State.deadAgent (s : State) (g : Agent) : Bool :=
  match g with
  | .remote n => Tab.get false s.mdl.ddead n
  | _ => false

/-- A frame is owned by a live field (R296). -/
def State.fieldOwned (s : State) (f : Nat) : Bool := s.fields.any fun x => x.pages.contains f

/-- A frame that blocks its accesses (R357). -/
def State.isBlocked (s : State) (f : Nat) : Bool := s.blocked.any fun b => b.frame = f || b.other = f

/-- A line that an engine owns (R38). -/
def State.isOwned (s : State) (line : Nat) : Bool := s.owned.any fun o => o.line = line && o.excl

/-- Accesses of an address are not kept: no engine owns its line (R38), no migration blocks its frame (R357), and its page is not being given up (R350). -/
def State.lineOpen (s : State) (swz pa : Nat) : Bool :=
  !s.isOwned (lineOf swz pa) && !(decide (devOf pa = s.dev) && s.isBlocked (frameOf (localOf pa))) && !s.leaving.contains (frameOf pa)

/-! ### Software-managed pages (R355) -/

/-- The rank of a core's quadrant in H-order (R356). -/
def rankOf (h : Nat) : Nat := h / 128

/-- The key of a quadrant's copy of a line. -/
def qKey (rank line : Nat) : Nat := line * 16 + rank

/-- A quadrant's copy of a line. -/
def State.qline (s : State) (rank line : Nat) : QLine := Tab.get QLine.none s.qlines (qKey rank line)

/-- Replaces a quadrant's copy of a line. -/
def State.setQline (s : State) (rank line : Nat) (q : QLine) : State := { s with qlines := Tab.set QLine.none s.qlines (qKey rank line) q }

/-- Whether a line is software-managed. -/
def State.swLine (s : State) (pa : Nat) : Bool := bit (Tab.get 0 s.swm (frameOf pa)) (pa / 128 % 512)

/-- A write of up to one line into a quadrant's copy. -/
def QLine.write (q : QLine) (w : WriteOp) : QLine :=
  let o := w.pa % 128
  let q := (List.range w.n).foldl (fun q i =>
    if bit w.mask i then
      { q with data := setBits q.data (8 * (o + i)) 8 (bits w.data (8 * i) 8), dirty := setBit q.dirty (o + i) true } else q) q
  (List.range 8).foldl (fun q g =>
    let inside := (List.range 16).map fun j => decide (o ≤ 16 * g + j ∧ 16 * g + j < o + w.n) && bit w.mask (16 * g + j - o)
    if inside.any id then
      { q with tags := setBit q.tags g (w.tag && inside.all id), poison := if inside.all id then setBit q.poison g false else q.poison }
    else q) q

/-- The bytes that core h reads at an address: from its quadrant's copy of a software-managed line, else from memory, of a page of another device from its guest frame
(R28, R349, R355). -/
def State.readFor (s : State) (h swz pa n : Nat) : Nat :=
  if s.swLine pa then
    ofBytes ((List.range n).map fun i =>
      let q := s.qline (rankOf h) ((pa + i) / 128)
      if q.here then BitVec.ofNat 8 (bits q.data (8 * ((pa + i) % 128)) 8) else s.mem.byte (pa + i))
  else s.mem.read swz (s.guestPa pa) n

/-- The tag that core h reads of a granule. -/
def State.tagFor (s : State) (h swz pa : Nat) : Bool :=
  if s.swLine pa then
    let q := s.qline (rankOf h) (pa / 128)
    if q.here then bit q.tags (pa / 16 % 8) else s.mem.tagAt (pa / 16)
  else s.mem.tagAt (granuleOf swz (s.guestPa pa))

/-- The lowest byte in a poisoned granule that a read by core h meets. -/
def State.poisonFor (s : State) (h swz pa n : Nat) (mask : BitVec 128) : Option Nat :=
  if s.swLine pa then
    ((List.range n).find? fun i => bit mask i &&
      (let q := s.qline (rankOf h) ((pa + i) / 128)
       if q.here then bit q.poison ((pa + i) / 16 % 8) else s.mem.poisonAt ((pa + i) / 16))).map fun i => pa + i
  else (s.mem.poisoned swz (s.guestPa pa) n mask).map fun a => pa + (a - s.guestPa pa)

/-! ### Watches (R150) -/

/-- A watch fires with a code: a write (code 0) is noted even where the line has been recalled, and a recall only where nothing has happened yet (R152, R348). -/
def Watch.fire (w : Watch) (code : Nat) : Watch := if w.fired = none ∨ code = 0 then { w with fired := some code } else w

/-- Fires the watches of one core on a line. -/
def Core.fire (c : Core) (line code : Nat) : Core := { c with watches := c.watches.map fun w => if w.line = line then w.fire code else w }

/-- Fires every watch on a line. -/
def State.fire (s : State) (line code : Nat) : State :=
  { s with core := s.core.fire line code, cores := s.cores.map fun (k, c) => (k, c.fire line code) }

/-- Fires the watches on a line that the cores of a quadrant hold. -/
def State.fireIn (s : State) (rank line code : Nat) : State :=
  { s with
    core := if rankOf s.cur = rank then s.core.fire line code else s.core
    cores := s.cores.map fun (k, c) => (k, if rankOf k = rank then c.fire line code else c) }

/-- Fires the watches on a software-managed line that stand at its home: those of quadrants without a copy (R353). -/
def State.fireHome (s : State) (line code : Nat) : State :=
  (List.range 16).foldl (fun s r => if (s.qline r line).here then s else s.fireIn r line code) s

/-- Fires the watches of a core on the lines of a frame (R150, R348). -/
def Core.fireFrame (c : Core) (f code : Nat) : Core := { c with watches := c.watches.map fun w => if w.line / 512 = f then w.fire code else w }

/-- Fires the watches of every core on a frame. -/
def State.fireFrame (s : State) (f code : Nat) : State :=
  { s with core := s.core.fireFrame f code, cores := s.cores.map fun (k, c) => (k, c.fireFrame f code) }

/-! ### Multicast entries (R250, R251) -/

/-- The key by which an entry remembers a command of a core: its slot and number. -/
def Cmd.key (c : Cmd) : Nat := c.slot * 2 ^ 16 + c.seq.toNat

/-- A register that a command captured. -/
def Cmd.reg (c : Cmd) (i : Nat) : Wreg := c.regs.getD i .zero

/-- A multicast copy. -/
def CmdOp.isMc : CmdOp → Bool
  | .cpyMc => true
  | _ => false

/-- A reply reaches a member: the line is written into its scratch, tags and poison granule by granule, and its command counts it (R247, R249). -/
def State.mcDeliver (s : State) (line : Nat) (shared : Bool) (m : Nat × Nat × Nat) : State :=
  let (h, key, i) := m
  match (s.coreOf h).tq.findIdx? fun c => decide (c.key = key) && c.op.isMc with
  | none => s
  | some k =>
    match (s.coreOf h).tq[k]? with
    | none => s
    | some c =>
      let dst := c.reg 0
      let s := (List.range 8).foldl (fun s j =>
        let pa := line * 128 + 16 * j
        let tag := capHas (c.reg 1) permLC && capHas dst permSC && s.tagFor h 0 pa
        let x := (capAddr dst).toNat + 128 * i + 16 * j
        let pois := (s.poisonFor h 0 pa 16 (ones 128 16)).isSome || s.deadAgent (s.agentRd pa)
        let s := { s with mem := s.mem.write ⟨x, capSwz dst, 16, BitVec.ofNat 1024 (s.readFor h 0 pa 16), ones 128 16, tag, true⟩ }.fire (lineOf (capSwz dst) x) 0
        if pois then { s with mem := s.mem.setPoison (granuleOf (capSwz dst) x) true } else s) s
      let k' := s.coreOf h
      s.setCore h { k' with tq := listSet k'.tq k { c with got := c.got ++ [(i, if shared then 1 else 0)] } }

/-- The entry holds every core of its mask. -/
def McEntry.complete (e : McEntry) : Bool := (List.range 16).all fun j => !bit e.mask j || e.joined.any fun m => m.1 % 16 = j

/-- The k-th entry closes: the line is read once and replied to every joined core. -/
def State.mcClose (s : State) (k : Nat) : State :=
  match s.mcast[k]? with
  | none => s
  | some e =>
    let rest := if e.complete then listDrop s.mcast k else listSet s.mcast k { e with closed := true }
    e.joined.foldl (fun s m => s.mcDeliver e.line (decide (e.joined.length ≥ 2)) m) { s with mcast := rest }

/-- A write to a line reaches the requests of its slice: the entries that are open on the line close first. -/
def State.mcWritten (s : State) : Nat → Nat → State
  | 0, _ => s
  | n + 1, line =>
    match s.mcast.findIdx? fun e => e.line = line && !e.closed with
    | some k => (s.mcClose k).mcWritten n line
    | none => s

/-! ### Ways, fills and evictions (R353-R355) -/

/-- The slice that keeps the copy of a line for the quadrant of a rank (R345, R355). -/
def copySlice (rank line : Nat) : Nat :=
  64 * (rank / 4) + 16 * Nat.xor (rank % 4) (rank / 2 % 2) + Nat.xor (line % 16) (line / 512 % 16)

/-- The set of a slice that a line belongs to (log 33). -/
def setOf (line : Nat) : Nat := line / 16 % 2048

/-- The way of a slice in which a pinned page of place `p` lies: four pages in each, from way 15 downward (R347). -/
def pinWay (p : Nat) : Nat := 15 - p / 4

/-- The key of the way mask of a tenant in a slice. -/
def wayKey (slice t : Nat) : Nat := slice * 64 + t

/-- The tenant that a core serves, or served last. -/
def State.tenantAt (s : State) (h : Nat) : Nat := ((s.coreOf h).lastTenant).getD (s.ctx h 0).tenant

/-- The operands of a `wmask` (R365): slice, tenant and mask. -/
def Cmd.wmaskArgs (c : Cmd) : Nat × Nat × BitVec 16 :=
  (bits (c.reg 0).bits 0 8, bits (c.reg 0).bits 8 6, BitVec.ofNat 16 (bits (c.reg 1).bits 0 16))

/-- The mask that a tenant's fills in a slice keep to: while a `wmask` removes ways, the ways that are in both the old and the new mask (R354). -/
def State.fillMask (s : State) (n t : Nat) : BitVec 16 :=
  s.requests.foldl (fun m r =>
    if r.1 = 6 ∧ r.2.op = .wmask ∧ r.2.taken = true ∧ r.2.wmaskArgs.1 = n ∧ r.2.wmaskArgs.2.1 = t then m &&& r.2.wmaskArgs.2.2 else m)
    (Tab.get 0xFFFF s.wmk (wayKey n t))

/-- Pinned pages take a way of a slice. -/
def State.wayPinned (s : State) (n w : Nat) : Bool := s.pins.any fun x => match x.2 with | some p => decide (p.slice = n ∧ pinWay p.place = w) | none => false

/-- The ways among which a fill of a tenant in a slice may choose (R353). -/
def State.usableWays (s : State) (n t : Nat) : List Nat := (List.range 16).filter fun w => bit (s.fillMask n t) w && !s.wayPinned n w

/-- A quadrant's copy of a line of a software-managed page is evicted: its dirty bytes go into the home copy, over whatever is there, with the marks that the copy has where
it has written a whole granule (R355). Multicast entries of the line close first (R251). -/
def State.evictCopy (s : State) (rank line : Nat) : State :=
  let q := s.qline rank line
  if q.here then
    if q.dirty = 0 then s.setQline rank line .none
    else
      let s := (((s.mcWritten s.mcast.length line).fireHome line 0)).setQline rank line .none
      let some' (g : Nat) : Bool := (List.range 16).any fun j => bit q.dirty (16 * g + j)
      let whole (g : Nat) : Bool := (List.range 16).all fun j => bit q.dirty (16 * g + j)
      let m := s.mem.write ⟨line * 128, 0, 128, q.data, q.dirty, false, false⟩
      { s with mem := ((List.range 8).filter some').foldl (fun m g =>
          (m.setTag (line * 8 + g) (whole g && bit q.tags g)).setPoison (line * 8 + g) (bit q.poison g || m.poisonAt (line * 8 + g))) m }
  else s

/-- The copies that a slice keeps and that `p` picks by their contents are written back and invalidated: rank and line of each. -/
def State.evictWhere (s : State) (n : Nat) (p : QLine → Bool) : State :=
  (s.qlines.filter fun e => decide (copySlice (e.1 % 16) (e.1 / 16) = n) && p e.2).foldl (fun s e => s.evictCopy (e.1 % 16) (e.1 / 16)) s

/-- Fills the copy of a line of core h's quadrant from the home, where it has none: into a way that is free, else in place of a copy that its set holds, among the ways that
the core's tenant may use. Which of them is free, and so is which of several free ways. Where it has none, or only copies that cannot go, the line stays uncached (R353, R355). -/
def State.fillCopy (s : State) (h line : Nat) : State :=
  let r := rankOf h
  if (s.qline r line).here then s
  else
    let n := copySlice r line
    let t := s.tenantAt h
    let inSet := s.qlines.filter fun e => decide (e.1 % 16 = r ∧ copySlice r (e.1 / 16) = n ∧ setOf (e.1 / 16) = setOf line)
    let ways := s.usableWays n t
    let free := ways.filter fun w => !inSet.any fun e => e.2.way = w
    let old := inSet.filter fun e => ways.contains e.2.way && s.lineOpen 0 (e.1 / 16 * 128)
    let pick := (Config.freeWord s.freeN).toNat
    let g8 (f : Nat → Bool) : BitVec 8 := BitVec.ofNat 8 ((List.range 8).foldl (fun a i => a + (f (line * 8 + i)).toNat * 2 ^ i) 0)
    let put (s : State) (w : Nat) : State :=
      { s.setQline r line ⟨BitVec.ofNat 1024 (s.mem.read 0 (line * 128) 128), 0, g8 s.mem.tagAt, g8 s.mem.poisonAt, true, t, w⟩ with freeN := s.freeN + 1 }
    match free[pick % free.length]?, old[pick % old.length]? with
    | some w, _ => put s w
    | none, some e => put (s.evictCopy r (e.1 / 16)) e.2.way
    | none, none => s

/-- A read by core h fills its quadrant's copies of the lines it touches (R355). -/
def State.touchFor (s : State) (h pa n : Nat) : State :=
  if s.swLine pa ∧ n ≠ 0 then
    (List.range ((pa + n - 1) / 128 - pa / 128 + 1)).foldl (fun s i => s.fillCopy h (pa / 128 + i)) s
  else s

/-- Applies a write made by core h where its bytes are held, and fires the watches on its line: of a software-managed line, those of the quadrant, or, where no copy is kept,
those at the home (R28, R150, R353, R355). -/
def State.applyWrite (s : State) (h : Nat) (w : WriteOp) : State :=
  if s.swLine w.pa then
    let s := s.fillCopy h (w.pa / 128)
    let q := s.qline (rankOf h) (w.pa / 128)
    if q.here then (s.setQline (rankOf h) (w.pa / 128) (q.write w)).fireIn (rankOf h) (lineOf w.swz w.pa) 0
    else { s with mem := s.mem.write w }.fireHome (w.pa / 128) 0
  else { s with mem := s.mem.write { w with pa := s.guestPa w.pa } }.fire (lineOf w.swz w.pa) 0

/-- Poisons a granule where core h's accesses find it (R247). -/
def State.poisonAt (s : State) (h swz pa : Nat) : State :=
  if s.swLine pa then
    let s := s.fillCopy h (pa / 128)
    let q := s.qline (rankOf h) (pa / 128)
    if q.here then s.setQline (rankOf h) (pa / 128) { q with poison := setBit q.poison (pa / 16 % 8) true }
    else { s with mem := s.mem.setPoison (pa / 16) true }
  else { s with mem := s.mem.setPoison (granuleOf swz (s.guestPa pa)) true }

/-! ### Pages of other devices (R349) -/

/-- Guest frames that are free: GUESTB names them, and none holds a page (R349, R360). -/
def State.freeGuests (s : State) : List Nat :=
  (List.range (bits s.guestb 43 20)).filterMap fun i =>
    let g := s.dev * 2 ^ 27 + bits s.guestb 16 27 + i
    if s.guests.any (fun x => x.2 = some g) then none else some g

/-- The page of another device gets a guest frame, into which its data are copied, and a state, where it has a guest frame or one is free; which one is free (R349). -/
def State.seatGuest (s : State) (f : Nat) (st : PageDir) : Option State :=
  if (Tab.get none s.guests f).isSome then some { s with pageDir := Tab.set .home s.pageDir f st }
  else match s.freeGuests with
    | [] => none
    | l =>
      let g := l.getD ((Config.freeWord s.freeN).toNat % l.length) 0
      some { s with
        mem := s.mem.copyBlock (f * 65536) 65536 (g * 65536)
        pageDir := Tab.set .home s.pageDir f st, guests := Tab.set none s.guests f (some g), freeN := s.freeN + 1 }

/-- A page that may be away from its home: of device memory, its policy cached, and not software-managed (R349). -/
def State.pageRoams (s : State) (f : Nat) : Bool :=
  decide (Tab.get 0 s.policy f = 1 ∧ regionOf (f * 65536) = .dram ∧ Tab.get 0 s.swm f = 0)

/-- What an access of this device does to the page of an address before it is served (R349). A write takes an own page home, and takes a page of another device held,
or, without a guest frame, has it applied where it is; a read takes a read copy where a sharer slot and a guest frame are free. A read copy that is dropped fires the
watches on it. -/
def State.takePage (s : State) (pa : Nat) (write : Bool) : State :=
  let f := frameOf pa
  let d := Tab.get .home s.pageDir f
  if devOf pa = s.dev then (if write ∧ d ≠ .home then { s with pageDir := Tab.set .home s.pageDir f .home } else s)
  else if !s.pageRoams f ∨ d = .held s.dev ∨ s.leaving.contains f ∨ Tab.get false s.mdl.ddead (devOf pa) then s
  else match d, write with
    | .held _, true => (s.seatGuest f (.held s.dev)).getD s
    | .held _, false => s
    | .shared l, true =>
      let t := if l.contains s.dev then s.fireFrame f 2 else s
      (t.seatGuest f (.held s.dev)).getD { t with pageDir := Tab.set .home s.pageDir f .home, guests := Tab.set none s.guests f none }
    | .home, true => (s.seatGuest f (.held s.dev)).getD s
    | .shared l, false => if l.contains s.dev ∨ l.length ≥ 4 then s else (s.seatGuest f (.shared (l ++ [s.dev]))).getD s
    | .home, false => (s.seatGuest f (.shared [s.dev])).getD s

/-- An engine's write of a line that it has taken: open multicast entries of the line close, the page is taken, and the write is applied (R250, R349). One to a device that is
dead is lost (R358). -/
def State.ownWrite (s : State) (h : Nat) (w : WriteOp) : State :=
  let s := (s.mcWritten s.mcast.length (lineOf w.swz w.pa)).takePage w.pa true
  if s.deadAgent (s.agentOf w.pa) then s else s.applyWrite h w

/-- Poisons a granule that an engine has just written, where its write was not lost (R247, R358). -/
def State.ownPoison (s : State) (h swz pa : Nat) : State := if s.deadAgent (s.agentOf pa) then s else s.poisonAt h swz pa

/-- The home is clearing the policy tag of the frame of an address, whose accesses it has queued (R363). -/
def State.clearing (s : State) (pa : Nat) : Bool :=
  decide (devOf pa = s.dev) && s.blocked.any fun b => decide (b.frame = frameOf (localOf pa)) && (match b.cmd with | some c => decide (c.op = .pmigClr) | none => false)

/-! ### The directory of a slice (R348) -/

/-- An agent of the device holds a line: an engine in E or M, or an armed watch in S. -/
def State.isHeld (s : State) (line : Nat) : Bool :=
  s.isOwned line || s.core.watches.any (fun w => w.line = line && w.fired.isNone)
    || s.cores.any fun (_, c) => c.watches.any fun w => w.line = line && w.fired.isNone

/-- An agent takes a line of device memory: its directory entry is the one used last. A slice that has 16,384 entries evicts the one used least recently among
those that no engine holds, and the watches on it fire with code 2. Entries that no agent holds any more are gone first. -/
def State.dirUse (s : State) (line : Nat) : State :=
  if regionOf (line * 128) ≠ .dram || s.swLine (line * 128) then s
  else
    let n := s.homeSlice (s.guestPa (line * 128))
    let l := (Tab.get [] s.dirs n).filter (· ≠ line) ++ [line]
    if l.length ≤ 16384 then { s with dirs := Tab.set [] s.dirs n l }
    else
      let m := l.filter fun x => x = line || s.isHeld x
      match if m.length ≤ 16384 then none else m.find? fun x => !s.isOwned x with
      | none => { s with dirs := Tab.set [] s.dirs n m }
      | some x => { s with dirs := Tab.set [] s.dirs n (m.filter (· ≠ x)) }.fire x 2

/-! ### Policy tags and pins (R45, R347) -/

/-- Number of pages pinned in a slice. -/
def State.pinCount (s : State) (n : Nat) : Nat := (s.pins.filter fun (_, v) => match v with | some x => x.slice = n | none => false).length

/-- The lowest free place of a slice for a pinned page; way 15 holds places 0 to 3, and so on downward. -/
def State.pinPlace (s : State) (n : Nat) : Nat :=
  ((List.range 32).find? fun i => !s.pins.any fun (_, v) => match v with | some x => decide (x.slice = n ∧ x.place = i) | none => false).getD 0

/-- Pins a frame of the own device for a tenant in a slice: the copies that stand in the way it takes are evicted (R347, R353). -/
def State.pin (s : State) (f t n : Nat) : State :=
  let p := s.pinPlace n
  let s := s.evictWhere n fun q => q.way = pinWay p
  { s with pins := Tab.set none s.pins f (some ⟨n, t, p⟩) }

/-- An access with a policy claims the frame's tag: the first sets it and pins the page where the policy says so; another policy conflicts.
A page of another device is pinned there, and takes no way here. The cause of the fault, or the state after the access. -/
def State.claim (s : State) (t pa : Nat) (pol : Fin 4) (home : Nat) : Except Nat State :=
  let f := frameOf pa
  let tag := Tab.get 0 s.policy f
  if tag = 0 then
    if pol = 2 ∧ devOf pa = s.dev then
      if s.pinCount home ≥ 32 then .error 0x09
      else .ok (({ s with policy := Tab.set 0 s.policy f 3 } : State).pin (frameOf (localOf pa)) t home)
    else .ok { s with policy := Tab.set 0 s.policy f (pol.val + 1) }
  else if tag = pol.val + 1 then .ok s
  else .error 0x0A

/-- An access that was issued before its frame's tag was cleared reaches its home after: it sets the tag again, from the mapping that it was issued under, and pins the page in
its home where that policy pins (R45, R363). -/
def State.reclaim (s : State) (t pa : Nat) (g : Agent) : State :=
  let f := frameOf pa
  let old := Tab.get 0 s.oldTag f
  if Tab.get 0 s.policy f ≠ 0 ∨ old = 0 then s
  else
    let s := { s with policy := Tab.set 0 s.policy f old }
    match g with
    | .slice n => if old = 3 ∧ devOf pa = s.dev ∧ s.pinCount n < 32 then s.pin (frameOf (localOf pa)) t n else s
    | _ => s

/-! ### Translation (R341-R344) -/

/-- An entry of the translation table as a walk reads it, or the cause of the fault (R343). `lvl` is the level. -/
def leafOk (e lvl : Nat) : Bool :=
  let pol := e / 64 % 4
  let home := e / 256 % 256
  let pa := e / 65536 % 2 ^ 40 * 65536
  let size := match lvl with | 2 => 30 | 3 => 21 | _ => 16
  decide (e / 32 % 2 = 0 ∧ e / 2 ^ 56 = 0) && decide (pol = 2 ∨ home = 0) && decide (2 ≤ lvl)
    && decide (pa % 2 ^ size = 0) && decide (pol < 2 ∨ lvl = 4)
    && (match regionOf pa with
        | .dram => decide (pol ≠ 3)
        | .scratch _ => decide (pol = 3)
        | .config => decide (pol = 1)
        | _ => false)

/-- The bits of the virtual address that a level indexes: shift and width (R341). -/
def levelShift : Nat → Nat × Nat
  | 0 => (48, 9)
  | 1 => (39, 9)
  | 2 => (30, 9)
  | 3 => (21, 9)
  | _ => (16, 5)

/-- Where a walk may read a table: memory of a device. A reserved range, the register-fabric window and configuration space are protected (R22, R343), and so are frames
without backing and devices without a route (R398, R409). -/
def tableOk (pa : Nat) : Bool :=
  match regionOf pa with
  | .dram | .scratch _ => true
  | _ => false

/-- A physical address that an access can reach (R22): it lies in no reserved range and not in the register-fabric window, its device has a route (R409), and its frame is
backed (R398). -/
def State.reaches (s : State) (pa : Nat) : Bool :=
  (match regionOf pa with | .hole | .fabric => false | _ => true)
    && !(decide (devOf pa ≠ s.dev) && decide (Tab.get 0 s.mdl.rtab (devOf pa) &&& 0x80808080#64 = 0)) && !s.fast.unbacked.contains (frameOf pa)

/-- The place of a table entry gives poison to a walk that reads it: its granule is poisoned, or stands in a dead device (R140, R358, log 99). -/
def State.walkPoison (s : State) (h a : Nat) : Bool := (s.poisonFor h 0 a 8 (ones 128 8)).isSome || s.deadAgent (s.agentRd a)

/-- Walks the table from level `lvl` with `fuel` levels left (R343). -/
def State.walkFrom (s : State) (h t va : Nat) : Nat → Nat → Nat → Except Nat TlbEntry
  | 0, _, _ => .error 0x09
  | fuel + 1, lvl, table =>
    let (sh, w) := levelShift lvl
    let a := table + 8 * (va / 2 ^ sh % 2 ^ w)
    let e := s.readFor h 0 a 8
    if !tableOk a || !s.reaches a then .error 0x09
    else if s.walkPoison h a then .error 0x0C
    else if e % 2 = 0 then .error 0x08
    else if e / 2 % 2 = 0 then
      if lvl ≥ 4 ∨ e / 4 % 64 ≠ 0 ∨ e / 2 ^ 56 ≠ 0 then .error 0x09
      else s.walkFrom h t va fuel (lvl + 1) (e / 256 % 2 ^ 48 * 256)
    else if leafOk e lvl then
      .ok ⟨t, va / 2 ^ sh * 2 ^ sh, sh, e / 65536 % 2 ^ 40 * 65536, bit (BitVec.ofNat 64 e) 2, bit (BitVec.ofNat 64 e) 3,
        bit (BitVec.ofNat 64 e) 4, ⟨e / 64 % 4, Nat.mod_lt _ (by decide)⟩, e / 256 % 256⟩
    else .error 0x09

/-- A whole walk for a tenant's virtual address: a TLB entry, or the cause of the fault (R343, R360). -/
def State.walk (s : State) (h t va : Nat) : Except Nat TlbEntry :=
  let r := (s.tenantOf t).troot
  if bit r 0 then s.walkFrom h t va 5 0 (bits r 12 44 * 4096) else .error 0x08

/-- The addresses of the entries that a walk reads. -/
def State.walkReads (s : State) (h va : Nat) : Nat → Nat → Nat → List Nat
  | 0, _, _ => []
  | fuel + 1, lvl, table =>
    let (sh, w) := levelShift lvl
    let a := table + 8 * (va / 2 ^ sh % 2 ^ w)
    let e := s.readFor h 0 a 8
    a :: (if tableOk a && s.reaches a && decide (e % 4 = 1) then s.walkReads h va fuel (lvl + 1) (e / 256 % 2 ^ 48 * 256) else [])

/-- Joins the pending walk of a tenant's page on a die, or asks for one (R343). -/
def State.askWalk (s : State) (h t page : Nat) : State :=
  if s.walks.contains (h / 512, t, page) then s else { s with walks := s.walks ++ [(h / 512, t, page)] }

/-- The walk is one of the 256 that the die's walkers make; the others wait in order of arrival (R343). -/
def State.walkRuns (s : State) (die t page : Nat) : Bool := ((s.walks.filter fun w => w.1 = die).take 256).contains (die, t, page)

/-- An entry holds the translation of an address. -/
def TlbEntry.hits (e : TlbEntry) (t va : Nat) : Bool := decide (e.tenant = t ∧ va / 2 ^ e.bits * 2 ^ e.bits = e.va)

/-- A translation enters the TLBs of a core, of 64 entries, and of its cluster, of 2,048 (R343); a full one loses its oldest. -/
def State.addTlb (s : State) (h : Nat) (e : TlbEntry) : State :=
  let c := s.coreOf h
  let s := s.setCore h { c with tlb := e :: c.tlb.take 63 }
  { s with ctlb := Tab.set [] s.ctlb (h / 16) (e :: (Tab.get [] s.ctlb (h / 16)).take 2047) }

/-- The TLB entry for an address, from the core's TLB or its cluster's (R343). -/
def State.tlbFind (s : State) (h t va : Nat) : Option TlbEntry :=
  match (s.coreOf h).tlb.find? (·.hits t va) with
  | some e => some e
  | none => (Tab.get [] s.ctlb (h / 16)).find? (·.hits t va)

/-- What an access needs of its page (R342). -/
inductive Use where
  | rd | wr | ex
deriving DecidableEq, Repr

/-- A place in physical memory that an address has been translated to: the swizzle code, and for a mapped page its policy and home. -/
structure Place where
  pa   : Nat
  swz  : Nat
  map  : Option (Fin 4 × Nat)
deriving DecidableEq, Repr

/-- How a translation ends without a place. -/
inductive NoPlace where
  | fault (code : Nat)
  /-- a walk must come first -/
  | miss
deriving DecidableEq, Repr

/-- Translates an address of a capability for a tenant on core h (R139, R96, R22): kind 4 names scratch of the own device; kind 0 goes through
the TLBs, and misses where its tenant's translation is not enabled (R360). Only configuration space is left to the caller. -/
def State.translate (s : State) (h t : Nat) (c : Wreg) (x : Nat) (use : Use) : Except NoPlace Place :=
  if capKind c = 4 then
    if devOf x ≠ s.dev ∨ x ≥ 2 ^ 56 then .error (.fault 0x09)
    else match regionOf x with
      | .scratch _ => .ok ⟨x, capSwz c, none⟩
      | _ => .error (.fault 0x09)
  else match if bit (s.tenantOf t).troot 0 then s.tlbFind h t x else none with
    | none => .error .miss
    | some e =>
      let ok := match use with | .rd => e.rd | .wr => e.wr | .ex => e.ex
      let pa := e.pa + x % 2 ^ e.bits
      if ok && s.reaches pa then .ok ⟨pa, 0, some (e.pol, e.home)⟩ else .error (.fault 0x09)

end Sys2Proof.Machine
end

