-- ==== Sys2Proof/Machine/Operands.lean ====
section
/-! DEFINITION. The operand forms: constants of K forms (R58), effective addresses and their checks (R139, R140, R63), loads (R26, R27) and entries of the store queue (R27, R141). -/

namespace Sys2Proof.Machine

/-! ### What holds an access back -/

/-- Later loads and atomics wait behind a `fence.ar` that is not yet satisfied (R32). -/
def Ctx.arHeld (c : Ctx) : Bool := c.sq.any fun e => match e with | .fence _ ar => ar | _ => false

/-- Entries of the store queue that take one of its 16 places (R141). -/
def Ctx.sqCount (c : Ctx) : Nat :=
  (c.sq.filter fun e => match e with | .store .. | .amo .. | .cfg .. | .fullBits .. => true | _ => false).length

/-- A store finds room in the store queue, or parks (R141). -/
def sqRoom (s : State) : Except Stop Unit := if s.cpu.sqCount ≥ 16 then .error (.park .sqRoom) else .ok ()

/-- The bytes that a packet is for: address, swizzle code, length. -/
def PacketOp.range : PacketOp → Option (Nat × Nat × Nat)
  | .write w | .stfeWait w => some (w.pa, w.swz, w.n)
  | .read r => some (r.pa, r.swz, r.n)
  | .amo _ pa swz n _ _ | .fullBits pa swz n _ => some (pa, swz, n)
  | .cfgWrite .. | .cfgRead _ | .probe => none

/-- The banks of a core's scratch, or the lines of a slice, that bytes lie in: an agent keeps the order of requests to one of these (R23, R29). -/
def Agent.spots (g : Agent) (pa swz n : Nat) : List Nat :=
  match g with
  | .bank _ => (granules swz pa n).map (· % 32)
  | _ => (granules swz pa n).map (· / 8)

/-- A packet that an access of bytes at an agent may not overtake once both are in order: it is for the same bank, for the same line wherever that is applied
(R28, R350), or for the same register block of configuration space (R156). One that waits for a full or empty bit lets others pass. -/
def Packet.bars (p : Packet) (g : Agent) (pa swz n : Nat) : Bool :=
  !p.waiting &&
    (match p.op.range with
     | some (a, z, m) => (match g with | .bank _ | .config _ => decide (p.dest = g) | _ => true) && (g.spots a z m).any fun x => (g.spots pa swz n).contains x
     | none => (match g with | .config _ => decide (p.dest = g) | _ => false))

/-- A packet has passed an ordering point that an access of core h to an agent made now has still to pass: the outbound port, the cluster's ring stop, an egress, or
the agent's queue (R24); an access of the own banks passes only the last. -/
def Packet.past (q : Packet) (h : Nat) (g : Agent) : Bool :=
  decide (q.h = h) || decide (q.stage = .agent)
    || (decide (g ≠ .bank h) && ((decide (q.h / 16 = h / 16) && decide (q.stage ≠ .port)) || decide (q.stage = .egress)))

/-- No packet that an access of core h to bytes of an agent would overtake is still on its way (R12, R24, R29). -/
def State.orderClear (s : State) (h : Nat) (g : Agent) (p : Place) (n : Nat) : Bool :=
  s.net.all fun q => !(q.bars g p.pa p.swz n && q.past h g)

/-- What a full/empty access waits for holds now: every granule full for a consuming load, the granule empty for `stfe.wait` (R145). -/
def State.bitsReady (s : State) (op : PacketOp) : Bool :=
  match op with
  | .read r => (granules r.swz r.pa r.n).all s.mem.fullAt
  | .stfeWait w => !s.mem.fullAt (granuleOf w.swz w.pa)
  | _ => true

/-- A waiter that reached the bank queue of a granule before number `at`, and that its full or empty bit no longer keeps: it is served first (R145, R156). -/
def State.waiterAhead (s : State) (g : Agent) (pa swz n before : Nat) : Bool :=
  s.net.any fun q => q.waiting && decide (q.dest = g ∧ q.egrAt < before) && s.bitsReady q.op &&
    match q.op.range with
    | some (a, z, m) => (granules z a m).any fun x => (granules swz pa n).contains x
    | none => false

/-- A place can be accessed at this moment (R38, R350, R357). -/
def State.open (s : State) (p : Place) : Bool := s.lineOpen p.swz p.pa

/-! ### Addresses -/

/-- EINFO of a fault of a translation: the address, or the granule's where the walk met poison (R110, log 99). -/
def faultAt (code : Nat) (x : Nat) : Nat := if code = 0x0C then x / 16 * 16 else x

/-- The place of an address of the context looked at (R139): translation faults name the operand and the address; a walk may come first, and a
load passes issue meanwhile. -/
def place (s : State) (c : Wreg) (opnd : Nat) (x : Word) (use : Use) (pass : Bool) : Except Stop Place :=
  match s.translate s.cur s.cpu.tenant c x.toNat use with
  | .ok p => .ok p
  | .error (.fault code) => trap code opnd (BitVec.ofNat 64 (faultAt code x.toNat))
  | .error .miss =>
    match s.cpu.walkFault with
    | some (pg, code) => if pg = x.toNat / 65536 then trap code opnd (BitVec.ofNat 64 (faultAt code x.toNat)) else .error (.walk x.toNat pass)
    | none => .error (.walk x.toNat pass)

/-- Claims the frame's policy tag for an access at a place (R45, R347). While the tag is being cleared, an access under another policy waits (R363). -/
def claimAt (s : State) (p : Place) (opnd : Nat) (x : Word) : Except Stop State :=
  match p.map with
  | none => .ok s
  | some (pol, home) =>
    if regionOf p.pa = .config then .ok s
    else match s.claim s.cpu.tenant p.pa pol home with
      | .ok t => .ok t
      | .error code => if s.clearing p.pa then .error .stall else trap code opnd x

/-- An instruction that passes issue parks where another stays: on the clearing of the policy tag of a frame (R103, R363). -/
def parkClearing {α : Type} (pass : Bool) (p : Place) (r : Except Stop α) : Except Stop α :=
  match r with
  | .error .stall => .error (if pass then .park (.clearing (frameOf (localOf p.pa))) else .stall)
  | r => r

/-- The checks of R139 on an access of n bytes at the displaced address of a capability, up to the policy tag. Configuration space is
reached only by an 8-byte access of a privileged context through an instruction that may (`cfg`). -/
def access (s : State) (c : Wreg) (opnd : Nat) (ea : Word) (n align perm : Nat) (use : Use) (cfg pass : Bool) : Except Stop (Place × State) := do
  checkCap c opnd ea perm
  checkRange c opnd ea n align
  let p ← place s c opnd ea use pass
  need (decide (regionOf p.pa ≠ .config) || (cfg && s.cpu.prv && decide (n = 8))) 0x09 opnd ea
  let t ← parkClearing pass p (claimAt s p opnd ea)
  .ok (p, t)

/-- A store may not write a page that a live field owns (R140). -/
def notOwned (s : State) (p : Place) (opnd : Nat) (ea : Word) : Except Stop Unit :=
  need (!(decide (devOf p.pa = s.dev) && s.fieldOwned (frameOf p.pa))) 0x0B opnd ea

/-- The address that a capability register and a displacement give (R139). -/
def displaced (c : Wreg) (disp : Word) : Word := capAddr c + disp

/-! ### Forwarding from the store queue (R27) -/

/-- The newest queued value of the byte that stands at a place, if the queue holds one. -/
def Ctx.queued (c : Ctx) (a : Nat) : Option (BitVec 8) :=
  c.sq.foldl (fun r e =>
    match e with
    | .store parts => parts.foldl (fun r (_, w) =>
      match (List.range w.n).find? fun i => bit w.mask i && decide (locate w.swz (w.pa + i) = a) with
      | some i => some (BitVec.ofNat 8 (bits w.data (8 * i) 8))
      | none => r) r
    | _ => r) none

/-- The newest queued tag of a granule, if a queued store touches it. -/
def Ctx.queuedTag (c : Ctx) (g : Nat) : Option Bool :=
  c.sq.foldl (fun r e =>
    match e with
    | .store parts => parts.foldl (fun r (_, w) =>
      if (List.range w.n).any fun i => bit w.mask i && decide (granuleOf w.swz (w.pa + i) = g) then some w.tag else r) r
    | _ => r) none

/-- The bytes of a read that the store queue forwards, and their mask. -/
def Ctx.forward (c : Ctx) (r : ReadOp) : BitVec 1024 × BitVec 128 :=
  if c.sq.isEmpty then (0, 0)
  else (List.range r.n).foldl (fun (x : BitVec 1024 × BitVec 128) i =>
    match if bit r.mask i then c.queued (locate r.swz (r.pa + i)) else none with
    | some b => (setBits x.1 (8 * (r.off + i)) 8 b.toNat, setBit x.2 (r.off + i) true)
    | none => x) (0, 0)

/-- The bytes of `y` where the mask has a bit, else those of `x`. -/
def blend (x y : BitVec 1024) (mask : BitVec 128) : BitVec 1024 :=
  if mask = 0 then x
  else (List.range 128).foldl (fun z i => if bit mask i then setBits z (8 * i) 8 (bits y (8 * i) 8) else z) x

/-- Bytes i of a read that the mask leaves to memory. -/
def maskFrom (m : BitVec 128) (off : Nat) : BitVec 128 := m >>> off

/-! ### Constants (R58) -/

/-- The read of 8 bytes of a constant. -/
def constRead (pa swz : Nat) : ReadOp := ⟨pa, swz, 8, ones 128 8, 0, .plain⟩

/-- The 8-byte value of a K form, read as a load of the context, and the state after the read (R58, R117). From the own scratch it comes at once; any other read is a
remote reference, after which the instruction issues again with its value (R26, R103). -/
def konst (s : State) (k : KRef) : Except Stop (Word × State) :=
  match s.cpu.kv with
  | some x => .ok (x, s)
  | none => do
    let c := s.cpu.cw[k.win]
    let ea := displaced c (BitVec.ofNat 64 (8 * k.off.val))
    checkCap c 3 ea permL
    checkRange c 3 ea 8 8
    if s.cpu.arHeld then .error (.park (.queue .fence))
    let p ← place s c 3 ea .rd true
    need (decide (regionOf p.pa ≠ .config)) 0x09 3 ea
    let t ← parkClearing true p (claimAt s p 3 ea)
    if t.agentRd p.pa = .bank t.cur ∧ t.orderClear t.cur (.bank t.cur) p 8 ∧ t.open p then do
      let (f, m) := t.cpu.forward (constRead p.pa p.swz)
      need (t.poisonFor t.cur p.swz p.pa 8 (ones 128 8 &&& ~~~m)).isNone 0x0C 3 (BitVec.ofNat 64 (ea.toNat / 16 * 16))
      .ok ((blend (BitVec.ofNat 1024 (t.readFor t.cur p.swz p.pa 8)) f m).setWidth 64, t)
    else .error (.read p.pa p.swz p.map ea.toNat)

/-- The checks of a capability that a constant completes which come before the constant is read (R63). A fault of theirs reports the address that the constant gives, `off` bytes
on (R110, R193), or, where the constant cannot be read, the capability's (log 83). -/
def checkBefore (s : State) (c : Wreg) (k : KRef) (opnd perm off : Nat) : Except Stop Unit :=
  match checkCap c opnd (capAddr c) perm with
  | .ok _ => .ok ()
  | .error e =>
    match konst s k with
    | .ok (j, _) => checkCap c opnd (displaced c j + BitVec.ofNat 64 off) perm
    | .error (.trap _) => .error e
    | .error w => .error w

/-- The b operand of an instruction whose K form shares its row: the register, or the constant; with the registers it uses. -/
def bUses : BOp → List Nat
  | .reg b => [b.val]
  | .konst _ => []

/-- Number of words of an instruction with such an operand. -/
def bLen : BOp → Nat
  | .reg _ => 1
  | .konst _ => 2

/-! ### Loads (R26, R27, R142-R145) -/

/-- Writes a returned value to its register (R142-R145, R193). -/
def Ctx.writeBack (c : Ctx) (b : Back) (x : BitVec 1024) (tag : Bool) : Ctx :=
  match b with
  | .word d n sx => c.writeW d (.plain (if sx then sext (8 * n) (bits x 0 (8 * n)) else BitVec.ofNat 64 (bits x 0 (8 * n))))
  | .granule d lc => c.writeW d ⟨x.setWidth 128, tag && lc⟩
  | .pair d => (c.writeW d ⟨x.setWidth 128, false⟩).writeW (d + 1) ⟨(x >>> 128).setWidth 128, false⟩
  | .vec d mask =>
    let old := match c.boundV d.val with | none => (c.v[d.val]?).getD 0 | some _ => 0
    c.writeV d (blend old x mask)
  | .bcast d n mask =>
    let old := match c.boundV d.val with | none => (c.v[d.val]?).getD 0 | some _ => 0
    let e := bits x 0 (8 * n)
    c.writeV d (blend old (BitVec.ofNat 1024 ((List.range (128 / n)).foldl (fun a i => a + e * 2 ^ (8 * n * i)) 0)) mask)
  | .konst => { c with kv := some (x.setWidth 64) }
  | .none => c

/-- The destination register of a returned value is not used for a tagged value without G that a stream would take (R266). -/
def Back.appendOk (b : Back) (s : State) (x : BitVec 1024) (tag : Bool) : Bool :=
  match b with
  | .granule d lc =>
    match mayAppend s d ⟨x.setWidth 128, tag && lc⟩ with
    | .ok _ => true
    | .error _ => false
  | _ => true

/-- Completes a load with its value: poison takes the trap 0x0C at the load, otherwise the register is written and the context moves
on; with a constant its instruction issues again. EINFO is the granule's address, or for a vector load the lowest byte accessed in it (R110, R193). -/
def State.deliver (s : State) (b : Back) (words : Nat) (uses : List Nat) (ea : Nat) (x : BitVec 1024) (tag : Bool) (poison : Option Nat) : State :=
  match poison with
  | some off =>
    let a := match b with | .vec .. | .bcast .. => ea + off | _ => (ea + off) / 16 * 16
    s.takeTrap ⟨0x0C, match b with | .konst => 3 | _ => 2, BitVec.ofNat 64 a, false, false⟩
  | none =>
    if b = .konst then s.onCpu fun c => c.writeBack b x tag
    else if b.appendOk s x tag then s.onCpu fun c => ((c.popAll uses).writeBack b x tag).advance words
    else s.takeTrap ⟨0x05, 1, BitVec.ofNat 64 (bits x 0 64), false, false⟩

/-- The lowest byte of a read under a mask. -/
def ReadOp.lowest (r : ReadOp) (m : BitVec 128) : Nat := ((List.range r.n).find? fun i => bit m i).getD 0

/-- The offset of the lowest byte that a read accesses in the granule of its byte i, forwarded bytes among them (R193). -/
def ReadOp.inGranule (r : ReadOp) (i : Nat) : Nat :=
  r.off + (((List.range r.n).find? fun j => bit r.mask j && decide (granuleOf r.swz (r.pa + j) = granuleOf r.swz (r.pa + i))).getD i)

/-- The bytes that a read takes from memory, where the store queue forwards the others. -/
def ReadOp.own (r : ReadOp) (fwdMask : BitVec 128) : BitVec 128 := r.mask &&& ~~~(maskFrom fwdMask r.off)

/-- The offset at which a read finds its value lost: in the first granule that it takes bytes of. -/
def ReadOp.lost (r : ReadOp) (fwdMask : BitVec 128) : Option Nat := if r.own fwdMask = 0 then none else some (r.inGranule (r.lowest (r.own fwdMask)))

/-- Reads at an agent on behalf of core h: the bytes at their offset, the tag of the first granule, and the offset of the lowest byte accessed in the first granule that is
poisoned, or stands in a dead device (R140, R193, R358). -/
def State.serve (s : State) (h : Nat) (r : ReadOp) (fwdMask : BitVec 128) : BitVec 1024 × Bool × Option Nat :=
  let pois := match s.poisonFor h r.swz r.pa r.n (r.own fwdMask) with
    | some a => some (r.inGranule (a - r.pa))
    | none => if s.deadAgent (s.agentRd r.pa) then r.lost fwdMask else none
  (BitVec.ofNat 1024 (s.readFor h r.swz r.pa r.n * 2 ^ (8 * r.off)), s.tagFor h r.swz r.pa, pois)

/-- The lower of two offsets, where there are any. -/
def lowerOf (x y : Option Nat) : Option Nat :=
  match x, y with
  | some a, some b => some (Nat.min a b)
  | some a, none => some a
  | none, y => y

/-- The answer to one read or atomic of a load is on its way back to the context that waits (R26, R193). -/
def State.answerLoad (s : State) (p : Packet) (x : BitVec 1024) (tag : Bool) (pois : Option Nat) : State :=
  let c := s.ctx p.h p.slot
  match c.pend with
  | some l => s.setCtx p.h p.slot { c with pend := some { l with left := l.left - 1, acc := l.acc ||| x, tag := tag, poison := lowerOf l.poison pois } }
  | none => s

/-- The forwarded bytes of the load that a packet serves (R27). -/
def State.forwarded (s : State) (p : Packet) : BitVec 128 :=
  match (s.ctx p.h p.slot).pend with
  | some l => l.fwdMask
  | none => 0

/-- The next packet of the context looked at. -/
def State.packet (s : State) (dest : Agent) (op : PacketOp) : Packet :=
  ⟨s.packetN, s.cur, s.slot, s.cpu.tenant, dest, op, .port, 0, 0, false⟩

/-- Sends a packet through the core's outbound port (R27). -/
def State.send (s : State) (p : Packet) : State := { s with net := s.net ++ [p], packetN := s.packetN + 1 }

/-- Every granule of a full/empty read is full (R102). -/
def State.allFull (s : State) (r : ReadOp) : Bool := (granules r.swz r.pa r.n).all s.mem.fullAt

/-- Clears the full bits that a consuming load has read (R102, R145). -/
def State.consume (s : State) (r : ReadOp) : State :=
  match r.kind with
  | .consume true => { s with mem := (granules r.swz r.pa r.n).foldl (fun m g => m.setFull g false) s.mem }
  | _ => s

/-- The context is halted by a stop. -/
def Ctx.stopHalted (c : Ctx) : Bool :=
  match c.run with
  | .halted .stop _ => true
  | _ => false

/-- Arms a watch of a context on a line, or marks that none was free; a watch that stands on the line already keeps what it has seen (R150). A stop has released every watch of a
context that it has halted, and a `mon` served after that arms none (R153). -/
def State.arm (s : State) (h slot line : Nat) : State :=
  let c := s.coreOf h
  if (s.ctx h slot).stopHalted then s
  else if c.watches.any (fun w => w.slot = slot && w.line = line) then s.dirUse line
  else if c.watches.length ≥ 8 then s.setCtx h slot { s.ctx h slot with failedMon := true }
  else (s.setCore h { c with watches := c.watches ++ [⟨slot, line, none⟩] }).dirUse line

/-- The bytes that the store queue forwards to several reads, and their mask (R27). -/
def Ctx.forwardAll (c : Ctx) (l : List ReadOp) : BitVec 1024 × BitVec 128 :=
  l.foldl (fun x q => (x.1 ||| (c.forward q).1, x.2 ||| (c.forward q).2)) (0, 0)

/-- Sends a read. One of the own core's scratch goes to its bank queue, where it waits where its granules are not full; any other leaves through the outbound port (R26). -/
def State.sendRead (s : State) (r : ReadOp) : State :=
  let g := s.agentRd r.pa
  let p := s.packet g (.read r)
  if g = .bank s.cur then s.send { p with stage := .agent, egrAt := s.packetN, waiting := !s.bitsReady (.read r) } else s.send p

/-- The context parks until every read of a load has been served (R26, R103). -/
def State.sendLoad (s : State) (l : List ReadOp) (b : Back) (words : Nat) (uses : List Nat) (ea : Nat) : State :=
  let fw := s.cpu.forwardAll l
  let ftag := match l with | r :: _ => s.cpu.queuedTag (granuleOf r.swz r.pa) | [] => none
  (l.foldl State.sendRead s).onCpu fun c =>
    { c with run := .parked .load, pend := some ⟨b, uses, words, fw.1, fw.2, ftag, ea, l.length, 0, false, none⟩ }

/-- A read of the own core's scratch that is served within the cycle: nothing accepted before it is outstanding, no engine owns the line, and its granules are full
where it waits for that (R26, R103, R145). -/
def State.servedAtOnce (s : State) (r : ReadOp) : Bool :=
  decide (s.agentRd r.pa = .bank s.cur) && s.open ⟨r.pa, r.swz, none⟩ && s.orderClear s.cur (.bank s.cur) ⟨r.pa, r.swz, none⟩ r.n
    && (match r.kind with
        | .consume _ => s.bitsReady (.read r) && !s.waiterAhead (.bank s.cur) r.pa r.swz r.n s.packetN
        | _ => true)

/-- Performs a load of the context looked at, of one line or granule or of several (R193, R194): one read that can be served at once gives its value in the cycle (R26);
otherwise every read is sent, and the context parks (R103). -/
def State.load (s : State) (r : ReadOp) (rest : List ReadOp) (b : Back) (words : Nat) (uses : List Nat) (ea : Word) : State :=
  if rest.isEmpty && s.servedAtOnce r then
    let fw := s.cpu.forward r
    let ftag := s.cpu.queuedTag (granuleOf r.swz r.pa)
    let (x, tag, pois) := s.serve s.cur r fw.2
    let s := match r.kind with
      | .consume _ => if pois = none then s.consume r else s
      | .watch => if pois = none then s.arm s.cur s.slot (lineOf r.swz r.pa) else s
      | .plain => s
    s.deliver b words uses ea.toNat (blend x fw.1 fw.2) (ftag.getD tag) pois
  else s.sendLoad (r :: rest) b words uses ea.toNat

/-! ### Stores and other entries of the store queue -/

/-- Enters the store queue (R27). -/
def State.enqueue (s : State) (e : SqEntry) : State := s.onCpu fun c => { c with sq := c.sq ++ [e] }

/-- A fence marker of a release at a scope; none is needed at `.ctx` (R31), or when nothing of the context is on its way (R32). -/
def State.release (s : State) (scope : Nat) (ar : Bool) : State :=
  if scope = 0 then s
  else if s.cpu.sq.isEmpty ∧ s.cpu.aset.isEmpty ∧ s.net.all (fun p => !(decide (p.h = s.cur ∧ p.slot = s.slot))) then s
  else s.enqueue (.fence scope ar)

/-- The data of a store of n bytes. -/
def storeOp (p : Place) (n : Nat) (x : BitVec 1024) (tag full : Bool) : WriteOp := ⟨p.pa, p.swz, n, x, ones 128 n, tag, full⟩

/-- An engine command enters its queue once every older store of the context has left (R37): at once when the store queue is empty. -/
def State.command (s : State) (eng : Nat) (c : Cmd) (enter : State → Cmd → State) : State :=
  if s.cpu.sq.isEmpty then enter s c else s.enqueue (.command eng c)

/-! ### How an instruction ends -/

/-- An instruction that passes issue before it looks at what it waits for: the first time it parks, and looks when it issues again (R103). -/
def passFirst (s : State) (w : Wait) : Except Stop Unit :=
  if s.cpu.passed.isSome then .ok () else .error (.park w)

/-- Asks for a translation walk of the tenant's page, joining one that is pending (R343); a load passes issue meanwhile (R103). -/
def State.awaitWalk (s : State) (va : Nat) (pass : Bool) : State :=
  (s.askWalk s.cur s.cpu.tenant (va / 65536)).onCpu fun c => { c with walk := some (c.tenant, va / 65536), run := if pass then .parked .walk else c.run }

/-- The read of a constant is sent, with the frame's policy tag claimed (R45, R58, R103). -/
def State.readConst (s : State) (pa swz : Nat) (map : Option (Fin 4 × Nat)) (ea : Nat) : State :=
  match claimAt s ⟨pa, swz, map⟩ 3 (BitVec.ofNat 64 ea) with
  | .ok t => t.sendLoad [constRead pa swz] .konst 0 [] ea
  | .error _ => s.sendLoad [constRead pa swz] .konst 0 [] ea

/-- How an instruction ends: a trap or a park acts on the state before the instruction, so that nothing else has changed (R51, R71). -/
def conclude (s : State) (r : Except Stop State) : Host.Outcome State Fault Refusal :=
  match r with
  | .ok t => .next t
  | .error (.trap t) => .next (s.takeTrap t)
  | .error (.park w) => .next (s.parkOn w)
  | .error .stall => .next (s.onCpu fun c => { c with stalled := true })
  | .error (.walk va pass) => .next (s.awaitWalk va pass)
  | .error (.read pa swz map ea) => .next (s.readConst pa swz map ea)

/-- A step of the device that may happen now gives the state after it, and changes nothing otherwise. -/
def event (s : State) (r : Option State) : Host.Outcome State Fault Refusal := .next (r.getD s)

end Sys2Proof.Machine
end

