-- ==== Sys2Proof/Machine/Fetch.lean ====
section
/-! DEFINITION. Code: block entry (R50), loop redirects (R106), transfers of control (R51), the yield of a continuation at a P header (R112, R378), the passing of issue (R103), the activity budget (R105), and how the instruction that issues next is fetched and decoded. -/

namespace Sys2Proof.Machine

/-! ### Reading code -/

/-- Reads n bytes of code at an address through a capability, as a load of the context that needs EX (R50 step 3, R55): queued stores of the context are
forwarded (R27), accesses that it may not overtake come first (R28), and a dead device's code is poison (R358). It waits for these, for a walk, or for a line that an
engine owns, without passing issue (R103). Configuration space is refused whatever PRV is (log 82). -/
def fetchAt (s : State) (c : Wreg) (x : Word) (n : Nat) : Except Stop (Nat × State) := do
  let p ← place s c 0 x .ex false
  need (decide (regionOf p.pa ≠ .config)) 0x09 0 x
  let t ← claimAt s p 0 x
  if !(t.open p && t.orderClear t.cur (t.agentRd p.pa) p n) then .error .stall
  let r : ReadOp := ⟨p.pa, p.swz, n, ones 128 n, 0, .plain⟩
  let (f, m) := t.cpu.forward r
  match t.serve t.cur r m with
  | (_, _, some _) => trap 0x0C 0 (BitVec.ofNat 64 (x.toNat / 16 * 16))
  | (y, _, none) => .ok (bits (blend y f m) 0 (8 * n), t.touchFor t.cur p.pa n)

/-- The execute check on n bytes at an address: tag, seal, X, bounds (R50 step 2, R125). -/
def checkX (c : Wreg) (x : Word) (n : Nat) : Except Stop Unit := do
  checkCap c 0 x permX
  need (capCovers c x.toNat n) 0x04 0 x

/-- The capability that blocks are entered through: TVEC in trap mode, else the code capability (R125). -/
def Ctx.execCap (c : Ctx) : Wreg := if c.tm then c.tvec else c.code

/-- A trap at a block entry (R108: bit 10 of ECAUSE). -/
def atEntry {α : Type} (r : Except Stop α) : Except Stop α :=
  match r with
  | .error (.trap t) => .error (.trap { t with entry := true })
  | r => r

/-- A header whose fields are valid (R50 step 4). -/
def headerOk (dw : Nat) : Bool :=
  let mira := dw / 2 ^ 33 % 64
  let mirb := dw / 2 ^ 40 % 64
  let va := dw / 2 ^ 39 % 2
  let vb := dw / 2 ^ 46 % 2
  decide (dw % 256 ≠ 0 ∧ dw / 2 ^ 55 % 4 = 0 ∧ ¬(va = 1 ∧ mira = 0) ∧ ¬(vb = 1 ∧ mirb = 0) ∧ ¬(va = 1 ∧ vb = 1 ∧ mira = mirb))

/-- Enters the header at an address through a capability (R50); gives the header's doubleword too. A load behind a `fence.ar` waits (R32). -/
def enterBlock (s : State) (c : Wreg) (h : Word) : Except Stop (State × Nat) := atEntry do
  need (decide (h.toNat % 8 = 0)) 0x02 0 h
  checkX c h 8
  if s.cpu.arHeld then .error .stall
  let (dw, t) ← fetchAt s c h 8
  need (decide (dw / 2 ^ 57 = 0x7F)) 0x02 0 h
  need (headerOk dw) 0x01 0 (BitVec.ofNat 64 dw)
  checkX c h (8 + 4 * (dw % 256))
  .ok (t.onCpu fun x => { x with hdr := h, len := dw % 256, pc := h + 8, entry := .inside, fcap := c, pfh := bits (BitVec.ofNat 64 dw) 47 8 }, dw)

/-- What an entry at address h does to the active loops (R106): the context after it, the address entered, and whether it was redirected to a
loop's START. -/
def Ctx.redirect : Nat → Ctx → Word → Ctx × Word × Bool
  | 0, c, h => (c, h, false)
  | k + 1, c, h =>
    let x := (c.lc[k]?).getD 0
    let start := bits x 32 54 * 8
    if h.toNat ≠ start + 8 * bits x 86 19 then (c, h, false)
    else if bits x 0 32 > 1 then
      ({ c with lc := c.lc.setIfInBounds k (setBits x 0 32 (bits x 0 32 - 1)) }, BitVec.ofNat 64 start, true)
    else ({ c with lc := c.lc.setIfInBounds k (setBits x 0 32 0) }.setSt 32 3 k).redirect k h

/-! ### Yield of a continuation (R112, R378) -/

/-- An engine still holds a command of the context looked at. One whose message is held back behind an earlier message of its engine has not retired (R260, log 100). -/
def State.engineBusy (s : State) : Bool :=
  let mine (c : Cmd) : Bool := c.ident = s.cpu.ident && c.gen = s.cpu.gen
  s.core.mq.any mine || s.core.mact.any (fun x => mine x.2) || s.cores.any (fun (_, c) => c.mact.any fun x => mine x.2) || s.core.tq.any mine || s.core.pq.any mine || s.remotes.any (fun r => mine r.cmd)
  || s.requests.any (fun r => mine r.2) || s.fields.any (fun f => f.pulls.any (fun p => mine p.cmd) || (match f.stopBy with | some c => mine c | none => false))
  || s.blocked.any (fun b => match b.cmd with | some c => mine c | none => false)
  || s.core.pw.toList.any (fun w => w.busy && (match w.cmd with | some c => mine c | none => false))
  || s.cores.any (fun (_, c) => c.mrq.any mine) || s.core.mrq.any mine
  || s.cpu.sq.any (fun e => match e with | .command .. | .message .. => true | _ => false)
  || (s.owed.any fun p => decide (p.ident = s.cpu.ident ∧ p.gen = s.cpu.gen ∧ bits p.msg 4 4 ≠ 0 ∧ bits p.msg 4 4 ≠ 7))
  || decide (s.cpu.credits ≠ 0 ∨ s.cpu.allow ≠ 0) || s.cpu.fb.toList.any (·.opn) || s.cpu.sg.toList.any (·.bnd) || s.msgs.any (fun m => m.sender = s.cpu.ident && m.sgen = s.cpu.gen)

/-- Address of a record of a tenant's continuation queue (R368, R376). -/
def State.recAddr (s : State) (t slot : Nat) : Nat := s.dev * 2 ^ 43 + bits (s.tenantOf t).cqb 16 27 * 65536 + 64 * slot

/-- Why a write of the dispatch engine into a queue of a tenant is refused: it lies in no memory (R22), or a live field owns the page (R296). -/
def State.unitFault (s : State) (pa : Nat) : Option Nat :=
  if !tableOk pa || !s.reaches pa then some 0x09 else if s.fieldOwned (frameOf pa) then some 0x0B else none

/-- A write of n bytes that the dispatch engine makes; one that is refused changes nothing. -/
def State.unitWrite (s : State) (pa n : Nat) (x : BitVec 1024) (tag : Bool) : State :=
  if (s.unitFault pa).isSome then s else s.ownWrite 0 ⟨pa, 0, n, x, ones 128 n, tag, false⟩

/-- The line of a record of a tenant's continuation queue can be accessed now: no engine owns it and no migration blocks it (R38, R357). -/
def State.recOpen (s : State) (t slot : Nat) : Bool := s.open ⟨s.recAddr t slot, 0, none⟩

/-- The writes of a yield into the save area: granule offset, value and tag (R378). -/
def Ctx.saveImage (c : Ctx) (hdr : Word) (livew livev : Nat) : List (Nat × BitVec 128 × Bool) :=
  [(0, BitVec.ofNat 128 (hdr.toNat + bits c.st 40 10 * 2 ^ 64), false), (16, BitVec.ofNat 128 (livew + livev * 2 ^ 16), false)]
  ++ ((List.range 64).filter fun i => livew / 2 ^ (i / 4) % 2 = 1).map (fun i =>
      let x := if i = 0 then Wreg.zero else (c.w[i]?).getD .zero
      (32 + 16 * i, x.bits, x.tag))
  ++ (((List.range 32).filter fun i => livev / 2 ^ (i / 4) % 2 = 1).map fun i =>
      (List.range 8).map fun j => (1056 + 128 * i + 16 * j, BitVec.ofNat 128 (bits ((c.v[i]?).getD 0) (128 * j) 128), false)).flatten

/-- The faults that an access of a save area meets at its place, in the order of R139 and R140: protection (R22), a policy conflict (R45), a page that a live field
owns, poison. -/
def State.saveFault (s : State) (use : Use) (p : Place) : Option Nat :=
  let own := decide (devOf p.pa = s.dev)
  if !tableOk p.pa || !s.reaches p.pa then some 0x09
  else match p.map with
    | some (pol, home) =>
      match s.claim s.cpu.tenant p.pa pol home with
      | .error code => some code
      | .ok _ => if use = .wr && own && s.fieldOwned (frameOf p.pa) then some 0x0B else if use = .rd && s.mem.poisonAt (granuleOf p.swz p.pa) then some 0x0C else none
    | none => if use = .rd && s.mem.poisonAt (granuleOf p.swz p.pa) then some 0x0C else none

/-- Places of the granules of a save area, or the fault that a granule meets, with its address. -/
def State.savePlaces (s : State) (c : Wreg) (use : Use) : List (Nat × BitVec 128 × Bool) → Except (Nat × Nat) (List (Place × BitVec 128 × Bool))
  | [] => .ok []
  | (o, x, t) :: rest =>
    let a := (capAddr c).toNat + o
    let one : Except (Nat × Nat) Place :=
      if capKind c = 4 then
        match s.translate s.cur s.cpu.tenant c a use with
        | .ok p => .ok p
        | .error _ => .error (0x09, a)
      else match s.walk s.cur s.cpu.tenant a with
        | .error code => .error (code, a)
        | .ok e => if (match use with | .wr => e.wr | _ => e.rd) then .ok ⟨e.pa + a % 2 ^ e.bits, 0, some (e.pol, e.home)⟩ else .error (0x09, a)
    match one with
    | .error f => .error f
    | .ok p =>
      match s.saveFault use p with
      | some code => .error (code, a)
      | none =>
        match s.savePlaces c use rest with
        | .error f => .error f
        | .ok l => .ok ((p, x, t) :: l)

/-- The accesses of a save area can be made now: no engine owns a line of it, no migration blocks it, and nothing that they would overtake is on its way (R28, R38). -/
def State.saveClear (s : State) (l : List (Place × BitVec 128 × Bool)) : Bool :=
  l.all fun (p, _, _) => s.open p && s.orderClear s.cur (s.agentOf p.pa) p 16

/-- The policy tags of the frames of a save area are claimed (R45). -/
def State.saveClaims (s : State) (l : List (Place × BitVec 128 × Bool)) : State :=
  l.foldl (fun s (p, _, _) =>
    match p.map with
    | some (pol, home) => match s.claim s.cpu.tenant p.pa pol home with | .ok t => t | .error _ => s
    | none => s) s

/-- Watches of a context slot are disarmed and its failed-mon mark cleared (R153). -/
def State.disarm (s : State) : State :=
  (s.onCore fun c => { c with watches := c.watches.filter fun w => w.slot ≠ s.slot }).onCpu fun c => { c with failedMon := false }

/-- A signalled continuation that has just entered the P header with this doubleword is to yield there (R112, R174). -/
def State.yields (s : State) (dw : Nat) : Bool :=
  s.cpu.cont.isSome && s.cpu.yieldSig && decide (dw / 2 ^ 32 % 2 = 1 ∧ s.cpu.ldepth = 0) && s.cpu.mbox.isEmpty && !s.engineBusy
    && decide (s.cpu.awW = 0 ∧ s.cpu.awV = 0 ∧ s.cpu.awP = 0)

/-- The granules that a yield at the header with this doubleword writes (R378). -/
def Ctx.yieldImage (c : Ctx) (dw : Nat) : List (Nat × BitVec 128 × Bool) := c.saveImage c.hdr (dw / 2 ^ 8 % 2 ^ 16) (dw / 2 ^ 24 % 2 ^ 8)

/-- What a context that has ended leaves in its slot: its registers as they stood, which the start of the next context resets (R98, R240), its store queue, and whether the
slot is open. Mailbox, awaiting bits, streams and fibres are empty (R134). -/
def Ctx.idleAfter (c : Ctx) : Ctx :=
  { Ctx.reset with
    w := c.w, v := c.v, p := c.p, lc := c.lc, fm := c.fm, cw := c.cw, mb := c.mb, tb := c.tb, st := c.st, epc := c.epc, esr := c.esr, ecause := c.ecause
    einfo := c.einfo, erh := c.erh, tvec := c.tvec, hdrop := c.hdrop, tenant := c.tenant, code := c.code, fcap := c.fcap, pc := c.pc, hdr := c.hdr, len := c.len
    sq := c.sq, aset := c.aset, isOpen := c.isOpen }

/-- The continuation at slot q of the queue is saved at the places, and its slot falls idle; its record is ready again with YLD set, and its location entry moves and
names the save area (R112, R167, R168, R378). -/
def State.saveYield (s : State) (q : Nat) (l : List (Place × BitVec 128 × Bool)) : State :=
  let c := s.cpu
  let s := s.saveClaims l
  let s := l.foldl (fun s (p, x, t) => s.ownWrite s.cur ⟨p.pa, p.swz, 16, x.setWidth 1024, ones 128 16, t, false⟩) s
  let rec0 := s.recAddr c.tenant q
  let g2 := s.mem.read 0 (rec0 + 32) 16
  let s := s.unitWrite (rec0 + 32) 16 (setBit (BitVec.ofNat 1024 g2) 45 true) false
  let t := s.tenantOf c.tenant
  let qs := Tab.get QSlot.free t.qslots q
  let s := s.setTenant c.tenant { t with qslots := Tab.set QSlot.free t.qslots q { qs with busy := false, ident := c.ident, seqs := c.seqs } }
  let img := match l with | (p, _, _) :: _ => localOf p.pa | [] => 0
  let s := s.setLoc c.ident { s.loc c.ident with state := .moving, hidx := 0, slot := 0, img := BitVec.ofNat 43 img }
  s.disarm.onCpu Ctx.idleAfter

/-- What a context does that has just entered the header with this doubleword: a continuation that is to yield there saves itself, once its stores have left and the save
area can be written; a fault there, or at its record, leaves it running and is posted to it (R15, R22, R112, R378). -/
def State.yieldAt (s : State) (dw : Nat) : Except Stop State :=
  match s.cpu.cont with
  | none => .ok s
  | some (q, _, _, frame) =>
    if !s.yields dw then .ok s
    else match s.savePlaces frame .wr (s.cpu.yieldImage dw) with
      | .error (code, a) =>
        .ok ((s.onCpu fun c => { c with yieldSig := false }).post s.cpu.ident s.cpu.gen (message 1 7 code 0 0 0 0 a))
      | .ok l =>
        match s.unitFault (s.recAddr s.cpu.tenant q) with
        | some code => .ok ((s.onCpu fun c => { c with yieldSig := false }).post s.cpu.ident s.cpu.gen (message 1 7 code 0 0 0 0 (s.recAddr s.cpu.tenant q)))
        | none => if s.cpu.sq.isEmpty && s.saveClear l && s.recOpen s.cpu.tenant q then .ok (s.saveYield q l) else .error .stall

/-! ### Transfers -/

/-- Transfers control to a header. `f` is what the instruction writes beside (a link register), done only when the transfer happens (R51). An entry that
a loop redirects is completed by the next issue (R106). -/
def transfer (s : State) (f : Ctx → Ctx) (target : Word) : Except Stop State := do
  let (c, h, moved) := s.cpu.redirect s.cpu.ldepth target
  if moved then .ok ((s.onCpu fun _ => { f { c with pc := h, entry := .direct } with passed := none }))
  else
    let (t, dw) ← enterBlock (s.onCpu fun _ => { f c with passed := none }) s.cpu.execCap h
    t.yieldAt dw

/-- The target of a J-format instruction (R57). -/
def jumpTarget (c : Ctx) (o : BitVec 19) : Word := c.hdr + 8#64 * o.signExtend 64

/-- The word of code at an address of the current block. -/
def codeWord (s : State) (x : Word) : Except Stop (Nat × State) := fetchAt s s.cpu.fcap x 4

/-! ### Issue -/

/-- Every remaining entry of a fibre has been read (R288). -/
def Fibre.allRead (f : Fibre) : Bool := decide (f.pos.toNat + f.ahead.length ≥ f.len.toNat)

/-- A store-queue entry that is to take an entry of an engine's command queue. -/
def SqEntry.takesEntry (e : SqEntry) (eng : Nat) : Bool :=
  match e with
  | .command n c => decide (n = eng) && (match c.op with | .fbopen _ => false | _ => true)
  | .message .. => decide (eng = 3)
  | _ => false

/-- Commands that wait behind stores of their contexts, each with an entry of the engine's queue kept for it (R37, R201, R241). -/
def State.keptFor (s : State) (eng : Nat) : Nat :=
  (List.range 11).foldl (fun n k => n + ((s.ctx s.cur k).sq.filter (·.takesEntry eng)).length) 0

/-- Messages of an engine to contexts of the core that are held back behind earlier ones: their commands have not retired, and keep their entries (R260, log 100). -/
def State.owedOn (s : State) (eng : Nat) : Nat :=
  (s.owed.filter fun p => decide (bits p.msg 4 4 = eng ∧ (s.loc p.ident).state = .resident ∧ (s.loc p.ident).hidx.toNat = s.cur)).length

/-- Entries that the transfer engine's command queue holds: commands, and messages that are still on their way (R241). -/
def State.tqHeld (s : State) : Nat := s.core.tq.length + (s.msgs.filter fun m => m.sh = s.cur).length

/-- Entries of the transfer engine's command queue in use, those kept for commands that have issued among them (R241). -/
def State.tqCount (s : State) : Nat := s.tqHeld + s.keptFor 3 + s.owedOn 3

/-- A command that has run and only waits to post: it keeps its queue entry, and holds up no other (R260). -/
def Cmd.onlyPosts (c : Cmd) : Bool := decide (c.prog ≠ 0) && c.outs.isEmpty

/-- A carried command that its unit has refused: the cause of its fault carries the reason in bits 8 and up (R208). -/
def Cmd.refused (c : Cmd) : Bool :=
  match c.fault with
  | some (code, _, _) => decide (code ≥ 256)
  | none => false

/-- Commands that the matrix engine has run and that wait to post, from the local or the remote queue. -/
def Core.unposted (k : Core) (remote : Bool) : Nat := (k.mact.filter fun x => x.1 = remote && x.2.onlyPosts && !x.2.refused).length

/-- The command queue of an engine has an entry free (R201, R241, R277). A command that the matrix engine has taken gives its entry up then, and counts again while it only waits
to post (log 103). -/
def State.roomFor (s : State) (eng : Nat) : Bool :=
  match eng with
  | 2 => decide (s.core.mq.length + s.core.unposted false + s.keptFor 2 < 16)
  | 3 => decide (s.tqCount < 32)
  | _ => decide (s.core.pq.length + s.keptFor 4 + s.owedOn 4 < 8)

/-- No other context of the core parked earlier for room in the engine's queue (R201, R241). -/
def State.firstFor (s : State) (slot eng : Nat) : Bool :=
  (List.range 11).all fun k =>
    k = slot || (match (s.ctx s.cur k).run, (s.ctx s.cur k).place, (s.ctx s.cur slot).place with
      | .parked (.cmdRoom e), some n, some m => decide (e ≠ eng ∨ m < n)
      | .parked (.cmdRoom e), some _, none => decide (e ≠ eng)
      | _, _, _ => true)

/-- A command of the context looked at finds an entry of an engine's queue free, and no context that parked earlier for one, or parks (R201, R241, R277). -/
def cmdRoom (s : State) (eng : Nat) : Except Stop Unit := if s.roomFor eng && s.firstFor s.slot eng then .ok () else .error (.park (.cmdRoom eng))

/-- Every wait condition but those an event resolves: the context may try again (R103). -/
def State.waitOver (s : State) (c : Ctx) (slot : Nat) (w : Wait) : Bool :=
  match w with
  | .load | .answer _ | .ending | .restore => false
  | .queue .fence => !c.arHeld
  | .queue .store => true
  | .clearing f => !s.blocked.any fun b => decide (b.frame = f) && (match b.cmd with | some c => decide (c.op = .pmigClr) | none => false)
  | .ask _ => c.mbie && !c.tm && !c.mbox.isEmpty
  | .reg cls n => !c.awaits cls n
  | .sqRoom => decide (c.sqCount < 16)
  | .cmdRoom eng => s.roomFor eng && s.firstFor slot eng
  | .credit => decide (c.credits < 8)
  | .stream g =>
    let x := c.stream g
    if x.wr then decide (x.held.length < 4) || x.flt else !x.held.isEmpty || x.flt
  | .tile n => !bit c.tbPend n
  | .fibre n =>
    let f := (c.fb[n]?).getD .closed
    !f.ahead.isEmpty || decide (f.pos.toNat ≥ f.len.toNat) || !f.opn
  | .dot a b => ((c.fb[a]?).getD .closed).allRead && ((c.fb[b]?).getD .closed).allRead
  | .watch t =>
    decide (t = 0) || c.stopMark || (c.mbie && !c.mbox.isEmpty) || c.failedMon || (s.core.watches.any fun x => x.slot = slot && x.fired.isSome)
  | .mailbox => !c.mbox.isEmpty
  | .counter n th => decide (((s.core.mc[n]?).getD 0 - th).toNat < 2 ^ 31) || (c.mbie && !c.tm && !c.mbox.isEmpty)
  | .barrier => c.gbar.isSome
  | .join m => (List.range 10).all fun i => !bit m i || (s.ctx s.cur (i + 1)).isOpen || !(s.ctx s.cur (i + 1)).live
  | .walk => c.walk.isNone

/-- A slot could be given issue (R93, R103). -/
def State.canIssue (s : State) (slot : Nat) : Bool :=
  let c := s.ctx s.cur slot
  match c.run with
  | .ready | .issuing => true
  | .parked w => s.waitOver c slot w
  | _ => false

/-- The slot that issues next: the one that holds issue, else the first ready one after it in ring order (R103). -/
def State.nextSlot (s : State) : Option Nat :=
  let r := s.core.ring.val
  if (s.ctx s.cur r).run = .issuing then some r
  else ((List.range 11).map fun i => (r + 1 + i) % 11).find? s.canIssue

/-- BUDGET and the two words of the weight table as they hold in cycle t: a write of one applies from the cycle after it (R105). -/
def Core.ratesAt (c : Core) (t : Nat) : BitVec 12 × Word × Word :=
  match c.rates with
  | some (u, old) => if u = t then old else (c.budget, c.wtab0, c.wtab1)
  | none => (c.budget, c.wtab0, c.wtab1)

/-- The core as a write of BUDGET or of the weight table in cycle t finds it, with what holds through that cycle kept (R105). -/
def Core.keepRates (c : Core) (t : Nat) : Core := { c with rates := some (t, c.ratesAt t) }

/-- The weight of a class in cycle t (R105, R116). -/
def Core.weight (c : Core) (cls t : Nat) : Nat :=
  let (_, a, b) := c.ratesAt t
  if cls < 8 then bits a (8 * cls) 8 else bits b (8 * (cls - 8)) 8

/-- The activity accumulator in cycle t: the weights issued in cycles t-31 to t-1 (R105). -/
def Core.activity (c : Core) (t : Nat) : Nat := (c.act.filter fun (u, _) => u + 31 ≥ t && u < t).foldl (fun a (_, w) => a + w) 0

/-- The budget lets an instruction of a class issue in cycle t (R105). -/
def Core.mayIssue (c : Core) (tm : Bool) (cls t : Nat) : Bool :=
  let g := c.weight cls t
  let b := (c.ratesAt t).1.toNat
  tm || decide (g = 0) || decide (c.activity t + g ≤ b) || (decide (b ≥ 1 ∧ g > b) && decide (c.activity t = 0))

/-- Counts the weight of a class in cycle t. -/
def Core.charge (c : Core) (cls t : Nat) : Core :=
  { c with act := (c.act.filter fun (u, _) => u + 31 ≥ t) ++ [(t, c.weight cls t)] }

/-- An asynchronous cause is pending and may be taken (R110). -/
def Ctx.asyncPending (c : Ctx) : Bool := !c.tm && (c.povr.isSome || c.rovf.isSome || (c.mbie && !c.mbox.isEmpty))

/-- What an issue of a core comes to. -/
inductive Ready where
  /-- the instruction issues in this state; the weight of the class is counted when it completes, traps or leaves -/
  | run (i : Instr) (cls : Option Nat) (s : State)
  /-- no instruction issues; the state after -/
  | done (s : State)

/-- The tenant's stop cycle has come, so that its contexts issue no more (R379). -/
def State.stopped (s : State) (t : Nat) : Bool :=
  let x := s.tenantOf t
  (x.tstate = 1 && decide (s.counter ≥ x.tstop.toNat)) || decide (x.tstate.val ≥ 2)

/-- An illegal encoding of word w, n words after the word that issues: it is weighed as class 0 (R105), and the saved program counter is at the word (R62). -/
def illegalAt (s : State) (n w : Nat) : Ready :=
  if s.core.mayIssue s.cpu.tm 0 s.time then
    .done (((s.onCpu fun c => { c with pc := c.pc + BitVec.ofNat 64 (4 * n) }).takeTrap ⟨0x01, 0, BitVec.ofNat 64 w, false, false⟩).onCore fun c => c.charge 0 s.time)
  else .done s

/-- An illegal encoding at the word that issues. -/
def illegal (s : State) (w : Nat) : Ready := illegalAt s 0 w

/-- The checks on a decoded instruction that come before its own, in the state after its words were read: the block's end (R58, R60), the prefix (R60), which an instruction
that `mcmd` carries refuses at its own word (R215), and the budget (R105), which an instruction that issued and parked has passed already. `w` and `x` are the words. -/
def allowIssue (i : Instr) (w x : Nat) (more : Bool) (s : State) : Ready :=
  if i.words = 2 ∧ !more then illegal s w
  else if s.cpu.pp && !prefixOk i then (match i with | .mcmd _ _ => illegalAt s 1 x | _ => illegal s w)
  else if (match i with | .fmt .. => !more | _ => false) then illegal s w
  else if s.cpu.counted then .run i none s
  else if s.core.mayIssue s.cpu.tm (classOf i) s.time then .run i (some (classOf i)) s
  else .done s

/-- A fetch that has not given a word: the state after it. -/
def fetchStop (s : State) : Stop → Ready
  | .trap t => .done (s.takeTrap t)
  | .walk va _ => .done (s.awaitWalk va false)
  | _ => .done s

/-- The program counter names the extension word of a K form or of `mcmd`, counting the block's words from address x (R111). A word before it that cannot be read stops
the count as a fetch of that word would stop (log 97). -/
noncomputable def isExtension (s : State) : Nat → Word → Except Stop Bool
  | 0, _ => .ok false
  | n + 1, x =>
    if x.toNat ≥ s.cpu.pc.toNat then .ok (decide (x.toNat > s.cpu.pc.toNat))
    else do
      let (w, _) ← codeWord s x
      let (y, _) ← codeWord s (x + 4)
      match decode w y with
      | some i => isExtension s n (x + 4 * BitVec.ofNat 64 i.words)
      | none => isExtension s n (x + 4)

/-- The word at the program counter is to be decoded on its own although it is an extension word (R111). -/
noncomputable def atExtension (s : State) : Except Stop Bool :=
  if s.cpu.entry = .resume then isExtension s s.cpu.len (s.cpu.hdr + 8) else .ok false

/-- Decodes the word that issues next, with the word after it where the block has one and the first asks for it (R58, R62, R236). -/
noncomputable def decodeNext (s : State) : Ready :=
  match atExtension s with
  | .error e => fetchStop s e
  | .ok true =>
    match codeWord s s.cpu.pc with
    | .error e => fetchStop s e
    | .ok (w, s1) => illegal s1 w
  | .ok false =>
  let s := s.onCpu fun c => { c with entry := .inside }
  match codeWord s s.cpu.pc with
  | .error e => fetchStop s e
  | .ok (w, s1) =>
    let more := decide (s.cpu.pc.toNat + 8 ≤ s.cpu.blockEnd)
    if more && (decide (w / 2 ^ 25 = 0x67) || decide (w / 64 % 2 = 1)) then
      match codeWord s1 (s.cpu.pc + 4) with
      | .error e =>
        match decode w 0 with
        | some i => if i.words = 2 then fetchStop s1 e else allowIssue i w 0 more s1
        | none => if w / 2 ^ 25 = 0x67 then fetchStop s1 e else illegal s1 w
      | .ok (x, s2) =>
        match decode w x with
        | some i => allowIssue i w x more (if i.words = 2 then s2 else s1)
        | none => illegal s1 w
    else
      match decode w 0 with
      | some i => allowIssue i w 0 more s1
      | none => illegal s1 w

/-- Whether EPC may name a word of the block whose header stands at ERH; that header's LEN decides (R111). -/
def Ctx.resumeIndex (c : Ctx) : Option Nat :=
  let o := c.epc.toNat - (c.erh.toNat + 8)
  if c.erh.toNat + 8 ≤ c.epc.toNat ∧ o % 4 = 0 ∧ o / 4 < 255 then some (o / 4) else none

/-- The context resumes at EPC inside the block of the resume header, of n words. A word of EPC that trap entry did not leave there is looked at first (R111). -/
def Ctx.resumeIn (c : Ctx) (n pfh : Nat) (known : Bool) : Ctx :=
  { c with pc := c.epc, hdr := c.erh, len := n, pfh := pfh, entry := if known then .inside else .resume, fcap := c.execCap, passed := none }

/-- Returns from an exception in a state whose st is restored: inside the resume block, or by fall-through at EPC (R111). The header's checks count as passed: LEN is the one
read at the entry of the block. Where the trap struck before the header at ERH, and a handler has put into EPC an address that may lie in its block, the header is read now; what
cannot be read as a header has no block there (log 97). -/
def returnTo (s : State) : Except Stop State :=
  let c := s.cpu
  let fall := s.onCpu fun c => { c with pc := c.epc, entry := .fall, passed := none }
  match c.resumeIndex, c.erl with
  | none, _ => .ok fall
  | some i, some (n, pfh, w) => if i < n then .ok (s.onCpu fun c => c.resumeIn n pfh (decide (w = some c.epc))) else .ok fall
  | some i, none =>
    match fetchAt s c.execCap c.erh 8 with
    | .ok (dw, t) => if decide (dw / 2 ^ 57 = 0x7F) && headerOk dw && decide (i < dw % 256) then .ok (t.onCpu fun c => c.resumeIn (dw % 256) 0 false) else .ok fall
    | .error (.trap _) => .ok fall
    | .error e => .error e

/-- A context that RESUME has released from a double trap continues at EPC as after `rfe`; st has been restored (R109, R111). -/
def comeReturning (s : State) : Except Stop State := if s.cpu.entry = .returning then returnTo s else .ok s

/-- Enters the header that the context stands before, if it stands before one (R50, R106, R108), with the state in which a trap there is taken: what the loops have
counted stays counted (R106). -/
def enterPending (s : State) : Except Stop State × State :=
  match s.cpu.entry with
  | .inside | .resume | .returning => (.ok s, s)
  | .fall =>
    let (c, h, moved) := s.cpu.redirect s.cpu.ldepth s.cpu.pc
    let t := s.onCpu fun _ => { c with pc := h, entry := if moved then .direct else .fall }
    ((enterBlock t s.cpu.execCap h).bind fun (u, dw) => u.yieldAt dw, t)
  | _ => ((enterBlock s s.cpu.execCap s.cpu.pc).bind fun (u, dw) => u.yieldAt dw, s)

/-- The core issues in a new cycle, from slot k: at most one instruction, or asynchronous trap entry, in each (R103, R239). -/
def State.newCycle (s : State) (k : Nat) : State :=
  let s := if s.core.lastIssue = some s.time then { s with time := s.time + 1 } else s
  s.onCore fun c => { c with lastIssue := some s.time, ring := ⟨k % 11, Nat.mod_lt _ (by decide)⟩ }

/-- An instruction that passed issue and whose wait has ended completes before an asynchronous cause is taken (R151, R155, R273). -/
def Run.late : Run → Bool
  | .parked (.watch _) | .parked .barrier | .parked .mailbox => true
  | _ => false

/-- A context whose instruction could not be read again yet stays where it was. -/
def Ready.keep (r : Ready) (was : Run) : Ready :=
  match r with
  | .done s => if was.late && s.cpu.run = .issuing then .done (s.onCpu fun c => { c with run := was }) else r
  | r => r

/-- The context that holds issue enters the header it stands before, if it does, and its next word is decoded. -/
noncomputable def issueNext (s : State) : Ready :=
  match enterPending s with
  | (.error e, base) => fetchStop base e
  | (.ok s3, _) => if s3.cpu.run = .issuing then decodeNext s3 else .done s3

/-- Issue of core h (R103): the slot is chosen, a new cycle begins if the core has issued in this one, a context that RESUME has released comes to its place (R109), an asynchronous cause is taken
first (R110) unless the context is to end an `mwait`, a gang barrier or a `wfm` (R151, R155, R273), a pending header is entered, and the next word is decoded. -/
noncomputable def prepare (h : Nat) (s0 : State) : Ready :=
  let s1 := s0.focus h (if s0.cur = h then s0.slot else 0)
  match s1.nextSlot with
  | none => .done s1
  | some k =>
    let s2 := (s1.focus h k).newCycle k
    let was := s2.cpu.run
    let s2 := s2.onCpu fun c => { c with run := .issuing, stalled := false }
    if s2.stopped s2.cpu.tenant || s2.core.dhalt then .done s1
    else match comeReturning s2 with
      | .error e => if s2.cpu.walk.isSome then .done s2 else fetchStop s2 e
      | .ok s3 =>
        if s3.cpu.asyncPending && !was.late then .run .asyncTrapEntry none s3
        else if s3.cpu.walk.isSome then (Ready.done s3).keep was
        else (issueNext s3).keep was

/-- Counts the weight of the instruction that has issued: at its end, or when it parks; not while it waits without passing issue (R105). -/
def settle (cls : Option Nat) (s : State) : State :=
  match cls, s.cpu.run with
  | none, _ => s
  | some k, .parked _ => (s.onCore fun c => c.charge k s.time).onCpu fun c => { c with counted := true }
  | some k, _ => if s.cpu.stalled || s.cpu.walk.isSome then s else s.onCore fun c => c.charge k s.time

end Sys2Proof.Machine
end

