-- ==== Sys2Proof/Machine/Capability.lean ====
section
/-! DEFINITION. The capability instructions (R121-R124). -/

namespace Sys2Proof.Machine

/-- The smallest exponent, from `e` up with `fuel` candidates left, whose span holds [b, b + l) (R121). -/
def findExpo (b l : Nat) : Nat → Nat → Option Nat
  | 0, _ => none
  | fuel + 1, e => if ceilDiv (b + l) (2 ^ e) - b / 2 ^ e ≤ 0x6FFFF then some e else findExpo b l fuel (e + 1)

/-- The capability that `cbnd` derives, or the cause of its fault (R121). -/
def deriveBounds (exact : Bool) (c : Wreg) (l : Nat) : Except Nat Wreg :=
  let b := (capAddr c).toNat
  let kind4 := decide (capKind c = 4)
  match findExpo b l (if kind4 then 8 else 39) 0 with
  | none => .error 0x04
  | some e =>
    let lo := b / 2 ^ e
    let hi := ceilDiv (b + l) (2 ^ e)
    if exact ∧ (lo * 2 ^ e ≠ b ∨ hi * 2 ^ e ≠ b + l) then .error 0x04
    else match capBounds c with
      | none => .error 0x04
      | some (base, top) =>
        if base ≤ lo * 2 ^ e ∧ hi * 2 ^ e ≤ top then
          let r := setBits (setBits c.bits 90 19 lo) 109 19 hi
          .ok ⟨if kind4 then setBits r 87 3 e else setBits r 84 6 e, true⟩
        else .error 0x04

/-- `cbnd` and `cbnd.x` (R121). EINFO of their faults is the address of w[a]. -/
def boundsOp (exact : Bool) (d a b : Fin 64) (s : State) : Host.Outcome State Fault Refusal := conclude s do
  useW s d 1
  let c ← readW s a 2
  let l ← readW s b 3
  need (c.tag && !capMalformed c) 0x03 2 (capAddr c)
  need (decide (capKind c ≠ 3)) 0x06 2 (capAddr c)
  need (decide (capKind c = 0 ∨ capKind c = 4) && capHas c permD) 0x05 2 (capAddr c)
  match deriveBounds exact c l.lo.toNat with
  | .error code => trap code 2 (capAddr c)
  | .ok r =>
    mayAppend s d r
    .ok (s.finishW 1 [a.val, b.val] d r)

/-- `cbnd`: bounds rounded outward (R121). -/
def execCbnd (d a b : Fin 64) (s : State) := boundsOp false d a b s

/-- `cbnd.x`: exact bounds or a fault (R121). -/
def execCbndX (d a b : Fin 64) (s : State) := boundsOp true d a b s

/-- `cprm`: the permissions ANDed with a mask (R122). -/
def execCprm (d a b : Fin 64) (s : State) : Host.Outcome State Fault Refusal := conclude s do
  useW s d 1
  let c ← readW s a 2
  let m ← readW s b 3
  need (c.tag && !capMalformed c) 0x03 2 (capAddr c)
  need (decide (capKind c ≠ 3)) 0x06 2 (capAddr c)
  need (capHas c permD) 0x05 2 (capAddr c)
  let r : Wreg := ⟨setBits c.bits 64 13 (Nat.land (capPerm c) (bits m.lo 0 13)), true⟩
  mayAppend s d r
  .ok (s.finishW 1 [a.val, b.val] d r)

/-- A capability sealed: kind 3, with its kind in OKIND (R122). -/
def sealed (c : Wreg) : Wreg := ⟨setBits (setBits c.bits 77 3 (capKind c)) 80 4 3, c.tag⟩

/-- `csea`: seals (R122). -/
def execCsea (d a : Fin 64) (s : State) : Host.Outcome State Fault Refusal := conclude s do
  useW s d 1
  let c ← readW s a 2
  need (c.tag && !capMalformed c) 0x03 2 (capAddr c)
  need (decide (capKind c ≠ 3)) 0x06 2 (capAddr c)
  mayAppend s d (sealed c)
  .ok (s.finishW 1 [a.val] d (sealed c))

/-- The encoded word at the program counter, for EINFO of a privilege trap (R110). -/
def thisWord (s : State) : Word :=
  match codeWord s s.cpu.pc with
  | .ok (w, _) => BitVec.ofNat 64 w
  | .error _ => 0

/-- The privilege check: PRV = 0 takes 0x13, with the word in EINFO (R110). -/
def privileged (s : State) (w : Word) : Except Stop Unit := need s.cpu.prv 0x13 0 w

/-- `cuns`: unseals; privileged (R122). -/
def execCuns (d a : Fin 64) (s : State) : Host.Outcome State Fault Refusal := conclude s do
  privileged s (thisWord s)
  useW s d 1
  let c ← readW s a 2
  need (c.tag && !capMalformed c) 0x03 2 (capAddr c)
  let r := if capKind c = 3 then unsealed c else c
  mayAppend s d r
  .ok (s.finishW 1 [a.val] d r)

/-- A capability given an address; the tag is cleared where the bounds would decode otherwise, and a plain value just takes the address (R123). -/
def withAddr (c : Wreg) (n : Word) : Wreg :=
  if !c.tag then .plain n
  else
    let r : Wreg := ⟨setBits c.bits 0 64 n.toNat, true⟩
    ⟨r.bits, decide (bits n 57 7 = 0) && decide (capBounds r = capBounds c)⟩

/-- Whether a capability's address may be set (R123). -/
def addrOk (c : Wreg) : Except Stop Unit := do
  need (!c.tag || !capMalformed c) 0x03 2 (capAddr c)
  need (!c.tag || decide (capKind c ≠ 3)) 0x06 2 (capAddr c)
  need (!c.tag || decide (capKind c ≠ 1 ∧ capKind c ≠ 2)) 0x05 2 (capAddr c)

/-- `cadr`: sets the address (R123). -/
def execCadr (d a b : Fin 64) (s : State) : Host.Outcome State Fault Refusal := conclude s do
  useW s d 1
  let c ← readW s a 2
  let n ← readW s b 3
  addrOk c
  mayAppend s d (withAddr c n.lo)
  .ok (s.finishW 1 [a.val, b.val] d (withAddr c n.lo))

/-- `cadr.inc`: moves the address; a zero immediate copies the register whatever it holds (R123). -/
def execCadrInc (d a : Fin 64) (i : BitVec 13) (s : State) : Host.Outcome State Fault Refusal := conclude s do
  useW s d 1
  let c ← readW s a 2
  if i = 0 then
    mayAppend s d c
    .ok (s.finishW 1 [a.val] d c)
  else
    addrOk c
    let r := withAddr c (capAddr c + i.signExtend 64)
    mayAppend s d r
    .ok (s.finishW 1 [a.val] d r)

/-- Bounds of a usable kind 0 or 4 value, for `clen` and `cbas` (R124). -/
def usableBounds (c : Wreg) : Option (Nat × Nat) :=
  if c.tag && !capMalformed c && decide (capKind c = 0 ∨ capKind c = 4) then capBounds c else none

/-- A plain result computed from a capability (R124). -/
def capQuery (f : Wreg → Nat) (d a : Fin 64) (s : State) : Host.Outcome State Fault Refusal := conclude s do
  useW s d 1
  let c ← readW s a 2
  .ok (s.finishW 1 [a.val] d (.plain (BitVec.ofNat 64 (f c))))

/-- `clen`: top minus base, or 0 (R124). -/
def execClen (d a : Fin 64) (s : State) :=
  capQuery (fun c => match usableBounds c with | some (base, top) => top - base | none => 0) d a s

/-- `cbas`: the base, or 0 (R124). -/
def execCbas (d a : Fin 64) (s : State) :=
  capQuery (fun c => match usableBounds c with | some (base, _) => base | none => 0) d a s

/-- `ctst`: 1 for a usable capability that has every permission of the mask (R124). -/
def execCtst (d a b : Fin 64) (s : State) : Host.Outcome State Fault Refusal := conclude s do
  useW s d 1
  let c ← readW s a 2
  let m ← readW s b 3
  let ok := c.tag && !capMalformed c && decide (capKind c ≠ 3) && capHas c (bits m.lo 0 13)
  .ok (s.finishW 1 [a.val, b.val] d (.plain (if ok then 1 else 0)))

end Sys2Proof.Machine
end

