-- ==== Sys2Proof/Machine/Cipher.lean ====
section
/-! DEFINITION. AES-256 (FIPS 197) in XTS mode (IEEE 1619) on data units of 512 bytes, by which a tenant's key slot encrypts the paged image of a cold context (R407). -/

namespace Sys2Proof.Machine

/-- Multiplication by x in GF(2^8). -/
def xtime (a : Nat) : Nat := if a < 128 then 2 * a else Nat.xor (2 * a - 256) 0x1B

/-- Multiplication in GF(2^8), of which `n` bits of the second factor are left. -/
def gfMul : Nat → Nat → Nat → Nat
  | 0, _, _ => 0
  | n + 1, a, b => Nat.xor (if b % 2 = 1 then a else 0) (gfMul n (xtime a) (b / 2))

/-- The inverse in GF(2^8), 0 of 0: the power 254, of which `n` squarings are left. -/
def gfInv : Nat → Nat → Nat
  | 0, _ => 1
  | n + 1, a => let q := gfMul 8 a a; gfMul 8 q (gfInv n q)

/-- An 8-bit number rotated to the left. -/
def rotl8 (a n : Nat) : Nat := a * 2 ^ n % 256 + a / 2 ^ (8 - n)

/-- The substitution box: the inverse, then the affine map. -/
def subByte (a : Nat) : Nat :=
  let b := gfInv 7 a
  Nat.xor (Nat.xor (Nat.xor (Nat.xor (Nat.xor b (rotl8 b 1)) (rotl8 b 2)) (rotl8 b 3)) (rotl8 b 4)) 0x63

/-- The substitution box as a table. -/
def sbox : List Nat := (List.range 256).map subByte

/-- Its inverse. -/
def sboxInv : List Nat := (List.range 256).map fun y => (sbox.idxOf y)

/-- Byte-wise exclusive or. -/
def xorBytes (x y : List Nat) : List Nat := (x.zip y).map fun p => Nat.xor p.1 p.2

/-- The words of four bytes of a key schedule of AES-256, latest first; `n` are still to be made. -/
def keyWords : Nat → List (List Nat) → List (List Nat)
  | 0, l => l
  | n + 1, l =>
    let i := l.length
    let t := l.headD []
    let sub (x : List Nat) : List Nat := x.map fun b => sbox.getD b 0
    let t := if i % 8 = 0 then xorBytes (sub (t.drop 1 ++ t.take 1)) [2 ^ (i / 8 - 1), 0, 0, 0] else if i % 8 = 4 then sub t else t
    keyWords n (xorBytes (l.getD 7 []) t :: l)

/-- The 15 round keys of a key of 32 bytes. -/
def roundKeys (key : List Nat) : List (List Nat) :=
  let w := (keyWords 52 (((List.range 8).map fun i => (key.drop (4 * i)).take 4).reverse)).reverse
  (List.range 15).map fun r => ((w.drop (4 * r)).take 4).flatten

/-- Row r of the state moves by `r * k` columns. -/
def shiftRows (k : Nat) (s : List Nat) : List Nat := (List.range 16).map fun i => s.getD ((i % 4) + 4 * ((i / 4 + k * (i % 4)) % 4)) 0

/-- Each column times a circulant matrix with this first row. -/
def mixColumns (row s : List Nat) : List Nat :=
  (List.range 16).map fun i =>
    (List.range 4).foldl (fun a j => Nat.xor a (gfMul 8 (s.getD (i / 4 * 4 + j) 0) (row.getD ((j + 4 - i % 4) % 4) 0))) 0

/-- AES-256 of a block of 16 bytes under its round keys. -/
def aesEncrypt (ks : List (List Nat)) (x : List Nat) : List Nat :=
  let s := (List.range 13).foldl (fun s r => xorBytes (mixColumns [2, 3, 1, 1] (shiftRows 1 (s.map fun b => sbox.getD b 0))) (ks.getD (r + 1) []))
    (xorBytes x (ks.getD 0 []))
  xorBytes (shiftRows 1 (s.map fun b => sbox.getD b 0)) (ks.getD 14 [])

/-- The inverse of `aesEncrypt`. -/
def aesDecrypt (ks : List (List Nat)) (x : List Nat) : List Nat :=
  let s := (List.range 13).foldl (fun s r => mixColumns [14, 11, 13, 9] (xorBytes ((shiftRows 3 s).map fun b => sboxInv.getD b 0) (ks.getD (13 - r) [])))
    (xorBytes x (ks.getD 14 []))
  xorBytes ((shiftRows 3 s).map fun b => sboxInv.getD b 0) (ks.getD 0 [])

/-- A tweak times the primitive element of GF(2^128), little-endian. -/
def tweakNext (t : Nat) : Nat := if t < 2 ^ 127 then 2 * t else Nat.xor (2 * t - 2 ^ 128) 0x87

/-- The bytes of a number. -/
def cipherBytes (n x : Nat) : List Nat := (List.range n).map fun i => x / 256 ^ i % 256

/-- The number that bytes make. -/
def cipherNat : List Nat → Nat
  | [] => 0
  | b :: t => b + 256 * cipherNat t

/-- The blocks of a data unit through a block function `f`, with the tweak of the first (XTS). -/
def xtsBlocks (f : List Nat → List Nat) : Nat → Nat → Nat → Nat
  | 0, _, _ => 0
  | n + 1, t, x => Nat.xor (cipherNat (f (cipherBytes 16 (Nat.xor (x % 2 ^ 128) t)))) t + 2 ^ 128 * xtsBlocks f n (tweakNext t) (x / 2 ^ 128)

/-- One data unit of 512 bytes under a 512-bit key, whose first half is the data key and whose second the tweak key, and a tweak (R407). -/
def xtsUnit (decrypt : Bool) (key : BitVec 512) (tweak : Nat) (x : BitVec 4096) : BitVec 4096 :=
  let k1 := roundKeys (cipherBytes 32 (key.toNat % 2 ^ 256))
  let k2 := roundKeys (cipherBytes 32 (key.toNat / 2 ^ 256))
  BitVec.ofNat 4096 (xtsBlocks (if decrypt then aesDecrypt k1 else aesEncrypt k1) 32 (cipherNat (aesEncrypt k2 (cipherBytes 16 tweak))) x.toNat)

end Sys2Proof.Machine
end

