-- ==== Sys2Proof/Machine/Control.lean ====
section
/-! DEFINITION. The control instructions: branches, calls and returns (R126-R129), hardware loops (R131), `rep`, `nop` and `fmt` (R60, R132), and the start, join and yield of contexts (R133, R135). -/

namespace Sys2Proof.Machine

/-! ### Branches -/

/-- `br` (R126). -/
def execBr (o : BitVec 19) (s : State) : Host.Outcome State Fault Refusal := conclude s do
  transfer s id (jumpTarget s.cpu o)

/-- Pushes a return header on the return-address store; the oldest of 16 is dropped (R129). -/
def Ctx.pushRet (c : Ctx) (h : Word) : Ctx := { c with ras := (h :: c.ras).take 16 }

/-- What a call writes: w1 with the return header as plain data, and the return-address store (R126, R129). -/
def Ctx.link (c : Ctx) (h : Word) : Ctx := ((c.writeW 1 (.plain h)).pushRet h)

/-- `call` of a label (R126). -/
def execCall (o : BitVec 19) (s : State) : Host.Outcome State Fault Refusal := conclude s do
  useW s 1 0
  let h := s.cpu.nextHdr
  transfer s (fun c => c.link h) (jumpTarget s.cpu o)

/-- A conditional branch (R127): `taken` transfers, otherwise the next word follows. -/
def branch (s : State) (taken : Bool) (uses : List Nat) (o : BitVec 19) : Except Stop State :=
  if taken then transfer s (fun c => c.popAll uses) (jumpTarget s.cpu o) else .ok (s.finish 1 uses)

/-- `bc`: branches when the register is not zero (R127). -/
def execBc (c : Fin 64) (o : BitVec 19) (s : State) : Host.Outcome State Fault Refusal := conclude s do
  let x ← readW s c 1
  branch s (x.lo != 0) [c.val] o

/-- `bc.z`: branches when the register is zero (R127). -/
def execBcZ (c : Fin 64) (o : BitVec 19) (s : State) : Host.Outcome State Fault Refusal := conclude s do
  let x ← readW s c 1
  branch s (x.lo == 0) [c.val] o

/-- A branch on a test of a predicate register (R127). -/
def branchP (t : PTest) (p : Fin 8) (o : BitVec 19) (s : State) : Host.Outcome State Fault Refusal := conclude s do
  let x ← readP s p.val
  branch s (t.holds x) [] o

/-- `bp.any` (R127). -/
def execBpAny (p : Fin 8) (o : BitVec 19) (s : State) := branchP .any p o s
/-- `bp.all` (R127). -/
def execBpAll (p : Fin 8) (o : BitVec 19) (s : State) := branchP .all p o s
/-- `bp.none` (R127). -/
def execBpNone (p : Fin 8) (o : BitVec 19) (s : State) := branchP .none p o s
/-- `bp.nall` (R127). -/
def execBpNall (p : Fin 8) (o : BitVec 19) (s : State) := branchP .nall p o s

/-- `jr` (R128). -/
def execJr (a : Fin 64) (s : State) : Host.Outcome State Fault Refusal := conclude s do
  let x ← readW s a 2
  transfer s (fun c => c.popAll [a.val]) x.lo

/-- `ret`: transfers to w1, whatever the return-address store predicts (R128, R129). -/
def execRet (s : State) : Host.Outcome State Fault Refusal := conclude s do
  let x ← readW s 1 0
  transfer s (fun c => { c with ras := c.ras.drop 1 }) x.lo

/-- `call` of a register: the target is read before w1 is written (R128). -/
def execCallReg (a : Fin 64) (s : State) : Host.Outcome State Fault Refusal := conclude s do
  let x ← readW s a 2
  useW s 1 0
  let h := s.cpu.nextHdr
  transfer s (fun c => (c.popAll [a.val]).link h) x.lo

/-! ### Loops and repeats -/

/-- The image of a loop register (R106). -/
def loopImage (count start len : Nat) : BitVec 128 :=
  BitVec.ofNat 128 (count % 2 ^ 32 + start / 8 % 2 ^ 54 * 2 ^ 32 + len / 8 % 2 ^ 19 * 2 ^ 86)

/-- `loop` (R131). -/
def execLoop (c : Fin 64) (o : BitVec 19) (s : State) : Host.Outcome State Fault Refusal := conclude s do
  let start := s.cpu.nextHdr
  let stop := jumpTarget s.cpu o
  need (decide ((s.cpu.hdr.toNat : Int) + 8 * o.toInt > start.toNat)) 0x01 0 (thisWord s)
  let x ← readW s c 1
  if x.lo = 0 then transfer s (fun k => k.popAll [c.val]) stop
  else
    needR (decide (s.cpu.ldepth ≠ 4)) 0x01
    needR (decide (x.lo.toNat < 2 ^ 32)) 0x02
    let k := s.cpu.ldepth
    let img := loopImage x.lo.toNat start.toNat (stop.toNat - start.toNat)
    .ok ((s.onCpu fun u => { u with lc := u.lc.setIfInBounds k img }.setSt 32 3 (k + 1)).finish 1 [c.val])

/-- `nop` (R132). -/
def execNop (s : State) : Host.Outcome State Fault Refusal := conclude s (.ok (s.finish 1 []))

/-- `fmt`: sets PP and the payload; a repeat count is kept (R60, R107). -/
def execFmt (r : Fin 8) (n : Fin 2) (d b a : Fin 8) (s : State) : Host.Outcome State Fault Refusal := conclude s do
  let payload := a.val + 8 * b.val + 64 * d.val + 512 * n.val + 1024 * r.val
  .ok (s.onCpu fun c => ((c.setSt 1 1 1).setSt 2 13 payload).stepOver 1)

/-- `rep` may govern the instruction that a word begins: its major is not one that R132 names, and not one whose entries exclude `rep` (R84, R138, R160, R215, R264, R283,
R327, R361, R383, R400). A second `fmt`, or a word of a major that no entry assigns, traps at its own word (R60, R62). -/
def repWord (w : Nat) : Bool :=
  let m := w / 2 ^ 25 % 128
  !(decide (0x18 ≤ m ∧ m ≤ 0x1D) || decide (m = 0x1F) || decide (m = 0x26 ∨ m = 0x2A ∨ m = 0x2B) || decide (m = 0x30 ∨ m = 0x31 ∨ m = 0x36 ∨ m = 0x37)
    || decide (0x38 ≤ m ∧ m ≤ 0x3A) || decide (m = 0x3E) || decide (0x63 ≤ m ∧ m ≤ 0x6E) || decide (0x70 ≤ m ∧ m ≤ 0x72) || decide (m = 0x74 ∨ m = 0x75))

/-- A word is the main word of a K form, which its extension word follows (R58). -/
def kWord (w : Nat) : Bool :=
  let m := w / 2 ^ 25 % 128
  let f := w % 128
  let op := w % 8
  decide (w / 64 % 2 = 1) && decide (w / 128 % 64 = 0) &&
    (decide (m = 0 ∧ f % 64 ≤ 19) || decide (m = 1 ∧ f % 64 ≤ 5) || decide (m = 0x24) || (decide (m = 0x25) && decide (w / 4 % 2 = 0))
     || decide ((m = 0x40 ∨ m = 0x41 ∨ m = 0x42) ∧ op ≤ 6) || decide ((m = 0x44 ∨ m = 0x45 ∨ m = 0x46) ∧ op ≤ 4)
     || decide ((m = 0x47 ∨ m = 0x49) ∧ op ≤ 6) || decide ((m = 0x48 ∨ m = 0x4A ∨ m = 0x4B ∨ m = 0x4C) ∧ op ≤ 5)
     || decide (m = 0x53 ∧ op ≤ 3))

/-- Number of words from the governed instruction's prefix to its end, and whether `rep` may govern it; none where the block ends before. A `fmt` that ends the block counts as
the governed instruction, and traps at its own word (R60, log 26). A fetch fault on a word looked at here is taken at the `rep` (log 8). -/
def governed (s : State) : Except Stop (Nat × Bool) := do
  let c := s.cpu
  need (decide (c.pc.toNat + 8 ≤ c.blockEnd)) 0x01 0 (thisWord s)
  let (w, _) ← codeWord s (c.pc + 4)
  if w / 2 ^ 25 = 0x1E then
    if c.pc.toNat + 12 ≤ c.blockEnd then
      let (x, _) ← codeWord s (c.pc + 8)
      .ok (if kWord x then 3 else 2, repWord x)
    else .ok (1, true)
  else .ok (if kWord w then 2 else 1, repWord w)

/-- A repeat with a count that is read once the encoding is found legal (R63): zero skips the governed instruction with its prefix (R132). -/
def repeatOp (s : State) (count : Except Stop Nat) (uses : List Nat) : Except Stop State := do
  let (n, ok) ← governed s
  need ok 0x01 0 (thisWord s)
  let count ← count
  needR (decide (count ≤ 65535)) 0x03
  if count = 0 then .ok (s.finish (1 + n) uses)
  else .ok ((s.finish 1 uses).onCpu fun c => c.setSt 16 16 count)

/-- `rep` with an immediate count (R132). -/
def execRep (i : BitVec 13) (s : State) : Host.Outcome State Fault Refusal := conclude s (repeatOp s (.ok i.toNat) [])

/-- `rep` with a register count (R132). -/
def execRepW (a : Fin 64) (s : State) : Host.Outcome State Fault Refusal := conclude s (repeatOp s ((readW s a 2).map fun x => x.lo.toNat) [a.val])

/-! ### Contexts -/

/-- The identifier that the next context takes: one whose entry is free (R94). Which one is not defined. -/
def State.freeId (s : State) : BitVec 20 :=
  let want := BitVec.ofNat 20 (Config.freeIdent s.freeN)
  if want ≠ 0 ∧ (s.loc want).state = .free then want
  else
    let k := ((List.range (s.locs.length + 1)).map (· + 1)).find? fun k => (s.loc (BitVec.ofNat 20 k)).state = .free
    BitVec.ofNat 20 (k.getD 1)

/-- Gives a context of a tenant in a slot its identifier and generation, and enters it in the location table (R94, R168). -/
def State.register (s : State) (h slot tenant : Nat) : BitVec 20 × BitVec 8 × State :=
  let id := s.freeId
  let g := (s.loc id).gen + 1
  let l : Loc := { Loc.free with
    state := .resident, gen := g, ten := BitVec.ofNat 6 tenant, hidx := BitVec.ofNat 11 h, slot := BitVec.ofNat 4 slot }
  (id, g, { s.setLoc id l with freeN := s.freeN + 1 })

/-- The context that `hstart` places in a slot (R133): reset values, except its argument, constant windows, trap vector, privilege and code
capability. Its first block is entered by fall-through (R51). -/
def Ctx.helper (c : Ctx) (arg : Wreg) (entry : Word) (id : BitVec 20) (g : BitVec 8) : Ctx :=
  { Ctx.reset with
    w := Ctx.reset.w.set 4 arg
    cw := c.cw, tvec := c.tvec, st := setBit 0 15 c.prv, code := c.code, fcap := c.code, tenant := c.tenant
    ident := id, gen := g, pc := entry, entry := .fall, run := .ready }

/-- `hstart`: starts helper d (R133). It waits without passing issue until every earlier write has left the store queue. -/
def execHstart (d a b : Fin 64) (s : State) : Host.Outcome State Fault Refusal := conclude s do
  let e ← readW s a 2
  let arg ← readW s b 3
  needR (decide (s.slot = 0)) 0x04
  let k := d.val + 1
  needR (!(s.ctx s.cur k).isOpen) 0x06
  needR (!(s.ctx s.cur k).live) 0x05
  if !s.cpu.sq.isEmpty then .error .stall
  let (id, g, t) := s.register s.cur k s.cpu.tenant
  let o := s.ctx s.cur k
  .ok ((t.setCtx t.cur k { t.cpu.helper arg e.lo id g with sq := o.sq, aset := o.aset }).finish 1 [a.val, b.val])

/-- The helpers that `hjoin` waits for: those of the mask, or all when the a field is 0 (R135). -/
def joinMask (a : Fin 64) (x : Wreg) : BitVec 10 := if a = 0 then 0x3FF else x.bits.setWidth 10

/-- `hjoin`: waits until the named closed helpers are idle; it passes issue even when none is left (R135). -/
def execHjoin (a : Fin 64) (s : State) : Host.Outcome State Fault Refusal := conclude s do
  let x ← readW s a 2
  needR (decide (s.slot = 0)) 0x04
  let m := joinMask a x
  passFirst s (.join m)
  if s.waitOver s.cpu s.slot (.join m) then .ok (s.finish 1 [a.val]) else .error (.park (.join m))

/-- `yield`: passes issue and stays ready (R135). -/
def execYield (s : State) : Host.Outcome State Fault Refusal :=
  conclude s (.ok ((s.finish 1 []).onCpu fun c => { c with run := .ready }))

end Sys2Proof.Machine
end

