-- ==== Sys2Proof/Machine/System.lean ====
section
/-! DEFINITION. The system instructions: system registers, time counter and constant windows (R157), format registers (R79, R80, R84), system call, breakpoint and trap return (R111, R158). -/

namespace Sys2Proof.Machine

/-- CTXID (R100). -/
def State.ctxId (s : State) : Word :=
  BitVec.ofNat 64 (s.cpu.ident.toNat + s.slot % 16 * 2 ^ 20 + s.cpu.gen.toNat * 2 ^ 24 + s.cur % 2 ^ 11 * 2 ^ 32 + s.dev % 2 ^ 13 * 2 ^ 43)

/-- A system register by its selector (R100, R157); only `tvec` has a tag. -/
def State.sysReg (s : State) (sel : Nat) : Wreg :=
  let c := s.cpu
  match sel with
  | 0 => .plain c.st
  | 1 => .plain c.epc
  | 2 => .plain c.esr
  | 3 => .plain c.ecause
  | 4 => .plain c.einfo
  | 5 => c.tvec
  | 6 => .plain (c.hdrop.setWidth 64)
  | _ => .plain s.ctxId

/-- `getsr` (R157). -/
def execGetsr (d a : Fin 64) (s : State) : Host.Outcome State Fault Refusal := conclude s do
  useW s d 1
  let x := s.sysReg a.val
  mayAppend s d x
  .ok (s.finishW 1 [] d x)

/-- What `setsr` writes by its selector (R99, R157). -/
def Ctx.writeSys (c : Ctx) (sel : Nat) (x : Wreg) : Ctx :=
  match sel with
  | 0 => { c with st := (c.st &&& ~~~stWritable) ||| (x.lo &&& stWritable) }
  | 1 => { c with epc := x.lo }
  | 2 => { c with esr := x.lo }
  | _ => { c with tvec := x }

/-- `setsr`: EPC and ESR only in trap mode (R157). -/
def execSetsr (a b : Fin 64) (s : State) : Host.Outcome State Fault Refusal := conclude s do
  need (!(decide (a.val = 1 ∨ a.val = 2)) || s.cpu.tm) 0x13 0 (thisWord s)
  let x ← readW s b 3
  .ok ((s.finish 1 [b.val]).onCpu fun c => c.writeSys a.val x)

/-- `tcnt`: the time counter at issue (R157, R412). -/
def execTcnt (d : Fin 64) (s : State) : Host.Outcome State Fault Refusal := conclude s do
  useW s d 1
  .ok (s.finishW 1 [] d (.plain (BitVec.ofNat 64 s.counter)))

/-- `setcw`: a constant window, unchecked (R157). -/
def execSetcw (d b : Fin 64) (s : State) : Host.Outcome State Fault Refusal := conclude s do
  let x ← readW s b 3
  .ok ((s.finish 1 [b.val]).onCpu fun c => { c with cw := c.cw.setIfInBounds d.val x })

/-! ### Format registers -/

/-- A valid format image (R80). -/
def fmtValid (x : Word) : Bool :=
  let sgn := bits x 0 1
  let exp := bits x 1 3
  let man := bits x 4 4
  let spc := bits x 16 1
  let clamp := bits x 24 8
  let largest := if exp = 0 then 2 ^ man - 1 else 2 ^ (exp + man) - 1 - spc
  decide (1 ≤ sgn + exp + man ∧ sgn + exp + man ≤ 8 ∧ 1 ≤ exp + man ∧ man ≤ 8 ∧ bits x 17 2 ≠ 3)
  && decide (exp = 0 → spc = 0) && decide (1 ≤ clamp ∧ clamp ≤ largest) && decide (bits x 19 5 = 0 ∧ bits x 32 32 = 0)

/-- `fmset` from a register (R84). -/
def execFmset (d b : Fin 64) (s : State) : Host.Outcome State Fault Refusal := conclude s do
  let x ← readW s b 3
  need (fmtValid x.lo) 0x01 0 (thisWord s)
  .ok ((s.finish 1 [b.val]).onCpu fun c => { c with fm := c.fm.setIfInBounds d.val x.lo })

/-- `fmset` from a constant (R84). -/
def execFmsetK (d : Fin 64) (k : KRef) (s : State) : Host.Outcome State Fault Refusal := conclude s do
  let (x, t) ← konst s k
  need (fmtValid x) 0x01 0 (thisWord s)
  .ok ((t.finish 2 []).onCpu fun c => { c with fm := c.fm.setIfInBounds d.val x })

/-- `fmget` (R84). -/
def execFmget (d a : Fin 64) (s : State) : Host.Outcome State Fault Refusal := conclude s do
  useW s d 1
  .ok (s.finishW 1 [] d (.plain ((s.cpu.fm[a.val]?).getD 0)))

/-! ### Traps and return -/

/-- `sys`: cause 0x14 with the immediate, EPC after the instruction (R110, R158). -/
def execSys (i : BitVec 13) (s : State) : Host.Outcome State Fault Refusal :=
  conclude s (.error (.trap ⟨0x14, 0, i.signExtend 64, false, true⟩))

/-- `trap`: the breakpoint, cause 0x15 with its own address, EPC after it (R110, R158). -/
def execTrap (s : State) : Host.Outcome State Fault Refusal :=
  conclude s (.error (.trap ⟨0x15, 0, s.cpu.pc, false, true⟩))

/-- `rfe`: st takes ESR and issue continues at EPC (R111). -/
def execRfe (s : State) : Host.Outcome State Fault Refusal := conclude s do
  need s.cpu.tm 0x13 0 (thisWord s)
  returnTo (s.onCpu fun c => { c with st := stRestored c.esr })

end Sys2Proof.Machine
end

