-- ==== Sys2Proof/Machine/LoadStore.lean ====
section
/-! DEFINITION. The memory instructions of a context: loads and stores (R142-R144), full/empty access (R145), atomics (R146, R147), fences (R148), hints (R149), watches (R150-R152) and gang barriers (R154). -/

namespace Sys2Proof.Machine

/-! ### Loads -/

/-- A load that may not be performed yet parks: behind a `fence.ar` (R32, R103), and one of configuration space behind a store to the same register block (R156). -/
def loadHeld (s : State) (p : Place) : Except Stop Unit :=
  if s.cpu.arHeld then .error (.park (.queue .fence))
  else if decide (regionOf p.pa = .config) && s.cpu.sq.any (fun e => match e with
      | .cfg x _ => decide (devOf x = devOf p.pa ∧ configBlock (localOf x) = configBlock (localOf p.pa))
      | _ => false) then .error (.park (.queue .store))
  else .ok ()

/-- A read of configuration space leaves through the outbound port and parks its context (R22, R156). -/
def State.loadConfig (s : State) (pa : Nat) (b : Back) (words : Nat) (uses : List Nat) (ea : Word) : State :=
  let s := s.send (s.packet (s.agentOf pa) (.cfgRead pa))
  s.onCpu fun c => { c with run := .parked .load, pend := some ⟨b, uses, words, 0, 0, none, ea.toNat, 1, 0, false, none⟩ }

/-- A load of n bytes at the address ea of the capability c, operand 2 (R139, R142). -/
def loadAt (s : State) (c : Wreg) (ea : Word) (n perm : Nat) (kind : ReadKind) (cfg : Bool) (b : Back) (words : Nat) (uses : List Nat) :
    Except Stop State := do
  let (p, t) ← access s c 2 ea n n perm .rd cfg true
  loadHeld t p
  if regionOf p.pa = .config then .ok (t.loadConfig p.pa b words uses ea)
  else .ok (t.load ⟨p.pa, p.swz, n, ones 128 n, 0, kind⟩ [] b words uses ea)

/-- `ld` (R142). -/
def execLd (d a : Fin 64) (i : BitVec 13) (s : State) : Host.Outcome State Fault Refusal := conclude s do
  useW s d 1
  let c ← readW s a 2
  loadAt s c (displaced c (i.signExtend 64)) 8 permL .plain true (.word d 8 false) 1 [a.val]

/-- `ldc`: the tag comes with LC (R144). -/
def execLdc (d a : Fin 64) (i : BitVec 13) (s : State) : Host.Outcome State Fault Refusal := conclude s do
  useW s d 1
  let c ← readW s a 2
  loadAt s c (displaced c (i.signExtend 64)) 16 permL .plain false (.granule d (capHas c permLC)) 1 [a.val]

/-- A sized load, indexed by a register (R143). An acquire adds no wait (R26, R32). -/
def execLdSized (d a b : Fin 64) (_o : Fin 8) (x : Fin 2) (z : Fin 4) (s : State) : Host.Outcome State Fault Refusal := conclude s do
  useW s d 1
  let c ← readW s a 2
  let j ← readW s b 3
  loadAt s c (displaced c j.lo) (2 ^ z.val) permL .plain true (.word d (2 ^ z.val) (decide (x = 1))) 1 [a.val, b.val]

/-- A sized load, indexed by a constant; checks that need no address come before the constant (R63, R143). -/
def execLdSizedK (d a : Fin 64) (k : KRef) (_o : Fin 8) (x : Fin 2) (z : Fin 4) (s : State) : Host.Outcome State Fault Refusal := conclude s do
  useW s d 1
  let c ← readW s a 2
  checkBefore s c k 2 permL 0
  let (j, t) ← konst s k
  loadAt t c (displaced c j) (2 ^ z.val) permL .plain true (.word d (2 ^ z.val) (decide (x = 1))) 2 [a.val]

/-! ### Stores -/

/-- A store of n bytes, after its data were read (R139-R141): `rel` is the scope code plus one of a releasing store (R32). The test of `stc` on its value stands between the
policy tag and the field-owned fault (log 84). -/
def storeAt (s : State) (c : Wreg) (ea : Word) (n perm : Nat) (x : BitVec 1024) (tag : Bool) (own : Place → Except Stop Unit) (cfg : Bool)
    (rel words : Nat) (uses : List Nat) : Except Stop State := do
  let (p, t) ← access s c 2 ea n n perm .wr cfg false
  own p
  notOwned t p 2 ea
  sqRoom t
  let t := if rel = 0 then t else t.release (rel - 1) false
  let e := if regionOf p.pa = .config then SqEntry.cfg p.pa (x.setWidth 64) else SqEntry.store [(t.agentOf p.pa, storeOp p n x tag false)]
  .ok ((t.enqueue e).finish words uses)

/-- `st` (R142). -/
def execSt (d a : Fin 64) (i : BitVec 13) (s : State) : Host.Outcome State Fault Refusal := conclude s do
  let x ← readW s d 1
  let c ← readW s a 2
  storeAt s c (displaced c (i.signExtend 64)) 8 permS (x.lo.setWidth 1024) false (fun _ => .ok ()) true 0 1 [d.val, a.val]

/-- A granule at an address lies within the bounds of a capability register that `stc` looks at (R144). -/
def frameCovers (c : Wreg) (ea : Word) : Bool :=
  c.tag && !capMalformed c && decide (capKind c = 0 ∨ capKind c = 4) && capCovers c ea.toNat 16

/-- The test that `stc` makes of a tagged value without G: a kind-4 destination, or a granule within w2 or w3 (R144). Its fault names the operand d and the effective
address (log 84). -/
def globalOk (s : State) (x c : Wreg) (ea : Word) : Except Stop Unit :=
  if x.tag && !capHas x permG && decide (capKind c = 0) then do
    useReg s.cpu 0 2
    useReg s.cpu 0 3
    need (frameCovers s.cpu.w[2] ea || frameCovers s.cpu.w[3] ea) 0x05 1 ea
  else .ok ()

/-- `stc` (R144). -/
def execStc (d a : Fin 64) (i : BitVec 13) (s : State) : Host.Outcome State Fault Refusal := conclude s do
  let x ← readW s d 1
  let c ← readW s a 2
  let ea := displaced c (i.signExtend 64)
  storeAt s c ea 16 (if x.tag then permS + permSC else permS) (x.bits.setWidth 1024) x.tag (fun _ => globalOk s x c ea) false 0 1 [d.val, a.val]

/-- A sized store, indexed by a register (R143). -/
def execStSized (d a b : Fin 64) (o : Fin 8) (z : Fin 4) (s : State) : Host.Outcome State Fault Refusal := conclude s do
  let x ← readW s d 1
  let c ← readW s a 2
  let j ← readW s b 3
  storeAt s c (displaced c j.lo) (2 ^ z.val) permS (x.lo.setWidth 1024) false (fun _ => .ok ()) true o.val 1 [d.val, a.val, b.val]

/-- A sized store, indexed by a constant; checks that need no address come before the constant (R63, R143). -/
def execStSizedK (d a : Fin 64) (k : KRef) (o : Fin 8) (z : Fin 4) (s : State) : Host.Outcome State Fault Refusal := conclude s do
  let x ← readW s d 1
  let c ← readW s a 2
  checkBefore s c k 2 permS 0
  let (j, t) ← konst s k
  storeAt t c (displaced c j) (2 ^ z.val) permS (x.lo.setWidth 1024) false (fun _ => .ok ()) true o.val 2 [d.val, a.val]

/-! ### Full/empty access (R145) -/

/-- A full/empty access reaches scratch of the own device only; the test follows the policy tag (R145, log 85). -/
def scratchOnly (s : State) (p : Place) (ea : Word) : Except Stop Unit :=
  match regionOf p.pa with
  | .scratch _ => need (decide (devOf p.pa = s.dev)) 0x09 2 ea
  | _ => trap 0x09 2 ea

/-- The store queue holds a change of full bits of a granule that a read touches (R274). -/
def Ctx.fullQueued (c : Ctx) (r : ReadOp) : Bool :=
  c.sq.any fun e =>
    match e with
    | .fullBits parts _ => parts.any fun (_, pa, swz, n) => (granules swz pa n).any fun g => (granules r.swz r.pa r.n).contains g
    | _ => false

/-- A consuming load of n bytes. It waits until no queued store of the context holds one of its bytes. -/
def fullLoad (s : State) (a b : Fin 64) (n : Nat) (clr : Bool) (back : Back) : Except Stop State := do
  let c ← readW s a 2
  let j ← readW s b 3
  let ea := displaced c j.lo
  let (p, t) ← access s c 2 ea n n permL .rd false true
  scratchOnly t p ea
  let r : ReadOp := ⟨p.pa, p.swz, n, ones 128 n, 0, .consume clr⟩
  loadHeld t p
  if decide ((t.cpu.forward r).2 ≠ 0) || t.cpu.fullQueued r then .error (.park (.queue .store))
  .ok (t.load r [] back 1 [a.val, b.val] ea)

/-- `ldfe` (R145). -/
def execLdfe (d a b : Fin 64) (s : State) : Host.Outcome State Fault Refusal := conclude s do
  useW s d 1
  fullLoad s a b 8 false (.word d 8 false)

/-- `ldfe.g` (R145). -/
def execLdfeG (d a b : Fin 64) (s : State) : Host.Outcome State Fault Refusal := conclude s do
  useW s d 1
  fullLoad s a b 16 false (.granule d false)

/-- `ldfe.p` (R145). -/
def execLdfeP (d a b : Fin 64) (s : State) : Host.Outcome State Fault Refusal := conclude s do
  useW s d 1
  useW s (d + 1) 1
  fullLoad s a b 32 false (.pair d)

/-- `ldfe.clr` (R145). -/
def execLdfeClr (d a b : Fin 64) (s : State) : Host.Outcome State Fault Refusal := conclude s do
  useW s d 1
  fullLoad s a b 8 true (.word d 8 false)

/-- `ldfe.clr.g` (R145). -/
def execLdfeClrG (d a b : Fin 64) (s : State) : Host.Outcome State Fault Refusal := conclude s do
  useW s d 1
  fullLoad s a b 16 true (.granule d false)

/-- `ldfe.clr.p` (R145). -/
def execLdfeClrP (d a b : Fin 64) (s : State) : Host.Outcome State Fault Refusal := conclude s do
  useW s d 1
  useW s (d + 1) 1
  fullLoad s a b 32 true (.pair d)

/-- The place and data of a full/empty store (R145); a walk passes issue where the store is a remote reference (R103). -/
def fullStore (s : State) (d a b : Fin 64) (pass : Bool) : Except Stop (WriteOp × State × Word) := do
  let x ← readW s d 1
  let c ← readW s a 2
  let j ← readW s b 3
  let ea := displaced c j.lo
  let (p, t) ← access s c 2 ea 16 16 permS .wr false pass
  scratchOnly t p ea
  sqRoom t
  .ok (storeOp p 16 (x.bits.setWidth 1024) false true, t, ea)

/-- `stfe` (R145). -/
def execStfe (d a b : Fin 64) (s : State) : Host.Outcome State Fault Refusal := conclude s do
  let (w, t, _) ← fullStore s d a b false
  .ok ((t.enqueue (.store [(t.agentOf w.pa, w)])).finish 1 [d.val, a.val, b.val])

/-- An atomic waits for its answer: it stands in the store queue behind the older stores, and its context parks (R36). -/
def State.parkAtomic (s : State) (dest : Agent) (op : PacketOp) (b : Back) (uses : List Nat) (ea : Word) : State :=
  (s.enqueue (.amo dest op)).onCpu fun c => { c with run := .parked .load, pend := some ⟨b, uses, 1, 0, 0, none, ea.toNat, 1, 0, false, none⟩ }

/-- A write or atomic of the own core's scratch can be performed within the cycle: no older store of the context waits, and nothing accepted before it is outstanding
(R36, R103). -/
def State.performedAtOnce (s : State) (p : Place) (n : Nat) : Bool :=
  decide (s.agentOf p.pa = .bank s.cur) && s.cpu.sq.isEmpty && s.open p && s.orderClear s.cur (.bank s.cur) p n

/-- `stfe.wait`: performed at once in the own scratch where the granule is empty and no earlier waiter is to be served first (R103, R145). -/
def execStfeWait (d a b : Fin 64) (s : State) : Host.Outcome State Fault Refusal := conclude s do
  let (w, t, ea) ← fullStore s d a b true
  if t.performedAtOnce ⟨w.pa, w.swz, none⟩ w.n && t.bitsReady (.stfeWait w) && !t.waiterAhead (.bank t.cur) w.pa w.swz w.n t.packetN then
    .ok ((t.applyWrite t.cur w).finish 1 [d.val, a.val, b.val])
  else .ok (t.parkAtomic (t.agentOf w.pa) (.stfeWait w) .none [d.val, a.val, b.val] ea)

/-! ### Atomics (R147) -/

/-- The new value of an atomic of 8n bits, none where nothing is written (R147). -/
def AmoOp.result (op : AmoOp) (n old y cmp : Nat) : Option Nat :=
  match op with
  | .add => some ((old + y) % 2 ^ (8 * n))
  | .and => some (Nat.land old y)
  | .or => some (Nat.lor old y)
  | .xor => some (Nat.xor old y)
  | .minU => some (Nat.min old y)
  | .maxU => some (Nat.max old y)
  | .swap => some y
  | .cas => if old = cmp then some y else none

/-- Performs an atomic for core h: the old value and the state after (R36, R147). -/
def State.atomic (s : State) (h : Nat) (op : AmoOp) (pa swz n : Nat) (y cmp : BitVec 64) : Nat × State :=
  let old := s.readFor h swz pa n
  let s := s.touchFor h pa n
  match op.result n old (bits y 0 (8 * n)) (bits cmp 0 (8 * n)) with
  | none => (old, s)
  | some v => (old, s.applyWrite h ⟨pa, swz, n, BitVec.ofNat 1024 v, ones 128 n, false, false⟩)

/-- An atomic with ORD `o` at a scope (R146, R147). A release waits before it leaves; `.ar` and `.acq` add no wait beyond its own (R32). -/
def amoOp (op : AmoOp) (scope : Nat) (d a b : Fin 64) (o : Fin 4) (z : Fin 2) (s : State) : Host.Outcome State Fault Refusal := conclude s do
  let cmp ← (if op = .cas then readW s d 1 else .ok .zero)
  useW s d 1
  let c ← readW s a 2
  let y ← readW s b 3
  let n := if z = 0 then 8 else 4
  let uses := if op = .cas then [d.val, a.val, b.val] else [a.val, b.val]
  let ea := capAddr c
  let (p, t) ← access s c 2 ea n n (permL + permS) .wr false true
  notOwned t p 2 ea
  if t.cpu.arHeld then .error (.park (.queue .fence))
  sqRoom t
  let t := if 2 ≤ o.val then t.release scope false else t
  if t.performedAtOnce p n then
    match t.poisonFor t.cur p.swz p.pa n (ones 128 n) with
    | some _ => trap 0x0C 2 (BitVec.ofNat 64 (ea.toNat / 16 * 16))
    | none =>
      let (old, t) := t.atomic t.cur op p.pa p.swz n y.lo cmp.lo
      .ok (t.finishW 1 uses d (.plain (BitVec.ofNat 64 old)))
  else .ok (t.parkAtomic (t.agentOf p.pa) (.amo op p.pa p.swz n y.lo cmp.lo) (.word d n false) uses ea)

/-- `amo.add` (R147). -/
def execAmoAdd (d a b : Fin 64) (o : Fin 4) (z : Fin 2) (s : State) := amoOp .add 1 d a b o z s
/-- `amo.and` (R147). -/
def execAmoAnd (d a b : Fin 64) (o : Fin 4) (z : Fin 2) (s : State) := amoOp .and 1 d a b o z s
/-- `amo.or` (R147). -/
def execAmoOr (d a b : Fin 64) (o : Fin 4) (z : Fin 2) (s : State) := amoOp .or 1 d a b o z s
/-- `amo.xor` (R147). -/
def execAmoXor (d a b : Fin 64) (o : Fin 4) (z : Fin 2) (s : State) := amoOp .xor 1 d a b o z s
/-- `amo.min.u` (R147). -/
def execAmoMinU (d a b : Fin 64) (o : Fin 4) (z : Fin 2) (s : State) := amoOp .minU 1 d a b o z s
/-- `amo.max.u` (R147). -/
def execAmoMaxU (d a b : Fin 64) (o : Fin 4) (z : Fin 2) (s : State) := amoOp .maxU 1 d a b o z s
/-- `amo.swap` (R147). -/
def execAmoSwap (d a b : Fin 64) (o : Fin 4) (z : Fin 2) (s : State) := amoOp .swap 1 d a b o z s
/-- `amo.cas` (R147). -/
def execAmoCas (d a b : Fin 64) (o : Fin 4) (z : Fin 2) (s : State) := amoOp .cas 1 d a b o z s
/-- `amo.add` at `.clu` or wider: k is 0 to 3 (R146). -/
def execAmoAddScoped (k : Fin 4) (d a b : Fin 64) (o : Fin 4) (z : Fin 2) (s : State) := amoOp .add (k.val + 2) d a b o z s
/-- `amo.and` at `.clu` or wider (R146). -/
def execAmoAndScoped (k : Fin 4) (d a b : Fin 64) (o : Fin 4) (z : Fin 2) (s : State) := amoOp .and (k.val + 2) d a b o z s
/-- `amo.or` at `.clu` or wider (R146). -/
def execAmoOrScoped (k : Fin 4) (d a b : Fin 64) (o : Fin 4) (z : Fin 2) (s : State) := amoOp .or (k.val + 2) d a b o z s
/-- `amo.xor` at `.clu` or wider (R146). -/
def execAmoXorScoped (k : Fin 4) (d a b : Fin 64) (o : Fin 4) (z : Fin 2) (s : State) := amoOp .xor (k.val + 2) d a b o z s
/-- `amo.min.u` at `.clu` or wider (R146). -/
def execAmoMinUScoped (k : Fin 4) (d a b : Fin 64) (o : Fin 4) (z : Fin 2) (s : State) := amoOp .minU (k.val + 2) d a b o z s
/-- `amo.max.u` at `.clu` or wider (R146). -/
def execAmoMaxUScoped (k : Fin 4) (d a b : Fin 64) (o : Fin 4) (z : Fin 2) (s : State) := amoOp .maxU (k.val + 2) d a b o z s
/-- `amo.swap` at `.clu` or wider (R146). -/
def execAmoSwapScoped (k : Fin 4) (d a b : Fin 64) (o : Fin 4) (z : Fin 2) (s : State) := amoOp .swap (k.val + 2) d a b o z s
/-- `amo.cas` at `.clu` or wider (R146). -/
def execAmoCasScoped (k : Fin 4) (d a b : Fin 64) (o : Fin 4) (z : Fin 2) (s : State) := amoOp .cas (k.val + 2) d a b o z s

/-! ### Fences and hints -/

/-- `fence.rel` (R32, R148). -/
def execFenceRel (c : Fin 8) (s : State) : Host.Outcome State Fault Refusal := conclude s (.ok ((s.release c.val false).finish 1 []))

/-- `fence.acq`: every earlier load has returned already (R26, R32). -/
def execFenceAcq (_c : Fin 8) (s : State) : Host.Outcome State Fault Refusal := conclude s (.ok (s.finish 1 []))

/-- `fence.ar` (R32, R148). -/
def execFenceAr (c : Fin 8) (s : State) : Host.Outcome State Fault Refusal := conclude s (.ok ((s.release c.val true).finish 1 []))

/-- A hint's address passes its checks: the capability, the page, that it names memory which can be reached, and the frame's policy tag (R46, R149). The tables are read
without a TLB. -/
def hintOk (s : State) (h t : Nat) (c : Wreg) (ea : Word) (perm : Nat) : Bool :=
  match checkCap c 2 ea perm with
  | .error _ => false
  | .ok _ =>
    capCovers c ea.toNat 1 &&
    if capKind c = 4 then
      match s.translate h t c ea.toNat .rd with
      | .ok _ => true
      | .error _ => false
    else match s.walk h t ea.toNat with
      | .error _ => false
      | .ok e =>
        let pa := e.pa + ea.toNat % 2 ^ e.bits
        (if perm = permS then e.wr else if perm = permX then e.ex else e.rd) && tableOk pa && s.reaches pa
          && decide (Tab.get 0 s.policy (frameOf pa) = e.pol.val + 1)

/-- HDROP counts dropped hints and saturates (R46). -/
def Ctx.dropHint (c : Ctx) : Ctx := { c with hdrop := if c.hdrop = BitVec.allOnes 32 then c.hdrop else c.hdrop + 1 }

/-- A hint: it moves no data that a program could see, and a dropped one is counted (R46, R149). -/
def hint (perm : Nat) (a : Fin 64) (i : BitVec 13) (s : State) : Host.Outcome State Fault Refusal := conclude s do
  let c ← readW s a 2
  let t := s.finish 1 [a.val]
  if hintOk s s.cur s.cpu.tenant c (displaced c (i.signExtend 64)) perm then .ok t else .ok (t.onCpu Ctx.dropHint)

/-- `pf` (R149). -/
def execPf (a : Fin 64) (i : BitVec 13) (s : State) := hint permL a i s
/-- `pf.w` (R149). -/
def execPfW (a : Fin 64) (i : BitVec 13) (s : State) := hint permS a i s
/-- `pf.keep` (R149). -/
def execPfKeep (a : Fin 64) (i : BitVec 13) (s : State) := hint permL a i s
/-- `pf.drop` (R149). -/
def execPfDrop (a : Fin 64) (i : BitVec 13) (s : State) := hint permL a i s

/-! ### Watches -/

/-- `mon`: reads 8 bytes and arms a watch on their line in one step (R150). -/
def execMon (d a b : Fin 64) (s : State) : Host.Outcome State Fault Refusal := conclude s do
  useW s d 1
  let c ← readW s a 2
  let j ← readW s b 3
  loadAt s c (displaced c j.lo) 8 (permL + permW) .watch false (.word d 8 false) 1 [a.val, b.val]

/-- The wake code of `mwait`, in the order 3, 4, 5, 0, 2, 1, and none while nothing has happened (R151, R152). -/
def wakeCode (s : State) (expired : Bool) : Option Nat :=
  let fired (k : Nat) := s.core.watches.any fun w => w.slot = s.slot && w.fired = some k
  if s.cpu.stopMark then some 3
  else if s.cpu.mbie && !s.cpu.mbox.isEmpty then some 4
  else if s.cpu.failedMon then some 5
  else if fired 0 then some 0
  else if fired 2 then some 2
  else if expired then some 1
  else none

/-- `mwait` returns with a code: its watches and marks are released (R151, R152). -/
def State.wake (s : State) (d : Fin 64) (uses : List Nat) (code : Nat) : State :=
  ((s.finishW 1 uses d (.plain (BitVec.ofNat 64 code))).onCpu fun c => { c with stopMark := false }).disarm

/-- `mwait`: parks with its deadline, and returns the code when it issues again; a timeout of 0 returns at once (R151). -/
def execMwait (d a : Fin 64) (s : State) : Host.Outcome State Fault Refusal := conclude s do
  useW s d 1
  let x ← readW s a 2
  match s.cpu.passed with
  | none =>
    let n := bits x.bits 0 32
    if n = 0 then .ok ((s.wake d [a.val] ((wakeCode s true).getD 1)).onCpu fun c => { c with run := .ready })
    else .error (.park (.watch (s.time + n)))
  | some t =>
    match wakeCode s (decide (s.time ≥ t)) with
    | some k => .ok (s.wake d [a.val] k)
    | none => .error (.park (.watch t))

/-! ### Gang barriers -/

/-- The gang that the core looked at serves now (R154). -/
def State.myGang (s : State) : Option Nat := s.core.gang.map (·.1)

/-- A gang barrier, with a vote's operation and operand: the first time a release goes before the arrival and the context parks; when the
instance has completed, the value is written (R154). -/
def barrierOp (scope : Fin 8) (vote : Option (Nat × Word)) (d : Fin 64) (uses : List Nat) (s : State) : Except Stop State :=
  let done (x : Word) : State :=
    match vote with
    | none => s.finish 1 uses
    | some _ => s.finishW 1 uses d (.plain x)
  match s.cpu.gbar with
  | some x => .ok ((done x).onCpu fun c => { c with gbar := none })
  | none =>
    if s.cpu.passed.isSome then .error (.park .barrier)
    else match s.myGang with
      | none => .ok (((match vote with | none => done 0 | some (_, x) => done x).release scope.val false).onCpu fun c => { c with run := .ready })
      | some _ =>
        let t := s.release scope.val false
        let t := if s.slot = 0 then t.enqueue (.barrier vote) else t
        .ok (t.parkOn .barrier)

/-- `gbar` (R154). -/
def execGbar (c : Fin 8) (s : State) : Host.Outcome State Fault Refusal := conclude s (barrierOp c none 0 [] s)

/-- `gvote` with an operation (R154). -/
def voteOp (op : Nat) (d a : Fin 64) (c : Fin 8) (s : State) : Host.Outcome State Fault Refusal := conclude s do
  useW s d 1
  let x ← readW s a 2
  barrierOp c (some (op, x.lo)) d [a.val] s

/-- `gvote.and` (R154). -/
def execGvoteAnd (d a : Fin 64) (c : Fin 8) (s : State) := voteOp 1 d a c s
/-- `gvote.or` (R154). -/
def execGvoteOr (d a : Fin 64) (c : Fin 8) (s : State) := voteOp 2 d a c s
/-- `gvote.min.u` (R154). -/
def execGvoteMinU (d a : Fin 64) (c : Fin 8) (s : State) := voteOp 3 d a c s
/-- `gvote.max.u` (R154). -/
def execGvoteMaxU (d a : Fin 64) (c : Fin 8) (s : State) := voteOp 4 d a c s
/-- `gvote.add` (R154). -/
def execGvoteAdd (d a : Fin 64) (c : Fin 8) (s : State) := voteOp 5 d a c s

end Sys2Proof.Machine
end

