-- ==== Sys2Proof/Machine/Image.lean ====
section
/-! DEFINITION. The images of saved contexts: where a synchronized stop writes them under TSAVE (R368, R380), their layout (log 40), arrivals and answers that are applied to them (R114, R170), and their data units on the storage port (R382, R407). -/

namespace Sys2Proof.Machine

/-! ### Places under TSAVE -/

/-- Where core h's part of a tenant's saved state begins: in the region that TSAVE names, 512 KiB for each core by its H-index; a region that runs past the device's memory goes
on at its start (log 40). -/
def State.savedBase (s : State) (t h : Nat) : Nat :=
  s.dev * 2 ^ 43 + (bits (s.tenantOf t).tsave 16 27 * 65536 + 0x80000 * h) % (0xC000000000 - 0x80000)

/-- Where the image of the context in a slot of core h is written: above the copy of the core's scratch memory. -/
def State.imageAt (s : State) (t h slot : Nat) : Nat := s.savedBase t h + 0x60000 + 0x2000 * slot

/-- The address that a location entry gives for its image. -/
def State.imagePa (s : State) (l : Loc) : Nat := s.dev * 2 ^ 43 + l.img.toNat

/-! ### Layout -/

/-- Number of granules of an image. -/
def imageSize : Nat := 384

/-- Two doublewords in a granule. -/
def pairOf (lo hi : Word) : BitVec 128 := BitVec.ofNat 128 (lo.toNat + hi.toNat * 2 ^ 64)

/-- A list of tags as bits. -/
def tagBits (l : List Bool) : Nat := ((List.range l.length).zip l).foldl (fun a x => a + x.2.toNat * 2 ^ x.1) 0

/-- The tags of the registers of an image: w0-w63, cw0-cw7, TVEC, the code capability and the one that the block was entered through. -/
def Ctx.imageTags (c : Ctx) : BitVec 128 := BitVec.ofNat 128 (tagBits (c.w.toList.map (·.tag) ++ c.cw.toList.map (·.tag) ++ [c.tvec.tag, c.code.tag, c.fcap.tag]))

/-- Granule i of a context's image (log 40). -/
def Ctx.imageGranule (c : Ctx) (i : Nat) : BitVec 128 :=
  if i < 64 then (if i = 0 then 0 else ((c.w[i]?).getD .zero).bits)
  else if i < 320 then BitVec.ofNat 128 (bits ((c.v[(i - 64) / 8]?).getD 0) (128 * (i % 8)) 128)
  else if i < 324 then pairOf ((c.p[2 * (i - 320)]?).getD 0) ((c.p[2 * (i - 320) + 1]?).getD 0)
  else if i < 328 then (c.lc[i - 324]?).getD 0
  else if i < 332 then pairOf ((c.fm[2 * (i - 328)]?).getD 0) ((c.fm[2 * (i - 328) + 1]?).getD 0)
  else if i < 340 then ((c.cw[i - 332]?).getD .zero).bits
  else if i < 348 then (c.mb[i - 340]?).getD 0
  else if i < 356 then (c.tb[i - 348]?).getD 0
  else match i with
    | 356 => pairOf c.st c.epc
    | 357 => pairOf c.esr c.ecause
    | 358 => pairOf c.einfo c.erh
    | 359 => pairOf c.pc c.hdr
    | 360 => c.tvec.bits
    | 361 => c.code.bits
    | 362 => c.fcap.bits
    | 363 => BitVec.ofNat 128 (c.awW.toNat + c.awV.toNat * 2 ^ 64 + c.awP.toNat * 2 ^ 96)
    | 364 => BitVec.ofNat 128 (c.hdrop.toNat + c.povr.isSome.toNat * 2 ^ 32 + (c.povr.getD 0).toNat * 2 ^ 64)
    | 365 => c.imageTags
    | _ => 0

/-- A context with the registers that an image holds, granule by granule. -/
def Ctx.ofImage (c : Ctx) (g : Nat → BitVec 128) : Ctx :=
  let half (i : Nat) : Word := BitVec.ofNat 64 (bits (g (i / 2)) (64 * (i % 2)) 64)
  { c with
    w := Vector.ofFn fun i => if i.val = 0 then .zero else ⟨g i.val, bit (g 365) i.val⟩
    v := Vector.ofFn fun i => BitVec.ofNat 1024 ((List.range 8).foldl (fun a j => a + (g (64 + 8 * i.val + j)).toNat * 2 ^ (128 * j)) 0)
    p := Vector.ofFn fun i => half (640 + i.val)
    lc := Vector.ofFn fun i => g (324 + i.val)
    fm := Vector.ofFn fun i => half (656 + i.val)
    cw := Vector.ofFn fun i => ⟨g (332 + i.val), bit (g 365) (64 + i.val)⟩
    mb := Vector.ofFn fun i => g (340 + i.val)
    tb := Vector.ofFn fun i => g (348 + i.val)
    st := half 712
    epc := half 713
    esr := half 714
    ecause := half 715
    einfo := half 716
    erh := half 717
    pc := half 718
    hdr := half 719
    tvec := ⟨g 360, bit (g 365) 72⟩
    code := ⟨g 361, bit (g 365) 73⟩
    fcap := ⟨g 362, bit (g 365) 74⟩
    awW := half 726
    awV := BitVec.ofNat 32 (bits (g 363) 64 32)
    awP := BitVec.ofNat 8 (bits (g 363) 96 8)
    hdrop := BitVec.ofNat 32 (bits (g 364) 0 32)
    povr := if bit (g 364) 32 then some (half 729) else none }

/-! ### Writing and reading -/

/-- Fires the watches of a core on lines lo to hi. -/
def Core.fireRange (c : Core) (lo hi code : Nat) : Core := { c with watches := c.watches.map fun w => if lo ≤ w.line ∧ w.line ≤ hi then w.fire code else w }

/-- What a write of n bytes by a unit of the device does beside the bytes: multicast entries of its lines close first, its pages are home, and watches on its lines fire
(R28, R150, R251, R349). -/
def State.unitWrote (s : State) (pa n : Nat) : State :=
  let lo := pa / 128
  let hi := (pa + n - 1) / 128
  let s := (s.mcast.filter fun e => !e.closed && decide (lo ≤ e.line ∧ e.line ≤ hi)).foldl (fun s e => s.mcWritten s.mcast.length e.line) s
  let s := (List.range (hi / 512 - lo / 512 + 1)).foldl (fun s i => s.takePage ((lo / 512 + i) * 65536) true) s
  { s with core := s.core.fireRange lo hi 0, cores := s.cores.map fun (k, c) => (k, c.fireRange lo hi 0) }

/-- Whole granules from an address become zero, their tags and poison clear. -/
def Memory.clearBlock (m : Memory) (a n : Nat) : Memory where
  cells := m.cells.filter fun c => !(decide (a ≤ c.1 ∧ c.1 < a + n))
  tags := m.tags.filter fun c => !(decide (a / 16 ≤ c.1 ∧ c.1 < (a + n) / 16))
  poison := m.poison.filter fun c => !(decide (a / 16 ≤ c.1 ∧ c.1 < (a + n) / 16))
  empty := m.empty

/-- Writes a granule. -/
def Memory.setGranule (m : Memory) (a : Nat) (x : BitVec 128) : Memory := m.write ⟨a, 0, 16, x.setWidth 1024, ones 128 16, false, false⟩

/-- A granule of memory. -/
def Memory.granule (m : Memory) (a : Nat) : BitVec 128 := BitVec.ofNat 128 (m.read 0 a 16)

/-- Writes a context's image. -/
def Memory.putImage (m : Memory) (a : Nat) (c : Ctx) : Memory :=
  (List.range imageSize).foldl (fun m i => if c.imageGranule i = 0 then m else m.setGranule (a + 16 * i) (c.imageGranule i)) (m.clearBlock a (16 * imageSize))

/-- A context with the registers of the image at an address. -/
def Ctx.fromMemory (c : Ctx) (m : Memory) (a : Nat) : Ctx := c.ofImage fun i => m.granule (a + 16 * i)

/-- Writes the granules of an image that differ between two contexts. -/
def State.putChanges (s : State) (a : Nat) (old new : Ctx) : State :=
  (List.range imageSize).foldl (fun s i =>
    if old.imageGranule i = new.imageGranule i then s
    else let s := s.unitWrote (a + 16 * i) 16; { s with mem := s.mem.setGranule (a + 16 * i) (new.imageGranule i) }) s

/-- The registers of the context in a slot: of a saved one as its image holds them (R114, R170). -/
def State.regsAt (s : State) (h slot : Nat) : Ctx :=
  let c := s.ctx h slot
  if h < 2048 then c else c.fromMemory s.mem (s.imagePa (s.loc c.ident))

/-- Changes the registers of the context in a slot: of a saved one in its image (R114, R170). -/
def State.onRegs (s : State) (h slot : Nat) (f : Ctx → Ctx) : State :=
  let c := s.regsAt h slot
  (if h < 2048 then s else s.putChanges (s.imagePa (s.loc c.ident)) c (f c)).setCtx h slot (f c)

/-- Where the registers of a context stand: in its slot, or where a stop has saved them; a yielded continuation and a paged-out image have none (R113, R170, R382). -/
def State.heldAt (s : State) (id : BitVec 20) : Option (Nat × Nat) :=
  let l := s.loc id
  let is (c : Ctx) : Bool := c.live && c.ident = id && c.gen = l.gen
  match l.state with
  | .free | .cold => none
  | .resident | .moving => if is (s.ctx l.hidx.toNat l.slot.toNat) then some (l.hidx.toNat, l.slot.toNat) else none
  | .saved => (s.ctxs.find? fun x => decide (ctxKey 2048 0 ≤ x.1) && is x.2).map fun x => (x.1 / 16, x.1 % 16)

/-! ### Cold images (R382, R407) -/

/-- A key slot that nothing has been stored in. -/
def KeySlot.blank : KeySlot := ⟨0, 0, 0, 0⟩
/-- A tenant's key slot. -/
def Module.key (m : Module) (t : Nat) : KeySlot := Tab.get KeySlot.blank m.kslot t

/-- The tweak of a data unit (R407). -/
def coldTweak (id unit : Nat) : Nat := id + unit * 2 ^ 32

/-- Number of data units of an image: of one that a stop saved, or of the save area of a yielded continuation (R378); one more holds the tags of its granules (log 40). -/
def State.imageUnits (s : State) (id : BitVec 20) : Nat := if (s.heldAt id).isSome then 12 else 11

/-- The contents of data unit u of the image at an address, of which n units are bytes and the next its tags. -/
def Memory.imageUnit (m : Memory) (a n u : Nat) : BitVec 4096 :=
  if u < n then BitVec.ofNat 4096 (m.read 0 (a + 512 * u) 512)
  else BitVec.ofNat 4096 (tagBits ((List.range (32 * n)).map fun i => m.tagAt (a / 16 + i)))

/-- Writes bytes and tags of an image from its data units. -/
def Memory.putUnits (m : Memory) (a : Nat) (l : List (BitVec 4096)) : Memory :=
  let n := l.length - 1
  (List.range (32 * n)).foldl (fun m i =>
    let x := BitVec.ofNat 128 (bits (l.getD (i / 32) 0) (128 * (i % 32)) 128)
    let t := bit (l.getD n 0) i
    let m := if x = 0 then m else m.setGranule (a + 16 * i) x
    m.setTag (a / 16 + i) t) (m.clearBlock a (512 * n))

/-- The image of a context is paged out: every data unit is encrypted under its tenant's key in force (R382, R407). -/
def State.pageOut (s : State) (id : BitVec 20) (l : Loc) : State :=
  let n := s.imageUnits id
  let key := (s.mdl.key l.ten.toNat).key
  let units := (List.range (n + 1)).map fun u => xtsUnit false key (coldTweak id.toNat u) (s.mem.imageUnit (s.imagePa l) n u)
  { s with mdl := { s.mdl with cold := Tab.set [] s.mdl.cold id.toNat units } }

/-- An image is brought back to the place that its entry now names: its data units are decrypted under the tenant's key in force (R382, R407). -/
def State.pageIn (s : State) (id : BitVec 20) (l : Loc) : State :=
  let key := (s.mdl.key l.ten.toNat).key
  let enc := Tab.get [] s.mdl.cold id.toNat
  let units := ((List.range enc.length).zip enc).map fun (u, x) => xtsUnit true key (coldTweak id.toNat u) x
  let s := { s with mdl := { s.mdl with cold := Tab.set [] s.mdl.cold id.toNat [] } }
  if enc.isEmpty then s
  else
    let s := s.unitWrote (s.imagePa l) (512 * (enc.length - 1))
    { s with mem := s.mem.putUnits (s.imagePa l) units }

/-- A privileged store changes a location entry: from saved to cold its image has been paged out, and from cold to saved it has been brought back (R168, R382). -/
def State.storeLoc (s : State) (id : BitVec 20) (new : Loc) : State :=
  match (s.loc id).state, new.state with
  | .saved, .cold => (s.pageOut id (s.loc id)).setLoc id new
  | .cold, .saved => (s.pageIn id new).setLoc id new
  | _, _ => s.setLoc id new

end Sys2Proof.Machine
end

