-- ==== Sys2Proof/Machine/Fabric.lean ====
section
/-! DEFINITION. The register fabric: names of registers (R159, R161), sending a value (R162), awaiting bits (R163), and the arrival path (R164-R171). -/

namespace Sys2Proof.Machine

/-! ### Names and awaiting bits -/

/-- The name of n + 1 registers of a class of the context looked at, from register a on (R159, R161). -/
def State.nameOf (s : State) (cls a n : Nat) (sc : Bool) : Wreg :=
  let f := s.dev * 2 ^ 43 + 0x20000000000 + s.cpu.ident.toNat * 2 ^ 17 + cls * 2 ^ 13 + a * 2 ^ 7
  let perm := permN + permG + permD + (if sc then permSC else 0)
  ⟨BitVec.ofNat 128 (f + s.cpu.gen.toNat * 2 ^ 56 + perm * 2 ^ 64 + 1 * 2 ^ 80 + n * 2 ^ 84 + s.cpu.tenant % 64 * 2 ^ 90), true⟩

/-- `rcap` (R161). It neither reads the registers it names nor waits on them. -/
def execRcap (d a b : Fin 64) (c : Fin 4) (s : State) : Host.Outcome State Fault Refusal := conclude s do
  useW s d 1
  .ok (s.finishW 1 [] d (s.nameOf c.val a.val b.val false))

/-- `rcap.c`: a name that may carry tags (R161). -/
def execRcapC (d a b : Fin 64) (s : State) : Host.Outcome State Fault Refusal := conclude s do
  useW s d 1
  .ok (s.finishW 1 [] d (s.nameOf 0 a.val b.val true))

/-- Sets or clears the awaiting bits of registers a to a + n of a class (R161, R163). -/
def Ctx.markAwait (c : Ctx) (cls a n : Nat) (on : Bool) : Ctx :=
  let mask := (2 ^ (n + 1) - 1) * 2 ^ a
  let f {w : Nat} (x : BitVec w) : BitVec w := if on then x ||| BitVec.ofNat w mask else x &&& ~~~(BitVec.ofNat w mask)
  match cls with
  | 0 => { c with awW := f c.awW }
  | 1 => { c with awV := f c.awV }
  | _ => { c with awP := f c.awP }

/-- A register of a class is bound to a stream generator (R242, R246). -/
def Ctx.boundIn (c : Ctx) (cls r : Nat) : Bool :=
  match cls with
  | 0 => (c.boundW r).isSome
  | 1 => (c.boundV r).isSome
  | _ => false

/-- `rarm`: sets awaiting bits at issue; a range with a bound register is refused (R161, R246). -/
def execRarm (a b : Fin 64) (c : Fin 4) (s : State) : Host.Outcome State Fault Refusal := conclude s do
  needR ((List.range (b.val + 1)).all fun i => !s.cpu.boundIn c.val (a.val + i)) 0x63
  .ok ((s.finish 1 []).onCpu fun x => x.markAwait c.val a.val b.val true)

/-- `rdis`: clears awaiting bits; the registers keep their values (R161). -/
def execRdis (a b : Fin 64) (c : Fin 4) (s : State) : Host.Outcome State Fault Refusal :=
  conclude s (.ok ((s.finish 1 []).onCpu fun x => x.markAwait c.val a.val b.val false))

/-- The awaiting bits of a class. -/
def Ctx.awaitMask (c : Ctx) (cls : Nat) : Word :=
  match cls with
  | 0 => c.awW
  | 1 => c.awV.setWidth 64
  | _ => c.awP.setWidth 64

/-- `rstat` (R161). Its range is no use, but its own destination is, and parks it while it awaits (R163, log 87). -/
def execRstat (d : Fin 64) (c : Fin 4) (s : State) : Host.Outcome State Fault Refusal := conclude s do
  useW s d 1
  .ok (s.finishW 1 [] d (.plain (s.cpu.awaitMask c.val)))

/-- A name made into a sealed grant for tenant t (R161). -/
def grantOf (c : Wreg) (t : Nat) : Wreg :=
  ⟨setBits (setBits (setBits (setBits c.bits 96 1 1) 97 6 t) 77 3 1) 80 4 3, true⟩

/-- `rcap.x`: a sealed cross-tenant name; privileged (R161). -/
def execRcapX (d a b : Fin 64) (s : State) : Host.Outcome State Fault Refusal := conclude s do
  privileged s (thisWord s)
  useW s d 1
  let c ← readW s a 2
  need (c.tag && !capMalformed c) 0x03 2 (capAddr c)
  need (decide (capKind c ≠ 3)) 0x06 2 (capAddr c)
  need (decide (capKind c = 1) && capHas c permN) 0x05 2 (capAddr c)
  let r := grantOf c b.val
  mayAppend s d r
  .ok (s.finishW 1 [a.val] d r)

/-! ### Sending (R162) -/

/-- The source register of `rput`: its value and its tag. -/
def rputSource (s : State) (cls : Nat) (b : Fin 64) : Except Stop (BitVec 1024 × Bool × Bool) :=
  match cls with
  | 0 => do
    let x ← readW s b 3
    .ok (x.bits.setWidth 1024, x.tag, capHas x permG)
  | 1 => do
    let x ← readV s b 3
    .ok (x, false, false)
  | _ => do
    let x ← readP s b.val
    .ok (x.setWidth 1024, false, false)

/-- A device number that a packet can be sent to: it exists (R18), and it is the own one or has a route (R409). -/
def State.routed (s : State) (n : Nat) : Bool := decide (n < 6144) && (decide (n = s.dev) || decide (Tab.get 0 s.mdl.rtab n &&& 0x80808080#64 ≠ 0))

/-- The checks of `rput` on the name, and the name that it sends through (R162). The fault of a tagged source that may not be sent names the operand b and the address of
the name (log 86). -/
def rputName (s : State) (c : Wreg) (cls k : Nat) (tag g : Bool) : Except Stop Wreg := do
  need (c.tag && !capMalformed c) 0x03 2 (capAddr c)
  need (decide (capKind c ≠ 3) || (decide (capOkind c = 1) && bit c.bits 96)) 0x06 2 (capAddr c)
  let n := if capKind c = 3 then unsealed c else c
  need (decide (capKind n = 1) && capHas n permN) 0x05 2 (capAddr c)
  need (decide (k ≤ bits n.bits 84 6)) 0x04 2 (capAddr c)
  need (decide (bits n.bits 13 4 = cls)) 0x05 2 (capAddr c)
  need (!(decide (cls = 0) && tag) || (capHas n permSC && g)) 0x05 3 (capAddr c)
  need (s.routed (bits n.bits 43 13)) 0x09 2 (capAddr c)
  .ok n

/-- What `rput` sends (R162). -/
def State.arrivalOf (s : State) (n : Wreg) (k : Nat) (x : BitVec 1024) (tag : Bool) : Arrival where
  faddr := bits n.bits 0 56 + 128 * k
  gen := BitVec.ofNat 8 (bits n.bits 56 8)
  ten := bits n.bits 90 6
  xt := bit n.bits 96
  sten := bits n.bits 97 6
  sender := s.cpu.ident
  sgen := s.cpu.gen
  sten0 := s.cpu.tenant
  sh := s.cur
  sslot := s.slot
  seq := s.cpu.seqs[0]
  value := x
  tag := tag
  atPort := none

/-- An arrival enters the arrival path at once, or behind its release from `.cl` on, which stands in the store queue (at `.ctx` a release needs nothing, R31), or behind an earlier arrival for the same context, that waits in the store queue (R42, R172). -/
def State.sendArrival (s : State) (rel : Bool) (a : Arrival) : State :=
  let behind := (rel && !s.cpu.sq.isEmpty) || s.cpu.sq.any fun e => match e with | .rput b => decide (b.faddr / 2 ^ 17 = a.faddr / 2 ^ 17) | _ => false
  if behind then s.enqueue (.rput a) else { s with arrivals := s.arrivals ++ [a] }

/-- `rput` (R162, R165, R259). -/
def execRput (d a b : Fin 64) (o : Fin 8) (c : Fin 4) (s : State) : Host.Outcome State Fault Refusal := conclude s do
  let n ← readW s a 2
  let (x, tag, g) ← rputSource s c.val b
  let n ← rputName s n c.val d.val tag g
  if s.cpu.credits ≥ 8 then .error (.park .credit)
  let t := if o = 0 then s else s.release (o.val - 1) false
  let r := t.arrivalOf n d.val x tag
  let uses := match c with | 0 => [a.val, b.val] | 1 => [a.val, vId b.val] | _ => [a.val]
  let t := (t.takeSeq 0).2.sendArrival (decide (o.val ≥ 2)) r
  .ok ((t.finish 1 uses).onCpu fun c => { c with credits := c.credits + 1 })

/-! ### The arrival path -/

/-- The context identifier, class and register that an arrival names (R21, R159). -/
def Arrival.ident (a : Arrival) : BitVec 20 := BitVec.ofNat 20 (a.faddr / 2 ^ 17)
/-- The class. -/
def Arrival.cls (a : Arrival) : Nat := a.faddr / 2 ^ 13 % 16
/-- The register number. -/
def Arrival.reg (a : Arrival) : Nat := a.faddr / 2 ^ 7 % 64

/-- EINFO of the register overwrite that an arrival causes (R110). -/
def Arrival.overwrite (a : Arrival) : Word := BitVec.ofNat 64 (a.reg + a.cls * 64 + a.sender.toNat * 2 ^ 32)

/-- An arrival leaves the path, and its credit is on its way back (R165). -/
def State.arrivalDone (s : State) (k : Nat) (a : Arrival) : State :=
  { s with arrivals := listDrop s.arrivals k, creditsDue := s.creditsDue ++ [(a.sender, a.sgen)] }

/-- The arrival path may refuse an arrival: no earlier refusal waits for the sender's mailbox (R260). Else the arrival waits at its port. -/
def State.mayRefuse (s : State) (a : Arrival) : Bool := s.mayPost a.sender a.sgen 0

/-- A refused arrival: its sender is told (R166). -/
def State.refuseArrival (s : State) (k : Nat) (a : Arrival) (reason : Nat) : State :=
  if !s.mayRefuse a then s
  else (s.arrivalDone k a).post a.sender a.sgen
    (message 2 0 (if reason = 0x20 then 0x0D else 0x12) reason 0 a.seq.toNat 0 (a.faddr + a.gen.toNat * 2 ^ 56))

/-- Applies an arrival to the registers of a context: it writes an awaiting register and clears its bit (R164). -/
def Ctx.land (c : Ctx) (a : Arrival) : Ctx :=
  let c := c.markAwait a.cls a.reg 0 false
  match a.cls with
  | 0 => { c with w := c.w.setIfInBounds a.reg ⟨a.value.setWidth 128, a.tag⟩ }
  | 1 => { c with v := c.v.setIfInBounds a.reg a.value }
  | _ => { c with p := c.p.setIfInBounds a.reg (a.value.setWidth 64) }

/-- Applies an arrival to a context, or records the overwrite; one is pending at a time (R164, R170). A bound register refuses it and records nothing (R246). -/
def State.landAt (s : State) (h slot k : Nat) (a : Arrival) : State :=
  let c := s.ctx h slot
  if c.awaits a.cls a.reg then (s.setCtx h slot (c.land a)).arrivalDone k a
  else if c.boundIn a.cls a.reg then s.refuseArrival k a 0x20
  else if s.mayRefuse a then (s.setCtx h slot { c with povr := some (c.povr.getD a.overwrite) }).refuseArrival k a 0x20
  else s

/-- The copy of an awaiting bit in a cold entry (R171). -/
def Loc.awaits (l : Loc) (a : Arrival) : Bool :=
  match a.cls with
  | 0 => bit l.aww a.reg
  | 1 => bit l.awv a.reg
  | _ => bit l.awp a.reg

/-- Clears the copy of an awaiting bit. -/
def Loc.clear (l : Loc) (a : Arrival) : Loc :=
  match a.cls with
  | 0 => { l with aww := setBit l.aww a.reg false }
  | 1 => { l with awv := setBit l.awv a.reg false }
  | _ => { l with awp := setBit l.awp a.reg false }

/-- An entry records a pending overwrite (R170, R171). -/
def Loc.overwritten (l : Loc) (a : Arrival) : Loc := { l with pov := true, povInfo := if l.pov then l.povInfo else a.overwrite }

/-- The queued arrivals of a context that were deferred while it was cold and have not been applied yet (R171). -/
def State.deferredFor (s : State) (id : BitVec 20) : List Arrival := (s.tenantOf (s.loc id).ten.toNat).deferred.filter fun a => a.ident = id

/-- Appends an arrival to its tenant's deferred-arrival queue (R171). -/
def State.defer (s : State) (t : Nat) (a : Arrival) : State := s.setTenant t { s.tenantOf t with deferred := (s.tenantOf t).deferred ++ [a] }

/-- The notice of a write to a queue of a tenant with a cold context (R382). -/
def State.coldNotice (s : State) (t : Nat) (id : BitVec 20) : State :=
  s.postId (s.tenantOf t).sysctx (message 3 7 0 0 0 0 0 (t + id.toNat * 2 ^ 16))

/-- A deferred arrival is applied to the registers of its context (R171). -/
def State.applyDeferred (s : State) (a : Arrival) : State :=
  match s.heldAt a.ident with
  | some (h, slot) => s.onRegs h slot fun c => c.land a
  | none => s

/-- The deferred arrivals of a context are applied to its registers in queue order, and their entries are free (R171). -/
def State.undefer (s : State) (id : BitVec 20) : State :=
  let t := (s.loc id).ten.toNat
  let s' := (s.deferredFor id).foldl State.applyDeferred s
  s'.setTenant t { s'.tenantOf t with deferred := (s'.tenantOf t).deferred.filter fun a => a.ident ≠ id }

/-- The overwrite that a saved image records: the one it holds, else the one its entry recorded while it was cold, else this arrival's (R170, R171). -/
def Ctx.recordOverwrite (c : Ctx) (l : Loc) (a : Arrival) : Ctx := { c with povr := some (c.povr.getD (if l.pov then l.povInfo else a.overwrite)) }

/-- Applies an arrival to the image of a saved context, or records the overwrite there and in its entry (R170). -/
def State.landImage (s : State) (h slot k : Nat) (a : Arrival) : State :=
  let c := s.regsAt h slot
  let l := s.loc a.ident
  if c.awaits a.cls a.reg then (s.onRegs h slot fun c => c.land a).arrivalDone k a
  else if c.boundIn a.cls a.reg then s.refuseArrival k a 0x20
  else if s.mayRefuse a then ((s.onRegs h slot fun c => c.recordOverwrite l a).setLoc a.ident (l.overwritten a)).refuseArrival k a 0x20
  else s

/-- An entry records an overwrite for an arrival whose context has no registers within reach, and the arrival is refused (R170, R171). -/
def State.landEntry (s : State) (k : Nat) (a : Arrival) : State :=
  if s.mayRefuse a then (s.setLoc a.ident ((s.loc a.ident).overwritten a)).refuseArrival k a 0x20 else s

/-- Applies an arrival to a saved image (R170). Arrivals that were deferred while it was cold are applied first, in their order (R171, R172, log 40). A migration that blocks the
image's page holds it back. -/
def State.landSaved (s : State) (k : Nat) (a : Arrival) : State :=
  let l := s.loc a.ident
  if s.isBlocked (frameOf l.img.toNat) then s
  else match s.heldAt a.ident with
    | none => s.landEntry k a
    | some (h, slot) => (s.undefer a.ident).landImage h slot k a

/-- Resolves an arrival through the context location table (R167, R169-R171). -/
def State.resolve (s : State) (k : Nat) (a : Arrival) : State :=
  let l := s.loc a.ident
  if l.state = .free ∨ l.gen ≠ a.gen then s.refuseArrival k a 0x21
  else if a.sten0 ≠ a.ten ∧ ¬(a.xt = true ∧ a.sten = a.sten0) then s.refuseArrival k a 0x22
  else match l.state with
    | .free | .moving => s
    | .resident =>
      if (s.arrivals.filter fun b => b.atPort.map (·.1) = some l.hidx.toNat).length ≥ 32 then s
      else { s with arrivals := listSet s.arrivals k { a with atPort := some (l.hidx.toNat, l.slot.toNat) } }
    | .saved => s.landSaved k a
    | .cold =>
      if l.awaits a then
        if (s.tenantOf l.ten.toNat).deferred.length ≥ 4096 then s.refuseArrival k a 0x23
        else (((s.setLoc a.ident (l.clear a)).defer l.ten.toNat a).coldNotice l.ten.toNat a.ident).arrivalDone k a
      else s.landEntry k a

/-- The destination agent of an arrival: the core whose context it names, while one is resident, or else that context's entry. -/
def State.arrivalDest (s : State) (a : Arrival) : Nat :=
  let l := s.loc a.ident
  if a.faddr / 2 ^ 43 = s.dev ∧ l.state = .resident then l.hidx.toNat else 2048 + a.faddr / 2 ^ 17

/-- An earlier arrival that left the same core towards the same destination, or of the same sender to the same context, is still on its way (R12, R24, R172). -/
def State.arrivalAhead (s : State) (k : Nat) (a : Arrival) : Bool :=
  (s.arrivals.take k).any fun b =>
    decide (b.sh = a.sh ∧ s.arrivalDest b = s.arrivalDest a) || decide (b.sender = a.sender ∧ b.sgen = a.sgen ∧ b.faddr / 2 ^ 17 = a.faddr / 2 ^ 17)

/-- FAB_ARRIVAL_RESOLVE: an arrival reaches the arrival port of its device and is resolved there (R169). At another device it is out of this
machine's sight: it has been applied, placed or refused there (R165). -/
def State.fabResolve (s : State) (k : Nat) : Option State :=
  match s.arrivals[k]? with
  | none => none
  | some a =>
    if a.atPort.isSome || s.arrivalAhead k a then none
    else if a.faddr / 2 ^ 43 ≠ s.dev then some (s.arrivalDone k a)
    else some (s.resolve k a)

/-- `FAB_ARRIVAL_RESOLVE`. -/
def execFabArrivalResolve (k : Nat) (s : State) : Host.Outcome State Fault Refusal := event s (s.fabResolve k)

/-- ARRIVAL_APPLY: the core applies one arrival of its port (R164); one whose context is no longer there is resolved again, and one from another
tenant to a context halted at a stop waits (R174). -/
def State.applyArrival (s : State) (k : Nat) : Option State :=
  match s.arrivals[k]? with
  | none => none
  | some a =>
    match a.atPort with
    | none => none
    | some (h, slot) =>
      let l := s.loc a.ident
      if s.arrivalAhead k a then none
      else if l.state = .resident ∧ l.gen = a.gen ∧ l.hidx.toNat = h ∧ l.slot.toNat = slot then
        match (s.ctx h slot).run with
        | .halted .stop _ => none
        | _ => some (s.landAt h slot k a)
      else some { s with arrivals := listSet s.arrivals k { a with atPort := none } }

/-- `ARRIVAL_APPLY`. -/
def execArrivalApply (k : Nat) (s : State) : Host.Outcome State Fault Refusal := event s (s.applyArrival k)

/-- ARRIVAL_CREDIT_RETURN: a credit reaches its context (R165); it stays due while the context is moving or its image is away. -/
def State.creditReturn (s : State) (k : Nat) : Option State :=
  match s.creditsDue[k]? with
  | none => none
  | some (id, g) =>
    let t := { s with creditsDue := listDrop s.creditsDue k }
    if (s.loc id).gen ≠ g ∨ (s.loc id).state = .free then some t
    else match s.heldAt id with
      | some (h, slot) => some (t.setCtx h slot { t.ctx h slot with credits := (t.ctx h slot).credits - 1 })
      | none => none

/-- `ARRIVAL_CREDIT_RETURN`. -/
def execArrivalCreditReturn (k : Nat) (s : State) : Host.Outcome State Fault Refusal := event s (s.creditReturn k)

/-- LOCATION_SAVED_TO_COLD: a privileged store changes a saved entry to cold, its image having been paged out (R168, R382). -/
def execLocationSavedToCold (id : Nat) (s : State) : Host.Outcome State Fault Refusal :=
  let i := BitVec.ofNat 20 id
  let l := s.loc i
  event s (if l.state = .saved then some (s.storeLoc i { l with state := .cold }) else none)

/-- LOCATION_COLD_TO_SAVED: a privileged store changes a cold entry to saved, its image having been brought back (R168, R382). -/
def execLocationColdToSaved (id : Nat) (s : State) : Host.Outcome State Fault Refusal :=
  let i := BitVec.ofNat 20 id
  let l := s.loc i
  event s (if l.state = .cold then some (s.storeLoc i { l with state := .saved }) else none)

end Sys2Proof.Machine
end

