-- ==== Sys2Proof/Machine/Numbers.lean ====
section
/-! DEFINITION. Number formats: binary32, binary16 and bfloat16 with exact operations rounded once (R73-R77), the narrow formats of the format registers (R79-R82), and conversions into them (R83). -/

namespace Sys2Proof.Machine

/-! ### Exact values -/

/-- Integer square root, bit by bit from bit k - 1 down. -/
def isqrtFrom (n : Nat) : Nat → Nat → Nat
  | 0, r => r
  | k + 1, r => isqrtFrom n k (if (r + 2 ^ k) * (r + 2 ^ k) ≤ n then r + 2 ^ k else r)

/-- The largest integer whose square is at most n. -/
def isqrt (n : Nat) : Nat := isqrtFrom n (Nat.log2 n / 2 + 1) 0

/-- A real number other than zero, exact or between two neighbours: its magnitude is m × 2^e, or strictly between that and (m + 1) × 2^e when `st`. -/
structure Ex where
  neg : Bool
  m   : Nat
  e   : Int
  st  : Bool
deriving DecidableEq, Repr

/-- A floating-point operand. -/
inductive Fp where
  | nan (signalling : Bool)
  | inf (neg : Bool)
  | fin (neg : Bool) (m : Nat) (e : Int)
deriving DecidableEq, Repr

/-- A signed integer that stands for the value of a finite operand in units of 2^e0. -/
def scaled (neg : Bool) (m : Nat) (e e0 : Int) : Int := (if neg then -1 else 1) * ((m * 2 ^ (e - e0).toNat : Nat) : Int)

/-- The rounding modes of R74. -/
inductive Rnd where
  | rne | rtz | rup | rdn | rna
deriving DecidableEq, Repr

/-- A magnitude of n units, with a remainder: whether the rounding goes up. `half` compares the remainder with one half: 0 below, 1 equal, 2 above. -/
def Rnd.up (r : Rnd) (neg : Bool) (n : Nat) (half : Nat) (inexact : Bool) : Bool :=
  match r with
  | .rne => decide (half = 2) || (decide (half = 1) && decide (n % 2 = 1))
  | .rtz => false
  | .rup => inexact && !neg
  | .rdn => inexact && neg
  | .rna => decide (half ≥ 1)

/-- A magnitude rounded to a multiple of 2^q: the multiple, and whether it differs from the value. -/
def Ex.toGrid (x : Ex) (r : Rnd) (q : Int) : Nat × Bool :=
  if q ≤ x.e then
    let n := x.m * 2 ^ (x.e - q).toNat
    if x.st then (if r.up x.neg n 0 true then n + 1 else n, true) else (n, false)
  else
    let k := (q - x.e).toNat
    let n := x.m / 2 ^ k
    let rem := x.m % 2 ^ k
    let h := 2 ^ (k - 1)
    let half := if rem < h then 0 else if rem = h ∧ x.st = false then 1 else 2
    let inexact := decide (rem ≠ 0) || x.st
    (if r.up x.neg n half inexact then n + 1 else n, inexact)

/-- The exponent of the leading bit of a magnitude. -/
def Ex.lead (x : Ex) : Int := (Nat.log2 x.m : Int) + x.e

/-! ### Binary floating point (R73) -/

/-- A floating-point format: exponent and stored mantissa bits. -/
structure FpFmt where
  eb : Nat
  mb : Nat
deriving DecidableEq, Repr

/-- binary32. -/
def f32 : FpFmt := ⟨8, 23⟩
/-- binary16. -/
def f16 : FpFmt := ⟨5, 10⟩
/-- bfloat16. -/
def bf16 : FpFmt := ⟨8, 7⟩

/-- Width of a format. -/
def FpFmt.width (f : FpFmt) : Nat := 1 + f.eb + f.mb
/-- The bias. -/
def FpFmt.bias (f : FpFmt) : Nat := 2 ^ (f.eb - 1) - 1
/-- The exponent of the smallest normal value. -/
def FpFmt.emin (f : FpFmt) : Int := 1 - (f.bias : Int)
/-- The canonical NaN (R75). -/
def FpFmt.nan (f : FpFmt) : Nat := (2 ^ f.eb - 1) * 2 ^ f.mb + 2 ^ (f.mb - 1)
/-- An infinity. -/
def FpFmt.inf (f : FpFmt) (neg : Bool) : Nat := neg.toNat * 2 ^ (f.eb + f.mb) + (2 ^ f.eb - 1) * 2 ^ f.mb
/-- A zero. -/
def FpFmt.zero (f : FpFmt) (neg : Bool) : Nat := neg.toNat * 2 ^ (f.eb + f.mb)

/-- Decodes the bits of a format. -/
def FpFmt.decode (f : FpFmt) (x : Nat) : Fp :=
  let neg := decide (x / 2 ^ (f.eb + f.mb) % 2 = 1)
  let e := x / 2 ^ f.mb % 2 ^ f.eb
  let m := x % 2 ^ f.mb
  if e = 2 ^ f.eb - 1 then (if m = 0 then .inf neg else .nan (decide (m < 2 ^ (f.mb - 1))))
  else if e = 0 then .fin neg m (f.emin - f.mb)
  else .fin neg (2 ^ f.mb + m) ((e : Int) - f.bias - f.mb)

/-- A value rounded once to a format, with its flags OF, UF and IX (R74, R76). -/
def FpFmt.round (f : FpFmt) (r : Rnd) (x : Ex) : Nat × Sticky :=
  let l := x.lead
  let q := max l f.emin - f.mb
  let (n, ix) := x.toGrid r q
  let (n', _) := x.toGrid r (l - f.mb)
  let tiny := decide (l < f.emin) && !(decide (n' = 2 ^ (f.mb + 1)) && decide (l + 1 = f.emin))
  let e := (q + f.mb - f.emin).toNat
  -- a carry into the next exponent leaves the code of the next power of two
  let code := e * 2 ^ f.mb + n
  let top := (2 ^ f.eb - 1) * 2 ^ f.mb
  let s := x.neg.toNat * 2 ^ (f.eb + f.mb)
  if code ≥ top then
    let toInf := match r with | .rne | .rna => true | .rtz => false | .rup => !x.neg | .rdn => x.neg
    (s + (if toInf then top else top - 1), { ofl := true, ix := true })
  else (s + code, { uf := tiny && ix, ix := ix })

/-- A signalling operand sets NV (R75). -/
def Fp.snan : Fp → Bool
  | .nan s => s
  | _ => false

/-- A NaN. -/
def Fp.isNan : Fp → Bool
  | .nan _ => true
  | _ => false

/-- A finite value of a format as an exact result: a zero keeps its sign. -/
def FpFmt.ofFin (f : FpFmt) (r : Rnd) (neg : Bool) (m : Nat) (e : Int) : Nat × Sticky :=
  if m = 0 then (f.zero neg, {}) else f.round r ⟨neg, m, e, false⟩

/-- An operand converted to a format: exact or rounded once; a NaN is canonical (R75). -/
def FpFmt.convert (f : FpFmt) (r : Rnd) : Fp → Nat × Sticky
  | .nan s => (f.nan, { nv := s })
  | .inf n => (f.inf n, {})
  | .fin n m e => f.ofFin r n m e

/-- The sum of two operands, rounded once; the sign of an exact zero follows R182. -/
def FpFmt.addFp (f : FpFmt) (r : Rnd) (x y : Fp) : Nat × Sticky :=
  match x, y with
  | .nan s, y => (f.nan, { nv := s || y.snan })
  | _, .nan s => (f.nan, { nv := s })
  | .inf a, .inf b => if a = b then (f.inf a, {}) else (f.nan, { nv := true })
  | .inf a, .fin .. => (f.inf a, {})
  | .fin .., .inf b => (f.inf b, {})
  | .fin nx mx ex, .fin ny my ey =>
    let e := min ex ey
    let v := scaled nx mx ex e + scaled ny my ey e
    if v = 0 then (f.zero (if nx = ny then nx else decide (r = .rdn)), {})
    else f.round r ⟨decide (v < 0), v.natAbs, e, false⟩

/-- The exact product of two operands; 0 × ∞ is invalid. -/
def mulFp (x y : Fp) : Fp × Bool :=
  match x, y with
  | .nan s, y => (.nan false, s || y.snan)
  | _, .nan s => (.nan false, s)
  | .inf a, .inf b => (.inf (a != b), false)
  | .inf a, .fin n m _ => if m = 0 then (.nan false, true) else (.inf (a != n), false)
  | .fin n m _, .inf b => if m = 0 then (.nan false, true) else (.inf (n != b), false)
  | .fin nx mx ex, .fin ny my ey => (.fin (nx != ny) (mx * my) (ex + ey), false)

/-- Changes the sign of an operand. -/
def Fp.negate : Fp → Fp
  | .nan s => .nan s
  | .inf n => .inf (!n)
  | .fin n m e => .fin (!n) m e

/-- The flags of R76 with NV as given. -/
def withNv (nv : Bool) (r : Nat × Sticky) : Nat × Sticky := (r.1, { r.2 with nv := r.2.nv || nv })

/-- x + y. -/
def FpFmt.add (f : FpFmt) (r : Rnd) (x y : Nat) : Nat × Sticky := f.addFp r (f.decode x) (f.decode y)

/-- x - y. -/
def FpFmt.sub (f : FpFmt) (r : Rnd) (x y : Nat) : Nat × Sticky := f.addFp r (f.decode x) (f.decode y).negate

/-- x × y. -/
def FpFmt.mul (f : FpFmt) (r : Rnd) (x y : Nat) : Nat × Sticky :=
  let (p, nv) := mulFp (f.decode x) (f.decode y)
  withNv nv (f.convert r p)

/-- z + x × y, or z - x × y, with one rounding (R182). -/
def FpFmt.fma (f : FpFmt) (r : Rnd) (minus : Bool) (z x y : Nat) : Nat × Sticky :=
  let (p, nv) := mulFp (f.decode x) (f.decode y)
  withNv nv (f.addFp r (f.decode z) (if minus then p.negate else p))

/-- x is less than y, for operands that are not NaN; `strictZero` puts -0 before +0. -/
def Fp.less (strictZero : Bool) (x y : Fp) : Bool :=
  match x, y with
  | .nan _, _ => false
  | _, .nan _ => false
  | .inf a, .inf b => a && !b
  | .inf a, .fin .. => a
  | .fin .., .inf b => !b
  | .fin nx mx ex, .fin ny my ey =>
    let e := min ex ey
    let vx := scaled nx mx ex e
    let vy := scaled ny my ey e
    decide (vx < vy) || (strictZero && decide (vx = vy) && nx && !ny)

/-- minimum or maximum of IEEE 754-2019 (R182). -/
def FpFmt.minmax (f : FpFmt) (isMax : Bool) (x y : Nat) : Nat × Sticky :=
  let a := f.decode x
  let b := f.decode y
  if a.isNan || b.isNan then (f.nan, { nv := a.snan || b.snan })
  else (if isMax then (if a.less true b then y else x) else (if b.less true a then y else x), {})

/-- The comparison conditions of R184. -/
inductive FpCond where
  | eq | ne | lt | le | un
deriving DecidableEq, Repr

/-- A comparison and its NV flag (R184). -/
def FpFmt.compare (f : FpFmt) (c : FpCond) (x y : Nat) : Bool × Sticky :=
  let a := f.decode x
  let b := f.decode y
  let un := a.isNan || b.isNan
  let sn := a.snan || b.snan
  let lt := a.less false b
  let gt := b.less false a
  match c with
  | .eq => (!un && !lt && !gt, { nv := sn })
  | .ne => (un || lt || gt, { nv := sn })
  | .lt => (lt, { nv := un })
  | .le => (!un && !gt, { nv := un })
  | .un => (un, { nv := sn })

/-- 1 / x rounded once (R183). -/
def FpFmt.rcp (f : FpFmt) (r : Rnd) (x : Nat) : Nat × Sticky :=
  match f.decode x with
  | .nan s => (f.nan, { nv := s })
  | .inf n => (f.zero n, {})
  | .fin n m e =>
    if m = 0 then (f.inf n, { dz := true })
    else
      let k := Nat.log2 m + f.mb + 3
      f.round r ⟨n, 2 ^ k / m, -e - k, decide (2 ^ k % m ≠ 0)⟩

/-- 1 / √x rounded once (R183). -/
def FpFmt.rsq (f : FpFmt) (r : Rnd) (x : Nat) : Nat × Sticky :=
  match f.decode x with
  | .nan s => (f.nan, { nv := s })
  | .inf n => if n then (f.nan, { nv := true }) else (f.zero false, {})
  | .fin n m e =>
    if m = 0 then (f.inf n, { dz := true })
    else if n then (f.nan, { nv := true })
    else
      -- x = m2 × 2^e2 with e2 even
      let odd := decide (e % 2 ≠ 0)
      let m2 := if odd then 2 * m else m
      let e2 := if odd then e - 1 else e
      let k := Nat.log2 m2 + f.mb + 4
      let v := isqrt (2 ^ (2 * k) / m2)
      f.round r ⟨false, v, -(e2 / 2) - k, decide (v * v * m2 ≠ 2 ^ (2 * k))⟩

/-- Bits of precision of the powers of two below: far beyond the distance of any 2^x from a rounding boundary (log 30). -/
def expBits : Nat := 256

/-- 2^(a / 2^b) × 2^256, rounded down, from the leading bit of the fraction on: `c` is 2^(1/2^i). -/
def exp2Frac (a : Nat) : Nat → Nat → Nat → Nat
  | 0, _, acc => acc
  | b + 1, c, acc =>
    let c := isqrt (c * 2 ^ expBits)
    exp2Frac a b c (if a / 2 ^ b % 2 = 1 then acc * c / 2 ^ expBits else acc)

/-- 2^x rounded once (R183). -/
def FpFmt.exp2 (f : FpFmt) (r : Rnd) (x : Nat) : Nat × Sticky :=
  match f.decode x with
  | .nan s => (f.nan, { nv := s })
  | .inf n => if n then (f.zero false, {}) else (f.inf false, {})
  | .fin n m e =>
    if m = 0 then f.round r ⟨false, 1, 0, false⟩
    else if (Nat.log2 m : Int) + e ≥ 10 then f.round r ⟨false, 1, if n then -2048 else 2048, true⟩
    else
      let b := (-e).toNat
      let v := scaled n (m * 2 ^ e.toNat) 0 0
      let a := (v % (2 ^ b : Nat)).toNat
      let i := v / (2 ^ b : Nat)
      if a = 0 then f.round r ⟨false, 1, i, false⟩
      else f.round r ⟨false, exp2Frac a b (2 * 2 ^ expBits) (2 ^ expBits), i - expBits, true⟩

/-- An operand as a 32-bit signed integer (R189). -/
def toInt32 (r : Rnd) (x : Fp) : Nat × Sticky :=
  match x with
  | .nan _ => (0, { nv := true })
  | .inf n => (if n then 2 ^ 31 else 2 ^ 31 - 1, { nv := true })
  | .fin n m e =>
    if m = 0 then (0, {})
    else
      let (k, ix) := (⟨n, m, e, false⟩ : Ex).toGrid r 0
      let v : Int := if n then -(k : Int) else k
      if v < -(2 ^ 31) then (2 ^ 31, { nv := true })
      else if v > 2 ^ 31 - 1 then (2 ^ 31 - 1, { nv := true })
      else (wrap 32 v, { ix := ix })

/-! ### Narrow formats (R79-R83) -/

/-- SGN. -/
def fmSgn (x : Word) : Nat := bits x 0 1
/-- EXP. -/
def fmExp (x : Word) : Nat := bits x 1 3
/-- MAN. -/
def fmMan (x : Word) : Nat := bits x 4 4
/-- BIAS, signed. -/
def fmBias (x : Word) : Int := signedOf 8 (bits x 8 8)
/-- SPC. -/
def fmSpc (x : Word) : Nat := bits x 16 1
/-- BSM. -/
def fmBsm (x : Word) : Nat := bits x 17 2
/-- CLAMP. -/
def fmClamp (x : Word) : Nat := bits x 24 8

/-- Number of bits of a code. -/
def fmWidth (x : Word) : Nat := fmSgn x + fmExp x + fmMan x

/-- The largest finite magnitude code (R80). -/
def fmLargest (x : Word) : Nat := if fmExp x = 0 then 2 ^ fmMan x - 1 else 2 ^ (fmExp x + fmMan x) - 1 - fmSpc x

/-- Value of a magnitude code: m × 2^e (R81). -/
def fmMagnitude (x : Word) (code : Nat) : Nat × Int :=
  if fmExp x = 0 then (code, -fmBias x)
  else
    let e := code / 2 ^ fmMan x
    let m := code % 2 ^ fmMan x
    if e = 0 then (m, 1 - fmBias x - fmMan x) else (2 ^ fmMan x + m, e - fmBias x - fmMan x)

/-- Decodes a code exactly (R81). Bits above the code's width are ignored. -/
def fmDecode (x : Word) (code : Nat) : Fp :=
  let w := fmWidth x
  let c := code % 2 ^ w
  if fmExp x = 0 then
    if fmSgn x = 1 then
      let v := signedOf (fmMan x + 1) c
      .fin (decide (v < 0)) v.natAbs (-fmBias x)
    else .fin false c (-fmBias x)
  else
    let mag := c % 2 ^ (fmExp x + fmMan x)
    let neg := decide (fmSgn x = 1) && decide (c / 2 ^ (fmExp x + fmMan x) = 1)
    if fmSpc x = 1 ∧ mag = 2 ^ (fmExp x + fmMan x) - 1 then .nan false
    else
      let (m, e) := fmMagnitude x mag
      .fin neg m e

/-- A magnitude code with a sign: two's complement in an integer format. -/
def fmEncode (x : Word) (neg : Bool) (mag : Nat) : Nat :=
  if fmExp x = 0 then (if neg then wrap (fmMan x + 1) (-(mag : Int)) else mag)
  else mag + (if neg ∧ fmSgn x = 1 then 2 ^ (fmExp x + fmMan x) else 0)

/-- Converts an operand into a narrow format with scale byte X (R83). A tie of RNE in a format without mantissa bits goes to the value of larger magnitude, but one between zero
and the smallest magnitude to zero, and a negative value that rounds to -0 in a format without a sign sets no flag (log 88). -/
def fmConvert (x : Word) (ncl : Bool) (r : Rnd) (scale : Nat) (y : Fp) : Nat × Sticky :=
  let man := fmMan x
  let nan (sn : Bool) : Nat × Sticky :=
    if fmSpc x = 1 then (2 ^ (fmExp x + man) - 1, { nv := sn }) else (0, { nv := sn, nnl := true })
  let bound := if ncl then fmLargest x else fmClamp x
  -- the bound on the negative side: the full code range of a signed integer with NCL (step 4)
  let low := if ncl ∧ fmExp x = 0 then 2 ^ man else bound
  let clamped (neg : Bool) : Nat × Sticky :=
    if neg ∧ fmSgn x = 0 then (0, { clp := true, ix := true })
    else (fmEncode x neg (if neg then low else bound), { clp := true, ix := true })
  if fmBsm x ≠ 0 ∧ scale = 255 then nan y.snan
  else match y with
    | .nan s => nan s
    | .inf n => clamped n
    | .fin n m e0 =>
      if m = 0 then (if fmExp x = 0 ∨ fmSgn x = 0 then 0 else fmEncode x n 0, {})
      else
        let e := if fmBsm x = 0 then e0 else e0 - (scale : Int) + 127
        let v : Ex := ⟨n, m, e, false⟩
        let emin := 1 - fmBias x
        let q := if fmExp x = 0 then -fmBias x else max v.lead emin - man
        let (k, ix) := v.toGrid r q
        let mag := if fmExp x = 0 then k else (q + man - emin).toNat * 2 ^ man + k
        let uf : Sticky := { uf := decide (fmExp x ≠ 0) && ix && decide (0 < mag ∧ mag < 2 ^ man) }
        if mag = 0 then (if fmExp x = 0 ∨ fmSgn x = 0 then 0 else fmEncode x n 0, { ix := ix && !(n && fmSgn x = 0) })
        else if n ∧ fmSgn x = 0 ∨ mag > (if n then low else bound) then ((clamped n).1, (clamped n).2.join uf)
        else (fmEncode x n mag, { uf with ix := ix })

end Sys2Proof.Machine
end

