-- ==== Sys2Proof/Machine/EngineAccess.lean ====
section
/-! DEFINITION. What the engines share: checks of capabilities at issue (R14, R203), accesses at run time with their faults (R15), commands and their numbers (R37, R259), messages (R258, R260). -/

namespace Sys2Proof.Machine

/-! ### Checks at issue -/

/-- Tag, seal, kind and permission of an operand of an engine command, then bounds over n bytes from its address and alignment (R63, R203). EINFO is
the capability's address. -/
def engCap (c : Wreg) (opnd perm n align : Nat) : Except Stop Unit := do
  checkCap c opnd (capAddr c) perm
  need (decide (n = 0) || capCovers c (capAddr c).toNat n) 0x04 opnd (capAddr c)
  need (decide ((capAddr c).toNat % align = 0)) 0x07 opnd (capAddr c)

/-! ### Accesses at run time -/

/-- Cause 0 of an access at run time says that it cannot be made yet: a walk, a line or a frame keeps it, or accesses that it may not overtake. The step that makes it
does not happen then. -/
def notYet : Nat := 0

/-- A walk for an engine's access can be made now: the page has none pending, the die has a walker free, and no engine owns a line that it reads (R343). -/
def State.walkFree (s : State) (h t x : Nat) : Bool :=
  !s.walks.contains (h / 512, t, x / 65536) && decide ((s.walks.filter fun w => w.1 = h / 512).length < 256)
    && (s.walkReads h x 5 0 (bits (s.tenantOf t).troot 12 44 * 4096)).all fun a => s.open ⟨a, 0, none⟩

/-- A place for an engine's access and the state with it: by the TLBs where they hold the page, else by a walk, which joins one that is pending and fills the TLBs
(R343); a cause otherwise. -/
def State.engPlace (s : State) (h t : Nat) (c : Wreg) (x : Nat) (use : Use) : Except Nat (Place × State) :=
  match s.translate h t c x use with
  | .ok p => .ok (p, s)
  | .error (.fault code) => .error code
  | .error .miss =>
    if !s.walkFree h t x then .error notYet
    else match s.walk h t x with
      | .error code => .error code
      | .ok e =>
        match (s.addTlb h e).translate h t c x use with
        | .ok p => .ok (p, s.addTlb h e)
        | .error (.fault code) => .error code
        | .error .miss => .error 0x08

/-- An access of an engine for a tenant at an address: its place and the state with the policy tag claimed, or the fault, cause and address. A tile lies in
scratch of the cluster, a kind-0 one in a page pinned there (R203); configuration space is refused whatever PRV of the issuer is (R22, log 82). -/
def State.engAccess (s : State) (h t : Nat) (c : Wreg) (x : Nat) (use : Use) (tile : Bool) : Except (Nat × Nat) (Place × State) :=
  match s.engPlace h t c x use with
  | .error code => .error (code, faultAt code x)
  | .ok (p, s) =>
    let here := match regionOf p.pa with
      | .scratch w => !tile || (decide (w / 16 = h / 16 ∧ devOf p.pa = s.dev) && (match p.map with | some (pol, _) => decide (pol = 3) | none => true))
      | .dram => !tile
      | _ => false
    if !here then .error (0x09, x)
    else
      let owned := use = .wr && devOf p.pa = s.dev && s.fieldOwned (frameOf p.pa)
      match p.map with
      | none => if owned then .error (0x0B, x) else .ok (p, s)
      | some (pol, home) =>
        match s.claim t p.pa pol home with
        | .error code => .error (if s.clearing p.pa then notYet else code, x)
        | .ok u => if owned then .error (0x0B, x) else .ok (p, u)

/-- Nothing that an access of an engine of core h to n bytes at a place would overtake is still on its way (R24, R31, R37, R204): what has passed an ordering point that the access
has still to pass, its own core's port included, and the packets that left the issuer's core `src` before the command entered (number `after`). -/
def State.engineClear (s : State) (h src after : Nat) (use : Use) (p : Place) (n : Nat) : Bool :=
  let g := match use with | .wr => s.agentOf p.pa | _ => s.agentRd p.pa
  s.net.all fun q => !(q.bars g p.pa p.swz n && (q.past h g || decide (q.h = src ∧ q.id < after)))

/-- An engine of core h can access n bytes at a place now: no engine owns the line (R38), no migration blocks the frame (R357), and nothing precedes it. -/
def State.engineReady (s : State) (h src after : Nat) (use : Use) (p : Place) (n : Nat) : Bool := s.open p && s.engineClear h src after use p n

/-- How an engine reads: core, tenant, the core of the command's issuer and the number below which its packets left before the command entered, granules that the command has captured already, capability,
and whether it is a tile. -/
structure Reader where
  h    : Nat
  t    : Nat
  src  : Nat
  after : Nat
  got  : List (Nat × BitVec 128)
  cap  : Wreg
  tile : Bool

/-- One byte that an engine reads, with whether its granule is poisoned; a granule captured earlier keeps its value (R204). -/
def Reader.raw (r : Reader) (s : State) (x : Nat) : Except (Nat × Nat) (Nat × Bool × State) := do
  let (p, u) ← s.engAccess r.h r.t r.cap x .rd r.tile
  match r.got.find? fun q => q.1 = granuleOf p.swz p.pa with
  | some (_, v) => .ok (bits v (8 * (locate p.swz p.pa % 16)) 8, false, u)
  | none =>
    let u := u.takePage p.pa false
    if !u.engineReady r.h r.src r.after .rd p 1 then .error (notYet, x)
    else
      let dead := u.deadAgent (u.agentRd p.pa)
      .ok (u.readFor r.h p.swz p.pa 1, (u.poisonFor r.h p.swz p.pa 1 1).isSome || dead, u.touchFor r.h p.pa 1)

/-- One byte that an engine reads; poison is a fault at its granule (R15). -/
def Reader.byte (r : Reader) (s : State) (x : Nat) : Except (Nat × Nat) (Nat × State) := do
  let (b, pois, u) ← r.raw s x
  if pois then .error (0x0C, x / 16 * 16) else .ok (b, u)

/-- n bytes from an address. -/
def Reader.bytes (r : Reader) : Nat → State → Nat → Except (Nat × Nat) (List Nat × State)
  | 0, s, _ => .ok ([], s)
  | n + 1, s, x => do
    let (b, s) ← r.byte s x
    let (l, s) ← r.bytes n s (x + 1)
    .ok (b :: l, s)

/-- n bytes from an address, with whether one of them is poisoned, which raises no fault (R247). -/
def Reader.raws (r : Reader) : Nat → State → Nat → Except (Nat × Nat) (List Nat × Bool × State)
  | 0, s, _ => .ok ([], false, s)
  | n + 1, s, x => do
    let (b, p, s) ← r.raw s x
    let (l, q, s) ← r.raws n s (x + 1)
    .ok (b :: l, p || q, s)

/-- The number that little-endian bytes make. -/
def leNat : List Nat → Nat
  | [] => 0
  | b :: t => b + 256 * leNat t

/-- The n bytes of a number. -/
def leBytes : Nat → Nat → List Nat
  | 0, _ => []
  | n + 1, x => x % 256 :: leBytes n (x / 256)

/-- A number of n bytes from an address; `bounded` checks the capability's bounds first (R226). -/
def Reader.word (r : Reader) (s : State) (bounded : Bool) (n x : Nat) : Except (Nat × Nat) (Nat × State) :=
  if bounded && !capCovers r.cap x n then .error (0x04, x)
  else do
    let (l, s) ← r.bytes n s x
    .ok (leNat l, s)

/-- Numbers at several addresses. -/
def Reader.words (r : Reader) (bounded : Bool) (n : Nat) : List Nat → State → Except (Nat × Nat) (List Nat × State)
  | [], s => .ok ([], s)
  | x :: rest, s => do
    let (v, s) ← r.word s bounded n x
    let (l, s) ← r.words bounded n rest s
    .ok (v :: l, s)

/-- A granule with its tag: value, tag (R252, R315). -/
def Reader.granule (r : Reader) (s : State) (x : Nat) : Except (Nat × Nat) (Wreg × State) := do
  let (p, u) ← s.engAccess r.h r.t r.cap x .rd r.tile
  let tag := u.tagFor r.h p.swz p.pa
  let (v, u) ← r.word u false 16 x
  .ok (⟨BitVec.ofNat 128 v, tag⟩, u)

/-- The writes of a run of bytes from an address, one for each 128-byte line (R38); an engine's write sets full bits (R30). -/
def State.pieces (s : State) (h t : Nat) (c : Wreg) (tile : Bool) : Nat → Nat → List Nat → Except (Nat × Nat) (List WriteOp × State)
  | 0, _, _ => .ok ([], s)
  | fuel + 1, x, l =>
    if l.isEmpty then .ok ([], s)
    else do
      let n := Nat.min l.length (128 - x % 128)
      let (p, s) ← s.engAccess h t c x .wr tile
      let (rest, s) ← s.pieces h t c tile fuel (x + n) (l.drop n)
      .ok (⟨p.pa, p.swz, n, BitVec.ofNat 1024 (leNat (l.take n)), ones 128 n, false, true⟩ :: rest, s)

/-- The writes of several runs. -/
def State.piecesAll (s : State) (h t : Nat) (c : Wreg) (tile : Bool) : List (Nat × List Nat) → Except (Nat × Nat) (List WriteOp × State)
  | [] => .ok ([], s)
  | (x, l) :: rest => do
    let (a, s) ← s.pieces h t c tile (l.length + 1) x l
    let (b, s) ← s.piecesAll h t c tile rest
    .ok (a ++ b, s)

/-- A write of an engine of core h can be made now. -/
def State.writeReady (s : State) (h src after : Nat) (w : WriteOp) : Bool := s.engineReady h src after .wr ⟨w.pa, w.swz, none⟩ w.n

/-- An engine of core h takes a line of device memory: watches that hold it fire with code 2, of a software-managed line those of the quadrant (R348, R355). -/
def State.takeLine (s : State) (h swz pa : Nat) : State :=
  if regionOf pa ≠ .dram then s
  else if s.swLine pa then s.fireIn (rankOf h) (lineOf swz pa) 2
  else (s.fire (lineOf swz pa) 2).dirUse (lineOf swz pa)

/-- Applies a function to a core. -/
def State.onCoreOf (s : State) (h : Nat) (f : Core → Core) : State := s.setCore h (f (s.coreOf h))

/-- An engine's write: it takes the line, and its write is applied (R38). -/
def State.engineWrite (s : State) (h : Nat) (w : WriteOp) : State := (s.takeLine h w.swz w.pa).ownWrite h w

/-! ### Commands -/

/-- A command of the context looked at, as captured at issue (R37). -/
def State.capture (s : State) (op : CmdOp) (seq : BitVec 16) (regs : List Wreg) (imgs : List (BitVec 384)) : Cmd where
  op := op
  h := s.cur
  slot := s.slot
  ident := s.cpu.ident
  gen := s.cpu.gen
  tenant := s.cpu.tenant
  prv := s.cpu.prv
  seq := seq
  after := s.packetN
  ord := false
  issued := s.time
  d := 0
  regs := regs
  imgs := imgs
  ppl := if s.cpu.pp then some s.cpu.ppl else none
  prog := 0
  got := []
  taken := false
  fault := none
  outs := []
  tbs := []
  strm := none

/-- An engine may post to the context that issued a command: no message of it waits for that mailbox (R260). -/
def State.canPost (s : State) (c : Cmd) (eng : Nat) : Bool := s.mayPost c.ident c.gen eng

/-- Posts a message of an engine to the context that issued a command. -/
def State.report (s : State) (c : Cmd) (eng typ cause reason count pos info : Nat) : State :=
  s.post c.ident c.gen (message typ eng cause reason count c.seq.toNat pos info)

/-- Applies a function to the context that issued a command, while a slot holds it. -/
def State.onIssuer (s : State) (ident : BitVec 20) (gen : BitVec 8) (f : Ctx → Ctx) : State :=
  match s.heldAt ident with
  | none => s
  | some (h, slot) =>
    let c := s.ctx h slot
    if c.gen = gen then s.setCtx h slot (f c) else s

end Sys2Proof.Machine
end

