-- ==== Sys2Proof/Machine/Vector.lean ====
section
/-! DEFINITION. The vector engine: elements and predicates (R177-R179), arithmetic (R182-R186), selects, moves and permutes (R187, R188), conversions (R189, R190), reductions (R78, R191), predicate logic (R192), and vector loads and stores (R193, R194). -/

namespace Sys2Proof.Machine

/-! ### Elements (R177, R178) -/

/-- Element j of w bits. -/
def elem (w : Nat) (x : BitVec 1024) (j : Nat) : Nat := bits x (w * j) w

/-- The number that elements of w bits make, the first lowest. -/
def packElems (w : Nat) : List Nat → Nat
  | [] => 0
  | e :: t => e % 2 ^ w + 2 ^ w * packElems w t

/-- The register that elements of w bits make. -/
def ofElems (w : Nat) (l : List Nat) : BitVec 1024 := BitVec.ofNat 1024 (packElems w l)

/-- The predicate bit of element j of w bits (R177). -/
def lane (w : Nat) (p : Word) (j : Nat) : Bool := bit p (j * (w / 16))

/-- The governing predicate of a vector instruction: PG = 0 enables every element (R178). -/
def governing (s : State) (g : Fin 8) : Except Stop Word := if g = 0 then .ok (BitVec.allOnes 64) else readP s g.val

/-- Computes the enabled elements of w bits; a disabled one keeps its old value and sets no flag (R178). -/
def mapElems (w : Nat) (p : Word) (old : BitVec 1024) (f : Nat → Nat × Sticky) : BitVec 1024 × Sticky :=
  let rs := (List.range (1024 / w)).map fun j => if lane w p j then f j else (elem w old j, {})
  (ofElems w (rs.map (·.1)), rs.foldl (fun a r => a.join r.2) {})

/-- A predicate with a bit group for each element of w bits: 0 where the element is disabled (R178, R184). -/
def predElems (w : Nat) (p : Word) (f : Nat → Bool × Sticky) : Word × Sticky :=
  let rs := (List.range (1024 / w)).map fun j => if lane w p j then f j else (false, {})
  let n := w / 16
  (BitVec.ofNat 64 (packElems n (rs.map fun r => if r.1 then 2 ^ n - 1 else 0)), rs.foldl (fun a r => a.join r.2) {})

/-- The b operand as elements: a v register, or the low w bits of a constant for every element (R180). -/
def operandB (s : State) (b : BOp) (w : Nat) : Except Stop ((Nat → Nat) × State) :=
  match b with
  | .reg r => do
    let y ← readV s r 3
    .ok (fun j => elem w y j, s)
  | .konst k => do
    let (y, t) ← konst s k
    .ok (fun _ => bits y 0 w, t)

/-- The v registers that the b operand names. -/
def bVUses : BOp → List Nat
  | .reg r => [vId r.val]
  | .konst _ => []

/-- Rounding override of a pending prefix; without one the instruction's own mode, RNE (R59, R74, R181). -/
def Ctx.rnd (c : Ctx) : Rnd :=
  if c.pp then
    match c.ppl / 1024 % 8 with
    | 2 => .rtz
    | 3 => .rup
    | 4 => .rdn
    | 5 => .rna
    | _ => .rne
  else .rne

/-- The format register that field FD (6) or FA (0) of the prefix names; fm0 without a prefix (R59, R181). -/
def Ctx.fmOf (c : Ctx) (lo : Nat) : Word := (c.fm[if c.pp then c.ppl / 2 ^ lo % 8 else 0]?).getD 0

/-- NCL of the prefix. -/
def Ctx.ncl (c : Ctx) : Bool := c.pp && decide (c.ppl / 512 % 2 = 1)

/-- Sets flags in the context looked at. -/
def State.flag (s : State) (f : Sticky) : State := s.onCpu fun c => c.setSticky f

/-- A two-source operation on elements of w bits (R178, R182, R185). -/
def vBinary (w : Nat) (f : Rnd → Nat → Nat → Nat × Sticky) (d a : Fin 64) (b : BOp) (g : Fin 8) (s : State) : Host.Outcome State Fault Refusal := conclude s do
  let p ← governing s g
  useV s d 1
  let x ← readV s a 2
  let (y, t) ← operandB s b w
  let (r, fl) := mapElems w p (oldV s d) fun j => f s.cpu.rnd (elem w x j) (y j)
  .ok ((t.flag fl).finishV (bLen b) (vId a.val :: bVUses b) d r)

/-- A fused operation: the destination is a source too (R182). A bound destination traps in either direction, as R266 says of it (log 89). -/
def vFused (f : FpFmt) (minus : Bool) (d a : Fin 64) (b : BOp) (g : Fin 8) (s : State) : Host.Outcome State Fault Refusal := conclude s do
  let w := f.width
  let p ← governing s g
  let z ← readV s d 1
  useV s d 1
  let x ← readV s a 2
  let (y, t) ← operandB s b w
  let (r, fl) := mapElems w p (oldV s d) fun j => f.fma s.cpu.rnd minus (elem w z j) (elem w x j) (y j)
  .ok ((t.flag fl).finishV (bLen b) (vId d.val :: vId a.val :: bVUses b) d r)

/-- A one-source operation on elements of w bits. -/
def vUnary (w : Nat) (f : Rnd → Nat → Nat × Sticky) (d a : Fin 64) (g : Fin 8) (s : State) : Host.Outcome State Fault Refusal := conclude s do
  let p ← governing s g
  useV s d 1
  let x ← readV s a 2
  let (r, fl) := mapElems w p (oldV s d) fun j => f s.cpu.rnd (elem w x j)
  .ok ((s.flag fl).finishV 1 [vId a.val] d r)

/-- A compare of elements into a predicate register (R184, R186). -/
def vCompare (w : Nat) (f : Nat → Nat → Bool × Sticky) (d a : Fin 64) (b : BOp) (g : Fin 8) (s : State) : Host.Outcome State Fault Refusal := conclude s do
  let p ← governing s g
  useP s d.val
  let x ← readV s a 2
  let (y, t) ← operandB s b w
  let (r, fl) := predElems w p fun j => f (elem w x j) (y j)
  .ok (((t.flag fl).finish (bLen b) (vId a.val :: bVUses b)).onCpu fun c => c.writeP d.val r)

/-- The floating-point type of a type code (R182, R183). -/
def fpType : Nat → FpFmt
  | 0 => f32
  | 1 => f16
  | _ => bf16

/-- The integer element operations of R185. -/
inductive VAlu where
  | add | sub | mul | min | max | minU | maxU | and | or | xor | shl | shr | sra
deriving DecidableEq, Repr

/-- An integer operation on elements of w bits: no flag is set (R185). -/
def VAlu.result (op : VAlu) (w x y : Nat) : Nat :=
  match op with
  | .add => (x + y) % 2 ^ w
  | .sub => (x + 2 ^ w - y) % 2 ^ w
  | .mul => x * y % 2 ^ w
  | .min => if signedOf w x ≤ signedOf w y then x else y
  | .max => if signedOf w x ≤ signedOf w y then y else x
  | .minU => Nat.min x y
  | .maxU => Nat.max x y
  | .and => Nat.land x y
  | .or => Nat.lor x y
  | .xor => Nat.xor x y
  | .shl => if y < w then x * 2 ^ y % 2 ^ w else 0
  | .shr => if y < w then x / 2 ^ y else 0
  | .sra => wrap w (signedOf w x / ((2 ^ Nat.min y (w - 1) : Nat) : Int))

/-- An integer element operation (R185). -/
def vInt (op : VAlu) (w : Nat) (d a : Fin 64) (b : BOp) (g : Fin 8) (s : State) : Host.Outcome State Fault Refusal :=
  vBinary w (fun _ x y => (op.result w x y, {})) d a b g s

/-- The integer compare conditions of R186. -/
inductive VCond where
  | eq | ne | lt | le | ltU | leU
deriving DecidableEq, Repr

/-- Whether a condition holds between elements of w bits (R186). -/
def VCond.holds (c : VCond) (w x y : Nat) : Bool :=
  match c with
  | .eq => decide (x = y)
  | .ne => decide (x ≠ y)
  | .lt => decide (signedOf w x < signedOf w y)
  | .le => decide (signedOf w x ≤ signedOf w y)
  | .ltU => decide (x < y)
  | .leU => decide (x ≤ y)

/-- An integer compare (R186). -/
def vIntCompare (c : VCond) (w : Nat) (d a : Fin 64) (b : BOp) (g : Fin 8) (s : State) : Host.Outcome State Fault Refusal :=
  vCompare w (fun x y => (c.holds w x y, {})) d a b g s

/-! ### Floating point (R182-R184) -/


/-- `vadd` in the type t: 0 `.f32`, 1 `.f16`, 2 `.bf16` (R182). -/
def execVaddF (t : Fin 4) (d a : Fin 64) (b : BOp) (g : Fin 8) (s : State) :=
  vBinary (fpType t.val).width (fun r x y => (fpType t.val).add r x y) d a b g s

/-- `vsub` in the type t: 0 `.f32`, 1 `.f16`, 2 `.bf16` (R182). -/
def execVsubF (t : Fin 4) (d a : Fin 64) (b : BOp) (g : Fin 8) (s : State) :=
  vBinary (fpType t.val).width (fun r x y => (fpType t.val).sub r x y) d a b g s

/-- `vmul` in the type t: 0 `.f32`, 1 `.f16`, 2 `.bf16` (R182). -/
def execVmulF (t : Fin 4) (d a : Fin 64) (b : BOp) (g : Fin 8) (s : State) :=
  vBinary (fpType t.val).width (fun r x y => (fpType t.val).mul r x y) d a b g s

/-- `vmin` (R182). -/
def execVminF (t : Fin 4) (d a : Fin 64) (b : BOp) (g : Fin 8) (s : State) :=
  vBinary (fpType t.val).width (fun _ x y => (fpType t.val).minmax false x y) d a b g s

/-- `vmax` (R182). -/
def execVmaxF (t : Fin 4) (d a : Fin 64) (b : BOp) (g : Fin 8) (s : State) :=
  vBinary (fpType t.val).width (fun _ x y => (fpType t.val).minmax true x y) d a b g s

/-- `vfma` (R182). -/
def execVfma (t : Fin 4) (d a : Fin 64) (b : BOp) (g : Fin 8) (s : State) := vFused (fpType t.val) false d a b g s

/-- `vfms` (R182). -/
def execVfms (t : Fin 4) (d a : Fin 64) (b : BOp) (g : Fin 8) (s : State) := vFused (fpType t.val) true d a b g s

/-- `vabs`: the sign bit alone (R183). -/
def execVabs (d a t : Fin 64) (g : Fin 8) (s : State) :=
  vUnary (fpType t.val).width (fun _ x => (x % 2 ^ ((fpType t.val).width - 1), {})) d a g s

/-- `vneg`: the sign bit alone (R183). -/
def execVneg (d a t : Fin 64) (g : Fin 8) (s : State) :=
  vUnary (fpType t.val).width (fun _ x => (Nat.xor x (2 ^ ((fpType t.val).width - 1)), {})) d a g s

/-- `vexp2`: correctly rounded (R77, R183). -/
def execVexp2 (d a t : Fin 64) (g : Fin 8) (s : State) :=
  vUnary (fpType t.val).width (fun r x => (fpType t.val).exp2 r x) d a g s

/-- `vrcp`: correctly rounded (R77, R183). -/
def execVrcp (d a t : Fin 64) (g : Fin 8) (s : State) :=
  vUnary (fpType t.val).width (fun r x => (fpType t.val).rcp r x) d a g s

/-- `vrsq`: correctly rounded (R77, R183). -/
def execVrsq (d a t : Fin 64) (g : Fin 8) (s : State) :=
  vUnary (fpType t.val).width (fun r x => (fpType t.val).rsq r x) d a g s

/-- `vcmp.eq` of a floating-point type (R184). -/
def execVcmpEqF (t : Fin 4) (d a : Fin 64) (b : BOp) (g : Fin 8) (s : State) :=
  vCompare (fpType t.val).width (fun x y => (fpType t.val).compare .eq x y) d a b g s

/-- `vcmp.ne` of a floating-point type (R184). -/
def execVcmpNeF (t : Fin 4) (d a : Fin 64) (b : BOp) (g : Fin 8) (s : State) :=
  vCompare (fpType t.val).width (fun x y => (fpType t.val).compare .ne x y) d a b g s

/-- `vcmp.lt` of a floating-point type (R184). -/
def execVcmpLtF (t : Fin 4) (d a : Fin 64) (b : BOp) (g : Fin 8) (s : State) :=
  vCompare (fpType t.val).width (fun x y => (fpType t.val).compare .lt x y) d a b g s

/-- `vcmp.le` of a floating-point type (R184). -/
def execVcmpLeF (t : Fin 4) (d a : Fin 64) (b : BOp) (g : Fin 8) (s : State) :=
  vCompare (fpType t.val).width (fun x y => (fpType t.val).compare .le x y) d a b g s

/-- `vcmp.un` of a floating-point type (R184). -/
def execVcmpUnF (t : Fin 4) (d a : Fin 64) (b : BOp) (g : Fin 8) (s : State) :=
  vCompare (fpType t.val).width (fun x y => (fpType t.val).compare .un x y) d a b g s

/-! ### Integers (R185, R186) -/

/-- `vadd.w` (R185). -/
def execVaddW (d a : Fin 64) (b : BOp) (g : Fin 8) (s : State) := vInt .add 32 d a b g s

/-- `vsub.w` (R185). -/
def execVsubW (d a : Fin 64) (b : BOp) (g : Fin 8) (s : State) := vInt .sub 32 d a b g s

/-- `vmul.w` (R185). -/
def execVmulW (d a : Fin 64) (b : BOp) (g : Fin 8) (s : State) := vInt .mul 32 d a b g s

/-- `vmin.w` (R185). -/
def execVminW (d a : Fin 64) (b : BOp) (g : Fin 8) (s : State) := vInt .min 32 d a b g s

/-- `vmax.w` (R185). -/
def execVmaxW (d a : Fin 64) (b : BOp) (g : Fin 8) (s : State) := vInt .max 32 d a b g s

/-- `vmin.u.w` (R185). -/
def execVminUW (d a : Fin 64) (b : BOp) (g : Fin 8) (s : State) := vInt .minU 32 d a b g s

/-- `vmax.u.w` (R185). -/
def execVmaxUW (d a : Fin 64) (b : BOp) (g : Fin 8) (s : State) := vInt .maxU 32 d a b g s

/-- `vand.w` (R185). -/
def execVandW (d a : Fin 64) (b : BOp) (g : Fin 8) (s : State) := vInt .and 32 d a b g s

/-- `vor.w` (R185). -/
def execVorW (d a : Fin 64) (b : BOp) (g : Fin 8) (s : State) := vInt .or 32 d a b g s

/-- `vxor.w` (R185). -/
def execVxorW (d a : Fin 64) (b : BOp) (g : Fin 8) (s : State) := vInt .xor 32 d a b g s

/-- `vshl.w` (R185). -/
def execVshlW (d a : Fin 64) (b : BOp) (g : Fin 8) (s : State) := vInt .shl 32 d a b g s

/-- `vshr.w` (R185). -/
def execVshrW (d a : Fin 64) (b : BOp) (g : Fin 8) (s : State) := vInt .shr 32 d a b g s

/-- `vsra.w` (R185). -/
def execVsraW (d a : Fin 64) (b : BOp) (g : Fin 8) (s : State) := vInt .sra 32 d a b g s

/-- `vcmp.eq.w` (R186). -/
def execVcmpEqW (d a : Fin 64) (b : BOp) (g : Fin 8) (s : State) := vIntCompare .eq 32 d a b g s

/-- `vcmp.ne.w` (R186). -/
def execVcmpNeW (d a : Fin 64) (b : BOp) (g : Fin 8) (s : State) := vIntCompare .ne 32 d a b g s

/-- `vcmp.lt.w` (R186). -/
def execVcmpLtW (d a : Fin 64) (b : BOp) (g : Fin 8) (s : State) := vIntCompare .lt 32 d a b g s

/-- `vcmp.le.w` (R186). -/
def execVcmpLeW (d a : Fin 64) (b : BOp) (g : Fin 8) (s : State) := vIntCompare .le 32 d a b g s

/-- `vcmp.lt.u.w` (R186). -/
def execVcmpLtUW (d a : Fin 64) (b : BOp) (g : Fin 8) (s : State) := vIntCompare .ltU 32 d a b g s

/-- `vcmp.le.u.w` (R186). -/
def execVcmpLeUW (d a : Fin 64) (b : BOp) (g : Fin 8) (s : State) := vIntCompare .leU 32 d a b g s

/-- `vadd.h` (R185). -/
def execVaddH (d a : Fin 64) (b : BOp) (g : Fin 8) (s : State) := vInt .add 16 d a b g s

/-- `vsub.h` (R185). -/
def execVsubH (d a : Fin 64) (b : BOp) (g : Fin 8) (s : State) := vInt .sub 16 d a b g s

/-- `vmul.h` (R185). -/
def execVmulH (d a : Fin 64) (b : BOp) (g : Fin 8) (s : State) := vInt .mul 16 d a b g s

/-- `vmin.h` (R185). -/
def execVminH (d a : Fin 64) (b : BOp) (g : Fin 8) (s : State) := vInt .min 16 d a b g s

/-- `vmax.h` (R185). -/
def execVmaxH (d a : Fin 64) (b : BOp) (g : Fin 8) (s : State) := vInt .max 16 d a b g s

/-- `vmin.u.h` (R185). -/
def execVminUH (d a : Fin 64) (b : BOp) (g : Fin 8) (s : State) := vInt .minU 16 d a b g s

/-- `vmax.u.h` (R185). -/
def execVmaxUH (d a : Fin 64) (b : BOp) (g : Fin 8) (s : State) := vInt .maxU 16 d a b g s

/-- `vand.h` (R185). -/
def execVandH (d a : Fin 64) (b : BOp) (g : Fin 8) (s : State) := vInt .and 16 d a b g s

/-- `vor.h` (R185). -/
def execVorH (d a : Fin 64) (b : BOp) (g : Fin 8) (s : State) := vInt .or 16 d a b g s

/-- `vxor.h` (R185). -/
def execVxorH (d a : Fin 64) (b : BOp) (g : Fin 8) (s : State) := vInt .xor 16 d a b g s

/-- `vshl.h` (R185). -/
def execVshlH (d a : Fin 64) (b : BOp) (g : Fin 8) (s : State) := vInt .shl 16 d a b g s

/-- `vshr.h` (R185). -/
def execVshrH (d a : Fin 64) (b : BOp) (g : Fin 8) (s : State) := vInt .shr 16 d a b g s

/-- `vsra.h` (R185). -/
def execVsraH (d a : Fin 64) (b : BOp) (g : Fin 8) (s : State) := vInt .sra 16 d a b g s

/-- `vcmp.eq.h` (R186). -/
def execVcmpEqH (d a : Fin 64) (b : BOp) (g : Fin 8) (s : State) := vIntCompare .eq 16 d a b g s

/-- `vcmp.ne.h` (R186). -/
def execVcmpNeH (d a : Fin 64) (b : BOp) (g : Fin 8) (s : State) := vIntCompare .ne 16 d a b g s

/-- `vcmp.lt.h` (R186). -/
def execVcmpLtH (d a : Fin 64) (b : BOp) (g : Fin 8) (s : State) := vIntCompare .lt 16 d a b g s

/-- `vcmp.le.h` (R186). -/
def execVcmpLeH (d a : Fin 64) (b : BOp) (g : Fin 8) (s : State) := vIntCompare .le 16 d a b g s

/-- `vcmp.lt.u.h` (R186). -/
def execVcmpLtUH (d a : Fin 64) (b : BOp) (g : Fin 8) (s : State) := vIntCompare .ltU 16 d a b g s

/-- `vcmp.le.u.h` (R186). -/
def execVcmpLeUH (d a : Fin 64) (b : BOp) (g : Fin 8) (s : State) := vIntCompare .leU 16 d a b g s

/-! ### Selects, moves and permutes (R187, R188) -/

/-- A select by a predicate register: every element is written (R187). -/
def vSelect (w : Nat) (d a b : Fin 64) (p : Fin 8) (s : State) : Host.Outcome State Fault Refusal := conclude s do
  let p ← readP s p.val
  useV s d 1
  let x ← readV s a 2
  let y ← readV s b 3
  let r := ofElems w ((List.range (1024 / w)).map fun j => if lane w p j then elem w x j else elem w y j)
  .ok (s.finishV 1 [vId a.val, vId b.val] d r)

/-- `vsel.w` (R187). -/
def execVselW (d a b : Fin 64) (p : Fin 8) (s : State) := vSelect 32 d a b p s
/-- `vsel.h` (R187). -/
def execVselH (d a b : Fin 64) (p : Fin 8) (s : State) := vSelect 16 d a b p s

/-- `vmov` (R188). -/
def execVmov (d a : Fin 64) (g : Fin 8) (s : State) := vUnary 16 (fun _ x => (x, {})) d a g s

/-- A permute: the source is read whole before the destination is written (R188). -/
def vPermute (w : Nat) (d a b : Fin 64) (g : Fin 8) (s : State) : Host.Outcome State Fault Refusal := conclude s do
  let p ← governing s g
  useV s d 1
  let x ← readV s a 2
  let y ← readV s b 3
  let (r, _) := mapElems w p (oldV s d) fun j => (elem w x (elem w y j % (1024 / w)), {})
  .ok (s.finishV 1 [vId a.val, vId b.val] d r)

/-- `vperm.w` (R188). -/
def execVpermW (d a b : Fin 64) (g : Fin 8) (s : State) := vPermute 32 d a b g s
/-- `vperm.h` (R188). -/
def execVpermH (d a b : Fin 64) (g : Fin 8) (s : State) := vPermute 16 d a b g s

/-- A broadcast of the low bits of a w register, whatever its tag (R188). -/
def vBroadcast (w : Nat) (d a : Fin 64) (g : Fin 8) (s : State) : Host.Outcome State Fault Refusal := conclude s do
  let p ← governing s g
  useV s d 1
  let x ← readW s a 2
  let (r, _) := mapElems w p (oldV s d) fun _ => (bits x.bits 0 w, {})
  .ok (s.finishV 1 [a.val] d r)

/-- `vbcst.w` (R188). -/
def execVbcstW (d a : Fin 64) (g : Fin 8) (s : State) := vBroadcast 32 d a g s
/-- `vbcst.h` (R188). -/
def execVbcstH (d a : Fin 64) (g : Fin 8) (s : State) := vBroadcast 16 d a g s

/-- An extract of one element into a w register (R188). -/
def vExtract (w : Nat) (d a b : Fin 64) (s : State) : Host.Outcome State Fault Refusal := conclude s do
  useW s d 1
  let x ← readV s a 2
  let i ← readW s b 3
  .ok (s.finishW 1 [vId a.val, b.val] d (.plain (BitVec.ofNat 64 (elem w x (i.lo.toNat % (1024 / w))))))

/-- `vext.w` (R188). -/
def execVextW (d a b : Fin 64) (s : State) := vExtract 32 d a b s
/-- `vext.h` (R188). -/
def execVextH (d a b : Fin 64) (s : State) := vExtract 16 d a b s

/-! ### Conversions (R189, R190) -/

/-- A narrowing conversion of FP32 elements into half h of the destination, governed per FP32 element (R189). -/
def vNarrow (f : FpFmt) (d a h : Fin 64) (g : Fin 8) (s : State) : Host.Outcome State Fault Refusal := conclude s do
  let p ← governing s g
  useV s d 1
  let x ← readV s a 2
  let old := oldV s d
  let rs := (List.range 64).map fun i =>
    if i / 32 = h.val ∧ lane 32 p (i % 32) then f.convert s.cpu.rnd (f32.decode (elem 32 x (i % 32))) else (elem 16 old i, ({} : Sticky))
  .ok ((s.flag (rs.foldl (fun a r => a.join r.2) {})).finishV 1 [vId a.val] d (ofElems 16 (rs.map (·.1))))

/-- `vcvt.f16.f32` (R189). -/
def execVcvtF16F32 (d a h : Fin 64) (g : Fin 8) (s : State) := vNarrow f16 d a h g s
/-- `vcvt.bf16.f32` (R189). -/
def execVcvtBf16F32 (d a h : Fin 64) (g : Fin 8) (s : State) := vNarrow bf16 d a h g s

/-- A widening conversion of half h of the source into FP32 elements, exact (R189). -/
def vWiden (f : FpFmt) (d a h : Fin 64) (g : Fin 8) (s : State) : Host.Outcome State Fault Refusal := conclude s do
  let p ← governing s g
  useV s d 1
  let x ← readV s a 2
  let (r, fl) := mapElems 32 p (oldV s d) fun j => f32.convert .rne (f.decode (elem 16 x (32 * h.val + j)))
  .ok ((s.flag fl).finishV 1 [vId a.val] d r)

/-- `vcvt.f32.f16` (R189). -/
def execVcvtF32F16 (d a h : Fin 64) (g : Fin 8) (s : State) := vWiden f16 d a h g s
/-- `vcvt.f32.bf16` (R189). -/
def execVcvtF32Bf16 (d a h : Fin 64) (g : Fin 8) (s : State) := vWiden bf16 d a h g s

/-- `vcvt.w.f32` (R189). -/
def execVcvtWF32 (d a : Fin 64) (g : Fin 8) (s : State) := vUnary 32 (fun r x => toInt32 r (f32.decode x)) d a g s

/-- `vcvt.f32.w` (R189). -/
def execVcvtF32W (d a : Fin 64) (g : Fin 8) (s : State) :=
  vUnary 32 (fun r x => f32.ofFin r (decide (signedOf 32 x < 0)) (signedOf 32 x).natAbs 0) d a g s

/-- The scale byte of a block of elements: of the enabled ones, a NaN gives 0xFF, and the largest finite magnitude sets the exponent (R190). -/
def blockScale (fm : Word) (l : List Fp) : Nat :=
  if l.any Fp.isNan then 255
  else
    let tops := l.filterMap fun y => match y with | .fin _ m e => if m = 0 then none else some ((Nat.log2 m : Int) + e) | _ => none
    match tops with
    | [] => 127
    | t :: rest =>
      let (m, e) := fmMagnitude fm (fmLargest fm)
      let x := rest.foldl max t - ((Nat.log2 m : Int) + e) + 127
      if x < 0 then 0 else Nat.min x.toNat 254

/-- Block of element j of 32 (R190). -/
def blockOf (fm : Word) (j : Nat) : Nat := if fmBsm fm = 2 then j / 16 else 0

/-- `vcvt.n`: 32 FP32 elements into quarter q of narrow codes, and the scales into w[b] (R190). -/
def execVcvtN (d a b : Fin 64) (g : Fin 8) (q : Fin 4) (s : State) : Host.Outcome State Fault Refusal := conclude s do
  let p ← governing s g
  let fm := s.cpu.fmOf 6
  useV s d 1
  let x ← readV s a 2
  if fmBsm fm ≠ 0 then useW s b 3
  let fp (j : Nat) : Fp := f32.decode (elem 32 x j)
  let scale (k : Nat) : Nat :=
    if fmBsm fm = 0 then 127
    else blockScale fm (((List.range 32).filter fun j => blockOf fm j = k && lane 32 p j).map fp)
  let x0 := scale 0
  let x1 := scale 1
  let old := oldV s d
  let rs := (List.range 128).map fun i =>
    if i / 32 = q.val ∧ lane 32 p (i % 32) then
      fmConvert fm s.cpu.ncl s.cpu.rnd (if blockOf fm (i % 32) = 0 then x0 else x1) (fp (i % 32))
    else (elem 8 old i, ({} : Sticky))
  let t := s.flag (rs.foldl (fun a r => a.join r.2) {})
  let r := ofElems 8 (rs.map (·.1))
  let w : Wreg := .plain (BitVec.ofNat 64 (if fmBsm fm = 2 then x0 + 256 * x1 else x0))
  .ok (t.onCpu fun c =>
    let c := c.popAll [vId a.val]
    ((if fmBsm fm ≠ 0 then c.writeW b w else c).writeV d r).advance 1)

/-- `vcvt.nf`: quarter q of narrow codes into 32 FP32 elements, with the scales of w[b] (R190). -/
def execVcvtNf (d a b : Fin 64) (g : Fin 8) (q : Fin 4) (s : State) : Host.Outcome State Fault Refusal := conclude s do
  let p ← governing s g
  let fm := s.cpu.fmOf 0
  useV s d 1
  let x ← readV s a 2
  let y ← (if fmBsm fm ≠ 0 then readW s b 3 else .ok .zero)
  let conv (j : Nat) : Nat × Sticky :=
    let sc := if fmBsm fm = 0 then 127 else bits y.bits (8 * blockOf fm j) 8
    match fmDecode fm (elem 8 x (32 * q.val + j)) with
    | .fin n m e => if sc = 255 then (f32.nan, {}) else f32.ofFin s.cpu.rnd n m (e + sc - 127)
    | _ => (f32.nan, {})
  let (r, fl) := mapElems 32 p (oldV s d) conv
  .ok ((s.flag fl).finishV 1 (if fmBsm fm ≠ 0 then [vId a.val, b.val] else [vId a.val]) d r)

/-! ### Reductions (R78, R191) -/

/-- Combines the lower half of a list with its upper half, pair by pair, until one value is left (R78); `k` halvings. -/
def treeReduce (f : Nat → Nat → Nat × Sticky) : Nat → List (Nat × Sticky) → List (Nat × Sticky)
  | 0, l => l
  | k + 1, l =>
    let h := l.length / 2
    if h = 0 then l
    else treeReduce f k ((l.take h).zipWith (fun x y => let (v, fl) := f x.1 y.1; (v, (x.2.join y.2).join fl)) (l.drop h))

/-- A reduction of the enabled elements of w bits into a w register: each element enters converted, a disabled one as the identity (R191). -/
def vReduce (w : Nat) (enter : Nat → Nat × Sticky) (ident : Nat) (f : Rnd → Nat → Nat → Nat × Sticky) (leave : Rnd → Nat → Nat × Sticky)
    (d a : Fin 64) (g : Fin 8) (s : State) : Host.Outcome State Fault Refusal := conclude s do
  let p ← governing s g
  useW s d 1
  let x ← readV s a 2
  let l := (List.range (1024 / w)).map fun j => if lane w p j then enter (elem w x j) else (ident, ({} : Sticky))
  let (v, fl) := (treeReduce (f s.cpu.rnd) 6 l).headD (0, {})
  let (r, fl2) := leave s.cpu.rnd v
  .ok ((s.flag (fl.join fl2)).finishW 1 [vId a.val] d (.plain (BitVec.ofNat 64 r)))

/-- The value of a reduction leaves as it is. -/
def asIs (_ : Rnd) (v : Nat) : Nat × Sticky := (v, {})

/-- `vred.sum.f32` (R191). -/
def execVredSumF32 (d a : Fin 64) (g : Fin 8) (s : State) := vReduce 32 (fun x => (x, {})) (f32.zero true) f32.add asIs d a g s
/-- `vred.sum.f16`: nodes in FP32, one rounding at the end (R78, R191). -/
def execVredSumF16 (d a : Fin 64) (g : Fin 8) (s : State) :=
  vReduce 16 (fun x => f32.convert .rne (f16.decode x)) (f32.zero true) f32.add (fun r v => f16.convert r (f32.decode v)) d a g s
/-- `vred.sum.bf16` (R78, R191). -/
def execVredSumBf16 (d a : Fin 64) (g : Fin 8) (s : State) :=
  vReduce 16 (fun x => f32.convert .rne (bf16.decode x)) (f32.zero true) f32.add (fun r v => bf16.convert r (f32.decode v)) d a g s
/-- `vred.max.f32` (R191). -/
def execVredMaxF32 (d a : Fin 64) (g : Fin 8) (s : State) :=
  vReduce 32 (fun x => (x, {})) (f32.inf true) (fun _ x y => f32.minmax true x y) asIs d a g s
/-- `vred.min.f32` (R191). -/
def execVredMinF32 (d a : Fin 64) (g : Fin 8) (s : State) :=
  vReduce 32 (fun x => (x, {})) (f32.inf false) (fun _ x y => f32.minmax false x y) asIs d a g s
/-- `vred.sum.w` (R191). -/
def execVredSumW (d a : Fin 64) (g : Fin 8) (s : State) :=
  vReduce 32 (fun x => (x, {})) 0 (fun _ x y => ((x + y) % 2 ^ 32, {})) asIs d a g s

/-! ### Predicate logic (R192) -/

/-- A logic operation on predicate registers. -/
def pLogic (f : Word → Word → Word) (d a b : Fin 64) (s : State) : Host.Outcome State Fault Refusal := conclude s do
  useP s d.val
  let x ← readP s a.val
  let y ← readP s b.val
  .ok ((s.finish 1 []).onCpu fun c => c.writeP d.val (f x y))

/-- `pand` (R192). -/
def execPand (d a b : Fin 64) (s : State) := pLogic (fun x y => x &&& y) d a b s
/-- `por` (R192). -/
def execPor (d a b : Fin 64) (s : State) := pLogic (fun x y => x ||| y) d a b s
/-- `pxor` (R192). -/
def execPxor (d a b : Fin 64) (s : State) := pLogic (fun x y => x ^^^ y) d a b s
/-- `pandn` (R192). -/
def execPandn (d a b : Fin 64) (s : State) := pLogic (fun x y => x &&& ~~~y) d a b s

/-- A predicate computed from a w register (R192). -/
def pFromW (f : Word → Word) (d a : Fin 64) (s : State) : Host.Outcome State Fault Refusal := conclude s do
  useP s d.val
  let x ← readW s a 2
  .ok ((s.finish 1 [a.val]).onCpu fun c => c.writeP d.val (f x.lo))

/-- `pwhile.h` (R192). -/
def execPwhileH (d a : Fin 64) (s : State) := pFromW (fun x => ones 64 (Nat.min x.toNat 64)) d a s
/-- `pwhile.w` (R192). -/
def execPwhileW (d a : Fin 64) (s : State) := pFromW (fun x => ones 64 (2 * Nat.min x.toNat 32)) d a s
/-- `pmov` (R192). -/
def execPmov (d a : Fin 64) (s : State) := pFromW id d a s

/-- `pget` (R192). -/
def execPget (d a : Fin 64) (s : State) : Host.Outcome State Fault Refusal := conclude s do
  useW s d 1
  let x ← readP s a.val
  .ok (s.finishW 1 [] d (.plain x))

/-! ### Loads and stores (R193, R194) -/

/-- The bytes that enabled lane groups access: bytes 2i and 2i+1 of group i. -/
def laneBytes (p : Word) : BitVec 128 := BitVec.ofNat 128 (packElems 2 ((List.range 64).map fun i => if bit p i then 3 else 0))

/-- A part of a vector access: its place and first byte, its offset from the effective address, its length and the bytes accessed in it. -/
structure Part where
  place : Place
  off   : Nat
  n     : Nat
  mask  : BitVec 128
deriving DecidableEq, Repr

/-- The place of the part of an access that lies in one line, bytes off to off + n - 1: checked at its lowest accessed byte (R193). -/
def partAt (s : State) (c : Wreg) (ea : Word) (use : Use) (off n : Nat) (mask : BitVec 128) : Except Stop (List Part × State) := do
  let m := (mask >>> off) &&& ones 128 n
  match (List.range n).find? fun i => bit m i with
  | none => .ok ([], s)
  | some lo =>
    let x := ea + BitVec.ofNat 64 (off + lo)
    let p ← place s c 2 x use (decide (use = .rd))
    need (decide (regionOf p.pa ≠ .config)) 0x09 2 x
    let t ← parkClearing (decide (use = .rd)) p (claimAt s p 2 x)
    .ok ([⟨{ p with pa := p.pa - lo }, off, n, m⟩], t)

/-- The parts of a vector access of the bytes of a mask, one per line, after its checks (R193): tag, seal and permission name the lowest accessed byte,
bounds the lowest byte outside, alignment the effective address. Of two lines in two pages, the faults of the lower line come first (log 102). -/
def vParts (s : State) (c : Wreg) (ea : Word) (align perm : Nat) (use : Use) (mask : BitVec 128) (lo hi : Nat) : Except Stop (List Part × State) := do
  checkCap c 2 (ea + BitVec.ofNat 64 lo) perm
  match (List.range 128).find? fun i => decide (lo ≤ i ∧ i ≤ hi) && bit mask i && !capCovers c (ea.toNat + i) 1 with
  | some i => trap 0x04 2 (ea + BitVec.ofNat 64 i)
  | none =>
    need (decide (ea.toNat % align = 0)) 0x07 2 ea
    let first := 128 - ea.toNat % 128
    let (a, t) ← partAt s c ea use 0 first mask
    let (b, u) ← partAt t c ea use first (128 - first) mask
    .ok (a ++ b, u)

/-- A vector store may write none of its parts where one lies in a page that a live field owns; that comes after the faults of translation of every part (R63, R140, R193). -/
def partsOwned (s : State) (ea : Word) : List Part → Except Stop Unit
  | [] => .ok ()
  | q :: rest => do
    let lo := ((List.range q.n).find? fun i => bit q.mask i).getD 0
    notOwned s { q.place with pa := q.place.pa + lo } 2 (ea + BitVec.ofNat 64 (q.off + lo))
    partsOwned s ea rest

/-- The parts as reads: scratch granule by granule, the own core's scratch whole (R194). -/
def readsOf (s : State) (l : List Part) : List (Agent × ReadOp) :=
  (l.map fun q =>
    let g := s.agentRd q.place.pa
    match g, regionOf q.place.pa with
    | .bank h, .scratch _ =>
      if h = s.cur then [(g, ⟨q.place.pa, q.place.swz, q.n, q.mask, q.off, .plain⟩)]
      else ((List.range 8).filterMap fun k =>
        let m := (q.mask >>> (16 * k)) &&& ones 128 16
        if 16 * k < q.n ∧ m ≠ 0 then some (g, (⟨q.place.pa + 16 * k, q.place.swz, 16, m, q.off + 16 * k, .plain⟩ : ReadOp)) else none)
    | _, _ => [(g, (⟨q.place.pa, q.place.swz, q.n, q.mask, q.off, .plain⟩ : ReadOp))]).flatten

/-- Two parts of the own core's scratch that follow each other are one read. -/
def joinOwn (s : State) : List (Agent × ReadOp) → List (Agent × ReadOp)
  | [(g, x), (g', y)] =>
    if g = .bank s.cur ∧ g' = g ∧ x.pa + x.n = y.pa ∧ x.swz = y.swz then [(g, { x with n := x.n + y.n, mask := x.mask ||| (y.mask <<< x.n) })]
    else [(g, x), (g', y)]
  | l => l

/-- The index operand of a vector load or store: a w register or a constant (R180, R193). -/
def indexB (s : State) (b : BOp) : Except Stop (Word × State) :=
  match b with
  | .reg r => do
    let j ← readW s r 3
    .ok (j.lo, s)
  | .konst k => konst s k

/-- The lowest and highest byte of a mask. -/
def maskEnds (m : BitVec 128) : Option (Nat × Nat) := if m = 0 then none else some (((List.range 128).find? fun i => bit m i).getD 0, Nat.log2 m.toNat)

/-- A vector load of the bytes of `mask` at the displaced address (R193): an instruction with no element enabled accesses nothing. -/
def vLoad (s : State) (a : Fin 64) (b : BOp) (align : Nat) (mask : BitVec 128) (back : Back) : Except Stop State := do
  let c ← readW s a 2
  let uses := a.val :: bUses b
  match maskEnds mask with
  | none => do
    let (_, t) ← (match b with | .reg r => (do let _ ← readW s r 3; .ok ((0 : Word), s)) | .konst _ => .ok (0, s))
    .ok (t.onCpu fun x => ((x.popAll uses).writeBack back 0 false).advance (bLen b))
  | some (lo, hi) => do
    match b with | .konst k => checkBefore s c k 2 permL lo | .reg _ => .ok ()
    let (j, s) ← indexB s b
    let ea := displaced c j
    let (l, t) ← vParts s c ea align permL .rd mask lo hi
    if t.cpu.arHeld then .error (.park (.queue .fence))
    match joinOwn t (readsOf t l) with
    | [] => .ok t
    | (_, r) :: rest => .ok (t.load r (rest.map (·.2)) back (bLen b) uses ea)

/-- `vld` (R193). -/
def execVld (d a : Fin 64) (b : BOp) (g : Fin 8) (s : State) : Host.Outcome State Fault Refusal := conclude s do
  let p ← governing s g
  useV s d 1
  vLoad s a b 16 (laneBytes p) (.vec d (laneBytes p))

/-- The bytes of the enabled elements of w bits. -/
def elemBytes (w : Nat) (p : Word) : BitVec 128 :=
  BitVec.ofNat 128 (packElems (w / 8) ((List.range (1024 / w)).map fun j => if lane w p j then 2 ^ (w / 8) - 1 else 0))

/-- A load that is broadcast to every enabled element of w bits (R193). -/
def vLoadBc (w : Nat) (d a : Fin 64) (b : BOp) (g : Fin 8) (s : State) : Host.Outcome State Fault Refusal := conclude s do
  let p ← governing s g
  useV s d 1
  let m := elemBytes w p
  vLoad s a b (w / 8) (if m = 0 then 0 else ones 128 (w / 8)) (.bcast d (w / 8) m)

/-- `vld.bc.w` (R193). -/
def execVldBcW (d a : Fin 64) (b : BOp) (g : Fin 8) (s : State) := vLoadBc 32 d a b g s
/-- `vld.bc.h` (R193). -/
def execVldBcH (d a : Fin 64) (b : BOp) (g : Fin 8) (s : State) := vLoadBc 16 d a b g s

/-- The parts as writes: scratch granule by granule (R194). -/
def writesOf (s : State) (x : BitVec 1024) (l : List Part) : List (Agent × WriteOp) :=
  (l.map fun q =>
    let g := s.agentOf q.place.pa
    match regionOf q.place.pa with
    | .scratch _ => (List.range 8).filterMap fun k =>
      let m := (q.mask >>> (16 * k)) &&& ones 128 16
      if 16 * k < q.n ∧ m ≠ 0 then
        some (g, (⟨q.place.pa + 16 * k, q.place.swz, 16, x >>> (8 * (q.off + 16 * k)), m, false, false⟩ : WriteOp)) else none
    | _ => [(g, (⟨q.place.pa, q.place.swz, q.n, x >>> (8 * q.off), q.mask, false, false⟩ : WriteOp))]).flatten

/-- `vst`: one entry of the store queue (R193, R194). -/
def execVst (d a : Fin 64) (b : BOp) (g : Fin 8) (s : State) : Host.Outcome State Fault Refusal := conclude s do
  let p ← governing s g
  let x ← readV s d 1
  let c ← readW s a 2
  let uses := vId d.val :: a.val :: bUses b
  let mask := laneBytes p
  match maskEnds mask with
  | none => do
    match b with | .reg r => (do let _ ← readW s r 3; .ok ()) | .konst _ => .ok ()
    .ok (s.finish (bLen b) uses)
  | some (lo, hi) => do
    match b with | .konst k => checkBefore s c k 2 permS lo | .reg _ => .ok ()
    let (j, s) ← indexB s b
    let ea := displaced c j
    let (l, t) ← vParts s c ea 16 permS .wr mask lo hi
    partsOwned t ea l
    sqRoom t
    .ok ((t.enqueue (.store (writesOf t x l))).finish (bLen b) uses)

end Sys2Proof.Machine
end

