-- ==== Sys2Proof/Machine/Matrix.lean ====
section
/-! DEFINITION. The matrix engine: accumulators and products (R86-R92, R197-R206), its instructions (R215-R217, R228-R236), the deckle (R218-R226), and the steps in which it takes, reads for and retires commands (R201-R211). -/

namespace Sys2Proof.Machine

/-! ### Accumulators (R86-R92) -/

/-- A cleared element (R198). -/
def Elem.zero : Elem := ⟨0, 0, false⟩

/-- An element at row i, column j. -/
def Accum.at (a : Accum) (i j : Nat) : Elem := Tab.get Elem.zero a.elems (32 * i + j)

/-- Saturates an integer to 96 bits (R88). -/
def saturate (s : Int) : BitVec 96 × Sticky :=
  if s > 2 ^ 95 - 1 then (BitVec.ofInt 96 (2 ^ 95 - 1), { zo := true })
  else if s < -(2 ^ 95) then (BitVec.ofInt 96 (-(2 ^ 95)), { zo := true })
  else (BitVec.ofInt 96 s, {})

/-- The integer floor(v × 2^e) and whether it differs from v × 2^e. -/
def floorScaled (v e : Int) : Int × Bool :=
  if e ≥ 0 then (v * (2 ^ e.toNat : Nat), false)
  else (v / (2 ^ (-e).toNat : Nat), decide (v % (2 ^ (-e).toNat : Nat) ≠ 0))

/-- The tag after a special product (R89): 1 +∞, 2 -∞, 3 NaN. -/
def joinTag (t p : Nat) : Nat × Bool := if t = 0 then (p, false) else if t = 3 ∨ p = 3 then (3, false) else if t = p then (t, false) else (3, true)

/-- Adds a product to an element at an anchor (R87-R89). -/
def Elem.add (x : Elem) (anchor : Int) (p : Fp × Bool) : Elem × Sticky :=
  match p.1 with
  | .fin n m e =>
    let (t, zi) := floorScaled (if n then -(m : Int) else m) (e - anchor)
    let (q, f) := saturate (x.q.toInt + t)
    ({ x with q := q }, { f with zi := zi, nv := p.2 })
  | .inf n =>
    let (t, nv) := joinTag x.tag.toNat (if n then 2 else 1)
    ({ x with tag := BitVec.ofNat 2 t }, { nv := nv || p.2 })
  | .nan _ => ({ x with tag := 3 }, { nv := p.2 })

/-- Adds a product into an element of an accumulator. -/
def Accum.add (a : Accum) (i j : Nat) (p : Fp × Bool) : Accum × Sticky :=
  let (x, f) := (a.at i j).add a.anchor.toInt p
  ({ a with elems := Tab.set Elem.zero a.elems (32 * i + j) x }, f)

/-- Changes every listed element, and the flags that the changes raise. -/
def Accum.mapElems (a : Accum) (f : Elem → Elem × Sticky) : Accum × Sticky :=
  (({ a with elems := (a.elems.map fun (k, x) => (k, (f x).1)).filter fun (_, x) => x ≠ Elem.zero }),
    a.elems.foldl (fun s (_, x) => s.join (f x).2) {})

/-- Re-expresses an accumulator at another anchor (R91). -/
def Accum.reanchor (a : Accum) (anc : BitVec 12) : Accum × Sticky :=
  let (b, f) := a.mapElems fun x =>
    let (v, zi) := floorScaled x.q.toInt (a.anchor.toInt - anc.toInt)
    let (q, f) := saturate v
    ({ x with q := q }, { f with zi := zi })
  ({ b with anchor := anc }, f)

/-- The anchor that `zfit` gives for an FP32 magnitude (R233). -/
def fitAnchor (x : Nat) : BitVec 12 :=
  let e : Int := match f32.decode x with
    | .fin _ m e => if m = 0 then -149 else (Nat.log2 m : Int) + e
    | _ => 127
  BitVec.ofInt 12 (max (-2048) (min 2047 (e - 93)))

/-- An element rounded once to a readout format (R92). -/
def Elem.readout (x : Elem) (anchor : Int) (f : FpFmt) (r : Rnd) : Nat × Sticky :=
  match x.tag.toNat with
  | 0 =>
    let v := x.q.toInt
    if v = 0 then (f.zero false, {}) else f.round r ⟨decide (v < 0), v.natAbs, anchor, false⟩
  | 1 => (f.inf false, {})
  | 2 => (f.inf true, {})
  | _ => (f.nan, {})

/-- The 16 bytes of `zraw` for an element (R234). -/
def Elem.raw (x : Elem) : Nat := x.q.toNat + x.tag.toNat * 2 ^ 96 + x.msk.toNat * 2 ^ 98

/-- An element is masked by the diagonal offset (R206). -/
def masked (delta : Int) (i j : Nat) : Bool := decide ((j : Int) - i > delta)

/-- The sub-tile of an element is wholly above the diagonal (R206). -/
def whollyAbove (delta : Int) (i j : Nat) : Bool := decide (8 * ((j / 8 : Nat) : Int) - (8 * ((i / 8 : Nat) : Int) + 7) > delta)

/-- Sets the mask of every element, and TRIV (R206). -/
def Accum.setMasks (a : Accum) (delta : Int) : Accum :=
  { a with
    triv := true
    elems := (List.range 2048).foldl (fun t k => Tab.set Elem.zero t k { Tab.get Elem.zero t k with msk := masked delta (k / 32) (k % 32) }) a.elems }

/-! ### Geometry and operands (R216, R217) -/

/-- The geometry word (R216). -/
structure Geo where
  rows : Nat
  cols : Nat
  k : Nat
  ap : Nat
  bp : Nat
  delta : Int

/-- Reads the fields of a geometry word. -/
def geoOf (x : Word) : Geo := ⟨bits x 0 6 + 1, bits x 6 5 + 1, bits x 11 13, bits x 24 16, bits x 40 16, signedOf 8 (bits x 56 8)⟩

/-- Bytes of an element of a TYPE. -/
def typeBytes (t : Fin 4) : Nat := if t = 2 then 1 else 2

/-- Length of a scale block of a format. -/
def blockLen (fm : Word) : Nat := if fmBsm fm = 1 then 32 else 16

/-- Number of scale blocks of k elements: nA and nB (R217). -/
def scaleCount (t : Fin 4) (fm : Word) (k : Nat) : Nat := if t = 2 ∧ fmBsm fm ≠ 0 then ceilDiv k (blockLen fm) else 0

/-- Decodes an operand code with its scale byte (R81, R82, R87). -/
def operandFp (t : Fin 4) (fm : Word) (scale code : Nat) : Fp :=
  match t.val with
  | 0 => bf16.decode code
  | 1 => f16.decode code
  | _ =>
    if fmBsm fm = 0 then fmDecode fm code
    else if scale = 255 then .nan false
    else match fmDecode fm code with
      | .fin n m e => .fin n m (e + scale - 127)
      | x => x

/-- Reads the n registers of a block from register a (R215). -/
def readBlock (s : State) (a : Fin 64) : Nat → Except Stop (List Wreg)
  | 0 => .ok []
  | n + 1 => do
    let l ← readBlock s a n
    let x ← readW s (a + Fin.ofNat 64 n) 2
    .ok (l ++ [x])

/-- The register numbers of a block. -/
def blockUses (a : Fin 64) (n : Nat) : List Nat := (List.range n).map fun i => a.val + i

/-! ### Checks at issue (R203) -/

/-- A tile of the given spans of bytes from its address: tag, seal, kind and permission, bounds, and alignment of its address and pitch. A pitch that is not a multiple of 16
is reported as its tile's address is, though it stands in the geometry (log 108). -/
def tileCheck (c : Wreg) (opnd perm : Nat) (spans : List (Nat × Nat)) (align pitch : Nat) : Except Stop Unit := do
  let a := capAddr c
  checkCap c opnd a perm
  need (spans.all fun (o, n) => capCovers c (a.toNat + o) n) 0x04 opnd a
  need (decide (a.toNat % align = 0 ∧ pitch % 16 = 0)) 0x07 opnd a

/-- Bytes n from an address, or its one byte, touch a scratch window of a core outside a cluster (R203); the part of a window that nothing backs belongs to it. -/
def outside (dev clu x n : Nat) : Bool :=
  let l := localOf x
  let hit (lo hi : Nat) : Bool := decide (l < 0x10000000000 + hi ∧ 0x10000000000 + lo < l + max n 1)
  decide (devOf x < 6144) &&
    (if devOf x = dev then hit 0 (clu * 0x800000) || hit ((clu + 1) * 0x800000) 0x40000000 else hit 0 0x40000000)

/-- A kind-4 tile names no scratch window outside a cluster of the device (R203, R208); its address is looked at even where K is 0 and no byte is checked (log 29). -/
def tileIn (dev clu : Nat) (c : Wreg) (spans : List (Nat × Nat)) : Bool :=
  decide (capKind c ≠ 4) || !((0, 1) :: spans).any fun (o, n) => outside dev clu ((capAddr c).toNat + o) n

/-- At issue on the core that runs the command, a tile in a window outside the cluster is a protection fault; a carried command leaves that to its target (R203, R208). -/
def tileHere (s : State) (carried : Bool) (c : Wreg) (opnd : Nat) (spans : List (Nat × Nat)) : Except Stop Unit :=
  need (carried || tileIn s.dev (s.cur / 16) c spans) 0x09 opnd (capAddr c)

/-- What an instruction hands to the engine: the command, its captured registers and images, its scratch tiles with their spans, and the registers read. -/
structure Capture where
  op : CmdOp
  regs : List Wreg
  imgs : List (BitVec 384)
  uses : List Nat

/-- Format images of operands A and B as captured (R215). -/
def State.formats (s : State) (t : Fin 4) : Word × Word := if t = 2 then (s.cpu.fmOf 0, s.cpu.fmOf 3) else (0, 0)

/-- A tb register as captured; a pending one parks (R219). -/
def State.useTb (s : State) (n : Nat) : Except Stop (BitVec 128) :=
  if bit s.cpu.tbPend n then .error (.park (.tile n)) else .ok ((s.cpu.tb[n]?).getD 0)

/-- The spans of a dense operand A, of operand B for rows read from byte `o` on, and of the scales (R217). -/
def Geo.spanA (g : Geo) (es : Nat) : List (Nat × Nat) := if g.k = 0 then [] else [(0, (g.rows - 1) * g.ap + g.k * es)]

/-- The span of operand B from an offset. -/
def Geo.spanB (g : Geo) (es o : Nat) : List (Nat × Nat) := if g.k = 0 then [] else [(o, (g.k - 1) * g.bp + g.cols * es)]

/-- A group of rows of a product: its number, its first row, its rows, and the byte offsets of its B operand and B scales (R232). -/
structure Group where
  num : Nat
  row : Nat
  n : Nat
  boff : Nat
  soff : Nat

/-- The rows that precede group i of `mgrp` (R232). -/
def groupRow (w : Word) (i : Nat) : Nat := (List.range i).foldl (fun a j => a + bits w (8 * j) 8) 0

/-- Groups of `mgrp` with a row. -/
def groupsOf (g : Geo) (nB : Nat) (w : Word) : List Group :=
  (List.range 8).filterMap fun i => if bits w (8 * i) 8 = 0 then none else some ⟨i, groupRow w i, bits w (8 * i) 8, i * g.k * g.bp, i * g.cols * nB⟩

/-- The first group of `mgrp` whose rows pass the geometry's. -/
def groupOver (g : Geo) (w : Word) : Option Nat := (List.range 8).find? fun i => groupRow w i + bits w (8 * i) 8 > g.rows

/-- `mmac` of MODE 0, `mmac.tri` and `mgrp` at issue (R203, R217, R228, R231, R232). `counts` is the register of group counts. -/
def denseCapture (s : State) (carried : Bool) (op : CmdOp) (a b : Fin 64) (t : Fin 4) (counts : Option (Fin 64)) : Except Stop Capture := do
  let w ← (match counts with | some d => readW s d 1 | none => .ok .zero)
  let l ← readBlock s a 3
  let gw ← readW s b 3
  let g := geoOf gw.lo
  let (fa, fb) := s.formats t
  let es := typeBytes t
  let nA := scaleCount t fa g.k
  let nB := scaleCount t fb g.k
  let on := match counts with | some _ => groupsOf g nB w.lo | none => [⟨0, 0, g.rows, 0, 0⟩]
  let spanA := g.spanA es
  let spanB := (on.map fun x => g.spanB es x.boff).flatten
  let spanS := (0, g.rows * nA) :: on.map fun x => (g.rows * nA + x.soff, g.cols * nB)
  let c0 := l.getD 0 .zero
  let c1 := l.getD 1 .zero
  let c2 := l.getD 2 .zero
  tileCheck c0 2 (permL + permE) spanA 16 g.ap
  tileCheck c1 2 (permL + permE) spanB 16 g.bp
  if nA + nB ≠ 0 then tileCheck c2 2 (permL + permE) spanS 1 0
  tileHere s carried c0 2 spanA
  tileHere s carried c1 2 spanB
  if nA + nB ≠ 0 then tileHere s carried c2 2 spanS
  match (match counts with | some _ => groupOver g w.lo | none => none) with
  | some i => trap 0x10 1 (BitVec.ofNat 64 i)
  | none => .ok ()
  .ok ⟨op, l ++ [gw, w], [fa.setWidth 384, fb.setWidth 384],
    (match counts with | some d => [d.val] | none => []) ++ blockUses a 3 ++ [b.val]⟩

/-- `mmac.s` and `mmac.ss` at issue (R229, R230). -/
def sparseCapture (s : State) (carried : Bool) (mode : Fin 3) (d a b : Fin 64) (t z : Fin 4) : Except Stop Capture := do
  let tb ← s.useTb d.val
  let tb2 ← (if mode = 2 then s.useTb (d.val + 1) else .ok 0)
  let l ← readBlock s a 3
  let gw ← readW s b 3
  let g := geoOf gw.lo
  let (fa, fb) := s.formats t
  let es := typeBytes t
  let c0 := l.getD 0 .zero
  let c1 := l.getD 1 .zero
  let spanB := g.spanB es 0
  tileCheck c0 2 (permL + permE) [] 16 0
  if mode = 1 then tileCheck c1 2 (permL + permE) spanB 16 g.bp
  tileHere s carried c0 2 []
  if mode = 1 then tileHere s carried c1 2 spanB
  needR (decide (fmBsm fa = 0 ∧ fmBsm fb = 0)) 0x50
  need (decide (bits tb 32 32 ≤ bits tb 0 32 + g.rows)) 0x0F 1 (BitVec.ofNat 64 d.val)
  need (decide (mode ≠ 1 ∨ bits tb 88 24 ≤ bits tb 64 24 + g.k)) 0x0F 1 (BitVec.ofNat 64 d.val)
  let span := [(0, 4 * (bits tb 112 13 + bits tb2 112 13))]
  tileCheck c0 2 (permL + permE) span 16 0
  tileHere s carried c0 2 span
  .ok ⟨.mmac mode false t z, l ++ [gw, .plain (BitVec.ofNat 64 d.val)], [fa.setWidth 384, fb.setWidth 384, tb.setWidth 384, tb2.setWidth 384],
    blockUses a 3 ++ [b.val]⟩

/-- `zclr`, `zanchor` and `zfit` at issue (R233). -/
def anchorCapture (s : State) (op : CmdOp) (a : Fin 64) : Except Stop Capture := do
  let x ← readW s a 2
  .ok ⟨op, [x], [], [a.val]⟩

/-- Shape of a readout (R234): rows, columns and pitch. -/
def shapeOf (x : Word) : Nat × Nat × Nat := (bits x 0 7, bits x 7 5 + 1, bits x 12 16)

/-- A readout at issue (R234): `head` bytes stand before the elements. -/
def readoutCapture (s : State) (op : CmdOp) (a b : Fin 64) (d : Option (Fin 64)) (es head : Nat) : Except Stop Capture := do
  let k ← (match d with | some r => readW s r 1 | none => .ok .zero)
  let c ← readW s a 2
  let x ← readW s b 3
  let (rows, cols, pitch) := shapeOf x.lo
  tileCheck c 2 (permS + permE) (if rows = 0 then [] else [(0, head + (rows - 1) * pitch + cols * es)]) 16 pitch
  needR (decide (rows ≤ 64)) 0x52
  .ok ⟨op, [c, x, k], [], (match d with | some r => [r.val] | none => []) ++ [a.val, b.val]⟩

/-! ### Issue -/

/-- A command enters the local queue (R201). -/
def enterMatrix (s : State) (c : Cmd) : State := s.onCore fun k => { k with mq := k.mq ++ [{ c with after := s.packetN }] }

/-- Issues a command to the local queue, or parks while it is full (R201). -/
def State.toMatrix (s : State) (x : Capture) : Except Stop State := do
  cmdRoom s 2
  let (seq, t) := s.takeSeq 2
  .ok ((t.command 2 (s.capture x.op seq x.regs x.imgs) enterMatrix).finish 1 x.uses)

/-- `mmac` (R228). -/
def execMmac (a b : Fin 64) (t z : Fin 4) (s : State) : Host.Outcome State Fault Refusal := conclude s do
  let x ← denseCapture s false (.mmac 0 false t z) a b t none
  s.toMatrix x

/-- `mmac.s` (R229, R230). -/
def execMmacS (d a b : Fin 64) (t z : Fin 4) (s : State) : Host.Outcome State Fault Refusal := conclude s do
  let x ← sparseCapture s false 1 d a b t z
  s.toMatrix x

/-- `mmac.ss` (R229, R230). -/
def execMmacSs (d a b : Fin 64) (t z : Fin 4) (s : State) : Host.Outcome State Fault Refusal := conclude s do
  let x ← sparseCapture s false 2 d a b t z
  s.toMatrix x

/-- `mmac.tri` (R206, R231). -/
def execMmacTri (a b : Fin 64) (t z : Fin 4) (s : State) : Host.Outcome State Fault Refusal := conclude s do
  let x ← denseCapture s false (.mmac 0 true t z) a b t none
  s.toMatrix x

/-- `mgrp` (R232). -/
def execMgrp (d a b : Fin 64) (t z : Fin 4) (s : State) : Host.Outcome State Fault Refusal := conclude s do
  let x ← denseCapture s false (.mgrp t z) a b t (some d)
  s.toMatrix x

/-- `zclr` (R233). -/
def execZclr (a : Fin 64) (z : Fin 4) (s : State) : Host.Outcome State Fault Refusal := conclude s do
  let x ← anchorCapture s (.zclr z) a
  s.toMatrix x

/-- `zanchor` (R233). -/
def execZanchor (a : Fin 64) (z : Fin 4) (s : State) : Host.Outcome State Fault Refusal := conclude s do
  let x ← anchorCapture s (.zanchor z) a
  s.toMatrix x

/-- `zfit` (R233). -/
def execZfit (a : Fin 64) (z : Fin 4) (s : State) : Host.Outcome State Fault Refusal := conclude s do
  let x ← anchorCapture s (.zfit z) a
  s.toMatrix x

/-- `zread` (R234). -/
def execZread (a b : Fin 64) (f : Fin 2) (z : Fin 4) (s : State) : Host.Outcome State Fault Refusal := conclude s do
  let x ← readoutCapture s (.zread false f z) a b none (if f = 0 then 4 else 2) 0
  s.toMatrix x

/-- `zread.tri` (R206, R234). -/
def execZreadTri (d a b : Fin 64) (f : Fin 2) (z : Fin 4) (s : State) : Host.Outcome State Fault Refusal := conclude s do
  let x ← readoutCapture s (.zread true f z) a b (some d) (if f = 0 then 4 else 2) 0
  s.toMatrix x

/-- `zraw` (R234). -/
def execZraw (a b : Fin 64) (z : Fin 4) (s : State) : Host.Outcome State Fault Refusal := conclude s do
  let x ← readoutCapture s (.zraw z) a b none 16 16
  s.toMatrix x

/-- Checks of a sparse array of a cut that are made at issue (R221). -/
def sourceCheck (c : Wreg) : Except Stop Unit := checkCap c 2 (capAddr c) (permL + permE)

/-- Length of a buffer: the bytes from its base to its top. -/
def capLength (c : Wreg) : Nat := match capBounds c with | some (lo, hi) => hi - lo | none => 0

/-- The packing budget of a buffer (R221). -/
def budgetOf (c : Wreg) : Nat := Nat.min (capLength c / 4) 4096

/-- Issues a cut: the tb registers that it writes become pending (R219). -/
def State.toDeckle (s : State) (d n : Nat) (x : Capture) : Except Stop State := do
  let t ← s.toMatrix x
  .ok (t.onCpu fun c => { c with tbPend := (List.range n).foldl (fun p i => setBit p (d + i) true) c.tbPend })

/-- `dcut` and `dcut.co` at issue (R221, R224): the block has n registers, of which those in `srcs` are source arrays. -/
def cutCapture (s : State) (form : Fin 3) (d a b : Fin 64) (t : Fin 4) (n : Nat) (srcs : List Nat) : Except Stop Capture := do
  let tb ← s.useTb d.val
  if form = 2 then
    let _ ← s.useTb (d.val + 1)
  let l ← readBlock s a n
  let buf ← readW s b 3
  let (fa, fb) := s.formats t
  srcs.forM fun i => sourceCheck (l.getD i .zero)
  let span := [(0, 4 * budgetOf buf)]
  tileCheck buf 3 (permS + permE) span 16 0
  tileHere s false buf 3 span
  needR (decide (capLength buf ≥ 256)) 0x51
  needR (decide (fmBsm fa = 0 ∧ (form ≠ 2 ∨ fmBsm fb = 0))) 0x50
  .ok ⟨.dcut form t ⟨d.val % 8, Nat.mod_lt _ (by decide)⟩, l ++ [buf], [tb.setWidth 384], blockUses a n ++ [b.val]⟩

/-- `dcut` (R221). -/
def execDcut (d a b : Fin 64) (t : Fin 4) (s : State) : Host.Outcome State Fault Refusal := conclude s do
  let x ← cutCapture s 0 d a b t 4 [0, 1, 2]
  s.toDeckle d.val 1 x

/-- `dcut.p` (R223). -/
def execDcutP (d a b : Fin 64) (t : Fin 4) (s : State) : Host.Outcome State Fault Refusal := conclude s do
  let tb ← s.useTb d.val
  let l ← readBlock s a 2
  let dst ← readW s b 3
  let w := (l.getD 1 .zero).lo
  let span := [(0, (bits tb 88 24 - bits tb 64 24) * 32 * typeBytes t)]
  sourceCheck (l.getD 0 .zero)
  tileCheck dst 3 (permS + permE) span 16 (bits w 24 16)
  tileHere s false dst 3 span
  s.toDeckle d.val 1 ⟨.dcut 1 t ⟨d.val % 8, Nat.mod_lt _ (by decide)⟩, l ++ [dst], [tb.setWidth 384], blockUses a 2 ++ [b.val]⟩

/-- `dcut.co` (R224). -/
def execDcutCo (d a b : Fin 64) (t : Fin 4) (s : State) : Host.Outcome State Fault Refusal := conclude s do
  let x ← cutCapture s 2 d a b t 8 [0, 1, 2, 4, 5, 6]
  s.toDeckle d.val 2 x

/-- `mtbr` (R235). -/
def execMtbr (d a : Fin 64) (s : State) : Host.Outcome State Fault Refusal := conclude s do
  let x ← s.useTb a.val
  useW s d 1
  .ok (s.finishW 1 [] d ⟨x, false⟩)

/-- `mtbw`: no field is checked (R235). -/
def execMtbw (d a : Fin 64) (s : State) : Host.Outcome State Fault Refusal := conclude s do
  let _ ← s.useTb d.val
  let x ← readW s a 2
  .ok ((s.finish 1 [a.val]).onCpu fun c => { c with tb := c.tb.setIfInBounds d.val x.bits })

/-! ### Commands for other cores (R207, R208, R236) -/

/-- What the instruction that `mcmd` carries captures at the sender (R236). -/
def carriedCapture (s : State) (c : Instr) : Except Stop Capture :=
  match c with
  | .mmac a b t z => denseCapture s true (.mmac 0 false t z) a b t none
  | .mmacS d a b t z => sparseCapture s true 1 d a b t z
  | .mmacSs d a b t z => sparseCapture s true 2 d a b t z
  | .mmacTri a b t z => denseCapture s true (.mmac 0 true t z) a b t none
  | .mgrp d a b t z => denseCapture s true (.mgrp t z) a b t (some d)
  | .zclr a z => anchorCapture s (.zclr z) a
  | .zanchor a z => anchorCapture s (.zanchor z) a
  | .zfit a z => anchorCapture s (.zfit z) a
  | .zread a b f z => readoutCapture s (.zread false f z) a b none (if f = 0 then 4 else 2) 0
  | .zreadTri d a b f z => readoutCapture s (.zread true f z) a b (some d) (if f = 0 then 4 else 2) 0
  | .zraw a b z => readoutCapture s (.zraw z) a b none 16 16
  | _ => trap 0x01 0 (thisWord s)

/-- A carried command leaves for its unit; the capability stands before the registers it captured. -/
def enterRemote (s : State) (c : Cmd) : State :=
  { s with remotes := s.remotes ++ [⟨c.reg 0, s.cur, s.slot, { c with regs := c.regs.drop 1, after := s.packetN }⟩] }

/-- `mcmd` (R208, R236). -/
def execMcmd (a : Fin 64) (c : Instr) (s : State) : Host.Outcome State Fault Refusal := conclude s do
  let u ← readW s a 2
  need (u.tag && !capMalformed u) 0x03 2 (capAddr u)
  need (decide (capKind u ≠ 3)) 0x06 2 (capAddr u)
  need (decide (capKind u = 2)) 0x05 2 (capAddr u)
  need (decide (bits u.bits 11 13 < 6144)) 0x09 2 (capAddr u)
  let x ← carriedCapture s c
  let (seq, t) := s.takeSeq 2
  .ok ((t.command 12 (s.capture x.op seq (u :: x.regs) x.imgs) enterRemote).finish 2 (a.val :: x.uses))

/-! ### What the engine does with a command -/

/-- The accumulator of a command. -/
def CmdOp.accum : CmdOp → Option (Fin 4)
  | .mmac _ _ _ z | .mgrp _ z | .zclr z | .zanchor z | .zfit z | .zread _ _ z | .zraw z => some z
  | _ => none

/-- A command whose only effects are on accumulators (R211). -/
def CmdOp.accumOnly : CmdOp → Bool
  | .mmac .. | .mgrp .. | .zclr _ | .zanchor _ | .zfit _ => true
  | _ => false

/-- A reader of a captured capability of a command that core h runs. -/
def Cmd.reader (c : Cmd) (h i : Nat) (tile : Bool) : Reader := ⟨h, c.tenant, c.h, c.after, c.got, c.reg i, tile⟩

/-- What running a command gave: the state, the accumulator, flags, writes, tb registers, and a fault: cause, value and position. -/
structure Ran where
  s : State
  acc : Accum
  fl : Sticky := {}
  outs : List WriteOp := []
  tbs : List (Nat × BitVec 128) := []
  fault : Option (Nat × Nat × Nat) := none

/-- Adds products into an accumulator. -/
def Accum.addAll (a : Accum) (fl : Sticky) (l : List (Nat × Nat × (Fp × Bool))) : Accum × Sticky :=
  l.foldl (fun (x : Accum × Sticky) (i, j, p) =>
    let (b, f) := x.1.add i j p
    (b, x.2.join f)) (a, fl)

/-- The products of index k of a group of rows: reads A's column and B's row with their scales, then multiplies (R217, R228). Operands that only skipped sub-tiles would use
are read too, and can fault (R206, log 104). -/
def denseStep (c : Cmd) (h : Nat) (t : Fin 4) (tri : Bool) (gr : Group) (k : Nat) (r : Ran) : Except (Nat × Nat) Ran := do
  let g := geoOf (c.reg 3).lo
  let fa : Word := (c.imgs.getD 0 0).setWidth 64
  let fb : Word := (c.imgs.getD 1 0).setWidth 64
  let es := typeBytes t
  let nA := scaleCount t fa g.k
  let nB := scaleCount t fb g.k
  let base (i : Nat) : Nat := (capAddr (c.reg i)).toNat
  let rows := (List.range gr.n).map (gr.row + ·)
  let cols := List.range g.cols
  let (as, s) ← (c.reader h 0 true).words false es (rows.map fun i => base 0 + i * g.ap + k * es) r.s
  let (bs, s) ← (c.reader h 1 true).words false es (cols.map fun j => base 1 + gr.boff + k * g.bp + j * es) s
  let (xa, s) ← (if nA = 0 then .ok ([], s) else (c.reader h 2 true).words false 1 (rows.map fun i => base 2 + i * nA + k / blockLen fa) s)
  let (xb, s) ← (if nB = 0 then .ok ([], s) else (c.reader h 2 true).words false 1 (cols.map fun j => base 2 + g.rows * nA + gr.soff + j * nB + k / blockLen fb) s)
  let va (i : Nat) : Fp := operandFp t fa (xa.getD i 127) (as.getD i 0)
  let vb (j : Nat) : Fp := operandFp t fb (xb.getD j 127) (bs.getD j 0)
  let ps := ((List.range gr.n).map fun i => (cols.filter fun j => !(tri && whollyAbove g.delta (gr.row + i) j)).map fun j =>
    (gr.row + i, j, mulFp (va i) (vb j))).flatten
  let (acc, fl) := r.acc.addAll r.fl ps
  .ok { r with s := s, acc := acc, fl := fl }

/-- The products of a group for n indices from k on; a fault keeps those of the indices below it (R210). -/
def denseRun (c : Cmd) (h : Nat) (t : Fin 4) (tri : Bool) (gr : Group) : Nat → Nat → Ran → Ran
  | 0, _, r => r
  | n + 1, k, r =>
    match denseStep c h t tri gr k r with
    | .error (code, x) => { r with fault := some (code, x, k) }
    | .ok r => denseRun c h t tri gr n (k + 1) r

/-- A packed entry (R220): value, lane, k offset. -/
def unpackEntry (x : Nat) : Nat × Nat × Nat := (x % 2 ^ 16, x / 2 ^ 16 % 64, x / 2 ^ 22 % 1024)

/-- An operand that raises NFS when its partner is skipped (R90). -/
def Fp.special : Fp → Bool
  | .fin .. => false
  | _ => true

/-- MODE 1: the products of the entries at each k offset in turn with the partner's row (R229). -/
def sparseRows (c : Cmd) (h : Nat) (t : Fin 4) (nr : Nat) (es : List (Nat × Nat × Nat)) : List Nat → Ran → Ran
  | [], r => r
  | k :: ks, r =>
    let g := geoOf (c.reg 3).lo
    let fa : Word := (c.imgs.getD 0 0).setWidth 64
    let fb : Word := (c.imgs.getD 1 0).setWidth 64
    let cols := List.range g.cols
    let b := typeBytes t
    match (c.reader h 1 true).words false b (cols.map fun j => (capAddr (c.reg 1)).toNat + k * g.bp + j * b) r.s with
    | .error (code, x) => { r with fault := some (code, x, k) }
    | .ok (bs, s) =>
      let here := es.filter fun e => e.2.2 = k
      let vb (j : Nat) : Fp := operandFp t fb 127 (bs.getD j 0)
      let absent := (List.range nr).any fun i => !(here.any fun e => e.2.1 = i)
      let nfs := absent && cols.any fun j => (vb j).special
      let (acc, fl) := r.acc.addAll r.fl ((here.map fun e => cols.map fun j => (e.2.1, j, mulFp (operandFp t fa 127 e.1) (vb j))).flatten)
      sparseRows c h t nr es ks { r with s := s, acc := acc, fl := fl.join { nfs := nfs } }

/-- MODE 2: the products of the packed entries of both operands (R229). -/
def sparsePairs (c : Cmd) (t : Fin 4) (nr : Nat) (ea eb : List (Nat × Nat × Nat)) (r : Ran) : Ran :=
  let g := geoOf (c.reg 3).lo
  let va (e : Nat × Nat × Nat) : Fp := operandFp t ((c.imgs.getD 0 0).setWidth 64) 127 e.1
  let vb (e : Nat × Nat × Nat) : Fp := operandFp t ((c.imgs.getD 1 0).setWidth 64) 127 e.1
  let eb := eb.filter fun e => decide (e.2.1 < g.cols)
  let skipA := ea.any fun e => (va e).special && (List.range g.cols).any fun j => !(eb.any fun f => f.2.2 = e.2.2 && f.2.1 = j)
  let skipB := eb.any fun f => (vb f).special && (List.range nr).any fun i => !(ea.any fun e => e.2.2 = f.2.2 && e.2.1 = i)
  let (acc, fl) := r.acc.addAll r.fl ((ea.map fun e => (eb.filter fun f => f.2.2 = e.2.2).map fun f => (e.2.1, f.2.1, mulFp (va e) (vb f))).flatten)
  { r with acc := acc, fl := fl.join { nfs := skipA || skipB } }

/-- The numbers of a list in rising order, once each, below n. -/
def distinctBelow (n : Nat) (l : List Nat) : List Nat := (List.range n).filter l.contains

/-- Runs `mmac.s` or `mmac.ss` (R229, R230): every packed entry is read and checked before a product is added. -/
def sparseRun (c : Cmd) (h : Nat) (mode : Fin 3) (t : Fin 4) (r : Ran) : Ran :=
  let g := geoOf (c.reg 3).lo
  let tb := c.imgs.getD 2 0
  let nA := bits tb 112 13
  let nB := bits (c.imgs.getD 3 0) 112 13
  if bit tb 125 ∨ nA = 0 then r
  else match (c.reader h 0 true).words false 4 ((List.range (nA + nB)).map fun i => (capAddr (c.reg 0)).toNat + 4 * i) r.s with
    | .error (code, x) => { r with fault := some (code, x, 0) }
    | .ok (l, s) =>
      let ea := (l.take nA).map unpackEntry
      let eb := (l.drop nA).map unpackEntry
      let r' := { r with s := s }
      if ea.any fun e => decide (e.2.1 ≥ g.rows ∨ (mode = 1 ∧ e.2.2 ≥ g.k)) then { r' with fault := some (0x0F, (c.reg 4).lo.toNat, 0) }
      else
        let nr := bits tb 32 32 - bits tb 0 32
        if mode = 1 then sparseRows c h t nr ea (distinctBelow 1024 (ea.map (·.2.2))) r' else sparsePairs c t nr ea eb r'

/-- Rounding of a readout, from the RND of the prefix it captured (R234). -/
def Cmd.rnd (c : Cmd) : Rnd :=
  match c.ppl with
  | none => .rne
  | some p => match p / 1024 % 8 with | 2 => .rtz | 3 => .rup | 4 => .rdn | 5 => .rna | _ => .rne

/-- Runs a readout: the writes, in destination order (R92, R206, R234). -/
def readoutRun (c : Cmd) (h : Nat) (tri : Bool) (f : FpFmt) (r : Ran) : Ran :=
  let (rows, cols, pitch) := shapeOf (c.reg 1).lo
  let base := (capAddr (c.reg 0)).toNat
  let es := f.width / 8
  let one (i j : Nat) : Nat × Sticky :=
    let x := r.acc.at i j
    if tri && r.acc.triv && x.msk then ((c.reg 2).lo.toNat % 2 ^ f.width, {}) else x.readout r.acc.anchor.toInt f c.rnd
  let grid := (List.range rows).map fun i => (List.range cols).map fun j => one i j
  let fl := grid.foldl (fun a row => row.foldl (fun a x => a.join x.2) a) {}
  let runs := (List.range rows).map fun i => (base + i * pitch, ((grid.getD i []).map fun x => leBytes es x.1).flatten)
  match r.s.piecesAll h c.tenant (c.reg 0) false runs with
  | .error (code, x) => { r with fault := some (code, x, 0) }
  | .ok (outs, s) => { r with s := s, fl := fl, outs := outs }

/-- Runs `zraw` (R234). -/
def rawRun (c : Cmd) (h : Nat) (r : Ran) : Ran :=
  let (rows, cols, pitch) := shapeOf (c.reg 1).lo
  let base := (capAddr (c.reg 0)).toNat
  let head := (base, leBytes 16 (r.acc.anchor.toNat + r.acc.triv.toNat * 2 ^ 12))
  let runs := (List.range rows).map fun i => (base + 16 + i * pitch, ((List.range cols).map fun j => leBytes 16 (r.acc.at i j).raw).flatten)
  match r.s.piecesAll h c.tenant (c.reg 0) false (if rows = 0 then [] else head :: runs) with
  | .error (code, x) => { r with fault := some (code, x, 0) }
  | .ok (outs, s) => { r with s := s, outs := outs }

/-! ### The deckle (R220-R226) -/

/-- A cut as it runs: its command, core, number of its tb register, value size. -/
structure Cut where
  c : Cmd
  h : Nat
  d : Nat
  es : Nat

/-- Two successive row pointers of row r, from register i; a decreasing pair is a deckle-bounds fault (R221, R226). The array
may lie in any core's scratch (log 107). -/
def Cut.rowPtr (x : Cut) (i r : Nat) (s : State) : Except (Nat × Nat) (Nat × Nat × State) := do
  let rd := x.c.reader x.h i false
  let a := (capAddr (x.c.reg i)).toNat
  let (l, s) ← rd.words true 4 [a + 4 * r, a + 4 * (r + 1)] s
  let p := l.getD 0 0
  let q := l.getD 1 0
  if q < p then .error (0x0F, x.d) else .ok (p, q, s)

/-- The entries of a row: column and value index; columns that do not rise are a deckle-bounds fault (R226). -/
def Cut.rowCols (x : Cut) (i r : Nat) (s : State) : Except (Nat × Nat) (List (Nat × Nat) × State) := do
  let (p, q, s) ← x.rowPtr i r s
  let a := (capAddr (x.c.reg (i + 1))).toNat
  let (l, s) ← (x.c.reader x.h (i + 1) false).words true 4 ((List.range (q - p)).map fun n => a + 4 * (p + n)) s
  if (List.range (l.length - 1)).all fun n => decide (l.getD n 0 < l.getD (n + 1) 0) then
    .ok ((List.range l.length).map (fun n => (l.getD n 0, p + n)), s)
  else .error (0x0F, x.d)

/-- Lowest column and highest column + 1 of entries (row, column, value index); (0, 0) of none. -/
def spanOf (l : List (Nat × Nat × Nat)) : Nat × Nat :=
  match l with
  | [] => (0, 0)
  | e :: t => t.foldl (fun (x : Nat × Nat) f => (Nat.min x.1 f.2.1, Nat.max x.2 (f.2.1 + 1))) (e.2.1, e.2.1 + 1)

/-- Entries of B in n rows from lo on, with the column in the window (R224): row, column offset, value index. -/
def Cut.windowRows (x : Cut) : Nat → Nat → State → Except (Nat × Nat) (List (Nat × Nat × Nat) × State)
  | 0, _, s => .ok ([], s)
  | n + 1, lo, s => do
    let w := (x.c.reg 7).lo
    let c0 := bits w 32 24
    if lo ≥ bits w 0 32 then .ok ([], s)
    else
      let (cols, s) ← x.rowCols 4 lo s
      let here := (cols.filter fun e => decide (c0 ≤ e.1 ∧ e.1 < c0 + 32)).map fun e => (lo, e.1 - c0, e.2)
      let (l, s) ← x.windowRows n (lo + 1) s
      .ok (here ++ l, s)

/-- Whether entries fit the budget and the k span, with B's entries for `dcut.co` (R222, R225). -/
def Cut.fits (x : Cut) (co : Bool) (nb kmax : Nat) (l : List (Nat × Nat × Nat)) (s : State) : Except (Nat × Nat) (Bool × State) := do
  let (lo, hi) := spanOf l
  if l.length > nb ∨ hi - lo > kmax then .ok (false, s)
  else if co then
    let (w, s) ← x.windowRows (hi - lo) lo s
    .ok (decide (l.length + w.length ≤ nb), s)
  else .ok (true, s)

/-- The longest prefix of a row's entries that fits (R222). -/
def Cut.prefix (x : Cut) (co : Bool) (nb kmax : Nat) : List (Nat × Nat × Nat) → List (Nat × Nat × Nat) → State → Except (Nat × Nat) (List (Nat × Nat × Nat) × State)
  | l, [], s => .ok (l, s)
  | l, e :: t, s => do
    let (ok, s) ← x.fits co nb kmax (l ++ [e]) s
    if ok then x.prefix co nb kmax (l ++ [e]) t s else .ok (l, s)

/-- Grows the tile row by row (R222): entries, the row after the last, and whether the row was split. -/
def Cut.grow (x : Cut) (co : Bool) (nb kmax nrows row0 : Nat) :
    Nat → Nat → Nat → List (Nat × Nat × Nat) → State → Except (Nat × Nat) (List (Nat × Nat × Nat) × Nat × Bool × State)
  | 0, r, _, l, s => .ok (l, r, false, s)
  | n + 1, r, nk, l, s => do
    if r ≥ nrows then .ok (l, r, false, s)
    else
      let (cols, s) ← x.rowCols 0 r s
      let e := (cols.filter fun e => decide (nk ≤ e.1)).map fun e => (r, e.1, e.2)
      let (ok, s) ← x.fits co nb kmax (l ++ e) s
      if ok then x.grow co nb kmax nrows row0 n (r + 1) 0 (l ++ e) s
      else if r = row0 then
        let (p, s) ← x.prefix co nb kmax [] e s
        .ok (p, r + 1, true, s)
      else .ok (l, r, false, s)

/-- A tb register's image (R218). -/
def tbImage (row0 rowhi klo khi nnz : Nat) (z spl prt : Bool) : BitVec 128 :=
  BitVec.ofNat 128 (row0 % 2 ^ 32 + rowhi % 2 ^ 32 * 2 ^ 32 + klo % 2 ^ 24 * 2 ^ 64 + khi % 2 ^ 24 * 2 ^ 88 + nnz % 2 ^ 13 * 2 ^ 112
    + z.toNat * 2 ^ 125 + spl.toNat * 2 ^ 126 + prt.toNat * 2 ^ 127)

/-- A number that the n bits of its field of tb do not hold leaves a field that the specification does not give: a free value (log 31). -/
def State.tbField (s : State) (n v : Nat) : Nat × State :=
  if v < 2 ^ n then (v, s) else ((Config.freeWord s.freeN).toNat % 2 ^ n, { s with freeN := s.freeN + 1 })

/-- Values of entries, read from register i. -/
def Cut.values (x : Cut) (i : Nat) (l : List (Nat × Nat × Nat)) (s : State) : Except (Nat × Nat) (List Nat × State) :=
  (x.c.reader x.h i false).words true x.es (l.map fun e => (capAddr (x.c.reg i)).toNat + x.es * e.2.2) s

/-- Runs `dcut` or `dcut.co` (R222, R225). -/
def Cut.run (x : Cut) (co : Bool) (r : Ran) : Except (Nat × Nat) Ran := do
  let tb := x.c.imgs.getD 0 0
  let w := (x.c.reg 3).lo
  let nrows := bits w 0 32
  let kmax := bits w 32 10 + 1
  let buf := x.c.regs.getLastD .zero
  let nb := budgetOf buf
  let (row0, nk) := if bit tb 126 then (bits tb 0 32, bits tb 88 24) else (bits tb 32 32, 0)
  let c0 := bits (x.c.reg 7).lo 32 24
  if row0 ≥ nrows then
    let (fc, s) := if co then r.s.tbField 24 (c0 + 32) else (0, r.s)
    .ok { r with s := s, tbs := (x.d, tbImage row0 row0 0 0 0 true false false) :: (if co then [(x.d + 1, tbImage 0 0 c0 fc 0 true false true)] else []) }
  else
    let (l, rowhi, spl, s) ← x.grow co nb kmax nrows row0 64 row0 nk [] r.s
    let (klo, khi) := spanOf l
    let (va, s) ← x.values 2 l s
    let (lb, s) ← (if co then x.windowRows (khi - klo) klo s else .ok ([], s))
    let (vb, s) ← (if co then x.values 6 lb s else .ok ([], s))
    let pa := (List.range l.length).map fun n =>
      let e := l.getD n (0, 0, 0)
      va.getD n 0 + (e.1 - row0) * 2 ^ 16 + (e.2.1 - klo) * 2 ^ 22
    let pb := (List.range lb.length).map fun n =>
      let e := lb.getD n (0, 0, 0)
      vb.getD n 0 + e.2.1 * 2 ^ 16 + (e.1 - klo) * 2 ^ 22
    let (outs, s) ← s.piecesAll x.h x.c.tenant buf true [((capAddr buf).toNat, ((pa ++ pb).map (leBytes 4)).flatten)]
    let (fklo, s) := s.tbField 24 klo
    let (fkhi, s) := s.tbField 24 khi
    let (fc, s) := if co then s.tbField 24 (c0 + 32) else (0, s)
    let (fhi, s) := if co then s.tbField 32 khi else (0, s)
    .ok { r with s := s, outs := outs, tbs := (x.d, tbImage row0 rowhi fklo fkhi l.length false spl false) ::
      (if co then [(x.d + 1, tbImage klo fhi c0 fc lb.length false false true)] else []) }

/-- Runs `dcut.p` (R223). -/
def Cut.partner (x : Cut) (r : Ran) : Except (Nat × Nat) Ran := do
  let tb : BitVec 128 := (x.c.imgs.getD 0 0).setWidth 128
  let w := (x.c.reg 1).lo
  let c0 := bits w 0 24
  let src := (capAddr (x.c.reg 0)).toNat
  let klo := bits tb 64 24
  let n := if bits tb 112 13 = 0 then 0 else bits tb 88 24 - klo
  let width := Nat.min 32 (bits w 40 24 - c0)
  let addrs := ((List.range n).map fun k => (List.range width).map fun j => src + (klo + k) * bits w 24 16 + (c0 + j) * x.es).flatten
  let (vs, s) ← (x.c.reader x.h 0 false).words true x.es addrs r.s
  let rows := (List.range n).map fun k => ((List.range 32).map fun j => leBytes x.es (if j < width then vs.getD (k * width + j) 0 else 0)).flatten
  let dst := x.c.reg 2
  let (outs, s) ← s.piecesAll x.h x.c.tenant dst true [((capAddr dst).toNat, rows.flatten)]
  .ok { r with s := s, outs := outs, tbs := [(x.d, setBit tb 127 true)] }

/-! ### Taking, running and retiring (R201, R202, R204, R209-R211) -/

/-- Runs the groups of a product in turn; a group that faults ends it. The resumable position names the group, in a form that the specification does not give
(R232, log 32). -/
def groupRun (c : Cmd) (h : Nat) (t : Fin 4) : List Group → Ran → Ran
  | [], r => r
  | g :: gs, r =>
    let r := denseRun c h t false g (geoOf (c.reg 3).lo).k 0 r
    match r.fault with
    | some (code, x, k) => { r with fault := some (code, x, (Config.groupPos g.num k).toNat) }
    | none => groupRun c h t gs r

/-- Runs a command on the accumulator it names (R202). -/
def runMatrix (c : Cmd) (h : Nat) (r : Ran) : Ran :=
  match c.op with
  | .mmac mode tri t _ =>
    if mode = 0 then
      let g := geoOf (c.reg 3).lo
      let r := denseRun c h t tri ⟨0, 0, g.rows, 0, 0⟩ g.k 0 r
      if tri && r.fault.isNone then { r with acc := r.acc.setMasks g.delta } else r
    else sparseRun c h mode t r
  | .mgrp t _ =>
    let g := geoOf (c.reg 3).lo
    groupRun c h t (groupsOf g (scaleCount t ((c.imgs.getD 1 0).setWidth 64) g.k) (c.reg 4).lo) r
  | .zclr _ => { r with acc := ⟨[], (c.reg 0).bits.setWidth 12, false⟩ }
  | .zanchor _ =>
    let (a, f) := r.acc.reanchor ((c.reg 0).bits.setWidth 12)
    { r with acc := a, fl := f }
  | .zfit _ =>
    let (a, f) := r.acc.reanchor (fitAnchor (bits (c.reg 0).bits 0 32))
    { r with acc := a, fl := f }
  | .zread tri f _ => readoutRun c h tri (if f = 0 then f32 else bf16) r
  | .zraw _ => rawRun c h r
  | .dcut form t d =>
    let x : Cut := ⟨c, h, d.val, typeBytes t⟩
    match (if form = 1 then x.partner r else x.run (decide (form = 2)) r) with
    | .ok r => r
    | .error (code, v) => { r with fault := some (code, v, 0) }
  | _ => r

/-- Accumulate-only commands of a context on an accumulator that no message covers yet (R211). -/
def Core.uncovered (c : Core) (id : BitVec 20) (gen : BitVec 8) (z : Nat) : Nat :=
  match c.uncov.find? fun x => x.1 = id && x.2.1 = gen && x.2.2.1 = z with
  | some x => x.2.2.2
  | none => 0

/-- Sets that number. -/
def Core.setUncovered (c : Core) (id : BitVec 20) (gen : BitVec 8) (z n : Nat) : Core :=
  let l := c.uncov.filter fun x => !(decide (x.1 = id ∧ x.2.1 = gen ∧ x.2.2.1 = z))
  { c with uncov := if n = 0 then l else l ++ [(id, gen, z, n)] }

/-- Forgets the numbers of a context, which has ended. -/
def Core.forget (c : Core) (id : BitVec 20) (gen : BitVec 8) : Core := { c with uncov := c.uncov.filter fun x => !(decide (x.1 = id ∧ x.2.1 = gen)) }

/-- The pending bits of the tb registers of a cut are cleared (R219, R226). -/
def Ctx.settleTb (c : Ctx) (op : CmdOp) : Ctx :=
  match op with
  | .dcut form _ d => { c with tbPend := (List.range (if form = 2 then 2 else 1)).foldl (fun p i => setBit p (d.val + i) false) c.tbPend }
  | _ => c

/-- The i-th command leaves the engine. -/
def State.dropMatrix (s : State) (h i : Nat) : State := s.onCoreOf h fun k => { k with mact := listDrop k.mact i }

/-- Replaces the i-th command of the engine. -/
def State.setMatrix (s : State) (h i : Nat) (x : Bool × Cmd) : State := s.onCoreOf h fun k => { k with mact := listSet k.mact i x }

/-- The command posts as it retires: a fault, the completion of a readout or cut, or the message that covers 255 accumulate-only commands (R210, R211). -/
def Cmd.willPost (c : Cmd) : Bool := !c.op.accumOnly || c.fault.isSome || decide (c.prog ≥ 255)

/-- A command that has run retires: its tb registers are written, and it posts. PROG is the number of commands that its completion counts (R211, R219). -/
def State.retireCmd (s : State) (h i : Nat) (rem : Bool) (c : Cmd) : State :=
  match c.fault with
  | some (code, v, pos) =>
    let s := (s.onIssuer c.ident c.gen fun x => x.settleTb c.op).report c 2 1 (code % 256) (code / 256) 0 pos v
    if c.op.accumOnly && decide (c.prog ≥ 255) then s.setMatrix h i (rem, { c with fault := none }) else s.dropMatrix h i
  | none =>
    let s := (s.onIssuer c.ident c.gen fun x => { x with tb := c.tbs.foldl (fun v (n, i) => v.setIfInBounds n i) x.tb }.settleTb c.op).dropMatrix h i
    if c.willPost then s.report c 2 0 0 0 c.prog 0 0 else s

/-- The first step of a command: it runs, its flags reach its issuer (R209), and it takes the number of commands that its completion is to count (R211); an accumulate-only
command that posts nothing retires. A run that meets an access which cannot be made yet does not happen. A command that faults writes nothing: a cut none of its buffer
(log 106). -/
def State.startMatrix (s : State) (h i : Nat) (rem : Bool) (c : Cmd) : Option State :=
  let zn : Fin 4 := c.op.accum.getD 0
  let r := runMatrix c h { s := s, acc := (s.coreOf h).z[zn] }
  if r.fault.any (fun f => f.1 = notYet) then none
  else
    let s := (r.s.onCoreOf h fun k => { k with z := k.z.set zn r.acc }).onIssuer c.ident c.gen fun x => x.setSticky r.fl
    let n := (s.coreOf h).uncovered c.ident c.gen zn.val + 1
    let left : Nat := if c.op.accumOnly then (if n ≥ 255 then 0 else n) else if c.op.accum.isSome ∧ r.fault.isNone then 0 else n - 1
    let s := s.onCoreOf h fun k => k.setUncovered c.ident c.gen zn.val left
    let c := { c with prog := if c.op.accum.isSome then n else 1, outs := if r.fault.isSome then [] else r.outs, tbs := r.tbs, fault := r.fault }
    some (if c.willPost then s.setMatrix h i (rem, c) else s.dropMatrix h i)

/-- The i-th command of the engine runs, has one of its writes applied, or retires. One that would post waits while its mailbox input is taken (R260). -/
def State.matrixAct (s : State) (h i : Nat) : Option State :=
  match (s.coreOf h).mact[i]? with
  | none => none
  | some (rem, c) =>
    if c.prog = 0 then s.startMatrix h i rem c
    else match c.outs with
      | w :: ws => if s.writeReady h c.h c.after w then some ((s.engineWrite h w).setMatrix h i (rem, { c with outs := ws })) else none
      | [] => if s.canPost c 2 then some (s.retireCmd h i rem c) else none

/-- MATRIX_COMMAND_RETIRE: the oldest command of the engine that can go on does so (R202, R204); one that waits to post holds up no other (R17, R260). -/
def State.matrixRetire (s : State) (h : Nat) : Option State := (List.range (s.coreOf h).mact.length).findSome? (s.matrixAct h)

/-- `MATRIX_COMMAND_RETIRE`. -/
def execMatrixCommandRetire (h : Nat) (s : State) : Host.Outcome State Fault Refusal := event s (s.matrixRetire h)

/-- A command may be taken while those in the engine that have not run to their end act on other accumulators (R202). -/
def Core.mayTake (k : Core) (c : Cmd) : Bool := k.mact.all fun (_, x) => x.op.accum ≠ c.op.accum || x.onlyPosts

/-- MATRIX_COMMAND_TAKE: one command from each queue in turn where both hold one (R201). -/
def State.matrixTake (s : State) (h : Nat) : Option State :=
  let k := s.coreOf h
  let fromLocal := match k.mq, k.mrq with | [], _ => false | _, [] => true | _, _ => k.lastRemote
  match (if fromLocal then k.mq else k.mrq) with
  | [] => none
  | c :: rest =>
    if k.mayTake c then
      let k := { k with mact := k.mact ++ [(!fromLocal, c)], lastRemote := !fromLocal }
      some (s.setCore h (if fromLocal then { k with mq := rest } else { k with mrq := rest }))
    else none

/-- `MATRIX_COMMAND_TAKE`. -/
def execMatrixCommandTake (h : Nat) (s : State) : Host.Outcome State Fault Refusal := event s (s.matrixTake h)

/-- A command that has not read a granule yet keeps the value that the granule has now (R204, R205). -/
def captureIn (g : Nat) (v : BitVec 128) (ready : Cmd → Bool) : List (Bool × Cmd) → Option (List (Bool × Cmd))
  | [] => none
  | (b, c) :: t =>
    if ready c && decide (c.prog = 0) && !(c.got.any fun q => q.1 = g) then some ((b, { c with got := c.got ++ [(g, v)] }) :: t)
    else (captureIn g v ready t).map ((b, c) :: ·)

/-- OPERAND_READ: the first command of the core that may read and has not yet captured the granule reads it at its bank queue. A poisoned granule is found
when the command runs. -/
def State.operandRead (s : State) (h g : Nat) : Option State :=
  let k := s.coreOf h
  let pa := g * 16
  match regionOf pa with
  | .scratch _ | .dram =>
    if s.mem.poisonAt g then none
    else
      let v := BitVec.ofNat 128 (s.readFor h 0 pa 16)
      let ready (c : Cmd) : Bool := s.engineReady h c.h c.after .rd ⟨pa, 0, none⟩ 16
      match captureIn g v ready k.mact with
      | some l => some (s.setCore h { k with mact := l })
      | none =>
        match captureIn g v ready (k.mq.map fun c => (false, c)) with
        | some l => some (s.setCore h { k with mq := l.map (·.2) })
        | none =>
          (captureIn g v ready (k.mrq.map fun c => (true, c))).map fun l => s.setCore h { k with mrq := l.map (·.2) }
  | _ => none

/-- `OPERAND_READ`. -/
def execOperandRead (h granule : Nat) (s : State) : Host.Outcome State Fault Refusal := event s (s.operandRead h granule)

/-- The tiles that a carried command reads: register and spans (R208, reason 0x45). -/
def Cmd.tiles (c : Cmd) : List (Wreg × List (Nat × Nat)) :=
  let g := geoOf (c.reg 3).lo
  let fa : Word := (c.imgs.getD 0 0).setWidth 64
  let fb : Word := (c.imgs.getD 1 0).setWidth 64
  let dense (t : Fin 4) (gs : List Group) : List (Wreg × List (Nat × Nat)) :=
    let nA := scaleCount t fa g.k
    let nB := scaleCount t fb g.k
    [(c.reg 0, g.spanA (typeBytes t)), (c.reg 1, (gs.map fun x => g.spanB (typeBytes t) x.boff).flatten)]
    ++ (if nA + nB = 0 then [] else [(c.reg 2, (0, g.rows * nA) :: gs.map fun x => (g.rows * nA + x.soff, g.cols * nB))])
  match c.op with
  | .mmac mode _ t _ =>
    if mode = 0 then dense t [⟨0, 0, g.rows, 0, 0⟩]
    else (c.reg 0, [(0, 4 * (bits (c.imgs.getD 2 0) 112 13 + bits (c.imgs.getD 3 0) 112 13))]) :: (if mode = 1 then [(c.reg 1, g.spanB (typeBytes t) 0)] else [])
  | .mgrp t _ =>
    dense t (groupsOf g (scaleCount t fb g.k) (c.reg 4).lo)
  | _ => []

/-- REMOTE_COMMAND_ARRIVAL: the target unit accepts a carried command or refuses it (R208); the message of a refusal waits where it cannot be posted yet (R260). A unit of another device is out of this machine's sight. -/
def State.remoteArrival (s : State) (k : Nat) : Option State :=
  match s.remotes[k]? with
  | none => none
  | some r =>
    if (s.tenantOf r.cmd.tenant).tokenDone || (s.remotes.take k).any fun q => q.sh = r.sh && bits q.cap.bits 0 24 = bits r.cap.bits 0 24 then none
    else
      let u := r.cap.bits
      let h := bits u 0 11
      let core := s.coreOf h
      let s' := { s with remotes := listDrop s.remotes k }
      let no (reason : Nat) : Option State := some (
        if s.canPost r.cmd 2 then s'.report r.cmd 2 1 0x12 reason 0 0 0
        else s'.setCore h { core with mact := core.mact ++ [(true, { r.cmd with prog := 1, fault := some (0x12 + 256 * reason, 0, 0) })] })
      if bits u 11 13 ≠ s.dev then some s'
      else if !capHas r.cap permM then no 0x40
      else if bits u 30 2 ≠ 0 ∨ bits u 56 8 ≠ 0 then no 0x41
      else if bits u 24 6 ≠ r.cmd.tenant then no 0x42
      else if bits u 32 24 ≠ core.gseq.toNat then no 0x43
      else if core.mrq.length + core.unposted true ≥ 8 then no 0x44
      else if !(r.cmd.tiles.all fun (c, spans) => tileIn s.dev (h / 16) c spans) then no 0x45
      else some (s'.setCore h { core with mrq := core.mrq ++ [r.cmd] })

/-- `REMOTE_COMMAND_ARRIVAL`. -/
def execRemoteCommandArrival (k : Nat) (s : State) : Host.Outcome State Fault Refusal := event s (s.remoteArrival k)

end Sys2Proof.Machine
end

