-- ==== Sys2Proof/Machine/Transfer.lean ====
section
/-! DEFINITION. The transfer engine: stream generators (R242-R245, R265-R268), copies (R247, R248, R269), masked multicast (R249-R251), messages (R252-R257, R270-R272), mailboxes (R258, R260, R273) and ranges of full bits (R274). -/

namespace Sys2Proof.Machine

/-! ### Streams (R242-R245) -/

/-- Bytes of an element. -/
def Stream.size (x : Stream) : Nat := if x.clsW then (if x.tg then 16 else 8) else 128

/-- Stride of dimension i. -/
def Stream.stride (x : Stream) (i : Nat) : Int := signedOf 32 (bits x.str (32 * i) 32)

/-- Index tuple of element n: dimension 0 runs fastest (R243). -/
def Stream.indexOf (x : Stream) : Nat → Nat → Nat → List Nat
  | 0, _, _ => []
  | d + 1, i, n =>
    let c := bits x.cnt (16 * i) 16
    (if c = 0 then 0 else n % c) :: x.indexOf d (i + 1) (if c = 0 then 0 else n / c)

/-- POS of the generator's image (R242): the indices of the next element to pop or append. -/
def Stream.posWord (x : Stream) : Word :=
  let l := x.indexOf 4 0 x.done
  BitVec.ofNat 64 ((List.range 4).foldl (fun a i => a + l.getD i 0 * 2 ^ (16 * i)) 0)

/-- Address of element n (R243). -/
def Stream.addr (x : Stream) (n : Nat) : Nat :=
  let l := x.indexOf (x.ndim.val + 1) 0 n
  wrap 64 ((List.range l.length).foldl (fun (a : Int) i => a + (l.getD i 0 : Nat) * x.stride i) ((capAddr x.cap).toNat : Int))

/-- The lowest and highest byte that an element reaches (R243). -/
def Stream.extent (x : Stream) : Int × Int :=
  (List.range (x.ndim.val + 1)).foldl (fun (r : Int × Int) i =>
    let d : Int := ((bits x.cnt (16 * i) 16 : Nat) - 1) * x.stride i
    if d < 0 then (r.1 + d, r.2) else (r.1, r.2 + d)) (((capAddr x.cap).toNat : Int), ((capAddr x.cap).toNat : Int) + x.size)

/-- Checks of `sbind` on the capability and on every stride (R243). EINFO is the capability's address. -/
def Stream.check (x : Stream) : Except Stop Unit := do
  let a := capAddr x.cap
  let perm := (if x.wr then permS + permE else permL + permE) + (if x.tg then (if x.wr then permSC else permLC) else 0)
  let al : Nat := if x.clsW && !x.tg then 8 else 16
  let (lo, hi) := x.extent
  checkCap x.cap 2 a perm
  need (decide (x.total = 0) || (decide (0 ≤ lo) && capCovers x.cap lo.toNat (hi - lo).toNat)) 0x04 2 a
  need (decide (a.toNat % al = 0) && (List.range 4).all fun i => decide (x.stride i % (al : Int) = 0)) 0x07 2 a

/-- An entry of the transfer engine's queue (R241). -/
def enterTransfer (s : State) (c : Cmd) : State :=
  let c := { c with after := s.packetN }
  match c.op with
  | .sbind g =>
    -- the entry retires once the generator may begin
    s.onCpu fun x =>
      let y := x.stream g.val
      if y.bnd && decide (y.seq = c.seq) then x.setStream g.val { y with started := true, after := c.after } else x
  | _ => s.onCore fun k => { k with tq := k.tq ++ [c] }

/-- `sbind` (R265). -/
def execSbind (d a b : Fin 64) (n : Fin 4) (e r : Fin 2) (s : State) : Host.Outcome State Fault Refusal := conclude s do
  let l ← readBlock s a 4
  let w (i : Nat) : Word := (l.getD i .zero).lo
  let cls := decide (b.val / 16 = 1)
  let reg : Fin 16 := ⟨b.val % 16, Nat.mod_lt _ (by decide)⟩
  let x : Stream :=
    { Stream.reset with
      cap := l.getD 0 .zero, bnd := true, wr := decide (r = 1), clsW := cls, tg := decide (e = 1), reg := reg, ndim := n,
      cnt := w 1, str := BitVec.ofNat 128 ((w 2).toNat + (w 3).toNat * 2 ^ 64), seq := s.cpu.seqs[3] }
  let num := (if cls then 48 else 16) + reg.val
  x.check
  needR (!(s.cpu.stream d.val).bnd) 0x70
  needR (!(s.cpu.boundIn (if cls then 0 else 1) num || s.cpu.awaits (if cls then 0 else 1) num)) 0x71
  needR ((List.range 4).all fun i => decide ((bits x.cnt (16 * i) 16 = 0) ↔ (i > n.val))) 0x72
  cmdRoom s 3
  let (seq, t) := s.takeSeq 3
  let t := (t.finish 1 (blockUses a 4)).onCpu fun c => c.setStream d.val x
  .ok (t.command 3 (s.capture (.sbind ⟨d.val % 8, Nat.mod_lt _ (by decide)⟩) seq l []) enterTransfer)

/-- Releases a generator (R267): the register takes its reset value; of a write stream the elements not yet written go to a command,
which stays in the store queue while the engine's queue has no entry free (R109, R241). -/
def State.freeStream (s : State) (g : Nat) : State :=
  let x := s.cpu.stream g
  if x.bnd then
    let t := s.onCpu fun c =>
      let c := c.setStream g .reset
      if x.clsW then { c with w := c.w.setIfInBounds (48 + x.reg.val) .zero } else { c with v := c.v.setIfInBounds (16 + x.reg.val) 0 }
    if x.wr then
      let (seq, t) := t.takeSeq 3
      let c := { s.capture .sfree seq [] [] with strm := some x }
      if t.tqCount < 32 then t.command 3 c enterTransfer else t.enqueue (.command 3 c)
    else t
  else s

/-- `sfree` (R267). -/
def execSfree (d : Fin 64) (s : State) : Host.Outcome State Fault Refusal := conclude s do
  let x := s.cpu.stream d.val
  if x.bnd && x.wr then cmdRoom s 3
  .ok ((s.finish 1 []).freeStream d.val)

/-- The summary of `sstat` (R268). -/
def Stream.summary (x : Stream) : Word :=
  BitVec.ofNat 64 (x.bnd.toNat + x.wr.toNat * 2 + x.clsW.toNat * 4 + x.tg.toNat * 8 + x.reg.val * 16 + x.ndim.val * 256 + x.flt.toNat * 1024
    + x.held.length % 8 * 2 ^ 16 + x.done % 2 ^ 32 * 2 ^ 32)

/-- `sstat` (R268). -/
def execSstat (d a : Fin 64) (s : State) : Host.Outcome State Fault Refusal := conclude s do
  useW s d 1
  .ok (s.finishW 1 [] d (.plain (s.cpu.stream a.val).summary))

/-- Posts a fault of a stream's element n (R245, R264). -/
def State.streamFault (s : State) (c : Ctx) (seq : BitVec 16) (code n addr : Nat) : State :=
  s.post c.ident c.gen (message 1 3 code 0 0 seq.toNat (n % 65536) addr)

/-- The engine may post to a context (R260). -/
def State.canPostTo (s : State) (c : Ctx) (eng : Nat) : Bool := s.mayPost c.ident c.gen eng

/-- STREAM_READ_AHEAD: the next element of a read stream is read, up to four ahead of the pops (R244). A fault's INFO is the address of the element (R264). From its
tenant's stop cycle on nothing is read (R262). -/
def State.streamRead (s : State) (h slot g : Nat) : Option State :=
  let c := s.ctx h slot
  let x := c.stream g
  let n := x.head + x.held.length
  if !x.bnd || x.wr || x.flt || !x.started || s.stopped c.tenant || decide (x.held.length ≥ 4 ∨ n ≥ x.total) then none
  else
    let a := x.addr n
    match (⟨h, c.tenant, h, x.after, [], x.cap, false⟩ : Reader).bytes x.size s a with
    | .error (code, _) =>
      if code = notYet || !s.canPostTo c 3 then none
      else some ((s.setCtx h slot (c.setStream g { x with flt := true, fltAt := n })).streamFault c x.seq code n a)
    | .ok (l, t) =>
      let tag := x.tg && (match s.engAccess h c.tenant x.cap a .rd false with | .ok (p, u) => u.tagFor h p.swz p.pa | .error _ => false)
      some (t.setCtx h slot ((t.ctx h slot).setStream g { x with held := x.held ++ [(BitVec.ofNat 1024 (leNat l), tag)] }))

/-- `STREAM_READ_AHEAD`. -/
def execStreamReadAhead (h slot g : Nat) (s : State) : Host.Outcome State Fault Refusal := event s (s.streamRead h slot g)

/-- Makes a list of writes, in order. -/
def State.applyAll (s : State) (h : Nat) (l : List WriteOp) : State := l.foldl (fun s w => s.engineWrite h w) s

/-- Writes the oldest appended element of a write stream (R244): the stream and state after it, with a fault's code, which leaves the elements not written where they
are (R245, R268). `none` while the write cannot be made. -/
def State.writeElement (s : State) (h tenant after : Nat) (x : Stream) : Option (Stream × State × Option Nat) :=
  match x.held with
  | [] => none
  | (v, tag) :: rest =>
    match s.pieces h tenant x.cap false 130 (x.addr x.head) (leBytes x.size v.toNat) with
    | .error (code, _) => if code = notYet then none else some ({ x with flt := true, fltAt := x.head }, s, some code)
    | .ok (ws, t) =>
      if ws.all (t.writeReady h h after) then
        some ({ x with held := rest, head := x.head + 1 }, t.applyAll h (ws.map fun w => { w with tag := tag && x.tg }), none)
      else none

/-- STREAM_ELEMENT_WRITE: one appended element of a bound write stream is written (R244). A fault's INFO is the address of the element (R264). -/
def State.streamWrite (s : State) (h slot g : Nat) : Option State :=
  let c := s.ctx h slot
  let x := c.stream g
  if !x.bnd || !x.wr || x.flt || !x.started then none
  else match s.writeElement h c.tenant x.after x with
    | none => none
    | some (y, t, none) => some (t.setCtx h slot ((t.ctx h slot).setStream g y))
    | some (y, t, some code) =>
      if s.canPostTo c 3 then some ((t.setCtx h slot ((t.ctx h slot).setStream g y)).streamFault c x.seq code x.head (x.addr x.head)) else none

/-- `STREAM_ELEMENT_WRITE`. -/
def execStreamElementWrite (h slot g : Nat) (s : State) : Host.Outcome State Fault Refusal := event s (s.streamWrite h slot g)

/-! ### Copies (R247, R269) -/

/-- LEN of a copy. -/
def copyLen (x : Wreg) : Nat := bits x.bits 0 32

/-- Checks of one range of a copy (R269). -/
def copyRange (c : Wreg) (opnd perm n : Nat) : Except Stop Unit := do
  checkCap c opnd (capAddr c) perm
  need (decide (n = 0) || capCovers c (capAddr c).toNat n) 0x04 opnd (capAddr c)

/-- Two ranges of n bytes overlap. -/
def overlap (a b n : Nat) : Bool := decide (n ≠ 0 ∧ a < b + n ∧ b < a + n)

/-- Issues a command of the transfer engine (R241, R259). -/
def State.toTransfer (s : State) (op : CmdOp) (ord : Bool) (regs : List Wreg) (uses : List Nat) : Except Stop State := do
  cmdRoom s 3
  let (seq, t) := s.takeSeq 3
  .ok ((t.command 3 { s.capture op seq regs [] with ord := ord } enterTransfer).finish 1 uses)

/-- `cpy` (R269). -/
def execCpy (d a b : Fin 64) (o : Fin 2) (s : State) : Host.Outcome State Fault Refusal := conclude s do
  let dst ← readW s d 1
  let src ← readW s a 2
  let x ← readW s b 3
  let n := copyLen x
  copyRange dst 1 (permS + permE) n
  copyRange src 2 (permL + permE) n
  needR (!(decide (capKind dst = capKind src) && overlap (capAddr dst).toNat (capAddr src).toNat n)) 0x64
  s.toTransfer .cpy (decide (o = 1)) [dst, src, x] [d.val, a.val, b.val]

/-- A range lies in the scratch window of the core looked at. -/
def State.ownWindow (s : State) (a n : Nat) : Bool :=
  decide (devOf a = s.dev ∧ a < 2 ^ 56 ∧ regionOf a = .scratch s.cur ∧ (n = 0 ∨ regionOf (a + n - 1) = .scratch s.cur))

/-- `cpy.mc` (R249, R269). -/
def execCpyMc (d a b : Fin 64) (o : Fin 2) (s : State) : Host.Outcome State Fault Refusal := conclude s do
  let dst ← readW s d 1
  let src ← readW s a 2
  let x ← readW s b 3
  let n := copyLen x
  checkCap dst 1 (capAddr dst) (permS + permE)
  need (decide (capKind dst = 4)) 0x05 1 (capAddr dst)
  need (decide (n = 0) || capCovers dst (capAddr dst).toNat n) 0x04 1 (capAddr dst)
  need (decide ((capAddr dst).toNat % 128 = 0)) 0x07 1 (capAddr dst)
  checkKind0 src 2 (capAddr src) (permL + permE)
  need (decide (n = 0) || capCovers src (capAddr src).toNat n) 0x04 2 (capAddr src)
  need (decide ((capAddr src).toNat % 128 = 0)) 0x07 2 (capAddr src)
  need (decide (n % 128 = 0 ∧ n ≤ 393216)) 0x07 1 (capAddr dst)
  need (s.ownWindow (capAddr dst).toNat n) 0x09 1 (capAddr dst)
  needR (bit x.bits (32 + s.cur % 16)) 0x65
  s.toTransfer .cpyMc (decide (o = 1)) [dst, src, x] [d.val, a.val, b.val]

/-- What the copy makes of one destination granule: the write of the part that lies inside the copy, `n` bytes at `x`, read from `y`, and whether it carries poison, which raises no
fault (R247). -/
def State.copyGranule (s : State) (h after tenant : Nat) (dst src : Wreg) (x y n : Nat) : Except (Nat × Nat) ((WriteOp × Bool) × State) := do
  let (p, s) ← s.engAccess h tenant dst x .wr false
  let (l, pois, s) ← (⟨h, tenant, h, after, [], src, false⟩ : Reader).raws n s y
  let whole := decide (n = 16 ∧ y % 16 = 0)
  let tag := whole && capHas src permLC && capHas dst permSC &&
    (match s.engAccess h tenant src y .rd false with | .ok (q, u) => u.tagFor h q.swz q.pa | .error _ => false)
  .ok ((⟨p.pa, p.swz, n, BitVec.ofNat 1024 (leNat l), ones 128 n, tag, true⟩, pois), s)

/-- The writes of the bytes from offset o to offset e, granule by granule. -/
def State.copyRun (s : State) (h after tenant : Nat) (dst src : Wreg) : Nat → Nat → Nat → Except (Nat × Nat) (List (WriteOp × Bool) × State)
  | 0, _, _ => .ok ([], s)
  | fuel + 1, o, e =>
    if o ≥ e then .ok ([], s)
    else do
      let x := (capAddr dst).toNat + o
      let n := Nat.min (e - o) (16 - x % 16)
      let (w, s) ← s.copyGranule h after tenant dst src x ((capAddr src).toNat + o) n
      let (l, s) ← s.copyRun h after tenant dst src fuel (o + n) e
      .ok (w :: l, s)

/-- Offsets in the copy of destination line i: its first byte and the byte after its last. -/
def lineSpan (dst n i : Nat) : Nat × Nat := ((dst / 128 + i) * 128 - dst, Nat.min n ((dst / 128 + i + 1) * 128 - dst))

/-- Replaces the k-th command of a core's transfer queue. -/
def State.setTq (s : State) (h k : Nat) (c : Cmd) : State := s.onCoreOf h fun x => { x with tq := listSet x.tq k c }

/-- Removes the k-th command. -/
def State.dropTq (s : State) (h k : Nat) : State := s.onCoreOf h fun x => { x with tq := listDrop x.tq k }

/-- A command of the transfer engine is ordered and was issued before another (R40). -/
def Cmd.ordAhead (c d : Cmd) : Bool := d.ord && decide (d.issued < c.issued)

/-- An earlier ordered command of the core's transfer engine has not reported yet: it stands in the engine's queue, or behind stores of its context (R37, R40). -/
def State.ordBefore (s : State) (h : Nat) (c : Cmd) : Bool :=
  c.ord && ((s.coreOf h).tq.any c.ordAhead ||
    (List.range 11).any fun i => (s.ctx h i).sq.any fun e => match e with | .command 3 d => c.ordAhead d | _ => false)

/-- The engine's ownership of a line ends (R38). -/
def State.disown (s : State) (h line : Nat) : State := { s with owned := s.owned.filter fun o => !(decide (o.line = line ∧ o.h = h)) }

/-- The writes of the destination line that a command has reached, its source read, or the fault that it meets (R247). -/
def State.copyWrites (s : State) (h : Nat) (c : Cmd) : Except (Nat × Nat) (List (WriteOp × Bool) × State) :=
  let (o, e) := lineSpan (capAddr (c.reg 0)).toNat (copyLen (c.reg 2)) c.prog
  s.copyRun h c.after c.tenant (c.reg 0) (c.reg 1) 9 o e

/-- A command with nothing read ahead of its next line. -/
def Cmd.notTaken (c : Cmd) : Cmd := { c with taken := false, outs := [], got := [] }

/-- A fault ends a copy, once it can be posted (R247, R248). -/
def State.copyFault (s : State) (h k code : Nat) (c : Cmd) : Option State :=
  let a := (capAddr (c.reg 0)).toNat
  if s.canPost c 3 then some ((s.dropTq h k).report c 3 1 code 0 0 (c.prog % 65536) ((a + (lineSpan a (copyLen (c.reg 2)) c.prog).1) / 128 * 128)) else none

/-- The granules of a line that a copy owns are written, with the poison that their sources had (R247). -/
def State.copyOut (s : State) (h : Nat) (c : Cmd) : State :=
  ((List.range c.outs.length).zip c.outs).foldl (fun s (i, w) =>
    let s := s.ownWrite h w
    if c.got.any fun g => g.1 = i then s.ownPoison h w.swz w.pa else s) s

/-- Writes the line that a command owns and ends its ownership (R38, R247). -/
def State.copyLine (s : State) (h k line : Nat) (c : Cmd) : State :=
  (((s.copyOut h c).setTq h k { c.notTaken with prog := c.prog + 1 }).disown h line)

/-- The line that a command owns. -/
def Cmd.ownedLine (c : Cmd) : Option Nat := if c.taken then c.outs.head?.map fun w => lineOf w.swz w.pa else none

/-- One step of a `cpy`: it reads the source of the next destination line and takes ownership of that, writes the line it owns, or posts its completion (R38, R40, R247). -/
def State.copyStep (s : State) (h k : Nat) (c : Cmd) : Option State :=
  let n := copyLen (c.reg 2)
  let a := (capAddr (c.reg 0)).toNat
  if s.ordBefore h c then none
  else match c.ownedLine with
    | some line => some (s.copyLine h k line c)
    | none =>
      if n = 0 ∨ c.prog ≥ (a + n - 1) / 128 - a / 128 + 1 then
        if s.canPost c 3 then some ((s.dropTq h k).report c 3 0 0 0 1 0 n) else none
      else
        let (o, e) := lineSpan a n c.prog
        match s.engAccess h c.tenant (c.reg 0) (a + o) .wr false with
        | .error (code, _) => if code = notYet then none else s.copyFault h k code c
        | .ok (p, t) =>
          if !t.engineReady h h c.after .wr p (e - o) then none
          else match t.copyWrites h c with
            | .error (code, _) => if code = notYet then none else s.copyFault h k code c
            | .ok (l, u) =>
              let poisoned := ((List.range l.length).zip l).filterMap fun (i, _, pois) => if pois then some (i, (0 : BitVec 128)) else none
              some { (u.setTq h k { c with taken := true, outs := l.map (·.1), got := poisoned }).takeLine h p.swz p.pa with
                owned := u.owned ++ [⟨lineOf p.swz p.pa, h, true⟩] }

/-- One step of an `sfree`: the next element that was appended is written, or its completion is posted (R244, R267). -/
def State.drainStep (s : State) (h k : Nat) (c : Cmd) : Option State :=
  let x := c.strm.getD .reset
  if x.held.isEmpty ∨ x.flt then (if s.canPost c 3 then some ((s.dropTq h k).report c 3 0 0 0 1 0 (x.done % 2 ^ 32)) else none)
  else match s.writeElement h c.tenant c.after x with
    | none => none
    | some (y, t, none) => some (t.setTq h k { c with strm := some y })
    | some (y, t, some code) =>
      if s.canPost c 3 then
        some ((t.setTq h k { c with strm := some y }).post c.ident c.gen (message 1 3 code 0 0 x.seq.toNat (x.head % 65536) (x.addr x.head)))
      else none

/-- Lines of a multicast copy that have been applied, and of them those from a shared reply (R264). -/
def Cmd.sharedLines (c : Cmd) : Nat := (c.got.filter fun g => g.2 = 1).length

/-- A `cpy.mc` posts its completion when every line is applied (R249). -/
def State.mcDone (s : State) (h k : Nat) (c : Cmd) : Option State :=
  if c.got.length = copyLen (c.reg 2) / 128 ∧ s.canPost c 3 ∧ ¬ s.ordBefore h c then
    some ((s.dropTq h k).report c 3 0 0 0 1 0 (c.sharedLines + (c.got.length - c.sharedLines) * 2 ^ 32))
  else none

/-- CPY_LINE: a step of the k-th command of the transfer queue (R247, R249, R267). -/
def State.cpyStep (s : State) (h k : Nat) : Option State :=
  match (s.coreOf h).tq[k]? with
  | none => none
  | some c =>
    match c.op with
    | .cpy => s.copyStep h k c
    | .cpyMc => s.mcDone h k c
    | .sfree => s.drainStep h k c
    | _ => none

/-- `CPY_LINE`. -/
def execCpyLine (h k : Nat) (s : State) : Host.Outcome State Fault Refusal := event s (s.cpyStep h k)

/-- RECALL_COMPLETE: the engine finishes with the k-th owned line, so that a waiting access proceeds and sees its write (R38, R348). -/
def State.recallDone (s : State) (k : Nat) : Option State :=
  match s.owned[k]? with
  | none => none
  | some o =>
    let tq := (s.coreOf o.h).tq
    match tq.findIdx? fun c => decide (c.op = .cpy ∧ c.ownedLine = some o.line) with
    | none => some (s.disown o.h o.line)
    | some i => (tq[i]?).map fun c => s.copyLine o.h i o.line c

/-- `RECALL_COMPLETE`. -/
def execRecallComplete (k : Nat) (s : State) : Host.Outcome State Fault Refusal := event s (s.recallDone k)

/-! ### Masked multicast (R250) -/

/-- Open entries of a line that have stood for 512 network cycles, 256 counts, close (R250). -/
def State.mcAged (s : State) : Nat → Nat → State
  | 0, _ => s
  | n + 1, line =>
    match s.mcast.findIdx? fun e => decide (e.line = line) && !e.closed && decide (s.time ≥ e.since + 256) with
    | some k => (s.mcClose k).mcAged n line
    | none => s

/-- MULTICAST_REQUEST: the next line request of a multicast command reaches the home slice, which joins it to an open entry, or serves it alone where the entry has closed
before it came, or opens one (R250). A core under a debug halt sends none (R263). -/
def State.mcRequest (s : State) (h k : Nat) : Option State :=
  match (s.coreOf h).tq[k]? with
  | none => none
  | some c =>
    let n := copyLen (c.reg 2) / 128
    let i := c.prog
    if !c.op.isMc || decide (i ≥ n) || (s.coreOf h).dhalt || s.ordBefore h c then none
    else
      let x := (capAddr (c.reg 1)).toNat + 128 * i
      match s.engAccess h c.tenant (c.reg 1) x .rd false with
      | .error (code, _) =>
        -- every line below is applied before the fault is reported (R248)
        if code ≠ notYet ∧ c.got.length = i ∧ s.canPost c 3 then
          some ((s.dropTq h k).report c 3 1 code 0 0 (i % 65536) ((capAddr (c.reg 0)).toNat + 128 * i))
        else none
      | .ok (p, t) =>
        let line := p.pa / 128
        if !t.engineReady h h c.after .rd p 128 then none
        else
          let t := ((t.takePage p.pa false).touchFor h p.pa 128).setTq h k { c with prog := i + 1 }
          let mask : BitVec 16 := BitVec.ofNat 16 (bits (c.reg 2).bits 32 16)
          let me := (h, c.key, i)
          -- entries of the line that have stood for 512 network cycles have closed by now
          let t := t.mcAged t.mcast.length line
          let same (e : McEntry) : Bool := decide (e.line = line ∧ e.clu = h / 16 ∧ e.mask = mask ∧ e.tenant = c.tenant)
          let join (t : State) (j : Nat) (e : McEntry) : State := { t with mcast := listSet t.mcast j { e with joined := e.joined ++ [me] } }
          match t.mcast.findIdx? fun e => same e && !e.closed with
          | some j => (t.mcast[j]?).map fun e =>
              let t := join t j e
              if { e with joined := e.joined ++ [me] }.complete then t.mcClose j else t
          | none =>
            match t.mcast.findIdx? fun e => same e && e.closed && !(e.joined.any fun m => m.1 = h) with
            | some j => (t.mcast[j]?).map fun e =>
                let t := t.mcDeliver line false me
                if { e with joined := e.joined ++ [me] }.complete then { t with mcast := listDrop t.mcast j } else join t j e
            | none =>
              let here := t.mcast.filter fun e => !e.closed && decide (t.time < e.since + 256) && t.homeSlice (e.line * 128) = t.homeSlice p.pa
              if devOf p.pa ≠ s.dev ∨ here.length ≥ 64 ∨ regionOf p.pa ≠ .dram then some (t.mcDeliver line false me)
              else
                let e : McEntry := ⟨line, h / 16, mask, c.tenant, [me], t.time, false⟩
                let u := { t with mcast := t.mcast ++ [e] }
                some (if e.complete then u.mcClose t.mcast.length else u)

/-- `MULTICAST_REQUEST`. -/
def execMulticastRequest (h k : Nat) (s : State) : Host.Outcome State Fault Refusal := event s (s.mcRequest h k)

/-- A packet writes a line. -/
def Packet.writesLine (p : Packet) (line : Nat) : Bool :=
  match p.op with
  | .write w => decide (lineOf w.swz w.pa = line)
  | .amo _ pa swz _ _ _ => decide (lineOf swz pa = line)
  | _ => false

/-- MULTICAST_ENTRY_TIMEOUT: an open entry closes 512 network cycles (256 counts) after it opened, or when a write to its line has reached the slice behind it (R250). While a
migration or a recall holds the line its read waits (R38, R263). -/
def State.mcTimeout (s : State) (k : Nat) : Option State :=
  match s.mcast[k]? with
  | none => none
  | some e =>
    if !e.closed ∧ s.lineOpen 0 (e.line * 128) ∧ (s.time ≥ e.since + 256 ∨ s.net.any (fun p => p.stage = .agent && p.writesLine e.line)) then some (s.mcClose k) else none

/-- `MULTICAST_ENTRY_TIMEOUT`. -/
def execMulticastEntryTimeout (k : Nat) (s : State) : Host.Outcome State Fault Refusal := event s (s.mcTimeout k)

/-! ### Messages (R252-R257) -/

/-- `mbset` (R270). -/
def execMbset (d a b : Fin 64) (s : State) : Host.Outcome State Fault Refusal := conclude s do
  let x ← readW s a 2
  let y ← readW s b 3
  let v := BitVec.ofNat 128 (x.lo.toNat + y.lo.toNat * 2 ^ 64)
  .ok ((s.finish 1 [a.val, b.val]).onCpu fun c => { c with mb := c.mb.setIfInBounds d.val v })

/-- The target core of a message, its device and H-index packed: the core whose scratch holds an address (R253). -/
def targetOf (pa : Nat) : Option Nat :=
  match regionOf pa with
  | .scratch h => some (devOf pa * 2048 + h)
  | _ => none

/-- A message leaves the core. -/
def leaveMessage (s : State) (target : Nat) (c : Cmd) : State :=
  { s with msgs := s.msgs ++ [⟨target, c.ident, c.gen, c.h, c.slot, c.tenant, s.dev, c.seq, BitVec.ofNat 32 (bits (c.reg 0).bits 0 32),
    c.regs.map (·.bits), s.packetN⟩] }

/-- `msend` (R253, R270). -/
def execMsend (d a : Fin 64) (o : Fin 8) (s : State) : Host.Outcome State Fault Refusal := conclude s do
  useW s d 1
  let c ← readW s a 2
  checkCap c 2 (capAddr c) (permS + permE)
  checkRange c 2 (capAddr c) 16 16
  let p ← place s c 2 (capAddr c) .wr false
  match targetOf p.pa with
  | none => trap 0x09 2 (capAddr c)
  | some target =>
    let t ← claimAt s p 2 (capAddr c)
    let m0 := (s.cpu.mb[0]?).getD 0
    needR (decide (m0.toNat / 2 ^ 35 = 0)) 0x66
    if s.cpu.allow ≥ 4 then .ok (t.finishW 1 [a.val] d (.plain 1))
    else
      cmdRoom s 3
      let body := (List.range (bits m0 32 3 + 1)).map fun i => (⟨(s.cpu.mb[i]?).getD 0, false⟩ : Wreg)
      let (seq, u) := t.takeSeq 3
      let u := if o = 0 then u else u.release (o.val - 1) false
      let cmd := s.capture .msend seq body []
      let u := if u.cpu.sq.isEmpty then leaveMessage u target cmd else u.enqueue (.message target cmd)
      .ok ((u.finishW 1 [a.val] d (.plain 0)).onCpu fun c => { c with allow := c.allow + 1 })

/-- A message fits a posted receive (R255). -/
def PostedRecv.fits (r : PostedRecv) (m : Msg) : Bool :=
  (r.any || decide (r.src = m.sender)) && decide ((r.tagv ^^^ m.tagv) &&& r.tmsk = 0) && decide (m.body.length ≤ r.len.toNat + 1)

/-- The delivery header (R255). -/
def Msg.header (m : Msg) : BitVec 128 :=
  BitVec.ofNat 128 (m.tagv.toNat + m.sender.toNat * 2 ^ 32 + (m.body.length - 1) % 8 * 2 ^ 52 + m.dev * 2 ^ 64)

/-- Writes a message into a buffer of core h, header first, and leaves its counter to be incremented (R255 steps 2 and 3). -/
def State.deliverMsg (s : State) (h : Nat) (buf : Wreg) (mc : Fin 32) (m : Msg) : State :=
  let s := (List.range m.body.length).foldl (fun s i =>
    s.applyWrite h ⟨(capAddr buf).toNat + 16 * i, capSwz buf, 16, (if i = 0 then m.header else m.body.getD i 0).setWidth 1024, ones 128 16, false, true⟩) s
  s.onCoreOf h fun k => { k with deliveries := k.deliveries ++ [⟨mc⟩] }

/-- `mrecv` (R271). -/
def execMrecv (d a b : Fin 64) (s : State) : Host.Outcome State Fault Refusal := conclude s do
  useW s d 1
  let buf ← readW s a 2
  let r0 ← readW s b 3
  let r1 ← readW s (b + 1) 3
  let x := r0.lo
  let y := r1.lo
  let len : BitVec 3 := BitVec.ofNat 3 (bits y 21 3)
  checkCap buf 2 (capAddr buf) (permS + permE)
  need (decide (capKind buf = 4)) 0x05 2 (capAddr buf)
  checkRange buf 2 (capAddr buf) (16 * (len.toNat + 1)) 16
  need (s.ownWindow (capAddr buf).toNat (16 * (len.toNat + 1))) 0x09 2 (capAddr buf)
  let r : PostedRecv := ⟨buf, BitVec.ofNat 20 (bits y 0 20), bit y 20, BitVec.ofNat 32 (bits x 0 32), BitVec.ofNat 32 (bits x 32 32), len,
    ⟨bits y 24 5 % 32, Nat.mod_lt _ (by decide)⟩⟩
  let uses := a.val :: blockUses b 2
  match s.core.overflow.findIdx? r.fits with
  | some i =>
    match s.core.overflow[i]? with
    | some m =>
      let t := (s.onCore fun k => { k with overflow := listDrop k.overflow i }).deliverMsg s.cur buf r.mc m
      .ok (t.finishW 1 uses d (.plain 1))
    | none => .ok (s.finishW 1 uses d (.plain 0))
  | none =>
    if s.core.posted.length ≥ 64 then .ok (s.finishW 1 uses d (.plain 2))
    else .ok ((s.finishW 1 uses d (.plain 0)).onCore fun k => { k with posted := k.posted ++ [r] })

/-- The live gang that core h serves. -/
def State.gangOf (s : State) (h : Nat) : Option Gang := s.gangs.find? fun g => !g.saved && g.members.contains h

/-- INFO of a refused message (R264). -/
def Msg.info (m : Msg) : Nat := m.tagv.toNat + m.target / 2048 * 2 ^ 32 + m.target % 2048 * 2 ^ 45

/-- Refuses a message to its sender (R255, R270). -/
def State.refuseMsg (s : State) (m : Msg) (cause reason : Nat) : State :=
  s.post m.sender m.sgen (message 2 3 cause reason 0 m.seq.toNat 0 m.info)

/-- A message finds the overflow queue full: it is discarded; the core's control context has the trap pending, or OVFL counts it (R255, R256). -/
def State.overflowed (s : State) (h : Nat) (m : Msg) : State :=
  let s := s.refuseMsg m 0x0E 0
  let c := s.ctx h 0
  if c.live then
    s.setCtx h 0 { c with rovf := some (c.rovf.getD (BitVec.ofNat 64 (m.tagv.toNat + m.sender.toNat * 2 ^ 32))) }
  else s.onCoreOf h fun k => { k with ovfl := if k.ovfl = BitVec.allOnes 32 then k.ovfl else k.ovfl + 1 }

/-- MESSAGE_ARRIVAL: a message reaches the receive port of its target core (R253, R255), after the earlier messages of its core to the same target (R12, R24). At a core that
serves no gang, one that finds the overflow queue full is discarded (R256), and any other is refused. At another device it is out of this machine's sight. One that is to
be refused waits while a message of the engine waits for the sender's mailbox (R260). -/
def State.messageArrives (s : State) (k : Nat) : Option State :=
  match s.msgs[k]? with
  | none => none
  | some m =>
    let h := m.target % 2048
    if (s.msgs.take k).any (fun q => q.sh = m.sh && q.target = m.target) then none
    else
      let may := s.mayPost m.sender m.sgen 3
      let s := { s with msgs := listDrop s.msgs k, allowDue := s.allowDue ++ [(m.sender, m.sgen)] }
      if m.target / 2048 ≠ s.dev then some s
      else match s.gangOf h with
        | none => if !may then none else some (if (s.coreOf h).overflow.length < 32 then s.refuseMsg m 0x12 0x67 else s.overflowed h m)
        | some g =>
          if g.tenant ≠ m.tenant then (if may then some (s.refuseMsg m 0x12 0x67) else none)
          else
            let core := s.coreOf h
            match core.posted.findIdx? fun r => r.fits m with
            | some i =>
              match core.posted[i]? with
              | some r => some ((s.setCore h { core with posted := listDrop core.posted i }).deliverMsg h r.buf r.mc m)
              | none => none
            | none =>
              if core.overflow.length < 32 then some (s.setCore h { core with overflow := core.overflow ++ [m] })
              else if may then some (s.overflowed h m)
              else none

/-- `MESSAGE_ARRIVAL`. -/
def execMessageArrival (k : Nat) (s : State) : Host.Outcome State Fault Refusal := event s (s.messageArrives k)

/-- MESSAGE_COUNTER_INCREMENT: the counter of the oldest delivery counts it (R255 step 3). -/
def State.countDelivery (s : State) (h : Nat) : Option State :=
  let k := s.coreOf h
  match k.deliveries with
  | [] => none
  | x :: rest => some (s.setCore h { k with deliveries := rest, mc := k.mc.set x.mc (k.mc[x.mc] + 1) })

/-- `MESSAGE_COUNTER_INCREMENT`. -/
def execMessageCounterIncrement (h : Nat) (s : State) : Host.Outcome State Fault Refusal := event s (s.countDelivery h)

/-- SEND_ALLOWANCE_RETURN: an allowance reaches its context (R253); it stays due while the image of the context is away. -/
def State.allowanceReturn (s : State) (k : Nat) : Option State :=
  match s.allowDue[k]? with
  | none => none
  | some (id, g) =>
    let t := { s with allowDue := listDrop s.allowDue k }
    if (s.loc id).gen ≠ g ∨ (s.loc id).state = .free then some t
    else match s.heldAt id with
      | some (h, slot) => some (t.setCtx h slot { t.ctx h slot with allow := (t.ctx h slot).allow - 1 })
      | none => none

/-- `SEND_ALLOWANCE_RETURN`. -/
def execSendAllowanceReturn (k : Nat) (s : State) : Host.Outcome State Fault Refusal := event s (s.allowanceReturn k)

/-- `mcnt` (R272). -/
def execMcnt (d a : Fin 64) (s : State) : Host.Outcome State Fault Refusal := conclude s do
  useW s d 1
  .ok (s.finishW 1 [] d (.plain (((s.core.mc[a.val]?).getD 0).setWidth 64)))

/-- `mcnt.set` (R272). -/
def execMcntSet (a b : Fin 64) (s : State) : Host.Outcome State Fault Refusal := conclude s do
  let x ← readW s b 3
  .ok ((s.finish 1 [b.val]).onCore fun k => { k with mc := k.mc.setIfInBounds a.val (BitVec.ofNat 32 (bits x.bits 0 32)) })

/-- `mwcnt`: parks until the counter has reached the threshold (R257). -/
def execMwcnt (a b : Fin 64) (s : State) : Host.Outcome State Fault Refusal := conclude s do
  let x ← readW s b 3
  let th : BitVec 32 := BitVec.ofNat 32 (bits x.bits 0 32)
  if s.cpu.passed.isNone ∨ (((s.core.mc[a.val]?).getD 0) - th).toNat ≥ 2 ^ 31 then .error (.park (.counter a.val th))
  .ok (s.finish 1 [b.val])

/-! ### Mailboxes (R258, R260, R273) -/

/-- `wfm` (R273). -/
def execWfm (d : Fin 64) (s : State) : Host.Outcome State Fault Refusal := conclude s do
  useW s d 1
  if s.cpu.passed.isNone ∨ s.cpu.mbox.isEmpty then .error (.park .mailbox)
  .ok (s.finishW 1 [] d (.plain (BitVec.ofNat 64 s.cpu.mbox.length)))

/-- `mpop` (R273). -/
def execMpop (d : Fin 64) (s : State) : Host.Outcome State Fault Refusal := conclude s do
  useW s d 1
  .ok ((s.finishW 1 [] d ⟨s.cpu.mbox.headD 0, false⟩).onCpu fun c => { c with mbox := c.mbox.drop 1 })

/-- The message of an engine to a context that comes after the one that has entered its mailbox now waits at the mailbox input (R260). -/
def State.postNext (s : State) (p : Post) : State :=
  match s.owed.findIdx? fun q => decide (q.ident = p.ident ∧ q.gen = p.gen ∧ bits q.msg 4 4 = bits p.msg 4 4) with
  | none => s
  | some i => match s.owed[i]? with
    | some q => { s with owed := listDrop s.owed i, posts := s.posts ++ [q] }
    | none => s

/-- MAILBOX_ENTRY: the oldest message for the context in a slot enters its mailbox while that is not full (R41, R260). Completions for a context that a stop has halted wait at
the mailbox's input (R313). -/
def State.mailIn (s : State) (h slot : Nat) : Option State :=
  let c := s.ctx h slot
  if !c.live ∨ c.stopHalted ∨ c.mbox.length ≥ 16 then none
  else
    match s.posts.findIdx? fun p => p.ident = c.ident && p.gen = c.gen with
    | none => none
    | some i => match s.posts[i]? with
      | some p => some (({ s with posts := listDrop s.posts i }.setCtx h slot { c with mbox := c.mbox ++ [p.msg] }).postNext p)
      | none => none

/-- `MAILBOX_ENTRY`. -/
def execMailboxEntry (h slot : Nat) (s : State) : Host.Outcome State Fault Refusal := event s (s.mailIn h slot)

/-! ### Full bits (R274) -/

/-- The place of a page of a range. A page past the first 8,192 bytes matters only for its faults: it is walked apart from the TLBs. -/
def fullPage (s : State) (c : Wreg) (ea : Word) (far : Bool) : Except Stop Place :=
  if far && decide (capKind c ≠ 4) then
    match s.walk s.cur s.cpu.tenant ea.toNat with
    | .error code => trap code 2 ea
    | .ok e => if e.wr then .ok ⟨e.pa + ea.toNat % 2 ^ e.bits, 0, some (e.pol, e.home)⟩ else trap 0x09 2 ea
  else place s c 2 ea .wr false

/-- Places of a range, page by page, in scratch of the own device; `o` is the offset of the page in the range. -/
def fullPlaces (s : State) (c : Wreg) : Nat → Nat → Nat → Except Stop (List (Agent × Nat × Nat × Nat) × State)
  | 0, _, _ => .ok ([], s)
  | fuel + 1, o, n =>
    if o ≥ n then .ok ([], s)
    else do
      let ea : Word := BitVec.ofNat 64 ((capAddr c).toNat + o)
      let p ← fullPage s c ea (decide (o ≥ 8192))
      need (decide (devOf p.pa = s.dev) && (match regionOf p.pa with | .scratch _ => true | _ => false)) 0x09 2 ea
      let t ← claimAt s p 2 ea
      let m := Nat.min (n - o) (65536 - ea.toNat % 65536)
      let (l, t) ← fullPlaces t c fuel (o + m) n
      .ok ((t.agentOf p.pa, p.pa, p.swz, m) :: l, t)

/-- `feset` and `feclr` (R274). -/
def fullRange (a b : Fin 64) (on : Bool) (s : State) : Except Stop State := do
  let c ← readW s a 2
  let x ← readW s b 3
  let n := bits x.bits 0 32
  if n = 0 then .ok (s.finish 1 [a.val, b.val])
  else
    checkCap c 2 (capAddr c) permS
    need (capCovers c (capAddr c).toNat n) 0x04 2 (capAddr c)
    need (decide ((capAddr c).toNat % 16 = 0 ∧ n % 16 = 0)) 0x07 2 (capAddr c)
    let (l, t) ← fullPlaces s c (n / 65536 + 2) 0 n
    needR (decide (n ≤ 8192)) 0x75
    sqRoom s
    .ok ((t.enqueue (.fullBits l on)).finish 1 [a.val, b.val])

/-- `feset` (R274). -/
def execFeset (a b : Fin 64) (s : State) : Host.Outcome State Fault Refusal := conclude s (fullRange a b true s)

/-- `feclr` (R274). -/
def execFeclr (a b : Fin 64) (s : State) : Host.Outcome State Fault Refusal := conclude s (fullRange a b false s)

end Sys2Proof.Machine
end

