-- ==== Sys2Proof/Machine/Prefetch.lean ====
section
/-! DEFINITION. The prefetch engine: kernels (R278-R280), walkers and their gathers and scatters (R281, R282, R284, R285), and the fibre registers (R286-R289). -/

namespace Sys2Proof.Machine

/-! ### Kernels (R278, R279) -/

/-- Fields of a kernel word: OP, D, A, B, and IMM as a signed number. -/
structure KWord where
  op : Nat
  d : Nat
  a : Nat
  b : Nat
  imm : Int

/-- Splits a kernel word (R278). -/
def kword (w : BitVec 32) : KWord := ⟨bits w 0 5, bits w 5 3, bits w 8 3, bits w 11 3, signedOf 18 (bits w 14 18)⟩

/-- A word of an image passes its own check (R279). -/
def KWord.ok (k : KWord) : Bool :=
  match k.op with
  | 0 => decide (k.d = 0 ∧ k.a = 0 ∧ k.b = 0 ∧ k.imm = 0)
  | 1 | 2 | 3 | 8 => decide (k.imm = 0)
  | 4 | 5 | 10 => decide (k.b = 0)
  | 6 | 7 => decide (k.b = 0 ∧ 0 ≤ k.imm ∧ k.imm ≤ 63)
  | 9 => decide (k.d = 0 ∧ k.b = 0 ∧ 1 ≤ k.imm ∧ k.imm ≤ 31)
  | 11 => decide (k.d = 0 ∧ k.b = 0)
  | 12 | 13 => decide (k.d = 0 ∧ k.b < 4)
  | _ => false

/-- The number of the first word of an image that fails: on its own, or as a second gather or scatter (R279). -/
def kernelBad (l : List (BitVec 32)) : Option Nat :=
  (List.range l.length).find? fun i =>
    let k := kword (l.getD i 0)
    let mem (j : Nat) : Bool := decide ((kword (l.getD j 0)).op = 12 ∨ (kword (l.getD j 0)).op = 13)
    !k.ok || (mem i && (List.range i).any mem)

/-- A kernel holds an operation of a set. -/
def kernelHas (l : List (BitVec 32)) (ops : List Nat) : Bool := l.any fun w => ops.contains (kword w).op

/-- A run's register. -/
def kreg (r : List (BitVec 64)) (i : Nat) : BitVec 64 := r.getD i 0

/-- The plain operations on kernel registers (R278). -/
def kcompute (k : KWord) (r : List (BitVec 64)) : BitVec 64 :=
  let a := kreg r k.a
  let b := kreg r k.b
  match k.op with
  | 1 => a + b
  | 2 => a - b
  | 3 => a &&& b
  | 4 => a + BitVec.ofInt 64 k.imm
  | 5 => a * BitVec.ofInt 64 k.imm
  | 6 => a <<< k.imm.toNat
  | 7 => a >>> k.imm.toNat
  | _ => if a.toNat < b.toNat then 1 else 0

/-- Checks of a kernel's access against the target capability up to alignment (R280): none, or the cause. -/
def kcheck (t : Wreg) (ea perm n : Nat) : Option Nat :=
  if !capHas t perm then some 0x05 else if !capCovers t ea n then some 0x04 else if ea % n ≠ 0 then some 0x07 else none

/-- Executes words of a kernel from `pc` on until the run ends or waits (R280). `drop` counts dropped fetch hints. -/
def kernelGo (ks : List (BitVec 32)) (t : Wreg) (hint : Nat → Bool) : Nat → Nat → List (BitVec 64) → Nat → KWait × Nat × List (BitVec 64) × Nat
  | 0, pc, r, drop => (.ended, pc, r, drop)
  | fuel + 1, pc, r, drop =>
    if pc ≥ 32 then (.ended, pc, r, drop)
    else
      let k := kword (ks.getD pc 0)
      let ea := (capAddr t + kreg r k.a + BitVec.ofInt 64 k.imm).toNat
      match k.op with
      | 0 => (.ended, pc, r, drop)
      | 9 => kernelGo ks t hint fuel (pc + 1 + (if kreg r k.a = 0 then k.imm.toNat else 0)) r drop
      | 10 =>
        match kcheck t ea permL 8 with
        | some code => (.fault code ea, pc, r, drop)
        | none => (.kld k.d ea, pc + 1, r, drop)
      | 11 => kernelGo ks t hint fuel (pc + 1) r (if hint ea then drop else drop + 1)
      | 12 =>
        match kcheck t ea permL (2 ^ (k.b + 1)) with
        | some code => (.fault code ea, pc, r, drop)
        | none => (.gather ea (2 ^ (k.b + 1)) none, pc + 1, r, drop)
      | 13 =>
        match kcheck t ea permS (2 ^ (k.b + 1)) with
        | some code => (.fault code ea, pc, r, drop)
        | none => (.scatter ea (2 ^ (k.b + 1)) false, pc + 1, r, drop)
      | _ => kernelGo ks t hint fuel (pc + 1) (listSet r k.d (kcompute k r)) drop

/-! ### Walkers -/

/-- Replaces a walker of a core. -/
def State.setWalker (s : State) (h n : Nat) (w : Walker) : State := s.onCoreOf h fun k => { k with pw := k.pw.setIfInBounds n w }

/-- A walker of a core. -/
def State.walker (s : State) (h n : Nat) : Walker := ((s.coreOf h).pw[n]?).getD .idle

/-- The words of the kernel that a walker runs: its slot is not reloaded while it is busy (R284). -/
def State.kernelOf (s : State) (h : Nat) (w : Walker) : List (BitVec 32) := ((s.coreOf h).ks[w.slotK]).words

/-- COUNT and index size of a `pkrun`. -/
def Cmd.count (c : Cmd) : Nat := bits (c.reg 3).bits 0 32
/-- Bytes of an index. -/
def Cmd.isz (c : Cmd) : Nat := if bit (c.reg 3).bits 32 then 4 else 2

/-- Checks of `pkrun` on the gather buffer that make it unusable (R281, R284). -/
def gatherUsable (s : State) (g : Wreg) : Bool :=
  match capBounds g with
  | some (lo, hi) =>
    decide (capKind g = 4 ∧ lo < hi ∧ (hi - lo) % 16 = 0 ∧ (capAddr g).toNat = lo ∧ lo % 16 = 0) && s.ownWindow lo (hi - lo)
  | none => false

/-- A prefetch command enters its queue (R277); a `pkrun` goes to its walker, unless that was stopped first. -/
def enterPrefetch (s : State) (c : Cmd) : State :=
  let c := { c with after := s.packetN, taken := true }
  match c.op with
  | .fbopen n =>
    let more := s.cpu.sq.any fun e => match e with | .command _ x => x.op = c.op | _ => false
    if more then s
    else s.onCpu fun x => { x with fb := x.fb.set n { x.fb[n] with started := true, after := c.after } }
  | .pkrun _ w =>
    let x := s.walker s.cur w.val
    match x.cmd with
    | some y => if y.seq = c.seq ∧ y.ident = c.ident ∧ !y.taken then s.setWalker s.cur w.val { x with cmd := some c } else s
    | none => s
  | _ => s.onCore fun k => { k with pq := k.pq ++ [c] }

/-- A number below 4. -/
def fin4 (n : Nat) : Fin 4 := ⟨n % 4, Nat.mod_lt _ (by decide)⟩

/-- A kernel slot is in use: loading, or run by a busy walker. -/
def Core.slotUsed (k : Core) (n : Fin 4) : Bool := decide (k.ks[n].state = 1) || k.pw.toList.any fun w => w.busy && decide (w.slotK = n)

/-- `pkload` (R284). -/
def execPkload (d a : Fin 64) (s : State) : Host.Outcome State Fault Refusal := conclude s do
  let c ← readW s a 2
  engCap c 2 (permL + permE) 128 8
  let n := fin4 d.val
  needR (!s.core.slotUsed n) 0x86
  cmdRoom s 4
  let (seq, t) := s.takeSeq 4
  let t := t.onCore fun k => { k with ks := k.ks.set n { k.ks[n] with state := 1 } }
  .ok ((t.command 4 (s.capture (.pkload n) seq [c] []) enterPrefetch).finish 1 [a.val])

/-- `pkrun` (R284). -/
def execPkrun (d a b : Fin 64) (k : Fin 4) (s : State) : Host.Outcome State Fault Refusal := conclude s do
  let l ← readBlock s a 4
  let arg ← readW s b 3
  let slot := s.core.ks[k]
  let words := if slot.state = 2 then slot.words else []
  let i := l.getD 0 .zero
  let t := l.getD 1 .zero
  let g := l.getD 2 .zero
  let x := (l.getD 3 .zero).bits
  let isz := if bit x 32 then 4 else 2
  let usesG := kernelHas words [12, 13]
  engCap i 2 (permL + permE) (bits x 0 32 * isz) isz
  checkCap t 2 (capAddr t) (permE + (if kernelHas words [10, 11, 12] then permL else 0) + (if kernelHas words [13] then permS else 0))
  if usesG then
    need (g.tag && !capMalformed g) 0x03 2 (capAddr g)
    need (decide (capKind g ≠ 3)) 0x06 2 (capAddr g)
    need (decide (capKind g ≠ 4) || capHas g (permL + permS + permE)) 0x05 2 (capAddr g)
    needR (gatherUsable s g) 0x88
  let n := fin4 d.val
  needR (!(s.core.pw[n]).busy) 0x85
  needR (decide (slot.state = 2)) 0x87
  cmdRoom s 4
  let (seq, u) := s.takeSeq 4
  let c := s.capture (.pkrun k n) seq (l ++ [arg]) []
  let u := u.setWalker u.cur n.val { Walker.idle with busy := true, slotK := k, cmd := some c }
  .ok ((u.command 4 c enterPrefetch).finish 1 (blockUses a 4 ++ [b.val]))

/-- The value of `pkstat` (R284). -/
def Core.walkerStat (k : Core) (n : Fin 4) : Word :=
  let w := k.pw[n]
  BitVec.ofNat 64 (w.busy.toNat + w.flt.toNat * 2 + w.slotK.val * 4 + w.runs.length % 16 * 2 ^ 8
    + (List.range 4).foldl (fun a i => a + (k.ks[fin4 i]).state.val * 2 ^ (12 + 2 * i)) 0 + w.done % 2 ^ 32 * 2 ^ 32)

/-- `pkstat` (R284). -/
def execPkstat (d a : Fin 64) (s : State) : Host.Outcome State Fault Refusal := conclude s do
  useW s d 1
  .ok (s.finishW 1 [] d (.plain (s.core.walkerStat (fin4 a.val))))

/-- INFO of a finished or stopped walk (R285). -/
def Walker.info (w : Walker) : Nat := w.done % 2 ^ 32 + w.cnt % 2 ^ 32 * 2 ^ 32

/-- A walk ends: the walker falls idle, keeping what `pkstat` shows. -/
def Walker.stop (w : Walker) (flt : Bool) : Walker := { w with busy := false, flt := flt, cmd := none, read := [], runs := [] }

/-- `pkstop`: discards every run that has not committed; the completion goes to the context that started the walk (R284). While an earlier message of the engine waits for that
context's mailbox the walk does not retire (R260): the walker starts no run, and posts once it may. -/
def execPkstop (a : Fin 64) (s : State) : Host.Outcome State Fault Refusal := conclude s do
  let n := (fin4 a.val).val
  let w := s.walker s.cur n
  let t := (s.finish 1 []).takeSeq 4 |>.2
  match w.busy, w.cmd with
  | true, some c =>
    if t.canPost c 4 then .ok ((t.setWalker t.cur n (w.stop false)).report c 4 0 0 0 1 0 w.info)
    else .ok (t.setWalker t.cur n { w with runs := [], read := [], next := c.count })
  | _, _ => .ok t

/-- PKLOAD_IMAGE_READ: the image of the first `pkload` of a slot is read and checked (R284). -/
def State.imageRead (s : State) (h n : Nat) : Option State :=
  let k := s.coreOf h
  let slot := fin4 n
  match k.pq.findIdx? fun c => c.op = .pkload slot with
  | none => none
  | some i =>
    match k.pq[i]? with
    | none => none
    | some c =>
      if !s.canPost c 4 then none
      else
        let put (s : State) (x : KSlot) : State := s.onCoreOf h fun k => { k with pq := listDrop k.pq i, ks := k.ks.set slot x }
        match (c.reader h 0 false).words false 4 ((List.range 32).map fun j => (capAddr (c.reg 0)).toNat + 4 * j) s with
        | .error (code, x) => if code = notYet then none else some ((put s ⟨0, []⟩).report c 4 1 code 0 0 0 x)
        | .ok (l, t) =>
          let words := l.map (BitVec.ofNat 32)
          some (match kernelBad words with
            | some j => (put t ⟨0, []⟩).report c 4 1 0x01 0 0 j (l.getD j 0)
            | none => (put t ⟨2, words⟩).report c 4 0 0 0 1 0 0)

/-- `PKLOAD_IMAGE_READ`. -/
def execPkloadImageRead (h n : Nat) (s : State) : Host.Outcome State Fault Refusal := event s (s.imageRead h n)

/-- The command that a walker runs, once it has entered; from the stop cycle of its tenant on it does nothing (R292). -/
def State.walking (s : State) (h n : Nat) : Option (Walker × Cmd) :=
  let w := s.walker h n
  match w.cmd with
  | some c => if w.busy && c.taken && !s.stopped c.tenant then some (w, c) else none
  | none => none

/-- Runs that have ended leave in element order; one without a gather or scatter commits as it does (R281). -/
def Walker.commit : Nat → Walker → Walker
  | 0, w => w
  | fuel + 1, w =>
    match w.runs with
    | r :: rest => if r.wait = .ended then Walker.commit fuel { w with runs := rest, done := w.done + (if r.applied then 0 else 1) } else w
    | [] => w

/-- Settles a walker: finished runs commit, a fault that has come to the front ends the walk, and a walk whose runs have all committed completes (R282, R284). -/
def State.settleWalker (s : State) (h n : Nat) (w0 : Walker) (c : Cmd) : State :=
  let w := Walker.commit 9 w0
  let s := s.setWalker h n w
  match w.runs with
  | r :: _ =>
    match r.wait with
    | .fault code x => if s.canPost c 4 then (s.setWalker h n (w.stop true)).report c 4 1 code 0 0 (r.elem % 65536) x else s
    | _ => s
  | [] =>
    if w.next ≥ c.count ∧ s.canPost c 4 then (s.setWalker h n (w.stop false)).report c 4 0 0 0 1 0 w.info else s

/-- Indices of a line from element e on, as many as can be read; the fault that the first one meets. -/
def readIndices (r : Reader) (isz base : Nat) : Nat → Nat → State → Except (Nat × Nat) (List (BitVec 64) × State)
  | 0, _, s => .ok ([], s)
  | n + 1, e, s =>
    match r.word s false isz (base + isz * e) with
    | .error f => .error f
    | .ok (x, s) =>
      if (base + isz * (e + 1)) % 128 = 0 then .ok ([BitVec.ofNat 64 x], s)
      else match readIndices r isz base n (e + 1) s with
        | .error _ => .ok ([BitVec.ofNat 64 x], s)
        | .ok (l, s) => .ok (BitVec.ofNat 64 x :: l, s)

/-- INDEX_READ_AHEAD: a walker reads its next index line, up to four lines ahead (R277, R290). A fault is reported once every run below it has committed. -/
def State.indexAhead (s : State) (h n : Nat) : Option State :=
  match s.walking h n with
  | none => none
  | some (w, c) =>
    let e := w.next + w.read.length
    if e ≥ c.count ∨ w.read.length > 3 * (128 / c.isz) then none
    else match readIndices (c.reader h 0 false) c.isz (capAddr (c.reg 0)).toNat (Nat.min 64 (c.count - e)) e s with
      | .ok (l, t) => some (t.setWalker h n { w with read := w.read ++ l })
      | .error (code, x) =>
        if code ≠ notYet ∧ w.read.isEmpty ∧ w.runs.isEmpty then some (s.settleWalker h n { w with runs := [⟨e, [], 0, .fault code x, false⟩] } c) else none

/-- `INDEX_READ_AHEAD`. -/
def execIndexReadAhead (h n : Nat) (s : State) : Host.Outcome State Fault Refusal := event s (s.indexAhead h n)

/-- Lets a run go on until it ends or waits; dropped hints count for the issuer (R280). -/
def State.kgo (s : State) (h : Nat) (w : Walker) (c : Cmd) (r : KRun) : KRun × State :=
  let (x, pc, regs, drop) := kernelGo (s.kernelOf h w) (c.reg 1) (fun ea => hintOk s h c.tenant (c.reg 1) (BitVec.ofNat 64 ea) permL) 33 r.kpc r.regs 0
  ({ r with wait := x, kpc := pc, regs := regs }, s.onIssuer c.ident c.gen fun y => (List.range drop).foldl (fun y _ => y.dropHint) y)

/-- KERNEL_RUN: a run of the next element starts, with up to eight in flight (R280); or the walker settles. -/
def State.kernelRun (s : State) (h n : Nat) : Option State :=
  match s.walking h n with
  | none => none
  | some (w, c) =>
      let stop : Bool := match w.runs with | r :: _ => (match r.wait with | .fault .. => true | _ => false) | [] => false
    match w.read with
    | x :: rest =>
      if stop ∨ w.runs.length ≥ 8 then some (s.settleWalker h n w c)
      else
        let r : KRun := ⟨w.next, [x, BitVec.ofNat 64 w.next, (c.reg 4).lo, 0, 0, 0, 0, 0], 0, .ended, false⟩
        let (r, t) := s.kgo h w c r
        some (t.settleWalker h n { w with next := w.next + 1, read := rest, runs := w.runs ++ [r] } c)
    | [] => some (s.settleWalker h n w c)

/-- `KERNEL_RUN`. -/
def execKernelRun (h n : Nat) (s : State) : Host.Outcome State Fault Refusal := event s (s.kernelRun h n)

/-- The data of the `kld` that run i waits for returns, and the run goes on (R280). -/
def State.kldStep (s : State) (h n i : Nat) (w : Walker) (c : Cmd) : Option State :=
  match w.runs[i]? with
  | some r =>
    match r.wait with
    | .kld d ea =>
      match (c.reader h 1 false).word s false 8 ea with
      | .error (code, x) => if code = notYet then none else some (s.settleWalker h n { w with runs := listSet w.runs i { r with wait := .fault code x } } c)
      | .ok (v, t) =>
        let (r, t) := t.kgo h w c { r with regs := listSet r.regs d (BitVec.ofNat 64 v) }
        some (t.settleWalker h n { w with runs := listSet w.runs i r } c)
    | _ => none
  | none => none

/-- KLD_RETURN: the data of the first waiting `kld` that can be read returns (R280). -/
def State.kldReturn (s : State) (h n : Nat) : Option State :=
  match s.walking h n with
  | none => none
  | some (w, c) => (List.range w.runs.length).findSome? fun i => s.kldStep h n i w c

/-- `KLD_RETURN`. -/
def execKldReturn (h n : Nat) (s : State) : Host.Outcome State Fault Refusal := event s (s.kldReturn h n)

/-- The slot of the walker's next gather or scatter (R281). -/
def Walker.slotAddr (w : Walker) (g : Wreg) : Nat := (capAddr g).toNat + 16 * (w.cnt % (capLength g / 16))

/-- The gather or scatter of the oldest run has been applied, which commits it (R281); the run goes on. -/
def State.applied (s : State) (h n : Nat) (w : Walker) (c : Cmd) (r : KRun) (rest : List KRun) : State :=
  let (r, s) := s.kgo h w c { r with applied := true }
  s.settleWalker h n { w with cnt := w.cnt + 1, done := w.done + 1, runs := r :: rest } c

/-- A slot of the gather buffer can be acted on in its bank queue: nothing precedes, and no access that waits there for its full bit is to be served first (R145, R281). -/
def State.slotReady (s : State) (h : Nat) (c : Cmd) (g : Wreg) (a : Nat) : Bool :=
  s.engineReady h c.h c.after .wr ⟨a, capSwz g, none⟩ 16 && !s.waiterAhead (.bank h) a (capSwz g) 16 s.packetN

/-- The gather of run i reads its bytes (R281); poison moves with them. -/
def State.gatherRead (s : State) (h n i : Nat) (w : Walker) (c : Cmd) : Option State :=
  match w.runs[i]? with
  | some q =>
    match q.wait with
    | .gather ea size none =>
      match (c.reader h 1 false).raws size s ea with
      | .error (code, x) => if code = notYet then none else some (s.settleWalker h n { w with runs := listSet w.runs i { q with wait := .fault code x } } c)
      | .ok (l, pois, t) => some (t.setWalker h n { w with runs := listSet w.runs i { q with wait := .gather ea size (some (BitVec.ofNat 128 (leNat l), pois)) } })
    | _ => none
  | none => none

/-- GATHER_STEP: the gather of the oldest run is written into its empty slot and commits, or the first gather that can read its bytes does (R281). -/
def State.gatherStep (s : State) (h n : Nat) : Option State :=
  match s.walking h n with
  | none => none
  | some (w, c) =>
    let g := c.reg 2
    let a := w.slotAddr g
    let read := (List.range w.runs.length).findSome? fun i => s.gatherRead h n i w c
    match w.runs with
    | r :: rest =>
      match r.wait with
      | .gather _ _ (some (v, pois)) =>
        if s.mem.fullAt (granuleOf (capSwz g) a) || !s.slotReady h c g a then read
        else
          let t := s.applyWrite h ⟨a, capSwz g, 16, v.setWidth 1024, ones 128 16, false, true⟩
          some ((if pois then t.ownPoison h (capSwz g) a else t).applied h n w c r rest)
      | _ => read
    | [] => none

/-- `GATHER_STEP`. -/
def execGatherStep (h n : Nat) (s : State) : Host.Outcome State Fault Refusal := event s (s.gatherStep h n)

/-- The target of the scatter of run i is translated and checked (R280, R282). -/
def State.scatterCheck (s : State) (h n i : Nat) (w : Walker) (c : Cmd) : Option State :=
  match w.runs[i]? with
  | some q =>
    match q.wait with
    | .scatter ea size false =>
      match s.engAccess h c.tenant (c.reg 1) ea .wr false with
      | .error (code, x) => if code = notYet then none else some (s.settleWalker h n { w with runs := listSet w.runs i { q with wait := .fault code x } } c)
      | .ok (_, t) => some (t.setWalker h n { w with runs := listSet w.runs i { q with wait := .scatter ea size true } })
    | _ => none
  | none => none

/-- SCATTER_STEP: the scatter of the oldest run takes its full slot, clears it and writes its target, or the target of the first one that has not been checked is (R281). -/
def State.scatterStep (s : State) (h n : Nat) : Option State :=
  match s.walking h n with
  | none => none
  | some (w, c) =>
    let g := c.reg 2
    let a := w.slotAddr g
    let gran := granuleOf (capSwz g) a
    let check := (List.range w.runs.length).findSome? fun i => s.scatterCheck h n i w c
    match w.runs with
    | r :: rest =>
      match r.wait with
      | .scatter ea size true =>
        match s.engAccess h c.tenant (c.reg 1) ea .wr false with
        | .error (code, x) =>
          if code = notYet then check else some (s.settleWalker h n { w with runs := { r with wait := .fault code x } :: rest } c)
        | .ok (p, t) =>
          if !s.mem.fullAt gran || !s.slotReady h c g a || !t.engineReady h c.h c.after .wr p size then check
          else
            let v := t.readFor h (capSwz g) a size
            let pois := t.mem.poisonAt gran
            let t := { t with mem := t.mem.setFull gran false }
            let t := t.engineWrite h ⟨p.pa, p.swz, size, BitVec.ofNat 1024 v, ones 128 size, false, true⟩
            some ((if pois then t.ownPoison h p.swz p.pa else t).applied h n w c r rest)
      | _ => check
    | [] => none

/-- `SCATTER_STEP`. -/
def execScatterStep (h n : Nat) (s : State) : Host.Outcome State Fault Refusal := event s (s.scatterStep h n)

/-! ### Fibres (R286-R289) -/

/-- Bytes of a value type. -/
def valueBytes (vt : Nat) : Nat := match vt with | 1 | 5 => 4 | 2 => 8 | _ => 2

/-- A fibre of the context looked at. -/
def Ctx.fibre (c : Ctx) (n : Nat) : Fibre := (c.fb[n]?).getD .closed

/-- Replaces a fibre. -/
def Ctx.setFibre (c : Ctx) (n : Nat) (f : Fibre) : Ctx := { c with fb := c.fb.setIfInBounds n f }

/-- `fbopen` (R287). -/
def execFbopen (d a : Fin 64) (s : State) : Host.Outcome State Fault Refusal := conclude s do
  let l ← readBlock s a 3
  let ci := l.getD 0 .zero
  let cv := l.getD 1 .zero
  let x := (l.getD 2 .zero).bits
  let len := bits x 0 32
  let isz := if bit x 32 then 4 else 2
  let vt := bits x 33 3
  let dns := bit x 36
  let al (n k : Nat) : Nat := if n = 0 then 1 else k
  if !dns then engCap ci 2 (permL + permE) (len * isz) (al len isz)
  let vlen := if vt ≥ 6 then 0 else len
  engCap cv 2 (permL + permE) (vlen * valueBytes vt) (al vlen (valueBytes vt))
  needR (decide (vt < 6)) 0x82
  let f : Fibre := ⟨ci, cv, BitVec.ofNat 32 len, 0, bit x 32, ⟨vt % 8, Nat.mod_lt _ (by decide)⟩, dns, true, BitVec.ofNat 24 (bits x 40 24), [], false, 0⟩
  let t := (s.finish 1 (blockUses a 3)).onCpu fun c => c.setFibre d.val f
  .ok (t.command 4 (s.capture (.fbopen ⟨d.val % 8, Nat.mod_lt _ (by decide)⟩) 0 [] []) enterPrefetch)

/-- A read of an entry met a fault: the trap is taken, and the entry is read again when the instruction issues again (R287, R288). -/
def fibreFault (s : State) (ns : List Nat) (e : Ahead) : State :=
  (s.onCpu fun c => ns.foldl (fun c n => let f := c.fibre n; c.setFibre n { f with ahead := f.ahead.takeWhile fun x => x.fault = 0 }) c).takeTrap
    ⟨e.fault, 0, e.val, false, false⟩

/-- `fbadv` (R287). -/
def execFbadv (d a : Fin 64) (s : State) : Host.Outcome State Fault Refusal := conclude s do
  useW s d 1
  useW s (d + 1) 1
  let f := s.cpu.fibre a.val
  needR f.opn 0x81
  needR (decide (f.pos.toNat < f.len.toNat)) 0x80
  match f.ahead with
  | [] => .error (.park (.fibre a.val))
  | e :: rest =>
    if e.fault ≠ 0 then .ok (fibreFault s [a.val] e)
    else
      .ok (s.onCpu fun c => (((c.writeW d (.plain (e.idx.getD 0))).writeW (d + 1) (.plain e.val)).setFibre a.val { f with pos := f.pos + 1, ahead := rest }).advance 1)

/-- `fbend` (R287). -/
def execFbend (d a : Fin 64) (s : State) : Host.Outcome State Fault Refusal := conclude s do
  useW s d 1
  let f := s.cpu.fibre a.val
  .ok (s.finishW 1 [] d (.plain (if !f.opn || decide (f.pos = f.len) then 1 else 0)))

/-- `fbclose` (R287). -/
def execFbclose (a : Fin 64) (s : State) : Host.Outcome State Fault Refusal :=
  conclude s (.ok ((s.finish 1 []).onCpu fun c => c.setFibre a.val .closed))

/-- Decodes a value of a fibre of type FP16, BF16 or FP32 (R288). -/
def fibreValue (vt : Nat) (x : Nat) : Fp := match vt with | 3 => f16.decode x | 4 => bf16.decode x | _ => f32.decode x

/-- An exact sum: a signed integer in units of 2^e, with the tag of its special products (R89). -/
structure DotSum where
  v : Int
  e : Int
  tag : Nat
  fl : Sticky

/-- Adds a product (R87, R89). -/
def DotSum.add (x : DotSum) (p : Fp × Bool) : DotSum :=
  match p.1 with
  | .fin n m e =>
    let e' := min x.e e
    { x with v := x.v * (2 ^ (x.e - e').toNat : Nat) + scaled n m e e', e := e', fl := x.fl.join { nv := p.2 } }
  | .inf n =>
    let (t, nv) := joinTag x.tag (if n then 2 else 1)
    { x with tag := t, fl := x.fl.join { nv := nv || p.2 } }
  | .nan _ => { x with tag := 3, fl := x.fl.join { nv := p.2 } }

/-- The exact dot product of two lists of entries (index, value) (R288). -/
def dotProduct (va vb : Nat) (a b : List (Nat × Nat)) (r : Rnd) : Nat × Sticky :=
  let s := a.foldl (fun (s : DotSum) (x : Nat × Nat) =>
    match b.find? fun y => y.1 = x.1 with
    | some y => s.add (mulFp (fibreValue va x.2) (fibreValue vb y.2))
    | none => { s with fl := s.fl.join { nfs := (fibreValue va x.2).special } }) ⟨0, 0, 0, {}⟩
  let nfs := b.any fun y => (fibreValue vb y.2).special && !(a.any fun x => x.1 = y.1)
  let fl := s.fl.join { nfs := nfs }
  match s.tag with
  | 0 =>
    if s.v = 0 then (f32.zero false, fl)
    else
      let (x, f) := f32.round r ⟨decide (s.v < 0), s.v.natAbs, s.e, false⟩
      (x, fl.join f)
  | 1 => (f32.inf false, fl)
  | 2 => (f32.inf true, fl)
  | _ => (f32.nan, fl)

/-- Indices rise strictly; one that was not read is not compared. -/
def rising : List (Option (BitVec 64)) → Bool
  | some x :: some y :: l => decide (x.toNat < y.toNat) && rising (some y :: l)
  | _ :: l => rising l
  | [] => true

/-- The remaining entries of a fibre that has been read whole. -/
def Fibre.entries (f : Fibre) : List (Nat × Nat) := f.ahead.map fun e => ((e.idx.getD 0).toNat, e.val.toNat)

/-- `fbdot` (R288). -/
def execFbdot (d a b : Fin 64) (s : State) : Host.Outcome State Fault Refusal := conclude s do
  useW s d 1
  let f := s.cpu.fibre a.val
  let g := s.cpu.fibre b.val
  needR (f.opn && g.opn) 0x81
  needR (decide (3 ≤ f.vt.val ∧ f.vt.val ≤ 5 ∧ 3 ≤ g.vt.val ∧ g.vt.val ≤ 5)) 0x83
  if !(f.allRead && g.allRead) then .error (.park (.dot a.val b.val))
  needR (rising (f.ahead.map (·.idx)) && rising (g.ahead.map (·.idx))) 0x84
  match (f.ahead ++ g.ahead).find? fun e => e.fault ≠ 0 with
  | some e => .ok (fibreFault s [a.val, b.val] e)
  | none =>
    let (x, fl) := dotProduct f.vt.val g.vt.val f.entries g.entries s.cpu.rnd
    .ok (((s.flag fl).onCpu fun c => (c.setFibre a.val { f with pos := f.len, ahead := [] }).setFibre b.val { g with pos := g.len, ahead := [] }).finishW 1 [] d
      (.plain (BitVec.ofNat 64 x)))

/-- FIBRE_READ_AHEAD: an open fibre reads its next entry, up to eight ahead, or all for a waiting `fbdot` (R287-R289); none from the stop cycle of its tenant on (R292). -/
def State.fibreAhead (s : State) (h slot n : Nat) : Option State :=
  let c := s.ctx h slot
  let f := c.fibre n
  let i := f.pos.toNat + f.ahead.length
  let dot := match c.run with | .parked (.dot a b) => a = n || b = n | _ => false
  if !f.opn || !f.started || s.stopped c.tenant || decide (i ≥ f.len.toNat) || (!dot && (decide (f.ahead.length ≥ 8) || f.ahead.any fun e => e.fault ≠ 0)) then none
  else
    let isz := if f.wide then 4 else 2
    let vsz := valueBytes f.vt.val
    let rd (cap : Wreg) : Reader := ⟨h, c.tenant, h, f.after, [], cap, false⟩
    let put (t : State) (e : Ahead) : Option State := some (t.setCtx h slot ((t.ctx h slot).setFibre n { f with ahead := f.ahead ++ [e] }))
    match (if f.dns then Except.ok (f.idx0.toNat + i, s) else (rd f.capI).word s false isz ((capAddr f.capI).toNat + isz * i)) with
    | .error (code, x) => if code = notYet then none else put s ⟨none, BitVec.ofNat 64 x, code⟩
    | .ok (idx, t) =>
      match (rd f.capV).word t false vsz ((capAddr f.capV).toNat + vsz * i) with
      | .error (code, x) => if code = notYet then none else put s ⟨some (BitVec.ofNat 64 idx), BitVec.ofNat 64 x, code⟩
      | .ok (v, t) => put t ⟨some (BitVec.ofNat 64 idx), BitVec.ofNat 64 v, 0⟩

/-- `FIBRE_READ_AHEAD`. -/
def execFibreReadAhead (h slot n : Nat) (s : State) : Host.Outcome State Fault Refusal := event s (s.fibreAhead h slot n)

end Sys2Proof.Machine
end

