-- ==== Sys2Proof/Machine/Routines.lean ====
section
/-! DEFINITION. What a Vat computes for one site: Philox uniforms (R319), the built-in routines (R320-R323) and custom routines (R325, R326), with the correctly rounded ln, square root and cos π that they use. -/

namespace Sys2Proof.Machine

/-! ### Uniforms (R319) -/

/-- One round of Philox4x32 under a key. -/
def philoxRound (c : BitVec 32 × BitVec 32 × BitVec 32 × BitVec 32) (k0 k1 : BitVec 32) : BitVec 32 × BitVec 32 × BitVec 32 × BitVec 32 :=
  let p0 := c.1.toNat * 0xD2511F53
  let p1 := c.2.2.1.toNat * 0xCD9E8D57
  (BitVec.ofNat 32 (p1 / 2 ^ 32) ^^^ c.2.1 ^^^ k0, BitVec.ofNat 32 p1, BitVec.ofNat 32 (p0 / 2 ^ 32) ^^^ c.2.2.2 ^^^ k1, BitVec.ofNat 32 p0)

/-- n rounds, the key advancing after each. -/
def philoxRounds : Nat → BitVec 32 × BitVec 32 × BitVec 32 × BitVec 32 → BitVec 32 → BitVec 32 → BitVec 32 × BitVec 32 × BitVec 32 × BitVec 32
  | 0, c, _, _ => c
  | n + 1, c, k0, k1 => philoxRounds n (philoxRound c k0 k1) (k0 + 0x9E3779B9) (k1 + 0xBB67AE85)

/-- Philox4x32-10 of a site, sweep and draw lane under a 64-bit key. -/
def philox (site sweep lane : Nat) (key : BitVec 64) : List Nat :=
  let r := philoxRounds 10 (BitVec.ofNat 32 site, BitVec.ofNat 32 sweep, BitVec.ofNat 32 lane, 0) (key.setWidth 32) ((key >>> 32).setWidth 32)
  [r.1.toNat, r.2.1.toNat, r.2.2.1.toNat, r.2.2.2.toNat]

/-! ### Correctly rounded functions -/

/-- Bits of the fixed-point numbers below (log 30). -/
def fixBits : Nat := 256

/-- atanh(1 / q) × 2^256 for z = p / q: the sum of z^(2i+1) / (2i+1), with z² applied as a quotient. `t` is z^(2i+1). -/
def atanhSum (pp qq : Nat) : Nat → Nat → Nat → Nat
  | 0, _, _ => 0
  | n + 1, i, t => t / (2 * i + 1) + atanhSum pp qq n (i + 1) (t * pp / qq)

/-- 2 atanh(p / q) × 2^256 = ln((q + p) / (q - p)) × 2^256. -/
def lnRatio (p q : Nat) : Nat := 2 * atanhSum (p * p) (q * q) 170 0 (p * 2 ^ fixBits / q)

/-- ln of a binary32 value in (0, 1], correctly rounded to binary32 (R323). -/
def lnUnit (x : Nat) : Nat :=
  match f32.decode x with
  | .fin _ m e =>
    if m = 0 then f32.inf true
    else
      let k := Nat.log2 m
      let le : Int := e + k
      -- m / 2^k lies in [1, 2)
      let v : Int := le * (lnRatio 1 3 : Nat) + (lnRatio (m - 2 ^ k) (m + 2 ^ k) : Nat)
      if m = 2 ^ k ∧ le = 0 then f32.zero false else (f32.round .rne ⟨decide (v < 0), v.natAbs, -(fixBits : Int), true⟩).1
  | _ => f32.nan

/-- Square root of a binary32 value, correctly rounded with RNE (R323). -/
def sqrtF32 (x : Nat) : Nat :=
  match f32.decode x with
  | .nan _ => f32.nan
  | .inf n => if n then f32.nan else f32.inf false
  | .fin n m e =>
    if m = 0 then f32.zero n
    else if n then f32.nan
    else
      let odd := decide (e % 2 ≠ 0)
      let m2 := (if odd then 2 * m else m) * 2 ^ 64
      let e2 := (if odd then e - 1 else e) - 64
      let r := isqrt m2
      (f32.round .rne ⟨false, r, e2 / 2, decide (r * r ≠ m2)⟩).1

/-- atan(1 / q) × 2^256, by its alternating series: `t` is 1 / q^(2i+1). -/
def atanSum (qq : Nat) : Nat → Nat → Nat → Int
  | 0, _, _ => 0
  | n + 1, i, t => (if i % 2 = 0 then ((t / (2 * i + 1) : Nat) : Int) else -((t / (2 * i + 1) : Nat) : Int)) + atanSum qq n (i + 1) (t / qq)

/-- π × 2^256, by Machin's formula. -/
def piFix : Nat := (16 * atanSum 25 120 0 (2 ^ fixBits / 5) - 4 * atanSum 57121 60 0 (2 ^ fixBits / 239)).toNat

/-- The series of cosine: y² and the term t are in units of 2^-256; i counts terms. -/
def cosSum (yy : Nat) : Nat → Nat → Nat → Int
  | 0, _, _ => 0
  | n + 1, i, t => (if i % 2 = 0 then (t : Int) else -(t : Int)) + cosSum yy n (i + 1) (t * yy / 2 ^ fixBits / ((2 * i + 1) * (2 * i + 2)))

/-- cos(π x) of a binary32 value in [0, 2], correctly rounded (R323). -/
def cospiF32 (x : Nat) : Nat :=
  match f32.decode x with
  | .fin _ m e =>
    -- a = x in units of 2^-b, folded to [0, 1/2] with a sign
    let b := (-e).toNat + 2
    let one := 2 ^ b
    let a := m * 2 ^ (e + b).toNat % (2 * one)
    let a := if a > one then 2 * one - a else a
    let neg := decide (2 * a > one)
    let a := if neg then one - a else a
    if 2 * a = one then f32.zero false
    else if a = 0 then (f32.round .rne ⟨neg, 1, 0, false⟩).1
    else
      let y := piFix * a / one
      let v := cosSum (y * y / 2 ^ fixBits) 60 0 (2 ^ fixBits)
      (f32.round .rne ⟨neg, v.natAbs, -(fixBits : Int), true⟩).1
  | _ => f32.nan

/-! ### Values -/

/-- What a field needs to know for an update: site type, K, slots, values of neighbours (none: absent), couplings and biases by slot or value, the site's own
value, β, draws by lane, and lanes. Values are binary32 bits, couplings and biases FP16 bits. -/
structure SiteIn where
  styp : Nat
  k    : Nat
  nb   : Nat
  nv   : Nat → Option Nat
  cp   : Nat → Nat
  bs   : Nat → Nat
  self : Nat
  beta : Nat
  draw : Nat → Nat → Nat

/-- An integer as binary32. -/
def f32OfInt (i : Int) : Nat := (f32.ofFin .rne (decide (i < 0)) i.natAbs 0).1

/-- An FP16 value as binary32. -/
def f32OfF16 (x : Nat) : Nat := (f32.convert .rne (f16.decode x)).1

/-- A stored site value as its routine reads it (R295). -/
def siteValue (styp k raw : Nat) : Nat :=
  match styp with
  | 0 => f32OfInt (if raw = 0 then 0 else 1)
  | 1 => f32OfInt ((Nat.min raw (k - 1) : Nat))
  | _ => f32OfF16 raw

/-- A binary32 value as FP16, saturated (R323, R326). -/
def saturateF16 (x : Nat) : Nat :=
  let (y, _) := f16.convert .rne (f32.decode x)
  if y % 2 ^ 15 ≥ 0x7C00 then y / 2 ^ 15 * 2 ^ 15 + 0x7BFF else y

/-- An exact sum rounded once to binary32 (R320). -/
def DotSum.toF32 (s : DotSum) : Nat :=
  match s.tag with
  | 0 => if s.v = 0 then f32.zero false else (f32.round .rne ⟨decide (s.v < 0), s.v.natAbs, s.e, false⟩).1
  | 1 => f32.inf false
  | 2 => f32.inf true
  | _ => f32.nan

/-- The empty sum. -/
def DotSum.zero : DotSum := ⟨0, 0, 0, {}⟩

/-- h + Σ J(i, k) × v_k over the present slots that satisfy a test, rounded once (R320). `one` multiplies couplings by 1 instead of the value. -/
def SiteIn.localField (x : SiteIn) (h : Nat) (sel : Nat → Bool) (one : Bool) : Nat :=
  ((List.range x.nb).foldl (fun (s : DotSum) k =>
    match x.nv k with
    | some v => if sel v then s.add (if one then (f16.decode (x.cp k), false) else mulFp (f16.decode (x.cp k)) (f32.decode v)) else s
    | none => s) (DotSum.zero.add (f16.decode h, false))).toF32

/-- A binary32 value is a NaN. -/
def isNanF32 (x : Nat) : Bool := (f32.decode x).isNan

/-- A finite binary32 value in units of 2^-149. -/
def units149 (x : Nat) : Int := match f32.decode x with | .fin n m e => scaled n m e (-149) | _ => 0

/-- U × (1 + x) < 2^32 for a finite x, exactly. -/
def drawBelow (u x : Nat) : Bool := decide ((u : Int) * (2 ^ 149 + units149 x) < 2 ^ 181)

/-- What an update does to its site: leave it and count in NFC, leave it, or write it. -/
inductive SiteOut where
  | nonFinite
  | leave
  | write (v : Nat)
deriving DecidableEq, Repr

/-- Binary logistic (R321). -/
def SiteIn.logistic (x : SiteIn) : SiteOut :=
  let e := x.localField (x.bs 0) (fun _ => true) false
  let a := (f32.mul .rne x.beta e).1
  let t := (f32.exp2 .rne (if isNanF32 a then a else Nat.xor a (2 ^ 31))).1
  if isNanF32 a then .nonFinite
  else if t = f32.inf false then .write 0
  else .write (if drawBelow (x.draw 0 0) t then 1 else 0)

/-- Potts (R322). -/
def SiteIn.potts (x : SiteIn) : SiteOut :=
  let a := (List.range x.k).map fun s => (f32.mul .rne x.beta (x.localField (x.bs s) (fun v => v = f32OfInt s) true)).1
  let amax := a.foldl (fun m y => (f32.minmax true m y).1) (a.headD 0)
  if a.any isNanF32 || amax = f32.inf true || amax = f32.inf false then .nonFinite
  else
    let w := a.map fun y => (units149 (f32.exp2 .rne (f32.sub .rne y amax).1).1).toNat
    let total := w.foldl (· + ·) 0
    let u := x.draw 0 0
    let cum (s : Nat) : Nat := (w.take (s + 1)).foldl (· + ·) 0
    .write (((List.range x.k).find? fun s => decide (u * total < 2 ^ 32 * cum s)).getD (x.k - 1))

/-- Gaussian linear (R323). -/
def SiteIn.gaussian (x : SiteIn) : SiteOut :=
  let m := x.localField (x.bs 0) (fun _ => true) false
  let pos := match f32.decode x.beta with | .fin n k _ => !n && decide (k ≠ 0) | _ => false
  if (f32.decode m).special || !pos then .nonFinite
  else
    let sd := (f32.rsq .rne x.beta).1
    let u := (f32.round .rne ⟨false, x.draw 0 0 + 1, -32, false⟩).1
    let q := sqrtF32 (f32.mul .rne (f32OfInt (-2)) (lnUnit u)).1
    let c := cospiF32 (f32.ofFin .rne false (x.draw 0 1) (-31)).1
    .write (saturateF16 (f32.add .rne m (f32.mul .rne (f32.mul .rne q c).1 sd).1).1)

/-! ### Custom routines (R325, R326) -/

/-- A routine as it runs: registers, accumulator, output. -/
structure RState where
  e   : List Nat
  acc : DotSum
  out : Option Nat

/-- ±0 in binary32. -/
def isZeroF32 (x : Nat) : Bool := decide (x % 2 ^ 31 = 0)

/-- U × (1 + eA) < 2^32 of `fbern`. -/
def bern (u a : Nat) : Bool :=
  match f32.decode a with
  | .nan _ => false
  | .inf n => n && (decide (u ≠ 0) || Config.bernEdge)
  | .fin .. => drawBelow u a

/-- What a routine word writes to its register, if it does (R325). -/
def SiteIn.word (x : SiteIn) (k : KWord) (r : RState) : Option Nat :=
  let a := r.e.getD k.a 0
  let b := r.e.getD k.b 0
  let i := k.imm.toNat
  let u := x.draw (i / 4 % 4) (i % 4)
  let one := f32OfInt 1
  match k.op with
  | 1 => some (if i < x.nb then (x.nv i).getD 0 else 0)
  | 2 => some (if i < x.nb then f32OfF16 (x.cp i) else 0)
  | 3 => some (if i = 0 ∨ (x.styp = 1 ∧ i < x.k) then f32OfF16 (x.bs i) else 0)
  | 4 => some x.self
  | 5 => some x.beta
  | 6 => some (f32OfInt k.imm)
  | 7 => some (f32.add .rne a b).1
  | 8 => some (f32.sub .rne a b).1
  | 9 => some (f32.mul .rne a b).1
  | 10 => some (f32.minmax true a b).1
  | 11 => some (f32.exp2 .rne a).1
  | 12 => some (if (f32.compare .lt a b).1 then one else 0)
  | 13 => some (if (f32.compare .eq a b).1 then one else 0)
  | 14 => some (if isZeroF32 (r.e.getD k.d 0) then b else a)
  | 16 => some r.acc.toF32
  | 17 => some (f32.ofFin .rtz false u (-32)).1
  | 18 => some (if bern u a then one else 0)
  | _ => none

/-- Runs a routine from word `pc` on (R326). -/
def SiteIn.routine (x : SiteIn) (code : List (BitVec 32)) : Nat → Nat → RState → RState
  | 0, _, r => r
  | fuel + 1, pc, r =>
    match code[pc]? with
    | none => r
    | some w =>
      let k := kword w
      let a := r.e.getD k.a 0
      match k.op with
      | 0 => r
      | 15 => x.routine code fuel (pc + 1) { r with acc := r.acc.add (mulFp (f32.decode a) (f32.decode (r.e.getD k.b 0))) }
      | 19 => x.routine code fuel (pc + 1 + (if isZeroF32 a then k.imm.toNat else 0)) r
      | 20 => x.routine code fuel (pc + 1) { r with out := some a }
      | _ =>
        let r' := match x.word k r with | some v => { r with e := listSet r.e k.d v } | none => r
        x.routine code fuel (pc + 1) (if k.op = 16 then { r' with acc := .zero } else r')

/-- floor of a binary32 value, clamped to 0 - K-1 (R326). -/
def clampFloor (k x : Nat) : Nat :=
  match f32.decode x with
  | .nan _ => 0
  | .inf n => if n then 0 else k - 1
  | .fin n m e =>
    let v : Int := (floorScaled (if n then -(m : Int) else m) e).1
    if v < 0 then 0 else Nat.min v.toNat (k - 1)

/-- A custom update (R326). -/
def SiteIn.custom (x : SiteIn) (code : List (BitVec 32)) : SiteOut :=
  match (x.routine code 64 0 ⟨List.replicate 8 0, .zero, none⟩).out with
  | none => .leave
  | some v =>
    if isNanF32 v then .nonFinite
    else .write (match x.styp with
      | 0 => if isZeroF32 v then 0 else 1
      | 1 => clampFloor x.k v
      | _ => saturateF16 v)

/-- A routine word passes the check of `fdecl` (R326): `ndl` draw lanes. -/
def routineWordOk (ndl : Nat) (w : BitVec 32) : Bool :=
  let k := kword w
  let d0 := decide (k.d = 0)
  let a0 := decide (k.a = 0)
  let b0 := decide (k.b = 0)
  let i0 := decide (k.imm = 0)
  let within (n : Int) : Bool := decide (0 ≤ k.imm ∧ k.imm ≤ n)
  let lane := decide (k.imm.toNat / 4 % 4 < ndl)
  match k.op with
  | 0 => d0 && a0 && b0 && i0
  | 1 | 2 => a0 && b0 && within 63
  | 3 => a0 && b0 && within 255
  | 4 | 5 | 16 => a0 && b0 && i0
  | 6 => a0 && b0
  | 7 | 8 | 9 | 10 | 12 | 13 | 14 => i0
  | 11 => b0 && i0
  | 15 => d0 && i0
  | 17 => a0 && b0 && within 15 && lane
  | 18 => b0 && within 15 && lane
  | 19 => d0 && b0 && decide (1 ≤ k.imm ∧ k.imm ≤ 63)
  | 20 => d0 && b0 && i0
  | _ => false

end Sys2Proof.Machine
end

