-- ==== Sys2Proof/Machine/Vat.lean ====
section
/-! DEFINITION. The Vat: descriptors and arrays (R315-R318), the field instructions at issue and at the phase master (R327-R335), site updates (R299, R300), boundaries (R303), furnish entries (R308), pulls (R306, R307), conflicts and the end of a field (R310, R311). -/

namespace Sys2Proof.Machine

/-! ### Requests that an engine answers (R327, R383, R400) -/

/-- A request enters the path of its engine. -/
def enterRequest (eng : Nat) (s : State) (c : Cmd) : State := { s with requests := s.requests ++ [(eng, { c with after := s.packetN })] }

/-- Sends a request to an engine behind the older stores, and parks until it is answered (R37, R103, R327). -/
def State.ask (s : State) (eng : Fin 9) (op : CmdOp) (d : Fin 64) (regs : List Wreg) (uses : List Nat) (giveUp : Bool) : State :=
  let (seq, t) := s.takeSeq eng
  let c := { s.capture op seq regs [] with d := d }
  (t.onCpu fun x => { x with answer := some (eng.val, uses), run := .parked (if giveUp then .ask eng.val else .answer eng.val) }).command eng.val c (enterRequest eng.val)

/-- What an engine answers: a value for w[d] (none where the instruction writes none), a precise trap, or nothing yet. -/
inductive Reply where
  | value (x : Option Wreg) (s : State)
  | trapped (code opnd info : Nat) (s : State)
  | later

/-- A refusal: cause 0x12 with its reason. -/
def Reply.refusal (reason : Nat) (s : State) : Reply := .trapped 0x12 0 reason s

/-! ### Descriptors (R315, R316) -/

/-- The parameters of a descriptor. -/
structure Desc where
  x : BitVec 2048

/-- Address of capability granule n. -/
def Desc.cap (d : Desc) (n : Nat) : Nat := bits d.x (128 * n) 64
def Desc.ns (d : Desc) : Nat := bits d.x 1024 32 + 1
def Desc.styp (d : Desc) : Nat := bits d.x 1056 2
def Desc.km (d : Desc) : Nat := bits d.x 1058 8
def Desc.k (d : Desc) : Nat := d.km + 1
def Desc.dims (d : Desc) : Nat := bits d.x 1066 2
def Desc.per (d : Desc) (a : Nat) : Bool := bit d.x (1068 + a)
def Desc.noff (d : Desc) : Nat := bits d.x 1071 5
def Desc.deg (d : Desc) : Nat := bits d.x 1076 7
def Desc.cps (d : Desc) : Bool := bit d.x 1083
def Desc.c (d : Desc) : Nat := bits d.x 1084 4 + 1
def Desc.size (d : Desc) (a : Nat) : Nat := bits d.x (1088 + 16 * a) 16 + 1
def Desc.crule (d : Desc) : Nat := bits d.x 1136 2
def Desc.rout (d : Desc) : Nat := bits d.x 1138 2
def Desc.ninsm (d : Desc) : Nat := bits d.x 1140 6
def Desc.usrc (d : Desc) : Bool := bit d.x 1146
def Desc.ndl (d : Desc) : Nat := bits d.x 1147 2 + 1
def Desc.key (d : Desc) : BitVec 64 := (d.x >>> 1152).setWidth 64
def Desc.beta (d : Desc) : BitVec 32 := (d.x >>> 1216).setWidth 32
def Desc.rpln (d : Desc) : Nat := bits d.x 1248 32 + 1
/-- Component a of stencil offset k. -/
def Desc.off (d : Desc) (k a : Nat) : Int := signedOf 3 (bits d.x (1280 + 9 * k + 3 * a) 3)
/-- Neighbour slots: NB. -/
def Desc.nb (d : Desc) : Nat := if d.dims = 0 then d.deg else d.noff
/-- Bytes of a site. -/
def Desc.siteBytes (d : Desc) : Nat := if d.styp = 2 then 2 else 1
/-- Lines of the site array. -/
def Desc.lines (d : Desc) : Nat := ceilDiv (d.ns * d.siteBytes) 128

/-- The arrays that a field uses: granule, permissions, length and alignment (R315, R318). -/
def Desc.arrays (d : Desc) : List (Nat × Nat × Nat × Nat) :=
  [(0, permL + permS + permE, d.lines * 128, 128),
   (1, permL + permS + permE, 2 * (if d.cps then d.nb else d.nb * d.ns), 2),
   (2, permL + permS + permE, 2 * (if d.styp = 1 then d.k * d.ns else d.ns), 2)]
  ++ (if d.dims = 0 then [(3, permL + permE, 4 * d.deg * d.ns, 4)] else [])
  ++ (if d.crule = 2 then [(4, permL + permE, (d.ns + 1) / 2, 1)] else [])
  ++ (if d.rout = 3 then [(5, permL + permE, 4 * (d.ninsm + 1), 4)] else [])
  ++ (if d.usrc then [(6, permL + permE, 16 * d.rpln, 16)] else [])

/-- A descriptor that R316 admits. `base` is its own address. -/
def Desc.ok (d : Desc) (base : Nat) : Bool :=
  let b3 := d.dims
  let arrs := (base, 256) :: d.arrays.map fun (g, _, n, _) => (d.cap g, n)
  decide (bits d.x 1149 3 = 0 ∧ bits d.x 1514 534 = 0 ∧ d.styp ≠ 3 ∧ d.crule ≠ 3)
  && decide ((d.km = 0) ↔ (d.styp ≠ 1))
  && decide (d.dims ≠ 0 ∨ (d.noff = 0 ∧ d.deg ≠ 0 ∧ d.crule = 2))
  && decide (d.dims = 0 ∨ (d.deg = 0 ∧ d.noff ≠ 0 ∧ d.size 0 * d.size 1 * d.size 2 = d.ns))
  && decide (d.noff ≤ 26 ∧ d.deg ≤ 64)
  && decide (d.rout = 3 ∨ (d.ninsm = 0 ∧ d.ndl = 1 ∧ d.styp = d.rout))
  && ((List.range 3).all fun a => decide (a < b3) || (decide (d.size a = 1) && !d.per a && (List.range 26).all fun k => decide (d.off k a = 0)))
  && ((List.range 26).all fun k => decide (k < d.noff) || decide (bits d.x (1280 + 9 * k) 9 = 0))
  && decide (d.crule ≠ 0 ∨ d.c = 2) && decide (d.crule ≠ 1 ∨ d.c = 2 ^ d.dims)
  && !(f32.decode d.beta.toNat).special
  && (d.usrc || decide (d.rpln = 1))
  && ((List.range arrs.length).all fun i => (List.range i).all fun j =>
      let p := arrs.getD i (0, 0)
      let q := arrs.getD j (0, 0)
      !(decide (p.1 < q.1 + q.2 ∧ q.1 < p.1 + p.2)))

/-! ### What a field's Vats read -/

/-- A field's descriptor. -/
def Field.d (f : Field) : Desc := ⟨f.parms⟩

/-- Physical address of a byte of a field's arrays. -/
def Field.phys (f : Field) (va : Nat) : Nat :=
  match f.map.find? fun p => p.1 = va / 65536 with
  | some p => p.2 * 65536 + va % 65536
  | none => va % 65536

/-- A number of n bytes of an array. -/
def State.fieldRead (s : State) (f : Field) (va n : Nat) : Nat := s.mem.read 0 (f.phys va) n

/-- Address of a site. -/
def Field.siteVa (f : Field) (i : Nat) : Nat := f.d.cap 0 + i * f.d.siteBytes

/-- The line of the site array that holds a site. -/
def Field.siteLine (f : Field) (i : Nat) : Nat := i * f.d.siteBytes / 128

/-- The site in neighbour slot k, none where absent (R317). -/
def State.neighbour (s : State) (f : Field) (i k : Nat) : Option Nat :=
  let d := f.d
  if d.dims = 0 then
    let e := s.fieldRead f (d.cap 3 + 4 * (d.deg * i + k)) 4
    if e < d.ns then some e else none
  else
    let nx := d.size 0
    let ny := d.size 1
    let nz := d.size 2
    let axis (x n a : Nat) : Option Nat :=
      let y := (x : Int) + d.off k a
      if d.per a then some (y % (n : Int)).toNat else if 0 ≤ y ∧ y < n then some y.toNat else none
    match axis (i % nx) nx 0, axis (i / nx % ny) ny 1, axis (i / (nx * ny)) nz 2 with
    | some x, some y, some z => some (x + nx * (y + ny * z))
    | _, _, _ => none

/-- The colour of a site, as the rule or the array gives it (R317). -/
def State.colour (s : State) (f : Field) (i : Nat) : Nat :=
  let d := f.d
  let x := i % d.size 0
  let y := i / d.size 0 % d.size 1
  let z := i / (d.size 0 * d.size 1)
  match d.crule with
  | 0 => (x + y + z) % 2
  | 1 => x % 2 + 2 * (y % 2) + 4 * (z % 2)
  | _ => s.fieldRead f (d.cap 4 + i / 2) 1 / 16 ^ (i % 2) % 16

/-- The phase in which a site is met: that of its colour, or phase 0 for a colour of C or more (R317). -/
def State.phaseOf (s : State) (f : Field) (i : Nat) : Nat := let c := s.colour f i; if c < f.d.c then c else 0

/-- The Vat that updates a site (R297). -/
def State.vatOf (s : State) (f : Field) (i : Nat) : Nat := s.homeSlice (f.phys (f.siteVa i))

/-- The phase master: the Vat of the slice that holds the descriptor's first line (R297). -/
def State.masterOf (s : State) (f : Field) : Nat := s.homeSlice f.desc

/-- The Vats of a field (R297). -/
def State.vatsOf (s : State) (f : Field) : List Nat :=
  (List.range 256).filter fun v => v = s.masterOf f || (List.range f.d.lines).any fun l => s.homeSlice (f.phys (f.d.cap 0 + 128 * l)) = v

/-- Sweep and colour of the phase after a boundary (R300). -/
def Field.sweep (f : Field) : Nat := f.bound / f.d.c
/-- The colour of that phase. -/
def Field.phase (f : Field) : Nat := f.bound % f.d.c
/-- Number of boundaries that can be published (R302). -/
def Field.lastBound (f : Field) : Nat := 2 ^ 32 * f.d.c - 1

/-- Draws of site i in the present sweep (R319). -/
def State.draws (s : State) (f : Field) (i lane : Nat) : List Nat :=
  if f.d.usrc then
    let e := ((f.sweep * f.d.ns + i) * f.d.ndl + lane) % f.d.rpln
    (List.range 4).map fun j => s.fieldRead f (f.d.cap 6 + 16 * e + 4 * j) 4
  else philox i f.sweep lane f.d.key

/-- What the routine of site i reads (R299). -/
def State.siteIn (s : State) (f : Field) (i : Nat) : SiteIn :=
  let d := f.d
  let val (j : Nat) : Nat := siteValue d.styp d.k (s.fieldRead f (f.siteVa j) d.siteBytes)
  { styp := d.styp
    k := d.k
    nb := d.nb
    nv := fun k => (s.neighbour f i k).map val
    cp := fun k => s.fieldRead f (d.cap 1 + 2 * (if d.cps then k else d.nb * i + k)) 2
    bs := fun v => s.fieldRead f (d.cap 2 + 2 * (if d.styp = 1 then d.k * i + v else i)) 2
    self := val i
    beta := f.beta.toNat
    draw := fun lane j => (s.draws f i lane).getD j 0 }

/-- The update of a site by the field's routine (R299). -/
def State.updateOf (s : State) (f : Field) (i : Nat) : SiteOut :=
  let x := s.siteIn f i
  match f.d.rout with
  | 0 => x.logistic
  | 1 => x.potts
  | 2 => x.gaussian
  | _ => x.custom f.code

/-! ### Fields in the state -/

/-- A live field by number. -/
def State.field (s : State) (n : Nat) : Option Field := s.fields.find? fun f => f.num = n

/-- Replaces a field. -/
def State.setField (s : State) (f : Field) : State := { s with fields := s.fields.map fun g => if g.num = f.num then f else g }

/-- Posts a message of the Vat to the owner (R310). -/
def State.tellOwner (s : State) (f : Field) (typ cause info : Nat) : State := s.post f.owner f.ogen (message typ 5 cause 0 0 0 0 info)

/-- A pull ends with a fault message, and is dropped (R306, R307). -/
def State.failPull (s : State) (p : Pull) (cause reason pos info : Nat) : State := s.report p.cmd 5 1 cause reason 0 pos info

/-- A waiting `fwait` on a field that ends gets its status: 0 (`prog` 0) for a boundary that has been published, 1 for a later one (R303, R305, R311). -/
def Cmd.waited (c : Cmd) (f : Field) : Cmd :=
  if c.op = .fwait ∧ !c.taken ∧ (c.regs.getLastD .zero).lo.toNat = f.desc ∧ (f.tenant = c.tenant ∨ c.prv) then
    { c with taken := true, prog := if (c.reg 1).lo.toNat ≤ f.bound then 0 else 1 }
  else c

/-- Ends the field once it has ended and its pulls are done: its pages and number are free, its `fstop` completes, and every `fwait` that still waits has its status
(R311, R330). While a message of the Vat waits for the issuer's mailbox it waits, and its phase master ends it at a later step (R260). -/
def State.freeField (s : State) (f : Field) : State :=
  match f.stopBy with
  | some c =>
    if f.ended && f.pulls.isEmpty && s.canPost c 5 then
      let s := { s with
        fields := s.fields.filter fun g => g.num ≠ f.num
        requests := s.requests.map fun (x : Nat × Cmd) => (x.1, x.2.waited f) }
      s.report c 5 0 0 0 1 (f.bound / 2 ^ 32 % 16) (f.bound % 2 ^ 32 + f.discarded % 2 ^ 32 * 2 ^ 32)
    else s
  | none => s

/-- The field ends at its last boundary (R311). -/
def State.endField (s : State) (f : Field) : State :=
  let (now, never) := f.pulls.partition fun (p : Pull) => decide (p.bound ≤ f.bound)
  let s := never.foldl (fun (s : State) (p : Pull) => s.failPull p 0x12 0x9E 0 p.bound) s
  let f : Field := { f with ended := true, started := false, saved := none, mode := .hold, furnish := [], discarded := f.discarded + f.furnish.length, pulls := now.map fun (p : Pull) => { p with live := true } }
  (s.setField f).freeField f

/-! ### Pulls (R306, R307) -/

/-- Copies a line of the site array into a pull's destination: the state, or the fault there. -/
def State.copyPullLine (s : State) (f : Field) (p : Pull) (l : Nat) : Except (Nat × Nat) State := do
  let x := (capAddr p.dest).toNat + 128 * (l - p.first)
  let src := f.phys (f.d.cap 0 + 128 * l)
  let (pl, t) ← s.engAccess p.cmd.h p.cmd.tenant p.dest x .wr false
  let w : WriteOp := ⟨pl.pa, pl.swz, 128, BitVec.ofNat 1024 (s.mem.read 0 src 128), ones 128 128, false, true⟩
  if t.writeReady p.cmd.h p.cmd.h p.cmd.after w then .ok (t.engineWrite p.cmd.h w) else .error (notYet, x)

/-- Copies a line for the k-th pull of a field, where it is live and lacks the line; a fault at the destination ends the pull (R307). `none` while the line cannot be written. -/
def State.pullLine (s : State) (f : Field) (k l : Nat) : Option (State × Field) :=
  match f.pulls[k]? with
  | none => some (s, f)
  | some p =>
    if !p.live || decide (l < p.first ∨ l ≥ p.first + p.count) || p.lines.contains l then some (s, f)
    else match s.copyPullLine f p l with
      | .ok t => some (t, { f with pulls := listSet f.pulls k { p with lines := p.lines ++ [l] } })
      | .error (code, x) =>
        if code = notYet || !s.canPost p.cmd 5 then none
        else some (s.failPull p code 0 (p.lines.length % 65536) x, { f with pulls := listDrop f.pulls k })

/-- Copies a line for every pull that needs it, before it is written (R307). -/
def State.copyBefore (s : State) (f : Field) (l : Nat) : Nat → Option (State × Field)
  | 0 => some (s, f)
  | k + 1 =>
    match s.pullLine f k l with
    | some (s, f) => s.copyBefore f l k
    | none => none

/-- PULL_BACKGROUND_COPY: a Vat copies a line of a live pull (R307); not while a stop of its tenant holds the field (R313). -/
def State.pullCopy (s : State) (n k l : Nat) : Option State :=
  match s.field n with
  | none => none
  | some f =>
    match f.pulls[k]? with
    | none => none
    | some p =>
      if (s.stopped f.tenant && !f.started) || !p.live || decide (l < p.first ∨ l ≥ p.first + p.count) || p.lines.contains l then none
      else (s.pullLine f k l).map fun (t, f) => (t.setField f).freeField f

/-- `PULL_BACKGROUND_COPY`. -/
def execPullBackgroundCopy (f k line : Nat) (s : State) : Host.Outcome State Fault Refusal := event s (s.pullCopy f k line)

/-- PULL_COMPLETE: a pull whose every line is applied posts its completion (R307, R333). -/
def State.pullDone (s : State) (n k : Nat) : Option State :=
  match s.field n with
  | none => none
  | some f =>
    match f.pulls[k]? with
    | none => none
    | some p =>
      if !p.live || decide (p.lines.length < p.count) || !s.canPost p.cmd 5 then none
      else
        let f := { f with pulls := listDrop f.pulls k }
        some (((s.report p.cmd 5 0 0 0 1 0 p.bound).setField f).freeField f)

/-- `PULL_COMPLETE`. -/
def execPullComplete (f k : Nat) (s : State) : Host.Outcome State Fault Refusal := event s (s.pullDone f k)

/-! ### Phases (R299-R303) -/

/-- SITE_UPDATE: the Vat of a site that has received the boundary updates it, once in the phase of its colour; a neighbour of the same colour skips it and is
reported; lines that a pull still needs are copied first (R299, R300, R307, R310). -/
def State.siteUpdate (s : State) (n i : Nat) : Option State :=
  match s.field n with
  | none => none
  | some f =>
    let v := s.vatOf f i
    if !f.started || decide (i ≥ f.d.ns) || !f.received.contains v || f.reports.contains v || f.sites.contains i || decide (s.phaseOf f i ≠ f.phase) then none
    else
      let conflict := decide (s.colour f i ≥ f.d.c) || (List.range f.d.nb).any fun k =>
        match s.neighbour f i k with
        | some j => decide (j = i) || decide (s.colour f j = f.phase)
        | none => false
      let f := { f with sites := f.sites ++ [i] }
      if conflict then some (s.setField { f with conflict := some (Nat.min i (f.conflict.getD i)) })
      else match s.updateOf f i with
        | .nonFinite => some (s.setField { f with nfc := Nat.min (f.nfc + 1) (2 ^ 32 - 1) })
        | .leave => some (s.setField f)
        | .write x =>
          let b := f.d.siteBytes
          (s.copyBefore f (f.siteLine i) f.pulls.length).map fun (t, f) =>
            (t.ownWrite 0 ⟨f.phys (f.siteVa i), 0, b, BitVec.ofNat 1024 x, ones 128 b, false, false⟩).setField f

/-- `SITE_UPDATE`. -/
def execSiteUpdate (f site : Nat) (s : State) : Host.Outcome State Fault Refusal := event s (s.siteUpdate f site)

/-- PHASE_REPORT: a Vat reports once every one of its sites of the phase is done (R303). -/
def State.phaseReport (s : State) (n v : Nat) : Option State :=
  match s.field n with
  | none => none
  | some f =>
    let mine := (List.range f.d.ns).filter fun i => decide (s.vatOf f i = v) && decide (s.phaseOf f i = f.phase)
    if f.started && f.received.contains v && !f.reports.contains v && mine.all f.sites.contains then some (s.setField { f with reports := f.reports ++ [v] })
    else none

/-- `PHASE_REPORT`. -/
def execPhaseReport (f vat : Nat) (s : State) : Host.Outcome State Fault Refusal := event s (s.phaseReport f vat)

/-- BOUNDARY_RECEIVE: a Vat receives the published boundary whose phase starts (R303). -/
def State.boundaryReceive (s : State) (n v : Nat) : Option State :=
  match s.field n with
  | none => none
  | some f => if f.started && (s.vatsOf f).contains v && !f.received.contains v then some (s.setField { f with received := f.received ++ [v] }) else none

/-- `BOUNDARY_RECEIVE`. -/
def execBoundaryReceive (f vat : Nat) (s : State) : Host.Outcome State Fault Refusal := event s (s.boundaryReceive f vat)

/-- Starts the phase after the last published boundary; nothing that a stop has saved is left to be put back (R313). -/
def Field.start (f : Field) : Field := { f with started := true, saved := none, sites := [], reports := [], received := [] }

/-- Applies a furnish entry: its values are written into the arrays, and β and the mode change (R303, R308, R331). -/
def State.applyFurnish (s : State) (f : Field) (e : Furnish) : State × Field :=
  let t := e.vals.foldl (fun s (p, v) =>
    s.ownWrite 0 ⟨f.phys (f.d.cap (if e.bias then 2 else 1) + 2 * p), 0, 2, v.setWidth 1024, ones 128 2, false, false⟩) s
  let f := { f with beta := e.beta.getD f.beta }
  (t, match e.mode with
    | some .run => { f with mode := .run, steps := 0 }
    | some m => { f with mode := m }
    | none => f)

/-- Applies entries in queue order. -/
def State.applyFurnishes (s : State) (f : Field) (l : List Furnish) : State × Field :=
  l.foldl (fun (x : State × Field) e => x.1.applyFurnish x.2 e) (s, f)

/-- A synchronized stop takes the tenant's fields into hold (R313, R379). -/
def State.stopping (s : State) (t : Nat) : Bool := s.stopped t

/-- BOUNDARY_PUBLISH: the phase master moves the field past the boundary after a phase that every Vat has reported (R303), or completes the end of one that has ended. Where it is
to tell the owner, it waits while an earlier message of the Vat waits for that mailbox (R260). -/
def State.publish (s : State) (n : Nat) : Option State :=
  match s.field n with
  | none => none
  | some f =>
    if f.ended then (if f.pulls.isEmpty && (match f.stopBy with | some c => s.canPost c 5 | none => false) then some (s.freeField f) else none)
    else if !f.started || !((s.vatsOf f).all f.reports.contains) then none
    else if (f.conflict.isSome || decide (f.bound = f.lastBound)) && !s.mayPost f.owner f.ogen 5 then none
    else if f.bound = f.lastBound then
      -- the end of the sweep counter (R302)
      let f : Field := { f with mode := if f.conflict.isSome then .faulted else .hold, started := false, spent := true }
      let s : State := match f.conflict with | some i => s.tellOwner f 1 0x11 i | none => s
      let s := s.tellOwner f 3 0 (f.bound + f.num * 2 ^ 36)
      some (if f.stopBy.isSome then s.endField f else s.setField f)
    else
      let b := f.bound + 1
      let (now, after) := f.furnish.partition fun (e : Furnish) => decide (e.bound = b)
      let r := s.applyFurnishes { f with furnish := after } now
      let s : State := r.1
      let f : Field := r.2
      let f : Field := { f with bound := b, started := false, mode := if f.conflict.isSome then .faulted else f.mode }
      let s : State := match f.conflict with | some i => s.tellOwner f 1 0x11 i | none => s
      let f : Field := { f with conflict := none, pulls := f.pulls.map fun (p : Pull) => if p.bound = b then { p with live := true } else p }
      if f.stopBy.isSome then some (s.endField f)
      else
        let (kept, never) := if f.mode = .faulted then f.pulls.partition fun (p : Pull) => decide (p.bound ≤ b) else (f.pulls, [])
        let s := never.foldl (fun (s : State) (p : Pull) => s.failPull p 0x11 0 0 p.bound) s
        let f : Field := { f with pulls := kept }
        let f := if f.mode = .step then (if f.steps ≤ 1 then { f with steps := 0, mode := .hold } else { f with steps := f.steps - 1 }) else f
        let f := if s.stopping f.tenant ∧ (f.mode = .run ∨ f.mode = .step) then { f with saved := some (f.mode, f.steps), mode := .hold } else f
        some (s.setField (if f.mode = .run ∨ f.mode = .step then f.start else { f with sites := [], reports := [], received := [] }))

/-- `BOUNDARY_PUBLISH`. -/
def execBoundaryPublish (f : Nat) (s : State) : Host.Outcome State Fault Refusal := event s (s.publish f)

/-! ### Instructions at issue (R327) -/

/-- Translates a descriptor, and claims its page where it lies on this device: its physical address (R327). -/
def descAt (s : State) (c : Wreg) : Except Stop (Nat × State) := do
  let x := capAddr c
  let p ← place s c 2 x .rd false
  need (decide (regionOf p.pa ≠ .config)) 0x09 2 x
  if devOf p.pa ≠ s.dev then .ok (p.pa, s)
  else
    let t ← claimAt s p 2 x
    .ok (p.pa, t)

/-- Issues a Vat instruction, with every capability check before the descriptor's translation (R63, R327): captured registers are the descriptor, those of b, w[d] where it is
an operand, and the descriptor's physical address. -/
def vatOp (op : CmdOp) (perm : Nat) (d a : Fin 64) (bs : List (Fin 64)) (dIn giveUp : Bool) (check : List Wreg → Except Stop Unit) (s : State) : Except Stop State := do
  let w ← (if dIn then readW s d 1 else .ok .zero)
  useW s d 1
  let c ← readW s a 2
  let l ← bs.mapM fun b => readW s b 3
  checkKind0 c 2 (capAddr c) perm
  checkRange c 2 (capAddr c) 256 256
  check l
  let (pa, t) ← descAt s c
  let uses := (if dIn then [d.val] else []) ++ [a.val] ++ bs.map (·.val)
  .ok (t.ask 5 op d ([c] ++ l ++ [w, .plain (BitVec.ofNat 64 pa)]) uses giveUp)

/-- No more checks at issue. -/
def noCheck (_ : List Wreg) : Except Stop Unit := .ok ()

/-- `fdecl` (R328). -/
def execFdecl (d a : Fin 64) (s : State) : Host.Outcome State Fault Refusal :=
  conclude s (vatOp .fdecl (permL + permF + permLC) d a [] false false noCheck s)
/-- `fstart` (R329). -/
def execFstart (d a : Fin 64) (s : State) : Host.Outcome State Fault Refusal := conclude s (vatOp .fstart (permL + permF) d a [] false false noCheck s)
/-- `fstop` (R330). -/
def execFstop (a : Fin 64) (s : State) : Host.Outcome State Fault Refusal := conclude s (vatOp .fstop (permL + permF) 0 a [] false false noCheck s)
/-- `fstep` (R329). -/
def execFstep (d a b : Fin 64) (s : State) : Host.Outcome State Fault Refusal := conclude s (vatOp .fstep (permL + permF) d a [b] false false noCheck s)
/-- `fctl` (R331). -/
def execFctl (d a b : Fin 64) (s : State) : Host.Outcome State Fault Refusal := conclude s (vatOp .fctl (permL + permF) d a [b] true false noCheck s)
/-- `fq` (R334). -/
def execFq (d a : Fin 64) (s : State) : Host.Outcome State Fault Refusal := conclude s (vatOp .fq permL d a [] false true noCheck s)

/-- The destination of a pull, checked precisely (R333). -/
def pullCheck (l : List Wreg) : Except Stop Unit :=
  engCap (l.getD 0 .zero) 3 (permS + permE) (bits (l.getD 1 .zero).bits 32 32 * 128) 128

/-- `fpull` (R333). -/
def execFpull (d a b : Fin 64) (s : State) : Host.Outcome State Fault Refusal := conclude s (vatOp .fpull permL d a [b, b + 1] true false pullCheck s)
/-- `fcoup` (R332). -/
def execFcoup (d a b : Fin 64) (s : State) : Host.Outcome State Fault Refusal := conclude s (vatOp .fcoup (permL + permF) d a [b, b + 1] true false noCheck s)
/-- `fwait` (R335). -/
def execFwait (d a b : Fin 64) (s : State) : Host.Outcome State Fault Refusal := conclude s (vatOp .fwait permL d a [b] false true noCheck s)

/-! ### The phase master's answers -/

/-- Virtual pages of a range, in order. -/
def pagesOf (va n : Nat) : List Nat := if n = 0 then [] else (List.range ((va + n - 1) / 65536 - va / 65536 + 1)).map fun i => va / 65536 + i

/-- Inserts a number into a rising list without repeats. -/
def insertNat (x : Nat) : List Nat → List Nat
  | [] => [x]
  | y :: t => if x < y then x :: y :: t else if x = y then y :: t else y :: insertNat x t

/-- Numbers in rising order without repeats. -/
def sortNat (l : List Nat) : List Nat := l.foldr insertNat []

/-- Reads the granules of a descriptor with their tags (R315), through the capability of the command. -/
def descGranules (r : Reader) (base : Nat) : Nat → Nat → State → Except (Nat × Nat) (List Wreg × State)
  | 0, _, s => .ok ([], s)
  | n + 1, i, s => do
    let (g, s) ← r.granule s (base + 16 * i)
    let (l, s) ← descGranules r base n (i + 1) s
    .ok (g :: l, s)

/-- Check of a capability granule that a field uses: cause, or none (R318). -/
def arrayFault (c : Wreg) (perm n al : Nat) : Option Nat :=
  if !c.tag || capMalformed c then some 0x03
  else if capKind c = 3 then some 0x06
  else if capKind c ≠ 0 ∨ !capHas c perm then some 0x05
  else if !capCovers c (capAddr c).toNat n then some 0x04
  else if (capAddr c).toNat % al ≠ 0 then some 0x07
  else none

/-- The first array whose capability fails: cause and its address. -/
def arraysFault (gs : List Wreg) : List (Nat × Nat × Nat × Nat) → Option (Nat × Nat)
  | [] => none
  | (g, perm, n, al) :: t =>
    let c := gs.getD g .zero
    match arrayFault c perm n al with
    | some code => some (code, (capAddr c).toNat)
    | none => arraysFault gs t

/-- Touches pages in ascending order as loads, each through the capability that reaches it: page and frame of each, the state, and the fault that ended it; the tags and pins
of the touches before it stay (R328). -/
def touchPages (h tenant : Nat) (caps : List (Wreg × Nat × Nat)) : List Nat → State → List (Nat × Nat) × State × Option (Nat × Nat)
  | [], s => ([], s, none)
  | p :: rest, s =>
    match caps.find? fun (_, a, n) => (pagesOf a n).contains p with
    | none => touchPages h tenant caps rest s
    | some (c, a, _) =>
      match s.engAccess h tenant c (Nat.max a (p * 65536)) .rd false with
      | .error f => ([], s, some f)
      | .ok (pl, s) =>
        let (l, r) := touchPages h tenant caps rest s
        ((p, frameOf pl.pa) :: l, r)

/-- A fault of the phase master's accesses, or nothing yet. -/
def Reply.fault (f : Nat × Nat) (s : State) : Reply := if f.1 = notYet then .later else .trapped f.1 2 f.2 s

/-- A store to one of some frames has been issued and is on its way, in a store queue, the network or a felt buffer. -/
def State.storeComing (s : State) (frames : List Nat) : Bool :=
  let hit (w : WriteOp) : Bool := frames.contains (frameOf w.pa)
  let pk (p : Packet) : Bool := match p.op with | .write w => hit w | _ => false
  s.net.any pk || (s.tenants.any fun t => t.2.felt.any pk)
    || (s.cpu :: s.ctxs.map (·.2)).any fun c => c.sq.any fun e => match e with | .store l => l.any fun x => hit x.2 | _ => false

/-- Pages can be taken now: no access that the issuing core sent before the command is still on its way to one, no engine owns a line of one, and every store that passed its
check before is applied, so that none arrives after: a later one faults at its check (R37, R38, R140, R296, log 93). -/
def State.pagesQuiet (s : State) (c : Cmd) (frames : List Nat) : Bool :=
  !s.storeComing frames &&
  s.net.all (fun q => !(decide (q.h = c.h ∧ q.id < c.after) && match q.op.range with | some (a, _, n) => frames.contains (frameOf a) || frames.contains (frameOf (a + n - 1)) | none => false))
    && s.owned.all fun o => !(o.excl && frames.contains (frameOf (o.line * 128)))

/-- A page can be taken by a field: pinned in a slice of this device, in device memory, and not field-owned (R296, R328). -/
def State.takable (s : State) (fr : Nat) : Bool :=
  decide (Tab.get 0 s.policy fr = 3 ∧ devOf (fr * 65536) = s.dev ∧ regionOf (fr * 65536) = .dram) && (Tab.get none s.pins (frameOf (localOf (fr * 65536)))).isSome && !s.fieldOwned fr

/-- The lowest field number that is free on the device (R339). -/
def State.lowestField (s : State) : Nat := ((List.range 64).find? fun n => !(s.fields.any fun f => f.num = n)).getD 0

/-- The answer to `fdecl` once its descriptor has been read and passes (R328): the routine's words, the pages and the field. -/
def fdeclTake (t : State) (c : Cmd) (gs : List Wreg) (d : Desc) : Reply :=
  let cap := c.reg 0
  let rd (x : Wreg) : Reader := ⟨c.h, c.tenant, c.h, c.after, [], x, false⟩
  let codeLen := if d.rout = 3 then d.ninsm + 1 else 0
  match (rd (gs.getD 5 .zero)).words false 4 ((List.range codeLen).map fun i => d.cap 5 + 4 * i) t with
  | .error (code, x) =>
    -- the pages of the routine below the fault have been accessed
    let (_, u, _) := touchPages c.h c.tenant [(gs.getD 5 .zero, d.cap 5, 4 * codeLen)] ((pagesOf (d.cap 5) (4 * codeLen)).filter (· < x / 65536)) t
    .fault (code, x) u
  | .ok (ws, t) =>
    let code := ws.map (BitVec.ofNat 32)
    match code.findIdx? fun w => !routineWordOk d.ndl w with
    | some i => .trapped 0x12 0 (0x93 + i * 256) t
    | none =>
      let base := (capAddr cap).toNat
      let owned := d.arrays.filter fun a => a.1 ≠ 5
      let caps := (cap, base, 256) :: owned.map fun (g, _, n, _) => (gs.getD g .zero, d.cap g, n)
      match touchPages c.h c.tenant caps (sortNat (caps.map fun (_, a, n) => pagesOf a n).flatten) t with
      | (_, t, some f) => .fault f t
      | (map, t, none) =>
        let frames := map.map (·.2)
        if !t.pagesQuiet c frames then .later
        else if !(frames.all t.takable) then .refusal 0x91 t
        else if t.fields.length ≥ 64 then .refusal 0x92 t
        else
          let num := t.lowestField
          let f : Field :=
            { num := num, tenant := c.tenant, owner := c.ident, ogen := c.gen, desc := (c.regs.getLastD .zero).lo.toNat, parms := d.x, map := map, pages := frames,
              code := code, beta := d.beta, mode := .hold, steps := 0, nfc := 0, bound := 0, started := false, spent := false, ended := false, sites := [],
              reports := [], received := [], conflict := none, furnish := [], pulls := [], stopBy := none, saved := none, discarded := 0 }
          .value (some (.plain (BitVec.ofNat 64 num))) { t with fields := t.fields ++ [f] }

/-- The answer to `fdecl` (R328). -/
def fdeclReply (s : State) (c : Cmd) : Reply :=
  let cap := c.reg 0
  let base := (capAddr cap).toNat
  match descGranules ⟨c.h, c.tenant, c.h, c.after, [], cap, false⟩ base 16 0 s with
  | .error f => .fault f s
  | .ok (gs, t) =>
    let d : Desc := ⟨BitVec.ofNat 2048 ((gs.take 16).foldr (fun g a => g.bits.toNat + a * 2 ^ 128) 0)⟩
    match arraysFault gs d.arrays with
    | some (code, x) => .trapped code 2 x t
    | none => if !d.ok base then .refusal 0x90 t else fdeclTake t c gs d

/-- A boundary index as a value. -/
def boundValue (b : Nat) : Option Wreg := some (.plain (BitVec.ofNat 64 b))

/-- "Next" (R327). -/
def nextBound : Nat := 2 ^ 64 - 1

/-- The first refusal whose condition holds. -/
def firstRefusal (l : List (Bool × Nat)) : Option Nat := (l.find? (·.1)).map (·.2)

/-- `fstart` (R329). -/
def fstartReply (s : State) (f : Field) : Reply :=
  match firstRefusal [(decide (f.mode = .faulted), 0x96), (f.spent, 0x9D), (f.stopBy.isSome, 0x9E)] with
  | some r => .refusal r s
  | none =>
    match f.mode with
    | .hold => .value (boundValue f.bound) (s.setField { f with mode := .run }.start)
    | .step => .value (boundValue f.bound) (s.setField { f with mode := .run, steps := 0 })
    | _ => .value (boundValue f.bound) s

/-- `fstep` (R329). -/
def fstepReply (s : State) (f : Field) (k : Nat) : Reply :=
  let old := if f.mode = .step then f.steps else 0
  match firstRefusal [(decide (f.mode = .run ∨ f.mode = .faulted), 0x96), (decide (k = 0 ∨ k > 65535 ∨ old + k > 2 ^ 24 - 1), 0x97),
      (f.spent || decide (f.bound + old + k > f.lastBound), 0x9D), (f.stopBy.isSome, 0x9E)] with
  | some r => .refusal r s
  | none =>
    if f.mode = .hold then .value (boundValue (f.bound + k)) (s.setField { f with mode := .step, steps := k }.start)
    else .value (boundValue (f.bound + old + k)) (s.setField { f with steps := old + k })

/-- `fstop` (R330): a field in hold or faulted ends at once (R311). -/
def fstopReply (s : State) (f : Field) (c : Cmd) : Reply :=
  if f.stopBy.isSome then .refusal 0x9E s
  else
    let f := { f with stopBy := some c }
    .value none (if f.mode = .hold ∨ f.mode = .faulted then s.endField f else s.setField f)

/-- The boundary that an entry is assigned, and the refusals of R331 in its order. -/
def assign (f : Field) (b : Nat) : Nat := if b = nextBound then f.bound + 1 else b

/-- Enters a furnish entry (R308, R331, R332). -/
def enterFurnish (s : State) (f : Field) (b : Nat) (e : Furnish) : Reply :=
  let to' := assign f b
  match firstRefusal [(decide (to' ≤ f.bound), 0x98), (decide (f.furnish.length ≥ 256), 0x99), (decide (f.mode = .faulted), 0x96),
      (f.spent || decide (to' > f.lastBound), 0x9D), (f.stopBy.isSome, 0x9E)] with
  | some r => .refusal r s
  | none => .value (boundValue to') (s.setField { f with furnish := f.furnish ++ [{ e with bound := to' }] })

/-- `fctl` (R331). -/
def fctlReply (s : State) (f : Field) (x : Word) (b : Nat) : Reply :=
  let sb := bit x 32
  let md := bits x 33 2
  if md = 3 ∨ bits x 35 29 ≠ 0 ∨ (sb ∧ (f32.decode (bits x 0 32)).special) then .refusal 0x90 s
  else
    let e : Furnish := ⟨0, [], false, if sb then some (BitVec.ofNat 32 (bits x 0 32)) else none, match md with | 1 => some .hold | 2 => some .run | _ => none⟩
    if md = 2 ∧ f.mode = .hold ∧ (b = nextBound ∨ b = f.bound) then
      match firstRefusal [(f.spent, 0x9D), (f.stopBy.isSome, 0x9E)] with
      | some r => .refusal r s
      | none =>
        let (t, f) := s.applyFurnish f e
        .value (boundValue f.bound) (t.setField f.start)
    else enterFurnish s f b e

/-- Number of FP16 positions of the couplings or biases (R318). -/
def Desc.positions (d : Desc) (bias : Bool) : Nat :=
  if bias then (if d.styp = 1 then d.k * d.ns else d.ns) else (if d.cps then d.nb else d.nb * d.ns)

/-- `fcoup` (R332). -/
def fcoupReply (s : State) (f : Field) (v : BitVec 128) (x : Word) (b : Nat) : Reply :=
  let p := bits x 0 32
  let bias := bit x 32
  let n := bits x 33 3 + 1
  if p + n > f.d.positions bias then .refusal 0x9B s
  else if bits x 36 28 ≠ 0 then .refusal 0x90 s
  else enterFurnish s f b ⟨0, (List.range n).map fun j => (p + j, BitVec.ofNat 16 (bits v (16 * j) 16)), bias, none, none⟩

/-- The first boundary whose following phase no Vat has begun (R306). -/
def Field.openBound (f : Field) : Nat := if (f.started ∧ ¬ f.received.isEmpty) ∨ f.spent then f.bound + 1 else f.bound

/-- `fpull` (R333). -/
def fpullReply (s : State) (f : Field) (c : Cmd) (dest : Wreg) (x : Word) (b : Nat) : Reply :=
  let first := bits x 0 32
  let count := bits x 32 32
  let to' := if b = nextBound then f.openBound else b
  match firstRefusal [(decide (count = 0 ∨ first + count > f.d.lines), 0x9C), (decide (to' < f.openBound), 0x98), (decide (f.pulls.length ≥ 4), 0x9A),
      (decide (f.mode = .faulted), 0x96), (decide (to' > f.lastBound), 0x9D), (f.stopBy.isSome, 0x9E)] with
  | some r => .refusal r s
  | none => .value (boundValue to') (s.setField { f with pulls := f.pulls ++ [⟨to', first, count, dest, c, decide (to' = f.bound), []⟩] })

/-- The value of `fq` (R334). -/
def Field.query (f : Field) : Wreg :=
  let mode := if f.stopBy.isSome then 4 else match f.mode with | .hold => 0 | .run => 1 | .step => 2 | .faulted => 3
  ⟨BitVec.ofNat 128 (f.bound % 2 ^ 36 + mode * 2 ^ 36 + f.steps % 2 ^ 24 * 2 ^ 40 + f.nfc % 2 ^ 32 * 2 ^ 64 + f.num % 64 * 2 ^ 96 + (f.d.c - 1) * 2 ^ 102
    + f.pulls.length % 8 * 2 ^ 106), false⟩

/-- `fwait` (R305, R335): a status once it is known. -/
def fwaitReply (s : State) (f : Field) (b : Nat) : Reply :=
  if b > f.lastBound then .value (boundValue 1) s
  else if b ≤ f.bound then .value (boundValue 0) s
  else if f.ended ∨ f.mode = .faulted then .value (boundValue 1) s
  else .later

/-- The phase master's answer to a Vat instruction (R327): a descriptor on another device is refused; the field is found by its descriptor; one of another tenant only by a privileged issuer. -/
def vatReply (s : State) (c : Cmd) : Reply :=
  let pa := (c.regs.getLastD .zero).lo.toNat
  let boundIn := (c.regs.getD (c.regs.length - 2) .zero).lo.toNat
  if devOf pa ≠ s.dev then .refusal 0x95 s
  else if c.op = .fdecl then fdeclReply s c
  else if c.taken then .value (boundValue c.prog) s
  else match s.fields.find? fun f => f.desc = pa && (f.tenant = c.tenant || c.prv) with
    | none => .refusal 0x94 s
    | some f =>
      match c.op with
      | .fstart => fstartReply s f
      | .fstop => fstopReply s f c
      | .fstep => fstepReply s f (c.reg 1).lo.toNat
      | .fctl => fctlReply s f (c.reg 1).lo boundIn
      | .fq => .value (some f.query) s
      | .fpull => fpullReply s f c (c.reg 1) (c.reg 2).lo boundIn
      | .fcoup => fcoupReply s f (c.reg 1).bits (c.reg 2).lo boundIn
      | _ => fwaitReply s f (c.reg 1).lo.toNat

end Sys2Proof.Machine
end

