-- ==== Sys2Proof/Machine/Slice.lean ====
section
/-! DEFINITION. The slice engine: migration of a frame (R357, R362), clearing of a policy tag (R363), software-managed regions and their merge (R355, R356, R364), way masks (R354, R365), and pages of the coherence between devices (R349, R350). -/

namespace Sys2Proof.Machine

/-! ### Instructions at issue (R361) -/

/-- Enters the path of the slice engine; the context goes on (R37, R361). -/
def State.toSlice (s : State) (op : CmdOp) (regs : List Wreg) (uses : List Nat) : State :=
  let (seq, t) := s.takeSeq 6
  (t.command 6 (s.capture op seq regs []) (enterRequest 6)).finish 1 uses

/-- A frame operand: a frame of device memory of the own device (R362). -/
def frameArg (s : State) (x : Wreg) : Except Stop Unit :=
  needR (decide (x.lo.toNat % 65536 = 0 ∧ x.lo.toNat / 2 ^ 43 = s.dev ∧ localOf x.lo.toNat < 0xC000000000)) 0xA0

/-- `pmig` (R362). -/
def execPmig (a b : Fin 64) (s : State) : Host.Outcome State Fault Refusal := conclude s do
  privileged s (thisWord s)
  let f ← readW s a 2
  let g ← readW s b 3
  frameArg s f
  frameArg s g
  needR (decide (f.lo ≠ g.lo)) 0xA0
  .ok (s.toSlice .pmig [f, g] [a.val, b.val])

/-- `pmig.clr` (R363). -/
def execPmigClr (a : Fin 64) (s : State) : Host.Outcome State Fault Refusal := conclude s do
  privileged s (thisWord s)
  let f ← readW s a 2
  frameArg s f
  .ok (s.toSlice .pmigClr [f] [a.val])

/-- The region of `mcoh`: kind 0 with P, whole 64 KiB pages, 2 GiB at most (R364). -/
def regionArg (c : Wreg) : Except Stop Unit := do
  checkKind0 c 2 (capAddr c) permP
  need (capCovers c (capAddr c).toNat (capLength c)) 0x04 2 (capAddr c)
  need (decide ((capAddr c).toNat % 65536 = 0 ∧ capLength c % 65536 = 0)) 0x07 2 (capAddr c)
  needR (decide (capLength c ≤ 2 ^ 31)) 0xA0

/-- `mcoh.hw` (R364). -/
def execMcohHw (a b : Fin 64) (s : State) : Host.Outcome State Fault Refusal := conclude s do
  let c ← readW s a 2
  let r ← readW s b 3
  regionArg c
  engCap r 3 (permS + permE) (capLength r) 16
  .ok (s.toSlice .mcohHw [c, r] [a.val, b.val])

/-- `mcoh.sw` (R364). -/
def execMcohSw (a : Fin 64) (s : State) : Host.Outcome State Fault Refusal := conclude s do
  let c ← readW s a 2
  regionArg c
  .ok (s.toSlice .mcohSw [c] [a.val])

/-- `wmask` (R365). -/
def execWmask (a b : Fin 64) (s : State) : Host.Outcome State Fault Refusal := conclude s do
  privileged s (thisWord s)
  let x ← readW s a 2
  let y ← readW s b 3
  .ok (s.toSlice .wmask [x, y] [a.val, b.val])

/-! ### Frames -/

/-- An engine owns a line of a frame (R38). -/
def State.frameHeld (s : State) (f : Nat) : Bool := s.owned.any fun o => o.excl && decide (o.line / 512 = f)

/-- A mode switch of a frame is in progress (R366). -/
def State.switching (s : State) (f : Nat) : Bool :=
  s.requests.any fun x => x.1 = 6 && x.2.taken && x.2.imgs.any fun g => g.toNat = f

/-- A migration or mode switch of a frame is in progress (R366). -/
def State.frameBusy (s : State) (f : Nat) : Bool := s.isBlocked (f % 2 ^ 27) || s.switching f

/-- A frame of zeros: tags and poison clear (R362). -/
def Memory.zeroFrame (m : Memory) (f : Nat) : Memory where
  cells := m.cells.filter fun c => c.1 / 65536 ≠ f
  tags := m.tags.filter fun c => c.1 / 4096 ≠ f
  poison := m.poison.filter fun c => c.1 / 4096 ≠ f
  empty := m.empty

/-- The entries of the remap table of two frames are exchanged (R346, R362). -/
def State.swapBacking (s : State) (f g : Nat) : State :=
  { s with frmap := Tab.set none (Tab.set none s.frmap f (some (s.backing g))) g (some (s.backing f)) }

/-- A page is taken home from the devices that hold it (R350, R357). -/
def State.pageHome (s : State) (f : Nat) : State := { s with pageDir := Tab.set .home s.pageDir f .home }

/-- Ends a command of the slice engine: its request goes, its completion is posted. -/
def State.sliceDone (s : State) (k : Nat) (c : Cmd) (info : Nat) : State :=
  { s with requests := listDrop s.requests k }.report c 6 0 0 0 1 0 info

/-- Refuses a command of the slice engine (R361). -/
def State.sliceRefuse (s : State) (k : Nat) (c : Cmd) (reason : Nat) : State :=
  { s with requests := listDrop s.requests k }.report c 6 2 0x12 reason 0 0 0

/-- A fault that the slice engine meets (R15). -/
def State.sliceFault (s : State) (k : Nat) (c : Cmd) (code info : Nat) : State :=
  { s with requests := listDrop s.requests k }.report c 6 1 code 0 0 0 info

/-! ### Migration (R357, R362, R363) -/

/-- The home blocks the frames of a migration; the request goes on as a blocked frame. -/
def State.block (s : State) (k : Nat) (c : Cmd) (f g : Nat) : State :=
  { s with requests := listDrop s.requests k, blocked := s.blocked ++ [⟨f % 2 ^ 27, g % 2 ^ 27, some c, c.h⟩] }

/-- The slice takes a `pmig` (R362). -/
def State.takePmig (s : State) (k : Nat) (c : Cmd) : State :=
  let f := (c.reg 0).lo.toNat / 65536
  let g := (c.reg 1).lo.toNat / 65536
  if (Tab.get none s.pins (f % 2 ^ 27)).isSome || s.fieldOwned f then s.sliceRefuse k c 0xA1
  else if decide (Tab.get 0 s.policy g ≠ 0) || s.guests.any (fun x => x.2 = some g) then s.sliceRefuse k c 0xA2
  else if s.frameBusy f || s.frameBusy g || s.fast.sessions.any (fun x => x.frames.contains (f % 2 ^ 27) || x.frames.contains (g % 2 ^ 27)) then s.sliceRefuse k c 0xA8
  else s.block k c f g

/-- The slice takes a `pmig.clr` (R363). -/
def State.takeClr (s : State) (k : Nat) (c : Cmd) : State :=
  let f := (c.reg 0).lo.toNat / 65536
  if s.fieldOwned f then s.sliceRefuse k c 0xA7
  else if s.frameBusy f then s.sliceRefuse k c 0xA8
  else s.block k c f f

/-! ### Software-managed regions (R355, R356, R364) -/

/-- The frames of a region with their policies, or the fault of a page without a mapping, cause and address; a walk that cannot be made yet keeps it (R343). -/
def State.regionFrames (s : State) (c : Cmd) : Nat → Nat → Except (Nat × Nat) (List (Nat × Nat))
  | 0, _ => .ok []
  | n + 1, x =>
    match if s.walkFree c.h c.tenant x then s.walk c.h c.tenant x else .error notYet with
    | .error code => .error (code, x)
    | .ok e => match s.regionFrames c n (x + 65536) with
      | .error f => .error f
      | .ok l => .ok ((frameOf (e.pa + x % 2 ^ e.bits), e.pol.val) :: l)

/-- The slice takes an `mcoh`: it refuses the whole region or begins (R364). -/
def State.takeMcoh (s : State) (k : Nat) (c : Cmd) : Option State :=
  let r := c.reg 0
  match s.regionFrames c (capLength r / 65536) (capAddr r).toNat with
  | .error (code, x) => if code = notYet then none else some (s.sliceFault k c code x)
  | .ok l => some <|
    if l.any fun (f, pol) => decide (pol ≠ 0 ∨ 1 < Tab.get 0 s.policy f) then s.sliceRefuse k c 0xA4
    else if l.any fun (f, _) => decide (devOf (f * 65536) ≠ s.dev) then s.sliceRefuse k c 0xA5
    else if l.any fun (f, _) => s.frameBusy f then s.sliceRefuse k c 0xA8
    else { s with requests := listSet s.requests k (6, { c with taken := true, imgs := l.map fun (f, _) => BitVec.ofNat 384 f }) }

/-- A running count of an `mcoh`: 0 pages or lines switched, 1 lines left, 2 records dropped, 3 records written. -/
def Cmd.tally (c : Cmd) (i : Nat) : Nat :=
  match c.got.find? fun x => x.1 = i with
  | some x => x.2.toNat
  | none => 0

/-- Adds to a count. -/
def Cmd.tallyUp (c : Cmd) (i n : Nat) : Cmd := { c with got := (i, BitVec.ofNat 128 (c.tally i + n)) :: c.got.filter fun x => x.1 ≠ i }

/-- `mcoh.sw` switches its next page, or ends (R364). -/
def State.stepSw (s : State) (k : Nat) (c : Cmd) : Option State :=
  match c.imgs[c.prog]? with
  | none => if s.canPost c 6 then some (s.sliceDone k c (c.tally 0)) else none
  | some f =>
    let f := f.toNat
    if s.frameHeld f then none
    else
      let c' := { (if Tab.get 0 s.swm f = BitVec.allOnes 512 then c else c.tallyUp 0 1) with prog := c.prog + 1 }
      some ({ s with swm := Tab.set 0 s.swm f (BitVec.allOnes 512), requests := listSet s.requests k (6, c') }.pageHome f)

/-- The ranks whose copies are dirty in byte i of a line, lowest first, with the byte. -/
def State.dirtyAt (s : State) (line i : Nat) : List (Nat × Nat) :=
  ((List.range 16).filter fun r => bit (Tab.get QLine.none s.qlines (qKey r line)).dirty i).map fun r =>
    (r, bits (Tab.get QLine.none s.qlines (qKey r line)).data (8 * i) 8)

/-- The dirty copies of a byte hold different values (R356). -/
def inConflict (l : List (Nat × Nat)) : Bool :=
  match l with
  | [] => false
  | (_, v) :: rest => rest.any fun x => x.2 ≠ v

/-- Tag and poison of a granule after its line is merged: the home's where no copy is dirty in it; a tag where one copy wrote the whole granule with it and every
dirty byte agrees. -/
def State.mergedMarks (s : State) (line g : Nat) : Bool × Bool :=
  let ds := (List.range 16).map fun j => s.dirtyAt line (16 * g + j)
  if ds.all (·.isEmpty) then (s.mem.tagAt (line * 8 + g), s.mem.poisonAt (line * 8 + g))
  else
    let whole (r : Nat) : Bool := ds.all fun d => match d with | (q, _) :: _ => decide (q = r) | [] => false
    let tag := (List.range 16).any fun r => whole r && bit (Tab.get QLine.none s.qlines (qKey r line)).tags g && !ds.any inConflict
    let pois := (List.range 16).any fun r => ds.any (fun d => match d with | (q, _) :: _ => decide (q = r) | [] => false)
      && bit (Tab.get QLine.none s.qlines (qKey r line)).poison g
    (tag, pois || (ds.any (·.isEmpty) && s.mem.poisonAt (line * 8 + g)))

/-- The line becomes coherent: its merged bytes stand at the home and its copies are discarded (R356). -/
def State.mergeLine (s : State) (line : Nat) : State :=
  let s := s.mcWritten s.mcast.length line
  let ds := (List.range 128).map fun i => s.dirtyAt line i
  let w : WriteOp := ⟨line * 128, 0, 128,
    BitVec.ofNat 1024 (leNat (ds.map fun d => match d with | (_, v) :: _ => v | [] => 0)),
    BitVec.ofNat 128 (((List.range 128).filter fun i => !(ds.getD i []).isEmpty).foldl (fun a i => a + 2 ^ i) 0), false, false⟩
  let marks := (List.range 8).map fun g => (g, s.mergedMarks line g)
  let m := if w.mask = 0 then s.mem else marks.foldl (fun m (g, t, p) => (m.setTag (line * 8 + g) t).setPoison (line * 8 + g) p) (s.mem.write w)
  let f := line / 512
  let s := { s with
    mem := m
    qlines := (List.range 16).foldl (fun q r => Tab.set QLine.none q (qKey r line) QLine.none) s.qlines
    swm := Tab.set 0 s.swm f (setBit (Tab.get 0 s.swm f) (line % 512) false) }
  if w.mask = 0 then s else s.fire line 0

/-- The conflict records of a line (R356). -/
def State.conflictRecords (s : State) (line : Nat) (adopt : Bool) : List Nat :=
  (List.range 8).filterMap fun g =>
    let ds := (List.range 16).map fun j => s.dirtyAt line (16 * g + j)
    let bm := ((List.range 16).filter fun j => inConflict (ds.getD j [])).foldl (fun a j => a + 2 ^ j) 0
    if bm = 0 then none
    else
      let ranks := (List.range 16).filter fun r => ds.any fun d => inConflict d && d.any fun x => x.1 = r
      let qm := ranks.foldl (fun a r => a + 2 ^ r) 0
      some (localOf (line * 128 + 16 * g) + adopt.toNat * 2 ^ 43 + ranks.headD 0 * 2 ^ 44 + bm * 2 ^ 48 + qm * 2 ^ 64)

/-- Writes a record of an `mcoh.hw` where room remains, once its line can be written (R364). -/
def State.putRecord (s : State) (c : Cmd) (v : Nat) : Except (Nat × Nat) (State × Cmd) :=
  let buf := c.reg 1
  if c.tally 3 < capLength buf / 16 then
    match s.pieces c.h c.tenant buf false 2 ((capAddr buf).toNat + 16 * c.tally 3) (leBytes 16 v) with
    | .error f => .error f
    | .ok (l, t) =>
      if l.all fun w => t.writeReady c.h c.h c.after w then .ok (l.foldl (fun t w => t.engineWrite c.h w) t, c.tallyUp 3 1)
      else .error (notYet, (capAddr buf).toNat)
  else .ok (s, c.tallyUp 2 1)

/-- Writes several records in order. -/
def State.putRecords (s : State) (c : Cmd) : List Nat → Except (Nat × Nat) (State × Cmd)
  | [] => .ok (s, c)
  | v :: rest =>
    match s.putRecord c v with
    | .error f => .error f
    | .ok (t, d) => t.putRecords d rest

/-- INFO of the completion of an `mcoh.hw` (R364). -/
def Cmd.hwInfo (c : Cmd) : Nat :=
  c.tally 0 + c.tally 1 * 2 ^ 25 + Nat.min (c.tally 2) 8191 * 2 ^ 50 + (if c.tally 2 = 0 then 0 else 2 ^ 63)

/-- `mcoh.hw` merges its next line, or ends with a record of zeros where room remains (R356, R364). -/
def State.stepHw (s : State) (k : Nat) (c : Cmd) : Option State :=
  match c.imgs[c.prog / 512]? with
  | none =>
    if !s.canPost c 6 then none
    else if c.tally 3 < capLength (c.reg 1) / 16 then
      match s.putRecord c 0 with
      | .error (code, x) => if code = notYet then none else some (s.sliceFault k c code x)
      | .ok (t, _) => some (t.sliceDone k c c.hwInfo)
    else some (s.sliceDone k c c.hwInfo)
  | some f =>
    let line := f.toNat * 512 + c.prog % 512
    let next (s : State) (c : Cmd) : State := { s with requests := listSet s.requests k (6, { c with prog := c.prog + 1 }) }
    if !s.swLine (line * 128) then some (next s c)
    else if !s.engineReady c.h c.h c.after .rd ⟨line * 128, 0, none⟩ 128 || !s.canPost c 6 then none
    else
      let conflict := (List.range 128).any fun i => inConflict (s.dirtyAt line i)
      let adopt := (s.tenantOf c.tenant).mrgauth
      let t := if conflict && !adopt then s else s.mergeLine line
      match t.putRecords (c.tallyUp (if conflict && !adopt then 1 else 0) 1) (s.conflictRecords line adopt) with
      | .error (code, x) => if code = notYet then none else some (t.sliceFault k c code x)
      | .ok (t, c) => some (next t c)

/-! ### Way masks (R354, R365) -/

/-- An engine owns a line that a slice keeps for a tenant: the line's home, for one of the tenant's cores, or the copy of a software-managed line in the tenant's ways
(R38, R354). -/
def State.sliceHeld (s : State) (n t : Nat) : Bool :=
  s.owned.any fun o => o.excl && decide (regionOf (o.line * 128) = .dram) &&
    (if s.swLine (o.line * 128) then decide (copySlice (rankOf o.h) o.line = n ∧ (s.qline (rankOf o.h) o.line).tenant = t)
     else decide (s.homeSlice (s.guestPa (o.line * 128)) = n ∧ s.tenantAt o.h = t))

/-- The slice takes a `wmask`: an empty mask is refused while the tenant has a page pinned there. Where ways are removed, the tenant's fills keep to the ways of both masks
from then on; once the engine holders have been recalled, the tenant's copies in the removed ways are written back and invalidated, and the mask is set (R354). -/
def State.takeWmask (s : State) (k : Nat) (c : Cmd) : Option State :=
  let (n, t, m) := c.wmaskArgs
  let gone := Tab.get 0xFFFF s.wmk (wayKey n t) &&& ~~~m
  if !c.taken && decide (m = 0) && s.pins.any (fun x => match x.2 with | some p => decide (p.slice = n ∧ p.tenant = t) | none => false) then some (s.sliceRefuse k c 0xA6)
  else if !c.taken && decide (gone ≠ 0) then some { s with requests := listSet s.requests k (6, { c with taken := true }) }
  else if decide (gone ≠ 0) && s.sliceHeld n t then none
  else
    let s := s.evictWhere n fun q => decide (q.tenant = t) && bit gone q.way
    some ({ s with wmk := Tab.set 0xFFFF s.wmk (wayKey n t) m }.sliceDone k c m.toNat)

/-! ### Steps of the slice engine -/

/-- The slice engine takes or goes on with the command at place k of the requests. -/
def State.sliceStep (s : State) (k : Nat) : Option State :=
  match s.requests[k]? with
  | none => none
  | some (eng, c) =>
    if eng ≠ 6 then none
    else match c.op with
      | .mcohSw => if c.taken then s.stepSw k c else if s.canPost c 6 then s.takeMcoh k c else none
      | .mcohHw => if c.taken then s.stepHw k c else if s.canPost c 6 then s.takeMcoh k c else none
      | .pmig => if s.canPost c 6 then some (s.takePmig k c) else none
      | .pmigClr => if s.canPost c 6 then some (s.takeClr k c) else none
      | .wmask => if s.canPost c 6 then s.takeWmask k c else none
      | _ => none

/-! ### Pages between devices (R349, R350) -/

/-- A page may move between devices: its policy is cached, no line is owned and nothing else holds it in place. -/
def State.pageMoves (s : State) (f : Nat) : Bool :=
  decide (Tab.get 0 s.policy f ≤ 1 ∧ regionOf (f * 65536) = .dram) && !s.frameHeld f && !s.isBlocked (f % 2 ^ 27) && decide (Tab.get 0 s.swm f = 0) && !s.fieldOwned f

/-- PAGE_TAKE_HELD: another device takes a page of this one, or this one takes a page of another into a guest frame (R349). -/
def State.pageTake (s : State) (f dev : Nat) (write : Bool) : Option State :=
  let home := devOf (f * 65536)
  if !s.pageMoves f then none
  else if home = s.dev then
    if dev = s.dev ∨ dev ≥ 6144 ∨ Tab.get false s.mdl.ddead dev then none
    else match Tab.get .home s.pageDir f, write with
      | .held d, true => if d = dev then none else some { s with pageDir := Tab.set .home s.pageDir f (.held dev) }
      | .held _, false => none
      | _, true => some ({ s with pageDir := Tab.set .home s.pageDir f (.held dev), policy := Tab.set 0 s.policy f 1 }.fireFrame f 2)
      | .home, false => some { s with pageDir := Tab.set .home s.pageDir f (.shared [dev]), policy := Tab.set 0 s.policy f 1 }
      | .shared l, false =>
        if l.contains dev ∨ l.length ≥ 4 then none else some { s with pageDir := Tab.set .home s.pageDir f (.shared (l ++ [dev])) }
  else if dev ≠ s.dev ∨ Tab.get false s.mdl.ddead home ∨ s.leaving.contains f then none
  else
    let st : PageDir := if write then .held s.dev else .shared [s.dev]
    if Tab.get .home s.pageDir f = .held s.dev ∨ Tab.get .home s.pageDir f = st then none
    else s.seatGuest f st

/-- `PAGE_TAKE_HELD`. -/
def execPageTakeHeld (frame dev : Nat) (write : Bool) (s : State) : Host.Outcome State Fault Refusal := event s (s.pageTake frame dev write)

/-- The own device gives up a page of another device that it holds: the image in the guest frame goes to the page, and accesses go to its home (R350). -/
def State.returnPage (s : State) (f : Nat) : State :=
  let m := match Tab.get none s.guests f with | some g => s.mem.copyBlock (g * 65536) 65536 (f * 65536) | none => s.mem
  { s with mem := m, guests := Tab.set none s.guests f none, leaving := s.leaving.filter (· ≠ f) }.pageHome f

/-- PAGE_GIVE_UP: a device gives up a page that it holds, or drops its read copy; the own watches on it fire with code 2. The own device first blocks the page's lines, which
keeps the accesses to it, and returns it once its engines hold no line of it (R348, R350). -/
def State.pageGive (s : State) (f dev : Nat) : Option State :=
  match Tab.get .home s.pageDir f with
  | .home => none
  | .held d =>
    if d ≠ dev then none
    else if dev ≠ s.dev then some (s.pageHome f)
    else if !s.leaving.contains f then some { s with leaving := s.leaving ++ [f] }
    else if s.frameHeld f then none
    else some ((s.fireFrame f 2).returnPage f)
  | .shared l =>
    if !l.contains dev ∨ s.frameHeld f then none
    else
      let s := if dev = s.dev then s.fireFrame f 2 else s
      let r := l.filter (· ≠ dev)
      some { s with
        pageDir := Tab.set .home s.pageDir f (if r.isEmpty then .home else .shared r)
        guests := if dev = s.dev then Tab.set none s.guests f none else s.guests }

/-- `PAGE_GIVE_UP`. -/
def execPageGiveUp (frame dev : Nat) (s : State) : Host.Outcome State Fault Refusal := event s (s.pageGive frame dev)

end Sys2Proof.Machine
end

