-- ==== Sys2Proof/Machine/Launch.lean ====
section
/-! DEFINITION. The dispatch engine: its instructions (R383-R388), launches and gangs (R370-R375, R419), continuations (R376-R378), the end of a context (R134) and gang barriers (R154). -/

namespace Sys2Proof.Machine

/-! ### Instructions at issue (R383) -/

/-- The check of a code capability: kind 0, X, 8 bytes at its address (R384). -/
def codeArg (c : Wreg) : Except Stop Unit := do
  checkKind0 c 2 (capAddr c) permX
  checkRange c 2 (capAddr c) 8 8

/-- A request to the dispatch engine: a release at `.dev` goes before it, and the context parks for the answer (R383). -/
def State.askDispatch (s : State) (op : CmdOp) (d : Fin 64) (regs : List Wreg) (uses : List Nat) : State := (s.release 4 false).ask 7 op d regs uses false

/-- Fields of the launch word (R370): G, N, PRI, RA, HOPEN, CO, TEN. -/
def wordG (w : Word) : Nat := bits w 0 11 + 1
/-- N. -/
def wordN (w : Word) : Nat := bits w 11 12

/-- `launch` (R384). -/
def execLaunch (d a : Fin 64) (s : State) : Host.Outcome State Fault Refusal := conclude s do
  useW s d 1
  let l ← readBlock s a 5
  let code := l.getD 0 .zero
  let table := l.getD 1 .zero
  let w := (l.getD 2 .zero).lo
  codeArg code
  if wordN w ≠ 0 then
    checkKind0 table 2 (capAddr table) (permL + permS + permSC + permE)
    checkRange table 2 (capAddr table) (512 * wordN w * wordG w) 16
  .ok (s.askDispatch .launch d l (blockUses a 5))

/-- `cpush` (R385). -/
def execCpush (d a : Fin 64) (s : State) : Host.Outcome State Fault Refusal := conclude s do
  useW s d 1
  let l ← readBlock s a 3
  let frame := l.getD 1 .zero
  codeArg (l.getD 0 .zero)
  checkCap frame 2 (capAddr frame) (permL + permS + permLC + permSC)
  checkRange frame 2 (capAddr frame) 5152 16
  .ok (s.askDispatch .cpush d l (blockUses a 3))

/-- `cjoin` (R386). -/
def execCjoin (a : Fin 64) (s : State) : Host.Outcome State Fault Refusal := conclude s do
  let x ← readW s a 2
  .ok (s.askDispatch .cjoin 0 [x] [a.val])

/-- `stopat` (R387). -/
def execStopat (a b : Fin 64) (s : State) : Host.Outcome State Fault Refusal := conclude s do
  privileged s (thisWord s)
  let x ← readW s a 2
  let y ← readW s b 3
  .ok (s.askDispatch .stopat 0 [x, y] [a.val, b.val])

/-! ### Completion objects (R371) -/

/-- An object that no launch has used. -/
def Obj.fresh : Obj := ⟨0, true⟩

/-- A tenant's completion object. -/
def Tenant.obj (t : Tenant) (i : Nat) : Obj := Tab.get Obj.fresh t.objs i

/-- A dependence on a ticket is met (R371). -/
def Tenant.met (t : Tenant) (ticket : BitVec 32) : Bool :=
  let g := bits ticket 12 20
  let o := t.obj (bits ticket 0 12)
  let e := o.gen.toNat
  let d := (e + (2 ^ 20 - 1) - g) % (2 ^ 20 - 1)
  decide (g = 0 ∨ e = 0) || (decide (e = g) && o.done) || decide (1 ≤ d ∧ d ≤ 2 ^ 19 - 1)

/-- The generation that follows one: 1 after the last (R371). -/
def nextGen (g : BitVec 20) : BitVec 20 := if g = BitVec.allOnes 20 then 1 else g + 1

/-- A launch is eligible (R371). -/
def State.eligible (s : State) (l : Launch) : Bool := l.deps.all (s.tenantOf l.tenant).met

/-! ### Continuation records (R376) -/

/-- Number of slots of a tenant's continuation queue; none where its base is 0 (R368). -/
def Tenant.slots (t : Tenant) : Nat := if bits t.cqb 16 27 = 0 then 0 else 1024 * 2 ^ Nat.min 6 (bits t.cqb 48 3)

/-- The second half of a record: JOIN, PRI, TEN, YLD, SGEN (R376). -/
def State.recWord (s : State) (t q : Nat) : BitVec 128 := BitVec.ofNat 128 (s.mem.read 0 (s.recAddr t q + 32) 16)

/-- A capability of a record, 0 CODE and 1 FRAME. -/
def State.recCap (s : State) (t q i : Nat) : Wreg :=
  let a := s.recAddr t q + 16 * i
  ⟨BitVec.ofNat 128 (s.mem.read 0 a 16), s.mem.tagAt (a / 16)⟩

/-- A tenant's queue slot. -/
def State.qslot (s : State) (t q : Nat) : QSlot := Tab.get QSlot.free (s.tenantOf t).qslots q

/-- Replaces a queue slot. -/
def State.setQslot (s : State) (t q : Nat) (x : QSlot) : State :=
  let v := s.tenantOf t
  s.setTenant t { v with qslots := Tab.set QSlot.free v.qslots q x }

/-- The free slot that a new record takes: which one is not defined. -/
def State.freeSlot (s : State) (t : Nat) : Option Nat :=
  let n := (s.tenantOf t).slots
  let want := (Config.freeWord s.freeN).toNat % n
  if n = 0 then none
  else if !(s.qslot t want).used then some want
  else (List.range n).find? fun q => !(s.qslot t q).used

/-- Takes one from a join counter: the refusal, or the state (R386). A record that may not be written counts as one of a free slot (log 90). -/
def State.joinOne (s : State) (t handle : Nat) : Except Nat State :=
  let q := handle % 65536
  let x := s.qslot t q
  let r := s.recWord t q
  if !x.used || (s.unitFault (s.recAddr t q)).isSome || decide (x.sgen.toNat ≠ handle / 65536 % 65536 ∨ q ≥ (s.tenantOf t).slots ∨ bits r 39 6 ≠ t) then .error 0xB6
  else if bits r 0 32 = 0 then .error 0xB7
  else .ok (s.unitWrite (s.recAddr t q + 32) 16 ((setBits r 0 32 (bits r 0 32 - 1)).setWidth 1024) false)

/-- The fault that the dispatch engine meets at a record is posted to the issuer of the request (R15, R22, R296). -/
def State.recordFault (s : State) (c : Cmd) (q : Nat) : State :=
  match s.unitFault (s.recAddr c.tenant q) with
  | some code => s.report c 7 1 code 0 0 0 (s.recAddr c.tenant q)
  | none => s

/-! ### Cold contexts (R382) -/

/-- A write to a tenant's queues posts a notice where the tenant holds a cold context. -/
def State.noteCold (s : State) (t : Nat) : State :=
  match s.locs.find? fun x => x.2.state = .cold && x.2.ten.toNat = t with
  | some (id, _) => s.coldNotice t (BitVec.ofNat 20 id)
  | none => s

/-! ### Answers (R384-R387) -/

/-- The answer to a `launch` (R384). -/
def launchReply (s : State) (c : Cmd) : Reply :=
  let w := (c.reg 2).lo
  let t := if c.prv then bits w 48 6 else c.tenant
  let x := s.tenantOf t
  let o := x.obj (bits w 36 12)
  if bits w 30 2 = 3 ∨ bits w 32 4 > 10 ∨ wordN w > 2048 ∨ bits w 54 10 ≠ 0 then .refusal 0xB0 s
  else if wordG w > bits x.tpart 16 12 then .refusal 0xB1 s
  else if c.prv = false ∧ bits w 23 7 > x.tprio.toNat then .refusal 0xB2 s
  else if !o.done then .refusal 0xB3 s
  else if (s.launches.filter fun l => l.tenant = t).length ≥ 256 then .refusal 0xB4 s
  else
    let g := nextGen o.gen
    let ticket := BitVec.ofNat 32 (bits w 36 12 + g.toNat * 4096)
    let y := (c.reg 3).lo
    let z := (c.reg 4).lo
    let l : Launch := {
      id := s.launchN, tenant := t, ident := c.ident, igen := c.gen, seq := c.seq, prv := c.prv, code := c.reg 0, table := c.reg 1
      size := wordG w, count := wordN w, pri := bits w 23 7, ra := bits w 30 2, hopen := bits w 32 4, co := bits w 36 12, ticket := ticket
      deps := [BitVec.ofNat 32 (bits y 0 32), BitVec.ofNat 32 (bits y 32 32), BitVec.ofNat 32 (bits z 0 32)]
      handle := BitVec.ofNat 32 (bits z 32 32), next := 0, failed := none }
    let s := s.setTenant t { x with objs := Tab.set Obj.fresh x.objs (bits w 36 12) ⟨g, false⟩ }
    .value (some (.plain (BitVec.ofNat 64 ticket.toNat))) ({ s with launches := s.launches ++ [l], launchN := s.launchN + 1 }.noteCold t)

/-- The answer to a `cpush` (R385). -/
def cpushReply (s : State) (c : Cmd) : Reply :=
  let w := (c.reg 2).lo
  let t := c.tenant
  if bits w 39 25 ≠ 0 then .refusal 0xB0 s
  else if c.prv = false ∧ bits w 32 7 > (s.tenantOf t).tprio.toNat then .refusal 0xB2 s
  else match s.freeSlot t with
    | none => .refusal 0xB5 s
    | some q =>
      if (s.unitFault (s.recAddr t q)).isSome then (if s.canPost c 7 then .refusal 0xB5 (s.recordFault c q) else .later)
      else if !s.recOpen t q then .later
      else
      let x := s.qslot t q
      let a := s.recAddr t q
      let r := BitVec.ofNat 1024 (bits w 0 32 + bits w 32 7 * 2 ^ 32 + t % 64 * 2 ^ 39 + x.sgen.toNat * 2 ^ 46)
      let s := s.unitWrite a 16 ((c.reg 0).bits.setWidth 1024) (c.reg 0).tag
      let s := s.unitWrite (a + 16) 16 ((c.reg 1).bits.setWidth 1024) (c.reg 1).tag
      let s := (s.unitWrite (a + 32) 16 r false).unitWrite (a + 48) 16 0 false
      let s := s.setQslot t q { QSlot.free with used := true, sgen := x.sgen, age := s.launchN }
      .value (some (.plain (BitVec.ofNat 64 (q + x.sgen.toNat * 65536)))) ({ s with launchN := s.launchN + 1, freeN := s.freeN + 1 }.noteCold t)

/-- The answer to a `cjoin` (R386). -/
def cjoinReply (s : State) (c : Cmd) : Reply :=
  let q := bits (c.reg 0).lo 0 16
  let met := (s.qslot c.tenant q).used && (s.unitFault (s.recAddr c.tenant q)).isSome
  if !s.recOpen c.tenant q || (met && !s.canPost c 7) then .later
  else match s.joinOne c.tenant (bits (c.reg 0).lo 0 32) with
  | .error r => .refusal r (if met then s.recordFault c q else s)
  | .ok t => .value none (t.noteCold c.tenant)

/-- The answer to a `stopat` (R387). -/
def stopatReply (s : State) (c : Cmd) : Reply :=
  let t := bits (c.reg 0).lo 0 6
  let x := s.tenantOf t
  let T := (c.reg 1).lo
  if x.tstate.val > 1 ∨ s.stopped t ∨ T.toNat < s.counter + 4096 then .refusal 0xB8 s
  else if bits x.tpart 16 12 = 0 then .refusal 0xB9 s
  else .value none (s.setTenant t { x with tstop := T, tstate := 1 })

/-- The dispatch engine's answer to a request. -/
def dispatchReply (s : State) (c : Cmd) : Reply :=
  match c.op with
  | .launch => launchReply s c
  | .cpush => cpushReply s c
  | .cjoin => cjoinReply s c
  | _ => stopatReply s c

/-! ### Launch completion (R375, R419) -/

/-- The context that issued a launch is live. -/
def Launch.issuerLives (l : Launch) (s : State) : Bool := let x := s.loc l.ident; decide (x.state ≠ .free ∧ x.gen = l.igen)

/-- What a launch posts at its completion (R375, R419). -/
def State.launchMessage (s : State) (l : Launch) : State :=
  match l.failed with
  | some (cause, gang, m) =>
    let msg := message 1 7 cause 0 0 l.seq.toNat gang (l.ticket.toNat + m % 2 ^ 32 * 2 ^ 32)
    if l.ra = 1 ∨ l.issuerLives s then s.post l.ident l.igen msg else s.postId (s.tenantOf l.tenant).sysctx msg
  | none => if l.ra = 1 then s.post l.ident l.igen (message 0 7 0 0 1 l.seq.toNat 0 l.ticket.toNat) else s

/-- The fault that the join of a launch's release action meets at its record, and the record's address (R15, R22, R296). -/
def Launch.joinFault (l : Launch) (s : State) : Option (Nat × Nat) :=
  let q := bits l.handle 0 16
  if l.ra = 2 ∧ (s.qslot l.tenant q).used then (s.unitFault (s.recAddr l.tenant q)).map fun code => (code, s.recAddr l.tenant q) else none

/-- A launch completes: DONE, the release action, and its dependants become eligible (R375). A join is a `cjoin` for the tenant's queue (R382); a fault that it meets is posted
to the issuer. -/
def State.launchDone (s : State) (l : Launch) : State :=
  let x := s.tenantOf l.tenant
  let s := { s with launches := s.launches.filter fun k => k.id ≠ l.id }
  let s := s.setTenant l.tenant { x with objs := Tab.set Obj.fresh x.objs l.co { x.obj l.co with done := true } }
  let s := s.launchMessage l
  if l.ra = 2 then
    match l.joinFault s with
    | some (code, a) => s.post l.ident l.igen (message 1 7 code 0 0 l.seq.toNat 0 a)
    | none =>
      match s.joinOne l.tenant l.handle.toNat with
      | .ok t => t.noteCold l.tenant
      | .error _ => s
  else s

/-- The context that a launch posts to at its completion. -/
def Launch.postsTo (l : Launch) (s : State) : Option (BitVec 20 × BitVec 8) :=
  let sys := (s.tenantOf l.tenant).sysctx
  if l.failed.isSome ∧ l.ra ≠ 1 ∧ !l.issuerLives s then some (sys, (s.loc sys).gen)
  else if l.failed.isSome ∨ l.ra = 1 ∨ (l.joinFault s).isSome then some (l.ident, l.igen)
  else none

/-- A launch may complete now: the record that its release action is to join can be accessed, and what it posts finds its mailbox input free (R260). -/
def Launch.canEnd (l : Launch) (s : State) : Bool :=
  (decide (l.ra ≠ 2) || s.recOpen l.tenant (bits l.handle 0 16)) && (match l.postsTo s with | some (id, g) => s.mayPost id g 7 | none => true)

/-- Every gang of a launch has been placed, or it has failed. -/
def Launch.placed (l : Launch) : Bool := decide (l.next ≥ l.count) || l.failed.isSome

/-! ### Placement and gang start (R372-R374, R419) -/

/-- A saved gang of the tenant holds a core, and waits for it (R381, log 58). -/
def State.awaited (s : State) (t h : Nat) : Bool := s.gangs.any fun g => g.tenant = t && g.saved && g.members.contains h

/-- A core may not be a member of a new gang of a tenant: it serves a gang, or a saved gang of the tenant holds it. -/
def State.serves (s : State) (t h : Nat) : Bool := (s.coreOf h).gang.isSome || s.awaited t h

/-- The G members from core h on, of the `fuel` cores left in the partition: holes are passed over, a core that serves a gang ends the search (R373). -/
def State.membersFrom (s : State) (t : Nat) : Nat → Nat → Nat → Option (List Nat)
  | _, _, 0 => some []
  | 0, _, _ + 1 => none
  | fuel + 1, h, n + 1 =>
    if s.hole h then s.membersFrom t fuel (h + 1) (n + 1)
    else if s.serves t h then none
    else (s.membersFrom t fuel (h + 1) n).map (h :: ·)

/-- The members of the next gang of size G: from the lowest H-index that fits (R373). -/
def State.fitting (s : State) (t g : Nat) : Option (List Nat) :=
  let p := (s.tenantOf t).tpart
  let base := bits p 0 11
  let len := bits p 16 12
  (List.range len).findSome? fun i =>
    if s.hole (base + i) || s.serves t (base + i) then none else s.membersFrom t (len - i) (base + i) g

/-- The unit-command capability of a core's matrix unit (R207). -/
def unitCap (h dev t : Nat) (gseq : BitVec 24) : Wreg :=
  ⟨BitVec.ofNat 128 (h + dev * 2 ^ 11 + t % 64 * 2 ^ 24 + gseq.toNat * 2 ^ 32 + (permM + permG + permD) * 2 ^ 64 + 2 * 2 ^ 80), true⟩

/-- Writes a granule of a member record, once its line can be written (R374, R419). -/
def State.recordGranule (s : State) (h : Nat) (l : Launch) (x : Nat) (v : Wreg) : Except (Nat × Nat) State := do
  let (p, t) ← s.engAccess h l.tenant l.table x .wr false
  if !t.engineReady h h 0 .wr p 16 then .error (notYet, x)
  .ok (t.engineWrite h ⟨p.pa, p.swz, 16, v.bits.setWidth 1024, ones 128 16, v.tag, true⟩)

/-- Reads the granules that LMASK names: register and value, with the tag where the table has LC (R374). -/
def State.recordArgs (s : State) (h : Nat) (l : Launch) (x mask : Nat) : List Nat → Except (Nat × Nat) (List (Nat × Wreg) × State)
  | [] => .ok ([], s)
  | j :: rest =>
    if mask / 2 ^ j % 2 = 0 then s.recordArgs h l x mask rest
    else do
      let (v, s) ← (Reader.granule ⟨h, l.tenant, h, 0, [], l.table, false⟩ s (x + 16 * j))
      let (r, s) ← s.recordArgs h l x mask rest
      .ok ((j, { v with tag := v.tag && capHas l.table permLC }) :: r, s)

/-- The record of the member at a position: granules 1 to 3 are written, the arguments are read (R374). -/
def State.memberRecord (s : State) (l : Launch) (h pos : Nat) : Except (Nat × Nat) (List (Nat × Wreg) × State) := do
  let x := (capAddr l.table).toNat + 512 * (l.next * l.size + pos)
  let s ← s.recordGranule h l (x + 16) (unitCap h s.dev l.tenant ((s.coreOf h).gseq + 1))
  let s ← s.recordGranule h l (x + 32) ⟨BitVec.ofNat 128 (h + l.next * 2 ^ 16 + pos * 2 ^ 32 + l.size * 2 ^ 48), false⟩
  let s ← s.recordGranule h l (x + 48) .zero
  let (mask, s) ← (Reader.word ⟨h, l.tenant, h, 0, [], l.table, false⟩ s false 4 x)
  s.recordArgs h l x mask ((List.range 28).map (· + 4))

/-- The records of the members from a position on; a fault names its member index. -/
def State.records (s : State) (l : Launch) : Nat → List Nat → Except (Nat × Nat) (List (Nat × List (Nat × Wreg)) × State) × State
  | _, [] => (.ok ([], s), s)
  | pos, h :: rest =>
    match s.memberRecord l h pos with
    | .error (code, _) => (.error (code, l.next * l.size + pos), s)
    | .ok (args, t) =>
      match t.records l (pos + 1) rest with
      | (.error f, u) => (.error f, u)
      | (.ok (r, v), u) => (.ok ((h, args) :: r, v), u)

/-- What the dispatch engine clears of a core (R200, R271, R277); a remote command that the engine has taken holds its queue entry until it retires (R23), and is cleared with
the others. -/
def Core.cleared (c : Core) : Core :=
  { c with
    z := Core.reset.z, mrq := [], mact := c.mact.filter fun x => !x.1 || x.2.refused, mc := Core.reset.mc, posted := [], overflow := [], deliveries := []
    ks := Core.reset.ks, pw := Core.reset.pw }

/-- A core is placed into a gang (R374 step 1, R207). -/
def Core.place (c : Core) (gang pos t : Nat) : Core :=
  let c := if c.lastTenant = some t then c else c.cleared
  { c with gseq := c.gseq + 1, gang := some (gang, pos), lastTenant := some t }

/-- The control context of a member (R374 step 3). -/
def startControl (l : Launch) (args : List (Nat × Wreg)) (id : BitVec 20) (g : BitVec 8) : Ctx :=
  { Ctx.reset with
    w := args.foldl (fun w (j, v) => w.setIfInBounds j v) Ctx.reset.w
    st := setBit 0 15 l.prv, code := l.code, fcap := l.code, tenant := l.tenant, ident := id, gen := g
    pc := capAddr l.code, entry := .fall, run := .ready }

/-- Starts one member (R374). -/
def State.startMember (s : State) (l : Launch) (gang pos h : Nat) (args : List (Nat × Wreg)) : State :=
  let s := s.setCore h ((s.coreOf h).place gang pos l.tenant)
  let (id, g, s) := s.register h 0 l.tenant
  let s := s.setCtx h 0 (startControl l args id g)
  (List.range 10).foldl (fun s i => s.setCtx h (i + 1) { (s.ctx h (i + 1)).idleAfter with isOpen := decide (i ≥ 10 - l.hopen), tenant := l.tenant }) s

/-- Replaces a launch. -/
def State.setLaunch (s : State) (l : Launch) : State := { s with launches := s.launches.map fun k => if k.id = l.id then l else k }

/-- A gang of a launch is live. -/
def State.hasGang (s : State) (l : Launch) : Bool := s.gangs.any fun g => g.launch = l.id

/-- Places and starts the next gang of a launch on its members, or fails the launch (R373, R374, R419). -/
def State.startGang (s : State) (l : Launch) (ms : List Nat) : Option State :=
  match s.records l 0 ms with
  | (.error (code, m), t) =>
    let l := { l with failed := some (code, l.next, m) }
    let t := t.setLaunch l
    if code = notYet then none
    else if t.hasGang l then some t
    else if l.canEnd s then some (t.launchDone l)
    else none
  | (.ok (rs, t), _) =>
    let gid := t.gangN
    let g : Gang := ⟨gid, l.id, l.next, l.tenant, ms, ⟨[]⟩, false⟩
    let t := { t with gangN := gid + 1, gangs := t.gangs ++ [g] }
    let t := ((List.range rs.length).zip rs).foldl (fun s (pos, h, args) => s.startMember l gid pos h args) t
    some <| t.setLaunch { l with next := l.next + 1 }

/-- The first launch of a tenant whose next gang is to be placed: by priority, then by order of acceptance (R372). -/
def State.firstLaunch (s : State) (t : Nat) : Option Launch :=
  (s.launches.filter fun l => l.tenant = t && !l.placed && s.eligible l).foldl (fun b l =>
    match b with
    | none => some l
    | some k => if l.pri > k.pri then some l else some k) none

/-- GANG_PLACEMENT: an eligible launch of no gangs completes; else the next gang of the first launch is placed where it fits (R372-R375). -/
def State.placeGang (s : State) (t : Nat) : Option State :=
  if s.stopped t then none
  else match s.launches.find? fun l => l.tenant = t && l.count = 0 && s.eligible l && l.canEnd s with
    | some l => some (s.launchDone l)
    | none =>
      match s.firstLaunch t with
      | none => none
      | some l => (s.fitting t l.size).bind fun ms => s.startGang l ms

/-- `GANG_PLACEMENT`. -/
def execGangPlacement (t : Nat) (s : State) : Host.Outcome State Fault Refusal := event s (s.placeGang t)

/-! ### The end of a context (R134) -/

/-- `hend`: fibres close, bound streams are released, those that are written by commands that take their entries of the queue in turn (R241, R267), and the context parks
until it may end (R134). -/
def execHend (s : State) : Host.Outcome State Fault Refusal := conclude s do
  let n := (s.cpu.sg.toList.filter fun x => x.bnd && x.wr).length
  if n ≠ 0 ∧ !(decide (s.tqCount + n ≤ 32) && s.firstFor s.slot 3) then .error (.park (.cmdRoom 3))
  let t := (List.range 8).foldl (fun t g => t.freeStream g) s
  .ok (t.onCpu fun c => { c with fb := Vector.replicate 8 .closed, run := .parked .ending, place := none })

/-- Every core's matrix unit forgets a context that has ended (R211). -/
def State.forget (s : State) (id : BitVec 20) (gen : BitVec 8) : State :=
  { s with core := s.core.forget id gen, cores := s.cores.map fun (k, c) => (k, c.forget id gen) }

/-- The context looked at ends: watches, location entry, counts of its matrix commands, registration for notices, messages that have not reached it, and the queue slot of a
continuation (R134, R153, R167, R211, R260, R376, R402). -/
def State.endContext (s : State) : State :=
  let c := s.cpu
  let s := s.disarm.forget c.ident c.gen
  let s := s.setLoc c.ident { Loc.free with gen := (s.loc c.ident).gen }
  let mine (p : Post) : Bool := p.ident = c.ident && p.gen = c.gen
  let s := { s with fast := { s.fast with reg := s.fast.reg.filter fun x => x.1 ≠ c.ident }, posts := s.posts.filter (!mine ·), owed := s.owed.filter (!mine ·) }
  let s := match c.cont with
    | some (q, _) => let x := s.qslot c.tenant q; s.setQslot c.tenant q { QSlot.free with sgen := x.sgen + 1 }
    | none => s
  s.onCpu Ctx.idleAfter

/-- CONTEXT_END: the waits of `hend` are met (R134): the writes have left, no engine command is outstanding, and for a control context every closed helper is idle. -/
def State.contextEnd (s : State) (h slot : Nat) : Option State :=
  let s := s.focus h slot
  let helpers := (List.range 10).all fun i => (s.ctx h (i + 1)).isOpen || !(s.ctx h (i + 1)).live
  if s.cpu.run = .parked .ending ∧ s.cpu.sq.isEmpty ∧ !s.engineBusy ∧ (slot ≠ 0 ∨ helpers) then some s.endContext else none

/-- The context looked at ends without the waits of `hend` (R109): its fibres close and its streams are released, their elements that are not yet written going on. -/
def State.dismiss (s : State) : State :=
  (((List.range 8).foldl (fun t g => t.freeStream g) s).onCpu fun c => { c with fb := Vector.replicate 8 .closed }).endContext

/-- `CONTEXT_END`. -/
def execContextEnd (h slot : Nat) (s : State) : Host.Outcome State Fault Refusal := event s (s.contextEnd h slot)

/-! ### Gang end (R375) -/

/-- Every context that ran on a core has ended and its writes have been applied, so that the core may leave its gang (R375). -/
def State.coreDone (s : State) (h : Nat) : Bool :=
  ((List.range 11).all fun k => let c := s.ctx h k; !c.live && c.sq.isEmpty)
    && s.net.all fun p => !(decide (p.h = h) && (match p.op with | .read _ | .cfgRead _ | .probe => false | _ => true))

/-- A core leaves its gang: its slots are closed, and keep their registers (R240). -/
def State.freeCore (s : State) (h : Nat) : State :=
  let s := (List.range 11).foldl (fun s k => s.setCtx h k { (s.ctx h k).idleAfter with isOpen := false }) s
  s.setCore h { s.coreOf h with gang := none }

/-- GANG_END: the gang's writes are released, its cores are free, and its launch completes with its last gang (R375). -/
def State.endGang (s : State) (k : Nat) : Option State :=
  match s.gangs[k]? with
  | none => none
  | some g =>
    if g.saved || !g.members.all s.coreDone then none
    else
      let s := g.members.foldl State.freeCore { s with gangs := listDrop s.gangs k }
      match s.launches.find? fun l => l.id = g.launch with
      | some l => if l.placed && !s.hasGang l then (if l.canEnd s then some (s.launchDone l) else none) else some s
      | none => some s

/-- `GANG_END`. -/
def execGangEnd (k : Nat) (s : State) : Host.Outcome State Fault Refusal := event s (s.endGang k)

/-! ### Continuations (R377, R378) -/

/-- The ready records of a tenant: slot, priority, age (R376). A yielded continuation whose image has been paged out waits until the resident system has restored it (R382). -/
def State.readyRecords (s : State) (t : Nat) : List (Nat × Nat × Nat) :=
  (s.tenantOf t).qslots.filterMap fun (q, x) =>
    let r := s.recWord t q
    let a := s.recAddr t q
    let gone := bit r 45 && decide ((s.loc x.ident).state = .cold)
    if x.used && !x.busy && !gone && tableOk a && s.reaches a && s.recOpen t q && decide (bits r 0 32 = 0) then some (q, bits r 32 7, x.age) else none

/-- The ready record of the highest priority, oldest first (R377). -/
def State.bestRecord (s : State) (t : Nat) : Option (Nat × Nat × Nat) :=
  (s.readyRecords t).foldl (fun b x =>
    match b with
    | none => some x
    | some y => if x.2.1 > y.2.1 ∨ (x.2.1 = y.2.1 ∧ x.2.2 < y.2.2) then some x else some y) none

/-- The tenant of the live gang that a core serves. -/
def State.servedTenant (s : State) (h : Nat) : Option Nat :=
  match (s.coreOf h).gang with
  | none => none
  | some (g, _) => (s.gangs.find? fun x => x.id = g && !x.saved).map (·.tenant)

/-- A continuation that starts anew in a slot (R377). -/
def startContinuation (ctl : Ctx) (code frame : Wreg) (t : Nat) (id : BitVec 20) (g : BitVec 8) (q : Nat) (handle : BitVec 32) (pri : Nat) : Ctx :=
  { Ctx.reset with
    w := Ctx.reset.w.set 3 frame, cw := ctl.cw, tvec := ctl.tvec, st := setBit 0 15 ctl.prv, code := code, fcap := code
    tenant := t, ident := id, gen := g, pc := capAddr code, entry := .fall, run := .ready, isOpen := true, cont := some (q, handle, pri, frame) }

/-- Puts back the registers of a save area: w and v registers by granule (R378). -/
def Ctx.restoreGranule (c : Ctx) (o : Nat) (x : BitVec 128) (t : Bool) : Ctx :=
  if 32 ≤ o ∧ o < 1056 then (if o = 32 then c else { c with w := c.w.setIfInBounds ((o - 32) / 16) ⟨x, t⟩ })
  else if 1056 ≤ o then
    let i := (o - 1056) / 128
    { c with v := c.v.setIfInBounds i (setBits ((c.v[i]?).getD 0) ((o - 1056) % 128 * 8) 128 x.toNat) }
  else c

/-- Reads granules of a save area that have been placed. -/
def State.areaGranule (s : State) (p : Place) : BitVec 128 × Bool := (BitVec.ofNat 128 (s.readFor s.cur p.swz p.pa 16), s.tagFor s.cur p.swz p.pa)

/-- A yielded continuation comes back into the slot looked at: the live groups and the sticky flags are restored, every other register has its reset value, PRV among them
(log 91), and issue is to begin at the saved header once its entry has left the state moving (R112, R167, R378). None where its save area cannot be read yet. -/
def State.comeBack (s : State) (t q : Nat) (code frame : Wreg) (x : QSlot) (handle : BitVec 32) (pri : Nat) : Option State :=
  match (s.onCpu fun c => { c with tenant := t }).savePlaces frame .rd [(0, 0, false), (16, 0, false)] with
  | .ok [(p, _), (r, _)] =>
    let (a, _) := s.areaGranule p
    let (b, _) := s.areaGranule r
    let shape : Ctx := { Ctx.reset with isOpen := true, tenant := t }
    match s.savePlaces frame .rd ((shape.saveImage 0 (bits b 0 16) (bits b 16 8)).drop 2) with
    | .error _ => none
    | .ok l =>
      if !s.saveClear ((p, 0, false) :: (r, 0, false) :: l) then none
      else
      let offs := ((shape.saveImage 0 (bits b 0 16) (bits b 16 8)).drop 2).map (·.1)
      let c := (offs.zip l).foldl (fun (c : Ctx) (o, p, _) => let (v, tg) := s.areaGranule p; c.restoreGranule o v tg) shape
      let loc := s.loc x.ident
      let c := { c with
        st := BitVec.ofNat 64 (bits a 64 10 * 2 ^ 40), code := code, fcap := code, ident := x.ident, gen := loc.gen, seqs := x.seqs
        pc := BitVec.ofNat 64 (bits a 0 64), entry := .fall, run := .parked .restore, cont := some (q, handle, pri, frame) }
      let s := s.setLoc x.ident { loc with state := .moving, hidx := BitVec.ofNat 11 s.cur, slot := BitVec.ofNat 4 s.slot, img := 0 }
      some (s.onCpu fun o => { c with sq := o.sq, aset := o.aset })
  | _ => none

/-- The state of a context has been written to device memory, or read from it: a restored one is resident, takes an overwrite that its entry records, and issues; a saved one
is saved (R167, R170). -/
def State.moved (s : State) (id : BitVec 20) : Option State :=
  let l := s.loc id
  if l.state ≠ .moving then none
  else match s.heldAt id with
    | none => some (s.setLoc id { l with state := .saved })
    | some (h, slot) =>
      let c := s.ctx h slot
      if c.run = .parked .restore then
        some ((s.setLoc id { l with state := .resident, pov := false, povInfo := 0 }).setCtx h slot
          { c with run := .ready, povr := if l.pov then some l.povInfo else none })
      else none

/-- CONTINUATION_POP: an idle open slot takes the best ready record of its tenant (R377, R378). -/
def State.popRecord (s : State) (h slot : Nat) : Option State :=
  match s.servedTenant h with
  | none => none
  | some t =>
    if s.stopped t then none
    else match s.bestRecord t with
      | none => none
      | some (q, pri, _) =>
        let s := s.focus h slot
        if !s.cpu.isOpen || s.cpu.live then none
        else
          let x := s.qslot t q
          let code := s.recCap t q 0
          let frame := s.recCap t q 1
          let r := s.recWord t q
          let handle := BitVec.ofNat 32 (q + x.sgen.toNat * 65536)
          if bit r 45 then
            let s := s.setQslot t q { x with busy := true }
            s.comeBack t q code frame x handle pri
          else
            let (id, g, s) := s.register h slot t
            let s := s.setQslot t q { x with busy := true }
            some (s.onCpu fun o => { startContinuation (s.ctx h 0) code frame t id g q handle pri with sq := o.sq, aset := o.aset })

/-- `CONTINUATION_POP`. -/
def execContinuationPop (h slot : Nat) (s : State) : Host.Outcome State Fault Refusal := event s (s.popRecord h slot)

/-- Open slots of a tenant's live gangs, in H-order (R378). -/
def State.openSlots (s : State) (t : Nat) : List (Nat × Nat) :=
  (((s.gangs.filter fun g => g.tenant = t && !g.saved).map (·.members)).flatten.mergeSort (fun a b => decide (a ≤ b))).flatMap fun h =>
    ((List.range 10).filter fun i => (s.ctx h (i + 1)).isOpen).map fun i => (h, i + 1)

/-- YIELD_SIGNAL: while a ready record of a higher priority waits and no open slot is idle, the slot of the lowest priority is signalled, one at a time (R378). -/
def State.signalYield (s : State) (t : Nat) : Option State :=
  if s.stopped t then none
  else match s.bestRecord t with
    | none => none
    | some (_, p, _) =>
      let l := s.openSlots t
      if l.any fun (h, k) => let c := s.ctx h k; !c.live || c.yieldSig then none
      else
        let low := l.foldl (fun (b : Option (Nat × Nat × Nat)) (h, k) =>
          match (s.ctx h k).cont with
          | none => b
          | some (_, _, q, _) =>
            match b with
            | none => some (h, k, q)
            | some (_, _, q') => if q < q' then some (h, k, q) else b) none
        match low with
        | none => none
        | some (h, k, q) => if q < p then some (s.setCtx h k { s.ctx h k with yieldSig := true }) else none

/-- `YIELD_SIGNAL`. -/
def execYieldSignal (t : Nat) (s : State) : Host.Outcome State Fault Refusal := event s (s.signalYield t)

/-! ### Gang barriers (R154) -/

/-- Two values under the operation of a vote. -/
def combineVotes (op : Nat) (x y : BitVec 64) : BitVec 64 :=
  match op with
  | 1 => x &&& y
  | 2 => x ||| y
  | 3 => if x.toNat ≤ y.toNat then x else y
  | 4 => if x.toNat ≤ y.toNat then y else x
  | _ => x + y

/-- The combined value of an instance: of the votes where every arrival votes alike; free where arrivals differ in their form. -/
def State.outcome (s : State) (l : List (Nat × Option (Nat × BitVec 64))) : BitVec 64 :=
  match l with
  | [] => 0
  | (_, none) :: rest => if rest.all (fun x => x.2.isNone) then 0 else Config.freeWord s.freeN
  | (_, some (op, v)) :: rest =>
    if rest.all (fun x => match x.2 with | some (o, _) => decide (o = op) | none => false) then
      rest.foldl (fun a x => match x.2 with | some (_, y) => combineVotes op a y | none => a) v
    else Config.freeWord s.freeN

/-- A context waits at a gang barrier. -/
def Ctx.atBarrier (c : Ctx) : Bool :=
  match c.run with
  | .parked .barrier | .halted _ (some .barrier) => true
  | _ => false

/-- An instance completes: every context of the gang's cores that waits for it receives the value; one that an earlier instance has released keeps that one's (R154). -/
def State.releaseBarrier (s : State) (ms : List Nat) (v : BitVec 64) : State :=
  ms.foldl (fun s h => (List.range 11).foldl (fun s k =>
    let c := s.ctx h k
    if c.atBarrier && c.gbar.isNone then s.setCtx h k { c with gbar := some v } else s) s) { s with freeN := s.freeN + 1 }

/-- BARRIER_ARRIVAL: the arrival at the head of a control context's store queue reaches the dispatch engine; the last one completes the instance (R154). -/
def State.arriveBarrier (s : State) (h slot : Nat) : Option State :=
  let c := s.ctx h slot
  match c.sq with
  | .barrier vote :: rest =>
    match (s.coreOf h).gang with
    | none => some (s.setCtx h slot { c with sq := rest })
    | some (gid, _) =>
      match s.gangs.find? fun g => g.id = gid with
      | none => some (s.setCtx h slot { c with sq := rest })
      | some g =>
        let s := s.setCtx h slot { c with sq := rest }
        let l := g.barrier.arrivals ++ [(h, vote)]
        let full := decide (l.length ≥ g.members.length)
        let s := { s with gangs := s.gangs.map fun x => if x.id = gid then { x with barrier := ⟨if full then [] else l⟩ } else x }
        some (if full then s.releaseBarrier g.members (s.outcome l) else s)
  | _ => none

/-- `BARRIER_ARRIVAL`. -/
def execBarrierArrival (h slot : Nat) (s : State) : Host.Outcome State Fault Refusal := event s (s.arriveBarrier h slot)

end Sys2Proof.Machine
end

