-- ==== Sys2Proof/Machine/Stops.lean ====
section
/-! DEFINITION. Synchronized stops and resumes (R113, R114, R379-R381), and debug: halts, scoreboard, debug registers and the two ways out of a double trap (R109, R115, R116). -/

namespace Sys2Proof.Machine

/-! ### The stop cycle (R379) -/

/-- A context halts at the stop cycle: what engines have read ahead and the return addresses are discarded, a walk is asked for again, and one that waits in `mwait` is
marked (R113, R129, R153, R262, R292). -/
def Ctx.haltStop (c : Ctx) : Ctx :=
  let c := { c with
    failedMon := false, ras := [], walk := none, walkFault := none
    sg := c.sg.map fun (x : Stream) => if x.wr ∨ x.flt then x else { x with held := [] }
    fb := c.fb.map fun (f : Fibre) => { f with ahead := [] } }
  match c.run with
  | .ready | .issuing | .parked .walk | .parked .restore => { c with run := .halted .stop none }
  | .parked (.ask _) => { c with run := .halted .stop none, answer := none }
  | .parked (.watch t) => { c with run := .halted .stop (some (.watch t)), stopMark := true }
  | .parked w => { c with run := .halted .stop (some w) }
  | _ => c

/-- A walker drops the runs that have not committed, and goes on from the first of them (R292). -/
def Walker.pause (w : Walker) : Walker := { w with runs := w.runs.takeWhile (·.applied), read := [], next := w.done }

/-- A request that is asked again on resume: `fwait` and `fq` (R336). -/
def Cmd.asksAgain (c : Cmd) : Bool := c.op = .fwait || c.op = .fq

/-- An entry of a store queue that holds such a request. -/
def SqEntry.asksAgain : SqEntry → Bool
  | .command _ c => c.asksAgain
  | _ => false

/-- A function on every live context of a tenant in its slot. -/
def State.mapTenant (s : State) (t : Nat) (f : Ctx → Ctx) : State :=
  { s with
    cpu := if s.cpu.live && s.cpu.tenant = t then f s.cpu else s.cpu
    ctxs := s.ctxs.map fun (k, c) => (k, if k < ctxKey 2048 0 && c.live && c.tenant = t then f c else c) }

/-- The live contexts of a tenant: core and slot. -/
def State.contextsOf (s : State) (t : Nat) : List (Nat × Nat) :=
  ((ctxKey s.cur s.slot :: s.ctxs.map (·.1)).filter fun k =>
    let c := s.ctx (k / 16) (k % 16)
    decide (k < ctxKey 2048 0) && c.live && c.tenant = t).map fun k => (k / 16, k % 16)

/-- STOP_CYCLE_REACHED: at cycle T every context of the tenant halts at an instruction boundary, and TSTATE becomes 2 (R379, R113, R153). -/
def State.stopCycle (s : State) (t : Nat) : Option State :=
  let x := s.tenantOf t
  if x.tstate ≠ 1 ∨ s.counter < x.tstop.toNat then none
  else
    let l := s.contextsOf t
    let s := { s with requests := s.requests.filter fun r => !(r.2.tenant = t && r.2.asksAgain) }
    let s := s.mapTenant t fun c => Ctx.haltStop { c with sq := c.sq.filter fun e => !e.asksAgain }
    let s := l.foldl (fun s (h, k) =>
      s.setCore h { s.coreOf h with watches := (s.coreOf h).watches.filter fun w => w.slot ≠ k, pw := (s.coreOf h).pw.map Walker.pause }) s
    some (s.setTenant t { s.tenantOf t with tstate := 2, tokenDone := false })

/-- `STOP_CYCLE_REACHED`. -/
def execStopCycleReached (t : Nat) (s : State) : Host.Outcome State Fault Refusal := event s (s.stopCycle t)

/-! ### The felt token (R380) -/

/-- Elements appended to a write stream have been written, or a fault has stopped them. -/
def Stream.written (x : Stream) : Bool := x.held.isEmpty || x.flt

/-- A context's stores and the elements of its write streams have left it (R44, R262). -/
def Ctx.drained (c : Ctx) : Bool := c.sq.isEmpty && c.sg.toList.all fun x => !(x.bnd && x.wr) || x.written

/-- The elements of the write streams that a core's contexts have released have been written (R262). -/
def Core.drained (c : Core) : Bool := c.tq.all fun x => match x.strm with | some y => !(decide (x.op = .sfree)) || y.written | none => true

/-- A packet whose value a context waits for. -/
def PacketOp.answers (op : PacketOp) : Bool :=
  match op with
  | .read _ | .amo .. | .stfeWait _ | .cfgRead _ => true
  | _ => false

/-- Every load and atomic that has left a context of the tenant has completed, but for those that wait for a full or empty bit (R114). -/
def State.loadsDone (s : State) (t : Nat) : Bool :=
  (s.net.all fun p => !(decide (p.tenant = t) && p.op.answers) || p.waiting)
    && (s.contextsOf t).all fun (h, k) => (s.ctx h k).pend.isNone || (s.net.any fun p => decide (p.h = h ∧ p.slot = k) && p.waiting)

/-- A context that waits for a full or empty bit takes its request back, and makes it again on resume (R114). -/
def Ctx.takeBack (c : Ctx) : Ctx := if c.pend.isSome then { c with pend := none, run := .halted .stop none } else c

/-- FELT_TOKEN: once what the halted contexts and their streams have written has left them, and their loads have completed, the token sweeps the tenant's packets into felt
buffers, in their order; those that their agent has accepted are applied there (R44, R114, R262, R380). -/
def State.felt (s : State) (t : Nat) : Option State :=
  let x := s.tenantOf t
  if x.tstate ≠ 2 ∨ x.tokenDone ∨ !((s.contextsOf t).all fun (h, k) => (s.ctx h k).drained && (s.coreOf h).drained) ∨ !s.loadsDone t then none
  else
    let s := { s with net := s.net.filter fun p => !(decide (p.tenant = t) && p.op.answers) }.mapTenant t Ctx.takeBack
    let mineP (p : Packet) : Bool := decide (p.tenant = t ∧ p.stage ≠ .agent)
    let mineA (a : Arrival) : Bool := a.sten0 = t && a.atPort.isNone
    let mineM (m : Msg) : Bool := m.tenant = t
    some ({ s with
      net := s.net.filter (!mineP ·), arrivals := s.arrivals.filter (!mineA ·), msgs := s.msgs.filter (!mineM ·) }.setTenant t
      { x with tokenDone := true, felt := s.net.filter mineP, feltArr := s.arrivals.filter mineA, feltMsg := s.msgs.filter mineM })

/-- `FELT_TOKEN`. -/
def execFeltToken (t : Nat) (s : State) : Host.Outcome State Fault Refusal := event s (s.felt t)

/-! ### Saving and restoring gangs (R380, R381) -/

/-- What stays in a core whose gang has been saved: its configuration, and its accumulators and counters as they stood. -/
def Core.leftBehind (c : Core) : Core :=
  { c with gang := none, mq := [], mrq := [], mact := [], tq := [], pq := [], uncov := [], posted := [], overflow := [], deliveries := [], pw := Core.reset.pw, watches := [] }

/-- A multicast copy is saved at its first line that has not been applied (R262). -/
def Cmd.pauseMc (c : Cmd) : Cmd :=
  if !c.op.isMc then c
  else
    let i := ((List.range c.prog).find? fun i => !(c.got.any fun g => g.1 = i)).getD c.prog
    { c with prog := i, got := c.got.filter fun g => g.1 < i }

/-- A cut that has begun is saved at position 0, and cuts again from the cursor it captured (R238); what a matrix command has read before it runs is read again (R113). -/
def Cmd.pauseMatrix (c : Cmd) : Cmd :=
  match c.op with
  | .dcut .. => { c with prog := 0, outs := [], tbs := [], fault := none, got := [] }
  | _ => { c with got := [] }

/-- A command of the transfer engine is saved at the first line or element that it has not written; a copy gives up the line that it has taken (R38, R262). -/
def Cmd.pauseCopy (c : Cmd) : Cmd := if c.op = .cpy then c.notTaken else c.pauseMc

/-- The queues of a core as they are saved (R113). -/
def Core.paused (c : Core) : Core :=
  { c with
    mq := c.mq.map Cmd.pauseMatrix, mrq := c.mrq.map Cmd.pauseMatrix, mact := c.mact.map fun (b, x) => (b, x.pauseMatrix)
    tq := c.tq.map Cmd.pauseCopy }

/-- Saves the context in a slot of a core: its registers as an image under TSAVE, and beside it the rest of its state (R113, log 40). -/
def State.saveSlot (s : State) (t h i : Nat) : State :=
  let c := { s.ctx h i with failedMon := false }
  let a := s.imageAt t h i
  let s := if c.live then (let s := s.unitWrote a (16 * imageSize); { s with mem := s.mem.putImage a c }) else s
  (s.setCtx (savedKey t h) i c).setCtx h i .reset

/-- Saves a core of a gang: contexts, registers, queues and scratch (R113). -/
def State.saveCore (s : State) (t h : Nat) : State :=
  let s := (List.range 11).foldl (fun s i => s.saveSlot t h i) s
  let s := s.unitWrote (s.savedBase t h) 0x60000
  let s := { s with mem := s.mem.copyBlock (scratchBase s.dev h) 0x60000 (s.savedBase t h), owned := s.owned.filter fun o => o.h ≠ h }
  (s.setCore (savedKey t h) (s.coreOf h).paused).setCore h (s.coreOf h).leftBehind

/-- A core as it is restored: its own configuration and translations, the rest as saved; the activity window starts empty (R113, R381). -/
def Core.restored (now saved : Core) : Core :=
  { saved with
    budget := now.budget, wtab0 := now.wtab0, wtab1 := now.wtab1, dhalt := now.dhalt, haltedAt := now.haltedAt, dsel := now.dsel, dlo := now.dlo, dhi := now.dhi
    dtag := now.dtag, ovfl := now.ovfl, tlb := now.tlb, act := [], lastIssue := none }

/-- Restores the context in a slot of a core: its registers from its image, the rest as it was kept (R381). -/
def State.restoreSlot (s : State) (t h i : Nat) : State :=
  let c := s.ctx (savedKey t h) i
  (s.setCtx h i (if c.live then c.fromMemory s.mem (s.imagePa (s.loc c.ident)) else c)).setCtx (savedKey t h) i .reset

/-- Restores a core of a gang. -/
def State.restoreCore (s : State) (t h : Nat) : State :=
  let s := (List.range 11).foldl (fun s i => s.restoreSlot t h i) s
  let s := { s with mem := s.mem.copyBlock (s.savedBase t h) 0x60000 (scratchBase s.dev h) }
  (s.setCore h ((s.coreOf h).restored (s.coreOf (savedKey t h)))).setCore (savedKey t h) .reset

/-- The slice engine has finished the tenant's commands (R367). -/
def State.slicesDone (s : State) (t : Nat) : Bool :=
  !(s.requests.any fun x => x.1 = 6 && x.2.tenant = t) && !(s.blocked.any fun b => match b.cmd with | some c => decide (c.tenant = t) | none => false)

/-- The entries of the contexts in slots of cores are changed. -/
def State.mapLocs (s : State) (l : List (Nat × Nat)) (f : Nat → Nat → Loc → Loc) : State :=
  l.foldl (fun s (h, k) => s.setLoc (s.ctx h k).ident (f h k (s.loc (s.ctx h k).ident))) s

/-- The entries of a tenant's saved contexts name their images, and record an overwrite that is pending (R168, R170). -/
def State.savedLocs (s : State) (t : Nat) (l : List (Nat × Nat)) : State :=
  s.mapLocs l fun h k x =>
    let p := (s.ctx h k).povr
    { x with state := .saved, hidx := 0, slot := 0, img := BitVec.ofNat 43 (localOf (s.imageAt t h k)), pov := p.isSome, povInfo := p.getD 0 }

/-- STOP_COMPLETE: the token has passed, every field holds and the slice commands are done. The contexts are moving while the state is saved; then they are saved, the cores
are free and TSTATE becomes 3 (R167, R380). The layout of the saved state in the TSAVE region is not given; log 40. -/
def State.stopDone (s : State) (t : Nat) : Option State :=
  let x := s.tenantOf t
  let held := (s.fields.filter fun f => f.tenant = t).all fun f => !f.started
  let l := s.contextsOf t
  if x.tstate ≠ 2 ∨ !x.tokenDone ∨ !held ∨ !s.slicesDone t ∨ s.net.any (fun p => p.tenant = t) then none
  else if l.any fun (h, k) => (s.loc (s.ctx h k).ident).state ≠ .moving then
    some (s.mapLocs l fun h k x => { x with state := .moving, hidx := BitVec.ofNat 11 h, slot := BitVec.ofNat 4 k })
  else
    let s := { s.savedLocs t l with mcast := s.mcast.filter fun e => e.tenant ≠ t }
    let s := (s.gangs.filter fun g => g.tenant = t && !g.saved).foldl (fun s g => g.members.foldl (fun s h => s.saveCore t h) s) s
    let s := { s with gangs := s.gangs.map fun (g : Gang) => if g.tenant = t then { g with saved := true } else g }
    some (s.setTenant t { s.tenantOf t with tstate := 3 })

/-- `STOP_COMPLETE`. -/
def execStopComplete (t : Nat) (s : State) : Host.Outcome State Fault Refusal := event s (s.stopDone t)

/-- TRESUME_WRITE: 1 while the tenant is stopped starts the resume (R381). -/
def execTresumeWrite (t : Nat) (v : BitVec 64) (s : State) : Host.Outcome State Fault Refusal :=
  event s (if v = 1 ∧ (s.tenantOf t).tstate = 3 then some (s.setTenant t { s.tenantOf t with tstate := 4 }) else none)

/-- A context is let go on after a stop: what it waited for, it waits for again (R114, R155). -/
def Ctx.letGo (c : Ctx) : Ctx :=
  match c.run with
  | .halted .stop none => { c with run := .ready, kv := none }
  | .halted .stop (some w) => { c with run := .parked w }
  | _ => c

/-- The entry of a context becomes resident again, and an overwrite that it records is pending (R170, R171). -/
def State.resident (s : State) (h k : Nat) : State :=
  let c := s.ctx h k
  let l := s.loc c.ident
  let s := s.setLoc c.ident { l with
    state := .resident, hidx := BitVec.ofNat 11 h, slot := BitVec.ofNat 4 k, img := 0, pov := false, povInfo := 0, aww := 0, awv := 0, awp := 0 }
  s.setCtx h k { c with povr := if c.povr.isSome then c.povr else if l.pov then some l.povInfo else none }

/-- A saved gang waits for a lease: a core of it is out of service or due (R381, R392, log 58). -/
def State.late (s : State) (g : Gang) : Bool := g.members.any fun h => s.hole h || decide ((Tab.get FStat.reset s.fast.stat h).state = 1)

/-- The cores of a saved gang are free of other gangs. -/
def State.coresFree (s : State) (g : Gang) : Bool := g.members.all fun h => (s.coreOf h).gang.isNone

/-- The tenant has a cold context, whose image the resident system is to restore (R382). -/
def State.hasCold (s : State) (t : Nat) : Bool := s.locs.any fun l => l.2.state = .cold && l.2.ten.toNat = t

/-- Restores a gang on its cores; its contexts are moving until they are let go on (R167, R381). -/
def State.restoreGang (s : State) (t : Nat) (g : Gang) : State :=
  let s := g.members.foldl (fun s h => s.restoreCore t h) s
  let s := { s with gangs := s.gangs.map fun (x : Gang) => if x.id = g.id then { x with saved := false } else x }
  s.mapLocs ((s.contextsOf t).filter fun x => g.members.contains x.1) fun h k x => { x with state := .moving, hidx := BitVec.ofNat 11 h, slot := BitVec.ofNat 4 k }

/-- The contexts of restored gangs that are still moving: core and slot. -/
def State.restored (s : State) (t : Nat) : List (Nat × Nat) :=
  (s.contextsOf t).filter fun (h, k) => decide ((s.loc (s.ctx h k).ident).state = .moving ∧ (s.ctx h k).run ≠ .parked .restore)

/-- The contexts of restored gangs are resident, with the arrivals that were deferred for them applied first (R167, R171). -/
def State.arrive (s : State) (l : List (Nat × Nat)) : State :=
  l.foldl (fun s (h, k) => (s.undefer (s.ctx h k).ident).resident h k) s

/-- The felt buffers are re-injected in their order, and the fields' modes are restored (R380, R381, R313). -/
def State.rejoin (s : State) (t : Nat) : State :=
  let x := s.tenantOf t
  { s with
    net := s.net ++ x.felt, arrivals := s.arrivals ++ x.feltArr, msgs := s.msgs ++ x.feltMsg
    fields := s.fields.map fun (f : Field) =>
      if f.tenant = t then
        match f.saved with
        | some (m, n) => Field.start { f with mode := m, steps := n }
        | none => f
      else f }.setTenant t { x with tstate := 0, tokenDone := false, felt := [], feltArr := [], feltMsg := [] }

/-- RESUME_START: while the tenant resumes, its saved gangs are restored one by one, each once its cores are free; a gang that waits for a lease is left, unless every gang
does. Then the contexts are resident, felt buffers re-injected, field modes restored, and every context issues. A gang that was left is restored later, when its lease has
returned its cores, and its contexts issue (R167, R171, R381, log 58). A tenant with a cold context waits (R382). -/
def State.resumeAll (s : State) (t : Nat) : Option State :=
  let gs := s.gangs.filter fun g => g.tenant = t && g.saved
  let back := s.restored t
  match (s.tenantOf t).tstate with
  | 4 =>
    if s.hasCold t then none
    else match gs.find? fun g => !s.late g with
      | some g => if s.coresFree g then some (s.restoreGang t g) else none
      | none => if gs.isEmpty || s.gangs.any (fun g => g.tenant = t && !g.saved) then some (((s.arrive back).rejoin t).mapTenant t Ctx.letGo) else none
  | 0 =>
    if !back.isEmpty then some ((s.arrive back).mapTenant t Ctx.letGo)
    else if s.hasCold t then none
    else (gs.find? fun g => !s.late g && s.coresFree g).map fun g => s.restoreGang t g
  | _ => none

/-- `RESUME_START`. -/
def execResumeStart (t : Nat) (s : State) : Host.Outcome State Fault Refusal := event s (s.resumeAll t)

/-! ### Debug halt (R115) -/

/-- DHALT_HALT: the core issues nothing more. -/
def execDhaltHalt (h : Nat) (s : State) : Host.Outcome State Fault Refusal :=
  let c := s.coreOf h
  event s (if c.dhalt then none else some (s.setCore h { c with dhalt := true, haltedAt := s.time }))

/-- The timeout of an `mwait` is put off by the cycles of a halt (R151). -/
def Ctx.putOff (c : Ctx) (n : Nat) : Ctx :=
  match c.run with
  | .parked (.watch t) => if t = 0 then c else { c with run := .parked (.watch (t + n)), passed := c.passed.map (· + n) }
  | _ => c

/-- DHALT_RELEASE: every context resumes in the state it was halted in (R115). -/
def execDhaltRelease (h : Nat) (s : State) : Host.Outcome State Fault Refusal :=
  let c := s.coreOf h
  event s (if c.dhalt then
      let n := s.time - c.haltedAt
      some ((List.range 11).foldl (fun s k => s.setCtx h k ((s.ctx h k).putOff n)) (s.setCore h { c with dhalt := false }))
    else none)

/-- What a store to SBW or SBVP at an offset of a core's block writes (R116). -/
def State.writeScoreboard (s : State) (h off : Nat) (v : BitVec 64) : State :=
  if !(s.coreOf h).dhalt then s
  else if 0x20 ≤ off ∧ off < 0x78 then
    let k := (off - 0x20) / 8
    s.setCtx h k { s.ctx h k with awW := setBit v 0 false }
  else if 0x80 ≤ off ∧ off < 0xD8 then
    let k := (off - 0x80) / 8
    s.setCtx h k { s.ctx h k with awV := v.setWidth 32, awP := BitVec.ofNat 8 (bits v 32 8) }
  else s

/-- `SCOREBOARD_WRITE`. -/
def execScoreboardWrite (h off : Nat) (v : BitVec 64) (s : State) : Host.Outcome State Fault Refusal := event s (some (s.writeScoreboard h off v))

/-! ### Debug registers (R116) -/

/-- Fields of DSEL. -/
structure Dsel where
  slot : Nat
  cls  : Nat
  num  : Nat
  chk  : Nat
  row  : Nat
  col  : Nat

/-- The fields of a core's DSEL. -/
def Core.selection (c : Core) : Dsel := ⟨bits c.dsel 0 4, bits c.dsel 4 4, bits c.dsel 8 8, bits c.dsel 16 3, bits c.dsel 20 6, bits c.dsel 26 5⟩

/-- The selected register exists. -/
def Dsel.names (d : Dsel) : Bool :=
  match d.cls with
  | 0 => decide (d.slot ≤ 10 ∧ d.num < 64)
  | 1 => decide (d.slot ≤ 10 ∧ d.num < 32)
  | 2 | 3 | 5 => decide (d.slot ≤ 10 ∧ d.num < 8)
  | 4 => decide (d.slot ≤ 10 ∧ d.num < 4)
  | 6 | 7 => true
  | _ => false

/-- A debug command may act now: the core is halted, or the slot is double-trapped. -/
def State.debugTime (s : State) (h : Nat) (d : Dsel) : Bool :=
  (s.coreOf h).dhalt || (decide (d.cls < 6 ∧ d.slot ≤ 10) && (s.ctx h d.slot).dbl)

/-- The matrix unit of a core holds an unretired command; one that waits behind its context's stores has not reached it (log 105). -/
def Core.matrixBusy (c : Core) : Bool := !c.mq.isEmpty || !c.mrq.isEmpty || !c.mact.isEmpty

/-- The value of the selected register. -/
def State.debugRead (s : State) (h : Nat) (d : Dsel) : Wreg :=
  let c := s.ctx h d.slot
  let z := ((s.coreOf h).z[d.num % 4]?).getD .zero
  match d.cls with
  | 0 => if d.num = 0 then .zero else (c.w[d.num]?).getD .zero
  | 1 => ⟨BitVec.ofNat 128 (bits ((c.v[d.num]?).getD 0) (128 * d.chk) 128), false⟩
  | 2 => .plain ((c.p[d.num]?).getD 0)
  | 3 => (s.focus h d.slot).sysReg d.num
  | 4 => ⟨(c.lc[d.num]?).getD 0, false⟩
  | 5 => .plain ((c.fm[d.num]?).getD 0)
  | 6 =>
    let e := Tab.get ⟨0, 0, false⟩ z.elems (32 * d.row + d.col)
    ⟨BitVec.ofNat 128 (e.q.toNat + e.tag.toNat * 2 ^ 96 + e.msk.toNat * 2 ^ 98), false⟩
  | _ => .plain (BitVec.ofNat 64 (z.anchor.toNat + z.triv.toNat * 2 ^ 12))

/-- A system register as the debugger writes it. -/
def Ctx.debugSys (c : Ctx) (sel : Nat) (x : Wreg) : Ctx :=
  match sel with
  | 0 => { c with st := stRestored x.lo }
  | 1 => { c with epc := x.lo }
  | 2 => { c with esr := x.lo }
  | _ => { c with tvec := x }

/-- Writes the selected register; awaiting bits stay (R115). -/
def State.debugWrite (s : State) (h : Nat) (d : Dsel) (x : Wreg) : State :=
  let c := s.ctx h d.slot
  let k := s.coreOf h
  let z := (k.z[d.num % 4]?).getD .zero
  match d.cls with
  | 0 => s.setCtx h d.slot { c with w := c.w.setIfInBounds d.num x }
  | 1 => s.setCtx h d.slot { c with v := c.v.setIfInBounds d.num (setBits ((c.v[d.num]?).getD 0) (128 * d.chk) 128 x.bits.toNat) }
  | 2 => s.setCtx h d.slot { c with p := c.p.setIfInBounds d.num x.lo }
  | 3 => s.setCtx h d.slot (c.debugSys d.num x)
  | 4 => s.setCtx h d.slot { c with lc := c.lc.setIfInBounds d.num (setBits x.bits 105 23 0) }
  | 5 => s.setCtx h d.slot { c with fm := c.fm.setIfInBounds d.num x.lo }
  | 6 =>
    let e : Elem := ⟨x.bits.setWidth 96, BitVec.ofNat 2 (bits x.bits 96 2), bit x.bits 98⟩
    s.setCore h { k with z := k.z.setIfInBounds (d.num % 4) { z with elems := Tab.set ⟨0, 0, false⟩ z.elems (32 * d.row + d.col) e } }
  | _ => s.setCore h { k with z := k.z.setIfInBounds (d.num % 4) { z with anchor := x.lo.setWidth 12, triv := bit x.lo 12 } }

/-- Records whether the last DCMD write was refused. -/
def State.setRef (s : State) (h : Nat) (b : Bool) : State := s.setCore h { s.coreOf h with dsel := setBit (s.coreOf h).dsel 63 b }

/-- DCMD value 1 (R116). An image that `fmset` would refuse is refused for a format register too, so that none ever stands there (R80, log 92). -/
def State.dcmdWrite (s : State) (h : Nat) : State :=
  let k := s.coreOf h
  let d := k.selection
  if !s.debugTime h d || !d.names || decide (d.cls = 0 ∧ d.num = 0) || decide (d.cls = 3 ∧ (d.num = 3 ∨ d.num = 4 ∨ d.num = 6 ∨ d.num = 7))
    || (decide (d.cls = 5) && !fmtValid k.dlo) || (decide (6 ≤ d.cls) && k.matrixBusy) then s.setRef h true
  else (s.debugWrite h d ⟨k.dlo.setWidth 128 ||| (k.dhi.setWidth 128 <<< 64), k.dtag && decide (d.cls = 0 ∨ d.cls = 3)⟩).setRef h false

/-- `DCMD_WRITE`. -/
def execDcmdWrite (h : Nat) (s : State) : Host.Outcome State Fault Refusal := event s (some (s.dcmdWrite h))

/-- DCMD value 2 (R116). -/
def State.dcmdRead (s : State) (h : Nat) : State :=
  let d := (s.coreOf h).selection
  if !s.debugTime h d || !d.names then s.setRef h true
  else
    let x := s.debugRead h d
    (s.setCore h { s.coreOf h with dlo := x.lo, dhi := x.hi, dtag := x.tag }).setRef h false

/-- `DCMD_READ`. -/
def execDcmdRead (h : Nat) (s : State) : Host.Outcome State Fault Refusal := event s (some (s.dcmdRead h))

/-- A debugger may reach the fibres of a slot now: as the other registers of a context (R116, R292). -/
def State.fibreTime (s : State) (h slot : Nat) : Bool := decide (slot ≤ 10) && ((s.coreOf h).dhalt || (s.ctx h slot).dbl)

/-- A debugger reads a fibre register as architectural state (R292). -/
def State.debugFibre (s : State) (h slot n : Nat) : Option State :=
  match (s.ctx h slot).fb[n]? with
  | some f => if s.fibreTime h slot then some { s with fibreRead := some f } else none
  | none => none

/-- A fibre register as a debugger writes it: bits 256 to 383 of its layout, and its capabilities. Its read-ahead is discarded (R286, R292). -/
def Fibre.written (capI capV : Wreg) (x : BitVec 128) (vt : Fin 8) (after : Nat) : Fibre :=
  { capI := capI, capV := capV, len := BitVec.ofNat 32 (bits x 0 32), pos := BitVec.ofNat 32 (bits x 32 32), wide := bit x 64, vt := vt, dns := bit x 68
    opn := bit x 69, idx0 := BitVec.ofNat 24 (bits x 70 24), ahead := [], started := true, after := after }

/-- A debugger writes a fibre register (R292); a value type of 6 or 7 never stands in one (R286), and such a write changes nothing. -/
def State.debugFibreWrite (s : State) (h slot n : Nat) (capI capV : Wreg) (x : BitVec 128) : Option State :=
  let vt : Fin 8 := ⟨bits x 65 3, Nat.mod_lt _ (by decide)⟩
  if !s.fibreTime h slot || decide (n ≥ 8) || decide (6 ≤ vt.val) then none
  else some (s.setCtx h slot { s.ctx h slot with fb := (s.ctx h slot).fb.setIfInBounds n (Fibre.written capI capV x vt s.packetN) })

/-! ### Out of a double trap (R109) -/

/-- The context returns as by `rfe`: st takes ESR, and issue continues at EPC (R109, R111). -/
def Ctx.resumeDouble (c : Ctx) (stopping : Bool) : Ctx :=
  { c with run := if stopping then .halted .stop none else .ready, dbl := false, st := stRestored c.esr, entry := .returning }

/-- RESUME of a double-trapped slot (R116). -/
def State.resumeSlot (s : State) (h slot : Nat) : State :=
  let c := s.ctx h slot
  s.setCtx h slot (c.resumeDouble (decide ((s.tenantOf c.tenant).tstate.val ≥ 2)))

/-- CTXCTL_RESUME of a double-trapped slot. -/
def execCtxctlResume (h slot : Nat) (s : State) : Host.Outcome State Fault Refusal :=
  event s (if (s.ctx h slot).dbl then some (s.resumeSlot h slot) else none)

/-- CTXCTL_DISMISS ends a double-trapped context without the waits of `hend`. -/
def execCtxctlDismiss (h slot : Nat) (s : State) : Host.Outcome State Fault Refusal :=
  event s (if (s.ctx h slot).dbl then some (s.focus h slot).dismiss else none)

end Sys2Proof.Machine
end

