-- ==== Sys2Proof/Machine/Fastness.lean ====
section
/-! DEFINITION. The Fastness unit: resources and their state (R389, R390), leases (R391-R394), test sessions (R395), fade scores and proposals (R396, R397), retirement (R398), capacity notices (R399), its five instructions (R400-R404), and the end of a migration (R357). -/

namespace Sys2Proof.Machine

/-! ### Resources (R389, R390) -/

/-- Cycles of the arithmetic clock in a second (R2). -/
def hertz : Nat := 850000000

/-- The status index of a resource identifier. -/
def statIndex (rid : Nat) : Option Nat :=
  let i := rid % 4096
  match rid / 4096 % 4 with
  | 0 => if i < 2048 then some i else none
  | 1 => if i < 128 then some (2048 + i) else none
  | 2 => if i < 768 then some (2176 + i) else none
  | _ => none

/-- The class of a status index: 0 core, 1 link, 2 channel. -/
def statClass (x : Nat) : Nat := if x < 2048 then 0 else if x < 2176 then 1 else 2

/-- The resource identifier of a status index. -/
def resourceId (x : Nat) : Nat := if x < 2048 then x else if x < 2176 then 4096 + (x - 2048) else 8192 + (x - 2176)

/-- The quadrant whose test engine tests a resource, 4 × die + quadrant (R7, R9, R391). -/
def quadOf (x : Nat) : Nat :=
  if x < 2048 then 4 * (x / 512) + Nat.xor (x / 128 % 4) (x / 256 % 2)
  else if x < 2176 then (x - 2048) / 8
  else let ch := x - 2176; 4 * (ch / 192) + ch / 96 % 2 * 2 + ch % 96 / 48

/-- The state of a resource. -/
def State.fstat (s : State) (x : Nat) : FStat := Tab.get FStat.reset s.fast.stat x

/-- Replaces the state of a resource. -/
def State.setFstat (s : State) (x : Nat) (f : FStat) : State := { s with fast := { s.fast with stat := Tab.set FStat.reset s.fast.stat x f } }

/-- AGE of a resource in seconds, saturating (R390). -/
def State.age (s : State) (x : Nat) : Nat := Nat.min (2 ^ 32 - 1) ((s.time - (s.fstat x).since) / hertz)

/-- FSTAT of a resource (R390). -/
def State.fstatWord (s : State) (x : Nat) : Word :=
  let f := s.fstat x
  BitVec.ofNat 64 (f.score.toNat + f.state.toNat * 2 ^ 16 + s.age x * 2 ^ 32)

/-- The lease interval of a class in seconds. -/
def Fast.interval (f : Fast) (cls : Nat) : Nat :=
  match cls with
  | 0 => f.lintc.toNat
  | 1 => f.lintl.toNat
  | _ => f.lintm.toNat

/-! ### Capacity notices (R399) -/

/-- The number of resources of a class whose state is among those of a list. -/
def State.countStates (s : State) (cls : Nat) (l : List Nat) : Nat :=
  (s.fast.stat.filter fun e => decide (statClass e.1 = cls) && l.contains e.2.state.toNat).length

/-- INFO of a notice. -/
def State.noticeInfo (s : State) (x chg : Nat) : Nat :=
  resourceId x + chg * 2 ^ 14 + (2048 - s.countStates 0 [2, 4, 5]) * 2 ^ 17 + (128 - s.countStates 1 [2, 4, 5, 6]) * 2 ^ 29
    + (768 - s.countStates 2 [2, 4, 5]) * 2 ^ 37

/-- PRV of a context as it stands: in its slot, in its saved image, or as a paged-out context keeps it; that of a yielded continuation is 0 (R99, log 91). -/
def State.prvOf (s : State) (id : BitVec 20) : Bool :=
  match s.heldAt id with
  | some (h, k) => (s.regsAt h k).prv
  | none => s.ctxs.any fun x => decide (ctxKey 2048 0 ≤ x.1) && x.2.live && x.2.ident = id && x.2.gen = (s.loc id).gen && x.2.prv

/-- Posts a notice about a resource to the registered contexts that `who` picks by identifier and tenant. -/
def State.notice (s : State) (x chg : Nat) (who : BitVec 20 → Nat → Bool) : State :=
  let m := message 3 8 0 0 0 0 (s.fstat x).score.toNat (s.noticeInfo x chg)
  s.fast.reg.foldl (fun t (id, gen, ten) => if who id ten then t.post id gen m else t) s

/-- A notice to every registered context. -/
def State.noticeAll (s : State) (x chg : Nat) : State := s.notice x chg fun _ _ => true
/-- A notice to the registered contexts that are privileged now. -/
def State.noticePrv (s : State) (x chg : Nat) : State := s.notice x chg fun id _ => s.prvOf id

/-! ### Frames of a channel (R345, R394) -/

/-- A frame number of the own device, of all devices. -/
def State.ownFrame (s : State) (f : Nat) : Nat := s.dev * 2 ^ 27 + f

/-- The frames that a channel backs: those that the reset map gives it and the remap table has not moved, and those it has moved there. -/
def State.framesOn (s : State) (ch : Nat) : List Nat :=
  ((List.range 16384).map fun k => 768 * k + 8 * (ch % 96) + ch / 96).filter (fun f => s.backing f % 1024 = ch)
    ++ s.frmap.filterMap fun e => if s.backing e.1 % 1024 = ch ∧ resetChannel e.1 ≠ ch then some e.1 else none

/-- The reserve frames that are usable: tag clear, no guest in it, on a channel in state 0, 1 or 3, and not already the target of a move. -/
def State.usable (s : State) : List Nat :=
  ((List.range (bits s.fast.lres 43 20)).map fun i => bits s.fast.lres 16 27 + i).filter fun r =>
    decide (Tab.get 0 s.policy (s.ownFrame r) = 0) && !(s.guests.any fun g => g.2 = some (s.ownFrame r)) && !s.isBlocked r
      && [0, 1, 3].contains (s.fstat (2176 + s.backing r % 1024)).state.toNat

/-- LRESOK (R390). -/
def State.lresok (s : State) : Nat := s.usable.length

/-- A reserve frame for each frame to be moved; which one is free. -/
def pairUp (n : Nat) : List Nat → List Nat → List (Nat × Nat)
  | [], _ => []
  | f :: rest, l =>
    let k := (Config.freeWord n).toNat % l.length
    match l[k]? with
    | some r => (f, r) :: pairUp (n + 1) rest (listDrop l k)
    | none => []

/-- A move of a channel's frame is still to be finished. -/
def State.moving (s : State) (x : Nat) : Bool := s.blocked.any fun b => b.cmd.isNone && b.h = x

/-- The channel's frames are moved onto reserve frames: a pinned one without a copy, another by a migration (R394). A usable reserve frame on the channel stays. -/
def State.emptyChannel (s : State) (x : Nat) : State :=
  let ch := x - 2176
  let here (r : Nat) : Bool := s.backing r % 1024 = ch
  let fs := (s.framesOn ch).filter fun f => !s.usable.contains f
  let pairs := pairUp s.freeN fs (s.usable.filter fun r => !here r)
  pairs.foldl (fun s (f, r) =>
    if (Tab.get none s.pins f).isSome then s.swapBacking f r
    else { s with blocked := s.blocked ++ [⟨f, r, none, x⟩] }) { s with freeN := s.freeN + pairs.length }

/-- There are enough reserve frames for a channel (R394, R398). -/
def State.reserveFor (s : State) (x : Nat) : Bool := decide (s.lresok ≥ (s.framesOn (x - 2176)).length)

/-- A frame of the channel is being migrated or switched by a command, which completes first (R394). -/
def State.channelBusy (s : State) (x : Nat) : Bool :=
  s.blocked.any (fun b => b.cmd.isSome && (decide (s.backing b.frame % 1024 = x - 2176) || decide (s.backing b.other % 1024 = x - 2176)))
    || s.requests.any fun r => r.1 = 6 && r.2.taken && r.2.imgs.any fun g => s.backing (g.toNat % 2 ^ 27) % 1024 = x - 2176

/-- The frames that came to a channel while it was emptied, and the reserve frames on it, hold zeros, their tags and poison clear; `frames` are those that it backed when
its lease began (R394). -/
def State.zeroChannel (s : State) (x : Nat) (frames : List Nat) : State :=
  let l := (s.framesOn (x - 2176)).filter fun f => !frames.contains f || s.usable.contains f
  { s with mem := l.foldl (fun m f => m.zeroFrame (s.ownFrame f)) s.mem }

/-! ### Links and routes (R358, R393, R409) -/

/-- The ports that the route table names for a device. -/
def Module.ports (m : Module) (n : Nat) : List Nat :=
  (List.range 4).filterMap fun k => let e := bits (Tab.get 0 m.rtab n) (8 * k) 8; if e ≥ 128 then some (e - 128) else none

/-- A port that carries traffic: neither dead nor retired. -/
def State.portLive (s : State) (k : Nat) : Bool := !Tab.get false s.mdl.ldead k && decide ((s.fstat (2048 + k)).state ≠ 5)

/-- A live route leads to a device. -/
def State.routeLive (s : State) (n : Nat) : Bool := (s.mdl.ports n).any s.portLive

/-- A change of links or routes from `old` on: the devices that lose their last live route with it count from now on (R358). -/
def State.cutFrom (s old : State) : State :=
  let lost := (old.mdl.rtab.map (·.1)).filter fun n => old.routeLive n && !s.routeLive n
  { s with mdl := { s.mdl with routedAt := lost.foldl (fun t n => Tab.set 0 t n s.time) s.mdl.routedAt } }

/-! ### Retirement (R398) -/

/-- The number of records that the flash log holds at most (R390). -/
def logRoom : Nat := 4096

/-- Writes the retirement record, sets state 5 and posts the notice; a channel's frames become unbacked. -/
def State.recordRetirement (s : State) (x auth : Nat) : State :=
  let f := s.fstat x
  let r : Record := {
    rseq := s.fast.log.length, rid := BitVec.ofNat 14 (resourceId x), auth := BitVec.ofNat 2 auth, score := f.score, time := s.counter
    devno := s.mdl.devno, mcnt := f.mcnt, sigr := Config.signature s.freeN, sigs := Config.signature (s.freeN + 1) }
  let gone := if statClass x = 2 then (s.framesOn (x - 2176)).map s.ownFrame else []
  let s := { s with
    freeN := s.freeN + 2
    fast := { s.fast with log := s.fast.log ++ [r], unbacked := s.fast.unbacked ++ gone, sessions := s.fast.sessions.filter fun y => y.res ≠ x } }
  ((s.setFstat x { f with state := 5, wanted := none, duePos := none }).cutFrom s).noticeAll x 2

/-- The authorisation of a resource's retirement is kept until it can take place. -/
def State.keepWanted (s : State) (x auth : Nat) : State := s.setFstat x { s.fstat x with wanted := some auth }

/-- A core that is due, or to be retired, and serves a gang asks the gang's tenant to release it, once a gang (R392, R398). -/
def State.askRelease (s : State) (x : Nat) : State :=
  match (s.coreOf x).gang with
  | none => s
  | some (g, _) =>
    let f := s.fstat x
    if x ≥ 2048 ∨ f.asked = some g then s
    else match s.gangs.find? fun y => y.id = g with
      | none => s
      | some y => (s.setFstat x { f with asked := some g }).notice x 3 fun _ t => t = y.tenant

/-- Retires a proposed resource: at once, or once its core is free or its channel is empty (R398). -/
def State.retire (s : State) (x auth : Nat) : State :=
  let f := s.fstat x
  if s.fast.log.length ≥ logRoom then s
  else match statClass x with
    | 0 => if f.state = 3 ∧ (s.coreOf x).gang.isSome then (s.keepWanted x auth).askRelease x else s.recordRetirement x auth
    | 1 => s.recordRetirement x auth
    | _ =>
      if s.moving x then s.keepWanted x auth
      else if f.state = 4 then s.recordRetirement x auth
      else if s.channelBusy x then s.keepWanted x auth
      else if s.reserveFor x then
        let t := (s.emptyChannel x).keepWanted x auth
        if t.moving x then t else t.recordRetirement x auth
      else if f.wanted.isSome then s
      else (s.keepWanted x auth).noticeAll x 6

/-! ### Fade scores (R396, R397) -/

/-- The score after a charge, saturating. -/
def scoreUp (c : BitVec 16) (n : Nat) : BitVec 16 := BitVec.ofNat 16 (Nat.min 0xFFFF (c.toNat + n))

/-- Charges a score and tests the threshold; a proposal under standing authorisation retires at once. -/
def State.charge (s : State) (x n : Nat) : State :=
  let f := s.fstat x
  if f.state = 5 then s
  else
    let f := { f with score := scoreUp f.score n }
    if f.score.toNat ≥ 1024 ∧ f.state.toNat ≤ 2 then
      let s := s.setFstat x { f with state := if f.state = 2 then 4 else 3, duePos := none, asked := none, wanted := none }
      if bit s.fast.stand (statClass x) then s.retire x 1 else s.noticePrv x 4
    else s.setFstat x f

/-- The granules that a write was to change are poisoned. -/
def Memory.poisonWrite (m : Memory) (w : WriteOp) : Memory :=
  (List.range w.n).foldl (fun m i => if bit w.mask i then m.setPoison (granuleOf w.swz (w.pa + i)) true else m) m

/-- What a packet of the network loses with a flit: a read or atomic returns poison, and every granule that a write was to change is poisoned (R4, R396). -/
def State.loseFlit (s : State) (k : Nat) (p : Packet) : Option State :=
  let t := { s with net := listDrop s.net k }
  let gone (w : WriteOp) : State := { t with mem := t.mem.poisonWrite w }
  match p.op with
  | .read r => some (t.answerLoad p 0 false (r.lost (s.forwarded p)))
  | .amo .. | .cfgRead _ => some (t.answerLoad p 0 false (some 0))
  | .write w => some (gone w)
  | .stfeWait w => some ((gone w).answerLoad p 0 false none)
  | _ => none

/-- A link loses a flit of a packet to a device that a route over it leads to; of which one is free, and none where no data are on their way. -/
def State.linkLoses (s : State) (port : Nat) : State :=
  let l := (List.range s.net.length).filterMap fun k =>
    match s.net[k]? with
    | some p => match p.dest with | .remote n => if (s.mdl.ports n).contains port then s.loseFlit k p else none | _ => none
    | none => none
  match l[(Config.freeWord s.freeN).toNat % l.length]? with
  | some t => { t with freeN := s.freeN + 1 }
  | none => s

/-- Poisons data that the resource held or carried: a granule of the core's scratch or of a frame of the channel, or what a flit of the link held; which one is free
(R396). -/
def State.poisonFrom (s : State) (x : Nat) : State :=
  let k := (Config.freeWord s.freeN).toNat
  let at16 (g : Nat) : State := { s with mem := s.mem.setPoison g true, freeN := s.freeN + 1 }
  match statClass x with
  | 0 => at16 (scratchBase s.dev x / 16 + k % 0x6000)
  | 1 => s.linkLoses (x - 2048)
  | _ =>
    let l := s.framesOn (x - 2176)
    at16 (s.ownFrame (l.getD (k / 4096 % l.length) 0) * 4096 + k % 4096)

/-- Arithmetic cycles of a heartbeat period of 10 µs. -/
def heartbeatCycles : Nat := 8500

/-- A link may be declared dead: three heartbeats missed, or a replay that three periods have not completed (R358, R408). -/
def State.linkFails (s : State) (port : Nat) : Bool :=
  let r := Tab.get 0 s.mdl.replays port
  decide (port < 128) && !Tab.get false s.mdl.ldead port && (decide (Tab.get 0 s.mdl.missed port ≥ 3) || decide (r ≠ 0 ∧ s.time + 1 ≥ r + 3 * heartbeatCycles))

/-- LINK_DEAD: the link enters state 6, takes +256, and its leave is announced (R358, R393); the devices that it was the last live route to count from now on. -/
def State.killLink (s : State) (port : Nat) : Option State :=
  let x := 2048 + port
  if !s.linkFails port then none
  else
    let f := s.fstat x
    let s := { s with mdl := { s.mdl with ldead := Tab.set false s.mdl.ldead port true } }.cutFrom s
    if f.state = 5 then some s
    else
      let s := s.setFstat x { f with state := 6, duePos := none, wanted := none }
      let s := { s with fast := { s.fast with sessions := s.fast.sessions.filter fun y => y.res ≠ x } }
      some ((s.charge x 256).noticeAll x 0)

/-- FADE_EVENT: kind 0 a corrected error, 1 an uncorrectable error that poisons data, 2 a link declared dead (R358, R393). -/
def State.fade (s : State) (x kind : Nat) : Option State :=
  if x ≥ 2944 ∨ (s.fstat x).state = 5 then none
  else match kind with
    | 0 => some (s.charge x 1)
    | 1 => some ((s.poisonFrom x).charge x 64)
    | 2 => if statClass x = 1 then s.killLink (x - 2048) else none
    | _ => none

/-- `FADE_EVENT`. -/
def execFadeEvent (x kind : Nat) (s : State) : Host.Outcome State Fault Refusal := event s (s.fade x kind)

/-- Cycles of the time counter between two halvings: 24 hours. -/
def halvingCycles : Nat := 73440000000000

/-- SCORE_HALVING: each time the counter passes a multiple, every score of a resource not retired is halved, and reports count anew (R396, R401). -/
def State.halve (s : State) : Option State :=
  if s.counter / halvingCycles ≤ s.fast.lastHalving then none
  else
    let stat := s.fast.stat.foldl (fun (t : Tab FStat) (x, f) =>
      Tab.set FStat.reset t x (if f.state = 5 then f else { f with score := f.score >>> 1, reports := [] })) []
    some { s with fast := { s.fast with stat := stat, lastHalving := s.fast.lastHalving + 1 } }

/-- `SCORE_HALVING`. -/
def execScoreHalving (s : State) : Host.Outcome State Fault Refusal := event s s.halve

/-! ### Leases (R391-R394) -/

/-- LEASE_DUE: AGE has reached the interval of the class, or a quarter of it at a score of 512 or more. -/
def State.becomeDue (s : State) (x : Nat) : Option State :=
  let f := s.fstat x
  let i := s.fast.interval (statClass x)
  let a := s.age x
  if x ≥ 2944 ∨ f.state ≠ 0 ∨ i = 0 ∨ !(decide (a ≥ i) || (decide (f.score.toNat ≥ 512) && decide (4 * a ≥ i))) then none
  else
    let t := s.setFstat x { f with state := 1, duePos := some s.time, asked := none }
    some (if x < 2048 then t.askRelease x else t)

/-- `LEASE_DUE`. -/
def execLeaseDue (x : Nat) (s : State) : Host.Outcome State Fault Refusal := event s (s.becomeDue x)

/-- Inserts a due resource by the time it became due, then by index. -/
def insertDue (e : Nat × Nat) : List (Nat × Nat) → List (Nat × Nat)
  | [] => [e]
  | y :: t => if e.1 < y.1 ∨ (e.1 = y.1 ∧ e.2 < y.2) then e :: y :: t else y :: insertDue e t

/-- The due resources of a quadrant in their order. -/
def State.dueIn (s : State) (q : Nat) : List Nat :=
  ((s.fast.stat.filterMap fun (x, f) => if f.state = 1 ∧ quadOf x = q then some (f.duePos.getD 0, x) else none).foldr insertDue []).map (·.2)

/-- A resource leaves service: a core as a hole, a link, whose traffic is rerouted, or a channel, whose frames are moved first (R392-R394). -/
def State.takeOut (s : State) (q x : Nat) : State :=
  let frames := if statClass x = 2 then s.framesOn (x - 2176) else []
  let s := if statClass x = 2 then s.emptyChannel x else s
  let s := s.setFstat x { s.fstat x with state := 2, duePos := none, asked := none, wanted := none }
  let s := { s with fast := { s.fast with sessions := s.fast.sessions ++ [⟨q, x, false, frames⟩] } }
  if s.moving x then s
  else
    let s := { s with fast := { s.fast with sessions := s.fast.sessions.map fun (y : Session) => if y.res = x then { y with told := true } else y } }
    s.noticeAll x 0

/-- The engine takes the first of the due resources that it can take; a channel that finds too few reserve frames is deferred with a notice, a core that serves a gang is
passed over, and so is a link whose other end has the lower device number, which starts its lease (R393). -/
def State.takeFirst (s : State) (q : Nat) : List Nat → State × Bool
  | [] => (s, false)
  | x :: rest =>
    let f := s.fstat x
    if x < 2048 then
      if (s.coreOf x).gang.isNone then (s.takeOut q x, true)
      else
        let (t, b) := (s.askRelease x).takeFirst q rest
        (t, b || decide (f.asked ≠ ((s.coreOf x).gang.map (·.1))))
    else if x < 2176 then (if s.dev < Config.peerOf (x - 2048) then (s.takeOut q x, true) else s.takeFirst q rest)
    else if s.channelBusy x then s.takeFirst q rest
    else if s.reserveFor x then (s.takeOut q x, true)
    else if f.wanted.isSome then s.takeFirst q rest
    else (((s.keepWanted x 0).noticeAll x 6).takeFirst q rest).map id fun _ => true

/-- A core of the quadrant whose retirement waits for it, and that is free now (R398). -/
def State.retirable (s : State) (q : Nat) : Option (Nat × Nat) :=
  s.fast.stat.findSome? fun (x, f) =>
    match f.wanted with
    | some a => if x < 2048 ∧ f.state = 3 ∧ quadOf x = q ∧ (s.coreOf x).gang = none ∧ s.fast.log.length < logRoom then some (x, a) else none
    | none => none

/-- LEASE_TAKE: the test engine of a quadrant takes its first due resource (R391); a core that is to be retired is taken first. -/
def State.leaseTake (s : State) (q : Nat) : Option State :=
  match s.retirable q with
  | some (x, a) => some (s.recordRetirement x a)
  | none =>
    if s.fast.sessions.any fun y => y.quad = q then none
    else
      let (t, b) := s.takeFirst q (s.dueIn q)
      if b then some t else none

/-- The device at the other end of a link, of a lower number, starts the link's lease: this end leaves service with it, and its quadrant's test engine tests it (R393). -/
def State.peerLease (s : State) (port : Nat) : Option State :=
  let x := 2048 + port
  let q := quadOf x
  if port < 128 ∧ Config.peerOf port < s.dev ∧ ((s.fstat x).state = 0 ∨ (s.fstat x).state = 1) ∧ !(s.fast.sessions.any fun y => y.quad = q) then some (s.takeOut q x) else none

/-- `LEASE_TAKE`. -/
def execLeaseTake (q : Nat) (s : State) : Host.Outcome State Fault Refusal := event s (s.leaseTake q)

/-! ### Sessions (R395) -/

/-- What a test leaves in a core's scratch memory: bytes that no rule gives, tags and poison clear, since whole granules were written (R395, R144). -/
def Memory.tested (m : Memory) (base n : Nat) : Memory :=
  let m := (List.range 0x6000).foldl (fun m i => (m.setTag (base / 16 + i) false).setPoison (base / 16 + i) false) m
  (List.range 0x60000).foldl (fun m i => m.setByte (base + i) (Config.testByte (n + i))) m

/-- A resource returns to service: AGE counts anew, a core is cleared and free, a channel's frames hold zeros, but for those that have not been moved off it (R392, R394).
Moves that are still to be made are given up. -/
def State.giveBack (s : State) (x : Nat) : State :=
  let frames := ((s.fast.sessions.filter fun y => y.res = x).map (·.frames)).flatten
  let s := { s with blocked := s.blocked.filter fun b => !(b.cmd.isNone && decide (b.h = x)) }
  let s := s.setFstat x { s.fstat x with state := 0, since := s.time, duePos := none, asked := none, wanted := none }
  let s := { s with fast := { s.fast with sessions := s.fast.sessions.filter fun y => y.res ≠ x } }
  let s :=
    match statClass x with
    | 0 => { s.setCore x { (s.coreOf x).cleared with lastTenant := none } with mem := s.mem.tested (scratchBase s.dev x) s.freeN, freeN := s.freeN + 0x60000 }
    | 1 => s
    | _ => s.zeroChannel x frames
  s.noticeAll x 1

/-- TEST_SESSION_END: a miscompare is charged; the resource returns unless its retirement is proposed or done. -/
def State.sessionEnd (s : State) (q : Nat) (miscompare : Bool) : Option State :=
  match s.fast.sessions.find? fun y => y.quad = q && y.told with
  | none => none
  | some y =>
    let x := y.res
    let s :=
      if miscompare then
        let f := s.fstat x
        (s.setFstat x { f with mcnt := if f.mcnt = BitVec.allOnes 16 then f.mcnt else f.mcnt + 1 }).charge x 256
      else s
    if (s.fstat x).state = 2 then some (s.giveBack x)
    else some { s with fast := { s.fast with sessions := s.fast.sessions.filter fun z => z.res ≠ x } }

/-- `TEST_SESSION_END`. -/
def execTestSessionEnd (q : Nat) (miscompare : Bool) (s : State) : Host.Outcome State Fault Refusal := event s (s.sessionEnd q miscompare)

/-- CHANNEL_RETIREMENT_RETRY: a deferred retirement is tried again (R398). -/
def State.retryChannel (s : State) (x : Nat) : Option State :=
  let f := s.fstat x
  match f.wanted with
  | some a =>
    if statClass x = 2 ∧ x < 2944 ∧ (f.state = 3 ∨ f.state = 4) ∧ !s.moving x ∧ !s.channelBusy x ∧ (f.state = 4 ∨ s.reserveFor x) ∧ s.fast.log.length < logRoom
    then some (s.retire x a) else none
  | none => none

/-- `CHANNEL_RETIREMENT_RETRY`. -/
def execChannelRetirementRetry (x : Nat) (s : State) : Host.Outcome State Fault Refusal := event s (s.retryChannel x)

/-! ### The end of a migration (R357) -/

/-- A channel whose last frame has moved leaves service, or is retired (R394, R398). -/
def State.channelEmptied (s : State) (x : Nat) : State :=
  if s.moving x then s
  else
    let s :=
      if s.fast.sessions.any fun y => y.res = x && !y.told then
        { s with fast := { s.fast with sessions := s.fast.sessions.map fun (y : Session) => if y.res = x then { y with told := true } else y } }.noticeAll x 0
      else s
    match (s.fstat x).wanted with
    | some a => if s.fast.log.length < logRoom ∧ ((s.fstat x).state = 3 ∨ (s.fstat x).state = 4) then s.recordRetirement x a else s
    | none => s

/-- Accesses to a frame are queued at its home: they are replayed first, and keep the policy tag, which they set again from their mappings (R357, R363). -/
def State.frameClaimed (s : State) (f : Nat) : Bool :=
  s.net.any fun p => decide (p.stage = .agent) && (match p.op.range with | some (a, _, _) => decide (frameOf a = f) | none => false)

/-- The policy tag of a frame is cleared and a page pinned in a slice leaves it; accesses issued under the old tag that have yet to come set it again (R45, R363). -/
def State.clearTag (s : State) (f : Nat) : State :=
  let g := s.ownFrame f
  let tag := Tab.get 0 s.policy g
  { s with pins := Tab.set none s.pins f none, policy := Tab.set 0 s.policy g 0, oldTag := if tag = 0 then s.oldTag else Tab.set 0 s.oldTag g tag }

/-- MIGRATION_REPLAY: the holders of a blocked frame have been recalled; the frame's data stand on the new backing, and its accesses go on (R357). -/
def State.migrated (s : State) (f : Nat) : Option State :=
  match s.blocked.findIdx? fun b => b.frame = f with
  | none => none
  | some i =>
    match s.blocked[i]? with
    | none => none
    | some b =>
      let post := match b.cmd with | some c => s.canPost c 6 | none => true
      if s.frameHeld (s.ownFrame b.frame) || s.frameHeld (s.ownFrame b.other) || !post then none
      else
        let kept := s.frameClaimed (s.ownFrame b.frame)
        let s := { s with blocked := listDrop s.blocked i }
        let s := (s.pageHome (s.ownFrame b.frame)).fireFrame (s.ownFrame b.frame) 2
        match b.cmd with
        | none =>
          let s := (s.swapBacking b.frame b.other).fireFrame (s.ownFrame b.other) 2
          some ({ s with mem := s.mem.zeroFrame (s.ownFrame b.other) }.channelEmptied b.h)
        | some c =>
          match c.op with
          | .pmig =>
            let s := (s.swapBacking b.frame b.other).fireFrame (s.ownFrame b.other) 2
            some ({ s with mem := s.mem.zeroFrame (s.ownFrame b.other) }.report c 6 0 0 0 1 0 (c.reg 0).lo.toNat)
          | _ =>
            some ((if kept then s else s.clearTag b.frame).report c 6 0 0 0 1 0 0)

/-- `MIGRATION_REPLAY`. -/
def execMigrationReplay (frame : Nat) (s : State) : Host.Outcome State Fault Refusal := event s (s.migrated frame)

/-! ### Instructions (R400-R404) -/

/-- `hq` (R401). -/
def execHq (d a : Fin 64) (s : State) : Host.Outcome State Fault Refusal := conclude s do
  let x ← readW s a 2
  useW s d 1
  .ok (s.ask 8 .hq d [x] [a.val] false)

/-- `hq.rd` (R401). -/
def execHqRd (d a : Fin 64) (s : State) : Host.Outcome State Fault Refusal := conclude s do
  let x ← readW s a 2
  useW s d 1
  .ok (s.ask 8 .hqRd d [x] [a.val] false)

/-- `lack` (R402). -/
def execLack (s : State) : Host.Outcome State Fault Refusal := conclude s (.ok (s.ask 8 .lack 0 [] [] false))

/-- `lack.off` (R402). -/
def execLackOff (s : State) : Host.Outcome State Fault Refusal := conclude s (.ok (s.ask 8 .lackOff 0 [] [] false))

/-- `hauth` (R403). -/
def execHauth (a b : Fin 64) (s : State) : Host.Outcome State Fault Refusal := conclude s do
  privileged s (thisWord s)
  let x ← readW s a 2
  let y ← readW s b 3
  .ok (s.ask 8 .hauth 0 [x, y] [a.val, b.val] false)

/-- The answer to `hq`: a report counts once for each tenant and resource between two halvings. -/
def hqReply (s : State) (c : Cmd) (x : Nat) : Reply :=
  let f := s.fstat x
  if f.state = 5 ∨ f.reports.contains c.tenant then .value (some (.plain 0)) s
  else .value (some (.plain 1)) ((s.setFstat x { f with reports := f.reports ++ [c.tenant] }).charge x 128)

/-- The answer to `lack`. -/
def lackReply (s : State) (c : Cmd) : Reply :=
  if s.fast.reg.any fun r => r.1 = c.ident && r.2.1 = c.gen then .value none s
  else if s.fast.reg.length ≥ 256 then .refusal 0xC1 s
  else .value none { s with fast := { s.fast with reg := s.fast.reg ++ [(c.ident, c.gen, c.tenant)] } }

/-- The proposed resources of a class. -/
def State.proposed (s : State) (cls : Nat) : List Nat :=
  (s.fast.stat.filter fun e => decide (statClass e.1 = cls) && (decide (e.2.state = 3) || decide (e.2.state = 4))).map (·.1)

/-- A proposal is denied: a resource in service stays there, one held out returns as a lease ends (R397). -/
def State.deny (s : State) (x : Nat) : State :=
  let f := s.fstat x
  if f.state = 3 then (s.setFstat x { f with state := 0, wanted := none }).noticePrv x 5
  else (s.giveBack x).noticePrv x 5

/-- The answer to `hauth` (R403). -/
def hauthReply (s : State) (c : Cmd) : Reply :=
  let rid := bits (c.reg 0).lo 0 14
  let cls := rid / 4096
  match bits (c.reg 1).lo 0 3 with
  | 0 => if cls = 3 then .refusal 0xC2 s else .value none { s with fast := { s.fast with stand := setBit s.fast.stand cls false } }
  | 1 =>
    if cls = 3 then .refusal 0xC2 s
    else if !(s.proposed cls).isEmpty && decide (s.fast.log.length ≥ logRoom) then .refusal 0xC4 s
    else .value none ((s.proposed cls).foldl (fun s x => s.retire x 1) { s with fast := { s.fast with stand := setBit s.fast.stand cls true } })
  | 2 | 3 =>
    match statIndex rid with
    | none => .refusal 0xC0 s
    | some x =>
      if (s.fstat x).state ≠ 3 ∧ (s.fstat x).state ≠ 4 then .refusal 0xC3 s
      else if bits (c.reg 1).lo 0 3 = 3 then .value none (s.deny x)
      else if s.fast.log.length ≥ logRoom then .refusal 0xC4 s
      else .value none (s.retire x 2)
  | _ => .refusal 0xC2 s

/-- The Fastness unit's answer to a request. -/
def fastReply (s : State) (c : Cmd) : Reply :=
  match c.op with
  | .lack => lackReply s c
  | .lackOff => .value none { s with fast := { s.fast with reg := s.fast.reg.filter fun r => !(decide (r.1 = c.ident) && decide (r.2.1 = c.gen)) } }
  | .hauth => hauthReply s c
  | _ =>
    match statIndex (bits (c.reg 0).lo 0 14) with
    | none => .refusal 0xC0 s
    | some x => if c.op = .hqRd then .value (some (.plain (s.fstatWord x))) s else hqReply s c x

end Sys2Proof.Machine
end

