-- ==== Sys2Proof/Machine/Module.lean ====
section
/-! DEFINITION. The module: power and boot (R412-R414, R417), the time counter's lock (R411, R412), sensors (R415), key slots and measurement registers (R414, R416), routes, links and dead devices (R358, R408-R410), and network frames (R359). -/

namespace Sys2Proof.Machine

/-- Applies a function to the module's own state. -/
def State.onMdl (s : State) (f : Module → Module) : State := { s with mdl := f s.mdl }

/-! ### Power and boot -/

/-- The first stage passes the boot ROM's checks: the key that signed it hashes to the value in the fuses, its signature verifies, and its security version is not below the
fused counter (R413, log 3). -/
def stagePasses (n : Nat) : Bool := decide (Config.stageKey n = Config.fusedKey) && Config.stageSigned n && decide (Config.fusedVersion ≤ Config.stageVersion n)

/-- A boot stage: its image is hashed, and measurement register `stage` is extended; a first stage that fails a check leaves the device in recovery (R413, R414). What the
images hash to is free. -/
def State.bootStage (s : State) (stage : Nat) : State :=
  if s.mdl.recovery then s
  else
    let s := { s with freeN := s.freeN + 1 }
    if stage = 0 && !stagePasses s.freeN then s.onMdl fun m => { m with recovery := true }
    else s.onMdl fun m =>
      { m with stage := stage + 1, meas := m.meas.setIfInBounds stage (extendMeas ((m.meas[stage]?).getD 0) (Config.stageHash s.freeN)) }

/-- The frames of a device that the remap table backs by a channel at reset (R345). -/
def resetFrames (dev ch : Nat) : List Nat := (List.range 16384).map fun k => dev * 2 ^ 27 + 768 * k + 8 * (ch % 96) + ch / 96

/-- A resource that the retirement log names stands retired after power-on (R390), and the frames of a retired channel are unbacked (R3, R398). -/
def Fast.fromLog (dev : Nat) (log : List Record) : Fast :=
  { Fast.reset with
    log := log
    unbacked := (log.map fun r => match statIndex r.rid.toNat with | some x => if statClass x = 2 then resetFrames dev (x - 2176) else [] | none => []).flatten
    stat := log.foldl (fun t r =>
      match statIndex r.rid.toNat with
      | some x => Tab.set FStat.reset t x { FStat.reset with score := r.score, state := 5 }
      | none => t) [] }

/-- The device as power-on finds it: everything at reset but what the flash holds, its number and the retirement log, and the free values used. -/
def State.coldStart (s : State) : State :=
  { State.reset with
    agenda := s.agenda, freeN := s.freeN, fast := Fast.fromLog s.dev s.fast.log, mdl := { Module.reset with devno := s.mdl.devno } }

/-- The service cores run the resident system: the boot stages have passed and the time counter has locked; in recovery nothing runs (R412, R413). -/
def State.residentRuns (s : State) : Bool := decide (s.mdl.stage = 4) && !s.mdl.recovery && s.mdl.locked

/-- POWER_ON: the time counter reads 0, the MEAS registers are cleared, and the boot stages run (R412-R414). -/
def State.powerUp (s : State) : Option State :=
  if s.mdl.power ∧ (s.mdl.stage ≠ 0 ∨ s.mdl.recovery) then none
  else
    let t := if s.mdl.power then s else s.coldStart
    some ((List.range 4).foldl State.bootStage t)

/-- `POWER_ON`. -/
def execPowerOn (s : State) : Host.Outcome State Fault Refusal := event s s.powerUp

/-- Power goes. -/
def State.powerDown (s : State) : Option State := if s.mdl.power then some (s.onMdl fun m => { m with power := false }) else none

/-- `POWER_STAGE_CUTOFF` (R417). -/
def execPowerStageCutoff (s : State) : Host.Outcome State Fault Refusal := event s s.powerDown

/-- `POWER_LOSS` (R417). -/
def execPowerLoss (s : State) : Host.Outcome State Fault Refusal := event s s.powerDown

/-! ### The time counter (R411, R412) -/

/-- The lowest of some device numbers. -/
def lowestOf (l : List Nat) : Option Nat :=
  l.foldl (fun b n => match b with | none => some n | some m => some (Nat.min m n)) none

/-- Locks to a reference that reads `r`: ahead of the counter, it is taken at once; behind, the counter loses every second cycle until they agree. -/
def State.lockTo (s : State) (r : Nat) (dev : Option Nat) (peers : List Nat) : State :=
  let c := s.counter
  s.onMdl fun m =>
    { m with
      locked := true, peers := peers, refDev := dev
      ahead := if r ≥ c then m.ahead + (r - c) else m.ahead
      slowFrom := if r ≥ c then m.slowFrom else s.time
      slowLen := if r ≥ c then m.slowLen else c - r }

/-- TIME_COUNTER_LOCK: `ref` is the counter of the locked devices reached, if any is, and `peers` are then those devices; else `peers` are the unlocked devices reached, which
lock with this one. A reference whose counter is not given is free. -/
def State.timeLock (s : State) (ref : Option Nat) (peers : List Nat) : Option State :=
  if s.mdl.locked then none
  else match ref, lowestOf peers with
    | some r, some d => some (s.lockTo r (some d) peers)
    | none, some d =>
      if d < s.dev then some ({ s with freeN := s.freeN + 1 }.lockTo (Config.freeWord s.freeN).toNat (some d) peers)
      else some (s.lockTo s.counter none peers)
    | _, none => some (s.lockTo s.counter none [])

/-- `TIME_COUNTER_LOCK`. -/
def execTimeCounterLock (ref : Option Nat) (peers : List Nat) (s : State) : Host.Outcome State Fault Refusal := event s (s.timeLock ref peers)

/-- Another device of the domain locks to the reference later; it does not displace it (R412). -/
def State.peerLocks (s : State) (n : Nat) : Option State :=
  if s.mdl.locked ∧ n < 6144 ∧ n ≠ s.dev ∧ !s.mdl.peers.contains n ∧ !Tab.get false s.mdl.ddead n then some (s.onMdl fun m => { m with peers := m.peers ++ [n] }) else none

/-- TSYNC (R415): the offset of a device that is the reference is 0; of one that still loses cycles it is the cycles left, free where 16 bits do not hold them; of another free
within what R411 allows. -/
def State.tsync (s : State) : Word × State :=
  if !s.mdl.locked then (0, s)
  else match s.mdl.refDev with
    | none => (0x10000#64, s)
    | some _ =>
      let k := (Config.freeWord s.freeN).toNat
      let left := s.mdl.slowLen - s.lag
      (BitVec.ofNat 64 (0x10000 + (if left = 0 then (k % 65 + 65536 - 32) % 65536 else if left < 32768 then left else k % 65536)), { s with freeN := s.freeN + 1 })

/-! ### Sensors (R415) -/

/-- A sensor of a die, and its key. -/
def Module.sensor (m : Module) (d n : Nat) : Therm := Tab.get ⟨0, 0, false⟩ m.therm (d * 96 + n)
/-- Replaces a sensor. -/
def Module.setSensor (m : Module) (d n : Nat) (t : Therm) : Module := { m with therm := Tab.set ⟨0, 0, false⟩ m.therm (d * 96 + n) t }

/-- `SENSOR_SAMPLE`: a sample goes into TEMP, and into TMAX if it is the highest since the last read. -/
def execSensorSample (d n : Nat) (temp : BitVec 16) (s : State) : Host.Outcome State Fault Refusal :=
  event s (if d < 4 ∧ n < 96 then
    some (s.onMdl fun m => m.setSensor d n ⟨temp, if temp.toNat > (m.sensor d n).tmax.toNat then temp else (m.sensor d n).tmax, true⟩) else none)

/-- A read of THERM, which resets TMAX to TEMP. -/
def State.readTherm (s : State) (d n : Nat) : Word × State :=
  let t := s.mdl.sensor d n
  (BitVec.ofNat 64 (t.temp.toNat + t.tmax.toNat * 2 ^ 16 + t.val.toNat * 2 ^ 32), s.onMdl fun m => m.setSensor d n { t with tmax := t.temp })

/-- `THERM_READ`. -/
def execThermRead (d n : Nat) (s : State) : Host.Outcome State Fault Refusal :=
  event s (if d < 4 ∧ n < 96 then let (v, t) := s.readTherm d n; some { t with readback := v } else none)

/-! ### Key slots (R407, R416) -/

/-- Replaces a key slot. -/
def Module.setKey (m : Module) (t : Nat) (k : KeySlot) : Module := { m with kslot := Tab.set KeySlot.blank m.kslot t k }
/-- A dword goes into the staging register. -/
def KeySlot.stage (k : KeySlot) (off : Nat) (v : Word) : KeySlot :=
  { k with staging := setBits k.staging (8 * off) 64 v.toNat, written := setBit k.written (off / 8) true }

/-- The staging register of a slot takes a dword. -/
def State.stageKey (s : State) (t off : Nat) (v : Word) : State := s.onMdl fun m => m.setKey t ((m.key t).stage off v)

/-- `KSLOT_STAGE`. -/
def execKslotStage (t off : Nat) (v : BitVec 64) (s : State) : Host.Outcome State Fault Refusal :=
  event s (if t < 64 ∧ off % 8 = 0 ∧ off ≤ 48 then some (s.stageKey t off v) else none)

/-- The last dword commits: with all eight written the whole key takes effect, else nothing; the staging register is empty after either. -/
def State.commitKey (s : State) (t : Nat) (v : Word) : State :=
  s.onMdl fun m =>
    let k := (m.key t).stage 56 v
    m.setKey t (if k.written = BitVec.allOnes 8 then ⟨k.staging, 0, 0, k.gen + 1⟩ else { k with staging := 0, written := 0 })

/-- `KSLOT_COMMIT`. -/
def execKslotCommit (t : Nat) (v : BitVec 64) (s : State) : Host.Outcome State Fault Refusal := event s (if t < 64 then some (s.commitKey t v) else none)

/-! ### Measurement registers (R414, R416) -/

/-- A dword of the hash to be extended by. -/
def State.stageMext (s : State) (off : Nat) (v : Word) : State :=
  s.onMdl fun m => { m with mext := setBits m.mext (8 * off) 64 v.toNat, mextN := m.mextN + 1 }

/-- `MEXT_STAGE`. -/
def execMextStage (off : Nat) (v : BitVec 64) (s : State) : Host.Outcome State Fault Refusal :=
  event s (if off % 8 = 0 ∧ off ≤ 40 then some (s.stageMext off v) else none)

/-- Extends register 4 to 7 with the staged hash; with fewer than six staging stores, or another register, nothing happens. -/
def State.extendBy (s : State) (v : Word) : State :=
  let n := bits v 0 3
  if n < 4 ∨ s.mdl.mextN < 6 then s
  else s.onMdl fun m => { m with meas := m.meas.setIfInBounds n (extendMeas ((m.meas[n]?).getD 0) m.mext), mextN := 0 }

/-- `MEXT_EXTEND`. -/
def execMextExtend (v : BitVec 64) (s : State) : Host.Outcome State Fault Refusal := event s (some (s.extendBy v))

/-- A load of offset 0 of MEAS n latches the register and returns its first dword. -/
def State.latchMeas (s : State) (n : Nat) : Word × State :=
  let x := (s.mdl.meas[n]?).getD 0
  (BitVec.ofNat 64 (bits x 0 64), s.onMdl fun m => { m with latch := m.latch.setIfInBounds n x })

/-- A requester asks for an attestation report for its nonce: the measurement registers, the device number and the nonce, signed with the device identity key, whose
signatures are free (R413, log 76). -/
def State.attest (s : State) (nonce : BitVec 384) : State :=
  { s with freeN := s.freeN + 2 }.onMdl fun m => { m with report := some ⟨m.meas, m.devno, nonce, Config.signature s.freeN, Config.signature (s.freeN + 1)⟩ }

/-- `MEAS_LATCH`. -/
def execMeasLatch (n : Nat) (s : State) : Host.Outcome State Fault Refusal :=
  event s (if n < 8 then let (v, t) := s.latchMeas n; some { t with readback := v } else none)

/-! ### Routes and dead marks (R409, R410) -/

/-- Writes a route table entry; its other bits are zero. A device that loses its last live route counts from now on (R358). -/
def State.writeRtab (s : State) (n : Nat) (v : Word) : State :=
  (s.onMdl fun m => { m with rtab := Tab.set 0 m.rtab n (BitVec.ofNat 64 (bits v 0 32)) }).cutFrom s

/-- `RTAB_WRITE`. -/
def execRtabWrite (n : Nat) (v : BitVec 64) (s : State) : Host.Outcome State Fault Refusal := event s (if n < 8192 then some (s.writeRtab n v) else none)

/-- Bit 1 set clears a device's dead mark; while no live route leads to it, it is dead again 30 µs later (R410). -/
def State.clearDdead (s : State) (n : Nat) (v : Word) : State :=
  if bit v 1 && Tab.get false s.mdl.ddead n then s.onMdl fun m => { m with ddead := Tab.set false m.ddead n false, routedAt := Tab.set 0 m.routedAt n s.time } else s

/-- `DDEAD_CLEAR`. -/
def execDdeadClear (n : Nat) (v : BitVec 64) (s : State) : Host.Outcome State Fault Refusal := event s (if n < 8192 then some (s.clearDdead n v) else none)

/-- Bit 1 set clears a link's dead mark and returns the link to state 0; its return is announced. -/
def State.clearLdead (s : State) (n : Nat) (v : Word) : State :=
  if bit v 1 && Tab.get false s.mdl.ldead n then
    let s := s.onMdl fun m => { m with ldead := Tab.set false m.ldead n false, missed := Tab.set 0 m.missed n 0, replays := Tab.set 0 m.replays n 0 }
    let f := s.fstat (2048 + n)
    if f.state = 6 then (s.setFstat (2048 + n) { f with state := 0 }).noticeAll (2048 + n) 1 else s
  else s

/-- `LDEAD_CLEAR`. -/
def execLdeadClear (n : Nat) (v : BitVec 64) (s : State) : Host.Outcome State Fault Refusal := event s (if n < 128 then some (s.clearLdead n v) else none)

/-! ### Links (R358, R393, R408) -/

/-- LINK_FLIT_REPLAY: one corrected error is charged to the link. -/
def State.replayFlit (s : State) (port : Nat) : Option State :=
  if port ≥ 128 ∨ Tab.get false s.mdl.ldead port ∨ (s.fstat (2048 + port)).state = 5 then none
  else some ((s.onMdl fun m => { m with replays := if Tab.get 0 m.replays port = 0 then Tab.set 0 m.replays port (s.time + 1) else m.replays }).charge (2048 + port) 1)

/-- `LINK_FLIT_REPLAY`. -/
def execLinkFlitReplay (port : Nat) (s : State) : Host.Outcome State Fault Refusal := event s (s.replayFlit port)

/-- A replay that a link had under way has been completed (R408). -/
def State.replayed (s : State) (port : Nat) : Option State :=
  if Tab.get 0 s.mdl.replays port = 0 then none else some (s.onMdl fun m => { m with replays := Tab.set 0 m.replays port 0 })

/-- HEARTBEAT: heard from the peer, or missed once more. -/
def State.beat (s : State) (port : Nat) (heard : Bool) : Option State :=
  if port ≥ 128 then none
  else some (s.onMdl fun m => { m with missed := Tab.set 0 m.missed port (if heard then 0 else Tab.get 0 m.missed port + 1) })

/-- `HEARTBEAT`. -/
def execHeartbeat (port : Nat) (heard : Bool) (s : State) : Host.Outcome State Fault Refusal := event s (s.beat port heard)

/-- `LINK_DEAD`. -/
def execLinkDead (port : Nat) (s : State) : Host.Outcome State Fault Refusal := event s (s.killLink port)

/-! ### Dead devices (R358) -/

/-- Every granule of a page is poisoned. -/
def Memory.poisonFrame (m : Memory) (f : Nat) : Memory := (List.range 4096).foldl (fun m i => m.setPoison (f * 4096 + i) true) m

/-- What becomes of a page of this device that a dead device holds: a held one is poisoned and home, a read copy is dropped. -/
def State.losePage (s : State) (n : Nat) (e : Nat × PageDir) : State :=
  if devOf (e.1 * 65536) ≠ s.dev then s
  else match e.2 with
    | .held d => if d = n then { s with mem := s.mem.poisonFrame e.1, pageDir := Tab.set .home s.pageDir e.1 .home } else s
    | .shared l =>
      let r := l.filter (· ≠ n)
      { s with pageDir := Tab.set .home s.pageDir e.1 (if r.isEmpty then .home else .shared r) }
    | .home => s

/-- DEVICE_DEAD: 30 µs without a live route; the pages it held are lost, a fault record is filed, and another reference takes over where it was the reference (R412). -/
def State.killDevice (s : State) (n : Nat) : Option State :=
  if n ≥ 6144 ∨ n = s.dev ∨ Tab.get false s.mdl.ddead n ∨ s.routeLive n ∨ s.time < Tab.get 0 s.mdl.routedAt n + 3 * heartbeatCycles then none
  else
    let s := s.pageDir.foldl (fun s e => s.losePage n e) s
    let s := { s with fast := { s.fast with faults := s.fast.faults ++ [n] } }
    some (s.onMdl fun m =>
      let peers := m.peers.filter (· ≠ n)
      let next := match lowestOf peers with | some d => if d < m.devno.toNat then some d else none | none => none
      { m with ddead := Tab.set false m.ddead n true, peers := peers, refDev := if m.refDev = some n then next else m.refDev })

/-- `DEVICE_DEAD`. -/
def execDeviceDead (n : Nat) (s : State) : Host.Outcome State Fault Refusal := event s (s.killDevice n)

/-! ### Network frames (R359) -/

/-- `QOS_FRAME`: the network's frame number is the time counter divided by 1,024. -/
def execQosFrame (s : State) : Host.Outcome State Fault Refusal :=
  event s (if s.counter / 1024 > s.frame then some { s with frame := s.counter / 1024 } else none)

end Sys2Proof.Machine
end

