-- ==== Sys2Proof/Machine/ConfigSpace.lean ====
section
/-! DEFINITION. Configuration space (R22): what a privileged read of each register returns and what a write does (R105, R116, R168, R360, R368, R390, R410, R415, R416), the invalidation of translations (R344) and partitions (R369). -/

namespace Sys2Proof.Machine

/-! ### Partitions and translations -/

/-- A store to TPART (R369). -/
def State.writeTpart (s : State) (t : Nat) (v : Word) : State :=
  let x := s.tenantOf t
  if bits v 0 11 + bits v 16 12 > 2048 ∨ (s.gangs.any fun g => g.tenant = t) ∨ x.tstate ≠ 0 then s
  else s.setTenant t { x with tpart := BitVec.ofNat 64 (bits v 0 11 + bits v 16 12 * 2 ^ 16) }

/-- `TPART_WRITE`. -/
def execTpartWrite (t : Nat) (v : BitVec 64) (s : State) : Host.Outcome State Fault Refusal := event s (if t < 64 then some (s.writeTpart t v) else none)

/-- Pages from address a, of size 2 ^ b, overlap the range that a store to TINV names: every page, or N pages of 64 KiB. -/
def tinvHits (v : Word) (a b : Nat) : Bool :=
  let n := bits v 0 16
  let lo := bits v 16 41 * 65536
  decide (n = 0) || (decide (a < lo + n * 65536) && decide (lo < a + 2 ^ b))

/-- A list of translations without those of a tenant in the range. -/
def dropEntries (t : Nat) (v : Word) (l : List TlbEntry) : List TlbEntry := l.filter fun e => !(decide (e.tenant = t) && tinvHits v e.va e.bits)

/-- A walk's fault that a context has yet to meet is walked again. -/
def Ctx.dropWalk (c : Ctx) (t : Nat) (v : Word) : Ctx :=
  match c.walkFault with
  | some (p, _) => if c.tenant = t && tinvHits v (p * 65536) 16 then { c with walkFault := none } else c
  | none => c

/-- A store to TINV: every TLB drops the entries that overlap the range (R344). -/
def State.writeTinv (s : State) (t : Nat) (v : Word) : State :=
  { s with
    core := { s.core with tlb := dropEntries t v s.core.tlb }
    cores := s.cores.map fun (h, (c : Core)) => (h, { c with tlb := dropEntries t v c.tlb })
    ctlb := s.ctlb.map fun (h, l) => (h, dropEntries t v l)
    cpu := s.cpu.dropWalk t v
    ctxs := s.ctxs.map fun (k, c) => (k, c.dropWalk t v) }

/-- `TINV_WRITE`. -/
def execTinvWrite (t : Nat) (v : BitVec 64) (s : State) : Host.Outcome State Fault Refusal := event s (if t < 64 then some (s.writeTinv t v) else none)

/-! ### Blocks of registers -/

/-- A register of configuration space, with its index in its array. -/
inductive CfgReg where
  | troot (t : Nat) | tinv (t : Nat) | mrgauth (t : Nat) | qosq (t c : Nat) | wmk (slice t : Nat) | guestb | frmap (f : Nat)
  | dispatch (t off : Nat)
  | lintc | lintl | lintm | stand | lres | lresok | logn | fstat (x : Nat)
  | devno | tsync | therm (d n : Nat) | kslot (t off : Nat) | meas (n off : Nat) | mext (off : Nat) | kgen (t : Nat)
  | rtab (n : Nat) | ddead (n : Nat) | ldead (n : Nat)
  | core (h off : Nat)
  | loc (id dword : Nat)
deriving DecidableEq, Repr

/-- The register at a local address; none where the specification lays out no register. -/
def cfgReg (a : Nat) : Option CfgReg :=
  let r := a - 0x40000000000
  if r % 8 ≠ 0 ∨ a < 0x40000000000 then none
  else if r < 0x1000000 then none
  else if r < 0x1000400 then some (if r % 16 = 0 then .troot ((r - 0x1000000) / 16) else .tinv ((r - 0x1000000) / 16))
  else if r < 0x1010000 then none
  else if r < 0x1010200 then some (.mrgauth ((r - 0x1010000) / 8))
  else if r < 0x1020000 then none
  else if r < 0x1021000 then (if r / 8 % 8 < 6 then some (.qosq ((r - 0x1020000) / 64) (r / 8 % 8)) else none)
  else if r < 0x1030000 then none
  else if r < 0x1050000 then some (.wmk ((r - 0x1030000) / 512) (r / 8 % 64))
  else if r = 0x1050000 then some .guestb
  else if r < 0x2000000 then none
  else if r < 0x2004000 then (if r % 256 < 64 then some (.dispatch ((r - 0x2000000) / 256) (r % 256)) else none)
  else if r < 0x3000000 then none
  else if r = 0x3000000 then some .lintc
  else if r = 0x3000008 then some .lintl
  else if r = 0x3000010 then some .lintm
  else if r = 0x3000018 then some .stand
  else if r = 0x3000020 then some .lres
  else if r = 0x3000028 then some .lresok
  else if r = 0x3000030 then some .logn
  else if r < 0x3001000 then none
  else if r < 0x3001000 + 8 * 2944 then some (.fstat ((r - 0x3001000) / 8))
  else if r < 0x4000000 then none
  else if r = 0x4000000 then some .devno
  else if r = 0x4000008 then some .tsync
  else if r < 0x4001000 then none
  else if r < 0x4001C00 then some (.therm ((r - 0x4001000) / 768) ((r - 0x4001000) % 768 / 8))
  else if r < 0x4004000 then none
  else if r < 0x4005000 then some (.kslot ((r - 0x4004000) / 64) (r % 64))
  else if r < 0x4005180 then some (.meas ((r - 0x4005000) / 48) ((r - 0x4005000) % 48))
  else if r < 0x4005200 then none
  else if r < 0x4005238 then some (.mext (r - 0x4005200))
  else if r < 0x4006000 then none
  else if r < 0x4006200 then some (.kgen ((r - 0x4006000) / 8))
  else if r < 0x5000000 then none
  else if r < 0x5010000 then some (.rtab ((r - 0x5000000) / 8))
  else if r < 0x5020000 then some (.ddead ((r - 0x5010000) / 8))
  else if r < 0x5020400 then some (.ldead ((r - 0x5020000) / 8))
  else if r < 0x10000000 then none
  else if r < 0x10000000 + 8 * 12582912 then some (.frmap ((r - 0x10000000) / 8))
  else if r < 0x20000000 then none
  else if r < 0x20800000 then some (.core ((r - 0x20000000) / 4096) (r % 4096))
  else if r < 0x40000000 then none
  else if r < 0x42000000 then some (.loc ((r - 0x40000000) / 32) (r / 8 % 4))
  else none

/-- A word that keeps n bits from lo of a value. -/
def keepBits (v : Word) (lo n : Nat) : Nat := bits v lo n * 2 ^ lo

/-- A value that no rule gives: of a register that only takes writes, or where no register is laid out. -/
def State.freeRead (s : State) : Word × State := (Config.freeWord s.freeN, { s with freeN := s.freeN + 1 })

/-! ### A core's block (R116) -/

/-- The state of a slot of core h (R93): a live context of a core that DHALT halts is halted (R115), and a parked one for which what it waits for is there is ready. -/
def State.runCode (s : State) (h slot : Nat) : Nat :=
  let c := s.ctx h slot
  if (s.coreOf h).dhalt && c.live then 4
  else match c.run with
    | .idle => 0
    | .ready => 1
    | .issuing => 2
    | .parked w => if (s.focus h slot).waitOver c slot w then 1 else 3
    | .halted .. => 4

/-- CTXCTL of a slot (R116). -/
def State.ctxctl (s : State) (h slot : Nat) : Word :=
  BitVec.ofNat 64 (s.runCode h slot + (s.ctx h slot).dbl.toNat * 8 + (s.ctx h slot).ident.toNat * 256)

/-- A read of a register of core h's block. The issue latches of a halted core are empty in the step after. -/
def State.readCore (s : State) (h off : Nat) : Word × State :=
  let c := s.coreOf h
  if off = 0 then (c.budget.setWidth 64, s)
  else if off = 8 then (c.wtab0, s)
  else if off = 0x10 then (c.wtab1, s)
  else if off = 0x18 then (if c.dhalt then 3 else 0, s)
  else if 0x20 ≤ off ∧ off < 0x78 then ((s.ctx h ((off - 0x20) / 8)).awW, s)
  else if 0x80 ≤ off ∧ off < 0xD8 then
    let x := s.ctx h ((off - 0x80) / 8)
    (BitVec.ofNat 64 (x.awV.toNat + x.awP.toNat * 2 ^ 32), s)
  else if 0x100 ≤ off ∧ off < 0x158 then (s.ctxctl h ((off - 0x100) / 8), s)
  else if off = 0x180 then (c.ovfl.setWidth 64, s)
  else if off = 0x800 then (c.dsel, s)
  else if off = 0x808 then (c.dlo, s)
  else if off = 0x810 then (c.dhi, s)
  else if off = 0x818 then (BitVec.ofNat 64 c.dtag.toNat, s)
  else s.freeRead

/-- Bit 0 of DHALT halts the core or releases it (R115). -/
def State.writeDhalt (s : State) (h : Nat) (v : Word) : State :=
  let c := s.coreOf h
  if bit v 0 then (if c.dhalt then s else s.setCore h { c with dhalt := true, haltedAt := s.time })
  else if c.dhalt then
    (List.range 11).foldl (fun s k => s.setCtx h k ((s.ctx h k).putOff (s.time - c.haltedAt))) (s.setCore h { c with dhalt := false })
  else s

/-- A write of a register of core h's block. -/
def State.writeCore (s : State) (h off : Nat) (v : Word) : State :=
  let c := s.coreOf h
  if off = 0 then s.setCore h { c.keepRates s.time with budget := BitVec.ofNat 12 (bits v 0 12) }
  else if off = 8 then s.setCore h { c.keepRates s.time with wtab0 := v }
  else if off = 0x10 then s.setCore h { c.keepRates s.time with wtab1 := v }
  else if off = 0x18 then s.writeDhalt h v
  else if 0x20 ≤ off ∧ off < 0xD8 then s.writeScoreboard h off v
  else if 0x100 ≤ off ∧ off < 0x158 then
    let k := (off - 0x100) / 8
    if !(s.ctx h k).dbl then s
    else
      let (ch, cs) := (s.cur, s.slot)
      if v = 1 then s.resumeSlot h k else if v = 2 then ((s.focus h k).dismiss).focus ch cs else s
  else if off = 0x800 then
    s.setCore h { c with dsel := BitVec.ofNat 64 (keepBits v 0 19 + keepBits v 20 11 + keepBits c.dsel 63 1) }
  else if off = 0x808 then s.setCore h { c with dlo := v }
  else if off = 0x810 then s.setCore h { c with dhi := v }
  else if off = 0x818 then s.setCore h { c with dtag := bit v 0 }
  else if off = 0x820 then (if v = 1 then s.dcmdWrite h else if v = 2 then s.dcmdRead h else s)
  else s

/-! ### Location entries (R168) -/

/-- The number of an entry's state. -/
def LocState.code : LocState → Nat
  | .free => 0
  | .resident => 1
  | .moving => 2
  | .saved => 3
  | .cold => 4

/-- A doubleword of an entry. HIDX and SLOT show in a resident one alone. -/
def Loc.dword (l : Loc) (k : Nat) : Word :=
  match k with
  | 0 => BitVec.ofNat 64 (l.state.code + l.gen.toNat * 2 ^ 8 + l.ten.toNat * 2 ^ 16 + (if l.state = .resident then l.hidx.toNat * 2 ^ 24 + l.slot.toNat * 2 ^ 36 else 0))
  | 1 => BitVec.ofNat 64 (l.img.toNat + l.pov.toNat * 2 ^ 43)
  | 2 => BitVec.ofNat 64 (bits l.aww 1 63 + bits l.awv 0 1 * 2 ^ 63)
  | _ => BitVec.ofNat 64 (bits l.awv 1 31 + l.awp.toNat * 2 ^ 31)

/-- A privileged store to an entry: of the states it makes only saved to cold and cold to saved; a resident or moving entry it leaves. HIDX and SLOT, which only a resident
entry has, stay zero. -/
def Loc.store (l : Loc) (k : Nat) (v : Word) : Loc :=
  if l.state = .resident ∨ l.state = .moving then l
  else match k with
    | 0 =>
      let w (st : LocState) : Loc := { l with state := st, gen := BitVec.ofNat 8 (bits v 8 8), ten := BitVec.ofNat 6 (bits v 16 6) }
      if bits v 0 3 = l.state.code then w l.state
      else match l.state, bits v 0 3 with
        | .saved, 4 => w .cold
        | .cold, 3 => w .saved
        | _, _ => l
    | 1 => { l with img := BitVec.ofNat 43 (bits v 0 43), pov := bit v 43 }
    | 2 => { l with aww := BitVec.ofNat 64 (bits v 0 63 * 2), awv := setBit l.awv 0 (bit v 63) }
    | _ => { l with awv := BitVec.ofNat 32 (bits l.awv 0 1 + bits v 0 31 * 2), awp := BitVec.ofNat 8 (bits v 31 8) }

/-! ### Reads -/

/-- A dispatch register of a tenant (R368). -/
def State.readDispatch (s : State) (t off : Nat) : Word × State :=
  let x := s.tenantOf t
  match off / 8 with
  | 0 => (x.tpart, s)
  | 1 => (x.tstop, s)
  | 2 => (BitVec.ofNat 64 x.tstate.val, s)
  | 3 => (x.tprio.setWidth 64, s)
  | 4 => (x.cqb, s)
  | 5 => (x.tsave, s)
  | 6 => s.freeRead
  | _ => (x.sysctx.setWidth 64, s)

/-- The value that a read of a register returns, and the state after it. -/
def State.readReg (s : State) (r : CfgReg) : Word × State :=
  match r with
  | .troot t => ((s.tenantOf t).troot, s)
  | .tinv _ => s.freeRead
  | .mrgauth t => (BitVec.ofNat 64 (s.tenantOf t).mrgauth.toNat, s)
  | .qosq t c => ((((s.tenantOf t).qosq[c]?).getD 0).setWidth 64, s)
  | .wmk n t => ((Tab.get 0xFFFF s.wmk (wayKey n t)).setWidth 64, s)
  | .guestb => (s.guestb, s)
  | .frmap f => (BitVec.ofNat 64 (s.backing f), s)
  | .dispatch t off => s.readDispatch t off
  | .lintc => (s.fast.lintc.setWidth 64, s)
  | .lintl => (s.fast.lintl.setWidth 64, s)
  | .lintm => (s.fast.lintm.setWidth 64, s)
  | .stand => (s.fast.stand.setWidth 64, s)
  | .lres => (s.fast.lres, s)
  | .lresok => (BitVec.ofNat 64 s.lresok, s)
  | .logn => (BitVec.ofNat 64 s.fast.log.length, s)
  | .fstat x => (s.fstatWord x, s)
  | .devno => (s.mdl.devno.setWidth 64, s)
  | .tsync => s.tsync
  | .therm d n => s.readTherm d n
  | .kslot _ _ => (0, s)
  | .meas n off => if off = 0 then s.latchMeas n else (BitVec.ofNat 64 (bits ((s.mdl.latch[n]?).getD 0) (8 * off) 64), s)
  | .mext _ => s.freeRead
  | .kgen t => ((s.mdl.key t).gen.setWidth 64, s)
  | .rtab n => (Tab.get 0 s.mdl.rtab n, s)
  | .ddead n => (BitVec.ofNat 64 (Tab.get false s.mdl.ddead n).toNat, s)
  | .ldead n => (BitVec.ofNat 64 (Tab.get false s.mdl.ldead n).toNat, s)
  | .core h off => s.readCore h off
  | .loc id k => ((s.loc (BitVec.ofNat 20 id)).dword k, s)

/-- A privileged read of a local address of configuration space. -/
def State.cfgRead (s : State) (a : Nat) : Word × State :=
  match cfgReg a with
  | some r => s.readReg r
  | none => s.freeRead

/-! ### Writes -/

/-- A write of a dispatch register of a tenant (R368). -/
def State.writeDispatch (s : State) (t off : Nat) (v : Word) : State :=
  let x := s.tenantOf t
  match off / 8 with
  | 0 => s.writeTpart t v
  | 3 => s.setTenant t { x with tprio := BitVec.ofNat 7 (bits v 0 7) }
  | 4 => s.setTenant t { x with cqb := BitVec.ofNat 64 (keepBits v 16 27 + Nat.min 6 (bits v 48 3) * 2 ^ 48) }
  | 5 => s.setTenant t { x with tsave := BitVec.ofNat 64 (keepBits v 16 27) }
  | 6 => if v = 1 ∧ x.tstate = 3 then s.setTenant t { x with tstate := 4 } else s
  | 7 => s.setTenant t { x with sysctx := BitVec.ofNat 20 (bits v 0 20) }
  | _ => s

/-- A function on the Fastness unit. -/
def State.onFast (s : State) (f : Fast → Fast) : State := { s with fast := f s.fast }

/-- What a write of a register does; a read-only register takes none. -/
def State.writeReg (s : State) (r : CfgReg) (v : Word) : State :=
  match r with
  | .troot t => s.setTenant t { s.tenantOf t with troot := BitVec.ofNat 64 (keepBits v 0 1 + keepBits v 12 44) }
  | .tinv t => s.writeTinv t v
  | .mrgauth t => s.setTenant t { s.tenantOf t with mrgauth := bit v 0 }
  | .qosq t c => s.setTenant t { s.tenantOf t with qosq := (s.tenantOf t).qosq.setIfInBounds c (BitVec.ofNat 12 (bits v 0 12)) }
  | .guestb => { s with guestb := BitVec.ofNat 64 (keepBits v 16 47) }
  | .dispatch t off => s.writeDispatch t off v
  | .lintc => s.onFast fun f => { f with lintc := BitVec.ofNat 32 (bits v 0 32) }
  | .lintl => s.onFast fun f => { f with lintl := BitVec.ofNat 32 (bits v 0 32) }
  | .lintm => s.onFast fun f => { f with lintm := BitVec.ofNat 32 (bits v 0 32) }
  | .lres => s.onFast fun f => { f with lres := BitVec.ofNat 64 (keepBits v 16 47) }
  | .kslot t off => if off = 56 then s.commitKey t v else s.stageKey t off v
  | .mext off => if off = 48 then s.extendBy v else s.stageMext off v
  | .rtab n => s.writeRtab n v
  | .ddead n => s.clearDdead n v
  | .ldead n => s.clearLdead n v
  | .core h off => s.writeCore h off v
  | .loc id k => s.storeLoc (BitVec.ofNat 20 id) ((s.loc (BitVec.ofNat 20 id)).store k v)
  | .wmk .. | .frmap _ | .stand | .lresok | .logn | .fstat _ | .devno | .tsync | .therm .. | .meas .. | .kgen _ => s

/-- A privileged write of a local address of configuration space; where no register is laid out nothing changes. -/
def State.cfgWrite (s : State) (a : Nat) (v : Word) : State :=
  match cfgReg a with
  | some r => s.writeReg r v
  | none => s

/-- `CONFIG_WRITE`: a privileged agent writes the register at a local address (R22). -/
def execConfigWrite (addr : Nat) (v : BitVec 64) (s : State) : Host.Outcome State Fault Refusal := event s (some (s.cfgWrite addr v))

end Sys2Proof.Machine
end

