-- ==== Sys2Proof/Machine/Integer.lean ====
section
/-! DEFINITION. The integer instructions: two-operand operations and their K forms (R118), compares (R119) and immediate forms (R120). -/

namespace Sys2Proof.Machine

/-- The two-operand integer operations of major 0x00 (R118). -/
inductive Alu where
  | add | sub | mul | mulh | mulhU | div | divU | rem | remU | and | or | xor | shl | shr | sra | min | minU | max | maxU | sel
deriving DecidableEq, Repr

/-- The result of an operation on x and y; `old` is what the destination held (R118). Division rounds toward zero; a zero divisor gives all ones, or x for
the remainder. -/
def Alu.result (op : Alu) (x y old : Word) : Word :=
  match op with
  | .add => x + y
  | .sub => x - y
  | .mul => x * y
  | .mulh => BitVec.ofInt 64 (x.toInt * y.toInt / 2 ^ 64)
  | .mulhU => BitVec.ofNat 64 (x.toNat * y.toNat / 2 ^ 64)
  | .div => if y = 0 then BitVec.allOnes 64 else BitVec.ofInt 64 (Int.tdiv x.toInt y.toInt)
  | .divU => if y = 0 then BitVec.allOnes 64 else BitVec.ofNat 64 (x.toNat / y.toNat)
  | .rem => if y = 0 then x else BitVec.ofInt 64 (Int.tmod x.toInt y.toInt)
  | .remU => if y = 0 then x else BitVec.ofNat 64 (x.toNat % y.toNat)
  | .and => x &&& y
  | .or => x ||| y
  | .xor => x ^^^ y
  | .shl => if y.toNat < 64 then x <<< y.toNat else 0
  | .shr => if y.toNat < 64 then x >>> y.toNat else 0
  | .sra => x.sshiftRight (Nat.min y.toNat 63)
  | .min => if x.toInt ≤ y.toInt then x else y
  | .minU => if x.toNat ≤ y.toNat then x else y
  | .max => if x.toInt ≤ y.toInt then y else x
  | .maxU => if x.toNat ≤ y.toNat then y else x
  | .sel => if bit old 0 then x else y

/-- Division by zero sets DZ (R118). -/
def Alu.dz (op : Alu) (y : Word) : Bool :=
  match op with
  | .div | .divU | .rem | .remU => y == 0
  | _ => false

/-- What `sel` reads of its destination; no other operation reads it (R118, R266). -/
def Alu.reads (op : Alu) (s : State) (d : Fin 64) : Except Stop Word :=
  match op with
  | .sel => do
    let x ← readW s d 1
    .ok x.lo
  | _ => .ok 0

/-- The registers an operation reads. -/
def Alu.uses (op : Alu) (d : Fin 64) (l : List Nat) : List Nat :=
  match op with
  | .sel => d.val :: l
  | _ => l

/-- A two-operand integer operation on registers. -/
def aluReg (op : Alu) (d a b : Fin 64) (s : State) : Host.Outcome State Fault Refusal := conclude s do
  let old ← op.reads s d
  useW s d 1
  let x ← readW s a 2
  let y ← readW s b 3
  .ok ((s.onCpu fun c => c.setSticky { dz := op.dz y.lo }).finishW 1 (op.uses d [a.val, b.val]) d (.plain (op.result x.lo y.lo old)))

/-- A two-operand integer operation on a register and a constant. -/
def aluKonst (op : Alu) (d a : Fin 64) (k : KRef) (s : State) : Host.Outcome State Fault Refusal := conclude s do
  let old ← op.reads s d
  useW s d 1
  let x ← readW s a 2
  let (y, t) ← konst s k
  .ok ((t.onCpu fun c => c.setSticky { dz := op.dz y }).finishW 2 (op.uses d [a.val]) d (.plain (op.result x.lo y old)))

/-- An operation on one register (R118, R120). -/
def unaryReg (f : Word → Word) (d a : Fin 64) (s : State) : Host.Outcome State Fault Refusal := conclude s do
  useW s d 1
  let x ← readW s a 2
  .ok (s.finishW 1 [a.val] d (.plain (f x.lo)))

/-- A compare of two registers (R119). -/
def cmpReg (c : Cond) (d a b : Fin 64) (s : State) : Host.Outcome State Fault Refusal := conclude s do
  useW s d 1
  let x ← readW s a 2
  let y ← readW s b 3
  .ok (s.finishW 1 [a.val, b.val] d (.plain (if c.holds x.lo y.lo then 1 else 0)))

/-- A compare of a register and a constant (R119). -/
def cmpKonst (c : Cond) (d a : Fin 64) (k : KRef) (s : State) : Host.Outcome State Fault Refusal := conclude s do
  useW s d 1
  let x ← readW s a 2
  let (y, t) ← konst s k
  .ok (t.finishW 2 [a.val] d (.plain (if c.holds x.lo y then 1 else 0)))


/-- `add` (R118). -/
def execAdd (d a b : Fin 64) (s : State) := aluReg .add d a b s

/-- `sub` (R118). -/
def execSub (d a b : Fin 64) (s : State) := aluReg .sub d a b s

/-- `mul` (R118). -/
def execMul (d a b : Fin 64) (s : State) := aluReg .mul d a b s

/-- `mulh` (R118). -/
def execMulh (d a b : Fin 64) (s : State) := aluReg .mulh d a b s

/-- `mulh.u` (R118). -/
def execMulhU (d a b : Fin 64) (s : State) := aluReg .mulhU d a b s

/-- `div` (R118). -/
def execDiv (d a b : Fin 64) (s : State) := aluReg .div d a b s

/-- `div.u` (R118). -/
def execDivU (d a b : Fin 64) (s : State) := aluReg .divU d a b s

/-- `rem` (R118). -/
def execRem (d a b : Fin 64) (s : State) := aluReg .rem d a b s

/-- `rem.u` (R118). -/
def execRemU (d a b : Fin 64) (s : State) := aluReg .remU d a b s

/-- `and` (R118). -/
def execAnd (d a b : Fin 64) (s : State) := aluReg .and d a b s

/-- `or` (R118). -/
def execOr (d a b : Fin 64) (s : State) := aluReg .or d a b s

/-- `xor` (R118). -/
def execXor (d a b : Fin 64) (s : State) := aluReg .xor d a b s

/-- `shl` (R118). -/
def execShl (d a b : Fin 64) (s : State) := aluReg .shl d a b s

/-- `shr` (R118). -/
def execShr (d a b : Fin 64) (s : State) := aluReg .shr d a b s

/-- `sra` (R118). -/
def execSra (d a b : Fin 64) (s : State) := aluReg .sra d a b s

/-- `min` (R118). -/
def execMin (d a b : Fin 64) (s : State) := aluReg .min d a b s

/-- `min.u` (R118). -/
def execMinU (d a b : Fin 64) (s : State) := aluReg .minU d a b s

/-- `max` (R118). -/
def execMax (d a b : Fin 64) (s : State) := aluReg .max d a b s

/-- `max.u` (R118). -/
def execMaxU (d a b : Fin 64) (s : State) := aluReg .maxU d a b s

/-- `sel` (R118). -/
def execSel (d a b : Fin 64) (s : State) := aluReg .sel d a b s

/-- `add` with a constant (R118, R58). -/
def execAddK (d a : Fin 64) (k : KRef) (s : State) := aluKonst .add d a k s

/-- `sub` with a constant (R118, R58). -/
def execSubK (d a : Fin 64) (k : KRef) (s : State) := aluKonst .sub d a k s

/-- `mul` with a constant (R118, R58). -/
def execMulK (d a : Fin 64) (k : KRef) (s : State) := aluKonst .mul d a k s

/-- `mulh` with a constant (R118, R58). -/
def execMulhK (d a : Fin 64) (k : KRef) (s : State) := aluKonst .mulh d a k s

/-- `mulh.u` with a constant (R118, R58). -/
def execMulhUK (d a : Fin 64) (k : KRef) (s : State) := aluKonst .mulhU d a k s

/-- `div` with a constant (R118, R58). -/
def execDivK (d a : Fin 64) (k : KRef) (s : State) := aluKonst .div d a k s

/-- `div.u` with a constant (R118, R58). -/
def execDivUK (d a : Fin 64) (k : KRef) (s : State) := aluKonst .divU d a k s

/-- `rem` with a constant (R118, R58). -/
def execRemK (d a : Fin 64) (k : KRef) (s : State) := aluKonst .rem d a k s

/-- `rem.u` with a constant (R118, R58). -/
def execRemUK (d a : Fin 64) (k : KRef) (s : State) := aluKonst .remU d a k s

/-- `and` with a constant (R118, R58). -/
def execAndK (d a : Fin 64) (k : KRef) (s : State) := aluKonst .and d a k s

/-- `or` with a constant (R118, R58). -/
def execOrK (d a : Fin 64) (k : KRef) (s : State) := aluKonst .or d a k s

/-- `xor` with a constant (R118, R58). -/
def execXorK (d a : Fin 64) (k : KRef) (s : State) := aluKonst .xor d a k s

/-- `shl` with a constant (R118, R58). -/
def execShlK (d a : Fin 64) (k : KRef) (s : State) := aluKonst .shl d a k s

/-- `shr` with a constant (R118, R58). -/
def execShrK (d a : Fin 64) (k : KRef) (s : State) := aluKonst .shr d a k s

/-- `sra` with a constant (R118, R58). -/
def execSraK (d a : Fin 64) (k : KRef) (s : State) := aluKonst .sra d a k s

/-- `min` with a constant (R118, R58). -/
def execMinK (d a : Fin 64) (k : KRef) (s : State) := aluKonst .min d a k s

/-- `min.u` with a constant (R118, R58). -/
def execMinUK (d a : Fin 64) (k : KRef) (s : State) := aluKonst .minU d a k s

/-- `max` with a constant (R118, R58). -/
def execMaxK (d a : Fin 64) (k : KRef) (s : State) := aluKonst .max d a k s

/-- `max.u` with a constant (R118, R58). -/
def execMaxUK (d a : Fin 64) (k : KRef) (s : State) := aluKonst .maxU d a k s

/-- `sel` with a constant (R118, R58). -/
def execSelK (d a : Fin 64) (k : KRef) (s : State) := aluKonst .sel d a k s

/-- `clz`: zero bits above the highest one bit (R118). -/
def execClz (d a : Fin 64) (s : State) := unaryReg (fun x => BitVec.ofNat 64 (leadZeros 64 x.toNat)) d a s

/-- `popc`: number of one bits (R118). -/
def execPopc (d a : Fin 64) (s : State) := unaryReg (fun x => BitVec.ofNat 64 (popCount 64 x.toNat)) d a s

/-- `cmp.eq` (R119). -/
def execCmpEq (d a b : Fin 64) (s : State) := cmpReg .eq d a b s

/-- `cmp.eq` with a constant (R119, R58). -/
def execCmpEqK (d a : Fin 64) (k : KRef) (s : State) := cmpKonst .eq d a k s

/-- `cmp.ne` (R119). -/
def execCmpNe (d a b : Fin 64) (s : State) := cmpReg .ne d a b s

/-- `cmp.ne` with a constant (R119, R58). -/
def execCmpNeK (d a : Fin 64) (k : KRef) (s : State) := cmpKonst .ne d a k s

/-- `cmp.lt` (R119). -/
def execCmpLt (d a b : Fin 64) (s : State) := cmpReg .lt d a b s

/-- `cmp.lt` with a constant (R119, R58). -/
def execCmpLtK (d a : Fin 64) (k : KRef) (s : State) := cmpKonst .lt d a k s

/-- `cmp.ge` (R119). -/
def execCmpGe (d a b : Fin 64) (s : State) := cmpReg .ge d a b s

/-- `cmp.ge` with a constant (R119, R58). -/
def execCmpGeK (d a : Fin 64) (k : KRef) (s : State) := cmpKonst .ge d a k s

/-- `cmp.lt.u` (R119). -/
def execCmpLtU (d a b : Fin 64) (s : State) := cmpReg .ltU d a b s

/-- `cmp.lt.u` with a constant (R119, R58). -/
def execCmpLtUK (d a : Fin 64) (k : KRef) (s : State) := cmpKonst .ltU d a k s

/-- `cmp.ge.u` (R119). -/
def execCmpGeU (d a b : Fin 64) (s : State) := cmpReg .geU d a b s

/-- `cmp.ge.u` with a constant (R119, R58). -/
def execCmpGeUK (d a : Fin 64) (k : KRef) (s : State) := cmpKonst .geU d a k s

/-- `addi` (R120). -/
def execAddi (d a : Fin 64) (i : BitVec 13) (s : State) := unaryReg (fun x => x + i.signExtend 64) d a s

/-- `andi` (R120). -/
def execAndi (d a : Fin 64) (i : BitVec 13) (s : State) := unaryReg (fun x => x &&& i.signExtend 64) d a s

/-- `ori` (R120). -/
def execOri (d a : Fin 64) (i : BitVec 13) (s : State) := unaryReg (fun x => x ||| i.signExtend 64) d a s

/-- `xori` (R120). -/
def execXori (d a : Fin 64) (i : BitVec 13) (s : State) := unaryReg (fun x => x ^^^ i.signExtend 64) d a s

/-- `shli` (R120). -/
def execShli (d a : Fin 64) (i : BitVec 13) (s : State) := unaryReg (fun x => x <<< i.toNat) d a s

/-- `shri` (R120). -/
def execShri (d a : Fin 64) (i : BitVec 13) (s : State) := unaryReg (fun x => x >>> i.toNat) d a s

/-- `srai` (R120). -/
def execSrai (d a : Fin 64) (i : BitVec 13) (s : State) := unaryReg (fun x => x.sshiftRight i.toNat) d a s

/-- `lhi` (R120). -/
def execLhi (d a : Fin 64) (i : BitVec 13) (s : State) := unaryReg (fun x => (x <<< 13) ||| i.setWidth 64) d a s

end Sys2Proof.Machine
end

