-- ==== Sys2Proof/Machine/Network.lean ====
section
/-! DEFINITION. The ordering machine's own steps: entries leaving the store queues (R27, R31, R32, R35, R37), writes applied and reads served (R28-R30, R45), atomics (R36), values that return (R26), completion probes (R35), answers for dead devices (R358), walks (R343), answers of the engines (R327, R383, R400), asynchronous traps (R110) and timeouts (R151). -/

namespace Sys2Proof.Machine

/-! ### Leaving the store queue -/

/-- A packet changes what its agent holds, so that a release waits for it (R31). -/
def PacketOp.writes : PacketOp → Bool
  | .write _ | .stfeWait _ | .cfgWrite .. | .fullBits .. | .amo .. => true
  | .read _ | .cfgRead _ | .probe => false

/-- Sends a request of the store queue. One for the own core's scratch goes to its bank queue, where it waits for an empty granule; any other leaves through the outbound
port (R23, R27). -/
def State.sendOut (s : State) (g : Agent) (op : PacketOp) : State :=
  let p := s.packet g op
  if g = .bank s.cur then s.send { p with stage := .agent, egrAt := s.packetN, waiting := !s.bitsReady op } else s.send p

/-- The context looked at sends a write: its agent joins the set of applying agents (R35). -/
def State.sendWrite (s : State) (g : Agent) (op : PacketOp) : State :=
  (s.send (s.packet g op)).onCpu fun c => { c with aset := if c.aset.contains g then c.aset else c.aset ++ [g] }

/-- Sets or clears the full bits of a range (R274). -/
def State.setFullBits (s : State) (pa swz n : Nat) (on : Bool) : State :=
  { s with mem := (granules swz pa n).foldl (fun m g => m.setFull g on) s.mem }

/-- One part of a store leaves: to the own core's bank queue, where it is applied, or through the outbound port. -/
def State.leaveWrite (s : State) (w : WriteOp) : State :=
  let g := s.agentOf w.pa
  if g = .bank s.cur then s.applyWrite s.cur w else s.sendWrite g (.write w)

/-- One range of `feset` or `feclr` leaves. -/
def State.leaveFullBits (s : State) (on : Bool) (x : Agent × Nat × Nat × Nat) : State :=
  let (_, pa, swz, n) := x
  let g := s.agentOf pa
  if g = .bank s.cur then s.setFullBits pa swz n on else s.sendWrite g (.fullBits pa swz n on)

/-- Bytes can leave now: those of the own core's scratch once its banks can take them, after what they have accepted (R23, R38). -/
def State.bankTakes (s : State) (pa swz n : Nat) : Bool :=
  decide (s.agentOf pa ≠ .bank s.cur) || (s.open ⟨pa, swz, none⟩ && s.orderClear s.cur (.bank s.cur) ⟨pa, swz, none⟩ n)

/-- The places of the parts of a store that can leave now. -/
def State.partsReady (s : State) (parts : List (Agent × WriteOp)) : List Nat :=
  (List.range parts.length).filter fun i => match parts[i]? with | some (_, w) => s.bankTakes w.pa w.swz w.n | none => false

/-- One part of the store at the head of the queue leaves; parts are unordered with each other, so which one goes is free (R194). The entry goes with its last part. -/
def State.leavePart (s : State) (parts : List (Agent × WriteOp)) (rest : List SqEntry) : Option State :=
  let l := s.partsReady parts
  let i := l.getD ((Config.freeWord s.freeN).toNat % l.length) parts.length
  match parts[i]? with
  | none => none
  | some (_, w) =>
    let left := listDrop parts i
    let s := if l.length > 1 then { s with freeN := s.freeN + 1 } else s
    some ((s.onCpu fun c => { c with sq := if left.isEmpty then rest else .store left :: rest }).leaveWrite w)

/-- A release at the scope needs writes to the agent to be applied; elsewhere it needs the ring stop or the Flaide egress to have accepted them (R31). -/
def needsApplied (scope h : Nat) (g : Agent) : Bool :=
  match g with
  | .bank k => if scope ≤ 1 then false else if scope = 2 then decide (k / 16 = h / 16) else true
  | .slice _ | .config _ => decide (scope ≥ 3)
  | .remote _ => decide (scope ≥ 5)

/-- A packet has come as far as the scope asks where it need not be applied (R31). -/
def Packet.farEnough (p : Packet) (scope : Nat) : Bool :=
  if scope ≤ 1 then true
  else if scope = 2 then decide (p.stage ≠ .port)
  else match p.dest with
    | .remote _ => decide (p.stage = .egress)
    | _ => true

/-- A probe of the context to an agent is on its way. -/
def State.probing (s : State) (g : Agent) : Bool := s.net.any fun p => decide (p.h = s.cur ∧ p.slot = s.slot ∧ p.dest = g ∧ p.op = .probe)

/-- A release at the head of the queue: it sends the probes it needs, or is satisfied and leaves (R31, R35). -/
def State.leaveFence (s : State) (scope : Nat) (rest : List SqEntry) : Option State :=
  let need := s.cpu.aset.filter (needsApplied scope s.cur)
  match need.filter fun g => !s.probing g with
  | g :: more => some ((g :: more).foldl (fun s g => s.send (s.packet g .probe)) s)
  | [] =>
    let far := s.net.all fun p => !(decide (p.h = s.cur ∧ p.slot = s.slot) && p.op.writes) || p.farEnough scope
    if need.isEmpty && far then some (s.onCpu fun c => { c with sq := rest }) else none

/-- An engine command at the head of the queue enters its engine, where an entry has been kept for it since it issued (R37); the release of a stream by a dismissal, which kept
none, waits for one (R241). -/
def State.leaveCommand (s : State) (eng : Nat) (c : Cmd) : Option State :=
  match eng with
  | 2 => some (enterMatrix s c)
  | 3 => if s.tqHeld < 32 then some (enterTransfer s c) else none
  | 4 => some (enterPrefetch s c)
  | 12 => some (enterRemote s c)
  | _ => some (enterRequest eng s c)

/-- STORE_QUEUE_LEAVE: the oldest entry of a context's store queue leaves. -/
def State.leave (s0 : State) (h slot : Nat) : Option State :=
  let s1 := s0.focus h slot
  match s1.cpu.sq with
  | [] => none
  | e :: rest =>
    let s := s1.onCpu fun c => { c with sq := rest }
    match e with
    | .store parts => s1.leavePart parts rest
    | .fullBits parts on =>
      if parts.all fun (_, pa, swz, n) => s.bankTakes pa swz n then some (parts.foldl (fun s p => s.leaveFullBits on p) s) else none
    | .amo _ op =>
      match op.range with
      | some (pa, _, _) => some (s.sendOut (s.agentOf pa) op)
      | none => none
    | .cfg addr v => some (s.sendWrite (s.agentOf addr) (.cfgWrite addr v))
    | .fence scope _ => s1.leaveFence scope rest
    | .command eng c => s.leaveCommand eng c
    | .rput a => some { s with arrivals := s.arrivals ++ [a] }
    | .message target c => if s.tqHeld < 32 then some (leaveMessage s target c) else none
    | .barrier _ => none

/-- `STORE_QUEUE_LEAVE`. -/
def execStoreQueueLeave (h slot : Nat) (s : State) : Host.Outcome State Fault Refusal := event s (s.leave h slot)

/-! ### Order at the agents -/

/-- A packet that has passed the last ordering point before its agent: the egress of another device, or the queue of the bank or slice. -/
def Packet.accepted (p : Packet) : Bool := decide (p.stage = .egress ∨ p.stage = .agent)

/-- A packet goes through the cluster's ring stop: all but those to the own core's banks. -/
def Packet.rings (p : Packet) : Bool := decide (p.dest ≠ .bank p.h)

/-- Of two packets to one place, q is before p: an earlier one of the same core (R12), one that passed the cluster's ring stop before it, or one that the egress or the
agent's queue accepted before it (R24). -/
def Packet.before (q p : Packet) : Bool :=
  decide (q.id ≠ p.id) &&
    (decide (q.h = p.h ∧ q.id < p.id)
     || (decide (q.h ≠ p.h ∧ q.h / 16 = p.h / 16 ∧ q.stage ≠ .port ∧ (p.stage = .port ∨ q.ringAt < p.ringAt)) && q.rings && p.rings)
     || (decide (q.h ≠ p.h) && q.accepted && (!p.accepted || decide (q.egrAt < p.egrAt))))

/-- A request waits at its bank queue for full or empty bits (R145). -/
def PacketOp.waits (op : PacketOp) : Bool :=
  match op with
  | .stfeWait _ => true
  | .read r => match r.kind with | .consume _ => true | _ => false
  | _ => false

/-- The register block of a request to configuration space. -/
def PacketOp.block : PacketOp → Option Nat
  | .cfgWrite a _ | .cfgRead a => some (configBlock (localOf a))
  | _ => none

/-- A packet before it that a request to the same bank or line may not overtake (R23, R29); one to the same register block of configuration space (R156). A
request that waits for a full or empty bit is not overtaken by a later one once its bit allows it (R145). -/
def State.isAhead (s : State) (p : Packet) : Bool :=
  match p.op.range with
  | some (pa, swz, n) =>
    (s.net.any fun q => q.before p && q.bars p.dest pa swz n)
      || (p.op.waits && s.waiterAhead p.dest pa swz n (if p.stage = .agent then p.egrAt else s.packetN))
  | none => s.net.any fun q => decide (q.dest = p.dest ∧ q.op.block = p.op.block) && q.before p && !q.waiting

/-- The write-completion counter of a packet's tenant at its slice (R35, R352): the writes that the slice has accepted and not yet applied. -/
def Packet.counter (p : Packet) : Option Nat :=
  match p.dest with
  | .slice n => if p.op.writes then some (n * 64 + p.tenant) else none
  | _ => none

/-- A slice can accept a packet: a write waits while its tenant's counter stands at 0xFFFF (R352). -/
def State.counts (s : State) (p : Packet) : Bool :=
  match p.counter with
  | some k => decide (Tab.get 0 s.wcc k < 0xFFFF)
  | none => true

/-- An accepted write leaves its slice's queue, and the counter falls. -/
def State.counted (s : State) (p : Packet) : State :=
  match p.counter with
  | some k => if p.stage = .agent then { s with wcc := Tab.set 0 s.wcc k (Tab.get 0 s.wcc k - 1) } else s
  | none => s

/-- The agent can act on a packet: nothing is before it, its slice can accept it, its line is not owned by an engine (R38), its frame not blocked (R357), and the device
that holds it is alive (R358). -/
def State.admits (s : State) (p : Packet) : Bool :=
  !s.isAhead p && (decide (p.stage = .agent) || s.counts p) && !s.deadAgent p.dest &&
    match p.op.range with
    | some (pa, swz, _) => s.open ⟨pa, swz, none⟩
    | none => true

/-- The k-th packet leaves the network. -/
def State.takePacket (s : State) (k : Nat) (p : Packet) : State := { s with net := listDrop s.net k }.counted p

/-- The k-th packet reaches its bank queue and waits there for its full or empty bits, in the order of arrival (R145). -/
def State.waitAt (s : State) (k : Nat) (p : Packet) : Option State :=
  if p.waiting then none
  else if p.stage = .agent then some { s with net := listSet s.net k { p with waiting := true } }
  else some { s with net := listSet s.net k { p with stage := .agent, egrAt := s.packetN, waiting := true }, packetN := s.packetN + 1 }

/-- A live field owns the page that a request would write (R296). -/
def State.ownedBy (s : State) (pa : Nat) : Bool := decide (devOf pa = s.dev) && s.fieldOwned (frameOf pa)

/-- A context that a stop has halted stays halted after its value has returned. -/
def Ctx.haltAgain (c : Ctx) (was : Run) : Ctx :=
  match was, c.run with
  | .halted .stop _, .ready => { c with run := .halted .stop none }
  | _, _ => c

/-- An atomic that reaches a page which a live field has taken since is not performed, and its context takes the trap 0x0B (R140, R296). -/
def State.refuseAtomic (s0 : State) (p : Packet) : State :=
  let s := s0.focus p.h p.slot
  match s.cpu.pend with
  | none => s0
  | some l =>
    let was := s.cpu.run
    ((s.onCpu fun c => { c with pend := none, run := .ready }).takeTrap ⟨0x0B, 2, BitVec.ofNat 64 l.ea, false, false⟩).onCpu fun c => c.haltAgain was

/-- A read at its agent: the page is taken as R349 has it, and the value is as `serve` gives it, with the full bits it clears and the watch it arms. A consuming load waits for
its full bits (R145). -/
def State.serveRead (s0 : State) (k : Nat) (p : Packet) (r : ReadOp) : Option State :=
  let s := (s0.reclaim p.tenant r.pa p.dest).takePage r.pa false
  let (x, tag, pois) := s.serve p.h r (s.forwarded p)
  let t := s.takePacket k p
  match r.kind with
  | .consume _ => if !s.allFull r then s0.waitAt k p else some ((if pois = none then t.consume r else t).answerLoad p x tag pois)
  | .watch =>
    let t := t.touchFor p.h r.pa r.n
    some ((if pois = none then t.arm p.h p.slot (lineOf r.swz r.pa) else t).answerLoad p x tag pois)
  | .plain => some ((t.touchFor p.h r.pa r.n).answerLoad p x tag pois)

/-- WRITE_APPLIED: an agent applies a write, or serves a read, at the bank queue or home that holds the bytes. A page that a live field owns receives none: `fdecl` takes it once
the stores that have passed their checks are applied (R296, log 93). -/
def State.apply (s : State) (k : Nat) : Option State :=
  match s.net[k]? with
  | none => none
  | some p =>
    if !s.admits p then none
    else
      let t := s.takePacket k p
      match p.op with
      | .write w => some ((t.reclaim p.tenant w.pa p.dest).ownWrite p.h w)
      | .read r => s.serveRead k p r
      | .stfeWait w =>
        if !s.bitsReady p.op then s.waitAt k p
        else some ((t.applyWrite p.h w).answerLoad p 0 false none)
      | .cfgWrite addr v => some (match p.dest with | .config _ => t.cfgWrite (localOf addr) v | _ => t)
      | .cfgRead addr =>
        let (v, u) := match p.dest with | .config _ => t.cfgRead (localOf addr) | _ => t.freeRead
        some (u.answerLoad p (v.setWidth 1024) false none)
      | .fullBits pa swz n on => some (t.setFullBits pa swz n on)
      | .amo .. | .probe => none

/-- `WRITE_APPLIED`. -/
def execWriteApplied (k : Nat) (s : State) : Host.Outcome State Fault Refusal := event s (s.apply k)

/-- ATOMIC_PERFORMED: the agent reads and writes with no access between (R36); a poisoned granule is returned as such and nothing is written (R140). -/
def State.performAtomic (s : State) (k : Nat) : Option State :=
  match s.net[k]? with
  | none => none
  | some p =>
    match p.op with
    | .amo op pa swz n y cmp =>
      if !s.admits p then none
      else if s.ownedBy pa then some ((s.takePacket k p).refuseAtomic p)
      else
        let t := (((s.takePacket k p).reclaim p.tenant pa p.dest).mcWritten s.mcast.length (lineOf swz pa)).takePage pa true
        match t.poisonFor p.h swz pa n (ones 128 n) with
        | some a => some (t.answerLoad p 0 false (some (a - pa)))
        | none =>
          let (old, u) := t.atomic p.h op pa swz n y cmp
          some (u.answerLoad p (BitVec.ofNat 1024 old) false none)
    | _ => none

/-- `ATOMIC_PERFORMED`. -/
def execAtomicPerformed (k : Nat) (s : State) : Host.Outcome State Fault Refusal := event s (s.performAtomic k)

/-- COMPLETION_PROBE_ANSWER: the agent answers the context's probe once the tenant's writes that it accepted before the probe have been applied (R35). -/
def State.answerProbe (s : State) (h slot i : Nat) : Option State :=
  let c := s.ctx h slot
  match c.aset[i]? with
  | none => none
  | some g =>
    match s.net.findIdx? fun p => decide (p.h = h ∧ p.slot = slot ∧ p.dest = g ∧ p.op = .probe) with
    | none => none
    | some k =>
      match s.net[k]? with
      | none => none
      | some p =>
        if !s.deadAgent g && s.net.any (fun q => decide (q.dest = p.dest) && q.before p && q.op.writes && q.tenant = p.tenant) then none
        else some ({ s with net := listDrop s.net k }.setCtx h slot { c with aset := listDrop c.aset i })

/-- `COMPLETION_PROBE_ANSWER`. -/
def execCompletionProbeAnswer (h slot agent : Nat) (s : State) : Host.Outcome State Fault Refusal := event s (s.answerProbe h slot agent)

/-! ### Values that return -/

/-- LOAD_RETURN: every line or granule of a load has been served, and it completes (R26, R193, R194). -/
def State.loadReturns (s0 : State) (h slot : Nat) : Option State :=
  let s := s0.focus h slot
  match s.cpu.pend with
  | none => none
  | some l =>
    if l.left ≠ 0 then none
    else
      let was := s.cpu.run
      let t := s.onCpu fun c => { c with pend := none, run := .ready }
      let u := t.deliver l.back l.words l.pops l.ea (blend l.acc l.fwd l.fwdMask) (l.fwdTag.getD l.tag) l.poison
      some (u.onCpu fun c => c.haltAgain was)

/-- `LOAD_RETURN`. -/
def execLoadReturn (h slot : Nat) (s : State) : Host.Outcome State Fault Refusal := event s (s.loadReturns h slot)

/-- DEAD_PEER_SYNTHESIS: the egress answers in a dead device's place: a read with poison, a write by an acknowledgement, an arrival or message by its credit (R358). -/
def State.synthesize (s : State) (k : Nat) : Option State :=
  let dead (n : Nat) : Bool := Tab.get false s.mdl.ddead n
  match s.net[k]? with
  | some p =>
    match p.dest with
    | .remote n =>
      if !dead n then none
      else
        let t := { s with net := listDrop s.net k }
        match p.op with
        | .read r => some (t.answerLoad p 0 false (r.lost (s.forwarded p)))
        | .amo .. | .cfgRead _ => some (t.answerLoad p 0 false (some 0))
        | .stfeWait _ => some (t.answerLoad p 0 false none)
        | .write _ | .cfgWrite .. | .fullBits .. => some t
        | .probe =>
          let c := t.ctx p.h p.slot
          some (t.setCtx p.h p.slot { c with aset := c.aset.filter (· ≠ p.dest) })
    | _ => none
  | none =>
    let i := k - s.net.length
    match s.arrivals[i]? with
    | some a => if dead (a.faddr / 2 ^ 43) && a.atPort.isNone then some (s.arrivalDone i a) else none
    | none =>
      let j := i - s.arrivals.length
      match s.msgs[j]? with
      | some m => if dead (m.target / 2048) then some { s with msgs := listDrop s.msgs j, allowDue := s.allowDue ++ [(m.sender, m.sgen)] } else none
      | none => none

/-- `DEAD_PEER_SYNTHESIS`. -/
def execDeadPeerSynthesis (k : Nat) (s : State) : Host.Outcome State Fault Refusal := event s (s.synthesize k)

/-! ### Walks (R343) -/

/-- What a walk's end means to a context: it looks again, and meets the fault if there was one. -/
def Ctx.walked (c : Ctx) (t page : Nat) (fault : Option Nat) : Ctx :=
  if c.walk = some (t, page) then { c with walk := none, walkFault := fault.map fun code => (page, code) } else c

/-- The contexts of a die that wait for the walk of a tenant's page, by their keys. -/
def State.joiners (s : State) (die t page : Nat) : List Nat :=
  (ctxKey s.cur s.slot :: s.ctxs.map (·.1)).filter fun k =>
    decide (k < ctxKey 2048 0 ∧ k / 16 / 512 = die) && decide ((s.ctx (k / 16) (k % 16)).walk = some (t, page))

/-- A miss takes the result of its walk: a translation enters the TLBs of its core. -/
def State.joined (s : State) (t page : Nat) (r : Except Nat TlbEntry) (k : Nat) : State :=
  let h := k / 16
  match r with
  | .ok e =>
    let s := if (s.tlbFind h t (page * 65536)).isSome then s else s.addTlb h e
    s.setCtx h (k % 16) ((s.ctx h (k % 16)).walked t page none)
  | .error code => s.setCtx h (k % 16) ((s.ctx h (k % 16)).walked t page (some code))

/-- TLB_WALK: a walk that one of the die's walkers makes ends for every miss that has joined it; no engine owns a line that it reads. Only one that succeeded enters the
TLBs (R38, R343). -/
def State.endWalk (s : State) (h t va : Nat) : Option State :=
  let page := va / 65536
  let reads := s.walkReads h (page * 65536) 5 0 (bits (s.tenantOf t).troot 12 44 * 4096)
  if !s.walkRuns (h / 512) t page || !reads.all (fun a => s.open ⟨a, 0, none⟩) then none
  else
    let r := s.walk h t (page * 65536)
    some ((s.joiners (h / 512) t page).foldl (fun s k => s.joined t page r k) { s with walks := s.walks.filter (· ≠ (h / 512, t, page)) })

/-- `TLB_WALK`. -/
def execTlbWalk (h t va : Nat) (s : State) : Host.Outcome State Fault Refusal := event s (s.endWalk h t va)

/-! ### Answers of the engines -/

/-- The answer of engine `eng` to a request. -/
def State.reply (s : State) (eng : Nat) (c : Cmd) : Reply :=
  match eng with
  | 5 => vatReply s c
  | 7 => dispatchReply s c
  | _ => fastReply s c

/-- The instruction that asked completes with a value, or with none to write (R327, R383, R400). -/
def Ctx.answered (c : Ctx) (d : Fin 64) (uses : List Nat) (x : Option Wreg) : Ctx :=
  let was := c.run
  let c := { c with answer := none, run := .ready }.popAll uses
  ((match x with | some v => c.writeW d v | none => c).advance 1).haltAgain was

/-- The k-th request is answered to the context that asked, wherever its registers stand: a value is written, a refusal or fault is taken as a precise trap. In a context
that a stop has halted a trap waits for the resume, and a saved one takes the value in its image, once no migration blocks its page (R170, R336). -/
def State.answerTo (s : State) (k eng : Nat) (c : Cmd) : Option State :=
  match s.heldAt c.ident with
  | none => none
  | some (h, slot) =>
    match (s.ctx h slot).answer with
    | none => none
    | some (e, uses) =>
      if e ≠ eng ∨ (s.ctx h slot).gen ≠ c.gen ∨ (h ≥ 2048 ∧ s.isBlocked (frameOf (s.loc c.ident).img.toNat)) then none
      else match { s with requests := listDrop s.requests k }.reply eng c with
        | .later => none
        | .value x t => some (t.onRegs h slot fun y => y.answered c.d uses x)
        | .trapped code opnd info t =>
          if (s.ctx h slot).stopHalted then none
          else some (((t.focus h slot).onCpu fun y => { y with answer := none, run := .ready }).takeTrap ⟨code, opnd, BitVec.ofNat 64 info, false, false⟩)

/-- ENGINE_ANSWER: an engine answers a request that was made in slot `slot` of core h (R327, R336, R383, R400). -/
def State.engineAnswers (s : State) (h slot : Nat) : Option State :=
  (List.range s.requests.length).findSome? fun k =>
    match s.requests[k]? with
    | some (eng, c) => if c.h = h ∧ c.slot = slot then s.answerTo k eng c else none
    | none => none

/-- `ENGINE_ANSWER`. -/
def execEngineAnswer (h slot : Nat) (s : State) : Host.Outcome State Fault Refusal := event s (s.engineAnswers h slot)

/-! ### Asynchronous traps and timeouts -/

/-- A request that the context gives up for a trap, and asks again after it (R336). -/
def State.withdraw (s : State) : State :=
  match s.cpu.answer with
  | none => s
  | some (eng, _) =>
    { s with requests := s.requests.filter fun r => !(decide (r.1 = eng ∧ r.2.ident = s.cpu.ident ∧ r.2.gen = s.cpu.gen)) }.onCpu fun c =>
      { c with answer := none, sq := c.sq.filter fun e => !e.asksAgain }

/-- An asynchronous trap strikes before a header rather than before a word of a block (R100, R240). -/
def Ctx.beforeHeader (c : Ctx) : Bool := decide (c.entry ≠ .inside ∧ c.entry ≠ .resume)

/-- The context looked at holds issue at an instruction and is to take an asynchronous cause: its core is not halted by DHALT (R115), and its tenant's stop cycle has not come (R113). -/
def State.asyncReady (s : State) : Bool :=
  decide (s.cpu.run = .issuing ∧ s.cpu.entry ≠ .returning) && s.cpu.asyncPending && !s.core.dhalt && !s.stopped s.cpu.tenant

/-- ASYNC_TRAP_ENTRY: the pending cause of the lowest code is taken before the next instruction of the context that holds issue (R110). -/
def State.asyncTrap (s : State) : Option State :=
  let c := s.cpu
  if !s.asyncReady then none
  else
    let s := s.withdraw
    match c.povr, c.rovf with
    | some i, _ => some ((s.takeTrap ⟨0x0D, 0, i, false, c.beforeHeader⟩).onCpu fun c => { c with povr := none })
    | none, some i => some ((s.takeTrap ⟨0x0E, 0, i, false, c.beforeHeader⟩).onCpu fun c => { c with rovf := none })
    | none, none => some (s.takeTrap ⟨0x16, 0, BitVec.ofNat 64 c.mbox.length, false, c.beforeHeader⟩)

/-- `ASYNC_TRAP_ENTRY`. -/
def execAsyncTrapEntry (s : State) : Host.Outcome State Fault Refusal := event s s.asyncTrap

/-- MWAIT_TIMEOUT: the context's wait has lasted its cycles (R151); it looks again. -/
def State.timeOut (s : State) (h slot : Nat) : Option State :=
  let c := s.ctx h slot
  match c.run with
  | .parked (.watch t) => if t ≠ 0 ∧ s.time ≥ t ∧ !(s.coreOf h).dhalt then some (s.setCtx h slot { c with run := .parked (.watch 0) }) else none
  | _ => none

/-- `MWAIT_TIMEOUT`. -/
def execMwaitTimeout (h slot : Nat) (s : State) : Host.Outcome State Fault Refusal := event s (s.timeOut h slot)

end Sys2Proof.Machine
end

