-- ==== Sys2Proof/Machine/Dispatch.lean ====
section
/-! DEFINITION. The meaning of every instruction and device step: one arm per constructor. -/

namespace Sys2Proof.Machine

def exec (i : Instr) (s : State) : Host.Outcome State Fault Refusal :=
  match i with
  | .add d a b => Sys2Proof.Machine.execAdd d a b s
  | .sub d a b => Sys2Proof.Machine.execSub d a b s
  | .mul d a b => Sys2Proof.Machine.execMul d a b s
  | .mulh d a b => Sys2Proof.Machine.execMulh d a b s
  | .mulhU d a b => Sys2Proof.Machine.execMulhU d a b s
  | .div d a b => Sys2Proof.Machine.execDiv d a b s
  | .divU d a b => Sys2Proof.Machine.execDivU d a b s
  | .rem d a b => Sys2Proof.Machine.execRem d a b s
  | .remU d a b => Sys2Proof.Machine.execRemU d a b s
  | .and d a b => Sys2Proof.Machine.execAnd d a b s
  | .or d a b => Sys2Proof.Machine.execOr d a b s
  | .xor d a b => Sys2Proof.Machine.execXor d a b s
  | .shl d a b => Sys2Proof.Machine.execShl d a b s
  | .shr d a b => Sys2Proof.Machine.execShr d a b s
  | .sra d a b => Sys2Proof.Machine.execSra d a b s
  | .min d a b => Sys2Proof.Machine.execMin d a b s
  | .minU d a b => Sys2Proof.Machine.execMinU d a b s
  | .max d a b => Sys2Proof.Machine.execMax d a b s
  | .maxU d a b => Sys2Proof.Machine.execMaxU d a b s
  | .sel d a b => Sys2Proof.Machine.execSel d a b s
  | .clz d a => Sys2Proof.Machine.execClz d a s
  | .popc d a => Sys2Proof.Machine.execPopc d a s
  | .addK d a k => Sys2Proof.Machine.execAddK d a k s
  | .subK d a k => Sys2Proof.Machine.execSubK d a k s
  | .mulK d a k => Sys2Proof.Machine.execMulK d a k s
  | .mulhK d a k => Sys2Proof.Machine.execMulhK d a k s
  | .mulhUK d a k => Sys2Proof.Machine.execMulhUK d a k s
  | .divK d a k => Sys2Proof.Machine.execDivK d a k s
  | .divUK d a k => Sys2Proof.Machine.execDivUK d a k s
  | .remK d a k => Sys2Proof.Machine.execRemK d a k s
  | .remUK d a k => Sys2Proof.Machine.execRemUK d a k s
  | .andK d a k => Sys2Proof.Machine.execAndK d a k s
  | .orK d a k => Sys2Proof.Machine.execOrK d a k s
  | .xorK d a k => Sys2Proof.Machine.execXorK d a k s
  | .shlK d a k => Sys2Proof.Machine.execShlK d a k s
  | .shrK d a k => Sys2Proof.Machine.execShrK d a k s
  | .sraK d a k => Sys2Proof.Machine.execSraK d a k s
  | .minK d a k => Sys2Proof.Machine.execMinK d a k s
  | .minUK d a k => Sys2Proof.Machine.execMinUK d a k s
  | .maxK d a k => Sys2Proof.Machine.execMaxK d a k s
  | .maxUK d a k => Sys2Proof.Machine.execMaxUK d a k s
  | .selK d a k => Sys2Proof.Machine.execSelK d a k s
  | .cmpEq d a b => Sys2Proof.Machine.execCmpEq d a b s
  | .cmpNe d a b => Sys2Proof.Machine.execCmpNe d a b s
  | .cmpLt d a b => Sys2Proof.Machine.execCmpLt d a b s
  | .cmpGe d a b => Sys2Proof.Machine.execCmpGe d a b s
  | .cmpLtU d a b => Sys2Proof.Machine.execCmpLtU d a b s
  | .cmpGeU d a b => Sys2Proof.Machine.execCmpGeU d a b s
  | .cmpEqK d a k => Sys2Proof.Machine.execCmpEqK d a k s
  | .cmpNeK d a k => Sys2Proof.Machine.execCmpNeK d a k s
  | .cmpLtK d a k => Sys2Proof.Machine.execCmpLtK d a k s
  | .cmpGeK d a k => Sys2Proof.Machine.execCmpGeK d a k s
  | .cmpLtUK d a k => Sys2Proof.Machine.execCmpLtUK d a k s
  | .cmpGeUK d a k => Sys2Proof.Machine.execCmpGeUK d a k s
  | .addi d a imm => Sys2Proof.Machine.execAddi d a imm s
  | .andi d a imm => Sys2Proof.Machine.execAndi d a imm s
  | .ori d a imm => Sys2Proof.Machine.execOri d a imm s
  | .xori d a imm => Sys2Proof.Machine.execXori d a imm s
  | .shli d a imm => Sys2Proof.Machine.execShli d a imm s
  | .shri d a imm => Sys2Proof.Machine.execShri d a imm s
  | .srai d a imm => Sys2Proof.Machine.execSrai d a imm s
  | .lhi d a imm => Sys2Proof.Machine.execLhi d a imm s
  | .cbnd d a b => Sys2Proof.Machine.execCbnd d a b s
  | .cbndX d a b => Sys2Proof.Machine.execCbndX d a b s
  | .cprm d a b => Sys2Proof.Machine.execCprm d a b s
  | .csea d a => Sys2Proof.Machine.execCsea d a s
  | .cuns d a => Sys2Proof.Machine.execCuns d a s
  | .cadr d a b => Sys2Proof.Machine.execCadr d a b s
  | .clen d a => Sys2Proof.Machine.execClen d a s
  | .cbas d a => Sys2Proof.Machine.execCbas d a s
  | .ctst d a b => Sys2Proof.Machine.execCtst d a b s
  | .cadrInc d a imm => Sys2Proof.Machine.execCadrInc d a imm s
  | .br o => Sys2Proof.Machine.execBr o s
  | .call o => Sys2Proof.Machine.execCall o s
  | .bc c o => Sys2Proof.Machine.execBc c o s
  | .bcZ c o => Sys2Proof.Machine.execBcZ c o s
  | .bpAny p o => Sys2Proof.Machine.execBpAny p o s
  | .bpAll p o => Sys2Proof.Machine.execBpAll p o s
  | .bpNone p o => Sys2Proof.Machine.execBpNone p o s
  | .bpNall p o => Sys2Proof.Machine.execBpNall p o s
  | .loop c o => Sys2Proof.Machine.execLoop c o s
  | .jr a => Sys2Proof.Machine.execJr a s
  | .ret => Sys2Proof.Machine.execRet s
  | .callReg a => Sys2Proof.Machine.execCallReg a s
  | .hstart d a b => Sys2Proof.Machine.execHstart d a b s
  | .hend => Sys2Proof.Machine.execHend s
  | .hjoin a => Sys2Proof.Machine.execHjoin a s
  | .yield => Sys2Proof.Machine.execYield s
  | .fmt r n d b a => Sys2Proof.Machine.execFmt r n d b a s
  | .nop => Sys2Proof.Machine.execNop s
  | .rep imm => Sys2Proof.Machine.execRep imm s
  | .repW a => Sys2Proof.Machine.execRepW a s
  | .ld d a imm => Sys2Proof.Machine.execLd d a imm s
  | .st d a imm => Sys2Proof.Machine.execSt d a imm s
  | .ldc d a imm => Sys2Proof.Machine.execLdc d a imm s
  | .stc d a imm => Sys2Proof.Machine.execStc d a imm s
  | .ldSized d a b o x sc => Sys2Proof.Machine.execLdSized d a b o x sc s
  | .ldSizedK d a k o x sc => Sys2Proof.Machine.execLdSizedK d a k o x sc s
  | .stSized d a b o sc => Sys2Proof.Machine.execStSized d a b o sc s
  | .stSizedK d a k o sc => Sys2Proof.Machine.execStSizedK d a k o sc s
  | .ldfe d a b => Sys2Proof.Machine.execLdfe d a b s
  | .ldfeG d a b => Sys2Proof.Machine.execLdfeG d a b s
  | .ldfeP d a b => Sys2Proof.Machine.execLdfeP d a b s
  | .stfe d a b => Sys2Proof.Machine.execStfe d a b s
  | .ldfeClr d a b => Sys2Proof.Machine.execLdfeClr d a b s
  | .ldfeClrG d a b => Sys2Proof.Machine.execLdfeClrG d a b s
  | .ldfeClrP d a b => Sys2Proof.Machine.execLdfeClrP d a b s
  | .stfeWait d a b => Sys2Proof.Machine.execStfeWait d a b s
  | .amoAdd d a b o z => Sys2Proof.Machine.execAmoAdd d a b o z s
  | .amoAnd d a b o z => Sys2Proof.Machine.execAmoAnd d a b o z s
  | .amoOr d a b o z => Sys2Proof.Machine.execAmoOr d a b o z s
  | .amoXor d a b o z => Sys2Proof.Machine.execAmoXor d a b o z s
  | .amoMinU d a b o z => Sys2Proof.Machine.execAmoMinU d a b o z s
  | .amoMaxU d a b o z => Sys2Proof.Machine.execAmoMaxU d a b o z s
  | .amoSwap d a b o z => Sys2Proof.Machine.execAmoSwap d a b o z s
  | .amoCas d a b o z => Sys2Proof.Machine.execAmoCas d a b o z s
  | .amoAddScoped k d a b o z => Sys2Proof.Machine.execAmoAddScoped k d a b o z s
  | .amoAndScoped k d a b o z => Sys2Proof.Machine.execAmoAndScoped k d a b o z s
  | .amoOrScoped k d a b o z => Sys2Proof.Machine.execAmoOrScoped k d a b o z s
  | .amoXorScoped k d a b o z => Sys2Proof.Machine.execAmoXorScoped k d a b o z s
  | .amoMinUScoped k d a b o z => Sys2Proof.Machine.execAmoMinUScoped k d a b o z s
  | .amoMaxUScoped k d a b o z => Sys2Proof.Machine.execAmoMaxUScoped k d a b o z s
  | .amoSwapScoped k d a b o z => Sys2Proof.Machine.execAmoSwapScoped k d a b o z s
  | .amoCasScoped k d a b o z => Sys2Proof.Machine.execAmoCasScoped k d a b o z s
  | .fenceRel sc => Sys2Proof.Machine.execFenceRel sc s
  | .fenceAcq sc => Sys2Proof.Machine.execFenceAcq sc s
  | .fenceAr sc => Sys2Proof.Machine.execFenceAr sc s
  | .pf a imm => Sys2Proof.Machine.execPf a imm s
  | .pfW a imm => Sys2Proof.Machine.execPfW a imm s
  | .pfKeep a imm => Sys2Proof.Machine.execPfKeep a imm s
  | .pfDrop a imm => Sys2Proof.Machine.execPfDrop a imm s
  | .mon d a b => Sys2Proof.Machine.execMon d a b s
  | .mwait d a => Sys2Proof.Machine.execMwait d a s
  | .gbar sc => Sys2Proof.Machine.execGbar sc s
  | .gvoteAnd d a sc => Sys2Proof.Machine.execGvoteAnd d a sc s
  | .gvoteOr d a sc => Sys2Proof.Machine.execGvoteOr d a sc s
  | .gvoteMinU d a sc => Sys2Proof.Machine.execGvoteMinU d a sc s
  | .gvoteMaxU d a sc => Sys2Proof.Machine.execGvoteMaxU d a sc s
  | .gvoteAdd d a sc => Sys2Proof.Machine.execGvoteAdd d a sc s
  | .rcap d a b c => Sys2Proof.Machine.execRcap d a b c s
  | .rcapC d a b => Sys2Proof.Machine.execRcapC d a b s
  | .rarm a b c => Sys2Proof.Machine.execRarm a b c s
  | .rdis a b c => Sys2Proof.Machine.execRdis a b c s
  | .rstat d c => Sys2Proof.Machine.execRstat d c s
  | .rcapX d a b => Sys2Proof.Machine.execRcapX d a b s
  | .rput d a b o c => Sys2Proof.Machine.execRput d a b o c s
  | .fmset d b => Sys2Proof.Machine.execFmset d b s
  | .fmsetK d k => Sys2Proof.Machine.execFmsetK d k s
  | .fmget d a => Sys2Proof.Machine.execFmget d a s
  | .getsr d a => Sys2Proof.Machine.execGetsr d a s
  | .setsr a b => Sys2Proof.Machine.execSetsr a b s
  | .tcnt d => Sys2Proof.Machine.execTcnt d s
  | .setcw d b => Sys2Proof.Machine.execSetcw d b s
  | .sys imm => Sys2Proof.Machine.execSys imm s
  | .trap => Sys2Proof.Machine.execTrap s
  | .rfe => Sys2Proof.Machine.execRfe s
  | .launch d a => Sys2Proof.Machine.execLaunch d a s
  | .cpush d a => Sys2Proof.Machine.execCpush d a s
  | .cjoin a => Sys2Proof.Machine.execCjoin a s
  | .stopat a b => Sys2Proof.Machine.execStopat a b s
  | .hq d a => Sys2Proof.Machine.execHq d a s
  | .hqRd d a => Sys2Proof.Machine.execHqRd d a s
  | .lack => Sys2Proof.Machine.execLack s
  | .lackOff => Sys2Proof.Machine.execLackOff s
  | .hauth a b => Sys2Proof.Machine.execHauth a b s
  | .pmig a b => Sys2Proof.Machine.execPmig a b s
  | .pmigClr a => Sys2Proof.Machine.execPmigClr a s
  | .mcohHw a b => Sys2Proof.Machine.execMcohHw a b s
  | .mcohSw a => Sys2Proof.Machine.execMcohSw a s
  | .wmask a b => Sys2Proof.Machine.execWmask a b s
  | .vaddF t d a b g => Sys2Proof.Machine.execVaddF t d a b g s
  | .vsubF t d a b g => Sys2Proof.Machine.execVsubF t d a b g s
  | .vmulF t d a b g => Sys2Proof.Machine.execVmulF t d a b g s
  | .vminF t d a b g => Sys2Proof.Machine.execVminF t d a b g s
  | .vmaxF t d a b g => Sys2Proof.Machine.execVmaxF t d a b g s
  | .vfma t d a b g => Sys2Proof.Machine.execVfma t d a b g s
  | .vfms t d a b g => Sys2Proof.Machine.execVfms t d a b g s
  | .vabs d a t g => Sys2Proof.Machine.execVabs d a t g s
  | .vneg d a t g => Sys2Proof.Machine.execVneg d a t g s
  | .vexp2 d a t g => Sys2Proof.Machine.execVexp2 d a t g s
  | .vrcp d a t g => Sys2Proof.Machine.execVrcp d a t g s
  | .vrsq d a t g => Sys2Proof.Machine.execVrsq d a t g s
  | .vcmpEqF t d a b g => Sys2Proof.Machine.execVcmpEqF t d a b g s
  | .vcmpNeF t d a b g => Sys2Proof.Machine.execVcmpNeF t d a b g s
  | .vcmpLtF t d a b g => Sys2Proof.Machine.execVcmpLtF t d a b g s
  | .vcmpLeF t d a b g => Sys2Proof.Machine.execVcmpLeF t d a b g s
  | .vcmpUnF t d a b g => Sys2Proof.Machine.execVcmpUnF t d a b g s
  | .vaddW d a b g => Sys2Proof.Machine.execVaddW d a b g s
  | .vsubW d a b g => Sys2Proof.Machine.execVsubW d a b g s
  | .vmulW d a b g => Sys2Proof.Machine.execVmulW d a b g s
  | .vminW d a b g => Sys2Proof.Machine.execVminW d a b g s
  | .vmaxW d a b g => Sys2Proof.Machine.execVmaxW d a b g s
  | .vminUW d a b g => Sys2Proof.Machine.execVminUW d a b g s
  | .vmaxUW d a b g => Sys2Proof.Machine.execVmaxUW d a b g s
  | .vandW d a b g => Sys2Proof.Machine.execVandW d a b g s
  | .vorW d a b g => Sys2Proof.Machine.execVorW d a b g s
  | .vxorW d a b g => Sys2Proof.Machine.execVxorW d a b g s
  | .vshlW d a b g => Sys2Proof.Machine.execVshlW d a b g s
  | .vshrW d a b g => Sys2Proof.Machine.execVshrW d a b g s
  | .vsraW d a b g => Sys2Proof.Machine.execVsraW d a b g s
  | .vaddH d a b g => Sys2Proof.Machine.execVaddH d a b g s
  | .vsubH d a b g => Sys2Proof.Machine.execVsubH d a b g s
  | .vmulH d a b g => Sys2Proof.Machine.execVmulH d a b g s
  | .vminH d a b g => Sys2Proof.Machine.execVminH d a b g s
  | .vmaxH d a b g => Sys2Proof.Machine.execVmaxH d a b g s
  | .vminUH d a b g => Sys2Proof.Machine.execVminUH d a b g s
  | .vmaxUH d a b g => Sys2Proof.Machine.execVmaxUH d a b g s
  | .vandH d a b g => Sys2Proof.Machine.execVandH d a b g s
  | .vorH d a b g => Sys2Proof.Machine.execVorH d a b g s
  | .vxorH d a b g => Sys2Proof.Machine.execVxorH d a b g s
  | .vshlH d a b g => Sys2Proof.Machine.execVshlH d a b g s
  | .vshrH d a b g => Sys2Proof.Machine.execVshrH d a b g s
  | .vsraH d a b g => Sys2Proof.Machine.execVsraH d a b g s
  | .vcmpEqW d a b g => Sys2Proof.Machine.execVcmpEqW d a b g s
  | .vcmpNeW d a b g => Sys2Proof.Machine.execVcmpNeW d a b g s
  | .vcmpLtW d a b g => Sys2Proof.Machine.execVcmpLtW d a b g s
  | .vcmpLeW d a b g => Sys2Proof.Machine.execVcmpLeW d a b g s
  | .vcmpLtUW d a b g => Sys2Proof.Machine.execVcmpLtUW d a b g s
  | .vcmpLeUW d a b g => Sys2Proof.Machine.execVcmpLeUW d a b g s
  | .vcmpEqH d a b g => Sys2Proof.Machine.execVcmpEqH d a b g s
  | .vcmpNeH d a b g => Sys2Proof.Machine.execVcmpNeH d a b g s
  | .vcmpLtH d a b g => Sys2Proof.Machine.execVcmpLtH d a b g s
  | .vcmpLeH d a b g => Sys2Proof.Machine.execVcmpLeH d a b g s
  | .vcmpLtUH d a b g => Sys2Proof.Machine.execVcmpLtUH d a b g s
  | .vcmpLeUH d a b g => Sys2Proof.Machine.execVcmpLeUH d a b g s
  | .vselW d a b sc => Sys2Proof.Machine.execVselW d a b sc s
  | .vselH d a b sc => Sys2Proof.Machine.execVselH d a b sc s
  | .vcvtF16F32 d a h g => Sys2Proof.Machine.execVcvtF16F32 d a h g s
  | .vcvtBf16F32 d a h g => Sys2Proof.Machine.execVcvtBf16F32 d a h g s
  | .vcvtF32F16 d a h g => Sys2Proof.Machine.execVcvtF32F16 d a h g s
  | .vcvtF32Bf16 d a h g => Sys2Proof.Machine.execVcvtF32Bf16 d a h g s
  | .vcvtWF32 d a g => Sys2Proof.Machine.execVcvtWF32 d a g s
  | .vcvtF32W d a g => Sys2Proof.Machine.execVcvtF32W d a g s
  | .vcvtN d a b g q => Sys2Proof.Machine.execVcvtN d a b g q s
  | .vcvtNf d a b g q => Sys2Proof.Machine.execVcvtNf d a b g q s
  | .vmov d a g => Sys2Proof.Machine.execVmov d a g s
  | .vpermW d a b g => Sys2Proof.Machine.execVpermW d a b g s
  | .vpermH d a b g => Sys2Proof.Machine.execVpermH d a b g s
  | .vbcstW d a g => Sys2Proof.Machine.execVbcstW d a g s
  | .vbcstH d a g => Sys2Proof.Machine.execVbcstH d a g s
  | .vextW d a b => Sys2Proof.Machine.execVextW d a b s
  | .vextH d a b => Sys2Proof.Machine.execVextH d a b s
  | .vredSumF32 d a g => Sys2Proof.Machine.execVredSumF32 d a g s
  | .vredSumF16 d a g => Sys2Proof.Machine.execVredSumF16 d a g s
  | .vredSumBf16 d a g => Sys2Proof.Machine.execVredSumBf16 d a g s
  | .vredMaxF32 d a g => Sys2Proof.Machine.execVredMaxF32 d a g s
  | .vredMinF32 d a g => Sys2Proof.Machine.execVredMinF32 d a g s
  | .vredSumW d a g => Sys2Proof.Machine.execVredSumW d a g s
  | .pand d a b => Sys2Proof.Machine.execPand d a b s
  | .por d a b => Sys2Proof.Machine.execPor d a b s
  | .pxor d a b => Sys2Proof.Machine.execPxor d a b s
  | .pandn d a b => Sys2Proof.Machine.execPandn d a b s
  | .pwhileH d a => Sys2Proof.Machine.execPwhileH d a s
  | .pwhileW d a => Sys2Proof.Machine.execPwhileW d a s
  | .pmov d a => Sys2Proof.Machine.execPmov d a s
  | .pget d a => Sys2Proof.Machine.execPget d a s
  | .vld d a b g => Sys2Proof.Machine.execVld d a b g s
  | .vst d a b g => Sys2Proof.Machine.execVst d a b g s
  | .vldBcW d a b g => Sys2Proof.Machine.execVldBcW d a b g s
  | .vldBcH d a b g => Sys2Proof.Machine.execVldBcH d a b g s
  | .mmac a b t z => Sys2Proof.Machine.execMmac a b t z s
  | .mmacS d a b t z => Sys2Proof.Machine.execMmacS d a b t z s
  | .mmacSs d a b t z => Sys2Proof.Machine.execMmacSs d a b t z s
  | .mmacTri a b t z => Sys2Proof.Machine.execMmacTri a b t z s
  | .mgrp d a b t z => Sys2Proof.Machine.execMgrp d a b t z s
  | .zclr a z => Sys2Proof.Machine.execZclr a z s
  | .zanchor a z => Sys2Proof.Machine.execZanchor a z s
  | .zfit a z => Sys2Proof.Machine.execZfit a z s
  | .zread a b f z => Sys2Proof.Machine.execZread a b f z s
  | .zreadTri d a b f z => Sys2Proof.Machine.execZreadTri d a b f z s
  | .zraw a b z => Sys2Proof.Machine.execZraw a b z s
  | .dcut d a b t => Sys2Proof.Machine.execDcut d a b t s
  | .dcutP d a b t => Sys2Proof.Machine.execDcutP d a b t s
  | .dcutCo d a b t => Sys2Proof.Machine.execDcutCo d a b t s
  | .mtbr d a => Sys2Proof.Machine.execMtbr d a s
  | .mtbw d a => Sys2Proof.Machine.execMtbw d a s
  | .mcmd a c => Sys2Proof.Machine.execMcmd a c s
  | .sbind d a b n e r => Sys2Proof.Machine.execSbind d a b n e r s
  | .sfree d => Sys2Proof.Machine.execSfree d s
  | .sstat d a => Sys2Proof.Machine.execSstat d a s
  | .cpy d a b o => Sys2Proof.Machine.execCpy d a b o s
  | .cpyMc d a b o => Sys2Proof.Machine.execCpyMc d a b o s
  | .mbset d a b => Sys2Proof.Machine.execMbset d a b s
  | .msend d a o => Sys2Proof.Machine.execMsend d a o s
  | .mrecv d a b => Sys2Proof.Machine.execMrecv d a b s
  | .mcnt d a => Sys2Proof.Machine.execMcnt d a s
  | .mcntSet a b => Sys2Proof.Machine.execMcntSet a b s
  | .mwcnt a b => Sys2Proof.Machine.execMwcnt a b s
  | .wfm d => Sys2Proof.Machine.execWfm d s
  | .mpop d => Sys2Proof.Machine.execMpop d s
  | .feset a b => Sys2Proof.Machine.execFeset a b s
  | .feclr a b => Sys2Proof.Machine.execFeclr a b s
  | .pkload d a => Sys2Proof.Machine.execPkload d a s
  | .pkrun d a b k => Sys2Proof.Machine.execPkrun d a b k s
  | .pkstat d a => Sys2Proof.Machine.execPkstat d a s
  | .pkstop a => Sys2Proof.Machine.execPkstop a s
  | .fbopen d a => Sys2Proof.Machine.execFbopen d a s
  | .fbadv d a => Sys2Proof.Machine.execFbadv d a s
  | .fbend d a => Sys2Proof.Machine.execFbend d a s
  | .fbclose a => Sys2Proof.Machine.execFbclose a s
  | .fbdot d a b => Sys2Proof.Machine.execFbdot d a b s
  | .fdecl d a => Sys2Proof.Machine.execFdecl d a s
  | .fstart d a => Sys2Proof.Machine.execFstart d a s
  | .fstop a => Sys2Proof.Machine.execFstop a s
  | .fstep d a b => Sys2Proof.Machine.execFstep d a b s
  | .fctl d a b => Sys2Proof.Machine.execFctl d a b s
  | .fq d a => Sys2Proof.Machine.execFq d a s
  | .fpull d a b => Sys2Proof.Machine.execFpull d a b s
  | .fcoup d a b => Sys2Proof.Machine.execFcoup d a b s
  | .fwait d a b => Sys2Proof.Machine.execFwait d a b s
  | .powerOn => Sys2Proof.Machine.execPowerOn s
  | .timeCounterLock ref peers => Sys2Proof.Machine.execTimeCounterLock ref peers s
  | .sensorSample d sc temp => Sys2Proof.Machine.execSensorSample d sc temp s
  | .thermRead d sc => Sys2Proof.Machine.execThermRead d sc s
  | .powerStageCutoff => Sys2Proof.Machine.execPowerStageCutoff s
  | .kslotStage t off v => Sys2Proof.Machine.execKslotStage t off v s
  | .kslotCommit t v => Sys2Proof.Machine.execKslotCommit t v s
  | .mextStage off v => Sys2Proof.Machine.execMextStage off v s
  | .mextExtend v => Sys2Proof.Machine.execMextExtend v s
  | .measLatch n => Sys2Proof.Machine.execMeasLatch n s
  | .rtabWrite n v => Sys2Proof.Machine.execRtabWrite n v s
  | .ddeadClear n v => Sys2Proof.Machine.execDdeadClear n v s
  | .ldeadClear n v => Sys2Proof.Machine.execLdeadClear n v s
  | .configWrite addr v => Sys2Proof.Machine.execConfigWrite addr v s
  | .linkFlitReplay port => Sys2Proof.Machine.execLinkFlitReplay port s
  | .heartbeat port heard => Sys2Proof.Machine.execHeartbeat port heard s
  | .linkDead port => Sys2Proof.Machine.execLinkDead port s
  | .deviceDead n => Sys2Proof.Machine.execDeviceDead n s
  | .deadPeerSynthesis k => Sys2Proof.Machine.execDeadPeerSynthesis k s
  | .qosFrame => Sys2Proof.Machine.execQosFrame s
  | .storeQueueLeave h slot => Sys2Proof.Machine.execStoreQueueLeave h slot s
  | .writeApplied k => Sys2Proof.Machine.execWriteApplied k s
  | .recallComplete k => Sys2Proof.Machine.execRecallComplete k s
  | .loadReturn h slot => Sys2Proof.Machine.execLoadReturn h slot s
  | .atomicPerformed k => Sys2Proof.Machine.execAtomicPerformed k s
  | .completionProbeAnswer h slot agent => Sys2Proof.Machine.execCompletionProbeAnswer h slot agent s
  | .asyncTrapEntry => Sys2Proof.Machine.execAsyncTrapEntry s
  | .contextEnd h slot => Sys2Proof.Machine.execContextEnd h slot s
  | .stopCycleReached t => Sys2Proof.Machine.execStopCycleReached t s
  | .feltToken t => Sys2Proof.Machine.execFeltToken t s
  | .stopComplete t => Sys2Proof.Machine.execStopComplete t s
  | .tresumeWrite t v => Sys2Proof.Machine.execTresumeWrite t v s
  | .resumeStart t => Sys2Proof.Machine.execResumeStart t s
  | .dhaltHalt h => Sys2Proof.Machine.execDhaltHalt h s
  | .dhaltRelease h => Sys2Proof.Machine.execDhaltRelease h s
  | .scoreboardWrite h off v => Sys2Proof.Machine.execScoreboardWrite h off v s
  | .dcmdWrite h => Sys2Proof.Machine.execDcmdWrite h s
  | .dcmdRead h => Sys2Proof.Machine.execDcmdRead h s
  | .ctxctlResume h slot => Sys2Proof.Machine.execCtxctlResume h slot s
  | .ctxctlDismiss h slot => Sys2Proof.Machine.execCtxctlDismiss h slot s
  | .locationSavedToCold id => Sys2Proof.Machine.execLocationSavedToCold id s
  | .locationColdToSaved id => Sys2Proof.Machine.execLocationColdToSaved id s
  | .tpartWrite t v => Sys2Proof.Machine.execTpartWrite t v s
  | .tinvWrite t v => Sys2Proof.Machine.execTinvWrite t v s
  | .tlbWalk h t va => Sys2Proof.Machine.execTlbWalk h t va s
  | .fabArrivalResolve k => Sys2Proof.Machine.execFabArrivalResolve k s
  | .arrivalApply k => Sys2Proof.Machine.execArrivalApply k s
  | .arrivalCreditReturn k => Sys2Proof.Machine.execArrivalCreditReturn k s
  | .mailboxEntry h slot => Sys2Proof.Machine.execMailboxEntry h slot s
  | .engineAnswer h slot => Sys2Proof.Machine.execEngineAnswer h slot s
  | .matrixCommandTake h => Sys2Proof.Machine.execMatrixCommandTake h s
  | .operandRead h granule => Sys2Proof.Machine.execOperandRead h granule s
  | .matrixCommandRetire h => Sys2Proof.Machine.execMatrixCommandRetire h s
  | .remoteCommandArrival k => Sys2Proof.Machine.execRemoteCommandArrival k s
  | .streamReadAhead h slot g => Sys2Proof.Machine.execStreamReadAhead h slot g s
  | .streamElementWrite h slot g => Sys2Proof.Machine.execStreamElementWrite h slot g s
  | .cpyLine h k => Sys2Proof.Machine.execCpyLine h k s
  | .multicastRequest h k => Sys2Proof.Machine.execMulticastRequest h k s
  | .multicastEntryTimeout k => Sys2Proof.Machine.execMulticastEntryTimeout k s
  | .messageArrival k => Sys2Proof.Machine.execMessageArrival k s
  | .messageCounterIncrement h => Sys2Proof.Machine.execMessageCounterIncrement h s
  | .sendAllowanceReturn k => Sys2Proof.Machine.execSendAllowanceReturn k s
  | .indexReadAhead h n => Sys2Proof.Machine.execIndexReadAhead h n s
  | .kernelRun h n => Sys2Proof.Machine.execKernelRun h n s
  | .kldReturn h n => Sys2Proof.Machine.execKldReturn h n s
  | .gatherStep h n => Sys2Proof.Machine.execGatherStep h n s
  | .scatterStep h n => Sys2Proof.Machine.execScatterStep h n s
  | .pkloadImageRead h n => Sys2Proof.Machine.execPkloadImageRead h n s
  | .fibreReadAhead h slot n => Sys2Proof.Machine.execFibreReadAhead h slot n s
  | .siteUpdate f site => Sys2Proof.Machine.execSiteUpdate f site s
  | .phaseReport f vat => Sys2Proof.Machine.execPhaseReport f vat s
  | .boundaryPublish f => Sys2Proof.Machine.execBoundaryPublish f s
  | .boundaryReceive f vat => Sys2Proof.Machine.execBoundaryReceive f vat s
  | .pullBackgroundCopy f k line => Sys2Proof.Machine.execPullBackgroundCopy f k line s
  | .pullComplete f k => Sys2Proof.Machine.execPullComplete f k s
  | .pageTakeHeld frame dev write => Sys2Proof.Machine.execPageTakeHeld frame dev write s
  | .pageGiveUp frame dev => Sys2Proof.Machine.execPageGiveUp frame dev s
  | .migrationReplay frame => Sys2Proof.Machine.execMigrationReplay frame s
  | .gangPlacement t => Sys2Proof.Machine.execGangPlacement t s
  | .gangEnd k => Sys2Proof.Machine.execGangEnd k s
  | .continuationPop h slot => Sys2Proof.Machine.execContinuationPop h slot s
  | .yieldSignal t => Sys2Proof.Machine.execYieldSignal t s
  | .barrierArrival h slot => Sys2Proof.Machine.execBarrierArrival h slot s
  | .mwaitTimeout h slot => Sys2Proof.Machine.execMwaitTimeout h slot s
  | .leaseDue x => Sys2Proof.Machine.execLeaseDue x s
  | .leaseTake q => Sys2Proof.Machine.execLeaseTake q s
  | .testSessionEnd q miscompare => Sys2Proof.Machine.execTestSessionEnd q miscompare s
  | .fadeEvent x kind => Sys2Proof.Machine.execFadeEvent x kind s
  | .scoreHalving => Sys2Proof.Machine.execScoreHalving s
  | .channelRetirementRetry x => Sys2Proof.Machine.execChannelRetirementRetry x s
  | .powerLoss => Sys2Proof.Machine.execPowerLoss s

end Sys2Proof.Machine
end

