-- ==== Sys2Proof/Machine/Schedule.lean ====
section
/-! DEFINITION. Which agent moves next (log 2), the steps of the network that no row of the table names, and the placing of one instruction where the next step fetches. -/

namespace Sys2Proof.Machine

/-- A packet that has to pass one of some points first keeps p back: one before it to the same agent, or to the same bank or line (R12, R24, R350). -/
def State.heldBack (s : State) (p : Packet) (points : List Stage) : Bool :=
  s.net.any fun q => q.before p && points.contains q.stage &&
    (decide (q.dest = p.dest) || match p.op.range with | some (pa, swz, n) => q.bars p.dest pa swz n | none => false)

/-- Moves a packet to its next ordering point (R23, R24): from the port to the cluster ring stop, and from there to the egress of another device or into the queue of its bank
or slice, whose write-completion counter counts it (R352). -/
def State.hop (s : State) (k : Nat) : State :=
  match s.net[k]? with
  | none => s
  | some p =>
    match p.stage with
    | .port =>
      if s.heldBack p [.port] then s
      else { s with net := listSet s.net k { p with stage := .ring, ringAt := s.packetN }, packetN := s.packetN + 1 }
    | .ring =>
      if s.heldBack p [.port, .ring] then s
      else match p.dest with
        | .remote _ => { s with net := listSet s.net k { p with stage := .egress, egrAt := s.packetN }, packetN := s.packetN + 1 }
        | _ =>
          if !s.counts p then s
          else
            let t := { s with net := listSet s.net k { p with stage := .agent, egrAt := s.packetN }, packetN := s.packetN + 1 }
            match p.counter with
            | some c => { t with wcc := Tab.set 0 t.wcc c (Tab.get 0 t.wcc c + 1) }
            | none => t
    | .egress | .agent => s

/-- The first line that the fetch hint of a block names: PFH is a signed count of 64-byte lines from the header's own (R48, R54). -/
def Ctx.hintLine (c : Ctx) : Word := BitVec.ofNat 64 (c.hdr.toNat / 64 * 64) + 64#64 * (BitVec.ofNat 8 c.pfh).signExtend 64

/-- Core h acts on the fetch hint of the block that the context which holds issue is in: a hint to two lines, dropped and counted once where one of them is unmapped or
protected (R46, R54, log 94). It may leave it alone. -/
def State.codeHint (s : State) (h : Nat) : State :=
  let slot := (s.coreOf h).ring.val
  let c := s.ctx h slot
  if c.pfh = 0 ∨ !c.live then s
  else
    let ok (x : Word) : Bool := hintOk s h c.tenant c.fcap x permX
    let d := { c with pfh := 0 }
    s.setCtx h slot (if ok c.hintLine && ok (c.hintLine + 64) then d else d.dropHint)

/-- The steps that an empty agenda chooses from: what the store queues, the network and the posts hold, then the cores. -/
noncomputable def State.candidates (s : State) : List Turn :=
  let keys := ctxKey s.cur s.slot :: s.ctxs.map (·.1)
  let sqs := (keys.filter fun k => !(s.ctx (k / 16) (k % 16)).sq.isEmpty).map fun k => Turn.dev (.storeQueueLeave (k / 16) (k % 16))
  let probes := (keys.map fun k => (s.ctx (k / 16) (k % 16)).aset.map fun _ => Turn.dev (.completionProbeAnswer (k / 16) (k % 16) 0)).flatten
  let nets := ((List.range s.net.length).map fun k => [Turn.hop k, Turn.dev (.writeApplied k), Turn.dev (.atomicPerformed k)]).flatten
  let loads := (keys.filter fun k => match (s.ctx (k / 16) (k % 16)).pend with | some l => decide (l.left = 0) | none => false).map fun k => Turn.dev (.loadReturn (k / 16) (k % 16))
  let answers := s.requests.map fun r => Turn.dev (.engineAnswer r.2.h r.2.slot)
  let mails := (keys.filter fun k => !s.posts.isEmpty && (s.ctx (k / 16) (k % 16)).live).map fun k => Turn.dev (.mailboxEntry (k / 16) (k % 16))
  let walks := s.walks.map fun (die, t, page) => Turn.dev (.tlbWalk (512 * die) t (page * 65536))
  let arr := (List.range s.arrivals.length).map fun k => Turn.dev (.fabArrivalResolve k)
  let arr2 := (List.range s.arrivals.length).map fun k => Turn.dev (.arrivalApply k)
  let ends := (keys.filter fun k => (s.ctx (k / 16) (k % 16)).run = .parked .ending).map fun k => Turn.dev (.contextEnd (k / 16) (k % 16))
  let msgs := (List.range s.msgs.length).map fun k => Turn.dev (.messageArrival k)
  let own := (List.range s.owned.length).map fun k => Turn.dev (.recallComplete k)
  let rems := (List.range s.remotes.length).map fun k => Turn.dev (.remoteCommandArrival k)
  let cores := s.cur :: s.cores.map (·.1)
  let mats := (cores.map fun h => [Turn.dev (.matrixCommandTake h), .dev (.matrixCommandRetire h), .dev (.messageCounterIncrement h)]).flatten
  let cpys := (cores.map fun h => (List.range (s.coreOf h).tq.length).map fun k => Turn.dev (.cpyLine h k)).flatten
  let kers := (cores.map fun h => ((List.range 4).map fun n =>
    [Turn.dev (.pkloadImageRead h n), .dev (.indexReadAhead h n), .dev (.kernelRun h n), .dev (.kldReturn h n), .dev (.gatherStep h n), .dev (.scatterStep h n)]).flatten).flatten
  let strs := (keys.map fun k => ((List.range 8).map fun g =>
    [Turn.dev (.streamReadAhead (k / 16) (k % 16) g), .dev (.streamElementWrite (k / 16) (k % 16) g), .dev (.fibreReadAhead (k / 16) (k % 16) g)]).flatten).flatten
  let gangs := ((List.range 64).map fun t =>
    [Turn.dev (.gangPlacement t), .dev (.yieldSignal t), .dev (.stopCycleReached t), .dev (.feltToken t), .dev (.stopComplete t), .dev (.resumeStart t)]).flatten
  let ctxs := (keys.map fun k => let (h, i) := (k / 16, k % 16); [Turn.dev (.barrierArrival h i), .dev (.mwaitTimeout h i), .dev (.continuationPop h i)]).flatten
  let dues := (List.range s.creditsDue.length).map (fun k => Turn.dev (.arrivalCreditReturn k)) ++ (List.range s.allowDue.length).map fun k => Turn.dev (.sendAllowanceReturn k)
  let mcs := (cores.map fun h => (List.range (s.coreOf h).tq.length).map fun k => Turn.dev (.multicastRequest h k)).flatten
    ++ (List.range s.mcast.length).map fun k => Turn.dev (.multicastEntryTimeout k)
  let slices := (List.range s.requests.length).map Turn.slice ++ s.blocked.map fun b => Turn.dev (.migrationReplay b.frame)
  let vats := (s.fields.map fun f =>
    let sites := (List.range f.d.ns).filter fun i => !f.sites.contains i && s.phaseOf f i = f.phase
    sites.map (fun i => Turn.dev (.siteUpdate f.num i)) ++ [Turn.dev (.boundaryPublish f.num)]
      ++ (List.range 256).map (fun v => Turn.dev (.phaseReport f.num v)) ++ (List.range 256).map (fun v => Turn.dev (.boundaryReceive f.num v))
      ++ ((List.range f.pulls.length).map fun k => Turn.dev (.pullComplete f.num k) :: (match f.pulls[k]? with
        | some q => (List.range q.count).map fun l => Turn.dev (.pullBackgroundCopy f.num k (q.first + l))
        | none => [])).flatten).flatten
  let gends := (List.range s.gangs.length).map fun k => Turn.dev (.gangEnd k)
  let moves := (s.locs.filter fun l => l.2.state = .moving).map fun l => Turn.moved l.1
  let issues := cores.map Turn.issue
  sqs ++ probes ++ nets ++ loads ++ answers ++ mails ++ walks ++ arr ++ arr2 ++ ends ++ msgs ++ own ++ rems ++ mats ++ cpys ++ kers ++ strs ++ gangs ++ gends
    ++ ctxs ++ dues ++ mcs ++ slices ++ vats ++ moves ++ [.dev .scoreHalving, .dev .qosFrame] ++ issues

/-- The next turn and the state without it: the head of the agenda; with an empty agenda, the candidates in rotation, a cycle each. -/
noncomputable def State.nextTurn (s : State) : Turn × State :=
  match s.agenda with
  | t :: rest => (t, { s with agenda := rest })
  | [] =>
    let c := s.candidates
    (c.getD (s.time % c.length) (.tick 1), { s with time := s.time + 1 })

/-- The core and slot that a step of the device is for, where it is for one. -/
def eventPlace : Instr → Option (Nat × Nat)
  | .storeQueueLeave h k | .loadReturn h k | .completionProbeAnswer h k _ | .contextEnd h k | .ctxctlResume h k | .ctxctlDismiss h k | .mailboxEntry h k
  | .engineAnswer h k | .streamReadAhead h k _ | .streamElementWrite h k _ | .fibreReadAhead h k _ | .continuationPop h k | .barrierArrival h k
  | .mwaitTimeout h k => some (h, k)
  | .dhaltHalt h | .dhaltRelease h | .scoreboardWrite h _ _ | .dcmdWrite h | .dcmdRead h | .tlbWalk h _ _ | .matrixCommandTake h | .operandRead h _
  | .matrixCommandRetire h | .cpyLine h _ | .multicastRequest h _ | .messageCounterIncrement h | .indexReadAhead h _ | .kernelRun h _ | .kldReturn h _
  | .gatherStep h _ | .scatterStep h _ | .pkloadImageRead h _ => some (h, 0)
  | _ => none

/-- A step of the device names a core and a slot that exist: saved contexts stand beyond them (log 40). -/
def eventExists (e : Instr) : Bool :=
  match eventPlace e with
  | some (h, k) => decide (h < 2048 ∧ k < 11)
  | none => true

/-- A step that the resident system makes on the service cores: a privileged read or write of the device's registers, or a command of a debugger. -/
def byResident : Instr → Bool
  | .thermRead .. | .kslotStage .. | .kslotCommit .. | .mextStage .. | .mextExtend _ | .measLatch _ | .rtabWrite .. | .ddeadClear .. | .ldeadClear .. | .configWrite ..
  | .tresumeWrite .. | .dhaltHalt _ | .dhaltRelease _ | .scoreboardWrite .. | .dcmdWrite _ | .dcmdRead _ | .ctxctlResume .. | .ctxctlDismiss ..
  | .locationSavedToCold _ | .locationColdToSaved _ | .tpartWrite .. | .tinvWrite .. => true
  | _ => false

/-- A step of the device may be made now: its core and slot exist, and the resident system runs where it makes the step (R412, R413). -/
def State.mayAct (s : State) (e : Instr) : Bool := !e.isWord && eventExists e && (!byResident e || s.residentRuns)

/-- Time passes. -/
def State.tick (s : State) (n : Nat) : State := { s with time := s.time + n }

/-! ### Placing an instruction (for the fetch of the next step) -/

/-- A code capability over the first 64 GiB of virtual addresses: X, exponent 20. -/
def placedCap : Wreg := ⟨BitVec.ofNat 128 (2 ^ 66 + 20 * 2 ^ 84 + 65536 * 2 ^ 109), true⟩

/-- Where the placed block's header stands. -/
def placedHdr : Nat := 0x10000

/-- Stores the header of a block of two words and its words in the page that the header's address maps to, and makes core 0's control context hold
issue at the first word, with the translation in the core's TLB and an empty activity window. -/
def State.place (s : State) (w : Nat) : State :=
  let s := s.focus 0 0
  let base := s.dev * 2 ^ 43
  let blk := (0x02 + 0x7F * 2 ^ 57) + (w % 2 ^ 64) * 2 ^ 64
  let m := (List.range 16).foldl (fun m i => m.setByte (base + placedHdr + i) (BitVec.ofNat 8 (blk / 2 ^ (8 * i)))) s.mem
  let e : TlbEntry := ⟨s.cpu.tenant, 0, 30, base, true, true, true, 0, 0⟩
  { s with
    mem := m
    agenda := [.issue 0]
    core := { s.core with tlb := e :: s.core.tlb, ring := 0, act := [], lastIssue := none, dhalt := false }
    cpu := { s.cpu with
      run := .issuing, code := placedCap, fcap := placedCap, hdr := BitVec.ofNat 64 placedHdr, pc := BitVec.ofNat 64 (placedHdr + 8)
      len := 2, entry := .inside, walk := none, walkFault := none } }

end Sys2Proof.Machine
end

