-- ==== Sys2Proof/Machine/Step.lean ====
section
/-! DEFINITION. One step of the device: the agent whose turn it is moves. -/

namespace Sys2Proof.Machine

/-- One step: an issue of a core runs the instruction that `prepare` finds, a step of the device runs its meaning, an asynchronous trap taking the core's issue of
the cycle (R239), and the network, the slices or time move otherwise. A step of the resident system waits until it runs (R412, R413). Without power nothing moves until POWER_ON
(R417): a run with no turn left to wait for it stops. -/
noncomputable def step (s : State) : Host.Outcome State Fault Refusal :=
  match s.nextTurn with
  | (.dev .powerOn, t) => exec .powerOn t
  | (turn, t) =>
    if t.mdl.power then
      match turn with
      | .issue h =>
        if h ≥ 2048 then .next t
        else match prepare h t with
        | .run i cls u =>
          match exec i u with
          | .next v => .next (settle cls v)
          | .fault r => .fault r
          | .refused r => .refused r
        | .done u => .next u
      | .dev .asyncTrapEntry => exec .asyncTrapEntry (if t.asyncReady then t.newCycle t.slot else t)
      | .dev e => if t.mayAct e then exec e t else .next t
      | .hop k => .next (t.hop k)
      | .tick n => .next (t.tick n)
      | .evictCopy rank line => .next (if t.lineOpen 0 (line * 128) then t.evictCopy rank line else t)
      | .codeHint h => .next (if h < 2048 then t.codeHint h else t)
      | .moved id => .next ((t.moved (BitVec.ofNat 20 id)).getD t)
      | .slice k => .next ((t.sliceStep k).getD t)
      | .peerLease port => .next ((t.peerLease port).getD t)
      | .replayed port => .next ((t.replayed port).getD t)
      | .peerLocks dev => .next ((t.peerLocks dev).getD t)
      | .attest nonce => .next (t.attest nonce)
      | .fibreRead h slot n => .next ((t.debugFibre h slot n).getD t)
      | .fibreWrite h slot n capI capV x => .next ((t.debugFibreWrite h slot n capI capV x).getD t)
    else if s.agenda.isEmpty then .fault .powerOff
    else .next t

/-- The state with an instruction placed where the next step fetches (log 7). -/
def State.withFetchWord (s : State) (nbits w : Nat) : State := s.place (w % 2 ^ nbits)

end Sys2Proof.Machine
end

