-- ==== Sys2Proof/Safety.lean ====
section
/-! DEFINITION. What statements call a sound state: the memory keeps its canonical form, and the mode bits and fields of every status register stand in their ranges. -/

namespace Sys2Proof.Machine

/-- A status register whose reserved bits are zero and whose LDEPTH is at most 4 (R99). -/
def stOk (st : Word) : Bool := decide (st &&& ~~~stDefined = 0) && decide (bits st 32 3 ≤ 4)

/-- The memory of a state is in its canonical form. -/
def State.memOk (s : State) : Bool := s.mem.wf

end Sys2Proof.Machine
end

