-- ==== Sys2Proof/Certificates/Slice0/Obligations.lean ====
section
/-! DEFINITION. The statements for the provers, from the numbered rules of the specification. Where one speaks of several rules together, its parts stand first, under the names of what they state. A field or a free value that is the model's own is said to be so, with its log entry. -/

open Sys2Proof Sys2Proof.Machine

/-- The two-operand integer operations complete for every register form (R118): readable operands and a writable destination give the next state that holds the
result; a destination w0 discards it, and a bound destination appends it. -/
def Claims.IntegerRegisterResults : Prop :=
  ∀ (d a b : Fin 64) (s : State) (x y : Wreg), useW s d 1 = .ok () → readW s a 2 = .ok x → readW s b 3 = .ok y →
    let gives := fun v : Word => Host.Outcome.next (ρ := Refusal) (φ := Fault) (s.finishW 1 [a.val, b.val] d (.plain v))
    exec (.add d a b) s = gives (x.lo + y.lo) ∧
    exec (.sub d a b) s = gives (x.lo - y.lo) ∧
    exec (.mul d a b) s = gives (x.lo * y.lo) ∧
    exec (.mulh d a b) s = gives ((x.lo.signExtend 128 * y.lo.signExtend 128).extractLsb' 64 64) ∧
    exec (.mulhU d a b) s = gives ((x.lo.setWidth 128 * y.lo.setWidth 128).extractLsb' 64 64) ∧
    exec (.and d a b) s = gives (x.lo &&& y.lo) ∧
    exec (.or d a b) s = gives (x.lo ||| y.lo) ∧
    exec (.xor d a b) s = gives (x.lo ^^^ y.lo) ∧
    exec (.shl d a b) s = gives (x.lo <<< y.lo.toNat) ∧
    exec (.shr d a b) s = gives (x.lo >>> y.lo.toNat) ∧
    exec (.sra d a b) s = gives (x.lo.sshiftRight y.lo.toNat) ∧
    exec (.min d a b) s = gives (if x.lo.slt y.lo then x.lo else y.lo) ∧
    exec (.minU d a b) s = gives (if x.lo.ult y.lo then x.lo else y.lo) ∧
    exec (.max d a b) s = gives (if x.lo.slt y.lo then y.lo else x.lo) ∧
    exec (.maxU d a b) s = gives (if x.lo.ult y.lo then y.lo else x.lo) ∧
    (∀ z, readW s d 1 = .ok z → exec (.sel d a b) s =
      .next (s.finishW 1 [d.val, a.val, b.val] d (.plain (if z.lo.getLsbD 0 then x.lo else y.lo))))

/-- Division by zero gives all ones or the dividend, sets DZ and never traps; every other division rounds toward zero and changes no flag (R76, R118). -/
def Claims.DivisionResults : Prop :=
  ∀ (d a b : Fin 64) (s : State) (x y : Wreg), useW s d 1 = .ok () → readW s a 2 = .ok x → readW s b 3 = .ok y →
    let t := if y.lo = 0 then { s with cpu := { s.cpu with st := s.cpu.st ||| (1#64 <<< 41) } } else s
    let gives := fun v : Word => Host.Outcome.next (ρ := Refusal) (φ := Fault) (t.finishW 1 [a.val, b.val] d (.plain v))
    exec (.div d a b) s = gives (if y.lo = 0 then BitVec.allOnes 64 else x.lo.sdiv y.lo) ∧
    exec (.divU d a b) s = gives (if y.lo = 0 then BitVec.allOnes 64 else x.lo.udiv y.lo) ∧
    exec (.rem d a b) s = gives (if y.lo = 0 then x.lo else x.lo.srem y.lo) ∧
    exec (.remU d a b) s = gives (if y.lo = 0 then x.lo else x.lo.umod y.lo)

/-- Two-operand integer instructions write their results; division by zero never traps and sets DZ. -/
def Obligations.IntegerResults : Prop := Claims.IntegerRegisterResults ∧ Claims.DivisionResults

/-- The K forms of the two-operand integer operations: the constant takes the place of the b operand, and the two words complete as one instruction (R58, R118). -/
def Claims.IntegerConstantResults : Prop :=
  ∀ (d a : Fin 64) (k : KRef) (s u : State) (x : Wreg) (c : Word), useW s d 1 = .ok () → readW s a 2 = .ok x → konst s k = .ok (c, u) →
    let t := if c = 0 then { u with cpu := { u.cpu with st := u.cpu.st ||| (1#64 <<< 41) } } else u
    let gives := fun v : Word => Host.Outcome.next (ρ := Refusal) (φ := Fault) (u.finishW 2 [a.val] d (.plain v))
    let givesDiv := fun v : Word => Host.Outcome.next (ρ := Refusal) (φ := Fault) (t.finishW 2 [a.val] d (.plain v))
    exec (.addK d a k) s = gives (x.lo + c) ∧
    exec (.subK d a k) s = gives (x.lo - c) ∧
    exec (.mulK d a k) s = gives (x.lo * c) ∧
    exec (.mulhK d a k) s = gives ((x.lo.signExtend 128 * c.signExtend 128).extractLsb' 64 64) ∧
    exec (.mulhUK d a k) s = gives ((x.lo.setWidth 128 * c.setWidth 128).extractLsb' 64 64) ∧
    exec (.andK d a k) s = gives (x.lo &&& c) ∧
    exec (.orK d a k) s = gives (x.lo ||| c) ∧
    exec (.xorK d a k) s = gives (x.lo ^^^ c) ∧
    exec (.shlK d a k) s = gives (x.lo <<< c.toNat) ∧
    exec (.shrK d a k) s = gives (x.lo >>> c.toNat) ∧
    exec (.sraK d a k) s = gives (x.lo.sshiftRight c.toNat) ∧
    exec (.minK d a k) s = gives (if x.lo.slt c then x.lo else c) ∧
    exec (.minUK d a k) s = gives (if x.lo.ult c then x.lo else c) ∧
    exec (.maxK d a k) s = gives (if x.lo.slt c then c else x.lo) ∧
    exec (.maxUK d a k) s = gives (if x.lo.ult c then c else x.lo) ∧
    exec (.divK d a k) s = givesDiv (if c = 0 then BitVec.allOnes 64 else x.lo.sdiv c) ∧
    exec (.divUK d a k) s = givesDiv (if c = 0 then BitVec.allOnes 64 else x.lo.udiv c) ∧
    exec (.remK d a k) s = givesDiv (if c = 0 then x.lo else x.lo.srem c) ∧
    exec (.remUK d a k) s = givesDiv (if c = 0 then x.lo else x.lo.umod c) ∧
    (∀ z, readW s d 1 = .ok z → exec (.selK d a k) s = .next (u.finishW 2 [d.val, a.val] d (.plain (if z.lo.getLsbD 0 then x.lo else c))))

/-- The operations on one register, and those with an immediate: logic and addition sign-extend it, `lhi` moves 13 bits in, and shifts take it as a count (R118, R120). -/
def Claims.IntegerImmediateResults : Prop :=
  ∀ (d a : Fin 64) (i : BitVec 13) (s : State) (x : Wreg), useW s d 1 = .ok () → readW s a 2 = .ok x →
    let gives := fun v : Word => Host.Outcome.next (ρ := Refusal) (φ := Fault) (s.finishW 1 [a.val] d (.plain v))
    exec (.addi d a i) s = gives (x.lo + i.signExtend 64) ∧
    exec (.andi d a i) s = gives (x.lo &&& i.signExtend 64) ∧
    exec (.ori d a i) s = gives (x.lo ||| i.signExtend 64) ∧
    exec (.xori d a i) s = gives (x.lo ^^^ i.signExtend 64) ∧
    exec (.shli d a i) s = gives (x.lo <<< i.toNat) ∧
    exec (.shri d a i) s = gives (x.lo >>> i.toNat) ∧
    exec (.srai d a i) s = gives (x.lo.sshiftRight i.toNat) ∧
    exec (.lhi d a i) s = gives (x.lo.extractLsb' 0 51 ++ i) ∧
    (∃ n, exec (.clz d a) s = gives (BitVec.ofNat 64 n) ∧ n ≤ 64 ∧ (∀ j, j < n → x.lo.getLsbD (63 - j) = false) ∧ (n < 64 → x.lo.getLsbD (63 - n) = true)) ∧
    exec (.popc d a) s = gives (BitVec.ofNat 64 (((List.range 64).map fun j => (x.lo.getLsbD j).toNat).sum))

/-- The compares write 1 where the condition holds and 0 where it does not, signed or unsigned, against a register or a constant (R119). -/
def Claims.CompareResults : Prop :=
  ∀ (d a : Fin 64) (s : State) (x : Wreg), useW s d 1 = .ok () → readW s a 2 = .ok x →
    (∀ (b : Fin 64) (y : Wreg), readW s b 3 = .ok y →
      let gives := fun v : Bool => Host.Outcome.next (ρ := Refusal) (φ := Fault) (s.finishW 1 [a.val, b.val] d (.plain (if v then 1 else 0)))
      exec (.cmpEq d a b) s = gives (x.lo == y.lo) ∧
      exec (.cmpNe d a b) s = gives (x.lo != y.lo) ∧
      exec (.cmpLt d a b) s = gives (x.lo.slt y.lo) ∧
      exec (.cmpGe d a b) s = gives (!x.lo.slt y.lo) ∧
      exec (.cmpLtU d a b) s = gives (x.lo.ult y.lo) ∧
      exec (.cmpGeU d a b) s = gives (!x.lo.ult y.lo)) ∧
    (∀ (k : KRef) (c : Word) (u : State), konst s k = .ok (c, u) →
      let gives := fun v : Bool => Host.Outcome.next (ρ := Refusal) (φ := Fault) (u.finishW 2 [a.val] d (.plain (if v then 1 else 0)))
      exec (.cmpEqK d a k) s = gives (x.lo == c) ∧
      exec (.cmpNeK d a k) s = gives (x.lo != c) ∧
      exec (.cmpLtK d a k) s = gives (x.lo.slt c) ∧
      exec (.cmpGeK d a k) s = gives (!x.lo.slt c) ∧
      exec (.cmpLtUK d a k) s = gives (x.lo.ult c) ∧
      exec (.cmpGeUK d a k) s = gives (!x.lo.ult c))

/-- K forms, immediate forms, counts and comparisons write their results. -/
def Obligations.IntegerConstants : Prop := Claims.IntegerConstantResults ∧ Claims.IntegerImmediateResults ∧ Claims.CompareResults

/-- `cbnd`, `cbnd.x` and `cprm` complete on a usable capability with D: the first two where bounds of the wanted length can be derived, rounded outward or exact;
`cprm` keeps only the permissions of the mask (R121, R122). -/
def Claims.CapabilityNarrowing : Prop :=
  ∀ (d a b : Fin 64) (s : State) (c y : Wreg), useW s d 1 = .ok () → readW s a 2 = .ok c → readW s b 3 = .ok y →
    c.tag = true → capMalformed c = false → capKind c ≠ 3 → capHas c permD = true →
    (∀ r, capKind c = 0 ∨ capKind c = 4 → deriveBounds false c y.lo.toNat = .ok r → mayAppend s d r = .ok () →
      exec (.cbnd d a b) s = .next (s.finishW 1 [a.val, b.val] d r)) ∧
    (∀ r, capKind c = 0 ∨ capKind c = 4 → deriveBounds true c y.lo.toNat = .ok r → mayAppend s d r = .ok () →
      exec (.cbndX d a b) s = .next (s.finishW 1 [a.val, b.val] d r)) ∧
    (∀ r : Wreg, r.tag = true → (∀ j, j < 128 → r.bits.getLsbD j = (c.bits.getLsbD j && (decide (j < 64 ∨ 77 ≤ j) || y.lo.getLsbD (j - 64)))) →
      mayAppend s d r = .ok () → exec (.cprm d a b) s = .next (s.finishW 1 [a.val, b.val] d r))

/-- Derived bounds never widen: they lie within those of the capability, hold the range asked for, equal it for `cbnd.x`, and permissions, kind and address stay (R121). -/
def Claims.DerivedBoundsNarrow : Prop :=
  ∀ (exact : Bool) (c r : Wreg) (l : Nat), c.tag = true → (capKind c = 0 ∨ capKind c = 4) → deriveBounds exact c l = .ok r →
    ∃ b0 t0 b1 t1, capBounds c = some (b0, t0) ∧ capBounds r = some (b1, t1) ∧ b0 ≤ b1 ∧ t1 ≤ t0 ∧
      b1 ≤ (capAddr c).toNat ∧ (capAddr c).toNat + l ≤ t1 ∧ (exact = true → b1 = (capAddr c).toNat ∧ t1 = (capAddr c).toNat + l) ∧
      r.tag = true ∧ capAddr r = capAddr c ∧ capPerm r = capPerm c ∧ capKind r = capKind c

/-- A derived capability never reaches beyond the capability that it is derived from. -/
def Obligations.CapabilityBounds : Prop := Claims.CapabilityNarrowing ∧ Claims.DerivedBoundsNarrow

/-- Sealing, unsealing, moving the address and the queries complete: `csea` of a usable value; `cuns` in a privileged context; `cadr` and `cadr.inc`
wherever the address may be set, and the plain copy of any value; `clen`, `cbas` and `ctst` on every operand (R122-R124). -/
def Claims.CapabilityMoves : Prop :=
  ∀ (d a b : Fin 64) (i : BitVec 13) (s : State) (c y : Wreg), useW s d 1 = .ok () → readW s a 2 = .ok c → readW s b 3 = .ok y →
    (c.tag = true → capMalformed c = false → capKind c ≠ 3 → ∀ r : Wreg, r.tag = true → capKind r = 3 → capOkind r = capKind c →
      (∀ j, j < 128 → j < 77 ∨ 84 ≤ j → r.bits.getLsbD j = c.bits.getLsbD j) → mayAppend s d r = .ok () →
      exec (.csea d a) s = .next (s.finishW 1 [a.val] d r)) ∧
    (s.cpu.prv = true → c.tag = true → capMalformed c = false → mayAppend s d (if capKind c = 3 then unsealed c else c) = .ok () →
      exec (.cuns d a) s = .next (s.finishW 1 [a.val] d (if capKind c = 3 then unsealed c else c))) ∧
    (addrOk c = .ok () → mayAppend s d (withAddr c y.lo) = .ok () → exec (.cadr d a b) s = .next (s.finishW 1 [a.val, b.val] d (withAddr c y.lo))) ∧
    (i ≠ 0 → addrOk c = .ok () → mayAppend s d (withAddr c (c.lo + i.signExtend 64)) = .ok () →
      exec (.cadrInc d a i) s = .next (s.finishW 1 [a.val] d (withAddr c (c.lo + i.signExtend 64)))) ∧
    (mayAppend s d c = .ok () → exec (.cadrInc d a 0) s = .next (s.finishW 1 [a.val] d c)) ∧
    (∃ n : Nat, exec (.clen d a) s = .next (s.finishW 1 [a.val] d (.plain (BitVec.ofNat 64 n))) ∧
      ((c.tag = false ∨ capMalformed c = true ∨ capKind c = 1 ∨ capKind c = 2 ∨ capKind c = 3 ∨ capBounds c = none) → n = 0) ∧
      (∀ lo hi, c.tag = true → capMalformed c = false → (capKind c = 0 ∨ capKind c = 4) → capBounds c = some (lo, hi) → n = hi - lo)) ∧
    (∃ n : Nat, exec (.cbas d a) s = .next (s.finishW 1 [a.val] d (.plain (BitVec.ofNat 64 n))) ∧
      ((c.tag = false ∨ capMalformed c = true ∨ capKind c = 1 ∨ capKind c = 2 ∨ capKind c = 3 ∨ capBounds c = none) → n = 0) ∧
      (∀ lo hi, c.tag = true → capMalformed c = false → (capKind c = 0 ∨ capKind c = 4) → capBounds c = some (lo, hi) → n = lo)) ∧
    exec (.ctst d a b) s = .next (s.finishW 1 [a.val, b.val] d (.plain
      (if c.tag && !capMalformed c && capKind c != 3 && (List.range 13).all (fun j => !y.lo.getLsbD j || c.bits.getLsbD (64 + j)) then 1 else 0)))

/-- The faults of the capability instructions name the cause, the operand and the address checked, and change nothing but what a trap changes (R121, R122). -/
def Claims.CapabilityFaults : Prop :=
  ∀ (d a b : Fin 64) (s : State) (c y : Wreg), useW s d 1 = .ok () → readW s a 2 = .ok c → readW s b 3 = .ok y →
    let faults := fun (i : Instr) (code : Nat) => exec i s = .next (s.takeTrap ⟨code, 2, c.lo, false, false⟩)
    (c.tag = false → faults (.cbnd d a b) 0x03 ∧ faults (.cbndX d a b) 0x03 ∧ faults (.cprm d a b) 0x03 ∧ faults (.csea d a) 0x03) ∧
    (c.tag = true → capMalformed c = false → capKind c = 3 →
      faults (.cbnd d a b) 0x06 ∧ faults (.cbndX d a b) 0x06 ∧ faults (.cprm d a b) 0x06 ∧ faults (.csea d a) 0x06 ∧ faults (.cadr d a b) 0x06) ∧
    (c.tag = true → capMalformed c = false → capKind c ≠ 3 → c.bits.getLsbD 75 = false →
      faults (.cbnd d a b) 0x05 ∧ faults (.cbndX d a b) 0x05 ∧ faults (.cprm d a b) 0x05) ∧
    (c.tag = true → capMalformed c = false → (capKind c = 1 ∨ capKind c = 2) → faults (.cadr d a b) 0x05)

/-- Capability instructions write the values of their entries and take the causes of their checks. -/
def Obligations.CapabilityValues : Prop := Claims.CapabilityMoves ∧ Claims.CapabilityFaults

/-- A w register operand: w0 reads as zero, an awaiting register parks, an unbound one gives its value, and a bound one gives the head element of its stream, or
stops on a stream that is bound for writing, exhausted, at a fault, or has nothing ready (R98, R163, R245, R266). -/
def Claims.RegisterOperandReads : Prop :=
  ∀ (s : State) (r : Fin 64) (o : Nat),
    readW s 0 o = .ok .zero ∧
    (r ≠ 0 → s.cpu.awW.getLsbD r.val = true → readW s r o = .error (.park (.reg 0 r.val))) ∧
    (r ≠ 0 → s.cpu.awW.getLsbD r.val = false → s.cpu.boundW r.val = none → readW s r o = .ok s.cpu.w[r]) ∧
    (∀ g, r ≠ 0 → s.cpu.awW.getLsbD r.val = false → s.cpu.boundW r.val = some g →
      let x := s.cpu.stream g
      (x.wr = true → readW s r o = trap 0x12 o 0x74) ∧
      (x.wr = false → x.total ≤ x.done → readW s r o = trap 0x12 o 0x60) ∧
      (x.wr = false → x.done < x.total → x.held = [] → x.flt = true → readW s r o = trap 0x12 o 0x62) ∧
      (x.wr = false → x.done < x.total → x.held = [] → x.flt = false → readW s r o = .error (.park (.stream g))) ∧
      (∀ e rest, x.wr = false → x.done < x.total → x.held = e :: rest →
        readW s r o = .ok (if x.tg then ⟨e.1.setWidth 128, e.2⟩ else .plain (e.1.setWidth 64))))

/-- A destination w register is writable unless it awaits an arrival, or is bound to a stream that is not for writing, is exhausted, has met a fault, or holds four elements;
the write discards a result for w0, appends to a bound write stream, and replaces the register otherwise (R98, R163, R244, R266). -/
def Claims.RegisterDestinations : Prop :=
  ∀ (s : State) (r : Fin 64) (o : Nat) (x : Wreg),
    useW s 0 o = .ok () ∧ s.cpu.writeW 0 x = s.cpu ∧
    (r ≠ 0 → s.cpu.awW.getLsbD r.val = true → useW s r o = .error (.park (.reg 0 r.val))) ∧
    (r ≠ 0 → s.cpu.awW.getLsbD r.val = false → s.cpu.boundW r.val = none →
      useW s r o = .ok () ∧ s.cpu.writeW r x = { s.cpu with w := s.cpu.w.set r x }) ∧
    (∀ g, r ≠ 0 → s.cpu.awW.getLsbD r.val = false → s.cpu.boundW r.val = some g →
      let y := s.cpu.stream g
      (y.wr = false → useW s r o = trap 0x12 o 0x73) ∧
      (y.wr = true → y.total ≤ y.done → useW s r o = trap 0x12 o 0x61) ∧
      (y.wr = true → y.done < y.total → y.flt = true → useW s r o = trap 0x12 o 0x62) ∧
      (y.wr = true → y.done < y.total → y.flt = false → 4 ≤ y.held.length → useW s r o = .error (.park (.stream g))) ∧
      (y.wr = true → y.done < y.total → y.flt = false → y.held.length < 4 → useW s r o = .ok () ∧
        s.cpu.writeW r x = s.cpu.setStream g { y with held := y.held ++ [(x.bits.setWidth 1024, x.tag)], done := y.done + 1 }))

/-- Reads and writes of w registers: w0, awaiting registers and stream bindings. -/
def Obligations.RegisterOperands : Prop := Claims.RegisterOperandReads ∧ Claims.RegisterDestinations

/-- The frame of every instruction that completes with a result in a w register, or with none: only that register, the streams it reads or appends to, PP, PPL, RC and the
program counter change; every other register, flag, special register, accumulator and every byte of memory stay. -/
def Claims.CompletionFrame : Prop :=
  ∀ (s : State) (n : Nat) (uses : List Nat) (d : Fin 64) (x : Wreg) (t : State), t = s.finishW n uses d x ∨ (t = s.finish n uses ∧ d = 0) →
    (∀ r : Fin 64, r ≠ d ∨ r = 0 → t.cpu.w[r] = s.cpu.w[r]) ∧
    (∀ g : Fin 8, let y := s.cpu.sg[g]
      (y.bnd = false ∨ (if y.clsW then 48 + y.reg.val ∉ uses ∧ d.val ≠ 48 + y.reg.val else 64 + (16 + y.reg.val) ∉ uses)) → t.cpu.sg[g] = y) ∧
    (∀ i, i = 0 ∨ i = 15 ∨ 32 ≤ i → t.cpu.st.getLsbD i = s.cpu.st.getLsbD i) ∧
    { t.cpu with
      w := s.cpu.w, sg := s.cpu.sg, st := s.cpu.st, pc := s.cpu.pc, entry := s.cpu.entry
      passed := s.cpu.passed, counted := s.cpu.counted, kv := s.cpu.kv, place := s.cpu.place } = s.cpu ∧
    { t with cpu := s.cpu } = s ∧
    (∀ a, t.mem.byte a = s.mem.byte a)

/-- How an instruction of n words leaves the context: under a repeat with two or more repetitions owed it stays in place and one fewer is owed; otherwise PP, its payload
and RC are zero, and the next word follows, or the next header, 8-byte aligned, is entered by fall-through (R48, R50, R60, R107; that PPL clears too is log 9). -/
def Claims.CompletionAdvance : Prop :=
  ∀ (c : Ctx) (n : Nat), c.hdr.toNat + 8 + 4 * c.len + 8 < 2 ^ 64 → c.pc.toNat + 4 * n < 2 ^ 64 →
    let t := c.advance n
    (2 ≤ c.rc → t.rc = c.rc - 1 ∧ t.pp = c.pp ∧ t.ppl = c.ppl ∧ t.pc = c.pc ∧ t.entry = c.entry) ∧
    (c.rc < 2 → t.rc = 0 ∧ t.pp = false ∧ (c.pp = true → t.ppl = 0) ∧
      (c.pc.toNat + 4 * n < c.hdr.toNat + 8 + 4 * c.len → t.pc.toNat = c.pc.toNat + 4 * n ∧ t.entry = c.entry) ∧
      (c.hdr.toNat + 8 + 4 * c.len ≤ c.pc.toNat + 4 * n → t.entry = .fall ∧ t.pc.toNat % 8 = 0 ∧
        c.hdr.toNat + 8 + 4 * c.len ≤ t.pc.toNat ∧ t.pc.toNat < c.hdr.toNat + 8 + 4 * c.len + 8)) ∧
    { t with st := c.st, pc := c.pc, entry := c.entry, passed := c.passed, counted := c.counted, kv := c.kv, place := c.place } = c

/-- What an instruction that completes leaves unchanged, and where issue goes on. -/
def Obligations.Completion : Prop := Claims.CompletionFrame ∧ Claims.CompletionAdvance

/-- Taking an exception outside trap mode: EPC, ERH, ESR, ECAUSE and EINFO are written, TM is set, PP, PPL, RC, LDEPTH and MBIE are cleared, the sticky flags and PRV carry
over, no other register changes, and the header at the address of TVEC is entered next (R108). With ERH the core keeps LEN and PFH of the block, a field of the model (log 97). -/
def Claims.TrapEntry : Prop :=
  ∀ (s : State) (code opnd : Nat) (info : Word) (entry after : Bool), s.cpu.tm = false → code < 256 → opnd < 4 →
    let t := s.takeTrap ⟨code, opnd, info, entry, after⟩
    t.cpu.epc = (if after then (s.cpu.stepOver 1).pc else s.cpu.pc) ∧
    t.cpu.esr = s.cpu.st ∧ t.cpu.einfo = info ∧
    t.cpu.ecause.toNat = code + 256 * opnd + 1024 * entry.toNat ∧
    (after = false → (s.cpu.entry = .inside ∨ s.cpu.entry = .resume) → t.cpu.erh = s.cpu.hdr) ∧
    (after = true → s.cpu.entry = .inside → t.cpu.erh = if (s.cpu.stepOver 1).entry = .fall then (s.cpu.stepOver 1).pc else s.cpu.hdr) ∧
    (after = false → (s.cpu.entry = .fall ∨ s.cpu.entry = .direct ∨ s.cpu.entry = .vector) → t.cpu.erh = s.cpu.pc ∧ t.cpu.erl = none) ∧
    (after = false → s.cpu.entry = .inside → t.cpu.erl = some (s.cpu.len, s.cpu.pfh, some s.cpu.pc)) ∧
    (after = false → s.cpu.entry = .resume → t.cpu.erl = some (s.cpu.len, s.cpu.pfh, none)) ∧
    (∀ i, t.cpu.st.getLsbD i = if i = 0 then true else if i ≤ 14 ∨ (16 ≤ i ∧ i ≤ 35) then false else s.cpu.st.getLsbD i) ∧
    t.cpu.pc = s.cpu.tvec.lo ∧ t.cpu.entry = .vector ∧
    { t.cpu with
      epc := s.cpu.epc, erh := s.cpu.erh, erl := s.cpu.erl, esr := s.cpu.esr, ecause := s.cpu.ecause, einfo := s.cpu.einfo, st := s.cpu.st, pc := s.cpu.pc
      entry := s.cpu.entry, walk := s.cpu.walk, walkFault := s.cpu.walkFault, passed := s.cpu.passed, counted := s.cpu.counted, kv := s.cpu.kv, place := s.cpu.place } = s.cpu ∧
    { t with cpu := s.cpu } = s

/-- A trap in trap mode halts the context and writes no register; the notice to the tenant's SYSCTX context carries the new cause, the context identifier
and the slot (R109); behind an earlier message of the dispatch engine that still waits for that mailbox, it is owed (R260). -/
def Claims.DoubleTrap : Prop :=
  ∀ (s : State) (t : Trap), s.cpu.tm = true →
    let u := s.takeTrap t
    u.cpu.run = .halted .double none ∧ u.cpu.dbl = true ∧
    { u.cpu with
      run := s.cpu.run, dbl := s.cpu.dbl, walk := s.cpu.walk, walkFault := s.cpu.walkFault
      passed := s.cpu.passed, counted := s.cpu.counted, kv := s.cpu.kv, place := s.cpu.place } = s.cpu ∧
    { u with cpu := s.cpu, posts := s.posts, owed := s.owed } = s ∧
    (let c := (s.tenantOf s.cpu.tenant).sysctx
     let l := s.loc c
     let m : BitVec 128 := BitVec.ofNat 128 (3 + 7 * 2 ^ 4 + t.code % 256 * 2 ^ 8 + (s.cpu.ident.toNat + s.slot * 2 ^ 20) % 2 ^ 64 * 2 ^ 64)
     let waits := ∃ p ∈ s.posts, p.ident = c ∧ p.gen = l.gen ∧ bits p.msg 4 4 = 7
     (l.state = .free → u.posts = s.posts ∧ u.owed = s.owed) ∧
     (l.state ≠ .free → ¬waits → u.posts = s.posts ++ [⟨c, l.gen, m⟩] ∧ u.owed = s.owed) ∧
     (l.state ≠ .free → waits → u.posts = s.posts ∧ u.owed = s.owed ++ [⟨c, l.gen, m⟩]))

/-- Taking an exception saves EPC, ERH, ESR, ECAUSE and EINFO and enters TVEC; in trap mode it is a double trap. -/
def Obligations.TrapEntry : Prop := Claims.TrapEntry ∧ Claims.DoubleTrap

/-- `sys` and `trap` complete by taking their exception, with the immediate or the instruction's address in EINFO and EPC after the instruction; in a handler they double-trap (R110, R158). -/
def Claims.SystemCalls : Prop :=
  ∀ (i : BitVec 13) (s : State),
    exec (.sys i) s = .next (s.takeTrap ⟨0x14, 0, i.signExtend 64, false, true⟩) ∧
    exec .trap s = .next (s.takeTrap ⟨0x15, 0, s.cpu.pc, false, true⟩)

/-- `rfe` in trap mode restores st from ESR and continues at EPC: inside the block whose header stands at ERH where EPC names one of its words, its header's checks counting
as passed, and as a header entered by fall-through otherwise; in user mode it takes the privilege trap. Reserved bits of st stay zero (R99, R111). That LEN of the block is the one
kept at trap entry, and that the header is read at ERH only where none was kept, is log 97; an LDEPTH of 5-7 in ESR is log 6, and PRV from ESR log 101. -/
def Claims.TrapReturn : Prop :=
  ∀ (s : State),
    (s.cpu.tm = false → exec .rfe s = .next (s.takeTrap ⟨0x13, 0, thisWord s, false, false⟩)) ∧
    (s.cpu.tm = true →
      let u := { s with cpu := { s.cpu with st := stRestored s.cpu.esr } }
      let falls := Host.Outcome.next (ρ := Refusal) (φ := Fault) { u with cpu := { u.cpu with pc := s.cpu.epc, entry := .fall, passed := none } }
      let inside := fun (v : State) (n pfh : Nat) (known : Bool) => Host.Outcome.next (ρ := Refusal) (φ := Fault) { v with cpu := { v.cpu with
        pc := s.cpu.epc, hdr := s.cpu.erh, len := n, pfh := pfh, entry := if known then .inside else .resume
        fcap := if v.cpu.tm then v.cpu.tvec else v.cpu.code, passed := none } }
      ((s.cpu.epc.toNat < s.cpu.erh.toNat + 8 ∨ (s.cpu.epc.toNat - (s.cpu.erh.toNat + 8)) % 4 ≠ 0) → exec .rfe s = falls) ∧
      (∀ k n pfh w, s.cpu.epc.toNat = s.cpu.erh.toNat + 8 + 4 * k → s.cpu.erl = some (n, pfh, w) → n ≤ 255 →
        (k < n → exec .rfe s = inside u n pfh (decide (w = some s.cpu.epc))) ∧ (n ≤ k → exec .rfe s = falls)) ∧
      (∀ k, s.cpu.epc.toNat = s.cpu.erh.toNat + 8 + 4 * k → s.cpu.erl = none → k < 255 →
        (∀ dw t, fetchAt u u.cpu.execCap s.cpu.erh 8 = .ok (dw, t) → exec .rfe s = if dw / 2 ^ 57 = 0x7F ∧ headerOk dw = true ∧ k < dw % 256 then inside t (dw % 256) 0 false else falls) ∧
        (∀ x, fetchAt u u.cpu.execCap s.cpu.erh 8 = .error (.trap x) → exec .rfe s = falls)) ∧
      (∀ i, i < 32 ∨ 35 ≤ i → (stRestored s.cpu.esr).getLsbD i = (s.cpu.esr.getLsbD i && stDefined.getLsbD i)))

/-- sys and trap take their exceptions after themselves; rfe restores st and continues at EPC. -/
def Obligations.CallsAndReturns : Prop := Claims.SystemCalls ∧ Claims.TrapReturn

/-- With PRV clear, each privileged instruction takes the privilege trap with its word in EINFO and has no other effect (R110). -/
def Claims.PrivilegeTraps : Prop :=
  ∀ (d a b : Fin 64) (s : State), s.cpu.prv = false →
    let faults := fun i : Instr => exec i s = .next (s.takeTrap ⟨0x13, 0, thisWord s, false, false⟩)
    faults (.cuns d a) ∧ faults (.rcapX d a b) ∧ faults (.stopat a b) ∧ faults (.wmask a b)

/-- The privilege trap of `setsr` on EPC and ESR outside trap mode, and its effect otherwise: MBIE and the sticky flags of st, EPC, ESR and TVEC; the reads of system
registers, time counter, constant windows and format registers (R84, R99, R100, R157). -/
def Claims.SystemRegisters : Prop :=
  ∀ (d a b : Fin 64) (k : KRef) (s : State) (x : Wreg), readW s b 3 = .ok x →
    (s.cpu.tm = false → (a = 1 ∨ a = 2) → exec (.setsr a b) s = .next (s.takeTrap ⟨0x13, 0, thisWord s, false, false⟩)) ∧
    (let t := s.finish 1 [b.val]
     let u := fun c : Ctx => Host.Outcome.next (ρ := Refusal) (φ := Fault) { t with cpu := c }
     exec (.setsr 0 b) s = u { t.cpu with st := (t.cpu.st &&& ~~~0x0003FF0800000000#64) ||| (x.lo &&& 0x0003FF0800000000#64) } ∧
     (s.cpu.tm = true → exec (.setsr 1 b) s = u { t.cpu with epc := x.lo } ∧ exec (.setsr 2 b) s = u { t.cpu with esr := x.lo }) ∧
     exec (.setsr 5 b) s = u { t.cpu with tvec := x } ∧
     (d.val < 8 → exec (.setcw d b) s = u { t.cpu with cw := t.cpu.cw.setIfInBounds d.val x }) ∧
     (fmtValid x.lo = true → exec (.fmset d b) s = u { t.cpu with fm := t.cpu.fm.setIfInBounds d.val x.lo }) ∧
     (fmtValid x.lo = false → exec (.fmset d b) s = .next (s.takeTrap ⟨0x01, 0, thisWord s, false, false⟩))) ∧
    (∀ c u, konst s k = .ok (c, u) → fmtValid c = true →
      exec (.fmsetK d k) s = .next { u.finish 2 [] with cpu := { (u.finish 2 []).cpu with fm := u.cpu.fm.setIfInBounds d.val c } }) ∧
    (useW s d 1 = .ok () →
      let gives := fun v : Word => Host.Outcome.next (ρ := Refusal) (φ := Fault) (s.finishW 1 [] d (.plain v))
      exec (.getsr d 0) s = gives s.cpu.st ∧ exec (.getsr d 1) s = gives s.cpu.epc ∧ exec (.getsr d 2) s = gives s.cpu.esr ∧
      exec (.getsr d 3) s = gives s.cpu.ecause ∧ exec (.getsr d 4) s = gives s.cpu.einfo ∧
      (mayAppend s d s.cpu.tvec = .ok () → exec (.getsr d 5) s = .next (s.finishW 1 [] d s.cpu.tvec)) ∧
      exec (.getsr d 6) s = gives (s.cpu.hdrop.setWidth 64) ∧
      exec (.getsr d 7) s = gives (BitVec.ofNat 64 (s.cpu.ident.toNat + 2 ^ 20 * (s.slot % 16) + 2 ^ 24 * s.cpu.gen.toNat + 2 ^ 32 * (s.cur % 2048) + 2 ^ 43 * s.mdl.devno.toNat)) ∧
      exec (.tcnt d) s = gives (BitVec.ofNat 64 s.counter) ∧
      (∀ r : Fin 8, exec (.fmget d ⟨r.val, by omega⟩) s = gives s.cpu.fm[r]))

/-- System, window and format registers are read and written, and privileged instructions trap without PRV. -/
def Obligations.SystemRegisters : Prop := Claims.PrivilegeTraps ∧ Claims.SystemRegisters

/-- A transfer outside loops enters the header at the target: the target is 8-byte aligned, the code capability (TVEC in trap mode) has X and covers the header and the block,
the header's LEN is not zero, and issue goes on at the first word after it; memory and the registers other than those that `f` writes stay (R50, R51, R125). -/
def Claims.TransferEntry : Prop :=
  ∀ (s t : State) (f : Ctx → Ctx) (h : Word), s.cpu.ldepth = 0 → s.cpu.cont = none → (∀ c, (f c).cont = c.cont ∧ (f c).st = c.st ∧ (f c).code = c.code ∧ (f c).tvec = c.tvec) →
    transfer s f h = .ok t →
    let c := if s.cpu.tm then s.cpu.tvec else s.cpu.code
    h.toNat % 8 = 0 ∧ c.tag = true ∧ capHas c permX = true ∧ 1 ≤ t.cpu.len ∧ t.cpu.len ≤ 255 ∧ capCovers c h.toNat (8 + 4 * t.cpu.len) = true ∧
    t.cpu.hdr = h ∧ t.cpu.pc = h + 8 ∧ t.cpu.entry = .inside ∧
    t.cpu.w = (f s.cpu).w ∧ t.cpu.v = (f s.cpu).v ∧ t.cpu.p = (f s.cpu).p ∧ t.cpu.st = s.cpu.st ∧ (s.qlines = [] → t.mem = s.mem)

/-- The faults of a transfer outside loops, in the order of the steps of block entry, each marked as one of a header entry: a misaligned target, a capability without tag, X or room for the
header, a word that is no header, a header with invalid fields, and a block that the capability does not cover (R50, R51, R108, R125). -/
def Claims.TransferFaults : Prop :=
  ∀ (s : State) (f : Ctx → Ctx) (h : Word), s.cpu.ldepth = 0 → (∀ c, (f c).st = c.st ∧ (f c).code = c.code ∧ (f c).tvec = c.tvec ∧ (f c).sq = c.sq) →
    let c := if s.cpu.tm then s.cpu.tvec else s.cpu.code
    let u := { s with cpu := { f s.cpu with passed := none } }
    let faults := fun (code : Nat) (info : Word) => transfer s f h = .error (.trap ⟨code, 0, info, true, false⟩)
    (h.toNat % 8 ≠ 0 → faults 0x02 h) ∧
    (h.toNat % 8 = 0 →
      (c.tag = false ∨ capMalformed c = true → faults 0x03 h) ∧
      (c.tag = true → capMalformed c = false → capKind c = 3 → faults 0x06 h) ∧
      (c.tag = true → capMalformed c = false → (capKind c = 1 ∨ capKind c = 2) → faults 0x05 h) ∧
      (c.tag = true → capMalformed c = false → (capKind c = 0 ∨ capKind c = 4) →
        (capHas c permX = false → faults 0x05 h) ∧
        (capHas c permX = true → capCovers c h.toNat 8 = false → faults 0x04 h) ∧
        (capHas c permX = true → capCovers c h.toNat 8 = true → s.cpu.arHeld = false →
          (∀ x, fetchAt u c h 8 = .error (.trap x) → transfer s f h = .error (.trap { x with entry := true })) ∧
          (∀ dw t, fetchAt u c h 8 = .ok (dw, t) →
            (dw / 2 ^ 57 ≠ 0x7F → faults 0x02 h) ∧
            (dw / 2 ^ 57 = 0x7F → headerOk dw = false → faults 0x01 (BitVec.ofNat 64 dw)) ∧
            (dw / 2 ^ 57 = 0x7F → headerOk dw = true → capCovers c h.toNat (8 + 4 * (dw % 256)) = false → faults 0x04 h)))))

/-- Branches, calls and returns complete with a transfer to their target, which J formats count in 8 bytes from the block's header; a branch that is not taken goes on with
the next word; calls write the return header to w1, and one whose transfer fails takes its trap with w1 as it was (R51, R57, R126-R129). -/
def Claims.BranchResults : Prop :=
  ∀ (s : State) (o : BitVec 19) (r : Fin 64),
    let goes := fun (i : Instr) (f : Ctx → Ctx) (h : Word) =>
      (∀ t, transfer s f h = .ok t → exec i s = .next t) ∧ (∀ x, transfer s f h = .error (.trap x) → exec i s = .next (s.takeTrap x) ∧ (s.takeTrap x).cpu.w = s.cpu.w)
    let there := s.cpu.hdr + 8#64 * o.signExtend 64
    let back := s.cpu.nextHdr
    let link := fun c : Ctx => { c.writeW 1 (.plain back) with ras := (back :: (c.writeW 1 (.plain back)).ras).take 16 }
    goes (.br o) id there ∧
    (useW s 1 0 = .ok () → goes (.call o) link there) ∧
    (∀ x, readW s r 1 = .ok x →
      let on := fun i : Instr => goes i (fun c => c.popAll [r.val]) there
      let off := fun i : Instr => exec i s = .next (s.finish 1 [r.val])
      (x.lo = 0 → off (.bc r o) ∧ on (.bcZ r o)) ∧ (x.lo ≠ 0 → on (.bc r o) ∧ off (.bcZ r o))) ∧
    (∀ (p : Fin 8) (x : Word), readP s p.val = .ok x →
      let on := fun i : Instr => goes i id there
      let off := fun i : Instr => exec i s = .next (s.finish 1 [])
      (x = 0 → off (.bpAny p o) ∧ off (.bpAll p o) ∧ on (.bpNone p o) ∧ on (.bpNall p o)) ∧
      (x = BitVec.allOnes 64 → on (.bpAny p o) ∧ on (.bpAll p o) ∧ off (.bpNone p o) ∧ off (.bpNall p o)) ∧
      (x ≠ 0 → x ≠ BitVec.allOnes 64 → on (.bpAny p o) ∧ off (.bpAll p o) ∧ off (.bpNone p o) ∧ on (.bpNall p o))) ∧
    (∀ x, readW s r 2 = .ok x → goes (.jr r) (fun c => c.popAll [r.val]) x.lo ∧
      (useW s 1 0 = .ok () → goes (.callReg r) (fun c => link (c.popAll [r.val])) x.lo)) ∧
    (∀ x, readW s 1 0 = .ok x → goes .ret (fun c => { c with ras := c.ras.drop 1 }) x.lo)

/-- Transfers of control enter the header they name, write w1 only when they succeed, trap where the header cannot be entered, and fall through when not taken. -/
def Obligations.ControlTransfers : Prop := Claims.TransferEntry ∧ Claims.TransferFaults ∧ Claims.BranchResults

/-- `loop` with a count writes the next loop register and LDEPTH and goes on; with zero it transfers to its END; a fifth loop and a count of 2^32 or more are refused,
and an END at or before the loop's first header is an illegal encoding (R106, R131). -/
def Claims.LoopStart : Prop :=
  ∀ (s : State) (r : Fin 64) (o : BitVec 19) (x : Wreg), readW s r 1 = .ok x → s.cpu.hdr.toNat % 8 = 0 → s.cpu.hdr.toNat + 8 + 4 * s.cpu.len + 8 < 2 ^ 57 → s.cpu.len < 256 →
    let start := s.cpu.nextHdr.toNat
    let stop := (s.cpu.hdr.toNat : Int) + 8 * o.toInt
    (stop ≤ start → exec (.loop r o) s = .next (s.takeTrap ⟨0x01, 0, thisWord s, false, false⟩)) ∧
    (start < stop → x.lo = 0 → ∀ t, transfer s (fun c => c.popAll [r.val]) (BitVec.ofInt 64 stop) = .ok t → exec (.loop r o) s = .next t) ∧
    (start < stop → x.lo ≠ 0 → s.cpu.ldepth = 4 → exec (.loop r o) s = .next (s.takeTrap ⟨0x12, 0, 0x01, false, false⟩)) ∧
    (start < stop → s.cpu.ldepth < 4 → 2 ^ 32 ≤ x.lo.toNat → exec (.loop r o) s = .next (s.takeTrap ⟨0x12, 0, 0x02, false, false⟩)) ∧
    (start < stop → s.cpu.ldepth < 4 → x.lo ≠ 0 → x.lo.toNat < 2 ^ 32 → ∃ c : Ctx, exec (.loop r o) s = .next ({ s with cpu := c }.finish 1 [r.val]) ∧
      c.ldepth = s.cpu.ldepth + 1 ∧
      (∃ img, c.lc = s.cpu.lc.setIfInBounds s.cpu.ldepth img ∧ bits img 0 32 = x.lo.toNat ∧ 8 * bits img 32 54 = start ∧ (start + 8 * bits img 86 19 : Int) = stop) ∧
      (∀ i, i < 32 ∨ 35 ≤ i → c.st.getLsbD i = s.cpu.st.getLsbD i) ∧ { c with lc := s.cpu.lc, st := s.cpu.st } = s.cpu)

/-- What the entry of a header does to the active loops: nothing unless the header is the innermost END; there a loop with iterations left counts down and goes back to
its START, and a finished one clears its count and leaves the next outer loop innermost, which may end here too (R106). -/
def Claims.LoopRedirect : Prop :=
  ∀ (c : Ctx) (h : Word) (k : Fin 4),
    let x := c.lc[k]
    let start := 8 * bits x 32 54
    let atEnd := start + 8 * bits x 86 19
    c.redirect 0 h = (c, h, false) ∧
    (h.toNat ≠ atEnd → c.redirect (k.val + 1) h = (c, h, false)) ∧
    (h.toNat = atEnd → 1 < bits x 0 32 → ∃ y, c.redirect (k.val + 1) h = ({ c with lc := c.lc.set k y }, BitVec.ofNat 64 start, true) ∧
      bits y 0 32 = bits x 0 32 - 1 ∧ y >>> 32 = x >>> 32) ∧
    (h.toNat = atEnd → bits x 0 32 ≤ 1 → ∃ y st, c.redirect (k.val + 1) h = ({ c with lc := c.lc.set k y, st := st } : Ctx).redirect k.val h ∧
      bits y 0 32 = 0 ∧ y >>> 32 = x >>> 32 ∧ bits st 32 3 = k.val ∧ ∀ i, i < 32 ∨ 35 ≤ i → st.getLsbD i = c.st.getLsbD i)

/-- `nop` only goes on; `fmt` sets PP and the payload and keeps a repeat count; `rep` sets RC for the instruction that follows, and with a count of zero skips it with its
prefix; a count above 65,535 is refused (R60, R107, R132). -/
def Claims.RepeatAndPrefix : Prop :=
  ∀ (s : State),
    exec .nop s = .next (s.finish 1 []) ∧
    (∀ (r : Fin 8) (n : Fin 2) (d b a : Fin 8), ∃ st, exec (.fmt r n d b a) s = .next { s with cpu := { s.cpu with st := st }.stepOver 1 } ∧
      st.getLsbD 1 = true ∧ bits st 2 13 = a.val + 8 * b.val + 64 * d.val + 512 * n.val + 1024 * r.val ∧
      ∀ i, i = 0 ∨ 15 ≤ i → st.getLsbD i = s.cpu.st.getLsbD i) ∧
    (∀ (n : Nat), governed s = .ok (n, true) →
      (∀ i : BitVec 13, i ≠ 0 → ∃ st, exec (.rep i) s = .next { s.finish 1 [] with cpu := { (s.finish 1 []).cpu with st := st } } ∧ bits st 16 16 = i.toNat ∧
        ∀ j, j < 16 ∨ 32 ≤ j → st.getLsbD j = (s.finish 1 []).cpu.st.getLsbD j) ∧
      (∀ (a : Fin 64) (x : Wreg), readW s a 2 = .ok x →
        (x.lo = 0 → exec (.repW a) s = .next (s.finish (1 + n) [a.val])) ∧
        (65535 < x.lo.toNat → exec (.repW a) s = .next (s.takeTrap ⟨0x12, 0, 0x03, false, false⟩)) ∧
        (x.lo ≠ 0 → x.lo.toNat ≤ 65535 →
          ∃ st, exec (.repW a) s = .next { s.finish 1 [a.val] with cpu := { (s.finish 1 [a.val]).cpu with st := st } } ∧ bits st 16 16 = x.lo.toNat ∧
            ∀ j, j < 16 ∨ 32 ≤ j → st.getLsbD j = (s.finish 1 [a.val]).cpu.st.getLsbD j))) ∧
    (∀ (n : Nat) (i : BitVec 13) (a : Fin 64), governed s = .ok (n, false) →
      exec (.rep i) s = .next (s.takeTrap ⟨0x01, 0, thisWord s, false, false⟩) ∧ exec (.repW a) s = .next (s.takeTrap ⟨0x01, 0, thisWord s, false, false⟩))

/-- Hardware loops start and return to START, rep sets RC and fmt sets the prefix. -/
def Obligations.LoopsAndPrefixes : Prop := Claims.LoopStart ∧ Claims.LoopRedirect ∧ Claims.RepeatAndPrefix

/-- The contexts of a core: `hstart` in the control context places a helper with its argument in w4, an identifier that was free, other than 0, with the next generation, the starter's
constant windows, trap vector and privilege, and every other register at reset; `hjoin` parks on the helpers of its mask the first time, completes when the named helpers are idle, and is refused to a helper; `yield` passes issue and
stays ready (R94, R133, R135). -/
def Obligations.HelperContexts : Prop :=
  ∀ (s : State) (d a b : Fin 64) (x y : Wreg), readW s a 2 = .ok x → readW s b 3 = .ok y →
    (let k := d.val + 1
     s.slot = 0 → d.val < 10 → (s.ctx s.cur k).isOpen = false → (s.ctx s.cur k).run = .idle → s.cpu.sq = [] →
      ∃ t, exec (.hstart d a b) s = .next t ∧
        let c := t.ctx s.cur k
        c.run = .ready ∧ c.w = (Vector.replicate 64 Wreg.zero).set 4 y ∧ c.v = Vector.replicate 32 0 ∧ c.p = Vector.replicate 8 0 ∧
        c.fm = Vector.replicate 8 0x7E030739#64 ∧ c.lc = Vector.replicate 4 0 ∧ c.mb = Vector.replicate 8 0 ∧ c.tb = Vector.replicate 8 0 ∧
        (∀ g : Fin 8, (c.fb[g]).opn = false ∧ (c.sg[g]).bnd = false) ∧ c.mbox = [] ∧ c.awW = 0 ∧ c.awV = 0 ∧ c.awP = 0 ∧
        ((∃ id : BitVec 20, id ≠ 0 ∧ (s.loc id).state = .free) → c.ident ≠ 0 ∧ (s.loc c.ident).state = .free) ∧ c.cw = s.cpu.cw ∧ c.tvec = s.cpu.tvec ∧
        c.code = s.cpu.code ∧ c.prv = s.cpu.prv ∧ c.tm = false ∧ c.pc = x.lo ∧ c.entry = .fall ∧ c.tenant = s.cpu.tenant ∧
        c.gen = (s.loc c.ident).gen + 1 ∧ (t.loc c.ident).state = .resident ∧ (t.loc c.ident).gen = c.gen ∧
        t.cpu = (s.finish 1 [a.val, b.val]).cpu ∧ t.mem = s.mem ∧ t.core = s.core) ∧
    (s.slot ≠ 0 → exec (.hstart d a b) s = .next (s.takeTrap ⟨0x12, 0, 0x04, false, false⟩) ∧ exec (.hjoin a) s = .next (s.takeTrap ⟨0x12, 0, 0x04, false, false⟩)) ∧
    (s.slot = 0 → s.cpu.passed = none → exec (.hjoin a) s = .next (s.parkOn (.join (if a = 0 then BitVec.allOnes 10 else x.bits.setWidth 10)))) ∧
    (s.slot = 0 → s.cpu.passed ≠ none →
      (∀ i, i < 10 → (a = 0 ∨ x.bits.getLsbD i = true) → (s.ctx s.cur (i + 1)).isOpen = true ∨ (s.ctx s.cur (i + 1)).run = .idle) →
      exec (.hjoin a) s = .next (s.finish 1 [a.val])) ∧
    exec .yield s = .next { s.finish 1 [] with cpu := { (s.finish 1 []).cpu with run := .ready } }

/-- Bytes of memory after a write: each byte whose mask bit is set holds its data at the place its granule has, and every other byte stays; touched granules carry the tag only
when the write covers them whole, a poison mark goes only then, and full bits are set only by a write that sets them (R28, R95, R101, R140, R145). -/
def Claims.MemoryWrites : Prop :=
  ∀ (m : Memory) (w : WriteOp), m.wf = true → w.n ≤ 128 →
    let u := m.write w
    u.wf = true ∧
    (∀ i, i < w.n → w.mask.getLsbD i = true → u.byte (locate w.swz (w.pa + i)) = w.data.extractLsb' (8 * i) 8) ∧
    (∀ a, (∀ i, i < w.n → w.mask.getLsbD i = true → locate w.swz (w.pa + i) ≠ a) → u.byte a = m.byte a) ∧
    (∀ g, (∀ i, i < w.n → w.mask.getLsbD i = true → granuleOf w.swz (w.pa + i) ≠ g) →
      u.tagAt g = m.tagAt g ∧ u.poisonAt g = m.poisonAt g ∧ u.fullAt g = m.fullAt g) ∧
    (∀ k, let covered := fun j => w.pa ≤ 16 * k + j ∧ 16 * k + j < w.pa + w.n ∧ w.mask.getLsbD (16 * k + j - w.pa) = true
      let g := granuleOf w.swz (16 * k)
      ((∀ j, j < 16 → covered j) → u.tagAt g = w.tag ∧ u.poisonAt g = false ∧ u.fullAt g = (w.full || m.fullAt g)) ∧
      ((∃ j, j < 16 ∧ covered j) → (∃ j, j < 16 ∧ ¬covered j) → u.tagAt g = false ∧ u.poisonAt g = m.poisonAt g ∧ u.fullAt g = (w.full || m.fullAt g)))

/-- A scratch byte stands in the row and the byte of its offset and in the bank that the swizzle code gives; one code never puts two bytes at one place, and code 0 and every
other kind of memory leave an address as it is (R101). -/
def Claims.ScratchPlaces : Prop :=
  ∀ (swz pa h : Nat), regionOf pa = .scratch h → 1 ≤ swz → swz ≤ 6 →
    let o := (localOf pa - 0x10000000000) % 0x80000
    let q := (localOf (locate swz pa) - 0x10000000000) % 0x80000
    regionOf (locate swz pa) = .scratch h ∧ devOf (locate swz pa) = devOf pa ∧ q / 512 = o / 512 ∧ q % 16 = o % 16 ∧
    q / 16 % 32 = Nat.xor (o / 16 % 32) (o / 2 ^ (swz + 8) % 32) ∧
    locate 0 pa = pa ∧
    (∀ p2, locate swz p2 = locate swz pa → p2 = pa) ∧
    (∀ p2, (∀ k, regionOf p2 ≠ .scratch k) → locate swz p2 = p2)

/-- The parts of the address map: device memory, the scratch windows with their 384 KiB of memory, the register fabric, configuration space, and holes between them; no device
has a number from 6,144 on (R18-R20). -/
def Claims.AddressMap : Prop :=
  ∀ (pa : Nat),
    let a := pa % 2 ^ 43
    let dev := pa / 2 ^ 43 % 2 ^ 13
    (6144 ≤ dev → regionOf pa = .hole) ∧
    (dev < 6144 → a < 0xC000000000 → regionOf pa = .dram) ∧
    (∀ h o, dev < 6144 → h < 2048 → a = 0x10000000000 + h * 0x80000 + o → o < 0x80000 → regionOf pa = if o < 393216 then .scratch h else .hole) ∧
    (dev < 6144 → 0x20000000000 ≤ a → a < 0x22000000000 → regionOf pa = .fabric) ∧
    (dev < 6144 → 0x40000000000 ≤ a → a < 0x41000000000 → regionOf pa = .config) ∧
    (dev < 6144 → (0xC000000000 ≤ a ∧ a < 0x10000000000) ∨ (0x10040000000 ≤ a ∧ a < 0x20000000000) ∨ (0x22000000000 ≤ a ∧ a < 0x40000000000) ∨ 0x41000000000 ≤ a →
      regionOf pa = .hole)

/-- Writes change the bytes they name and no other, with tags, poison and full bits; the places of scratch and the address map. -/
def Obligations.MemoryWrites : Prop := Claims.MemoryWrites ∧ Claims.ScratchPlaces ∧ Claims.AddressMap

/-- An access at a place pins no page: its frame has a policy tag already, or its policy is not the pinning one (R45, R347). -/
def Claims.NoPin (s : State) (p : Place) : Prop := Tab.get 0 s.policy (frameOf p.pa) ≠ 0 ∨ ∀ m, p.map = some m → m.1 ≠ 2

/-- The checks of an access, in order: tag, seal, kind, permission, bounds and alignment fault with their causes, the operand and the address; an access that passes them
covers only bytes within the bounds, and has changed no register of the context; memory and every other field stay where it pins no page, and a page that it pins takes a way
of its slice, whose copies of software-managed lines are written back (R45, R63, R96, R97, R139, R347, R353). -/
def Claims.AccessChecks : Prop :=
  ∀ (s : State) (c : Wreg) (o n al perm : Nat) (ea : Word) (use : Use) (cfg pass : Bool),
    let r := access s c o ea n al perm use cfg pass
    (c.tag = false ∨ capMalformed c = true → r = trap 0x03 o ea) ∧
    (c.tag = true → capMalformed c = false → capKind c = 3 → r = trap 0x06 o ea) ∧
    (c.tag = true → capMalformed c = false → (capKind c = 1 ∨ capKind c = 2) → r = trap 0x05 o ea) ∧
    (c.tag = true → capMalformed c = false → (capKind c = 0 ∨ capKind c = 4) → capHas c perm = false → r = trap 0x05 o ea) ∧
    (c.tag = true → capMalformed c = false → (capKind c = 0 ∨ capKind c = 4) → capHas c perm = true →
      (capCovers c ea.toNat n = false → r = trap 0x04 o ea) ∧ (capCovers c ea.toNat n = true → ea.toNat % al ≠ 0 → r = trap 0x07 o ea)) ∧
    (∀ p t, r = .ok (p, t) → c.tag = true ∧ capMalformed c = false ∧ (capKind c = 0 ∨ capKind c = 4) ∧ capHas c perm = true ∧ ea.toNat % al = 0 ∧
      (∃ lo hi, capBounds c = some (lo, hi) ∧ lo ≤ ea.toNat ∧ ea.toNat + n ≤ hi) ∧
      (regionOf p.pa = .dram ∨ (∃ h, regionOf p.pa = .scratch h) ∨ (regionOf p.pa = .config ∧ cfg = true ∧ s.cpu.prv = true ∧ n = 8)) ∧
      (Claims.NoPin s p → { t with policy := s.policy } = s) ∧
      (s.qlines = [] → { t with policy := s.policy, pins := s.pins } = s) ∧
      { t with
        policy := s.policy, pins := s.pins, mem := s.mem, qlines := s.qlines, core := { t.core with watches := s.core.watches, tq := s.core.tq }
        cores := s.cores, mcast := s.mcast } = s)

/-- A read of the own core's scratch that is served within the cycle, from memory alone: no engine owns the line and no migration blocks it, no packet accepted before
it is for the same bank, the store queue is empty, and no byte read is poisoned (R24, R26, R29, R38). -/
def Claims.ServedHere (t : State) (r : ReadOp) : Prop :=
  t.agentRd r.pa = .bank t.cur ∧ t.open ⟨r.pa, r.swz, none⟩ = true ∧ (∀ q ∈ t.net, q.bars (.bank t.cur) r.pa r.swz r.n = true → q.h ≠ t.cur ∧ q.stage ≠ .agent) ∧
    t.cpu.sq = [] ∧ t.swLine r.pa = false ∧ t.mem.poisoned r.swz r.pa r.n r.mask = none

/-- A load that its own core's scratch serves completes at once with the bytes of memory, zero- or sign-extended, or with a granule whose tag comes only with LC; the K form
takes its index from the constant (R26, R142-R144). The store queue is empty here: what it forwards is a statement of its own. -/
def Claims.ScratchLoads : Prop :=
  ∀ (d a : Fin 64) (s : State) (c : Wreg), useW s d 1 = .ok () → readW s a 2 = .ok c →
    let serves := fun (u : State) (ea : Word) (n : Nat) (cfg : Bool) (p : Place) (t : State) => access u c 2 ea n n permL .rd cfg true = .ok (p, t) ∧
      (∃ h, regionOf p.pa = .scratch h) ∧ Claims.ServedHere t ⟨p.pa, p.swz, n, ones 128 n, 0, .plain⟩
    (∀ (i : BitVec 13) p t, serves s (c.lo + i.signExtend 64) 8 true p t →
      exec (.ld d a i) s = .next (t.finishW 1 [a.val] d (.plain (BitVec.ofNat 64 (t.mem.read p.swz p.pa 8))))) ∧
    (∀ (i : BitVec 13) p t, serves s (c.lo + i.signExtend 64) 16 false p t →
      let x : Wreg := ⟨BitVec.ofNat 128 (t.mem.read p.swz p.pa 16), t.mem.tagAt (granuleOf p.swz p.pa) && capHas c permLC⟩
      mayAppend t d x = .ok () → exec (.ldc d a i) s = .next (t.finishW 1 [a.val] d x)) ∧
    (∀ (b : Fin 64) (y : Wreg) (o : Fin 8) (x : Fin 2) (z : Fin 4) p t, readW s b 3 = .ok y → serves s (c.lo + y.lo) (2 ^ z.val) true p t →
      let v := t.mem.read p.swz p.pa (2 ^ z.val)
      exec (.ldSized d a b o x z) s =
        .next (t.finishW 1 [a.val, b.val] d (.plain (if x = 1 then (BitVec.ofNat (8 * 2 ^ z.val) v).signExtend 64 else BitVec.ofNat 64 v)))) ∧
    (∀ (k : KRef) (y : Word) (u : State) (o : Fin 8) (x : Fin 2) (z : Fin 4) p t, checkCap c 2 c.lo permL = .ok () → konst s k = .ok (y, u) →
      serves u (c.lo + y) (2 ^ z.val) true p t →
      let v := t.mem.read p.swz p.pa (2 ^ z.val)
      exec (.ldSizedK d a k o x z) s =
        .next (t.finishW 2 [a.val] d (.plain (if x = 1 then (BitVec.ofNat (8 * 2 ^ z.val) v).signExtend 64 else BitVec.ofNat 64 v))))

/-- A load that its own scratch does not serve leaves as one read packet and parks its context, with no register written and its program counter at the load; the register is
written when the value returns (R26, R103, R142). -/
def Claims.OffCoreLoads : Prop :=
  ∀ (d a : Fin 64) (i : BitVec 13) (s t : State) (c : Wreg) (p : Place), useW s d 1 = .ok () → readW s a 2 = .ok c →
    access s c 2 (c.lo + i.signExtend 64) 8 8 permL .rd true true = .ok (p, t) → regionOf p.pa = .dram → t.cpu.sq = [] → t.swLine p.pa = false →
    ∃ u q, exec (.ld d a i) s = .next u ∧ u.net = t.net ++ [q] ∧ q.dest = t.agentRd p.pa ∧ q.h = t.cur ∧ q.slot = t.slot ∧ q.stage = .port ∧
      q.op = .read ⟨p.pa, p.swz, 8, ones 128 8, 0, .plain⟩ ∧ u.cpu.run = .parked .load ∧
      (∃ n, u.cpu.pend = some n ∧ n.back = .word d 8 false ∧ n.words = 1 ∧ n.left = 1 ∧ n.pops = [a.val]) ∧
      { u.cpu with run := t.cpu.run, pend := t.cpu.pend } = t.cpu ∧ { u with cpu := t.cpu, net := t.net, packetN := t.packetN } = t ∧
      (Claims.NoPin s p → ∀ x, u.mem.byte x = s.mem.byte x)

/-- What the store queue forwards: a byte that a queued store of the context writes reads as its newest queued value, and any other as memory has it, in a load from the own scratch at once, and
in another when its value returns (R27). -/
def Claims.Forwarding : Prop :=
  (∀ (c : Ctx) (a : Nat), c.sq = [] → c.queued a = none) ∧
  (∀ (c : Ctx) (l : List SqEntry) (g : Agent) (w : WriteOp) (a : Nat), c.sq = l ++ [.store [(g, w)]] →
    let writes := fun i : Nat => w.mask.getLsbD i = true ∧ locate w.swz (w.pa + i) = a
    (∀ i < w.n, writes i → (∀ j < i, ¬writes j) → c.queued a = some (BitVec.ofNat 8 (bits w.data (8 * i) 8))) ∧
    ((∀ i < w.n, ¬writes i) → c.queued a = ({ c with sq := l } : Ctx).queued a)) ∧
  (∀ (c : Ctx) (r : ReadOp) (i : Nat), r.off + r.n ≤ 128 → i < r.n → r.mask.getLsbD i = true →
    (∀ b, c.queued (locate r.swz (r.pa + i)) = some b → (c.forward r).2.getLsbD (r.off + i) = true ∧ bits (c.forward r).1 (8 * (r.off + i)) 8 = b.toNat) ∧
    (c.queued (locate r.swz (r.pa + i)) = none → (c.forward r).2.getLsbD (r.off + i) = false)) ∧
  (∀ (x y : BitVec 1024) (m : BitVec 128) (i : Nat), i < 128 → bits (blend x y m) (8 * i) 8 = if m.getLsbD i then bits y (8 * i) 8 else bits x (8 * i) 8) ∧
  (∀ (d a : Fin 64) (i : BitVec 13) (s t : State) (c : Wreg) (p : Place), useW s d 1 = .ok () → readW s a 2 = .ok c →
    access s c 2 (c.lo + i.signExtend 64) 8 8 permL .rd true true = .ok (p, t) →
    (∀ v : Nat, (∃ h, regionOf p.pa = .scratch h) → t.agentRd p.pa = .bank t.cur → t.open p = true → t.swLine p.pa = false → t.mem.poisoned p.swz p.pa 8 (ones 128 8) = none →
      (∀ q ∈ t.net, q.bars (.bank t.cur) p.pa p.swz 8 = true → q.h ≠ t.cur ∧ q.stage ≠ .agent) → v < 2 ^ 64 →
      (∀ j < 8, v / 2 ^ (8 * j) % 256 = match t.cpu.queued (locate p.swz (p.pa + j)) with | some b => b.toNat | none => t.mem.read p.swz (p.pa + j) 1) →
      exec (.ld d a i) s = .next (t.finishW 1 [a.val] d (.plain (BitVec.ofNat 64 v)))) ∧
    (regionOf p.pa = .dram → t.swLine p.pa = false → ∃ u n, exec (.ld d a i) s = .next u ∧ u.cpu.run = .parked .load ∧ u.cpu.pend = some n ∧
      n.fwd = (t.cpu.forward ⟨p.pa, p.swz, 8, ones 128 8, 0, .plain⟩).1 ∧ n.fwdMask = (t.cpu.forward ⟨p.pa, p.swz, 8, ones 128 8, 0, .plain⟩).2))

/-- Accesses are checked in order, loads from the own scratch complete at once and others wait for their value, and the store queue forwards its bytes to both. -/
def Obligations.Loads : Prop := Claims.AccessChecks ∧ Claims.ScratchLoads ∧ Claims.OffCoreLoads ∧ Claims.Forwarding

/-- A store puts its bytes at the translated place of its address into the store queue and completes; memory changes only when the entry leaves and is applied. Plain stores carry
no tag; `stc` carries the tag of its register (R27, R139-R144). A releasing store puts its fence marker before it (R32). -/
def Claims.StoreResults : Prop :=
  ∀ (d a : Fin 64) (s : State) (x c : Wreg), readW s d 1 = .ok x → readW s a 2 = .ok c →
    let puts := fun (i : Instr) (u : State) (ea : Word) (n perm : Nat) (cfg : Bool) (v : BitVec 1024) (tag : Bool) (rel words : Nat) (uses : List Nat) =>
      ∀ p t, access u c 2 ea n n perm .wr cfg false = .ok (p, t) → regionOf p.pa ≠ .config → t.fieldOwned (frameOf p.pa) = false → t.cpu.sqCount < 16 →
        let t1 := if rel = 0 then t else t.release (rel - 1) false
        let e := SqEntry.store [(t1.agentOf p.pa, ⟨p.pa, p.swz, n, v, ones 128 n, tag, false⟩)]
        exec i s = .next ({ t1 with cpu := { t1.cpu with sq := t1.cpu.sq ++ [e] } }.finish words uses) ∧ t1.mem = t.mem ∧ (Claims.NoPin u p → ∀ y, t1.mem.byte y = u.mem.byte y)
    (∀ i : BitVec 13, puts (.st d a i) s (c.lo + i.signExtend 64) 8 permS true (x.lo.setWidth 1024) false 0 1 [d.val, a.val]) ∧
    (∀ i : BitVec 13, x.tag = false → puts (.stc d a i) s (c.lo + i.signExtend 64) 16 permS false (x.bits.setWidth 1024) false 0 1 [d.val, a.val]) ∧
    (∀ i : BitVec 13, x.tag = true → globalOk s x c (c.lo + i.signExtend 64) = .ok () →
      puts (.stc d a i) s (c.lo + i.signExtend 64) 16 (permS + permSC) false (x.bits.setWidth 1024) true 0 1 [d.val, a.val]) ∧
    (∀ (b : Fin 64) (y : Wreg) (o : Fin 8) (z : Fin 4), readW s b 3 = .ok y →
      puts (.stSized d a b o z) s (c.lo + y.lo) (2 ^ z.val) permS true (x.lo.setWidth 1024) false o.val 1 [d.val, a.val, b.val]) ∧
    (∀ (k : KRef) (y : Word) (u : State) (o : Fin 8) (z : Fin 4), checkCap c 2 c.lo permS = .ok () → konst s k = .ok (y, u) →
      puts (.stSizedK d a k o z) u (c.lo + y) (2 ^ z.val) permS true (x.lo.setWidth 1024) false o.val 2 [d.val, a.val])

/-- Full/empty access in the core's own scratch: a consuming load of 8, 16 or 32 bytes whose granules are full completes with the bytes, and with the clearing qualifier leaves
those granules empty in the same step; one that finds a granule empty parks; `stfe` queues 16 bytes that set the full bit, and `stfe.wait` writes at once where the granule
is empty (R102, R103, R145). -/
def Claims.FullEmptyAccess : Prop :=
  ∀ (d a b : Fin 64) (s : State) (c y : Wreg), readW s a 2 = .ok c → readW s b 3 = .ok y →
    let ea := c.lo + y.lo
    let ready := fun (n : Nat) (p : Place) (t : State) => access s c 2 ea n n permL .rd false true = .ok (p, t) ∧
      (∃ h, regionOf p.pa = .scratch h) ∧ devOf p.pa = t.dev ∧ Claims.ServedHere t ⟨p.pa, p.swz, n, ones 128 n, 0, .plain⟩ ∧ (∀ q ∈ t.net, q.waiting = false)
    let cleared := fun (n : Nat) (p : Place) (t : State) => { t with mem := (granules p.swz p.pa n).foldl (fun m g => m.setFull g false) t.mem }
    let full := fun (n : Nat) (p : Place) (t : State) => (granules p.swz p.pa n).all t.mem.fullAt
    let v := fun (n : Nat) (p : Place) (t : State) => t.mem.read p.swz p.pa n
    (∀ p t, useW s d 1 = .ok () → ready 8 p t → full 8 p t = true →
      exec (.ldfe d a b) s = .next (t.finishW 1 [a.val, b.val] d (.plain (BitVec.ofNat 64 (v 8 p t)))) ∧
      exec (.ldfeClr d a b) s = .next ((cleared 8 p t).finishW 1 [a.val, b.val] d (.plain (BitVec.ofNat 64 (v 8 p t))))) ∧
    (∀ p t, useW s d 1 = .ok () → ready 16 p t → full 16 p t = true →
      exec (.ldfeG d a b) s = .next (t.finishW 1 [a.val, b.val] d ⟨BitVec.ofNat 128 (v 16 p t), false⟩) ∧
      exec (.ldfeClrG d a b) s = .next ((cleared 16 p t).finishW 1 [a.val, b.val] d ⟨BitVec.ofNat 128 (v 16 p t), false⟩)) ∧
    (∀ p t, useW s d 1 = .ok () → useW s (d + 1) 1 = .ok () → ready 32 p t → full 32 p t = true →
      let w := fun u : State => { u with cpu := (((u.cpu.popAll [a.val, b.val]).writeW d ⟨BitVec.ofNat 128 (v 32 p t), false⟩).writeW (d + 1)
        ⟨BitVec.ofNat 128 (v 32 p t / 2 ^ 128), false⟩).advance 1 }
      exec (.ldfeP d a b) s = .next (w t) ∧ exec (.ldfeClrP d a b) s = .next (w (cleared 32 p t))) ∧
    (∀ p t, useW s d 1 = .ok () → ready 8 p t → full 8 p t = false → ∃ u, exec (.ldfe d a b) s = .next u ∧ u.cpu.run = .parked .load ∧ u.cpu.w = t.cpu.w ∧ u.mem = t.mem) ∧
    (∀ x p t, readW s d 1 = .ok x → access s c 2 ea 16 16 permS .wr false false = .ok (p, t) → (∃ h, regionOf p.pa = .scratch h) → devOf p.pa = t.dev →
      let w : WriteOp := ⟨p.pa, p.swz, 16, x.bits.setWidth 1024, ones 128 16, false, true⟩
      (t.cpu.sqCount < 16 →
        exec (.stfe d a b) s = .next ({ t with cpu := { t.cpu with sq := t.cpu.sq ++ [SqEntry.store [(t.agentOf p.pa, w)]] } }.finish 1 [d.val, a.val, b.val])) ∧
      (t.agentOf p.pa = .bank t.cur → t.cpu.sq = [] → t.open ⟨p.pa, p.swz, none⟩ = true → t.net = [] → t.mem.fullAt (granuleOf p.swz p.pa) = false →
        exec (.stfeWait d a b) s = .next ((t.applyWrite t.cur w).finish 1 [d.val, a.val, b.val])))

/-- Stores queue the bytes they name at the address they compute; full/empty accesses wait for their bits. -/
def Obligations.Stores : Prop := Claims.StoreResults ∧ Claims.FullEmptyAccess

/-- Atomics at any scope in the core's own scratch complete in one step: the register takes the old value, zero-extended, and the operation's result of 8 or 4 bytes is written;
`cas` writes only where the old value equals its d operand (R36, R146, R147). A releasing one has nothing on its way here. -/
def Claims.AtomicResults : Prop :=
  ∀ (k : Fin 4) (d a b : Fin 64) (o : Fin 4) (z : Fin 2) (s t : State) (c y : Wreg) (p : Place), useW s d 1 = .ok () → readW s a 2 = .ok c → readW s b 3 = .ok y →
    let n := if z = 0 then 8 else 4
    access s c 2 c.lo n n (permL + permS) .wr false true = .ok (p, t) → t.agentOf p.pa = .bank t.cur → t.open p = true → t.cpu.sq = [] →
    (∀ q ∈ t.net, q.bars (.bank t.cur) p.pa p.swz n = true → q.h ≠ t.cur ∧ q.stage ≠ .agent) → t.fieldOwned (frameOf p.pa) = false → t.swLine p.pa = false → t.mem.poisoned p.swz p.pa n (ones 128 n) = none →
    (o.val < 2 ∨ (t.cpu.aset = [] ∧ ∀ q ∈ t.net, ¬(q.h = t.cur ∧ q.slot = t.slot))) →
    let old := t.mem.read p.swz p.pa n
    let v := y.lo.toNat % 2 ^ (8 * n)
    let wrote := fun r : Nat => t.applyWrite t.cur ⟨p.pa, p.swz, n, BitVec.ofNat 1024 r, ones 128 n, false, false⟩
    let does := fun (i : Instr) (r : Nat) => exec i s = .next ((wrote r).finishW 1 [a.val, b.val] d (.plain (BitVec.ofNat 64 old)))
    (does (.amoAdd d a b o z) ((old + v) % 2 ^ (8 * n)) ∧ does (.amoAddScoped k d a b o z) ((old + v) % 2 ^ (8 * n))) ∧
    (does (.amoAnd d a b o z) (old &&& v) ∧ does (.amoAndScoped k d a b o z) (old &&& v)) ∧
    (does (.amoOr d a b o z) (old ||| v) ∧ does (.amoOrScoped k d a b o z) (old ||| v)) ∧
    (does (.amoXor d a b o z) (old ^^^ v) ∧ does (.amoXorScoped k d a b o z) (old ^^^ v)) ∧
    (does (.amoMinU d a b o z) (min old v) ∧ does (.amoMinUScoped k d a b o z) (min old v)) ∧
    (does (.amoMaxU d a b o z) (max old v) ∧ does (.amoMaxUScoped k d a b o z) (max old v)) ∧
    (does (.amoSwap d a b o z) v ∧ does (.amoSwapScoped k d a b o z) v) ∧
    (∀ x, readW s d 1 = .ok x →
      let u := if old = x.lo.toNat % 2 ^ (8 * n) then wrote v else t
      let r := Host.Outcome.next (ρ := Refusal) (φ := Fault) (u.finishW 1 [d.val, a.val, b.val] d (.plain (BitVec.ofNat 64 old)))
      exec (.amoCas d a b o z) s = r ∧ exec (.amoCasScoped k d a b o z) s = r)

/-- An atomic of another agent, or of the own scratch behind something older, queues its operation in the store queue, behind its release if it has one, and parks: no register is
written and no byte of memory changes before its old value comes back (R36, R103, R141, R146, R147). -/
def Claims.AtomicQueues : Prop :=
  ∀ (k : Fin 4) (d a b : Fin 64) (o : Fin 4) (z : Fin 2) (s t : State) (c y : Wreg) (p : Place), useW s d 1 = .ok () → readW s a 2 = .ok c → readW s b 3 = .ok y →
    let n := if z = 0 then 8 else 4
    access s c 2 c.lo n n (permL + permS) .wr false true = .ok (p, t) → t.fieldOwned (frameOf p.pa) = false → t.cpu.arHeld = false → t.cpu.sqCount < 16 →
    t.performedAtOnce p n = false →
    let waits := fun (i : Instr) (op : AmoOp) (scope : Nat) (cmp : Word) (uses : List Nat) =>
      let t1 := if 2 ≤ o.val then t.release scope false else t
      exec i s = .next { t1 with cpu := { t1.cpu with
        sq := t1.cpu.sq ++ [.amo (t1.agentOf p.pa) (.amo op p.pa p.swz n y.lo cmp)]
        run := .parked .load, pend := some ⟨.word d n false, uses, 1, 0, 0, none, c.lo.toNat, 1, 0, false, none⟩ } } ∧ t1.mem = t.mem
    let both := fun (i j : Instr) (op : AmoOp) => waits i op 1 0 [a.val, b.val] ∧ waits j op (k.val + 2) 0 [a.val, b.val]
    both (.amoAdd d a b o z) (.amoAddScoped k d a b o z) .add ∧ both (.amoAnd d a b o z) (.amoAndScoped k d a b o z) .and ∧
    both (.amoOr d a b o z) (.amoOrScoped k d a b o z) .or ∧ both (.amoXor d a b o z) (.amoXorScoped k d a b o z) .xor ∧
    both (.amoMinU d a b o z) (.amoMinUScoped k d a b o z) .minU ∧ both (.amoMaxU d a b o z) (.amoMaxUScoped k d a b o z) .maxU ∧
    both (.amoSwap d a b o z) (.amoSwapScoped k d a b o z) .swap ∧
    (∀ x, readW s d 1 = .ok x → waits (.amoCas d a b o z) .cas 1 x.lo [d.val, a.val, b.val] ∧ waits (.amoCasScoped k d a b o z) .cas (k.val + 2) x.lo [d.val, a.val, b.val])

/-- Fences complete at once: an acquire changes nothing, a release leaves a marker in the store queue only when something of the context is on its way, and `fence.ar` holds
later loads. Hints never fault and complete whatever their address is; only a dropped one adds one to HDROP, which saturates (R32, R46, R148, R149). -/
def Claims.FencesAndHints : Prop :=
  ∀ (s : State) (z : Fin 8) (a : Fin 64) (i : BitVec 13) (c : Wreg),
    exec (.fenceAcq z) s = .next (s.finish 1 []) ∧
    (let quiet := s.cpu.sq = [] ∧ s.cpu.aset = [] ∧ ∀ q ∈ s.net, ¬(q.h = s.cur ∧ q.slot = s.slot)
     let marked := fun ar : Bool => ({ s with cpu := { s.cpu with sq := s.cpu.sq ++ [.fence z.val ar] } } : State).finish 1 []
     (z = 0 ∨ quiet → exec (.fenceRel z) s = .next (s.finish 1 []) ∧ exec (.fenceAr z) s = .next (s.finish 1 [])) ∧
     (z ≠ 0 → ¬quiet → exec (.fenceRel z) s = .next (marked false) ∧ exec (.fenceAr z) s = .next (marked true))) ∧
    (readW s a 2 = .ok c →
      let t := s.finish 1 [a.val]
      let dropped : State := { t with cpu := { t.cpu with hdrop := if t.cpu.hdrop.toNat = 2 ^ 32 - 1 then t.cpu.hdrop else t.cpu.hdrop + 1 } }
      let ends := fun (j : Instr) (perm : Nat) => exec j s = .next (if hintOk s s.cur s.cpu.tenant c (c.lo + i.signExtend 64) perm then t else dropped)
      ends (.pf a i) permL ∧ ends (.pfW a i) permS ∧ ends (.pfKeep a i) permL ∧ ends (.pfDrop a i) permL)

/-- Atomics of the own scratch complete with the old value, others queue their operation and wait for it; fences queue releases and hints only go on. -/
def Obligations.AtomicsAndFences : Prop := Claims.AtomicResults ∧ Claims.AtomicQueues ∧ Claims.FencesAndHints

/-- Watches: `mon` of its own scratch loads 8 bytes and arms a watch on their line, where the context has none and the core holds fewer than eight, and marks the context otherwise; `mwait` with a timeout of zero returns at once and otherwise parks with its deadline, and when it
issues again it writes the code, of stop 3, mailbox 4, failed `mon` 5, fired 0, evicted 2 and timeout 1 in this order, and releases the watches of its slot (R150-R152). -/
def Claims.WatchResults : Prop :=
  ∀ (d a b : Fin 64) (s : State) (x y : Wreg), s.cpu.stopHalted = false → useW s d 1 = .ok () → readW s a 2 = .ok x →
    (∀ p t, readW s b 3 = .ok y → access s x 2 (x.lo + y.lo) 8 8 (permL + permW) .rd false true = .ok (p, t) →
      (∃ h, regionOf p.pa = .scratch h) → Claims.ServedHere t ⟨p.pa, p.swz, 8, ones 128 8, 0, .watch⟩ →
      let line := lineOf p.swz p.pa
      let there := ∃ w ∈ t.core.watches, w.slot = t.slot ∧ w.line = line
      let ends := fun u : State => exec (.mon d a b) s = .next (u.finishW 1 [a.val, b.val] d (.plain (BitVec.ofNat 64 (t.mem.read p.swz p.pa 8))))
      (there → ends t) ∧
      (¬there → t.core.watches.length < 8 → ends { t with core := { t.core with watches := t.core.watches ++ [⟨t.slot, line, none⟩] } }) ∧
      (¬there → 8 ≤ t.core.watches.length → ends { t with cpu := { t.cpu with failedMon := true } })) ∧
    (let n := x.lo.toNat % 2 ^ 32
     let fired := fun k : Nat => ∃ w ∈ s.core.watches, w.slot = s.slot ∧ w.fired = some k
     let mail := s.cpu.mbie = true ∧ s.cpu.mbox ≠ []
     (n ≠ 0 → s.cpu.passed = none → exec (.mwait d a) s = .next (s.parkOn (.watch (s.time + n)))) ∧
     (∀ t, s.cpu.passed = some t → ¬s.cpu.stopMark → ¬mail → ¬s.cpu.failedMon → ¬fired 0 → ¬fired 2 → s.time < t → exec (.mwait d a) s = .next (s.parkOn (.watch t))) ∧
     (∀ k, s.cpu.passed ≠ none ∨ n = 0 →
       (k = if s.cpu.stopMark then 3 else if s.cpu.mbie && !s.cpu.mbox.isEmpty then 4 else if s.cpu.failedMon then 5
         else if s.core.watches.any (fun w => w.slot = s.slot && w.fired = some 0) then 0 else if s.core.watches.any (fun w => w.slot = s.slot && w.fired = some 2) then 2 else 1) →
       (k = 1 → ∀ t, s.cpu.passed = some t → t ≤ s.time) →
       ∃ u, exec (.mwait d a) s = .next u ∧ u.cpu.w = (s.finishW 1 [a.val] d (.plain (BitVec.ofNat 64 k))).cpu.w ∧
         u.cpu.pc = (s.finishW 1 [a.val] d (.plain (BitVec.ofNat 64 k))).cpu.pc ∧ u.cpu.stopMark = false ∧ u.cpu.failedMon = false ∧
         u.core.watches = s.core.watches.filter (fun w => w.slot ≠ s.slot) ∧ u.mem = s.mem))

/-- Gang barriers and votes: without a gang they complete at once, a vote with its own operand; in a gang the first issue parks, the control context's arrival following a release;
an instance that has completed gives its value and the context goes on (R154, R155). -/
def Claims.BarrierResults : Prop :=
  ∀ (z : Fin 8) (d a : Fin 64) (s : State) (x : Wreg), useW s d 1 = .ok () → readW s a 2 = .ok x →
    let votes := fun P : Instr → Nat → Prop => P (.gvoteAnd d a z) 1 ∧ P (.gvoteOr d a z) 2 ∧ P (.gvoteMinU d a z) 3 ∧ P (.gvoteMaxU d a z) 4 ∧ P (.gvoteAdd d a z) 5
    (s.cpu.gbar = none → s.cpu.passed = none → s.core.gang = none →
      let r := fun t : State => { t with cpu := { t.cpu with run := .ready } }
      exec (.gbar z) s = .next (r ((s.finish 1 []).release z.val false)) ∧
      votes fun i _ => exec i s = .next (r ((s.finishW 1 [a.val] d (.plain x.lo)).release z.val false))) ∧
    (∀ v, s.cpu.gbar = some v →
      let r := fun t : State => { t with cpu := { t.cpu with gbar := none } }
      exec (.gbar z) s = .next (r (s.finish 1 [])) ∧ votes fun i _ => exec i s = .next (r (s.finishW 1 [a.val] d (.plain v)))) ∧
    (∀ g, s.cpu.gbar = none → s.cpu.passed = none → s.core.gang = some g → s.slot = 0 →
      let r := fun vote => let t := s.release z.val false; ({ t with cpu := { t.cpu with sq := t.cpu.sq ++ [.barrier vote] } } : State).parkOn .barrier
      exec (.gbar z) s = .next (r none) ∧ votes fun i k => exec i s = .next (r (some (k, x.lo))))

/-- mon arms a watch, mwait waits for it, and gang barriers queue an arrival and wait. -/
def Obligations.WatchesAndBarriers : Prop := Claims.WatchResults ∧ Claims.BarrierResults

/-- Names and awaiting bits: `rcap` makes a register-name capability with N, G and D (and SC for `rcap.c`) of registers a to a + b, without reading them; `rcap.x` seals one for a
tenant in a privileged context; `rarm` and `rdis` set and clear exactly the awaiting bits of their range, `rarm` refusing a bound register; `rstat` reads them (R159, R161, R163, R246). -/
def Claims.RegisterNames : Prop :=
  ∀ (d a b : Fin 64) (c : Fin 4) (s : State), c.val < 3 → a.val + b.val < 64 →
    (let names := fun (i : Instr) (cls : Nat) (sc : Bool) => useW s d 1 = .ok () → s.mdl.devno.toNat < 6144 → ∃ n : Wreg,
        exec i s = .next (s.finishW 1 [] d n) ∧ n.tag = true ∧ capKind n = 1 ∧ capOkind n = 0 ∧
        capPerm n = permN + permG + permD + (if sc then permSC else 0) ∧ bits n.bits 84 6 = b.val ∧ bits n.bits 90 6 = s.cpu.tenant % 64 ∧
        bits n.bits 56 8 = s.cpu.gen.toNat ∧
        bits n.bits 0 56 = s.mdl.devno.toNat * 2 ^ 43 + 0x20000000000 + s.cpu.ident.toNat * 2 ^ 17 + cls * 2 ^ 13 + a.val * 2 ^ 7
     names (.rcap d a b c) c.val false ∧ names (.rcapC d a b) 0 true) ∧
    (let t := s.finish 1 []
     let inRange := fun r => a.val ≤ r ∧ r ≤ a.val + b.val
     let changes := fun (i : Instr) (v : Bool) => ∃ x : Ctx, exec i s = .next { t with cpu := x } ∧
       { x with awW := t.cpu.awW, awV := t.cpu.awV, awP := t.cpu.awP } = t.cpu ∧
       (∀ cls r, cls < 3 → r < (if cls = 0 then 64 else if cls = 1 then 32 else 8) →
         x.awaits cls r = if cls = c.val ∧ inRange r then v else t.cpu.awaits cls r)
     ((∀ r, inRange r → s.cpu.boundIn c.val r = false) → changes (.rarm a b c) true) ∧
     ((∃ r, inRange r ∧ s.cpu.boundIn c.val r = true) → exec (.rarm a b c) s = .next (s.takeTrap ⟨0x12, 0, 0x63, false, false⟩)) ∧
     changes (.rdis a b c) false) ∧
    (useW s d 1 = .ok () → exec (.rstat d c) s =
      .next (s.finishW 1 [] d (.plain (if c = 0 then s.cpu.awW else if c = 1 then s.cpu.awV.setWidth 64 else s.cpu.awP.setWidth 64)))) ∧
    (∀ x, s.cpu.prv = true → useW s d 1 = .ok () → readW s a 2 = .ok x → x.tag = true → capMalformed x = false → capKind x = 1 → capHas x permN = true →
      mayAppend s d (grantOf x b.val) = .ok () → exec (.rcapX d a b) s = .next (s.finishW 1 [a.val] d (grantOf x b.val)) ∧
        capKind (grantOf x b.val) = 3 ∧ capOkind (grantOf x b.val) = 1 ∧ (grantOf x b.val).bits.getLsbD 96 = true ∧ bits (grantOf x b.val).bits 97 6 = b.val)

/-- `rput` through a name that covers its offset and has its class sends one value, with its source's tag only for a w register, takes one credit and one sequence number, and
completes; without a free credit it parks, and with an offset beyond the name it takes the bounds fault, for a device without a route the protection fault. A release from `.cl` on stands
before the value in the store queue; one at `.ctx` needs nothing (R31, R42, R162, R165, R259, R409). -/
def Claims.RegisterSends : Prop :=
  ∀ (d a b : Fin 64) (o : Fin 8) (c : Fin 4) (s : State) (x n : Wreg) (v : BitVec 1024) (tag g : Bool), readW s a 2 = .ok x → rputSource s c.val b = .ok (v, tag, g) →
    (rputName s x c.val d.val tag g = .ok n → 8 ≤ s.cpu.credits → exec (.rput d a b o c) s = .next (s.parkOn .credit)) ∧
    (rputName s x c.val d.val tag g = .ok n → s.cpu.credits < 8 → ∃ t r, exec (.rput d a b o c) s = .next t ∧
      r.faddr = bits n.bits 0 56 + 128 * d.val ∧ r.gen.toNat = bits n.bits 56 8 ∧ r.sender = s.cpu.ident ∧ r.sgen = s.cpu.gen ∧ r.seq = s.cpu.seqs[0] ∧
      r.value = v ∧ r.tag = tag ∧ r.atPort = none ∧
      t.cpu.credits = s.cpu.credits + 1 ∧ t.cpu.seqs = s.cpu.seqs.set 0 (s.cpu.seqs[0] + 1) ∧
      (o.val ≤ 1 → (∀ e ∈ s.cpu.sq, ∀ q, e ≠ .rput q) → t.arrivals = s.arrivals ++ [r] ∧ t.cpu.sq = s.cpu.sq) ∧
      (2 ≤ o.val → s.cpu.sq ≠ [] → t.arrivals = s.arrivals ∧ t.cpu.sq = s.cpu.sq ++ [.fence (o.val - 1) false, .rput r]) ∧ t.mem = s.mem) ∧
    (x.tag = true → capMalformed x = false → capKind x = 1 → capHas x permN = true →
      (bits x.bits 84 6 < d.val → exec (.rput d a b o c) s = .next (s.takeTrap ⟨0x04, 2, x.lo, false, false⟩)) ∧
      (d.val ≤ bits x.bits 84 6 → bits x.bits 13 4 = c.val → tag = false → s.routed (bits x.bits 43 13) = false →
        exec (.rput d a b o c) s = .next (s.takeTrap ⟨0x09, 2, x.lo, false, false⟩)))

/-- The arrival path: an arrival for a resident context of its name's generation takes a place in the core's port; applied there it writes an awaiting register and clears the
bit, and otherwise records the overwrite of R110 and is refused with 0x20; a stale generation is refused with 0x21, and an arrival whose refusal could not be posted behind an earlier one
stays; the credit comes back. Privileged stores move a location entry between saved and cold: the units of the image are encrypted under the tenant's key, and memory stays (R164-R171, R260,
R382, R407; the units and their order are log 40). -/
def Claims.ArrivalSteps : Prop :=
  ∀ (s : State) (k : Nat),
    (∀ a, s.arrivals[k]? = some a → a.atPort = none → s.arrivalAhead k a = false → a.faddr / 2 ^ 43 = s.mdl.devno.toNat →
      let l := s.loc a.ident
      (l.state = .resident → l.gen = a.gen → a.sten0 = a.ten → (s.arrivals.filter fun b => b.atPort.map (·.1) = some l.hidx.toNat).length < 32 →
        exec (.fabArrivalResolve k) s = .next { s with arrivals := listSet s.arrivals k { a with atPort := some (l.hidx.toNat, l.slot.toNat) } }) ∧
      (l.gen ≠ a.gen → s.mayPost a.sender a.sgen 0 = false → exec (.fabArrivalResolve k) s = .next s) ∧
      (l.gen ≠ a.gen → s.mayPost a.sender a.sgen 0 = true → ∃ m, m = message 2 0 0x12 0x21 0 a.seq.toNat 0 (a.faddr + a.gen.toNat * 2 ^ 56) ∧
        exec (.fabArrivalResolve k) s =
          .next (({ s with arrivals := listDrop s.arrivals k, creditsDue := s.creditsDue ++ [(a.sender, a.sgen)] } : State).post a.sender a.sgen m))) ∧
    (∀ a h slot, s.arrivals[k]? = some a → a.atPort = some (h, slot) → s.arrivalAhead k a = false →
      (s.loc a.ident).state = .resident → (s.loc a.ident).gen = a.gen → (s.loc a.ident).hidx.toNat = h → (s.loc a.ident).slot.toNat = slot →
      (∀ w, (s.ctx h slot).run ≠ .halted .stop w) →
      let c := s.ctx h slot
      let gone := fun t : State => { t with arrivals := listDrop t.arrivals k, creditsDue := t.creditsDue ++ [(a.sender, a.sgen)] }
      (a.cls = 0 → c.awW.getLsbD a.reg = true → ∃ u, exec (.arrivalApply k) s = .next (gone (s.setCtx h slot u)) ∧
        u.w = c.w.setIfInBounds a.reg ⟨a.value.setWidth 128, a.tag⟩ ∧ (∀ i, i < 64 → u.awW.getLsbD i = (c.awW.getLsbD i && i != a.reg)) ∧
        { u with w := c.w, awW := c.awW } = c) ∧
      (a.cls = 0 → c.awW.getLsbD a.reg = false → c.boundW a.reg = none → c.povr = none → s.mayPost a.sender a.sgen 0 = true →
        exec (.arrivalApply k) s = .next ((gone (s.setCtx h slot { c with povr := some a.overwrite })).post a.sender a.sgen
          (message 2 0 0x0D 0x20 0 a.seq.toNat 0 (a.faddr + a.gen.toNat * 2 ^ 56))))) ∧
    (∀ id g h slot, s.creditsDue[k]? = some (id, g) → s.heldAt id = some (h, slot) → (s.loc id).gen = g →
      exec (.arrivalCreditReturn k) s = .next (({ s with creditsDue := listDrop s.creditsDue k } : State).setCtx h slot
        { s.ctx h slot with credits := (s.ctx h slot).credits - 1 })) ∧
    (let i := BitVec.ofNat 20 k
     let l := s.loc i
     ((s.loc i).state = .saved → ∃ u : State, exec (.locationSavedToCold k) s = .next u ∧ u.loc i = { l with state := .cold } ∧ u.mem = s.mem ∧ u.cpu = s.cpu ∧
       Tab.get [] u.mdl.cold i.toNat = (List.range (s.imageUnits i + 1)).map fun n =>
         xtsUnit false (s.mdl.key l.ten.toNat).key (i.toNat + n * 2 ^ 32) (s.mem.imageUnit (s.imagePa l) (s.imageUnits i) n)) ∧
     ((s.loc i).state = .cold → ∃ u : State, exec (.locationColdToSaved k) s = .next u ∧ u.loc i = { l with state := .saved } ∧ u.cpu = s.cpu ∧
       (Tab.get [] s.mdl.cold i.toNat = [] → u.mem = s.mem)))

/-- Registers are named, awaited and written through the register fabric, once each. -/
def Obligations.RegisterFabric : Prop := Claims.RegisterNames ∧ Claims.RegisterSends ∧ Claims.ArrivalSteps

/-- The integer operations on elements of 32 and 16 bits: each enabled element takes the wrapped result of its own source elements or of the constant, shifts by the width or
more give zero or the sign, disabled elements keep their value, and no flag changes (R178, R180, R185). -/
def Claims.VectorIntegerResults : Prop :=
  ∀ (d a : Fin 64) (b : BOp) (g : Fin 8) (s : State) (p : Word) (v : BitVec 1024), governing s g = .ok p → useV s d 1 = .ok () → readV s a 2 = .ok v →
    let lanes := fun (w : Nat) (i : Instr) (f : BitVec w → BitVec w → BitVec w) => ∀ u t, operandB s b w = .ok (u, t) →
      ∃ r, exec i s = .next (t.finishV (bLen b) (vId a.val :: bVUses b) d r) ∧ ∀ j, j < 1024 / w → r.extractLsb' (w * j) w =
        if lane w p j then f (v.extractLsb' (w * j) w) (BitVec.ofNat w (u j)) else (oldV s d).extractLsb' (w * j) w
    lanes 32 (.vaddW d a b g) (fun x y => x + y) ∧ lanes 16 (.vaddH d a b g) (fun x y => x + y) ∧
    lanes 32 (.vsubW d a b g) (fun x y => x - y) ∧ lanes 16 (.vsubH d a b g) (fun x y => x - y) ∧
    lanes 32 (.vmulW d a b g) (fun x y => x * y) ∧ lanes 16 (.vmulH d a b g) (fun x y => x * y) ∧
    lanes 32 (.vminW d a b g) (fun x y => if x.slt y then x else y) ∧ lanes 16 (.vminH d a b g) (fun x y => if x.slt y then x else y) ∧
    lanes 32 (.vmaxW d a b g) (fun x y => if x.slt y then y else x) ∧ lanes 16 (.vmaxH d a b g) (fun x y => if x.slt y then y else x) ∧
    lanes 32 (.vminUW d a b g) (fun x y => if x.ult y then x else y) ∧ lanes 16 (.vminUH d a b g) (fun x y => if x.ult y then x else y) ∧
    lanes 32 (.vmaxUW d a b g) (fun x y => if x.ult y then y else x) ∧ lanes 16 (.vmaxUH d a b g) (fun x y => if x.ult y then y else x) ∧
    lanes 32 (.vandW d a b g) (fun x y => x &&& y) ∧ lanes 16 (.vandH d a b g) (fun x y => x &&& y) ∧
    lanes 32 (.vorW d a b g) (fun x y => x ||| y) ∧ lanes 16 (.vorH d a b g) (fun x y => x ||| y) ∧
    lanes 32 (.vxorW d a b g) (fun x y => x ^^^ y) ∧ lanes 16 (.vxorH d a b g) (fun x y => x ^^^ y) ∧
    lanes 32 (.vshlW d a b g) (fun x y => x <<< y.toNat) ∧ lanes 16 (.vshlH d a b g) (fun x y => x <<< y.toNat) ∧
    lanes 32 (.vshrW d a b g) (fun x y => x >>> y.toNat) ∧ lanes 16 (.vshrH d a b g) (fun x y => x >>> y.toNat) ∧
    lanes 32 (.vsraW d a b g) (fun x y => x.sshiftRight y.toNat) ∧ lanes 16 (.vsraH d a b g) (fun x y => x.sshiftRight y.toNat)

/-- The integer compares write every predicate bit: the bits of an enabled element say whether the condition holds of its source elements, and those of a disabled one are
zero (R177, R178, R186). -/
def Claims.VectorIntegerCompares : Prop :=
  ∀ (d a : Fin 64) (b : BOp) (g : Fin 8) (s : State) (p : Word) (v : BitVec 1024), governing s g = .ok p → useP s d.val = .ok () → readV s a 2 = .ok v →
    let tests := fun (w : Nat) (i : Instr) (f : BitVec w → BitVec w → Bool) => ∀ u t, operandB s b w = .ok (u, t) →
      let e := t.finish (bLen b) (vId a.val :: bVUses b)
      ∃ q : Word, exec i s = .next { e with cpu := { e.cpu with p := e.cpu.p.setIfInBounds d.val q } } ∧ ∀ k, k < 64 →
        q.getLsbD k = (lane w p (16 * k / w) && f (v.extractLsb' (w * (16 * k / w)) w) (BitVec.ofNat w (u (16 * k / w))))
    tests 32 (.vcmpEqW d a b g) (fun x y => x == y) ∧ tests 16 (.vcmpEqH d a b g) (fun x y => x == y) ∧
    tests 32 (.vcmpNeW d a b g) (fun x y => x != y) ∧ tests 16 (.vcmpNeH d a b g) (fun x y => x != y) ∧
    tests 32 (.vcmpLtW d a b g) (fun x y => x.slt y) ∧ tests 16 (.vcmpLtH d a b g) (fun x y => x.slt y) ∧
    tests 32 (.vcmpLeW d a b g) (fun x y => !y.slt x) ∧ tests 16 (.vcmpLeH d a b g) (fun x y => !y.slt x) ∧
    tests 32 (.vcmpLtUW d a b g) (fun x y => x.ult y) ∧ tests 16 (.vcmpLtUH d a b g) (fun x y => x.ult y) ∧
    tests 32 (.vcmpLeUW d a b g) (fun x y => !y.ult x) ∧ tests 16 (.vcmpLeUH d a b g) (fun x y => !y.ult x)

/-- Vector integer operations and comparisons write the lanes that the predicate enables. -/
def Obligations.VectorIntegers : Prop := Claims.VectorIntegerResults ∧ Claims.VectorIntegerCompares

/-- The floating-point operations of types f32, f16 and bf16 complete element by element: each enabled element takes the rounded result and its flags join st, in the rounding of a
pending prefix; disabled elements keep their value and raise no flag; a fused operation reads its destination (R74, R178, R181-R183). -/
def Claims.VectorFloatResults : Prop :=
  ∀ (ty : Fin 4) (d a t1 : Fin 64) (b : BOp) (g : Fin 8) (s : State) (p : Word) (v : BitVec 1024), ty.val < 3 → t1.val = ty.val →
    governing s g = .ok p → useV s d 1 = .ok () → readV s a 2 = .ok v →
    let f := fpType ty.val
    let w := f.width
    let x := fun j => bits v (w * j) w
    let elems := fun (i : Instr) (t : State) (n : Nat) (uses : List Nat) (e : Nat → Nat × Sticky) => ∃ r, exec i s =
        .next (({ t with cpu := t.cpu.setSticky (((List.range (1024 / w)).filter (lane w p)).foldl (fun fl j => fl.join (e j).2) {}) } : State).finishV n uses d r) ∧
      ∀ j, j < 1024 / w → r.extractLsb' (w * j) w = if lane w p j then BitVec.ofNat w (e j).1 else (oldV s d).extractLsb' (w * j) w
    (∀ y t, operandB s b w = .ok (y, t) →
      let two := fun (i : Instr) (h : Nat → Nat → Nat × Sticky) => elems i t (bLen b) (vId a.val :: bVUses b) fun j => h (x j) (y j)
      two (.vaddF ty d a b g) (f.add s.cpu.rnd) ∧ two (.vsubF ty d a b g) (f.sub s.cpu.rnd) ∧ two (.vmulF ty d a b g) (f.mul s.cpu.rnd) ∧
      two (.vminF ty d a b g) (f.minmax false) ∧ two (.vmaxF ty d a b g) (f.minmax true) ∧
      (∀ z, readV s d 1 = .ok z →
        let three := fun (i : Instr) (minus : Bool) => elems i t (bLen b) (vId d.val :: vId a.val :: bVUses b) fun j => f.fma s.cpu.rnd minus (bits z (w * j) w) (x j) (y j)
        three (.vfma ty d a b g) false ∧ three (.vfms ty d a b g) true)) ∧
    (let one := fun (i : Instr) (h : Nat → Nat × Sticky) => elems i s 1 [vId a.val] fun j => h (x j)
     one (.vabs d a t1 g) (fun y => (y % 2 ^ (w - 1), {})) ∧ one (.vneg d a t1 g) (fun y => (if y < 2 ^ (w - 1) then y + 2 ^ (w - 1) else y - 2 ^ (w - 1), {})) ∧
     one (.vexp2 d a t1 g) (f.exp2 s.cpu.rnd) ∧ one (.vrcp d a t1 g) (f.rcp s.cpu.rnd) ∧ one (.vrsq d a t1 g) (f.rsq s.cpu.rnd))

/-- The floating-point compares write every predicate bit, with the flags of the enabled elements (R178, R184). -/
def Claims.VectorFloatCompares : Prop :=
  ∀ (ty : Fin 4) (d a : Fin 64) (b : BOp) (g : Fin 8) (s t : State) (p : Word) (v : BitVec 1024) (y : Nat → Nat), ty.val < 3 →
    let f := fpType ty.val
    let w := f.width
    governing s g = .ok p → useP s d.val = .ok () → readV s a 2 = .ok v → operandB s b w = .ok (y, t) →
    let tests := fun (i : Instr) (c : FpCond) =>
      let h := fun j => f.compare c (bits v (w * j) w) (y j)
      let fl := ((List.range (1024 / w)).filter (lane w p)).foldl (fun fl j => fl.join (h j).2) ({} : Sticky)
      let e := ({ t with cpu := t.cpu.setSticky fl } : State).finish (bLen b) (vId a.val :: bVUses b)
      ∃ q : Word, exec i s = .next { e with cpu := { e.cpu with p := e.cpu.p.setIfInBounds d.val q } } ∧
        ∀ k, k < 64 → q.getLsbD k = (lane w p (16 * k / w) && (h (16 * k / w)).1)
    tests (.vcmpEqF ty d a b g) .eq ∧ tests (.vcmpNeF ty d a b g) .ne ∧ tests (.vcmpLtF ty d a b g) .lt ∧ tests (.vcmpLeF ty d a b g) .le ∧ tests (.vcmpUnF ty d a b g) .un

/-- Vector floating-point operations and comparisons write rounded lanes and sticky flags. -/
def Obligations.VectorFloats : Prop := Claims.VectorFloatResults ∧ Claims.VectorFloatCompares

/-- Selects, moves, permutes, broadcasts and extracts copy elements whatever they hold: a select takes each element from one of two sources, a permute from the place that its index
element gives modulo the number of elements, with the source read before the destination is written, and disabled elements stay (R178, R187, R188). -/
def Claims.VectorMoves : Prop :=
  ∀ (d a b : Fin 64) (g : Fin 8) (s : State),
    let gives := fun (w n : Nat) (i : Instr) (uses : List Nat) (e : Nat → BitVec w) => ∃ r, exec i s = .next (s.finishV n uses d r) ∧
      ∀ j, j < 1024 / w → r.extractLsb' (w * j) w = e j
    (∀ p x y, readP s g.val = .ok p → useV s d 1 = .ok () → readV s a 2 = .ok x → readV s b 3 = .ok y →
      let pick := fun (w : Nat) (j : Nat) => if lane w p j then x.extractLsb' (w * j) w else y.extractLsb' (w * j) w
      gives 32 1 (.vselW d a b g) [vId a.val, vId b.val] (pick 32) ∧ gives 16 1 (.vselH d a b g) [vId a.val, vId b.val] (pick 16)) ∧
    (∀ p x, governing s g = .ok p → useV s d 1 = .ok () → readV s a 2 = .ok x →
      let keep := fun (w : Nat) (e : Nat → BitVec w) (j : Nat) => if lane w p j then e j else (oldV s d).extractLsb' (w * j) w
      gives 16 1 (.vmov d a g) [vId a.val] (keep 16 fun j => x.extractLsb' (16 * j) 16) ∧
      (∀ y, readV s b 3 = .ok y →
        let from' := fun (w : Nat) (j : Nat) => x.extractLsb' (w * ((y.extractLsb' (w * j) w).toNat % (1024 / w))) w
        gives 32 1 (.vpermW d a b g) [vId a.val, vId b.val] (keep 32 (from' 32)) ∧ gives 16 1 (.vpermH d a b g) [vId a.val, vId b.val] (keep 16 (from' 16)))) ∧
    (∀ p x, governing s g = .ok p → useV s d 1 = .ok () → readW s a 2 = .ok x →
      let keep := fun (w : Nat) (e : BitVec w) (j : Nat) => if lane w p j then e else (oldV s d).extractLsb' (w * j) w
      gives 32 1 (.vbcstW d a g) [a.val] (keep 32 (x.lo.setWidth 32)) ∧ gives 16 1 (.vbcstH d a g) [a.val] (keep 16 (x.lo.setWidth 16))) ∧
    (∀ x i, useW s d 1 = .ok () → readV s a 2 = .ok x → readW s b 3 = .ok i →
      exec (.vextW d a b) s = .next (s.finishW 1 [vId a.val, b.val] d (.plain ((x.extractLsb' (32 * (i.lo.toNat % 32)) 32).setWidth 64))) ∧
      exec (.vextH d a b) s = .next (s.finishW 1 [vId a.val, b.val] d (.plain ((x.extractLsb' (16 * (i.lo.toNat % 64)) 16).setWidth 64))))

/-- Predicate logic, loop masks and moves between predicates and w registers: `pwhile` enables the first elements of a count (R192). -/
def Claims.PredicateResults : Prop :=
  ∀ (d a b : Fin 64) (s : State),
    let sets := fun (i : Instr) (t : State) (q : Word) => exec i s = .next { t with cpu := { t.cpu with p := t.cpu.p.setIfInBounds d.val q } }
    (∀ x y, useP s d.val = .ok () → readP s a.val = .ok x → readP s b.val = .ok y →
      sets (.pand d a b) (s.finish 1 []) (x &&& y) ∧ sets (.por d a b) (s.finish 1 []) (x ||| y) ∧ sets (.pxor d a b) (s.finish 1 []) (x ^^^ y) ∧
      sets (.pandn d a b) (s.finish 1 []) (x &&& ~~~y)) ∧
    (∀ x, useP s d.val = .ok () → readW s a 2 = .ok x → sets (.pmov d a) (s.finish 1 [a.val]) x.lo ∧
      (∃ q, sets (.pwhileH d a) (s.finish 1 [a.val]) q ∧ ∀ k, k < 64 → q.getLsbD k = decide (k < x.lo.toNat)) ∧
      (∃ q, sets (.pwhileW d a) (s.finish 1 [a.val]) q ∧ ∀ k, k < 64 → q.getLsbD k = decide (k / 2 < x.lo.toNat))) ∧
    (∀ x, useW s d 1 = .ok () → readP s a.val = .ok x → exec (.pget d a) s = .next (s.finishW 1 [] d (.plain x)))

/-- Vector moves, permutations and predicate operations write their lanes and bits. -/
def Obligations.VectorMoves : Prop := Claims.VectorMoves ∧ Claims.PredicateResults

/-- Conversions complete: between FP32 and FP16 or BF16 in one half of a register, between FP32 and integers, and between FP32 and the narrow format of the prefix in one quarter, with block
scales of w[b] where the format has them; enabled elements are converted once and their flags join st, the others and the rest of the register stay (R59, R178, R189, R190). -/
def Claims.VectorConversions : Prop :=
  ∀ (d a b h : Fin 64) (g : Fin 8) (q : Fin 4) (s : State) (p : Word) (x : BitVec 1024), h.val < 2 → governing s g = .ok p → useV s d 1 = .ok () → readV s a 2 = .ok x →
    let wide := fun j => f32.decode (bits x (32 * j) 32)
    let flagged := fun e : Nat → Nat × Sticky => s.flag (((List.range 32).filter (lane 32 p)).foldl (fun fl j => fl.join (e j).2) {})
    let each := fun (r : BitVec 1024) (e : Nat → Nat × Sticky) => ∀ j, j < 32 →
      r.extractLsb' (32 * j) 32 = if lane 32 p j then BitVec.ofNat 32 (e j).1 else (oldV s d).extractLsb' (32 * j) 32
    let part := fun (w k : Nat) (r : BitVec 1024) (e : Nat → Nat × Sticky) => ∀ j, j < 1024 / w →
      r.extractLsb' (w * j) w = if j / 32 = k ∧ lane 32 p (j % 32) = true then BitVec.ofNat w (e (j % 32)).1 else (oldV s d).extractLsb' (w * j) w
    let down := fun (f : FpFmt) (j : Nat) => f.convert s.cpu.rnd (wide j)
    let up := fun (f : FpFmt) (j : Nat) => f32.convert .rne (f.decode (bits x (16 * (32 * h.val + j)) 16))
    let int := fun j : Nat => (x.extractLsb' (32 * j) 32).toInt
    (∃ r, exec (.vcvtF16F32 d a h g) s = .next ((flagged (down f16)).finishV 1 [vId a.val] d r) ∧ part 16 h.val r (down f16)) ∧
    (∃ r, exec (.vcvtBf16F32 d a h g) s = .next ((flagged (down bf16)).finishV 1 [vId a.val] d r) ∧ part 16 h.val r (down bf16)) ∧
    (∃ r, exec (.vcvtF32F16 d a h g) s = .next ((flagged (up f16)).finishV 1 [vId a.val] d r) ∧ each r (up f16)) ∧
    (∃ r, exec (.vcvtF32Bf16 d a h g) s = .next ((flagged (up bf16)).finishV 1 [vId a.val] d r) ∧ each r (up bf16)) ∧
    (∃ r, exec (.vcvtWF32 d a g) s = .next ((flagged fun j => toInt32 s.cpu.rnd (wide j)).finishV 1 [vId a.val] d r) ∧ each r fun j => toInt32 s.cpu.rnd (wide j)) ∧
    (∃ r, exec (.vcvtF32W d a g) s = .next ((flagged fun j => f32.ofFin s.cpu.rnd (decide (int j < 0)) (int j).natAbs 0).finishV 1 [vId a.val] d r) ∧
      each r fun j => f32.ofFin s.cpu.rnd (decide (int j < 0)) (int j).natAbs 0) ∧
    (let fm := s.cpu.fmOf 6
     let block := fun j : Nat => if fmBsm fm = 2 then j / 16 else 0
     let scale := fun k : Nat => if fmBsm fm = 0 then 127 else blockScale fm (((List.range 32).filter fun j => block j = k && lane 32 p j).map wide)
     let code := fun j : Nat => fmConvert fm s.cpu.ncl s.cpu.rnd (scale (block j)) (wide j)
     (fmBsm fm = 0 → ∃ r, exec (.vcvtN d a b g q) s = .next ((flagged code).finishV 1 [vId a.val] d r) ∧ part 8 q.val r code) ∧
     (fmBsm fm ≠ 0 → useW s b 3 = .ok () → ∃ r, exec (.vcvtN d a b g q) s = .next ((flagged code).onCpu fun c => (((c.popAll [vId a.val]).writeW b
       (.plain (BitVec.ofNat 64 (if fmBsm fm = 2 then scale 0 + 256 * scale 1 else scale 0)))).writeV d r).advance 1) ∧ part 8 q.val r code)) ∧
    (let fm := s.cpu.fmOf 0
     let value := fun (sc : Nat → Nat) (j : Nat) => match fmDecode fm (bits x (8 * (32 * q.val + j)) 8) with
       | .fin n m e => if sc j = 255 then (f32.nan, ({} : Sticky)) else f32.ofFin s.cpu.rnd n m (e + sc j - 127)
       | _ => (f32.nan, ({} : Sticky))
     (fmBsm fm = 0 → ∃ r, exec (.vcvtNf d a b g q) s = .next ((flagged (value fun _ => 127)).finishV 1 [vId a.val] d r) ∧ each r (value fun _ => 127)) ∧
     (∀ y, fmBsm fm ≠ 0 → readW s b 3 = .ok y →
       let sc := fun j : Nat => bits y.bits (if fmBsm fm = 2 then 8 * (j / 16) else 0) 8
       ∃ r, exec (.vcvtNf d a b g q) s = .next ((flagged (value sc)).finishV 1 [vId a.val, b.val] d r) ∧ each r (value sc))) ∧
    (∀ fm l, l.any Fp.isNan = true → blockScale fm l = 255) ∧ (∀ fm, blockScale fm [] = 127)

/-- Reductions complete: the elements are combined in the fixed tree of halves, disabled ones as the identity, one element is written to a w register and the flags of the nodes join st; the
integer sum is the wrapped sum of the enabled elements (R78, R191). -/
def Claims.VectorReductions : Prop :=
  ∀ (d a : Fin 64) (g : Fin 8) (s : State) (p : Word) (x : BitVec 1024), governing s g = .ok p → useW s d 1 = .ok () → readV s a 2 = .ok x →
    let gives := fun (v : Nat) (fl : Sticky) => (s.flag fl).finishW 1 [vId a.val] d (.plain (BitVec.ofNat 64 v))
    let tree := fun (w : Nat) (enter : Nat → Nat × Sticky) (ident : Nat) (f : Nat → Nat → Nat × Sticky) =>
      (treeReduce f 6 ((List.range (1024 / w)).map fun j => if lane w p j then enter (bits x (w * j) w) else (ident, ({} : Sticky)))).headD (0, {})
    let sum32 := tree 32 (fun e => (e, {})) (f32.zero true) (f32.add s.cpu.rnd)
    let max32 := tree 32 (fun e => (e, {})) (f32.inf true) (f32.minmax true)
    let min32 := tree 32 (fun e => (e, {})) (f32.inf false) (f32.minmax false)
    let sum16 := fun f : FpFmt => tree 16 (fun e => f32.convert .rne (f.decode e)) (f32.zero true) (f32.add s.cpu.rnd)
    let out16 := fun f : FpFmt => f.convert s.cpu.rnd (f32.decode (sum16 f).1)
    exec (.vredSumW d a g) s = .next (s.finishW 1 [vId a.val] d (.plain (BitVec.ofNat 64 ((((List.range 32).filter (lane 32 p)).map fun j => bits x (32 * j) 32).sum % 2 ^ 32)))) ∧
    exec (.vredSumF32 d a g) s = .next (gives sum32.1 sum32.2) ∧ exec (.vredMaxF32 d a g) s = .next (gives max32.1 max32.2) ∧
    exec (.vredMinF32 d a g) s = .next (gives min32.1 min32.2) ∧
    exec (.vredSumF16 d a g) s = .next (gives (out16 f16).1 ((sum16 f16).2.join (out16 f16).2)) ∧
    exec (.vredSumBf16 d a g) s = .next (gives (out16 bf16).1 ((sum16 bf16).2.join (out16 bf16).2))

/-- Vector conversions and reductions write their results. -/
def Obligations.VectorConversions : Prop := Claims.VectorConversions ∧ Claims.VectorReductions

/-- Vector memory: a load that its own core's scratch serves in one read writes the enabled bytes and keeps the others, a broadcast load writes its element to every enabled
element, and a store queues the bytes of its enabled elements; with nothing enabled a load, a broadcast and a store complete and access nothing (R178, R193, R194). -/
def Obligations.VectorMemory : Prop :=
  ∀ (d a : Fin 64) (b : BOp) (g : Fin 8) (s u : State) (p j : Word) (c : Wreg), governing s g = .ok p → readW s a 2 = .ok c → indexB s b = .ok (j, u) →
    let uses := a.val :: bUses b
    let ea := c.lo + j
    let served := fun (t : State) (r : ReadOp) => r.n ≤ 128 ∧ r.kind = .plain ∧ Claims.ServedHere t r
    let early := fun perm : Nat => ∀ k, b = .konst k → checkCap c 2 c.lo perm = .ok ()
    (∀ lo hi l t r, useV s d 1 = .ok () → early permL → maskEnds (laneBytes p) = some (lo, hi) → vParts u c ea 16 permL .rd (laneBytes p) lo hi = .ok (l, t) →
      joinOwn t (readsOf t l) = [(.bank t.cur, r)] → served t r →
      ∃ v, exec (.vld d a b g) s = .next (t.finishV (bLen b) uses d v) ∧
        ∀ i, i < 128 → v.extractLsb' (8 * i) 8 = if (laneBytes p).getLsbD i then (if r.off ≤ i ∧ i < r.off + r.n then t.mem.byte (locate r.swz (r.pa + (i - r.off))) else 0)
          else (oldV t d).extractLsb' (8 * i) 8) ∧
    (∀ w i, (w = 32 ∧ i = Instr.vldBcW d a b g ∨ w = 16 ∧ i = Instr.vldBcH d a b g) → ∀ l t r, useV s d 1 = .ok () → early permL → elemBytes w p ≠ 0 →
      vParts u c ea (w / 8) permL .rd (ones 128 (w / 8)) 0 (w / 8 - 1) = .ok (l, t) → joinOwn t (readsOf t l) = [(.bank t.cur, r)] → r.off = 0 → served t r →
      ∃ v, exec i s = .next (t.finishV (bLen b) uses d v) ∧
        ∀ k, k < 1024 / w → v.extractLsb' (w * k) w = if lane w p k then BitVec.ofNat w (t.mem.read r.swz r.pa r.n) else (oldV t d).extractLsb' (w * k) w) ∧
    (∀ x lo hi l t, readV s d 1 = .ok x → early permS → maskEnds (laneBytes p) = some (lo, hi) →
      vParts u c ea 16 permS .wr (laneBytes p) lo hi = .ok (l, t) → partsOwned t ea l = .ok () → t.cpu.sqCount < 16 →
      exec (.vst d a b g) s = .next (({ t with cpu := { t.cpu with sq := t.cpu.sq ++ [.store (writesOf t x l)] } } : State).finish (bLen b) (vId d.val :: uses))) ∧
    (∀ x, readV s d 1 = .ok x → laneBytes p = 0 → exec (.vst d a b g) s = .next (s.finish (bLen b) (vId d.val :: uses))) ∧
    (useV s d 1 = .ok () →
      let nothing := fun i : Instr => exec i s = .next (s.finishV (bLen b) uses d (oldV s d))
      (laneBytes p = 0 → nothing (.vld d a b g)) ∧ (elemBytes 32 p = 0 → nothing (.vldBcW d a b g)) ∧ (elemBytes 16 p = 0 → nothing (.vldBcH d a b g)))

/-- Matrix instructions complete at issue: with an entry of the queue of 16 free and no context of the core parked earlier for one, each takes the next sequence number of the engine, hands it the registers, format images and tile
bounds that the operands give, and goes on; behind older stores the command stands in the store queue, and its entry is kept for it. A cut also marks the tb registers it will write; without room the context parks (R201, R203, R219, R228-R234). -/
def Obligations.MatrixCommands : Prop :=
  ∀ (d a b : Fin 64) (t z : Fin 4) (f : Fin 2) (s : State),
    let issues := fun (i : Instr) (r : Except Stop Capture) (pend : List Nat) => ∀ x, r = .ok x →
      let c := s.capture x.op s.cpu.seqs[2] x.regs x.imgs
      let t := s.onCpu fun k => { k with seqs := k.seqs.set 2 (k.seqs[2] + 1) }
      let marked := fun u : State => if pend = [] then u else u.onCpu fun k => { k with tbPend := pend.foldl (fun p n => setBit p n true) k.tbPend }
      let room := s.roomFor 2 = true ∧ s.firstFor s.slot 2 = true
      (room → s.cpu.sq = [] →
        exec i s = .next (marked ((t.onCore fun k => { k with mq := k.mq ++ [{ c with after := s.packetN }] }).finish 1 x.uses))) ∧
      (room → s.cpu.sq ≠ [] →
        exec i s = .next (marked ((t.enqueue (.command 2 c)).finish 1 x.uses))) ∧
      (¬room → exec i s = .next (s.parkOn (.cmdRoom 2)))
    issues (.mmac a b t z) (denseCapture s false (.mmac 0 false t z) a b t none) [] ∧
    issues (.mmacTri a b t z) (denseCapture s false (.mmac 0 true t z) a b t none) [] ∧
    issues (.mgrp d a b t z) (denseCapture s false (.mgrp t z) a b t (some d)) [] ∧
    issues (.mmacS d a b t z) (sparseCapture s false 1 d a b t z) [] ∧
    issues (.mmacSs d a b t z) (sparseCapture s false 2 d a b t z) [] ∧
    issues (.zclr a z) (anchorCapture s (.zclr z) a) [] ∧
    issues (.zanchor a z) (anchorCapture s (.zanchor z) a) [] ∧
    issues (.zfit a z) (anchorCapture s (.zfit z) a) [] ∧
    issues (.zread a b f z) (readoutCapture s (.zread false f z) a b none (if f = 0 then 4 else 2) 0) [] ∧
    issues (.zreadTri d a b f z) (readoutCapture s (.zread true f z) a b (some d) (if f = 0 then 4 else 2) 0) [] ∧
    issues (.zraw a b z) (readoutCapture s (.zraw z) a b none 16 16) [] ∧
    issues (.dcut d a b t) (cutCapture s 0 d a b t 4 [0, 1, 2]) [d.val] ∧
    issues (.dcutCo d a b t) (cutCapture s 2 d a b t 8 [0, 1, 2, 4, 5, 6]) [d.val, d.val + 1] ∧
    (∀ (dst src w : Wreg) (tb : BitVec 128), s.useTb d.val = .ok tb → readW s a 2 = .ok src → readW s (a + 1) 2 = .ok w → readW s b 3 = .ok dst →
      let n := (bits tb 88 24 - bits tb 64 24) * 32 * typeBytes t
      sourceCheck src = .ok () → tileCheck dst 3 (permS + permE) [(0, n)] 16 (bits w.lo 24 16) = .ok () → tileHere s false dst 3 [(0, n)] = .ok () →
      issues (.dcutP d a b t) (.ok ⟨.dcut 1 t ⟨d.val % 8, Nat.mod_lt _ (by decide)⟩, [src, w, dst], [tb.setWidth 384], [a.val, a.val + 1, b.val]⟩) [d.val])

/-- What a dense product captures, and the checks of its tiles: operand A at the first register of the block, operand B at the second, and for TYPE 2 the scales at the third where a format is
block-scaled, with the two formats; a missing tag, seal, kind or permission, an access outside the bounds and a misaligned address or pitch each take their trap with the capability's address in EINFO;
tb registers are read and written, a pending one parks (R203, R217, R228, R235; that a misaligned pitch reports its tile is log 108). -/
def Claims.MatrixOperands : Prop :=
  (∀ (s : State) (a b : Fin 64) (t : Fin 4) (op : CmdOp) (c0 c1 c2 g : Wreg), readW s a 2 = .ok c0 → readW s (a + 1) 2 = .ok c1 → readW s (a + 2) 2 = .ok c2 → readW s b 3 = .ok g →
    t ≠ 2 → let n := typeBytes t
    let spanA := (geoOf g.lo).spanA n
    let spanB := (geoOf g.lo).spanB n 0
    tileCheck c0 2 (permL + permE) spanA 16 (bits g.lo 24 16) = .ok () → tileCheck c1 2 (permL + permE) spanB 16 (bits g.lo 40 16) = .ok () →
    tileIn s.dev (s.cur / 16) c0 spanA = true → tileIn s.dev (s.cur / 16) c1 spanB = true →
    denseCapture s false op a b t none = .ok ⟨op, [c0, c1, c2, g, .zero], [0, 0], [a.val, a.val + 1, a.val + 2, b.val]⟩) ∧
  (∀ (s : State) (a b : Fin 64) (op : CmdOp) (c0 c1 c2 g : Wreg), readW s a 2 = .ok c0 → readW s (a + 1) 2 = .ok c1 → readW s (a + 2) 2 = .ok c2 → readW s b 3 = .ok g →
    let rows := bits g.lo 0 6 + 1
    let cols := bits g.lo 6 5 + 1
    let blocks := fun fm : Word => if fmBsm fm = 0 then 0 else if fmBsm fm = 1 then (bits g.lo 11 13 + 31) / 32 else (bits g.lo 11 13 + 15) / 16
    let nA := blocks (s.cpu.fmOf 0)
    let nB := blocks (s.cpu.fmOf 3)
    let spanA := (geoOf g.lo).spanA 1
    let spanB := (geoOf g.lo).spanB 1 0
    let spanS := [(0, rows * nA), (rows * nA, cols * nB)]
    tileCheck c0 2 (permL + permE) spanA 16 (bits g.lo 24 16) = .ok () → tileCheck c1 2 (permL + permE) spanB 16 (bits g.lo 40 16) = .ok () →
    tileIn s.dev (s.cur / 16) c0 spanA = true → tileIn s.dev (s.cur / 16) c1 spanB = true →
    (nA + nB ≠ 0 → tileCheck c2 2 (permL + permE) spanS 1 0 = .ok () ∧ tileIn s.dev (s.cur / 16) c2 spanS = true) →
    denseCapture s false op a b 2 none = .ok ⟨op, [c0, c1, c2, g, .zero], [(s.cpu.fmOf 0).setWidth 384, (s.cpu.fmOf 3).setWidth 384], [a.val, a.val + 1, a.val + 2, b.val]⟩) ∧
  (∀ (c : Wreg) (o perm al pitch : Nat) (spans : List (Nat × Nat)),
    let x := capAddr c
    let outside := ∃ q ∈ spans, capCovers c (x.toNat + q.1) q.2 = false
    (c.tag = false ∨ capMalformed c = true → tileCheck c o perm spans al pitch = trap 0x03 o x) ∧
    (c.tag = true → capMalformed c = false → capKind c = 3 → tileCheck c o perm spans al pitch = trap 0x06 o x) ∧
    (c.tag = true → capMalformed c = false → (capKind c = 1 ∨ capKind c = 2) → tileCheck c o perm spans al pitch = trap 0x05 o x) ∧
    (c.tag = true → capMalformed c = false → (capKind c = 0 ∨ capKind c = 4) → capHas c perm = false → tileCheck c o perm spans al pitch = trap 0x05 o x) ∧
    (checkCap c o x perm = .ok () → outside → tileCheck c o perm spans al pitch = trap 0x04 o x) ∧
    (checkCap c o x perm = .ok () → ¬outside → ¬(x.toNat % al = 0 ∧ pitch % 16 = 0) → tileCheck c o perm spans al pitch = trap 0x07 o x) ∧
    (checkCap c o x perm = .ok () → ¬outside → x.toNat % al = 0 → pitch % 16 = 0 → tileCheck c o perm spans al pitch = .ok ())) ∧
  (∀ (s : State) (d a : Fin 64), d.val < 8 → a.val < 8 →
    (s.cpu.tbPend.getLsbD a.val = false → useW s d 1 = .ok () → exec (.mtbr d a) s = .next (s.finishW 1 [] d ⟨s.cpu.tb.toList.getD a.val 0, false⟩)) ∧
    (s.cpu.tbPend.getLsbD a.val = true → exec (.mtbr d a) s = .next (s.parkOn (.tile a.val))) ∧
    (∀ x, s.cpu.tbPend.getLsbD d.val = false → readW s a 2 = .ok x → exec (.mtbw d a) s =
      .next { s.finish 1 [a.val] with cpu := { (s.finish 1 [a.val]).cpu with tb := s.cpu.tb.setIfInBounds d.val x.bits } }))

/-- The exact accumulator: a finite product is truncated at the anchor and added, ZI and ZO as R88 says, so that the sum is the same in every order while nothing saturates;
special products combine with the tag; a new anchor re-expresses the element (R88, R89, R91). -/
def Claims.AccumulatorArithmetic : Prop :=
  (∀ (x : Elem) (A e : Int) (n nv : Bool) (m : Nat),
    let p : ℚ := (if n then -(m : ℚ) else m) * 2 ^ e
    let t : Int := ⌊p / 2 ^ A⌋
    let sum := x.q.toInt + t
    let r := x.add A (.fin n m e, nv)
    r.1.q.toInt = max (-(2 ^ 95)) (min (2 ^ 95 - 1) sum) ∧ r.1.tag = x.tag ∧ r.1.msk = x.msk ∧
    (r.2.zi = true ↔ (t : ℚ) * 2 ^ A ≠ p) ∧ (r.2.zo = true ↔ 2 ^ 95 - 1 < sum ∨ sum < -(2 ^ 95)) ∧ r.2.nv = nv) ∧
  (∀ (A : Int) (l l' : List (Fp × Bool)) (x : Elem), l.Perm l' →
    let all := fun l : List (Fp × Bool) => l.foldl (fun (y : Elem × Sticky) p => ((y.1.add A p).1, y.2.join (y.1.add A p).2)) (x, {})
    (all l).2.zo = false → (all l').2.zo = false → (all l).1.q = (all l').1.q) ∧
  (∀ (x : Elem) (A : Int) (n q nv : Bool),
    let plus := x.add A (.inf n, nv)
    let own : BitVec 2 := if n then 2 else 1
    plus.1.q = x.q ∧ (x.tag = 0 → plus.1.tag = own ∧ plus.2.nv = nv) ∧ (x.tag = own → plus.1.tag = own ∧ plus.2.nv = nv) ∧ (x.tag = 3 → plus.1.tag = 3 ∧ plus.2.nv = nv) ∧
    (x.tag ≠ 0 → x.tag ≠ own → x.tag ≠ 3 → plus.1.tag = 3 ∧ plus.2.nv = true) ∧
    (x.add A (.nan q, nv)).1.q = x.q ∧ (x.add A (.nan q, nv)).1.tag = 3 ∧ (x.add A (.nan q, nv)).2.nv = nv) ∧
  (∀ (a : Accum) (A : BitVec 12) (i j : Nat), i < 64 → j < 32 → Tab.wf Elem.zero a.elems = true →
    let v : ℚ := ((a.at i j).q.toInt : ℚ) * 2 ^ (a.anchor.toInt - A.toInt)
    let b := (a.reanchor A).1
    b.anchor = A ∧ (b.at i j).q.toInt = max (-(2 ^ 95)) (min (2 ^ 95 - 1) ⌊v⌋) ∧ (b.at i j).tag = (a.at i j).tag ∧ (b.at i j).msk = (a.at i j).msk ∧
    ((⌊v⌋ : ℚ) ≠ v → (a.reanchor A).2.zi = true) ∧ (⌊v⌋ < -(2 ^ 95) ∨ 2 ^ 95 - 1 < ⌊v⌋ → (a.reanchor A).2.zo = true))

/-- Tile operands are captured from registers and accumulators add exactly. -/
def Obligations.MatrixOperands : Prop := Claims.MatrixOperands ∧ Claims.AccumulatorArithmetic

/-- `mcmd` with a unit capability captures the registers of the instruction it carries at the sender and sends the command; other operands take their traps. At the target's
device the unit accepts the command into its remote queue of 8, or refuses it with the first reason that applies, in the order 0x40 permission, 0x41 unit, 0x42 tenant, 0x43 gang
generation, 0x44 full queue, 0x45 a tile elsewhere; queued commands of one core to one unit keep their order (R207, R208, R236). -/
def Claims.RemoteCommands : Prop :=
  (∀ (a : Fin 64) (i : Instr) (s : State) (u : Wreg), readW s a 2 = .ok u →
    (u.tag = false → exec (.mcmd a i) s = .next (s.takeTrap ⟨0x03, 2, u.lo, false, false⟩)) ∧
    (u.tag = true → capMalformed u = false → capKind u = 3 → exec (.mcmd a i) s = .next (s.takeTrap ⟨0x06, 2, u.lo, false, false⟩)) ∧
    (u.tag = true → capMalformed u = false → capKind u ≠ 3 → capKind u ≠ 2 → exec (.mcmd a i) s = .next (s.takeTrap ⟨0x05, 2, u.lo, false, false⟩)) ∧
    (∀ x, u.tag = true → capMalformed u = false → capKind u = 2 → carriedCapture s i = .ok x → bits u.bits 11 13 < 6144 → s.cpu.sq = [] →
      let t := s.onCpu fun k => { k with seqs := k.seqs.set 2 (k.seqs[2] + 1) }
      let c : RemoteCmd := ⟨u, s.cur, s.slot, s.capture x.op s.cpu.seqs[2] x.regs x.imgs⟩
      exec (.mcmd a i) s = .next (({ t with remotes := t.remotes ++ [c] } : State).finish 2 (a.val :: x.uses)))) ∧
  (∀ (k : Nat) (s : State) (r : RemoteCmd), s.remotes[k]? = some r → (s.tenantOf r.cmd.tenant).tokenDone = false →
    (∀ q ∈ s.remotes.take k, ¬(q.sh = r.sh ∧ bits q.cap.bits 0 24 = bits r.cap.bits 0 24)) → s.canPost r.cmd 2 = true →
    let u := r.cap.bits
    let t := { s with remotes := listDrop s.remotes k }
    let core := s.coreOf (bits u 0 11)
    let refuses := fun reason : Nat => exec (.remoteCommandArrival k) s = .next (t.post r.cmd.ident r.cmd.gen (message 1 2 0x12 reason 0 r.cmd.seq.toNat 0 0))
    let m := capHas r.cap permM
    let unit := bits u 30 2 = 0 ∧ bits u 56 8 = 0
    let ten := bits u 24 6 = r.cmd.tenant
    let gen := bits u 32 24 = core.gseq.toNat
    let near := r.cmd.tiles.all fun (c, spans) => tileIn s.dev (bits u 0 11 / 16) c spans
    let full := 8 ≤ core.mrq.length + core.unposted true
    bits u 11 13 = s.dev →
      (m = false → refuses 0x40) ∧ (m = true → ¬unit → refuses 0x41) ∧ (m = true → unit → ¬ten → refuses 0x42) ∧ (m = true → unit → ten → ¬gen → refuses 0x43) ∧
      (m = true → unit → ten → gen → full → refuses 0x44) ∧ (m = true → unit → ten → gen → ¬full → near = false → refuses 0x45) ∧
      (m = true → unit → ten → gen → ¬full → near = true →
        exec (.remoteCommandArrival k) s = .next (t.setCore (bits u 0 11) { core with mrq := core.mrq ++ [r.cmd] })))

/-- The matrix engine's steps: it takes the head of a queue whose accumulator no running command uses, alternating between its queues; an operand read captures a granule's bytes
as they stand; a command runs on its accumulator, adding its flags to its issuer's st; `zclr` leaves the accumulator empty at its anchor, and is counted for the next completion on
its accumulator; the completion of a readout counts itself and the accumulate-only commands before it; writes are applied one by one when nothing keeps their lines; a command that
faulted posts a fault message (R201, R202, R204, R209-R211, R233). -/
def Claims.MatrixEngine : Prop :=
  ∀ (h : Nat) (s : State), let k := s.coreOf h
    (∀ c rest, k.mayTake c = true → k.mq = c :: rest → (k.mrq = [] ∨ k.lastRemote = true) →
      exec (.matrixCommandTake h) s = .next (s.setCore h { k with mact := k.mact ++ [(false, c)], lastRemote := false, mq := rest })) ∧
    (∀ c rest, k.mayTake c = true → k.mrq = c :: rest → (k.mq = [] ∨ k.lastRemote = false) →
      exec (.matrixCommandTake h) s = .next (s.setCore h { k with mact := k.mact ++ [(true, c)], lastRemote := true, mrq := rest })) ∧
    (∀ g r c rest, k.mact = (r, c) :: rest → c.prog = 0 → (∀ q ∈ c.got, q.1 ≠ g) → (∃ w, regionOf (g * 16) = .scratch w) →
      s.mem.poisonAt g = false → s.engineReady h c.h c.after .rd ⟨g * 16, 0, none⟩ 16 = true →
      exec (.operandRead h g) s = .next (s.setCore h { k with mact := (r, { c with got := c.got ++ [(g, BitVec.ofNat 128 (s.readFor h 0 (g * 16) 16))] }) :: rest })) ∧
    (∀ r c rest (z : Fin 4), k.mact = (r, c) :: rest → c.prog = 0 →
      let ran := fun (a : Accum) (fl : Sticky) => (s.onCoreOf h fun k => { k with z := k.z.set z a }).onIssuer c.ident c.gen fun x => x.setSticky fl
      let starts := fun (a : Accum) (fl : Sticky) =>
        let t := ran a fl
        let n := (t.coreOf h).uncovered c.ident c.gen z.val + 1
        (n < 255 → exec (.matrixCommandRetire h) s = .next ((t.onCoreOf h fun k => k.setUncovered c.ident c.gen z.val n).dropMatrix h 0)) ∧
        (255 ≤ n → exec (.matrixCommandRetire h) s = .next ((t.onCoreOf h fun k => k.setUncovered c.ident c.gen z.val 0).setMatrix h 0
          (r, { c with prog := n, outs := [], tbs := [], fault := none })))
      let anchored := fun A : BitVec 12 => starts (k.z[z].reanchor A).1 (k.z[z].reanchor A).2
      (c.op = .zclr z → starts ⟨[], (c.reg 0).bits.setWidth 12, false⟩ {}) ∧
      (c.op = .zanchor z → anchored ((c.reg 0).bits.setWidth 12)) ∧
      (c.op = .zfit z → anchored (fitAnchor ((c.reg 0).bits.toNat % 2 ^ 32))) ∧
      (∀ tri f, c.op = .zread tri f z →
        let x := readoutRun c h tri (if f = 0 then f32 else bf16) { s := s, acc := k.z[z] }
        x.fault = none →
        let t := (x.s.onCoreOf h fun k => { k with z := k.z.set z x.acc }).onIssuer c.ident c.gen fun y => y.setSticky x.fl
        exec (.matrixCommandRetire h) s = .next ((t.onCoreOf h fun k => k.setUncovered c.ident c.gen z.val 0).setMatrix h 0
          (r, { c with prog := (t.coreOf h).uncovered c.ident c.gen z.val + 1, outs := x.outs, tbs := x.tbs, fault := none })))) ∧
    (∀ r c rest w ws, k.mact = (r, c) :: rest → c.prog ≠ 0 → c.outs = w :: ws → s.writeReady h c.h c.after w = true →
      exec (.matrixCommandRetire h) s = .next ((s.engineWrite h w).setMatrix h 0 (r, { c with outs := ws }))) ∧
    (∀ r c rest, k.mact = (r, c) :: rest → c.prog ≠ 0 → c.outs = [] → s.canPost c 2 = true →
      (∀ tri f (z : Fin 4), c.op = .zread tri f z → c.tbs = [] → c.fault = none →
        exec (.matrixCommandRetire h) s = .next (((s.onIssuer c.ident c.gen id).dropMatrix h 0).post c.ident c.gen (message 0 2 0 0 c.prog c.seq.toNat 0 0))) ∧
      (∀ ty (d : Fin 8) v, c.op = .dcut 0 ty d → c.tbs = [(d.val, v)] → c.fault = none →
        exec (.matrixCommandRetire h) s = .next (((s.onIssuer c.ident c.gen fun x =>
          { x with tb := x.tb.setIfInBounds d.val v, tbPend := setBit x.tbPend d.val false }).dropMatrix h 0).post c.ident c.gen
            (message 0 2 0 0 c.prog c.seq.toNat 0 0))) ∧
      (∀ code v pos, c.fault = some (code, v, pos) → c.op.accumOnly = false →
        exec (.matrixCommandRetire h) s = .next (((s.onIssuer c.ident c.gen fun x => x.settleTb c.op).post c.ident c.gen
          (message 1 2 (code % 256) (code / 256) 0 c.seq.toNat pos v)).dropMatrix h 0)))

/-- The matrix engine takes, reads for and retires its commands, those of other cores included. -/
def Obligations.MatrixEngine : Prop := Claims.RemoteCommands ∧ Claims.MatrixEngine

/-- An engine's queue has an entry free for a command of the context looked at, and no context of the core parked earlier for one (R201, R241, R277). -/
def Claims.RoomIn (s : State) (eng : Nat) : Prop := s.roomFor eng = true ∧ s.firstFor s.slot eng = true

/-- `sstat` writes the summary of a generator as it stands: its image fields, the elements held, and the pops or appends since `sbind` modulo 2^32 (R268). -/
def Obligations.StreamSummary : Prop :=
  ∀ (d a : Fin 64) (s : State), useW s d 1 = .ok () →
    let x := s.cpu.stream a.val
    ∃ v : Word, exec (.sstat d a) s = .next (s.finishW 1 [] d (.plain v)) ∧
      bits v 0 1 = x.bnd.toNat ∧ bits v 1 1 = x.wr.toNat ∧ bits v 2 1 = x.clsW.toNat ∧ bits v 3 1 = x.tg.toNat ∧ bits v 4 4 = x.reg.val ∧ bits v 8 2 = x.ndim.val ∧
      bits v 10 1 = x.flt.toNat ∧ bits v 11 5 = 0 ∧ bits v 16 3 = x.held.length % 8 ∧ bits v 19 13 = 0 ∧ bits v 32 32 = x.done % 2 ^ 32

/-- `sbind` binds a free generator to a free register with the pattern of its block, takes a sequence number of the transfer engine, and traps with the reasons 0x70-0x72 otherwise;
`sfree` returns the generator and its register to reset, an unbound one changes nothing, and a write stream's unwritten elements go to a command (R242, R243, R265, R267). -/
def Claims.StreamBinding : Prop :=
  ∀ (d a b : Fin 64) (n : Fin 4) (e r : Fin 2) (s : State), d.val < 8 →
    (∀ x0 x1 x2 x3 : Wreg, readBlock s a 4 = .ok [x0, x1, x2, x3] → b.val < 32 →
      let cls := decide (16 ≤ b.val)
      let reg : Fin 16 := ⟨b.val % 16, Nat.mod_lt _ (by decide)⟩
      let num := if cls then 48 + b.val % 16 else 16 + b.val % 16
      let x : Stream := { Stream.reset with
        cap := x0, bnd := true, wr := decide (r = 1), clsW := cls, tg := decide (e = 1), reg := reg, ndim := n, cnt := x1.lo
        str := BitVec.ofNat 128 (x2.lo.toNat + x3.lo.toNat * 2 ^ 64), seq := s.cpu.seqs[3] }
      let refuses := fun reason : Word => exec (.sbind d a b n e r) s = .next (s.takeTrap ⟨0x12, 0, reason, false, false⟩)
      let taken := (s.cpu.boundIn (if cls then 0 else 1) num || s.cpu.awaits (if cls then 0 else 1) num) = true
      let counts := ∀ i : Fin 4, bits x1.lo (16 * i.val) 16 = 0 ↔ n < i
      x.check = .ok () →
        ((s.cpu.stream d.val).bnd = true → refuses 0x70) ∧ ((s.cpu.stream d.val).bnd = false → taken → refuses 0x71) ∧
        ((s.cpu.stream d.val).bnd = false → ¬taken → ¬counts → refuses 0x72) ∧
        ((s.cpu.stream d.val).bnd = false → ¬taken → counts → Claims.RoomIn s 3 → s.cpu.sq ≠ [] →
          let t := ((s.takeSeq 3).2.finish 1 (blockUses a 4)).onCpu fun c => c.setStream d.val x
          ∃ c, exec (.sbind d a b n e r) s = .next (t.enqueue (.command 3 c)) ∧ c.op = .sbind ⟨d.val % 8, Nat.mod_lt _ (by decide)⟩ ∧ c.seq = s.cpu.seqs[3]) ∧
        ((s.cpu.stream d.val).bnd = false → ¬taken → counts → ¬Claims.RoomIn s 3 → exec (.sbind d a b n e r) s = .next (s.parkOn (.cmdRoom 3))) ∧
        ((s.cpu.stream d.val).bnd = false → ¬taken → counts → Claims.RoomIn s 3 → s.cpu.sq = [] →
          let t := ((s.takeSeq 3).2.finish 1 (blockUses a 4)).onCpu fun c => c.setStream d.val x
          ∃ u : Ctx, exec (.sbind d a b n e r) s = .next { t with cpu := u } ∧ { u with sg := t.cpu.sg } = t.cpu ∧
            (∀ g, g ≠ d.val → u.stream g = t.cpu.stream g) ∧ u.stream d.val = { x with started := true, after := s.packetN })) ∧
    (let x := s.cpu.stream d.val
     let t := s.finish 1 []
     (x.bnd = false → exec (.sfree d) s = .next t) ∧
     (x.bnd = true → x.wr = false → ∃ u : Ctx, exec (.sfree d) s = .next { t with cpu := u } ∧ u.stream d.val = .reset ∧ (∀ g, g ≠ d.val → u.stream g = t.cpu.stream g) ∧
       (x.clsW = true → u.w = t.cpu.w.setIfInBounds (48 + x.reg.val) .zero ∧ u.v = t.cpu.v) ∧
       (x.clsW = false → u.v = t.cpu.v.setIfInBounds (16 + x.reg.val) 0 ∧ u.w = t.cpu.w) ∧
       { u with sg := t.cpu.sg, w := t.cpu.w, v := t.cpu.v } = t.cpu) ∧
     (x.bnd = true → x.wr = true → Claims.RoomIn s 3 → s.cpu.sq = [] → ∃ u c, exec (.sfree d) s = .next u ∧ u.cpu.stream d.val = .reset ∧
       u.core.tq = s.core.tq ++ [c] ∧ c.op = .sfree ∧ c.strm = some x ∧ c.seq = s.cpu.seqs[3] ∧ u.mem = s.mem))

/-- What the engine reads and writes for streams: the next element of a started read stream enters its held elements, up to four, with its tag where the stream keeps tags; an
appended element is written at its address once nothing keeps its lines, and leaves; a fault sets FLT, leaves the elements held, and posts its cause, the element's number and the
element's address; nothing is read from the tenant's stop cycle on (R244, R245, R262, R264, R268). -/
def Claims.StreamSteps : Prop :=
  ∀ (s : State) (h slot g : Nat), let c := s.ctx h slot
    let x := c.stream g
    x.bnd = true → x.flt = false → x.started = true →
    (x.wr = false → s.stopped c.tenant = false → x.held.length < 4 → x.head + x.held.length < x.total →
      let n := x.head + x.held.length
      let read := (⟨h, c.tenant, h, x.after, [], x.cap, false⟩ : Reader).bytes x.size s (x.addr n)
      (∀ p t l u, s.engAccess h c.tenant x.cap (x.addr n) .rd false = .ok (p, t) → read = .ok (l, u) →
        exec (.streamReadAhead h slot g) s = .next (u.setCtx h slot ((u.ctx h slot).setStream g
          { x with held := x.held ++ [(BitVec.ofNat 1024 (leNat l), x.tg && t.tagFor h p.swz p.pa)] }))) ∧
      (∀ code a, read = .error (code, a) → code ≠ notYet → s.canPostTo c 3 = true →
        exec (.streamReadAhead h slot g) s = .next ((s.setCtx h slot (c.setStream g { x with flt := true, fltAt := n })).post c.ident c.gen
          (message 1 3 code 0 0 x.seq.toNat (n % 65536) (x.addr n))))) ∧
    (∀ v tag rest, x.wr = true → x.held = (v, tag) :: rest →
      let pieces := s.pieces h c.tenant x.cap false 130 (x.addr x.head) (leBytes x.size v.toNat)
      (∀ ws t, pieces = .ok (ws, t) → (∀ w ∈ ws, t.writeReady h h x.after w = true) →
        let u := ws.foldl (fun u w => u.engineWrite h { w with tag := tag && x.tg }) t
        exec (.streamElementWrite h slot g) s = .next (u.setCtx h slot ((u.ctx h slot).setStream g { x with held := rest, head := x.head + 1 }))) ∧
      (∀ code a, pieces = .error (code, a) → code ≠ notYet → s.canPostTo c 3 = true →
        exec (.streamElementWrite h slot g) s = .next ((s.setCtx h slot ((s.ctx h slot).setStream g { x with flt := true, fltAt := x.head })).post c.ident c.gen
          (message 1 3 code 0 0 x.seq.toNat (x.head % 65536) (x.addr x.head)))))

/-- Streams are bound and released, read ahead and written, an element at a time. -/
def Obligations.StreamBinding : Prop := Claims.StreamBinding ∧ Claims.StreamSteps

/-- Commands of the transfer engine complete at issue: `cpy` and `cpy.mc` capture destination, source and length, after their checks, and stand in the queue (behind older stores, in
the store queue); overlapping ranges and a mask without the own core are refused; `feset` and `feclr` queue a range of full bits, and one of length zero does nothing (R241, R249, R269, R274). -/
def Claims.TransferCommands : Prop :=
  ∀ (d a b : Fin 64) (o : Fin 2) (s : State) (dst src x : Wreg), readW s d 1 = .ok dst → readW s a 2 = .ok src → readW s b 3 = .ok x →
    let n := x.bits.toNat % 2 ^ 32
    let p := (capAddr dst).toNat
    let q := (capAddr src).toNat
    let puts := fun (i : Instr) (op : CmdOp) => Claims.RoomIn s 3 →
      let c := { s.capture op s.cpu.seqs[3] [dst, src, x] [] with ord := decide (o = 1) }
      (s.cpu.sq = [] → exec i s = .next (((s.takeSeq 3).2.onCore fun k => { k with tq := k.tq ++ [c] }).finish 1 [d.val, a.val, b.val])) ∧
      (s.cpu.sq ≠ [] → exec i s = .next (((s.takeSeq 3).2.enqueue (.command 3 c)).finish 1 [d.val, a.val, b.val]))
    let apart := capKind dst ≠ capKind src ∨ n = 0 ∨ p + n ≤ q ∨ q + n ≤ p
    let covers := fun (c : Wreg) (y : Nat) => n = 0 ∨ capCovers c y n = true
    (checkCap dst 1 (capAddr dst) (permS + permE) = .ok () → covers dst p → checkCap src 2 (capAddr src) (permL + permE) = .ok () → covers src q →
      (apart → puts (.cpy d a b o) .cpy) ∧ (¬apart → exec (.cpy d a b o) s = .next (s.takeTrap ⟨0x12, 0, 0x64, false, false⟩)) ∧
      (apart → ¬Claims.RoomIn s 3 → exec (.cpy d a b o) s = .next (s.parkOn (.cmdRoom 3)))) ∧
    (checkCap dst 1 (capAddr dst) (permS + permE) = .ok () → capKind dst = 4 → covers dst p → p % 128 = 0 →
      checkKind0 src 2 (capAddr src) (permL + permE) = .ok () → covers src q → q % 128 = 0 → n % 128 = 0 → n ≤ 393216 → s.ownWindow p n = true →
      (x.bits.getLsbD (32 + s.cur % 16) = true → puts (.cpyMc d a b o) .cpyMc) ∧
      (x.bits.getLsbD (32 + s.cur % 16) = false → exec (.cpyMc d a b o) s = .next (s.takeTrap ⟨0x12, 0, 0x65, false, false⟩))) ∧
    (let u := s.finish 1 [a.val, b.val]
     (n = 0 → exec (.feset a b) s = .next u ∧ exec (.feclr a b) s = .next u) ∧
     (∀ l t, 0 < n → checkCap src 2 (capAddr src) permS = .ok () → capCovers src q n = true → q % 16 = 0 → n % 16 = 0 →
       fullPlaces s src (n / 65536 + 2) 0 n = .ok (l, t) →
       (n ≤ 8192 → s.cpu.sqCount < 16 → exec (.feset a b) s = .next ((t.enqueue (.fullBits l true)).finish 1 [a.val, b.val]) ∧
         exec (.feclr a b) s = .next ((t.enqueue (.fullBits l false)).finish 1 [a.val, b.val])) ∧
       (8192 < n → exec (.feset a b) s = .next (s.takeTrap ⟨0x12, 0, 0x75, false, false⟩) ∧ exec (.feclr a b) s = .next (s.takeTrap ⟨0x12, 0, 0x75, false, false⟩))))

/-- Steps of copies and multicasts: a copy reads the source of its next destination line and takes ownership of that once nothing keeps either, writes the line it owns and ends the
ownership, and posts its completion with the length when every line is done; a fault ends it with the line's address; an owned line's recall writes it and ends the ownership; a multicast
request joins the open entry of its line, cluster, mask and tenant, or is served alone where that has closed, or opens one; an open entry closes after its time or when a write of its
line has reached the slice (R38, R247-R250, R348). -/
def Claims.CopySteps : Prop :=
  ∀ (s : State) (h k : Nat),
    (∀ c, (s.coreOf h).tq[k]? = some c → s.ordBefore h c = false →
      let dst := (capAddr (c.reg 0)).toNat
      let n := (c.reg 2).bits.toNat % 2 ^ 32
      let lines := if n = 0 then 0 else (dst + n - 1) / 128 - dst / 128 + 1
      let x := if c.prog = 0 then dst else (dst / 128 + c.prog) * 128
      let faults := fun code : Nat => code ≠ notYet → s.canPost c 3 = true → exec (.cpyLine h k) s = .next ((s.dropTq h k).post c.ident c.gen
        (message 1 3 code 0 0 c.seq.toNat (c.prog % 65536) (x / 128 * 128)))
      (c.op = .cpy → c.taken = false → lines ≤ c.prog → s.canPost c 3 = true →
        exec (.cpyLine h k) s = .next ((s.dropTq h k).post c.ident c.gen (message 0 3 0 0 1 c.seq.toNat 0 n))) ∧
      (c.op = .cpy → c.taken = false → c.prog < lines →
        (∀ code y, s.engAccess h c.tenant (c.reg 0) x .wr false = .error (code, y) → faults code) ∧
        (∀ p t, s.engAccess h c.tenant (c.reg 0) x .wr false = .ok (p, t) → t.engineReady h h c.after .wr p (Nat.min (dst + n) ((dst / 128 + c.prog + 1) * 128) - x) = true →
          (∀ code y, t.copyWrites h c = .error (code, y) → faults code) ∧
          (∀ l u, t.copyWrites h c = .ok (l, u) → (∀ q ∈ l, q.2 = false) →
            exec (.cpyLine h k) s = .next { (u.setTq h k { c with taken := true, outs := l.map (·.1), got := [] }).takeLine h p.swz p.pa with
              owned := u.owned ++ [⟨lineOf p.swz p.pa, h, true⟩] }))) ∧
      (∀ w ws, c.op = .cpy → c.taken = true → c.outs = w :: ws → c.got = [] →
        exec (.cpyLine h k) s = .next (((c.outs.foldl (fun t w => t.ownWrite h w) s).setTq h k { c with prog := c.prog + 1, taken := false, outs := [], got := [] }).disown h
          (lineOf w.swz w.pa))) ∧
      (c.op = .cpyMc → c.got.length = n / 128 → s.canPost c 3 = true →
        let shared := (c.got.filter fun g => g.2 = 1).length
        exec (.cpyLine h k) s = .next ((s.dropTq h k).post c.ident c.gen (message 0 3 0 0 1 c.seq.toNat 0 (shared + (c.got.length - shared) * 2 ^ 32)))) ∧
      (∀ p t, c.op = .cpyMc → c.prog < n / 128 → (s.coreOf h).dhalt = false →
        s.engAccess h c.tenant (c.reg 1) ((capAddr (c.reg 1)).toNat + 128 * c.prog) .rd false = .ok (p, t) → t.engineReady h h c.after .rd p 128 = true →
        let mask : BitVec 16 := (c.reg 2).bits.extractLsb' 32 16
        let me := (h, c.slot * 2 ^ 16 + c.seq.toNat, c.prog)
        let u := ((t.takePage p.pa false).touchFor h p.pa 128).setTq h k { c with prog := c.prog + 1 }
        (devOf p.pa = s.dev → regionOf p.pa = .dram → u.mcast = [] →
          let e : McEntry := ⟨p.pa / 128, h / 16, mask, c.tenant, [me], s.time, false⟩
          e.complete = false → exec (.multicastRequest h k) s = .next { u with mcast := [e] }) ∧
        (∀ e, u.mcast = [e] → e.line = p.pa / 128 → e.clu = h / 16 → e.mask = mask → e.tenant = c.tenant → ({ e with joined := e.joined ++ [me] } : McEntry).complete = false →
          (e.closed = false → s.time < e.since + 256 → exec (.multicastRequest h k) s = .next { u with mcast := [{ e with joined := e.joined ++ [me] }] }) ∧
          (e.closed = true → (∀ m ∈ e.joined, m.1 ≠ h) →
            exec (.multicastRequest h k) s = .next { u.mcDeliver (p.pa / 128) false me with mcast := [{ e with joined := e.joined ++ [me] }] })))) ∧
    (∀ e, s.mcast[k]? = some e → e.closed = false → s.lineOpen 0 (e.line * 128) = true →
      (s.time ≥ e.since + 256 ∨ ∃ q ∈ s.net, q.stage = .agent ∧ q.writesLine e.line = true) →
      let left := if e.complete = true then listDrop s.mcast k else listSet s.mcast k { e with closed := true }
      exec (.multicastEntryTimeout k) s = .next (e.joined.foldl (fun t m => t.mcDeliver e.line (decide (e.joined.length ≥ 2)) m) { s with mcast := left })) ∧
    (∀ q, s.owned[k]? = some q →
      ((∀ c ∈ (s.coreOf q.h).tq, c.taken = false) →
        exec (.recallComplete k) s = .next { s with owned := s.owned.filter fun o => ¬(o.line = q.line ∧ o.h = q.h) }) ∧
      (∀ c w ws, (s.coreOf q.h).tq = [c] → c.op = .cpy → c.taken = true → c.outs = w :: ws → lineOf w.swz w.pa = q.line →
        exec (.recallComplete k) s = .next (s.copyLine q.h 0 q.line c)))

/-- Copies enter the transfer engine, move a line at a time and post their completion. -/
def Obligations.CopyCommands : Prop := Claims.TransferCommands ∧ Claims.CopySteps

/-- Messages: `mbset` writes an mb register; `msend` captures its body and sends it to the core whose scratch its target is in, answers 1 and sends nothing without an allowance;
`mrecv` matches the oldest fitting message of the overflow queue, or posts its receive, or answers 2 when 64 are posted (R252-R255, R270, R271). -/
def Claims.MessageCommands : Prop :=
  ∀ (d a b : Fin 64) (o : Fin 8) (s : State) (x y : Wreg), readW s a 2 = .ok x → readW s b 3 = .ok y →
    exec (.mbset d a b) s = .next ((s.finish 1 [a.val, b.val]).onCpu fun c =>
      { c with mb := c.mb.setIfInBounds d.val (BitVec.ofNat 128 (x.lo.toNat + y.lo.toNat * 2 ^ 64)) }) ∧
    (∀ p t target, useW s d 1 = .ok () → checkCap x 2 (capAddr x) (permS + permE) = .ok () → checkRange x 2 (capAddr x) 16 16 = .ok () →
      place s x 2 (capAddr x) .wr false = .ok p → targetOf p.pa = some target → claimAt s p 2 (capAddr x) = .ok t →
      (s.cpu.mb[0].toNat < 2 ^ 35 → 4 ≤ s.cpu.allow → exec (.msend d a o) s = .next (t.finishW 1 [a.val] d (.plain 1))) ∧
      (2 ^ 35 ≤ s.cpu.mb[0].toNat → exec (.msend d a o) s = .next (s.takeTrap ⟨0x12, 0, 0x66, false, false⟩)) ∧
      (s.cpu.mb[0].toNat < 2 ^ 35 → s.cpu.allow < 4 → Claims.RoomIn s 3 → o = 0 → t.cpu.sq = [] →
        let u := (t.takeSeq 3).2
        let body := (List.range (s.cpu.mb[0].toNat / 2 ^ 32 % 8 + 1)).map fun i => (s.cpu.mb[i]?).getD 0
        let m : Msg := ⟨target, s.cpu.ident, s.cpu.gen, s.cur, s.slot, s.cpu.tenant, u.dev, s.cpu.seqs[3], s.cpu.mb[0].setWidth 32, body, u.packetN⟩
        exec (.msend d a o) s = .next ((({ u with msgs := u.msgs ++ [m] } : State).finishW 1 [a.val] d (.plain 0)).onCpu fun c => { c with allow := c.allow + 1 }))) ∧
    (∀ z : Wreg, useW s d 1 = .ok () → readW s (b + 1) 3 = .ok z →
      let len := bits z.lo 21 3
      let r : PostedRecv := ⟨x, BitVec.ofNat 20 (bits z.lo 0 20), z.lo.getLsbD 20, BitVec.ofNat 32 (bits y.lo 0 32), BitVec.ofNat 32 (bits y.lo 32 32), BitVec.ofNat 3 len,
        ⟨bits z.lo 24 5 % 32, Nat.mod_lt _ (by decide)⟩⟩
      checkCap x 2 (capAddr x) (permS + permE) = .ok () → capKind x = 4 → checkRange x 2 (capAddr x) (16 * (len + 1)) 16 = .ok () →
      s.ownWindow (capAddr x).toNat (16 * (len + 1)) = true →
      let gives := fun v : Word => s.finishW 1 [a.val, b.val, b.val + 1] d (.plain v)
      ((∀ m ∈ s.core.overflow, r.fits m = false) → 64 ≤ s.core.posted.length → exec (.mrecv d a b) s = .next (gives 2)) ∧
      ((∀ m ∈ s.core.overflow, r.fits m = false) → s.core.posted.length < 64 →
        exec (.mrecv d a b) s = .next ((gives 0).onCore fun k => { k with posted := k.posted ++ [r] })) ∧
      (∀ m rest, s.core.overflow = m :: rest → r.fits m = true →
        exec (.mrecv d a b) s =
          .next (((s.onCore fun k => { k with overflow := rest }).deliverMsg s.cur x r.mc m).finishW 1 [a.val, b.val, b.val + 1] d (.plain 1))))

/-- Messages on their way: one for a core whose gang is not of its tenant is refused with 0x67; one that fits a posted receive is written there, header first, and its counter is
incremented in a later step; a refusal waits while an earlier message of the engine waits for the sender's mailbox (R260); one that fits none joins an overflow queue of 32, or finds it full, also at a core that serves no gang: it is refused with 0x0E, and the core's control
context has its trap pending, or OVFL counts it; each returns its allowance, which stays due while the sender's image is away (R253, R255, R256). -/
def Claims.MessageSteps : Prop :=
  ∀ (s : State) (k h : Nat),
    (∀ m, s.msgs[k]? = some m → m.target / 2048 = s.dev → (∀ q ∈ s.msgs.take k, ¬(q.sh = m.sh ∧ q.target = m.target)) →
      let to' := m.target % 2048
      let t := { s with msgs := listDrop s.msgs k, allowDue := s.allowDue ++ [(m.sender, m.sgen)] }
      let core := t.coreOf to'
      let refuses := fun cause reason : Nat => t.post m.sender m.sgen (message 2 3 cause reason 0 m.seq.toNat 0 m.info)
      let ours := ∃ g, t.gangOf to' = some g ∧ g.tenant = m.tenant
      let may := s.mayPost m.sender m.sgen 3 = true
      (t.gangOf to' = none → ¬may → exec (.messageArrival k) s = .next s) ∧
      (∀ g, t.gangOf to' = some g → g.tenant ≠ m.tenant → may → exec (.messageArrival k) s = .next (refuses 0x12 0x67)) ∧
      (t.gangOf to' = none → core.overflow.length < 32 → may → exec (.messageArrival k) s = .next (refuses 0x12 0x67)) ∧
      (∀ r rest, ours → core.posted = r :: rest → r.fits m = true →
        exec (.messageArrival k) s = .next ((t.setCore to' { core with posted := rest }).deliverMsg to' r.buf r.mc m)) ∧
      (ours → (∀ r ∈ core.posted, r.fits m = false) → core.overflow.length < 32 →
        exec (.messageArrival k) s = .next (t.setCore to' { core with overflow := core.overflow ++ [m] })) ∧
      ((ours ∧ (∀ r ∈ core.posted, r.fits m = false)) ∨ t.gangOf to' = none → 32 ≤ core.overflow.length → may →
        let u := refuses 0x0E 0
        let c0 := u.ctx to' 0
        (c0.live = false →
          exec (.messageArrival k) s = .next (u.onCoreOf to' fun c => { c with ovfl := if c.ovfl = BitVec.allOnes 32 then c.ovfl else c.ovfl + 1 })) ∧
        (c0.live = true → c0.rovf = none →
          exec (.messageArrival k) s = .next (u.setCtx to' 0 { c0 with rovf := some (BitVec.ofNat 64 (m.tagv.toNat + m.sender.toNat * 2 ^ 32)) })))) ∧
    (∀ x rest, (s.coreOf h).deliveries = x :: rest →
      exec (.messageCounterIncrement h) s =
        .next (s.setCore h { s.coreOf h with deliveries := rest, mc := (s.coreOf h).mc.set x.mc ((s.coreOf h).mc[x.mc] + 1) })) ∧
    (∀ id g, s.allowDue[k]? = some (id, g) →
      let t : State := { s with allowDue := listDrop s.allowDue k }
      ((s.loc id).gen ≠ g ∨ (s.loc id).state = .free → exec (.sendAllowanceReturn k) s = .next t) ∧
      ((s.loc id).gen = g → (s.loc id).state ≠ .free → s.heldAt id = none → exec (.sendAllowanceReturn k) s = .next s) ∧
      (∀ h slot, (s.loc id).gen = g → s.heldAt id = some (h, slot) →
        exec (.sendAllowanceReturn k) s = .next (t.setCtx h slot { t.ctx h slot with allow := (t.ctx h slot).allow - 1 })))

/-- Messages are sent, delivered into posted receives and counted. -/
def Obligations.MessageCommands : Prop := Claims.MessageCommands ∧ Claims.MessageSteps

/-- Counters and mailboxes: `mcnt` and `mcnt.set` read and write a message counter; `mwcnt` and `wfm` park at first and complete when they issue again with the threshold
reached or a message waiting; `mpop` takes the oldest message or zero; a message enters a mailbox with fewer than 16, and the next one of its engine comes to the input
(R257, R258, R260, R272, R273). -/
def Obligations.MailboxResults : Prop :=
  ∀ (d a b : Fin 64) (s : State) (x : Wreg), a.val < 32 → useW s d 1 = .ok () → readW s b 3 = .ok x →
    exec (.mcnt d a) s = .next (s.finishW 1 [] d (.plain ((s.core.mc.toList.getD a.val 0).setWidth 64))) ∧
    exec (.mcntSet a b) s = .next ((s.finish 1 [b.val]).onCore fun k => { k with mc := k.mc.setIfInBounds a.val (x.bits.setWidth 32) }) ∧
    (let reached := (s.core.mc.toList.getD a.val 0 - x.bits.setWidth 32).toNat < 2 ^ 31
     (s.cpu.passed = none ∨ ¬reached → exec (.mwcnt a b) s = .next (s.parkOn (.counter a.val (x.bits.setWidth 32)))) ∧
     (s.cpu.passed ≠ none → reached → exec (.mwcnt a b) s = .next (s.finish 1 [b.val]))) ∧
    (s.cpu.passed = none ∨ s.cpu.mbox = [] → exec (.wfm d) s = .next (s.parkOn .mailbox)) ∧
    (s.cpu.passed ≠ none → s.cpu.mbox ≠ [] → exec (.wfm d) s = .next (s.finishW 1 [] d (.plain (BitVec.ofNat 64 s.cpu.mbox.length)))) ∧
    (s.cpu.mbox = [] → exec (.mpop d) s = .next ((s.finishW 1 [] d .zero).onCpu fun c => { c with mbox := [] })) ∧
    (∀ m rest, s.cpu.mbox = m :: rest → ∃ u, exec (.mpop d) s = .next u ∧ u.cpu.w = (s.finishW 1 [] d ⟨m, false⟩).cpu.w ∧ u.cpu.mbox = rest ∧
      { u with cpu := s.cpu } = s) ∧
    (∀ h slot p rest, (s.ctx h slot).live = true → (s.ctx h slot).stopHalted = false → (s.ctx h slot).mbox.length < 16 → s.posts = p :: rest → p.ident = (s.ctx h slot).ident → p.gen = (s.ctx h slot).gen →
      let t := ({ s with posts := rest } : State).setCtx h slot { s.ctx h slot with mbox := (s.ctx h slot).mbox ++ [p.msg] }
      let next := fun q : Post => q.ident = p.ident ∧ q.gen = p.gen ∧ bits q.msg 4 4 = bits p.msg 4 4
      ((∀ q ∈ t.owed, ¬next q) → exec (.mailboxEntry h slot) s = .next t) ∧
      (∀ q os, t.owed = q :: os → next q → exec (.mailboxEntry h slot) s = .next { t with owed := os, posts := t.posts ++ [q] }))

/-- Prefetch commands complete at issue: `pkload` marks a free slot loading and queues its image; `pkrun` starts an idle walker on a valid slot with its captured block and
argument; both refuse with 0x86, 0x85 and 0x87 otherwise; `pkstat` reports a walker and the slots; `pkstop` ends a busy walk, whose completion goes to its starter, once it can be posted (R260, R277, R284, R285). That the message carries
the SEQ of the `pkrun` is log 41. -/
def Claims.PrefetchCommands : Prop :=
  ∀ (d a b : Fin 64) (k : Fin 4) (s : State),
    let n : Fin 4 := ⟨d.val % 4, Nat.mod_lt _ (by decide)⟩
    let t := (s.takeSeq 4).2
    (∀ c, d.val < 4 → readW s a 2 = .ok c → engCap c 2 (permL + permE) 128 8 = .ok () →
      let used := s.core.ks[n].state = 1 ∨ ∃ w ∈ s.core.pw.toList, w.busy = true ∧ w.slotK = n
      let cmd := { s.capture (.pkload n) s.cpu.seqs[4] [c] [] with taken := true }
      (used → exec (.pkload d a) s = .next (s.takeTrap ⟨0x12, 0, 0x86, false, false⟩)) ∧
      (¬used → ¬Claims.RoomIn s 4 → exec (.pkload d a) s = .next (s.parkOn (.cmdRoom 4))) ∧
      (¬used → Claims.RoomIn s 4 → s.cpu.sq = [] → exec (.pkload d a) s =
        .next (((t.onCore fun x => { x with ks := x.ks.set n { x.ks[n] with state := 1 } }).onCore fun x => { x with pq := x.pq ++ [cmd] }).finish 1 [a.val]))) ∧
    (∀ i g tg x arg : Wreg, d.val < 4 → readBlock s a 4 = .ok [i, tg, g, x] → readW s b 3 = .ok arg → s.core.ks[k].state = 2 →
      let words := s.core.ks[k].words
      let size := if x.bits.getLsbD 32 then 4 else 2
      engCap i 2 (permL + permE) (bits x.bits 0 32 * size) size = .ok () →
      checkCap tg 2 (capAddr tg) (permE + (if kernelHas words [10, 11, 12] then permL else 0) + (if kernelHas words [13] then permS else 0)) = .ok () →
      (kernelHas words [12, 13] = true → checkCap g 2 (capAddr g) (permL + permS + permE) = .ok () ∧ capKind g = 4 ∧ gatherUsable s g = true) →
      let cmd := s.capture (.pkrun k n) s.cpu.seqs[4] [i, tg, g, x, arg] []
      let starts := fun c : Cmd => t.onCore fun y => { y with pw := y.pw.setIfInBounds n.val { Walker.idle with busy := true, slotK := k, cmd := some c } }
      (s.core.pw[n].busy = true → exec (.pkrun d a b k) s = .next (s.takeTrap ⟨0x12, 0, 0x85, false, false⟩)) ∧
      (s.core.pw[n].busy = false → Claims.RoomIn s 4 → s.cpu.sq ≠ [] →
        exec (.pkrun d a b k) s = .next (((starts cmd).enqueue (.command 4 cmd)).finish 1 [a.val, a.val + 1, a.val + 2, a.val + 3, b.val])) ∧
      (s.core.pw[n].busy = false → Claims.RoomIn s 4 → s.cpu.sq = [] → ∃ u : State, exec (.pkrun d a b k) s = .next (u.finish 1 [a.val, a.val + 1, a.val + 2, a.val + 3, b.val]) ∧
        u.cpu = t.cpu ∧ u.core.pw.toList = (starts { cmd with taken := true }).core.pw.toList ∧ { u with core := s.core, cpu := s.cpu } = s)) ∧
    (∀ i g tg x arg : Wreg, d.val < 4 → readBlock s a 4 = .ok [i, tg, g, x] → readW s b 3 = .ok arg → s.core.ks[k].state ≠ 2 → s.core.pw[n].busy = false →
      engCap i 2 (permL + permE) (bits x.bits 0 32 * (if x.bits.getLsbD 32 then 4 else 2)) (if x.bits.getLsbD 32 then 4 else 2) = .ok () →
      checkCap tg 2 (capAddr tg) permE = .ok () → exec (.pkrun d a b k) s = .next (s.takeTrap ⟨0x12, 0, 0x87, false, false⟩)) ∧
    (useW s d 1 = .ok () → a.val < 4 → ∃ v : Word, exec (.pkstat d a) s = .next (s.finishW 1 [] d (.plain v)) ∧
      let w := s.core.pw.toList.getD a.val .idle
      bits v 0 1 = w.busy.toNat ∧ bits v 1 1 = w.flt.toNat ∧ bits v 2 2 = w.slotK.val ∧ bits v 4 4 = 0 ∧ bits v 8 4 = w.runs.length % 16 ∧
      (∀ j : Fin 4, bits v (12 + 2 * j.val) 2 = s.core.ks[j].state.val) ∧ bits v 20 12 = 0 ∧ bits v 32 32 = w.done % 2 ^ 32) ∧
    (a.val < 4 → let w := s.core.pw.toList.getD a.val .idle
     let u := ((s.finish 1 []).takeSeq 4).2
     (w.busy = false → exec (.pkstop a) s = .next u) ∧
     (∀ c, w.busy = true → w.cmd = some c → s.canPost c 4 = false → ∃ x : Walker, exec (.pkstop a) s = .next (u.onCore fun y => { y with pw := y.pw.setIfInBounds a.val x }) ∧
       x.busy = true ∧ x.cmd = some c ∧ x.runs = [] ∧ x.read = [] ∧ c.count ≤ x.next ∧ x.done = w.done ∧ x.cnt = w.cnt) ∧
     (∀ c, w.busy = true → w.cmd = some c → s.canPost c 4 = true → exec (.pkstop a) s =
       .next ((u.onCore fun x => { x with pw := x.pw.setIfInBounds a.val { w with busy := false, flt := false, cmd := none, read := [], runs := [] } }).post c.ident c.gen
         (message 0 4 0 0 1 c.seq.toNat 0 (w.done % 2 ^ 32 + w.cnt % 2 ^ 32 * 2 ^ 32)))))

/-- A walk's steps: index lines are read ahead; a run starts with kr0 its index, kr1 its number and kr2 ARG; a returned `kld` goes on in its run, whichever that is; a gather reads,
then fills its empty slot; a scatter's target is checked, then it empties its full slot and writes the target; the oldest run commits as that is applied; an image that passes its
checks makes its slot valid, one that fails leaves it invalid and posts the first bad word (R279-R282, R284). -/
def Claims.WalkSteps : Prop :=
  (∀ (s : State) (h n : Nat) (w : Walker) (c : Cmd), s.walking h n = some (w, c) → n < 4 →
    let applied := fun (t : State) (r : KRun) (rest : List KRun) =>
      let q := t.kgo h w c { r with applied := true }
      q.2.settleWalker h n { w with cnt := w.cnt + 1, done := w.done + 1, runs := q.1 :: rest } c
    let slot := w.slotAddr (c.reg 2)
    let z := capSwz (c.reg 2)
    (∀ l t, w.next + w.read.length < c.count → w.read.length ≤ 3 * (128 / c.isz) →
      readIndices (c.reader h 0 false) c.isz (capAddr (c.reg 0)).toNat (min 64 (c.count - (w.next + w.read.length))) (w.next + w.read.length) s = .ok (l, t) →
      exec (.indexReadAhead h n) s = .next (t.setWalker h n { w with read := w.read ++ l })) ∧
    (∀ x rest, w.read = x :: rest → w.runs.length < 8 → (∀ r rs code y, w.runs = r :: rs → r.wait ≠ .fault code y) →
      let r := s.kgo h w c ⟨w.next, [x, BitVec.ofNat 64 w.next, (c.reg 4).lo, 0, 0, 0, 0, 0], 0, .ended, false⟩
      exec (.kernelRun h n) s = .next (r.2.settleWalker h n { w with next := w.next + 1, read := rest, runs := w.runs ++ [r.1] } c)) ∧
    (w.read = [] → w.runs = [] → c.count ≤ w.next → s.canPost c 4 = true → ∃ u, exec (.kernelRun h n) s = .next (u.post c.ident c.gen
      (message 0 4 0 0 1 c.seq.toNat 0 (w.done % 2 ^ 32 + w.cnt % 2 ^ 32 * 2 ^ 32))) ∧ u = (s.setWalker h n w).setWalker h n (w.stop false)) ∧
    (∀ before r rest d ea v t, w.runs = before ++ r :: rest → (∀ q ∈ before, ∀ d' x, q.wait ≠ .kld d' x) → r.wait = .kld d ea →
      (c.reader h 1 false).word s false 8 ea = .ok (v, t) →
      let q := t.kgo h w c { r with regs := listSet r.regs d (BitVec.ofNat 64 v) }
      exec (.kldReturn h n) s = .next (q.2.settleWalker h n { w with runs := before ++ q.1 :: rest } c)) ∧
    (∀ r rest ea size l p t, w.runs = r :: rest → r.wait = .gather ea size none → (c.reader h 1 false).raws size s ea = .ok (l, p, t) →
      exec (.gatherStep h n) s = .next (t.setWalker h n { w with runs := { r with wait := .gather ea size (some (BitVec.ofNat 128 (leNat l), p)) } :: rest })) ∧
    (∀ r rest ea size v, w.runs = r :: rest → r.wait = .gather ea size (some (v, false)) →
      s.mem.fullAt (granuleOf z slot) = false → s.slotReady h c (c.reg 2) slot = true →
      exec (.gatherStep h n) s = .next (applied (s.applyWrite h ⟨slot, z, 16, v.setWidth 1024, ones 128 16, false, true⟩) r rest)) ∧
    (∀ r rest ea size p t, w.runs = r :: rest → r.wait = .scatter ea size false → s.engAccess h c.tenant (c.reg 1) ea .wr false = .ok (p, t) →
      exec (.scatterStep h n) s = .next (t.setWalker h n { w with runs := { r with wait := .scatter ea size true } :: rest })) ∧
    (∀ r rest ea size p t, w.runs = r :: rest → r.wait = .scatter ea size true → s.engAccess h c.tenant (c.reg 1) ea .wr false = .ok (p, t) →
      let g := granuleOf z slot
      s.mem.fullAt g = true → s.slotReady h c (c.reg 2) slot = true → t.engineReady h c.h c.after .wr p size = true → t.mem.poisonAt g = false →
      let u := { t with mem := t.mem.setFull g false }
      exec (.scatterStep h n) s = .next (applied
        (u.engineWrite h ⟨p.pa, p.swz, size, BitVec.ofNat 1024 (t.readFor h z slot size), ones 128 size, false, true⟩) r rest))) ∧
  (∀ (s : State) (h : Nat) (k : Fin 4) (c : Cmd) l t rest, (s.coreOf h).pq = c :: rest → c.op = .pkload k → s.canPost c 4 = true →
    (c.reader h 0 false).words false 4 ((List.range 32).map fun j => (capAddr (c.reg 0)).toNat + 4 * j) s = .ok (l, t) →
    let words := l.map (BitVec.ofNat 32)
    let puts := fun x : KSlot => t.onCoreOf h fun y => { y with pq := listDrop y.pq 0, ks := y.ks.set k x }
    (kernelBad words = none → exec (.pkloadImageRead h k.val) s = .next ((puts ⟨2, words⟩).post c.ident c.gen (message 0 4 0 0 1 c.seq.toNat 0 0))) ∧
    (∀ j, kernelBad words = some j →
      exec (.pkloadImageRead h k.val) s = .next ((puts ⟨0, []⟩).post c.ident c.gen (message 1 4 0x01 0 0 c.seq.toNat j (l.getD j 0)))))

/-- Prefetch instructions enter the engine and its walkers run their kernels. -/
def Obligations.PrefetchCommands : Prop := Claims.PrefetchCommands ∧ Claims.WalkSteps

/-- The kernel operations: each plain operation writes its register and goes on with the next word; `kend` and word 31 end the run; `kskipz` skips on zero; a failed `kfetch` is
dropped; `kld`, `kgath` and `kscat` wait for memory at the target's address plus register plus immediate, or fault with the first check that fails (R278, R280). -/
def Claims.KernelOperations : Prop :=
  ∀ (ks : List (BitVec 32)) (t : Wreg) (hint : Nat → Bool) (fuel pc : Nat) (r : List (BitVec 64)) (drop : Nat), r.length = 8 →
    let run := fun f pc r drop => kernelGo ks t hint f pc r drop
    let w := ks.getD pc 0
    let op := w.toNat % 32
    let D := w.toNat / 2 ^ 5 % 8
    let A := r.getD (w.toNat / 2 ^ 8 % 8) 0
    let B := r.getD (w.toNat / 2 ^ 11 % 8) 0
    let imm := (w.extractLsb' 14 18).signExtend 64
    let size := 2 ^ (w.toNat / 2 ^ 11 % 8 + 1)
    let ea := (t.lo + A + imm).toNat
    let writes := fun x : BitVec 64 => run (fuel + 1) pc r drop = run fuel (pc + 1) (r.set D x) drop
    (32 ≤ pc → run (fuel + 1) pc r drop = (.ended, pc, r, drop)) ∧
    (pc < 32 →
      (op = 0 → run (fuel + 1) pc r drop = (.ended, pc, r, drop)) ∧
      (op = 1 → writes (A + B)) ∧ (op = 2 → writes (A - B)) ∧ (op = 3 → writes (A &&& B)) ∧ (op = 4 → writes (A + imm)) ∧ (op = 5 → writes (A * imm)) ∧
      (op = 6 → imm.toNat < 64 → writes (A <<< imm.toNat)) ∧ (op = 7 → imm.toNat < 64 → writes (A >>> imm.toNat)) ∧
      (op = 8 → writes (if A.toNat < B.toNat then 1 else 0)) ∧
      (op = 9 → imm.toNat < 32 → run (fuel + 1) pc r drop = run fuel (if A = 0 then pc + 1 + imm.toNat else pc + 1) r drop) ∧
      (op = 11 → run (fuel + 1) pc r drop = run fuel (pc + 1) r (if hint ea then drop else drop + 1)) ∧
      (let ends := fun (perm n : Nat) (k : KWait) =>
         run (fuel + 1) pc r drop = (if !capHas t perm then (.fault 0x05 ea, pc, r, drop) else if !capCovers t ea n then (.fault 0x04 ea, pc, r, drop)
           else if ea % n ≠ 0 then (.fault 0x07 ea, pc, r, drop) else (k, pc + 1, r, drop))
       (op = 10 → ends permL 8 (.kld D ea)) ∧ (op = 12 → ends permL size (.gather ea size none)) ∧ (op = 13 → ends permS size (.scatter ea size false))))

/-- Fibres: `fbopen` opens one at position 0; `fbadv` writes the next index and value and advances, parks while none has been read, and traps at the end (0x80) or on a closed
fibre (0x81); an entry whose read met a fault takes that trap; `fbend` and `fbclose`; `fbdot` adds the products of equal indices and leaves both at their ends; entries are read
ahead in order, a fault with its address (R286-R289). -/
def Claims.FibreResults : Prop :=
  ∀ (d a b : Fin 64) (s : State), a.val < 8 → b.val < 8 → let f := s.cpu.fb.toList.getD a.val .closed
    let refuses := fun (i : Instr) (reason : Word) => exec i s = .next (s.takeTrap ⟨0x12, 0, reason, false, false⟩)
    (∀ (e : Fin 64) ci cv x, d.val < 8 → readBlock s e 3 = .ok [ci, cv, x] → bits x.bits 33 3 < 6 →
      let al := fun k => if bits x.bits 0 32 = 0 then 1 else k
      let size := if x.bits.getLsbD 32 then 4 else 2
      let vsize := valueBytes (bits x.bits 33 3)
      (x.bits.getLsbD 36 = false → engCap ci 2 (permL + permE) (bits x.bits 0 32 * size) (al size) = .ok ()) →
      engCap cv 2 (permL + permE) (bits x.bits 0 32 * vsize) (al vsize) = .ok () →
      let g : Fibre := ⟨ci, cv, BitVec.ofNat 32 (bits x.bits 0 32), 0, x.bits.getLsbD 32, ⟨bits x.bits 33 3 % 8, Nat.mod_lt _ (by decide)⟩, x.bits.getLsbD 36, true,
        BitVec.ofNat 24 (bits x.bits 40 24), [], false, 0⟩
      let t := s.finish 1 (blockUses e 3)
      (s.cpu.sq = [] → ∃ u : Ctx, exec (.fbopen d e) s = .next { t with cpu := u } ∧ u.fb.toList = t.cpu.fb.toList.set d.val { g with started := true, after := s.packetN } ∧
        { u with fb := t.cpu.fb } = t.cpu) ∧
      (s.cpu.sq ≠ [] → ∃ c, exec (.fbopen d e) s = .next ((t.onCpu fun y => { y with fb := y.fb.setIfInBounds d.val g }).enqueue (.command 4 c)) ∧
        c.op = .fbopen ⟨d.val % 8, Nat.mod_lt _ (by decide)⟩)) ∧
    (useW s d 1 = .ok () → useW s (d + 1) 1 = .ok () →
      (f.opn = false → refuses (.fbadv d a) 0x81) ∧ (f.opn = true → f.len.toNat ≤ f.pos.toNat → refuses (.fbadv d a) 0x80) ∧
      (f.opn = true → f.pos.toNat < f.len.toNat → f.ahead = [] → exec (.fbadv d a) s = .next (s.parkOn (.fibre a.val))) ∧
      (∀ e rest, f.opn = true → f.pos.toNat < f.len.toNat → f.ahead = e :: rest → e.fault ≠ 0 → exec (.fbadv d a) s = .next ((s.onCpu fun c =>
        { c with fb := c.fb.setIfInBounds a.val { f with ahead := [] } }).takeTrap ⟨e.fault, 0, e.val, false, false⟩)) ∧
      (∀ x v rest, f.opn = true → f.pos.toNat < f.len.toNat → f.ahead = ⟨some x, v, 0⟩ :: rest → exec (.fbadv d a) s = .next (s.onCpu fun c =>
        { (c.writeW d (.plain x)).writeW (d + 1) (.plain v) with
          fb := ((c.writeW d (.plain x)).writeW (d + 1) (.plain v)).fb.setIfInBounds a.val { f with pos := f.pos + 1, ahead := rest } }.advance 1))) ∧
    (useW s d 1 = .ok () → exec (.fbend d a) s = .next (s.finishW 1 [] d (.plain (if f.opn = true ∧ f.pos ≠ f.len then 0 else 1)))) ∧
    exec (.fbclose a) s = .next ((s.finish 1 []).onCpu fun c => { c with fb := c.fb.setIfInBounds a.val .closed }) ∧
    (let g := s.cpu.fb.toList.getD b.val .closed
     let good := fun y : Fibre => y.opn = true ∧ 3 ≤ y.vt.val ∧ y.vt.val ≤ 5 ∧ y.allRead = true ∧ ∀ e ∈ y.ahead, e.fault = 0 ∧ e.idx ≠ none
     let list := fun y : Fibre => y.ahead.map fun e => ((e.idx.getD 0).toNat, e.val.toNat)
     useW s d 1 = .ok () → good f → good g → (list f).Pairwise (fun x y => x.1 < y.1) → (list g).Pairwise (fun x y => x.1 < y.1) →
       exec (.fbdot d a b) s = .next (((s.flag (dotProduct f.vt.val g.vt.val (list f) (list g) s.cpu.rnd).2).onCpu fun c =>
         { c with fb := (c.fb.setIfInBounds a.val { f with pos := f.len, ahead := [] }).setIfInBounds b.val { g with pos := g.len, ahead := [] } }).finishW 1 [] d
         (.plain (BitVec.ofNat 64 (dotProduct f.vt.val g.vt.val (list f) (list g) s.cpu.rnd).1)))) ∧
    (∀ (h slot n : Nat), let x := (s.ctx h slot).fibre n
      x.opn = true → x.started = true → s.stopped (s.ctx h slot).tenant = false → x.pos.toNat + x.ahead.length < x.len.toNat → x.ahead.length < 8 →
      (∀ e ∈ x.ahead, e.fault = 0) → x.dns = true →
      let i := x.pos.toNat + x.ahead.length
      let read := (⟨h, (s.ctx h slot).tenant, h, x.after, [], x.capV, false⟩ : Reader).word s false (valueBytes x.vt.val) ((capAddr x.capV).toNat + valueBytes x.vt.val * i)
      let puts := fun (t : State) (v code : Nat) =>
        t.setCtx h slot ((t.ctx h slot).setFibre n { x with ahead := x.ahead ++ [⟨some (BitVec.ofNat 64 (x.idx0.toNat + i)), BitVec.ofNat 64 v, code⟩] })
      (∀ v t, read = .ok (v, t) → exec (.fibreReadAhead h slot n) s = .next (puts t v 0)) ∧
      (∀ code v, read = .error (code, v) → code ≠ notYet → exec (.fibreReadAhead h slot n) s = .next (puts s v code)))

/-- Kernel operations compute as their table says and fibre instructions take and advance entries. -/
def Obligations.KernelsAndFibres : Prop := Claims.KernelOperations ∧ Claims.FibreResults

/-- Request n, of engine `eng`, is the first that can be answered of those made in its slot, and the context that made it waits for it in slot `slot` of core h, where it may
have been moved since (R327, R336, R383, R400). -/
def Claims.Asked (s : State) (n eng : Nat) (c : Cmd) (h slot : Nat) (uses : List Nat) : Prop :=
  s.requests[n]? = some (eng, c) ∧ (∀ j e q, j < n → s.requests[j]? = some (e, q) → q.h = c.h → q.slot = c.slot → s.answerTo j e q = none) ∧
    s.heldAt c.ident = some (h, slot) ∧ (s.ctx h slot).answer = some (eng, uses) ∧ (s.ctx h slot).gen = c.gen ∧
    (h < 2048 ∨ s.isBlocked (frameOf (s.loc c.ident).img.toNat) = false)

/-- The engine's answer to it is a value for w[d], or none to write, and the instruction completes in the context that asked: in its registers, or in
the image that a stop has saved (R170, R327, R336, R383, R400). -/
def Claims.Gives (s : State) (c : Cmd) (h slot : Nat) (uses : List Nat) (x : Option Wreg) (t : State) : Prop :=
  exec (.engineAnswer c.h c.slot) s = .next (t.onRegs h slot fun y => y.answered c.d uses x)

/-- The engine's answer to it is a precise trap of the context that asked, which waits for the resume where a stop has halted the context (R327, R336). -/
def Claims.Traps (s : State) (c : Cmd) (h slot : Nat) (t : State) (code opnd info : Nat) : Prop := (s.ctx h slot).stopHalted = false →
  exec (.engineAnswer c.h c.slot) s =
    .next (((t.focus h slot).onCpu fun y => { y with answer := none, run := .ready }).takeTrap ⟨code, opnd, BitVec.ofNat 64 info, false, false⟩)

/-- `fq` answers with the field's state as the phase master holds it, in the layout of R334, and the context that waits for it goes on with that value in its register. -/
def Obligations.FieldQuery : Prop :=
  ∀ (s : State) (n h slot : Nat) (f : Field) (c : Cmd) (uses : List Nat), Claims.Asked s n 5 c h slot uses → c.op = .fq → c.taken = false →
    let pa := (c.regs.getLastD .zero).lo.toNat
    devOf pa = s.dev → s.fields.find? (fun g => g.desc = pa && (g.tenant = c.tenant || c.prv)) = some f →
    ∃ v : Wreg, Claims.Gives s c h slot uses (some v) { s with requests := listDrop s.requests n } ∧ v.tag = false ∧
      bits v.bits 0 36 = f.bound % 2 ^ 36 ∧ bits v.bits 36 3 = (if f.stopBy.isSome then 4 else match f.mode with | .hold => 0 | .run => 1 | .step => 2 | .faulted => 3) ∧
      bits v.bits 39 1 = 0 ∧ bits v.bits 40 24 = f.steps % 2 ^ 24 ∧ bits v.bits 64 32 = f.nfc % 2 ^ 32 ∧ bits v.bits 96 6 = f.num % 64 ∧ bits v.bits 102 4 = bits f.parms 1084 4 ∧
      bits v.bits 106 3 = f.pulls.length % 8 ∧ bits v.bits 109 19 = 0

/-- The nine Vat instructions, with their descriptor capability checked, send their request behind the older stores with the registers they name and park until the phase master
answers; `fq` and `fwait` can be given up for a mailbox interrupt (R37, R327, R328-R336). -/
def Claims.FieldRequests : Prop :=
  ∀ (d a b : Fin 64) (s : State) (w c x y : Wreg), readW s d 1 = .ok w → useW s d 1 = .ok () → readW s a 2 = .ok c → readW s b 3 = .ok x → readW s (b + 1) 3 = .ok y →
    let asks := fun (i : Instr) (op : CmdOp) (perm : Nat) (d : Fin 64) (regs : List Wreg) (uses : List Nat) (giveUp : Bool) =>
      ∀ pa t, checkKind0 c 2 (capAddr c) perm = .ok () → checkRange c 2 (capAddr c) 256 256 = .ok () → descAt s c = .ok (pa, t) →
      let cmd := { t.capture op t.cpu.seqs[5] ([c] ++ regs ++ [.plain (BitVec.ofNat 64 pa)]) [] with d := d }
      let u := (t.takeSeq 5).2.onCpu fun z => { z with answer := some (5, uses), run := .parked (if giveUp then .ask 5 else .answer 5) }
      (t.cpu.sq = [] → exec i s = .next { u with requests := u.requests ++ [(5, cmd)] }) ∧ (t.cpu.sq ≠ [] → exec i s = .next (u.enqueue (.command 5 cmd)))
    asks (.fdecl d a) .fdecl (permL + permF + permLC) d [.zero] [a.val] false ∧
    asks (.fstart d a) .fstart (permL + permF) d [.zero] [a.val] false ∧
    asks (.fstop a) .fstop (permL + permF) 0 [.zero] [a.val] false ∧
    asks (.fstep d a b) .fstep (permL + permF) d [x, .zero] [a.val, b.val] false ∧
    asks (.fctl d a b) .fctl (permL + permF) d [x, w] [d.val, a.val, b.val] false ∧
    asks (.fq d a) .fq permL d [.zero] [a.val] true ∧
    asks (.fcoup d a b) .fcoup (permL + permF) d [x, y, w] [d.val, a.val, b.val, (b + 1).val] false ∧
    asks (.fwait d a b) .fwait permL d [x, .zero] [a.val, b.val] true ∧
    (engCap x 3 (permS + permE) (bits y.bits 32 32 * 128) 128 = .ok () → asks (.fpull d a b) .fpull permL d [x, y, w] [d.val, a.val, b.val, (b + 1).val] false)

/-- What the phase master answers: a descriptor on another device gives 0x95, and no live field 0x94; `fstart`, `fstep`, `fctl`, `fcoup`, `fpull`, `fstop` and `fwait` act on the field's mode, steps, furnish queue and pulls, and
return boundaries or a status, or are refused with their reasons, as R329-R335 say; the answer reaches the waiting register or is a precise trap. Where several refusals hold at once,
the order in which they are tested is the model's (log 47), and the last boundary of a field is 2^32 * C - 1 (the model's reading, log 46). -/
def Claims.FieldAnswers : Prop :=
  ∀ (s : State) (n h slot : Nat) (c : Cmd) (uses : List Nat), Claims.Asked s n 5 c h slot uses → c.taken = false →
    let pa := (c.regs.getLastD .zero).lo.toNat
    let t : State := { s with requests := listDrop s.requests n }
    let gives := fun (u : State) (v : Nat) => Claims.Gives s c h slot uses (some (.plain (BitVec.ofNat 64 v))) u
    let refuses := fun reason : Nat => Claims.Traps s c h slot t 0x12 0 reason
    let ours := s.fields.find? fun g => g.desc = pa && (g.tenant = c.tenant || c.prv)
    (devOf pa ≠ s.dev → refuses 0x95) ∧
    (devOf pa = s.dev → c.op ∈ [CmdOp.fstart, .fstop, .fstep, .fctl, .fq, .fpull, .fcoup, .fwait] → ours = none → refuses 0x94) ∧
    (∀ f, devOf pa = s.dev → ours = some f → let k := (c.reg 1).lo.toNat
      let last := 2 ^ 32 * (bits f.parms 1084 4 + 1) - 1
      let started := fun g : Field => { g with started := true, saved := none, sites := [], reports := [], received := [] }
      (c.op = .fstart → (f.mode = .faulted → refuses 0x96) ∧ (f.mode ≠ .faulted → f.spent = true → refuses 0x9D) ∧
        (f.mode ≠ .faulted → f.spent = false → f.stopBy ≠ none → refuses 0x9E) ∧
        (f.spent = false → f.stopBy = none → (f.mode = .hold → gives (t.setField (started { f with mode := .run })) f.bound) ∧
          (f.mode = .step → gives (t.setField { f with mode := .run, steps := 0 }) f.bound) ∧ (f.mode = .run → gives t f.bound))) ∧
      (c.op = .fstep → (f.mode = .run ∨ f.mode = .faulted → refuses 0x96) ∧
        (∀ old, (f.mode = .hold ∧ old = 0 ∨ f.mode = .step ∧ old = f.steps) →
          (k = 0 ∨ 65535 < k ∨ 2 ^ 24 ≤ old + k → refuses 0x97) ∧
          (0 < k → k ≤ 65535 → old + k < 2 ^ 24 → (f.spent = true ∨ last < f.bound + old + k) → refuses 0x9D) ∧
          (0 < k → k ≤ 65535 → old + k < 2 ^ 24 → f.spent = false → f.bound + old + k ≤ last → f.stopBy ≠ none → refuses 0x9E) ∧
          (0 < k → k ≤ 65535 → old + k < 2 ^ 24 → f.spent = false → f.bound + old + k ≤ last → f.stopBy = none →
            (f.mode = .hold → gives (t.setField (started { f with mode := .step, steps := k })) (f.bound + k)) ∧
            (f.mode = .step → gives (t.setField { f with steps := f.steps + k }) (f.bound + f.steps + k))))) ∧
      (c.op = .fstop → (f.stopBy ≠ none → refuses 0x9E) ∧
        (f.stopBy = none → let g := { f with stopBy := some c }
          let u := if f.mode = .hold ∨ f.mode = .faulted then t.endField g else t.setField g
          Claims.Gives s c h slot uses none u)) ∧
      (c.op = .fwait → (k ≤ f.bound → k ≤ last → gives t 0) ∧ (last < k → gives t 1) ∧ (f.bound < k → k ≤ last → (f.ended = true ∨ f.mode = .faulted) → gives t 1) ∧
        (f.bound < k → k ≤ last → f.ended = false → f.mode ≠ .faulted → (∀ j e q, j ≠ n → s.requests[j]? = some (e, q) → q.h = c.h → q.slot = c.slot → s.answerTo j e q = none) →
          exec (.engineAnswer c.h c.slot) s = .next s)) ∧
      (let b := (c.regs.getD (c.regs.length - 2) .zero).lo.toNat
       let goal := if b = 2 ^ 64 - 1 then f.bound + 1 else b
       let queues := fun e : Furnish => (goal ≤ f.bound → refuses 0x98) ∧ (f.bound < goal → 256 ≤ f.furnish.length → refuses 0x99) ∧
         (f.bound < goal → f.furnish.length < 256 → f.mode = .faulted → refuses 0x96) ∧
         (f.bound < goal → f.furnish.length < 256 → f.mode ≠ .faulted → f.spent = true ∨ last < goal → refuses 0x9D) ∧
         (f.bound < goal → f.furnish.length < 256 → f.mode ≠ .faulted → f.spent = false → goal ≤ last → f.stopBy ≠ none → refuses 0x9E) ∧
         (f.bound < goal → f.furnish.length < 256 → f.mode ≠ .faulted → f.spent = false → goal ≤ last → f.stopBy = none →
           gives (t.setField { f with furnish := f.furnish ++ [{ e with bound := goal }] }) goal)
       (c.op = .fctl → let x := (c.reg 1).lo
         let beta := if x.getLsbD 32 then some (x.setWidth 32) else none
         (bits x 33 2 = 3 ∨ bits x 35 29 ≠ 0 ∨ (x.getLsbD 32 = true ∧ (f32.decode (bits x 0 32)).special = true) → refuses 0x90) ∧
         (bits x 33 2 < 2 → bits x 35 29 = 0 → (x.getLsbD 32 = true → (f32.decode (bits x 0 32)).special = false) →
           queues ⟨0, [], false, beta, if bits x 33 2 = 1 then some .hold else none⟩) ∧
         (bits x 33 2 = 2 → bits x 35 29 = 0 → (x.getLsbD 32 = true → (f32.decode (bits x 0 32)).special = false) → f.mode = .hold → (b = 2 ^ 64 - 1 ∨ b = f.bound) →
           f.spent = false → f.stopBy = none → gives (t.setField (started { f with beta := beta.getD f.beta, mode := .run, steps := 0 })) f.bound) ∧
         (bits x 33 2 = 2 → bits x 35 29 = 0 → (x.getLsbD 32 = true → (f32.decode (bits x 0 32)).special = false) → ¬(f.mode = .hold ∧ (b = 2 ^ 64 - 1 ∨ b = f.bound)) →
           queues ⟨0, [], false, beta, some .run⟩)) ∧
       (c.op = .fcoup → let v := (c.reg 1).bits
         let x := (c.reg 2).lo
         let p := bits x 0 32
         let n := bits x 33 3 + 1
         (f.d.positions (x.getLsbD 32) < p + n → refuses 0x9B) ∧ (p + n ≤ f.d.positions (x.getLsbD 32) → bits x 36 28 ≠ 0 → refuses 0x90) ∧
         (p + n ≤ f.d.positions (x.getLsbD 32) → bits x 36 28 = 0 →
           queues ⟨0, (List.range n).map fun j => (p + j, v.extractLsb' (16 * j) 16), x.getLsbD 32, none, none⟩)) ∧
       (c.op = .fpull → let x := (c.reg 2).lo
         let o := if f.spent = true ∨ (f.started = true ∧ f.received ≠ []) then f.bound + 1 else f.bound
         let goal := if b = 2 ^ 64 - 1 then o else b
         let inside := 0 < bits x 32 32 ∧ bits x 0 32 + bits x 32 32 ≤ f.d.lines
         (¬inside → refuses 0x9C) ∧ (inside → goal < o → refuses 0x98) ∧ (inside → o ≤ goal → 4 ≤ f.pulls.length → refuses 0x9A) ∧
         (inside → o ≤ goal → f.pulls.length < 4 → f.mode = .faulted → refuses 0x96) ∧
         (inside → o ≤ goal → f.pulls.length < 4 → f.mode ≠ .faulted → goal ≤ last → f.stopBy = none →
           gives (t.setField { f with pulls := f.pulls ++ [⟨goal, bits x 0 32, bits x 32 32, c.reg 1, c, decide (goal = f.bound), []⟩] }) goal))))

/-- Vat instructions ask the phase master and are answered, refused or left waiting. -/
def Obligations.FieldRequests : Prop := Claims.FieldRequests ∧ Claims.FieldAnswers

/-- `fdecl` on a descriptor whose arrays pass their checks: one that R316 does not admit is refused with 0x90, a page that is not pinned and free to be taken with 0x91, and a 65th
field with 0x92; otherwise it declares a field in hold at boundary 0 and returns its number; the frames of its pages are the field's from then on (R296, R302, R328). -/
def Claims.FieldDeclaration : Prop :=
  ∀ (s : State) (n h slot : Nat) (c : Cmd) (uses : List Nat) gs t, Claims.Asked s n 5 c h slot uses → c.op = .fdecl → devOf (c.regs.getLastD .zero).lo.toNat = s.dev →
    let base := (c.reg 0).lo.toNat
    let d : Desc := ⟨BitVec.ofNat 2048 ((gs.take 16).foldr (fun g a => g.bits.toNat + a * 2 ^ 128) 0)⟩
    let caps := (c.reg 0, base, 256) :: (d.arrays.filter fun a => a.1 ≠ 5).map fun (g, _, n, _) => (gs.getD g .zero, d.cap g, n)
    let refused := fun (u : State) (reason : Nat) => Claims.Traps s c h slot u 0x12 0 reason
    descGranules ⟨c.h, c.tenant, c.h, c.after, [], c.reg 0, false⟩ base 16 0 { s with requests := listDrop s.requests n } = .ok (gs, t) → arraysFault gs d.arrays = none →
    (d.ok base = false → refused t 0x90) ∧
    (∀ ws v (m : List (Nat × Nat)) u, d.ok base = true →
      (⟨c.h, c.tenant, c.h, c.after, [], gs.getD 5 .zero, false⟩ : Reader).words false 4
        ((List.range (if d.rout = 3 then d.ninsm + 1 else 0)).map fun i => d.cap 5 + 4 * i) t = .ok (ws, v) →
      (∀ w ∈ ws, routineWordOk d.ndl (BitVec.ofNat 32 w) = true) →
      touchPages c.h c.tenant caps (sortNat (caps.map fun (_, a, n) => pagesOf a n).flatten) v = (m, u, none) → u.pagesQuiet c (m.map (·.2)) = true →
      let free := ∀ p ∈ m, u.takable p.2 = true
      (¬free → refused u 0x91) ∧ (free → 64 ≤ u.fields.length → refused u 0x92) ∧
      (free → u.fields.length < 64 → ∃ (k : Nat) (f : Field), Claims.Gives s c h slot uses (some (.plain (BitVec.ofNat 64 k))) { u with fields := u.fields ++ [f] } ∧
        f.num = k ∧ k < 64 ∧ (∀ g ∈ u.fields, g.num ≠ k) ∧ f.mode = .hold ∧ f.bound = 0 ∧ f.steps = 0 ∧ f.nfc = 0 ∧ f.started = false ∧ f.furnish = [] ∧ f.pulls = [] ∧
        f.parms = d.x ∧ f.beta = d.beta ∧ f.code = ws.map (BitVec.ofNat 32) ∧ f.owner = c.ident ∧ f.ogen = c.gen ∧ f.tenant = c.tenant ∧ f.pages = m.map (·.2)))

/-- The steps of a field's phase: a Vat receives the boundary, updates each site of the phase's colour once by the field's routine, writing only that site, and reports; the master then
publishes the next boundary, applying its furnish entries, making its pulls live and counting steps; a site with a neighbour of its colour is skipped and faults the field, with a message to
the owner that names the lowest such site; a field that an `fstop` has taken ends there (R299-R303, R306, R308, R310, R311, R324). The last boundary is 2^32 * C - 1 (the model's reading,
log 46). -/
def Claims.FieldPhases : Prop :=
  ∀ (s : State) (n : Nat) (f : Field), s.field n = some f →
    (∀ v, f.started = true → v ∈ s.vatsOf f → v ∉ f.received → exec (.boundaryReceive n v) s = .next (s.setField { f with received := f.received ++ [v] })) ∧
    (∀ v, f.started = true → v ∈ f.received → v ∉ f.reports → (∀ i, i < f.d.ns → s.vatOf f i = v → s.phaseOf f i = f.bound % f.d.c → i ∈ f.sites) →
      exec (.phaseReport n v) s = .next (s.setField { f with reports := f.reports ++ [v] })) ∧
    (∀ i, f.started = true → i < f.d.ns → s.vatOf f i ∈ f.received → s.vatOf f i ∉ f.reports → i ∉ f.sites → s.phaseOf f i = f.bound % f.d.c →
      let clash := f.d.c ≤ s.colour f i ∨ ∃ k, k < f.d.nb ∧ ∃ j, s.neighbour f i k = some j ∧ (j = i ∨ s.colour f j = f.bound % f.d.c)
      let g := { f with sites := f.sites ++ [i] }
      (clash → exec (.siteUpdate n i) s = .next (s.setField { g with conflict := some (min i (f.conflict.getD i)) })) ∧
      (¬clash → s.updateOf g i = .nonFinite → exec (.siteUpdate n i) s = .next (s.setField { g with nfc := min (f.nfc + 1) (2 ^ 32 - 1) })) ∧
      (¬clash → s.updateOf g i = .leave → exec (.siteUpdate n i) s = .next (s.setField g)) ∧
      (∀ x, ¬clash → s.updateOf g i = .write x → f.pulls = [] → let b := if f.d.styp = 2 then 2 else 1
        exec (.siteUpdate n i) s = .next ((s.ownWrite 0 ⟨f.phys (f.d.cap 0 + i * b), 0, b, BitVec.ofNat 1024 x, ones 128 b, false, false⟩).setField g))) ∧
    (f.started = true → f.ended = false → (∀ v ∈ s.vatsOf f, v ∈ f.reports) → s.stopped f.tenant = false →
      let last := 2 ^ 32 * f.d.c - 1
      let b := f.bound + 1
      let r := s.applyFurnishes { f with furnish := f.furnish.filter fun e => ¬e.bound = b } (f.furnish.filter fun e => e.bound = b)
      let g : Field := { r.2 with bound := b, started := false, conflict := none, pulls := r.2.pulls.map fun p => if p.bound = b then { p with live := true } else p }
      let held := fun x : Field => { x with sites := [], reports := [], received := [] }
      let starts := fun x : Field => { held x with started := true, saved := none }
      let publishes := fun t : State => exec (.boundaryPublish n) s = .next t
      (f.bound ≠ last → f.conflict = none → f.stopBy = none →
        (g.mode = .run → publishes (r.1.setField (starts g))) ∧
        (g.mode = .step → g.steps ≤ 1 → publishes (r.1.setField (held { g with mode := .hold, steps := 0 }))) ∧
        (g.mode = .step → 1 < g.steps → publishes (r.1.setField (starts { g with steps := g.steps - 1 }))) ∧
        (g.mode = .hold → publishes (r.1.setField (held g)))) ∧
      (∀ i, f.bound ≠ last → f.conflict = some i → f.stopBy = none → s.mayPost f.owner f.ogen 5 = true →
        publishes (((f.pulls.filter fun p => b < p.bound).foldl (fun u p => u.failPull p 0x11 0 0 p.bound) (r.1.post f.owner f.ogen (message 1 5 0x11 0 0 0 0 i))).setField
          (held { g with mode := .faulted, pulls := g.pulls.filter fun p => p.bound ≤ b }))) ∧
      (f.bound ≠ last → f.conflict = none → f.stopBy ≠ none → publishes (r.1.endField g)) ∧
      (f.bound = last → f.conflict = none → s.mayPost f.owner f.ogen 5 = true →
        let u := s.post f.owner f.ogen (message 3 5 0 0 0 0 0 (f.bound + f.num * 2 ^ 36))
        let x := { f with mode := .hold, started := false, spent := true }
        (f.stopBy = none → publishes (u.setField x)) ∧ (f.stopBy ≠ none → publishes (u.endField x))) ∧
      (f.conflict ≠ none ∨ f.bound = last → s.mayPost f.owner f.ogen 5 = false → publishes s)) ∧
    (∀ c, f.stopBy = some c → f.pulls = [] → f.furnish = [] → s.canPost c 5 = true → ∃ u : State, s.endField f = u.post c.ident c.gen
        (message 0 5 0 0 1 c.seq.toNat (f.bound / 2 ^ 32 % 16) (f.bound % 2 ^ 32 + f.discarded % 2 ^ 32 * 2 ^ 32)) ∧ (∀ x ∈ u.fields, x.num ≠ f.num) ∧ u.mem = s.mem)

/-- Fields are declared, sweep their sites in phases and publish their boundaries. -/
def Obligations.FieldPhases : Prop := Claims.FieldDeclaration ∧ Claims.FieldPhases

/-- Furnish entries, at the boundary that they are assigned to: each value is written at its position of the couplings or biases, β and the mode change, and entries take effect in queue order;
the boundary's publication applies those assigned to it and leaves the others queued (R303, R308, R331, R332). -/
def Claims.FurnishEntries : Prop :=
  (∀ (s : State) (f : Field) (e : Furnish), e.vals = [] →
    (s.applyFurnish f e).1 = s ∧ (∀ x, e.beta = some x → (s.applyFurnish f e).2.beta = x) ∧ (e.beta = none → (s.applyFurnish f e).2.beta = f.beta) ∧
      (e.mode = some .run → (s.applyFurnish f e).2.mode = .run ∧ (s.applyFurnish f e).2.steps = 0) ∧
      (e.mode = some .hold → (s.applyFurnish f e).2.mode = .hold ∧ (s.applyFurnish f e).2.steps = f.steps) ∧
      (e.mode = none → (s.applyFurnish f e).2.mode = f.mode ∧ (s.applyFurnish f e).2.steps = f.steps)) ∧
  (∀ (s : State) (f : Field) (e : Furnish) p v rest, e.vals = (p, v) :: rest →
    s.applyFurnish f e = (s.ownWrite 0 ⟨f.phys (f.d.cap (if e.bias then 2 else 1) + 2 * p), 0, 2, v.setWidth 1024, ones 128 2, false, false⟩).applyFurnish f { e with vals := rest }) ∧
  (∀ (s : State) (f : Field) (e : Furnish) rest, s.applyFurnishes f [] = (s, f) ∧
    s.applyFurnishes f (e :: rest) = (s.applyFurnish f e).1.applyFurnishes (s.applyFurnish f e).2 rest) ∧
  (∀ (s : State) (n : Nat) (f : Field), s.field n = some f → f.started = true → f.ended = false → (∀ v ∈ s.vatsOf f, v ∈ f.reports) → f.conflict = none → f.stopBy = none →
    f.bound + 1 < 2 ^ 32 * f.d.c → ∃ t g, exec (.boundaryPublish n) s = .next t ∧ t.field n = some g ∧ g.bound = f.bound + 1 ∧
      g.furnish = f.furnish.filter (fun e => ¬e.bound = f.bound + 1) ∧ t.mem = (s.applyFurnishes f (f.furnish.filter fun e => e.bound = f.bound + 1)).1.mem ∧
      g.beta = (s.applyFurnishes f (f.furnish.filter fun e => e.bound = f.bound + 1)).2.beta)

/-- Pulls: a line of a live pull is copied once to its place in the destination, when nothing keeps that, and with every line applied the pull posts its completion with its boundary
and is dropped; a fault at the destination posts the cause, the number of lines applied and the address, and drops the pull; while a stop of its tenant holds the field no line is
copied (R306, R307, R313, R333). -/
def Claims.FieldPulls : Prop :=
  ∀ (s : State) (n k : Nat) (f : Field) (p : Pull), s.field n = some f → f.pulls[k]? = some p → p.live = true → f.stopBy = none →
    (∀ l, s.stopped f.tenant = false ∨ f.started = true → p.first ≤ l → l < p.first + p.count → l ∉ p.lines →
      let at' := s.engAccess p.cmd.h p.cmd.tenant p.dest ((capAddr p.dest).toNat + 128 * (l - p.first)) .wr false
      (∀ q t, at' = .ok (q, t) →
        let w : WriteOp := ⟨q.pa, q.swz, 128, BitVec.ofNat 1024 (s.mem.read 0 (f.phys (f.d.cap 0 + 128 * l)) 128), ones 128 128, false, true⟩
        (t.writeReady p.cmd.h p.cmd.h p.cmd.after w = true →
          exec (.pullBackgroundCopy n k l) s = .next ((t.engineWrite p.cmd.h w).setField { f with pulls := listSet f.pulls k { p with lines := p.lines ++ [l] } })) ∧
        (t.writeReady p.cmd.h p.cmd.h p.cmd.after w = false → exec (.pullBackgroundCopy n k l) s = .next s)) ∧
      (∀ code va, at' = .error (code, va) → code ≠ notYet →
        (s.canPost p.cmd 5 = true → exec (.pullBackgroundCopy n k l) s =
          .next ((s.post p.cmd.ident p.cmd.gen (message 1 5 code 0 0 p.cmd.seq.toNat (p.lines.length % 65536) va)).setField { f with pulls := listDrop f.pulls k })) ∧
        (s.canPost p.cmd 5 = false → exec (.pullBackgroundCopy n k l) s = .next s))) ∧
    (∀ l, s.stopped f.tenant = true → f.started = false → exec (.pullBackgroundCopy n k l) s = .next s) ∧
    (p.count ≤ p.lines.length → s.canPost p.cmd 5 = true →
      exec (.pullComplete n k) s = .next ((s.post p.cmd.ident p.cmd.gen (message 0 5 0 0 1 p.cmd.seq.toNat 0 p.bound)).setField { f with pulls := listDrop f.pulls k }))

/-- Pulls copy a field at their boundary and furnish entries take effect at theirs. -/
def Obligations.FieldPulls : Prop := Claims.FurnishEntries ∧ Claims.FieldPulls

/-- `wmask` sets the mask of the tenant in bits 8-13 of w[a] in the slice of bits 0-7 to bits 0-15 of w[b], ignoring every other bit: it enters the slice engine's path, is refused
with 0xA6 at the slice when the mask is empty and the tenant holds a page pinned there, and posts its completion with the new mask once it is set. Where it removes ways, it is taken first:
from then on the tenant's fills of the slice keep to the ways of both masks; once no engine holds a line that the slice keeps for the tenant, the copies in the removed ways are written back
and invalidated, and the mask is set (R354, R365). An empty mask is accepted otherwise (log 52); that the slice waits for engine holders before it evicts is the model's reading (log 33). -/
def Claims.WayMasks : Prop :=
  (∀ (a b : Fin 64) (s : State) (x y : Wreg), s.cpu.prv = true → readW s a 2 = .ok x → readW s b 3 = .ok y → s.cpu.sq = [] →
    let t := (s.takeSeq 6).2
    exec (.wmask a b) s = .next (({ t with requests := t.requests ++ [(6, s.capture .wmask s.cpu.seqs[6] [x, y] [])] } : State).finish 1 [a.val, b.val])) ∧
  (∀ (s : State) (k : Nat) (c : Cmd) (x y : Wreg), s.requests[k]? = some (6, c) → c.op = .wmask → c.regs = [x, y] → s.canPost c 6 = true →
    let n := x.bits.toNat % 2 ^ 8
    let ten := x.bits.toNat / 2 ^ 8 % 2 ^ 6
    let m := y.bits.toNat % 2 ^ 16
    let pinned := ∃ p ∈ s.pins, ∃ q : Pin, p.2 = some q ∧ q.slice = n ∧ q.tenant = ten
    let t := { s with requests := listDrop s.requests k }
    let refused := c.taken = false ∧ m = 0 ∧ pinned
    let gone := Tab.get 0xFFFF s.wmk (n * 64 + ten) &&& ~~~BitVec.ofNat 16 m
    let ends := fun u : State => s.sliceStep k =
      some (({ u with wmk := Tab.set 0xFFFF s.wmk (n * 64 + ten) (BitVec.ofNat 16 m), requests := t.requests } : State).post c.ident c.gen
        (message 0 6 0 0 1 c.seq.toNat 0 m))
    (refused → s.sliceStep k = some (t.post c.ident c.gen (message 2 6 0x12 0xA6 0 c.seq.toNat 0 0))) ∧
    (¬refused → gone = 0 → ends s) ∧
    (¬refused → gone ≠ 0 → c.taken = false → s.sliceStep k = some { s with requests := listSet s.requests k (6, { c with taken := true }) }) ∧
    (c.taken = true → gone ≠ 0 → s.sliceHeld n ten = true → s.sliceStep k = none) ∧
    (c.taken = true → gone ≠ 0 → s.sliceHeld n ten = false → ends (s.evictWhere n fun q => decide (q.tenant = ten) && bit gone q.way)) ∧
    (c.taken = true → ∀ w, w ∈ s.usableWays n ten → bit (Tab.get 0xFFFF s.wmk (n * 64 + ten)) w = true ∧ m / 2 ^ w % 2 = 1)) ∧
  (∀ (s : State) (n r line : Nat) (p : QLine → Bool), Tab.wf .none s.qlines = true → r < 16 → copySlice r line = n → p (s.qline r line) = true → ((s.evictWhere n p).qline r line).here = false) ∧
  (∀ (s : State) (r line : Nat), Tab.wf .none s.qlines = true → (s.qline r line).here = true → s.mcast = [] → s.mem.wf = true → let u := s.evictCopy r line
    u.qline r line = .none ∧ (∀ i, i < 128 → u.mem.byte (line * 128 + i) =
      if (s.qline r line).dirty.getLsbD i then BitVec.ofNat 8 (bits (s.qline r line).data (8 * i) 8) else s.mem.byte (line * 128 + i)) ∧
    (∀ a, a / 128 ≠ line → u.mem.byte a = s.mem.byte a))

/-- The other slice instructions: `pmig` and `pmig.clr` of a privileged context with local frames below 768 GiB, and `mcoh` of a region that passes its checks, enter the slice
engine's path and the context goes on; a wrong frame takes 0x12 with 0xA0, and a user context the privilege trap (R361-R364). -/
def Claims.SliceCommands : Prop :=
  ∀ (a b : Fin 64) (s : State) (x y : Wreg), readW s a 2 = .ok x → readW s b 3 = .ok y →
    let sends := fun (i : Instr) (op : CmdOp) (regs : List Wreg) (uses : List Nat) => let t := (s.takeSeq 6).2
      let c := s.capture op s.cpu.seqs[6] regs []
      (s.cpu.sq = [] → exec i s = .next (({ t with requests := t.requests ++ [(6, c)] } : State).finish 1 uses)) ∧
      (s.cpu.sq ≠ [] → exec i s = .next ((t.enqueue (.command 6 c)).finish 1 uses))
    let frame := fun f : Wreg => f.lo.toNat % 65536 = 0 ∧ f.lo.toNat / 2 ^ 43 = s.mdl.devno.toNat ∧ f.lo.toNat % 2 ^ 43 < 0xC000000000
    let refuses := fun i : Instr => exec i s = .next (s.takeTrap ⟨0x12, 0, 0xA0, false, false⟩)
    (s.cpu.prv = false → exec (.pmig a b) s = .next (s.takeTrap ⟨0x13, 0, thisWord s, false, false⟩) ∧
      exec (.pmigClr a) s = .next (s.takeTrap ⟨0x13, 0, thisWord s, false, false⟩)) ∧
    (s.cpu.prv = true → frame x → frame y → x.lo ≠ y.lo → sends (.pmig a b) .pmig [x, y] [a.val, b.val]) ∧
    (s.cpu.prv = true → ¬(frame x ∧ frame y ∧ x.lo ≠ y.lo) → refuses (.pmig a b)) ∧
    (s.cpu.prv = true → frame x → sends (.pmigClr a) .pmigClr [x] [a.val]) ∧ (s.cpu.prv = true → ¬frame x → refuses (.pmigClr a)) ∧
    (regionArg x = .ok () → sends (.mcohSw a) .mcohSw [x] [a.val]) ∧
    (regionArg x = .ok () → engCap y 3 (permS + permE) (capLength y) 16 = .ok () → sends (.mcohHw a b) .mcohHw [x, y] [a.val, b.val])

/-- Slice-engine instructions check their operands, enter the engine and set way masks. -/
def Obligations.SliceCommands : Prop := Claims.WayMasks ∧ Claims.SliceCommands

/-- Migration and pages between devices: the slice blocks the frames of a `pmig` or refuses it with 0xA1, 0xA2 or 0xA8, also while a retirement moves a frame of it; once no engine holds them the
backings are exchanged, G is zeroed and the completion carries F; `pmig.clr` clears tag and pin, unless accesses queued at the frame's home keep them; another device takes a page held or shared,
and gives it up; this device takes a page of another into a free guest frame, which holds its bytes, and gives it up by blocking its lines first, and returning the bytes to the page once its engines
hold none of it (R349, R350, R357, R362, R363). Which refusal is tested first is the model's order (log 47), INFO 0 of `pmig.clr` too (log 50), and the tag that queued accesses keep (log 12); which free
guest frame is taken is the model's free value (log 51). -/
def Claims.MigrationSteps : Prop :=
  (∀ (s : State) (k : Nat) (c : Cmd), s.requests[k]? = some (6, c) → s.canPost c 6 = true →
    let f := (c.reg 0).lo.toNat / 65536
    let g := (c.reg 1).lo.toNat / 65536
    let t := { s with requests := listDrop s.requests k }
    let refuses := fun reason : Nat => s.sliceStep k = some (t.post c.ident c.gen (message 2 6 0x12 reason 0 c.seq.toNat 0 0))
    let pinned := (Tab.get none s.pins (f % 2 ^ 27)).isSome = true
    let used := Tab.get 0 s.policy g ≠ 0 ∨ ∃ e ∈ s.guests, e.2 = some g
    let session := ∃ e ∈ s.fast.sessions, f % 2 ^ 27 ∈ e.frames ∨ g % 2 ^ 27 ∈ e.frames
    (c.op = .pmig → (pinned ∨ s.fieldOwned f = true → refuses 0xA1) ∧ (¬pinned → s.fieldOwned f = false → used → refuses 0xA2) ∧
      (¬pinned → s.fieldOwned f = false → ¬used → s.frameBusy f = true ∨ s.frameBusy g = true ∨ session → refuses 0xA8) ∧
      (¬pinned → s.fieldOwned f = false → ¬used → s.frameBusy f = false → s.frameBusy g = false → ¬session →
        s.sliceStep k = some { t with blocked := s.blocked ++ [⟨f % 2 ^ 27, g % 2 ^ 27, some c, c.h⟩] })) ∧
    (c.op = .pmigClr → (s.fieldOwned f = true → refuses 0xA7) ∧ (s.fieldOwned f = false → s.frameBusy f = true → refuses 0xA8) ∧
      (s.fieldOwned f = false → s.frameBusy f = false → s.sliceStep k = some { t with blocked := s.blocked ++ [⟨f % 2 ^ 27, f % 2 ^ 27, some c, c.h⟩] }))) ∧
  (∀ (s : State) (f : Nat) (b : Blocked) rest (c : Cmd), s.blocked = b :: rest → b.frame = f → b.cmd = some c → s.canPost c 6 = true →
    let F := s.dev * 2 ^ 27 + b.frame
    let G := s.dev * 2 ^ 27 + b.other
    let queued := ∃ p ∈ s.net, p.stage = .agent ∧ ∃ a swz n, p.op.range = some (a, swz, n) ∧ frameOf a = F
    s.frameHeld F = false → s.frameHeld G = false → ∃ u : State, exec (.migrationReplay f) s = .next (u.post c.ident c.gen
        (message 0 6 0 0 1 c.seq.toNat 0 (if c.op = .pmig then (c.reg 0).lo.toNat else 0))) ∧ u.blocked = rest ∧ u.pageDir = Tab.set .home s.pageDir F .home ∧
      (c.op = .pmig → u.frmap = Tab.set none (Tab.set none s.frmap b.frame (some (s.backing b.other))) b.other (some (s.backing b.frame)) ∧
        (∀ a, a / 65536 = G → u.mem.byte a = Memory.blank ∧ u.mem.tagAt (a / 16) = false ∧ u.mem.poisonAt (a / 16) = false)) ∧
      (c.op = .pmigClr → ¬queued → u.policy = Tab.set 0 s.policy F 0 ∧ u.pins = Tab.set none s.pins b.frame none ∧ u.mem = s.mem ∧
        (Tab.get 0 s.policy F ≠ 0 → u.oldTag = Tab.set 0 s.oldTag F (Tab.get 0 s.policy F))) ∧
      (c.op = .pmigClr → queued → u.policy = s.policy ∧ u.pins = s.pins ∧ u.mem = s.mem)) ∧
  (∀ (s : State) (f d : Nat), s.pageMoves f = true → devOf (f * 65536) = s.dev → d ≠ s.dev → d < 6144 → Tab.get false s.mdl.ddead d = false →
    (Tab.get .home s.pageDir f = .home → ∃ u : State, exec (.pageTakeHeld f d true) s = .next u ∧ u.pageDir = Tab.set .home s.pageDir f (.held d) ∧ u.mem = s.mem) ∧
    (Tab.get .home s.pageDir f = .home → ∃ u : State, exec (.pageTakeHeld f d false) s = .next u ∧ u.pageDir = Tab.set .home s.pageDir f (.shared [d]) ∧ u.mem = s.mem)) ∧
  (∀ (s : State) (f : Nat) (write : Bool), s.pageMoves f = true → devOf (f * 65536) ≠ s.dev → Tab.get false s.mdl.ddead (devOf (f * 65536)) = false → f ∉ s.leaving →
    Tab.get .home s.pageDir f = .home → Tab.get none s.guests f = none →
    (s.freeGuests ≠ [] → ∃ (u : State) (g : Nat), exec (.pageTakeHeld f s.dev write) s = .next u ∧ g ∈ s.freeGuests ∧ u.guests = Tab.set none s.guests f (some g) ∧
      u.pageDir = Tab.set .home s.pageDir f (if write then .held s.dev else .shared [s.dev]) ∧ u.mem = s.mem.copyBlock (f * 65536) 65536 (g * 65536)) ∧
    (s.freeGuests = [] → exec (.pageTakeHeld f s.dev write) s = .next s)) ∧
  (∀ (s : State) (f d : Nat),
    (Tab.get .home s.pageDir f = .held d → d ≠ s.dev → exec (.pageGiveUp f d) s = .next { s with pageDir := Tab.set .home s.pageDir f .home }) ∧
    (Tab.get .home s.pageDir f = .held d → d = s.dev → f ∉ s.leaving → exec (.pageGiveUp f d) s = .next { s with leaving := s.leaving ++ [f] }) ∧
    (Tab.get .home s.pageDir f = .held d → d = s.dev → f ∈ s.leaving → s.frameHeld f = true → exec (.pageGiveUp f d) s = .next s) ∧
    (∀ g, Tab.get .home s.pageDir f = .held d → d = s.dev → f ∈ s.leaving → s.frameHeld f = false → Tab.get none s.guests f = some g →
      ∃ u : State, exec (.pageGiveUp f d) s = .next u ∧ u.pageDir = Tab.set .home s.pageDir f .home ∧ u.guests = Tab.set none s.guests f none ∧ f ∉ u.leaving ∧
        u.mem = s.mem.copyBlock (g * 65536) 65536 (f * 65536)) ∧
    (∀ l : List Nat, Tab.get .home s.pageDir f = .shared l → d ∈ l → s.frameHeld f = false → ∃ u : State, exec (.pageGiveUp f d) s = .next u ∧
      u.pageDir = Tab.set .home s.pageDir f (if l.filter (· ≠ d) = [] then .home else .shared (l.filter (· ≠ d))) ∧ u.mem = s.mem)) ∧
  (∀ (s : State) (swz pa : Nat), frameOf pa ∈ s.leaving → s.lineOpen swz pa = false)

/-- Software-managed regions: the slice faults, refuses or takes the whole of an `mcoh`; `mcoh.sw` makes the lines of its next page software-managed, and completes with the pages that it has switched;
`mcoh.hw` merges its next software-managed line, each byte from the copy that wrote it, discards the quadrants' copies and makes the line coherent; a line on which copies conflict stays, or with the
tenant's authorisation takes the lowest rank's bytes, and each conflicting granule has its record; it completes with its counts (R355, R356, R364). The order of its refusals is the model's (log 47). -/
def Claims.RegionSteps : Prop :=
  (∀ (s : State) (k : Nat) (c : Cmd), s.requests[k]? = some (6, c) → c.op = .mcohHw ∨ c.op = .mcohSw → s.canPost c 6 = true → c.taken = false →
    let ends := fun typ cause reason info : Nat =>
      s.sliceStep k = some (({ s with requests := listDrop s.requests k } : State).post c.ident c.gen (message typ 6 cause reason 0 c.seq.toNat 0 info))
    let pages := s.regionFrames c (capLength (c.reg 0) / 65536) (capAddr (c.reg 0)).toNat
    (∀ code va, pages = .error (code, va) → code ≠ notYet → ends 1 code 0 va) ∧
    (∀ l, pages = .ok l →
      let wrong := ∃ e ∈ l, e.2 ≠ 0 ∨ 1 < Tab.get 0 s.policy e.1
      let away := ∃ e ∈ l, devOf (e.1 * 65536) ≠ s.dev
      let busy := ∃ e ∈ l, s.frameBusy e.1 = true
      (wrong → ends 2 0x12 0xA4 0) ∧ (¬wrong → away → ends 2 0x12 0xA5 0) ∧ (¬wrong → ¬away → busy → ends 2 0x12 0xA8 0) ∧
      (¬wrong → ¬away → ¬busy → s.sliceStep k = some { s with requests := listSet s.requests k (6, { c with taken := true, imgs := l.map fun e => BitVec.ofNat 384 e.1 }) }))) ∧
  (∀ (s : State) (k : Nat) (c : Cmd), s.requests[k]? = some (6, c) → c.op = .mcohSw → c.taken = true →
    (∀ f, c.imgs[c.prog]? = some f → s.frameHeld f.toNat = false →
      let all := Tab.get 0 s.swm f.toNat = BitVec.allOnes 512
      s.sliceStep k = some { s with
        swm := Tab.set 0 s.swm f.toNat (BitVec.allOnes 512), pageDir := Tab.set .home s.pageDir f.toNat .home
        requests := listSet s.requests k (6, { (if all then c else c.tallyUp 0 1) with prog := c.prog + 1 }) }) ∧
    (∀ f, c.imgs[c.prog]? = some f → s.frameHeld f.toNat = true → s.sliceStep k = none) ∧
    (c.imgs[c.prog]? = none → s.canPost c 6 = true →
      s.sliceStep k = some (({ s with requests := listDrop s.requests k } : State).post c.ident c.gen (message 0 6 0 0 1 c.seq.toNat 0 (c.tally 0))))) ∧
  (∀ (s : State) (k : Nat) (c : Cmd), s.requests[k]? = some (6, c) → c.op = .mcohHw → c.taken = true →
    (∀ f, c.imgs[c.prog / 512]? = some f →
      let line := f.toNat * 512 + c.prog % 512
      let vals := fun i : Nat => ((List.range 16).filter fun r => (s.qline r line).dirty.getLsbD i).map fun r => bits (s.qline r line).data (8 * i) 8
      let agree := ∀ i < 128, ∀ x ∈ vals i, ∀ y ∈ vals i, x = y
      let adopt := (s.tenantOf c.tenant).mrgauth
      (s.swLine (line * 128) = false → s.sliceStep k = some { s with requests := listSet s.requests k (6, { c with prog := c.prog + 1 }) }) ∧
      (s.swLine (line * 128) = true → s.engineReady c.h c.h c.after .rd ⟨line * 128, 0, none⟩ 128 = true → s.canPost c 6 = true → s.mcast = [] → s.mem.wf = true →
        Tab.wf .none s.qlines = true → Tab.wf 0 s.swm = true →
        let merged := fun u : State => (∀ r < 16, u.qline r line = .none) ∧ u.swLine (line * 128) = false ∧
          (∀ i < 128, u.mem.byte (line * 128 + i) = match vals i with | x :: _ => BitVec.ofNat 8 x | [] => s.mem.byte (line * 128 + i)) ∧
          ∀ a, a / 128 ≠ line → u.mem.byte a = s.mem.byte a
        (agree → ∃ u, s.sliceStep k = some u ∧ merged u ∧ u.requests = listSet s.requests k (6, { c.tallyUp 0 1 with prog := c.prog + 1 })) ∧
        (¬agree → capLength (c.reg 1) / 16 ≤ c.tally 3 → (∀ i, c.tally i < 2 ^ 64) → ∃ (u : State) (d : Cmd), s.sliceStep k = some u ∧ (adopt = true → merged u) ∧
          (adopt = false → u = { s with requests := u.requests }) ∧ u.requests = listSet s.requests k (6, { d with prog := c.prog + 1 }) ∧
          d.tally (if adopt then 0 else 1) = c.tally (if adopt then 0 else 1) + 1 ∧ c.tally 2 < d.tally 2 ∧ d.tally 2 ≤ c.tally 2 + 8))) ∧
    (c.imgs[c.prog / 512]? = none → s.canPost c 6 = true → capLength (c.reg 1) / 16 ≤ c.tally 3 → s.sliceStep k =
      some (({ s with requests := listDrop s.requests k } : State).post c.ident c.gen (message 0 6 0 0 1 c.seq.toNat 0
        (c.tally 0 + c.tally 1 * 2 ^ 25 + Nat.min (c.tally 2) 8191 * 2 ^ 50 + (if c.tally 2 = 0 then 0 else 2 ^ 63))))) ∧
    (∀ l t, c.imgs[c.prog / 512]? = none → s.canPost c 6 = true → c.tally 3 < capLength (c.reg 1) / 16 →
      s.pieces c.h c.tenant (c.reg 1) false 2 ((capAddr (c.reg 1)).toNat + 16 * c.tally 3) (leBytes 16 0) = .ok (l, t) → (∀ w ∈ l, t.writeReady c.h c.h c.after w = true) →
      s.sliceStep k = some ((l.foldl (fun u w => u.engineWrite c.h w) t).sliceDone k c c.hwInfo)))

/-- Migration, pages between devices and software-managed regions advance at their slices. -/
def Obligations.SliceSteps : Prop := Claims.MigrationSteps ∧ Claims.RegionSteps

/-- Requests to the dispatch engine and the Fastness unit: with their operands checked, `launch`, `cpush`, `cjoin` and `stopat` send a release at `.dev` before them, and `hq`, `lack` and
`hauth` none; each parks until its answer (R383-R387, R400-R403). `hend` closes fibres, releases bound streams, those that are written by a command each, and parks until it may end; it parks first
while the transfer engine's queue has no room for those commands (R134, R241, R267). -/
def Obligations.DispatchRequests : Prop :=
  ∀ (d a b : Fin 64) (s : State) (x y : Wreg), readW s a 2 = .ok x → readW s b 3 = .ok y → useW s d 1 = .ok () → s.cpu.sq = [] →
    let asks := fun (i : Instr) (eng : Fin 9) (op : CmdOp) (d : Fin 64) (regs : List Wreg) (uses : List Nat) =>
      let u := (s.takeSeq eng).2.onCpu fun z => { z with answer := some (eng.val, uses), run := .parked (.answer eng.val) }
      exec i s = .next { u with requests := u.requests ++ [(eng.val, { s.capture op s.cpu.seqs[eng] regs [] with d := d })] }
    let quiet := s.cpu.aset = [] ∧ ∀ p ∈ s.net, ¬(p.h = s.cur ∧ p.slot = s.slot)
    asks (.hq d a) 8 .hq d [x] [a.val] ∧ asks (.hqRd d a) 8 .hqRd d [x] [a.val] ∧ asks .lack 8 .lack 0 [] [] ∧ asks .lackOff 8 .lackOff 0 [] [] ∧
    (s.cpu.prv = true → asks (.hauth a b) 8 .hauth 0 [x, y] [a.val, b.val]) ∧
    (s.cpu.prv = false → exec (.hauth a b) s = .next (s.takeTrap ⟨0x13, 0, thisWord s, false, false⟩)) ∧
    (quiet → asks (.cjoin a) 7 .cjoin 0 [x] [a.val] ∧ (s.cpu.prv = true → asks (.stopat a b) 7 .stopat 0 [x, y] [a.val, b.val]) ∧
      (∀ code table w u v, readBlock s a 5 = .ok [code, table, w, u, v] → codeArg code = .ok () →
        (wordN w.lo ≠ 0 → checkKind0 table 2 (capAddr table) (permL + permS + permSC + permE) = .ok () ∧
          checkRange table 2 (capAddr table) (512 * wordN w.lo * wordG w.lo) 16 = .ok ()) →
        asks (.launch d a) 7 .launch d [code, table, w, u, v] (blockUses a 5)) ∧
      (∀ code frame w, readBlock s a 3 = .ok [code, frame, w] → codeArg code = .ok () → checkCap frame 2 (capAddr frame) (permL + permS + permLC + permSC) = .ok () →
        checkRange frame 2 (capAddr frame) 5152 16 = .ok () → asks (.cpush d a) 7 .cpush d [code, frame, w] (blockUses a 3))) ∧
    (¬quiet → ∃ u c, exec (.cjoin a) s = .next u ∧ u.cpu.sq = [.fence 4 false, .command 7 c] ∧ c.op = .cjoin ∧ c.regs = [x]) ∧
    (let n := (s.cpu.sg.toList.filter fun g => g.bnd && g.wr).length
     let ends := fun t : State => exec .hend s = .next (t.onCpu fun c => { c with fb := Vector.replicate 8 .closed, run := .parked .ending, place := none })
     ((∀ g ∈ s.cpu.sg.toList, g.bnd = false) → ends s) ∧
     (n = 0 ∨ (s.tqCount + n ≤ 32 ∧ s.firstFor s.slot 3 = true) → let t := (List.range 8).foldl (fun t g => t.freeStream g) s
       ends t ∧ (∀ g ∈ t.cpu.sg.toList, g.bnd = false) ∧ (t.core.tq.map (·.op)) = (s.core.tq.map (·.op)) ++ List.replicate n .sfree ∧
         (∀ r : Fin 64, (∀ g ∈ s.cpu.sg.toList, g.bnd = true → ¬(g.clsW = true ∧ r.val = 48 + g.reg.val)) → t.cpu.w[r] = s.cpu.w[r])) ∧
     (n ≠ 0 → ¬(s.tqCount + n ≤ 32 ∧ s.firstFor s.slot 3 = true) → exec .hend s = .next (s.parkOn (.cmdRoom 3))))

/-- The dispatch engine's answers, taken by the context in the order of its requests: `launch` writes its ticket or is refused, `cpush` writes its record and handle, `cjoin` takes one
from JOIN and writes nothing; each refusal is a precise trap 0x12 with its reason (R370, R371, R384-R386, R388; the free queue slot taken is the model's free
value, and a record in a reserved or field-owned page counts as one of a free slot, log 90). -/
def Obligations.DispatchAnswers : Prop :=
  ∀ (s : State) (h k n : Nat) (uses : List Nat) (c : Cmd), Claims.Asked s n 7 c h k uses →
    let u := { s with requests := listDrop s.requests n }
    let gives := fun (x : Option Wreg) (t : State) => Claims.Gives s c h k uses x t
    let refused := fun r : Nat => Claims.Traps s c h k u 0x12 0 r
    (c.op = .cjoin →
      let q := (c.reg 0).lo.toNat % 65536
      let x := u.qslot c.tenant q
      let r := u.recWord c.tenant q
      let named := x.used = true ∧ x.sgen.toNat = (c.reg 0).lo.toNat / 65536 % 65536 ∧ q < (u.tenantOf c.tenant).slots ∧ r.toNat / 2 ^ 39 % 64 = c.tenant
      let fault := u.unitFault (u.recAddr c.tenant q)
      u.recOpen c.tenant q = true →
      (¬named → fault = none → refused 0xB6) ∧ (named → fault = none → r.toNat % 2 ^ 32 = 0 → refused 0xB7) ∧
      (∀ code, x.used = true → fault = some code → s.canPost c 7 = true →
        Claims.Traps s c h k (u.post c.ident c.gen (message 1 7 code 0 0 c.seq.toNat 0 (u.recAddr c.tenant q))) 0x12 0 0xB6) ∧
      (named → fault = none → r.toNat % 2 ^ 32 ≠ 0 → gives none ((u.unitWrite (u.recAddr c.tenant q + 32) 16 (BitVec.ofNat 1024 (r.toNat - 1)) false).noteCold c.tenant))) ∧
    (c.op = .launch →
      let w := (c.reg 2).lo.toNat
      let t := if c.prv then w / 2 ^ 48 % 64 else c.tenant
      let x := u.tenantOf t
      let o := x.obj (w / 2 ^ 36 % 4096)
      let bad := w / 2 ^ 30 % 4 = 3 ∨ w / 2 ^ 32 % 16 > 10 ∨ w / 2 ^ 11 % 4096 > 2048 ∨ w / 2 ^ 54 ≠ 0
      let size := w % 2 ^ 11 + 1
      let large := size > x.tpart.toNat / 2 ^ 16 % 4096
      let high := c.prv = false ∧ w / 2 ^ 23 % 128 > x.tprio.toNat
      let full := (s.launches.filter fun l => l.tenant = t).length ≥ 256
      let g := if o.gen = BitVec.allOnes 20 then 1 else o.gen + 1
      let ticket := BitVec.ofNat 32 (w / 2 ^ 36 % 4096 + g.toNat * 4096)
      (bad → refused 0xB0) ∧ (¬bad → large → refused 0xB1) ∧ (¬bad → ¬large → high → refused 0xB2) ∧
      (¬bad → ¬large → ¬high → o.done = false → refused 0xB3) ∧ (¬bad → ¬large → ¬high → o.done = true → full → refused 0xB4) ∧
      (¬bad → ¬large → ¬high → o.done = true → ¬full → ∃ l : Launch, l.tenant = t ∧ l.ident = c.ident ∧ l.igen = c.gen ∧ l.seq = c.seq ∧ l.prv = c.prv ∧
        l.code = c.reg 0 ∧ l.table = c.reg 1 ∧ l.size = size ∧ l.count = w / 2 ^ 11 % 4096 ∧ l.pri = w / 2 ^ 23 % 128 ∧ l.ra = w / 2 ^ 30 % 4 ∧ l.hopen = w / 2 ^ 32 % 16 ∧
        l.ticket = ticket ∧ l.next = 0 ∧ l.failed = none ∧
        gives (some (.plain (BitVec.ofNat 64 ticket.toNat)))
          (({ u.setTenant t { x with objs := Tab.set ⟨0, true⟩ x.objs (w / 2 ^ 36 % 4096) ⟨g, false⟩ } with launches := s.launches ++ [l], launchN := s.launchN + 1 } : State).noteCold t))) ∧
    (c.op = .cpush →
      let w := (c.reg 2).lo.toNat
      let t := c.tenant
      let high := c.prv = false ∧ w / 2 ^ 32 % 128 > (u.tenantOf t).tprio.toNat
      (w / 2 ^ 39 ≠ 0 → refused 0xB0) ∧ (w / 2 ^ 39 = 0 → high → refused 0xB2) ∧ (w / 2 ^ 39 = 0 → ¬high → u.freeSlot t = none → refused 0xB5) ∧
      (∀ q code, w / 2 ^ 39 = 0 → ¬high → u.freeSlot t = some q → u.unitFault (u.recAddr t q) = some code → s.canPost c 7 = true →
        Claims.Traps s c h k (u.post c.ident c.gen (message 1 7 code 0 0 c.seq.toNat 0 (u.recAddr t q))) 0x12 0 0xB5) ∧
      (∀ q, w / 2 ^ 39 = 0 → ¬high → u.freeSlot t = some q → u.unitFault (u.recAddr t q) = none → u.recOpen t q = true →
        let x := u.qslot t q
        let a := u.recAddr t q
        let v := (((u.unitWrite a 16 ((c.reg 0).bits.setWidth 1024) (c.reg 0).tag).unitWrite (a + 16) 16 ((c.reg 1).bits.setWidth 1024) (c.reg 1).tag).unitWrite (a + 32) 16
          (BitVec.ofNat 1024 (w % 2 ^ 39 + t % 64 * 2 ^ 39 + x.sgen.toNat * 2 ^ 46)) false).unitWrite (a + 48) 16 0 false
        gives (some (.plain (BitVec.ofNat 64 (q + x.sgen.toNat * 65536))))
          (({ v.setQslot t q { QSlot.free with used := true, sgen := x.sgen, age := v.launchN } with launchN := v.launchN + 1, freeN := v.freeN + 1 } : State).noteCold t)))

/-- `stopat`: a user context takes 0x13; at the engine a TSTATE other than 0 or 1 and a T less than the time counter plus 4,096 are refused with 0xB8, and PLEN = 0 with 0xB9; otherwise TSTOP
becomes T and TSTATE 1, where a stop pending before T is replaced; from its stop cycle on a tenant is stopped, and refused (R379, R387). -/
def Obligations.StopRequests : Prop :=
  (∀ (a b : Fin 64) (s : State), s.cpu.prv = false → exec (.stopat a b) s = .next (s.takeTrap ⟨0x13, 0, thisWord s, false, false⟩)) ∧
  (∀ (a b : Fin 64) (s : State) (x y : Wreg), s.cpu.prv = true → readW s a 2 = .ok x → readW s b 3 = .ok y → s.cpu.sq = [] → s.cpu.aset = [] → s.net = [] →
    let u := (s.takeSeq 7).2.onCpu fun z => { z with answer := some (7, [a.val, b.val]), run := .parked (.answer 7) }
    exec (.stopat a b) s = .next { u with requests := u.requests ++ [(7, s.capture .stopat s.cpu.seqs[7] [x, y] [])] }) ∧
  (∀ (s : State) (h k n : Nat) (uses : List Nat) (c : Cmd), Claims.Asked s n 7 c h k uses → c.op = .stopat →
    let u := { s with requests := listDrop s.requests n }
    let refused := fun r : Nat => Claims.Traps s c h k u 0x12 0 r
    let t := (c.reg 0).lo.toNat % 64
    let x := s.tenantOf t
    let T := (c.reg 1).lo
    (¬(x.tstate = 0 ∨ x.tstate = 1) → refused 0xB8) ∧
    (s.stopped t = true → refused 0xB8) ∧
    ((x.tstate = 0 ∨ x.tstate = 1) → T.toNat < s.counter + 4096 → refused 0xB8) ∧
    ((x.tstate = 0 ∨ x.tstate = 1) → s.stopped t = false → ¬T.toNat < s.counter + 4096 → bits x.tpart 16 12 = 0 → refused 0xB9) ∧
    ((x.tstate = 0 ∨ x.tstate = 1) → s.stopped t = false → ¬T.toNat < s.counter + 4096 → bits x.tpart 16 12 ≠ 0 →
      Claims.Gives s c h k uses none (u.setTenant t { x with tstop := T, tstate := 1 })))

/-- The Fastness unit's answers: `hq` charges 128 and writes 1 unless the report is counted already or the resource is retired, when it writes 0; `hq.rd` writes FSTAT; `lack` and
`lack.off` enter and remove the context; `hauth` sets or revokes standing authorisation, retires or denies; with their refusals (R390, R396-R398, R401-R404). -/
def Obligations.FastnessAnswers : Prop :=
  ∀ (s : State) (h k n : Nat) (uses : List Nat) (c : Cmd), Claims.Asked s n 8 c h k uses →
    let u := { s with requests := listDrop s.requests n }
    let gives := fun (x : Option Wreg) (t : State) => Claims.Gives s c h k uses x t
    let refused := fun r : Nat => Claims.Traps s c h k u 0x12 0 r
    let rid := (c.reg 0).lo.toNat % 2 ^ 14
    let i := rid % 4096
    let x := if rid / 4096 = 0 then i else if rid / 4096 = 1 then 2048 + i else 2176 + i
    let exists' := (rid / 4096 = 0 ∧ i < 2048) ∨ (rid / 4096 = 1 ∧ i < 128) ∨ (rid / 4096 = 2 ∧ i < 768)
    let f := u.fstat x
    (c.op = .hq → (¬exists' → refused 0xC0) ∧
      (exists' → f.state = 5 ∨ c.tenant ∈ f.reports → gives (some (.plain 0)) u) ∧
      (exists' → f.state ≠ 5 → c.tenant ∉ f.reports → gives (some (.plain 1)) ((u.setFstat x { f with reports := f.reports ++ [c.tenant] }).charge x 128))) ∧
    (c.op = .hqRd → (¬exists' → refused 0xC0) ∧
      (exists' → gives (some (.plain (BitVec.ofNat 64 (f.score.toNat + f.state.toNat * 2 ^ 16 + Nat.min (2 ^ 32 - 1) ((s.time - f.since) / 850000000) * 2 ^ 32)))) u)) ∧
    (c.op = .lack →
      let here := ∃ r ∈ s.fast.reg, r.1 = c.ident ∧ r.2.1 = c.gen
      (here → gives none u) ∧ (¬here → s.fast.reg.length ≥ 256 → refused 0xC1) ∧
      (¬here → s.fast.reg.length < 256 → gives none { u with fast := { s.fast with reg := s.fast.reg ++ [(c.ident, c.gen, c.tenant)] } })) ∧
    (c.op = .lackOff → gives none { u with fast := { s.fast with reg := s.fast.reg.filter fun r => !(decide (r.1 = c.ident) && decide (r.2.1 = c.gen)) } }) ∧
    (c.op = .hauth →
      let act := (c.reg 1).lo.toNat % 8
      let cls := rid / 4096
      let proposed := f.state = 3 ∨ f.state = 4
      (act > 3 ∨ (act < 2 ∧ cls = 3) → refused 0xC2) ∧
      (act = 0 → cls ≠ 3 → gives none { u with fast := { s.fast with stand := setBit s.fast.stand cls false } }) ∧
      (act = 1 → cls ≠ 3 → s.proposed cls = [] → gives none { u with fast := { s.fast with stand := setBit s.fast.stand cls true } }) ∧
      (act = 2 ∨ act = 3 → ¬exists' → refused 0xC0) ∧ (act = 2 ∨ act = 3 → exists' → ¬proposed → refused 0xC3) ∧
      (act = 3 → exists' → f.state = 3 → gives none ((u.setFstat x { f with state := 0, wanted := none }).noticePrv x 5)) ∧
      (act = 3 → exists' → f.state = 4 → gives none ((u.giveBack x).noticePrv x 5)) ∧
      (act = 2 → exists' → proposed → s.fast.log.length ≥ 4096 → refused 0xC4) ∧
      (act = 2 → exists' → proposed → s.fast.log.length < 4096 → gives none (u.retire x 2)))

/-- Gangs: an eligible launch of no gangs completes; the next gang of the first launch is placed where it fits, its launch's count advances and each member's control context starts as R374
says; a gang whose cores are done ends, and with its last gang its launch; a launch that completes has DONE set, RA 1 posts its ticket, and a record that RA 2 cannot join is posted as a fault; a
gang is placed on free cores of the partition that are no holes and that no saved gang of the tenant holds (R15, R371-R375, R381, R419; log 58). -/
def Obligations.GangSteps : Prop :=
  (∀ (s : State) (t : Nat) (l : Launch), s.stopped t = false → s.launches.find? (fun l => l.tenant = t && l.count = 0 && s.eligible l && l.canEnd s) = some l →
    exec (.gangPlacement t) s = .next (s.launchDone l)) ∧
  (∀ (s : State) (l : Launch), let u := s.launchDone l
    let x := s.tenantOf l.tenant
    u.launches = s.launches.filter (fun k => k.id ≠ l.id) ∧
    u.tenants = Tab.set Tenant.reset s.tenants l.tenant { x with objs := Tab.set ⟨0, true⟩ x.objs l.co { x.obj l.co with done := true } } ∧
    (l.failed = none → l.ra = 1 → (s.loc l.ident).state ≠ .free → (s.loc l.ident).gen = l.igen → s.mayPost l.ident l.igen 7 = true →
      u.posts = s.posts ++ [⟨l.ident, l.igen, message 0 7 0 0 1 l.seq.toNat 0 l.ticket.toNat⟩]) ∧
    (l.failed = none → l.ra = 0 → u.posts = s.posts ∧ u.mem = s.mem) ∧
    (l.failed = none → l.ra = 2 → let q := l.handle.toNat % 65536
      let a := s.recAddr l.tenant q
      (s.qslot l.tenant q).used = true → (s.loc l.ident).state ≠ .free → (s.loc l.ident).gen = l.igen → s.mayPost l.ident l.igen 7 = true →
      ∀ code, s.unitFault a = some code → u.posts = s.posts ++ [⟨l.ident, l.igen, message 1 7 code 0 0 l.seq.toNat 0 a⟩] ∧ u.mem = s.mem)) ∧
  (∀ (s : State) (t n : Nat) (ms : List Nat), s.fitting t n = some ms → ms.length = n ∧
    ∀ h ∈ ms, s.hole h = false ∧ (s.coreOf h).gang = none ∧ (∀ g ∈ s.gangs, g.tenant = t → g.saved = true → h ∉ g.members) ∧
      bits (s.tenantOf t).tpart 0 11 ≤ h ∧ h < bits (s.tenantOf t).tpart 0 11 + bits (s.tenantOf t).tpart 16 12) ∧
  (∀ (s : State) (t : Nat) (l : Launch) (ms : List Nat), s.stopped t = false → (∀ k ∈ s.launches, ¬(k.tenant = t ∧ k.count = 0 ∧ s.eligible k = true ∧ k.canEnd s = true)) →
    s.firstLaunch t = some l → s.fitting t l.size = some ms →
    (∀ rs v w, s.records l 0 ms = (.ok (rs, v), w) → ∃ u : State, exec (.gangPlacement t) s = .next u ∧
      u.gangs = v.gangs ++ [⟨v.gangN, l.id, l.next, l.tenant, ms, ⟨[]⟩, false⟩] ∧
      u.launches = v.launches.map fun k => if k.id = l.id then { l with next := l.next + 1 } else k) ∧
    (∀ code m v, s.records l 0 ms = (.error (code, m), v) → code ≠ notYet →
      let f := { l with failed := some (code, l.next, m) }
      let u : State := { v with launches := v.launches.map fun k => if k.id = l.id then f else k }
      ((∃ g ∈ v.gangs, g.launch = l.id) → exec (.gangPlacement t) s = .next u) ∧
      ((∀ g ∈ v.gangs, g.launch ≠ l.id) → f.canEnd s = true → exec (.gangPlacement t) s = .next (u.launchDone f)))) ∧
  (∀ (l : Launch) (args : List (Nat × Wreg)) (id : BitVec 20) (g : BitVec 8), let c := startControl l args id g
    c.pc = capAddr l.code ∧ c.code = l.code ∧ c.prv = l.prv ∧ c.tm = false ∧ c.ident = id ∧ c.gen = g ∧ c.tenant = l.tenant ∧ c.run = .ready ∧ c.v = Ctx.reset.v ∧
      c.p = Ctx.reset.p ∧ c.fm = Ctx.reset.fm ∧ c.cw = Ctx.reset.cw ∧ (args = [] → c.w = Ctx.reset.w) ∧
      (∀ j v, args = [(j, v)] → j < 64 → c.w[j]? = some v)) ∧
  (∀ (s : State) (k : Nat) (g : Gang) (l : Launch), s.gangs[k]? = some g → g.saved = false → (∀ h ∈ g.members, s.coreDone h = true) →
    let u := g.members.foldl State.freeCore { s with gangs := listDrop s.gangs k }
    s.launches.find? (fun l => l.id = g.launch) = some l →
    (l.next ≥ l.count → (∀ g' ∈ listDrop s.gangs k, g'.launch ≠ l.id) → l.canEnd u = true → exec (.gangEnd k) s = .next (u.launchDone l)) ∧
    (l.next < l.count → l.failed = none → exec (.gangEnd k) s = .next u))

/-- Continuations and the end of a context: `hend` done, the location entry is free and the slot idle; an idle open slot takes the best ready record with w3 = FRAME and its core's
constant windows, trap vector and privilege, at CODE.ADDR; a yielded one comes back with its entry in the state moving, and does not issue until that ends; the slot of the lowest
priority is signalled (R134, R167, R376-R378). -/
def Obligations.ContinuationSteps : Prop :=
  (∀ (s : State) (h k : Nat), let u := s.focus h k
    u.cpu.run = .parked .ending → u.cpu.sq = [] → u.engineBusy = false → (k ≠ 0 ∨ ∀ i < 10, (u.ctx h (i + 1)).isOpen = true ∨ (u.ctx h (i + 1)).live = false) →
    exec (.contextEnd h k) s = .next u.endContext ∧ u.endContext.cpu.run = .idle ∧ u.endContext.cpu.isOpen = u.cpu.isOpen ∧
      u.endContext.locs = Tab.set Loc.free s.locs u.cpu.ident.toNat { Loc.free with gen := (s.loc u.cpu.ident).gen }) ∧
  (∀ (s : State) (h k t q pri age : Nat), s.servedTenant h = some t → s.stopped t = false → s.bestRecord t = some (q, pri, age) →
    let u := s.focus h k
    u.cpu.isOpen = true → u.cpu.live = false → bit (u.recWord t q) 45 = false →
    ∃ v : State, exec (.continuationPop h k) s = .next v ∧ v.cur = h ∧ v.slot = k ∧ v.cpu.w = Ctx.reset.w.set 3 (u.recCap t q 1) ∧ v.cpu.code = u.recCap t q 0 ∧
      v.cpu.pc = capAddr (u.recCap t q 0) ∧ v.cpu.cw = (u.ctx h 0).cw ∧ v.cpu.tvec = (u.ctx h 0).tvec ∧ v.cpu.prv = (u.ctx h 0).prv ∧ v.cpu.run = .ready ∧
      v.cpu.v = Ctx.reset.v ∧ v.cpu.p = Ctx.reset.p ∧ v.cpu.tenant = t) ∧
  (∀ (s : State) (h k t q pri age : Nat) (v : State), s.servedTenant h = some t → s.stopped t = false → s.bestRecord t = some (q, pri, age) →
    let u := s.focus h k
    let x := u.qslot t q
    u.cpu.isOpen = true → u.cpu.live = false → bit (u.recWord t q) 45 = true →
    (u.setQslot t q { x with busy := true }).comeBack t q (u.recCap t q 0) (u.recCap t q 1) x (BitVec.ofNat 32 (q + x.sgen.toNat * 65536)) pri = some v →
    exec (.continuationPop h k) s = .next v ∧ v.cpu.run = .parked .restore ∧ (v.loc x.ident).state = .moving ∧ v.cpu.ident = x.ident ∧ v.cpu.tenant = t ∧
      v.cpu.code = u.recCap t q 0 ∧ v.cpu.p = Ctx.reset.p ∧ v.cpu.cw = Ctx.reset.cw ∧ v.cpu.tvec = Ctx.reset.tvec) ∧
  (∀ (s : State) (t q p age : Nat), s.stopped t = false → s.bestRecord t = some (q, p, age) →
    (∀ x ∈ s.openSlots t, (s.ctx x.1 x.2).live = true ∧ (s.ctx x.1 x.2).yieldSig = false) →
    ∀ h k r hd pr fr, s.openSlots t = [(h, k)] → (s.ctx h k).cont = some (r, hd, pr, fr) →
      (pr < p → exec (.yieldSignal t) s = .next (s.setCtx h k { s.ctx h k with yieldSig := true })) ∧ (¬pr < p → exec (.yieldSignal t) s = .next s)) ∧
  (∀ (s : State) (h k : Nat) (vote : Option (Nat × BitVec 64)) (rest : List SqEntry) (gid pos : Nat) (g : Gang), (s.ctx h k).sq = .barrier vote :: rest →
    (s.coreOf h).gang = some (gid, pos) →
    let u := s.setCtx h k { s.ctx h k with sq := rest }
    u.gangs.find? (fun x => x.id = gid) = some g →
    let l := g.barrier.arrivals ++ [(h, vote)]
    let put := fun b : List (Nat × Option (Nat × BitVec 64)) => { u with gangs := u.gangs.map fun x => if x.id = gid then { x with barrier := ⟨b⟩ } else x }
    (l.length < g.members.length → exec (.barrierArrival h k) s = .next (put l)) ∧
    (l.length ≥ g.members.length → exec (.barrierArrival h k) s = .next ((put []).releaseBarrier g.members ((put []).outcome l)))) ∧
  (combineVotes 1 0xC 0xA = 0x8 ∧ combineVotes 2 0xC 0xA = 0xE ∧ combineVotes 3 0xC 0xA = 0xA ∧ combineVotes 4 0xC 0xA = 0xC ∧ combineVotes 5 0xC 0xA = 0x16)

/-- The yield of a continuation: on entering a header whose P bit is set, with its slot signalled, no loop active, its mailbox empty, nothing awaited and no engine command outstanding, it saves the
header's address, the flags and the live register groups that the header names into its save area, marks its record as yielded, and its slot falls idle with its location entry moving; a fault
there, or at the record, is posted to it and it runs on; it stalls while its stores have not left or the places cannot be written (R15, R112, R167, R174, R378). -/
def Obligations.YieldSteps : Prop :=
  (∀ (s : State) (f : Ctx → Ctx) (target h : Word) (c : Ctx) (t : State) (dw : Nat), s.cpu.redirect s.cpu.ldepth target = (c, h, false) →
    enterBlock (s.onCpu fun _ => { f c with passed := none }) s.cpu.execCap h = .ok (t, dw) → transfer s f target = t.yieldAt dw) ∧
  (∀ (s : State) (dw q : Nat) (hd : BitVec 32) (pri : Nat) (frame : Wreg), s.cpu.cont = some (q, hd, pri, frame) →
    let due := s.cpu.yieldSig = true ∧ dw / 2 ^ 32 % 2 = 1 ∧ s.cpu.ldepth = 0 ∧ s.cpu.mbox = [] ∧ s.engineBusy = false ∧ s.cpu.awW = 0 ∧ s.cpu.awV = 0 ∧ s.cpu.awP = 0
    let places := s.savePlaces frame .wr (s.cpu.yieldImage dw)
    let rec' := s.recAddr s.cpu.tenant q
    let posts := fun code a : Nat => s.yieldAt dw = .ok ((s.onCpu fun c => { c with yieldSig := false }).post s.cpu.ident s.cpu.gen (message 1 7 code 0 0 0 0 a))
    (¬due → s.yieldAt dw = .ok s) ∧
    (∀ code a, due → places = .error (code, a) → posts code a) ∧
    (∀ l code, due → places = .ok l → s.unitFault rec' = some code → posts code rec') ∧
    (∀ l, due → places = .ok l → s.unitFault rec' = none → ¬(s.cpu.sq = [] ∧ s.saveClear l = true ∧ s.recOpen s.cpu.tenant q = true) → s.yieldAt dw = .error .stall) ∧
    (∀ l, due → places = .ok l → s.unitFault rec' = none → s.cpu.sq = [] → s.saveClear l = true → s.recOpen s.cpu.tenant q = true →
      let v := l.foldl (fun u x => u.ownWrite s.cur ⟨x.1.pa, x.1.swz, 16, x.2.1.setWidth 1024, ones 128 16, x.2.2, false⟩) (s.saveClaims l)
      ∃ u : State, s.yieldAt dw = .ok u ∧ u.cpu.run = .idle ∧ u.cpu.w = s.cpu.w ∧ u.cpu.isOpen = s.cpu.isOpen ∧ (u.loc s.cpu.ident).state = .moving ∧ (u.loc s.cpu.ident).gen = (s.loc s.cpu.ident).gen ∧
        u.mem = (v.unitWrite (rec' + 32) 16 (setBit (BitVec.ofNat 1024 (v.mem.read 0 (rec' + 32) 16)) 45 true) false).mem ∧ ∀ w ∈ u.core.watches, w.slot ≠ s.slot)) ∧
  (∀ (c : Ctx) (dw : Nat), (0, BitVec.ofNat 128 (c.hdr.toNat + bits c.st 40 10 * 2 ^ 64), false) ∈ c.yieldImage dw ∧
    (∀ i : Fin 64, i ≠ 0 → dw / 2 ^ (8 + i.val / 4) % 2 = 1 → (32 + 16 * i.val, (c.w[i]).bits, (c.w[i]).tag) ∈ c.yieldImage dw) ∧
    (∀ (i : Fin 32) (j : Nat), j < 8 → dw / 2 ^ (24 + i.val / 4) % 2 = 1 → (1056 + 128 * i.val + 16 * j, BitVec.ofNat 128 (bits c.v[i] (128 * j) 128), false) ∈ c.yieldImage dw) ∧
    (∀ x ∈ c.yieldImage dw, x.1 < 32 ∨ (32 ≤ x.1 ∧ x.1 < 1056 ∧ dw / 2 ^ (8 + (x.1 - 32) / 64) % 2 = 1) ∨ (1056 ≤ x.1 ∧ dw / 2 ^ (24 + (x.1 - 1056) / 512) % 2 = 1)))

/-- Synchronized stops: at T every context of the tenant halts and TSTATE becomes 2; with stores, stream elements and loads done the felt token holds the tenant's packets that no
agent has accepted; with the token passed, the fields holding and the slice commands done the location entries of the contexts are moving, then saved with the places of their images, and TSTATE
becomes 3; a store of 1 to TRESUME makes it 4, and the gangs are restored one by one, their entries moving, and then resident, the buffers re-injected, field modes restored and TSTATE 0; a gang that
waits for a lease comes later (R114, R167, R168, R313, R379-R382). That walkers pause at the stop cycle, that the token waits for loads which have left, and that requests which wait are taken back and
made again is the model's reading (log 57), and so are the place of the images (log 40) and which gangs wait (log 58). -/
def Obligations.StopSteps : Prop :=
  (∀ (s : State) (t : Nat), (s.tenantOf t).tstate = 1 → s.counter ≥ (s.tenantOf t).tstop.toNat →
    let quiet := { s with requests := s.requests.filter fun r => !(r.2.tenant = t && r.2.asksAgain) }
    let halted := quiet.mapTenant t fun c => Ctx.haltStop { c with sq := c.sq.filter fun e => !e.asksAgain }
    let x := (s.contextsOf t).foldl (fun u (h, k) => u.setCore h { u.coreOf h with
      watches := (u.coreOf h).watches.filter fun w => w.slot ≠ k, pw := (u.coreOf h).pw.map Walker.pause }) halted
    exec (.stopCycleReached t) s = .next (x.setTenant t { x.tenantOf t with tstate := 2, tokenDone := false })) ∧
  (∀ (s : State) (t : Nat), (s.tenantOf t).tstate ≠ 1 ∨ s.counter < (s.tenantOf t).tstop.toNat → exec (.stopCycleReached t) s = .next s) ∧
  (∀ c : Ctx, (c.run = .ready ∨ c.run = .issuing ∨ c.run = .parked .walk ∨ c.run = .parked .restore → c.haltStop.run = .halted .stop none) ∧
    (∀ w, c.run = .parked w → (∀ n, w ≠ .ask n) → w ≠ .walk → w ≠ .restore → c.haltStop.run = .halted .stop (some w)) ∧ c.haltStop.w = c.w ∧ c.haltStop.st = c.st ∧
      c.haltStop.pc = c.pc ∧ c.haltStop.v = c.v ∧ c.haltStop.p = c.p ∧ c.haltStop.mbox = c.mbox ∧ c.haltStop.ras = [] ∧ c.haltStop.failedMon = false ∧
      (∀ k : Fin 8, (c.haltStop.fb[k]).ahead = [] ∧ (c.haltStop.fb[k]).pos = (c.fb[k]).pos ∧
        ((c.sg[k]).wr = false → (c.sg[k]).flt = false → (c.haltStop.sg[k]).held = [] ∧ (c.haltStop.sg[k]).head = (c.sg[k]).head) ∧ ((c.sg[k]).wr = true → c.haltStop.sg[k] = c.sg[k]))) ∧
  (∀ (s : State) (t : Nat), (s.tenantOf t).tstate = 2 → (s.tenantOf t).tokenDone = false →
    (∀ x ∈ s.contextsOf t, (s.ctx x.1 x.2).drained = true ∧ (s.coreOf x.1).drained = true) → s.loadsDone t = true → ∃ u : State,
    exec (.feltToken t) s = .next u ∧ u.net = s.net.filter (fun p => ¬(p.tenant = t ∧ (p.op.answers = true ∨ p.stage ≠ .agent))) ∧ u.mem = s.mem ∧
      u.tenants = Tab.set Tenant.reset s.tenants t { s.tenantOf t with
        tokenDone := true, felt := s.net.filter (fun p => p.tenant = t ∧ p.op.answers = false ∧ p.stage ≠ .agent)
        feltArr := s.arrivals.filter fun a => a.sten0 = t && a.atPort.isNone, feltMsg := s.msgs.filter fun m => m.tenant = t }) ∧
  (∀ (s : State) (t : Nat), (s.tenantOf t).tstate = 2 → (s.tenantOf t).tokenDone = true → (∀ f ∈ s.fields, f.tenant = t → f.started = false) → s.slicesDone t = true →
    (∀ p ∈ s.net, p.tenant ≠ t) →
    ((∃ x ∈ s.contextsOf t, (s.loc (s.ctx x.1 x.2).ident).state ≠ .moving) → ∃ u : State, exec (.stopComplete t) s = .next u ∧
      u = s.mapLocs (s.contextsOf t) (fun h k l => { l with state := .moving, hidx := BitVec.ofNat 11 h, slot := BitVec.ofNat 4 k }) ∧
      ∀ x ∈ s.contextsOf t, (u.loc (s.ctx x.1 x.2).ident).state = .moving) ∧
    ((∀ x ∈ s.contextsOf t, (s.loc (s.ctx x.1 x.2).ident).state = .moving) → ∃ x : State,
      exec (.stopComplete t) s = .next (x.setTenant t { x.tenantOf t with tstate := 3 }) ∧ (∀ g ∈ x.gangs, g.tenant = t → g.saved = true) ∧
      ∀ y ∈ s.contextsOf t, let l := x.loc (s.ctx y.1 y.2).ident
        l.state = .saved ∧ l.hidx = 0 ∧ l.slot = 0 ∧ ((∀ z ∈ s.contextsOf t, (s.ctx z.1 z.2).ident = (s.ctx y.1 y.2).ident → z = y) →
          l.img = BitVec.ofNat 43 (localOf (s.imageAt t y.1 y.2)) ∧ l.pov = (s.ctx y.1 y.2).povr.isSome))) ∧
  (∀ (s : State) (t : Nat) (v : BitVec 64),
    (v = 1 → (s.tenantOf t).tstate = 3 → exec (.tresumeWrite t v) s = .next (s.setTenant t { s.tenantOf t with tstate := 4 })) ∧
    (¬(v = 1 ∧ (s.tenantOf t).tstate = 3) → exec (.tresumeWrite t v) s = .next s)) ∧
  (∀ (s : State) (t : Nat),
    let saved := s.gangs.filter fun g => g.tenant = t && g.saved
    let cold := ∃ l ∈ s.locs, l.2.state = .cold ∧ l.2.ten.toNat = t
    let late := fun g : Gang => ∃ h ∈ g.members, s.hole h = true ∨ (s.fstat h).state = 1
    let free := fun g : Gang => ∀ h ∈ g.members, (s.coreOf h).gang = none
    let resumes := fun t' : State => exec (.resumeStart t) s = .next t'
    let restores := fun (g : Gang) (u : State) => u.gangs = s.gangs.map (fun x => if x.id = g.id then { x with saved := false } else x) ∧ u.tenants = s.tenants ∧
      ∀ x ∈ u.contextsOf t, x.1 ∈ g.members → let l := u.loc (u.ctx x.1 x.2).ident
        l.state = .moving ∧ ((∀ z ∈ u.contextsOf t, (u.ctx z.1 z.2).ident = (u.ctx x.1 x.2).ident → z = x) → l.hidx = BitVec.ofNat 11 x.1 ∧ l.slot = BitVec.ofNat 4 x.2)
    let arrives := fun u : State => ∀ x ∈ s.contextsOf t, (s.loc (s.ctx x.1 x.2).ident).state = .moving → (s.ctx x.1 x.2).run ≠ .parked .restore →
      (u.loc (s.ctx x.1 x.2).ident).state = .resident
    ((s.tenantOf t).tstate = 4 → cold → resumes s) ∧
    (∀ g, (s.tenantOf t).tstate = 4 → ¬cold → saved.find? (fun g => !s.late g) = some g → (free g → ∃ u, resumes u ∧ restores g u) ∧ (¬free g → resumes s)) ∧
    (∀ g : Gang, s.late g = true ↔ late g) ∧
    ((s.tenantOf t).tstate = 4 → ¬cold → (∀ g ∈ saved, late g) → (saved = [] ∨ ∃ g ∈ s.gangs, g.tenant = t ∧ g.saved = false) → ∃ x : State,
      resumes ((x.setTenant t { x.tenantOf t with tstate := 0, tokenDone := false, felt := [], feltArr := [], feltMsg := [] }).mapTenant t Ctx.letGo) ∧ arrives x ∧
      x.net = s.net ++ (s.tenantOf t).felt ∧ x.msgs = s.msgs ++ (s.tenantOf t).feltMsg ∧ x.arrivals = s.arrivals ++ (s.tenantOf t).feltArr ∧
      x.fields = s.fields.map fun f => match f.saved with
        | some (m, n) => if f.tenant = t then { f with mode := m, steps := n, started := true, saved := none, sites := [], reports := [], received := [] } else f
        | none => f) ∧
    ((s.tenantOf t).tstate = 4 → ¬cold → (∀ g ∈ saved, late g) → saved ≠ [] → (∀ g ∈ s.gangs, g.tenant = t → g.saved = true) → resumes s) ∧
    ((s.tenantOf t).tstate = 0 → s.restored t ≠ [] → ∃ x : State, resumes (x.mapTenant t Ctx.letGo) ∧ arrives x ∧ x.net = s.net) ∧
    (∀ g, (s.tenantOf t).tstate = 0 → s.restored t = [] → ¬cold → saved.find? (fun g => !s.late g && s.coresFree g) = some g → ∃ u, resumes u ∧ restores g u)) ∧
  (∀ c : Ctx, (c.run = .halted .stop none → c.letGo.run = .ready) ∧ (∀ w, c.run = .halted .stop (some w) → c.letGo.run = .parked w) ∧ c.letGo.w = c.w ∧ c.letGo.pc = c.pc)

/-- Debug: a halt stops the core's issue and its release puts off the timeouts by its cycles; SBW and SBVP take stores only of a halted core; DCMD reads or writes the selected register or
sets REF; CTXCTL lets a double-trapped context return as by `rfe` when it issues next, or ends it (R109, R115, R116, R151). -/
def Obligations.DebugSteps : Prop :=
  (∀ (s : State) (h : Nat),
    ((s.coreOf h).dhalt = false → exec (.dhaltHalt h) s = .next (s.setCore h { s.coreOf h with dhalt := true, haltedAt := s.time })) ∧
    ((s.coreOf h).dhalt = true → exec (.dhaltHalt h) s = .next s) ∧
    ((s.coreOf h).dhalt = true → exec (.dhaltRelease h) s =
      .next ((List.range 11).foldl (fun u k => u.setCtx h k ((u.ctx h k).putOff (s.time - (s.coreOf h).haltedAt))) (s.setCore h { s.coreOf h with dhalt := false }))) ∧
    ((s.coreOf h).dhalt = false → exec (.dhaltRelease h) s = .next s)) ∧
  (∀ (c : Ctx) (n t : Nat), c.run = .parked (.watch t) → (t ≠ 0 → (c.putOff n).run = .parked (.watch (t + n))) ∧ (t = 0 → c.putOff n = c)) ∧
  (∀ (s : State) (h k : Nat) (v : BitVec 64), k < 11 →
    ((s.coreOf h).dhalt = true → exec (.scoreboardWrite h (0x20 + 8 * k) v) s = .next (s.setCtx h k { s.ctx h k with awW := setBit v 0 false }) ∧
      exec (.scoreboardWrite h (0x80 + 8 * k) v) s = .next (s.setCtx h k { s.ctx h k with awV := v.setWidth 32, awP := BitVec.ofNat 8 (v.toNat / 2 ^ 32 % 2 ^ 8) })) ∧
    (∀ off, (s.coreOf h).dhalt = false → exec (.scoreboardWrite h off v) s = .next s)) ∧
  (∀ (s : State) (h : Nat), let k := s.coreOf h
    let sl := k.dsel.toNat % 16
    let num := k.dsel.toNat / 2 ^ 8 % 2 ^ 8
    k.dsel.toNat / 16 % 16 = 0 → sl ≤ 10 →
    (k.dhalt = true ∨ (s.ctx h sl).dbl = true → 0 < num → num < 64 → exec (.dcmdWrite h) s =
      .next ((s.setCtx h sl { s.ctx h sl with w := (s.ctx h sl).w.setIfInBounds num ⟨k.dlo.setWidth 128 ||| (k.dhi.setWidth 128 <<< 64), k.dtag⟩ }).setRef h false)) ∧
    (k.dhalt = true ∨ (s.ctx h sl).dbl = true → num < 64 → let x := if num = 0 then Wreg.zero else ((s.ctx h sl).w[num]?).getD .zero
      exec (.dcmdRead h) s = .next ((s.setCore h { k with dlo := x.lo, dhi := x.hi, dtag := x.tag }).setRef h false)) ∧
    (num = 0 ∨ num ≥ 64 ∨ (k.dhalt = false ∧ (s.ctx h sl).dbl = false) → exec (.dcmdWrite h) s = .next (s.setRef h true)) ∧
    (num ≥ 64 ∨ (k.dhalt = false ∧ (s.ctx h sl).dbl = false) → exec (.dcmdRead h) s = .next (s.setRef h true))) ∧
  (∀ (s : State) (h k : Nat), ((s.ctx h k).dbl = true →
      exec (.ctxctlResume h k) s = .next (s.setCtx h k { s.ctx h k with
        run := if 2 ≤ (s.tenantOf (s.ctx h k).tenant).tstate.val then .halted .stop none else .ready, dbl := false, st := stRestored (s.ctx h k).esr, entry := .returning }) ∧
      ∃ u : State, exec (.ctxctlDismiss h k) s = .next u.endContext ∧ u.cpu.fb = Vector.replicate 8 .closed ∧ u.cpu.ident = (s.ctx h k).ident) ∧
    ((s.ctx h k).dbl = false → exec (.ctxctlResume h k) s = .next s ∧ exec (.ctxctlDismiss h k) s = .next s)) ∧
  (∀ s : State, (s.cpu.entry = .returning → comeReturning s = returnTo s) ∧
    (s.cpu.entry ≠ .returning → comeReturning s = .ok s))

/-- The oldest entry of a store queue leaves: a part of a store to the own scratch is applied once its banks can take it, another goes as a packet and its agent joins the set of applying agents; an
atomic is sent; a command enters its engine; a value joins the arrivals, a message the messages; a release sends the probes it needs and leaves once none is needed and its writes have come far
enough; a command or a message waits while the transfer engine's queue has no entry (R23, R27, R31, R32, R35-R37, R194, R204, R241). Which part of a store goes first is the model's free value (log 95). -/
def Obligations.QueueSteps : Prop :=
  ∀ (s : State) (h k : Nat) (e : SqEntry) (rest : List SqEntry), (s.focus h k).cpu.sq = e :: rest →
    let v := s.focus h k
    let u := v.onCpu fun c => { c with sq := rest }
    let leaves := fun t : State => exec (.storeQueueLeave h k) s = .next t
    let sent := fun (t : State) (g : Agent) (op : PacketOp) =>
      ({ t with net := t.net ++ [t.packet g op], packetN := t.packetN + 1 } : State).onCpu fun c => { c with aset := if g ∈ c.aset then c.aset else c.aset ++ [g] }
    (∀ g w, e = .store [(g, w)] → u.agentOf w.pa = .bank v.cur → v.bankTakes w.pa w.swz w.n = true → leaves (u.applyWrite v.cur w)) ∧
    (∀ g w, e = .store [(g, w)] → u.agentOf w.pa = .bank v.cur → v.bankTakes w.pa w.swz w.n = false → leaves s) ∧
    (∀ g w, e = .store [(g, w)] → u.agentOf w.pa ≠ .bank v.cur → leaves (sent u (u.agentOf w.pa) (.write w))) ∧
    (∀ parts, e = .store parts → v.partsReady parts ≠ [] → ∃ (i n : Nat) (g : Agent) (w : WriteOp), parts[i]? = some (g, w) ∧ v.bankTakes w.pa w.swz w.n = true ∧
      leaves ((({ v with freeN := n } : State).onCpu fun c => { c with sq := if listDrop parts i = [] then rest else .store (listDrop parts i) :: rest }).leaveWrite w)) ∧
    (∀ parts, e = .store parts → v.partsReady parts = [] → leaves s) ∧
    (∀ g op pa swz n, e = .amo g op → op.range = some (pa, swz, n) → u.agentOf pa ≠ .bank v.cur → leaves { u with net := u.net ++ [u.packet (u.agentOf pa) op], packetN := u.packetN + 1 }) ∧
    (∀ g op pa swz n, e = .amo g op → op.range = some (pa, swz, n) → u.agentOf pa = .bank v.cur →
      leaves { u with net := u.net ++ [{ u.packet (.bank v.cur) op with stage := .agent, egrAt := u.packetN, waiting := !u.bitsReady op }], packetN := u.packetN + 1 }) ∧
    (∀ a x, e = .cfg a x → leaves (sent u (u.agentOf a) (.cfgWrite a x))) ∧
    (∀ g pa swz n on, e = .fullBits [(g, pa, swz, n)] on → u.agentOf pa ≠ .bank v.cur → leaves (sent u (u.agentOf pa) (.fullBits pa swz n on))) ∧
    (∀ g pa swz n on, e = .fullBits [(g, pa, swz, n)] on → u.agentOf pa = .bank v.cur →
      (u.bankTakes pa swz n = true → leaves (u.setFullBits pa swz n on)) ∧ (u.bankTakes pa swz n = false → leaves s)) ∧
    (∀ a, e = .rput a → leaves { u with arrivals := u.arrivals ++ [a] }) ∧
    (∀ target c, e = .message target c → u.tqHeld < 32 → ∃ t : State, leaves t ∧ ∃ m : Msg, t.msgs = u.msgs ++ [m] ∧ m.target = target ∧ m.sender = c.ident ∧ m.sgen = c.gen ∧ m.seq = c.seq ∧ m.body = c.regs.map (·.bits)) ∧
    (∀ c, e = .command 2 c → leaves (u.onCore fun k => { k with mq := k.mq ++ [{ c with after := u.packetN }] })) ∧
    (∀ c, e = .command 12 c → leaves { u with remotes := u.remotes ++ [⟨c.reg 0, u.cur, u.slot, { c with regs := c.regs.drop 1, after := u.packetN }⟩] }) ∧
    (∀ c, e = .command 3 c → u.tqHeld ≥ 32 → leaves s) ∧
    (∀ c, e = .command 3 c → c.op = .cpy → u.tqHeld < 32 → leaves (u.onCore fun k => { k with tq := k.tq ++ [{ c with after := u.packetN }] })) ∧
    (∀ c, e = .command 4 c → (∀ n, c.op ≠ .fbopen n) → (∀ n w, c.op ≠ .pkrun n w) → leaves (u.onCore fun k => { k with pq := k.pq ++ [{ c with after := u.packetN, taken := true }] })) ∧
    (∀ eng c, e = .command eng c → 5 ≤ eng → eng ≤ 8 → leaves { u with requests := u.requests ++ [(eng, { c with after := u.packetN })] }) ∧
    (∀ vote, e = .barrier vote → leaves s) ∧
    (∀ scope ar, e = .fence scope ar →
      let need := v.cpu.aset.filter (needsApplied scope v.cur)
      (need = [] → (∀ p ∈ v.net, p.h = v.cur → p.slot = v.slot → p.op.writes = true → p.farEnough scope = true) → leaves u) ∧
      (need = [] → (∃ p ∈ v.net, p.h = v.cur ∧ p.slot = v.slot ∧ p.op.writes = true ∧ p.farEnough scope = false) → leaves s) ∧
      (∀ g, need = [g] → v.probing g = false → leaves { v with net := v.net ++ [v.packet g .probe], packetN := v.packetN + 1 }) ∧
      (∀ g, need = [g] → v.probing g = true → leaves s))

/-- An agent acts on a packet in its order: a write is applied at its home, a read or atomic returns its value to the context that waits, a full/empty access waits at its bank queue and changes its
bits, a probe is answered after the tenant's earlier writes; no packet overtakes an earlier one of its core to the same bank or line, or one that the ring stop passed before it; a slice whose
counter of the tenant stands at 0xFFFF accepts no further write; an access that was issued before its frame's policy tag was cleared sets the tag again (R12, R24, R28, R29, R35, R36, R45, R145, R150,
R156, R296, R349, R352, R363). Which addresses make one register block of configuration space is the model's reading (log 98). -/
def Obligations.AgentSteps : Prop :=
  (∀ (s : State) (k : Nat) (p : Packet), s.net[k]? = some p → s.admits p = true →
    let t := s.takePacket k p
    let does := fun u : State => exec (.writeApplied k) s = .next u
    let waits : State := { s with
      net := listSet s.net k { p with stage := .agent, egrAt := if p.stage = .agent then p.egrAt else s.packetN, waiting := true }
      packetN := if p.stage = .agent then s.packetN else s.packetN + 1 }
    (∀ w, p.op = .write w → does ((t.reclaim p.tenant w.pa p.dest).ownWrite p.h w)) ∧
    (∀ pa swz n on, p.op = .fullBits pa swz n on → does (t.setFullBits pa swz n on)) ∧
    (∀ a v k, p.op = .cfgWrite a v → p.dest = .config k → does (t.cfgWrite (localOf a) v)) ∧
    (∀ a k, p.op = .cfgRead a → p.dest = .config k → does ((t.cfgRead (localOf a)).2.answerLoad p ((t.cfgRead (localOf a)).1.setWidth 1024) false none)) ∧
    (∀ r, p.op = .read r →
      let s' := (s.reclaim p.tenant r.pa p.dest).takePage r.pa false
      let t' := s'.takePacket k p
      let v := s'.serve p.h r (s'.forwarded p)
      (r.kind = .plain → does ((t'.touchFor p.h r.pa r.n).answerLoad p v.1 v.2.1 v.2.2)) ∧
      (∀ clr, r.kind = .consume clr → s'.allFull r = true → does ((if v.2.2 = none then t'.consume r else t').answerLoad p v.1 v.2.1 v.2.2)) ∧
      (∀ clr, r.kind = .consume clr → s'.allFull r = false → p.waiting = false → does waits) ∧
      (∀ clr, r.kind = .consume clr → s'.allFull r = false → p.waiting = true → does s) ∧
      (r.kind = .watch → v.2.2 = none → does (((t'.touchFor p.h r.pa r.n).arm p.h p.slot (lineOf r.swz r.pa)).answerLoad p v.1 v.2.1 v.2.2))) ∧
    (∀ w, p.op = .stfeWait w → (s.bitsReady p.op = true → does ((t.applyWrite p.h w).answerLoad p 0 false none)) ∧
      (s.bitsReady p.op = false → p.waiting = false → does waits) ∧ (s.bitsReady p.op = false → p.waiting = true → does s)) ∧
    (∀ op pa swz n y cmp, p.op = .amo op pa swz n y cmp →
      let v := ((t.reclaim p.tenant pa p.dest).mcWritten s.mcast.length (lineOf swz pa)).takePage pa true
      (s.ownedBy pa = false → v.poisonFor p.h swz pa n (ones 128 n) = none →
        exec (.atomicPerformed k) s = .next ((v.atomic p.h op pa swz n y cmp).2.answerLoad p (BitVec.ofNat 1024 (v.atomic p.h op pa swz n y cmp).1) false none)) ∧
      (s.ownedBy pa = false → ∀ a, v.poisonFor p.h swz pa n (ones 128 n) = some a → exec (.atomicPerformed k) s = .next (v.answerLoad p 0 false (some (a - pa)))) ∧
      (s.ownedBy pa = true → ∀ l, (t.focus p.h p.slot).cpu.pend = some l → exec (.atomicPerformed k) s =
        .next ((((t.focus p.h p.slot).onCpu fun c => { c with pend := none, run := .ready }).takeTrap ⟨0x0B, 2, BitVec.ofNat 64 l.ea, false, false⟩).onCpu fun c => c.haltAgain (t.focus p.h p.slot).cpu.run)))) ∧
  (∀ (s : State) (h : Nat) (w : WriteOp), let v := (s.mcWritten s.mcast.length (lineOf w.swz w.pa)).takePage w.pa true
    (v.deadAgent (v.agentOf w.pa) = false → s.ownWrite h w = v.applyWrite h w) ∧ (v.deadAgent (v.agentOf w.pa) = true → s.ownWrite h w = v)) ∧
  (∀ (s : State) (tn pa : Nat) (g : Agent), let old := Tab.get 0 s.oldTag (frameOf pa)
    (Tab.get 0 s.policy (frameOf pa) ≠ 0 ∨ old = 0 → s.reclaim tn pa g = s) ∧
    (Tab.get 0 s.policy (frameOf pa) = 0 → old ≠ 0 → old ≠ 3 → s.reclaim tn pa g = { s with policy := Tab.set 0 s.policy (frameOf pa) old })) ∧
  (∀ (s : State) (p q : Packet) (k : Nat), p.op.range = none → p.dest = .config k → q ∈ s.net → q.dest = .config k → q.op.block = p.op.block → q.waiting = false → q.h = p.h → q.id < p.id →
    s.admits p = false) ∧
  (∀ (s : State) (k : Nat) (p : Packet), s.net[k]? = some p → s.admits p = false → exec (.writeApplied k) s = .next s ∧ exec (.atomicPerformed k) s = .next s) ∧
  (∀ (s : State) (p q : Packet) (pa swz n : Nat), p.op.range = some (pa, swz, n) → q ∈ s.net → q.bars p.dest pa swz n = true → (q.h = p.h → q.id < p.id → s.admits p = false) ∧
    (q.id ≠ p.id → q.h ≠ p.h → q.h / 16 = p.h / 16 → q.stage ≠ .port → p.stage = .port → q.dest ≠ .bank q.h → p.dest ≠ .bank p.h → s.admits p = false)) ∧
  (∀ (s : State) (p : Packet) (n : Nat), p.dest = .slice n → p.op.writes = true → p.stage ≠ .agent → Tab.get 0 s.wcc (n * 64 + p.tenant) ≥ 0xFFFF → s.admits p = false) ∧
  (∀ (s : State) (p : Packet) (x : BitVec 1024) (tag : Bool) (pois : Option Nat) (l : Pending), (s.ctx p.h p.slot).pend = some l →
    s.answerLoad p x tag pois = s.setCtx p.h p.slot { s.ctx p.h p.slot with
      pend := some { l with left := l.left - 1, acc := l.acc ||| x, tag := tag, poison := lowerOf l.poison pois } }) ∧
  (∀ (s : State) (h k i n : Nat) (g : Agent) (p : Packet), (s.ctx h k).aset[i]? = some g →
    s.net.findIdx? (fun p => decide (p.h = h ∧ p.slot = k ∧ p.dest = g ∧ p.op = .probe)) = some n → s.net[n]? = some p →
    ((∀ q ∈ s.net, q.dest = g → q.before p = true → q.op.writes = true → q.tenant ≠ p.tenant) → exec (.completionProbeAnswer h k i) s =
      .next (({ s with net := listDrop s.net n } : State).setCtx h k { s.ctx h k with aset := listDrop (s.ctx h k).aset i })) ∧
    ((∃ q ∈ s.net, q.dest = g ∧ q.before p = true ∧ q.op.writes = true ∧ q.tenant = p.tenant) → (∀ d, g = .remote d → Tab.get false s.mdl.ddead d = false) →
      exec (.completionProbeAnswer h k i) s = .next s))

/-- Values return and waits end: a load whose reads have all been served completes, and a poisoned one traps with 0x0C; a walk's end wakes the misses of its die that have joined it, and enters the
TLBs where it succeeded; a pending asynchronous cause is taken, the lowest code first, with bit 10 of ECAUSE where it strikes before a header; an `mwait` times out; a dead device's reads come back
poisoned and its writes vanish (R26, R110, R140, R151, R240, R343, R358). -/
def Obligations.ReturnSteps : Prop :=
  (∀ (s : State) (h k : Nat) (l : Pending), (s.focus h k).cpu.pend = some l →
    let u := (s.focus h k).onCpu fun c => { c with pend := none, run := .ready }
    let x := blend l.acc l.fwd l.fwdMask
    (l.left ≠ 0 → exec (.loadReturn h k) s = .next s) ∧
    (l.left = 0 → l.poison = none → (s.focus h k).cpu.run = .parked .load →
      (∀ d n sx, l.back = .word d n sx → exec (.loadReturn h k) s = .next (u.onCpu fun c => ((c.popAll l.pops).writeBack l.back x (l.fwdTag.getD l.tag)).advance l.words)) ∧
      (∀ d, l.back = .pair d → exec (.loadReturn h k) s = .next (u.onCpu fun c => ((c.popAll l.pops).writeBack l.back x (l.fwdTag.getD l.tag)).advance l.words)) ∧
      (∀ d m, l.back = .vec d m → exec (.loadReturn h k) s = .next (u.onCpu fun c => ((c.popAll l.pops).writeBack l.back x (l.fwdTag.getD l.tag)).advance l.words)) ∧
      (l.back = .none → exec (.loadReturn h k) s = .next (u.onCpu fun c => (c.popAll l.pops).advance l.words)) ∧
      (l.back = .konst → exec (.loadReturn h k) s = .next (u.onCpu fun c => { c with kv := some (x.setWidth 64) }))) ∧
    (l.left = 0 → ∀ off, l.poison = some off → (∀ d n sx, l.back = .word d n sx → exec (.loadReturn h k) s =
      .next ((u.takeTrap ⟨0x0C, 2, BitVec.ofNat 64 ((l.ea + off) / 16 * 16), false, false⟩).onCpu fun c => c.haltAgain (s.focus h k).cpu.run)) ∧
      (∀ d m, l.back = .vec d m → exec (.loadReturn h k) s =
        .next ((u.takeTrap ⟨0x0C, 2, BitVec.ofNat 64 (l.ea + off), false, false⟩).onCpu fun c => c.haltAgain (s.focus h k).cpu.run)))) ∧
  (∀ (s : State) (h t va : Nat), let page := va / 65536
    let reads := s.walkReads h (page * 65536) 5 0 (bits (s.tenantOf t).troot 12 44 * 4096)
    let u : State := { s with walks := s.walks.filter (· ≠ (h / 512, t, page)) }
    (s.walkRuns (h / 512) t page = true → (∀ a ∈ reads, s.open ⟨a, 0, none⟩ = true) →
      exec (.tlbWalk h t va) s = .next ((s.joiners (h / 512) t page).foldl (fun w k => w.joined t page (s.walk h t (page * 65536)) k) u)) ∧
    (s.walkRuns (h / 512) t page = false → exec (.tlbWalk h t va) s = .next s) ∧
    ((∃ a ∈ reads, s.open ⟨a, 0, none⟩ = false) → exec (.tlbWalk h t va) s = .next s)) ∧
  (∀ (s : State) (t page k : Nat),
    (∀ code, s.joined t page (.error code) k = s.setCtx (k / 16) (k % 16) ((s.ctx (k / 16) (k % 16)).walked t page (some code))) ∧
    (∀ e, s.tlbFind (k / 16) t (page * 65536) = none →
      s.joined t page (.ok e) k = (s.addTlb (k / 16) e).setCtx (k / 16) (k % 16) (((s.addTlb (k / 16) e).ctx (k / 16) (k % 16)).walked t page none))) ∧
  (∀ (c : Ctx) (t page : Nat) (f : Option Nat), (c.walk = some (t, page) → c.walked t page f = { c with walk := none, walkFault := f.map fun code => (page, code) }) ∧
    (c.walk ≠ some (t, page) → c.walked t page f = c)) ∧
  (∀ s : State, (s.asyncReady = true → s.cpu.answer = none →
      (∀ i, s.cpu.povr = some i → exec .asyncTrapEntry s = .next ((s.takeTrap ⟨0x0D, 0, i, false, s.cpu.beforeHeader⟩).onCpu fun c => { c with povr := none })) ∧
      (∀ i, s.cpu.povr = none → s.cpu.rovf = some i → exec .asyncTrapEntry s = .next ((s.takeTrap ⟨0x0E, 0, i, false, s.cpu.beforeHeader⟩).onCpu fun c => { c with rovf := none })) ∧
      (s.cpu.povr = none → s.cpu.rovf = none → exec .asyncTrapEntry s = .next (s.takeTrap ⟨0x16, 0, BitVec.ofNat 64 s.cpu.mbox.length, false, s.cpu.beforeHeader⟩))) ∧
    (s.cpu.run ≠ .issuing ∨ s.cpu.entry = .returning ∨ s.stopped s.cpu.tenant = true ∨ s.core.dhalt = true ∨ s.cpu.tm = true ∨ (s.cpu.povr = none ∧ s.cpu.rovf = none ∧ (s.cpu.mbie = false ∨ s.cpu.mbox = [])) →
      exec .asyncTrapEntry s = .next s)) ∧
  (∀ (s : State) (h k t : Nat), (s.ctx h k).run = .parked (.watch t) → t ≠ 0 → (s.coreOf h).dhalt = false →
    (s.time ≥ t → exec (.mwaitTimeout h k) s = .next (s.setCtx h k { s.ctx h k with run := .parked (.watch 0) })) ∧ (s.time < t → exec (.mwaitTimeout h k) s = .next s)) ∧
  (∀ (s : State) (k n : Nat) (p : Packet), s.net[k]? = some p → p.dest = .remote n →
    let t := { s with net := listDrop s.net k }
    (Tab.get false s.mdl.ddead n = true →
      (∀ r, p.op = .read r → exec (.deadPeerSynthesis k) s = .next (t.answerLoad p 0 false (r.lost (s.forwarded p)))) ∧
      (∀ a, p.op = .cfgRead a → exec (.deadPeerSynthesis k) s = .next (t.answerLoad p 0 false (some 0))) ∧
      (∀ op pa swz n y cmp, p.op = .amo op pa swz n y cmp → exec (.deadPeerSynthesis k) s = .next (t.answerLoad p 0 false (some 0))) ∧
      (∀ w, p.op = .write w → exec (.deadPeerSynthesis k) s = .next t) ∧
      (p.op = .probe → exec (.deadPeerSynthesis k) s = .next (t.setCtx p.h p.slot { t.ctx p.h p.slot with aset := (t.ctx p.h p.slot).aset.filter (· ≠ p.dest) }))) ∧
    (Tab.get false s.mdl.ddead n = false → exec (.deadPeerSynthesis k) s = .next s))

/-- The Fastness unit's steps: a resource becomes due at its interval, or a quarter of it at a score of 512; the test engine takes a free core as a hole; a session's end charges a miscompare
and returns the core cleared; a fade event charges its score, which proposes retirement at 1,024; scores are halved with the day; a deferred channel is tried again (R391-R393, R395-R398). That an
uncorrectable error of a link loses a flit of one packet to a device behind it, whose read or atomic returns poison and whose write poisons every granule that it was to change, and one of a core
poisons one granule of its scratch, which are free, is the model's choice (log 63). -/
def Obligations.FastnessSteps : Prop :=
  (∀ (s : State) (x : Nat), x < 2944 →
    let f := s.fstat x
    let i := if x < 2048 then s.fast.lintc.toNat else if x < 2176 then s.fast.lintl.toNat else s.fast.lintm.toNat
    let age := Nat.min (2 ^ 32 - 1) ((s.time - f.since) / 850000000)
    let due := f.state = 0 ∧ i ≠ 0 ∧ (age ≥ i ∨ (f.score.toNat ≥ 512 ∧ 4 * age ≥ i))
    (due → 2048 ≤ x ∨ (s.coreOf x).gang = none → exec (.leaseDue x) s = .next (s.setFstat x { f with state := 1, duePos := some s.time, asked := none })) ∧
    (¬due → exec (.leaseDue x) s = .next s)) ∧
  (∀ (s : State) (q x : Nat), s.retirable q = none → (∀ y ∈ s.fast.sessions, y.quad ≠ q) → s.dueIn q = [x] →
    (x < 2048 ∧ (s.coreOf x).gang = none) ∨ (2048 ≤ x ∧ x < 2176 ∧ s.dev < Config.peerOf (x - 2048)) →
    let t : State := s.setFstat x { s.fstat x with state := 2, duePos := none, asked := none, wanted := none }
    let u : State := { t with fast := { t.fast with sessions := t.fast.sessions ++ [(⟨q, x, false, []⟩ : Session)] } }
    (∀ b ∈ s.blocked, b.cmd = none → b.h ≠ x) → exec (.leaseTake q) s =
      .next (({ u with fast := { u.fast with sessions := u.fast.sessions.map fun (y : Session) => if y.res = x then { y with told := true } else y } } : State).noticeAll x 0)) ∧
  (∀ (s : State) (q x : Nat), s.retirable q = none → s.dueIn q = [x] → 2048 ≤ x → x < 2176 → Config.peerOf (x - 2048) ≤ s.dev → exec (.leaseTake q) s = .next s) ∧
  (∀ (s : State) (q : Nat) (y : Session) (bad : Bool), s.fast.sessions.find? (fun y => y.quad = q && y.told) = some y →
    (bad = false → (s.fstat y.res).state = 2 → exec (.testSessionEnd q bad) s = .next (s.giveBack y.res)) ∧
    (bad = false → (s.fstat y.res).state ≠ 2 → exec (.testSessionEnd q bad) s = .next { s with fast := { s.fast with sessions := s.fast.sessions.filter fun z => z.res ≠ y.res } }) ∧
    (bad = true → ∃ t : State, t = (s.setFstat y.res { s.fstat y.res with mcnt := if (s.fstat y.res).mcnt = 0xFFFF then 0xFFFF else (s.fstat y.res).mcnt + 1 }).charge y.res 256 ∧
      ((t.fstat y.res).state = 2 → exec (.testSessionEnd q bad) s = .next (t.giveBack y.res)) ∧
      ((t.fstat y.res).state ≠ 2 → exec (.testSessionEnd q bad) s = .next { t with fast := { t.fast with sessions := t.fast.sessions.filter fun z => z.res ≠ y.res } }))) ∧
  (∀ (s : State) (x n : Nat), let f := s.fstat x
    let sum := Nat.min 0xFFFF (f.score.toNat + n)
    (f.state = 5 → s.charge x n = s) ∧
    (f.state ≠ 5 → sum < 1024 ∨ f.state = 3 ∨ f.state = 4 ∨ f.state = 6 ∨ f.state = 7 → s.charge x n = s.setFstat x { f with score := BitVec.ofNat 16 sum }) ∧
    (sum ≥ 1024 → f.state = 0 ∨ f.state = 1 → bit s.fast.stand (statClass x) = false →
      s.charge x n = (s.setFstat x { f with score := BitVec.ofNat 16 sum, state := 3, duePos := none, asked := none, wanted := none }).noticePrv x 4) ∧
    (sum ≥ 1024 → f.state = 2 → bit s.fast.stand (statClass x) = false →
      s.charge x n = (s.setFstat x { f with score := BitVec.ofNat 16 sum, state := 4, duePos := none, asked := none, wanted := none }).noticePrv x 4)) ∧
  (∀ (s : State) (x : Nat), x < 2944 → (s.fstat x).state ≠ 5 → exec (.fadeEvent x 0) s = .next (s.charge x 1) ∧
    (2048 ≤ x → x < 2176 → exec (.fadeEvent x 2) s = exec (.linkDead (x - 2048)) s ∧ ((∀ p ∈ s.net, ∀ d, p.dest ≠ .remote d) → exec (.fadeEvent x 1) s = .next (s.charge x 64)) ∧
      (∀ p d, s.net = [p] → p.dest = .remote d →
        let t : State := { s with net := [] }
        let loses := fun u : State => exec (.fadeEvent x 1) s = .next (({ u with freeN := s.freeN + 1 } : State).charge x 64)
        (x - 2048 ∉ s.mdl.ports d → exec (.fadeEvent x 1) s = .next (s.charge x 64)) ∧
        (x - 2048 ∈ s.mdl.ports d → (∀ r, p.op = .read r → loses (t.answerLoad p 0 false (r.lost (s.forwarded p)))) ∧
          (∀ op pa swz n y cmp, p.op = .amo op pa swz n y cmp → loses (t.answerLoad p 0 false (some 0))) ∧
          (∀ w, p.op = .write w → s.mem.wf = true → ∃ m, loses { t with mem := m } ∧ (∀ a, m.byte a = s.mem.byte a) ∧
            ∀ g, m.poisonAt g = true ↔ (s.mem.poisonAt g = true ∨ ∃ i < w.n, bit w.mask i = true ∧ granuleOf w.swz (w.pa + i) = g))))) ∧
    (x < 2048 → ∃ g, scratchBase s.dev x / 16 ≤ g ∧ g < scratchBase s.dev x / 16 + 0x6000 ∧ exec (.fadeEvent x 1) s =
      .next (({ s with mem := s.mem.setPoison g true, freeN := s.freeN + 1 } : State).charge x 64))) ∧
  (∀ (s : State) (x kind : Nat), (s.fstat x).state = 5 → exec (.fadeEvent x kind) s = .next s) ∧
  (∀ s : State, (s.counter / 73440000000000 ≤ s.fast.lastHalving → exec .scoreHalving s = .next s) ∧
    (s.counter / 73440000000000 > s.fast.lastHalving → ∃ u : State, exec .scoreHalving s = .next u ∧ u.fast.lastHalving = s.fast.lastHalving + 1 ∧
      u.fast.log = s.fast.log ∧ u.mem = s.mem ∧ ∀ x f, s.fast.stat = [(x, f)] → f.state ≠ 5 → u.fstat x = { f with score := f.score >>> 1, reports := [] })) ∧
  (∀ (s : State) (x a : Nat), 2176 ≤ x → x < 2944 → (s.fstat x).wanted = some a → s.moving x = false → s.channelBusy x = false → s.fast.log.length < 4096 →
    ((s.fstat x).state = 4 ∨ ((s.fstat x).state = 3 ∧ s.reserveFor x = true) → exec (.channelRetirementRetry x) s = .next (s.retire x a)) ∧
    ((s.fstat x).state = 3 → s.reserveFor x = false → exec (.channelRetirementRetry x) s = .next s)) ∧
  (∀ (s : State) (x auth : Nat), x < 2176 → ∃ u : State, s.recordRetirement x auth = u.noticeAll x 2 ∧ ∃ r, u.fast.log = s.fast.log ++ [r] ∧ r.rseq = s.fast.log.length ∧
    r.auth = BitVec.ofNat 2 auth ∧ r.score = (s.fstat x).score ∧ r.time = s.counter ∧ r.devno = s.mdl.devno ∧ r.mcnt = (s.fstat x).mcnt)

/-- Power, boot and time: power goes and comes; power-on clears the device but for its number and log; TIME_COUNTER_LOCK takes a reference ahead at once and loses every second cycle towards one
behind; a sensor's sample and its read; a network frame every 1,024 counts; while the stages have not passed or the counter has not locked no step of the resident system is made (R359, R411-R415,
R417). What a boot image hashes to, the key that signed it, its version and the fused ones are the model's free values (log 3). -/
def Claims.ModuleSteps : Prop :=
  (∀ s : State, (s.mdl.power = true → exec .powerLoss s = .next (s.onMdl fun m => { m with power := false }) ∧ exec .powerStageCutoff s = .next (s.onMdl fun m => { m with power := false })) ∧
    (s.mdl.power = false → exec .powerLoss s = .next s ∧ exec .powerStageCutoff s = .next s)) ∧
  (∀ s : State, (s.mdl.power = true → s.mdl.stage ≠ 0 ∨ s.mdl.recovery = true → exec .powerOn s = .next s) ∧
    (s.mdl.power = true → s.mdl.stage = 0 → s.mdl.recovery = false → exec .powerOn s = .next ((List.range 4).foldl State.bootStage s)) ∧
    (s.mdl.power = false → exec .powerOn s = .next ((List.range 4).foldl State.bootStage s.coldStart) ∧ s.coldStart.cpu = State.reset.cpu ∧ s.coldStart.mem = State.reset.mem ∧
      s.coldStart.tenants = State.reset.tenants ∧ s.coldStart.time = 0 ∧ s.coldStart.mdl.devno = s.mdl.devno ∧ s.coldStart.mdl.meas = Vector.replicate 8 0 ∧ s.coldStart.fast.log = s.fast.log ∧
      s.coldStart.mdl.power = true)) ∧
  (∀ (s : State) (stage : Nat), (s.mdl.recovery = true → s.bootStage stage = s) ∧
    (s.mdl.recovery = false → ∃ n, let u := s.bootStage stage
      let fails := stage = 0 ∧ ¬(Config.stageKey n = Config.fusedKey ∧ Config.stageSigned n = true ∧ Config.fusedVersion ≤ Config.stageVersion n)
      u.cpu = s.cpu ∧ u.mem = s.mem ∧ (fails → u.mdl.recovery = true ∧ u.mdl.meas = s.mdl.meas ∧ u.mdl.stage = s.mdl.stage) ∧
      (¬fails → u.mdl.recovery = false ∧ u.mdl.stage = stage + 1 ∧
        u.mdl.meas = s.mdl.meas.setIfInBounds stage (extendMeas ((s.mdl.meas[stage]?).getD 0) (Config.stageHash n))))) ∧
  (∀ s : State, (s.residentRuns = true ↔ s.mdl.stage = 4 ∧ s.mdl.recovery = false ∧ s.mdl.locked = true) ∧ ∀ e, byResident e = true → s.residentRuns = false → s.mayAct e = false) ∧
  (∀ (s : State) (ref : Option Nat) (peers : List Nat), (s.mdl.locked = true → exec (.timeCounterLock ref peers) s = .next s) ∧
    (s.mdl.locked = false → (peers = [] → ∃ u : State, exec (.timeCounterLock ref peers) s = .next u ∧ u.counter = s.counter ∧ u.mdl.refDev = none ∧ u.mdl.locked = true) ∧
      (∀ r d, ref = some r → peers = [d] → ∃ u : State, exec (.timeCounterLock ref peers) s = .next u ∧ u.mdl.refDev = some d ∧ u.mdl.locked = true ∧
        (s.mdl.slowLen = 0 → r ≥ s.counter → u.counter = r) ∧ (r < s.counter → u.mdl.slowFrom = s.time ∧ u.mdl.slowLen = s.counter - r)))) ∧
  (∀ (s : State) (d n : Nat) (temp : BitVec 16), d < 4 → n < 96 → let old := Tab.get ⟨0, 0, false⟩ s.mdl.therm (d * 96 + n)
    exec (.sensorSample d n temp) s = .next (s.onMdl fun m => { m with therm := Tab.set ⟨0, 0, false⟩ m.therm (d * 96 + n) ⟨temp, if temp.toNat > old.tmax.toNat then temp else old.tmax, true⟩ }) ∧
    exec (.thermRead d n) s = .next ({ s with readback := BitVec.ofNat 64 (old.temp.toNat + old.tmax.toNat * 2 ^ 16 + old.val.toNat * 2 ^ 32) }.onMdl fun m =>
      { m with therm := Tab.set ⟨0, 0, false⟩ m.therm (d * 96 + n) { old with tmax := old.temp } })) ∧
  (∀ s : State, (s.counter / 1024 > s.frame → exec .qosFrame s = .next { s with frame := s.counter / 1024 }) ∧ (s.counter / 1024 ≤ s.frame → exec .qosFrame s = .next s))

/-- Key slots and measurement: seven staged dwords and an eighth that commits the whole key and counts the commit, or nothing; MEXT extends a register from 4 to 7 by the staged hash with
SHA-384 over the register and the hash; a load of offset 0 latches MEAS (R407, R414, R416). -/
def Claims.KeySteps : Prop :=
  (∀ (s : State) (t off : Nat) (v : BitVec 64), t < 64 → let k := Tab.get ⟨0, 0, 0, 0⟩ s.mdl.kslot t
    let staged := fun off : Nat => { k with staging := setBits k.staging (8 * off) 64 v.toNat, written := setBit k.written (off / 8) true }
    let put := fun k' : KeySlot => s.onMdl fun m => { m with kslot := Tab.set ⟨0, 0, 0, 0⟩ m.kslot t k' }
    (off % 8 = 0 → off ≤ 48 → exec (.kslotStage t off v) s = .next (put (staged off))) ∧
    ((staged 56).written = 0xFF → exec (.kslotCommit t v) s = .next (put ⟨(staged 56).staging, 0, 0, k.gen + 1⟩)) ∧
    ((staged 56).written ≠ 0xFF → exec (.kslotCommit t v) s = .next (put { k with staging := 0, written := 0 }))) ∧
  (∀ (s : State) (off : Nat) (v : BitVec 64), off % 8 = 0 → off ≤ 40 →
    exec (.mextStage off v) s = .next (s.onMdl fun m => { m with mext := setBits m.mext (8 * off) 64 v.toNat, mextN := m.mextN + 1 })) ∧
  (∀ (s : State) (v : BitVec 64), let n := v.toNat % 8
    (n < 4 ∨ s.mdl.mextN < 6 → exec (.mextExtend v) s = .next s) ∧
    (4 ≤ n → 6 ≤ s.mdl.mextN → exec (.mextExtend v) s = .next (s.onMdl fun m => { m with meas := m.meas.setIfInBounds n (extendMeas ((m.meas[n]?).getD 0) m.mext), mextN := 0 }))) ∧
  (∀ (s : State) (n : Nat), n < 8 → let x := (s.mdl.meas[n]?).getD 0
    exec (.measLatch n) s = .next ({ s with readback := BitVec.ofNat 64 (x.toNat % 2 ^ 64) }.onMdl fun m => { m with latch := m.latch.setIfInBounds n x }))

/-- Power, boot, time, sensors, key slots and measurement registers. -/
def Obligations.ModuleSteps : Prop := Claims.ModuleSteps ∧ Claims.KeySteps

/-- Links and dead devices: a replay charges the link by one; three heartbeats missed make it dead, in state 6; LDEAD and DDEAD clear the marks; a device without a live route for 30 µs is dead, its
held pages poisoned and home, a fault record filed, and where it was the time reference the lowest locked device left takes over, if it is lower (R358, R393, R396, R408-R410, R412). The leave and
return notices of a link are the model's reading (log 64), and so are the 25,500 cycles, counted from the loss of the last live route, and a replay that three heartbeat periods have not completed
(log 69). -/
def Obligations.LinkSteps : Prop :=
  (∀ (s : State) (p : Nat), p < 128 → Tab.get false s.mdl.ldead p = false → (s.fstat (2048 + p)).state ≠ 5 → exec (.linkFlitReplay p) s =
    .next ((s.onMdl fun m => { m with replays := if Tab.get 0 m.replays p = 0 then Tab.set 0 m.replays p (s.time + 1) else m.replays }).charge (2048 + p) 1)) ∧
  (∀ (s : State) (p : Nat), p < 128 → exec (.heartbeat p true) s = .next (s.onMdl fun m => { m with missed := Tab.set 0 m.missed p 0 }) ∧
    exec (.heartbeat p false) s = .next (s.onMdl fun m => { m with missed := Tab.set 0 m.missed p (Tab.get 0 m.missed p + 1) }) ∧
    (Tab.get 0 s.mdl.replays p ≠ 0 → s.replayed p = some (s.onMdl fun m => { m with replays := Tab.set 0 m.replays p 0 })) ∧ (Tab.get 0 s.mdl.replays p = 0 → s.replayed p = none)) ∧
  (∀ (s : State) (p : Nat), p < 128 → Tab.get false s.mdl.ldead p = false →
    let t := (s.onMdl fun m => { m with ldead := Tab.set false m.ldead p true }).cutFrom s
    let f := s.fstat (2048 + p)
    let u := t.setFstat (2048 + p) { f with state := 6, duePos := none, wanted := none }
    let stuck := Tab.get 0 s.mdl.replays p ≠ 0 ∧ s.time + 1 ≥ Tab.get 0 s.mdl.replays p + 25500
    (Tab.get 0 s.mdl.missed p ≥ 3 ∨ stuck → f.state ≠ 5 → exec (.linkDead p) s =
      .next ((({ u with fast := { u.fast with sessions := u.fast.sessions.filter fun y => y.res ≠ 2048 + p } } : State).charge (2048 + p) 256).noticeAll (2048 + p) 0)) ∧
    (Tab.get 0 s.mdl.missed p ≥ 3 ∨ stuck → f.state = 5 → exec (.linkDead p) s = .next t) ∧
    (Tab.get 0 s.mdl.missed p < 3 → ¬stuck → exec (.linkDead p) s = .next s)) ∧
  (∀ s old : State, ((∀ n, old.routeLive n = true → s.routeLive n = true) → s.cutFrom old = s) ∧
    (∀ n, Tab.wf 0 s.mdl.routedAt = true → n ∈ old.mdl.rtab.map (·.1) → old.routeLive n = true → s.routeLive n = false → Tab.get 0 (s.cutFrom old).mdl.routedAt n = s.time)) ∧
  (∀ (s : State) (n : Nat) (v : BitVec 64), n < 8192 →
    exec (.rtabWrite n v) s = .next ((s.onMdl fun m => { m with rtab := Tab.set 0 m.rtab n (BitVec.ofNat 64 (v.toNat % 2 ^ 32)) }).cutFrom s) ∧
    (bit v 1 = true → Tab.get false s.mdl.ddead n = true →
      exec (.ddeadClear n v) s = .next (s.onMdl fun m => { m with ddead := Tab.set false m.ddead n false, routedAt := Tab.set 0 m.routedAt n s.time })) ∧
    (bit v 1 = false ∨ Tab.get false s.mdl.ddead n = false → exec (.ddeadClear n v) s = .next s)) ∧
  (∀ (s : State) (n : Nat) (v : BitVec 64), n < 128 →
    let t := s.onMdl fun m => { m with ldead := Tab.set false m.ldead n false, missed := Tab.set 0 m.missed n 0, replays := Tab.set 0 m.replays n 0 }
    (bit v 1 = true → Tab.get false s.mdl.ldead n = true → (s.fstat (2048 + n)).state = 6 →
      exec (.ldeadClear n v) s = .next ((t.setFstat (2048 + n) { s.fstat (2048 + n) with state := 0 }).noticeAll (2048 + n) 1)) ∧
    (bit v 1 = true → Tab.get false s.mdl.ldead n = true → (s.fstat (2048 + n)).state ≠ 6 → exec (.ldeadClear n v) s = .next t) ∧
    (bit v 1 = false ∨ Tab.get false s.mdl.ldead n = false → exec (.ldeadClear n v) s = .next s)) ∧
  (∀ (s : State) (n : Nat), n < 6144 → n ≠ s.dev → Tab.get false s.mdl.ddead n = false → (∀ k ∈ s.mdl.ports n, s.portLive k = false) →
    (s.time ≥ Tab.get 0 s.mdl.routedAt n + 25500 → ∃ u : State, exec (.deviceDead n) s = .next u ∧ Tab.get false u.mdl.ddead n = true ∧ u.fast.faults = s.fast.faults ++ [n] ∧
      (∀ f, s.pageDir = [(f, .held n)] → devOf (f * 65536) = s.dev → u.pageDir = [] ∧ u.mem = s.mem.poisonFrame f) ∧
      (s.mdl.refDev = some n → ∀ d, u.mdl.refDev = some d → d ∈ s.mdl.peers ∧ d ≠ n ∧ d < s.dev ∧ ∀ e ∈ s.mdl.peers, e ≠ n → d ≤ e) ∧
      (s.mdl.refDev ≠ some n → u.mdl.refDev = s.mdl.refDev)) ∧
    (s.time < Tab.get 0 s.mdl.routedAt n + 25500 → exec (.deviceDead n) s = .next s)) ∧
  (∀ (s : State) (n : Nat), (∃ k ∈ s.mdl.ports n, s.portLive k = true) → exec (.deviceDead n) s = .next s)

/-- Configuration space: a store reaches the register at its local address; TPART takes a partition only within 2,048 and of a tenant that runs nothing; TINV drops the tenant's translations that
overlap its range from every TLB; a location entry's state is stored only between saved and cold, and a resident one is left; read-only registers take no store (R22, R168, R344, R360, R368,
R369, R390, R410). -/
def Obligations.ConfigSteps : Prop :=
  (∀ (s : State) (a : Nat) (v : BitVec 64), exec (.configWrite a v) s = .next (match cfgReg a with | some r => s.writeReg r v | none => s)) ∧
  (∀ (s : State) (t : Nat) (v : BitVec 64), t < 64 →
    let x := s.tenantOf t
    let base := v.toNat % 2 ^ 11
    let len := v.toNat / 2 ^ 16 % 2 ^ 12
    let refused := base + len > 2048 ∨ (∃ g ∈ s.gangs, g.tenant = t) ∨ x.tstate ≠ 0
    (refused → exec (.tpartWrite t v) s = .next s ∧ s.writeReg (.dispatch t 0) v = s) ∧
    (¬refused → exec (.tpartWrite t v) s = .next (s.setTenant t { x with tpart := BitVec.ofNat 64 (base + len * 2 ^ 16) }) ∧
      s.writeReg (.dispatch t 0) v = s.setTenant t { x with tpart := BitVec.ofNat 64 (base + len * 2 ^ 16) })) ∧
  (∀ (s : State) (t : Nat) (v : BitVec 64), t < 64 → ∃ u : State, exec (.tinvWrite t v) s = .next u ∧ s.writeReg (.tinv t) v = u ∧ u.core.tlb = dropEntries t v s.core.tlb ∧
    u.mem = s.mem ∧ u.tenants = s.tenants ∧ u.cpu.w = s.cpu.w ∧ u.cpu.st = s.cpu.st ∧
    (∀ e ∈ s.core.tlb, e ∈ u.core.tlb ↔ ¬(e.tenant = t ∧ (v.toNat % 2 ^ 16 = 0 ∨ (e.va < v.toNat / 2 ^ 16 % 2 ^ 41 * 65536 + v.toNat % 2 ^ 16 * 65536 ∧
      v.toNat / 2 ^ 16 % 2 ^ 41 * 65536 < e.va + 2 ^ e.bits))))) ∧
  (cfgReg 0x40001000000 = some (.troot 0) ∧ cfgReg 0x40001000018 = some (.tinv 1) ∧ cfgReg 0x40002000100 = some (.dispatch 1 0) ∧ cfgReg 0x40003000010 = some .lintm ∧
    cfgReg 0x40005000008 = some (.rtab 1) ∧ cfgReg 0x40040000028 = some (.loc 1 1) ∧ cfgReg 0x40020001018 = some (.core 1 0x18)) ∧
  (∀ (s : State) (t : Nat) (v : BitVec 64), s.writeReg (.troot t) v =
    s.setTenant t { s.tenantOf t with troot := BitVec.ofNat 64 (v.toNat % 2 + v.toNat / 2 ^ 12 % 2 ^ 44 * 2 ^ 12) }) ∧
  (∀ (l : Loc) (v : Word), (l.state = .resident ∨ l.state = .moving → ∀ k, l.store k v = l) ∧
    (l.state = .saved → v.toNat % 8 = 4 → (l.store 0 v).state = .cold) ∧ (l.state = .cold → v.toNat % 8 = 3 → (l.store 0 v).state = .saved) ∧
    (l.state = .free → v.toNat % 8 ≠ 0 → l.store 0 v = l) ∧ (l.state = .saved → v.toNat % 8 ≠ 3 → v.toNat % 8 ≠ 4 → l.store 0 v = l)) ∧
  (∀ (s : State) (x n t : Nat) (v : Word), s.writeReg (.fstat x) v = s ∧ s.writeReg .logn v = s ∧ s.writeReg .stand v = s ∧ s.writeReg .devno v = s ∧ s.writeReg .tsync v = s ∧
    s.writeReg (.frmap x) v = s ∧ s.writeReg (.wmk n t) v = s ∧ s.writeReg (.kgen t) v = s ∧ (s.readReg (.fstat x)).1 = s.fstatWord x ∧ (s.readReg (.kslot t n)).1 = 0)

/-- Reset: every register of a context and of a core, the dispatch registers of every tenant and the Fastness registers hold the values that the tables of R98, R99, R116, R368 and R390 state. -/
def Claims.ResetState : Prop :=
  let s := State.reset
  (∀ h k, let c := s.ctx h k
    (∀ r : Fin 64, c.w[r] = .zero) ∧ (∀ r : Fin 32, c.v[r] = 0) ∧ (∀ r : Fin 8, c.p[r] = 0 ∧ c.fm[r] = 0x7E030739#64 ∧ c.cw[r] = .zero ∧ c.mb[r] = 0 ∧ c.tb[r] = 0 ∧
      (c.fb[r]).opn = false ∧ (c.sg[r]).bnd = false) ∧ (∀ r : Fin 4, c.lc[r] = 0) ∧ c.st = 0 ∧ c.epc = 0 ∧ c.esr = 0 ∧ c.ecause = 0 ∧ c.einfo = 0 ∧ c.erh = 0 ∧ c.tvec = .zero ∧ c.hdrop = 0 ∧ c.mbox = [] ∧ c.awW = 0 ∧ c.awV = 0 ∧ c.awP = 0 ∧ c.run = .idle ∧ c.dbl = false) ∧
  (∀ h, let c := s.coreOf h
    (∀ r : Fin 4, c.z[r] = .zero) ∧ (∀ r : Fin 32, c.mc[r] = 0) ∧ c.budget = 96 ∧ c.wtab0 = 0x3004080606020201#64 ∧ c.wtab1 = 0x0001020202030830#64 ∧ c.dhalt = false ∧
      c.dsel = 0 ∧ c.dlo = 0 ∧ c.dhi = 0 ∧ c.dtag = false ∧ c.ovfl = 0) ∧
  (∀ t, let x := s.tenantOf t
    x.tpart = 0 ∧ x.tstop = 0 ∧ x.tstate = 0 ∧ x.tprio = 127 ∧ x.cqb = 0 ∧ x.tsave = 0 ∧ x.sysctx = 0 ∧ ∀ i, (x.obj i).gen = 0 ∧ (x.obj i).done = true) ∧
  s.fast.lintc = 86400 ∧ s.fast.lintl = 21600 ∧ s.fast.lintm = 43200 ∧ s.fast.stand = 0 ∧ s.fast.lres = 0 ∧ (∀ x, (s.fstat x).score = 0 ∧ (s.fstat x).state = 0) ∧
  (∀ id, (s.loc id).state = .free) ∧ s.counter = 0

/-- The memory of the state after reset has its canonical form, and lists nothing (the model's own form; log 1). -/
def Claims.ResetMemoryForm : Prop := State.reset.mem.wf = true ∧ ∀ a, State.reset.mem.byte a = Memory.blank ∧ State.reset.mem.tagAt a = false ∧ State.reset.mem.poisonAt a = false

/-- Reset leaves every register at the value its table states, and memory lists nothing. -/
def Obligations.ResetState : Prop := Claims.ResetState ∧ Claims.ResetMemoryForm

/-- Every step keeps the canonical form of memory: strictly rising addresses and nothing listed that an unlisted address reads as, of bytes, tags, poison marks and empty marks (the model's own
form; log 1). -/
def Obligations.MemoryFormKept : Prop := ∀ s t : State, s.mem.wf = true → step s = .next t → t.mem.wf = true

/-- Decode and encode agree: the words of every well-formed instruction of the opcode table decode to it with every operand, whatever word follows a one-word instruction, and a step of the
device has no word; an instruction of the table has as many words as its entry gives it (R56-R62, R236). -/
def Obligations.EncodeDecodeRoundTrip : Prop :=
  (∀ i : Instr, i.wellFormed = true → ∀ w x, (encode i = [w] ∨ encode i = [w, x]) → w < 2 ^ 32 ∧ decode w x = some i) ∧
  (∀ i : Instr, i.isWord = true → (encode i).length = i.words ∧ (i.words = 1 ∨ i.words = 2)) ∧ (∀ i : Instr, i.isWord = false → encode i = [])

/-- The example words of the entries decode to the instructions that they stand for (R56-R58, R61). -/
def Claims.DecodeWords : Prop :=
  decode 0xC0010601 0 = some (.mmac 8 12 0 1) ∧ decode 0xD230A380 0 = some (.cpy 6 5 7 0) ∧ decode 0x2030A380 0 = some (.cbnd 6 5 7) ∧ decode 0x724A8000 0 = some (.launch 9 20) ∧
  decode 0x72010483 0 = some (.stopat 8 9) ∧ decode 0x74490000 0 = some (.hq 9 8) ∧ decode 0xA2406000 0 = some (.vredSumF32 8 3 0) ∧ decode 0x7C028A82 0 = some (.mcohHw 20 21) ∧
  decode 0x00000000 0 = none ∧ decode 0xFE000000 0 = none ∧ decode 0xF0000000 0 = none

/-- Not every word is an instruction: majors 0x78 to 0x7F and the word zero are none, and no word of `hq` or `lack` is one whose operand field that must be zero holds anything (R62). -/
def Claims.ReservedMajors : Prop :=
  (∀ w x, w < 2 ^ 32 → (0x78 ≤ w / 2 ^ 25 ∨ w = 0) → decode w x = none) ∧
  (∀ n x, 0 < n → n < 64 → decode (0x74490000 + n * 2 ^ 7) x = none ∧ decode (0x74000002 + n * 2 ^ 7) x = none ∧ decode (0x74000002 + n * 2 ^ 13) x = none ∧
    decode (0x74000002 + n * 2 ^ 19) x = none) ∧
  decode 0x74490000 0 = some (.hq 9 8) ∧ decode 0x74000002 0 = some .lack

/-- Example words decode to their instructions, and reserved majors and operand fields that must be zero to none. -/
def Obligations.DecodeWords : Prop := Claims.DecodeWords ∧ Claims.ReservedMajors

/-- A step runs the instruction that stands at the program counter: while a context holds issue within a block and nothing stops it, the step of its core is exec of the decoded instruction in
the state after its words are read, with the weight of its class counted once, and the two words of a K form or `mcmd` together (R49, R58, R103, R105, R236). -/
def Claims.StepRunsDecoded : Prop :=
  ∀ (s : State) (h : Nat) (rest : List Turn) (w : Nat) (s1 : State), s.mdl.power = true → h < 2048 → s.agenda = .issue h :: rest → s.cur = h → s.core.ring.val = s.slot → s.cpu.run = .issuing →
    s.core.lastIssue ≠ some s.time → s.cpu.entry = .inside → s.cpu.walk = none → s.core.dhalt = false → s.stopped s.cpu.tenant = false → s.cpu.asyncPending = false →
    let u := (({ s with agenda := rest } : State).onCore fun c => { c with lastIssue := some s.time }).onCpu fun c => { c with stalled := false }
    codeWord u u.cpu.pc = .ok (w, s1) →
    let runs := fun (i : Instr) (v : State) => step s = match exec i v with
      | .next t => .next (settle (if v.cpu.counted then none else some (classOf i)) t)
      | .fault f => .fault f
      | .refused r => .refused r
    let more := u.cpu.pc.toNat + 8 ≤ u.cpu.blockEnd
    let allowed := fun (i : Instr) (v : State) => (v.cpu.pp = true → prefixOk i = true) ∧ (v.cpu.counted = true ∨ v.core.mayIssue v.cpu.tm (classOf i) v.time = true)
    (∀ i, (¬more ∨ (w / 2 ^ 25 ≠ 0x67 ∧ w / 64 % 2 ≠ 1)) → decode w 0 = some i → i.words = 1 → allowed i s1 → (more ∨ ∀ r o f c n, i ≠ .fmt r o f c n) → runs i s1) ∧
    (∀ x s2 i, more → w / 2 ^ 25 = 0x67 ∨ w / 64 % 2 = 1 → codeWord s1 (u.cpu.pc + 4) = .ok (x, s2) → decode w x = some i →
      (i.words = 2 → allowed i s2 → runs i s2) ∧ (i.words = 1 → allowed i s1 → runs i s1))

/-- A word that no entry defines takes the illegal-encoding trap with the word in EINFO and the program counter at the word: it is no instruction, no step of it has an effect, and a privileged or
a prefix state does not matter (R62, R105, R110). -/
def Claims.IllegalWords : Prop :=
  ∀ (s : State) (h : Nat) (rest : List Turn) (w : Nat) (s1 : State), s.mdl.power = true → h < 2048 → s.agenda = .issue h :: rest → s.cur = h → s.core.ring.val = s.slot → s.cpu.run = .issuing →
    s.core.lastIssue ≠ some s.time → s.cpu.entry = .inside → s.cpu.walk = none → s.core.dhalt = false → s.stopped s.cpu.tenant = false → s.cpu.asyncPending = false →
    let u := (({ s with agenda := rest } : State).onCore fun c => { c with lastIssue := some s.time }).onCpu fun c => { c with stalled := false }
    codeWord u u.cpu.pc = .ok (w, s1) → w / 2 ^ 25 ≠ 0x67 → w / 64 % 2 ≠ 1 → decode w 0 = none → s1.core.mayIssue s1.cpu.tm 0 s1.time = true →
    step s = .next ((s1.takeTrap ⟨0x01, 0, BitVec.ofNat 64 w, false, false⟩).onCore fun c => c.charge 0 s1.time)

/-- A step runs the instruction at the program counter, and an undefined word takes the illegal-encoding trap. -/
def Obligations.StepRunsDecoded : Prop := Claims.StepRunsDecoded ∧ Claims.IllegalWords
end

