-- ==== Sys2Proof/Laws/State.lean ====
section
/-! SUPPORT. What each update of the device or of a context leaves as it is, field by field, and the field that it changes. -/

set_option Elab.async false

namespace Sys2Proof.Machine

/-! ### Updates of the device -/

@[simp] theorem State.onCpu_cpu (s : State) (f : Ctx → Ctx) : (s.onCpu f).cpu = f s.cpu := rfl
@[simp] theorem State.onCpu_core (s : State) (f : Ctx → Ctx) : (s.onCpu f).core = s.core := rfl
@[simp] theorem State.onCpu_cur (s : State) (f : Ctx → Ctx) : (s.onCpu f).cur = s.cur := rfl
@[simp] theorem State.onCpu_slot (s : State) (f : Ctx → Ctx) : (s.onCpu f).slot = s.slot := rfl
@[simp] theorem State.onCpu_ctxs (s : State) (f : Ctx → Ctx) : (s.onCpu f).ctxs = s.ctxs := rfl
@[simp] theorem State.onCpu_cores (s : State) (f : Ctx → Ctx) : (s.onCpu f).cores = s.cores := rfl
@[simp] theorem State.onCpu_mem (s : State) (f : Ctx → Ctx) : (s.onCpu f).mem = s.mem := rfl
@[simp] theorem State.onCpu_time (s : State) (f : Ctx → Ctx) : (s.onCpu f).time = s.time := rfl
@[simp] theorem State.onCpu_agenda (s : State) (f : Ctx → Ctx) : (s.onCpu f).agenda = s.agenda := rfl
@[simp] theorem State.onCpu_freeN (s : State) (f : Ctx → Ctx) : (s.onCpu f).freeN = s.freeN := rfl
@[simp] theorem State.onCpu_packetN (s : State) (f : Ctx → Ctx) : (s.onCpu f).packetN = s.packetN := rfl
@[simp] theorem State.onCpu_net (s : State) (f : Ctx → Ctx) : (s.onCpu f).net = s.net := rfl
@[simp] theorem State.onCpu_arrivals (s : State) (f : Ctx → Ctx) : (s.onCpu f).arrivals = s.arrivals := rfl
@[simp] theorem State.onCpu_creditsDue (s : State) (f : Ctx → Ctx) : (s.onCpu f).creditsDue = s.creditsDue := rfl
@[simp] theorem State.onCpu_msgs (s : State) (f : Ctx → Ctx) : (s.onCpu f).msgs = s.msgs := rfl
@[simp] theorem State.onCpu_allowDue (s : State) (f : Ctx → Ctx) : (s.onCpu f).allowDue = s.allowDue := rfl
@[simp] theorem State.onCpu_remotes (s : State) (f : Ctx → Ctx) : (s.onCpu f).remotes = s.remotes := rfl
@[simp] theorem State.onCpu_posts (s : State) (f : Ctx → Ctx) : (s.onCpu f).posts = s.posts := rfl
@[simp] theorem State.onCpu_owed (s : State) (f : Ctx → Ctx) : (s.onCpu f).owed = s.owed := rfl
@[simp] theorem State.onCpu_requests (s : State) (f : Ctx → Ctx) : (s.onCpu f).requests = s.requests := rfl
@[simp] theorem State.onCpu_owned (s : State) (f : Ctx → Ctx) : (s.onCpu f).owned = s.owned := rfl
@[simp] theorem State.onCpu_mcast (s : State) (f : Ctx → Ctx) : (s.onCpu f).mcast = s.mcast := rfl
@[simp] theorem State.onCpu_policy (s : State) (f : Ctx → Ctx) : (s.onCpu f).policy = s.policy := rfl
@[simp] theorem State.onCpu_oldTag (s : State) (f : Ctx → Ctx) : (s.onCpu f).oldTag = s.oldTag := rfl
@[simp] theorem State.onCpu_frmap (s : State) (f : Ctx → Ctx) : (s.onCpu f).frmap = s.frmap := rfl
@[simp] theorem State.onCpu_pageDir (s : State) (f : Ctx → Ctx) : (s.onCpu f).pageDir = s.pageDir := rfl
@[simp] theorem State.onCpu_guests (s : State) (f : Ctx → Ctx) : (s.onCpu f).guests = s.guests := rfl
@[simp] theorem State.onCpu_leaving (s : State) (f : Ctx → Ctx) : (s.onCpu f).leaving = s.leaving := rfl
@[simp] theorem State.onCpu_swm (s : State) (f : Ctx → Ctx) : (s.onCpu f).swm = s.swm := rfl
@[simp] theorem State.onCpu_qlines (s : State) (f : Ctx → Ctx) : (s.onCpu f).qlines = s.qlines := rfl
@[simp] theorem State.onCpu_wmk (s : State) (f : Ctx → Ctx) : (s.onCpu f).wmk = s.wmk := rfl
@[simp] theorem State.onCpu_pins (s : State) (f : Ctx → Ctx) : (s.onCpu f).pins = s.pins := rfl
@[simp] theorem State.onCpu_dirs (s : State) (f : Ctx → Ctx) : (s.onCpu f).dirs = s.dirs := rfl
@[simp] theorem State.onCpu_wcc (s : State) (f : Ctx → Ctx) : (s.onCpu f).wcc = s.wcc := rfl
@[simp] theorem State.onCpu_walks (s : State) (f : Ctx → Ctx) : (s.onCpu f).walks = s.walks := rfl
@[simp] theorem State.onCpu_ctlb (s : State) (f : Ctx → Ctx) : (s.onCpu f).ctlb = s.ctlb := rfl
@[simp] theorem State.onCpu_blocked (s : State) (f : Ctx → Ctx) : (s.onCpu f).blocked = s.blocked := rfl
@[simp] theorem State.onCpu_guestb (s : State) (f : Ctx → Ctx) : (s.onCpu f).guestb = s.guestb := rfl
@[simp] theorem State.onCpu_frame (s : State) (f : Ctx → Ctx) : (s.onCpu f).frame = s.frame := rfl
@[simp] theorem State.onCpu_tenants (s : State) (f : Ctx → Ctx) : (s.onCpu f).tenants = s.tenants := rfl
@[simp] theorem State.onCpu_launches (s : State) (f : Ctx → Ctx) : (s.onCpu f).launches = s.launches := rfl
@[simp] theorem State.onCpu_gangs (s : State) (f : Ctx → Ctx) : (s.onCpu f).gangs = s.gangs := rfl
@[simp] theorem State.onCpu_launchN (s : State) (f : Ctx → Ctx) : (s.onCpu f).launchN = s.launchN := rfl
@[simp] theorem State.onCpu_gangN (s : State) (f : Ctx → Ctx) : (s.onCpu f).gangN = s.gangN := rfl
@[simp] theorem State.onCpu_locs (s : State) (f : Ctx → Ctx) : (s.onCpu f).locs = s.locs := rfl
@[simp] theorem State.onCpu_fields (s : State) (f : Ctx → Ctx) : (s.onCpu f).fields = s.fields := rfl
@[simp] theorem State.onCpu_fast (s : State) (f : Ctx → Ctx) : (s.onCpu f).fast = s.fast := rfl
@[simp] theorem State.onCpu_mdl (s : State) (f : Ctx → Ctx) : (s.onCpu f).mdl = s.mdl := rfl
@[simp] theorem State.onCpu_readback (s : State) (f : Ctx → Ctx) : (s.onCpu f).readback = s.readback := rfl
@[simp] theorem State.onCpu_fibreRead (s : State) (f : Ctx → Ctx) : (s.onCpu f).fibreRead = s.fibreRead := rfl

@[simp] theorem State.onCore_core (s : State) (f : Core → Core) : (s.onCore f).core = f s.core := rfl
@[simp] theorem State.onCore_cpu (s : State) (f : Core → Core) : (s.onCore f).cpu = s.cpu := rfl
@[simp] theorem State.onCore_cur (s : State) (f : Core → Core) : (s.onCore f).cur = s.cur := rfl
@[simp] theorem State.onCore_slot (s : State) (f : Core → Core) : (s.onCore f).slot = s.slot := rfl
@[simp] theorem State.onCore_ctxs (s : State) (f : Core → Core) : (s.onCore f).ctxs = s.ctxs := rfl
@[simp] theorem State.onCore_cores (s : State) (f : Core → Core) : (s.onCore f).cores = s.cores := rfl
@[simp] theorem State.onCore_mem (s : State) (f : Core → Core) : (s.onCore f).mem = s.mem := rfl
@[simp] theorem State.onCore_time (s : State) (f : Core → Core) : (s.onCore f).time = s.time := rfl
@[simp] theorem State.onCore_agenda (s : State) (f : Core → Core) : (s.onCore f).agenda = s.agenda := rfl
@[simp] theorem State.onCore_freeN (s : State) (f : Core → Core) : (s.onCore f).freeN = s.freeN := rfl
@[simp] theorem State.onCore_packetN (s : State) (f : Core → Core) : (s.onCore f).packetN = s.packetN := rfl
@[simp] theorem State.onCore_net (s : State) (f : Core → Core) : (s.onCore f).net = s.net := rfl
@[simp] theorem State.onCore_arrivals (s : State) (f : Core → Core) : (s.onCore f).arrivals = s.arrivals := rfl
@[simp] theorem State.onCore_creditsDue (s : State) (f : Core → Core) : (s.onCore f).creditsDue = s.creditsDue := rfl
@[simp] theorem State.onCore_msgs (s : State) (f : Core → Core) : (s.onCore f).msgs = s.msgs := rfl
@[simp] theorem State.onCore_allowDue (s : State) (f : Core → Core) : (s.onCore f).allowDue = s.allowDue := rfl
@[simp] theorem State.onCore_remotes (s : State) (f : Core → Core) : (s.onCore f).remotes = s.remotes := rfl
@[simp] theorem State.onCore_posts (s : State) (f : Core → Core) : (s.onCore f).posts = s.posts := rfl
@[simp] theorem State.onCore_owed (s : State) (f : Core → Core) : (s.onCore f).owed = s.owed := rfl
@[simp] theorem State.onCore_requests (s : State) (f : Core → Core) : (s.onCore f).requests = s.requests := rfl
@[simp] theorem State.onCore_owned (s : State) (f : Core → Core) : (s.onCore f).owned = s.owned := rfl
@[simp] theorem State.onCore_mcast (s : State) (f : Core → Core) : (s.onCore f).mcast = s.mcast := rfl
@[simp] theorem State.onCore_policy (s : State) (f : Core → Core) : (s.onCore f).policy = s.policy := rfl
@[simp] theorem State.onCore_oldTag (s : State) (f : Core → Core) : (s.onCore f).oldTag = s.oldTag := rfl
@[simp] theorem State.onCore_frmap (s : State) (f : Core → Core) : (s.onCore f).frmap = s.frmap := rfl
@[simp] theorem State.onCore_pageDir (s : State) (f : Core → Core) : (s.onCore f).pageDir = s.pageDir := rfl
@[simp] theorem State.onCore_guests (s : State) (f : Core → Core) : (s.onCore f).guests = s.guests := rfl
@[simp] theorem State.onCore_leaving (s : State) (f : Core → Core) : (s.onCore f).leaving = s.leaving := rfl
@[simp] theorem State.onCore_swm (s : State) (f : Core → Core) : (s.onCore f).swm = s.swm := rfl
@[simp] theorem State.onCore_qlines (s : State) (f : Core → Core) : (s.onCore f).qlines = s.qlines := rfl
@[simp] theorem State.onCore_wmk (s : State) (f : Core → Core) : (s.onCore f).wmk = s.wmk := rfl
@[simp] theorem State.onCore_pins (s : State) (f : Core → Core) : (s.onCore f).pins = s.pins := rfl
@[simp] theorem State.onCore_dirs (s : State) (f : Core → Core) : (s.onCore f).dirs = s.dirs := rfl
@[simp] theorem State.onCore_wcc (s : State) (f : Core → Core) : (s.onCore f).wcc = s.wcc := rfl
@[simp] theorem State.onCore_walks (s : State) (f : Core → Core) : (s.onCore f).walks = s.walks := rfl
@[simp] theorem State.onCore_ctlb (s : State) (f : Core → Core) : (s.onCore f).ctlb = s.ctlb := rfl
@[simp] theorem State.onCore_blocked (s : State) (f : Core → Core) : (s.onCore f).blocked = s.blocked := rfl
@[simp] theorem State.onCore_guestb (s : State) (f : Core → Core) : (s.onCore f).guestb = s.guestb := rfl
@[simp] theorem State.onCore_frame (s : State) (f : Core → Core) : (s.onCore f).frame = s.frame := rfl
@[simp] theorem State.onCore_tenants (s : State) (f : Core → Core) : (s.onCore f).tenants = s.tenants := rfl
@[simp] theorem State.onCore_launches (s : State) (f : Core → Core) : (s.onCore f).launches = s.launches := rfl
@[simp] theorem State.onCore_gangs (s : State) (f : Core → Core) : (s.onCore f).gangs = s.gangs := rfl
@[simp] theorem State.onCore_launchN (s : State) (f : Core → Core) : (s.onCore f).launchN = s.launchN := rfl
@[simp] theorem State.onCore_gangN (s : State) (f : Core → Core) : (s.onCore f).gangN = s.gangN := rfl
@[simp] theorem State.onCore_locs (s : State) (f : Core → Core) : (s.onCore f).locs = s.locs := rfl
@[simp] theorem State.onCore_fields (s : State) (f : Core → Core) : (s.onCore f).fields = s.fields := rfl
@[simp] theorem State.onCore_fast (s : State) (f : Core → Core) : (s.onCore f).fast = s.fast := rfl
@[simp] theorem State.onCore_mdl (s : State) (f : Core → Core) : (s.onCore f).mdl = s.mdl := rfl
@[simp] theorem State.onCore_readback (s : State) (f : Core → Core) : (s.onCore f).readback = s.readback := rfl
@[simp] theorem State.onCore_fibreRead (s : State) (f : Core → Core) : (s.onCore f).fibreRead = s.fibreRead := rfl

@[simp] theorem State.finish_cpu (s : State) (n : Nat) (u : List Nat) : (s.finish n u).cpu = (s.cpu.popAll u).advance n := rfl
@[simp] theorem State.finish_core (s : State) (n : Nat) (u : List Nat) : (s.finish n u).core = s.core := rfl
@[simp] theorem State.finish_cur (s : State) (n : Nat) (u : List Nat) : (s.finish n u).cur = s.cur := rfl
@[simp] theorem State.finish_slot (s : State) (n : Nat) (u : List Nat) : (s.finish n u).slot = s.slot := rfl
@[simp] theorem State.finish_ctxs (s : State) (n : Nat) (u : List Nat) : (s.finish n u).ctxs = s.ctxs := rfl
@[simp] theorem State.finish_cores (s : State) (n : Nat) (u : List Nat) : (s.finish n u).cores = s.cores := rfl
@[simp] theorem State.finish_mem (s : State) (n : Nat) (u : List Nat) : (s.finish n u).mem = s.mem := rfl
@[simp] theorem State.finish_time (s : State) (n : Nat) (u : List Nat) : (s.finish n u).time = s.time := rfl
@[simp] theorem State.finish_agenda (s : State) (n : Nat) (u : List Nat) : (s.finish n u).agenda = s.agenda := rfl
@[simp] theorem State.finish_freeN (s : State) (n : Nat) (u : List Nat) : (s.finish n u).freeN = s.freeN := rfl
@[simp] theorem State.finish_packetN (s : State) (n : Nat) (u : List Nat) : (s.finish n u).packetN = s.packetN := rfl
@[simp] theorem State.finish_net (s : State) (n : Nat) (u : List Nat) : (s.finish n u).net = s.net := rfl
@[simp] theorem State.finish_arrivals (s : State) (n : Nat) (u : List Nat) : (s.finish n u).arrivals = s.arrivals := rfl
@[simp] theorem State.finish_creditsDue (s : State) (n : Nat) (u : List Nat) : (s.finish n u).creditsDue = s.creditsDue := rfl
@[simp] theorem State.finish_msgs (s : State) (n : Nat) (u : List Nat) : (s.finish n u).msgs = s.msgs := rfl
@[simp] theorem State.finish_allowDue (s : State) (n : Nat) (u : List Nat) : (s.finish n u).allowDue = s.allowDue := rfl
@[simp] theorem State.finish_remotes (s : State) (n : Nat) (u : List Nat) : (s.finish n u).remotes = s.remotes := rfl
@[simp] theorem State.finish_posts (s : State) (n : Nat) (u : List Nat) : (s.finish n u).posts = s.posts := rfl
@[simp] theorem State.finish_owed (s : State) (n : Nat) (u : List Nat) : (s.finish n u).owed = s.owed := rfl
@[simp] theorem State.finish_requests (s : State) (n : Nat) (u : List Nat) : (s.finish n u).requests = s.requests := rfl
@[simp] theorem State.finish_owned (s : State) (n : Nat) (u : List Nat) : (s.finish n u).owned = s.owned := rfl
@[simp] theorem State.finish_mcast (s : State) (n : Nat) (u : List Nat) : (s.finish n u).mcast = s.mcast := rfl
@[simp] theorem State.finish_policy (s : State) (n : Nat) (u : List Nat) : (s.finish n u).policy = s.policy := rfl
@[simp] theorem State.finish_oldTag (s : State) (n : Nat) (u : List Nat) : (s.finish n u).oldTag = s.oldTag := rfl
@[simp] theorem State.finish_frmap (s : State) (n : Nat) (u : List Nat) : (s.finish n u).frmap = s.frmap := rfl
@[simp] theorem State.finish_pageDir (s : State) (n : Nat) (u : List Nat) : (s.finish n u).pageDir = s.pageDir := rfl
@[simp] theorem State.finish_guests (s : State) (n : Nat) (u : List Nat) : (s.finish n u).guests = s.guests := rfl
@[simp] theorem State.finish_leaving (s : State) (n : Nat) (u : List Nat) : (s.finish n u).leaving = s.leaving := rfl
@[simp] theorem State.finish_swm (s : State) (n : Nat) (u : List Nat) : (s.finish n u).swm = s.swm := rfl
@[simp] theorem State.finish_qlines (s : State) (n : Nat) (u : List Nat) : (s.finish n u).qlines = s.qlines := rfl
@[simp] theorem State.finish_wmk (s : State) (n : Nat) (u : List Nat) : (s.finish n u).wmk = s.wmk := rfl
@[simp] theorem State.finish_pins (s : State) (n : Nat) (u : List Nat) : (s.finish n u).pins = s.pins := rfl
@[simp] theorem State.finish_dirs (s : State) (n : Nat) (u : List Nat) : (s.finish n u).dirs = s.dirs := rfl
@[simp] theorem State.finish_wcc (s : State) (n : Nat) (u : List Nat) : (s.finish n u).wcc = s.wcc := rfl
@[simp] theorem State.finish_walks (s : State) (n : Nat) (u : List Nat) : (s.finish n u).walks = s.walks := rfl
@[simp] theorem State.finish_ctlb (s : State) (n : Nat) (u : List Nat) : (s.finish n u).ctlb = s.ctlb := rfl
@[simp] theorem State.finish_blocked (s : State) (n : Nat) (u : List Nat) : (s.finish n u).blocked = s.blocked := rfl
@[simp] theorem State.finish_guestb (s : State) (n : Nat) (u : List Nat) : (s.finish n u).guestb = s.guestb := rfl
@[simp] theorem State.finish_frame (s : State) (n : Nat) (u : List Nat) : (s.finish n u).frame = s.frame := rfl
@[simp] theorem State.finish_tenants (s : State) (n : Nat) (u : List Nat) : (s.finish n u).tenants = s.tenants := rfl
@[simp] theorem State.finish_launches (s : State) (n : Nat) (u : List Nat) : (s.finish n u).launches = s.launches := rfl
@[simp] theorem State.finish_gangs (s : State) (n : Nat) (u : List Nat) : (s.finish n u).gangs = s.gangs := rfl
@[simp] theorem State.finish_launchN (s : State) (n : Nat) (u : List Nat) : (s.finish n u).launchN = s.launchN := rfl
@[simp] theorem State.finish_gangN (s : State) (n : Nat) (u : List Nat) : (s.finish n u).gangN = s.gangN := rfl
@[simp] theorem State.finish_locs (s : State) (n : Nat) (u : List Nat) : (s.finish n u).locs = s.locs := rfl
@[simp] theorem State.finish_fields (s : State) (n : Nat) (u : List Nat) : (s.finish n u).fields = s.fields := rfl
@[simp] theorem State.finish_fast (s : State) (n : Nat) (u : List Nat) : (s.finish n u).fast = s.fast := rfl
@[simp] theorem State.finish_mdl (s : State) (n : Nat) (u : List Nat) : (s.finish n u).mdl = s.mdl := rfl
@[simp] theorem State.finish_readback (s : State) (n : Nat) (u : List Nat) : (s.finish n u).readback = s.readback := rfl
@[simp] theorem State.finish_fibreRead (s : State) (n : Nat) (u : List Nat) : (s.finish n u).fibreRead = s.fibreRead := rfl

@[simp] theorem State.finishW_cpu (s : State) (n : Nat) (u : List Nat) (d : Fin 64) (x : Wreg) :
    (s.finishW n u d x).cpu = ((s.cpu.popAll u).writeW d x).advance n := rfl
@[simp] theorem State.finishW_core (s : State) (n : Nat) (u : List Nat) (d : Fin 64) (x : Wreg) : (s.finishW n u d x).core = s.core := rfl
@[simp] theorem State.finishW_cur (s : State) (n : Nat) (u : List Nat) (d : Fin 64) (x : Wreg) : (s.finishW n u d x).cur = s.cur := rfl
@[simp] theorem State.finishW_slot (s : State) (n : Nat) (u : List Nat) (d : Fin 64) (x : Wreg) : (s.finishW n u d x).slot = s.slot := rfl
@[simp] theorem State.finishW_ctxs (s : State) (n : Nat) (u : List Nat) (d : Fin 64) (x : Wreg) : (s.finishW n u d x).ctxs = s.ctxs := rfl
@[simp] theorem State.finishW_cores (s : State) (n : Nat) (u : List Nat) (d : Fin 64) (x : Wreg) : (s.finishW n u d x).cores = s.cores := rfl
@[simp] theorem State.finishW_mem (s : State) (n : Nat) (u : List Nat) (d : Fin 64) (x : Wreg) : (s.finishW n u d x).mem = s.mem := rfl
@[simp] theorem State.finishW_time (s : State) (n : Nat) (u : List Nat) (d : Fin 64) (x : Wreg) : (s.finishW n u d x).time = s.time := rfl
@[simp] theorem State.finishW_agenda (s : State) (n : Nat) (u : List Nat) (d : Fin 64) (x : Wreg) : (s.finishW n u d x).agenda = s.agenda := rfl
@[simp] theorem State.finishW_freeN (s : State) (n : Nat) (u : List Nat) (d : Fin 64) (x : Wreg) : (s.finishW n u d x).freeN = s.freeN := rfl
@[simp] theorem State.finishW_packetN (s : State) (n : Nat) (u : List Nat) (d : Fin 64) (x : Wreg) : (s.finishW n u d x).packetN = s.packetN := rfl
@[simp] theorem State.finishW_net (s : State) (n : Nat) (u : List Nat) (d : Fin 64) (x : Wreg) : (s.finishW n u d x).net = s.net := rfl
@[simp] theorem State.finishW_arrivals (s : State) (n : Nat) (u : List Nat) (d : Fin 64) (x : Wreg) : (s.finishW n u d x).arrivals = s.arrivals := rfl
@[simp] theorem State.finishW_creditsDue (s : State) (n : Nat) (u : List Nat) (d : Fin 64) (x : Wreg) : (s.finishW n u d x).creditsDue = s.creditsDue := rfl
@[simp] theorem State.finishW_msgs (s : State) (n : Nat) (u : List Nat) (d : Fin 64) (x : Wreg) : (s.finishW n u d x).msgs = s.msgs := rfl
@[simp] theorem State.finishW_allowDue (s : State) (n : Nat) (u : List Nat) (d : Fin 64) (x : Wreg) : (s.finishW n u d x).allowDue = s.allowDue := rfl
@[simp] theorem State.finishW_remotes (s : State) (n : Nat) (u : List Nat) (d : Fin 64) (x : Wreg) : (s.finishW n u d x).remotes = s.remotes := rfl
@[simp] theorem State.finishW_posts (s : State) (n : Nat) (u : List Nat) (d : Fin 64) (x : Wreg) : (s.finishW n u d x).posts = s.posts := rfl
@[simp] theorem State.finishW_owed (s : State) (n : Nat) (u : List Nat) (d : Fin 64) (x : Wreg) : (s.finishW n u d x).owed = s.owed := rfl
@[simp] theorem State.finishW_requests (s : State) (n : Nat) (u : List Nat) (d : Fin 64) (x : Wreg) : (s.finishW n u d x).requests = s.requests := rfl
@[simp] theorem State.finishW_owned (s : State) (n : Nat) (u : List Nat) (d : Fin 64) (x : Wreg) : (s.finishW n u d x).owned = s.owned := rfl
@[simp] theorem State.finishW_mcast (s : State) (n : Nat) (u : List Nat) (d : Fin 64) (x : Wreg) : (s.finishW n u d x).mcast = s.mcast := rfl
@[simp] theorem State.finishW_policy (s : State) (n : Nat) (u : List Nat) (d : Fin 64) (x : Wreg) : (s.finishW n u d x).policy = s.policy := rfl
@[simp] theorem State.finishW_oldTag (s : State) (n : Nat) (u : List Nat) (d : Fin 64) (x : Wreg) : (s.finishW n u d x).oldTag = s.oldTag := rfl
@[simp] theorem State.finishW_frmap (s : State) (n : Nat) (u : List Nat) (d : Fin 64) (x : Wreg) : (s.finishW n u d x).frmap = s.frmap := rfl
@[simp] theorem State.finishW_pageDir (s : State) (n : Nat) (u : List Nat) (d : Fin 64) (x : Wreg) : (s.finishW n u d x).pageDir = s.pageDir := rfl
@[simp] theorem State.finishW_guests (s : State) (n : Nat) (u : List Nat) (d : Fin 64) (x : Wreg) : (s.finishW n u d x).guests = s.guests := rfl
@[simp] theorem State.finishW_leaving (s : State) (n : Nat) (u : List Nat) (d : Fin 64) (x : Wreg) : (s.finishW n u d x).leaving = s.leaving := rfl
@[simp] theorem State.finishW_swm (s : State) (n : Nat) (u : List Nat) (d : Fin 64) (x : Wreg) : (s.finishW n u d x).swm = s.swm := rfl
@[simp] theorem State.finishW_qlines (s : State) (n : Nat) (u : List Nat) (d : Fin 64) (x : Wreg) : (s.finishW n u d x).qlines = s.qlines := rfl
@[simp] theorem State.finishW_wmk (s : State) (n : Nat) (u : List Nat) (d : Fin 64) (x : Wreg) : (s.finishW n u d x).wmk = s.wmk := rfl
@[simp] theorem State.finishW_pins (s : State) (n : Nat) (u : List Nat) (d : Fin 64) (x : Wreg) : (s.finishW n u d x).pins = s.pins := rfl
@[simp] theorem State.finishW_dirs (s : State) (n : Nat) (u : List Nat) (d : Fin 64) (x : Wreg) : (s.finishW n u d x).dirs = s.dirs := rfl
@[simp] theorem State.finishW_wcc (s : State) (n : Nat) (u : List Nat) (d : Fin 64) (x : Wreg) : (s.finishW n u d x).wcc = s.wcc := rfl
@[simp] theorem State.finishW_walks (s : State) (n : Nat) (u : List Nat) (d : Fin 64) (x : Wreg) : (s.finishW n u d x).walks = s.walks := rfl
@[simp] theorem State.finishW_ctlb (s : State) (n : Nat) (u : List Nat) (d : Fin 64) (x : Wreg) : (s.finishW n u d x).ctlb = s.ctlb := rfl
@[simp] theorem State.finishW_blocked (s : State) (n : Nat) (u : List Nat) (d : Fin 64) (x : Wreg) : (s.finishW n u d x).blocked = s.blocked := rfl
@[simp] theorem State.finishW_guestb (s : State) (n : Nat) (u : List Nat) (d : Fin 64) (x : Wreg) : (s.finishW n u d x).guestb = s.guestb := rfl
@[simp] theorem State.finishW_frame (s : State) (n : Nat) (u : List Nat) (d : Fin 64) (x : Wreg) : (s.finishW n u d x).frame = s.frame := rfl
@[simp] theorem State.finishW_tenants (s : State) (n : Nat) (u : List Nat) (d : Fin 64) (x : Wreg) : (s.finishW n u d x).tenants = s.tenants := rfl
@[simp] theorem State.finishW_launches (s : State) (n : Nat) (u : List Nat) (d : Fin 64) (x : Wreg) : (s.finishW n u d x).launches = s.launches := rfl
@[simp] theorem State.finishW_gangs (s : State) (n : Nat) (u : List Nat) (d : Fin 64) (x : Wreg) : (s.finishW n u d x).gangs = s.gangs := rfl
@[simp] theorem State.finishW_launchN (s : State) (n : Nat) (u : List Nat) (d : Fin 64) (x : Wreg) : (s.finishW n u d x).launchN = s.launchN := rfl
@[simp] theorem State.finishW_gangN (s : State) (n : Nat) (u : List Nat) (d : Fin 64) (x : Wreg) : (s.finishW n u d x).gangN = s.gangN := rfl
@[simp] theorem State.finishW_locs (s : State) (n : Nat) (u : List Nat) (d : Fin 64) (x : Wreg) : (s.finishW n u d x).locs = s.locs := rfl
@[simp] theorem State.finishW_fields (s : State) (n : Nat) (u : List Nat) (d : Fin 64) (x : Wreg) : (s.finishW n u d x).fields = s.fields := rfl
@[simp] theorem State.finishW_fast (s : State) (n : Nat) (u : List Nat) (d : Fin 64) (x : Wreg) : (s.finishW n u d x).fast = s.fast := rfl
@[simp] theorem State.finishW_mdl (s : State) (n : Nat) (u : List Nat) (d : Fin 64) (x : Wreg) : (s.finishW n u d x).mdl = s.mdl := rfl
@[simp] theorem State.finishW_readback (s : State) (n : Nat) (u : List Nat) (d : Fin 64) (x : Wreg) : (s.finishW n u d x).readback = s.readback := rfl
@[simp] theorem State.finishW_fibreRead (s : State) (n : Nat) (u : List Nat) (d : Fin 64) (x : Wreg) : (s.finishW n u d x).fibreRead = s.fibreRead := rfl

@[simp] theorem State.finishV_cpu (s : State) (n : Nat) (u : List Nat) (d : Fin 64) (x : BitVec 1024) :
    (s.finishV n u d x).cpu = ((s.cpu.popAll u).writeV d x).advance n := rfl
@[simp] theorem State.finishV_core (s : State) (n : Nat) (u : List Nat) (d : Fin 64) (x : BitVec 1024) : (s.finishV n u d x).core = s.core := rfl
@[simp] theorem State.finishV_cur (s : State) (n : Nat) (u : List Nat) (d : Fin 64) (x : BitVec 1024) : (s.finishV n u d x).cur = s.cur := rfl
@[simp] theorem State.finishV_slot (s : State) (n : Nat) (u : List Nat) (d : Fin 64) (x : BitVec 1024) : (s.finishV n u d x).slot = s.slot := rfl
@[simp] theorem State.finishV_ctxs (s : State) (n : Nat) (u : List Nat) (d : Fin 64) (x : BitVec 1024) : (s.finishV n u d x).ctxs = s.ctxs := rfl
@[simp] theorem State.finishV_cores (s : State) (n : Nat) (u : List Nat) (d : Fin 64) (x : BitVec 1024) : (s.finishV n u d x).cores = s.cores := rfl
@[simp] theorem State.finishV_mem (s : State) (n : Nat) (u : List Nat) (d : Fin 64) (x : BitVec 1024) : (s.finishV n u d x).mem = s.mem := rfl
@[simp] theorem State.finishV_time (s : State) (n : Nat) (u : List Nat) (d : Fin 64) (x : BitVec 1024) : (s.finishV n u d x).time = s.time := rfl
@[simp] theorem State.finishV_agenda (s : State) (n : Nat) (u : List Nat) (d : Fin 64) (x : BitVec 1024) : (s.finishV n u d x).agenda = s.agenda := rfl
@[simp] theorem State.finishV_freeN (s : State) (n : Nat) (u : List Nat) (d : Fin 64) (x : BitVec 1024) : (s.finishV n u d x).freeN = s.freeN := rfl
@[simp] theorem State.finishV_packetN (s : State) (n : Nat) (u : List Nat) (d : Fin 64) (x : BitVec 1024) : (s.finishV n u d x).packetN = s.packetN := rfl
@[simp] theorem State.finishV_net (s : State) (n : Nat) (u : List Nat) (d : Fin 64) (x : BitVec 1024) : (s.finishV n u d x).net = s.net := rfl
@[simp] theorem State.finishV_arrivals (s : State) (n : Nat) (u : List Nat) (d : Fin 64) (x : BitVec 1024) : (s.finishV n u d x).arrivals = s.arrivals := rfl
@[simp] theorem State.finishV_creditsDue (s : State) (n : Nat) (u : List Nat) (d : Fin 64) (x : BitVec 1024) : (s.finishV n u d x).creditsDue = s.creditsDue := rfl
@[simp] theorem State.finishV_msgs (s : State) (n : Nat) (u : List Nat) (d : Fin 64) (x : BitVec 1024) : (s.finishV n u d x).msgs = s.msgs := rfl
@[simp] theorem State.finishV_allowDue (s : State) (n : Nat) (u : List Nat) (d : Fin 64) (x : BitVec 1024) : (s.finishV n u d x).allowDue = s.allowDue := rfl
@[simp] theorem State.finishV_remotes (s : State) (n : Nat) (u : List Nat) (d : Fin 64) (x : BitVec 1024) : (s.finishV n u d x).remotes = s.remotes := rfl
@[simp] theorem State.finishV_posts (s : State) (n : Nat) (u : List Nat) (d : Fin 64) (x : BitVec 1024) : (s.finishV n u d x).posts = s.posts := rfl
@[simp] theorem State.finishV_owed (s : State) (n : Nat) (u : List Nat) (d : Fin 64) (x : BitVec 1024) : (s.finishV n u d x).owed = s.owed := rfl
@[simp] theorem State.finishV_requests (s : State) (n : Nat) (u : List Nat) (d : Fin 64) (x : BitVec 1024) : (s.finishV n u d x).requests = s.requests := rfl
@[simp] theorem State.finishV_owned (s : State) (n : Nat) (u : List Nat) (d : Fin 64) (x : BitVec 1024) : (s.finishV n u d x).owned = s.owned := rfl
@[simp] theorem State.finishV_mcast (s : State) (n : Nat) (u : List Nat) (d : Fin 64) (x : BitVec 1024) : (s.finishV n u d x).mcast = s.mcast := rfl
@[simp] theorem State.finishV_policy (s : State) (n : Nat) (u : List Nat) (d : Fin 64) (x : BitVec 1024) : (s.finishV n u d x).policy = s.policy := rfl
@[simp] theorem State.finishV_oldTag (s : State) (n : Nat) (u : List Nat) (d : Fin 64) (x : BitVec 1024) : (s.finishV n u d x).oldTag = s.oldTag := rfl
@[simp] theorem State.finishV_frmap (s : State) (n : Nat) (u : List Nat) (d : Fin 64) (x : BitVec 1024) : (s.finishV n u d x).frmap = s.frmap := rfl
@[simp] theorem State.finishV_pageDir (s : State) (n : Nat) (u : List Nat) (d : Fin 64) (x : BitVec 1024) : (s.finishV n u d x).pageDir = s.pageDir := rfl
@[simp] theorem State.finishV_guests (s : State) (n : Nat) (u : List Nat) (d : Fin 64) (x : BitVec 1024) : (s.finishV n u d x).guests = s.guests := rfl
@[simp] theorem State.finishV_leaving (s : State) (n : Nat) (u : List Nat) (d : Fin 64) (x : BitVec 1024) : (s.finishV n u d x).leaving = s.leaving := rfl
@[simp] theorem State.finishV_swm (s : State) (n : Nat) (u : List Nat) (d : Fin 64) (x : BitVec 1024) : (s.finishV n u d x).swm = s.swm := rfl
@[simp] theorem State.finishV_qlines (s : State) (n : Nat) (u : List Nat) (d : Fin 64) (x : BitVec 1024) : (s.finishV n u d x).qlines = s.qlines := rfl
@[simp] theorem State.finishV_wmk (s : State) (n : Nat) (u : List Nat) (d : Fin 64) (x : BitVec 1024) : (s.finishV n u d x).wmk = s.wmk := rfl
@[simp] theorem State.finishV_pins (s : State) (n : Nat) (u : List Nat) (d : Fin 64) (x : BitVec 1024) : (s.finishV n u d x).pins = s.pins := rfl
@[simp] theorem State.finishV_dirs (s : State) (n : Nat) (u : List Nat) (d : Fin 64) (x : BitVec 1024) : (s.finishV n u d x).dirs = s.dirs := rfl
@[simp] theorem State.finishV_wcc (s : State) (n : Nat) (u : List Nat) (d : Fin 64) (x : BitVec 1024) : (s.finishV n u d x).wcc = s.wcc := rfl
@[simp] theorem State.finishV_walks (s : State) (n : Nat) (u : List Nat) (d : Fin 64) (x : BitVec 1024) : (s.finishV n u d x).walks = s.walks := rfl
@[simp] theorem State.finishV_ctlb (s : State) (n : Nat) (u : List Nat) (d : Fin 64) (x : BitVec 1024) : (s.finishV n u d x).ctlb = s.ctlb := rfl
@[simp] theorem State.finishV_blocked (s : State) (n : Nat) (u : List Nat) (d : Fin 64) (x : BitVec 1024) : (s.finishV n u d x).blocked = s.blocked := rfl
@[simp] theorem State.finishV_guestb (s : State) (n : Nat) (u : List Nat) (d : Fin 64) (x : BitVec 1024) : (s.finishV n u d x).guestb = s.guestb := rfl
@[simp] theorem State.finishV_frame (s : State) (n : Nat) (u : List Nat) (d : Fin 64) (x : BitVec 1024) : (s.finishV n u d x).frame = s.frame := rfl
@[simp] theorem State.finishV_tenants (s : State) (n : Nat) (u : List Nat) (d : Fin 64) (x : BitVec 1024) : (s.finishV n u d x).tenants = s.tenants := rfl
@[simp] theorem State.finishV_launches (s : State) (n : Nat) (u : List Nat) (d : Fin 64) (x : BitVec 1024) : (s.finishV n u d x).launches = s.launches := rfl
@[simp] theorem State.finishV_gangs (s : State) (n : Nat) (u : List Nat) (d : Fin 64) (x : BitVec 1024) : (s.finishV n u d x).gangs = s.gangs := rfl
@[simp] theorem State.finishV_launchN (s : State) (n : Nat) (u : List Nat) (d : Fin 64) (x : BitVec 1024) : (s.finishV n u d x).launchN = s.launchN := rfl
@[simp] theorem State.finishV_gangN (s : State) (n : Nat) (u : List Nat) (d : Fin 64) (x : BitVec 1024) : (s.finishV n u d x).gangN = s.gangN := rfl
@[simp] theorem State.finishV_locs (s : State) (n : Nat) (u : List Nat) (d : Fin 64) (x : BitVec 1024) : (s.finishV n u d x).locs = s.locs := rfl
@[simp] theorem State.finishV_fields (s : State) (n : Nat) (u : List Nat) (d : Fin 64) (x : BitVec 1024) : (s.finishV n u d x).fields = s.fields := rfl
@[simp] theorem State.finishV_fast (s : State) (n : Nat) (u : List Nat) (d : Fin 64) (x : BitVec 1024) : (s.finishV n u d x).fast = s.fast := rfl
@[simp] theorem State.finishV_mdl (s : State) (n : Nat) (u : List Nat) (d : Fin 64) (x : BitVec 1024) : (s.finishV n u d x).mdl = s.mdl := rfl
@[simp] theorem State.finishV_readback (s : State) (n : Nat) (u : List Nat) (d : Fin 64) (x : BitVec 1024) : (s.finishV n u d x).readback = s.readback := rfl
@[simp] theorem State.finishV_fibreRead (s : State) (n : Nat) (u : List Nat) (d : Fin 64) (x : BitVec 1024) : (s.finishV n u d x).fibreRead = s.fibreRead := rfl

@[simp] theorem State.enqueue_cpu (s : State) (e : SqEntry) : (s.enqueue e).cpu = { s.cpu with sq := s.cpu.sq ++ [e] } := rfl
@[simp] theorem State.enqueue_core (s : State) (e : SqEntry) : (s.enqueue e).core = s.core := rfl
@[simp] theorem State.enqueue_cur (s : State) (e : SqEntry) : (s.enqueue e).cur = s.cur := rfl
@[simp] theorem State.enqueue_slot (s : State) (e : SqEntry) : (s.enqueue e).slot = s.slot := rfl
@[simp] theorem State.enqueue_ctxs (s : State) (e : SqEntry) : (s.enqueue e).ctxs = s.ctxs := rfl
@[simp] theorem State.enqueue_cores (s : State) (e : SqEntry) : (s.enqueue e).cores = s.cores := rfl
@[simp] theorem State.enqueue_mem (s : State) (e : SqEntry) : (s.enqueue e).mem = s.mem := rfl
@[simp] theorem State.enqueue_time (s : State) (e : SqEntry) : (s.enqueue e).time = s.time := rfl
@[simp] theorem State.enqueue_agenda (s : State) (e : SqEntry) : (s.enqueue e).agenda = s.agenda := rfl
@[simp] theorem State.enqueue_freeN (s : State) (e : SqEntry) : (s.enqueue e).freeN = s.freeN := rfl
@[simp] theorem State.enqueue_packetN (s : State) (e : SqEntry) : (s.enqueue e).packetN = s.packetN := rfl
@[simp] theorem State.enqueue_net (s : State) (e : SqEntry) : (s.enqueue e).net = s.net := rfl
@[simp] theorem State.enqueue_arrivals (s : State) (e : SqEntry) : (s.enqueue e).arrivals = s.arrivals := rfl
@[simp] theorem State.enqueue_creditsDue (s : State) (e : SqEntry) : (s.enqueue e).creditsDue = s.creditsDue := rfl
@[simp] theorem State.enqueue_msgs (s : State) (e : SqEntry) : (s.enqueue e).msgs = s.msgs := rfl
@[simp] theorem State.enqueue_allowDue (s : State) (e : SqEntry) : (s.enqueue e).allowDue = s.allowDue := rfl
@[simp] theorem State.enqueue_remotes (s : State) (e : SqEntry) : (s.enqueue e).remotes = s.remotes := rfl
@[simp] theorem State.enqueue_posts (s : State) (e : SqEntry) : (s.enqueue e).posts = s.posts := rfl
@[simp] theorem State.enqueue_owed (s : State) (e : SqEntry) : (s.enqueue e).owed = s.owed := rfl
@[simp] theorem State.enqueue_requests (s : State) (e : SqEntry) : (s.enqueue e).requests = s.requests := rfl
@[simp] theorem State.enqueue_owned (s : State) (e : SqEntry) : (s.enqueue e).owned = s.owned := rfl
@[simp] theorem State.enqueue_mcast (s : State) (e : SqEntry) : (s.enqueue e).mcast = s.mcast := rfl
@[simp] theorem State.enqueue_policy (s : State) (e : SqEntry) : (s.enqueue e).policy = s.policy := rfl
@[simp] theorem State.enqueue_oldTag (s : State) (e : SqEntry) : (s.enqueue e).oldTag = s.oldTag := rfl
@[simp] theorem State.enqueue_frmap (s : State) (e : SqEntry) : (s.enqueue e).frmap = s.frmap := rfl
@[simp] theorem State.enqueue_pageDir (s : State) (e : SqEntry) : (s.enqueue e).pageDir = s.pageDir := rfl
@[simp] theorem State.enqueue_guests (s : State) (e : SqEntry) : (s.enqueue e).guests = s.guests := rfl
@[simp] theorem State.enqueue_leaving (s : State) (e : SqEntry) : (s.enqueue e).leaving = s.leaving := rfl
@[simp] theorem State.enqueue_swm (s : State) (e : SqEntry) : (s.enqueue e).swm = s.swm := rfl
@[simp] theorem State.enqueue_qlines (s : State) (e : SqEntry) : (s.enqueue e).qlines = s.qlines := rfl
@[simp] theorem State.enqueue_wmk (s : State) (e : SqEntry) : (s.enqueue e).wmk = s.wmk := rfl
@[simp] theorem State.enqueue_pins (s : State) (e : SqEntry) : (s.enqueue e).pins = s.pins := rfl
@[simp] theorem State.enqueue_dirs (s : State) (e : SqEntry) : (s.enqueue e).dirs = s.dirs := rfl
@[simp] theorem State.enqueue_wcc (s : State) (e : SqEntry) : (s.enqueue e).wcc = s.wcc := rfl
@[simp] theorem State.enqueue_walks (s : State) (e : SqEntry) : (s.enqueue e).walks = s.walks := rfl
@[simp] theorem State.enqueue_ctlb (s : State) (e : SqEntry) : (s.enqueue e).ctlb = s.ctlb := rfl
@[simp] theorem State.enqueue_blocked (s : State) (e : SqEntry) : (s.enqueue e).blocked = s.blocked := rfl
@[simp] theorem State.enqueue_guestb (s : State) (e : SqEntry) : (s.enqueue e).guestb = s.guestb := rfl
@[simp] theorem State.enqueue_frame (s : State) (e : SqEntry) : (s.enqueue e).frame = s.frame := rfl
@[simp] theorem State.enqueue_tenants (s : State) (e : SqEntry) : (s.enqueue e).tenants = s.tenants := rfl
@[simp] theorem State.enqueue_launches (s : State) (e : SqEntry) : (s.enqueue e).launches = s.launches := rfl
@[simp] theorem State.enqueue_gangs (s : State) (e : SqEntry) : (s.enqueue e).gangs = s.gangs := rfl
@[simp] theorem State.enqueue_launchN (s : State) (e : SqEntry) : (s.enqueue e).launchN = s.launchN := rfl
@[simp] theorem State.enqueue_gangN (s : State) (e : SqEntry) : (s.enqueue e).gangN = s.gangN := rfl
@[simp] theorem State.enqueue_locs (s : State) (e : SqEntry) : (s.enqueue e).locs = s.locs := rfl
@[simp] theorem State.enqueue_fields (s : State) (e : SqEntry) : (s.enqueue e).fields = s.fields := rfl
@[simp] theorem State.enqueue_fast (s : State) (e : SqEntry) : (s.enqueue e).fast = s.fast := rfl
@[simp] theorem State.enqueue_mdl (s : State) (e : SqEntry) : (s.enqueue e).mdl = s.mdl := rfl
@[simp] theorem State.enqueue_readback (s : State) (e : SqEntry) : (s.enqueue e).readback = s.readback := rfl
@[simp] theorem State.enqueue_fibreRead (s : State) (e : SqEntry) : (s.enqueue e).fibreRead = s.fibreRead := rfl

@[simp] theorem State.send_net (s : State) (p : Packet) : (s.send p).net = s.net ++ [p] := rfl
@[simp] theorem State.send_packetN (s : State) (p : Packet) : (s.send p).packetN = s.packetN + 1 := rfl
@[simp] theorem State.send_cpu (s : State) (p : Packet) : (s.send p).cpu = s.cpu := rfl
@[simp] theorem State.send_core (s : State) (p : Packet) : (s.send p).core = s.core := rfl
@[simp] theorem State.send_cur (s : State) (p : Packet) : (s.send p).cur = s.cur := rfl
@[simp] theorem State.send_slot (s : State) (p : Packet) : (s.send p).slot = s.slot := rfl
@[simp] theorem State.send_ctxs (s : State) (p : Packet) : (s.send p).ctxs = s.ctxs := rfl
@[simp] theorem State.send_cores (s : State) (p : Packet) : (s.send p).cores = s.cores := rfl
@[simp] theorem State.send_mem (s : State) (p : Packet) : (s.send p).mem = s.mem := rfl
@[simp] theorem State.send_time (s : State) (p : Packet) : (s.send p).time = s.time := rfl
@[simp] theorem State.send_agenda (s : State) (p : Packet) : (s.send p).agenda = s.agenda := rfl
@[simp] theorem State.send_freeN (s : State) (p : Packet) : (s.send p).freeN = s.freeN := rfl
@[simp] theorem State.send_arrivals (s : State) (p : Packet) : (s.send p).arrivals = s.arrivals := rfl
@[simp] theorem State.send_creditsDue (s : State) (p : Packet) : (s.send p).creditsDue = s.creditsDue := rfl
@[simp] theorem State.send_msgs (s : State) (p : Packet) : (s.send p).msgs = s.msgs := rfl
@[simp] theorem State.send_allowDue (s : State) (p : Packet) : (s.send p).allowDue = s.allowDue := rfl
@[simp] theorem State.send_remotes (s : State) (p : Packet) : (s.send p).remotes = s.remotes := rfl
@[simp] theorem State.send_posts (s : State) (p : Packet) : (s.send p).posts = s.posts := rfl
@[simp] theorem State.send_owed (s : State) (p : Packet) : (s.send p).owed = s.owed := rfl
@[simp] theorem State.send_requests (s : State) (p : Packet) : (s.send p).requests = s.requests := rfl
@[simp] theorem State.send_owned (s : State) (p : Packet) : (s.send p).owned = s.owned := rfl
@[simp] theorem State.send_mcast (s : State) (p : Packet) : (s.send p).mcast = s.mcast := rfl
@[simp] theorem State.send_policy (s : State) (p : Packet) : (s.send p).policy = s.policy := rfl
@[simp] theorem State.send_oldTag (s : State) (p : Packet) : (s.send p).oldTag = s.oldTag := rfl
@[simp] theorem State.send_frmap (s : State) (p : Packet) : (s.send p).frmap = s.frmap := rfl
@[simp] theorem State.send_pageDir (s : State) (p : Packet) : (s.send p).pageDir = s.pageDir := rfl
@[simp] theorem State.send_guests (s : State) (p : Packet) : (s.send p).guests = s.guests := rfl
@[simp] theorem State.send_leaving (s : State) (p : Packet) : (s.send p).leaving = s.leaving := rfl
@[simp] theorem State.send_swm (s : State) (p : Packet) : (s.send p).swm = s.swm := rfl
@[simp] theorem State.send_qlines (s : State) (p : Packet) : (s.send p).qlines = s.qlines := rfl
@[simp] theorem State.send_wmk (s : State) (p : Packet) : (s.send p).wmk = s.wmk := rfl
@[simp] theorem State.send_pins (s : State) (p : Packet) : (s.send p).pins = s.pins := rfl
@[simp] theorem State.send_dirs (s : State) (p : Packet) : (s.send p).dirs = s.dirs := rfl
@[simp] theorem State.send_wcc (s : State) (p : Packet) : (s.send p).wcc = s.wcc := rfl
@[simp] theorem State.send_walks (s : State) (p : Packet) : (s.send p).walks = s.walks := rfl
@[simp] theorem State.send_ctlb (s : State) (p : Packet) : (s.send p).ctlb = s.ctlb := rfl
@[simp] theorem State.send_blocked (s : State) (p : Packet) : (s.send p).blocked = s.blocked := rfl
@[simp] theorem State.send_guestb (s : State) (p : Packet) : (s.send p).guestb = s.guestb := rfl
@[simp] theorem State.send_frame (s : State) (p : Packet) : (s.send p).frame = s.frame := rfl
@[simp] theorem State.send_tenants (s : State) (p : Packet) : (s.send p).tenants = s.tenants := rfl
@[simp] theorem State.send_launches (s : State) (p : Packet) : (s.send p).launches = s.launches := rfl
@[simp] theorem State.send_gangs (s : State) (p : Packet) : (s.send p).gangs = s.gangs := rfl
@[simp] theorem State.send_launchN (s : State) (p : Packet) : (s.send p).launchN = s.launchN := rfl
@[simp] theorem State.send_gangN (s : State) (p : Packet) : (s.send p).gangN = s.gangN := rfl
@[simp] theorem State.send_locs (s : State) (p : Packet) : (s.send p).locs = s.locs := rfl
@[simp] theorem State.send_fields (s : State) (p : Packet) : (s.send p).fields = s.fields := rfl
@[simp] theorem State.send_fast (s : State) (p : Packet) : (s.send p).fast = s.fast := rfl
@[simp] theorem State.send_mdl (s : State) (p : Packet) : (s.send p).mdl = s.mdl := rfl
@[simp] theorem State.send_readback (s : State) (p : Packet) : (s.send p).readback = s.readback := rfl
@[simp] theorem State.send_fibreRead (s : State) (p : Packet) : (s.send p).fibreRead = s.fibreRead := rfl

@[simp] theorem State.setTenant_tenants (s : State) (t : Nat) (x : Tenant) : (s.setTenant t x).tenants = Tab.set Tenant.reset s.tenants t x := rfl
@[simp] theorem State.setTenant_cpu (s : State) (t : Nat) (x : Tenant) : (s.setTenant t x).cpu = s.cpu := rfl
@[simp] theorem State.setTenant_core (s : State) (t : Nat) (x : Tenant) : (s.setTenant t x).core = s.core := rfl
@[simp] theorem State.setTenant_cur (s : State) (t : Nat) (x : Tenant) : (s.setTenant t x).cur = s.cur := rfl
@[simp] theorem State.setTenant_slot (s : State) (t : Nat) (x : Tenant) : (s.setTenant t x).slot = s.slot := rfl
@[simp] theorem State.setTenant_ctxs (s : State) (t : Nat) (x : Tenant) : (s.setTenant t x).ctxs = s.ctxs := rfl
@[simp] theorem State.setTenant_cores (s : State) (t : Nat) (x : Tenant) : (s.setTenant t x).cores = s.cores := rfl
@[simp] theorem State.setTenant_mem (s : State) (t : Nat) (x : Tenant) : (s.setTenant t x).mem = s.mem := rfl
@[simp] theorem State.setTenant_time (s : State) (t : Nat) (x : Tenant) : (s.setTenant t x).time = s.time := rfl
@[simp] theorem State.setTenant_agenda (s : State) (t : Nat) (x : Tenant) : (s.setTenant t x).agenda = s.agenda := rfl
@[simp] theorem State.setTenant_freeN (s : State) (t : Nat) (x : Tenant) : (s.setTenant t x).freeN = s.freeN := rfl
@[simp] theorem State.setTenant_packetN (s : State) (t : Nat) (x : Tenant) : (s.setTenant t x).packetN = s.packetN := rfl
@[simp] theorem State.setTenant_net (s : State) (t : Nat) (x : Tenant) : (s.setTenant t x).net = s.net := rfl
@[simp] theorem State.setTenant_arrivals (s : State) (t : Nat) (x : Tenant) : (s.setTenant t x).arrivals = s.arrivals := rfl
@[simp] theorem State.setTenant_creditsDue (s : State) (t : Nat) (x : Tenant) : (s.setTenant t x).creditsDue = s.creditsDue := rfl
@[simp] theorem State.setTenant_msgs (s : State) (t : Nat) (x : Tenant) : (s.setTenant t x).msgs = s.msgs := rfl
@[simp] theorem State.setTenant_allowDue (s : State) (t : Nat) (x : Tenant) : (s.setTenant t x).allowDue = s.allowDue := rfl
@[simp] theorem State.setTenant_remotes (s : State) (t : Nat) (x : Tenant) : (s.setTenant t x).remotes = s.remotes := rfl
@[simp] theorem State.setTenant_posts (s : State) (t : Nat) (x : Tenant) : (s.setTenant t x).posts = s.posts := rfl
@[simp] theorem State.setTenant_owed (s : State) (t : Nat) (x : Tenant) : (s.setTenant t x).owed = s.owed := rfl
@[simp] theorem State.setTenant_requests (s : State) (t : Nat) (x : Tenant) : (s.setTenant t x).requests = s.requests := rfl
@[simp] theorem State.setTenant_owned (s : State) (t : Nat) (x : Tenant) : (s.setTenant t x).owned = s.owned := rfl
@[simp] theorem State.setTenant_mcast (s : State) (t : Nat) (x : Tenant) : (s.setTenant t x).mcast = s.mcast := rfl
@[simp] theorem State.setTenant_policy (s : State) (t : Nat) (x : Tenant) : (s.setTenant t x).policy = s.policy := rfl
@[simp] theorem State.setTenant_oldTag (s : State) (t : Nat) (x : Tenant) : (s.setTenant t x).oldTag = s.oldTag := rfl
@[simp] theorem State.setTenant_frmap (s : State) (t : Nat) (x : Tenant) : (s.setTenant t x).frmap = s.frmap := rfl
@[simp] theorem State.setTenant_pageDir (s : State) (t : Nat) (x : Tenant) : (s.setTenant t x).pageDir = s.pageDir := rfl
@[simp] theorem State.setTenant_guests (s : State) (t : Nat) (x : Tenant) : (s.setTenant t x).guests = s.guests := rfl
@[simp] theorem State.setTenant_leaving (s : State) (t : Nat) (x : Tenant) : (s.setTenant t x).leaving = s.leaving := rfl
@[simp] theorem State.setTenant_swm (s : State) (t : Nat) (x : Tenant) : (s.setTenant t x).swm = s.swm := rfl
@[simp] theorem State.setTenant_qlines (s : State) (t : Nat) (x : Tenant) : (s.setTenant t x).qlines = s.qlines := rfl
@[simp] theorem State.setTenant_wmk (s : State) (t : Nat) (x : Tenant) : (s.setTenant t x).wmk = s.wmk := rfl
@[simp] theorem State.setTenant_pins (s : State) (t : Nat) (x : Tenant) : (s.setTenant t x).pins = s.pins := rfl
@[simp] theorem State.setTenant_dirs (s : State) (t : Nat) (x : Tenant) : (s.setTenant t x).dirs = s.dirs := rfl
@[simp] theorem State.setTenant_wcc (s : State) (t : Nat) (x : Tenant) : (s.setTenant t x).wcc = s.wcc := rfl
@[simp] theorem State.setTenant_walks (s : State) (t : Nat) (x : Tenant) : (s.setTenant t x).walks = s.walks := rfl
@[simp] theorem State.setTenant_ctlb (s : State) (t : Nat) (x : Tenant) : (s.setTenant t x).ctlb = s.ctlb := rfl
@[simp] theorem State.setTenant_blocked (s : State) (t : Nat) (x : Tenant) : (s.setTenant t x).blocked = s.blocked := rfl
@[simp] theorem State.setTenant_guestb (s : State) (t : Nat) (x : Tenant) : (s.setTenant t x).guestb = s.guestb := rfl
@[simp] theorem State.setTenant_frame (s : State) (t : Nat) (x : Tenant) : (s.setTenant t x).frame = s.frame := rfl
@[simp] theorem State.setTenant_launches (s : State) (t : Nat) (x : Tenant) : (s.setTenant t x).launches = s.launches := rfl
@[simp] theorem State.setTenant_gangs (s : State) (t : Nat) (x : Tenant) : (s.setTenant t x).gangs = s.gangs := rfl
@[simp] theorem State.setTenant_launchN (s : State) (t : Nat) (x : Tenant) : (s.setTenant t x).launchN = s.launchN := rfl
@[simp] theorem State.setTenant_gangN (s : State) (t : Nat) (x : Tenant) : (s.setTenant t x).gangN = s.gangN := rfl
@[simp] theorem State.setTenant_locs (s : State) (t : Nat) (x : Tenant) : (s.setTenant t x).locs = s.locs := rfl
@[simp] theorem State.setTenant_fields (s : State) (t : Nat) (x : Tenant) : (s.setTenant t x).fields = s.fields := rfl
@[simp] theorem State.setTenant_fast (s : State) (t : Nat) (x : Tenant) : (s.setTenant t x).fast = s.fast := rfl
@[simp] theorem State.setTenant_mdl (s : State) (t : Nat) (x : Tenant) : (s.setTenant t x).mdl = s.mdl := rfl
@[simp] theorem State.setTenant_readback (s : State) (t : Nat) (x : Tenant) : (s.setTenant t x).readback = s.readback := rfl
@[simp] theorem State.setTenant_fibreRead (s : State) (t : Nat) (x : Tenant) : (s.setTenant t x).fibreRead = s.fibreRead := rfl

@[simp] theorem State.setLoc_locs (s : State) (i : BitVec 20) (l : Loc) : (s.setLoc i l).locs = Tab.set Loc.free s.locs i.toNat l := rfl
@[simp] theorem State.setLoc_cpu (s : State) (i : BitVec 20) (l : Loc) : (s.setLoc i l).cpu = s.cpu := rfl
@[simp] theorem State.setLoc_core (s : State) (i : BitVec 20) (l : Loc) : (s.setLoc i l).core = s.core := rfl
@[simp] theorem State.setLoc_cur (s : State) (i : BitVec 20) (l : Loc) : (s.setLoc i l).cur = s.cur := rfl
@[simp] theorem State.setLoc_slot (s : State) (i : BitVec 20) (l : Loc) : (s.setLoc i l).slot = s.slot := rfl
@[simp] theorem State.setLoc_ctxs (s : State) (i : BitVec 20) (l : Loc) : (s.setLoc i l).ctxs = s.ctxs := rfl
@[simp] theorem State.setLoc_cores (s : State) (i : BitVec 20) (l : Loc) : (s.setLoc i l).cores = s.cores := rfl
@[simp] theorem State.setLoc_mem (s : State) (i : BitVec 20) (l : Loc) : (s.setLoc i l).mem = s.mem := rfl
@[simp] theorem State.setLoc_time (s : State) (i : BitVec 20) (l : Loc) : (s.setLoc i l).time = s.time := rfl
@[simp] theorem State.setLoc_agenda (s : State) (i : BitVec 20) (l : Loc) : (s.setLoc i l).agenda = s.agenda := rfl
@[simp] theorem State.setLoc_freeN (s : State) (i : BitVec 20) (l : Loc) : (s.setLoc i l).freeN = s.freeN := rfl
@[simp] theorem State.setLoc_packetN (s : State) (i : BitVec 20) (l : Loc) : (s.setLoc i l).packetN = s.packetN := rfl
@[simp] theorem State.setLoc_net (s : State) (i : BitVec 20) (l : Loc) : (s.setLoc i l).net = s.net := rfl
@[simp] theorem State.setLoc_arrivals (s : State) (i : BitVec 20) (l : Loc) : (s.setLoc i l).arrivals = s.arrivals := rfl
@[simp] theorem State.setLoc_creditsDue (s : State) (i : BitVec 20) (l : Loc) : (s.setLoc i l).creditsDue = s.creditsDue := rfl
@[simp] theorem State.setLoc_msgs (s : State) (i : BitVec 20) (l : Loc) : (s.setLoc i l).msgs = s.msgs := rfl
@[simp] theorem State.setLoc_allowDue (s : State) (i : BitVec 20) (l : Loc) : (s.setLoc i l).allowDue = s.allowDue := rfl
@[simp] theorem State.setLoc_remotes (s : State) (i : BitVec 20) (l : Loc) : (s.setLoc i l).remotes = s.remotes := rfl
@[simp] theorem State.setLoc_posts (s : State) (i : BitVec 20) (l : Loc) : (s.setLoc i l).posts = s.posts := rfl
@[simp] theorem State.setLoc_owed (s : State) (i : BitVec 20) (l : Loc) : (s.setLoc i l).owed = s.owed := rfl
@[simp] theorem State.setLoc_requests (s : State) (i : BitVec 20) (l : Loc) : (s.setLoc i l).requests = s.requests := rfl
@[simp] theorem State.setLoc_owned (s : State) (i : BitVec 20) (l : Loc) : (s.setLoc i l).owned = s.owned := rfl
@[simp] theorem State.setLoc_mcast (s : State) (i : BitVec 20) (l : Loc) : (s.setLoc i l).mcast = s.mcast := rfl
@[simp] theorem State.setLoc_policy (s : State) (i : BitVec 20) (l : Loc) : (s.setLoc i l).policy = s.policy := rfl
@[simp] theorem State.setLoc_oldTag (s : State) (i : BitVec 20) (l : Loc) : (s.setLoc i l).oldTag = s.oldTag := rfl
@[simp] theorem State.setLoc_frmap (s : State) (i : BitVec 20) (l : Loc) : (s.setLoc i l).frmap = s.frmap := rfl
@[simp] theorem State.setLoc_pageDir (s : State) (i : BitVec 20) (l : Loc) : (s.setLoc i l).pageDir = s.pageDir := rfl
@[simp] theorem State.setLoc_guests (s : State) (i : BitVec 20) (l : Loc) : (s.setLoc i l).guests = s.guests := rfl
@[simp] theorem State.setLoc_leaving (s : State) (i : BitVec 20) (l : Loc) : (s.setLoc i l).leaving = s.leaving := rfl
@[simp] theorem State.setLoc_swm (s : State) (i : BitVec 20) (l : Loc) : (s.setLoc i l).swm = s.swm := rfl
@[simp] theorem State.setLoc_qlines (s : State) (i : BitVec 20) (l : Loc) : (s.setLoc i l).qlines = s.qlines := rfl
@[simp] theorem State.setLoc_wmk (s : State) (i : BitVec 20) (l : Loc) : (s.setLoc i l).wmk = s.wmk := rfl
@[simp] theorem State.setLoc_pins (s : State) (i : BitVec 20) (l : Loc) : (s.setLoc i l).pins = s.pins := rfl
@[simp] theorem State.setLoc_dirs (s : State) (i : BitVec 20) (l : Loc) : (s.setLoc i l).dirs = s.dirs := rfl
@[simp] theorem State.setLoc_wcc (s : State) (i : BitVec 20) (l : Loc) : (s.setLoc i l).wcc = s.wcc := rfl
@[simp] theorem State.setLoc_walks (s : State) (i : BitVec 20) (l : Loc) : (s.setLoc i l).walks = s.walks := rfl
@[simp] theorem State.setLoc_ctlb (s : State) (i : BitVec 20) (l : Loc) : (s.setLoc i l).ctlb = s.ctlb := rfl
@[simp] theorem State.setLoc_blocked (s : State) (i : BitVec 20) (l : Loc) : (s.setLoc i l).blocked = s.blocked := rfl
@[simp] theorem State.setLoc_guestb (s : State) (i : BitVec 20) (l : Loc) : (s.setLoc i l).guestb = s.guestb := rfl
@[simp] theorem State.setLoc_frame (s : State) (i : BitVec 20) (l : Loc) : (s.setLoc i l).frame = s.frame := rfl
@[simp] theorem State.setLoc_tenants (s : State) (i : BitVec 20) (l : Loc) : (s.setLoc i l).tenants = s.tenants := rfl
@[simp] theorem State.setLoc_launches (s : State) (i : BitVec 20) (l : Loc) : (s.setLoc i l).launches = s.launches := rfl
@[simp] theorem State.setLoc_gangs (s : State) (i : BitVec 20) (l : Loc) : (s.setLoc i l).gangs = s.gangs := rfl
@[simp] theorem State.setLoc_launchN (s : State) (i : BitVec 20) (l : Loc) : (s.setLoc i l).launchN = s.launchN := rfl
@[simp] theorem State.setLoc_gangN (s : State) (i : BitVec 20) (l : Loc) : (s.setLoc i l).gangN = s.gangN := rfl
@[simp] theorem State.setLoc_fields (s : State) (i : BitVec 20) (l : Loc) : (s.setLoc i l).fields = s.fields := rfl
@[simp] theorem State.setLoc_fast (s : State) (i : BitVec 20) (l : Loc) : (s.setLoc i l).fast = s.fast := rfl
@[simp] theorem State.setLoc_mdl (s : State) (i : BitVec 20) (l : Loc) : (s.setLoc i l).mdl = s.mdl := rfl
@[simp] theorem State.setLoc_readback (s : State) (i : BitVec 20) (l : Loc) : (s.setLoc i l).readback = s.readback := rfl
@[simp] theorem State.setLoc_fibreRead (s : State) (i : BitVec 20) (l : Loc) : (s.setLoc i l).fibreRead = s.fibreRead := rfl

@[simp] theorem State.setCtx_core (s : State) (h k : Nat) (c : Ctx) : (s.setCtx h k c).core = s.core := by
  unfold State.setCtx; split <;> rfl
@[simp] theorem State.setCtx_cur (s : State) (h k : Nat) (c : Ctx) : (s.setCtx h k c).cur = s.cur := by
  unfold State.setCtx; split <;> rfl
@[simp] theorem State.setCtx_slot (s : State) (h k : Nat) (c : Ctx) : (s.setCtx h k c).slot = s.slot := by
  unfold State.setCtx; split <;> rfl
@[simp] theorem State.setCtx_cores (s : State) (h k : Nat) (c : Ctx) : (s.setCtx h k c).cores = s.cores := by
  unfold State.setCtx; split <;> rfl
@[simp] theorem State.setCtx_mem (s : State) (h k : Nat) (c : Ctx) : (s.setCtx h k c).mem = s.mem := by
  unfold State.setCtx; split <;> rfl
@[simp] theorem State.setCtx_time (s : State) (h k : Nat) (c : Ctx) : (s.setCtx h k c).time = s.time := by
  unfold State.setCtx; split <;> rfl
@[simp] theorem State.setCtx_agenda (s : State) (h k : Nat) (c : Ctx) : (s.setCtx h k c).agenda = s.agenda := by
  unfold State.setCtx; split <;> rfl
@[simp] theorem State.setCtx_freeN (s : State) (h k : Nat) (c : Ctx) : (s.setCtx h k c).freeN = s.freeN := by
  unfold State.setCtx; split <;> rfl
@[simp] theorem State.setCtx_packetN (s : State) (h k : Nat) (c : Ctx) : (s.setCtx h k c).packetN = s.packetN := by
  unfold State.setCtx; split <;> rfl
@[simp] theorem State.setCtx_net (s : State) (h k : Nat) (c : Ctx) : (s.setCtx h k c).net = s.net := by
  unfold State.setCtx; split <;> rfl
@[simp] theorem State.setCtx_arrivals (s : State) (h k : Nat) (c : Ctx) : (s.setCtx h k c).arrivals = s.arrivals := by
  unfold State.setCtx; split <;> rfl
@[simp] theorem State.setCtx_creditsDue (s : State) (h k : Nat) (c : Ctx) : (s.setCtx h k c).creditsDue = s.creditsDue := by
  unfold State.setCtx; split <;> rfl
@[simp] theorem State.setCtx_msgs (s : State) (h k : Nat) (c : Ctx) : (s.setCtx h k c).msgs = s.msgs := by
  unfold State.setCtx; split <;> rfl
@[simp] theorem State.setCtx_allowDue (s : State) (h k : Nat) (c : Ctx) : (s.setCtx h k c).allowDue = s.allowDue := by
  unfold State.setCtx; split <;> rfl
@[simp] theorem State.setCtx_remotes (s : State) (h k : Nat) (c : Ctx) : (s.setCtx h k c).remotes = s.remotes := by
  unfold State.setCtx; split <;> rfl
@[simp] theorem State.setCtx_posts (s : State) (h k : Nat) (c : Ctx) : (s.setCtx h k c).posts = s.posts := by
  unfold State.setCtx; split <;> rfl
@[simp] theorem State.setCtx_owed (s : State) (h k : Nat) (c : Ctx) : (s.setCtx h k c).owed = s.owed := by
  unfold State.setCtx; split <;> rfl
@[simp] theorem State.setCtx_requests (s : State) (h k : Nat) (c : Ctx) : (s.setCtx h k c).requests = s.requests := by
  unfold State.setCtx; split <;> rfl
@[simp] theorem State.setCtx_owned (s : State) (h k : Nat) (c : Ctx) : (s.setCtx h k c).owned = s.owned := by
  unfold State.setCtx; split <;> rfl
@[simp] theorem State.setCtx_mcast (s : State) (h k : Nat) (c : Ctx) : (s.setCtx h k c).mcast = s.mcast := by
  unfold State.setCtx; split <;> rfl
@[simp] theorem State.setCtx_policy (s : State) (h k : Nat) (c : Ctx) : (s.setCtx h k c).policy = s.policy := by
  unfold State.setCtx; split <;> rfl
@[simp] theorem State.setCtx_oldTag (s : State) (h k : Nat) (c : Ctx) : (s.setCtx h k c).oldTag = s.oldTag := by
  unfold State.setCtx; split <;> rfl
@[simp] theorem State.setCtx_frmap (s : State) (h k : Nat) (c : Ctx) : (s.setCtx h k c).frmap = s.frmap := by
  unfold State.setCtx; split <;> rfl
@[simp] theorem State.setCtx_pageDir (s : State) (h k : Nat) (c : Ctx) : (s.setCtx h k c).pageDir = s.pageDir := by
  unfold State.setCtx; split <;> rfl
@[simp] theorem State.setCtx_guests (s : State) (h k : Nat) (c : Ctx) : (s.setCtx h k c).guests = s.guests := by
  unfold State.setCtx; split <;> rfl
@[simp] theorem State.setCtx_leaving (s : State) (h k : Nat) (c : Ctx) : (s.setCtx h k c).leaving = s.leaving := by
  unfold State.setCtx; split <;> rfl
@[simp] theorem State.setCtx_swm (s : State) (h k : Nat) (c : Ctx) : (s.setCtx h k c).swm = s.swm := by
  unfold State.setCtx; split <;> rfl
@[simp] theorem State.setCtx_qlines (s : State) (h k : Nat) (c : Ctx) : (s.setCtx h k c).qlines = s.qlines := by
  unfold State.setCtx; split <;> rfl
@[simp] theorem State.setCtx_wmk (s : State) (h k : Nat) (c : Ctx) : (s.setCtx h k c).wmk = s.wmk := by
  unfold State.setCtx; split <;> rfl
@[simp] theorem State.setCtx_pins (s : State) (h k : Nat) (c : Ctx) : (s.setCtx h k c).pins = s.pins := by
  unfold State.setCtx; split <;> rfl
@[simp] theorem State.setCtx_dirs (s : State) (h k : Nat) (c : Ctx) : (s.setCtx h k c).dirs = s.dirs := by
  unfold State.setCtx; split <;> rfl
@[simp] theorem State.setCtx_wcc (s : State) (h k : Nat) (c : Ctx) : (s.setCtx h k c).wcc = s.wcc := by
  unfold State.setCtx; split <;> rfl
@[simp] theorem State.setCtx_walks (s : State) (h k : Nat) (c : Ctx) : (s.setCtx h k c).walks = s.walks := by
  unfold State.setCtx; split <;> rfl
@[simp] theorem State.setCtx_ctlb (s : State) (h k : Nat) (c : Ctx) : (s.setCtx h k c).ctlb = s.ctlb := by
  unfold State.setCtx; split <;> rfl
@[simp] theorem State.setCtx_blocked (s : State) (h k : Nat) (c : Ctx) : (s.setCtx h k c).blocked = s.blocked := by
  unfold State.setCtx; split <;> rfl
@[simp] theorem State.setCtx_guestb (s : State) (h k : Nat) (c : Ctx) : (s.setCtx h k c).guestb = s.guestb := by
  unfold State.setCtx; split <;> rfl
@[simp] theorem State.setCtx_frame (s : State) (h k : Nat) (c : Ctx) : (s.setCtx h k c).frame = s.frame := by
  unfold State.setCtx; split <;> rfl
@[simp] theorem State.setCtx_tenants (s : State) (h k : Nat) (c : Ctx) : (s.setCtx h k c).tenants = s.tenants := by
  unfold State.setCtx; split <;> rfl
@[simp] theorem State.setCtx_launches (s : State) (h k : Nat) (c : Ctx) : (s.setCtx h k c).launches = s.launches := by
  unfold State.setCtx; split <;> rfl
@[simp] theorem State.setCtx_gangs (s : State) (h k : Nat) (c : Ctx) : (s.setCtx h k c).gangs = s.gangs := by
  unfold State.setCtx; split <;> rfl
@[simp] theorem State.setCtx_launchN (s : State) (h k : Nat) (c : Ctx) : (s.setCtx h k c).launchN = s.launchN := by
  unfold State.setCtx; split <;> rfl
@[simp] theorem State.setCtx_gangN (s : State) (h k : Nat) (c : Ctx) : (s.setCtx h k c).gangN = s.gangN := by
  unfold State.setCtx; split <;> rfl
@[simp] theorem State.setCtx_locs (s : State) (h k : Nat) (c : Ctx) : (s.setCtx h k c).locs = s.locs := by
  unfold State.setCtx; split <;> rfl
@[simp] theorem State.setCtx_fields (s : State) (h k : Nat) (c : Ctx) : (s.setCtx h k c).fields = s.fields := by
  unfold State.setCtx; split <;> rfl
@[simp] theorem State.setCtx_fast (s : State) (h k : Nat) (c : Ctx) : (s.setCtx h k c).fast = s.fast := by
  unfold State.setCtx; split <;> rfl
@[simp] theorem State.setCtx_mdl (s : State) (h k : Nat) (c : Ctx) : (s.setCtx h k c).mdl = s.mdl := by
  unfold State.setCtx; split <;> rfl
@[simp] theorem State.setCtx_readback (s : State) (h k : Nat) (c : Ctx) : (s.setCtx h k c).readback = s.readback := by
  unfold State.setCtx; split <;> rfl
@[simp] theorem State.setCtx_fibreRead (s : State) (h k : Nat) (c : Ctx) : (s.setCtx h k c).fibreRead = s.fibreRead := by
  unfold State.setCtx; split <;> rfl

@[simp] theorem State.setCore_cpu (s : State) (h : Nat) (c : Core) : (s.setCore h c).cpu = s.cpu := by
  unfold State.setCore; split <;> rfl
@[simp] theorem State.setCore_cur (s : State) (h : Nat) (c : Core) : (s.setCore h c).cur = s.cur := by
  unfold State.setCore; split <;> rfl
@[simp] theorem State.setCore_slot (s : State) (h : Nat) (c : Core) : (s.setCore h c).slot = s.slot := by
  unfold State.setCore; split <;> rfl
@[simp] theorem State.setCore_ctxs (s : State) (h : Nat) (c : Core) : (s.setCore h c).ctxs = s.ctxs := by
  unfold State.setCore; split <;> rfl
@[simp] theorem State.setCore_mem (s : State) (h : Nat) (c : Core) : (s.setCore h c).mem = s.mem := by
  unfold State.setCore; split <;> rfl
@[simp] theorem State.setCore_time (s : State) (h : Nat) (c : Core) : (s.setCore h c).time = s.time := by
  unfold State.setCore; split <;> rfl
@[simp] theorem State.setCore_agenda (s : State) (h : Nat) (c : Core) : (s.setCore h c).agenda = s.agenda := by
  unfold State.setCore; split <;> rfl
@[simp] theorem State.setCore_freeN (s : State) (h : Nat) (c : Core) : (s.setCore h c).freeN = s.freeN := by
  unfold State.setCore; split <;> rfl
@[simp] theorem State.setCore_packetN (s : State) (h : Nat) (c : Core) : (s.setCore h c).packetN = s.packetN := by
  unfold State.setCore; split <;> rfl
@[simp] theorem State.setCore_net (s : State) (h : Nat) (c : Core) : (s.setCore h c).net = s.net := by
  unfold State.setCore; split <;> rfl
@[simp] theorem State.setCore_arrivals (s : State) (h : Nat) (c : Core) : (s.setCore h c).arrivals = s.arrivals := by
  unfold State.setCore; split <;> rfl
@[simp] theorem State.setCore_creditsDue (s : State) (h : Nat) (c : Core) : (s.setCore h c).creditsDue = s.creditsDue := by
  unfold State.setCore; split <;> rfl
@[simp] theorem State.setCore_msgs (s : State) (h : Nat) (c : Core) : (s.setCore h c).msgs = s.msgs := by
  unfold State.setCore; split <;> rfl
@[simp] theorem State.setCore_allowDue (s : State) (h : Nat) (c : Core) : (s.setCore h c).allowDue = s.allowDue := by
  unfold State.setCore; split <;> rfl
@[simp] theorem State.setCore_remotes (s : State) (h : Nat) (c : Core) : (s.setCore h c).remotes = s.remotes := by
  unfold State.setCore; split <;> rfl
@[simp] theorem State.setCore_posts (s : State) (h : Nat) (c : Core) : (s.setCore h c).posts = s.posts := by
  unfold State.setCore; split <;> rfl
@[simp] theorem State.setCore_owed (s : State) (h : Nat) (c : Core) : (s.setCore h c).owed = s.owed := by
  unfold State.setCore; split <;> rfl
@[simp] theorem State.setCore_requests (s : State) (h : Nat) (c : Core) : (s.setCore h c).requests = s.requests := by
  unfold State.setCore; split <;> rfl
@[simp] theorem State.setCore_owned (s : State) (h : Nat) (c : Core) : (s.setCore h c).owned = s.owned := by
  unfold State.setCore; split <;> rfl
@[simp] theorem State.setCore_mcast (s : State) (h : Nat) (c : Core) : (s.setCore h c).mcast = s.mcast := by
  unfold State.setCore; split <;> rfl
@[simp] theorem State.setCore_policy (s : State) (h : Nat) (c : Core) : (s.setCore h c).policy = s.policy := by
  unfold State.setCore; split <;> rfl
@[simp] theorem State.setCore_oldTag (s : State) (h : Nat) (c : Core) : (s.setCore h c).oldTag = s.oldTag := by
  unfold State.setCore; split <;> rfl
@[simp] theorem State.setCore_frmap (s : State) (h : Nat) (c : Core) : (s.setCore h c).frmap = s.frmap := by
  unfold State.setCore; split <;> rfl
@[simp] theorem State.setCore_pageDir (s : State) (h : Nat) (c : Core) : (s.setCore h c).pageDir = s.pageDir := by
  unfold State.setCore; split <;> rfl
@[simp] theorem State.setCore_guests (s : State) (h : Nat) (c : Core) : (s.setCore h c).guests = s.guests := by
  unfold State.setCore; split <;> rfl
@[simp] theorem State.setCore_leaving (s : State) (h : Nat) (c : Core) : (s.setCore h c).leaving = s.leaving := by
  unfold State.setCore; split <;> rfl
@[simp] theorem State.setCore_swm (s : State) (h : Nat) (c : Core) : (s.setCore h c).swm = s.swm := by
  unfold State.setCore; split <;> rfl
@[simp] theorem State.setCore_qlines (s : State) (h : Nat) (c : Core) : (s.setCore h c).qlines = s.qlines := by
  unfold State.setCore; split <;> rfl
@[simp] theorem State.setCore_wmk (s : State) (h : Nat) (c : Core) : (s.setCore h c).wmk = s.wmk := by
  unfold State.setCore; split <;> rfl
@[simp] theorem State.setCore_pins (s : State) (h : Nat) (c : Core) : (s.setCore h c).pins = s.pins := by
  unfold State.setCore; split <;> rfl
@[simp] theorem State.setCore_dirs (s : State) (h : Nat) (c : Core) : (s.setCore h c).dirs = s.dirs := by
  unfold State.setCore; split <;> rfl
@[simp] theorem State.setCore_wcc (s : State) (h : Nat) (c : Core) : (s.setCore h c).wcc = s.wcc := by
  unfold State.setCore; split <;> rfl
@[simp] theorem State.setCore_walks (s : State) (h : Nat) (c : Core) : (s.setCore h c).walks = s.walks := by
  unfold State.setCore; split <;> rfl
@[simp] theorem State.setCore_ctlb (s : State) (h : Nat) (c : Core) : (s.setCore h c).ctlb = s.ctlb := by
  unfold State.setCore; split <;> rfl
@[simp] theorem State.setCore_blocked (s : State) (h : Nat) (c : Core) : (s.setCore h c).blocked = s.blocked := by
  unfold State.setCore; split <;> rfl
@[simp] theorem State.setCore_guestb (s : State) (h : Nat) (c : Core) : (s.setCore h c).guestb = s.guestb := by
  unfold State.setCore; split <;> rfl
@[simp] theorem State.setCore_frame (s : State) (h : Nat) (c : Core) : (s.setCore h c).frame = s.frame := by
  unfold State.setCore; split <;> rfl
@[simp] theorem State.setCore_tenants (s : State) (h : Nat) (c : Core) : (s.setCore h c).tenants = s.tenants := by
  unfold State.setCore; split <;> rfl
@[simp] theorem State.setCore_launches (s : State) (h : Nat) (c : Core) : (s.setCore h c).launches = s.launches := by
  unfold State.setCore; split <;> rfl
@[simp] theorem State.setCore_gangs (s : State) (h : Nat) (c : Core) : (s.setCore h c).gangs = s.gangs := by
  unfold State.setCore; split <;> rfl
@[simp] theorem State.setCore_launchN (s : State) (h : Nat) (c : Core) : (s.setCore h c).launchN = s.launchN := by
  unfold State.setCore; split <;> rfl
@[simp] theorem State.setCore_gangN (s : State) (h : Nat) (c : Core) : (s.setCore h c).gangN = s.gangN := by
  unfold State.setCore; split <;> rfl
@[simp] theorem State.setCore_locs (s : State) (h : Nat) (c : Core) : (s.setCore h c).locs = s.locs := by
  unfold State.setCore; split <;> rfl
@[simp] theorem State.setCore_fields (s : State) (h : Nat) (c : Core) : (s.setCore h c).fields = s.fields := by
  unfold State.setCore; split <;> rfl
@[simp] theorem State.setCore_fast (s : State) (h : Nat) (c : Core) : (s.setCore h c).fast = s.fast := by
  unfold State.setCore; split <;> rfl
@[simp] theorem State.setCore_mdl (s : State) (h : Nat) (c : Core) : (s.setCore h c).mdl = s.mdl := by
  unfold State.setCore; split <;> rfl
@[simp] theorem State.setCore_readback (s : State) (h : Nat) (c : Core) : (s.setCore h c).readback = s.readback := by
  unfold State.setCore; split <;> rfl
@[simp] theorem State.setCore_fibreRead (s : State) (h : Nat) (c : Core) : (s.setCore h c).fibreRead = s.fibreRead := by
  unfold State.setCore; split <;> rfl

@[simp] theorem State.post_cpu (s : State) (i : BitVec 20) (g : BitVec 8) (m : BitVec 128) : (s.post i g m).cpu = s.cpu := by
  simp only [State.post]; split
  · rfl
  · split <;> rfl
@[simp] theorem State.post_core (s : State) (i : BitVec 20) (g : BitVec 8) (m : BitVec 128) : (s.post i g m).core = s.core := by
  simp only [State.post]; split
  · rfl
  · split <;> rfl
@[simp] theorem State.post_cur (s : State) (i : BitVec 20) (g : BitVec 8) (m : BitVec 128) : (s.post i g m).cur = s.cur := by
  simp only [State.post]; split
  · rfl
  · split <;> rfl
@[simp] theorem State.post_slot (s : State) (i : BitVec 20) (g : BitVec 8) (m : BitVec 128) : (s.post i g m).slot = s.slot := by
  simp only [State.post]; split
  · rfl
  · split <;> rfl
@[simp] theorem State.post_ctxs (s : State) (i : BitVec 20) (g : BitVec 8) (m : BitVec 128) : (s.post i g m).ctxs = s.ctxs := by
  simp only [State.post]; split
  · rfl
  · split <;> rfl
@[simp] theorem State.post_cores (s : State) (i : BitVec 20) (g : BitVec 8) (m : BitVec 128) : (s.post i g m).cores = s.cores := by
  simp only [State.post]; split
  · rfl
  · split <;> rfl
@[simp] theorem State.post_mem (s : State) (i : BitVec 20) (g : BitVec 8) (m : BitVec 128) : (s.post i g m).mem = s.mem := by
  simp only [State.post]; split
  · rfl
  · split <;> rfl
@[simp] theorem State.post_time (s : State) (i : BitVec 20) (g : BitVec 8) (m : BitVec 128) : (s.post i g m).time = s.time := by
  simp only [State.post]; split
  · rfl
  · split <;> rfl
@[simp] theorem State.post_agenda (s : State) (i : BitVec 20) (g : BitVec 8) (m : BitVec 128) : (s.post i g m).agenda = s.agenda := by
  simp only [State.post]; split
  · rfl
  · split <;> rfl
@[simp] theorem State.post_freeN (s : State) (i : BitVec 20) (g : BitVec 8) (m : BitVec 128) : (s.post i g m).freeN = s.freeN := by
  simp only [State.post]; split
  · rfl
  · split <;> rfl
@[simp] theorem State.post_packetN (s : State) (i : BitVec 20) (g : BitVec 8) (m : BitVec 128) : (s.post i g m).packetN = s.packetN := by
  simp only [State.post]; split
  · rfl
  · split <;> rfl
@[simp] theorem State.post_net (s : State) (i : BitVec 20) (g : BitVec 8) (m : BitVec 128) : (s.post i g m).net = s.net := by
  simp only [State.post]; split
  · rfl
  · split <;> rfl
@[simp] theorem State.post_arrivals (s : State) (i : BitVec 20) (g : BitVec 8) (m : BitVec 128) : (s.post i g m).arrivals = s.arrivals := by
  simp only [State.post]; split
  · rfl
  · split <;> rfl
@[simp] theorem State.post_creditsDue (s : State) (i : BitVec 20) (g : BitVec 8) (m : BitVec 128) : (s.post i g m).creditsDue = s.creditsDue := by
  simp only [State.post]; split
  · rfl
  · split <;> rfl
@[simp] theorem State.post_msgs (s : State) (i : BitVec 20) (g : BitVec 8) (m : BitVec 128) : (s.post i g m).msgs = s.msgs := by
  simp only [State.post]; split
  · rfl
  · split <;> rfl
@[simp] theorem State.post_allowDue (s : State) (i : BitVec 20) (g : BitVec 8) (m : BitVec 128) : (s.post i g m).allowDue = s.allowDue := by
  simp only [State.post]; split
  · rfl
  · split <;> rfl
@[simp] theorem State.post_remotes (s : State) (i : BitVec 20) (g : BitVec 8) (m : BitVec 128) : (s.post i g m).remotes = s.remotes := by
  simp only [State.post]; split
  · rfl
  · split <;> rfl
@[simp] theorem State.post_requests (s : State) (i : BitVec 20) (g : BitVec 8) (m : BitVec 128) : (s.post i g m).requests = s.requests := by
  simp only [State.post]; split
  · rfl
  · split <;> rfl
@[simp] theorem State.post_owned (s : State) (i : BitVec 20) (g : BitVec 8) (m : BitVec 128) : (s.post i g m).owned = s.owned := by
  simp only [State.post]; split
  · rfl
  · split <;> rfl
@[simp] theorem State.post_mcast (s : State) (i : BitVec 20) (g : BitVec 8) (m : BitVec 128) : (s.post i g m).mcast = s.mcast := by
  simp only [State.post]; split
  · rfl
  · split <;> rfl
@[simp] theorem State.post_policy (s : State) (i : BitVec 20) (g : BitVec 8) (m : BitVec 128) : (s.post i g m).policy = s.policy := by
  simp only [State.post]; split
  · rfl
  · split <;> rfl
@[simp] theorem State.post_oldTag (s : State) (i : BitVec 20) (g : BitVec 8) (m : BitVec 128) : (s.post i g m).oldTag = s.oldTag := by
  simp only [State.post]; split
  · rfl
  · split <;> rfl
@[simp] theorem State.post_frmap (s : State) (i : BitVec 20) (g : BitVec 8) (m : BitVec 128) : (s.post i g m).frmap = s.frmap := by
  simp only [State.post]; split
  · rfl
  · split <;> rfl
@[simp] theorem State.post_pageDir (s : State) (i : BitVec 20) (g : BitVec 8) (m : BitVec 128) : (s.post i g m).pageDir = s.pageDir := by
  simp only [State.post]; split
  · rfl
  · split <;> rfl
@[simp] theorem State.post_guests (s : State) (i : BitVec 20) (g : BitVec 8) (m : BitVec 128) : (s.post i g m).guests = s.guests := by
  simp only [State.post]; split
  · rfl
  · split <;> rfl
@[simp] theorem State.post_leaving (s : State) (i : BitVec 20) (g : BitVec 8) (m : BitVec 128) : (s.post i g m).leaving = s.leaving := by
  simp only [State.post]; split
  · rfl
  · split <;> rfl
@[simp] theorem State.post_swm (s : State) (i : BitVec 20) (g : BitVec 8) (m : BitVec 128) : (s.post i g m).swm = s.swm := by
  simp only [State.post]; split
  · rfl
  · split <;> rfl
@[simp] theorem State.post_qlines (s : State) (i : BitVec 20) (g : BitVec 8) (m : BitVec 128) : (s.post i g m).qlines = s.qlines := by
  simp only [State.post]; split
  · rfl
  · split <;> rfl
@[simp] theorem State.post_wmk (s : State) (i : BitVec 20) (g : BitVec 8) (m : BitVec 128) : (s.post i g m).wmk = s.wmk := by
  simp only [State.post]; split
  · rfl
  · split <;> rfl
@[simp] theorem State.post_pins (s : State) (i : BitVec 20) (g : BitVec 8) (m : BitVec 128) : (s.post i g m).pins = s.pins := by
  simp only [State.post]; split
  · rfl
  · split <;> rfl
@[simp] theorem State.post_dirs (s : State) (i : BitVec 20) (g : BitVec 8) (m : BitVec 128) : (s.post i g m).dirs = s.dirs := by
  simp only [State.post]; split
  · rfl
  · split <;> rfl
@[simp] theorem State.post_wcc (s : State) (i : BitVec 20) (g : BitVec 8) (m : BitVec 128) : (s.post i g m).wcc = s.wcc := by
  simp only [State.post]; split
  · rfl
  · split <;> rfl
@[simp] theorem State.post_walks (s : State) (i : BitVec 20) (g : BitVec 8) (m : BitVec 128) : (s.post i g m).walks = s.walks := by
  simp only [State.post]; split
  · rfl
  · split <;> rfl
@[simp] theorem State.post_ctlb (s : State) (i : BitVec 20) (g : BitVec 8) (m : BitVec 128) : (s.post i g m).ctlb = s.ctlb := by
  simp only [State.post]; split
  · rfl
  · split <;> rfl
@[simp] theorem State.post_blocked (s : State) (i : BitVec 20) (g : BitVec 8) (m : BitVec 128) : (s.post i g m).blocked = s.blocked := by
  simp only [State.post]; split
  · rfl
  · split <;> rfl
@[simp] theorem State.post_guestb (s : State) (i : BitVec 20) (g : BitVec 8) (m : BitVec 128) : (s.post i g m).guestb = s.guestb := by
  simp only [State.post]; split
  · rfl
  · split <;> rfl
@[simp] theorem State.post_frame (s : State) (i : BitVec 20) (g : BitVec 8) (m : BitVec 128) : (s.post i g m).frame = s.frame := by
  simp only [State.post]; split
  · rfl
  · split <;> rfl
@[simp] theorem State.post_tenants (s : State) (i : BitVec 20) (g : BitVec 8) (m : BitVec 128) : (s.post i g m).tenants = s.tenants := by
  simp only [State.post]; split
  · rfl
  · split <;> rfl
@[simp] theorem State.post_launches (s : State) (i : BitVec 20) (g : BitVec 8) (m : BitVec 128) : (s.post i g m).launches = s.launches := by
  simp only [State.post]; split
  · rfl
  · split <;> rfl
@[simp] theorem State.post_gangs (s : State) (i : BitVec 20) (g : BitVec 8) (m : BitVec 128) : (s.post i g m).gangs = s.gangs := by
  simp only [State.post]; split
  · rfl
  · split <;> rfl
@[simp] theorem State.post_launchN (s : State) (i : BitVec 20) (g : BitVec 8) (m : BitVec 128) : (s.post i g m).launchN = s.launchN := by
  simp only [State.post]; split
  · rfl
  · split <;> rfl
@[simp] theorem State.post_gangN (s : State) (i : BitVec 20) (g : BitVec 8) (m : BitVec 128) : (s.post i g m).gangN = s.gangN := by
  simp only [State.post]; split
  · rfl
  · split <;> rfl
@[simp] theorem State.post_locs (s : State) (i : BitVec 20) (g : BitVec 8) (m : BitVec 128) : (s.post i g m).locs = s.locs := by
  simp only [State.post]; split
  · rfl
  · split <;> rfl
@[simp] theorem State.post_fields (s : State) (i : BitVec 20) (g : BitVec 8) (m : BitVec 128) : (s.post i g m).fields = s.fields := by
  simp only [State.post]; split
  · rfl
  · split <;> rfl
@[simp] theorem State.post_fast (s : State) (i : BitVec 20) (g : BitVec 8) (m : BitVec 128) : (s.post i g m).fast = s.fast := by
  simp only [State.post]; split
  · rfl
  · split <;> rfl
@[simp] theorem State.post_mdl (s : State) (i : BitVec 20) (g : BitVec 8) (m : BitVec 128) : (s.post i g m).mdl = s.mdl := by
  simp only [State.post]; split
  · rfl
  · split <;> rfl
@[simp] theorem State.post_readback (s : State) (i : BitVec 20) (g : BitVec 8) (m : BitVec 128) : (s.post i g m).readback = s.readback := by
  simp only [State.post]; split
  · rfl
  · split <;> rfl
@[simp] theorem State.post_fibreRead (s : State) (i : BitVec 20) (g : BitVec 8) (m : BitVec 128) : (s.post i g m).fibreRead = s.fibreRead := by
  simp only [State.post]; split
  · rfl
  · split <;> rfl

@[simp] theorem State.focus_mem (s : State) (h k : Nat) : (s.focus h k).mem = s.mem := by
  simp only [State.focus]; split
  · rfl
  · split <;> rfl
@[simp] theorem State.focus_time (s : State) (h k : Nat) : (s.focus h k).time = s.time := by
  simp only [State.focus]; split
  · rfl
  · split <;> rfl
@[simp] theorem State.focus_agenda (s : State) (h k : Nat) : (s.focus h k).agenda = s.agenda := by
  simp only [State.focus]; split
  · rfl
  · split <;> rfl
@[simp] theorem State.focus_freeN (s : State) (h k : Nat) : (s.focus h k).freeN = s.freeN := by
  simp only [State.focus]; split
  · rfl
  · split <;> rfl
@[simp] theorem State.focus_packetN (s : State) (h k : Nat) : (s.focus h k).packetN = s.packetN := by
  simp only [State.focus]; split
  · rfl
  · split <;> rfl
@[simp] theorem State.focus_net (s : State) (h k : Nat) : (s.focus h k).net = s.net := by
  simp only [State.focus]; split
  · rfl
  · split <;> rfl
@[simp] theorem State.focus_arrivals (s : State) (h k : Nat) : (s.focus h k).arrivals = s.arrivals := by
  simp only [State.focus]; split
  · rfl
  · split <;> rfl
@[simp] theorem State.focus_creditsDue (s : State) (h k : Nat) : (s.focus h k).creditsDue = s.creditsDue := by
  simp only [State.focus]; split
  · rfl
  · split <;> rfl
@[simp] theorem State.focus_msgs (s : State) (h k : Nat) : (s.focus h k).msgs = s.msgs := by
  simp only [State.focus]; split
  · rfl
  · split <;> rfl
@[simp] theorem State.focus_allowDue (s : State) (h k : Nat) : (s.focus h k).allowDue = s.allowDue := by
  simp only [State.focus]; split
  · rfl
  · split <;> rfl
@[simp] theorem State.focus_remotes (s : State) (h k : Nat) : (s.focus h k).remotes = s.remotes := by
  simp only [State.focus]; split
  · rfl
  · split <;> rfl
@[simp] theorem State.focus_posts (s : State) (h k : Nat) : (s.focus h k).posts = s.posts := by
  simp only [State.focus]; split
  · rfl
  · split <;> rfl
@[simp] theorem State.focus_owed (s : State) (h k : Nat) : (s.focus h k).owed = s.owed := by
  simp only [State.focus]; split
  · rfl
  · split <;> rfl
@[simp] theorem State.focus_requests (s : State) (h k : Nat) : (s.focus h k).requests = s.requests := by
  simp only [State.focus]; split
  · rfl
  · split <;> rfl
@[simp] theorem State.focus_owned (s : State) (h k : Nat) : (s.focus h k).owned = s.owned := by
  simp only [State.focus]; split
  · rfl
  · split <;> rfl
@[simp] theorem State.focus_mcast (s : State) (h k : Nat) : (s.focus h k).mcast = s.mcast := by
  simp only [State.focus]; split
  · rfl
  · split <;> rfl
@[simp] theorem State.focus_policy (s : State) (h k : Nat) : (s.focus h k).policy = s.policy := by
  simp only [State.focus]; split
  · rfl
  · split <;> rfl
@[simp] theorem State.focus_oldTag (s : State) (h k : Nat) : (s.focus h k).oldTag = s.oldTag := by
  simp only [State.focus]; split
  · rfl
  · split <;> rfl
@[simp] theorem State.focus_frmap (s : State) (h k : Nat) : (s.focus h k).frmap = s.frmap := by
  simp only [State.focus]; split
  · rfl
  · split <;> rfl
@[simp] theorem State.focus_pageDir (s : State) (h k : Nat) : (s.focus h k).pageDir = s.pageDir := by
  simp only [State.focus]; split
  · rfl
  · split <;> rfl
@[simp] theorem State.focus_guests (s : State) (h k : Nat) : (s.focus h k).guests = s.guests := by
  simp only [State.focus]; split
  · rfl
  · split <;> rfl
@[simp] theorem State.focus_leaving (s : State) (h k : Nat) : (s.focus h k).leaving = s.leaving := by
  simp only [State.focus]; split
  · rfl
  · split <;> rfl
@[simp] theorem State.focus_swm (s : State) (h k : Nat) : (s.focus h k).swm = s.swm := by
  simp only [State.focus]; split
  · rfl
  · split <;> rfl
@[simp] theorem State.focus_qlines (s : State) (h k : Nat) : (s.focus h k).qlines = s.qlines := by
  simp only [State.focus]; split
  · rfl
  · split <;> rfl
@[simp] theorem State.focus_wmk (s : State) (h k : Nat) : (s.focus h k).wmk = s.wmk := by
  simp only [State.focus]; split
  · rfl
  · split <;> rfl
@[simp] theorem State.focus_pins (s : State) (h k : Nat) : (s.focus h k).pins = s.pins := by
  simp only [State.focus]; split
  · rfl
  · split <;> rfl
@[simp] theorem State.focus_dirs (s : State) (h k : Nat) : (s.focus h k).dirs = s.dirs := by
  simp only [State.focus]; split
  · rfl
  · split <;> rfl
@[simp] theorem State.focus_wcc (s : State) (h k : Nat) : (s.focus h k).wcc = s.wcc := by
  simp only [State.focus]; split
  · rfl
  · split <;> rfl
@[simp] theorem State.focus_walks (s : State) (h k : Nat) : (s.focus h k).walks = s.walks := by
  simp only [State.focus]; split
  · rfl
  · split <;> rfl
@[simp] theorem State.focus_ctlb (s : State) (h k : Nat) : (s.focus h k).ctlb = s.ctlb := by
  simp only [State.focus]; split
  · rfl
  · split <;> rfl
@[simp] theorem State.focus_blocked (s : State) (h k : Nat) : (s.focus h k).blocked = s.blocked := by
  simp only [State.focus]; split
  · rfl
  · split <;> rfl
@[simp] theorem State.focus_guestb (s : State) (h k : Nat) : (s.focus h k).guestb = s.guestb := by
  simp only [State.focus]; split
  · rfl
  · split <;> rfl
@[simp] theorem State.focus_frame (s : State) (h k : Nat) : (s.focus h k).frame = s.frame := by
  simp only [State.focus]; split
  · rfl
  · split <;> rfl
@[simp] theorem State.focus_tenants (s : State) (h k : Nat) : (s.focus h k).tenants = s.tenants := by
  simp only [State.focus]; split
  · rfl
  · split <;> rfl
@[simp] theorem State.focus_launches (s : State) (h k : Nat) : (s.focus h k).launches = s.launches := by
  simp only [State.focus]; split
  · rfl
  · split <;> rfl
@[simp] theorem State.focus_gangs (s : State) (h k : Nat) : (s.focus h k).gangs = s.gangs := by
  simp only [State.focus]; split
  · rfl
  · split <;> rfl
@[simp] theorem State.focus_launchN (s : State) (h k : Nat) : (s.focus h k).launchN = s.launchN := by
  simp only [State.focus]; split
  · rfl
  · split <;> rfl
@[simp] theorem State.focus_gangN (s : State) (h k : Nat) : (s.focus h k).gangN = s.gangN := by
  simp only [State.focus]; split
  · rfl
  · split <;> rfl
@[simp] theorem State.focus_locs (s : State) (h k : Nat) : (s.focus h k).locs = s.locs := by
  simp only [State.focus]; split
  · rfl
  · split <;> rfl
@[simp] theorem State.focus_fields (s : State) (h k : Nat) : (s.focus h k).fields = s.fields := by
  simp only [State.focus]; split
  · rfl
  · split <;> rfl
@[simp] theorem State.focus_fast (s : State) (h k : Nat) : (s.focus h k).fast = s.fast := by
  simp only [State.focus]; split
  · rfl
  · split <;> rfl
@[simp] theorem State.focus_mdl (s : State) (h k : Nat) : (s.focus h k).mdl = s.mdl := by
  simp only [State.focus]; split
  · rfl
  · split <;> rfl
@[simp] theorem State.focus_readback (s : State) (h k : Nat) : (s.focus h k).readback = s.readback := by
  simp only [State.focus]; split
  · rfl
  · split <;> rfl
@[simp] theorem State.focus_fibreRead (s : State) (h k : Nat) : (s.focus h k).fibreRead = s.fibreRead := by
  simp only [State.focus]; split
  · rfl
  · split <;> rfl

@[simp] theorem State.postId_cpu (s : State) (i : BitVec 20) (m : BitVec 128) : (s.postId i m).cpu = s.cpu := State.post_cpu ..
@[simp] theorem State.postId_core (s : State) (i : BitVec 20) (m : BitVec 128) : (s.postId i m).core = s.core := State.post_core ..
@[simp] theorem State.postId_cur (s : State) (i : BitVec 20) (m : BitVec 128) : (s.postId i m).cur = s.cur := State.post_cur ..
@[simp] theorem State.postId_slot (s : State) (i : BitVec 20) (m : BitVec 128) : (s.postId i m).slot = s.slot := State.post_slot ..
@[simp] theorem State.postId_ctxs (s : State) (i : BitVec 20) (m : BitVec 128) : (s.postId i m).ctxs = s.ctxs := State.post_ctxs ..
@[simp] theorem State.postId_cores (s : State) (i : BitVec 20) (m : BitVec 128) : (s.postId i m).cores = s.cores := State.post_cores ..
@[simp] theorem State.postId_mem (s : State) (i : BitVec 20) (m : BitVec 128) : (s.postId i m).mem = s.mem := State.post_mem ..
@[simp] theorem State.postId_time (s : State) (i : BitVec 20) (m : BitVec 128) : (s.postId i m).time = s.time := State.post_time ..
@[simp] theorem State.postId_agenda (s : State) (i : BitVec 20) (m : BitVec 128) : (s.postId i m).agenda = s.agenda := State.post_agenda ..
@[simp] theorem State.postId_freeN (s : State) (i : BitVec 20) (m : BitVec 128) : (s.postId i m).freeN = s.freeN := State.post_freeN ..
@[simp] theorem State.postId_packetN (s : State) (i : BitVec 20) (m : BitVec 128) : (s.postId i m).packetN = s.packetN := State.post_packetN ..
@[simp] theorem State.postId_net (s : State) (i : BitVec 20) (m : BitVec 128) : (s.postId i m).net = s.net := State.post_net ..
@[simp] theorem State.postId_arrivals (s : State) (i : BitVec 20) (m : BitVec 128) : (s.postId i m).arrivals = s.arrivals := State.post_arrivals ..
@[simp] theorem State.postId_creditsDue (s : State) (i : BitVec 20) (m : BitVec 128) : (s.postId i m).creditsDue = s.creditsDue := State.post_creditsDue ..
@[simp] theorem State.postId_msgs (s : State) (i : BitVec 20) (m : BitVec 128) : (s.postId i m).msgs = s.msgs := State.post_msgs ..
@[simp] theorem State.postId_allowDue (s : State) (i : BitVec 20) (m : BitVec 128) : (s.postId i m).allowDue = s.allowDue := State.post_allowDue ..
@[simp] theorem State.postId_remotes (s : State) (i : BitVec 20) (m : BitVec 128) : (s.postId i m).remotes = s.remotes := State.post_remotes ..
@[simp] theorem State.postId_requests (s : State) (i : BitVec 20) (m : BitVec 128) : (s.postId i m).requests = s.requests := State.post_requests ..
@[simp] theorem State.postId_owned (s : State) (i : BitVec 20) (m : BitVec 128) : (s.postId i m).owned = s.owned := State.post_owned ..
@[simp] theorem State.postId_mcast (s : State) (i : BitVec 20) (m : BitVec 128) : (s.postId i m).mcast = s.mcast := State.post_mcast ..
@[simp] theorem State.postId_policy (s : State) (i : BitVec 20) (m : BitVec 128) : (s.postId i m).policy = s.policy := State.post_policy ..
@[simp] theorem State.postId_oldTag (s : State) (i : BitVec 20) (m : BitVec 128) : (s.postId i m).oldTag = s.oldTag := State.post_oldTag ..
@[simp] theorem State.postId_frmap (s : State) (i : BitVec 20) (m : BitVec 128) : (s.postId i m).frmap = s.frmap := State.post_frmap ..
@[simp] theorem State.postId_pageDir (s : State) (i : BitVec 20) (m : BitVec 128) : (s.postId i m).pageDir = s.pageDir := State.post_pageDir ..
@[simp] theorem State.postId_guests (s : State) (i : BitVec 20) (m : BitVec 128) : (s.postId i m).guests = s.guests := State.post_guests ..
@[simp] theorem State.postId_leaving (s : State) (i : BitVec 20) (m : BitVec 128) : (s.postId i m).leaving = s.leaving := State.post_leaving ..
@[simp] theorem State.postId_swm (s : State) (i : BitVec 20) (m : BitVec 128) : (s.postId i m).swm = s.swm := State.post_swm ..
@[simp] theorem State.postId_qlines (s : State) (i : BitVec 20) (m : BitVec 128) : (s.postId i m).qlines = s.qlines := State.post_qlines ..
@[simp] theorem State.postId_wmk (s : State) (i : BitVec 20) (m : BitVec 128) : (s.postId i m).wmk = s.wmk := State.post_wmk ..
@[simp] theorem State.postId_pins (s : State) (i : BitVec 20) (m : BitVec 128) : (s.postId i m).pins = s.pins := State.post_pins ..
@[simp] theorem State.postId_dirs (s : State) (i : BitVec 20) (m : BitVec 128) : (s.postId i m).dirs = s.dirs := State.post_dirs ..
@[simp] theorem State.postId_wcc (s : State) (i : BitVec 20) (m : BitVec 128) : (s.postId i m).wcc = s.wcc := State.post_wcc ..
@[simp] theorem State.postId_walks (s : State) (i : BitVec 20) (m : BitVec 128) : (s.postId i m).walks = s.walks := State.post_walks ..
@[simp] theorem State.postId_ctlb (s : State) (i : BitVec 20) (m : BitVec 128) : (s.postId i m).ctlb = s.ctlb := State.post_ctlb ..
@[simp] theorem State.postId_blocked (s : State) (i : BitVec 20) (m : BitVec 128) : (s.postId i m).blocked = s.blocked := State.post_blocked ..
@[simp] theorem State.postId_guestb (s : State) (i : BitVec 20) (m : BitVec 128) : (s.postId i m).guestb = s.guestb := State.post_guestb ..
@[simp] theorem State.postId_frame (s : State) (i : BitVec 20) (m : BitVec 128) : (s.postId i m).frame = s.frame := State.post_frame ..
@[simp] theorem State.postId_tenants (s : State) (i : BitVec 20) (m : BitVec 128) : (s.postId i m).tenants = s.tenants := State.post_tenants ..
@[simp] theorem State.postId_launches (s : State) (i : BitVec 20) (m : BitVec 128) : (s.postId i m).launches = s.launches := State.post_launches ..
@[simp] theorem State.postId_gangs (s : State) (i : BitVec 20) (m : BitVec 128) : (s.postId i m).gangs = s.gangs := State.post_gangs ..
@[simp] theorem State.postId_launchN (s : State) (i : BitVec 20) (m : BitVec 128) : (s.postId i m).launchN = s.launchN := State.post_launchN ..
@[simp] theorem State.postId_gangN (s : State) (i : BitVec 20) (m : BitVec 128) : (s.postId i m).gangN = s.gangN := State.post_gangN ..
@[simp] theorem State.postId_locs (s : State) (i : BitVec 20) (m : BitVec 128) : (s.postId i m).locs = s.locs := State.post_locs ..
@[simp] theorem State.postId_fields (s : State) (i : BitVec 20) (m : BitVec 128) : (s.postId i m).fields = s.fields := State.post_fields ..
@[simp] theorem State.postId_fast (s : State) (i : BitVec 20) (m : BitVec 128) : (s.postId i m).fast = s.fast := State.post_fast ..
@[simp] theorem State.postId_mdl (s : State) (i : BitVec 20) (m : BitVec 128) : (s.postId i m).mdl = s.mdl := State.post_mdl ..
@[simp] theorem State.postId_readback (s : State) (i : BitVec 20) (m : BitVec 128) : (s.postId i m).readback = s.readback := State.post_readback ..
@[simp] theorem State.postId_fibreRead (s : State) (i : BitVec 20) (m : BitVec 128) : (s.postId i m).fibreRead = s.fibreRead := State.post_fibreRead ..

/-- A double trap changes the context, and posts a notice (R109). -/
theorem State.doubleTrap_keeps {β : Type} (f : State → β) (hc : ∀ s g, f (State.onCpu s g) = f s) (hp : ∀ s i m, f (State.postId s i m) = f s)
    (s : State) (code : Nat) : f (s.doubleTrap code) = f s := by
  unfold State.doubleTrap
  extract_lets c
  rw [hp, hc]

/-- An exception changes the context, and may post a notice (R108, R109). -/
theorem State.takeTrap_keeps {β : Type} (f : State → β) (hc : ∀ s g, f (State.onCpu s g) = f s) (hp : ∀ s i m, f (State.postId s i m) = f s)
    (s : State) (t : Trap) : f (s.takeTrap t) = f s := by
  unfold State.takeTrap
  split
  · exact State.doubleTrap_keeps f hc hp s _
  · exact hc s _

@[simp] theorem State.takeTrap_core (s : State) (t : Trap) : (s.takeTrap t).core = s.core := State.takeTrap_keeps (·.core) (fun _ _ => rfl) (fun _ _ _ => State.postId_core ..) s t
@[simp] theorem State.takeTrap_cur (s : State) (t : Trap) : (s.takeTrap t).cur = s.cur := State.takeTrap_keeps (·.cur) (fun _ _ => rfl) (fun _ _ _ => State.postId_cur ..) s t
@[simp] theorem State.takeTrap_slot (s : State) (t : Trap) : (s.takeTrap t).slot = s.slot := State.takeTrap_keeps (·.slot) (fun _ _ => rfl) (fun _ _ _ => State.postId_slot ..) s t
@[simp] theorem State.takeTrap_ctxs (s : State) (t : Trap) : (s.takeTrap t).ctxs = s.ctxs := State.takeTrap_keeps (·.ctxs) (fun _ _ => rfl) (fun _ _ _ => State.postId_ctxs ..) s t
@[simp] theorem State.takeTrap_cores (s : State) (t : Trap) : (s.takeTrap t).cores = s.cores := State.takeTrap_keeps (·.cores) (fun _ _ => rfl) (fun _ _ _ => State.postId_cores ..) s t
@[simp] theorem State.takeTrap_mem (s : State) (t : Trap) : (s.takeTrap t).mem = s.mem := State.takeTrap_keeps (·.mem) (fun _ _ => rfl) (fun _ _ _ => State.postId_mem ..) s t
@[simp] theorem State.takeTrap_time (s : State) (t : Trap) : (s.takeTrap t).time = s.time := State.takeTrap_keeps (·.time) (fun _ _ => rfl) (fun _ _ _ => State.postId_time ..) s t
@[simp] theorem State.takeTrap_agenda (s : State) (t : Trap) : (s.takeTrap t).agenda = s.agenda := State.takeTrap_keeps (·.agenda) (fun _ _ => rfl) (fun _ _ _ => State.postId_agenda ..) s t
@[simp] theorem State.takeTrap_freeN (s : State) (t : Trap) : (s.takeTrap t).freeN = s.freeN := State.takeTrap_keeps (·.freeN) (fun _ _ => rfl) (fun _ _ _ => State.postId_freeN ..) s t
@[simp] theorem State.takeTrap_packetN (s : State) (t : Trap) : (s.takeTrap t).packetN = s.packetN := State.takeTrap_keeps (·.packetN) (fun _ _ => rfl) (fun _ _ _ => State.postId_packetN ..) s t
@[simp] theorem State.takeTrap_net (s : State) (t : Trap) : (s.takeTrap t).net = s.net := State.takeTrap_keeps (·.net) (fun _ _ => rfl) (fun _ _ _ => State.postId_net ..) s t
@[simp] theorem State.takeTrap_arrivals (s : State) (t : Trap) : (s.takeTrap t).arrivals = s.arrivals := State.takeTrap_keeps (·.arrivals) (fun _ _ => rfl) (fun _ _ _ => State.postId_arrivals ..) s t
@[simp] theorem State.takeTrap_creditsDue (s : State) (t : Trap) : (s.takeTrap t).creditsDue = s.creditsDue := State.takeTrap_keeps (·.creditsDue) (fun _ _ => rfl) (fun _ _ _ => State.postId_creditsDue ..) s t
@[simp] theorem State.takeTrap_msgs (s : State) (t : Trap) : (s.takeTrap t).msgs = s.msgs := State.takeTrap_keeps (·.msgs) (fun _ _ => rfl) (fun _ _ _ => State.postId_msgs ..) s t
@[simp] theorem State.takeTrap_allowDue (s : State) (t : Trap) : (s.takeTrap t).allowDue = s.allowDue := State.takeTrap_keeps (·.allowDue) (fun _ _ => rfl) (fun _ _ _ => State.postId_allowDue ..) s t
@[simp] theorem State.takeTrap_remotes (s : State) (t : Trap) : (s.takeTrap t).remotes = s.remotes := State.takeTrap_keeps (·.remotes) (fun _ _ => rfl) (fun _ _ _ => State.postId_remotes ..) s t
@[simp] theorem State.takeTrap_requests (s : State) (t : Trap) : (s.takeTrap t).requests = s.requests := State.takeTrap_keeps (·.requests) (fun _ _ => rfl) (fun _ _ _ => State.postId_requests ..) s t
@[simp] theorem State.takeTrap_owned (s : State) (t : Trap) : (s.takeTrap t).owned = s.owned := State.takeTrap_keeps (·.owned) (fun _ _ => rfl) (fun _ _ _ => State.postId_owned ..) s t
@[simp] theorem State.takeTrap_mcast (s : State) (t : Trap) : (s.takeTrap t).mcast = s.mcast := State.takeTrap_keeps (·.mcast) (fun _ _ => rfl) (fun _ _ _ => State.postId_mcast ..) s t
@[simp] theorem State.takeTrap_policy (s : State) (t : Trap) : (s.takeTrap t).policy = s.policy := State.takeTrap_keeps (·.policy) (fun _ _ => rfl) (fun _ _ _ => State.postId_policy ..) s t
@[simp] theorem State.takeTrap_oldTag (s : State) (t : Trap) : (s.takeTrap t).oldTag = s.oldTag := State.takeTrap_keeps (·.oldTag) (fun _ _ => rfl) (fun _ _ _ => State.postId_oldTag ..) s t
@[simp] theorem State.takeTrap_frmap (s : State) (t : Trap) : (s.takeTrap t).frmap = s.frmap := State.takeTrap_keeps (·.frmap) (fun _ _ => rfl) (fun _ _ _ => State.postId_frmap ..) s t
@[simp] theorem State.takeTrap_pageDir (s : State) (t : Trap) : (s.takeTrap t).pageDir = s.pageDir := State.takeTrap_keeps (·.pageDir) (fun _ _ => rfl) (fun _ _ _ => State.postId_pageDir ..) s t
@[simp] theorem State.takeTrap_guests (s : State) (t : Trap) : (s.takeTrap t).guests = s.guests := State.takeTrap_keeps (·.guests) (fun _ _ => rfl) (fun _ _ _ => State.postId_guests ..) s t
@[simp] theorem State.takeTrap_leaving (s : State) (t : Trap) : (s.takeTrap t).leaving = s.leaving := State.takeTrap_keeps (·.leaving) (fun _ _ => rfl) (fun _ _ _ => State.postId_leaving ..) s t
@[simp] theorem State.takeTrap_swm (s : State) (t : Trap) : (s.takeTrap t).swm = s.swm := State.takeTrap_keeps (·.swm) (fun _ _ => rfl) (fun _ _ _ => State.postId_swm ..) s t
@[simp] theorem State.takeTrap_qlines (s : State) (t : Trap) : (s.takeTrap t).qlines = s.qlines := State.takeTrap_keeps (·.qlines) (fun _ _ => rfl) (fun _ _ _ => State.postId_qlines ..) s t
@[simp] theorem State.takeTrap_wmk (s : State) (t : Trap) : (s.takeTrap t).wmk = s.wmk := State.takeTrap_keeps (·.wmk) (fun _ _ => rfl) (fun _ _ _ => State.postId_wmk ..) s t
@[simp] theorem State.takeTrap_pins (s : State) (t : Trap) : (s.takeTrap t).pins = s.pins := State.takeTrap_keeps (·.pins) (fun _ _ => rfl) (fun _ _ _ => State.postId_pins ..) s t
@[simp] theorem State.takeTrap_dirs (s : State) (t : Trap) : (s.takeTrap t).dirs = s.dirs := State.takeTrap_keeps (·.dirs) (fun _ _ => rfl) (fun _ _ _ => State.postId_dirs ..) s t
@[simp] theorem State.takeTrap_wcc (s : State) (t : Trap) : (s.takeTrap t).wcc = s.wcc := State.takeTrap_keeps (·.wcc) (fun _ _ => rfl) (fun _ _ _ => State.postId_wcc ..) s t
@[simp] theorem State.takeTrap_walks (s : State) (t : Trap) : (s.takeTrap t).walks = s.walks := State.takeTrap_keeps (·.walks) (fun _ _ => rfl) (fun _ _ _ => State.postId_walks ..) s t
@[simp] theorem State.takeTrap_ctlb (s : State) (t : Trap) : (s.takeTrap t).ctlb = s.ctlb := State.takeTrap_keeps (·.ctlb) (fun _ _ => rfl) (fun _ _ _ => State.postId_ctlb ..) s t
@[simp] theorem State.takeTrap_blocked (s : State) (t : Trap) : (s.takeTrap t).blocked = s.blocked := State.takeTrap_keeps (·.blocked) (fun _ _ => rfl) (fun _ _ _ => State.postId_blocked ..) s t
@[simp] theorem State.takeTrap_guestb (s : State) (t : Trap) : (s.takeTrap t).guestb = s.guestb := State.takeTrap_keeps (·.guestb) (fun _ _ => rfl) (fun _ _ _ => State.postId_guestb ..) s t
@[simp] theorem State.takeTrap_frame (s : State) (t : Trap) : (s.takeTrap t).frame = s.frame := State.takeTrap_keeps (·.frame) (fun _ _ => rfl) (fun _ _ _ => State.postId_frame ..) s t
@[simp] theorem State.takeTrap_tenants (s : State) (t : Trap) : (s.takeTrap t).tenants = s.tenants := State.takeTrap_keeps (·.tenants) (fun _ _ => rfl) (fun _ _ _ => State.postId_tenants ..) s t
@[simp] theorem State.takeTrap_launches (s : State) (t : Trap) : (s.takeTrap t).launches = s.launches := State.takeTrap_keeps (·.launches) (fun _ _ => rfl) (fun _ _ _ => State.postId_launches ..) s t
@[simp] theorem State.takeTrap_gangs (s : State) (t : Trap) : (s.takeTrap t).gangs = s.gangs := State.takeTrap_keeps (·.gangs) (fun _ _ => rfl) (fun _ _ _ => State.postId_gangs ..) s t
@[simp] theorem State.takeTrap_launchN (s : State) (t : Trap) : (s.takeTrap t).launchN = s.launchN := State.takeTrap_keeps (·.launchN) (fun _ _ => rfl) (fun _ _ _ => State.postId_launchN ..) s t
@[simp] theorem State.takeTrap_gangN (s : State) (t : Trap) : (s.takeTrap t).gangN = s.gangN := State.takeTrap_keeps (·.gangN) (fun _ _ => rfl) (fun _ _ _ => State.postId_gangN ..) s t
@[simp] theorem State.takeTrap_locs (s : State) (t : Trap) : (s.takeTrap t).locs = s.locs := State.takeTrap_keeps (·.locs) (fun _ _ => rfl) (fun _ _ _ => State.postId_locs ..) s t
@[simp] theorem State.takeTrap_fields (s : State) (t : Trap) : (s.takeTrap t).fields = s.fields := State.takeTrap_keeps (·.fields) (fun _ _ => rfl) (fun _ _ _ => State.postId_fields ..) s t
@[simp] theorem State.takeTrap_fast (s : State) (t : Trap) : (s.takeTrap t).fast = s.fast := State.takeTrap_keeps (·.fast) (fun _ _ => rfl) (fun _ _ _ => State.postId_fast ..) s t
@[simp] theorem State.takeTrap_mdl (s : State) (t : Trap) : (s.takeTrap t).mdl = s.mdl := State.takeTrap_keeps (·.mdl) (fun _ _ => rfl) (fun _ _ _ => State.postId_mdl ..) s t
@[simp] theorem State.takeTrap_readback (s : State) (t : Trap) : (s.takeTrap t).readback = s.readback := State.takeTrap_keeps (·.readback) (fun _ _ => rfl) (fun _ _ _ => State.postId_readback ..) s t
@[simp] theorem State.takeTrap_fibreRead (s : State) (t : Trap) : (s.takeTrap t).fibreRead = s.fibreRead := State.takeTrap_keeps (·.fibreRead) (fun _ _ => rfl) (fun _ _ _ => State.postId_fibreRead ..) s t

@[simp] theorem State.queueUp_core (s : State) (w : Wait) : (s.queueUp w).core = s.core := by
  unfold State.queueUp; split <;> rfl
@[simp] theorem State.queueUp_cur (s : State) (w : Wait) : (s.queueUp w).cur = s.cur := by
  unfold State.queueUp; split <;> rfl
@[simp] theorem State.queueUp_slot (s : State) (w : Wait) : (s.queueUp w).slot = s.slot := by
  unfold State.queueUp; split <;> rfl
@[simp] theorem State.queueUp_ctxs (s : State) (w : Wait) : (s.queueUp w).ctxs = s.ctxs := by
  unfold State.queueUp; split <;> rfl
@[simp] theorem State.queueUp_cores (s : State) (w : Wait) : (s.queueUp w).cores = s.cores := by
  unfold State.queueUp; split <;> rfl
@[simp] theorem State.queueUp_mem (s : State) (w : Wait) : (s.queueUp w).mem = s.mem := by
  unfold State.queueUp; split <;> rfl
@[simp] theorem State.queueUp_time (s : State) (w : Wait) : (s.queueUp w).time = s.time := by
  unfold State.queueUp; split <;> rfl
@[simp] theorem State.queueUp_agenda (s : State) (w : Wait) : (s.queueUp w).agenda = s.agenda := by
  unfold State.queueUp; split <;> rfl
@[simp] theorem State.queueUp_freeN (s : State) (w : Wait) : (s.queueUp w).freeN = s.freeN := by
  unfold State.queueUp; split <;> rfl
@[simp] theorem State.queueUp_net (s : State) (w : Wait) : (s.queueUp w).net = s.net := by
  unfold State.queueUp; split <;> rfl
@[simp] theorem State.queueUp_arrivals (s : State) (w : Wait) : (s.queueUp w).arrivals = s.arrivals := by
  unfold State.queueUp; split <;> rfl
@[simp] theorem State.queueUp_creditsDue (s : State) (w : Wait) : (s.queueUp w).creditsDue = s.creditsDue := by
  unfold State.queueUp; split <;> rfl
@[simp] theorem State.queueUp_msgs (s : State) (w : Wait) : (s.queueUp w).msgs = s.msgs := by
  unfold State.queueUp; split <;> rfl
@[simp] theorem State.queueUp_allowDue (s : State) (w : Wait) : (s.queueUp w).allowDue = s.allowDue := by
  unfold State.queueUp; split <;> rfl
@[simp] theorem State.queueUp_remotes (s : State) (w : Wait) : (s.queueUp w).remotes = s.remotes := by
  unfold State.queueUp; split <;> rfl
@[simp] theorem State.queueUp_posts (s : State) (w : Wait) : (s.queueUp w).posts = s.posts := by
  unfold State.queueUp; split <;> rfl
@[simp] theorem State.queueUp_owed (s : State) (w : Wait) : (s.queueUp w).owed = s.owed := by
  unfold State.queueUp; split <;> rfl
@[simp] theorem State.queueUp_requests (s : State) (w : Wait) : (s.queueUp w).requests = s.requests := by
  unfold State.queueUp; split <;> rfl
@[simp] theorem State.queueUp_owned (s : State) (w : Wait) : (s.queueUp w).owned = s.owned := by
  unfold State.queueUp; split <;> rfl
@[simp] theorem State.queueUp_mcast (s : State) (w : Wait) : (s.queueUp w).mcast = s.mcast := by
  unfold State.queueUp; split <;> rfl
@[simp] theorem State.queueUp_policy (s : State) (w : Wait) : (s.queueUp w).policy = s.policy := by
  unfold State.queueUp; split <;> rfl
@[simp] theorem State.queueUp_oldTag (s : State) (w : Wait) : (s.queueUp w).oldTag = s.oldTag := by
  unfold State.queueUp; split <;> rfl
@[simp] theorem State.queueUp_frmap (s : State) (w : Wait) : (s.queueUp w).frmap = s.frmap := by
  unfold State.queueUp; split <;> rfl
@[simp] theorem State.queueUp_pageDir (s : State) (w : Wait) : (s.queueUp w).pageDir = s.pageDir := by
  unfold State.queueUp; split <;> rfl
@[simp] theorem State.queueUp_guests (s : State) (w : Wait) : (s.queueUp w).guests = s.guests := by
  unfold State.queueUp; split <;> rfl
@[simp] theorem State.queueUp_leaving (s : State) (w : Wait) : (s.queueUp w).leaving = s.leaving := by
  unfold State.queueUp; split <;> rfl
@[simp] theorem State.queueUp_swm (s : State) (w : Wait) : (s.queueUp w).swm = s.swm := by
  unfold State.queueUp; split <;> rfl
@[simp] theorem State.queueUp_qlines (s : State) (w : Wait) : (s.queueUp w).qlines = s.qlines := by
  unfold State.queueUp; split <;> rfl
@[simp] theorem State.queueUp_wmk (s : State) (w : Wait) : (s.queueUp w).wmk = s.wmk := by
  unfold State.queueUp; split <;> rfl
@[simp] theorem State.queueUp_pins (s : State) (w : Wait) : (s.queueUp w).pins = s.pins := by
  unfold State.queueUp; split <;> rfl
@[simp] theorem State.queueUp_dirs (s : State) (w : Wait) : (s.queueUp w).dirs = s.dirs := by
  unfold State.queueUp; split <;> rfl
@[simp] theorem State.queueUp_wcc (s : State) (w : Wait) : (s.queueUp w).wcc = s.wcc := by
  unfold State.queueUp; split <;> rfl
@[simp] theorem State.queueUp_walks (s : State) (w : Wait) : (s.queueUp w).walks = s.walks := by
  unfold State.queueUp; split <;> rfl
@[simp] theorem State.queueUp_ctlb (s : State) (w : Wait) : (s.queueUp w).ctlb = s.ctlb := by
  unfold State.queueUp; split <;> rfl
@[simp] theorem State.queueUp_blocked (s : State) (w : Wait) : (s.queueUp w).blocked = s.blocked := by
  unfold State.queueUp; split <;> rfl
@[simp] theorem State.queueUp_guestb (s : State) (w : Wait) : (s.queueUp w).guestb = s.guestb := by
  unfold State.queueUp; split <;> rfl
@[simp] theorem State.queueUp_frame (s : State) (w : Wait) : (s.queueUp w).frame = s.frame := by
  unfold State.queueUp; split <;> rfl
@[simp] theorem State.queueUp_tenants (s : State) (w : Wait) : (s.queueUp w).tenants = s.tenants := by
  unfold State.queueUp; split <;> rfl
@[simp] theorem State.queueUp_launches (s : State) (w : Wait) : (s.queueUp w).launches = s.launches := by
  unfold State.queueUp; split <;> rfl
@[simp] theorem State.queueUp_gangs (s : State) (w : Wait) : (s.queueUp w).gangs = s.gangs := by
  unfold State.queueUp; split <;> rfl
@[simp] theorem State.queueUp_launchN (s : State) (w : Wait) : (s.queueUp w).launchN = s.launchN := by
  unfold State.queueUp; split <;> rfl
@[simp] theorem State.queueUp_gangN (s : State) (w : Wait) : (s.queueUp w).gangN = s.gangN := by
  unfold State.queueUp; split <;> rfl
@[simp] theorem State.queueUp_locs (s : State) (w : Wait) : (s.queueUp w).locs = s.locs := by
  unfold State.queueUp; split <;> rfl
@[simp] theorem State.queueUp_fields (s : State) (w : Wait) : (s.queueUp w).fields = s.fields := by
  unfold State.queueUp; split <;> rfl
@[simp] theorem State.queueUp_fast (s : State) (w : Wait) : (s.queueUp w).fast = s.fast := by
  unfold State.queueUp; split <;> rfl
@[simp] theorem State.queueUp_mdl (s : State) (w : Wait) : (s.queueUp w).mdl = s.mdl := by
  unfold State.queueUp; split <;> rfl
@[simp] theorem State.queueUp_readback (s : State) (w : Wait) : (s.queueUp w).readback = s.readback := by
  unfold State.queueUp; split <;> rfl
@[simp] theorem State.queueUp_fibreRead (s : State) (w : Wait) : (s.queueUp w).fibreRead = s.fibreRead := by
  unfold State.queueUp; split <;> rfl

@[simp] theorem State.parkOn_core (s : State) (w : Wait) : (s.parkOn w).core = s.core := State.queueUp_core ..
@[simp] theorem State.parkOn_cur (s : State) (w : Wait) : (s.parkOn w).cur = s.cur := State.queueUp_cur ..
@[simp] theorem State.parkOn_slot (s : State) (w : Wait) : (s.parkOn w).slot = s.slot := State.queueUp_slot ..
@[simp] theorem State.parkOn_ctxs (s : State) (w : Wait) : (s.parkOn w).ctxs = s.ctxs := State.queueUp_ctxs ..
@[simp] theorem State.parkOn_cores (s : State) (w : Wait) : (s.parkOn w).cores = s.cores := State.queueUp_cores ..
@[simp] theorem State.parkOn_mem (s : State) (w : Wait) : (s.parkOn w).mem = s.mem := State.queueUp_mem ..
@[simp] theorem State.parkOn_time (s : State) (w : Wait) : (s.parkOn w).time = s.time := State.queueUp_time ..
@[simp] theorem State.parkOn_agenda (s : State) (w : Wait) : (s.parkOn w).agenda = s.agenda := State.queueUp_agenda ..
@[simp] theorem State.parkOn_freeN (s : State) (w : Wait) : (s.parkOn w).freeN = s.freeN := State.queueUp_freeN ..
@[simp] theorem State.parkOn_net (s : State) (w : Wait) : (s.parkOn w).net = s.net := State.queueUp_net ..
@[simp] theorem State.parkOn_arrivals (s : State) (w : Wait) : (s.parkOn w).arrivals = s.arrivals := State.queueUp_arrivals ..
@[simp] theorem State.parkOn_creditsDue (s : State) (w : Wait) : (s.parkOn w).creditsDue = s.creditsDue := State.queueUp_creditsDue ..
@[simp] theorem State.parkOn_msgs (s : State) (w : Wait) : (s.parkOn w).msgs = s.msgs := State.queueUp_msgs ..
@[simp] theorem State.parkOn_allowDue (s : State) (w : Wait) : (s.parkOn w).allowDue = s.allowDue := State.queueUp_allowDue ..
@[simp] theorem State.parkOn_remotes (s : State) (w : Wait) : (s.parkOn w).remotes = s.remotes := State.queueUp_remotes ..
@[simp] theorem State.parkOn_posts (s : State) (w : Wait) : (s.parkOn w).posts = s.posts := State.queueUp_posts ..
@[simp] theorem State.parkOn_owed (s : State) (w : Wait) : (s.parkOn w).owed = s.owed := State.queueUp_owed ..
@[simp] theorem State.parkOn_requests (s : State) (w : Wait) : (s.parkOn w).requests = s.requests := State.queueUp_requests ..
@[simp] theorem State.parkOn_owned (s : State) (w : Wait) : (s.parkOn w).owned = s.owned := State.queueUp_owned ..
@[simp] theorem State.parkOn_mcast (s : State) (w : Wait) : (s.parkOn w).mcast = s.mcast := State.queueUp_mcast ..
@[simp] theorem State.parkOn_policy (s : State) (w : Wait) : (s.parkOn w).policy = s.policy := State.queueUp_policy ..
@[simp] theorem State.parkOn_oldTag (s : State) (w : Wait) : (s.parkOn w).oldTag = s.oldTag := State.queueUp_oldTag ..
@[simp] theorem State.parkOn_frmap (s : State) (w : Wait) : (s.parkOn w).frmap = s.frmap := State.queueUp_frmap ..
@[simp] theorem State.parkOn_pageDir (s : State) (w : Wait) : (s.parkOn w).pageDir = s.pageDir := State.queueUp_pageDir ..
@[simp] theorem State.parkOn_guests (s : State) (w : Wait) : (s.parkOn w).guests = s.guests := State.queueUp_guests ..
@[simp] theorem State.parkOn_leaving (s : State) (w : Wait) : (s.parkOn w).leaving = s.leaving := State.queueUp_leaving ..
@[simp] theorem State.parkOn_swm (s : State) (w : Wait) : (s.parkOn w).swm = s.swm := State.queueUp_swm ..
@[simp] theorem State.parkOn_qlines (s : State) (w : Wait) : (s.parkOn w).qlines = s.qlines := State.queueUp_qlines ..
@[simp] theorem State.parkOn_wmk (s : State) (w : Wait) : (s.parkOn w).wmk = s.wmk := State.queueUp_wmk ..
@[simp] theorem State.parkOn_pins (s : State) (w : Wait) : (s.parkOn w).pins = s.pins := State.queueUp_pins ..
@[simp] theorem State.parkOn_dirs (s : State) (w : Wait) : (s.parkOn w).dirs = s.dirs := State.queueUp_dirs ..
@[simp] theorem State.parkOn_wcc (s : State) (w : Wait) : (s.parkOn w).wcc = s.wcc := State.queueUp_wcc ..
@[simp] theorem State.parkOn_walks (s : State) (w : Wait) : (s.parkOn w).walks = s.walks := State.queueUp_walks ..
@[simp] theorem State.parkOn_ctlb (s : State) (w : Wait) : (s.parkOn w).ctlb = s.ctlb := State.queueUp_ctlb ..
@[simp] theorem State.parkOn_blocked (s : State) (w : Wait) : (s.parkOn w).blocked = s.blocked := State.queueUp_blocked ..
@[simp] theorem State.parkOn_guestb (s : State) (w : Wait) : (s.parkOn w).guestb = s.guestb := State.queueUp_guestb ..
@[simp] theorem State.parkOn_frame (s : State) (w : Wait) : (s.parkOn w).frame = s.frame := State.queueUp_frame ..
@[simp] theorem State.parkOn_tenants (s : State) (w : Wait) : (s.parkOn w).tenants = s.tenants := State.queueUp_tenants ..
@[simp] theorem State.parkOn_launches (s : State) (w : Wait) : (s.parkOn w).launches = s.launches := State.queueUp_launches ..
@[simp] theorem State.parkOn_gangs (s : State) (w : Wait) : (s.parkOn w).gangs = s.gangs := State.queueUp_gangs ..
@[simp] theorem State.parkOn_launchN (s : State) (w : Wait) : (s.parkOn w).launchN = s.launchN := State.queueUp_launchN ..
@[simp] theorem State.parkOn_gangN (s : State) (w : Wait) : (s.parkOn w).gangN = s.gangN := State.queueUp_gangN ..
@[simp] theorem State.parkOn_locs (s : State) (w : Wait) : (s.parkOn w).locs = s.locs := State.queueUp_locs ..
@[simp] theorem State.parkOn_fields (s : State) (w : Wait) : (s.parkOn w).fields = s.fields := State.queueUp_fields ..
@[simp] theorem State.parkOn_fast (s : State) (w : Wait) : (s.parkOn w).fast = s.fast := State.queueUp_fast ..
@[simp] theorem State.parkOn_mdl (s : State) (w : Wait) : (s.parkOn w).mdl = s.mdl := State.queueUp_mdl ..
@[simp] theorem State.parkOn_readback (s : State) (w : Wait) : (s.parkOn w).readback = s.readback := State.queueUp_readback ..
@[simp] theorem State.parkOn_fibreRead (s : State) (w : Wait) : (s.parkOn w).fibreRead = s.fibreRead := State.queueUp_fibreRead ..

@[simp] theorem State.awaitWalk_core (s : State) (va : Nat) (p : Bool) : (s.awaitWalk va p).core = s.core := by
  simp only [State.awaitWalk, State.askWalk]; split <;> rfl
@[simp] theorem State.awaitWalk_cur (s : State) (va : Nat) (p : Bool) : (s.awaitWalk va p).cur = s.cur := by
  simp only [State.awaitWalk, State.askWalk]; split <;> rfl
@[simp] theorem State.awaitWalk_slot (s : State) (va : Nat) (p : Bool) : (s.awaitWalk va p).slot = s.slot := by
  simp only [State.awaitWalk, State.askWalk]; split <;> rfl
@[simp] theorem State.awaitWalk_ctxs (s : State) (va : Nat) (p : Bool) : (s.awaitWalk va p).ctxs = s.ctxs := by
  simp only [State.awaitWalk, State.askWalk]; split <;> rfl
@[simp] theorem State.awaitWalk_cores (s : State) (va : Nat) (p : Bool) : (s.awaitWalk va p).cores = s.cores := by
  simp only [State.awaitWalk, State.askWalk]; split <;> rfl
@[simp] theorem State.awaitWalk_mem (s : State) (va : Nat) (p : Bool) : (s.awaitWalk va p).mem = s.mem := by
  simp only [State.awaitWalk, State.askWalk]; split <;> rfl
@[simp] theorem State.awaitWalk_time (s : State) (va : Nat) (p : Bool) : (s.awaitWalk va p).time = s.time := by
  simp only [State.awaitWalk, State.askWalk]; split <;> rfl
@[simp] theorem State.awaitWalk_agenda (s : State) (va : Nat) (p : Bool) : (s.awaitWalk va p).agenda = s.agenda := by
  simp only [State.awaitWalk, State.askWalk]; split <;> rfl
@[simp] theorem State.awaitWalk_freeN (s : State) (va : Nat) (p : Bool) : (s.awaitWalk va p).freeN = s.freeN := by
  simp only [State.awaitWalk, State.askWalk]; split <;> rfl
@[simp] theorem State.awaitWalk_packetN (s : State) (va : Nat) (p : Bool) : (s.awaitWalk va p).packetN = s.packetN := by
  simp only [State.awaitWalk, State.askWalk]; split <;> rfl
@[simp] theorem State.awaitWalk_net (s : State) (va : Nat) (p : Bool) : (s.awaitWalk va p).net = s.net := by
  simp only [State.awaitWalk, State.askWalk]; split <;> rfl
@[simp] theorem State.awaitWalk_arrivals (s : State) (va : Nat) (p : Bool) : (s.awaitWalk va p).arrivals = s.arrivals := by
  simp only [State.awaitWalk, State.askWalk]; split <;> rfl
@[simp] theorem State.awaitWalk_creditsDue (s : State) (va : Nat) (p : Bool) : (s.awaitWalk va p).creditsDue = s.creditsDue := by
  simp only [State.awaitWalk, State.askWalk]; split <;> rfl
@[simp] theorem State.awaitWalk_msgs (s : State) (va : Nat) (p : Bool) : (s.awaitWalk va p).msgs = s.msgs := by
  simp only [State.awaitWalk, State.askWalk]; split <;> rfl
@[simp] theorem State.awaitWalk_allowDue (s : State) (va : Nat) (p : Bool) : (s.awaitWalk va p).allowDue = s.allowDue := by
  simp only [State.awaitWalk, State.askWalk]; split <;> rfl
@[simp] theorem State.awaitWalk_remotes (s : State) (va : Nat) (p : Bool) : (s.awaitWalk va p).remotes = s.remotes := by
  simp only [State.awaitWalk, State.askWalk]; split <;> rfl
@[simp] theorem State.awaitWalk_posts (s : State) (va : Nat) (p : Bool) : (s.awaitWalk va p).posts = s.posts := by
  simp only [State.awaitWalk, State.askWalk]; split <;> rfl
@[simp] theorem State.awaitWalk_owed (s : State) (va : Nat) (p : Bool) : (s.awaitWalk va p).owed = s.owed := by
  simp only [State.awaitWalk, State.askWalk]; split <;> rfl
@[simp] theorem State.awaitWalk_requests (s : State) (va : Nat) (p : Bool) : (s.awaitWalk va p).requests = s.requests := by
  simp only [State.awaitWalk, State.askWalk]; split <;> rfl
@[simp] theorem State.awaitWalk_owned (s : State) (va : Nat) (p : Bool) : (s.awaitWalk va p).owned = s.owned := by
  simp only [State.awaitWalk, State.askWalk]; split <;> rfl
@[simp] theorem State.awaitWalk_mcast (s : State) (va : Nat) (p : Bool) : (s.awaitWalk va p).mcast = s.mcast := by
  simp only [State.awaitWalk, State.askWalk]; split <;> rfl
@[simp] theorem State.awaitWalk_policy (s : State) (va : Nat) (p : Bool) : (s.awaitWalk va p).policy = s.policy := by
  simp only [State.awaitWalk, State.askWalk]; split <;> rfl
@[simp] theorem State.awaitWalk_oldTag (s : State) (va : Nat) (p : Bool) : (s.awaitWalk va p).oldTag = s.oldTag := by
  simp only [State.awaitWalk, State.askWalk]; split <;> rfl
@[simp] theorem State.awaitWalk_frmap (s : State) (va : Nat) (p : Bool) : (s.awaitWalk va p).frmap = s.frmap := by
  simp only [State.awaitWalk, State.askWalk]; split <;> rfl
@[simp] theorem State.awaitWalk_pageDir (s : State) (va : Nat) (p : Bool) : (s.awaitWalk va p).pageDir = s.pageDir := by
  simp only [State.awaitWalk, State.askWalk]; split <;> rfl
@[simp] theorem State.awaitWalk_guests (s : State) (va : Nat) (p : Bool) : (s.awaitWalk va p).guests = s.guests := by
  simp only [State.awaitWalk, State.askWalk]; split <;> rfl
@[simp] theorem State.awaitWalk_leaving (s : State) (va : Nat) (p : Bool) : (s.awaitWalk va p).leaving = s.leaving := by
  simp only [State.awaitWalk, State.askWalk]; split <;> rfl
@[simp] theorem State.awaitWalk_swm (s : State) (va : Nat) (p : Bool) : (s.awaitWalk va p).swm = s.swm := by
  simp only [State.awaitWalk, State.askWalk]; split <;> rfl
@[simp] theorem State.awaitWalk_qlines (s : State) (va : Nat) (p : Bool) : (s.awaitWalk va p).qlines = s.qlines := by
  simp only [State.awaitWalk, State.askWalk]; split <;> rfl
@[simp] theorem State.awaitWalk_wmk (s : State) (va : Nat) (p : Bool) : (s.awaitWalk va p).wmk = s.wmk := by
  simp only [State.awaitWalk, State.askWalk]; split <;> rfl
@[simp] theorem State.awaitWalk_pins (s : State) (va : Nat) (p : Bool) : (s.awaitWalk va p).pins = s.pins := by
  simp only [State.awaitWalk, State.askWalk]; split <;> rfl
@[simp] theorem State.awaitWalk_dirs (s : State) (va : Nat) (p : Bool) : (s.awaitWalk va p).dirs = s.dirs := by
  simp only [State.awaitWalk, State.askWalk]; split <;> rfl
@[simp] theorem State.awaitWalk_wcc (s : State) (va : Nat) (p : Bool) : (s.awaitWalk va p).wcc = s.wcc := by
  simp only [State.awaitWalk, State.askWalk]; split <;> rfl
@[simp] theorem State.awaitWalk_ctlb (s : State) (va : Nat) (p : Bool) : (s.awaitWalk va p).ctlb = s.ctlb := by
  simp only [State.awaitWalk, State.askWalk]; split <;> rfl
@[simp] theorem State.awaitWalk_blocked (s : State) (va : Nat) (p : Bool) : (s.awaitWalk va p).blocked = s.blocked := by
  simp only [State.awaitWalk, State.askWalk]; split <;> rfl
@[simp] theorem State.awaitWalk_guestb (s : State) (va : Nat) (p : Bool) : (s.awaitWalk va p).guestb = s.guestb := by
  simp only [State.awaitWalk, State.askWalk]; split <;> rfl
@[simp] theorem State.awaitWalk_frame (s : State) (va : Nat) (p : Bool) : (s.awaitWalk va p).frame = s.frame := by
  simp only [State.awaitWalk, State.askWalk]; split <;> rfl
@[simp] theorem State.awaitWalk_tenants (s : State) (va : Nat) (p : Bool) : (s.awaitWalk va p).tenants = s.tenants := by
  simp only [State.awaitWalk, State.askWalk]; split <;> rfl
@[simp] theorem State.awaitWalk_launches (s : State) (va : Nat) (p : Bool) : (s.awaitWalk va p).launches = s.launches := by
  simp only [State.awaitWalk, State.askWalk]; split <;> rfl
@[simp] theorem State.awaitWalk_gangs (s : State) (va : Nat) (p : Bool) : (s.awaitWalk va p).gangs = s.gangs := by
  simp only [State.awaitWalk, State.askWalk]; split <;> rfl
@[simp] theorem State.awaitWalk_launchN (s : State) (va : Nat) (p : Bool) : (s.awaitWalk va p).launchN = s.launchN := by
  simp only [State.awaitWalk, State.askWalk]; split <;> rfl
@[simp] theorem State.awaitWalk_gangN (s : State) (va : Nat) (p : Bool) : (s.awaitWalk va p).gangN = s.gangN := by
  simp only [State.awaitWalk, State.askWalk]; split <;> rfl
@[simp] theorem State.awaitWalk_locs (s : State) (va : Nat) (p : Bool) : (s.awaitWalk va p).locs = s.locs := by
  simp only [State.awaitWalk, State.askWalk]; split <;> rfl
@[simp] theorem State.awaitWalk_fields (s : State) (va : Nat) (p : Bool) : (s.awaitWalk va p).fields = s.fields := by
  simp only [State.awaitWalk, State.askWalk]; split <;> rfl
@[simp] theorem State.awaitWalk_fast (s : State) (va : Nat) (p : Bool) : (s.awaitWalk va p).fast = s.fast := by
  simp only [State.awaitWalk, State.askWalk]; split <;> rfl
@[simp] theorem State.awaitWalk_mdl (s : State) (va : Nat) (p : Bool) : (s.awaitWalk va p).mdl = s.mdl := by
  simp only [State.awaitWalk, State.askWalk]; split <;> rfl
@[simp] theorem State.awaitWalk_readback (s : State) (va : Nat) (p : Bool) : (s.awaitWalk va p).readback = s.readback := by
  simp only [State.awaitWalk, State.askWalk]; split <;> rfl
@[simp] theorem State.awaitWalk_fibreRead (s : State) (va : Nat) (p : Bool) : (s.awaitWalk va p).fibreRead = s.fibreRead := by
  simp only [State.awaitWalk, State.askWalk]; split <;> rfl

@[simp] theorem State.release_core (s : State) (k : Nat) (ar : Bool) : (s.release k ar).core = s.core := by
  simp only [State.release]; split
  · rfl
  · split <;> rfl
@[simp] theorem State.release_cur (s : State) (k : Nat) (ar : Bool) : (s.release k ar).cur = s.cur := by
  simp only [State.release]; split
  · rfl
  · split <;> rfl
@[simp] theorem State.release_slot (s : State) (k : Nat) (ar : Bool) : (s.release k ar).slot = s.slot := by
  simp only [State.release]; split
  · rfl
  · split <;> rfl
@[simp] theorem State.release_ctxs (s : State) (k : Nat) (ar : Bool) : (s.release k ar).ctxs = s.ctxs := by
  simp only [State.release]; split
  · rfl
  · split <;> rfl
@[simp] theorem State.release_cores (s : State) (k : Nat) (ar : Bool) : (s.release k ar).cores = s.cores := by
  simp only [State.release]; split
  · rfl
  · split <;> rfl
@[simp] theorem State.release_mem (s : State) (k : Nat) (ar : Bool) : (s.release k ar).mem = s.mem := by
  simp only [State.release]; split
  · rfl
  · split <;> rfl
@[simp] theorem State.release_time (s : State) (k : Nat) (ar : Bool) : (s.release k ar).time = s.time := by
  simp only [State.release]; split
  · rfl
  · split <;> rfl
@[simp] theorem State.release_agenda (s : State) (k : Nat) (ar : Bool) : (s.release k ar).agenda = s.agenda := by
  simp only [State.release]; split
  · rfl
  · split <;> rfl
@[simp] theorem State.release_freeN (s : State) (k : Nat) (ar : Bool) : (s.release k ar).freeN = s.freeN := by
  simp only [State.release]; split
  · rfl
  · split <;> rfl
@[simp] theorem State.release_packetN (s : State) (k : Nat) (ar : Bool) : (s.release k ar).packetN = s.packetN := by
  simp only [State.release]; split
  · rfl
  · split <;> rfl
@[simp] theorem State.release_net (s : State) (k : Nat) (ar : Bool) : (s.release k ar).net = s.net := by
  simp only [State.release]; split
  · rfl
  · split <;> rfl
@[simp] theorem State.release_arrivals (s : State) (k : Nat) (ar : Bool) : (s.release k ar).arrivals = s.arrivals := by
  simp only [State.release]; split
  · rfl
  · split <;> rfl
@[simp] theorem State.release_creditsDue (s : State) (k : Nat) (ar : Bool) : (s.release k ar).creditsDue = s.creditsDue := by
  simp only [State.release]; split
  · rfl
  · split <;> rfl
@[simp] theorem State.release_msgs (s : State) (k : Nat) (ar : Bool) : (s.release k ar).msgs = s.msgs := by
  simp only [State.release]; split
  · rfl
  · split <;> rfl
@[simp] theorem State.release_allowDue (s : State) (k : Nat) (ar : Bool) : (s.release k ar).allowDue = s.allowDue := by
  simp only [State.release]; split
  · rfl
  · split <;> rfl
@[simp] theorem State.release_remotes (s : State) (k : Nat) (ar : Bool) : (s.release k ar).remotes = s.remotes := by
  simp only [State.release]; split
  · rfl
  · split <;> rfl
@[simp] theorem State.release_posts (s : State) (k : Nat) (ar : Bool) : (s.release k ar).posts = s.posts := by
  simp only [State.release]; split
  · rfl
  · split <;> rfl
@[simp] theorem State.release_owed (s : State) (k : Nat) (ar : Bool) : (s.release k ar).owed = s.owed := by
  simp only [State.release]; split
  · rfl
  · split <;> rfl
@[simp] theorem State.release_requests (s : State) (k : Nat) (ar : Bool) : (s.release k ar).requests = s.requests := by
  simp only [State.release]; split
  · rfl
  · split <;> rfl
@[simp] theorem State.release_owned (s : State) (k : Nat) (ar : Bool) : (s.release k ar).owned = s.owned := by
  simp only [State.release]; split
  · rfl
  · split <;> rfl
@[simp] theorem State.release_mcast (s : State) (k : Nat) (ar : Bool) : (s.release k ar).mcast = s.mcast := by
  simp only [State.release]; split
  · rfl
  · split <;> rfl
@[simp] theorem State.release_policy (s : State) (k : Nat) (ar : Bool) : (s.release k ar).policy = s.policy := by
  simp only [State.release]; split
  · rfl
  · split <;> rfl
@[simp] theorem State.release_oldTag (s : State) (k : Nat) (ar : Bool) : (s.release k ar).oldTag = s.oldTag := by
  simp only [State.release]; split
  · rfl
  · split <;> rfl
@[simp] theorem State.release_frmap (s : State) (k : Nat) (ar : Bool) : (s.release k ar).frmap = s.frmap := by
  simp only [State.release]; split
  · rfl
  · split <;> rfl
@[simp] theorem State.release_pageDir (s : State) (k : Nat) (ar : Bool) : (s.release k ar).pageDir = s.pageDir := by
  simp only [State.release]; split
  · rfl
  · split <;> rfl
@[simp] theorem State.release_guests (s : State) (k : Nat) (ar : Bool) : (s.release k ar).guests = s.guests := by
  simp only [State.release]; split
  · rfl
  · split <;> rfl
@[simp] theorem State.release_leaving (s : State) (k : Nat) (ar : Bool) : (s.release k ar).leaving = s.leaving := by
  simp only [State.release]; split
  · rfl
  · split <;> rfl
@[simp] theorem State.release_swm (s : State) (k : Nat) (ar : Bool) : (s.release k ar).swm = s.swm := by
  simp only [State.release]; split
  · rfl
  · split <;> rfl
@[simp] theorem State.release_qlines (s : State) (k : Nat) (ar : Bool) : (s.release k ar).qlines = s.qlines := by
  simp only [State.release]; split
  · rfl
  · split <;> rfl
@[simp] theorem State.release_wmk (s : State) (k : Nat) (ar : Bool) : (s.release k ar).wmk = s.wmk := by
  simp only [State.release]; split
  · rfl
  · split <;> rfl
@[simp] theorem State.release_pins (s : State) (k : Nat) (ar : Bool) : (s.release k ar).pins = s.pins := by
  simp only [State.release]; split
  · rfl
  · split <;> rfl
@[simp] theorem State.release_dirs (s : State) (k : Nat) (ar : Bool) : (s.release k ar).dirs = s.dirs := by
  simp only [State.release]; split
  · rfl
  · split <;> rfl
@[simp] theorem State.release_wcc (s : State) (k : Nat) (ar : Bool) : (s.release k ar).wcc = s.wcc := by
  simp only [State.release]; split
  · rfl
  · split <;> rfl
@[simp] theorem State.release_walks (s : State) (k : Nat) (ar : Bool) : (s.release k ar).walks = s.walks := by
  simp only [State.release]; split
  · rfl
  · split <;> rfl
@[simp] theorem State.release_ctlb (s : State) (k : Nat) (ar : Bool) : (s.release k ar).ctlb = s.ctlb := by
  simp only [State.release]; split
  · rfl
  · split <;> rfl
@[simp] theorem State.release_blocked (s : State) (k : Nat) (ar : Bool) : (s.release k ar).blocked = s.blocked := by
  simp only [State.release]; split
  · rfl
  · split <;> rfl
@[simp] theorem State.release_guestb (s : State) (k : Nat) (ar : Bool) : (s.release k ar).guestb = s.guestb := by
  simp only [State.release]; split
  · rfl
  · split <;> rfl
@[simp] theorem State.release_frame (s : State) (k : Nat) (ar : Bool) : (s.release k ar).frame = s.frame := by
  simp only [State.release]; split
  · rfl
  · split <;> rfl
@[simp] theorem State.release_tenants (s : State) (k : Nat) (ar : Bool) : (s.release k ar).tenants = s.tenants := by
  simp only [State.release]; split
  · rfl
  · split <;> rfl
@[simp] theorem State.release_launches (s : State) (k : Nat) (ar : Bool) : (s.release k ar).launches = s.launches := by
  simp only [State.release]; split
  · rfl
  · split <;> rfl
@[simp] theorem State.release_gangs (s : State) (k : Nat) (ar : Bool) : (s.release k ar).gangs = s.gangs := by
  simp only [State.release]; split
  · rfl
  · split <;> rfl
@[simp] theorem State.release_launchN (s : State) (k : Nat) (ar : Bool) : (s.release k ar).launchN = s.launchN := by
  simp only [State.release]; split
  · rfl
  · split <;> rfl
@[simp] theorem State.release_gangN (s : State) (k : Nat) (ar : Bool) : (s.release k ar).gangN = s.gangN := by
  simp only [State.release]; split
  · rfl
  · split <;> rfl
@[simp] theorem State.release_locs (s : State) (k : Nat) (ar : Bool) : (s.release k ar).locs = s.locs := by
  simp only [State.release]; split
  · rfl
  · split <;> rfl
@[simp] theorem State.release_fields (s : State) (k : Nat) (ar : Bool) : (s.release k ar).fields = s.fields := by
  simp only [State.release]; split
  · rfl
  · split <;> rfl
@[simp] theorem State.release_fast (s : State) (k : Nat) (ar : Bool) : (s.release k ar).fast = s.fast := by
  simp only [State.release]; split
  · rfl
  · split <;> rfl
@[simp] theorem State.release_mdl (s : State) (k : Nat) (ar : Bool) : (s.release k ar).mdl = s.mdl := by
  simp only [State.release]; split
  · rfl
  · split <;> rfl
@[simp] theorem State.release_readback (s : State) (k : Nat) (ar : Bool) : (s.release k ar).readback = s.readback := by
  simp only [State.release]; split
  · rfl
  · split <;> rfl
@[simp] theorem State.release_fibreRead (s : State) (k : Nat) (ar : Bool) : (s.release k ar).fibreRead = s.fibreRead := by
  simp only [State.release]; split
  · rfl
  · split <;> rfl

@[simp] theorem State.fire_cpu (s : State) (line code : Nat) : (s.fire line code).cpu = s.cpu := rfl
@[simp] theorem State.fire_cur (s : State) (line code : Nat) : (s.fire line code).cur = s.cur := rfl
@[simp] theorem State.fire_slot (s : State) (line code : Nat) : (s.fire line code).slot = s.slot := rfl
@[simp] theorem State.fire_ctxs (s : State) (line code : Nat) : (s.fire line code).ctxs = s.ctxs := rfl
@[simp] theorem State.fire_mem (s : State) (line code : Nat) : (s.fire line code).mem = s.mem := rfl
@[simp] theorem State.fire_time (s : State) (line code : Nat) : (s.fire line code).time = s.time := rfl
@[simp] theorem State.fire_agenda (s : State) (line code : Nat) : (s.fire line code).agenda = s.agenda := rfl
@[simp] theorem State.fire_freeN (s : State) (line code : Nat) : (s.fire line code).freeN = s.freeN := rfl
@[simp] theorem State.fire_packetN (s : State) (line code : Nat) : (s.fire line code).packetN = s.packetN := rfl
@[simp] theorem State.fire_net (s : State) (line code : Nat) : (s.fire line code).net = s.net := rfl
@[simp] theorem State.fire_arrivals (s : State) (line code : Nat) : (s.fire line code).arrivals = s.arrivals := rfl
@[simp] theorem State.fire_creditsDue (s : State) (line code : Nat) : (s.fire line code).creditsDue = s.creditsDue := rfl
@[simp] theorem State.fire_msgs (s : State) (line code : Nat) : (s.fire line code).msgs = s.msgs := rfl
@[simp] theorem State.fire_allowDue (s : State) (line code : Nat) : (s.fire line code).allowDue = s.allowDue := rfl
@[simp] theorem State.fire_remotes (s : State) (line code : Nat) : (s.fire line code).remotes = s.remotes := rfl
@[simp] theorem State.fire_posts (s : State) (line code : Nat) : (s.fire line code).posts = s.posts := rfl
@[simp] theorem State.fire_owed (s : State) (line code : Nat) : (s.fire line code).owed = s.owed := rfl
@[simp] theorem State.fire_requests (s : State) (line code : Nat) : (s.fire line code).requests = s.requests := rfl
@[simp] theorem State.fire_owned (s : State) (line code : Nat) : (s.fire line code).owned = s.owned := rfl
@[simp] theorem State.fire_mcast (s : State) (line code : Nat) : (s.fire line code).mcast = s.mcast := rfl
@[simp] theorem State.fire_policy (s : State) (line code : Nat) : (s.fire line code).policy = s.policy := rfl
@[simp] theorem State.fire_oldTag (s : State) (line code : Nat) : (s.fire line code).oldTag = s.oldTag := rfl
@[simp] theorem State.fire_frmap (s : State) (line code : Nat) : (s.fire line code).frmap = s.frmap := rfl
@[simp] theorem State.fire_pageDir (s : State) (line code : Nat) : (s.fire line code).pageDir = s.pageDir := rfl
@[simp] theorem State.fire_guests (s : State) (line code : Nat) : (s.fire line code).guests = s.guests := rfl
@[simp] theorem State.fire_leaving (s : State) (line code : Nat) : (s.fire line code).leaving = s.leaving := rfl
@[simp] theorem State.fire_swm (s : State) (line code : Nat) : (s.fire line code).swm = s.swm := rfl
@[simp] theorem State.fire_qlines (s : State) (line code : Nat) : (s.fire line code).qlines = s.qlines := rfl
@[simp] theorem State.fire_wmk (s : State) (line code : Nat) : (s.fire line code).wmk = s.wmk := rfl
@[simp] theorem State.fire_pins (s : State) (line code : Nat) : (s.fire line code).pins = s.pins := rfl
@[simp] theorem State.fire_dirs (s : State) (line code : Nat) : (s.fire line code).dirs = s.dirs := rfl
@[simp] theorem State.fire_wcc (s : State) (line code : Nat) : (s.fire line code).wcc = s.wcc := rfl
@[simp] theorem State.fire_walks (s : State) (line code : Nat) : (s.fire line code).walks = s.walks := rfl
@[simp] theorem State.fire_ctlb (s : State) (line code : Nat) : (s.fire line code).ctlb = s.ctlb := rfl
@[simp] theorem State.fire_blocked (s : State) (line code : Nat) : (s.fire line code).blocked = s.blocked := rfl
@[simp] theorem State.fire_guestb (s : State) (line code : Nat) : (s.fire line code).guestb = s.guestb := rfl
@[simp] theorem State.fire_frame (s : State) (line code : Nat) : (s.fire line code).frame = s.frame := rfl
@[simp] theorem State.fire_tenants (s : State) (line code : Nat) : (s.fire line code).tenants = s.tenants := rfl
@[simp] theorem State.fire_launches (s : State) (line code : Nat) : (s.fire line code).launches = s.launches := rfl
@[simp] theorem State.fire_gangs (s : State) (line code : Nat) : (s.fire line code).gangs = s.gangs := rfl
@[simp] theorem State.fire_launchN (s : State) (line code : Nat) : (s.fire line code).launchN = s.launchN := rfl
@[simp] theorem State.fire_gangN (s : State) (line code : Nat) : (s.fire line code).gangN = s.gangN := rfl
@[simp] theorem State.fire_locs (s : State) (line code : Nat) : (s.fire line code).locs = s.locs := rfl
@[simp] theorem State.fire_fields (s : State) (line code : Nat) : (s.fire line code).fields = s.fields := rfl
@[simp] theorem State.fire_fast (s : State) (line code : Nat) : (s.fire line code).fast = s.fast := rfl
@[simp] theorem State.fire_mdl (s : State) (line code : Nat) : (s.fire line code).mdl = s.mdl := rfl
@[simp] theorem State.fire_readback (s : State) (line code : Nat) : (s.fire line code).readback = s.readback := rfl
@[simp] theorem State.fire_fibreRead (s : State) (line code : Nat) : (s.fire line code).fibreRead = s.fibreRead := rfl

/-! ### Updates of a context -/

@[simp] theorem Ctx.setSt_st (c : Ctx) (lo n v : Nat) : (c.setSt lo n v).st = setBits c.st lo n v := rfl
@[simp] theorem Ctx.setSt_w (c : Ctx) (lo n v : Nat) : (c.setSt lo n v).w = c.w := rfl
@[simp] theorem Ctx.setSt_v (c : Ctx) (lo n v : Nat) : (c.setSt lo n v).v = c.v := rfl
@[simp] theorem Ctx.setSt_p (c : Ctx) (lo n v : Nat) : (c.setSt lo n v).p = c.p := rfl
@[simp] theorem Ctx.setSt_lc (c : Ctx) (lo n v : Nat) : (c.setSt lo n v).lc = c.lc := rfl
@[simp] theorem Ctx.setSt_fm (c : Ctx) (lo n v : Nat) : (c.setSt lo n v).fm = c.fm := rfl
@[simp] theorem Ctx.setSt_cw (c : Ctx) (lo n v : Nat) : (c.setSt lo n v).cw = c.cw := rfl
@[simp] theorem Ctx.setSt_mb (c : Ctx) (lo n v : Nat) : (c.setSt lo n v).mb = c.mb := rfl
@[simp] theorem Ctx.setSt_tb (c : Ctx) (lo n v : Nat) : (c.setSt lo n v).tb = c.tb := rfl
@[simp] theorem Ctx.setSt_tbPend (c : Ctx) (lo n v : Nat) : (c.setSt lo n v).tbPend = c.tbPend := rfl
@[simp] theorem Ctx.setSt_fb (c : Ctx) (lo n v : Nat) : (c.setSt lo n v).fb = c.fb := rfl
@[simp] theorem Ctx.setSt_sg (c : Ctx) (lo n v : Nat) : (c.setSt lo n v).sg = c.sg := rfl
@[simp] theorem Ctx.setSt_epc (c : Ctx) (lo n v : Nat) : (c.setSt lo n v).epc = c.epc := rfl
@[simp] theorem Ctx.setSt_esr (c : Ctx) (lo n v : Nat) : (c.setSt lo n v).esr = c.esr := rfl
@[simp] theorem Ctx.setSt_ecause (c : Ctx) (lo n v : Nat) : (c.setSt lo n v).ecause = c.ecause := rfl
@[simp] theorem Ctx.setSt_einfo (c : Ctx) (lo n v : Nat) : (c.setSt lo n v).einfo = c.einfo := rfl
@[simp] theorem Ctx.setSt_erh (c : Ctx) (lo n v : Nat) : (c.setSt lo n v).erh = c.erh := rfl
@[simp] theorem Ctx.setSt_erl (c : Ctx) (lo n v : Nat) : (c.setSt lo n v).erl = c.erl := rfl
@[simp] theorem Ctx.setSt_tvec (c : Ctx) (lo n v : Nat) : (c.setSt lo n v).tvec = c.tvec := rfl
@[simp] theorem Ctx.setSt_hdrop (c : Ctx) (lo n v : Nat) : (c.setSt lo n v).hdrop = c.hdrop := rfl
@[simp] theorem Ctx.setSt_ident (c : Ctx) (lo n v : Nat) : (c.setSt lo n v).ident = c.ident := rfl
@[simp] theorem Ctx.setSt_gen (c : Ctx) (lo n v : Nat) : (c.setSt lo n v).gen = c.gen := rfl
@[simp] theorem Ctx.setSt_tenant (c : Ctx) (lo n v : Nat) : (c.setSt lo n v).tenant = c.tenant := rfl
@[simp] theorem Ctx.setSt_code (c : Ctx) (lo n v : Nat) : (c.setSt lo n v).code = c.code := rfl
@[simp] theorem Ctx.setSt_fcap (c : Ctx) (lo n v : Nat) : (c.setSt lo n v).fcap = c.fcap := rfl
@[simp] theorem Ctx.setSt_pc (c : Ctx) (lo n v : Nat) : (c.setSt lo n v).pc = c.pc := rfl
@[simp] theorem Ctx.setSt_hdr (c : Ctx) (lo n v : Nat) : (c.setSt lo n v).hdr = c.hdr := rfl
@[simp] theorem Ctx.setSt_len (c : Ctx) (lo n v : Nat) : (c.setSt lo n v).len = c.len := rfl
@[simp] theorem Ctx.setSt_entry (c : Ctx) (lo n v : Nat) : (c.setSt lo n v).entry = c.entry := rfl
@[simp] theorem Ctx.setSt_run (c : Ctx) (lo n v : Nat) : (c.setSt lo n v).run = c.run := rfl
@[simp] theorem Ctx.setSt_dbl (c : Ctx) (lo n v : Nat) : (c.setSt lo n v).dbl = c.dbl := rfl
@[simp] theorem Ctx.setSt_awW (c : Ctx) (lo n v : Nat) : (c.setSt lo n v).awW = c.awW := rfl
@[simp] theorem Ctx.setSt_awV (c : Ctx) (lo n v : Nat) : (c.setSt lo n v).awV = c.awV := rfl
@[simp] theorem Ctx.setSt_awP (c : Ctx) (lo n v : Nat) : (c.setSt lo n v).awP = c.awP := rfl
@[simp] theorem Ctx.setSt_povr (c : Ctx) (lo n v : Nat) : (c.setSt lo n v).povr = c.povr := rfl
@[simp] theorem Ctx.setSt_rovf (c : Ctx) (lo n v : Nat) : (c.setSt lo n v).rovf = c.rovf := rfl
@[simp] theorem Ctx.setSt_mbox (c : Ctx) (lo n v : Nat) : (c.setSt lo n v).mbox = c.mbox := rfl
@[simp] theorem Ctx.setSt_seqs (c : Ctx) (lo n v : Nat) : (c.setSt lo n v).seqs = c.seqs := rfl
@[simp] theorem Ctx.setSt_sq (c : Ctx) (lo n v : Nat) : (c.setSt lo n v).sq = c.sq := rfl
@[simp] theorem Ctx.setSt_aset (c : Ctx) (lo n v : Nat) : (c.setSt lo n v).aset = c.aset := rfl
@[simp] theorem Ctx.setSt_credits (c : Ctx) (lo n v : Nat) : (c.setSt lo n v).credits = c.credits := rfl
@[simp] theorem Ctx.setSt_allow (c : Ctx) (lo n v : Nat) : (c.setSt lo n v).allow = c.allow := rfl
@[simp] theorem Ctx.setSt_failedMon (c : Ctx) (lo n v : Nat) : (c.setSt lo n v).failedMon = c.failedMon := rfl
@[simp] theorem Ctx.setSt_stopMark (c : Ctx) (lo n v : Nat) : (c.setSt lo n v).stopMark = c.stopMark := rfl
@[simp] theorem Ctx.setSt_ras (c : Ctx) (lo n v : Nat) : (c.setSt lo n v).ras = c.ras := rfl
@[simp] theorem Ctx.setSt_pend (c : Ctx) (lo n v : Nat) : (c.setSt lo n v).pend = c.pend := rfl
@[simp] theorem Ctx.setSt_answer (c : Ctx) (lo n v : Nat) : (c.setSt lo n v).answer = c.answer := rfl
@[simp] theorem Ctx.setSt_cont (c : Ctx) (lo n v : Nat) : (c.setSt lo n v).cont = c.cont := rfl
@[simp] theorem Ctx.setSt_yieldSig (c : Ctx) (lo n v : Nat) : (c.setSt lo n v).yieldSig = c.yieldSig := rfl
@[simp] theorem Ctx.setSt_walk (c : Ctx) (lo n v : Nat) : (c.setSt lo n v).walk = c.walk := rfl
@[simp] theorem Ctx.setSt_walkFault (c : Ctx) (lo n v : Nat) : (c.setSt lo n v).walkFault = c.walkFault := rfl
@[simp] theorem Ctx.setSt_stalled (c : Ctx) (lo n v : Nat) : (c.setSt lo n v).stalled = c.stalled := rfl
@[simp] theorem Ctx.setSt_passed (c : Ctx) (lo n v : Nat) : (c.setSt lo n v).passed = c.passed := rfl
@[simp] theorem Ctx.setSt_counted (c : Ctx) (lo n v : Nat) : (c.setSt lo n v).counted = c.counted := rfl
@[simp] theorem Ctx.setSt_gbar (c : Ctx) (lo n v : Nat) : (c.setSt lo n v).gbar = c.gbar := rfl
@[simp] theorem Ctx.setSt_kv (c : Ctx) (lo n v : Nat) : (c.setSt lo n v).kv = c.kv := rfl
@[simp] theorem Ctx.setSt_place (c : Ctx) (lo n v : Nat) : (c.setSt lo n v).place = c.place := rfl
@[simp] theorem Ctx.setSt_pfh (c : Ctx) (lo n v : Nat) : (c.setSt lo n v).pfh = c.pfh := rfl
@[simp] theorem Ctx.setSt_isOpen (c : Ctx) (lo n v : Nat) : (c.setSt lo n v).isOpen = c.isOpen := rfl

@[simp] theorem Ctx.setStream_sg (c : Ctx) (g : Nat) (x : Stream) : (c.setStream g x).sg = c.sg.setIfInBounds g x := rfl
@[simp] theorem Ctx.setStream_w (c : Ctx) (g : Nat) (x : Stream) : (c.setStream g x).w = c.w := rfl
@[simp] theorem Ctx.setStream_v (c : Ctx) (g : Nat) (x : Stream) : (c.setStream g x).v = c.v := rfl
@[simp] theorem Ctx.setStream_p (c : Ctx) (g : Nat) (x : Stream) : (c.setStream g x).p = c.p := rfl
@[simp] theorem Ctx.setStream_lc (c : Ctx) (g : Nat) (x : Stream) : (c.setStream g x).lc = c.lc := rfl
@[simp] theorem Ctx.setStream_fm (c : Ctx) (g : Nat) (x : Stream) : (c.setStream g x).fm = c.fm := rfl
@[simp] theorem Ctx.setStream_cw (c : Ctx) (g : Nat) (x : Stream) : (c.setStream g x).cw = c.cw := rfl
@[simp] theorem Ctx.setStream_mb (c : Ctx) (g : Nat) (x : Stream) : (c.setStream g x).mb = c.mb := rfl
@[simp] theorem Ctx.setStream_tb (c : Ctx) (g : Nat) (x : Stream) : (c.setStream g x).tb = c.tb := rfl
@[simp] theorem Ctx.setStream_tbPend (c : Ctx) (g : Nat) (x : Stream) : (c.setStream g x).tbPend = c.tbPend := rfl
@[simp] theorem Ctx.setStream_fb (c : Ctx) (g : Nat) (x : Stream) : (c.setStream g x).fb = c.fb := rfl
@[simp] theorem Ctx.setStream_st (c : Ctx) (g : Nat) (x : Stream) : (c.setStream g x).st = c.st := rfl
@[simp] theorem Ctx.setStream_epc (c : Ctx) (g : Nat) (x : Stream) : (c.setStream g x).epc = c.epc := rfl
@[simp] theorem Ctx.setStream_esr (c : Ctx) (g : Nat) (x : Stream) : (c.setStream g x).esr = c.esr := rfl
@[simp] theorem Ctx.setStream_ecause (c : Ctx) (g : Nat) (x : Stream) : (c.setStream g x).ecause = c.ecause := rfl
@[simp] theorem Ctx.setStream_einfo (c : Ctx) (g : Nat) (x : Stream) : (c.setStream g x).einfo = c.einfo := rfl
@[simp] theorem Ctx.setStream_erh (c : Ctx) (g : Nat) (x : Stream) : (c.setStream g x).erh = c.erh := rfl
@[simp] theorem Ctx.setStream_erl (c : Ctx) (g : Nat) (x : Stream) : (c.setStream g x).erl = c.erl := rfl
@[simp] theorem Ctx.setStream_tvec (c : Ctx) (g : Nat) (x : Stream) : (c.setStream g x).tvec = c.tvec := rfl
@[simp] theorem Ctx.setStream_hdrop (c : Ctx) (g : Nat) (x : Stream) : (c.setStream g x).hdrop = c.hdrop := rfl
@[simp] theorem Ctx.setStream_ident (c : Ctx) (g : Nat) (x : Stream) : (c.setStream g x).ident = c.ident := rfl
@[simp] theorem Ctx.setStream_gen (c : Ctx) (g : Nat) (x : Stream) : (c.setStream g x).gen = c.gen := rfl
@[simp] theorem Ctx.setStream_tenant (c : Ctx) (g : Nat) (x : Stream) : (c.setStream g x).tenant = c.tenant := rfl
@[simp] theorem Ctx.setStream_code (c : Ctx) (g : Nat) (x : Stream) : (c.setStream g x).code = c.code := rfl
@[simp] theorem Ctx.setStream_fcap (c : Ctx) (g : Nat) (x : Stream) : (c.setStream g x).fcap = c.fcap := rfl
@[simp] theorem Ctx.setStream_pc (c : Ctx) (g : Nat) (x : Stream) : (c.setStream g x).pc = c.pc := rfl
@[simp] theorem Ctx.setStream_hdr (c : Ctx) (g : Nat) (x : Stream) : (c.setStream g x).hdr = c.hdr := rfl
@[simp] theorem Ctx.setStream_len (c : Ctx) (g : Nat) (x : Stream) : (c.setStream g x).len = c.len := rfl
@[simp] theorem Ctx.setStream_entry (c : Ctx) (g : Nat) (x : Stream) : (c.setStream g x).entry = c.entry := rfl
@[simp] theorem Ctx.setStream_run (c : Ctx) (g : Nat) (x : Stream) : (c.setStream g x).run = c.run := rfl
@[simp] theorem Ctx.setStream_dbl (c : Ctx) (g : Nat) (x : Stream) : (c.setStream g x).dbl = c.dbl := rfl
@[simp] theorem Ctx.setStream_awW (c : Ctx) (g : Nat) (x : Stream) : (c.setStream g x).awW = c.awW := rfl
@[simp] theorem Ctx.setStream_awV (c : Ctx) (g : Nat) (x : Stream) : (c.setStream g x).awV = c.awV := rfl
@[simp] theorem Ctx.setStream_awP (c : Ctx) (g : Nat) (x : Stream) : (c.setStream g x).awP = c.awP := rfl
@[simp] theorem Ctx.setStream_povr (c : Ctx) (g : Nat) (x : Stream) : (c.setStream g x).povr = c.povr := rfl
@[simp] theorem Ctx.setStream_rovf (c : Ctx) (g : Nat) (x : Stream) : (c.setStream g x).rovf = c.rovf := rfl
@[simp] theorem Ctx.setStream_mbox (c : Ctx) (g : Nat) (x : Stream) : (c.setStream g x).mbox = c.mbox := rfl
@[simp] theorem Ctx.setStream_seqs (c : Ctx) (g : Nat) (x : Stream) : (c.setStream g x).seqs = c.seqs := rfl
@[simp] theorem Ctx.setStream_sq (c : Ctx) (g : Nat) (x : Stream) : (c.setStream g x).sq = c.sq := rfl
@[simp] theorem Ctx.setStream_aset (c : Ctx) (g : Nat) (x : Stream) : (c.setStream g x).aset = c.aset := rfl
@[simp] theorem Ctx.setStream_credits (c : Ctx) (g : Nat) (x : Stream) : (c.setStream g x).credits = c.credits := rfl
@[simp] theorem Ctx.setStream_allow (c : Ctx) (g : Nat) (x : Stream) : (c.setStream g x).allow = c.allow := rfl
@[simp] theorem Ctx.setStream_failedMon (c : Ctx) (g : Nat) (x : Stream) : (c.setStream g x).failedMon = c.failedMon := rfl
@[simp] theorem Ctx.setStream_stopMark (c : Ctx) (g : Nat) (x : Stream) : (c.setStream g x).stopMark = c.stopMark := rfl
@[simp] theorem Ctx.setStream_ras (c : Ctx) (g : Nat) (x : Stream) : (c.setStream g x).ras = c.ras := rfl
@[simp] theorem Ctx.setStream_pend (c : Ctx) (g : Nat) (x : Stream) : (c.setStream g x).pend = c.pend := rfl
@[simp] theorem Ctx.setStream_answer (c : Ctx) (g : Nat) (x : Stream) : (c.setStream g x).answer = c.answer := rfl
@[simp] theorem Ctx.setStream_cont (c : Ctx) (g : Nat) (x : Stream) : (c.setStream g x).cont = c.cont := rfl
@[simp] theorem Ctx.setStream_yieldSig (c : Ctx) (g : Nat) (x : Stream) : (c.setStream g x).yieldSig = c.yieldSig := rfl
@[simp] theorem Ctx.setStream_walk (c : Ctx) (g : Nat) (x : Stream) : (c.setStream g x).walk = c.walk := rfl
@[simp] theorem Ctx.setStream_walkFault (c : Ctx) (g : Nat) (x : Stream) : (c.setStream g x).walkFault = c.walkFault := rfl
@[simp] theorem Ctx.setStream_stalled (c : Ctx) (g : Nat) (x : Stream) : (c.setStream g x).stalled = c.stalled := rfl
@[simp] theorem Ctx.setStream_passed (c : Ctx) (g : Nat) (x : Stream) : (c.setStream g x).passed = c.passed := rfl
@[simp] theorem Ctx.setStream_counted (c : Ctx) (g : Nat) (x : Stream) : (c.setStream g x).counted = c.counted := rfl
@[simp] theorem Ctx.setStream_gbar (c : Ctx) (g : Nat) (x : Stream) : (c.setStream g x).gbar = c.gbar := rfl
@[simp] theorem Ctx.setStream_kv (c : Ctx) (g : Nat) (x : Stream) : (c.setStream g x).kv = c.kv := rfl
@[simp] theorem Ctx.setStream_place (c : Ctx) (g : Nat) (x : Stream) : (c.setStream g x).place = c.place := rfl
@[simp] theorem Ctx.setStream_pfh (c : Ctx) (g : Nat) (x : Stream) : (c.setStream g x).pfh = c.pfh := rfl
@[simp] theorem Ctx.setStream_isOpen (c : Ctx) (g : Nat) (x : Stream) : (c.setStream g x).isOpen = c.isOpen := rfl

@[simp] theorem Ctx.append_w (c : Ctx) (g : Nat) (e : BitVec 1024 × Bool) : (c.append g e).w = c.w := rfl
@[simp] theorem Ctx.append_v (c : Ctx) (g : Nat) (e : BitVec 1024 × Bool) : (c.append g e).v = c.v := rfl
@[simp] theorem Ctx.append_p (c : Ctx) (g : Nat) (e : BitVec 1024 × Bool) : (c.append g e).p = c.p := rfl
@[simp] theorem Ctx.append_lc (c : Ctx) (g : Nat) (e : BitVec 1024 × Bool) : (c.append g e).lc = c.lc := rfl
@[simp] theorem Ctx.append_fm (c : Ctx) (g : Nat) (e : BitVec 1024 × Bool) : (c.append g e).fm = c.fm := rfl
@[simp] theorem Ctx.append_cw (c : Ctx) (g : Nat) (e : BitVec 1024 × Bool) : (c.append g e).cw = c.cw := rfl
@[simp] theorem Ctx.append_mb (c : Ctx) (g : Nat) (e : BitVec 1024 × Bool) : (c.append g e).mb = c.mb := rfl
@[simp] theorem Ctx.append_tb (c : Ctx) (g : Nat) (e : BitVec 1024 × Bool) : (c.append g e).tb = c.tb := rfl
@[simp] theorem Ctx.append_tbPend (c : Ctx) (g : Nat) (e : BitVec 1024 × Bool) : (c.append g e).tbPend = c.tbPend := rfl
@[simp] theorem Ctx.append_fb (c : Ctx) (g : Nat) (e : BitVec 1024 × Bool) : (c.append g e).fb = c.fb := rfl
@[simp] theorem Ctx.append_st (c : Ctx) (g : Nat) (e : BitVec 1024 × Bool) : (c.append g e).st = c.st := rfl
@[simp] theorem Ctx.append_epc (c : Ctx) (g : Nat) (e : BitVec 1024 × Bool) : (c.append g e).epc = c.epc := rfl
@[simp] theorem Ctx.append_esr (c : Ctx) (g : Nat) (e : BitVec 1024 × Bool) : (c.append g e).esr = c.esr := rfl
@[simp] theorem Ctx.append_ecause (c : Ctx) (g : Nat) (e : BitVec 1024 × Bool) : (c.append g e).ecause = c.ecause := rfl
@[simp] theorem Ctx.append_einfo (c : Ctx) (g : Nat) (e : BitVec 1024 × Bool) : (c.append g e).einfo = c.einfo := rfl
@[simp] theorem Ctx.append_erh (c : Ctx) (g : Nat) (e : BitVec 1024 × Bool) : (c.append g e).erh = c.erh := rfl
@[simp] theorem Ctx.append_erl (c : Ctx) (g : Nat) (e : BitVec 1024 × Bool) : (c.append g e).erl = c.erl := rfl
@[simp] theorem Ctx.append_tvec (c : Ctx) (g : Nat) (e : BitVec 1024 × Bool) : (c.append g e).tvec = c.tvec := rfl
@[simp] theorem Ctx.append_hdrop (c : Ctx) (g : Nat) (e : BitVec 1024 × Bool) : (c.append g e).hdrop = c.hdrop := rfl
@[simp] theorem Ctx.append_ident (c : Ctx) (g : Nat) (e : BitVec 1024 × Bool) : (c.append g e).ident = c.ident := rfl
@[simp] theorem Ctx.append_gen (c : Ctx) (g : Nat) (e : BitVec 1024 × Bool) : (c.append g e).gen = c.gen := rfl
@[simp] theorem Ctx.append_tenant (c : Ctx) (g : Nat) (e : BitVec 1024 × Bool) : (c.append g e).tenant = c.tenant := rfl
@[simp] theorem Ctx.append_code (c : Ctx) (g : Nat) (e : BitVec 1024 × Bool) : (c.append g e).code = c.code := rfl
@[simp] theorem Ctx.append_fcap (c : Ctx) (g : Nat) (e : BitVec 1024 × Bool) : (c.append g e).fcap = c.fcap := rfl
@[simp] theorem Ctx.append_pc (c : Ctx) (g : Nat) (e : BitVec 1024 × Bool) : (c.append g e).pc = c.pc := rfl
@[simp] theorem Ctx.append_hdr (c : Ctx) (g : Nat) (e : BitVec 1024 × Bool) : (c.append g e).hdr = c.hdr := rfl
@[simp] theorem Ctx.append_len (c : Ctx) (g : Nat) (e : BitVec 1024 × Bool) : (c.append g e).len = c.len := rfl
@[simp] theorem Ctx.append_entry (c : Ctx) (g : Nat) (e : BitVec 1024 × Bool) : (c.append g e).entry = c.entry := rfl
@[simp] theorem Ctx.append_run (c : Ctx) (g : Nat) (e : BitVec 1024 × Bool) : (c.append g e).run = c.run := rfl
@[simp] theorem Ctx.append_dbl (c : Ctx) (g : Nat) (e : BitVec 1024 × Bool) : (c.append g e).dbl = c.dbl := rfl
@[simp] theorem Ctx.append_awW (c : Ctx) (g : Nat) (e : BitVec 1024 × Bool) : (c.append g e).awW = c.awW := rfl
@[simp] theorem Ctx.append_awV (c : Ctx) (g : Nat) (e : BitVec 1024 × Bool) : (c.append g e).awV = c.awV := rfl
@[simp] theorem Ctx.append_awP (c : Ctx) (g : Nat) (e : BitVec 1024 × Bool) : (c.append g e).awP = c.awP := rfl
@[simp] theorem Ctx.append_povr (c : Ctx) (g : Nat) (e : BitVec 1024 × Bool) : (c.append g e).povr = c.povr := rfl
@[simp] theorem Ctx.append_rovf (c : Ctx) (g : Nat) (e : BitVec 1024 × Bool) : (c.append g e).rovf = c.rovf := rfl
@[simp] theorem Ctx.append_mbox (c : Ctx) (g : Nat) (e : BitVec 1024 × Bool) : (c.append g e).mbox = c.mbox := rfl
@[simp] theorem Ctx.append_seqs (c : Ctx) (g : Nat) (e : BitVec 1024 × Bool) : (c.append g e).seqs = c.seqs := rfl
@[simp] theorem Ctx.append_sq (c : Ctx) (g : Nat) (e : BitVec 1024 × Bool) : (c.append g e).sq = c.sq := rfl
@[simp] theorem Ctx.append_aset (c : Ctx) (g : Nat) (e : BitVec 1024 × Bool) : (c.append g e).aset = c.aset := rfl
@[simp] theorem Ctx.append_credits (c : Ctx) (g : Nat) (e : BitVec 1024 × Bool) : (c.append g e).credits = c.credits := rfl
@[simp] theorem Ctx.append_allow (c : Ctx) (g : Nat) (e : BitVec 1024 × Bool) : (c.append g e).allow = c.allow := rfl
@[simp] theorem Ctx.append_failedMon (c : Ctx) (g : Nat) (e : BitVec 1024 × Bool) : (c.append g e).failedMon = c.failedMon := rfl
@[simp] theorem Ctx.append_stopMark (c : Ctx) (g : Nat) (e : BitVec 1024 × Bool) : (c.append g e).stopMark = c.stopMark := rfl
@[simp] theorem Ctx.append_ras (c : Ctx) (g : Nat) (e : BitVec 1024 × Bool) : (c.append g e).ras = c.ras := rfl
@[simp] theorem Ctx.append_pend (c : Ctx) (g : Nat) (e : BitVec 1024 × Bool) : (c.append g e).pend = c.pend := rfl
@[simp] theorem Ctx.append_answer (c : Ctx) (g : Nat) (e : BitVec 1024 × Bool) : (c.append g e).answer = c.answer := rfl
@[simp] theorem Ctx.append_cont (c : Ctx) (g : Nat) (e : BitVec 1024 × Bool) : (c.append g e).cont = c.cont := rfl
@[simp] theorem Ctx.append_yieldSig (c : Ctx) (g : Nat) (e : BitVec 1024 × Bool) : (c.append g e).yieldSig = c.yieldSig := rfl
@[simp] theorem Ctx.append_walk (c : Ctx) (g : Nat) (e : BitVec 1024 × Bool) : (c.append g e).walk = c.walk := rfl
@[simp] theorem Ctx.append_walkFault (c : Ctx) (g : Nat) (e : BitVec 1024 × Bool) : (c.append g e).walkFault = c.walkFault := rfl
@[simp] theorem Ctx.append_stalled (c : Ctx) (g : Nat) (e : BitVec 1024 × Bool) : (c.append g e).stalled = c.stalled := rfl
@[simp] theorem Ctx.append_passed (c : Ctx) (g : Nat) (e : BitVec 1024 × Bool) : (c.append g e).passed = c.passed := rfl
@[simp] theorem Ctx.append_counted (c : Ctx) (g : Nat) (e : BitVec 1024 × Bool) : (c.append g e).counted = c.counted := rfl
@[simp] theorem Ctx.append_gbar (c : Ctx) (g : Nat) (e : BitVec 1024 × Bool) : (c.append g e).gbar = c.gbar := rfl
@[simp] theorem Ctx.append_kv (c : Ctx) (g : Nat) (e : BitVec 1024 × Bool) : (c.append g e).kv = c.kv := rfl
@[simp] theorem Ctx.append_place (c : Ctx) (g : Nat) (e : BitVec 1024 × Bool) : (c.append g e).place = c.place := rfl
@[simp] theorem Ctx.append_pfh (c : Ctx) (g : Nat) (e : BitVec 1024 × Bool) : (c.append g e).pfh = c.pfh := rfl
@[simp] theorem Ctx.append_isOpen (c : Ctx) (g : Nat) (e : BitVec 1024 × Bool) : (c.append g e).isOpen = c.isOpen := rfl

@[simp] theorem Ctx.pop_w (c : Ctx) (g : Nat) : (c.pop g).w = c.w := rfl
@[simp] theorem Ctx.pop_v (c : Ctx) (g : Nat) : (c.pop g).v = c.v := rfl
@[simp] theorem Ctx.pop_p (c : Ctx) (g : Nat) : (c.pop g).p = c.p := rfl
@[simp] theorem Ctx.pop_lc (c : Ctx) (g : Nat) : (c.pop g).lc = c.lc := rfl
@[simp] theorem Ctx.pop_fm (c : Ctx) (g : Nat) : (c.pop g).fm = c.fm := rfl
@[simp] theorem Ctx.pop_cw (c : Ctx) (g : Nat) : (c.pop g).cw = c.cw := rfl
@[simp] theorem Ctx.pop_mb (c : Ctx) (g : Nat) : (c.pop g).mb = c.mb := rfl
@[simp] theorem Ctx.pop_tb (c : Ctx) (g : Nat) : (c.pop g).tb = c.tb := rfl
@[simp] theorem Ctx.pop_tbPend (c : Ctx) (g : Nat) : (c.pop g).tbPend = c.tbPend := rfl
@[simp] theorem Ctx.pop_fb (c : Ctx) (g : Nat) : (c.pop g).fb = c.fb := rfl
@[simp] theorem Ctx.pop_st (c : Ctx) (g : Nat) : (c.pop g).st = c.st := rfl
@[simp] theorem Ctx.pop_epc (c : Ctx) (g : Nat) : (c.pop g).epc = c.epc := rfl
@[simp] theorem Ctx.pop_esr (c : Ctx) (g : Nat) : (c.pop g).esr = c.esr := rfl
@[simp] theorem Ctx.pop_ecause (c : Ctx) (g : Nat) : (c.pop g).ecause = c.ecause := rfl
@[simp] theorem Ctx.pop_einfo (c : Ctx) (g : Nat) : (c.pop g).einfo = c.einfo := rfl
@[simp] theorem Ctx.pop_erh (c : Ctx) (g : Nat) : (c.pop g).erh = c.erh := rfl
@[simp] theorem Ctx.pop_erl (c : Ctx) (g : Nat) : (c.pop g).erl = c.erl := rfl
@[simp] theorem Ctx.pop_tvec (c : Ctx) (g : Nat) : (c.pop g).tvec = c.tvec := rfl
@[simp] theorem Ctx.pop_hdrop (c : Ctx) (g : Nat) : (c.pop g).hdrop = c.hdrop := rfl
@[simp] theorem Ctx.pop_ident (c : Ctx) (g : Nat) : (c.pop g).ident = c.ident := rfl
@[simp] theorem Ctx.pop_gen (c : Ctx) (g : Nat) : (c.pop g).gen = c.gen := rfl
@[simp] theorem Ctx.pop_tenant (c : Ctx) (g : Nat) : (c.pop g).tenant = c.tenant := rfl
@[simp] theorem Ctx.pop_code (c : Ctx) (g : Nat) : (c.pop g).code = c.code := rfl
@[simp] theorem Ctx.pop_fcap (c : Ctx) (g : Nat) : (c.pop g).fcap = c.fcap := rfl
@[simp] theorem Ctx.pop_pc (c : Ctx) (g : Nat) : (c.pop g).pc = c.pc := rfl
@[simp] theorem Ctx.pop_hdr (c : Ctx) (g : Nat) : (c.pop g).hdr = c.hdr := rfl
@[simp] theorem Ctx.pop_len (c : Ctx) (g : Nat) : (c.pop g).len = c.len := rfl
@[simp] theorem Ctx.pop_entry (c : Ctx) (g : Nat) : (c.pop g).entry = c.entry := rfl
@[simp] theorem Ctx.pop_run (c : Ctx) (g : Nat) : (c.pop g).run = c.run := rfl
@[simp] theorem Ctx.pop_dbl (c : Ctx) (g : Nat) : (c.pop g).dbl = c.dbl := rfl
@[simp] theorem Ctx.pop_awW (c : Ctx) (g : Nat) : (c.pop g).awW = c.awW := rfl
@[simp] theorem Ctx.pop_awV (c : Ctx) (g : Nat) : (c.pop g).awV = c.awV := rfl
@[simp] theorem Ctx.pop_awP (c : Ctx) (g : Nat) : (c.pop g).awP = c.awP := rfl
@[simp] theorem Ctx.pop_povr (c : Ctx) (g : Nat) : (c.pop g).povr = c.povr := rfl
@[simp] theorem Ctx.pop_rovf (c : Ctx) (g : Nat) : (c.pop g).rovf = c.rovf := rfl
@[simp] theorem Ctx.pop_mbox (c : Ctx) (g : Nat) : (c.pop g).mbox = c.mbox := rfl
@[simp] theorem Ctx.pop_seqs (c : Ctx) (g : Nat) : (c.pop g).seqs = c.seqs := rfl
@[simp] theorem Ctx.pop_sq (c : Ctx) (g : Nat) : (c.pop g).sq = c.sq := rfl
@[simp] theorem Ctx.pop_aset (c : Ctx) (g : Nat) : (c.pop g).aset = c.aset := rfl
@[simp] theorem Ctx.pop_credits (c : Ctx) (g : Nat) : (c.pop g).credits = c.credits := rfl
@[simp] theorem Ctx.pop_allow (c : Ctx) (g : Nat) : (c.pop g).allow = c.allow := rfl
@[simp] theorem Ctx.pop_failedMon (c : Ctx) (g : Nat) : (c.pop g).failedMon = c.failedMon := rfl
@[simp] theorem Ctx.pop_stopMark (c : Ctx) (g : Nat) : (c.pop g).stopMark = c.stopMark := rfl
@[simp] theorem Ctx.pop_ras (c : Ctx) (g : Nat) : (c.pop g).ras = c.ras := rfl
@[simp] theorem Ctx.pop_pend (c : Ctx) (g : Nat) : (c.pop g).pend = c.pend := rfl
@[simp] theorem Ctx.pop_answer (c : Ctx) (g : Nat) : (c.pop g).answer = c.answer := rfl
@[simp] theorem Ctx.pop_cont (c : Ctx) (g : Nat) : (c.pop g).cont = c.cont := rfl
@[simp] theorem Ctx.pop_yieldSig (c : Ctx) (g : Nat) : (c.pop g).yieldSig = c.yieldSig := rfl
@[simp] theorem Ctx.pop_walk (c : Ctx) (g : Nat) : (c.pop g).walk = c.walk := rfl
@[simp] theorem Ctx.pop_walkFault (c : Ctx) (g : Nat) : (c.pop g).walkFault = c.walkFault := rfl
@[simp] theorem Ctx.pop_stalled (c : Ctx) (g : Nat) : (c.pop g).stalled = c.stalled := rfl
@[simp] theorem Ctx.pop_passed (c : Ctx) (g : Nat) : (c.pop g).passed = c.passed := rfl
@[simp] theorem Ctx.pop_counted (c : Ctx) (g : Nat) : (c.pop g).counted = c.counted := rfl
@[simp] theorem Ctx.pop_gbar (c : Ctx) (g : Nat) : (c.pop g).gbar = c.gbar := rfl
@[simp] theorem Ctx.pop_kv (c : Ctx) (g : Nat) : (c.pop g).kv = c.kv := rfl
@[simp] theorem Ctx.pop_place (c : Ctx) (g : Nat) : (c.pop g).place = c.place := rfl
@[simp] theorem Ctx.pop_pfh (c : Ctx) (g : Nat) : (c.pop g).pfh = c.pfh := rfl
@[simp] theorem Ctx.pop_isOpen (c : Ctx) (g : Nat) : (c.pop g).isOpen = c.isOpen := rfl

/-- A property of a context that a pop keeps, the pops of an instruction keep. -/
theorem Ctx.popAll_keeps {β : Type} (f : Ctx → β) (hf : ∀ c g, f (Ctx.pop c g) = f c) (c : Ctx) (u : List Nat) : f (c.popAll u) = f c := by
  have hl : ∀ (l : List Nat) (c : Ctx), f (l.foldl (fun c g =>
      let x := c.stream g
      if x.bnd && !x.wr && u.contains (if x.clsW then 48 + x.reg.val else vId (16 + x.reg.val)) then c.pop g else c) c) = f c := by
    intro l
    induction l with
    | nil => intro c; rfl
    | cons y l ih => intro c; rw [List.foldl_cons, ih]; simp only [apply_ite f, hf, ite_self]
  exact hl _ c

@[simp] theorem Ctx.popAll_w (c : Ctx) (u : List Nat) : (c.popAll u).w = c.w :=
  Ctx.popAll_keeps (·.w) (fun _ _ => rfl) c u
@[simp] theorem Ctx.popAll_v (c : Ctx) (u : List Nat) : (c.popAll u).v = c.v :=
  Ctx.popAll_keeps (·.v) (fun _ _ => rfl) c u
@[simp] theorem Ctx.popAll_p (c : Ctx) (u : List Nat) : (c.popAll u).p = c.p :=
  Ctx.popAll_keeps (·.p) (fun _ _ => rfl) c u
@[simp] theorem Ctx.popAll_lc (c : Ctx) (u : List Nat) : (c.popAll u).lc = c.lc :=
  Ctx.popAll_keeps (·.lc) (fun _ _ => rfl) c u
@[simp] theorem Ctx.popAll_fm (c : Ctx) (u : List Nat) : (c.popAll u).fm = c.fm :=
  Ctx.popAll_keeps (·.fm) (fun _ _ => rfl) c u
@[simp] theorem Ctx.popAll_cw (c : Ctx) (u : List Nat) : (c.popAll u).cw = c.cw :=
  Ctx.popAll_keeps (·.cw) (fun _ _ => rfl) c u
@[simp] theorem Ctx.popAll_mb (c : Ctx) (u : List Nat) : (c.popAll u).mb = c.mb :=
  Ctx.popAll_keeps (·.mb) (fun _ _ => rfl) c u
@[simp] theorem Ctx.popAll_tb (c : Ctx) (u : List Nat) : (c.popAll u).tb = c.tb :=
  Ctx.popAll_keeps (·.tb) (fun _ _ => rfl) c u
@[simp] theorem Ctx.popAll_tbPend (c : Ctx) (u : List Nat) : (c.popAll u).tbPend = c.tbPend :=
  Ctx.popAll_keeps (·.tbPend) (fun _ _ => rfl) c u
@[simp] theorem Ctx.popAll_fb (c : Ctx) (u : List Nat) : (c.popAll u).fb = c.fb :=
  Ctx.popAll_keeps (·.fb) (fun _ _ => rfl) c u
@[simp] theorem Ctx.popAll_st (c : Ctx) (u : List Nat) : (c.popAll u).st = c.st :=
  Ctx.popAll_keeps (·.st) (fun _ _ => rfl) c u
@[simp] theorem Ctx.popAll_epc (c : Ctx) (u : List Nat) : (c.popAll u).epc = c.epc :=
  Ctx.popAll_keeps (·.epc) (fun _ _ => rfl) c u
@[simp] theorem Ctx.popAll_esr (c : Ctx) (u : List Nat) : (c.popAll u).esr = c.esr :=
  Ctx.popAll_keeps (·.esr) (fun _ _ => rfl) c u
@[simp] theorem Ctx.popAll_ecause (c : Ctx) (u : List Nat) : (c.popAll u).ecause = c.ecause :=
  Ctx.popAll_keeps (·.ecause) (fun _ _ => rfl) c u
@[simp] theorem Ctx.popAll_einfo (c : Ctx) (u : List Nat) : (c.popAll u).einfo = c.einfo :=
  Ctx.popAll_keeps (·.einfo) (fun _ _ => rfl) c u
@[simp] theorem Ctx.popAll_erh (c : Ctx) (u : List Nat) : (c.popAll u).erh = c.erh :=
  Ctx.popAll_keeps (·.erh) (fun _ _ => rfl) c u
@[simp] theorem Ctx.popAll_erl (c : Ctx) (u : List Nat) : (c.popAll u).erl = c.erl :=
  Ctx.popAll_keeps (·.erl) (fun _ _ => rfl) c u
@[simp] theorem Ctx.popAll_tvec (c : Ctx) (u : List Nat) : (c.popAll u).tvec = c.tvec :=
  Ctx.popAll_keeps (·.tvec) (fun _ _ => rfl) c u
@[simp] theorem Ctx.popAll_hdrop (c : Ctx) (u : List Nat) : (c.popAll u).hdrop = c.hdrop :=
  Ctx.popAll_keeps (·.hdrop) (fun _ _ => rfl) c u
@[simp] theorem Ctx.popAll_ident (c : Ctx) (u : List Nat) : (c.popAll u).ident = c.ident :=
  Ctx.popAll_keeps (·.ident) (fun _ _ => rfl) c u
@[simp] theorem Ctx.popAll_gen (c : Ctx) (u : List Nat) : (c.popAll u).gen = c.gen :=
  Ctx.popAll_keeps (·.gen) (fun _ _ => rfl) c u
@[simp] theorem Ctx.popAll_tenant (c : Ctx) (u : List Nat) : (c.popAll u).tenant = c.tenant :=
  Ctx.popAll_keeps (·.tenant) (fun _ _ => rfl) c u
@[simp] theorem Ctx.popAll_code (c : Ctx) (u : List Nat) : (c.popAll u).code = c.code :=
  Ctx.popAll_keeps (·.code) (fun _ _ => rfl) c u
@[simp] theorem Ctx.popAll_fcap (c : Ctx) (u : List Nat) : (c.popAll u).fcap = c.fcap :=
  Ctx.popAll_keeps (·.fcap) (fun _ _ => rfl) c u
@[simp] theorem Ctx.popAll_pc (c : Ctx) (u : List Nat) : (c.popAll u).pc = c.pc :=
  Ctx.popAll_keeps (·.pc) (fun _ _ => rfl) c u
@[simp] theorem Ctx.popAll_hdr (c : Ctx) (u : List Nat) : (c.popAll u).hdr = c.hdr :=
  Ctx.popAll_keeps (·.hdr) (fun _ _ => rfl) c u
@[simp] theorem Ctx.popAll_len (c : Ctx) (u : List Nat) : (c.popAll u).len = c.len :=
  Ctx.popAll_keeps (·.len) (fun _ _ => rfl) c u
@[simp] theorem Ctx.popAll_entry (c : Ctx) (u : List Nat) : (c.popAll u).entry = c.entry :=
  Ctx.popAll_keeps (·.entry) (fun _ _ => rfl) c u
@[simp] theorem Ctx.popAll_run (c : Ctx) (u : List Nat) : (c.popAll u).run = c.run :=
  Ctx.popAll_keeps (·.run) (fun _ _ => rfl) c u
@[simp] theorem Ctx.popAll_dbl (c : Ctx) (u : List Nat) : (c.popAll u).dbl = c.dbl :=
  Ctx.popAll_keeps (·.dbl) (fun _ _ => rfl) c u
@[simp] theorem Ctx.popAll_awW (c : Ctx) (u : List Nat) : (c.popAll u).awW = c.awW :=
  Ctx.popAll_keeps (·.awW) (fun _ _ => rfl) c u
@[simp] theorem Ctx.popAll_awV (c : Ctx) (u : List Nat) : (c.popAll u).awV = c.awV :=
  Ctx.popAll_keeps (·.awV) (fun _ _ => rfl) c u
@[simp] theorem Ctx.popAll_awP (c : Ctx) (u : List Nat) : (c.popAll u).awP = c.awP :=
  Ctx.popAll_keeps (·.awP) (fun _ _ => rfl) c u
@[simp] theorem Ctx.popAll_povr (c : Ctx) (u : List Nat) : (c.popAll u).povr = c.povr :=
  Ctx.popAll_keeps (·.povr) (fun _ _ => rfl) c u
@[simp] theorem Ctx.popAll_rovf (c : Ctx) (u : List Nat) : (c.popAll u).rovf = c.rovf :=
  Ctx.popAll_keeps (·.rovf) (fun _ _ => rfl) c u
@[simp] theorem Ctx.popAll_mbox (c : Ctx) (u : List Nat) : (c.popAll u).mbox = c.mbox :=
  Ctx.popAll_keeps (·.mbox) (fun _ _ => rfl) c u
@[simp] theorem Ctx.popAll_seqs (c : Ctx) (u : List Nat) : (c.popAll u).seqs = c.seqs :=
  Ctx.popAll_keeps (·.seqs) (fun _ _ => rfl) c u
@[simp] theorem Ctx.popAll_sq (c : Ctx) (u : List Nat) : (c.popAll u).sq = c.sq :=
  Ctx.popAll_keeps (·.sq) (fun _ _ => rfl) c u
@[simp] theorem Ctx.popAll_aset (c : Ctx) (u : List Nat) : (c.popAll u).aset = c.aset :=
  Ctx.popAll_keeps (·.aset) (fun _ _ => rfl) c u
@[simp] theorem Ctx.popAll_credits (c : Ctx) (u : List Nat) : (c.popAll u).credits = c.credits :=
  Ctx.popAll_keeps (·.credits) (fun _ _ => rfl) c u
@[simp] theorem Ctx.popAll_allow (c : Ctx) (u : List Nat) : (c.popAll u).allow = c.allow :=
  Ctx.popAll_keeps (·.allow) (fun _ _ => rfl) c u
@[simp] theorem Ctx.popAll_failedMon (c : Ctx) (u : List Nat) : (c.popAll u).failedMon = c.failedMon :=
  Ctx.popAll_keeps (·.failedMon) (fun _ _ => rfl) c u
@[simp] theorem Ctx.popAll_stopMark (c : Ctx) (u : List Nat) : (c.popAll u).stopMark = c.stopMark :=
  Ctx.popAll_keeps (·.stopMark) (fun _ _ => rfl) c u
@[simp] theorem Ctx.popAll_ras (c : Ctx) (u : List Nat) : (c.popAll u).ras = c.ras :=
  Ctx.popAll_keeps (·.ras) (fun _ _ => rfl) c u
@[simp] theorem Ctx.popAll_pend (c : Ctx) (u : List Nat) : (c.popAll u).pend = c.pend :=
  Ctx.popAll_keeps (·.pend) (fun _ _ => rfl) c u
@[simp] theorem Ctx.popAll_answer (c : Ctx) (u : List Nat) : (c.popAll u).answer = c.answer :=
  Ctx.popAll_keeps (·.answer) (fun _ _ => rfl) c u
@[simp] theorem Ctx.popAll_cont (c : Ctx) (u : List Nat) : (c.popAll u).cont = c.cont :=
  Ctx.popAll_keeps (·.cont) (fun _ _ => rfl) c u
@[simp] theorem Ctx.popAll_yieldSig (c : Ctx) (u : List Nat) : (c.popAll u).yieldSig = c.yieldSig :=
  Ctx.popAll_keeps (·.yieldSig) (fun _ _ => rfl) c u
@[simp] theorem Ctx.popAll_walk (c : Ctx) (u : List Nat) : (c.popAll u).walk = c.walk :=
  Ctx.popAll_keeps (·.walk) (fun _ _ => rfl) c u
@[simp] theorem Ctx.popAll_walkFault (c : Ctx) (u : List Nat) : (c.popAll u).walkFault = c.walkFault :=
  Ctx.popAll_keeps (·.walkFault) (fun _ _ => rfl) c u
@[simp] theorem Ctx.popAll_stalled (c : Ctx) (u : List Nat) : (c.popAll u).stalled = c.stalled :=
  Ctx.popAll_keeps (·.stalled) (fun _ _ => rfl) c u
@[simp] theorem Ctx.popAll_passed (c : Ctx) (u : List Nat) : (c.popAll u).passed = c.passed :=
  Ctx.popAll_keeps (·.passed) (fun _ _ => rfl) c u
@[simp] theorem Ctx.popAll_counted (c : Ctx) (u : List Nat) : (c.popAll u).counted = c.counted :=
  Ctx.popAll_keeps (·.counted) (fun _ _ => rfl) c u
@[simp] theorem Ctx.popAll_gbar (c : Ctx) (u : List Nat) : (c.popAll u).gbar = c.gbar :=
  Ctx.popAll_keeps (·.gbar) (fun _ _ => rfl) c u
@[simp] theorem Ctx.popAll_kv (c : Ctx) (u : List Nat) : (c.popAll u).kv = c.kv :=
  Ctx.popAll_keeps (·.kv) (fun _ _ => rfl) c u
@[simp] theorem Ctx.popAll_place (c : Ctx) (u : List Nat) : (c.popAll u).place = c.place :=
  Ctx.popAll_keeps (·.place) (fun _ _ => rfl) c u
@[simp] theorem Ctx.popAll_pfh (c : Ctx) (u : List Nat) : (c.popAll u).pfh = c.pfh :=
  Ctx.popAll_keeps (·.pfh) (fun _ _ => rfl) c u
@[simp] theorem Ctx.popAll_isOpen (c : Ctx) (u : List Nat) : (c.popAll u).isOpen = c.isOpen :=
  Ctx.popAll_keeps (·.isOpen) (fun _ _ => rfl) c u

@[simp] theorem Ctx.stepOver_w (c : Ctx) (n : Nat) : (c.stepOver n).w = c.w := by
  unfold Ctx.stepOver; split <;> rfl
@[simp] theorem Ctx.stepOver_v (c : Ctx) (n : Nat) : (c.stepOver n).v = c.v := by
  unfold Ctx.stepOver; split <;> rfl
@[simp] theorem Ctx.stepOver_p (c : Ctx) (n : Nat) : (c.stepOver n).p = c.p := by
  unfold Ctx.stepOver; split <;> rfl
@[simp] theorem Ctx.stepOver_lc (c : Ctx) (n : Nat) : (c.stepOver n).lc = c.lc := by
  unfold Ctx.stepOver; split <;> rfl
@[simp] theorem Ctx.stepOver_fm (c : Ctx) (n : Nat) : (c.stepOver n).fm = c.fm := by
  unfold Ctx.stepOver; split <;> rfl
@[simp] theorem Ctx.stepOver_cw (c : Ctx) (n : Nat) : (c.stepOver n).cw = c.cw := by
  unfold Ctx.stepOver; split <;> rfl
@[simp] theorem Ctx.stepOver_mb (c : Ctx) (n : Nat) : (c.stepOver n).mb = c.mb := by
  unfold Ctx.stepOver; split <;> rfl
@[simp] theorem Ctx.stepOver_tb (c : Ctx) (n : Nat) : (c.stepOver n).tb = c.tb := by
  unfold Ctx.stepOver; split <;> rfl
@[simp] theorem Ctx.stepOver_tbPend (c : Ctx) (n : Nat) : (c.stepOver n).tbPend = c.tbPend := by
  unfold Ctx.stepOver; split <;> rfl
@[simp] theorem Ctx.stepOver_fb (c : Ctx) (n : Nat) : (c.stepOver n).fb = c.fb := by
  unfold Ctx.stepOver; split <;> rfl
@[simp] theorem Ctx.stepOver_sg (c : Ctx) (n : Nat) : (c.stepOver n).sg = c.sg := by
  unfold Ctx.stepOver; split <;> rfl
@[simp] theorem Ctx.stepOver_st (c : Ctx) (n : Nat) : (c.stepOver n).st = c.st := by
  unfold Ctx.stepOver; split <;> rfl
@[simp] theorem Ctx.stepOver_epc (c : Ctx) (n : Nat) : (c.stepOver n).epc = c.epc := by
  unfold Ctx.stepOver; split <;> rfl
@[simp] theorem Ctx.stepOver_esr (c : Ctx) (n : Nat) : (c.stepOver n).esr = c.esr := by
  unfold Ctx.stepOver; split <;> rfl
@[simp] theorem Ctx.stepOver_ecause (c : Ctx) (n : Nat) : (c.stepOver n).ecause = c.ecause := by
  unfold Ctx.stepOver; split <;> rfl
@[simp] theorem Ctx.stepOver_einfo (c : Ctx) (n : Nat) : (c.stepOver n).einfo = c.einfo := by
  unfold Ctx.stepOver; split <;> rfl
@[simp] theorem Ctx.stepOver_erh (c : Ctx) (n : Nat) : (c.stepOver n).erh = c.erh := by
  unfold Ctx.stepOver; split <;> rfl
@[simp] theorem Ctx.stepOver_erl (c : Ctx) (n : Nat) : (c.stepOver n).erl = c.erl := by
  unfold Ctx.stepOver; split <;> rfl
@[simp] theorem Ctx.stepOver_tvec (c : Ctx) (n : Nat) : (c.stepOver n).tvec = c.tvec := by
  unfold Ctx.stepOver; split <;> rfl
@[simp] theorem Ctx.stepOver_hdrop (c : Ctx) (n : Nat) : (c.stepOver n).hdrop = c.hdrop := by
  unfold Ctx.stepOver; split <;> rfl
@[simp] theorem Ctx.stepOver_ident (c : Ctx) (n : Nat) : (c.stepOver n).ident = c.ident := by
  unfold Ctx.stepOver; split <;> rfl
@[simp] theorem Ctx.stepOver_gen (c : Ctx) (n : Nat) : (c.stepOver n).gen = c.gen := by
  unfold Ctx.stepOver; split <;> rfl
@[simp] theorem Ctx.stepOver_tenant (c : Ctx) (n : Nat) : (c.stepOver n).tenant = c.tenant := by
  unfold Ctx.stepOver; split <;> rfl
@[simp] theorem Ctx.stepOver_code (c : Ctx) (n : Nat) : (c.stepOver n).code = c.code := by
  unfold Ctx.stepOver; split <;> rfl
@[simp] theorem Ctx.stepOver_fcap (c : Ctx) (n : Nat) : (c.stepOver n).fcap = c.fcap := by
  unfold Ctx.stepOver; split <;> rfl
@[simp] theorem Ctx.stepOver_hdr (c : Ctx) (n : Nat) : (c.stepOver n).hdr = c.hdr := by
  unfold Ctx.stepOver; split <;> rfl
@[simp] theorem Ctx.stepOver_len (c : Ctx) (n : Nat) : (c.stepOver n).len = c.len := by
  unfold Ctx.stepOver; split <;> rfl
@[simp] theorem Ctx.stepOver_run (c : Ctx) (n : Nat) : (c.stepOver n).run = c.run := by
  unfold Ctx.stepOver; split <;> rfl
@[simp] theorem Ctx.stepOver_dbl (c : Ctx) (n : Nat) : (c.stepOver n).dbl = c.dbl := by
  unfold Ctx.stepOver; split <;> rfl
@[simp] theorem Ctx.stepOver_awW (c : Ctx) (n : Nat) : (c.stepOver n).awW = c.awW := by
  unfold Ctx.stepOver; split <;> rfl
@[simp] theorem Ctx.stepOver_awV (c : Ctx) (n : Nat) : (c.stepOver n).awV = c.awV := by
  unfold Ctx.stepOver; split <;> rfl
@[simp] theorem Ctx.stepOver_awP (c : Ctx) (n : Nat) : (c.stepOver n).awP = c.awP := by
  unfold Ctx.stepOver; split <;> rfl
@[simp] theorem Ctx.stepOver_povr (c : Ctx) (n : Nat) : (c.stepOver n).povr = c.povr := by
  unfold Ctx.stepOver; split <;> rfl
@[simp] theorem Ctx.stepOver_rovf (c : Ctx) (n : Nat) : (c.stepOver n).rovf = c.rovf := by
  unfold Ctx.stepOver; split <;> rfl
@[simp] theorem Ctx.stepOver_mbox (c : Ctx) (n : Nat) : (c.stepOver n).mbox = c.mbox := by
  unfold Ctx.stepOver; split <;> rfl
@[simp] theorem Ctx.stepOver_seqs (c : Ctx) (n : Nat) : (c.stepOver n).seqs = c.seqs := by
  unfold Ctx.stepOver; split <;> rfl
@[simp] theorem Ctx.stepOver_sq (c : Ctx) (n : Nat) : (c.stepOver n).sq = c.sq := by
  unfold Ctx.stepOver; split <;> rfl
@[simp] theorem Ctx.stepOver_aset (c : Ctx) (n : Nat) : (c.stepOver n).aset = c.aset := by
  unfold Ctx.stepOver; split <;> rfl
@[simp] theorem Ctx.stepOver_credits (c : Ctx) (n : Nat) : (c.stepOver n).credits = c.credits := by
  unfold Ctx.stepOver; split <;> rfl
@[simp] theorem Ctx.stepOver_allow (c : Ctx) (n : Nat) : (c.stepOver n).allow = c.allow := by
  unfold Ctx.stepOver; split <;> rfl
@[simp] theorem Ctx.stepOver_failedMon (c : Ctx) (n : Nat) : (c.stepOver n).failedMon = c.failedMon := by
  unfold Ctx.stepOver; split <;> rfl
@[simp] theorem Ctx.stepOver_stopMark (c : Ctx) (n : Nat) : (c.stepOver n).stopMark = c.stopMark := by
  unfold Ctx.stepOver; split <;> rfl
@[simp] theorem Ctx.stepOver_ras (c : Ctx) (n : Nat) : (c.stepOver n).ras = c.ras := by
  unfold Ctx.stepOver; split <;> rfl
@[simp] theorem Ctx.stepOver_pend (c : Ctx) (n : Nat) : (c.stepOver n).pend = c.pend := by
  unfold Ctx.stepOver; split <;> rfl
@[simp] theorem Ctx.stepOver_answer (c : Ctx) (n : Nat) : (c.stepOver n).answer = c.answer := by
  unfold Ctx.stepOver; split <;> rfl
@[simp] theorem Ctx.stepOver_cont (c : Ctx) (n : Nat) : (c.stepOver n).cont = c.cont := by
  unfold Ctx.stepOver; split <;> rfl
@[simp] theorem Ctx.stepOver_yieldSig (c : Ctx) (n : Nat) : (c.stepOver n).yieldSig = c.yieldSig := by
  unfold Ctx.stepOver; split <;> rfl
@[simp] theorem Ctx.stepOver_walk (c : Ctx) (n : Nat) : (c.stepOver n).walk = c.walk := by
  unfold Ctx.stepOver; split <;> rfl
@[simp] theorem Ctx.stepOver_walkFault (c : Ctx) (n : Nat) : (c.stepOver n).walkFault = c.walkFault := by
  unfold Ctx.stepOver; split <;> rfl
@[simp] theorem Ctx.stepOver_stalled (c : Ctx) (n : Nat) : (c.stepOver n).stalled = c.stalled := by
  unfold Ctx.stepOver; split <;> rfl
@[simp] theorem Ctx.stepOver_passed (c : Ctx) (n : Nat) : (c.stepOver n).passed = c.passed := by
  unfold Ctx.stepOver; split <;> rfl
@[simp] theorem Ctx.stepOver_counted (c : Ctx) (n : Nat) : (c.stepOver n).counted = c.counted := by
  unfold Ctx.stepOver; split <;> rfl
@[simp] theorem Ctx.stepOver_gbar (c : Ctx) (n : Nat) : (c.stepOver n).gbar = c.gbar := by
  unfold Ctx.stepOver; split <;> rfl
@[simp] theorem Ctx.stepOver_kv (c : Ctx) (n : Nat) : (c.stepOver n).kv = c.kv := by
  unfold Ctx.stepOver; split <;> rfl
@[simp] theorem Ctx.stepOver_place (c : Ctx) (n : Nat) : (c.stepOver n).place = c.place := by
  unfold Ctx.stepOver; split <;> rfl
@[simp] theorem Ctx.stepOver_pfh (c : Ctx) (n : Nat) : (c.stepOver n).pfh = c.pfh := by
  unfold Ctx.stepOver; split <;> rfl
@[simp] theorem Ctx.stepOver_isOpen (c : Ctx) (n : Nat) : (c.stepOver n).isOpen = c.isOpen := by
  unfold Ctx.stepOver; split <;> rfl

/-- What a change of st, a move past words and the end of a wait keep, the completion of an instruction keeps. -/
theorem Ctx.advance_keeps {β : Type} (f : Ctx → β) (h1 : ∀ c lo n v, f (Ctx.setSt c lo n v) = f c) (h2 : ∀ c n, f (Ctx.stepOver c n) = f c)
    (h3 : ∀ c : Ctx, f { c with passed := none, counted := false, kv := none, place := none } = f c) (c : Ctx) (n : Nat) : f (c.advance n) = f c := by
  unfold Ctx.advance
  extract_lets d
  split
  · rw [h1, h3]
  · rw [h2, h1]
    split
    · rw [h1, h3]
    · rw [h3]

@[simp] theorem Ctx.advance_w (c : Ctx) (n : Nat) : (c.advance n).w = c.w := 
  Ctx.advance_keeps (·.w) (fun _ _ _ _ => rfl) (fun _ _ => Ctx.stepOver_w ..) (fun _ => rfl) c n
@[simp] theorem Ctx.advance_v (c : Ctx) (n : Nat) : (c.advance n).v = c.v := 
  Ctx.advance_keeps (·.v) (fun _ _ _ _ => rfl) (fun _ _ => Ctx.stepOver_v ..) (fun _ => rfl) c n
@[simp] theorem Ctx.advance_p (c : Ctx) (n : Nat) : (c.advance n).p = c.p := 
  Ctx.advance_keeps (·.p) (fun _ _ _ _ => rfl) (fun _ _ => Ctx.stepOver_p ..) (fun _ => rfl) c n
@[simp] theorem Ctx.advance_lc (c : Ctx) (n : Nat) : (c.advance n).lc = c.lc := 
  Ctx.advance_keeps (·.lc) (fun _ _ _ _ => rfl) (fun _ _ => Ctx.stepOver_lc ..) (fun _ => rfl) c n
@[simp] theorem Ctx.advance_fm (c : Ctx) (n : Nat) : (c.advance n).fm = c.fm := 
  Ctx.advance_keeps (·.fm) (fun _ _ _ _ => rfl) (fun _ _ => Ctx.stepOver_fm ..) (fun _ => rfl) c n
@[simp] theorem Ctx.advance_cw (c : Ctx) (n : Nat) : (c.advance n).cw = c.cw := 
  Ctx.advance_keeps (·.cw) (fun _ _ _ _ => rfl) (fun _ _ => Ctx.stepOver_cw ..) (fun _ => rfl) c n
@[simp] theorem Ctx.advance_mb (c : Ctx) (n : Nat) : (c.advance n).mb = c.mb := 
  Ctx.advance_keeps (·.mb) (fun _ _ _ _ => rfl) (fun _ _ => Ctx.stepOver_mb ..) (fun _ => rfl) c n
@[simp] theorem Ctx.advance_tb (c : Ctx) (n : Nat) : (c.advance n).tb = c.tb := 
  Ctx.advance_keeps (·.tb) (fun _ _ _ _ => rfl) (fun _ _ => Ctx.stepOver_tb ..) (fun _ => rfl) c n
@[simp] theorem Ctx.advance_tbPend (c : Ctx) (n : Nat) : (c.advance n).tbPend = c.tbPend := 
  Ctx.advance_keeps (·.tbPend) (fun _ _ _ _ => rfl) (fun _ _ => Ctx.stepOver_tbPend ..) (fun _ => rfl) c n
@[simp] theorem Ctx.advance_fb (c : Ctx) (n : Nat) : (c.advance n).fb = c.fb := 
  Ctx.advance_keeps (·.fb) (fun _ _ _ _ => rfl) (fun _ _ => Ctx.stepOver_fb ..) (fun _ => rfl) c n
@[simp] theorem Ctx.advance_sg (c : Ctx) (n : Nat) : (c.advance n).sg = c.sg := 
  Ctx.advance_keeps (·.sg) (fun _ _ _ _ => rfl) (fun _ _ => Ctx.stepOver_sg ..) (fun _ => rfl) c n
@[simp] theorem Ctx.advance_epc (c : Ctx) (n : Nat) : (c.advance n).epc = c.epc := 
  Ctx.advance_keeps (·.epc) (fun _ _ _ _ => rfl) (fun _ _ => Ctx.stepOver_epc ..) (fun _ => rfl) c n
@[simp] theorem Ctx.advance_esr (c : Ctx) (n : Nat) : (c.advance n).esr = c.esr := 
  Ctx.advance_keeps (·.esr) (fun _ _ _ _ => rfl) (fun _ _ => Ctx.stepOver_esr ..) (fun _ => rfl) c n
@[simp] theorem Ctx.advance_ecause (c : Ctx) (n : Nat) : (c.advance n).ecause = c.ecause := 
  Ctx.advance_keeps (·.ecause) (fun _ _ _ _ => rfl) (fun _ _ => Ctx.stepOver_ecause ..) (fun _ => rfl) c n
@[simp] theorem Ctx.advance_einfo (c : Ctx) (n : Nat) : (c.advance n).einfo = c.einfo := 
  Ctx.advance_keeps (·.einfo) (fun _ _ _ _ => rfl) (fun _ _ => Ctx.stepOver_einfo ..) (fun _ => rfl) c n
@[simp] theorem Ctx.advance_erh (c : Ctx) (n : Nat) : (c.advance n).erh = c.erh := 
  Ctx.advance_keeps (·.erh) (fun _ _ _ _ => rfl) (fun _ _ => Ctx.stepOver_erh ..) (fun _ => rfl) c n
@[simp] theorem Ctx.advance_erl (c : Ctx) (n : Nat) : (c.advance n).erl = c.erl := 
  Ctx.advance_keeps (·.erl) (fun _ _ _ _ => rfl) (fun _ _ => Ctx.stepOver_erl ..) (fun _ => rfl) c n
@[simp] theorem Ctx.advance_tvec (c : Ctx) (n : Nat) : (c.advance n).tvec = c.tvec := 
  Ctx.advance_keeps (·.tvec) (fun _ _ _ _ => rfl) (fun _ _ => Ctx.stepOver_tvec ..) (fun _ => rfl) c n
@[simp] theorem Ctx.advance_hdrop (c : Ctx) (n : Nat) : (c.advance n).hdrop = c.hdrop := 
  Ctx.advance_keeps (·.hdrop) (fun _ _ _ _ => rfl) (fun _ _ => Ctx.stepOver_hdrop ..) (fun _ => rfl) c n
@[simp] theorem Ctx.advance_ident (c : Ctx) (n : Nat) : (c.advance n).ident = c.ident := 
  Ctx.advance_keeps (·.ident) (fun _ _ _ _ => rfl) (fun _ _ => Ctx.stepOver_ident ..) (fun _ => rfl) c n
@[simp] theorem Ctx.advance_gen (c : Ctx) (n : Nat) : (c.advance n).gen = c.gen := 
  Ctx.advance_keeps (·.gen) (fun _ _ _ _ => rfl) (fun _ _ => Ctx.stepOver_gen ..) (fun _ => rfl) c n
@[simp] theorem Ctx.advance_tenant (c : Ctx) (n : Nat) : (c.advance n).tenant = c.tenant := 
  Ctx.advance_keeps (·.tenant) (fun _ _ _ _ => rfl) (fun _ _ => Ctx.stepOver_tenant ..) (fun _ => rfl) c n
@[simp] theorem Ctx.advance_code (c : Ctx) (n : Nat) : (c.advance n).code = c.code := 
  Ctx.advance_keeps (·.code) (fun _ _ _ _ => rfl) (fun _ _ => Ctx.stepOver_code ..) (fun _ => rfl) c n
@[simp] theorem Ctx.advance_fcap (c : Ctx) (n : Nat) : (c.advance n).fcap = c.fcap := 
  Ctx.advance_keeps (·.fcap) (fun _ _ _ _ => rfl) (fun _ _ => Ctx.stepOver_fcap ..) (fun _ => rfl) c n
@[simp] theorem Ctx.advance_hdr (c : Ctx) (n : Nat) : (c.advance n).hdr = c.hdr := 
  Ctx.advance_keeps (·.hdr) (fun _ _ _ _ => rfl) (fun _ _ => Ctx.stepOver_hdr ..) (fun _ => rfl) c n
@[simp] theorem Ctx.advance_len (c : Ctx) (n : Nat) : (c.advance n).len = c.len := 
  Ctx.advance_keeps (·.len) (fun _ _ _ _ => rfl) (fun _ _ => Ctx.stepOver_len ..) (fun _ => rfl) c n
@[simp] theorem Ctx.advance_run (c : Ctx) (n : Nat) : (c.advance n).run = c.run := 
  Ctx.advance_keeps (·.run) (fun _ _ _ _ => rfl) (fun _ _ => Ctx.stepOver_run ..) (fun _ => rfl) c n
@[simp] theorem Ctx.advance_dbl (c : Ctx) (n : Nat) : (c.advance n).dbl = c.dbl := 
  Ctx.advance_keeps (·.dbl) (fun _ _ _ _ => rfl) (fun _ _ => Ctx.stepOver_dbl ..) (fun _ => rfl) c n
@[simp] theorem Ctx.advance_awW (c : Ctx) (n : Nat) : (c.advance n).awW = c.awW := 
  Ctx.advance_keeps (·.awW) (fun _ _ _ _ => rfl) (fun _ _ => Ctx.stepOver_awW ..) (fun _ => rfl) c n
@[simp] theorem Ctx.advance_awV (c : Ctx) (n : Nat) : (c.advance n).awV = c.awV := 
  Ctx.advance_keeps (·.awV) (fun _ _ _ _ => rfl) (fun _ _ => Ctx.stepOver_awV ..) (fun _ => rfl) c n
@[simp] theorem Ctx.advance_awP (c : Ctx) (n : Nat) : (c.advance n).awP = c.awP := 
  Ctx.advance_keeps (·.awP) (fun _ _ _ _ => rfl) (fun _ _ => Ctx.stepOver_awP ..) (fun _ => rfl) c n
@[simp] theorem Ctx.advance_povr (c : Ctx) (n : Nat) : (c.advance n).povr = c.povr := 
  Ctx.advance_keeps (·.povr) (fun _ _ _ _ => rfl) (fun _ _ => Ctx.stepOver_povr ..) (fun _ => rfl) c n
@[simp] theorem Ctx.advance_rovf (c : Ctx) (n : Nat) : (c.advance n).rovf = c.rovf := 
  Ctx.advance_keeps (·.rovf) (fun _ _ _ _ => rfl) (fun _ _ => Ctx.stepOver_rovf ..) (fun _ => rfl) c n
@[simp] theorem Ctx.advance_mbox (c : Ctx) (n : Nat) : (c.advance n).mbox = c.mbox := 
  Ctx.advance_keeps (·.mbox) (fun _ _ _ _ => rfl) (fun _ _ => Ctx.stepOver_mbox ..) (fun _ => rfl) c n
@[simp] theorem Ctx.advance_seqs (c : Ctx) (n : Nat) : (c.advance n).seqs = c.seqs := 
  Ctx.advance_keeps (·.seqs) (fun _ _ _ _ => rfl) (fun _ _ => Ctx.stepOver_seqs ..) (fun _ => rfl) c n
@[simp] theorem Ctx.advance_sq (c : Ctx) (n : Nat) : (c.advance n).sq = c.sq := 
  Ctx.advance_keeps (·.sq) (fun _ _ _ _ => rfl) (fun _ _ => Ctx.stepOver_sq ..) (fun _ => rfl) c n
@[simp] theorem Ctx.advance_aset (c : Ctx) (n : Nat) : (c.advance n).aset = c.aset := 
  Ctx.advance_keeps (·.aset) (fun _ _ _ _ => rfl) (fun _ _ => Ctx.stepOver_aset ..) (fun _ => rfl) c n
@[simp] theorem Ctx.advance_credits (c : Ctx) (n : Nat) : (c.advance n).credits = c.credits := 
  Ctx.advance_keeps (·.credits) (fun _ _ _ _ => rfl) (fun _ _ => Ctx.stepOver_credits ..) (fun _ => rfl) c n
@[simp] theorem Ctx.advance_allow (c : Ctx) (n : Nat) : (c.advance n).allow = c.allow := 
  Ctx.advance_keeps (·.allow) (fun _ _ _ _ => rfl) (fun _ _ => Ctx.stepOver_allow ..) (fun _ => rfl) c n
@[simp] theorem Ctx.advance_failedMon (c : Ctx) (n : Nat) : (c.advance n).failedMon = c.failedMon := 
  Ctx.advance_keeps (·.failedMon) (fun _ _ _ _ => rfl) (fun _ _ => Ctx.stepOver_failedMon ..) (fun _ => rfl) c n
@[simp] theorem Ctx.advance_stopMark (c : Ctx) (n : Nat) : (c.advance n).stopMark = c.stopMark := 
  Ctx.advance_keeps (·.stopMark) (fun _ _ _ _ => rfl) (fun _ _ => Ctx.stepOver_stopMark ..) (fun _ => rfl) c n
@[simp] theorem Ctx.advance_ras (c : Ctx) (n : Nat) : (c.advance n).ras = c.ras := 
  Ctx.advance_keeps (·.ras) (fun _ _ _ _ => rfl) (fun _ _ => Ctx.stepOver_ras ..) (fun _ => rfl) c n
@[simp] theorem Ctx.advance_pend (c : Ctx) (n : Nat) : (c.advance n).pend = c.pend := 
  Ctx.advance_keeps (·.pend) (fun _ _ _ _ => rfl) (fun _ _ => Ctx.stepOver_pend ..) (fun _ => rfl) c n
@[simp] theorem Ctx.advance_answer (c : Ctx) (n : Nat) : (c.advance n).answer = c.answer := 
  Ctx.advance_keeps (·.answer) (fun _ _ _ _ => rfl) (fun _ _ => Ctx.stepOver_answer ..) (fun _ => rfl) c n
@[simp] theorem Ctx.advance_cont (c : Ctx) (n : Nat) : (c.advance n).cont = c.cont := 
  Ctx.advance_keeps (·.cont) (fun _ _ _ _ => rfl) (fun _ _ => Ctx.stepOver_cont ..) (fun _ => rfl) c n
@[simp] theorem Ctx.advance_yieldSig (c : Ctx) (n : Nat) : (c.advance n).yieldSig = c.yieldSig := 
  Ctx.advance_keeps (·.yieldSig) (fun _ _ _ _ => rfl) (fun _ _ => Ctx.stepOver_yieldSig ..) (fun _ => rfl) c n
@[simp] theorem Ctx.advance_walk (c : Ctx) (n : Nat) : (c.advance n).walk = c.walk := 
  Ctx.advance_keeps (·.walk) (fun _ _ _ _ => rfl) (fun _ _ => Ctx.stepOver_walk ..) (fun _ => rfl) c n
@[simp] theorem Ctx.advance_walkFault (c : Ctx) (n : Nat) : (c.advance n).walkFault = c.walkFault := 
  Ctx.advance_keeps (·.walkFault) (fun _ _ _ _ => rfl) (fun _ _ => Ctx.stepOver_walkFault ..) (fun _ => rfl) c n
@[simp] theorem Ctx.advance_stalled (c : Ctx) (n : Nat) : (c.advance n).stalled = c.stalled := 
  Ctx.advance_keeps (·.stalled) (fun _ _ _ _ => rfl) (fun _ _ => Ctx.stepOver_stalled ..) (fun _ => rfl) c n
@[simp] theorem Ctx.advance_gbar (c : Ctx) (n : Nat) : (c.advance n).gbar = c.gbar := 
  Ctx.advance_keeps (·.gbar) (fun _ _ _ _ => rfl) (fun _ _ => Ctx.stepOver_gbar ..) (fun _ => rfl) c n
@[simp] theorem Ctx.advance_pfh (c : Ctx) (n : Nat) : (c.advance n).pfh = c.pfh := 
  Ctx.advance_keeps (·.pfh) (fun _ _ _ _ => rfl) (fun _ _ => Ctx.stepOver_pfh ..) (fun _ => rfl) c n
@[simp] theorem Ctx.advance_isOpen (c : Ctx) (n : Nat) : (c.advance n).isOpen = c.isOpen := 
  Ctx.advance_keeps (·.isOpen) (fun _ _ _ _ => rfl) (fun _ _ => Ctx.stepOver_isOpen ..) (fun _ => rfl) c n

@[simp] theorem Ctx.writeW_v (c : Ctx) (d : Fin 64) (x : Wreg) : (c.writeW d x).v = c.v := by
  unfold Ctx.writeW; split
  · rfl
  · split
    · rfl
    · split <;> rfl
@[simp] theorem Ctx.writeW_p (c : Ctx) (d : Fin 64) (x : Wreg) : (c.writeW d x).p = c.p := by
  unfold Ctx.writeW; split
  · rfl
  · split
    · rfl
    · split <;> rfl
@[simp] theorem Ctx.writeW_lc (c : Ctx) (d : Fin 64) (x : Wreg) : (c.writeW d x).lc = c.lc := by
  unfold Ctx.writeW; split
  · rfl
  · split
    · rfl
    · split <;> rfl
@[simp] theorem Ctx.writeW_fm (c : Ctx) (d : Fin 64) (x : Wreg) : (c.writeW d x).fm = c.fm := by
  unfold Ctx.writeW; split
  · rfl
  · split
    · rfl
    · split <;> rfl
@[simp] theorem Ctx.writeW_cw (c : Ctx) (d : Fin 64) (x : Wreg) : (c.writeW d x).cw = c.cw := by
  unfold Ctx.writeW; split
  · rfl
  · split
    · rfl
    · split <;> rfl
@[simp] theorem Ctx.writeW_mb (c : Ctx) (d : Fin 64) (x : Wreg) : (c.writeW d x).mb = c.mb := by
  unfold Ctx.writeW; split
  · rfl
  · split
    · rfl
    · split <;> rfl
@[simp] theorem Ctx.writeW_tb (c : Ctx) (d : Fin 64) (x : Wreg) : (c.writeW d x).tb = c.tb := by
  unfold Ctx.writeW; split
  · rfl
  · split
    · rfl
    · split <;> rfl
@[simp] theorem Ctx.writeW_tbPend (c : Ctx) (d : Fin 64) (x : Wreg) : (c.writeW d x).tbPend = c.tbPend := by
  unfold Ctx.writeW; split
  · rfl
  · split
    · rfl
    · split <;> rfl
@[simp] theorem Ctx.writeW_fb (c : Ctx) (d : Fin 64) (x : Wreg) : (c.writeW d x).fb = c.fb := by
  unfold Ctx.writeW; split
  · rfl
  · split
    · rfl
    · split <;> rfl
@[simp] theorem Ctx.writeW_st (c : Ctx) (d : Fin 64) (x : Wreg) : (c.writeW d x).st = c.st := by
  unfold Ctx.writeW; split
  · rfl
  · split
    · rfl
    · split <;> rfl
@[simp] theorem Ctx.writeW_epc (c : Ctx) (d : Fin 64) (x : Wreg) : (c.writeW d x).epc = c.epc := by
  unfold Ctx.writeW; split
  · rfl
  · split
    · rfl
    · split <;> rfl
@[simp] theorem Ctx.writeW_esr (c : Ctx) (d : Fin 64) (x : Wreg) : (c.writeW d x).esr = c.esr := by
  unfold Ctx.writeW; split
  · rfl
  · split
    · rfl
    · split <;> rfl
@[simp] theorem Ctx.writeW_ecause (c : Ctx) (d : Fin 64) (x : Wreg) : (c.writeW d x).ecause = c.ecause := by
  unfold Ctx.writeW; split
  · rfl
  · split
    · rfl
    · split <;> rfl
@[simp] theorem Ctx.writeW_einfo (c : Ctx) (d : Fin 64) (x : Wreg) : (c.writeW d x).einfo = c.einfo := by
  unfold Ctx.writeW; split
  · rfl
  · split
    · rfl
    · split <;> rfl
@[simp] theorem Ctx.writeW_erh (c : Ctx) (d : Fin 64) (x : Wreg) : (c.writeW d x).erh = c.erh := by
  unfold Ctx.writeW; split
  · rfl
  · split
    · rfl
    · split <;> rfl
@[simp] theorem Ctx.writeW_erl (c : Ctx) (d : Fin 64) (x : Wreg) : (c.writeW d x).erl = c.erl := by
  unfold Ctx.writeW; split
  · rfl
  · split
    · rfl
    · split <;> rfl
@[simp] theorem Ctx.writeW_tvec (c : Ctx) (d : Fin 64) (x : Wreg) : (c.writeW d x).tvec = c.tvec := by
  unfold Ctx.writeW; split
  · rfl
  · split
    · rfl
    · split <;> rfl
@[simp] theorem Ctx.writeW_hdrop (c : Ctx) (d : Fin 64) (x : Wreg) : (c.writeW d x).hdrop = c.hdrop := by
  unfold Ctx.writeW; split
  · rfl
  · split
    · rfl
    · split <;> rfl
@[simp] theorem Ctx.writeW_ident (c : Ctx) (d : Fin 64) (x : Wreg) : (c.writeW d x).ident = c.ident := by
  unfold Ctx.writeW; split
  · rfl
  · split
    · rfl
    · split <;> rfl
@[simp] theorem Ctx.writeW_gen (c : Ctx) (d : Fin 64) (x : Wreg) : (c.writeW d x).gen = c.gen := by
  unfold Ctx.writeW; split
  · rfl
  · split
    · rfl
    · split <;> rfl
@[simp] theorem Ctx.writeW_tenant (c : Ctx) (d : Fin 64) (x : Wreg) : (c.writeW d x).tenant = c.tenant := by
  unfold Ctx.writeW; split
  · rfl
  · split
    · rfl
    · split <;> rfl
@[simp] theorem Ctx.writeW_code (c : Ctx) (d : Fin 64) (x : Wreg) : (c.writeW d x).code = c.code := by
  unfold Ctx.writeW; split
  · rfl
  · split
    · rfl
    · split <;> rfl
@[simp] theorem Ctx.writeW_fcap (c : Ctx) (d : Fin 64) (x : Wreg) : (c.writeW d x).fcap = c.fcap := by
  unfold Ctx.writeW; split
  · rfl
  · split
    · rfl
    · split <;> rfl
@[simp] theorem Ctx.writeW_pc (c : Ctx) (d : Fin 64) (x : Wreg) : (c.writeW d x).pc = c.pc := by
  unfold Ctx.writeW; split
  · rfl
  · split
    · rfl
    · split <;> rfl
@[simp] theorem Ctx.writeW_hdr (c : Ctx) (d : Fin 64) (x : Wreg) : (c.writeW d x).hdr = c.hdr := by
  unfold Ctx.writeW; split
  · rfl
  · split
    · rfl
    · split <;> rfl
@[simp] theorem Ctx.writeW_len (c : Ctx) (d : Fin 64) (x : Wreg) : (c.writeW d x).len = c.len := by
  unfold Ctx.writeW; split
  · rfl
  · split
    · rfl
    · split <;> rfl
@[simp] theorem Ctx.writeW_entry (c : Ctx) (d : Fin 64) (x : Wreg) : (c.writeW d x).entry = c.entry := by
  unfold Ctx.writeW; split
  · rfl
  · split
    · rfl
    · split <;> rfl
@[simp] theorem Ctx.writeW_run (c : Ctx) (d : Fin 64) (x : Wreg) : (c.writeW d x).run = c.run := by
  unfold Ctx.writeW; split
  · rfl
  · split
    · rfl
    · split <;> rfl
@[simp] theorem Ctx.writeW_dbl (c : Ctx) (d : Fin 64) (x : Wreg) : (c.writeW d x).dbl = c.dbl := by
  unfold Ctx.writeW; split
  · rfl
  · split
    · rfl
    · split <;> rfl
@[simp] theorem Ctx.writeW_awW (c : Ctx) (d : Fin 64) (x : Wreg) : (c.writeW d x).awW = c.awW := by
  unfold Ctx.writeW; split
  · rfl
  · split
    · rfl
    · split <;> rfl
@[simp] theorem Ctx.writeW_awV (c : Ctx) (d : Fin 64) (x : Wreg) : (c.writeW d x).awV = c.awV := by
  unfold Ctx.writeW; split
  · rfl
  · split
    · rfl
    · split <;> rfl
@[simp] theorem Ctx.writeW_awP (c : Ctx) (d : Fin 64) (x : Wreg) : (c.writeW d x).awP = c.awP := by
  unfold Ctx.writeW; split
  · rfl
  · split
    · rfl
    · split <;> rfl
@[simp] theorem Ctx.writeW_povr (c : Ctx) (d : Fin 64) (x : Wreg) : (c.writeW d x).povr = c.povr := by
  unfold Ctx.writeW; split
  · rfl
  · split
    · rfl
    · split <;> rfl
@[simp] theorem Ctx.writeW_rovf (c : Ctx) (d : Fin 64) (x : Wreg) : (c.writeW d x).rovf = c.rovf := by
  unfold Ctx.writeW; split
  · rfl
  · split
    · rfl
    · split <;> rfl
@[simp] theorem Ctx.writeW_mbox (c : Ctx) (d : Fin 64) (x : Wreg) : (c.writeW d x).mbox = c.mbox := by
  unfold Ctx.writeW; split
  · rfl
  · split
    · rfl
    · split <;> rfl
@[simp] theorem Ctx.writeW_seqs (c : Ctx) (d : Fin 64) (x : Wreg) : (c.writeW d x).seqs = c.seqs := by
  unfold Ctx.writeW; split
  · rfl
  · split
    · rfl
    · split <;> rfl
@[simp] theorem Ctx.writeW_sq (c : Ctx) (d : Fin 64) (x : Wreg) : (c.writeW d x).sq = c.sq := by
  unfold Ctx.writeW; split
  · rfl
  · split
    · rfl
    · split <;> rfl
@[simp] theorem Ctx.writeW_aset (c : Ctx) (d : Fin 64) (x : Wreg) : (c.writeW d x).aset = c.aset := by
  unfold Ctx.writeW; split
  · rfl
  · split
    · rfl
    · split <;> rfl
@[simp] theorem Ctx.writeW_credits (c : Ctx) (d : Fin 64) (x : Wreg) : (c.writeW d x).credits = c.credits := by
  unfold Ctx.writeW; split
  · rfl
  · split
    · rfl
    · split <;> rfl
@[simp] theorem Ctx.writeW_allow (c : Ctx) (d : Fin 64) (x : Wreg) : (c.writeW d x).allow = c.allow := by
  unfold Ctx.writeW; split
  · rfl
  · split
    · rfl
    · split <;> rfl
@[simp] theorem Ctx.writeW_failedMon (c : Ctx) (d : Fin 64) (x : Wreg) : (c.writeW d x).failedMon = c.failedMon := by
  unfold Ctx.writeW; split
  · rfl
  · split
    · rfl
    · split <;> rfl
@[simp] theorem Ctx.writeW_stopMark (c : Ctx) (d : Fin 64) (x : Wreg) : (c.writeW d x).stopMark = c.stopMark := by
  unfold Ctx.writeW; split
  · rfl
  · split
    · rfl
    · split <;> rfl
@[simp] theorem Ctx.writeW_ras (c : Ctx) (d : Fin 64) (x : Wreg) : (c.writeW d x).ras = c.ras := by
  unfold Ctx.writeW; split
  · rfl
  · split
    · rfl
    · split <;> rfl
@[simp] theorem Ctx.writeW_pend (c : Ctx) (d : Fin 64) (x : Wreg) : (c.writeW d x).pend = c.pend := by
  unfold Ctx.writeW; split
  · rfl
  · split
    · rfl
    · split <;> rfl
@[simp] theorem Ctx.writeW_answer (c : Ctx) (d : Fin 64) (x : Wreg) : (c.writeW d x).answer = c.answer := by
  unfold Ctx.writeW; split
  · rfl
  · split
    · rfl
    · split <;> rfl
@[simp] theorem Ctx.writeW_cont (c : Ctx) (d : Fin 64) (x : Wreg) : (c.writeW d x).cont = c.cont := by
  unfold Ctx.writeW; split
  · rfl
  · split
    · rfl
    · split <;> rfl
@[simp] theorem Ctx.writeW_yieldSig (c : Ctx) (d : Fin 64) (x : Wreg) : (c.writeW d x).yieldSig = c.yieldSig := by
  unfold Ctx.writeW; split
  · rfl
  · split
    · rfl
    · split <;> rfl
@[simp] theorem Ctx.writeW_walk (c : Ctx) (d : Fin 64) (x : Wreg) : (c.writeW d x).walk = c.walk := by
  unfold Ctx.writeW; split
  · rfl
  · split
    · rfl
    · split <;> rfl
@[simp] theorem Ctx.writeW_walkFault (c : Ctx) (d : Fin 64) (x : Wreg) : (c.writeW d x).walkFault = c.walkFault := by
  unfold Ctx.writeW; split
  · rfl
  · split
    · rfl
    · split <;> rfl
@[simp] theorem Ctx.writeW_stalled (c : Ctx) (d : Fin 64) (x : Wreg) : (c.writeW d x).stalled = c.stalled := by
  unfold Ctx.writeW; split
  · rfl
  · split
    · rfl
    · split <;> rfl
@[simp] theorem Ctx.writeW_passed (c : Ctx) (d : Fin 64) (x : Wreg) : (c.writeW d x).passed = c.passed := by
  unfold Ctx.writeW; split
  · rfl
  · split
    · rfl
    · split <;> rfl
@[simp] theorem Ctx.writeW_counted (c : Ctx) (d : Fin 64) (x : Wreg) : (c.writeW d x).counted = c.counted := by
  unfold Ctx.writeW; split
  · rfl
  · split
    · rfl
    · split <;> rfl
@[simp] theorem Ctx.writeW_gbar (c : Ctx) (d : Fin 64) (x : Wreg) : (c.writeW d x).gbar = c.gbar := by
  unfold Ctx.writeW; split
  · rfl
  · split
    · rfl
    · split <;> rfl
@[simp] theorem Ctx.writeW_kv (c : Ctx) (d : Fin 64) (x : Wreg) : (c.writeW d x).kv = c.kv := by
  unfold Ctx.writeW; split
  · rfl
  · split
    · rfl
    · split <;> rfl
@[simp] theorem Ctx.writeW_place (c : Ctx) (d : Fin 64) (x : Wreg) : (c.writeW d x).place = c.place := by
  unfold Ctx.writeW; split
  · rfl
  · split
    · rfl
    · split <;> rfl
@[simp] theorem Ctx.writeW_pfh (c : Ctx) (d : Fin 64) (x : Wreg) : (c.writeW d x).pfh = c.pfh := by
  unfold Ctx.writeW; split
  · rfl
  · split
    · rfl
    · split <;> rfl
@[simp] theorem Ctx.writeW_isOpen (c : Ctx) (d : Fin 64) (x : Wreg) : (c.writeW d x).isOpen = c.isOpen := by
  unfold Ctx.writeW; split
  · rfl
  · split
    · rfl
    · split <;> rfl

@[simp] theorem Ctx.writeV_w (c : Ctx) (d : Fin 64) (x : BitVec 1024) : (c.writeV d x).w = c.w := by
  unfold Ctx.writeV; split
  · rfl
  · split <;> rfl
@[simp] theorem Ctx.writeV_p (c : Ctx) (d : Fin 64) (x : BitVec 1024) : (c.writeV d x).p = c.p := by
  unfold Ctx.writeV; split
  · rfl
  · split <;> rfl
@[simp] theorem Ctx.writeV_lc (c : Ctx) (d : Fin 64) (x : BitVec 1024) : (c.writeV d x).lc = c.lc := by
  unfold Ctx.writeV; split
  · rfl
  · split <;> rfl
@[simp] theorem Ctx.writeV_fm (c : Ctx) (d : Fin 64) (x : BitVec 1024) : (c.writeV d x).fm = c.fm := by
  unfold Ctx.writeV; split
  · rfl
  · split <;> rfl
@[simp] theorem Ctx.writeV_cw (c : Ctx) (d : Fin 64) (x : BitVec 1024) : (c.writeV d x).cw = c.cw := by
  unfold Ctx.writeV; split
  · rfl
  · split <;> rfl
@[simp] theorem Ctx.writeV_mb (c : Ctx) (d : Fin 64) (x : BitVec 1024) : (c.writeV d x).mb = c.mb := by
  unfold Ctx.writeV; split
  · rfl
  · split <;> rfl
@[simp] theorem Ctx.writeV_tb (c : Ctx) (d : Fin 64) (x : BitVec 1024) : (c.writeV d x).tb = c.tb := by
  unfold Ctx.writeV; split
  · rfl
  · split <;> rfl
@[simp] theorem Ctx.writeV_tbPend (c : Ctx) (d : Fin 64) (x : BitVec 1024) : (c.writeV d x).tbPend = c.tbPend := by
  unfold Ctx.writeV; split
  · rfl
  · split <;> rfl
@[simp] theorem Ctx.writeV_fb (c : Ctx) (d : Fin 64) (x : BitVec 1024) : (c.writeV d x).fb = c.fb := by
  unfold Ctx.writeV; split
  · rfl
  · split <;> rfl
@[simp] theorem Ctx.writeV_st (c : Ctx) (d : Fin 64) (x : BitVec 1024) : (c.writeV d x).st = c.st := by
  unfold Ctx.writeV; split
  · rfl
  · split <;> rfl
@[simp] theorem Ctx.writeV_epc (c : Ctx) (d : Fin 64) (x : BitVec 1024) : (c.writeV d x).epc = c.epc := by
  unfold Ctx.writeV; split
  · rfl
  · split <;> rfl
@[simp] theorem Ctx.writeV_esr (c : Ctx) (d : Fin 64) (x : BitVec 1024) : (c.writeV d x).esr = c.esr := by
  unfold Ctx.writeV; split
  · rfl
  · split <;> rfl
@[simp] theorem Ctx.writeV_ecause (c : Ctx) (d : Fin 64) (x : BitVec 1024) : (c.writeV d x).ecause = c.ecause := by
  unfold Ctx.writeV; split
  · rfl
  · split <;> rfl
@[simp] theorem Ctx.writeV_einfo (c : Ctx) (d : Fin 64) (x : BitVec 1024) : (c.writeV d x).einfo = c.einfo := by
  unfold Ctx.writeV; split
  · rfl
  · split <;> rfl
@[simp] theorem Ctx.writeV_erh (c : Ctx) (d : Fin 64) (x : BitVec 1024) : (c.writeV d x).erh = c.erh := by
  unfold Ctx.writeV; split
  · rfl
  · split <;> rfl
@[simp] theorem Ctx.writeV_erl (c : Ctx) (d : Fin 64) (x : BitVec 1024) : (c.writeV d x).erl = c.erl := by
  unfold Ctx.writeV; split
  · rfl
  · split <;> rfl
@[simp] theorem Ctx.writeV_tvec (c : Ctx) (d : Fin 64) (x : BitVec 1024) : (c.writeV d x).tvec = c.tvec := by
  unfold Ctx.writeV; split
  · rfl
  · split <;> rfl
@[simp] theorem Ctx.writeV_hdrop (c : Ctx) (d : Fin 64) (x : BitVec 1024) : (c.writeV d x).hdrop = c.hdrop := by
  unfold Ctx.writeV; split
  · rfl
  · split <;> rfl
@[simp] theorem Ctx.writeV_ident (c : Ctx) (d : Fin 64) (x : BitVec 1024) : (c.writeV d x).ident = c.ident := by
  unfold Ctx.writeV; split
  · rfl
  · split <;> rfl
@[simp] theorem Ctx.writeV_gen (c : Ctx) (d : Fin 64) (x : BitVec 1024) : (c.writeV d x).gen = c.gen := by
  unfold Ctx.writeV; split
  · rfl
  · split <;> rfl
@[simp] theorem Ctx.writeV_tenant (c : Ctx) (d : Fin 64) (x : BitVec 1024) : (c.writeV d x).tenant = c.tenant := by
  unfold Ctx.writeV; split
  · rfl
  · split <;> rfl
@[simp] theorem Ctx.writeV_code (c : Ctx) (d : Fin 64) (x : BitVec 1024) : (c.writeV d x).code = c.code := by
  unfold Ctx.writeV; split
  · rfl
  · split <;> rfl
@[simp] theorem Ctx.writeV_fcap (c : Ctx) (d : Fin 64) (x : BitVec 1024) : (c.writeV d x).fcap = c.fcap := by
  unfold Ctx.writeV; split
  · rfl
  · split <;> rfl
@[simp] theorem Ctx.writeV_pc (c : Ctx) (d : Fin 64) (x : BitVec 1024) : (c.writeV d x).pc = c.pc := by
  unfold Ctx.writeV; split
  · rfl
  · split <;> rfl
@[simp] theorem Ctx.writeV_hdr (c : Ctx) (d : Fin 64) (x : BitVec 1024) : (c.writeV d x).hdr = c.hdr := by
  unfold Ctx.writeV; split
  · rfl
  · split <;> rfl
@[simp] theorem Ctx.writeV_len (c : Ctx) (d : Fin 64) (x : BitVec 1024) : (c.writeV d x).len = c.len := by
  unfold Ctx.writeV; split
  · rfl
  · split <;> rfl
@[simp] theorem Ctx.writeV_entry (c : Ctx) (d : Fin 64) (x : BitVec 1024) : (c.writeV d x).entry = c.entry := by
  unfold Ctx.writeV; split
  · rfl
  · split <;> rfl
@[simp] theorem Ctx.writeV_run (c : Ctx) (d : Fin 64) (x : BitVec 1024) : (c.writeV d x).run = c.run := by
  unfold Ctx.writeV; split
  · rfl
  · split <;> rfl
@[simp] theorem Ctx.writeV_dbl (c : Ctx) (d : Fin 64) (x : BitVec 1024) : (c.writeV d x).dbl = c.dbl := by
  unfold Ctx.writeV; split
  · rfl
  · split <;> rfl
@[simp] theorem Ctx.writeV_awW (c : Ctx) (d : Fin 64) (x : BitVec 1024) : (c.writeV d x).awW = c.awW := by
  unfold Ctx.writeV; split
  · rfl
  · split <;> rfl
@[simp] theorem Ctx.writeV_awV (c : Ctx) (d : Fin 64) (x : BitVec 1024) : (c.writeV d x).awV = c.awV := by
  unfold Ctx.writeV; split
  · rfl
  · split <;> rfl
@[simp] theorem Ctx.writeV_awP (c : Ctx) (d : Fin 64) (x : BitVec 1024) : (c.writeV d x).awP = c.awP := by
  unfold Ctx.writeV; split
  · rfl
  · split <;> rfl
@[simp] theorem Ctx.writeV_povr (c : Ctx) (d : Fin 64) (x : BitVec 1024) : (c.writeV d x).povr = c.povr := by
  unfold Ctx.writeV; split
  · rfl
  · split <;> rfl
@[simp] theorem Ctx.writeV_rovf (c : Ctx) (d : Fin 64) (x : BitVec 1024) : (c.writeV d x).rovf = c.rovf := by
  unfold Ctx.writeV; split
  · rfl
  · split <;> rfl
@[simp] theorem Ctx.writeV_mbox (c : Ctx) (d : Fin 64) (x : BitVec 1024) : (c.writeV d x).mbox = c.mbox := by
  unfold Ctx.writeV; split
  · rfl
  · split <;> rfl
@[simp] theorem Ctx.writeV_seqs (c : Ctx) (d : Fin 64) (x : BitVec 1024) : (c.writeV d x).seqs = c.seqs := by
  unfold Ctx.writeV; split
  · rfl
  · split <;> rfl
@[simp] theorem Ctx.writeV_sq (c : Ctx) (d : Fin 64) (x : BitVec 1024) : (c.writeV d x).sq = c.sq := by
  unfold Ctx.writeV; split
  · rfl
  · split <;> rfl
@[simp] theorem Ctx.writeV_aset (c : Ctx) (d : Fin 64) (x : BitVec 1024) : (c.writeV d x).aset = c.aset := by
  unfold Ctx.writeV; split
  · rfl
  · split <;> rfl
@[simp] theorem Ctx.writeV_credits (c : Ctx) (d : Fin 64) (x : BitVec 1024) : (c.writeV d x).credits = c.credits := by
  unfold Ctx.writeV; split
  · rfl
  · split <;> rfl
@[simp] theorem Ctx.writeV_allow (c : Ctx) (d : Fin 64) (x : BitVec 1024) : (c.writeV d x).allow = c.allow := by
  unfold Ctx.writeV; split
  · rfl
  · split <;> rfl
@[simp] theorem Ctx.writeV_failedMon (c : Ctx) (d : Fin 64) (x : BitVec 1024) : (c.writeV d x).failedMon = c.failedMon := by
  unfold Ctx.writeV; split
  · rfl
  · split <;> rfl
@[simp] theorem Ctx.writeV_stopMark (c : Ctx) (d : Fin 64) (x : BitVec 1024) : (c.writeV d x).stopMark = c.stopMark := by
  unfold Ctx.writeV; split
  · rfl
  · split <;> rfl
@[simp] theorem Ctx.writeV_ras (c : Ctx) (d : Fin 64) (x : BitVec 1024) : (c.writeV d x).ras = c.ras := by
  unfold Ctx.writeV; split
  · rfl
  · split <;> rfl
@[simp] theorem Ctx.writeV_pend (c : Ctx) (d : Fin 64) (x : BitVec 1024) : (c.writeV d x).pend = c.pend := by
  unfold Ctx.writeV; split
  · rfl
  · split <;> rfl
@[simp] theorem Ctx.writeV_answer (c : Ctx) (d : Fin 64) (x : BitVec 1024) : (c.writeV d x).answer = c.answer := by
  unfold Ctx.writeV; split
  · rfl
  · split <;> rfl
@[simp] theorem Ctx.writeV_cont (c : Ctx) (d : Fin 64) (x : BitVec 1024) : (c.writeV d x).cont = c.cont := by
  unfold Ctx.writeV; split
  · rfl
  · split <;> rfl
@[simp] theorem Ctx.writeV_yieldSig (c : Ctx) (d : Fin 64) (x : BitVec 1024) : (c.writeV d x).yieldSig = c.yieldSig := by
  unfold Ctx.writeV; split
  · rfl
  · split <;> rfl
@[simp] theorem Ctx.writeV_walk (c : Ctx) (d : Fin 64) (x : BitVec 1024) : (c.writeV d x).walk = c.walk := by
  unfold Ctx.writeV; split
  · rfl
  · split <;> rfl
@[simp] theorem Ctx.writeV_walkFault (c : Ctx) (d : Fin 64) (x : BitVec 1024) : (c.writeV d x).walkFault = c.walkFault := by
  unfold Ctx.writeV; split
  · rfl
  · split <;> rfl
@[simp] theorem Ctx.writeV_stalled (c : Ctx) (d : Fin 64) (x : BitVec 1024) : (c.writeV d x).stalled = c.stalled := by
  unfold Ctx.writeV; split
  · rfl
  · split <;> rfl
@[simp] theorem Ctx.writeV_passed (c : Ctx) (d : Fin 64) (x : BitVec 1024) : (c.writeV d x).passed = c.passed := by
  unfold Ctx.writeV; split
  · rfl
  · split <;> rfl
@[simp] theorem Ctx.writeV_counted (c : Ctx) (d : Fin 64) (x : BitVec 1024) : (c.writeV d x).counted = c.counted := by
  unfold Ctx.writeV; split
  · rfl
  · split <;> rfl
@[simp] theorem Ctx.writeV_gbar (c : Ctx) (d : Fin 64) (x : BitVec 1024) : (c.writeV d x).gbar = c.gbar := by
  unfold Ctx.writeV; split
  · rfl
  · split <;> rfl
@[simp] theorem Ctx.writeV_kv (c : Ctx) (d : Fin 64) (x : BitVec 1024) : (c.writeV d x).kv = c.kv := by
  unfold Ctx.writeV; split
  · rfl
  · split <;> rfl
@[simp] theorem Ctx.writeV_place (c : Ctx) (d : Fin 64) (x : BitVec 1024) : (c.writeV d x).place = c.place := by
  unfold Ctx.writeV; split
  · rfl
  · split <;> rfl
@[simp] theorem Ctx.writeV_pfh (c : Ctx) (d : Fin 64) (x : BitVec 1024) : (c.writeV d x).pfh = c.pfh := by
  unfold Ctx.writeV; split
  · rfl
  · split <;> rfl
@[simp] theorem Ctx.writeV_isOpen (c : Ctx) (d : Fin 64) (x : BitVec 1024) : (c.writeV d x).isOpen = c.isOpen := by
  unfold Ctx.writeV; split
  · rfl
  · split <;> rfl

@[simp] theorem Ctx.writeP_p (c : Ctx) (r : Nat) (x : Word) : (c.writeP r x).p = c.p.setIfInBounds r x := rfl
@[simp] theorem Ctx.writeP_w (c : Ctx) (r : Nat) (x : Word) : (c.writeP r x).w = c.w := rfl
@[simp] theorem Ctx.writeP_v (c : Ctx) (r : Nat) (x : Word) : (c.writeP r x).v = c.v := rfl
@[simp] theorem Ctx.writeP_lc (c : Ctx) (r : Nat) (x : Word) : (c.writeP r x).lc = c.lc := rfl
@[simp] theorem Ctx.writeP_fm (c : Ctx) (r : Nat) (x : Word) : (c.writeP r x).fm = c.fm := rfl
@[simp] theorem Ctx.writeP_cw (c : Ctx) (r : Nat) (x : Word) : (c.writeP r x).cw = c.cw := rfl
@[simp] theorem Ctx.writeP_mb (c : Ctx) (r : Nat) (x : Word) : (c.writeP r x).mb = c.mb := rfl
@[simp] theorem Ctx.writeP_tb (c : Ctx) (r : Nat) (x : Word) : (c.writeP r x).tb = c.tb := rfl
@[simp] theorem Ctx.writeP_tbPend (c : Ctx) (r : Nat) (x : Word) : (c.writeP r x).tbPend = c.tbPend := rfl
@[simp] theorem Ctx.writeP_fb (c : Ctx) (r : Nat) (x : Word) : (c.writeP r x).fb = c.fb := rfl
@[simp] theorem Ctx.writeP_sg (c : Ctx) (r : Nat) (x : Word) : (c.writeP r x).sg = c.sg := rfl
@[simp] theorem Ctx.writeP_st (c : Ctx) (r : Nat) (x : Word) : (c.writeP r x).st = c.st := rfl
@[simp] theorem Ctx.writeP_epc (c : Ctx) (r : Nat) (x : Word) : (c.writeP r x).epc = c.epc := rfl
@[simp] theorem Ctx.writeP_esr (c : Ctx) (r : Nat) (x : Word) : (c.writeP r x).esr = c.esr := rfl
@[simp] theorem Ctx.writeP_ecause (c : Ctx) (r : Nat) (x : Word) : (c.writeP r x).ecause = c.ecause := rfl
@[simp] theorem Ctx.writeP_einfo (c : Ctx) (r : Nat) (x : Word) : (c.writeP r x).einfo = c.einfo := rfl
@[simp] theorem Ctx.writeP_erh (c : Ctx) (r : Nat) (x : Word) : (c.writeP r x).erh = c.erh := rfl
@[simp] theorem Ctx.writeP_erl (c : Ctx) (r : Nat) (x : Word) : (c.writeP r x).erl = c.erl := rfl
@[simp] theorem Ctx.writeP_tvec (c : Ctx) (r : Nat) (x : Word) : (c.writeP r x).tvec = c.tvec := rfl
@[simp] theorem Ctx.writeP_hdrop (c : Ctx) (r : Nat) (x : Word) : (c.writeP r x).hdrop = c.hdrop := rfl
@[simp] theorem Ctx.writeP_ident (c : Ctx) (r : Nat) (x : Word) : (c.writeP r x).ident = c.ident := rfl
@[simp] theorem Ctx.writeP_gen (c : Ctx) (r : Nat) (x : Word) : (c.writeP r x).gen = c.gen := rfl
@[simp] theorem Ctx.writeP_tenant (c : Ctx) (r : Nat) (x : Word) : (c.writeP r x).tenant = c.tenant := rfl
@[simp] theorem Ctx.writeP_code (c : Ctx) (r : Nat) (x : Word) : (c.writeP r x).code = c.code := rfl
@[simp] theorem Ctx.writeP_fcap (c : Ctx) (r : Nat) (x : Word) : (c.writeP r x).fcap = c.fcap := rfl
@[simp] theorem Ctx.writeP_pc (c : Ctx) (r : Nat) (x : Word) : (c.writeP r x).pc = c.pc := rfl
@[simp] theorem Ctx.writeP_hdr (c : Ctx) (r : Nat) (x : Word) : (c.writeP r x).hdr = c.hdr := rfl
@[simp] theorem Ctx.writeP_len (c : Ctx) (r : Nat) (x : Word) : (c.writeP r x).len = c.len := rfl
@[simp] theorem Ctx.writeP_entry (c : Ctx) (r : Nat) (x : Word) : (c.writeP r x).entry = c.entry := rfl
@[simp] theorem Ctx.writeP_run (c : Ctx) (r : Nat) (x : Word) : (c.writeP r x).run = c.run := rfl
@[simp] theorem Ctx.writeP_dbl (c : Ctx) (r : Nat) (x : Word) : (c.writeP r x).dbl = c.dbl := rfl
@[simp] theorem Ctx.writeP_awW (c : Ctx) (r : Nat) (x : Word) : (c.writeP r x).awW = c.awW := rfl
@[simp] theorem Ctx.writeP_awV (c : Ctx) (r : Nat) (x : Word) : (c.writeP r x).awV = c.awV := rfl
@[simp] theorem Ctx.writeP_awP (c : Ctx) (r : Nat) (x : Word) : (c.writeP r x).awP = c.awP := rfl
@[simp] theorem Ctx.writeP_povr (c : Ctx) (r : Nat) (x : Word) : (c.writeP r x).povr = c.povr := rfl
@[simp] theorem Ctx.writeP_rovf (c : Ctx) (r : Nat) (x : Word) : (c.writeP r x).rovf = c.rovf := rfl
@[simp] theorem Ctx.writeP_mbox (c : Ctx) (r : Nat) (x : Word) : (c.writeP r x).mbox = c.mbox := rfl
@[simp] theorem Ctx.writeP_seqs (c : Ctx) (r : Nat) (x : Word) : (c.writeP r x).seqs = c.seqs := rfl
@[simp] theorem Ctx.writeP_sq (c : Ctx) (r : Nat) (x : Word) : (c.writeP r x).sq = c.sq := rfl
@[simp] theorem Ctx.writeP_aset (c : Ctx) (r : Nat) (x : Word) : (c.writeP r x).aset = c.aset := rfl
@[simp] theorem Ctx.writeP_credits (c : Ctx) (r : Nat) (x : Word) : (c.writeP r x).credits = c.credits := rfl
@[simp] theorem Ctx.writeP_allow (c : Ctx) (r : Nat) (x : Word) : (c.writeP r x).allow = c.allow := rfl
@[simp] theorem Ctx.writeP_failedMon (c : Ctx) (r : Nat) (x : Word) : (c.writeP r x).failedMon = c.failedMon := rfl
@[simp] theorem Ctx.writeP_stopMark (c : Ctx) (r : Nat) (x : Word) : (c.writeP r x).stopMark = c.stopMark := rfl
@[simp] theorem Ctx.writeP_ras (c : Ctx) (r : Nat) (x : Word) : (c.writeP r x).ras = c.ras := rfl
@[simp] theorem Ctx.writeP_pend (c : Ctx) (r : Nat) (x : Word) : (c.writeP r x).pend = c.pend := rfl
@[simp] theorem Ctx.writeP_answer (c : Ctx) (r : Nat) (x : Word) : (c.writeP r x).answer = c.answer := rfl
@[simp] theorem Ctx.writeP_cont (c : Ctx) (r : Nat) (x : Word) : (c.writeP r x).cont = c.cont := rfl
@[simp] theorem Ctx.writeP_yieldSig (c : Ctx) (r : Nat) (x : Word) : (c.writeP r x).yieldSig = c.yieldSig := rfl
@[simp] theorem Ctx.writeP_walk (c : Ctx) (r : Nat) (x : Word) : (c.writeP r x).walk = c.walk := rfl
@[simp] theorem Ctx.writeP_walkFault (c : Ctx) (r : Nat) (x : Word) : (c.writeP r x).walkFault = c.walkFault := rfl
@[simp] theorem Ctx.writeP_stalled (c : Ctx) (r : Nat) (x : Word) : (c.writeP r x).stalled = c.stalled := rfl
@[simp] theorem Ctx.writeP_passed (c : Ctx) (r : Nat) (x : Word) : (c.writeP r x).passed = c.passed := rfl
@[simp] theorem Ctx.writeP_counted (c : Ctx) (r : Nat) (x : Word) : (c.writeP r x).counted = c.counted := rfl
@[simp] theorem Ctx.writeP_gbar (c : Ctx) (r : Nat) (x : Word) : (c.writeP r x).gbar = c.gbar := rfl
@[simp] theorem Ctx.writeP_kv (c : Ctx) (r : Nat) (x : Word) : (c.writeP r x).kv = c.kv := rfl
@[simp] theorem Ctx.writeP_place (c : Ctx) (r : Nat) (x : Word) : (c.writeP r x).place = c.place := rfl
@[simp] theorem Ctx.writeP_pfh (c : Ctx) (r : Nat) (x : Word) : (c.writeP r x).pfh = c.pfh := rfl
@[simp] theorem Ctx.writeP_isOpen (c : Ctx) (r : Nat) (x : Word) : (c.writeP r x).isOpen = c.isOpen := rfl

end Sys2Proof.Machine
end

