-- ==== Sys2Proof/Laws/Tab.lean ====
section
/-! SUPPORT. Sparse tables: what is read after a write, and that a write keeps the canonical form. -/

namespace Sys2Proof

variable {α : Type} {d : α} {t : Tab α} {k j : Nat} {v : α}

@[simp] theorem Tab.get_nil : Tab.get d [] k = d := rfl

/-- A key below all the keys of a table is not listed. -/
theorem Tab.get_below (h : ∀ x ∈ t, k < x.1) : Tab.get d t k = d := by
  cases t with
  | nil => rfl
  | cons x t => simp [Tab.get, h x List.mem_cons_self]

variable [DecidableEq α]

/-- The canonical form, said of all entries at once. -/
theorem Tab.wf_iff : Tab.wf d t = true ↔ t.Pairwise (fun x y => x.1 < y.1) ∧ ∀ x ∈ t, x.2 ≠ d := by
  induction t with
  | nil => simp [Tab.wf]
  | cons x t ih =>
    cases t with
    | nil => simp [Tab.wf]
    | cons y t =>
      simp only [Tab.wf, Bool.and_eq_true, decide_eq_true_eq, ih, List.pairwise_cons, List.mem_cons, forall_eq_or_imp]
      constructor
      · rintro ⟨⟨hx, hxy⟩, ⟨hy, ht⟩, hy', hv⟩
        exact ⟨⟨⟨hxy, fun z hz => hxy.trans (hy z hz)⟩, hy, ht⟩, hx, hy', hv⟩
      · rintro ⟨⟨⟨hxy, -⟩, hy, ht⟩, hx, hy', hv⟩
        exact ⟨⟨hx, hxy⟩, ⟨hy, ht⟩, hy', hv⟩

/-- The rest of a canonical table is canonical. -/
theorem Tab.wf_tail {x : Nat × α} (h : Tab.wf d (x :: t) = true) : Tab.wf d t = true := by
  rw [Tab.wf_iff] at *
  exact ⟨h.1.of_cons, fun y hy => h.2 y (List.mem_cons_of_mem _ hy)⟩

/-- A table that is not canonical still reads back the value written, where that value is listed. -/
theorem Tab.get_set_listed (h : v ≠ d) : Tab.get d (Tab.set d t k v) k = v := by
  induction t with
  | nil => simp [Tab.set, Tab.get, h]
  | cons x t ih =>
    simp only [Tab.set, h, if_false]
    split
    · simp [Tab.get]
    · split
      · simp [Tab.get]
      · simp [Tab.get, *]

/-- Reading the key that was written gives the value written. -/
theorem Tab.get_set_same (h : Tab.wf d t = true) : Tab.get d (Tab.set d t k v) k = v := by
  by_cases hv : v = d
  · subst hv
    induction t with
    | nil => simp [Tab.set]
    | cons x t ih =>
      have hp := List.pairwise_cons.1 (Tab.wf_iff.1 h).1
      simp only [Tab.set, if_true]
      split
      · simp [Tab.get, *]
      · split
        · exact Tab.get_below fun y hy => by have := hp.1 y hy; omega
        · simp [Tab.get, *, ih (Tab.wf_tail h)]
  · exact Tab.get_set_listed hv

/-- An entry after a write is the one that was written or stood there before. -/
theorem Tab.mem_set {x : Nat × α} (h : x ∈ Tab.set d t k v) : x = (k, v) ∧ v ≠ d ∨ x ∈ t := by
  induction t with
  | nil =>
    simp only [Tab.set] at h
    split at h <;> simp_all
  | cons y t ih =>
    simp only [Tab.set] at h
    split at h
    · split at h <;> simp_all
    · split at h
      · split at h <;> simp_all
        rcases h with rfl | h <;> simp_all
      · simp only [List.mem_cons] at h ⊢
        rcases h with h | h
        · exact .inr (.inl h)
        · exact (ih h).imp_right .inr

/-- A write keeps the canonical form. -/
theorem Tab.wf_set (h : Tab.wf d t = true) : Tab.wf d (Tab.set d t k v) = true := by
  refine Tab.wf_iff.2 ⟨?_, fun x hx => ?_⟩
  · have hp := (Tab.wf_iff.1 h).1
    clear h
    induction t with
    | nil => simp only [Tab.set]; split <;> simp
    | cons y t ih =>
      have hq := List.pairwise_cons.1 hp
      simp only [Tab.set]
      split
      · rename_i hk
        split
        · exact hp
        · exact List.pairwise_cons.2 ⟨fun z hz => by
            rcases List.mem_cons.1 hz with rfl | hz
            · exact hk
            · exact hk.trans (hq.1 z hz), hp⟩
      · split
        · split
          · exact hq.2
          · exact List.pairwise_cons.2 ⟨fun z hz => by have := hq.1 z hz; simp; omega, hq.2⟩
        · exact List.pairwise_cons.2 ⟨fun z hz => by
            rcases Tab.mem_set hz with ⟨rfl, -⟩ | hz
            · simp; omega
            · exact hq.1 z hz, ih hq.2⟩
  · rcases Tab.mem_set hx with ⟨rfl, hv⟩ | hx
    · exact hv
    · exact (Tab.wf_iff.1 h).2 x hx

/-- Reading another key than the one written gives what stood there. -/
theorem Tab.get_set_other (h : Tab.wf d t = true) (hj : j ≠ k) : Tab.get d (Tab.set d t k v) j = Tab.get d t j := by
  induction t with
  | nil =>
    simp only [Tab.set]
    split
    · rfl
    · simp [Tab.get, hj]
  | cons x t ih =>
    have hp := List.pairwise_cons.1 (Tab.wf_iff.1 h).1
    simp only [Tab.set]
    split
    · split
      · rfl
      · rename_i hk _
        simp only [Tab.get, hj, if_false]
        split
        · rw [if_pos (by omega)]
        · rfl
    · split
      · rename_i hk
        subst hk
        split
        · simp only [Tab.get, hj, if_false]
          split
          · exact Tab.get_below fun y hy => by have := hp.1 y hy; omega
          · rfl
        · simp [Tab.get, hj]
      · simp only [Tab.get, ih (Tab.wf_tail h)]

/-- A part of a canonical table is canonical. -/
theorem Tab.wf_filter (h : Tab.wf d t = true) (p : Nat × α → Bool) : Tab.wf d (t.filter p) = true := by
  rw [Tab.wf_iff] at *
  exact ⟨h.1.filter p, fun x hx => h.2 x (List.mem_of_mem_filter hx)⟩

/-- Writes made one after another keep the canonical form. -/
theorem Tab.wf_foldl {β : Type} (l : List β) (f : β → Nat) (g : β → α) (h : Tab.wf d t = true) :
    Tab.wf d (l.foldl (fun r x => Tab.set d r (f x) (g x)) t) = true := by
  induction l generalizing t with
  | nil => exact h
  | cons x l ih => exact ih (Tab.wf_set h)

end Sys2Proof
end

