-- ==== Sys2Proof/Laws/Memory.lean ====
section
/-! SUPPORT. Memory: what a byte, a tag, a poison mark or a full bit reads as after a write of one, and that every operation of memory keeps the canonical form (log 1). -/

namespace Sys2Proof.Machine

variable {m : Memory} {a b g : Nat} {v : BitVec 8} {x : Bool}

/-! ### One byte, one mark -/

@[simp] theorem Memory.setByte_tags : (m.setByte a v).tags = m.tags := rfl
@[simp] theorem Memory.setByte_poison : (m.setByte a v).poison = m.poison := rfl
@[simp] theorem Memory.setByte_empty : (m.setByte a v).empty = m.empty := rfl
@[simp] theorem Memory.setTag_cells : (m.setTag g x).cells = m.cells := rfl
@[simp] theorem Memory.setTag_poison : (m.setTag g x).poison = m.poison := rfl
@[simp] theorem Memory.setTag_empty : (m.setTag g x).empty = m.empty := rfl
@[simp] theorem Memory.setPoison_cells : (m.setPoison g x).cells = m.cells := rfl
@[simp] theorem Memory.setPoison_tags : (m.setPoison g x).tags = m.tags := rfl
@[simp] theorem Memory.setPoison_empty : (m.setPoison g x).empty = m.empty := rfl
@[simp] theorem Memory.setFull_cells : (m.setFull g x).cells = m.cells := rfl
@[simp] theorem Memory.setFull_tags : (m.setFull g x).tags = m.tags := rfl
@[simp] theorem Memory.setFull_poison : (m.setFull g x).poison = m.poison := rfl

/-- The four parts of the canonical form. -/
theorem Memory.wf_iff : m.wf = true ↔
    Tab.wf Memory.blank m.cells = true ∧ Tab.wf false m.tags = true ∧ Tab.wf false m.poison = true ∧ Tab.wf false m.empty = true := by
  simp [Memory.wf, and_assoc]

theorem Memory.byte_setByte_same (h : m.wf = true) : (m.setByte a v).byte a = v := Tab.get_set_same (Memory.wf_iff.1 h).1

theorem Memory.byte_setByte_other (h : m.wf = true) (hb : b ≠ a) : (m.setByte a v).byte b = m.byte b :=
  Tab.get_set_other (Memory.wf_iff.1 h).1 hb

theorem Memory.tagAt_setTag_same (h : m.wf = true) : (m.setTag g x).tagAt g = x := Tab.get_set_same (Memory.wf_iff.1 h).2.1

theorem Memory.tagAt_setTag_other (h : m.wf = true) (hb : b ≠ g) : (m.setTag g x).tagAt b = m.tagAt b :=
  Tab.get_set_other (Memory.wf_iff.1 h).2.1 hb

theorem Memory.poisonAt_setPoison_same (h : m.wf = true) : (m.setPoison g x).poisonAt g = x :=
  Tab.get_set_same (Memory.wf_iff.1 h).2.2.1

theorem Memory.poisonAt_setPoison_other (h : m.wf = true) (hb : b ≠ g) : (m.setPoison g x).poisonAt b = m.poisonAt b :=
  Tab.get_set_other (Memory.wf_iff.1 h).2.2.1 hb

theorem Memory.fullAt_setFull_same (h : m.wf = true) : (m.setFull g x).fullAt g = x := by
  simp [Memory.fullAt, Memory.setFull, Tab.get_set_same (Memory.wf_iff.1 h).2.2.2]

theorem Memory.fullAt_setFull_other (h : m.wf = true) (hb : b ≠ g) : (m.setFull g x).fullAt b = m.fullAt b := by
  simp [Memory.fullAt, Memory.setFull, Tab.get_set_other (Memory.wf_iff.1 h).2.2.2 hb]

/-! ### The canonical form -/

/-- Memory at reset has the canonical form. -/
theorem Memory.wf_init : Memory.init.wf = true := rfl

theorem State.reset_mem_wf : State.reset.mem.wf = true := rfl

theorem Memory.wf_setByte (h : m.wf = true) : (m.setByte a v).wf = true := by
  rw [Memory.wf_iff] at *; exact ⟨Tab.wf_set h.1, h.2⟩

theorem Memory.wf_setTag (h : m.wf = true) : (m.setTag g x).wf = true := by
  rw [Memory.wf_iff] at *; exact ⟨h.1, Tab.wf_set h.2.1, h.2.2⟩

theorem Memory.wf_setPoison (h : m.wf = true) : (m.setPoison g x).wf = true := by
  rw [Memory.wf_iff] at *; exact ⟨h.1, h.2.1, Tab.wf_set h.2.2.1, h.2.2.2⟩

theorem Memory.wf_setFull (h : m.wf = true) : (m.setFull g x).wf = true := by
  rw [Memory.wf_iff] at *; exact ⟨h.1, h.2.1, h.2.2.1, Tab.wf_set h.2.2.2⟩

/-- Operations that keep the form, made one after another, keep it. -/
theorem Memory.wf_foldl {β : Type} (l : List β) (f : Memory → β → Memory) (hf : ∀ m y, m.wf = true → (f m y).wf = true)
    (h : m.wf = true) : (l.foldl f m).wf = true := by
  induction l generalizing m with
  | nil => exact h
  | cons y l ih => exact ih (hf m y h)

theorem Memory.wf_touch (w : WriteOp) (i : Nat) (h : m.wf = true) : (m.touch w i).wf = true := by
  simp only [Memory.touch]
  split_ifs
  all_goals first
    | exact h
    | exact Memory.wf_setFull (Memory.wf_setPoison (Memory.wf_setTag h))
    | exact Memory.wf_setFull (Memory.wf_setTag h)
    | exact Memory.wf_setPoison (Memory.wf_setTag h)
    | exact Memory.wf_setTag h

/-- A write of up to a line keeps the form. -/
theorem Memory.wf_write (w : WriteOp) (h : m.wf = true) : (m.write w).wf = true := by
  refine Memory.wf_foldl _ _ (fun m i h => Memory.wf_touch w i h) (Memory.wf_foldl _ _ (fun m i h => ?_) h)
  split
  · exact Memory.wf_setByte h
  · exact h

theorem Memory.wf_zeroFrame (f : Nat) (h : m.wf = true) : (m.zeroFrame f).wf = true := by
  rw [Memory.wf_iff] at *
  exact ⟨Tab.wf_filter h.1 _, Tab.wf_filter h.2.1 _, Tab.wf_filter h.2.2.1 _, h.2.2.2⟩

theorem Memory.wf_poisonFrame (f : Nat) (h : m.wf = true) : (m.poisonFrame f).wf = true :=
  Memory.wf_foldl _ _ (fun _ _ h => Memory.wf_setPoison h) h

theorem Memory.wf_tested (base n : Nat) (h : m.wf = true) : (m.tested base n).wf = true :=
  Memory.wf_foldl _ _ (fun _ _ h => Memory.wf_setByte h)
    (Memory.wf_foldl _ _ (fun _ _ h => Memory.wf_setPoison (Memory.wf_setTag h)) h)

theorem Tab.wf_copyRange {α : Type} [DecidableEq α] {d : α} {t : Tab α} (lo n dst : Nat) (h : Tab.wf d t = true) :
    Tab.wf d (Tab.copyRange d t lo n dst) = true :=
  Tab.wf_foldl _ (fun x : Nat × α => x.1 - lo + dst) (fun x => x.2) (Tab.wf_filter h _)

/-- A block of memory copied to another place keeps the form. -/
theorem Memory.wf_copyBlock (src n dst : Nat) (h : m.wf = true) : (m.copyBlock src n dst).wf = true := by
  rw [Memory.wf_iff] at *
  exact ⟨Tab.wf_copyRange _ _ _ h.1, Tab.wf_copyRange _ _ _ h.2.1, Tab.wf_copyRange _ _ _ h.2.2.1, Tab.wf_copyRange _ _ _ h.2.2.2⟩

theorem Memory.wf_clearBlock (a n : Nat) (h : m.wf = true) : (m.clearBlock a n).wf = true := by
  rw [Memory.wf_iff] at *
  exact ⟨Tab.wf_filter h.1 _, Tab.wf_filter h.2.1 _, Tab.wf_filter h.2.2.1 _, h.2.2.2⟩

theorem Memory.wf_setGranule (a : Nat) (x : BitVec 128) (h : m.wf = true) : (m.setGranule a x).wf = true := Memory.wf_write _ h

/-- The image of a saved context, written, keeps the form. -/
theorem Memory.wf_putImage (a : Nat) (c : Ctx) (h : m.wf = true) : (m.putImage a c).wf = true := by
  refine Memory.wf_foldl _ _ (fun m i h => ?_) (Memory.wf_clearBlock _ _ h)
  split
  · exact h
  · exact Memory.wf_setGranule _ _ h

/-- A cold image brought back keeps the form. -/
theorem Memory.wf_putUnits (a : Nat) (l : List (BitVec 4096)) (h : m.wf = true) : (m.putUnits a l).wf = true := by
  refine Memory.wf_foldl _ _ (fun m i h => Memory.wf_setTag ?_) (Memory.wf_clearBlock _ _ h)
  split
  · exact h
  · exact Memory.wf_setGranule _ _ h

theorem Memory.wf_poisonWrite (w : WriteOp) (h : m.wf = true) : (m.poisonWrite w).wf = true := by
  refine Memory.wf_foldl _ _ (fun m i h => ?_) h
  split
  · exact Memory.wf_setPoison h
  · exact h

/-! ### The operations of the state over memory -/

/-- A state after a fold of steps has memory in form, where every step keeps it. -/
theorem State.wf_foldl {β : Type} (l : List β) (f : State → β → State) (hf : ∀ s y, s.mem.wf = true → (f s y).mem.wf = true) {s : State}
    (h : s.mem.wf = true) : (l.foldl f s).mem.wf = true := by
  induction l generalizing s with
  | nil => exact h
  | cons y l ih => exact ih (hf s y h)

@[simp] theorem State.fireHome_mem (s : State) (line code : Nat) : (s.fireHome line code).mem = s.mem := by
  unfold State.fireHome
  induction List.range 16 generalizing s with
  | nil => rfl
  | cons r l ih =>
    rw [List.foldl_cons, ih]
    split <;> rfl

/-- A multicast reply keeps the form of memory. -/
theorem State.wf_mcDeliver {s : State} (line : Nat) (sh : Bool) (m : Nat × Nat × Nat) (hm : s.mem.wf = true) :
    (s.mcDeliver line sh m).mem.wf = true := by
  simp only [State.mcDeliver]
  split
  · exact hm
  · split
    · exact hm
    · rw [State.setCore_mem]
      refine State.wf_foldl _ _ (fun u j hu => ?_) hm
      split
      · exact Memory.wf_setPoison (Memory.wf_write _ hu)
      · exact Memory.wf_write _ hu

/-- The close of a multicast entry keeps the form of memory. -/
theorem State.wf_mcClose {s : State} (k : Nat) (hm : s.mem.wf = true) : (s.mcClose k).mem.wf = true := by
  unfold State.mcClose
  split
  · exact hm
  · exact State.wf_foldl _ _ (fun _ _ hu => State.wf_mcDeliver _ _ _ hu) hm

theorem State.wf_mcWritten {s : State} (n line : Nat) (hm : s.mem.wf = true) : (s.mcWritten n line).mem.wf = true := by
  induction n generalizing s with
  | zero => exact hm
  | succ n ih =>
    unfold State.mcWritten
    split
    · exact ih (State.wf_mcClose _ hm)
    · exact hm

/-- The write-back of a quadrant's copy keeps the form of memory. -/
theorem State.wf_evictCopy {s : State} (rank line : Nat) (hm : s.mem.wf = true) : (s.evictCopy rank line).mem.wf = true := by
  have hw : ((s.mcWritten s.mcast.length line).fireHome line 0).mem.wf = true := by simpa using State.wf_mcWritten s.mcast.length line hm
  simp only [State.evictCopy]
  generalize (s.mcWritten s.mcast.length line).fireHome line 0 = u at hw ⊢
  split
  · split
    · exact hm
    · exact Memory.wf_foldl (m := u.mem.write _) _ _ (fun _ _ h => Memory.wf_setPoison (Memory.wf_setTag h)) (Memory.wf_write _ hw)
  · exact hm

theorem State.wf_evictWhere {s : State} (n : Nat) (p : QLine → Bool) (hm : s.mem.wf = true) : (s.evictWhere n p).mem.wf = true :=
  State.wf_foldl _ _ (fun _ _ hu => State.wf_evictCopy _ _ hu) hm

theorem State.wf_pin {s : State} (f t n : Nat) (hm : s.mem.wf = true) : (s.pin f t n).mem.wf = true := State.wf_evictWhere _ _ hm

/-- A fill of a copy, which may take the place of another, keeps the form of memory. -/
theorem State.wf_fillCopy {s : State} (h line : Nat) (hm : s.mem.wf = true) : (s.fillCopy h line).mem.wf = true := by
  simp only [State.fillCopy]
  split
  · exact hm
  · split
    · exact hm
    · exact State.wf_evictCopy _ _ hm
    · exact hm

/-- A claim of a policy tag keeps the form of memory. -/
theorem State.wf_claim {s t : State} {tn pa home : Nat} {pol : Fin 4} (h : s.claim tn pa pol home = .ok t) (hm : s.mem.wf = true) : t.mem.wf = true := by
  simp only [State.claim] at h
  split_ifs at h <;> cases h
  · exact State.wf_pin _ _ _ hm
  all_goals exact hm

theorem State.wf_reclaim {s : State} (t pa : Nat) (g : Agent) (hm : s.mem.wf = true) : (s.reclaim t pa g).mem.wf = true := by
  simp only [State.reclaim]
  split
  · exact hm
  · split
    · split
      · exact State.wf_pin _ _ _ hm
      · exact hm
    · exact hm

/-- A read that fills copies keeps the form of memory. -/
theorem State.wf_touchFor {s : State} (h pa n : Nat) (hm : s.mem.wf = true) : (s.touchFor h pa n).mem.wf = true := by
  unfold State.touchFor
  split
  · exact State.wf_foldl _ _ (fun _ _ hu => State.wf_fillCopy _ _ hu) hm
  · exact hm

/-- A write that core h makes keeps the form of memory, whether its bytes stand at the home or in a quadrant's copy. -/
theorem State.wf_applyWrite {s : State} (h : Nat) (w : WriteOp) (hm : s.mem.wf = true) : (s.applyWrite h w).mem.wf = true := by
  simp only [State.applyWrite]
  split
  · have hf := State.wf_fillCopy h (w.pa / 128) hm
    split
    · exact hf
    · simpa using Memory.wf_write w hf
  · exact Memory.wf_write _ hm

/-- A consuming load keeps the form of memory. -/
theorem State.wf_consume {s : State} (r : ReadOp) (hm : s.mem.wf = true) : (s.consume r).mem.wf = true := by
  unfold State.consume
  split
  · exact Memory.wf_foldl _ _ (fun _ _ h => Memory.wf_setFull h) hm
  · exact hm

/-- Poisoning a granule keeps the form of memory. -/
theorem State.wf_poisonAt {s : State} (h swz pa : Nat) (hm : s.mem.wf = true) : (s.poisonAt h swz pa).mem.wf = true := by
  simp only [State.poisonAt]
  split
  · have hf := State.wf_fillCopy h (pa / 128) hm
    split
    · exact hf
    · exact Memory.wf_setPoison hf
  · exact Memory.wf_setPoison hm

/-- A page of another device that gets a guest frame keeps the form of memory. -/
theorem State.wf_seatGuest {s t : State} {f : Nat} {d : PageDir} (h : s.seatGuest f d = some t) (hm : s.mem.wf = true) : t.mem.wf = true := by
  unfold State.seatGuest at h
  split at h
  · cases h; exact hm
  · split at h
    · cases h
    · cases h; exact Memory.wf_copyBlock _ _ _ hm

/-- Whether a page of another device is seated or not, memory stays in form. -/
theorem State.wf_seatGuest_getD {s u : State} (f : Nat) (d : PageDir) (hm : s.mem.wf = true) (hu : u.mem.wf = true) :
    ((s.seatGuest f d).getD u).mem.wf = true := by
  cases h : s.seatGuest f d with
  | none => exact hu
  | some t => exact State.wf_seatGuest h hm

/-- What an access does to the state of its page keeps the form of memory. -/
theorem State.wf_takePage {s : State} (pa : Nat) (w : Bool) (hm : s.mem.wf = true) : (s.takePage pa w).mem.wf = true := by
  simp only [State.takePage]
  split_ifs
  · exact hm
  · exact hm
  · exact hm
  · split
    · exact State.wf_seatGuest_getD _ _ hm hm
    · exact hm
    · split_ifs <;> exact State.wf_seatGuest_getD _ _ hm hm
    · exact State.wf_seatGuest_getD _ _ hm hm
    · split_ifs
      · exact hm
      · exact State.wf_seatGuest_getD _ _ hm hm
    · exact State.wf_seatGuest_getD _ _ hm hm

@[simp] theorem State.dirUse_mem (s : State) (line : Nat) : (s.dirUse line).mem = s.mem := by
  simp only [State.dirUse]
  split
  · rfl
  · split
    · rfl
    · split <;> rfl

@[simp] theorem State.takeLine_mem (s : State) (h swz pa : Nat) : (s.takeLine h swz pa).mem = s.mem := by
  unfold State.takeLine
  split
  · rfl
  · split
    · rfl
    · rw [State.dirUse_mem]; rfl

/-- An engine's write keeps the form of memory. -/
theorem State.wf_engineWrite {s : State} (h : Nat) (w : WriteOp) (hm : s.mem.wf = true) : (s.engineWrite h w).mem.wf = true := by
  simp only [State.engineWrite, State.ownWrite]
  have hl : (s.takeLine h w.swz w.pa).mem.wf = true := by rwa [State.takeLine_mem]
  have hp := State.wf_takePage w.pa true (State.wf_mcWritten (s.takeLine h w.swz w.pa).mcast.length (lineOf w.swz w.pa) hl)
  split
  · exact hp
  · exact State.wf_applyWrite _ _ hp

/-- What a unit's write does beside the bytes keeps the form of memory. -/
theorem State.wf_unitWrote {s : State} (pa n : Nat) (hm : s.mem.wf = true) : (s.unitWrote pa n).mem.wf = true :=
  State.wf_foldl _ _ (fun _ _ hu => State.wf_takePage _ _ hu) (State.wf_foldl _ _ (fun _ _ hu => State.wf_mcWritten _ _ hu) hm)

/-- Making a line coherent keeps the form of memory. -/
theorem State.wf_mergeLine {s : State} (line : Nat) (hm : s.mem.wf = true) : (s.mergeLine line).mem.wf = true := by
  have hw := State.wf_mcWritten s.mcast.length line hm
  simp only [State.mergeLine]
  split
  · exact hw
  · simp only [State.fire]
    exact Memory.wf_foldl _ _ (fun _ _ h => Memory.wf_setPoison (Memory.wf_setTag h)) (Memory.wf_write _ hw)

end Sys2Proof.Machine
end

