-- ==== Sys2Proof/Laws/Ops.lean ====
section
/-! SUPPORT. What the shared operations do: the ends of an instruction, register operands, exceptions, an empty store queue, and commands for the engine of a core. -/

namespace Sys2Proof.Machine

variable {s t : State} {c : Ctx}

/-! ### How an instruction ends -/

@[simp] theorem need_true (code opnd : Nat) (x : Word) : need true code opnd x = .ok () := rfl
@[simp] theorem need_false (code opnd : Nat) (x : Word) : need false code opnd x = trap code opnd x := rfl

@[simp] theorem conclude_ok : conclude s (.ok t) = .next t := rfl
@[simp] theorem conclude_trap (x : Trap) : conclude s (.error (.trap x)) = .next (s.takeTrap x) := rfl
@[simp] theorem conclude_park (w : Wait) : conclude s (.error (.park w)) = .next (s.parkOn w) := rfl
@[simp] theorem conclude_stall : conclude s (.error .stall) = .next (s.onCpu fun c => { c with stalled := true }) := rfl
@[simp] theorem conclude_walk (va : Nat) (p : Bool) : conclude s (.error (.walk va p)) = .next (s.awaitWalk va p) := rfl
@[simp] theorem conclude_read (pa swz : Nat) (m : Option (Fin 4 × Nat)) (ea : Nat) :
    conclude s (.error (.read pa swz m ea)) = .next (s.readConst pa swz m ea) := rfl

/-- Everything that an instruction can end in: its own effect, an exception, a park, a wait at issue, a walk, or the read of its constant. -/
theorem conclude_cases {r : Except Stop State} (h : conclude s r = .next t) :
    r = .ok t ∨ (∃ x, r = .error (.trap x) ∧ t = s.takeTrap x) ∨ (∃ w, r = .error (.park w) ∧ t = s.parkOn w) ∨
    (r = .error .stall ∧ t = s.onCpu fun c => { c with stalled := true }) ∨
    (∃ va p, r = .error (.walk va p) ∧ t = s.awaitWalk va p) ∨
    ∃ pa swz m ea, r = .error (.read pa swz m ea) ∧ t = s.readConst pa swz m ea := by
  match r with
  | .ok u => cases h; exact .inl rfl
  | .error (.trap x) => cases h; exact .inr (.inl ⟨x, rfl, rfl⟩)
  | .error (.park w) => cases h; exact .inr (.inr (.inl ⟨w, rfl, rfl⟩))
  | .error .stall => cases h; exact .inr (.inr (.inr (.inl ⟨rfl, rfl⟩)))
  | .error (.walk va p) => cases h; exact .inr (.inr (.inr (.inr (.inl ⟨va, p, rfl, rfl⟩))))
  | .error (.read pa swz m ea) => cases h; exact .inr (.inr (.inr (.inr (.inr ⟨pa, swz, m, ea, rfl, rfl⟩))))

/-- An instruction always answers a next state. -/
theorem conclude_next (s : State) (r : Except Stop State) : ∃ t, conclude s r = .next t := by
  match r with
  | .ok u => exact ⟨u, rfl⟩
  | .error (.trap x) => exact ⟨_, rfl⟩
  | .error (.park w) => exact ⟨_, rfl⟩
  | .error .stall => exact ⟨_, rfl⟩
  | .error (.walk va p) => exact ⟨_, rfl⟩
  | .error (.read pa swz m ea) => exact ⟨_, rfl⟩

@[simp] theorem event_some : event s (some t) = .next t := rfl
@[simp] theorem event_none : event s none = .next s := rfl

/-- A step of the device happens, or changes nothing. -/
theorem event_cases {r : Option State} (h : event s r = .next t) : r = some t ∨ r = none ∧ t = s := by
  cases r <;> cases h
  · exact .inr ⟨rfl, rfl⟩
  · exact .inl rfl

theorem event_next (s : State) (r : Option State) : ∃ t, event s r = .next t := ⟨_, rfl⟩

/-- What sending a load changes: packets, and the context, which waits for them. -/
theorem sendLoad_keeps {β : Type} (f : State → β) (hc : ∀ s g, f (State.onCpu s g) = f s) (hs : ∀ s p, f (State.send s p) = f s)
    (s : State) (l : List ReadOp) (b : Back) (words : Nat) (uses : List Nat) (ea : Nat) : f (s.sendLoad l b words uses ea) = f s := by
  have hr : ∀ (l : List ReadOp) (s : State), f (l.foldl State.sendRead s) = f s := by
    intro l
    induction l with
    | nil => intro s; rfl
    | cons r l ih =>
      intro s
      rw [List.foldl_cons, ih]
      unfold State.sendRead
      extract_lets g p
      split <;> exact hs _ _
  unfold State.sendLoad
  extract_lets fw ftag
  rw [hc, hr]

/-- What a claim changes: policy tags and pins; a page that it pins takes a way of its slice, and the copies that stand in it are written back. -/
theorem claimAt_keeps {β : Type} (f : State → β) (hp : ∀ (s : State) a b, f { s with policy := a, pins := b } = f s)
    (he : ∀ s r l, f (State.evictCopy s r l) = f s) {p : Place} {o : Nat} {x : Word} (h : claimAt s p o x = .ok t) : f t = f s := by
  have hw : ∀ (s : State) (n : Nat) (q : QLine → Bool), f (s.evictWhere n q) = f s := by
    intro s n q
    unfold State.evictWhere
    generalize s.qlines.filter _ = l
    induction l generalizing s with
    | nil => rfl
    | cons y l ih => rw [List.foldl_cons, ih, he]
  unfold claimAt at h
  split at h
  · cases h; rfl
  · split at h
    · cases h; rfl
    · split at h
      · rename_i pol home _ _ u hu
        cases h
        simp only [State.claim, State.pin] at hu
        split_ifs at hu <;> cases hu
        · rw [hp { State.evictWhere _ _ _ with policy := _ } _ _, hw, hp s _ s.pins]
        · exact hp s _ s.pins
        · rfl
      · split at h <;> cases h

/-- A claim pins no page, and so changes the policy tags alone, where the frame is tagged already or its policy does not pin. -/
theorem claimAt_tagged {p : Place} {o : Nat} {x : Word} (h : claimAt s p o x = .ok t)
    (hn : Tab.get 0 s.policy (frameOf p.pa) ≠ 0 ∨ ∀ m, p.map = some m → m.1 ≠ 2) : t = { s with policy := t.policy } := by
  unfold claimAt at h
  split at h
  · cases h; rfl
  · rename_i pol home hm
    split at h
    · cases h; rfl
    · split at h
      · rename_i u hu
        cases h
        simp only [State.claim] at hu
        split_ifs at hu with h1 h2 h3 <;> cases hu
        · exact absurd h2.1 ((hn.resolve_left (by simpa using h1)) _ hm)
        all_goals rfl
      · split at h <;> cases h

/-- What the read of a constant changes: a policy tag or pin with what that writes back, packets, and the context, which waits for them. -/
theorem readConst_keeps {β : Type} (f : State → β) (hc : ∀ s g, f (State.onCpu s g) = f s) (hs : ∀ s p, f (State.send s p) = f s)
    (hp : ∀ (s : State) a b, f { s with policy := a, pins := b } = f s) (he : ∀ s r l, f (State.evictCopy s r l) = f s) (s : State) (pa swz : Nat) (m : Option (Fin 4 × Nat)) (ea : Nat) :
    f (s.readConst pa swz m ea) = f s := by
  unfold State.readConst
  split
  · rename_i u hu
    rw [sendLoad_keeps f hc hs, claimAt_keeps f hp he hu]
  · exact sendLoad_keeps f hc hs ..

/-- A property that all six ends of an instruction keep holds after it. -/
theorem conclude_keeps {P : State → Prop} {r : Except Stop State} (h : conclude s r = .next t) (hk : ∀ u, r = .ok u → P u)
    (ht : ∀ x, P (s.takeTrap x)) (hp : ∀ w, P (s.parkOn w)) (hc : ∀ f, P (s.onCpu f)) (hw : ∀ va p, P (s.awaitWalk va p))
    (hr : ∀ pa swz m ea, P (s.readConst pa swz m ea)) : P t := by
  rcases conclude_cases h with h | ⟨x, -, rfl⟩ | ⟨w, -, rfl⟩ | ⟨-, rfl⟩ | ⟨va, p, -, rfl⟩ | ⟨pa, swz, m, ea, -, rfl⟩
  exacts [hk t h, ht x, hp w, hc _, hw va p, hr ..]

/-- A claim keeps the form of memory. -/
theorem wf_claimAt {p : Place} {o : Nat} {x : Word} (h : claimAt s p o x = .ok t) (hm : s.mem.wf = true) : t.mem.wf = true := by
  unfold claimAt at h
  split at h
  · cases h; exact hm
  · split at h
    · cases h; exact hm
    · split at h
      · rename_i u hu
        cases h; exact State.wf_claim hu hm
      · split at h <;> cases h

/-- The memory after the read of a constant is in form. -/
theorem State.wf_readConst (pa swz : Nat) (m : Option (Fin 4 × Nat)) (ea : Nat) (hm : s.mem.wf = true) : (s.readConst pa swz m ea).mem.wf = true := by
  unfold State.readConst
  split
  · rename_i u hu
    rw [sendLoad_keeps (·.mem) (fun _ _ => rfl) (fun _ _ => rfl)]; exact wf_claimAt hu hm
  · rw [sendLoad_keeps (·.mem) (fun _ _ => rfl) (fun _ _ => rfl)]; exact hm

/-- Every end but the instruction's own effect keeps the form of memory. -/
theorem conclude_wf {r : Except Stop State} (h : conclude s r = .next t) (hm : s.mem.wf = true) (hk : ∀ u, r = .ok u → u.mem.wf = true) : t.mem.wf = true :=
  conclude_keeps (P := fun u => u.mem.wf = true) h hk (fun _ => by rwa [State.takeTrap_mem]) (fun _ => by rwa [State.parkOn_mem]) (fun _ => hm)
    (fun _ _ => by rwa [State.awaitWalk_mem]) (fun _ _ _ _ => State.wf_readConst _ _ _ _ hm)

/-! ### Register operands (R98, R117, R163, R266) -/

@[simp] theorem readW_zero (opnd : Nat) : readW s 0 opnd = .ok .zero := rfl

theorem readW_awaits {r : Fin 64} {opnd : Nat} (h : r ≠ 0) (ha : bit s.cpu.awW r.val = true) : readW s r opnd = .error (.park (.reg 0 r.val)) := by
  simp [readW, h, ha]

theorem readW_unbound {r : Fin 64} {opnd : Nat} (h : r ≠ 0) (ha : bit s.cpu.awW r.val = false) (hb : s.cpu.boundW r.val = none) :
    readW s r opnd = .ok s.cpu.w[r] := by
  simp [readW, h, ha, hb]

@[simp] theorem useW_zero (opnd : Nat) : useW s 0 opnd = .ok () := rfl

theorem useW_unbound {r : Fin 64} {opnd : Nat} (h : r ≠ 0) (ha : bit s.cpu.awW r.val = false) (hb : s.cpu.boundW r.val = none) :
    useW s r opnd = .ok () := by
  simp [useW, h, ha, hb]

@[simp] theorem Ctx.writeW_zero (x : Wreg) : c.writeW 0 x = c := rfl

theorem Ctx.writeW_unbound {r : Fin 64} (x : Wreg) (h : r ≠ 0) (hb : c.boundW r.val = none) : c.writeW r x = { c with w := c.w.set r x } := by
  simp [Ctx.writeW, h, hb]

theorem readV_unbound {r : Fin 64} {opnd : Nat} (ha : bit s.cpu.awV r.val = false) (hb : s.cpu.boundV r.val = none) :
    readV s r opnd = .ok ((s.cpu.v[r.val]?).getD 0) := by
  simp [readV, ha, hb]

theorem Ctx.writeV_unbound {r : Fin 64} (x : BitVec 1024) (hb : c.boundV r.val = none) :
    c.writeV r x = { c with v := c.v.setIfInBounds r.val x } := by
  simp [Ctx.writeV, hb]

/-- A plain value carries no tag, so a stream takes it. -/
@[simp] theorem mayAppend_plain (d : Fin 64) (x : Word) : mayAppend s d (.plain x) = .ok () := by
  unfold mayAppend
  split <;> simp [need, Wreg.plain]

/-- A result without an exception of its own leaves st as it is. -/
@[simp] theorem setSticky_none : (s.onCpu fun c => c.setSticky {}) = s := by
  have h : Sticky.toWord {} = 0 := by decide
  simp [State.onCpu, Ctx.setSticky, h]

/-! ### Exceptions (R108, R109) -/

/-- Outside trap mode an exception saves EPC, the resume header with what the core keeps of its block, st, the cause and EINFO, and goes to the header at TVEC. -/
theorem takeTrap_saves {x : Trap} (h : s.cpu.tm = false) :
    s.takeTrap x = s.onCpu fun c =>
      { c with
        epc := c.trapPc x, erh := c.trapHdr x, erl := c.trapBlock x, esr := c.st, ecause := x.cause, einfo := x.info
        st := stInTrap c.st, pc := capAddr c.tvec, entry := .vector, walk := none, walkFault := none, passed := none, counted := false, kv := none, place := none } := by
  simp [State.takeTrap, h]

/-- In trap mode the context halts, and a notice of type 3 goes to the tenant's system context. -/
theorem takeTrap_double {x : Trap} (h : s.cpu.tm = true) : s.takeTrap x = s.doubleTrap x.code := by simp [State.takeTrap, h]

/-! ### An empty store queue (R27, R32, R141) -/

theorem Ctx.forward_empty (h : c.sq = []) (r : ReadOp) : c.forward r = (0, 0) := by simp [Ctx.forward, h]
theorem Ctx.queuedTag_empty (h : c.sq = []) (g : Nat) : c.queuedTag g = none := by simp [Ctx.queuedTag, h]
theorem Ctx.arHeld_empty (h : c.sq = []) : c.arHeld = false := by simp [Ctx.arHeld, h]
theorem Ctx.sqCount_empty (h : c.sq = []) : c.sqCount = 0 := by simp [Ctx.sqCount, h]
theorem sqRoom_empty (h : s.cpu.sq = []) : sqRoom s = .ok () := by simp [sqRoom, Ctx.sqCount_empty h]

/-- A release by a context that has nothing on its way needs no marker. -/
theorem State.release_idle (k : Nat) (ar : Bool) (h : s.cpu.sq = []) (h2 : s.cpu.aset = []) (h3 : ∀ q ∈ s.net, ¬(q.h = s.cur ∧ q.slot = s.slot)) :
    s.release k ar = s := by
  simp only [State.release, h, h2]
  by_cases hk : k = 0
  · simp [hk]
  · simp only [hk, if_false, List.isEmpty_nil, true_and]
    rw [if_pos]
    rw [List.all_eq_true]
    intro q hq
    simpa [Classical.or_iff_not_imp_left] using h3 q hq

theorem State.command_now {eng : Nat} {x : Cmd} {enter : State → Cmd → State} (h : s.cpu.sq = []) : s.command eng x enter = enter s x := by
  simp [State.command, h]

theorem State.command_queued {eng : Nat} {x : Cmd} {enter : State → Cmd → State} (h : s.cpu.sq ≠ []) :
    s.command eng x enter = s.enqueue (.command eng x) := by
  have e : s.cpu.sq.isEmpty = false := by simpa using h
  simp [State.command, e]

/-! ### Reads of one core from its own scratch (R26) -/

/-- What an agent serves where no copy of a software-managed line and no guest frame stands between and no device on the way is dead: memory's bytes and tag. -/
theorem State.serve_home (h : Nat) (r : ReadOp) (hs : s.swLine r.pa = false) (hg : s.guestPa r.pa = r.pa) (hp : s.mem.poisoned r.swz r.pa r.n r.mask = none)
    (hd : s.deadAgent (s.agentRd r.pa) = false) :
    s.serve h r 0 = (BitVec.ofNat 1024 (s.mem.read r.swz r.pa r.n * 2 ^ (8 * r.off)), s.mem.tagAt (granuleOf r.swz r.pa), none) := by
  have e : r.own 0#128 = r.mask := by
    rw [ReadOp.own, maskFrom, BitVec.zero_ushiftRight, BitVec.not_zero, BitVec.and_allOnes]
  simp [State.serve, State.poisonFor, hs, hg, e, hp, hd, State.readFor, State.tagFor]

/-- An address of a bank of the own device stands where it says, in no guest frame. -/
theorem State.guestPa_bank {pa h : Nat} (ha : s.agentRd pa = .bank h) : s.guestPa pa = pa := by
  have hb : s.agentOf pa = .bank h := by
    unfold State.agentRd at ha
    split at ha
    · split at ha
      · cases ha
      · exact ha
    · split at ha
      · cases ha
      · exact ha
    · exact ha
  unfold State.agentOf at hb
  split at hb
  · split at hb
    · split at hb <;> cases hb
    · cases hb
  · rename_i hd
    simp [State.guestPa, not_not.1 hd]

/-- A plain load of the own core's scratch that is served within the cycle, with nothing queued, delivers at once. -/
theorem State.load_own (r : ReadOp) (b : Back) (words : Nat) (uses : List Nat) (ea : Word) (h1 : s.servedAtOnce r = true) (h2 : s.cpu.sq = [])
    (h3 : s.swLine r.pa = false) (h4 : s.mem.poisoned r.swz r.pa r.n r.mask = none) (hk : r.kind = .plain) :
    s.load r [] b words uses ea =
      s.deliver b words uses ea.toNat (BitVec.ofNat 1024 (s.mem.read r.swz r.pa r.n * 2 ^ (8 * r.off))) (s.mem.tagAt (granuleOf r.swz r.pa)) none := by
  have ha : s.agentRd r.pa = .bank s.cur := by
    have := h1
    simp only [State.servedAtOnce, Bool.and_eq_true, decide_eq_true_eq] at this
    exact this.1.1.1
  have : s.serve s.cur r 0#128 = _ := State.serve_home s.cur r h3 (State.guestPa_bank ha) h4 (by rw [ha]; rfl)
  simp [State.load, Ctx.forward_empty h2, Ctx.queuedTag_empty h2, h1, hk, this, blend]

/-! ### Commands for the matrix engine (R37, R201, R203) -/

/-- A command for an engine's queue proceeds where the queue has an entry free and no context parked earlier for one, and parks otherwise. -/
theorem cmdRoom_cases (eng : Nat) :
    (s.roomFor eng = true → s.firstFor s.slot eng = true → cmdRoom s eng = .ok ()) ∧
    (s.roomFor eng = false ∨ s.firstFor s.slot eng = false → cmdRoom s eng = .error (.park (.cmdRoom eng))) := by
  unfold cmdRoom
  refine ⟨fun h1 h2 => by simp [h1, h2], fun h => ?_⟩
  rcases h with h | h <;> simp [h]

/-- A command enters the queue at once when no store of the context is queued before it, else it waits behind them; without room it parks. -/
theorem toMatrix_cases (x : Capture) :
    let c := s.capture x.op s.cpu.seqs[2] x.regs x.imgs
    let t := s.onCpu fun k => { k with seqs := k.seqs.set 2 (k.seqs[2] + 1) }
    (cmdRoom s 2 = .ok () → s.cpu.sq = [] →
      s.toMatrix x = .ok ((t.onCore fun k => { k with mq := k.mq ++ [{ c with after := s.packetN }] }).finish 1 x.uses)) ∧
    (cmdRoom s 2 = .ok () → s.cpu.sq ≠ [] → s.toMatrix x = .ok ((t.enqueue (.command 2 c)).finish 1 x.uses)) ∧
    (cmdRoom s 2 = .error (.park (.cmdRoom 2)) → s.toMatrix x = .error (.park (.cmdRoom 2))) := by
  intro c t
  refine ⟨fun h1 h2 => ?_, fun h1 h2 => ?_, fun h1 => ?_⟩
  · simp only [State.toMatrix, h1]
    change Except.ok ((t.command 2 c enterMatrix).finish 1 x.uses) = _
    rw [State.command, show t.cpu.sq = [] from h2]
    rfl
  · simp only [State.toMatrix, h1]
    change Except.ok ((t.command 2 c enterMatrix).finish 1 x.uses) = _
    rw [State.command, show t.cpu.sq.isEmpty = false by simpa [t] using h2]
    rfl
  · simp only [State.toMatrix, h1]
    rfl

end Sys2Proof.Machine
end

