-- ==== Sys2Proof/Laws/Exec.lean ====
section
/-! SUPPORT. Every instruction and every step of the device answers a next state: nothing is refused, and a step stops only without power. -/

set_option Elab.async false

namespace Sys2Proof.Machine

/-- No instruction of the table ends in a fault or a refusal, in any state. -/
theorem exec_next (i : Instr) (s : State) : ∃ t, exec i s = .next t := by
  cases i <;> first
    | exact conclude_next _ _
    | exact event_next _ _
    | exact ⟨_, rfl⟩

/-- What a step answers: without power and with no turn left it stops, otherwise there is a next state. -/
theorem step_answers (s : State) : (∃ t, step s = .next t) ∨ step s = .fault .powerOff := by
  unfold step
  split
  · exact .inl (exec_next _ _)
  · split
    · refine .inl ?_
      split
      · split
        · exact ⟨_, rfl⟩
        · split
          · rename_i i cls u _
            obtain ⟨v, hv⟩ := exec_next i u
            exact ⟨settle cls v, by rw [hv]⟩
          · exact ⟨_, rfl⟩
      · exact exec_next _ _
      · split
        · exact exec_next _ _
        · exact ⟨_, rfl⟩
      all_goals exact ⟨_, rfl⟩
    · split
      · exact .inr rfl
      · exact .inl ⟨_, rfl⟩

end Sys2Proof.Machine
end

