-- ==== Sys2Proof/Laws/PerInstr.lean ====
section
/-! SUPPORT. For every instruction: the decoder reads its own words back (R56-R62), whatever word follows a one-word instruction. -/

set_option Elab.async false

set_option linter.unusedSimpArgs false

namespace Sys2Proof.Laws.RoundTrip

/-- The words of a well-formed instruction decode to it; `x` is the word that follows a one-word instruction. -/
def Statement (i : Instr) : Prop :=
  i.wellFormed = true → ∀ w x, encode i = [w] ∨ encode i = [w, x] → decode w x = some i

/-- A word that the tables of the entries read, with field values that the entries allow, decodes. -/
theorem wf_ok {i : Instr} {w x : Nat} (hm : w / 33554432 ≠ 0x67) (h : decodeFlat w x = some i) (hw : i.wellFormed = true) : decode w x = some i := by
  unfold decode; rw [if_neg hm, h]; simp [hw]

theorem one {l : List Nat} {w x e : Nat} (hl : l = [e]) (h : l = [w] ∨ l = [w, x]) : w = e := by
  subst hl; rcases h with h | h <;> simp_all

theorem two {l : List Nat} {w x e f : Nat} (hl : l = [e, f]) (h : l = [w] ∨ l = [w, x]) : w = e ∧ x = f := by
  subst hl; rcases h with h | h <;> simp_all

/-- The fields of a word of the three-register format (R56). -/
theorem layR {w c d a b x : Nat} (hw : w = c * 33554432 + d * 524288 + a * 8192 + b * 128 + x) (hd : d < 64) (ha : a < 64) (hb : b < 64) (hx : x < 128) :
    w / 33554432 = c ∧ w / 2 ^ 19 % 2 ^ 6 = d ∧ w / 2 ^ 13 % 2 ^ 6 = a ∧ w / 2 ^ 7 % 2 ^ 6 = b ∧ w / 2 ^ 0 % 2 ^ 7 = x := by omega

/-- The fields of a word of the immediate format (R56). -/
theorem layI {w c d a x : Nat} (hw : w = c * 33554432 + d * 524288 + a * 8192 + x) (hd : d < 64) (ha : a < 64) (hx : x < 8192) :
    w / 33554432 = c ∧ w / 2 ^ 19 % 2 ^ 6 = d ∧ w / 2 ^ 13 % 2 ^ 6 = a ∧ w / 2 ^ 0 % 2 ^ 13 = x := by omega

/-- The fields of a word of the offset format (R56). -/
theorem layO {w c d x : Nat} (hw : w = c * 33554432 + d * 524288 + x) (hd : d < 64) (hx : x < 524288) :
    w / 33554432 = c ∧ w / 2 ^ 19 % 2 ^ 6 = d ∧ w / 2 ^ 0 % 2 ^ 19 = x := by omega

theorem low {w n x : Nat} (h : w / 2 ^ 0 % 2 ^ n = x) : w % 2 ^ n = x := by simpa using h

/-- A field that lies within another one. -/
theorem part {w x : Nat} (p z lo n : Nat) (h : w / 2 ^ p % 2 ^ z = x) (hl : p ≤ lo) (hn : lo + n ≤ p + z) :
    w / 2 ^ lo % 2 ^ n = x / 2 ^ (lo - p) % 2 ^ n := by
  obtain ⟨j, rfl⟩ := Nat.exists_eq_add_of_le hl
  subst h
  apply Nat.eq_of_testBit_eq
  intro i
  simp only [Nat.testBit_mod_two_pow, Nat.testBit_div_two_pow, Nat.add_sub_cancel_left]
  by_cases hi : i < n
  · rw [show (decide (i + j < z)) = true from decide_eq_true (by omega)]
    simp [Nat.add_assoc, Nat.add_comm j p]
  · simp [hi]

/-- The extension word of a constant reference reads back (R58). -/
theorem kref_word (k : KRef) : kref k.word = k ∧ k.word < 1048576 := by
  have h1 := k.off.isLt
  have h2 := k.win.isLt
  refine ⟨?_, by unfold KRef.word; omega⟩
  unfold kref KRef.word r3
  cases k; simp only [KRef.mk.injEq, Fin.ext_iff]
  constructor <;> simp only [] at * <;> omega

theorem flat00 (w x : Nat) (h : w / 33554432 = 0) : decodeFlat w x = decode00 w x := by
  unfold decodeFlat; rw [h]; rfl

theorem flat01 (w x : Nat) (h : w / 33554432 = 1) : decodeFlat w x = decode01 w x := by
  unfold decodeFlat; rw [h]; rfl

theorem flat02 (w x : Nat) (h : w / 33554432 = 2) : decodeFlat w x = decode02 w x := by
  unfold decodeFlat; rw [h]; rfl

theorem flat03 (w x : Nat) (h : w / 33554432 = 3) : decodeFlat w x = decode03 w x := by
  unfold decodeFlat; rw [h]; rfl

theorem flat04 (w x : Nat) (h : w / 33554432 = 4) : decodeFlat w x = decode04 w x := by
  unfold decodeFlat; rw [h]; rfl

theorem flat05 (w x : Nat) (h : w / 33554432 = 5) : decodeFlat w x = decode05 w x := by
  unfold decodeFlat; rw [h]; rfl

theorem flat06 (w x : Nat) (h : w / 33554432 = 6) : decodeFlat w x = decode06 w x := by
  unfold decodeFlat; rw [h]; rfl

theorem flat07 (w x : Nat) (h : w / 33554432 = 7) : decodeFlat w x = decode07 w x := by
  unfold decodeFlat; rw [h]; rfl

theorem flat08 (w x : Nat) (h : w / 33554432 = 8) : decodeFlat w x = decode08 w x := by
  unfold decodeFlat; rw [h]; rfl

theorem flat09 (w x : Nat) (h : w / 33554432 = 9) : decodeFlat w x = decode09 w x := by
  unfold decodeFlat; rw [h]; rfl

theorem flat10 (w x : Nat) (h : w / 33554432 = 16) : decodeFlat w x = decode10 w x := by
  unfold decodeFlat; rw [h]; rfl

theorem flat11 (w x : Nat) (h : w / 33554432 = 17) : decodeFlat w x = decode11 w x := by
  unfold decodeFlat; rw [h]; rfl

theorem flat18 (w x : Nat) (h : w / 33554432 = 24) : decodeFlat w x = decode18 w x := by
  unfold decodeFlat; rw [h]; rfl

theorem flat19 (w x : Nat) (h : w / 33554432 = 25) : decodeFlat w x = decode19 w x := by
  unfold decodeFlat; rw [h]; rfl

theorem flat1A (w x : Nat) (h : w / 33554432 = 26) : decodeFlat w x = decode1A w x := by
  unfold decodeFlat; rw [h]; rfl

theorem flat1B (w x : Nat) (h : w / 33554432 = 27) : decodeFlat w x = decode1B w x := by
  unfold decodeFlat; rw [h]; rfl

theorem flat1C (w x : Nat) (h : w / 33554432 = 28) : decodeFlat w x = decode1C w x := by
  unfold decodeFlat; rw [h]; rfl

theorem flat1D (w x : Nat) (h : w / 33554432 = 29) : decodeFlat w x = decode1D w x := by
  unfold decodeFlat; rw [h]; rfl

theorem flat1E (w x : Nat) (h : w / 33554432 = 30) : decodeFlat w x = decode1E w x := by
  unfold decodeFlat; rw [h]; rfl

theorem flat1F (w x : Nat) (h : w / 33554432 = 31) : decodeFlat w x = decode1F w x := by
  unfold decodeFlat; rw [h]; rfl

theorem flat20 (w x : Nat) (h : w / 33554432 = 32) : decodeFlat w x = decode20 w x := by
  unfold decodeFlat; rw [h]; rfl

theorem flat21 (w x : Nat) (h : w / 33554432 = 33) : decodeFlat w x = decode21 w x := by
  unfold decodeFlat; rw [h]; rfl

theorem flat22 (w x : Nat) (h : w / 33554432 = 34) : decodeFlat w x = decode22 w x := by
  unfold decodeFlat; rw [h]; rfl

theorem flat23 (w x : Nat) (h : w / 33554432 = 35) : decodeFlat w x = decode23 w x := by
  unfold decodeFlat; rw [h]; rfl

theorem flat24 (w x : Nat) (h : w / 33554432 = 36) : decodeFlat w x = decode24 w x := by
  unfold decodeFlat; rw [h]; rfl

theorem flat25 (w x : Nat) (h : w / 33554432 = 37) : decodeFlat w x = decode25 w x := by
  unfold decodeFlat; rw [h]; rfl

theorem flat26 (w x : Nat) (h : w / 33554432 = 38) : decodeFlat w x = decode26 w x := by
  unfold decodeFlat; rw [h]; rfl

theorem flat27 (w x : Nat) (h : w / 33554432 = 39) : decodeFlat w x = decode27 w x := by
  unfold decodeFlat; rw [h]; rfl

theorem flat28 (w x : Nat) (h : w / 33554432 = 40) : decodeFlat w x = decode28 w x := by
  unfold decodeFlat; rw [h]; rfl

theorem flat29 (w x : Nat) (h : w / 33554432 = 41) : decodeFlat w x = decode29 w x := by
  unfold decodeFlat; rw [h]; rfl

theorem flat2A (w x : Nat) (h : w / 33554432 = 42) : decodeFlat w x = decode2A w x := by
  unfold decodeFlat; rw [h]; rfl

theorem flat2B (w x : Nat) (h : w / 33554432 = 43) : decodeFlat w x = decode2B w x := by
  unfold decodeFlat; rw [h]; rfl

theorem flat2C (w x : Nat) (h : w / 33554432 = 44) : decodeFlat w x = decode2C w x := by
  unfold decodeFlat; rw [h]; rfl

theorem flat2D (w x : Nat) (h : w / 33554432 = 45) : decodeFlat w x = decode2D w x := by
  unfold decodeFlat; rw [h]; rfl

theorem flat2E (w x : Nat) (h : w / 33554432 = 46) : decodeFlat w x = decode2E w x := by
  unfold decodeFlat; rw [h]; rfl

theorem flat2F (w x : Nat) (h : w / 33554432 = 47) : decodeFlat w x = decode2F w x := by
  unfold decodeFlat; rw [h]; rfl

theorem flat30 (w x : Nat) (h : w / 33554432 = 48) : decodeFlat w x = decode30 w x := by
  unfold decodeFlat; rw [h]; rfl

theorem flat31 (w x : Nat) (h : w / 33554432 = 49) : decodeFlat w x = decode31 w x := by
  unfold decodeFlat; rw [h]; rfl

theorem flat36 (w x : Nat) (h : w / 33554432 = 54) : decodeFlat w x = decode36 w x := by
  unfold decodeFlat; rw [h]; rfl

theorem flat37 (w x : Nat) (h : w / 33554432 = 55) : decodeFlat w x = decode37 w x := by
  unfold decodeFlat; rw [h]; rfl

theorem flat38 (w x : Nat) (h : w / 33554432 = 56) : decodeFlat w x = decode38 w x := by
  unfold decodeFlat; rw [h]; rfl

theorem flat39 (w x : Nat) (h : w / 33554432 = 57) : decodeFlat w x = decode39 w x := by
  unfold decodeFlat; rw [h]; rfl

theorem flat3A (w x : Nat) (h : w / 33554432 = 58) : decodeFlat w x = decode3A w x := by
  unfold decodeFlat; rw [h]; rfl

theorem flat3E (w x : Nat) (h : w / 33554432 = 62) : decodeFlat w x = decode3E w x := by
  unfold decodeFlat; rw [h]; rfl

theorem flat40 (w x : Nat) (h : w / 33554432 = 64) : decodeFlat w x = decode40 w x := by
  unfold decodeFlat; rw [h]; rfl

theorem flat41 (w x : Nat) (h : w / 33554432 = 65) : decodeFlat w x = decode41 w x := by
  unfold decodeFlat; rw [h]; rfl

theorem flat42 (w x : Nat) (h : w / 33554432 = 66) : decodeFlat w x = decode42 w x := by
  unfold decodeFlat; rw [h]; rfl

theorem flat43 (w x : Nat) (h : w / 33554432 = 67) : decodeFlat w x = decode43 w x := by
  unfold decodeFlat; rw [h]; rfl

theorem flat44 (w x : Nat) (h : w / 33554432 = 68) : decodeFlat w x = decode44 w x := by
  unfold decodeFlat; rw [h]; rfl

theorem flat45 (w x : Nat) (h : w / 33554432 = 69) : decodeFlat w x = decode45 w x := by
  unfold decodeFlat; rw [h]; rfl

theorem flat46 (w x : Nat) (h : w / 33554432 = 70) : decodeFlat w x = decode46 w x := by
  unfold decodeFlat; rw [h]; rfl

theorem flat47 (w x : Nat) (h : w / 33554432 = 71) : decodeFlat w x = decode47 w x := by
  unfold decodeFlat; rw [h]; rfl

theorem flat48 (w x : Nat) (h : w / 33554432 = 72) : decodeFlat w x = decode48 w x := by
  unfold decodeFlat; rw [h]; rfl

theorem flat49 (w x : Nat) (h : w / 33554432 = 73) : decodeFlat w x = decode49 w x := by
  unfold decodeFlat; rw [h]; rfl

theorem flat4A (w x : Nat) (h : w / 33554432 = 74) : decodeFlat w x = decode4A w x := by
  unfold decodeFlat; rw [h]; rfl

theorem flat4B (w x : Nat) (h : w / 33554432 = 75) : decodeFlat w x = decode4B w x := by
  unfold decodeFlat; rw [h]; rfl

theorem flat4C (w x : Nat) (h : w / 33554432 = 76) : decodeFlat w x = decode4C w x := by
  unfold decodeFlat; rw [h]; rfl

theorem flat4D (w x : Nat) (h : w / 33554432 = 77) : decodeFlat w x = decode4D w x := by
  unfold decodeFlat; rw [h]; rfl

theorem flat4E (w x : Nat) (h : w / 33554432 = 78) : decodeFlat w x = decode4E w x := by
  unfold decodeFlat; rw [h]; rfl

theorem flat4F (w x : Nat) (h : w / 33554432 = 79) : decodeFlat w x = decode4F w x := by
  unfold decodeFlat; rw [h]; rfl

theorem flat50 (w x : Nat) (h : w / 33554432 = 80) : decodeFlat w x = decode50 w x := by
  unfold decodeFlat; rw [h]; rfl

theorem flat51 (w x : Nat) (h : w / 33554432 = 81) : decodeFlat w x = decode51 w x := by
  unfold decodeFlat; rw [h]; rfl

theorem flat52 (w x : Nat) (h : w / 33554432 = 82) : decodeFlat w x = decode52 w x := by
  unfold decodeFlat; rw [h]; rfl

theorem flat53 (w x : Nat) (h : w / 33554432 = 83) : decodeFlat w x = decode53 w x := by
  unfold decodeFlat; rw [h]; rfl

theorem flat60 (w x : Nat) (h : w / 33554432 = 96) : decodeFlat w x = decode60 w x := by
  unfold decodeFlat; rw [h]; rfl

theorem flat61 (w x : Nat) (h : w / 33554432 = 97) : decodeFlat w x = decode61 w x := by
  unfold decodeFlat; rw [h]; rfl

theorem flat62 (w x : Nat) (h : w / 33554432 = 98) : decodeFlat w x = decode62 w x := by
  unfold decodeFlat; rw [h]; rfl

theorem flat63 (w x : Nat) (h : w / 33554432 = 99) : decodeFlat w x = decode63 w x := by
  unfold decodeFlat; rw [h]; rfl

theorem flat64 (w x : Nat) (h : w / 33554432 = 100) : decodeFlat w x = decode64 w x := by
  unfold decodeFlat; rw [h]; rfl

theorem flat65 (w x : Nat) (h : w / 33554432 = 101) : decodeFlat w x = decode65 w x := by
  unfold decodeFlat; rw [h]; rfl

theorem flat66 (w x : Nat) (h : w / 33554432 = 102) : decodeFlat w x = decode66 w x := by
  unfold decodeFlat; rw [h]; rfl

theorem flat68 (w x : Nat) (h : w / 33554432 = 104) : decodeFlat w x = decode68 w x := by
  unfold decodeFlat; rw [h]; rfl

theorem flat69 (w x : Nat) (h : w / 33554432 = 105) : decodeFlat w x = decode69 w x := by
  unfold decodeFlat; rw [h]; rfl

theorem flat6A (w x : Nat) (h : w / 33554432 = 106) : decodeFlat w x = decode6A w x := by
  unfold decodeFlat; rw [h]; rfl

theorem flat6B (w x : Nat) (h : w / 33554432 = 107) : decodeFlat w x = decode6B w x := by
  unfold decodeFlat; rw [h]; rfl

theorem flat6C (w x : Nat) (h : w / 33554432 = 108) : decodeFlat w x = decode6C w x := by
  unfold decodeFlat; rw [h]; rfl

theorem flat6D (w x : Nat) (h : w / 33554432 = 109) : decodeFlat w x = decode6D w x := by
  unfold decodeFlat; rw [h]; rfl

theorem flat6E (w x : Nat) (h : w / 33554432 = 110) : decodeFlat w x = decode6E w x := by
  unfold decodeFlat; rw [h]; rfl

theorem flat70 (w x : Nat) (h : w / 33554432 = 112) : decodeFlat w x = decode70 w x := by
  unfold decodeFlat; rw [h]; rfl

theorem flat71 (w x : Nat) (h : w / 33554432 = 113) : decodeFlat w x = decode71 w x := by
  unfold decodeFlat; rw [h]; rfl

theorem flat72 (w x : Nat) (h : w / 33554432 = 114) : decodeFlat w x = decode72 w x := by
  unfold decodeFlat; rw [h]; rfl

theorem flat74 (w x : Nat) (h : w / 33554432 = 116) : decodeFlat w x = decode74 w x := by
  unfold decodeFlat; rw [h]; rfl

theorem flat75 (w x : Nat) (h : w / 33554432 = 117) : decodeFlat w x = decode75 w x := by
  unfold decodeFlat; rw [h]; rfl

theorem add (d : Fin 64) (a : Fin 64) (b : Fin 64) : Statement (.add d a b) := by
  intro hf w nx he
  have hw : w = 0x0 + d.val * 524288 + a.val * 8192 + b.val * 128 := one (rfl : encode (.add d a b) = [0x0 + d.val * 524288 + a.val * 8192 + b.val * 128]) he
  have hl := layR (c := 0) (d := d.val) (a := a.val) (b := b.val) (x := 0) (hw.trans (by clear * -; omega)) (d.isLt) (a.isLt) (b.isLt) (by decide)
  have e0 := hl.1
  have e1 : fld w 0 7 = 0 := hl.2.2.2.2
  have a1 : r6 w 19 = d := Fin.ext (hl.2.1)
  have a2 : r6 w 13 = a := Fin.ext (hl.2.2.1)
  have a3 : r6 w 7 = b := Fin.ext (hl.2.2.2.1)
  refine wf_ok (by rw [e0]; decide) ?_ hf
  rw [flat00 w _ e0]; unfold decode00
  simp only [e1, a1, a2, a3, Nat.reduceEqDiff, OfNat.ofNat_ne_zero, OfNat.zero_ne_ofNat, one_ne_zero, zero_ne_one, OfNat.one_ne_ofNat, OfNat.ofNat_ne_one, false_and, and_false, and_self, true_and, and_true, reduceIte]

theorem sub (d : Fin 64) (a : Fin 64) (b : Fin 64) : Statement (.sub d a b) := by
  intro hf w nx he
  have hw : w = 0x1 + d.val * 524288 + a.val * 8192 + b.val * 128 := one (rfl : encode (.sub d a b) = [0x1 + d.val * 524288 + a.val * 8192 + b.val * 128]) he
  have hl := layR (c := 0) (d := d.val) (a := a.val) (b := b.val) (x := 1) (hw.trans (by clear * -; omega)) (d.isLt) (a.isLt) (b.isLt) (by decide)
  have e0 := hl.1
  have e1 : fld w 0 7 = 1 := hl.2.2.2.2
  have a1 : r6 w 19 = d := Fin.ext (hl.2.1)
  have a2 : r6 w 13 = a := Fin.ext (hl.2.2.1)
  have a3 : r6 w 7 = b := Fin.ext (hl.2.2.2.1)
  refine wf_ok (by rw [e0]; decide) ?_ hf
  rw [flat00 w _ e0]; unfold decode00
  simp only [e1, a1, a2, a3, Nat.reduceEqDiff, OfNat.ofNat_ne_zero, OfNat.zero_ne_ofNat, one_ne_zero, zero_ne_one, OfNat.one_ne_ofNat, OfNat.ofNat_ne_one, false_and, and_false, and_self, true_and, and_true, reduceIte]

theorem mul (d : Fin 64) (a : Fin 64) (b : Fin 64) : Statement (.mul d a b) := by
  intro hf w nx he
  have hw : w = 0x2 + d.val * 524288 + a.val * 8192 + b.val * 128 := one (rfl : encode (.mul d a b) = [0x2 + d.val * 524288 + a.val * 8192 + b.val * 128]) he
  have hl := layR (c := 0) (d := d.val) (a := a.val) (b := b.val) (x := 2) (hw.trans (by clear * -; omega)) (d.isLt) (a.isLt) (b.isLt) (by decide)
  have e0 := hl.1
  have e1 : fld w 0 7 = 2 := hl.2.2.2.2
  have a1 : r6 w 19 = d := Fin.ext (hl.2.1)
  have a2 : r6 w 13 = a := Fin.ext (hl.2.2.1)
  have a3 : r6 w 7 = b := Fin.ext (hl.2.2.2.1)
  refine wf_ok (by rw [e0]; decide) ?_ hf
  rw [flat00 w _ e0]; unfold decode00
  simp only [e1, a1, a2, a3, Nat.reduceEqDiff, OfNat.ofNat_ne_zero, OfNat.zero_ne_ofNat, one_ne_zero, zero_ne_one, OfNat.one_ne_ofNat, OfNat.ofNat_ne_one, false_and, and_false, and_self, true_and, and_true, reduceIte]

theorem mulh (d : Fin 64) (a : Fin 64) (b : Fin 64) : Statement (.mulh d a b) := by
  intro hf w nx he
  have hw : w = 0x3 + d.val * 524288 + a.val * 8192 + b.val * 128 := one (rfl : encode (.mulh d a b) = [0x3 + d.val * 524288 + a.val * 8192 + b.val * 128]) he
  have hl := layR (c := 0) (d := d.val) (a := a.val) (b := b.val) (x := 3) (hw.trans (by clear * -; omega)) (d.isLt) (a.isLt) (b.isLt) (by decide)
  have e0 := hl.1
  have e1 : fld w 0 7 = 3 := hl.2.2.2.2
  have a1 : r6 w 19 = d := Fin.ext (hl.2.1)
  have a2 : r6 w 13 = a := Fin.ext (hl.2.2.1)
  have a3 : r6 w 7 = b := Fin.ext (hl.2.2.2.1)
  refine wf_ok (by rw [e0]; decide) ?_ hf
  rw [flat00 w _ e0]; unfold decode00
  simp only [e1, a1, a2, a3, Nat.reduceEqDiff, OfNat.ofNat_ne_zero, OfNat.zero_ne_ofNat, one_ne_zero, zero_ne_one, OfNat.one_ne_ofNat, OfNat.ofNat_ne_one, false_and, and_false, and_self, true_and, and_true, reduceIte]

theorem mulhU (d : Fin 64) (a : Fin 64) (b : Fin 64) : Statement (.mulhU d a b) := by
  intro hf w nx he
  have hw : w = 0x4 + d.val * 524288 + a.val * 8192 + b.val * 128 := one (rfl : encode (.mulhU d a b) = [0x4 + d.val * 524288 + a.val * 8192 + b.val * 128]) he
  have hl := layR (c := 0) (d := d.val) (a := a.val) (b := b.val) (x := 4) (hw.trans (by clear * -; omega)) (d.isLt) (a.isLt) (b.isLt) (by decide)
  have e0 := hl.1
  have e1 : fld w 0 7 = 4 := hl.2.2.2.2
  have a1 : r6 w 19 = d := Fin.ext (hl.2.1)
  have a2 : r6 w 13 = a := Fin.ext (hl.2.2.1)
  have a3 : r6 w 7 = b := Fin.ext (hl.2.2.2.1)
  refine wf_ok (by rw [e0]; decide) ?_ hf
  rw [flat00 w _ e0]; unfold decode00
  simp only [e1, a1, a2, a3, Nat.reduceEqDiff, OfNat.ofNat_ne_zero, OfNat.zero_ne_ofNat, one_ne_zero, zero_ne_one, OfNat.one_ne_ofNat, OfNat.ofNat_ne_one, false_and, and_false, and_self, true_and, and_true, reduceIte]

theorem div (d : Fin 64) (a : Fin 64) (b : Fin 64) : Statement (.div d a b) := by
  intro hf w nx he
  have hw : w = 0x5 + d.val * 524288 + a.val * 8192 + b.val * 128 := one (rfl : encode (.div d a b) = [0x5 + d.val * 524288 + a.val * 8192 + b.val * 128]) he
  have hl := layR (c := 0) (d := d.val) (a := a.val) (b := b.val) (x := 5) (hw.trans (by clear * -; omega)) (d.isLt) (a.isLt) (b.isLt) (by decide)
  have e0 := hl.1
  have e1 : fld w 0 7 = 5 := hl.2.2.2.2
  have a1 : r6 w 19 = d := Fin.ext (hl.2.1)
  have a2 : r6 w 13 = a := Fin.ext (hl.2.2.1)
  have a3 : r6 w 7 = b := Fin.ext (hl.2.2.2.1)
  refine wf_ok (by rw [e0]; decide) ?_ hf
  rw [flat00 w _ e0]; unfold decode00
  simp only [e1, a1, a2, a3, Nat.reduceEqDiff, OfNat.ofNat_ne_zero, OfNat.zero_ne_ofNat, one_ne_zero, zero_ne_one, OfNat.one_ne_ofNat, OfNat.ofNat_ne_one, false_and, and_false, and_self, true_and, and_true, reduceIte]

theorem divU (d : Fin 64) (a : Fin 64) (b : Fin 64) : Statement (.divU d a b) := by
  intro hf w nx he
  have hw : w = 0x6 + d.val * 524288 + a.val * 8192 + b.val * 128 := one (rfl : encode (.divU d a b) = [0x6 + d.val * 524288 + a.val * 8192 + b.val * 128]) he
  have hl := layR (c := 0) (d := d.val) (a := a.val) (b := b.val) (x := 6) (hw.trans (by clear * -; omega)) (d.isLt) (a.isLt) (b.isLt) (by decide)
  have e0 := hl.1
  have e1 : fld w 0 7 = 6 := hl.2.2.2.2
  have a1 : r6 w 19 = d := Fin.ext (hl.2.1)
  have a2 : r6 w 13 = a := Fin.ext (hl.2.2.1)
  have a3 : r6 w 7 = b := Fin.ext (hl.2.2.2.1)
  refine wf_ok (by rw [e0]; decide) ?_ hf
  rw [flat00 w _ e0]; unfold decode00
  simp only [e1, a1, a2, a3, Nat.reduceEqDiff, OfNat.ofNat_ne_zero, OfNat.zero_ne_ofNat, one_ne_zero, zero_ne_one, OfNat.one_ne_ofNat, OfNat.ofNat_ne_one, false_and, and_false, and_self, true_and, and_true, reduceIte]

theorem rem (d : Fin 64) (a : Fin 64) (b : Fin 64) : Statement (.rem d a b) := by
  intro hf w nx he
  have hw : w = 0x7 + d.val * 524288 + a.val * 8192 + b.val * 128 := one (rfl : encode (.rem d a b) = [0x7 + d.val * 524288 + a.val * 8192 + b.val * 128]) he
  have hl := layR (c := 0) (d := d.val) (a := a.val) (b := b.val) (x := 7) (hw.trans (by clear * -; omega)) (d.isLt) (a.isLt) (b.isLt) (by decide)
  have e0 := hl.1
  have e1 : fld w 0 7 = 7 := hl.2.2.2.2
  have a1 : r6 w 19 = d := Fin.ext (hl.2.1)
  have a2 : r6 w 13 = a := Fin.ext (hl.2.2.1)
  have a3 : r6 w 7 = b := Fin.ext (hl.2.2.2.1)
  refine wf_ok (by rw [e0]; decide) ?_ hf
  rw [flat00 w _ e0]; unfold decode00
  simp only [e1, a1, a2, a3, Nat.reduceEqDiff, OfNat.ofNat_ne_zero, OfNat.zero_ne_ofNat, one_ne_zero, zero_ne_one, OfNat.one_ne_ofNat, OfNat.ofNat_ne_one, false_and, and_false, and_self, true_and, and_true, reduceIte]

theorem remU (d : Fin 64) (a : Fin 64) (b : Fin 64) : Statement (.remU d a b) := by
  intro hf w nx he
  have hw : w = 0x8 + d.val * 524288 + a.val * 8192 + b.val * 128 := one (rfl : encode (.remU d a b) = [0x8 + d.val * 524288 + a.val * 8192 + b.val * 128]) he
  have hl := layR (c := 0) (d := d.val) (a := a.val) (b := b.val) (x := 8) (hw.trans (by clear * -; omega)) (d.isLt) (a.isLt) (b.isLt) (by decide)
  have e0 := hl.1
  have e1 : fld w 0 7 = 8 := hl.2.2.2.2
  have a1 : r6 w 19 = d := Fin.ext (hl.2.1)
  have a2 : r6 w 13 = a := Fin.ext (hl.2.2.1)
  have a3 : r6 w 7 = b := Fin.ext (hl.2.2.2.1)
  refine wf_ok (by rw [e0]; decide) ?_ hf
  rw [flat00 w _ e0]; unfold decode00
  simp only [e1, a1, a2, a3, Nat.reduceEqDiff, OfNat.ofNat_ne_zero, OfNat.zero_ne_ofNat, one_ne_zero, zero_ne_one, OfNat.one_ne_ofNat, OfNat.ofNat_ne_one, false_and, and_false, and_self, true_and, and_true, reduceIte]

theorem and (d : Fin 64) (a : Fin 64) (b : Fin 64) : Statement (.and d a b) := by
  intro hf w nx he
  have hw : w = 0x9 + d.val * 524288 + a.val * 8192 + b.val * 128 := one (rfl : encode (.and d a b) = [0x9 + d.val * 524288 + a.val * 8192 + b.val * 128]) he
  have hl := layR (c := 0) (d := d.val) (a := a.val) (b := b.val) (x := 9) (hw.trans (by clear * -; omega)) (d.isLt) (a.isLt) (b.isLt) (by decide)
  have e0 := hl.1
  have e1 : fld w 0 7 = 9 := hl.2.2.2.2
  have a1 : r6 w 19 = d := Fin.ext (hl.2.1)
  have a2 : r6 w 13 = a := Fin.ext (hl.2.2.1)
  have a3 : r6 w 7 = b := Fin.ext (hl.2.2.2.1)
  refine wf_ok (by rw [e0]; decide) ?_ hf
  rw [flat00 w _ e0]; unfold decode00
  simp only [e1, a1, a2, a3, Nat.reduceEqDiff, OfNat.ofNat_ne_zero, OfNat.zero_ne_ofNat, one_ne_zero, zero_ne_one, OfNat.one_ne_ofNat, OfNat.ofNat_ne_one, false_and, and_false, and_self, true_and, and_true, reduceIte]

theorem or (d : Fin 64) (a : Fin 64) (b : Fin 64) : Statement (.or d a b) := by
  intro hf w nx he
  have hw : w = 0xa + d.val * 524288 + a.val * 8192 + b.val * 128 := one (rfl : encode (.or d a b) = [0xa + d.val * 524288 + a.val * 8192 + b.val * 128]) he
  have hl := layR (c := 0) (d := d.val) (a := a.val) (b := b.val) (x := 10) (hw.trans (by clear * -; omega)) (d.isLt) (a.isLt) (b.isLt) (by decide)
  have e0 := hl.1
  have e1 : fld w 0 7 = 10 := hl.2.2.2.2
  have a1 : r6 w 19 = d := Fin.ext (hl.2.1)
  have a2 : r6 w 13 = a := Fin.ext (hl.2.2.1)
  have a3 : r6 w 7 = b := Fin.ext (hl.2.2.2.1)
  refine wf_ok (by rw [e0]; decide) ?_ hf
  rw [flat00 w _ e0]; unfold decode00
  simp only [e1, a1, a2, a3, Nat.reduceEqDiff, OfNat.ofNat_ne_zero, OfNat.zero_ne_ofNat, one_ne_zero, zero_ne_one, OfNat.one_ne_ofNat, OfNat.ofNat_ne_one, false_and, and_false, and_self, true_and, and_true, reduceIte]

theorem xor (d : Fin 64) (a : Fin 64) (b : Fin 64) : Statement (.xor d a b) := by
  intro hf w nx he
  have hw : w = 0xb + d.val * 524288 + a.val * 8192 + b.val * 128 := one (rfl : encode (.xor d a b) = [0xb + d.val * 524288 + a.val * 8192 + b.val * 128]) he
  have hl := layR (c := 0) (d := d.val) (a := a.val) (b := b.val) (x := 11) (hw.trans (by clear * -; omega)) (d.isLt) (a.isLt) (b.isLt) (by decide)
  have e0 := hl.1
  have e1 : fld w 0 7 = 11 := hl.2.2.2.2
  have a1 : r6 w 19 = d := Fin.ext (hl.2.1)
  have a2 : r6 w 13 = a := Fin.ext (hl.2.2.1)
  have a3 : r6 w 7 = b := Fin.ext (hl.2.2.2.1)
  refine wf_ok (by rw [e0]; decide) ?_ hf
  rw [flat00 w _ e0]; unfold decode00
  simp only [e1, a1, a2, a3, Nat.reduceEqDiff, OfNat.ofNat_ne_zero, OfNat.zero_ne_ofNat, one_ne_zero, zero_ne_one, OfNat.one_ne_ofNat, OfNat.ofNat_ne_one, false_and, and_false, and_self, true_and, and_true, reduceIte]

theorem shl (d : Fin 64) (a : Fin 64) (b : Fin 64) : Statement (.shl d a b) := by
  intro hf w nx he
  have hw : w = 0xc + d.val * 524288 + a.val * 8192 + b.val * 128 := one (rfl : encode (.shl d a b) = [0xc + d.val * 524288 + a.val * 8192 + b.val * 128]) he
  have hl := layR (c := 0) (d := d.val) (a := a.val) (b := b.val) (x := 12) (hw.trans (by clear * -; omega)) (d.isLt) (a.isLt) (b.isLt) (by decide)
  have e0 := hl.1
  have e1 : fld w 0 7 = 12 := hl.2.2.2.2
  have a1 : r6 w 19 = d := Fin.ext (hl.2.1)
  have a2 : r6 w 13 = a := Fin.ext (hl.2.2.1)
  have a3 : r6 w 7 = b := Fin.ext (hl.2.2.2.1)
  refine wf_ok (by rw [e0]; decide) ?_ hf
  rw [flat00 w _ e0]; unfold decode00
  simp only [e1, a1, a2, a3, Nat.reduceEqDiff, OfNat.ofNat_ne_zero, OfNat.zero_ne_ofNat, one_ne_zero, zero_ne_one, OfNat.one_ne_ofNat, OfNat.ofNat_ne_one, false_and, and_false, and_self, true_and, and_true, reduceIte]

theorem shr (d : Fin 64) (a : Fin 64) (b : Fin 64) : Statement (.shr d a b) := by
  intro hf w nx he
  have hw : w = 0xd + d.val * 524288 + a.val * 8192 + b.val * 128 := one (rfl : encode (.shr d a b) = [0xd + d.val * 524288 + a.val * 8192 + b.val * 128]) he
  have hl := layR (c := 0) (d := d.val) (a := a.val) (b := b.val) (x := 13) (hw.trans (by clear * -; omega)) (d.isLt) (a.isLt) (b.isLt) (by decide)
  have e0 := hl.1
  have e1 : fld w 0 7 = 13 := hl.2.2.2.2
  have a1 : r6 w 19 = d := Fin.ext (hl.2.1)
  have a2 : r6 w 13 = a := Fin.ext (hl.2.2.1)
  have a3 : r6 w 7 = b := Fin.ext (hl.2.2.2.1)
  refine wf_ok (by rw [e0]; decide) ?_ hf
  rw [flat00 w _ e0]; unfold decode00
  simp only [e1, a1, a2, a3, Nat.reduceEqDiff, OfNat.ofNat_ne_zero, OfNat.zero_ne_ofNat, one_ne_zero, zero_ne_one, OfNat.one_ne_ofNat, OfNat.ofNat_ne_one, false_and, and_false, and_self, true_and, and_true, reduceIte]

theorem sra (d : Fin 64) (a : Fin 64) (b : Fin 64) : Statement (.sra d a b) := by
  intro hf w nx he
  have hw : w = 0xe + d.val * 524288 + a.val * 8192 + b.val * 128 := one (rfl : encode (.sra d a b) = [0xe + d.val * 524288 + a.val * 8192 + b.val * 128]) he
  have hl := layR (c := 0) (d := d.val) (a := a.val) (b := b.val) (x := 14) (hw.trans (by clear * -; omega)) (d.isLt) (a.isLt) (b.isLt) (by decide)
  have e0 := hl.1
  have e1 : fld w 0 7 = 14 := hl.2.2.2.2
  have a1 : r6 w 19 = d := Fin.ext (hl.2.1)
  have a2 : r6 w 13 = a := Fin.ext (hl.2.2.1)
  have a3 : r6 w 7 = b := Fin.ext (hl.2.2.2.1)
  refine wf_ok (by rw [e0]; decide) ?_ hf
  rw [flat00 w _ e0]; unfold decode00
  simp only [e1, a1, a2, a3, Nat.reduceEqDiff, OfNat.ofNat_ne_zero, OfNat.zero_ne_ofNat, one_ne_zero, zero_ne_one, OfNat.one_ne_ofNat, OfNat.ofNat_ne_one, false_and, and_false, and_self, true_and, and_true, reduceIte]

theorem min (d : Fin 64) (a : Fin 64) (b : Fin 64) : Statement (.min d a b) := by
  intro hf w nx he
  have hw : w = 0xf + d.val * 524288 + a.val * 8192 + b.val * 128 := one (rfl : encode (.min d a b) = [0xf + d.val * 524288 + a.val * 8192 + b.val * 128]) he
  have hl := layR (c := 0) (d := d.val) (a := a.val) (b := b.val) (x := 15) (hw.trans (by clear * -; omega)) (d.isLt) (a.isLt) (b.isLt) (by decide)
  have e0 := hl.1
  have e1 : fld w 0 7 = 15 := hl.2.2.2.2
  have a1 : r6 w 19 = d := Fin.ext (hl.2.1)
  have a2 : r6 w 13 = a := Fin.ext (hl.2.2.1)
  have a3 : r6 w 7 = b := Fin.ext (hl.2.2.2.1)
  refine wf_ok (by rw [e0]; decide) ?_ hf
  rw [flat00 w _ e0]; unfold decode00
  simp only [e1, a1, a2, a3, Nat.reduceEqDiff, OfNat.ofNat_ne_zero, OfNat.zero_ne_ofNat, one_ne_zero, zero_ne_one, OfNat.one_ne_ofNat, OfNat.ofNat_ne_one, false_and, and_false, and_self, true_and, and_true, reduceIte]

theorem minU (d : Fin 64) (a : Fin 64) (b : Fin 64) : Statement (.minU d a b) := by
  intro hf w nx he
  have hw : w = 0x10 + d.val * 524288 + a.val * 8192 + b.val * 128 := one (rfl : encode (.minU d a b) = [0x10 + d.val * 524288 + a.val * 8192 + b.val * 128]) he
  have hl := layR (c := 0) (d := d.val) (a := a.val) (b := b.val) (x := 16) (hw.trans (by clear * -; omega)) (d.isLt) (a.isLt) (b.isLt) (by decide)
  have e0 := hl.1
  have e1 : fld w 0 7 = 16 := hl.2.2.2.2
  have a1 : r6 w 19 = d := Fin.ext (hl.2.1)
  have a2 : r6 w 13 = a := Fin.ext (hl.2.2.1)
  have a3 : r6 w 7 = b := Fin.ext (hl.2.2.2.1)
  refine wf_ok (by rw [e0]; decide) ?_ hf
  rw [flat00 w _ e0]; unfold decode00
  simp only [e1, a1, a2, a3, Nat.reduceEqDiff, OfNat.ofNat_ne_zero, OfNat.zero_ne_ofNat, one_ne_zero, zero_ne_one, OfNat.one_ne_ofNat, OfNat.ofNat_ne_one, false_and, and_false, and_self, true_and, and_true, reduceIte]

theorem max (d : Fin 64) (a : Fin 64) (b : Fin 64) : Statement (.max d a b) := by
  intro hf w nx he
  have hw : w = 0x11 + d.val * 524288 + a.val * 8192 + b.val * 128 := one (rfl : encode (.max d a b) = [0x11 + d.val * 524288 + a.val * 8192 + b.val * 128]) he
  have hl := layR (c := 0) (d := d.val) (a := a.val) (b := b.val) (x := 17) (hw.trans (by clear * -; omega)) (d.isLt) (a.isLt) (b.isLt) (by decide)
  have e0 := hl.1
  have e1 : fld w 0 7 = 17 := hl.2.2.2.2
  have a1 : r6 w 19 = d := Fin.ext (hl.2.1)
  have a2 : r6 w 13 = a := Fin.ext (hl.2.2.1)
  have a3 : r6 w 7 = b := Fin.ext (hl.2.2.2.1)
  refine wf_ok (by rw [e0]; decide) ?_ hf
  rw [flat00 w _ e0]; unfold decode00
  simp only [e1, a1, a2, a3, Nat.reduceEqDiff, OfNat.ofNat_ne_zero, OfNat.zero_ne_ofNat, one_ne_zero, zero_ne_one, OfNat.one_ne_ofNat, OfNat.ofNat_ne_one, false_and, and_false, and_self, true_and, and_true, reduceIte]

theorem maxU (d : Fin 64) (a : Fin 64) (b : Fin 64) : Statement (.maxU d a b) := by
  intro hf w nx he
  have hw : w = 0x12 + d.val * 524288 + a.val * 8192 + b.val * 128 := one (rfl : encode (.maxU d a b) = [0x12 + d.val * 524288 + a.val * 8192 + b.val * 128]) he
  have hl := layR (c := 0) (d := d.val) (a := a.val) (b := b.val) (x := 18) (hw.trans (by clear * -; omega)) (d.isLt) (a.isLt) (b.isLt) (by decide)
  have e0 := hl.1
  have e1 : fld w 0 7 = 18 := hl.2.2.2.2
  have a1 : r6 w 19 = d := Fin.ext (hl.2.1)
  have a2 : r6 w 13 = a := Fin.ext (hl.2.2.1)
  have a3 : r6 w 7 = b := Fin.ext (hl.2.2.2.1)
  refine wf_ok (by rw [e0]; decide) ?_ hf
  rw [flat00 w _ e0]; unfold decode00
  simp only [e1, a1, a2, a3, Nat.reduceEqDiff, OfNat.ofNat_ne_zero, OfNat.zero_ne_ofNat, one_ne_zero, zero_ne_one, OfNat.one_ne_ofNat, OfNat.ofNat_ne_one, false_and, and_false, and_self, true_and, and_true, reduceIte]

theorem sel (d : Fin 64) (a : Fin 64) (b : Fin 64) : Statement (.sel d a b) := by
  intro hf w nx he
  have hw : w = 0x13 + d.val * 524288 + a.val * 8192 + b.val * 128 := one (rfl : encode (.sel d a b) = [0x13 + d.val * 524288 + a.val * 8192 + b.val * 128]) he
  have hl := layR (c := 0) (d := d.val) (a := a.val) (b := b.val) (x := 19) (hw.trans (by clear * -; omega)) (d.isLt) (a.isLt) (b.isLt) (by decide)
  have e0 := hl.1
  have e1 : fld w 0 7 = 19 := hl.2.2.2.2
  have a1 : r6 w 19 = d := Fin.ext (hl.2.1)
  have a2 : r6 w 13 = a := Fin.ext (hl.2.2.1)
  have a3 : r6 w 7 = b := Fin.ext (hl.2.2.2.1)
  refine wf_ok (by rw [e0]; decide) ?_ hf
  rw [flat00 w _ e0]; unfold decode00
  simp only [e1, a1, a2, a3, Nat.reduceEqDiff, OfNat.ofNat_ne_zero, OfNat.zero_ne_ofNat, one_ne_zero, zero_ne_one, OfNat.one_ne_ofNat, OfNat.ofNat_ne_one, false_and, and_false, and_self, true_and, and_true, reduceIte]

theorem clz (d : Fin 64) (a : Fin 64) : Statement (.clz d a) := by
  intro hf w nx he
  have hw : w = 0x14 + d.val * 524288 + a.val * 8192 := one (rfl : encode (.clz d a) = [0x14 + d.val * 524288 + a.val * 8192]) he
  have hl := layR (c := 0) (d := d.val) (a := a.val) (b := 0) (x := 20) (hw.trans (by clear * -; omega)) (d.isLt) (a.isLt) (by decide) (by decide)
  have e0 := hl.1
  have e1 : fld w 0 7 = 20 := hl.2.2.2.2
  have e2 : fld w 7 6 = 0 := hl.2.2.2.1
  have a1 : r6 w 19 = d := Fin.ext (hl.2.1)
  have a2 : r6 w 13 = a := Fin.ext (hl.2.2.1)
  refine wf_ok (by rw [e0]; decide) ?_ hf
  rw [flat00 w _ e0]; unfold decode00
  simp only [e1, e2, a1, a2, Nat.reduceEqDiff, OfNat.ofNat_ne_zero, OfNat.zero_ne_ofNat, one_ne_zero, zero_ne_one, OfNat.one_ne_ofNat, OfNat.ofNat_ne_one, false_and, and_false, and_self, true_and, and_true, reduceIte]

theorem popc (d : Fin 64) (a : Fin 64) : Statement (.popc d a) := by
  intro hf w nx he
  have hw : w = 0x15 + d.val * 524288 + a.val * 8192 := one (rfl : encode (.popc d a) = [0x15 + d.val * 524288 + a.val * 8192]) he
  have hl := layR (c := 0) (d := d.val) (a := a.val) (b := 0) (x := 21) (hw.trans (by clear * -; omega)) (d.isLt) (a.isLt) (by decide) (by decide)
  have e0 := hl.1
  have e1 : fld w 0 7 = 21 := hl.2.2.2.2
  have e2 : fld w 7 6 = 0 := hl.2.2.2.1
  have a1 : r6 w 19 = d := Fin.ext (hl.2.1)
  have a2 : r6 w 13 = a := Fin.ext (hl.2.2.1)
  refine wf_ok (by rw [e0]; decide) ?_ hf
  rw [flat00 w _ e0]; unfold decode00
  simp only [e1, e2, a1, a2, Nat.reduceEqDiff, OfNat.ofNat_ne_zero, OfNat.zero_ne_ofNat, one_ne_zero, zero_ne_one, OfNat.one_ne_ofNat, OfNat.ofNat_ne_one, false_and, and_false, and_self, true_and, and_true, reduceIte]

theorem addK (d : Fin 64) (a : Fin 64) (k : KRef) : Statement (.addK d a k) := by
  intro hf w nx he
  have hx : w = 0x40 + d.val * 524288 + a.val * 8192 ∧ nx = k.word := two (rfl : encode (.addK d a k) = [0x40 + d.val * 524288 + a.val * 8192, k.word]) he
  rw [hx.2]; replace hw := hx.1
  have hl := layR (c := 0) (d := d.val) (a := a.val) (b := 0) (x := 64) (hw.trans (by clear * -; omega)) (d.isLt) (a.isLt) (by decide) (by decide)
  have e0 := hl.1
  have e1 : fld w 0 7 = 64 := hl.2.2.2.2
  have e2 : fld w 7 6 = 0 := hl.2.2.2.1
  have a1 : r6 w 19 = d := Fin.ext (hl.2.1)
  have a2 : r6 w 13 = a := Fin.ext (hl.2.2.1)
  refine wf_ok (by rw [e0]; decide) ?_ hf
  rw [flat00 w _ e0]; unfold decode00
  simp only [e1, e2, a1, a2, (kref_word k).1, Nat.reduceEqDiff, OfNat.ofNat_ne_zero, OfNat.zero_ne_ofNat, one_ne_zero, zero_ne_one, OfNat.one_ne_ofNat, OfNat.ofNat_ne_one, false_and, and_false, and_self, true_and, and_true, reduceIte, (kref_word k).2]

theorem subK (d : Fin 64) (a : Fin 64) (k : KRef) : Statement (.subK d a k) := by
  intro hf w nx he
  have hx : w = 0x41 + d.val * 524288 + a.val * 8192 ∧ nx = k.word := two (rfl : encode (.subK d a k) = [0x41 + d.val * 524288 + a.val * 8192, k.word]) he
  rw [hx.2]; replace hw := hx.1
  have hl := layR (c := 0) (d := d.val) (a := a.val) (b := 0) (x := 65) (hw.trans (by clear * -; omega)) (d.isLt) (a.isLt) (by decide) (by decide)
  have e0 := hl.1
  have e1 : fld w 0 7 = 65 := hl.2.2.2.2
  have e2 : fld w 7 6 = 0 := hl.2.2.2.1
  have a1 : r6 w 19 = d := Fin.ext (hl.2.1)
  have a2 : r6 w 13 = a := Fin.ext (hl.2.2.1)
  refine wf_ok (by rw [e0]; decide) ?_ hf
  rw [flat00 w _ e0]; unfold decode00
  simp only [e1, e2, a1, a2, (kref_word k).1, Nat.reduceEqDiff, OfNat.ofNat_ne_zero, OfNat.zero_ne_ofNat, one_ne_zero, zero_ne_one, OfNat.one_ne_ofNat, OfNat.ofNat_ne_one, false_and, and_false, and_self, true_and, and_true, reduceIte, (kref_word k).2]

theorem mulK (d : Fin 64) (a : Fin 64) (k : KRef) : Statement (.mulK d a k) := by
  intro hf w nx he
  have hx : w = 0x42 + d.val * 524288 + a.val * 8192 ∧ nx = k.word := two (rfl : encode (.mulK d a k) = [0x42 + d.val * 524288 + a.val * 8192, k.word]) he
  rw [hx.2]; replace hw := hx.1
  have hl := layR (c := 0) (d := d.val) (a := a.val) (b := 0) (x := 66) (hw.trans (by clear * -; omega)) (d.isLt) (a.isLt) (by decide) (by decide)
  have e0 := hl.1
  have e1 : fld w 0 7 = 66 := hl.2.2.2.2
  have e2 : fld w 7 6 = 0 := hl.2.2.2.1
  have a1 : r6 w 19 = d := Fin.ext (hl.2.1)
  have a2 : r6 w 13 = a := Fin.ext (hl.2.2.1)
  refine wf_ok (by rw [e0]; decide) ?_ hf
  rw [flat00 w _ e0]; unfold decode00
  simp only [e1, e2, a1, a2, (kref_word k).1, Nat.reduceEqDiff, OfNat.ofNat_ne_zero, OfNat.zero_ne_ofNat, one_ne_zero, zero_ne_one, OfNat.one_ne_ofNat, OfNat.ofNat_ne_one, false_and, and_false, and_self, true_and, and_true, reduceIte, (kref_word k).2]

theorem mulhK (d : Fin 64) (a : Fin 64) (k : KRef) : Statement (.mulhK d a k) := by
  intro hf w nx he
  have hx : w = 0x43 + d.val * 524288 + a.val * 8192 ∧ nx = k.word := two (rfl : encode (.mulhK d a k) = [0x43 + d.val * 524288 + a.val * 8192, k.word]) he
  rw [hx.2]; replace hw := hx.1
  have hl := layR (c := 0) (d := d.val) (a := a.val) (b := 0) (x := 67) (hw.trans (by clear * -; omega)) (d.isLt) (a.isLt) (by decide) (by decide)
  have e0 := hl.1
  have e1 : fld w 0 7 = 67 := hl.2.2.2.2
  have e2 : fld w 7 6 = 0 := hl.2.2.2.1
  have a1 : r6 w 19 = d := Fin.ext (hl.2.1)
  have a2 : r6 w 13 = a := Fin.ext (hl.2.2.1)
  refine wf_ok (by rw [e0]; decide) ?_ hf
  rw [flat00 w _ e0]; unfold decode00
  simp only [e1, e2, a1, a2, (kref_word k).1, Nat.reduceEqDiff, OfNat.ofNat_ne_zero, OfNat.zero_ne_ofNat, one_ne_zero, zero_ne_one, OfNat.one_ne_ofNat, OfNat.ofNat_ne_one, false_and, and_false, and_self, true_and, and_true, reduceIte, (kref_word k).2]

theorem mulhUK (d : Fin 64) (a : Fin 64) (k : KRef) : Statement (.mulhUK d a k) := by
  intro hf w nx he
  have hx : w = 0x44 + d.val * 524288 + a.val * 8192 ∧ nx = k.word := two (rfl : encode (.mulhUK d a k) = [0x44 + d.val * 524288 + a.val * 8192, k.word]) he
  rw [hx.2]; replace hw := hx.1
  have hl := layR (c := 0) (d := d.val) (a := a.val) (b := 0) (x := 68) (hw.trans (by clear * -; omega)) (d.isLt) (a.isLt) (by decide) (by decide)
  have e0 := hl.1
  have e1 : fld w 0 7 = 68 := hl.2.2.2.2
  have e2 : fld w 7 6 = 0 := hl.2.2.2.1
  have a1 : r6 w 19 = d := Fin.ext (hl.2.1)
  have a2 : r6 w 13 = a := Fin.ext (hl.2.2.1)
  refine wf_ok (by rw [e0]; decide) ?_ hf
  rw [flat00 w _ e0]; unfold decode00
  simp only [e1, e2, a1, a2, (kref_word k).1, Nat.reduceEqDiff, OfNat.ofNat_ne_zero, OfNat.zero_ne_ofNat, one_ne_zero, zero_ne_one, OfNat.one_ne_ofNat, OfNat.ofNat_ne_one, false_and, and_false, and_self, true_and, and_true, reduceIte, (kref_word k).2]

theorem divK (d : Fin 64) (a : Fin 64) (k : KRef) : Statement (.divK d a k) := by
  intro hf w nx he
  have hx : w = 0x45 + d.val * 524288 + a.val * 8192 ∧ nx = k.word := two (rfl : encode (.divK d a k) = [0x45 + d.val * 524288 + a.val * 8192, k.word]) he
  rw [hx.2]; replace hw := hx.1
  have hl := layR (c := 0) (d := d.val) (a := a.val) (b := 0) (x := 69) (hw.trans (by clear * -; omega)) (d.isLt) (a.isLt) (by decide) (by decide)
  have e0 := hl.1
  have e1 : fld w 0 7 = 69 := hl.2.2.2.2
  have e2 : fld w 7 6 = 0 := hl.2.2.2.1
  have a1 : r6 w 19 = d := Fin.ext (hl.2.1)
  have a2 : r6 w 13 = a := Fin.ext (hl.2.2.1)
  refine wf_ok (by rw [e0]; decide) ?_ hf
  rw [flat00 w _ e0]; unfold decode00
  simp only [e1, e2, a1, a2, (kref_word k).1, Nat.reduceEqDiff, OfNat.ofNat_ne_zero, OfNat.zero_ne_ofNat, one_ne_zero, zero_ne_one, OfNat.one_ne_ofNat, OfNat.ofNat_ne_one, false_and, and_false, and_self, true_and, and_true, reduceIte, (kref_word k).2]

theorem divUK (d : Fin 64) (a : Fin 64) (k : KRef) : Statement (.divUK d a k) := by
  intro hf w nx he
  have hx : w = 0x46 + d.val * 524288 + a.val * 8192 ∧ nx = k.word := two (rfl : encode (.divUK d a k) = [0x46 + d.val * 524288 + a.val * 8192, k.word]) he
  rw [hx.2]; replace hw := hx.1
  have hl := layR (c := 0) (d := d.val) (a := a.val) (b := 0) (x := 70) (hw.trans (by clear * -; omega)) (d.isLt) (a.isLt) (by decide) (by decide)
  have e0 := hl.1
  have e1 : fld w 0 7 = 70 := hl.2.2.2.2
  have e2 : fld w 7 6 = 0 := hl.2.2.2.1
  have a1 : r6 w 19 = d := Fin.ext (hl.2.1)
  have a2 : r6 w 13 = a := Fin.ext (hl.2.2.1)
  refine wf_ok (by rw [e0]; decide) ?_ hf
  rw [flat00 w _ e0]; unfold decode00
  simp only [e1, e2, a1, a2, (kref_word k).1, Nat.reduceEqDiff, OfNat.ofNat_ne_zero, OfNat.zero_ne_ofNat, one_ne_zero, zero_ne_one, OfNat.one_ne_ofNat, OfNat.ofNat_ne_one, false_and, and_false, and_self, true_and, and_true, reduceIte, (kref_word k).2]

theorem remK (d : Fin 64) (a : Fin 64) (k : KRef) : Statement (.remK d a k) := by
  intro hf w nx he
  have hx : w = 0x47 + d.val * 524288 + a.val * 8192 ∧ nx = k.word := two (rfl : encode (.remK d a k) = [0x47 + d.val * 524288 + a.val * 8192, k.word]) he
  rw [hx.2]; replace hw := hx.1
  have hl := layR (c := 0) (d := d.val) (a := a.val) (b := 0) (x := 71) (hw.trans (by clear * -; omega)) (d.isLt) (a.isLt) (by decide) (by decide)
  have e0 := hl.1
  have e1 : fld w 0 7 = 71 := hl.2.2.2.2
  have e2 : fld w 7 6 = 0 := hl.2.2.2.1
  have a1 : r6 w 19 = d := Fin.ext (hl.2.1)
  have a2 : r6 w 13 = a := Fin.ext (hl.2.2.1)
  refine wf_ok (by rw [e0]; decide) ?_ hf
  rw [flat00 w _ e0]; unfold decode00
  simp only [e1, e2, a1, a2, (kref_word k).1, Nat.reduceEqDiff, OfNat.ofNat_ne_zero, OfNat.zero_ne_ofNat, one_ne_zero, zero_ne_one, OfNat.one_ne_ofNat, OfNat.ofNat_ne_one, false_and, and_false, and_self, true_and, and_true, reduceIte, (kref_word k).2]

theorem remUK (d : Fin 64) (a : Fin 64) (k : KRef) : Statement (.remUK d a k) := by
  intro hf w nx he
  have hx : w = 0x48 + d.val * 524288 + a.val * 8192 ∧ nx = k.word := two (rfl : encode (.remUK d a k) = [0x48 + d.val * 524288 + a.val * 8192, k.word]) he
  rw [hx.2]; replace hw := hx.1
  have hl := layR (c := 0) (d := d.val) (a := a.val) (b := 0) (x := 72) (hw.trans (by clear * -; omega)) (d.isLt) (a.isLt) (by decide) (by decide)
  have e0 := hl.1
  have e1 : fld w 0 7 = 72 := hl.2.2.2.2
  have e2 : fld w 7 6 = 0 := hl.2.2.2.1
  have a1 : r6 w 19 = d := Fin.ext (hl.2.1)
  have a2 : r6 w 13 = a := Fin.ext (hl.2.2.1)
  refine wf_ok (by rw [e0]; decide) ?_ hf
  rw [flat00 w _ e0]; unfold decode00
  simp only [e1, e2, a1, a2, (kref_word k).1, Nat.reduceEqDiff, OfNat.ofNat_ne_zero, OfNat.zero_ne_ofNat, one_ne_zero, zero_ne_one, OfNat.one_ne_ofNat, OfNat.ofNat_ne_one, false_and, and_false, and_self, true_and, and_true, reduceIte, (kref_word k).2]

theorem andK (d : Fin 64) (a : Fin 64) (k : KRef) : Statement (.andK d a k) := by
  intro hf w nx he
  have hx : w = 0x49 + d.val * 524288 + a.val * 8192 ∧ nx = k.word := two (rfl : encode (.andK d a k) = [0x49 + d.val * 524288 + a.val * 8192, k.word]) he
  rw [hx.2]; replace hw := hx.1
  have hl := layR (c := 0) (d := d.val) (a := a.val) (b := 0) (x := 73) (hw.trans (by clear * -; omega)) (d.isLt) (a.isLt) (by decide) (by decide)
  have e0 := hl.1
  have e1 : fld w 0 7 = 73 := hl.2.2.2.2
  have e2 : fld w 7 6 = 0 := hl.2.2.2.1
  have a1 : r6 w 19 = d := Fin.ext (hl.2.1)
  have a2 : r6 w 13 = a := Fin.ext (hl.2.2.1)
  refine wf_ok (by rw [e0]; decide) ?_ hf
  rw [flat00 w _ e0]; unfold decode00
  simp only [e1, e2, a1, a2, (kref_word k).1, Nat.reduceEqDiff, OfNat.ofNat_ne_zero, OfNat.zero_ne_ofNat, one_ne_zero, zero_ne_one, OfNat.one_ne_ofNat, OfNat.ofNat_ne_one, false_and, and_false, and_self, true_and, and_true, reduceIte, (kref_word k).2]

theorem orK (d : Fin 64) (a : Fin 64) (k : KRef) : Statement (.orK d a k) := by
  intro hf w nx he
  have hx : w = 0x4a + d.val * 524288 + a.val * 8192 ∧ nx = k.word := two (rfl : encode (.orK d a k) = [0x4a + d.val * 524288 + a.val * 8192, k.word]) he
  rw [hx.2]; replace hw := hx.1
  have hl := layR (c := 0) (d := d.val) (a := a.val) (b := 0) (x := 74) (hw.trans (by clear * -; omega)) (d.isLt) (a.isLt) (by decide) (by decide)
  have e0 := hl.1
  have e1 : fld w 0 7 = 74 := hl.2.2.2.2
  have e2 : fld w 7 6 = 0 := hl.2.2.2.1
  have a1 : r6 w 19 = d := Fin.ext (hl.2.1)
  have a2 : r6 w 13 = a := Fin.ext (hl.2.2.1)
  refine wf_ok (by rw [e0]; decide) ?_ hf
  rw [flat00 w _ e0]; unfold decode00
  simp only [e1, e2, a1, a2, (kref_word k).1, Nat.reduceEqDiff, OfNat.ofNat_ne_zero, OfNat.zero_ne_ofNat, one_ne_zero, zero_ne_one, OfNat.one_ne_ofNat, OfNat.ofNat_ne_one, false_and, and_false, and_self, true_and, and_true, reduceIte, (kref_word k).2]

theorem xorK (d : Fin 64) (a : Fin 64) (k : KRef) : Statement (.xorK d a k) := by
  intro hf w nx he
  have hx : w = 0x4b + d.val * 524288 + a.val * 8192 ∧ nx = k.word := two (rfl : encode (.xorK d a k) = [0x4b + d.val * 524288 + a.val * 8192, k.word]) he
  rw [hx.2]; replace hw := hx.1
  have hl := layR (c := 0) (d := d.val) (a := a.val) (b := 0) (x := 75) (hw.trans (by clear * -; omega)) (d.isLt) (a.isLt) (by decide) (by decide)
  have e0 := hl.1
  have e1 : fld w 0 7 = 75 := hl.2.2.2.2
  have e2 : fld w 7 6 = 0 := hl.2.2.2.1
  have a1 : r6 w 19 = d := Fin.ext (hl.2.1)
  have a2 : r6 w 13 = a := Fin.ext (hl.2.2.1)
  refine wf_ok (by rw [e0]; decide) ?_ hf
  rw [flat00 w _ e0]; unfold decode00
  simp only [e1, e2, a1, a2, (kref_word k).1, Nat.reduceEqDiff, OfNat.ofNat_ne_zero, OfNat.zero_ne_ofNat, one_ne_zero, zero_ne_one, OfNat.one_ne_ofNat, OfNat.ofNat_ne_one, false_and, and_false, and_self, true_and, and_true, reduceIte, (kref_word k).2]

theorem shlK (d : Fin 64) (a : Fin 64) (k : KRef) : Statement (.shlK d a k) := by
  intro hf w nx he
  have hx : w = 0x4c + d.val * 524288 + a.val * 8192 ∧ nx = k.word := two (rfl : encode (.shlK d a k) = [0x4c + d.val * 524288 + a.val * 8192, k.word]) he
  rw [hx.2]; replace hw := hx.1
  have hl := layR (c := 0) (d := d.val) (a := a.val) (b := 0) (x := 76) (hw.trans (by clear * -; omega)) (d.isLt) (a.isLt) (by decide) (by decide)
  have e0 := hl.1
  have e1 : fld w 0 7 = 76 := hl.2.2.2.2
  have e2 : fld w 7 6 = 0 := hl.2.2.2.1
  have a1 : r6 w 19 = d := Fin.ext (hl.2.1)
  have a2 : r6 w 13 = a := Fin.ext (hl.2.2.1)
  refine wf_ok (by rw [e0]; decide) ?_ hf
  rw [flat00 w _ e0]; unfold decode00
  simp only [e1, e2, a1, a2, (kref_word k).1, Nat.reduceEqDiff, OfNat.ofNat_ne_zero, OfNat.zero_ne_ofNat, one_ne_zero, zero_ne_one, OfNat.one_ne_ofNat, OfNat.ofNat_ne_one, false_and, and_false, and_self, true_and, and_true, reduceIte, (kref_word k).2]

theorem shrK (d : Fin 64) (a : Fin 64) (k : KRef) : Statement (.shrK d a k) := by
  intro hf w nx he
  have hx : w = 0x4d + d.val * 524288 + a.val * 8192 ∧ nx = k.word := two (rfl : encode (.shrK d a k) = [0x4d + d.val * 524288 + a.val * 8192, k.word]) he
  rw [hx.2]; replace hw := hx.1
  have hl := layR (c := 0) (d := d.val) (a := a.val) (b := 0) (x := 77) (hw.trans (by clear * -; omega)) (d.isLt) (a.isLt) (by decide) (by decide)
  have e0 := hl.1
  have e1 : fld w 0 7 = 77 := hl.2.2.2.2
  have e2 : fld w 7 6 = 0 := hl.2.2.2.1
  have a1 : r6 w 19 = d := Fin.ext (hl.2.1)
  have a2 : r6 w 13 = a := Fin.ext (hl.2.2.1)
  refine wf_ok (by rw [e0]; decide) ?_ hf
  rw [flat00 w _ e0]; unfold decode00
  simp only [e1, e2, a1, a2, (kref_word k).1, Nat.reduceEqDiff, OfNat.ofNat_ne_zero, OfNat.zero_ne_ofNat, one_ne_zero, zero_ne_one, OfNat.one_ne_ofNat, OfNat.ofNat_ne_one, false_and, and_false, and_self, true_and, and_true, reduceIte, (kref_word k).2]

theorem sraK (d : Fin 64) (a : Fin 64) (k : KRef) : Statement (.sraK d a k) := by
  intro hf w nx he
  have hx : w = 0x4e + d.val * 524288 + a.val * 8192 ∧ nx = k.word := two (rfl : encode (.sraK d a k) = [0x4e + d.val * 524288 + a.val * 8192, k.word]) he
  rw [hx.2]; replace hw := hx.1
  have hl := layR (c := 0) (d := d.val) (a := a.val) (b := 0) (x := 78) (hw.trans (by clear * -; omega)) (d.isLt) (a.isLt) (by decide) (by decide)
  have e0 := hl.1
  have e1 : fld w 0 7 = 78 := hl.2.2.2.2
  have e2 : fld w 7 6 = 0 := hl.2.2.2.1
  have a1 : r6 w 19 = d := Fin.ext (hl.2.1)
  have a2 : r6 w 13 = a := Fin.ext (hl.2.2.1)
  refine wf_ok (by rw [e0]; decide) ?_ hf
  rw [flat00 w _ e0]; unfold decode00
  simp only [e1, e2, a1, a2, (kref_word k).1, Nat.reduceEqDiff, OfNat.ofNat_ne_zero, OfNat.zero_ne_ofNat, one_ne_zero, zero_ne_one, OfNat.one_ne_ofNat, OfNat.ofNat_ne_one, false_and, and_false, and_self, true_and, and_true, reduceIte, (kref_word k).2]

theorem minK (d : Fin 64) (a : Fin 64) (k : KRef) : Statement (.minK d a k) := by
  intro hf w nx he
  have hx : w = 0x4f + d.val * 524288 + a.val * 8192 ∧ nx = k.word := two (rfl : encode (.minK d a k) = [0x4f + d.val * 524288 + a.val * 8192, k.word]) he
  rw [hx.2]; replace hw := hx.1
  have hl := layR (c := 0) (d := d.val) (a := a.val) (b := 0) (x := 79) (hw.trans (by clear * -; omega)) (d.isLt) (a.isLt) (by decide) (by decide)
  have e0 := hl.1
  have e1 : fld w 0 7 = 79 := hl.2.2.2.2
  have e2 : fld w 7 6 = 0 := hl.2.2.2.1
  have a1 : r6 w 19 = d := Fin.ext (hl.2.1)
  have a2 : r6 w 13 = a := Fin.ext (hl.2.2.1)
  refine wf_ok (by rw [e0]; decide) ?_ hf
  rw [flat00 w _ e0]; unfold decode00
  simp only [e1, e2, a1, a2, (kref_word k).1, Nat.reduceEqDiff, OfNat.ofNat_ne_zero, OfNat.zero_ne_ofNat, one_ne_zero, zero_ne_one, OfNat.one_ne_ofNat, OfNat.ofNat_ne_one, false_and, and_false, and_self, true_and, and_true, reduceIte, (kref_word k).2]

theorem minUK (d : Fin 64) (a : Fin 64) (k : KRef) : Statement (.minUK d a k) := by
  intro hf w nx he
  have hx : w = 0x50 + d.val * 524288 + a.val * 8192 ∧ nx = k.word := two (rfl : encode (.minUK d a k) = [0x50 + d.val * 524288 + a.val * 8192, k.word]) he
  rw [hx.2]; replace hw := hx.1
  have hl := layR (c := 0) (d := d.val) (a := a.val) (b := 0) (x := 80) (hw.trans (by clear * -; omega)) (d.isLt) (a.isLt) (by decide) (by decide)
  have e0 := hl.1
  have e1 : fld w 0 7 = 80 := hl.2.2.2.2
  have e2 : fld w 7 6 = 0 := hl.2.2.2.1
  have a1 : r6 w 19 = d := Fin.ext (hl.2.1)
  have a2 : r6 w 13 = a := Fin.ext (hl.2.2.1)
  refine wf_ok (by rw [e0]; decide) ?_ hf
  rw [flat00 w _ e0]; unfold decode00
  simp only [e1, e2, a1, a2, (kref_word k).1, Nat.reduceEqDiff, OfNat.ofNat_ne_zero, OfNat.zero_ne_ofNat, one_ne_zero, zero_ne_one, OfNat.one_ne_ofNat, OfNat.ofNat_ne_one, false_and, and_false, and_self, true_and, and_true, reduceIte, (kref_word k).2]

theorem maxK (d : Fin 64) (a : Fin 64) (k : KRef) : Statement (.maxK d a k) := by
  intro hf w nx he
  have hx : w = 0x51 + d.val * 524288 + a.val * 8192 ∧ nx = k.word := two (rfl : encode (.maxK d a k) = [0x51 + d.val * 524288 + a.val * 8192, k.word]) he
  rw [hx.2]; replace hw := hx.1
  have hl := layR (c := 0) (d := d.val) (a := a.val) (b := 0) (x := 81) (hw.trans (by clear * -; omega)) (d.isLt) (a.isLt) (by decide) (by decide)
  have e0 := hl.1
  have e1 : fld w 0 7 = 81 := hl.2.2.2.2
  have e2 : fld w 7 6 = 0 := hl.2.2.2.1
  have a1 : r6 w 19 = d := Fin.ext (hl.2.1)
  have a2 : r6 w 13 = a := Fin.ext (hl.2.2.1)
  refine wf_ok (by rw [e0]; decide) ?_ hf
  rw [flat00 w _ e0]; unfold decode00
  simp only [e1, e2, a1, a2, (kref_word k).1, Nat.reduceEqDiff, OfNat.ofNat_ne_zero, OfNat.zero_ne_ofNat, one_ne_zero, zero_ne_one, OfNat.one_ne_ofNat, OfNat.ofNat_ne_one, false_and, and_false, and_self, true_and, and_true, reduceIte, (kref_word k).2]

theorem maxUK (d : Fin 64) (a : Fin 64) (k : KRef) : Statement (.maxUK d a k) := by
  intro hf w nx he
  have hx : w = 0x52 + d.val * 524288 + a.val * 8192 ∧ nx = k.word := two (rfl : encode (.maxUK d a k) = [0x52 + d.val * 524288 + a.val * 8192, k.word]) he
  rw [hx.2]; replace hw := hx.1
  have hl := layR (c := 0) (d := d.val) (a := a.val) (b := 0) (x := 82) (hw.trans (by clear * -; omega)) (d.isLt) (a.isLt) (by decide) (by decide)
  have e0 := hl.1
  have e1 : fld w 0 7 = 82 := hl.2.2.2.2
  have e2 : fld w 7 6 = 0 := hl.2.2.2.1
  have a1 : r6 w 19 = d := Fin.ext (hl.2.1)
  have a2 : r6 w 13 = a := Fin.ext (hl.2.2.1)
  refine wf_ok (by rw [e0]; decide) ?_ hf
  rw [flat00 w _ e0]; unfold decode00
  simp only [e1, e2, a1, a2, (kref_word k).1, Nat.reduceEqDiff, OfNat.ofNat_ne_zero, OfNat.zero_ne_ofNat, one_ne_zero, zero_ne_one, OfNat.one_ne_ofNat, OfNat.ofNat_ne_one, false_and, and_false, and_self, true_and, and_true, reduceIte, (kref_word k).2]

theorem selK (d : Fin 64) (a : Fin 64) (k : KRef) : Statement (.selK d a k) := by
  intro hf w nx he
  have hx : w = 0x53 + d.val * 524288 + a.val * 8192 ∧ nx = k.word := two (rfl : encode (.selK d a k) = [0x53 + d.val * 524288 + a.val * 8192, k.word]) he
  rw [hx.2]; replace hw := hx.1
  have hl := layR (c := 0) (d := d.val) (a := a.val) (b := 0) (x := 83) (hw.trans (by clear * -; omega)) (d.isLt) (a.isLt) (by decide) (by decide)
  have e0 := hl.1
  have e1 : fld w 0 7 = 83 := hl.2.2.2.2
  have e2 : fld w 7 6 = 0 := hl.2.2.2.1
  have a1 : r6 w 19 = d := Fin.ext (hl.2.1)
  have a2 : r6 w 13 = a := Fin.ext (hl.2.2.1)
  refine wf_ok (by rw [e0]; decide) ?_ hf
  rw [flat00 w _ e0]; unfold decode00
  simp only [e1, e2, a1, a2, (kref_word k).1, Nat.reduceEqDiff, OfNat.ofNat_ne_zero, OfNat.zero_ne_ofNat, one_ne_zero, zero_ne_one, OfNat.one_ne_ofNat, OfNat.ofNat_ne_one, false_and, and_false, and_self, true_and, and_true, reduceIte, (kref_word k).2]

theorem cmpEq (d : Fin 64) (a : Fin 64) (b : Fin 64) : Statement (.cmpEq d a b) := by
  intro hf w nx he
  have hw : w = 0x2000000 + d.val * 524288 + a.val * 8192 + b.val * 128 := one (rfl : encode (.cmpEq d a b) = [0x2000000 + d.val * 524288 + a.val * 8192 + b.val * 128]) he
  have hl := layR (c := 1) (d := d.val) (a := a.val) (b := b.val) (x := 0) (hw.trans (by clear * -; omega)) (d.isLt) (a.isLt) (b.isLt) (by decide)
  have e0 := hl.1
  have e1 : fld w 0 7 = 0 := hl.2.2.2.2
  have a1 : r6 w 19 = d := Fin.ext (hl.2.1)
  have a2 : r6 w 13 = a := Fin.ext (hl.2.2.1)
  have a3 : r6 w 7 = b := Fin.ext (hl.2.2.2.1)
  refine wf_ok (by rw [e0]; decide) ?_ hf
  rw [flat01 w _ e0]; unfold decode01
  simp only [e1, a1, a2, a3, Nat.reduceEqDiff, OfNat.ofNat_ne_zero, OfNat.zero_ne_ofNat, one_ne_zero, zero_ne_one, OfNat.one_ne_ofNat, OfNat.ofNat_ne_one, false_and, and_false, and_self, true_and, and_true, reduceIte]

theorem cmpNe (d : Fin 64) (a : Fin 64) (b : Fin 64) : Statement (.cmpNe d a b) := by
  intro hf w nx he
  have hw : w = 0x2000001 + d.val * 524288 + a.val * 8192 + b.val * 128 := one (rfl : encode (.cmpNe d a b) = [0x2000001 + d.val * 524288 + a.val * 8192 + b.val * 128]) he
  have hl := layR (c := 1) (d := d.val) (a := a.val) (b := b.val) (x := 1) (hw.trans (by clear * -; omega)) (d.isLt) (a.isLt) (b.isLt) (by decide)
  have e0 := hl.1
  have e1 : fld w 0 7 = 1 := hl.2.2.2.2
  have a1 : r6 w 19 = d := Fin.ext (hl.2.1)
  have a2 : r6 w 13 = a := Fin.ext (hl.2.2.1)
  have a3 : r6 w 7 = b := Fin.ext (hl.2.2.2.1)
  refine wf_ok (by rw [e0]; decide) ?_ hf
  rw [flat01 w _ e0]; unfold decode01
  simp only [e1, a1, a2, a3, Nat.reduceEqDiff, OfNat.ofNat_ne_zero, OfNat.zero_ne_ofNat, one_ne_zero, zero_ne_one, OfNat.one_ne_ofNat, OfNat.ofNat_ne_one, false_and, and_false, and_self, true_and, and_true, reduceIte]

theorem cmpLt (d : Fin 64) (a : Fin 64) (b : Fin 64) : Statement (.cmpLt d a b) := by
  intro hf w nx he
  have hw : w = 0x2000002 + d.val * 524288 + a.val * 8192 + b.val * 128 := one (rfl : encode (.cmpLt d a b) = [0x2000002 + d.val * 524288 + a.val * 8192 + b.val * 128]) he
  have hl := layR (c := 1) (d := d.val) (a := a.val) (b := b.val) (x := 2) (hw.trans (by clear * -; omega)) (d.isLt) (a.isLt) (b.isLt) (by decide)
  have e0 := hl.1
  have e1 : fld w 0 7 = 2 := hl.2.2.2.2
  have a1 : r6 w 19 = d := Fin.ext (hl.2.1)
  have a2 : r6 w 13 = a := Fin.ext (hl.2.2.1)
  have a3 : r6 w 7 = b := Fin.ext (hl.2.2.2.1)
  refine wf_ok (by rw [e0]; decide) ?_ hf
  rw [flat01 w _ e0]; unfold decode01
  simp only [e1, a1, a2, a3, Nat.reduceEqDiff, OfNat.ofNat_ne_zero, OfNat.zero_ne_ofNat, one_ne_zero, zero_ne_one, OfNat.one_ne_ofNat, OfNat.ofNat_ne_one, false_and, and_false, and_self, true_and, and_true, reduceIte]

theorem cmpGe (d : Fin 64) (a : Fin 64) (b : Fin 64) : Statement (.cmpGe d a b) := by
  intro hf w nx he
  have hw : w = 0x2000003 + d.val * 524288 + a.val * 8192 + b.val * 128 := one (rfl : encode (.cmpGe d a b) = [0x2000003 + d.val * 524288 + a.val * 8192 + b.val * 128]) he
  have hl := layR (c := 1) (d := d.val) (a := a.val) (b := b.val) (x := 3) (hw.trans (by clear * -; omega)) (d.isLt) (a.isLt) (b.isLt) (by decide)
  have e0 := hl.1
  have e1 : fld w 0 7 = 3 := hl.2.2.2.2
  have a1 : r6 w 19 = d := Fin.ext (hl.2.1)
  have a2 : r6 w 13 = a := Fin.ext (hl.2.2.1)
  have a3 : r6 w 7 = b := Fin.ext (hl.2.2.2.1)
  refine wf_ok (by rw [e0]; decide) ?_ hf
  rw [flat01 w _ e0]; unfold decode01
  simp only [e1, a1, a2, a3, Nat.reduceEqDiff, OfNat.ofNat_ne_zero, OfNat.zero_ne_ofNat, one_ne_zero, zero_ne_one, OfNat.one_ne_ofNat, OfNat.ofNat_ne_one, false_and, and_false, and_self, true_and, and_true, reduceIte]

theorem cmpLtU (d : Fin 64) (a : Fin 64) (b : Fin 64) : Statement (.cmpLtU d a b) := by
  intro hf w nx he
  have hw : w = 0x2000004 + d.val * 524288 + a.val * 8192 + b.val * 128 := one (rfl : encode (.cmpLtU d a b) = [0x2000004 + d.val * 524288 + a.val * 8192 + b.val * 128]) he
  have hl := layR (c := 1) (d := d.val) (a := a.val) (b := b.val) (x := 4) (hw.trans (by clear * -; omega)) (d.isLt) (a.isLt) (b.isLt) (by decide)
  have e0 := hl.1
  have e1 : fld w 0 7 = 4 := hl.2.2.2.2
  have a1 : r6 w 19 = d := Fin.ext (hl.2.1)
  have a2 : r6 w 13 = a := Fin.ext (hl.2.2.1)
  have a3 : r6 w 7 = b := Fin.ext (hl.2.2.2.1)
  refine wf_ok (by rw [e0]; decide) ?_ hf
  rw [flat01 w _ e0]; unfold decode01
  simp only [e1, a1, a2, a3, Nat.reduceEqDiff, OfNat.ofNat_ne_zero, OfNat.zero_ne_ofNat, one_ne_zero, zero_ne_one, OfNat.one_ne_ofNat, OfNat.ofNat_ne_one, false_and, and_false, and_self, true_and, and_true, reduceIte]

theorem cmpGeU (d : Fin 64) (a : Fin 64) (b : Fin 64) : Statement (.cmpGeU d a b) := by
  intro hf w nx he
  have hw : w = 0x2000005 + d.val * 524288 + a.val * 8192 + b.val * 128 := one (rfl : encode (.cmpGeU d a b) = [0x2000005 + d.val * 524288 + a.val * 8192 + b.val * 128]) he
  have hl := layR (c := 1) (d := d.val) (a := a.val) (b := b.val) (x := 5) (hw.trans (by clear * -; omega)) (d.isLt) (a.isLt) (b.isLt) (by decide)
  have e0 := hl.1
  have e1 : fld w 0 7 = 5 := hl.2.2.2.2
  have a1 : r6 w 19 = d := Fin.ext (hl.2.1)
  have a2 : r6 w 13 = a := Fin.ext (hl.2.2.1)
  have a3 : r6 w 7 = b := Fin.ext (hl.2.2.2.1)
  refine wf_ok (by rw [e0]; decide) ?_ hf
  rw [flat01 w _ e0]; unfold decode01
  simp only [e1, a1, a2, a3, Nat.reduceEqDiff, OfNat.ofNat_ne_zero, OfNat.zero_ne_ofNat, one_ne_zero, zero_ne_one, OfNat.one_ne_ofNat, OfNat.ofNat_ne_one, false_and, and_false, and_self, true_and, and_true, reduceIte]

theorem cmpEqK (d : Fin 64) (a : Fin 64) (k : KRef) : Statement (.cmpEqK d a k) := by
  intro hf w nx he
  have hx : w = 0x2000040 + d.val * 524288 + a.val * 8192 ∧ nx = k.word := two (rfl : encode (.cmpEqK d a k) = [0x2000040 + d.val * 524288 + a.val * 8192, k.word]) he
  rw [hx.2]; replace hw := hx.1
  have hl := layR (c := 1) (d := d.val) (a := a.val) (b := 0) (x := 64) (hw.trans (by clear * -; omega)) (d.isLt) (a.isLt) (by decide) (by decide)
  have e0 := hl.1
  have e1 : fld w 0 7 = 64 := hl.2.2.2.2
  have e2 : fld w 7 6 = 0 := hl.2.2.2.1
  have a1 : r6 w 19 = d := Fin.ext (hl.2.1)
  have a2 : r6 w 13 = a := Fin.ext (hl.2.2.1)
  refine wf_ok (by rw [e0]; decide) ?_ hf
  rw [flat01 w _ e0]; unfold decode01
  simp only [e1, e2, a1, a2, (kref_word k).1, Nat.reduceEqDiff, OfNat.ofNat_ne_zero, OfNat.zero_ne_ofNat, one_ne_zero, zero_ne_one, OfNat.one_ne_ofNat, OfNat.ofNat_ne_one, false_and, and_false, and_self, true_and, and_true, reduceIte, (kref_word k).2]

theorem cmpNeK (d : Fin 64) (a : Fin 64) (k : KRef) : Statement (.cmpNeK d a k) := by
  intro hf w nx he
  have hx : w = 0x2000041 + d.val * 524288 + a.val * 8192 ∧ nx = k.word := two (rfl : encode (.cmpNeK d a k) = [0x2000041 + d.val * 524288 + a.val * 8192, k.word]) he
  rw [hx.2]; replace hw := hx.1
  have hl := layR (c := 1) (d := d.val) (a := a.val) (b := 0) (x := 65) (hw.trans (by clear * -; omega)) (d.isLt) (a.isLt) (by decide) (by decide)
  have e0 := hl.1
  have e1 : fld w 0 7 = 65 := hl.2.2.2.2
  have e2 : fld w 7 6 = 0 := hl.2.2.2.1
  have a1 : r6 w 19 = d := Fin.ext (hl.2.1)
  have a2 : r6 w 13 = a := Fin.ext (hl.2.2.1)
  refine wf_ok (by rw [e0]; decide) ?_ hf
  rw [flat01 w _ e0]; unfold decode01
  simp only [e1, e2, a1, a2, (kref_word k).1, Nat.reduceEqDiff, OfNat.ofNat_ne_zero, OfNat.zero_ne_ofNat, one_ne_zero, zero_ne_one, OfNat.one_ne_ofNat, OfNat.ofNat_ne_one, false_and, and_false, and_self, true_and, and_true, reduceIte, (kref_word k).2]

theorem cmpLtK (d : Fin 64) (a : Fin 64) (k : KRef) : Statement (.cmpLtK d a k) := by
  intro hf w nx he
  have hx : w = 0x2000042 + d.val * 524288 + a.val * 8192 ∧ nx = k.word := two (rfl : encode (.cmpLtK d a k) = [0x2000042 + d.val * 524288 + a.val * 8192, k.word]) he
  rw [hx.2]; replace hw := hx.1
  have hl := layR (c := 1) (d := d.val) (a := a.val) (b := 0) (x := 66) (hw.trans (by clear * -; omega)) (d.isLt) (a.isLt) (by decide) (by decide)
  have e0 := hl.1
  have e1 : fld w 0 7 = 66 := hl.2.2.2.2
  have e2 : fld w 7 6 = 0 := hl.2.2.2.1
  have a1 : r6 w 19 = d := Fin.ext (hl.2.1)
  have a2 : r6 w 13 = a := Fin.ext (hl.2.2.1)
  refine wf_ok (by rw [e0]; decide) ?_ hf
  rw [flat01 w _ e0]; unfold decode01
  simp only [e1, e2, a1, a2, (kref_word k).1, Nat.reduceEqDiff, OfNat.ofNat_ne_zero, OfNat.zero_ne_ofNat, one_ne_zero, zero_ne_one, OfNat.one_ne_ofNat, OfNat.ofNat_ne_one, false_and, and_false, and_self, true_and, and_true, reduceIte, (kref_word k).2]

theorem cmpGeK (d : Fin 64) (a : Fin 64) (k : KRef) : Statement (.cmpGeK d a k) := by
  intro hf w nx he
  have hx : w = 0x2000043 + d.val * 524288 + a.val * 8192 ∧ nx = k.word := two (rfl : encode (.cmpGeK d a k) = [0x2000043 + d.val * 524288 + a.val * 8192, k.word]) he
  rw [hx.2]; replace hw := hx.1
  have hl := layR (c := 1) (d := d.val) (a := a.val) (b := 0) (x := 67) (hw.trans (by clear * -; omega)) (d.isLt) (a.isLt) (by decide) (by decide)
  have e0 := hl.1
  have e1 : fld w 0 7 = 67 := hl.2.2.2.2
  have e2 : fld w 7 6 = 0 := hl.2.2.2.1
  have a1 : r6 w 19 = d := Fin.ext (hl.2.1)
  have a2 : r6 w 13 = a := Fin.ext (hl.2.2.1)
  refine wf_ok (by rw [e0]; decide) ?_ hf
  rw [flat01 w _ e0]; unfold decode01
  simp only [e1, e2, a1, a2, (kref_word k).1, Nat.reduceEqDiff, OfNat.ofNat_ne_zero, OfNat.zero_ne_ofNat, one_ne_zero, zero_ne_one, OfNat.one_ne_ofNat, OfNat.ofNat_ne_one, false_and, and_false, and_self, true_and, and_true, reduceIte, (kref_word k).2]

theorem cmpLtUK (d : Fin 64) (a : Fin 64) (k : KRef) : Statement (.cmpLtUK d a k) := by
  intro hf w nx he
  have hx : w = 0x2000044 + d.val * 524288 + a.val * 8192 ∧ nx = k.word := two (rfl : encode (.cmpLtUK d a k) = [0x2000044 + d.val * 524288 + a.val * 8192, k.word]) he
  rw [hx.2]; replace hw := hx.1
  have hl := layR (c := 1) (d := d.val) (a := a.val) (b := 0) (x := 68) (hw.trans (by clear * -; omega)) (d.isLt) (a.isLt) (by decide) (by decide)
  have e0 := hl.1
  have e1 : fld w 0 7 = 68 := hl.2.2.2.2
  have e2 : fld w 7 6 = 0 := hl.2.2.2.1
  have a1 : r6 w 19 = d := Fin.ext (hl.2.1)
  have a2 : r6 w 13 = a := Fin.ext (hl.2.2.1)
  refine wf_ok (by rw [e0]; decide) ?_ hf
  rw [flat01 w _ e0]; unfold decode01
  simp only [e1, e2, a1, a2, (kref_word k).1, Nat.reduceEqDiff, OfNat.ofNat_ne_zero, OfNat.zero_ne_ofNat, one_ne_zero, zero_ne_one, OfNat.one_ne_ofNat, OfNat.ofNat_ne_one, false_and, and_false, and_self, true_and, and_true, reduceIte, (kref_word k).2]

theorem cmpGeUK (d : Fin 64) (a : Fin 64) (k : KRef) : Statement (.cmpGeUK d a k) := by
  intro hf w nx he
  have hx : w = 0x2000045 + d.val * 524288 + a.val * 8192 ∧ nx = k.word := two (rfl : encode (.cmpGeUK d a k) = [0x2000045 + d.val * 524288 + a.val * 8192, k.word]) he
  rw [hx.2]; replace hw := hx.1
  have hl := layR (c := 1) (d := d.val) (a := a.val) (b := 0) (x := 69) (hw.trans (by clear * -; omega)) (d.isLt) (a.isLt) (by decide) (by decide)
  have e0 := hl.1
  have e1 : fld w 0 7 = 69 := hl.2.2.2.2
  have e2 : fld w 7 6 = 0 := hl.2.2.2.1
  have a1 : r6 w 19 = d := Fin.ext (hl.2.1)
  have a2 : r6 w 13 = a := Fin.ext (hl.2.2.1)
  refine wf_ok (by rw [e0]; decide) ?_ hf
  rw [flat01 w _ e0]; unfold decode01
  simp only [e1, e2, a1, a2, (kref_word k).1, Nat.reduceEqDiff, OfNat.ofNat_ne_zero, OfNat.zero_ne_ofNat, one_ne_zero, zero_ne_one, OfNat.one_ne_ofNat, OfNat.ofNat_ne_one, false_and, and_false, and_self, true_and, and_true, reduceIte, (kref_word k).2]

theorem addi (d : Fin 64) (a : Fin 64) (i : BitVec 13) : Statement (.addi d a i) := by
  intro hf w nx he
  have hw : w = 0x4000000 + d.val * 524288 + a.val * 8192 + i.toNat := one (rfl : encode (.addi d a i) = [0x4000000 + d.val * 524288 + a.val * 8192 + i.toNat]) he
  have hl := layI (c := 2) (d := d.val) (a := a.val) (x := i.toNat) (hw.trans (by clear * -; omega)) (d.isLt) (a.isLt) (i.isLt)
  have e0 := hl.1
  have a1 : r6 w 19 = d := Fin.ext (hl.2.1)
  have a2 : r6 w 13 = a := Fin.ext (hl.2.2.1)
  have a3 : i13 w = i := BitVec.eq_of_toNat_eq ((BitVec.toNat_ofNat ..).trans (low hl.2.2.2))
  refine wf_ok (by rw [e0]; decide) ?_ hf
  rw [flat02 w _ e0]; unfold decode02
  simp only [a1, a2, a3, Nat.reduceEqDiff, OfNat.ofNat_ne_zero, OfNat.zero_ne_ofNat, one_ne_zero, zero_ne_one, OfNat.one_ne_ofNat, OfNat.ofNat_ne_one, false_and, and_false, and_self, true_and, and_true, reduceIte]

theorem andi (d : Fin 64) (a : Fin 64) (i : BitVec 13) : Statement (.andi d a i) := by
  intro hf w nx he
  have hw : w = 0x6000000 + d.val * 524288 + a.val * 8192 + i.toNat := one (rfl : encode (.andi d a i) = [0x6000000 + d.val * 524288 + a.val * 8192 + i.toNat]) he
  have hl := layI (c := 3) (d := d.val) (a := a.val) (x := i.toNat) (hw.trans (by clear * -; omega)) (d.isLt) (a.isLt) (i.isLt)
  have e0 := hl.1
  have a1 : r6 w 19 = d := Fin.ext (hl.2.1)
  have a2 : r6 w 13 = a := Fin.ext (hl.2.2.1)
  have a3 : i13 w = i := BitVec.eq_of_toNat_eq ((BitVec.toNat_ofNat ..).trans (low hl.2.2.2))
  refine wf_ok (by rw [e0]; decide) ?_ hf
  rw [flat03 w _ e0]; unfold decode03
  simp only [a1, a2, a3, Nat.reduceEqDiff, OfNat.ofNat_ne_zero, OfNat.zero_ne_ofNat, one_ne_zero, zero_ne_one, OfNat.one_ne_ofNat, OfNat.ofNat_ne_one, false_and, and_false, and_self, true_and, and_true, reduceIte]

theorem ori (d : Fin 64) (a : Fin 64) (i : BitVec 13) : Statement (.ori d a i) := by
  intro hf w nx he
  have hw : w = 0x8000000 + d.val * 524288 + a.val * 8192 + i.toNat := one (rfl : encode (.ori d a i) = [0x8000000 + d.val * 524288 + a.val * 8192 + i.toNat]) he
  have hl := layI (c := 4) (d := d.val) (a := a.val) (x := i.toNat) (hw.trans (by clear * -; omega)) (d.isLt) (a.isLt) (i.isLt)
  have e0 := hl.1
  have a1 : r6 w 19 = d := Fin.ext (hl.2.1)
  have a2 : r6 w 13 = a := Fin.ext (hl.2.2.1)
  have a3 : i13 w = i := BitVec.eq_of_toNat_eq ((BitVec.toNat_ofNat ..).trans (low hl.2.2.2))
  refine wf_ok (by rw [e0]; decide) ?_ hf
  rw [flat04 w _ e0]; unfold decode04
  simp only [a1, a2, a3, Nat.reduceEqDiff, OfNat.ofNat_ne_zero, OfNat.zero_ne_ofNat, one_ne_zero, zero_ne_one, OfNat.one_ne_ofNat, OfNat.ofNat_ne_one, false_and, and_false, and_self, true_and, and_true, reduceIte]

theorem xori (d : Fin 64) (a : Fin 64) (i : BitVec 13) : Statement (.xori d a i) := by
  intro hf w nx he
  have hw : w = 0xa000000 + d.val * 524288 + a.val * 8192 + i.toNat := one (rfl : encode (.xori d a i) = [0xa000000 + d.val * 524288 + a.val * 8192 + i.toNat]) he
  have hl := layI (c := 5) (d := d.val) (a := a.val) (x := i.toNat) (hw.trans (by clear * -; omega)) (d.isLt) (a.isLt) (i.isLt)
  have e0 := hl.1
  have a1 : r6 w 19 = d := Fin.ext (hl.2.1)
  have a2 : r6 w 13 = a := Fin.ext (hl.2.2.1)
  have a3 : i13 w = i := BitVec.eq_of_toNat_eq ((BitVec.toNat_ofNat ..).trans (low hl.2.2.2))
  refine wf_ok (by rw [e0]; decide) ?_ hf
  rw [flat05 w _ e0]; unfold decode05
  simp only [a1, a2, a3, Nat.reduceEqDiff, OfNat.ofNat_ne_zero, OfNat.zero_ne_ofNat, one_ne_zero, zero_ne_one, OfNat.one_ne_ofNat, OfNat.ofNat_ne_one, false_and, and_false, and_self, true_and, and_true, reduceIte]

theorem shli (d : Fin 64) (a : Fin 64) (i : BitVec 13) : Statement (.shli d a i) := by
  intro hf w nx he
  have hw : w = 0xc000000 + d.val * 524288 + a.val * 8192 + i.toNat := one (rfl : encode (.shli d a i) = [0xc000000 + d.val * 524288 + a.val * 8192 + i.toNat]) he
  have hl := layI (c := 6) (d := d.val) (a := a.val) (x := i.toNat) (hw.trans (by clear * -; omega)) (d.isLt) (a.isLt) (i.isLt)
  have e0 := hl.1
  have a1 : r6 w 19 = d := Fin.ext (hl.2.1)
  have a2 : r6 w 13 = a := Fin.ext (hl.2.2.1)
  have a3 : i13 w = i := BitVec.eq_of_toNat_eq ((BitVec.toNat_ofNat ..).trans (low hl.2.2.2))
  refine wf_ok (by rw [e0]; decide) ?_ hf
  rw [flat06 w _ e0]; unfold decode06
  simp only [a1, a2, a3, Nat.reduceEqDiff, OfNat.ofNat_ne_zero, OfNat.zero_ne_ofNat, one_ne_zero, zero_ne_one, OfNat.one_ne_ofNat, OfNat.ofNat_ne_one, false_and, and_false, and_self, true_and, and_true, reduceIte]

theorem shri (d : Fin 64) (a : Fin 64) (i : BitVec 13) : Statement (.shri d a i) := by
  intro hf w nx he
  have hw : w = 0xe000000 + d.val * 524288 + a.val * 8192 + i.toNat := one (rfl : encode (.shri d a i) = [0xe000000 + d.val * 524288 + a.val * 8192 + i.toNat]) he
  have hl := layI (c := 7) (d := d.val) (a := a.val) (x := i.toNat) (hw.trans (by clear * -; omega)) (d.isLt) (a.isLt) (i.isLt)
  have e0 := hl.1
  have a1 : r6 w 19 = d := Fin.ext (hl.2.1)
  have a2 : r6 w 13 = a := Fin.ext (hl.2.2.1)
  have a3 : i13 w = i := BitVec.eq_of_toNat_eq ((BitVec.toNat_ofNat ..).trans (low hl.2.2.2))
  refine wf_ok (by rw [e0]; decide) ?_ hf
  rw [flat07 w _ e0]; unfold decode07
  simp only [a1, a2, a3, Nat.reduceEqDiff, OfNat.ofNat_ne_zero, OfNat.zero_ne_ofNat, one_ne_zero, zero_ne_one, OfNat.one_ne_ofNat, OfNat.ofNat_ne_one, false_and, and_false, and_self, true_and, and_true, reduceIte]

theorem srai (d : Fin 64) (a : Fin 64) (i : BitVec 13) : Statement (.srai d a i) := by
  intro hf w nx he
  have hw : w = 0x10000000 + d.val * 524288 + a.val * 8192 + i.toNat := one (rfl : encode (.srai d a i) = [0x10000000 + d.val * 524288 + a.val * 8192 + i.toNat]) he
  have hl := layI (c := 8) (d := d.val) (a := a.val) (x := i.toNat) (hw.trans (by clear * -; omega)) (d.isLt) (a.isLt) (i.isLt)
  have e0 := hl.1
  have a1 : r6 w 19 = d := Fin.ext (hl.2.1)
  have a2 : r6 w 13 = a := Fin.ext (hl.2.2.1)
  have a3 : i13 w = i := BitVec.eq_of_toNat_eq ((BitVec.toNat_ofNat ..).trans (low hl.2.2.2))
  refine wf_ok (by rw [e0]; decide) ?_ hf
  rw [flat08 w _ e0]; unfold decode08
  simp only [a1, a2, a3, Nat.reduceEqDiff, OfNat.ofNat_ne_zero, OfNat.zero_ne_ofNat, one_ne_zero, zero_ne_one, OfNat.one_ne_ofNat, OfNat.ofNat_ne_one, false_and, and_false, and_self, true_and, and_true, reduceIte]

theorem lhi (d : Fin 64) (a : Fin 64) (i : BitVec 13) : Statement (.lhi d a i) := by
  intro hf w nx he
  have hw : w = 0x12000000 + d.val * 524288 + a.val * 8192 + i.toNat := one (rfl : encode (.lhi d a i) = [0x12000000 + d.val * 524288 + a.val * 8192 + i.toNat]) he
  have hl := layI (c := 9) (d := d.val) (a := a.val) (x := i.toNat) (hw.trans (by clear * -; omega)) (d.isLt) (a.isLt) (i.isLt)
  have e0 := hl.1
  have a1 : r6 w 19 = d := Fin.ext (hl.2.1)
  have a2 : r6 w 13 = a := Fin.ext (hl.2.2.1)
  have a3 : i13 w = i := BitVec.eq_of_toNat_eq ((BitVec.toNat_ofNat ..).trans (low hl.2.2.2))
  refine wf_ok (by rw [e0]; decide) ?_ hf
  rw [flat09 w _ e0]; unfold decode09
  simp only [a1, a2, a3, Nat.reduceEqDiff, OfNat.ofNat_ne_zero, OfNat.zero_ne_ofNat, one_ne_zero, zero_ne_one, OfNat.one_ne_ofNat, OfNat.ofNat_ne_one, false_and, and_false, and_self, true_and, and_true, reduceIte]

theorem cbnd (d : Fin 64) (a : Fin 64) (b : Fin 64) : Statement (.cbnd d a b) := by
  intro hf w nx he
  have hw : w = 0x20000000 + d.val * 524288 + a.val * 8192 + b.val * 128 := one (rfl : encode (.cbnd d a b) = [0x20000000 + d.val * 524288 + a.val * 8192 + b.val * 128]) he
  have hl := layR (c := 16) (d := d.val) (a := a.val) (b := b.val) (x := 0) (hw.trans (by clear * -; omega)) (d.isLt) (a.isLt) (b.isLt) (by decide)
  have e0 := hl.1
  have e1 : fld w 0 7 = 0 := hl.2.2.2.2
  have a1 : r6 w 19 = d := Fin.ext (hl.2.1)
  have a2 : r6 w 13 = a := Fin.ext (hl.2.2.1)
  have a3 : r6 w 7 = b := Fin.ext (hl.2.2.2.1)
  refine wf_ok (by rw [e0]; decide) ?_ hf
  rw [flat10 w _ e0]; unfold decode10
  simp only [e1, a1, a2, a3, Nat.reduceEqDiff, OfNat.ofNat_ne_zero, OfNat.zero_ne_ofNat, one_ne_zero, zero_ne_one, OfNat.one_ne_ofNat, OfNat.ofNat_ne_one, false_and, and_false, and_self, true_and, and_true, reduceIte]

theorem cbndX (d : Fin 64) (a : Fin 64) (b : Fin 64) : Statement (.cbndX d a b) := by
  intro hf w nx he
  have hw : w = 0x20000001 + d.val * 524288 + a.val * 8192 + b.val * 128 := one (rfl : encode (.cbndX d a b) = [0x20000001 + d.val * 524288 + a.val * 8192 + b.val * 128]) he
  have hl := layR (c := 16) (d := d.val) (a := a.val) (b := b.val) (x := 1) (hw.trans (by clear * -; omega)) (d.isLt) (a.isLt) (b.isLt) (by decide)
  have e0 := hl.1
  have e1 : fld w 0 7 = 1 := hl.2.2.2.2
  have a1 : r6 w 19 = d := Fin.ext (hl.2.1)
  have a2 : r6 w 13 = a := Fin.ext (hl.2.2.1)
  have a3 : r6 w 7 = b := Fin.ext (hl.2.2.2.1)
  refine wf_ok (by rw [e0]; decide) ?_ hf
  rw [flat10 w _ e0]; unfold decode10
  simp only [e1, a1, a2, a3, Nat.reduceEqDiff, OfNat.ofNat_ne_zero, OfNat.zero_ne_ofNat, one_ne_zero, zero_ne_one, OfNat.one_ne_ofNat, OfNat.ofNat_ne_one, false_and, and_false, and_self, true_and, and_true, reduceIte]

theorem cprm (d : Fin 64) (a : Fin 64) (b : Fin 64) : Statement (.cprm d a b) := by
  intro hf w nx he
  have hw : w = 0x20000002 + d.val * 524288 + a.val * 8192 + b.val * 128 := one (rfl : encode (.cprm d a b) = [0x20000002 + d.val * 524288 + a.val * 8192 + b.val * 128]) he
  have hl := layR (c := 16) (d := d.val) (a := a.val) (b := b.val) (x := 2) (hw.trans (by clear * -; omega)) (d.isLt) (a.isLt) (b.isLt) (by decide)
  have e0 := hl.1
  have e1 : fld w 0 7 = 2 := hl.2.2.2.2
  have a1 : r6 w 19 = d := Fin.ext (hl.2.1)
  have a2 : r6 w 13 = a := Fin.ext (hl.2.2.1)
  have a3 : r6 w 7 = b := Fin.ext (hl.2.2.2.1)
  refine wf_ok (by rw [e0]; decide) ?_ hf
  rw [flat10 w _ e0]; unfold decode10
  simp only [e1, a1, a2, a3, Nat.reduceEqDiff, OfNat.ofNat_ne_zero, OfNat.zero_ne_ofNat, one_ne_zero, zero_ne_one, OfNat.one_ne_ofNat, OfNat.ofNat_ne_one, false_and, and_false, and_self, true_and, and_true, reduceIte]

theorem csea (d : Fin 64) (a : Fin 64) : Statement (.csea d a) := by
  intro hf w nx he
  have hw : w = 0x20000003 + d.val * 524288 + a.val * 8192 := one (rfl : encode (.csea d a) = [0x20000003 + d.val * 524288 + a.val * 8192]) he
  have hl := layR (c := 16) (d := d.val) (a := a.val) (b := 0) (x := 3) (hw.trans (by clear * -; omega)) (d.isLt) (a.isLt) (by decide) (by decide)
  have e0 := hl.1
  have e1 : fld w 0 7 = 3 := hl.2.2.2.2
  have e2 : fld w 7 6 = 0 := hl.2.2.2.1
  have a1 : r6 w 19 = d := Fin.ext (hl.2.1)
  have a2 : r6 w 13 = a := Fin.ext (hl.2.2.1)
  refine wf_ok (by rw [e0]; decide) ?_ hf
  rw [flat10 w _ e0]; unfold decode10
  simp only [e1, e2, a1, a2, Nat.reduceEqDiff, OfNat.ofNat_ne_zero, OfNat.zero_ne_ofNat, one_ne_zero, zero_ne_one, OfNat.one_ne_ofNat, OfNat.ofNat_ne_one, false_and, and_false, and_self, true_and, and_true, reduceIte]

theorem cuns (d : Fin 64) (a : Fin 64) : Statement (.cuns d a) := by
  intro hf w nx he
  have hw : w = 0x20000004 + d.val * 524288 + a.val * 8192 := one (rfl : encode (.cuns d a) = [0x20000004 + d.val * 524288 + a.val * 8192]) he
  have hl := layR (c := 16) (d := d.val) (a := a.val) (b := 0) (x := 4) (hw.trans (by clear * -; omega)) (d.isLt) (a.isLt) (by decide) (by decide)
  have e0 := hl.1
  have e1 : fld w 0 7 = 4 := hl.2.2.2.2
  have e2 : fld w 7 6 = 0 := hl.2.2.2.1
  have a1 : r6 w 19 = d := Fin.ext (hl.2.1)
  have a2 : r6 w 13 = a := Fin.ext (hl.2.2.1)
  refine wf_ok (by rw [e0]; decide) ?_ hf
  rw [flat10 w _ e0]; unfold decode10
  simp only [e1, e2, a1, a2, Nat.reduceEqDiff, OfNat.ofNat_ne_zero, OfNat.zero_ne_ofNat, one_ne_zero, zero_ne_one, OfNat.one_ne_ofNat, OfNat.ofNat_ne_one, false_and, and_false, and_self, true_and, and_true, reduceIte]

theorem cadr (d : Fin 64) (a : Fin 64) (b : Fin 64) : Statement (.cadr d a b) := by
  intro hf w nx he
  have hw : w = 0x20000005 + d.val * 524288 + a.val * 8192 + b.val * 128 := one (rfl : encode (.cadr d a b) = [0x20000005 + d.val * 524288 + a.val * 8192 + b.val * 128]) he
  have hl := layR (c := 16) (d := d.val) (a := a.val) (b := b.val) (x := 5) (hw.trans (by clear * -; omega)) (d.isLt) (a.isLt) (b.isLt) (by decide)
  have e0 := hl.1
  have e1 : fld w 0 7 = 5 := hl.2.2.2.2
  have a1 : r6 w 19 = d := Fin.ext (hl.2.1)
  have a2 : r6 w 13 = a := Fin.ext (hl.2.2.1)
  have a3 : r6 w 7 = b := Fin.ext (hl.2.2.2.1)
  refine wf_ok (by rw [e0]; decide) ?_ hf
  rw [flat10 w _ e0]; unfold decode10
  simp only [e1, a1, a2, a3, Nat.reduceEqDiff, OfNat.ofNat_ne_zero, OfNat.zero_ne_ofNat, one_ne_zero, zero_ne_one, OfNat.one_ne_ofNat, OfNat.ofNat_ne_one, false_and, and_false, and_self, true_and, and_true, reduceIte]

theorem clen (d : Fin 64) (a : Fin 64) : Statement (.clen d a) := by
  intro hf w nx he
  have hw : w = 0x20000006 + d.val * 524288 + a.val * 8192 := one (rfl : encode (.clen d a) = [0x20000006 + d.val * 524288 + a.val * 8192]) he
  have hl := layR (c := 16) (d := d.val) (a := a.val) (b := 0) (x := 6) (hw.trans (by clear * -; omega)) (d.isLt) (a.isLt) (by decide) (by decide)
  have e0 := hl.1
  have e1 : fld w 0 7 = 6 := hl.2.2.2.2
  have e2 : fld w 7 6 = 0 := hl.2.2.2.1
  have a1 : r6 w 19 = d := Fin.ext (hl.2.1)
  have a2 : r6 w 13 = a := Fin.ext (hl.2.2.1)
  refine wf_ok (by rw [e0]; decide) ?_ hf
  rw [flat10 w _ e0]; unfold decode10
  simp only [e1, e2, a1, a2, Nat.reduceEqDiff, OfNat.ofNat_ne_zero, OfNat.zero_ne_ofNat, one_ne_zero, zero_ne_one, OfNat.one_ne_ofNat, OfNat.ofNat_ne_one, false_and, and_false, and_self, true_and, and_true, reduceIte]

theorem cbas (d : Fin 64) (a : Fin 64) : Statement (.cbas d a) := by
  intro hf w nx he
  have hw : w = 0x20000007 + d.val * 524288 + a.val * 8192 := one (rfl : encode (.cbas d a) = [0x20000007 + d.val * 524288 + a.val * 8192]) he
  have hl := layR (c := 16) (d := d.val) (a := a.val) (b := 0) (x := 7) (hw.trans (by clear * -; omega)) (d.isLt) (a.isLt) (by decide) (by decide)
  have e0 := hl.1
  have e1 : fld w 0 7 = 7 := hl.2.2.2.2
  have e2 : fld w 7 6 = 0 := hl.2.2.2.1
  have a1 : r6 w 19 = d := Fin.ext (hl.2.1)
  have a2 : r6 w 13 = a := Fin.ext (hl.2.2.1)
  refine wf_ok (by rw [e0]; decide) ?_ hf
  rw [flat10 w _ e0]; unfold decode10
  simp only [e1, e2, a1, a2, Nat.reduceEqDiff, OfNat.ofNat_ne_zero, OfNat.zero_ne_ofNat, one_ne_zero, zero_ne_one, OfNat.one_ne_ofNat, OfNat.ofNat_ne_one, false_and, and_false, and_self, true_and, and_true, reduceIte]

theorem ctst (d : Fin 64) (a : Fin 64) (b : Fin 64) : Statement (.ctst d a b) := by
  intro hf w nx he
  have hw : w = 0x20000008 + d.val * 524288 + a.val * 8192 + b.val * 128 := one (rfl : encode (.ctst d a b) = [0x20000008 + d.val * 524288 + a.val * 8192 + b.val * 128]) he
  have hl := layR (c := 16) (d := d.val) (a := a.val) (b := b.val) (x := 8) (hw.trans (by clear * -; omega)) (d.isLt) (a.isLt) (b.isLt) (by decide)
  have e0 := hl.1
  have e1 : fld w 0 7 = 8 := hl.2.2.2.2
  have a1 : r6 w 19 = d := Fin.ext (hl.2.1)
  have a2 : r6 w 13 = a := Fin.ext (hl.2.2.1)
  have a3 : r6 w 7 = b := Fin.ext (hl.2.2.2.1)
  refine wf_ok (by rw [e0]; decide) ?_ hf
  rw [flat10 w _ e0]; unfold decode10
  simp only [e1, a1, a2, a3, Nat.reduceEqDiff, OfNat.ofNat_ne_zero, OfNat.zero_ne_ofNat, one_ne_zero, zero_ne_one, OfNat.one_ne_ofNat, OfNat.ofNat_ne_one, false_and, and_false, and_self, true_and, and_true, reduceIte]

theorem cadrInc (d : Fin 64) (a : Fin 64) (i : BitVec 13) : Statement (.cadrInc d a i) := by
  intro hf w nx he
  have hw : w = 0x22000000 + d.val * 524288 + a.val * 8192 + i.toNat := one (rfl : encode (.cadrInc d a i) = [0x22000000 + d.val * 524288 + a.val * 8192 + i.toNat]) he
  have hl := layI (c := 17) (d := d.val) (a := a.val) (x := i.toNat) (hw.trans (by clear * -; omega)) (d.isLt) (a.isLt) (i.isLt)
  have e0 := hl.1
  have a1 : r6 w 19 = d := Fin.ext (hl.2.1)
  have a2 : r6 w 13 = a := Fin.ext (hl.2.2.1)
  have a3 : i13 w = i := BitVec.eq_of_toNat_eq ((BitVec.toNat_ofNat ..).trans (low hl.2.2.2))
  refine wf_ok (by rw [e0]; decide) ?_ hf
  rw [flat11 w _ e0]; unfold decode11
  simp only [a1, a2, a3, Nat.reduceEqDiff, OfNat.ofNat_ne_zero, OfNat.zero_ne_ofNat, one_ne_zero, zero_ne_one, OfNat.one_ne_ofNat, OfNat.ofNat_ne_one, false_and, and_false, and_self, true_and, and_true, reduceIte]

theorem br (o : BitVec 19) : Statement (.br o) := by
  intro hf w nx he
  have hw : w = 0x30000000 + o.toNat := one (rfl : encode (.br o) = [0x30000000 + o.toNat]) he
  have hl := layO (c := 24) (d := 0) (x := o.toNat) (hw.trans (by clear * -; omega)) (by decide) (o.isLt)
  have e0 := hl.1
  have e1 : fld w 19 6 = 0 := hl.2.1
  have a1 : o19 w = o := BitVec.eq_of_toNat_eq ((BitVec.toNat_ofNat ..).trans (low hl.2.2))
  refine wf_ok (by rw [e0]; decide) ?_ hf
  rw [flat18 w _ e0]; unfold decode18
  simp only [e1, a1, Nat.reduceEqDiff, OfNat.ofNat_ne_zero, OfNat.zero_ne_ofNat, one_ne_zero, zero_ne_one, OfNat.one_ne_ofNat, OfNat.ofNat_ne_one, false_and, and_false, and_self, true_and, and_true, reduceIte]

theorem call (o : BitVec 19) : Statement (.call o) := by
  intro hf w nx he
  have hw : w = 0x30080000 + o.toNat := one (rfl : encode (.call o) = [0x30080000 + o.toNat]) he
  have hl := layO (c := 24) (d := 1) (x := o.toNat) (hw.trans (by clear * -; omega)) (by decide) (o.isLt)
  have e0 := hl.1
  have e1 : fld w 19 6 = 1 := hl.2.1
  have a1 : o19 w = o := BitVec.eq_of_toNat_eq ((BitVec.toNat_ofNat ..).trans (low hl.2.2))
  refine wf_ok (by rw [e0]; decide) ?_ hf
  rw [flat18 w _ e0]; unfold decode18
  simp only [e1, a1, Nat.reduceEqDiff, OfNat.ofNat_ne_zero, OfNat.zero_ne_ofNat, one_ne_zero, zero_ne_one, OfNat.one_ne_ofNat, OfNat.ofNat_ne_one, false_and, and_false, and_self, true_and, and_true, reduceIte]

theorem bc (c : Fin 64) (o : BitVec 19) : Statement (.bc c o) := by
  intro hf w nx he
  have hw : w = 0x32000000 + c.val * 524288 + o.toNat := one (rfl : encode (.bc c o) = [0x32000000 + c.val * 524288 + o.toNat]) he
  have hl := layO (c := 25) (d := c.val) (x := o.toNat) (hw.trans (by clear * -; omega)) (c.isLt) (o.isLt)
  have e0 := hl.1
  have a1 : r6 w 19 = c := Fin.ext (hl.2.1)
  have a2 : o19 w = o := BitVec.eq_of_toNat_eq ((BitVec.toNat_ofNat ..).trans (low hl.2.2))
  refine wf_ok (by rw [e0]; decide) ?_ hf
  rw [flat19 w _ e0]; unfold decode19
  simp only [a1, a2, Nat.reduceEqDiff, OfNat.ofNat_ne_zero, OfNat.zero_ne_ofNat, one_ne_zero, zero_ne_one, OfNat.one_ne_ofNat, OfNat.ofNat_ne_one, false_and, and_false, and_self, true_and, and_true, reduceIte]

theorem bcZ (c : Fin 64) (o : BitVec 19) : Statement (.bcZ c o) := by
  intro hf w nx he
  have hw : w = 0x34000000 + c.val * 524288 + o.toNat := one (rfl : encode (.bcZ c o) = [0x34000000 + c.val * 524288 + o.toNat]) he
  have hl := layO (c := 26) (d := c.val) (x := o.toNat) (hw.trans (by clear * -; omega)) (c.isLt) (o.isLt)
  have e0 := hl.1
  have a1 : r6 w 19 = c := Fin.ext (hl.2.1)
  have a2 : o19 w = o := BitVec.eq_of_toNat_eq ((BitVec.toNat_ofNat ..).trans (low hl.2.2))
  refine wf_ok (by rw [e0]; decide) ?_ hf
  rw [flat1A w _ e0]; unfold decode1A
  simp only [a1, a2, Nat.reduceEqDiff, OfNat.ofNat_ne_zero, OfNat.zero_ne_ofNat, one_ne_zero, zero_ne_one, OfNat.one_ne_ofNat, OfNat.ofNat_ne_one, false_and, and_false, and_self, true_and, and_true, reduceIte]

theorem bpAny (p : Fin 8) (o : BitVec 19) : Statement (.bpAny p o) := by
  intro hf w nx he
  have hw : w = 0x36000000 + p.val * 524288 + o.toNat := one (rfl : encode (.bpAny p o) = [0x36000000 + p.val * 524288 + o.toNat]) he
  have hl := layO (c := 27) (d := p.val) (x := o.toNat) (hw.trans (by clear * -; omega)) (by have b0 := p.isLt; clear * - b0; omega) (o.isLt)
  have e0 := hl.1
  have e1 : fld w 22 3 = 0 := (part 19 6 22 3 hl.2.1 (by decide) (by decide)).trans (by have b0 := p.isLt; clear * - b0; omega)
  have a1 : r3 w 19 = p := Fin.ext ((part 19 6 19 3 hl.2.1 (by decide) (by decide)).trans (by have b0 := p.isLt; clear * - b0; omega))
  have a2 : o19 w = o := BitVec.eq_of_toNat_eq ((BitVec.toNat_ofNat ..).trans (low hl.2.2))
  refine wf_ok (by rw [e0]; decide) ?_ hf
  rw [flat1B w _ e0]; unfold decode1B
  simp only [e1, a1, a2, Nat.reduceEqDiff, OfNat.ofNat_ne_zero, OfNat.zero_ne_ofNat, one_ne_zero, zero_ne_one, OfNat.one_ne_ofNat, OfNat.ofNat_ne_one, false_and, and_false, and_self, true_and, and_true, reduceIte]

theorem bpAll (p : Fin 8) (o : BitVec 19) : Statement (.bpAll p o) := by
  intro hf w nx he
  have hw : w = 0x36400000 + p.val * 524288 + o.toNat := one (rfl : encode (.bpAll p o) = [0x36400000 + p.val * 524288 + o.toNat]) he
  have hl := layO (c := 27) (d := p.val + 8) (x := o.toNat) (hw.trans (by clear * -; omega)) (by have b0 := p.isLt; clear * - b0; omega) (o.isLt)
  have e0 := hl.1
  have e1 : fld w 22 3 = 1 := (part 19 6 22 3 hl.2.1 (by decide) (by decide)).trans (by have b0 := p.isLt; clear * - b0; omega)
  have a1 : r3 w 19 = p := Fin.ext ((part 19 6 19 3 hl.2.1 (by decide) (by decide)).trans (by have b0 := p.isLt; clear * - b0; omega))
  have a2 : o19 w = o := BitVec.eq_of_toNat_eq ((BitVec.toNat_ofNat ..).trans (low hl.2.2))
  refine wf_ok (by rw [e0]; decide) ?_ hf
  rw [flat1B w _ e0]; unfold decode1B
  simp only [e1, a1, a2, Nat.reduceEqDiff, OfNat.ofNat_ne_zero, OfNat.zero_ne_ofNat, one_ne_zero, zero_ne_one, OfNat.one_ne_ofNat, OfNat.ofNat_ne_one, false_and, and_false, and_self, true_and, and_true, reduceIte]

theorem bpNone (p : Fin 8) (o : BitVec 19) : Statement (.bpNone p o) := by
  intro hf w nx he
  have hw : w = 0x36800000 + p.val * 524288 + o.toNat := one (rfl : encode (.bpNone p o) = [0x36800000 + p.val * 524288 + o.toNat]) he
  have hl := layO (c := 27) (d := p.val + 16) (x := o.toNat) (hw.trans (by clear * -; omega)) (by have b0 := p.isLt; clear * - b0; omega) (o.isLt)
  have e0 := hl.1
  have e1 : fld w 22 3 = 2 := (part 19 6 22 3 hl.2.1 (by decide) (by decide)).trans (by have b0 := p.isLt; clear * - b0; omega)
  have a1 : r3 w 19 = p := Fin.ext ((part 19 6 19 3 hl.2.1 (by decide) (by decide)).trans (by have b0 := p.isLt; clear * - b0; omega))
  have a2 : o19 w = o := BitVec.eq_of_toNat_eq ((BitVec.toNat_ofNat ..).trans (low hl.2.2))
  refine wf_ok (by rw [e0]; decide) ?_ hf
  rw [flat1B w _ e0]; unfold decode1B
  simp only [e1, a1, a2, Nat.reduceEqDiff, OfNat.ofNat_ne_zero, OfNat.zero_ne_ofNat, one_ne_zero, zero_ne_one, OfNat.one_ne_ofNat, OfNat.ofNat_ne_one, false_and, and_false, and_self, true_and, and_true, reduceIte]

theorem bpNall (p : Fin 8) (o : BitVec 19) : Statement (.bpNall p o) := by
  intro hf w nx he
  have hw : w = 0x36c00000 + p.val * 524288 + o.toNat := one (rfl : encode (.bpNall p o) = [0x36c00000 + p.val * 524288 + o.toNat]) he
  have hl := layO (c := 27) (d := p.val + 24) (x := o.toNat) (hw.trans (by clear * -; omega)) (by have b0 := p.isLt; clear * - b0; omega) (o.isLt)
  have e0 := hl.1
  have e1 : fld w 22 3 = 3 := (part 19 6 22 3 hl.2.1 (by decide) (by decide)).trans (by have b0 := p.isLt; clear * - b0; omega)
  have a1 : r3 w 19 = p := Fin.ext ((part 19 6 19 3 hl.2.1 (by decide) (by decide)).trans (by have b0 := p.isLt; clear * - b0; omega))
  have a2 : o19 w = o := BitVec.eq_of_toNat_eq ((BitVec.toNat_ofNat ..).trans (low hl.2.2))
  refine wf_ok (by rw [e0]; decide) ?_ hf
  rw [flat1B w _ e0]; unfold decode1B
  simp only [e1, a1, a2, Nat.reduceEqDiff, OfNat.ofNat_ne_zero, OfNat.zero_ne_ofNat, one_ne_zero, zero_ne_one, OfNat.one_ne_ofNat, OfNat.ofNat_ne_one, false_and, and_false, and_self, true_and, and_true, reduceIte]

theorem loop (c : Fin 64) (o : BitVec 19) : Statement (.loop c o) := by
  intro hf w nx he
  have hw : w = 0x38000000 + c.val * 524288 + o.toNat := one (rfl : encode (.loop c o) = [0x38000000 + c.val * 524288 + o.toNat]) he
  have hl := layO (c := 28) (d := c.val) (x := o.toNat) (hw.trans (by clear * -; omega)) (c.isLt) (o.isLt)
  have e0 := hl.1
  have a1 : r6 w 19 = c := Fin.ext (hl.2.1)
  have a2 : o19 w = o := BitVec.eq_of_toNat_eq ((BitVec.toNat_ofNat ..).trans (low hl.2.2))
  refine wf_ok (by rw [e0]; decide) ?_ hf
  rw [flat1C w _ e0]; unfold decode1C
  simp only [a1, a2, Nat.reduceEqDiff, OfNat.ofNat_ne_zero, OfNat.zero_ne_ofNat, one_ne_zero, zero_ne_one, OfNat.one_ne_ofNat, OfNat.ofNat_ne_one, false_and, and_false, and_self, true_and, and_true, reduceIte]

theorem jr (a : Fin 64) : Statement (.jr a) := by
  intro hf w nx he
  have hw : w = 0x3a000000 + a.val * 8192 := one (rfl : encode (.jr a) = [0x3a000000 + a.val * 8192]) he
  have hl := layR (c := 29) (d := 0) (a := a.val) (b := 0) (x := 0) (hw.trans (by clear * -; omega)) (by decide) (a.isLt) (by decide) (by decide)
  have e0 := hl.1
  have e1 : fld w 0 7 = 0 := hl.2.2.2.2
  have e2 : fld w 7 6 = 0 := hl.2.2.2.1
  have e3 : fld w 19 6 = 0 := hl.2.1
  have a1 : r6 w 13 = a := Fin.ext (hl.2.2.1)
  refine wf_ok (by rw [e0]; decide) ?_ hf
  rw [flat1D w _ e0]; unfold decode1D
  simp only [e1, e2, e3, a1, Nat.reduceEqDiff, OfNat.ofNat_ne_zero, OfNat.zero_ne_ofNat, one_ne_zero, zero_ne_one, OfNat.one_ne_ofNat, OfNat.ofNat_ne_one, false_and, and_false, and_self, true_and, and_true, reduceIte]

theorem ret : Statement (.ret) := by
  intro hf w nx he
  have hw : w = 0x3a000001 := one (rfl : encode (.ret) = [0x3a000001]) he
  have hl := layR (c := 29) (d := 0) (a := 0) (b := 0) (x := 1) (hw.trans (by clear * -; omega)) (by decide) (by decide) (by decide) (by decide)
  have e0 := hl.1
  have e1 : fld w 0 7 = 1 := hl.2.2.2.2
  have e2 : fld w 7 6 = 0 := hl.2.2.2.1
  have e3 : fld w 19 6 = 0 := hl.2.1
  have e4 : fld w 13 6 = 0 := hl.2.2.1
  refine wf_ok (by rw [e0]; decide) ?_ hf
  rw [flat1D w _ e0]; unfold decode1D
  simp only [e1, e2, e3, e4, Nat.reduceEqDiff, OfNat.ofNat_ne_zero, OfNat.zero_ne_ofNat, one_ne_zero, zero_ne_one, OfNat.one_ne_ofNat, OfNat.ofNat_ne_one, false_and, and_false, and_self, true_and, and_true, reduceIte]

theorem callReg (a : Fin 64) : Statement (.callReg a) := by
  intro hf w nx he
  have hw : w = 0x3a000002 + a.val * 8192 := one (rfl : encode (.callReg a) = [0x3a000002 + a.val * 8192]) he
  have hl := layR (c := 29) (d := 0) (a := a.val) (b := 0) (x := 2) (hw.trans (by clear * -; omega)) (by decide) (a.isLt) (by decide) (by decide)
  have e0 := hl.1
  have e1 : fld w 0 7 = 2 := hl.2.2.2.2
  have e2 : fld w 7 6 = 0 := hl.2.2.2.1
  have e3 : fld w 19 6 = 0 := hl.2.1
  have a1 : r6 w 13 = a := Fin.ext (hl.2.2.1)
  refine wf_ok (by rw [e0]; decide) ?_ hf
  rw [flat1D w _ e0]; unfold decode1D
  simp only [e1, e2, e3, a1, Nat.reduceEqDiff, OfNat.ofNat_ne_zero, OfNat.zero_ne_ofNat, one_ne_zero, zero_ne_one, OfNat.one_ne_ofNat, OfNat.ofNat_ne_one, false_and, and_false, and_self, true_and, and_true, reduceIte]

theorem hstart (d : Fin 64) (a : Fin 64) (b : Fin 64) : Statement (.hstart d a b) := by
  intro hf w nx he
  have hw : w = 0x3a000003 + d.val * 524288 + a.val * 8192 + b.val * 128 := one (rfl : encode (.hstart d a b) = [0x3a000003 + d.val * 524288 + a.val * 8192 + b.val * 128]) he
  have hl := layR (c := 29) (d := d.val) (a := a.val) (b := b.val) (x := 3) (hw.trans (by clear * -; omega)) (d.isLt) (a.isLt) (b.isLt) (by decide)
  have e0 := hl.1
  have e1 : fld w 0 7 = 3 := hl.2.2.2.2
  have a1 : r6 w 19 = d := Fin.ext (hl.2.1)
  have a2 : r6 w 13 = a := Fin.ext (hl.2.2.1)
  have a3 : r6 w 7 = b := Fin.ext (hl.2.2.2.1)
  refine wf_ok (by rw [e0]; decide) ?_ hf
  rw [flat1D w _ e0]; unfold decode1D
  simp only [e1, a1, a2, a3, Nat.reduceEqDiff, OfNat.ofNat_ne_zero, OfNat.zero_ne_ofNat, one_ne_zero, zero_ne_one, OfNat.one_ne_ofNat, OfNat.ofNat_ne_one, false_and, and_false, and_self, true_and, and_true, reduceIte]

theorem hend : Statement (.hend) := by
  intro hf w nx he
  have hw : w = 0x3a000004 := one (rfl : encode (.hend) = [0x3a000004]) he
  have hl := layR (c := 29) (d := 0) (a := 0) (b := 0) (x := 4) (hw.trans (by clear * -; omega)) (by decide) (by decide) (by decide) (by decide)
  have e0 := hl.1
  have e1 : fld w 0 7 = 4 := hl.2.2.2.2
  have e2 : fld w 7 6 = 0 := hl.2.2.2.1
  have e3 : fld w 19 6 = 0 := hl.2.1
  have e4 : fld w 13 6 = 0 := hl.2.2.1
  refine wf_ok (by rw [e0]; decide) ?_ hf
  rw [flat1D w _ e0]; unfold decode1D
  simp only [e1, e2, e3, e4, Nat.reduceEqDiff, OfNat.ofNat_ne_zero, OfNat.zero_ne_ofNat, one_ne_zero, zero_ne_one, OfNat.one_ne_ofNat, OfNat.ofNat_ne_one, false_and, and_false, and_self, true_and, and_true, reduceIte]

theorem hjoin (a : Fin 64) : Statement (.hjoin a) := by
  intro hf w nx he
  have hw : w = 0x3a000005 + a.val * 8192 := one (rfl : encode (.hjoin a) = [0x3a000005 + a.val * 8192]) he
  have hl := layR (c := 29) (d := 0) (a := a.val) (b := 0) (x := 5) (hw.trans (by clear * -; omega)) (by decide) (a.isLt) (by decide) (by decide)
  have e0 := hl.1
  have e1 : fld w 0 7 = 5 := hl.2.2.2.2
  have e2 : fld w 7 6 = 0 := hl.2.2.2.1
  have e3 : fld w 19 6 = 0 := hl.2.1
  have a1 : r6 w 13 = a := Fin.ext (hl.2.2.1)
  refine wf_ok (by rw [e0]; decide) ?_ hf
  rw [flat1D w _ e0]; unfold decode1D
  simp only [e1, e2, e3, a1, Nat.reduceEqDiff, OfNat.ofNat_ne_zero, OfNat.zero_ne_ofNat, one_ne_zero, zero_ne_one, OfNat.one_ne_ofNat, OfNat.ofNat_ne_one, false_and, and_false, and_self, true_and, and_true, reduceIte]

theorem yield : Statement (.yield) := by
  intro hf w nx he
  have hw : w = 0x3a000006 := one (rfl : encode (.yield) = [0x3a000006]) he
  have hl := layR (c := 29) (d := 0) (a := 0) (b := 0) (x := 6) (hw.trans (by clear * -; omega)) (by decide) (by decide) (by decide) (by decide)
  have e0 := hl.1
  have e1 : fld w 0 7 = 6 := hl.2.2.2.2
  have e2 : fld w 7 6 = 0 := hl.2.2.2.1
  have e3 : fld w 19 6 = 0 := hl.2.1
  have e4 : fld w 13 6 = 0 := hl.2.2.1
  refine wf_ok (by rw [e0]; decide) ?_ hf
  rw [flat1D w _ e0]; unfold decode1D
  simp only [e1, e2, e3, e4, Nat.reduceEqDiff, OfNat.ofNat_ne_zero, OfNat.zero_ne_ofNat, one_ne_zero, zero_ne_one, OfNat.one_ne_ofNat, OfNat.ofNat_ne_one, false_and, and_false, and_self, true_and, and_true, reduceIte]

theorem fmt (r : Fin 8) (n : Fin 2) (d : Fin 8) (b : Fin 8) (a : Fin 8) : Statement (.fmt r n d b a) := by
  intro hf w nx he
  have hw : w = 0x3c000000 + r.val * 1024 + n.val * 512 + d.val * 64 + b.val * 8 + a.val := one (rfl : encode (.fmt r n d b a) = [0x3c000000 + r.val * 1024 + n.val * 512 + d.val * 64 + b.val * 8 + a.val]) he
  have hl := layI (c := 30) (d := 0) (a := 0) (x := r.val * 1024 + n.val * 512 + d.val * 64 + b.val * 8 + a.val) (hw.trans (by clear * -; omega)) (by decide) (by decide) (by have b0 := r.isLt; have b1 := n.isLt; have b2 := d.isLt; have b3 := b.isLt; have b4 := a.isLt; clear * - b0 b1 b2 b3 b4; omega)
  have e0 := hl.1
  have e1 : fld w 13 6 = 0 := hl.2.2.1
  have e2 : fld w 19 6 = 0 := hl.2.1
  have a1 : r3 w 10 = r := Fin.ext ((part 0 13 10 3 hl.2.2.2 (by decide) (by decide)).trans (by have b0 := r.isLt; have b1 := n.isLt; have b2 := d.isLt; have b3 := b.isLt; have b4 := a.isLt; clear * - b0 b1 b2 b3 b4; omega))
  have a2 : r1 w 9 = n := Fin.ext ((part 0 13 9 1 hl.2.2.2 (by decide) (by decide)).trans (by have b0 := r.isLt; have b1 := n.isLt; have b2 := d.isLt; have b3 := b.isLt; have b4 := a.isLt; clear * - b0 b1 b2 b3 b4; omega))
  have a3 : r3 w 6 = d := Fin.ext ((part 0 13 6 3 hl.2.2.2 (by decide) (by decide)).trans (by have b0 := r.isLt; have b1 := n.isLt; have b2 := d.isLt; have b3 := b.isLt; have b4 := a.isLt; clear * - b0 b1 b2 b3 b4; omega))
  have a4 : r3 w 3 = b := Fin.ext ((part 0 13 3 3 hl.2.2.2 (by decide) (by decide)).trans (by have b0 := r.isLt; have b1 := n.isLt; have b2 := d.isLt; have b3 := b.isLt; have b4 := a.isLt; clear * - b0 b1 b2 b3 b4; omega))
  have a5 : r3 w 0 = a := Fin.ext ((part 0 13 0 3 hl.2.2.2 (by decide) (by decide)).trans (by have b0 := r.isLt; have b1 := n.isLt; have b2 := d.isLt; have b3 := b.isLt; have b4 := a.isLt; clear * - b0 b1 b2 b3 b4; omega))
  refine wf_ok (by rw [e0]; decide) ?_ hf
  rw [flat1E w _ e0]; unfold decode1E
  simp only [e1, e2, a1, a2, a3, a4, a5, Nat.reduceEqDiff, OfNat.ofNat_ne_zero, OfNat.zero_ne_ofNat, one_ne_zero, zero_ne_one, OfNat.one_ne_ofNat, OfNat.ofNat_ne_one, false_and, and_false, and_self, true_and, and_true, reduceIte]

theorem nop : Statement (.nop) := by
  intro hf w nx he
  have hw : w = 0x3e000000 := one (rfl : encode (.nop) = [0x3e000000]) he
  have hl := layR (c := 31) (d := 0) (a := 0) (b := 0) (x := 0) (hw.trans (by clear * -; omega)) (by decide) (by decide) (by decide) (by decide)
  have e0 := hl.1
  have e1 : fld w 0 7 = 0 := hl.2.2.2.2
  have e2 : fld w 7 6 = 0 := hl.2.2.2.1
  have e3 : fld w 13 6 = 0 := hl.2.2.1
  have e4 : fld w 19 6 = 0 := hl.2.1
  refine wf_ok (by rw [e0]; decide) ?_ hf
  rw [flat1F w _ e0]; unfold decode1F
  simp only [e1, e2, e3, e4, Nat.reduceEqDiff, OfNat.ofNat_ne_zero, OfNat.zero_ne_ofNat, one_ne_zero, zero_ne_one, OfNat.one_ne_ofNat, OfNat.ofNat_ne_one, false_and, and_false, and_self, true_and, and_true, reduceIte]

theorem rep (i : BitVec 13) : Statement (.rep i) := by
  intro hf w nx he
  have hw : w = 0x3e000000 + i.toNat := one (rfl : encode (.rep i) = [0x3e000000 + i.toNat]) he
  have hl := layI (c := 31) (d := 0) (a := 0) (x := i.toNat) (hw.trans (by clear * -; omega)) (by decide) (by decide) (i.isLt)
  have e0 := hl.1
  have e1 : fld w 13 6 = 0 := hl.2.2.1
  have e2 : fld w 19 6 = 0 := hl.2.1
  have a1 : i13 w = i := BitVec.eq_of_toNat_eq ((BitVec.toNat_ofNat ..).trans (low hl.2.2.2))
  refine wf_ok (by rw [e0]; decide) ?_ hf
  rw [flat1F w _ e0]; unfold decode1F
  have n1 : ¬(fld w 0 7 = 0 ∧ fld w 7 6 = 0 ∧ fld w 13 6 = 0 ∧ fld w 19 6 = 0) := by
    have h1 := of_decide_eq_true (show decide (1 ≤ i.toNat ∧ i.toNat < 4096) = true from hf); unfold fld; omega
  rw [if_neg n1, if_pos ⟨e1, e2⟩, a1]

theorem repW (a : Fin 64) : Statement (.repW a) := by
  intro hf w nx he
  have hw : w = 0x3e000000 + a.val * 8192 := one (rfl : encode (.repW a) = [0x3e000000 + a.val * 8192]) he
  have hl := layR (c := 31) (d := 0) (a := a.val) (b := 0) (x := 0) (hw.trans (by clear * -; omega)) (by decide) (a.isLt) (by decide) (by decide)
  have e0 := hl.1
  have e1 : fld w 0 7 = 0 := hl.2.2.2.2
  have e2 : fld w 7 6 = 0 := hl.2.2.2.1
  have e3 : fld w 19 6 = 0 := hl.2.1
  have a1 : r6 w 13 = a := Fin.ext (hl.2.2.1)
  refine wf_ok (by rw [e0]; decide) ?_ hf
  rw [flat1F w _ e0]; unfold decode1F
  have n1 : ¬(fld w 0 7 = 0 ∧ fld w 7 6 = 0 ∧ fld w 13 6 = 0 ∧ fld w 19 6 = 0) := by
    have h1 := of_decide_eq_true (show decide (a ≠ 0) = true from hf); intro q; have q1 := q.2.2.1; unfold fld at q1; exact h1 (Fin.ext (by show a.val = 0; omega))
  have n2 : ¬(fld w 13 6 = 0 ∧ fld w 19 6 = 0) := fun q => n1 ⟨e1, e2, q.1, q.2⟩
  rw [if_neg n1, if_neg n2, if_pos ⟨e1, e2, e3⟩, a1]

theorem ld (d : Fin 64) (a : Fin 64) (i : BitVec 13) : Statement (.ld d a i) := by
  intro hf w nx he
  have hw : w = 0x40000000 + d.val * 524288 + a.val * 8192 + i.toNat := one (rfl : encode (.ld d a i) = [0x40000000 + d.val * 524288 + a.val * 8192 + i.toNat]) he
  have hl := layI (c := 32) (d := d.val) (a := a.val) (x := i.toNat) (hw.trans (by clear * -; omega)) (d.isLt) (a.isLt) (i.isLt)
  have e0 := hl.1
  have a1 : r6 w 19 = d := Fin.ext (hl.2.1)
  have a2 : r6 w 13 = a := Fin.ext (hl.2.2.1)
  have a3 : i13 w = i := BitVec.eq_of_toNat_eq ((BitVec.toNat_ofNat ..).trans (low hl.2.2.2))
  refine wf_ok (by rw [e0]; decide) ?_ hf
  rw [flat20 w _ e0]; unfold decode20
  simp only [a1, a2, a3, Nat.reduceEqDiff, OfNat.ofNat_ne_zero, OfNat.zero_ne_ofNat, one_ne_zero, zero_ne_one, OfNat.one_ne_ofNat, OfNat.ofNat_ne_one, false_and, and_false, and_self, true_and, and_true, reduceIte]

theorem st (d : Fin 64) (a : Fin 64) (i : BitVec 13) : Statement (.st d a i) := by
  intro hf w nx he
  have hw : w = 0x42000000 + d.val * 524288 + a.val * 8192 + i.toNat := one (rfl : encode (.st d a i) = [0x42000000 + d.val * 524288 + a.val * 8192 + i.toNat]) he
  have hl := layI (c := 33) (d := d.val) (a := a.val) (x := i.toNat) (hw.trans (by clear * -; omega)) (d.isLt) (a.isLt) (i.isLt)
  have e0 := hl.1
  have a1 : r6 w 19 = d := Fin.ext (hl.2.1)
  have a2 : r6 w 13 = a := Fin.ext (hl.2.2.1)
  have a3 : i13 w = i := BitVec.eq_of_toNat_eq ((BitVec.toNat_ofNat ..).trans (low hl.2.2.2))
  refine wf_ok (by rw [e0]; decide) ?_ hf
  rw [flat21 w _ e0]; unfold decode21
  simp only [a1, a2, a3, Nat.reduceEqDiff, OfNat.ofNat_ne_zero, OfNat.zero_ne_ofNat, one_ne_zero, zero_ne_one, OfNat.one_ne_ofNat, OfNat.ofNat_ne_one, false_and, and_false, and_self, true_and, and_true, reduceIte]

theorem ldc (d : Fin 64) (a : Fin 64) (i : BitVec 13) : Statement (.ldc d a i) := by
  intro hf w nx he
  have hw : w = 0x44000000 + d.val * 524288 + a.val * 8192 + i.toNat := one (rfl : encode (.ldc d a i) = [0x44000000 + d.val * 524288 + a.val * 8192 + i.toNat]) he
  have hl := layI (c := 34) (d := d.val) (a := a.val) (x := i.toNat) (hw.trans (by clear * -; omega)) (d.isLt) (a.isLt) (i.isLt)
  have e0 := hl.1
  have a1 : r6 w 19 = d := Fin.ext (hl.2.1)
  have a2 : r6 w 13 = a := Fin.ext (hl.2.2.1)
  have a3 : i13 w = i := BitVec.eq_of_toNat_eq ((BitVec.toNat_ofNat ..).trans (low hl.2.2.2))
  refine wf_ok (by rw [e0]; decide) ?_ hf
  rw [flat22 w _ e0]; unfold decode22
  simp only [a1, a2, a3, Nat.reduceEqDiff, OfNat.ofNat_ne_zero, OfNat.zero_ne_ofNat, one_ne_zero, zero_ne_one, OfNat.one_ne_ofNat, OfNat.ofNat_ne_one, false_and, and_false, and_self, true_and, and_true, reduceIte]

theorem stc (d : Fin 64) (a : Fin 64) (i : BitVec 13) : Statement (.stc d a i) := by
  intro hf w nx he
  have hw : w = 0x46000000 + d.val * 524288 + a.val * 8192 + i.toNat := one (rfl : encode (.stc d a i) = [0x46000000 + d.val * 524288 + a.val * 8192 + i.toNat]) he
  have hl := layI (c := 35) (d := d.val) (a := a.val) (x := i.toNat) (hw.trans (by clear * -; omega)) (d.isLt) (a.isLt) (i.isLt)
  have e0 := hl.1
  have a1 : r6 w 19 = d := Fin.ext (hl.2.1)
  have a2 : r6 w 13 = a := Fin.ext (hl.2.2.1)
  have a3 : i13 w = i := BitVec.eq_of_toNat_eq ((BitVec.toNat_ofNat ..).trans (low hl.2.2.2))
  refine wf_ok (by rw [e0]; decide) ?_ hf
  rw [flat23 w _ e0]; unfold decode23
  simp only [a1, a2, a3, Nat.reduceEqDiff, OfNat.ofNat_ne_zero, OfNat.zero_ne_ofNat, one_ne_zero, zero_ne_one, OfNat.one_ne_ofNat, OfNat.ofNat_ne_one, false_and, and_false, and_self, true_and, and_true, reduceIte]

theorem ldSized (d : Fin 64) (a : Fin 64) (b : Fin 64) (o : Fin 8) (x : Fin 2) (s : Fin 4) : Statement (.ldSized d a b o x s) := by
  intro hf w nx he
  have hw : w = 0x48000000 + d.val * 524288 + a.val * 8192 + b.val * 128 + o.val * 8 + x.val * 4 + s.val := one (rfl : encode (.ldSized d a b o x s) = [0x48000000 + d.val * 524288 + a.val * 8192 + b.val * 128 + o.val * 8 + x.val * 4 + s.val]) he
  have hl := layR (c := 36) (d := d.val) (a := a.val) (b := b.val) (x := o.val * 8 + x.val * 4 + s.val) (hw.trans (by clear * -; omega)) (d.isLt) (a.isLt) (b.isLt) (by have b0 := o.isLt; have b1 := x.isLt; have b2 := s.isLt; clear * - b0 b1 b2; omega)
  have e0 := hl.1
  have e1 : fld w 6 1 = 0 := (part 0 7 6 1 hl.2.2.2.2 (by decide) (by decide)).trans (by have b0 := o.isLt; have b1 := x.isLt; have b2 := s.isLt; clear * - b0 b1 b2; omega)
  have a1 : r6 w 19 = d := Fin.ext (hl.2.1)
  have a2 : r6 w 13 = a := Fin.ext (hl.2.2.1)
  have a3 : r6 w 7 = b := Fin.ext (hl.2.2.2.1)
  have a4 : r3 w 3 = o := Fin.ext ((part 0 7 3 3 hl.2.2.2.2 (by decide) (by decide)).trans (by have b0 := o.isLt; have b1 := x.isLt; have b2 := s.isLt; clear * - b0 b1 b2; omega))
  have a5 : r1 w 2 = x := Fin.ext ((part 0 7 2 1 hl.2.2.2.2 (by decide) (by decide)).trans (by have b0 := o.isLt; have b1 := x.isLt; have b2 := s.isLt; clear * - b0 b1 b2; omega))
  have a6 : r2 w 0 = s := Fin.ext ((part 0 7 0 2 hl.2.2.2.2 (by decide) (by decide)).trans (by have b0 := o.isLt; have b1 := x.isLt; have b2 := s.isLt; clear * - b0 b1 b2; omega))
  refine wf_ok (by rw [e0]; decide) ?_ hf
  rw [flat24 w _ e0]; unfold decode24
  simp only [e1, a1, a2, a3, a4, a5, a6, Nat.reduceEqDiff, OfNat.ofNat_ne_zero, OfNat.zero_ne_ofNat, one_ne_zero, zero_ne_one, OfNat.one_ne_ofNat, OfNat.ofNat_ne_one, false_and, and_false, and_self, true_and, and_true, reduceIte]

theorem ldSizedK (d : Fin 64) (a : Fin 64) (k : KRef) (o : Fin 8) (x : Fin 2) (s : Fin 4) : Statement (.ldSizedK d a k o x s) := by
  intro hf w nx he
  have hx : w = 0x48000040 + d.val * 524288 + a.val * 8192 + o.val * 8 + x.val * 4 + s.val ∧ nx = k.word := two (rfl : encode (.ldSizedK d a k o x s) = [0x48000040 + d.val * 524288 + a.val * 8192 + o.val * 8 + x.val * 4 + s.val, k.word]) he
  rw [hx.2]; replace hw := hx.1
  have hl := layR (c := 36) (d := d.val) (a := a.val) (b := 0) (x := o.val * 8 + x.val * 4 + s.val + 64) (hw.trans (by clear * -; omega)) (d.isLt) (a.isLt) (by decide) (by have b0 := o.isLt; have b1 := x.isLt; have b2 := s.isLt; clear * - b0 b1 b2; omega)
  have e0 := hl.1
  have e1 : fld w 6 1 = 1 := (part 0 7 6 1 hl.2.2.2.2 (by decide) (by decide)).trans (by have b0 := o.isLt; have b1 := x.isLt; have b2 := s.isLt; clear * - b0 b1 b2; omega)
  have e2 : fld w 7 6 = 0 := hl.2.2.2.1
  have a1 : r6 w 19 = d := Fin.ext (hl.2.1)
  have a2 : r6 w 13 = a := Fin.ext (hl.2.2.1)
  have a3 : r3 w 3 = o := Fin.ext ((part 0 7 3 3 hl.2.2.2.2 (by decide) (by decide)).trans (by have b0 := o.isLt; have b1 := x.isLt; have b2 := s.isLt; clear * - b0 b1 b2; omega))
  have a4 : r1 w 2 = x := Fin.ext ((part 0 7 2 1 hl.2.2.2.2 (by decide) (by decide)).trans (by have b0 := o.isLt; have b1 := x.isLt; have b2 := s.isLt; clear * - b0 b1 b2; omega))
  have a5 : r2 w 0 = s := Fin.ext ((part 0 7 0 2 hl.2.2.2.2 (by decide) (by decide)).trans (by have b0 := o.isLt; have b1 := x.isLt; have b2 := s.isLt; clear * - b0 b1 b2; omega))
  refine wf_ok (by rw [e0]; decide) ?_ hf
  rw [flat24 w _ e0]; unfold decode24
  simp only [e1, e2, a1, a2, (kref_word k).1, a3, a4, a5, Nat.reduceEqDiff, OfNat.ofNat_ne_zero, OfNat.zero_ne_ofNat, one_ne_zero, zero_ne_one, OfNat.one_ne_ofNat, OfNat.ofNat_ne_one, false_and, and_false, and_self, true_and, and_true, reduceIte, (kref_word k).2]

theorem stSized (d : Fin 64) (a : Fin 64) (b : Fin 64) (o : Fin 8) (s : Fin 4) : Statement (.stSized d a b o s) := by
  intro hf w nx he
  have hw : w = 0x4a000000 + d.val * 524288 + a.val * 8192 + b.val * 128 + o.val * 8 + s.val := one (rfl : encode (.stSized d a b o s) = [0x4a000000 + d.val * 524288 + a.val * 8192 + b.val * 128 + o.val * 8 + s.val]) he
  have hl := layR (c := 37) (d := d.val) (a := a.val) (b := b.val) (x := o.val * 8 + s.val) (hw.trans (by clear * -; omega)) (d.isLt) (a.isLt) (b.isLt) (by have b0 := o.isLt; have b1 := s.isLt; clear * - b0 b1; omega)
  have e0 := hl.1
  have e1 : fld w 2 1 = 0 := (part 0 7 2 1 hl.2.2.2.2 (by decide) (by decide)).trans (by have b0 := o.isLt; have b1 := s.isLt; clear * - b0 b1; omega)
  have e2 : fld w 6 1 = 0 := (part 0 7 6 1 hl.2.2.2.2 (by decide) (by decide)).trans (by have b0 := o.isLt; have b1 := s.isLt; clear * - b0 b1; omega)
  have a1 : r6 w 19 = d := Fin.ext (hl.2.1)
  have a2 : r6 w 13 = a := Fin.ext (hl.2.2.1)
  have a3 : r6 w 7 = b := Fin.ext (hl.2.2.2.1)
  have a4 : r3 w 3 = o := Fin.ext ((part 0 7 3 3 hl.2.2.2.2 (by decide) (by decide)).trans (by have b0 := o.isLt; have b1 := s.isLt; clear * - b0 b1; omega))
  have a5 : r2 w 0 = s := Fin.ext ((part 0 7 0 2 hl.2.2.2.2 (by decide) (by decide)).trans (by have b0 := o.isLt; have b1 := s.isLt; clear * - b0 b1; omega))
  refine wf_ok (by rw [e0]; decide) ?_ hf
  rw [flat25 w _ e0]; unfold decode25
  simp only [e1, e2, a1, a2, a3, a4, a5, Nat.reduceEqDiff, OfNat.ofNat_ne_zero, OfNat.zero_ne_ofNat, one_ne_zero, zero_ne_one, OfNat.one_ne_ofNat, OfNat.ofNat_ne_one, false_and, and_false, and_self, true_and, and_true, reduceIte]

theorem stSizedK (d : Fin 64) (a : Fin 64) (k : KRef) (o : Fin 8) (s : Fin 4) : Statement (.stSizedK d a k o s) := by
  intro hf w nx he
  have hx : w = 0x4a000040 + d.val * 524288 + a.val * 8192 + o.val * 8 + s.val ∧ nx = k.word := two (rfl : encode (.stSizedK d a k o s) = [0x4a000040 + d.val * 524288 + a.val * 8192 + o.val * 8 + s.val, k.word]) he
  rw [hx.2]; replace hw := hx.1
  have hl := layR (c := 37) (d := d.val) (a := a.val) (b := 0) (x := o.val * 8 + s.val + 64) (hw.trans (by clear * -; omega)) (d.isLt) (a.isLt) (by decide) (by have b0 := o.isLt; have b1 := s.isLt; clear * - b0 b1; omega)
  have e0 := hl.1
  have e1 : fld w 2 1 = 0 := (part 0 7 2 1 hl.2.2.2.2 (by decide) (by decide)).trans (by have b0 := o.isLt; have b1 := s.isLt; clear * - b0 b1; omega)
  have e2 : fld w 6 1 = 1 := (part 0 7 6 1 hl.2.2.2.2 (by decide) (by decide)).trans (by have b0 := o.isLt; have b1 := s.isLt; clear * - b0 b1; omega)
  have e3 : fld w 7 6 = 0 := hl.2.2.2.1
  have a1 : r6 w 19 = d := Fin.ext (hl.2.1)
  have a2 : r6 w 13 = a := Fin.ext (hl.2.2.1)
  have a3 : r3 w 3 = o := Fin.ext ((part 0 7 3 3 hl.2.2.2.2 (by decide) (by decide)).trans (by have b0 := o.isLt; have b1 := s.isLt; clear * - b0 b1; omega))
  have a4 : r2 w 0 = s := Fin.ext ((part 0 7 0 2 hl.2.2.2.2 (by decide) (by decide)).trans (by have b0 := o.isLt; have b1 := s.isLt; clear * - b0 b1; omega))
  refine wf_ok (by rw [e0]; decide) ?_ hf
  rw [flat25 w _ e0]; unfold decode25
  simp only [e1, e2, e3, a1, a2, (kref_word k).1, a3, a4, Nat.reduceEqDiff, OfNat.ofNat_ne_zero, OfNat.zero_ne_ofNat, one_ne_zero, zero_ne_one, OfNat.one_ne_ofNat, OfNat.ofNat_ne_one, false_and, and_false, and_self, true_and, and_true, reduceIte, (kref_word k).2]

theorem ldfe (d : Fin 64) (a : Fin 64) (b : Fin 64) : Statement (.ldfe d a b) := by
  intro hf w nx he
  have hw : w = 0x4c000000 + d.val * 524288 + a.val * 8192 + b.val * 128 := one (rfl : encode (.ldfe d a b) = [0x4c000000 + d.val * 524288 + a.val * 8192 + b.val * 128]) he
  have hl := layR (c := 38) (d := d.val) (a := a.val) (b := b.val) (x := 0) (hw.trans (by clear * -; omega)) (d.isLt) (a.isLt) (b.isLt) (by decide)
  have e0 := hl.1
  have e1 : fld w 0 7 = 0 := hl.2.2.2.2
  have a1 : r6 w 19 = d := Fin.ext (hl.2.1)
  have a2 : r6 w 13 = a := Fin.ext (hl.2.2.1)
  have a3 : r6 w 7 = b := Fin.ext (hl.2.2.2.1)
  refine wf_ok (by rw [e0]; decide) ?_ hf
  rw [flat26 w _ e0]; unfold decode26
  simp only [e1, a1, a2, a3, Nat.reduceEqDiff, OfNat.ofNat_ne_zero, OfNat.zero_ne_ofNat, one_ne_zero, zero_ne_one, OfNat.one_ne_ofNat, OfNat.ofNat_ne_one, false_and, and_false, and_self, true_and, and_true, reduceIte]

theorem ldfeG (d : Fin 64) (a : Fin 64) (b : Fin 64) : Statement (.ldfeG d a b) := by
  intro hf w nx he
  have hw : w = 0x4c000001 + d.val * 524288 + a.val * 8192 + b.val * 128 := one (rfl : encode (.ldfeG d a b) = [0x4c000001 + d.val * 524288 + a.val * 8192 + b.val * 128]) he
  have hl := layR (c := 38) (d := d.val) (a := a.val) (b := b.val) (x := 1) (hw.trans (by clear * -; omega)) (d.isLt) (a.isLt) (b.isLt) (by decide)
  have e0 := hl.1
  have e1 : fld w 0 7 = 1 := hl.2.2.2.2
  have a1 : r6 w 19 = d := Fin.ext (hl.2.1)
  have a2 : r6 w 13 = a := Fin.ext (hl.2.2.1)
  have a3 : r6 w 7 = b := Fin.ext (hl.2.2.2.1)
  refine wf_ok (by rw [e0]; decide) ?_ hf
  rw [flat26 w _ e0]; unfold decode26
  simp only [e1, a1, a2, a3, Nat.reduceEqDiff, OfNat.ofNat_ne_zero, OfNat.zero_ne_ofNat, one_ne_zero, zero_ne_one, OfNat.one_ne_ofNat, OfNat.ofNat_ne_one, false_and, and_false, and_self, true_and, and_true, reduceIte]

theorem ldfeP (d : Fin 64) (a : Fin 64) (b : Fin 64) : Statement (.ldfeP d a b) := by
  intro hf w nx he
  have hw : w = 0x4c000002 + d.val * 524288 + a.val * 8192 + b.val * 128 := one (rfl : encode (.ldfeP d a b) = [0x4c000002 + d.val * 524288 + a.val * 8192 + b.val * 128]) he
  have hl := layR (c := 38) (d := d.val) (a := a.val) (b := b.val) (x := 2) (hw.trans (by clear * -; omega)) (d.isLt) (a.isLt) (b.isLt) (by decide)
  have e0 := hl.1
  have e1 : fld w 0 7 = 2 := hl.2.2.2.2
  have a1 : r6 w 19 = d := Fin.ext (hl.2.1)
  have a2 : r6 w 13 = a := Fin.ext (hl.2.2.1)
  have a3 : r6 w 7 = b := Fin.ext (hl.2.2.2.1)
  refine wf_ok (by rw [e0]; decide) ?_ hf
  rw [flat26 w _ e0]; unfold decode26
  simp only [e1, a1, a2, a3, Nat.reduceEqDiff, OfNat.ofNat_ne_zero, OfNat.zero_ne_ofNat, one_ne_zero, zero_ne_one, OfNat.one_ne_ofNat, OfNat.ofNat_ne_one, false_and, and_false, and_self, true_and, and_true, reduceIte]

theorem stfe (d : Fin 64) (a : Fin 64) (b : Fin 64) : Statement (.stfe d a b) := by
  intro hf w nx he
  have hw : w = 0x4c000003 + d.val * 524288 + a.val * 8192 + b.val * 128 := one (rfl : encode (.stfe d a b) = [0x4c000003 + d.val * 524288 + a.val * 8192 + b.val * 128]) he
  have hl := layR (c := 38) (d := d.val) (a := a.val) (b := b.val) (x := 3) (hw.trans (by clear * -; omega)) (d.isLt) (a.isLt) (b.isLt) (by decide)
  have e0 := hl.1
  have e1 : fld w 0 7 = 3 := hl.2.2.2.2
  have a1 : r6 w 19 = d := Fin.ext (hl.2.1)
  have a2 : r6 w 13 = a := Fin.ext (hl.2.2.1)
  have a3 : r6 w 7 = b := Fin.ext (hl.2.2.2.1)
  refine wf_ok (by rw [e0]; decide) ?_ hf
  rw [flat26 w _ e0]; unfold decode26
  simp only [e1, a1, a2, a3, Nat.reduceEqDiff, OfNat.ofNat_ne_zero, OfNat.zero_ne_ofNat, one_ne_zero, zero_ne_one, OfNat.one_ne_ofNat, OfNat.ofNat_ne_one, false_and, and_false, and_self, true_and, and_true, reduceIte]

theorem ldfeClr (d : Fin 64) (a : Fin 64) (b : Fin 64) : Statement (.ldfeClr d a b) := by
  intro hf w nx he
  have hw : w = 0x4c000004 + d.val * 524288 + a.val * 8192 + b.val * 128 := one (rfl : encode (.ldfeClr d a b) = [0x4c000004 + d.val * 524288 + a.val * 8192 + b.val * 128]) he
  have hl := layR (c := 38) (d := d.val) (a := a.val) (b := b.val) (x := 4) (hw.trans (by clear * -; omega)) (d.isLt) (a.isLt) (b.isLt) (by decide)
  have e0 := hl.1
  have e1 : fld w 0 7 = 4 := hl.2.2.2.2
  have a1 : r6 w 19 = d := Fin.ext (hl.2.1)
  have a2 : r6 w 13 = a := Fin.ext (hl.2.2.1)
  have a3 : r6 w 7 = b := Fin.ext (hl.2.2.2.1)
  refine wf_ok (by rw [e0]; decide) ?_ hf
  rw [flat26 w _ e0]; unfold decode26
  simp only [e1, a1, a2, a3, Nat.reduceEqDiff, OfNat.ofNat_ne_zero, OfNat.zero_ne_ofNat, one_ne_zero, zero_ne_one, OfNat.one_ne_ofNat, OfNat.ofNat_ne_one, false_and, and_false, and_self, true_and, and_true, reduceIte]

theorem ldfeClrG (d : Fin 64) (a : Fin 64) (b : Fin 64) : Statement (.ldfeClrG d a b) := by
  intro hf w nx he
  have hw : w = 0x4c000005 + d.val * 524288 + a.val * 8192 + b.val * 128 := one (rfl : encode (.ldfeClrG d a b) = [0x4c000005 + d.val * 524288 + a.val * 8192 + b.val * 128]) he
  have hl := layR (c := 38) (d := d.val) (a := a.val) (b := b.val) (x := 5) (hw.trans (by clear * -; omega)) (d.isLt) (a.isLt) (b.isLt) (by decide)
  have e0 := hl.1
  have e1 : fld w 0 7 = 5 := hl.2.2.2.2
  have a1 : r6 w 19 = d := Fin.ext (hl.2.1)
  have a2 : r6 w 13 = a := Fin.ext (hl.2.2.1)
  have a3 : r6 w 7 = b := Fin.ext (hl.2.2.2.1)
  refine wf_ok (by rw [e0]; decide) ?_ hf
  rw [flat26 w _ e0]; unfold decode26
  simp only [e1, a1, a2, a3, Nat.reduceEqDiff, OfNat.ofNat_ne_zero, OfNat.zero_ne_ofNat, one_ne_zero, zero_ne_one, OfNat.one_ne_ofNat, OfNat.ofNat_ne_one, false_and, and_false, and_self, true_and, and_true, reduceIte]

theorem ldfeClrP (d : Fin 64) (a : Fin 64) (b : Fin 64) : Statement (.ldfeClrP d a b) := by
  intro hf w nx he
  have hw : w = 0x4c000006 + d.val * 524288 + a.val * 8192 + b.val * 128 := one (rfl : encode (.ldfeClrP d a b) = [0x4c000006 + d.val * 524288 + a.val * 8192 + b.val * 128]) he
  have hl := layR (c := 38) (d := d.val) (a := a.val) (b := b.val) (x := 6) (hw.trans (by clear * -; omega)) (d.isLt) (a.isLt) (b.isLt) (by decide)
  have e0 := hl.1
  have e1 : fld w 0 7 = 6 := hl.2.2.2.2
  have a1 : r6 w 19 = d := Fin.ext (hl.2.1)
  have a2 : r6 w 13 = a := Fin.ext (hl.2.2.1)
  have a3 : r6 w 7 = b := Fin.ext (hl.2.2.2.1)
  refine wf_ok (by rw [e0]; decide) ?_ hf
  rw [flat26 w _ e0]; unfold decode26
  simp only [e1, a1, a2, a3, Nat.reduceEqDiff, OfNat.ofNat_ne_zero, OfNat.zero_ne_ofNat, one_ne_zero, zero_ne_one, OfNat.one_ne_ofNat, OfNat.ofNat_ne_one, false_and, and_false, and_self, true_and, and_true, reduceIte]

theorem stfeWait (d : Fin 64) (a : Fin 64) (b : Fin 64) : Statement (.stfeWait d a b) := by
  intro hf w nx he
  have hw : w = 0x4c000007 + d.val * 524288 + a.val * 8192 + b.val * 128 := one (rfl : encode (.stfeWait d a b) = [0x4c000007 + d.val * 524288 + a.val * 8192 + b.val * 128]) he
  have hl := layR (c := 38) (d := d.val) (a := a.val) (b := b.val) (x := 7) (hw.trans (by clear * -; omega)) (d.isLt) (a.isLt) (b.isLt) (by decide)
  have e0 := hl.1
  have e1 : fld w 0 7 = 7 := hl.2.2.2.2
  have a1 : r6 w 19 = d := Fin.ext (hl.2.1)
  have a2 : r6 w 13 = a := Fin.ext (hl.2.2.1)
  have a3 : r6 w 7 = b := Fin.ext (hl.2.2.2.1)
  refine wf_ok (by rw [e0]; decide) ?_ hf
  rw [flat26 w _ e0]; unfold decode26
  simp only [e1, a1, a2, a3, Nat.reduceEqDiff, OfNat.ofNat_ne_zero, OfNat.zero_ne_ofNat, one_ne_zero, zero_ne_one, OfNat.one_ne_ofNat, OfNat.ofNat_ne_one, false_and, and_false, and_self, true_and, and_true, reduceIte]

theorem amoAdd (d : Fin 64) (a : Fin 64) (b : Fin 64) (o : Fin 4) (z : Fin 2) : Statement (.amoAdd d a b o z) := by
  intro hf w nx he
  have hw : w = 0x4e000000 + d.val * 524288 + a.val * 8192 + b.val * 128 + o.val * 16 + z.val * 8 := one (rfl : encode (.amoAdd d a b o z) = [0x4e000000 + d.val * 524288 + a.val * 8192 + b.val * 128 + o.val * 16 + z.val * 8]) he
  have hl := layR (c := 39) (d := d.val) (a := a.val) (b := b.val) (x := o.val * 16 + z.val * 8) (hw.trans (by clear * -; omega)) (d.isLt) (a.isLt) (b.isLt) (by have b0 := o.isLt; have b1 := z.isLt; clear * - b0 b1; omega)
  have e0 := hl.1
  have e1 : fld w 0 3 = 0 := (part 0 7 0 3 hl.2.2.2.2 (by decide) (by decide)).trans (by have b0 := o.isLt; have b1 := z.isLt; clear * - b0 b1; omega)
  have e2 : fld w 6 1 = 0 := (part 0 7 6 1 hl.2.2.2.2 (by decide) (by decide)).trans (by have b0 := o.isLt; have b1 := z.isLt; clear * - b0 b1; omega)
  have a1 : r6 w 19 = d := Fin.ext (hl.2.1)
  have a2 : r6 w 13 = a := Fin.ext (hl.2.2.1)
  have a3 : r6 w 7 = b := Fin.ext (hl.2.2.2.1)
  have a4 : r2 w 4 = o := Fin.ext ((part 0 7 4 2 hl.2.2.2.2 (by decide) (by decide)).trans (by have b0 := o.isLt; have b1 := z.isLt; clear * - b0 b1; omega))
  have a5 : r1 w 3 = z := Fin.ext ((part 0 7 3 1 hl.2.2.2.2 (by decide) (by decide)).trans (by have b0 := o.isLt; have b1 := z.isLt; clear * - b0 b1; omega))
  refine wf_ok (by rw [e0]; decide) ?_ hf
  rw [flat27 w _ e0]; unfold decode27
  simp only [e1, e2, a1, a2, a3, a4, a5, Nat.reduceEqDiff, OfNat.ofNat_ne_zero, OfNat.zero_ne_ofNat, one_ne_zero, zero_ne_one, OfNat.one_ne_ofNat, OfNat.ofNat_ne_one, false_and, and_false, and_self, true_and, and_true, reduceIte]

theorem amoAnd (d : Fin 64) (a : Fin 64) (b : Fin 64) (o : Fin 4) (z : Fin 2) : Statement (.amoAnd d a b o z) := by
  intro hf w nx he
  have hw : w = 0x4e000001 + d.val * 524288 + a.val * 8192 + b.val * 128 + o.val * 16 + z.val * 8 := one (rfl : encode (.amoAnd d a b o z) = [0x4e000001 + d.val * 524288 + a.val * 8192 + b.val * 128 + o.val * 16 + z.val * 8]) he
  have hl := layR (c := 39) (d := d.val) (a := a.val) (b := b.val) (x := o.val * 16 + z.val * 8 + 1) (hw.trans (by clear * -; omega)) (d.isLt) (a.isLt) (b.isLt) (by have b0 := o.isLt; have b1 := z.isLt; clear * - b0 b1; omega)
  have e0 := hl.1
  have e1 : fld w 0 3 = 1 := (part 0 7 0 3 hl.2.2.2.2 (by decide) (by decide)).trans (by have b0 := o.isLt; have b1 := z.isLt; clear * - b0 b1; omega)
  have e2 : fld w 6 1 = 0 := (part 0 7 6 1 hl.2.2.2.2 (by decide) (by decide)).trans (by have b0 := o.isLt; have b1 := z.isLt; clear * - b0 b1; omega)
  have a1 : r6 w 19 = d := Fin.ext (hl.2.1)
  have a2 : r6 w 13 = a := Fin.ext (hl.2.2.1)
  have a3 : r6 w 7 = b := Fin.ext (hl.2.2.2.1)
  have a4 : r2 w 4 = o := Fin.ext ((part 0 7 4 2 hl.2.2.2.2 (by decide) (by decide)).trans (by have b0 := o.isLt; have b1 := z.isLt; clear * - b0 b1; omega))
  have a5 : r1 w 3 = z := Fin.ext ((part 0 7 3 1 hl.2.2.2.2 (by decide) (by decide)).trans (by have b0 := o.isLt; have b1 := z.isLt; clear * - b0 b1; omega))
  refine wf_ok (by rw [e0]; decide) ?_ hf
  rw [flat27 w _ e0]; unfold decode27
  simp only [e1, e2, a1, a2, a3, a4, a5, Nat.reduceEqDiff, OfNat.ofNat_ne_zero, OfNat.zero_ne_ofNat, one_ne_zero, zero_ne_one, OfNat.one_ne_ofNat, OfNat.ofNat_ne_one, false_and, and_false, and_self, true_and, and_true, reduceIte]

theorem amoOr (d : Fin 64) (a : Fin 64) (b : Fin 64) (o : Fin 4) (z : Fin 2) : Statement (.amoOr d a b o z) := by
  intro hf w nx he
  have hw : w = 0x4e000002 + d.val * 524288 + a.val * 8192 + b.val * 128 + o.val * 16 + z.val * 8 := one (rfl : encode (.amoOr d a b o z) = [0x4e000002 + d.val * 524288 + a.val * 8192 + b.val * 128 + o.val * 16 + z.val * 8]) he
  have hl := layR (c := 39) (d := d.val) (a := a.val) (b := b.val) (x := o.val * 16 + z.val * 8 + 2) (hw.trans (by clear * -; omega)) (d.isLt) (a.isLt) (b.isLt) (by have b0 := o.isLt; have b1 := z.isLt; clear * - b0 b1; omega)
  have e0 := hl.1
  have e1 : fld w 0 3 = 2 := (part 0 7 0 3 hl.2.2.2.2 (by decide) (by decide)).trans (by have b0 := o.isLt; have b1 := z.isLt; clear * - b0 b1; omega)
  have e2 : fld w 6 1 = 0 := (part 0 7 6 1 hl.2.2.2.2 (by decide) (by decide)).trans (by have b0 := o.isLt; have b1 := z.isLt; clear * - b0 b1; omega)
  have a1 : r6 w 19 = d := Fin.ext (hl.2.1)
  have a2 : r6 w 13 = a := Fin.ext (hl.2.2.1)
  have a3 : r6 w 7 = b := Fin.ext (hl.2.2.2.1)
  have a4 : r2 w 4 = o := Fin.ext ((part 0 7 4 2 hl.2.2.2.2 (by decide) (by decide)).trans (by have b0 := o.isLt; have b1 := z.isLt; clear * - b0 b1; omega))
  have a5 : r1 w 3 = z := Fin.ext ((part 0 7 3 1 hl.2.2.2.2 (by decide) (by decide)).trans (by have b0 := o.isLt; have b1 := z.isLt; clear * - b0 b1; omega))
  refine wf_ok (by rw [e0]; decide) ?_ hf
  rw [flat27 w _ e0]; unfold decode27
  simp only [e1, e2, a1, a2, a3, a4, a5, Nat.reduceEqDiff, OfNat.ofNat_ne_zero, OfNat.zero_ne_ofNat, one_ne_zero, zero_ne_one, OfNat.one_ne_ofNat, OfNat.ofNat_ne_one, false_and, and_false, and_self, true_and, and_true, reduceIte]

theorem amoXor (d : Fin 64) (a : Fin 64) (b : Fin 64) (o : Fin 4) (z : Fin 2) : Statement (.amoXor d a b o z) := by
  intro hf w nx he
  have hw : w = 0x4e000003 + d.val * 524288 + a.val * 8192 + b.val * 128 + o.val * 16 + z.val * 8 := one (rfl : encode (.amoXor d a b o z) = [0x4e000003 + d.val * 524288 + a.val * 8192 + b.val * 128 + o.val * 16 + z.val * 8]) he
  have hl := layR (c := 39) (d := d.val) (a := a.val) (b := b.val) (x := o.val * 16 + z.val * 8 + 3) (hw.trans (by clear * -; omega)) (d.isLt) (a.isLt) (b.isLt) (by have b0 := o.isLt; have b1 := z.isLt; clear * - b0 b1; omega)
  have e0 := hl.1
  have e1 : fld w 0 3 = 3 := (part 0 7 0 3 hl.2.2.2.2 (by decide) (by decide)).trans (by have b0 := o.isLt; have b1 := z.isLt; clear * - b0 b1; omega)
  have e2 : fld w 6 1 = 0 := (part 0 7 6 1 hl.2.2.2.2 (by decide) (by decide)).trans (by have b0 := o.isLt; have b1 := z.isLt; clear * - b0 b1; omega)
  have a1 : r6 w 19 = d := Fin.ext (hl.2.1)
  have a2 : r6 w 13 = a := Fin.ext (hl.2.2.1)
  have a3 : r6 w 7 = b := Fin.ext (hl.2.2.2.1)
  have a4 : r2 w 4 = o := Fin.ext ((part 0 7 4 2 hl.2.2.2.2 (by decide) (by decide)).trans (by have b0 := o.isLt; have b1 := z.isLt; clear * - b0 b1; omega))
  have a5 : r1 w 3 = z := Fin.ext ((part 0 7 3 1 hl.2.2.2.2 (by decide) (by decide)).trans (by have b0 := o.isLt; have b1 := z.isLt; clear * - b0 b1; omega))
  refine wf_ok (by rw [e0]; decide) ?_ hf
  rw [flat27 w _ e0]; unfold decode27
  simp only [e1, e2, a1, a2, a3, a4, a5, Nat.reduceEqDiff, OfNat.ofNat_ne_zero, OfNat.zero_ne_ofNat, one_ne_zero, zero_ne_one, OfNat.one_ne_ofNat, OfNat.ofNat_ne_one, false_and, and_false, and_self, true_and, and_true, reduceIte]

theorem amoMinU (d : Fin 64) (a : Fin 64) (b : Fin 64) (o : Fin 4) (z : Fin 2) : Statement (.amoMinU d a b o z) := by
  intro hf w nx he
  have hw : w = 0x4e000004 + d.val * 524288 + a.val * 8192 + b.val * 128 + o.val * 16 + z.val * 8 := one (rfl : encode (.amoMinU d a b o z) = [0x4e000004 + d.val * 524288 + a.val * 8192 + b.val * 128 + o.val * 16 + z.val * 8]) he
  have hl := layR (c := 39) (d := d.val) (a := a.val) (b := b.val) (x := o.val * 16 + z.val * 8 + 4) (hw.trans (by clear * -; omega)) (d.isLt) (a.isLt) (b.isLt) (by have b0 := o.isLt; have b1 := z.isLt; clear * - b0 b1; omega)
  have e0 := hl.1
  have e1 : fld w 0 3 = 4 := (part 0 7 0 3 hl.2.2.2.2 (by decide) (by decide)).trans (by have b0 := o.isLt; have b1 := z.isLt; clear * - b0 b1; omega)
  have e2 : fld w 6 1 = 0 := (part 0 7 6 1 hl.2.2.2.2 (by decide) (by decide)).trans (by have b0 := o.isLt; have b1 := z.isLt; clear * - b0 b1; omega)
  have a1 : r6 w 19 = d := Fin.ext (hl.2.1)
  have a2 : r6 w 13 = a := Fin.ext (hl.2.2.1)
  have a3 : r6 w 7 = b := Fin.ext (hl.2.2.2.1)
  have a4 : r2 w 4 = o := Fin.ext ((part 0 7 4 2 hl.2.2.2.2 (by decide) (by decide)).trans (by have b0 := o.isLt; have b1 := z.isLt; clear * - b0 b1; omega))
  have a5 : r1 w 3 = z := Fin.ext ((part 0 7 3 1 hl.2.2.2.2 (by decide) (by decide)).trans (by have b0 := o.isLt; have b1 := z.isLt; clear * - b0 b1; omega))
  refine wf_ok (by rw [e0]; decide) ?_ hf
  rw [flat27 w _ e0]; unfold decode27
  simp only [e1, e2, a1, a2, a3, a4, a5, Nat.reduceEqDiff, OfNat.ofNat_ne_zero, OfNat.zero_ne_ofNat, one_ne_zero, zero_ne_one, OfNat.one_ne_ofNat, OfNat.ofNat_ne_one, false_and, and_false, and_self, true_and, and_true, reduceIte]

theorem amoMaxU (d : Fin 64) (a : Fin 64) (b : Fin 64) (o : Fin 4) (z : Fin 2) : Statement (.amoMaxU d a b o z) := by
  intro hf w nx he
  have hw : w = 0x4e000005 + d.val * 524288 + a.val * 8192 + b.val * 128 + o.val * 16 + z.val * 8 := one (rfl : encode (.amoMaxU d a b o z) = [0x4e000005 + d.val * 524288 + a.val * 8192 + b.val * 128 + o.val * 16 + z.val * 8]) he
  have hl := layR (c := 39) (d := d.val) (a := a.val) (b := b.val) (x := o.val * 16 + z.val * 8 + 5) (hw.trans (by clear * -; omega)) (d.isLt) (a.isLt) (b.isLt) (by have b0 := o.isLt; have b1 := z.isLt; clear * - b0 b1; omega)
  have e0 := hl.1
  have e1 : fld w 0 3 = 5 := (part 0 7 0 3 hl.2.2.2.2 (by decide) (by decide)).trans (by have b0 := o.isLt; have b1 := z.isLt; clear * - b0 b1; omega)
  have e2 : fld w 6 1 = 0 := (part 0 7 6 1 hl.2.2.2.2 (by decide) (by decide)).trans (by have b0 := o.isLt; have b1 := z.isLt; clear * - b0 b1; omega)
  have a1 : r6 w 19 = d := Fin.ext (hl.2.1)
  have a2 : r6 w 13 = a := Fin.ext (hl.2.2.1)
  have a3 : r6 w 7 = b := Fin.ext (hl.2.2.2.1)
  have a4 : r2 w 4 = o := Fin.ext ((part 0 7 4 2 hl.2.2.2.2 (by decide) (by decide)).trans (by have b0 := o.isLt; have b1 := z.isLt; clear * - b0 b1; omega))
  have a5 : r1 w 3 = z := Fin.ext ((part 0 7 3 1 hl.2.2.2.2 (by decide) (by decide)).trans (by have b0 := o.isLt; have b1 := z.isLt; clear * - b0 b1; omega))
  refine wf_ok (by rw [e0]; decide) ?_ hf
  rw [flat27 w _ e0]; unfold decode27
  simp only [e1, e2, a1, a2, a3, a4, a5, Nat.reduceEqDiff, OfNat.ofNat_ne_zero, OfNat.zero_ne_ofNat, one_ne_zero, zero_ne_one, OfNat.one_ne_ofNat, OfNat.ofNat_ne_one, false_and, and_false, and_self, true_and, and_true, reduceIte]

theorem amoSwap (d : Fin 64) (a : Fin 64) (b : Fin 64) (o : Fin 4) (z : Fin 2) : Statement (.amoSwap d a b o z) := by
  intro hf w nx he
  have hw : w = 0x4e000006 + d.val * 524288 + a.val * 8192 + b.val * 128 + o.val * 16 + z.val * 8 := one (rfl : encode (.amoSwap d a b o z) = [0x4e000006 + d.val * 524288 + a.val * 8192 + b.val * 128 + o.val * 16 + z.val * 8]) he
  have hl := layR (c := 39) (d := d.val) (a := a.val) (b := b.val) (x := o.val * 16 + z.val * 8 + 6) (hw.trans (by clear * -; omega)) (d.isLt) (a.isLt) (b.isLt) (by have b0 := o.isLt; have b1 := z.isLt; clear * - b0 b1; omega)
  have e0 := hl.1
  have e1 : fld w 0 3 = 6 := (part 0 7 0 3 hl.2.2.2.2 (by decide) (by decide)).trans (by have b0 := o.isLt; have b1 := z.isLt; clear * - b0 b1; omega)
  have e2 : fld w 6 1 = 0 := (part 0 7 6 1 hl.2.2.2.2 (by decide) (by decide)).trans (by have b0 := o.isLt; have b1 := z.isLt; clear * - b0 b1; omega)
  have a1 : r6 w 19 = d := Fin.ext (hl.2.1)
  have a2 : r6 w 13 = a := Fin.ext (hl.2.2.1)
  have a3 : r6 w 7 = b := Fin.ext (hl.2.2.2.1)
  have a4 : r2 w 4 = o := Fin.ext ((part 0 7 4 2 hl.2.2.2.2 (by decide) (by decide)).trans (by have b0 := o.isLt; have b1 := z.isLt; clear * - b0 b1; omega))
  have a5 : r1 w 3 = z := Fin.ext ((part 0 7 3 1 hl.2.2.2.2 (by decide) (by decide)).trans (by have b0 := o.isLt; have b1 := z.isLt; clear * - b0 b1; omega))
  refine wf_ok (by rw [e0]; decide) ?_ hf
  rw [flat27 w _ e0]; unfold decode27
  simp only [e1, e2, a1, a2, a3, a4, a5, Nat.reduceEqDiff, OfNat.ofNat_ne_zero, OfNat.zero_ne_ofNat, one_ne_zero, zero_ne_one, OfNat.one_ne_ofNat, OfNat.ofNat_ne_one, false_and, and_false, and_self, true_and, and_true, reduceIte]

theorem amoCas (d : Fin 64) (a : Fin 64) (b : Fin 64) (o : Fin 4) (z : Fin 2) : Statement (.amoCas d a b o z) := by
  intro hf w nx he
  have hw : w = 0x4e000007 + d.val * 524288 + a.val * 8192 + b.val * 128 + o.val * 16 + z.val * 8 := one (rfl : encode (.amoCas d a b o z) = [0x4e000007 + d.val * 524288 + a.val * 8192 + b.val * 128 + o.val * 16 + z.val * 8]) he
  have hl := layR (c := 39) (d := d.val) (a := a.val) (b := b.val) (x := o.val * 16 + z.val * 8 + 7) (hw.trans (by clear * -; omega)) (d.isLt) (a.isLt) (b.isLt) (by have b0 := o.isLt; have b1 := z.isLt; clear * - b0 b1; omega)
  have e0 := hl.1
  have e1 : fld w 0 3 = 7 := (part 0 7 0 3 hl.2.2.2.2 (by decide) (by decide)).trans (by have b0 := o.isLt; have b1 := z.isLt; clear * - b0 b1; omega)
  have e2 : fld w 6 1 = 0 := (part 0 7 6 1 hl.2.2.2.2 (by decide) (by decide)).trans (by have b0 := o.isLt; have b1 := z.isLt; clear * - b0 b1; omega)
  have a1 : r6 w 19 = d := Fin.ext (hl.2.1)
  have a2 : r6 w 13 = a := Fin.ext (hl.2.2.1)
  have a3 : r6 w 7 = b := Fin.ext (hl.2.2.2.1)
  have a4 : r2 w 4 = o := Fin.ext ((part 0 7 4 2 hl.2.2.2.2 (by decide) (by decide)).trans (by have b0 := o.isLt; have b1 := z.isLt; clear * - b0 b1; omega))
  have a5 : r1 w 3 = z := Fin.ext ((part 0 7 3 1 hl.2.2.2.2 (by decide) (by decide)).trans (by have b0 := o.isLt; have b1 := z.isLt; clear * - b0 b1; omega))
  refine wf_ok (by rw [e0]; decide) ?_ hf
  rw [flat27 w _ e0]; unfold decode27
  simp only [e1, e2, a1, a2, a3, a4, a5, Nat.reduceEqDiff, OfNat.ofNat_ne_zero, OfNat.zero_ne_ofNat, one_ne_zero, zero_ne_one, OfNat.one_ne_ofNat, OfNat.ofNat_ne_one, false_and, and_false, and_self, true_and, and_true, reduceIte]

theorem amoAddScoped (k : Fin 4) (d : Fin 64) (a : Fin 64) (b : Fin 64) (o : Fin 4) (z : Fin 2) : Statement (.amoAddScoped k d a b o z) := by
  intro hf w nx he
  rcases (by omega : k.val = 0 ∨ k.val = 1 ∨ k.val = 2 ∨ k.val = 3) with ht | ht | ht | ht
  · have hw : w = 0x58000000 + k.val * 33554432 + d.val * 524288 + a.val * 8192 + b.val * 128 + o.val * 16 + z.val * 8 := one (rfl : encode (.amoAddScoped k d a b o z) = [0x58000000 + k.val * 33554432 + d.val * 524288 + a.val * 8192 + b.val * 128 + o.val * 16 + z.val * 8]) he
    have hl := layR (c := 44) (d := d.val) (a := a.val) (b := b.val) (x := o.val * 16 + z.val * 8) (hw.trans (by clear * - ht; omega)) (d.isLt) (a.isLt) (b.isLt) (by have b0 := o.isLt; have b1 := z.isLt; clear * - b0 b1; omega)
    have e0 := hl.1
    have e1 : fld w 0 3 = 0 := (part 0 7 0 3 hl.2.2.2.2 (by decide) (by decide)).trans (by have b0 := o.isLt; have b1 := z.isLt; clear * - b0 b1; omega)
    have e2 : fld w 6 1 = 0 := (part 0 7 6 1 hl.2.2.2.2 (by decide) (by decide)).trans (by have b0 := o.isLt; have b1 := z.isLt; clear * - b0 b1; omega)
    have a1 : r2 w 25 = k := Fin.ext (by show w / 2 ^ 25 % 4 = k.val; clear * - hw ht; omega)
    have a2 : r6 w 19 = d := Fin.ext (hl.2.1)
    have a3 : r6 w 13 = a := Fin.ext (hl.2.2.1)
    have a4 : r6 w 7 = b := Fin.ext (hl.2.2.2.1)
    have a5 : r2 w 4 = o := Fin.ext ((part 0 7 4 2 hl.2.2.2.2 (by decide) (by decide)).trans (by have b0 := o.isLt; have b1 := z.isLt; clear * - b0 b1; omega))
    have a6 : r1 w 3 = z := Fin.ext ((part 0 7 3 1 hl.2.2.2.2 (by decide) (by decide)).trans (by have b0 := o.isLt; have b1 := z.isLt; clear * - b0 b1; omega))
    refine wf_ok (by rw [e0]; decide) ?_ hf
    rw [flat2C w _ e0]; unfold decode2C
    simp only [e1, e2, a1, a2, a3, a4, a5, a6, Nat.reduceEqDiff, OfNat.ofNat_ne_zero, OfNat.zero_ne_ofNat, one_ne_zero, zero_ne_one, OfNat.one_ne_ofNat, OfNat.ofNat_ne_one, false_and, and_false, and_self, true_and, and_true, reduceIte]
  · have hw : w = 0x58000000 + k.val * 33554432 + d.val * 524288 + a.val * 8192 + b.val * 128 + o.val * 16 + z.val * 8 := one (rfl : encode (.amoAddScoped k d a b o z) = [0x58000000 + k.val * 33554432 + d.val * 524288 + a.val * 8192 + b.val * 128 + o.val * 16 + z.val * 8]) he
    have hl := layR (c := 45) (d := d.val) (a := a.val) (b := b.val) (x := o.val * 16 + z.val * 8) (hw.trans (by clear * - ht; omega)) (d.isLt) (a.isLt) (b.isLt) (by have b0 := o.isLt; have b1 := z.isLt; clear * - b0 b1; omega)
    have e0 := hl.1
    have e1 : fld w 0 3 = 0 := (part 0 7 0 3 hl.2.2.2.2 (by decide) (by decide)).trans (by have b0 := o.isLt; have b1 := z.isLt; clear * - b0 b1; omega)
    have e2 : fld w 6 1 = 0 := (part 0 7 6 1 hl.2.2.2.2 (by decide) (by decide)).trans (by have b0 := o.isLt; have b1 := z.isLt; clear * - b0 b1; omega)
    have a1 : r2 w 25 = k := Fin.ext (by show w / 2 ^ 25 % 4 = k.val; clear * - hw ht; omega)
    have a2 : r6 w 19 = d := Fin.ext (hl.2.1)
    have a3 : r6 w 13 = a := Fin.ext (hl.2.2.1)
    have a4 : r6 w 7 = b := Fin.ext (hl.2.2.2.1)
    have a5 : r2 w 4 = o := Fin.ext ((part 0 7 4 2 hl.2.2.2.2 (by decide) (by decide)).trans (by have b0 := o.isLt; have b1 := z.isLt; clear * - b0 b1; omega))
    have a6 : r1 w 3 = z := Fin.ext ((part 0 7 3 1 hl.2.2.2.2 (by decide) (by decide)).trans (by have b0 := o.isLt; have b1 := z.isLt; clear * - b0 b1; omega))
    refine wf_ok (by rw [e0]; decide) ?_ hf
    rw [flat2D w _ e0]; unfold decode2D
    simp only [e1, e2, a1, a2, a3, a4, a5, a6, Nat.reduceEqDiff, OfNat.ofNat_ne_zero, OfNat.zero_ne_ofNat, one_ne_zero, zero_ne_one, OfNat.one_ne_ofNat, OfNat.ofNat_ne_one, false_and, and_false, and_self, true_and, and_true, reduceIte]
  · have hw : w = 0x58000000 + k.val * 33554432 + d.val * 524288 + a.val * 8192 + b.val * 128 + o.val * 16 + z.val * 8 := one (rfl : encode (.amoAddScoped k d a b o z) = [0x58000000 + k.val * 33554432 + d.val * 524288 + a.val * 8192 + b.val * 128 + o.val * 16 + z.val * 8]) he
    have hl := layR (c := 46) (d := d.val) (a := a.val) (b := b.val) (x := o.val * 16 + z.val * 8) (hw.trans (by clear * - ht; omega)) (d.isLt) (a.isLt) (b.isLt) (by have b0 := o.isLt; have b1 := z.isLt; clear * - b0 b1; omega)
    have e0 := hl.1
    have e1 : fld w 0 3 = 0 := (part 0 7 0 3 hl.2.2.2.2 (by decide) (by decide)).trans (by have b0 := o.isLt; have b1 := z.isLt; clear * - b0 b1; omega)
    have e2 : fld w 6 1 = 0 := (part 0 7 6 1 hl.2.2.2.2 (by decide) (by decide)).trans (by have b0 := o.isLt; have b1 := z.isLt; clear * - b0 b1; omega)
    have a1 : r2 w 25 = k := Fin.ext (by show w / 2 ^ 25 % 4 = k.val; clear * - hw ht; omega)
    have a2 : r6 w 19 = d := Fin.ext (hl.2.1)
    have a3 : r6 w 13 = a := Fin.ext (hl.2.2.1)
    have a4 : r6 w 7 = b := Fin.ext (hl.2.2.2.1)
    have a5 : r2 w 4 = o := Fin.ext ((part 0 7 4 2 hl.2.2.2.2 (by decide) (by decide)).trans (by have b0 := o.isLt; have b1 := z.isLt; clear * - b0 b1; omega))
    have a6 : r1 w 3 = z := Fin.ext ((part 0 7 3 1 hl.2.2.2.2 (by decide) (by decide)).trans (by have b0 := o.isLt; have b1 := z.isLt; clear * - b0 b1; omega))
    refine wf_ok (by rw [e0]; decide) ?_ hf
    rw [flat2E w _ e0]; unfold decode2E
    simp only [e1, e2, a1, a2, a3, a4, a5, a6, Nat.reduceEqDiff, OfNat.ofNat_ne_zero, OfNat.zero_ne_ofNat, one_ne_zero, zero_ne_one, OfNat.one_ne_ofNat, OfNat.ofNat_ne_one, false_and, and_false, and_self, true_and, and_true, reduceIte]
  · have hw : w = 0x58000000 + k.val * 33554432 + d.val * 524288 + a.val * 8192 + b.val * 128 + o.val * 16 + z.val * 8 := one (rfl : encode (.amoAddScoped k d a b o z) = [0x58000000 + k.val * 33554432 + d.val * 524288 + a.val * 8192 + b.val * 128 + o.val * 16 + z.val * 8]) he
    have hl := layR (c := 47) (d := d.val) (a := a.val) (b := b.val) (x := o.val * 16 + z.val * 8) (hw.trans (by clear * - ht; omega)) (d.isLt) (a.isLt) (b.isLt) (by have b0 := o.isLt; have b1 := z.isLt; clear * - b0 b1; omega)
    have e0 := hl.1
    have e1 : fld w 0 3 = 0 := (part 0 7 0 3 hl.2.2.2.2 (by decide) (by decide)).trans (by have b0 := o.isLt; have b1 := z.isLt; clear * - b0 b1; omega)
    have e2 : fld w 6 1 = 0 := (part 0 7 6 1 hl.2.2.2.2 (by decide) (by decide)).trans (by have b0 := o.isLt; have b1 := z.isLt; clear * - b0 b1; omega)
    have a1 : r2 w 25 = k := Fin.ext (by show w / 2 ^ 25 % 4 = k.val; clear * - hw ht; omega)
    have a2 : r6 w 19 = d := Fin.ext (hl.2.1)
    have a3 : r6 w 13 = a := Fin.ext (hl.2.2.1)
    have a4 : r6 w 7 = b := Fin.ext (hl.2.2.2.1)
    have a5 : r2 w 4 = o := Fin.ext ((part 0 7 4 2 hl.2.2.2.2 (by decide) (by decide)).trans (by have b0 := o.isLt; have b1 := z.isLt; clear * - b0 b1; omega))
    have a6 : r1 w 3 = z := Fin.ext ((part 0 7 3 1 hl.2.2.2.2 (by decide) (by decide)).trans (by have b0 := o.isLt; have b1 := z.isLt; clear * - b0 b1; omega))
    refine wf_ok (by rw [e0]; decide) ?_ hf
    rw [flat2F w _ e0]; unfold decode2F
    simp only [e1, e2, a1, a2, a3, a4, a5, a6, Nat.reduceEqDiff, OfNat.ofNat_ne_zero, OfNat.zero_ne_ofNat, one_ne_zero, zero_ne_one, OfNat.one_ne_ofNat, OfNat.ofNat_ne_one, false_and, and_false, and_self, true_and, and_true, reduceIte]

theorem amoAndScoped (k : Fin 4) (d : Fin 64) (a : Fin 64) (b : Fin 64) (o : Fin 4) (z : Fin 2) : Statement (.amoAndScoped k d a b o z) := by
  intro hf w nx he
  rcases (by omega : k.val = 0 ∨ k.val = 1 ∨ k.val = 2 ∨ k.val = 3) with ht | ht | ht | ht
  · have hw : w = 0x58000001 + k.val * 33554432 + d.val * 524288 + a.val * 8192 + b.val * 128 + o.val * 16 + z.val * 8 := one (rfl : encode (.amoAndScoped k d a b o z) = [0x58000001 + k.val * 33554432 + d.val * 524288 + a.val * 8192 + b.val * 128 + o.val * 16 + z.val * 8]) he
    have hl := layR (c := 44) (d := d.val) (a := a.val) (b := b.val) (x := o.val * 16 + z.val * 8 + 1) (hw.trans (by clear * - ht; omega)) (d.isLt) (a.isLt) (b.isLt) (by have b0 := o.isLt; have b1 := z.isLt; clear * - b0 b1; omega)
    have e0 := hl.1
    have e1 : fld w 0 3 = 1 := (part 0 7 0 3 hl.2.2.2.2 (by decide) (by decide)).trans (by have b0 := o.isLt; have b1 := z.isLt; clear * - b0 b1; omega)
    have e2 : fld w 6 1 = 0 := (part 0 7 6 1 hl.2.2.2.2 (by decide) (by decide)).trans (by have b0 := o.isLt; have b1 := z.isLt; clear * - b0 b1; omega)
    have a1 : r2 w 25 = k := Fin.ext (by show w / 2 ^ 25 % 4 = k.val; clear * - hw ht; omega)
    have a2 : r6 w 19 = d := Fin.ext (hl.2.1)
    have a3 : r6 w 13 = a := Fin.ext (hl.2.2.1)
    have a4 : r6 w 7 = b := Fin.ext (hl.2.2.2.1)
    have a5 : r2 w 4 = o := Fin.ext ((part 0 7 4 2 hl.2.2.2.2 (by decide) (by decide)).trans (by have b0 := o.isLt; have b1 := z.isLt; clear * - b0 b1; omega))
    have a6 : r1 w 3 = z := Fin.ext ((part 0 7 3 1 hl.2.2.2.2 (by decide) (by decide)).trans (by have b0 := o.isLt; have b1 := z.isLt; clear * - b0 b1; omega))
    refine wf_ok (by rw [e0]; decide) ?_ hf
    rw [flat2C w _ e0]; unfold decode2C
    simp only [e1, e2, a1, a2, a3, a4, a5, a6, Nat.reduceEqDiff, OfNat.ofNat_ne_zero, OfNat.zero_ne_ofNat, one_ne_zero, zero_ne_one, OfNat.one_ne_ofNat, OfNat.ofNat_ne_one, false_and, and_false, and_self, true_and, and_true, reduceIte]
  · have hw : w = 0x58000001 + k.val * 33554432 + d.val * 524288 + a.val * 8192 + b.val * 128 + o.val * 16 + z.val * 8 := one (rfl : encode (.amoAndScoped k d a b o z) = [0x58000001 + k.val * 33554432 + d.val * 524288 + a.val * 8192 + b.val * 128 + o.val * 16 + z.val * 8]) he
    have hl := layR (c := 45) (d := d.val) (a := a.val) (b := b.val) (x := o.val * 16 + z.val * 8 + 1) (hw.trans (by clear * - ht; omega)) (d.isLt) (a.isLt) (b.isLt) (by have b0 := o.isLt; have b1 := z.isLt; clear * - b0 b1; omega)
    have e0 := hl.1
    have e1 : fld w 0 3 = 1 := (part 0 7 0 3 hl.2.2.2.2 (by decide) (by decide)).trans (by have b0 := o.isLt; have b1 := z.isLt; clear * - b0 b1; omega)
    have e2 : fld w 6 1 = 0 := (part 0 7 6 1 hl.2.2.2.2 (by decide) (by decide)).trans (by have b0 := o.isLt; have b1 := z.isLt; clear * - b0 b1; omega)
    have a1 : r2 w 25 = k := Fin.ext (by show w / 2 ^ 25 % 4 = k.val; clear * - hw ht; omega)
    have a2 : r6 w 19 = d := Fin.ext (hl.2.1)
    have a3 : r6 w 13 = a := Fin.ext (hl.2.2.1)
    have a4 : r6 w 7 = b := Fin.ext (hl.2.2.2.1)
    have a5 : r2 w 4 = o := Fin.ext ((part 0 7 4 2 hl.2.2.2.2 (by decide) (by decide)).trans (by have b0 := o.isLt; have b1 := z.isLt; clear * - b0 b1; omega))
    have a6 : r1 w 3 = z := Fin.ext ((part 0 7 3 1 hl.2.2.2.2 (by decide) (by decide)).trans (by have b0 := o.isLt; have b1 := z.isLt; clear * - b0 b1; omega))
    refine wf_ok (by rw [e0]; decide) ?_ hf
    rw [flat2D w _ e0]; unfold decode2D
    simp only [e1, e2, a1, a2, a3, a4, a5, a6, Nat.reduceEqDiff, OfNat.ofNat_ne_zero, OfNat.zero_ne_ofNat, one_ne_zero, zero_ne_one, OfNat.one_ne_ofNat, OfNat.ofNat_ne_one, false_and, and_false, and_self, true_and, and_true, reduceIte]
  · have hw : w = 0x58000001 + k.val * 33554432 + d.val * 524288 + a.val * 8192 + b.val * 128 + o.val * 16 + z.val * 8 := one (rfl : encode (.amoAndScoped k d a b o z) = [0x58000001 + k.val * 33554432 + d.val * 524288 + a.val * 8192 + b.val * 128 + o.val * 16 + z.val * 8]) he
    have hl := layR (c := 46) (d := d.val) (a := a.val) (b := b.val) (x := o.val * 16 + z.val * 8 + 1) (hw.trans (by clear * - ht; omega)) (d.isLt) (a.isLt) (b.isLt) (by have b0 := o.isLt; have b1 := z.isLt; clear * - b0 b1; omega)
    have e0 := hl.1
    have e1 : fld w 0 3 = 1 := (part 0 7 0 3 hl.2.2.2.2 (by decide) (by decide)).trans (by have b0 := o.isLt; have b1 := z.isLt; clear * - b0 b1; omega)
    have e2 : fld w 6 1 = 0 := (part 0 7 6 1 hl.2.2.2.2 (by decide) (by decide)).trans (by have b0 := o.isLt; have b1 := z.isLt; clear * - b0 b1; omega)
    have a1 : r2 w 25 = k := Fin.ext (by show w / 2 ^ 25 % 4 = k.val; clear * - hw ht; omega)
    have a2 : r6 w 19 = d := Fin.ext (hl.2.1)
    have a3 : r6 w 13 = a := Fin.ext (hl.2.2.1)
    have a4 : r6 w 7 = b := Fin.ext (hl.2.2.2.1)
    have a5 : r2 w 4 = o := Fin.ext ((part 0 7 4 2 hl.2.2.2.2 (by decide) (by decide)).trans (by have b0 := o.isLt; have b1 := z.isLt; clear * - b0 b1; omega))
    have a6 : r1 w 3 = z := Fin.ext ((part 0 7 3 1 hl.2.2.2.2 (by decide) (by decide)).trans (by have b0 := o.isLt; have b1 := z.isLt; clear * - b0 b1; omega))
    refine wf_ok (by rw [e0]; decide) ?_ hf
    rw [flat2E w _ e0]; unfold decode2E
    simp only [e1, e2, a1, a2, a3, a4, a5, a6, Nat.reduceEqDiff, OfNat.ofNat_ne_zero, OfNat.zero_ne_ofNat, one_ne_zero, zero_ne_one, OfNat.one_ne_ofNat, OfNat.ofNat_ne_one, false_and, and_false, and_self, true_and, and_true, reduceIte]
  · have hw : w = 0x58000001 + k.val * 33554432 + d.val * 524288 + a.val * 8192 + b.val * 128 + o.val * 16 + z.val * 8 := one (rfl : encode (.amoAndScoped k d a b o z) = [0x58000001 + k.val * 33554432 + d.val * 524288 + a.val * 8192 + b.val * 128 + o.val * 16 + z.val * 8]) he
    have hl := layR (c := 47) (d := d.val) (a := a.val) (b := b.val) (x := o.val * 16 + z.val * 8 + 1) (hw.trans (by clear * - ht; omega)) (d.isLt) (a.isLt) (b.isLt) (by have b0 := o.isLt; have b1 := z.isLt; clear * - b0 b1; omega)
    have e0 := hl.1
    have e1 : fld w 0 3 = 1 := (part 0 7 0 3 hl.2.2.2.2 (by decide) (by decide)).trans (by have b0 := o.isLt; have b1 := z.isLt; clear * - b0 b1; omega)
    have e2 : fld w 6 1 = 0 := (part 0 7 6 1 hl.2.2.2.2 (by decide) (by decide)).trans (by have b0 := o.isLt; have b1 := z.isLt; clear * - b0 b1; omega)
    have a1 : r2 w 25 = k := Fin.ext (by show w / 2 ^ 25 % 4 = k.val; clear * - hw ht; omega)
    have a2 : r6 w 19 = d := Fin.ext (hl.2.1)
    have a3 : r6 w 13 = a := Fin.ext (hl.2.2.1)
    have a4 : r6 w 7 = b := Fin.ext (hl.2.2.2.1)
    have a5 : r2 w 4 = o := Fin.ext ((part 0 7 4 2 hl.2.2.2.2 (by decide) (by decide)).trans (by have b0 := o.isLt; have b1 := z.isLt; clear * - b0 b1; omega))
    have a6 : r1 w 3 = z := Fin.ext ((part 0 7 3 1 hl.2.2.2.2 (by decide) (by decide)).trans (by have b0 := o.isLt; have b1 := z.isLt; clear * - b0 b1; omega))
    refine wf_ok (by rw [e0]; decide) ?_ hf
    rw [flat2F w _ e0]; unfold decode2F
    simp only [e1, e2, a1, a2, a3, a4, a5, a6, Nat.reduceEqDiff, OfNat.ofNat_ne_zero, OfNat.zero_ne_ofNat, one_ne_zero, zero_ne_one, OfNat.one_ne_ofNat, OfNat.ofNat_ne_one, false_and, and_false, and_self, true_and, and_true, reduceIte]

theorem amoOrScoped (k : Fin 4) (d : Fin 64) (a : Fin 64) (b : Fin 64) (o : Fin 4) (z : Fin 2) : Statement (.amoOrScoped k d a b o z) := by
  intro hf w nx he
  rcases (by omega : k.val = 0 ∨ k.val = 1 ∨ k.val = 2 ∨ k.val = 3) with ht | ht | ht | ht
  · have hw : w = 0x58000002 + k.val * 33554432 + d.val * 524288 + a.val * 8192 + b.val * 128 + o.val * 16 + z.val * 8 := one (rfl : encode (.amoOrScoped k d a b o z) = [0x58000002 + k.val * 33554432 + d.val * 524288 + a.val * 8192 + b.val * 128 + o.val * 16 + z.val * 8]) he
    have hl := layR (c := 44) (d := d.val) (a := a.val) (b := b.val) (x := o.val * 16 + z.val * 8 + 2) (hw.trans (by clear * - ht; omega)) (d.isLt) (a.isLt) (b.isLt) (by have b0 := o.isLt; have b1 := z.isLt; clear * - b0 b1; omega)
    have e0 := hl.1
    have e1 : fld w 0 3 = 2 := (part 0 7 0 3 hl.2.2.2.2 (by decide) (by decide)).trans (by have b0 := o.isLt; have b1 := z.isLt; clear * - b0 b1; omega)
    have e2 : fld w 6 1 = 0 := (part 0 7 6 1 hl.2.2.2.2 (by decide) (by decide)).trans (by have b0 := o.isLt; have b1 := z.isLt; clear * - b0 b1; omega)
    have a1 : r2 w 25 = k := Fin.ext (by show w / 2 ^ 25 % 4 = k.val; clear * - hw ht; omega)
    have a2 : r6 w 19 = d := Fin.ext (hl.2.1)
    have a3 : r6 w 13 = a := Fin.ext (hl.2.2.1)
    have a4 : r6 w 7 = b := Fin.ext (hl.2.2.2.1)
    have a5 : r2 w 4 = o := Fin.ext ((part 0 7 4 2 hl.2.2.2.2 (by decide) (by decide)).trans (by have b0 := o.isLt; have b1 := z.isLt; clear * - b0 b1; omega))
    have a6 : r1 w 3 = z := Fin.ext ((part 0 7 3 1 hl.2.2.2.2 (by decide) (by decide)).trans (by have b0 := o.isLt; have b1 := z.isLt; clear * - b0 b1; omega))
    refine wf_ok (by rw [e0]; decide) ?_ hf
    rw [flat2C w _ e0]; unfold decode2C
    simp only [e1, e2, a1, a2, a3, a4, a5, a6, Nat.reduceEqDiff, OfNat.ofNat_ne_zero, OfNat.zero_ne_ofNat, one_ne_zero, zero_ne_one, OfNat.one_ne_ofNat, OfNat.ofNat_ne_one, false_and, and_false, and_self, true_and, and_true, reduceIte]
  · have hw : w = 0x58000002 + k.val * 33554432 + d.val * 524288 + a.val * 8192 + b.val * 128 + o.val * 16 + z.val * 8 := one (rfl : encode (.amoOrScoped k d a b o z) = [0x58000002 + k.val * 33554432 + d.val * 524288 + a.val * 8192 + b.val * 128 + o.val * 16 + z.val * 8]) he
    have hl := layR (c := 45) (d := d.val) (a := a.val) (b := b.val) (x := o.val * 16 + z.val * 8 + 2) (hw.trans (by clear * - ht; omega)) (d.isLt) (a.isLt) (b.isLt) (by have b0 := o.isLt; have b1 := z.isLt; clear * - b0 b1; omega)
    have e0 := hl.1
    have e1 : fld w 0 3 = 2 := (part 0 7 0 3 hl.2.2.2.2 (by decide) (by decide)).trans (by have b0 := o.isLt; have b1 := z.isLt; clear * - b0 b1; omega)
    have e2 : fld w 6 1 = 0 := (part 0 7 6 1 hl.2.2.2.2 (by decide) (by decide)).trans (by have b0 := o.isLt; have b1 := z.isLt; clear * - b0 b1; omega)
    have a1 : r2 w 25 = k := Fin.ext (by show w / 2 ^ 25 % 4 = k.val; clear * - hw ht; omega)
    have a2 : r6 w 19 = d := Fin.ext (hl.2.1)
    have a3 : r6 w 13 = a := Fin.ext (hl.2.2.1)
    have a4 : r6 w 7 = b := Fin.ext (hl.2.2.2.1)
    have a5 : r2 w 4 = o := Fin.ext ((part 0 7 4 2 hl.2.2.2.2 (by decide) (by decide)).trans (by have b0 := o.isLt; have b1 := z.isLt; clear * - b0 b1; omega))
    have a6 : r1 w 3 = z := Fin.ext ((part 0 7 3 1 hl.2.2.2.2 (by decide) (by decide)).trans (by have b0 := o.isLt; have b1 := z.isLt; clear * - b0 b1; omega))
    refine wf_ok (by rw [e0]; decide) ?_ hf
    rw [flat2D w _ e0]; unfold decode2D
    simp only [e1, e2, a1, a2, a3, a4, a5, a6, Nat.reduceEqDiff, OfNat.ofNat_ne_zero, OfNat.zero_ne_ofNat, one_ne_zero, zero_ne_one, OfNat.one_ne_ofNat, OfNat.ofNat_ne_one, false_and, and_false, and_self, true_and, and_true, reduceIte]
  · have hw : w = 0x58000002 + k.val * 33554432 + d.val * 524288 + a.val * 8192 + b.val * 128 + o.val * 16 + z.val * 8 := one (rfl : encode (.amoOrScoped k d a b o z) = [0x58000002 + k.val * 33554432 + d.val * 524288 + a.val * 8192 + b.val * 128 + o.val * 16 + z.val * 8]) he
    have hl := layR (c := 46) (d := d.val) (a := a.val) (b := b.val) (x := o.val * 16 + z.val * 8 + 2) (hw.trans (by clear * - ht; omega)) (d.isLt) (a.isLt) (b.isLt) (by have b0 := o.isLt; have b1 := z.isLt; clear * - b0 b1; omega)
    have e0 := hl.1
    have e1 : fld w 0 3 = 2 := (part 0 7 0 3 hl.2.2.2.2 (by decide) (by decide)).trans (by have b0 := o.isLt; have b1 := z.isLt; clear * - b0 b1; omega)
    have e2 : fld w 6 1 = 0 := (part 0 7 6 1 hl.2.2.2.2 (by decide) (by decide)).trans (by have b0 := o.isLt; have b1 := z.isLt; clear * - b0 b1; omega)
    have a1 : r2 w 25 = k := Fin.ext (by show w / 2 ^ 25 % 4 = k.val; clear * - hw ht; omega)
    have a2 : r6 w 19 = d := Fin.ext (hl.2.1)
    have a3 : r6 w 13 = a := Fin.ext (hl.2.2.1)
    have a4 : r6 w 7 = b := Fin.ext (hl.2.2.2.1)
    have a5 : r2 w 4 = o := Fin.ext ((part 0 7 4 2 hl.2.2.2.2 (by decide) (by decide)).trans (by have b0 := o.isLt; have b1 := z.isLt; clear * - b0 b1; omega))
    have a6 : r1 w 3 = z := Fin.ext ((part 0 7 3 1 hl.2.2.2.2 (by decide) (by decide)).trans (by have b0 := o.isLt; have b1 := z.isLt; clear * - b0 b1; omega))
    refine wf_ok (by rw [e0]; decide) ?_ hf
    rw [flat2E w _ e0]; unfold decode2E
    simp only [e1, e2, a1, a2, a3, a4, a5, a6, Nat.reduceEqDiff, OfNat.ofNat_ne_zero, OfNat.zero_ne_ofNat, one_ne_zero, zero_ne_one, OfNat.one_ne_ofNat, OfNat.ofNat_ne_one, false_and, and_false, and_self, true_and, and_true, reduceIte]
  · have hw : w = 0x58000002 + k.val * 33554432 + d.val * 524288 + a.val * 8192 + b.val * 128 + o.val * 16 + z.val * 8 := one (rfl : encode (.amoOrScoped k d a b o z) = [0x58000002 + k.val * 33554432 + d.val * 524288 + a.val * 8192 + b.val * 128 + o.val * 16 + z.val * 8]) he
    have hl := layR (c := 47) (d := d.val) (a := a.val) (b := b.val) (x := o.val * 16 + z.val * 8 + 2) (hw.trans (by clear * - ht; omega)) (d.isLt) (a.isLt) (b.isLt) (by have b0 := o.isLt; have b1 := z.isLt; clear * - b0 b1; omega)
    have e0 := hl.1
    have e1 : fld w 0 3 = 2 := (part 0 7 0 3 hl.2.2.2.2 (by decide) (by decide)).trans (by have b0 := o.isLt; have b1 := z.isLt; clear * - b0 b1; omega)
    have e2 : fld w 6 1 = 0 := (part 0 7 6 1 hl.2.2.2.2 (by decide) (by decide)).trans (by have b0 := o.isLt; have b1 := z.isLt; clear * - b0 b1; omega)
    have a1 : r2 w 25 = k := Fin.ext (by show w / 2 ^ 25 % 4 = k.val; clear * - hw ht; omega)
    have a2 : r6 w 19 = d := Fin.ext (hl.2.1)
    have a3 : r6 w 13 = a := Fin.ext (hl.2.2.1)
    have a4 : r6 w 7 = b := Fin.ext (hl.2.2.2.1)
    have a5 : r2 w 4 = o := Fin.ext ((part 0 7 4 2 hl.2.2.2.2 (by decide) (by decide)).trans (by have b0 := o.isLt; have b1 := z.isLt; clear * - b0 b1; omega))
    have a6 : r1 w 3 = z := Fin.ext ((part 0 7 3 1 hl.2.2.2.2 (by decide) (by decide)).trans (by have b0 := o.isLt; have b1 := z.isLt; clear * - b0 b1; omega))
    refine wf_ok (by rw [e0]; decide) ?_ hf
    rw [flat2F w _ e0]; unfold decode2F
    simp only [e1, e2, a1, a2, a3, a4, a5, a6, Nat.reduceEqDiff, OfNat.ofNat_ne_zero, OfNat.zero_ne_ofNat, one_ne_zero, zero_ne_one, OfNat.one_ne_ofNat, OfNat.ofNat_ne_one, false_and, and_false, and_self, true_and, and_true, reduceIte]

theorem amoXorScoped (k : Fin 4) (d : Fin 64) (a : Fin 64) (b : Fin 64) (o : Fin 4) (z : Fin 2) : Statement (.amoXorScoped k d a b o z) := by
  intro hf w nx he
  rcases (by omega : k.val = 0 ∨ k.val = 1 ∨ k.val = 2 ∨ k.val = 3) with ht | ht | ht | ht
  · have hw : w = 0x58000003 + k.val * 33554432 + d.val * 524288 + a.val * 8192 + b.val * 128 + o.val * 16 + z.val * 8 := one (rfl : encode (.amoXorScoped k d a b o z) = [0x58000003 + k.val * 33554432 + d.val * 524288 + a.val * 8192 + b.val * 128 + o.val * 16 + z.val * 8]) he
    have hl := layR (c := 44) (d := d.val) (a := a.val) (b := b.val) (x := o.val * 16 + z.val * 8 + 3) (hw.trans (by clear * - ht; omega)) (d.isLt) (a.isLt) (b.isLt) (by have b0 := o.isLt; have b1 := z.isLt; clear * - b0 b1; omega)
    have e0 := hl.1
    have e1 : fld w 0 3 = 3 := (part 0 7 0 3 hl.2.2.2.2 (by decide) (by decide)).trans (by have b0 := o.isLt; have b1 := z.isLt; clear * - b0 b1; omega)
    have e2 : fld w 6 1 = 0 := (part 0 7 6 1 hl.2.2.2.2 (by decide) (by decide)).trans (by have b0 := o.isLt; have b1 := z.isLt; clear * - b0 b1; omega)
    have a1 : r2 w 25 = k := Fin.ext (by show w / 2 ^ 25 % 4 = k.val; clear * - hw ht; omega)
    have a2 : r6 w 19 = d := Fin.ext (hl.2.1)
    have a3 : r6 w 13 = a := Fin.ext (hl.2.2.1)
    have a4 : r6 w 7 = b := Fin.ext (hl.2.2.2.1)
    have a5 : r2 w 4 = o := Fin.ext ((part 0 7 4 2 hl.2.2.2.2 (by decide) (by decide)).trans (by have b0 := o.isLt; have b1 := z.isLt; clear * - b0 b1; omega))
    have a6 : r1 w 3 = z := Fin.ext ((part 0 7 3 1 hl.2.2.2.2 (by decide) (by decide)).trans (by have b0 := o.isLt; have b1 := z.isLt; clear * - b0 b1; omega))
    refine wf_ok (by rw [e0]; decide) ?_ hf
    rw [flat2C w _ e0]; unfold decode2C
    simp only [e1, e2, a1, a2, a3, a4, a5, a6, Nat.reduceEqDiff, OfNat.ofNat_ne_zero, OfNat.zero_ne_ofNat, one_ne_zero, zero_ne_one, OfNat.one_ne_ofNat, OfNat.ofNat_ne_one, false_and, and_false, and_self, true_and, and_true, reduceIte]
  · have hw : w = 0x58000003 + k.val * 33554432 + d.val * 524288 + a.val * 8192 + b.val * 128 + o.val * 16 + z.val * 8 := one (rfl : encode (.amoXorScoped k d a b o z) = [0x58000003 + k.val * 33554432 + d.val * 524288 + a.val * 8192 + b.val * 128 + o.val * 16 + z.val * 8]) he
    have hl := layR (c := 45) (d := d.val) (a := a.val) (b := b.val) (x := o.val * 16 + z.val * 8 + 3) (hw.trans (by clear * - ht; omega)) (d.isLt) (a.isLt) (b.isLt) (by have b0 := o.isLt; have b1 := z.isLt; clear * - b0 b1; omega)
    have e0 := hl.1
    have e1 : fld w 0 3 = 3 := (part 0 7 0 3 hl.2.2.2.2 (by decide) (by decide)).trans (by have b0 := o.isLt; have b1 := z.isLt; clear * - b0 b1; omega)
    have e2 : fld w 6 1 = 0 := (part 0 7 6 1 hl.2.2.2.2 (by decide) (by decide)).trans (by have b0 := o.isLt; have b1 := z.isLt; clear * - b0 b1; omega)
    have a1 : r2 w 25 = k := Fin.ext (by show w / 2 ^ 25 % 4 = k.val; clear * - hw ht; omega)
    have a2 : r6 w 19 = d := Fin.ext (hl.2.1)
    have a3 : r6 w 13 = a := Fin.ext (hl.2.2.1)
    have a4 : r6 w 7 = b := Fin.ext (hl.2.2.2.1)
    have a5 : r2 w 4 = o := Fin.ext ((part 0 7 4 2 hl.2.2.2.2 (by decide) (by decide)).trans (by have b0 := o.isLt; have b1 := z.isLt; clear * - b0 b1; omega))
    have a6 : r1 w 3 = z := Fin.ext ((part 0 7 3 1 hl.2.2.2.2 (by decide) (by decide)).trans (by have b0 := o.isLt; have b1 := z.isLt; clear * - b0 b1; omega))
    refine wf_ok (by rw [e0]; decide) ?_ hf
    rw [flat2D w _ e0]; unfold decode2D
    simp only [e1, e2, a1, a2, a3, a4, a5, a6, Nat.reduceEqDiff, OfNat.ofNat_ne_zero, OfNat.zero_ne_ofNat, one_ne_zero, zero_ne_one, OfNat.one_ne_ofNat, OfNat.ofNat_ne_one, false_and, and_false, and_self, true_and, and_true, reduceIte]
  · have hw : w = 0x58000003 + k.val * 33554432 + d.val * 524288 + a.val * 8192 + b.val * 128 + o.val * 16 + z.val * 8 := one (rfl : encode (.amoXorScoped k d a b o z) = [0x58000003 + k.val * 33554432 + d.val * 524288 + a.val * 8192 + b.val * 128 + o.val * 16 + z.val * 8]) he
    have hl := layR (c := 46) (d := d.val) (a := a.val) (b := b.val) (x := o.val * 16 + z.val * 8 + 3) (hw.trans (by clear * - ht; omega)) (d.isLt) (a.isLt) (b.isLt) (by have b0 := o.isLt; have b1 := z.isLt; clear * - b0 b1; omega)
    have e0 := hl.1
    have e1 : fld w 0 3 = 3 := (part 0 7 0 3 hl.2.2.2.2 (by decide) (by decide)).trans (by have b0 := o.isLt; have b1 := z.isLt; clear * - b0 b1; omega)
    have e2 : fld w 6 1 = 0 := (part 0 7 6 1 hl.2.2.2.2 (by decide) (by decide)).trans (by have b0 := o.isLt; have b1 := z.isLt; clear * - b0 b1; omega)
    have a1 : r2 w 25 = k := Fin.ext (by show w / 2 ^ 25 % 4 = k.val; clear * - hw ht; omega)
    have a2 : r6 w 19 = d := Fin.ext (hl.2.1)
    have a3 : r6 w 13 = a := Fin.ext (hl.2.2.1)
    have a4 : r6 w 7 = b := Fin.ext (hl.2.2.2.1)
    have a5 : r2 w 4 = o := Fin.ext ((part 0 7 4 2 hl.2.2.2.2 (by decide) (by decide)).trans (by have b0 := o.isLt; have b1 := z.isLt; clear * - b0 b1; omega))
    have a6 : r1 w 3 = z := Fin.ext ((part 0 7 3 1 hl.2.2.2.2 (by decide) (by decide)).trans (by have b0 := o.isLt; have b1 := z.isLt; clear * - b0 b1; omega))
    refine wf_ok (by rw [e0]; decide) ?_ hf
    rw [flat2E w _ e0]; unfold decode2E
    simp only [e1, e2, a1, a2, a3, a4, a5, a6, Nat.reduceEqDiff, OfNat.ofNat_ne_zero, OfNat.zero_ne_ofNat, one_ne_zero, zero_ne_one, OfNat.one_ne_ofNat, OfNat.ofNat_ne_one, false_and, and_false, and_self, true_and, and_true, reduceIte]
  · have hw : w = 0x58000003 + k.val * 33554432 + d.val * 524288 + a.val * 8192 + b.val * 128 + o.val * 16 + z.val * 8 := one (rfl : encode (.amoXorScoped k d a b o z) = [0x58000003 + k.val * 33554432 + d.val * 524288 + a.val * 8192 + b.val * 128 + o.val * 16 + z.val * 8]) he
    have hl := layR (c := 47) (d := d.val) (a := a.val) (b := b.val) (x := o.val * 16 + z.val * 8 + 3) (hw.trans (by clear * - ht; omega)) (d.isLt) (a.isLt) (b.isLt) (by have b0 := o.isLt; have b1 := z.isLt; clear * - b0 b1; omega)
    have e0 := hl.1
    have e1 : fld w 0 3 = 3 := (part 0 7 0 3 hl.2.2.2.2 (by decide) (by decide)).trans (by have b0 := o.isLt; have b1 := z.isLt; clear * - b0 b1; omega)
    have e2 : fld w 6 1 = 0 := (part 0 7 6 1 hl.2.2.2.2 (by decide) (by decide)).trans (by have b0 := o.isLt; have b1 := z.isLt; clear * - b0 b1; omega)
    have a1 : r2 w 25 = k := Fin.ext (by show w / 2 ^ 25 % 4 = k.val; clear * - hw ht; omega)
    have a2 : r6 w 19 = d := Fin.ext (hl.2.1)
    have a3 : r6 w 13 = a := Fin.ext (hl.2.2.1)
    have a4 : r6 w 7 = b := Fin.ext (hl.2.2.2.1)
    have a5 : r2 w 4 = o := Fin.ext ((part 0 7 4 2 hl.2.2.2.2 (by decide) (by decide)).trans (by have b0 := o.isLt; have b1 := z.isLt; clear * - b0 b1; omega))
    have a6 : r1 w 3 = z := Fin.ext ((part 0 7 3 1 hl.2.2.2.2 (by decide) (by decide)).trans (by have b0 := o.isLt; have b1 := z.isLt; clear * - b0 b1; omega))
    refine wf_ok (by rw [e0]; decide) ?_ hf
    rw [flat2F w _ e0]; unfold decode2F
    simp only [e1, e2, a1, a2, a3, a4, a5, a6, Nat.reduceEqDiff, OfNat.ofNat_ne_zero, OfNat.zero_ne_ofNat, one_ne_zero, zero_ne_one, OfNat.one_ne_ofNat, OfNat.ofNat_ne_one, false_and, and_false, and_self, true_and, and_true, reduceIte]

theorem amoMinUScoped (k : Fin 4) (d : Fin 64) (a : Fin 64) (b : Fin 64) (o : Fin 4) (z : Fin 2) : Statement (.amoMinUScoped k d a b o z) := by
  intro hf w nx he
  rcases (by omega : k.val = 0 ∨ k.val = 1 ∨ k.val = 2 ∨ k.val = 3) with ht | ht | ht | ht
  · have hw : w = 0x58000004 + k.val * 33554432 + d.val * 524288 + a.val * 8192 + b.val * 128 + o.val * 16 + z.val * 8 := one (rfl : encode (.amoMinUScoped k d a b o z) = [0x58000004 + k.val * 33554432 + d.val * 524288 + a.val * 8192 + b.val * 128 + o.val * 16 + z.val * 8]) he
    have hl := layR (c := 44) (d := d.val) (a := a.val) (b := b.val) (x := o.val * 16 + z.val * 8 + 4) (hw.trans (by clear * - ht; omega)) (d.isLt) (a.isLt) (b.isLt) (by have b0 := o.isLt; have b1 := z.isLt; clear * - b0 b1; omega)
    have e0 := hl.1
    have e1 : fld w 0 3 = 4 := (part 0 7 0 3 hl.2.2.2.2 (by decide) (by decide)).trans (by have b0 := o.isLt; have b1 := z.isLt; clear * - b0 b1; omega)
    have e2 : fld w 6 1 = 0 := (part 0 7 6 1 hl.2.2.2.2 (by decide) (by decide)).trans (by have b0 := o.isLt; have b1 := z.isLt; clear * - b0 b1; omega)
    have a1 : r2 w 25 = k := Fin.ext (by show w / 2 ^ 25 % 4 = k.val; clear * - hw ht; omega)
    have a2 : r6 w 19 = d := Fin.ext (hl.2.1)
    have a3 : r6 w 13 = a := Fin.ext (hl.2.2.1)
    have a4 : r6 w 7 = b := Fin.ext (hl.2.2.2.1)
    have a5 : r2 w 4 = o := Fin.ext ((part 0 7 4 2 hl.2.2.2.2 (by decide) (by decide)).trans (by have b0 := o.isLt; have b1 := z.isLt; clear * - b0 b1; omega))
    have a6 : r1 w 3 = z := Fin.ext ((part 0 7 3 1 hl.2.2.2.2 (by decide) (by decide)).trans (by have b0 := o.isLt; have b1 := z.isLt; clear * - b0 b1; omega))
    refine wf_ok (by rw [e0]; decide) ?_ hf
    rw [flat2C w _ e0]; unfold decode2C
    simp only [e1, e2, a1, a2, a3, a4, a5, a6, Nat.reduceEqDiff, OfNat.ofNat_ne_zero, OfNat.zero_ne_ofNat, one_ne_zero, zero_ne_one, OfNat.one_ne_ofNat, OfNat.ofNat_ne_one, false_and, and_false, and_self, true_and, and_true, reduceIte]
  · have hw : w = 0x58000004 + k.val * 33554432 + d.val * 524288 + a.val * 8192 + b.val * 128 + o.val * 16 + z.val * 8 := one (rfl : encode (.amoMinUScoped k d a b o z) = [0x58000004 + k.val * 33554432 + d.val * 524288 + a.val * 8192 + b.val * 128 + o.val * 16 + z.val * 8]) he
    have hl := layR (c := 45) (d := d.val) (a := a.val) (b := b.val) (x := o.val * 16 + z.val * 8 + 4) (hw.trans (by clear * - ht; omega)) (d.isLt) (a.isLt) (b.isLt) (by have b0 := o.isLt; have b1 := z.isLt; clear * - b0 b1; omega)
    have e0 := hl.1
    have e1 : fld w 0 3 = 4 := (part 0 7 0 3 hl.2.2.2.2 (by decide) (by decide)).trans (by have b0 := o.isLt; have b1 := z.isLt; clear * - b0 b1; omega)
    have e2 : fld w 6 1 = 0 := (part 0 7 6 1 hl.2.2.2.2 (by decide) (by decide)).trans (by have b0 := o.isLt; have b1 := z.isLt; clear * - b0 b1; omega)
    have a1 : r2 w 25 = k := Fin.ext (by show w / 2 ^ 25 % 4 = k.val; clear * - hw ht; omega)
    have a2 : r6 w 19 = d := Fin.ext (hl.2.1)
    have a3 : r6 w 13 = a := Fin.ext (hl.2.2.1)
    have a4 : r6 w 7 = b := Fin.ext (hl.2.2.2.1)
    have a5 : r2 w 4 = o := Fin.ext ((part 0 7 4 2 hl.2.2.2.2 (by decide) (by decide)).trans (by have b0 := o.isLt; have b1 := z.isLt; clear * - b0 b1; omega))
    have a6 : r1 w 3 = z := Fin.ext ((part 0 7 3 1 hl.2.2.2.2 (by decide) (by decide)).trans (by have b0 := o.isLt; have b1 := z.isLt; clear * - b0 b1; omega))
    refine wf_ok (by rw [e0]; decide) ?_ hf
    rw [flat2D w _ e0]; unfold decode2D
    simp only [e1, e2, a1, a2, a3, a4, a5, a6, Nat.reduceEqDiff, OfNat.ofNat_ne_zero, OfNat.zero_ne_ofNat, one_ne_zero, zero_ne_one, OfNat.one_ne_ofNat, OfNat.ofNat_ne_one, false_and, and_false, and_self, true_and, and_true, reduceIte]
  · have hw : w = 0x58000004 + k.val * 33554432 + d.val * 524288 + a.val * 8192 + b.val * 128 + o.val * 16 + z.val * 8 := one (rfl : encode (.amoMinUScoped k d a b o z) = [0x58000004 + k.val * 33554432 + d.val * 524288 + a.val * 8192 + b.val * 128 + o.val * 16 + z.val * 8]) he
    have hl := layR (c := 46) (d := d.val) (a := a.val) (b := b.val) (x := o.val * 16 + z.val * 8 + 4) (hw.trans (by clear * - ht; omega)) (d.isLt) (a.isLt) (b.isLt) (by have b0 := o.isLt; have b1 := z.isLt; clear * - b0 b1; omega)
    have e0 := hl.1
    have e1 : fld w 0 3 = 4 := (part 0 7 0 3 hl.2.2.2.2 (by decide) (by decide)).trans (by have b0 := o.isLt; have b1 := z.isLt; clear * - b0 b1; omega)
    have e2 : fld w 6 1 = 0 := (part 0 7 6 1 hl.2.2.2.2 (by decide) (by decide)).trans (by have b0 := o.isLt; have b1 := z.isLt; clear * - b0 b1; omega)
    have a1 : r2 w 25 = k := Fin.ext (by show w / 2 ^ 25 % 4 = k.val; clear * - hw ht; omega)
    have a2 : r6 w 19 = d := Fin.ext (hl.2.1)
    have a3 : r6 w 13 = a := Fin.ext (hl.2.2.1)
    have a4 : r6 w 7 = b := Fin.ext (hl.2.2.2.1)
    have a5 : r2 w 4 = o := Fin.ext ((part 0 7 4 2 hl.2.2.2.2 (by decide) (by decide)).trans (by have b0 := o.isLt; have b1 := z.isLt; clear * - b0 b1; omega))
    have a6 : r1 w 3 = z := Fin.ext ((part 0 7 3 1 hl.2.2.2.2 (by decide) (by decide)).trans (by have b0 := o.isLt; have b1 := z.isLt; clear * - b0 b1; omega))
    refine wf_ok (by rw [e0]; decide) ?_ hf
    rw [flat2E w _ e0]; unfold decode2E
    simp only [e1, e2, a1, a2, a3, a4, a5, a6, Nat.reduceEqDiff, OfNat.ofNat_ne_zero, OfNat.zero_ne_ofNat, one_ne_zero, zero_ne_one, OfNat.one_ne_ofNat, OfNat.ofNat_ne_one, false_and, and_false, and_self, true_and, and_true, reduceIte]
  · have hw : w = 0x58000004 + k.val * 33554432 + d.val * 524288 + a.val * 8192 + b.val * 128 + o.val * 16 + z.val * 8 := one (rfl : encode (.amoMinUScoped k d a b o z) = [0x58000004 + k.val * 33554432 + d.val * 524288 + a.val * 8192 + b.val * 128 + o.val * 16 + z.val * 8]) he
    have hl := layR (c := 47) (d := d.val) (a := a.val) (b := b.val) (x := o.val * 16 + z.val * 8 + 4) (hw.trans (by clear * - ht; omega)) (d.isLt) (a.isLt) (b.isLt) (by have b0 := o.isLt; have b1 := z.isLt; clear * - b0 b1; omega)
    have e0 := hl.1
    have e1 : fld w 0 3 = 4 := (part 0 7 0 3 hl.2.2.2.2 (by decide) (by decide)).trans (by have b0 := o.isLt; have b1 := z.isLt; clear * - b0 b1; omega)
    have e2 : fld w 6 1 = 0 := (part 0 7 6 1 hl.2.2.2.2 (by decide) (by decide)).trans (by have b0 := o.isLt; have b1 := z.isLt; clear * - b0 b1; omega)
    have a1 : r2 w 25 = k := Fin.ext (by show w / 2 ^ 25 % 4 = k.val; clear * - hw ht; omega)
    have a2 : r6 w 19 = d := Fin.ext (hl.2.1)
    have a3 : r6 w 13 = a := Fin.ext (hl.2.2.1)
    have a4 : r6 w 7 = b := Fin.ext (hl.2.2.2.1)
    have a5 : r2 w 4 = o := Fin.ext ((part 0 7 4 2 hl.2.2.2.2 (by decide) (by decide)).trans (by have b0 := o.isLt; have b1 := z.isLt; clear * - b0 b1; omega))
    have a6 : r1 w 3 = z := Fin.ext ((part 0 7 3 1 hl.2.2.2.2 (by decide) (by decide)).trans (by have b0 := o.isLt; have b1 := z.isLt; clear * - b0 b1; omega))
    refine wf_ok (by rw [e0]; decide) ?_ hf
    rw [flat2F w _ e0]; unfold decode2F
    simp only [e1, e2, a1, a2, a3, a4, a5, a6, Nat.reduceEqDiff, OfNat.ofNat_ne_zero, OfNat.zero_ne_ofNat, one_ne_zero, zero_ne_one, OfNat.one_ne_ofNat, OfNat.ofNat_ne_one, false_and, and_false, and_self, true_and, and_true, reduceIte]

theorem amoMaxUScoped (k : Fin 4) (d : Fin 64) (a : Fin 64) (b : Fin 64) (o : Fin 4) (z : Fin 2) : Statement (.amoMaxUScoped k d a b o z) := by
  intro hf w nx he
  rcases (by omega : k.val = 0 ∨ k.val = 1 ∨ k.val = 2 ∨ k.val = 3) with ht | ht | ht | ht
  · have hw : w = 0x58000005 + k.val * 33554432 + d.val * 524288 + a.val * 8192 + b.val * 128 + o.val * 16 + z.val * 8 := one (rfl : encode (.amoMaxUScoped k d a b o z) = [0x58000005 + k.val * 33554432 + d.val * 524288 + a.val * 8192 + b.val * 128 + o.val * 16 + z.val * 8]) he
    have hl := layR (c := 44) (d := d.val) (a := a.val) (b := b.val) (x := o.val * 16 + z.val * 8 + 5) (hw.trans (by clear * - ht; omega)) (d.isLt) (a.isLt) (b.isLt) (by have b0 := o.isLt; have b1 := z.isLt; clear * - b0 b1; omega)
    have e0 := hl.1
    have e1 : fld w 0 3 = 5 := (part 0 7 0 3 hl.2.2.2.2 (by decide) (by decide)).trans (by have b0 := o.isLt; have b1 := z.isLt; clear * - b0 b1; omega)
    have e2 : fld w 6 1 = 0 := (part 0 7 6 1 hl.2.2.2.2 (by decide) (by decide)).trans (by have b0 := o.isLt; have b1 := z.isLt; clear * - b0 b1; omega)
    have a1 : r2 w 25 = k := Fin.ext (by show w / 2 ^ 25 % 4 = k.val; clear * - hw ht; omega)
    have a2 : r6 w 19 = d := Fin.ext (hl.2.1)
    have a3 : r6 w 13 = a := Fin.ext (hl.2.2.1)
    have a4 : r6 w 7 = b := Fin.ext (hl.2.2.2.1)
    have a5 : r2 w 4 = o := Fin.ext ((part 0 7 4 2 hl.2.2.2.2 (by decide) (by decide)).trans (by have b0 := o.isLt; have b1 := z.isLt; clear * - b0 b1; omega))
    have a6 : r1 w 3 = z := Fin.ext ((part 0 7 3 1 hl.2.2.2.2 (by decide) (by decide)).trans (by have b0 := o.isLt; have b1 := z.isLt; clear * - b0 b1; omega))
    refine wf_ok (by rw [e0]; decide) ?_ hf
    rw [flat2C w _ e0]; unfold decode2C
    simp only [e1, e2, a1, a2, a3, a4, a5, a6, Nat.reduceEqDiff, OfNat.ofNat_ne_zero, OfNat.zero_ne_ofNat, one_ne_zero, zero_ne_one, OfNat.one_ne_ofNat, OfNat.ofNat_ne_one, false_and, and_false, and_self, true_and, and_true, reduceIte]
  · have hw : w = 0x58000005 + k.val * 33554432 + d.val * 524288 + a.val * 8192 + b.val * 128 + o.val * 16 + z.val * 8 := one (rfl : encode (.amoMaxUScoped k d a b o z) = [0x58000005 + k.val * 33554432 + d.val * 524288 + a.val * 8192 + b.val * 128 + o.val * 16 + z.val * 8]) he
    have hl := layR (c := 45) (d := d.val) (a := a.val) (b := b.val) (x := o.val * 16 + z.val * 8 + 5) (hw.trans (by clear * - ht; omega)) (d.isLt) (a.isLt) (b.isLt) (by have b0 := o.isLt; have b1 := z.isLt; clear * - b0 b1; omega)
    have e0 := hl.1
    have e1 : fld w 0 3 = 5 := (part 0 7 0 3 hl.2.2.2.2 (by decide) (by decide)).trans (by have b0 := o.isLt; have b1 := z.isLt; clear * - b0 b1; omega)
    have e2 : fld w 6 1 = 0 := (part 0 7 6 1 hl.2.2.2.2 (by decide) (by decide)).trans (by have b0 := o.isLt; have b1 := z.isLt; clear * - b0 b1; omega)
    have a1 : r2 w 25 = k := Fin.ext (by show w / 2 ^ 25 % 4 = k.val; clear * - hw ht; omega)
    have a2 : r6 w 19 = d := Fin.ext (hl.2.1)
    have a3 : r6 w 13 = a := Fin.ext (hl.2.2.1)
    have a4 : r6 w 7 = b := Fin.ext (hl.2.2.2.1)
    have a5 : r2 w 4 = o := Fin.ext ((part 0 7 4 2 hl.2.2.2.2 (by decide) (by decide)).trans (by have b0 := o.isLt; have b1 := z.isLt; clear * - b0 b1; omega))
    have a6 : r1 w 3 = z := Fin.ext ((part 0 7 3 1 hl.2.2.2.2 (by decide) (by decide)).trans (by have b0 := o.isLt; have b1 := z.isLt; clear * - b0 b1; omega))
    refine wf_ok (by rw [e0]; decide) ?_ hf
    rw [flat2D w _ e0]; unfold decode2D
    simp only [e1, e2, a1, a2, a3, a4, a5, a6, Nat.reduceEqDiff, OfNat.ofNat_ne_zero, OfNat.zero_ne_ofNat, one_ne_zero, zero_ne_one, OfNat.one_ne_ofNat, OfNat.ofNat_ne_one, false_and, and_false, and_self, true_and, and_true, reduceIte]
  · have hw : w = 0x58000005 + k.val * 33554432 + d.val * 524288 + a.val * 8192 + b.val * 128 + o.val * 16 + z.val * 8 := one (rfl : encode (.amoMaxUScoped k d a b o z) = [0x58000005 + k.val * 33554432 + d.val * 524288 + a.val * 8192 + b.val * 128 + o.val * 16 + z.val * 8]) he
    have hl := layR (c := 46) (d := d.val) (a := a.val) (b := b.val) (x := o.val * 16 + z.val * 8 + 5) (hw.trans (by clear * - ht; omega)) (d.isLt) (a.isLt) (b.isLt) (by have b0 := o.isLt; have b1 := z.isLt; clear * - b0 b1; omega)
    have e0 := hl.1
    have e1 : fld w 0 3 = 5 := (part 0 7 0 3 hl.2.2.2.2 (by decide) (by decide)).trans (by have b0 := o.isLt; have b1 := z.isLt; clear * - b0 b1; omega)
    have e2 : fld w 6 1 = 0 := (part 0 7 6 1 hl.2.2.2.2 (by decide) (by decide)).trans (by have b0 := o.isLt; have b1 := z.isLt; clear * - b0 b1; omega)
    have a1 : r2 w 25 = k := Fin.ext (by show w / 2 ^ 25 % 4 = k.val; clear * - hw ht; omega)
    have a2 : r6 w 19 = d := Fin.ext (hl.2.1)
    have a3 : r6 w 13 = a := Fin.ext (hl.2.2.1)
    have a4 : r6 w 7 = b := Fin.ext (hl.2.2.2.1)
    have a5 : r2 w 4 = o := Fin.ext ((part 0 7 4 2 hl.2.2.2.2 (by decide) (by decide)).trans (by have b0 := o.isLt; have b1 := z.isLt; clear * - b0 b1; omega))
    have a6 : r1 w 3 = z := Fin.ext ((part 0 7 3 1 hl.2.2.2.2 (by decide) (by decide)).trans (by have b0 := o.isLt; have b1 := z.isLt; clear * - b0 b1; omega))
    refine wf_ok (by rw [e0]; decide) ?_ hf
    rw [flat2E w _ e0]; unfold decode2E
    simp only [e1, e2, a1, a2, a3, a4, a5, a6, Nat.reduceEqDiff, OfNat.ofNat_ne_zero, OfNat.zero_ne_ofNat, one_ne_zero, zero_ne_one, OfNat.one_ne_ofNat, OfNat.ofNat_ne_one, false_and, and_false, and_self, true_and, and_true, reduceIte]
  · have hw : w = 0x58000005 + k.val * 33554432 + d.val * 524288 + a.val * 8192 + b.val * 128 + o.val * 16 + z.val * 8 := one (rfl : encode (.amoMaxUScoped k d a b o z) = [0x58000005 + k.val * 33554432 + d.val * 524288 + a.val * 8192 + b.val * 128 + o.val * 16 + z.val * 8]) he
    have hl := layR (c := 47) (d := d.val) (a := a.val) (b := b.val) (x := o.val * 16 + z.val * 8 + 5) (hw.trans (by clear * - ht; omega)) (d.isLt) (a.isLt) (b.isLt) (by have b0 := o.isLt; have b1 := z.isLt; clear * - b0 b1; omega)
    have e0 := hl.1
    have e1 : fld w 0 3 = 5 := (part 0 7 0 3 hl.2.2.2.2 (by decide) (by decide)).trans (by have b0 := o.isLt; have b1 := z.isLt; clear * - b0 b1; omega)
    have e2 : fld w 6 1 = 0 := (part 0 7 6 1 hl.2.2.2.2 (by decide) (by decide)).trans (by have b0 := o.isLt; have b1 := z.isLt; clear * - b0 b1; omega)
    have a1 : r2 w 25 = k := Fin.ext (by show w / 2 ^ 25 % 4 = k.val; clear * - hw ht; omega)
    have a2 : r6 w 19 = d := Fin.ext (hl.2.1)
    have a3 : r6 w 13 = a := Fin.ext (hl.2.2.1)
    have a4 : r6 w 7 = b := Fin.ext (hl.2.2.2.1)
    have a5 : r2 w 4 = o := Fin.ext ((part 0 7 4 2 hl.2.2.2.2 (by decide) (by decide)).trans (by have b0 := o.isLt; have b1 := z.isLt; clear * - b0 b1; omega))
    have a6 : r1 w 3 = z := Fin.ext ((part 0 7 3 1 hl.2.2.2.2 (by decide) (by decide)).trans (by have b0 := o.isLt; have b1 := z.isLt; clear * - b0 b1; omega))
    refine wf_ok (by rw [e0]; decide) ?_ hf
    rw [flat2F w _ e0]; unfold decode2F
    simp only [e1, e2, a1, a2, a3, a4, a5, a6, Nat.reduceEqDiff, OfNat.ofNat_ne_zero, OfNat.zero_ne_ofNat, one_ne_zero, zero_ne_one, OfNat.one_ne_ofNat, OfNat.ofNat_ne_one, false_and, and_false, and_self, true_and, and_true, reduceIte]

theorem amoSwapScoped (k : Fin 4) (d : Fin 64) (a : Fin 64) (b : Fin 64) (o : Fin 4) (z : Fin 2) : Statement (.amoSwapScoped k d a b o z) := by
  intro hf w nx he
  rcases (by omega : k.val = 0 ∨ k.val = 1 ∨ k.val = 2 ∨ k.val = 3) with ht | ht | ht | ht
  · have hw : w = 0x58000006 + k.val * 33554432 + d.val * 524288 + a.val * 8192 + b.val * 128 + o.val * 16 + z.val * 8 := one (rfl : encode (.amoSwapScoped k d a b o z) = [0x58000006 + k.val * 33554432 + d.val * 524288 + a.val * 8192 + b.val * 128 + o.val * 16 + z.val * 8]) he
    have hl := layR (c := 44) (d := d.val) (a := a.val) (b := b.val) (x := o.val * 16 + z.val * 8 + 6) (hw.trans (by clear * - ht; omega)) (d.isLt) (a.isLt) (b.isLt) (by have b0 := o.isLt; have b1 := z.isLt; clear * - b0 b1; omega)
    have e0 := hl.1
    have e1 : fld w 0 3 = 6 := (part 0 7 0 3 hl.2.2.2.2 (by decide) (by decide)).trans (by have b0 := o.isLt; have b1 := z.isLt; clear * - b0 b1; omega)
    have e2 : fld w 6 1 = 0 := (part 0 7 6 1 hl.2.2.2.2 (by decide) (by decide)).trans (by have b0 := o.isLt; have b1 := z.isLt; clear * - b0 b1; omega)
    have a1 : r2 w 25 = k := Fin.ext (by show w / 2 ^ 25 % 4 = k.val; clear * - hw ht; omega)
    have a2 : r6 w 19 = d := Fin.ext (hl.2.1)
    have a3 : r6 w 13 = a := Fin.ext (hl.2.2.1)
    have a4 : r6 w 7 = b := Fin.ext (hl.2.2.2.1)
    have a5 : r2 w 4 = o := Fin.ext ((part 0 7 4 2 hl.2.2.2.2 (by decide) (by decide)).trans (by have b0 := o.isLt; have b1 := z.isLt; clear * - b0 b1; omega))
    have a6 : r1 w 3 = z := Fin.ext ((part 0 7 3 1 hl.2.2.2.2 (by decide) (by decide)).trans (by have b0 := o.isLt; have b1 := z.isLt; clear * - b0 b1; omega))
    refine wf_ok (by rw [e0]; decide) ?_ hf
    rw [flat2C w _ e0]; unfold decode2C
    simp only [e1, e2, a1, a2, a3, a4, a5, a6, Nat.reduceEqDiff, OfNat.ofNat_ne_zero, OfNat.zero_ne_ofNat, one_ne_zero, zero_ne_one, OfNat.one_ne_ofNat, OfNat.ofNat_ne_one, false_and, and_false, and_self, true_and, and_true, reduceIte]
  · have hw : w = 0x58000006 + k.val * 33554432 + d.val * 524288 + a.val * 8192 + b.val * 128 + o.val * 16 + z.val * 8 := one (rfl : encode (.amoSwapScoped k d a b o z) = [0x58000006 + k.val * 33554432 + d.val * 524288 + a.val * 8192 + b.val * 128 + o.val * 16 + z.val * 8]) he
    have hl := layR (c := 45) (d := d.val) (a := a.val) (b := b.val) (x := o.val * 16 + z.val * 8 + 6) (hw.trans (by clear * - ht; omega)) (d.isLt) (a.isLt) (b.isLt) (by have b0 := o.isLt; have b1 := z.isLt; clear * - b0 b1; omega)
    have e0 := hl.1
    have e1 : fld w 0 3 = 6 := (part 0 7 0 3 hl.2.2.2.2 (by decide) (by decide)).trans (by have b0 := o.isLt; have b1 := z.isLt; clear * - b0 b1; omega)
    have e2 : fld w 6 1 = 0 := (part 0 7 6 1 hl.2.2.2.2 (by decide) (by decide)).trans (by have b0 := o.isLt; have b1 := z.isLt; clear * - b0 b1; omega)
    have a1 : r2 w 25 = k := Fin.ext (by show w / 2 ^ 25 % 4 = k.val; clear * - hw ht; omega)
    have a2 : r6 w 19 = d := Fin.ext (hl.2.1)
    have a3 : r6 w 13 = a := Fin.ext (hl.2.2.1)
    have a4 : r6 w 7 = b := Fin.ext (hl.2.2.2.1)
    have a5 : r2 w 4 = o := Fin.ext ((part 0 7 4 2 hl.2.2.2.2 (by decide) (by decide)).trans (by have b0 := o.isLt; have b1 := z.isLt; clear * - b0 b1; omega))
    have a6 : r1 w 3 = z := Fin.ext ((part 0 7 3 1 hl.2.2.2.2 (by decide) (by decide)).trans (by have b0 := o.isLt; have b1 := z.isLt; clear * - b0 b1; omega))
    refine wf_ok (by rw [e0]; decide) ?_ hf
    rw [flat2D w _ e0]; unfold decode2D
    simp only [e1, e2, a1, a2, a3, a4, a5, a6, Nat.reduceEqDiff, OfNat.ofNat_ne_zero, OfNat.zero_ne_ofNat, one_ne_zero, zero_ne_one, OfNat.one_ne_ofNat, OfNat.ofNat_ne_one, false_and, and_false, and_self, true_and, and_true, reduceIte]
  · have hw : w = 0x58000006 + k.val * 33554432 + d.val * 524288 + a.val * 8192 + b.val * 128 + o.val * 16 + z.val * 8 := one (rfl : encode (.amoSwapScoped k d a b o z) = [0x58000006 + k.val * 33554432 + d.val * 524288 + a.val * 8192 + b.val * 128 + o.val * 16 + z.val * 8]) he
    have hl := layR (c := 46) (d := d.val) (a := a.val) (b := b.val) (x := o.val * 16 + z.val * 8 + 6) (hw.trans (by clear * - ht; omega)) (d.isLt) (a.isLt) (b.isLt) (by have b0 := o.isLt; have b1 := z.isLt; clear * - b0 b1; omega)
    have e0 := hl.1
    have e1 : fld w 0 3 = 6 := (part 0 7 0 3 hl.2.2.2.2 (by decide) (by decide)).trans (by have b0 := o.isLt; have b1 := z.isLt; clear * - b0 b1; omega)
    have e2 : fld w 6 1 = 0 := (part 0 7 6 1 hl.2.2.2.2 (by decide) (by decide)).trans (by have b0 := o.isLt; have b1 := z.isLt; clear * - b0 b1; omega)
    have a1 : r2 w 25 = k := Fin.ext (by show w / 2 ^ 25 % 4 = k.val; clear * - hw ht; omega)
    have a2 : r6 w 19 = d := Fin.ext (hl.2.1)
    have a3 : r6 w 13 = a := Fin.ext (hl.2.2.1)
    have a4 : r6 w 7 = b := Fin.ext (hl.2.2.2.1)
    have a5 : r2 w 4 = o := Fin.ext ((part 0 7 4 2 hl.2.2.2.2 (by decide) (by decide)).trans (by have b0 := o.isLt; have b1 := z.isLt; clear * - b0 b1; omega))
    have a6 : r1 w 3 = z := Fin.ext ((part 0 7 3 1 hl.2.2.2.2 (by decide) (by decide)).trans (by have b0 := o.isLt; have b1 := z.isLt; clear * - b0 b1; omega))
    refine wf_ok (by rw [e0]; decide) ?_ hf
    rw [flat2E w _ e0]; unfold decode2E
    simp only [e1, e2, a1, a2, a3, a4, a5, a6, Nat.reduceEqDiff, OfNat.ofNat_ne_zero, OfNat.zero_ne_ofNat, one_ne_zero, zero_ne_one, OfNat.one_ne_ofNat, OfNat.ofNat_ne_one, false_and, and_false, and_self, true_and, and_true, reduceIte]
  · have hw : w = 0x58000006 + k.val * 33554432 + d.val * 524288 + a.val * 8192 + b.val * 128 + o.val * 16 + z.val * 8 := one (rfl : encode (.amoSwapScoped k d a b o z) = [0x58000006 + k.val * 33554432 + d.val * 524288 + a.val * 8192 + b.val * 128 + o.val * 16 + z.val * 8]) he
    have hl := layR (c := 47) (d := d.val) (a := a.val) (b := b.val) (x := o.val * 16 + z.val * 8 + 6) (hw.trans (by clear * - ht; omega)) (d.isLt) (a.isLt) (b.isLt) (by have b0 := o.isLt; have b1 := z.isLt; clear * - b0 b1; omega)
    have e0 := hl.1
    have e1 : fld w 0 3 = 6 := (part 0 7 0 3 hl.2.2.2.2 (by decide) (by decide)).trans (by have b0 := o.isLt; have b1 := z.isLt; clear * - b0 b1; omega)
    have e2 : fld w 6 1 = 0 := (part 0 7 6 1 hl.2.2.2.2 (by decide) (by decide)).trans (by have b0 := o.isLt; have b1 := z.isLt; clear * - b0 b1; omega)
    have a1 : r2 w 25 = k := Fin.ext (by show w / 2 ^ 25 % 4 = k.val; clear * - hw ht; omega)
    have a2 : r6 w 19 = d := Fin.ext (hl.2.1)
    have a3 : r6 w 13 = a := Fin.ext (hl.2.2.1)
    have a4 : r6 w 7 = b := Fin.ext (hl.2.2.2.1)
    have a5 : r2 w 4 = o := Fin.ext ((part 0 7 4 2 hl.2.2.2.2 (by decide) (by decide)).trans (by have b0 := o.isLt; have b1 := z.isLt; clear * - b0 b1; omega))
    have a6 : r1 w 3 = z := Fin.ext ((part 0 7 3 1 hl.2.2.2.2 (by decide) (by decide)).trans (by have b0 := o.isLt; have b1 := z.isLt; clear * - b0 b1; omega))
    refine wf_ok (by rw [e0]; decide) ?_ hf
    rw [flat2F w _ e0]; unfold decode2F
    simp only [e1, e2, a1, a2, a3, a4, a5, a6, Nat.reduceEqDiff, OfNat.ofNat_ne_zero, OfNat.zero_ne_ofNat, one_ne_zero, zero_ne_one, OfNat.one_ne_ofNat, OfNat.ofNat_ne_one, false_and, and_false, and_self, true_and, and_true, reduceIte]

theorem amoCasScoped (k : Fin 4) (d : Fin 64) (a : Fin 64) (b : Fin 64) (o : Fin 4) (z : Fin 2) : Statement (.amoCasScoped k d a b o z) := by
  intro hf w nx he
  rcases (by omega : k.val = 0 ∨ k.val = 1 ∨ k.val = 2 ∨ k.val = 3) with ht | ht | ht | ht
  · have hw : w = 0x58000007 + k.val * 33554432 + d.val * 524288 + a.val * 8192 + b.val * 128 + o.val * 16 + z.val * 8 := one (rfl : encode (.amoCasScoped k d a b o z) = [0x58000007 + k.val * 33554432 + d.val * 524288 + a.val * 8192 + b.val * 128 + o.val * 16 + z.val * 8]) he
    have hl := layR (c := 44) (d := d.val) (a := a.val) (b := b.val) (x := o.val * 16 + z.val * 8 + 7) (hw.trans (by clear * - ht; omega)) (d.isLt) (a.isLt) (b.isLt) (by have b0 := o.isLt; have b1 := z.isLt; clear * - b0 b1; omega)
    have e0 := hl.1
    have e1 : fld w 0 3 = 7 := (part 0 7 0 3 hl.2.2.2.2 (by decide) (by decide)).trans (by have b0 := o.isLt; have b1 := z.isLt; clear * - b0 b1; omega)
    have e2 : fld w 6 1 = 0 := (part 0 7 6 1 hl.2.2.2.2 (by decide) (by decide)).trans (by have b0 := o.isLt; have b1 := z.isLt; clear * - b0 b1; omega)
    have a1 : r2 w 25 = k := Fin.ext (by show w / 2 ^ 25 % 4 = k.val; clear * - hw ht; omega)
    have a2 : r6 w 19 = d := Fin.ext (hl.2.1)
    have a3 : r6 w 13 = a := Fin.ext (hl.2.2.1)
    have a4 : r6 w 7 = b := Fin.ext (hl.2.2.2.1)
    have a5 : r2 w 4 = o := Fin.ext ((part 0 7 4 2 hl.2.2.2.2 (by decide) (by decide)).trans (by have b0 := o.isLt; have b1 := z.isLt; clear * - b0 b1; omega))
    have a6 : r1 w 3 = z := Fin.ext ((part 0 7 3 1 hl.2.2.2.2 (by decide) (by decide)).trans (by have b0 := o.isLt; have b1 := z.isLt; clear * - b0 b1; omega))
    refine wf_ok (by rw [e0]; decide) ?_ hf
    rw [flat2C w _ e0]; unfold decode2C
    simp only [e1, e2, a1, a2, a3, a4, a5, a6, Nat.reduceEqDiff, OfNat.ofNat_ne_zero, OfNat.zero_ne_ofNat, one_ne_zero, zero_ne_one, OfNat.one_ne_ofNat, OfNat.ofNat_ne_one, false_and, and_false, and_self, true_and, and_true, reduceIte]
  · have hw : w = 0x58000007 + k.val * 33554432 + d.val * 524288 + a.val * 8192 + b.val * 128 + o.val * 16 + z.val * 8 := one (rfl : encode (.amoCasScoped k d a b o z) = [0x58000007 + k.val * 33554432 + d.val * 524288 + a.val * 8192 + b.val * 128 + o.val * 16 + z.val * 8]) he
    have hl := layR (c := 45) (d := d.val) (a := a.val) (b := b.val) (x := o.val * 16 + z.val * 8 + 7) (hw.trans (by clear * - ht; omega)) (d.isLt) (a.isLt) (b.isLt) (by have b0 := o.isLt; have b1 := z.isLt; clear * - b0 b1; omega)
    have e0 := hl.1
    have e1 : fld w 0 3 = 7 := (part 0 7 0 3 hl.2.2.2.2 (by decide) (by decide)).trans (by have b0 := o.isLt; have b1 := z.isLt; clear * - b0 b1; omega)
    have e2 : fld w 6 1 = 0 := (part 0 7 6 1 hl.2.2.2.2 (by decide) (by decide)).trans (by have b0 := o.isLt; have b1 := z.isLt; clear * - b0 b1; omega)
    have a1 : r2 w 25 = k := Fin.ext (by show w / 2 ^ 25 % 4 = k.val; clear * - hw ht; omega)
    have a2 : r6 w 19 = d := Fin.ext (hl.2.1)
    have a3 : r6 w 13 = a := Fin.ext (hl.2.2.1)
    have a4 : r6 w 7 = b := Fin.ext (hl.2.2.2.1)
    have a5 : r2 w 4 = o := Fin.ext ((part 0 7 4 2 hl.2.2.2.2 (by decide) (by decide)).trans (by have b0 := o.isLt; have b1 := z.isLt; clear * - b0 b1; omega))
    have a6 : r1 w 3 = z := Fin.ext ((part 0 7 3 1 hl.2.2.2.2 (by decide) (by decide)).trans (by have b0 := o.isLt; have b1 := z.isLt; clear * - b0 b1; omega))
    refine wf_ok (by rw [e0]; decide) ?_ hf
    rw [flat2D w _ e0]; unfold decode2D
    simp only [e1, e2, a1, a2, a3, a4, a5, a6, Nat.reduceEqDiff, OfNat.ofNat_ne_zero, OfNat.zero_ne_ofNat, one_ne_zero, zero_ne_one, OfNat.one_ne_ofNat, OfNat.ofNat_ne_one, false_and, and_false, and_self, true_and, and_true, reduceIte]
  · have hw : w = 0x58000007 + k.val * 33554432 + d.val * 524288 + a.val * 8192 + b.val * 128 + o.val * 16 + z.val * 8 := one (rfl : encode (.amoCasScoped k d a b o z) = [0x58000007 + k.val * 33554432 + d.val * 524288 + a.val * 8192 + b.val * 128 + o.val * 16 + z.val * 8]) he
    have hl := layR (c := 46) (d := d.val) (a := a.val) (b := b.val) (x := o.val * 16 + z.val * 8 + 7) (hw.trans (by clear * - ht; omega)) (d.isLt) (a.isLt) (b.isLt) (by have b0 := o.isLt; have b1 := z.isLt; clear * - b0 b1; omega)
    have e0 := hl.1
    have e1 : fld w 0 3 = 7 := (part 0 7 0 3 hl.2.2.2.2 (by decide) (by decide)).trans (by have b0 := o.isLt; have b1 := z.isLt; clear * - b0 b1; omega)
    have e2 : fld w 6 1 = 0 := (part 0 7 6 1 hl.2.2.2.2 (by decide) (by decide)).trans (by have b0 := o.isLt; have b1 := z.isLt; clear * - b0 b1; omega)
    have a1 : r2 w 25 = k := Fin.ext (by show w / 2 ^ 25 % 4 = k.val; clear * - hw ht; omega)
    have a2 : r6 w 19 = d := Fin.ext (hl.2.1)
    have a3 : r6 w 13 = a := Fin.ext (hl.2.2.1)
    have a4 : r6 w 7 = b := Fin.ext (hl.2.2.2.1)
    have a5 : r2 w 4 = o := Fin.ext ((part 0 7 4 2 hl.2.2.2.2 (by decide) (by decide)).trans (by have b0 := o.isLt; have b1 := z.isLt; clear * - b0 b1; omega))
    have a6 : r1 w 3 = z := Fin.ext ((part 0 7 3 1 hl.2.2.2.2 (by decide) (by decide)).trans (by have b0 := o.isLt; have b1 := z.isLt; clear * - b0 b1; omega))
    refine wf_ok (by rw [e0]; decide) ?_ hf
    rw [flat2E w _ e0]; unfold decode2E
    simp only [e1, e2, a1, a2, a3, a4, a5, a6, Nat.reduceEqDiff, OfNat.ofNat_ne_zero, OfNat.zero_ne_ofNat, one_ne_zero, zero_ne_one, OfNat.one_ne_ofNat, OfNat.ofNat_ne_one, false_and, and_false, and_self, true_and, and_true, reduceIte]
  · have hw : w = 0x58000007 + k.val * 33554432 + d.val * 524288 + a.val * 8192 + b.val * 128 + o.val * 16 + z.val * 8 := one (rfl : encode (.amoCasScoped k d a b o z) = [0x58000007 + k.val * 33554432 + d.val * 524288 + a.val * 8192 + b.val * 128 + o.val * 16 + z.val * 8]) he
    have hl := layR (c := 47) (d := d.val) (a := a.val) (b := b.val) (x := o.val * 16 + z.val * 8 + 7) (hw.trans (by clear * - ht; omega)) (d.isLt) (a.isLt) (b.isLt) (by have b0 := o.isLt; have b1 := z.isLt; clear * - b0 b1; omega)
    have e0 := hl.1
    have e1 : fld w 0 3 = 7 := (part 0 7 0 3 hl.2.2.2.2 (by decide) (by decide)).trans (by have b0 := o.isLt; have b1 := z.isLt; clear * - b0 b1; omega)
    have e2 : fld w 6 1 = 0 := (part 0 7 6 1 hl.2.2.2.2 (by decide) (by decide)).trans (by have b0 := o.isLt; have b1 := z.isLt; clear * - b0 b1; omega)
    have a1 : r2 w 25 = k := Fin.ext (by show w / 2 ^ 25 % 4 = k.val; clear * - hw ht; omega)
    have a2 : r6 w 19 = d := Fin.ext (hl.2.1)
    have a3 : r6 w 13 = a := Fin.ext (hl.2.2.1)
    have a4 : r6 w 7 = b := Fin.ext (hl.2.2.2.1)
    have a5 : r2 w 4 = o := Fin.ext ((part 0 7 4 2 hl.2.2.2.2 (by decide) (by decide)).trans (by have b0 := o.isLt; have b1 := z.isLt; clear * - b0 b1; omega))
    have a6 : r1 w 3 = z := Fin.ext ((part 0 7 3 1 hl.2.2.2.2 (by decide) (by decide)).trans (by have b0 := o.isLt; have b1 := z.isLt; clear * - b0 b1; omega))
    refine wf_ok (by rw [e0]; decide) ?_ hf
    rw [flat2F w _ e0]; unfold decode2F
    simp only [e1, e2, a1, a2, a3, a4, a5, a6, Nat.reduceEqDiff, OfNat.ofNat_ne_zero, OfNat.zero_ne_ofNat, one_ne_zero, zero_ne_one, OfNat.one_ne_ofNat, OfNat.ofNat_ne_one, false_and, and_false, and_self, true_and, and_true, reduceIte]

theorem fenceRel (s : Fin 8) : Statement (.fenceRel s) := by
  intro hf w nx he
  have hw : w = 0x50000001 + s.val * 4 := one (rfl : encode (.fenceRel s) = [0x50000001 + s.val * 4]) he
  have hl := layR (c := 40) (d := 0) (a := 0) (b := 0) (x := s.val * 4 + 1) (hw.trans (by clear * -; omega)) (by decide) (by decide) (by decide) (by have b0 := s.isLt; clear * - b0; omega)
  have e0 := hl.1
  have e1 : fld w 0 2 = 1 := (part 0 7 0 2 hl.2.2.2.2 (by decide) (by decide)).trans (by have b0 := s.isLt; clear * - b0; omega)
  have e2 : fld w 5 2 = 0 := (part 0 7 5 2 hl.2.2.2.2 (by decide) (by decide)).trans (by have b0 := s.isLt; clear * - b0; omega)
  have e3 : fld w 7 6 = 0 := hl.2.2.2.1
  have e4 : fld w 13 6 = 0 := hl.2.2.1
  have e5 : fld w 19 6 = 0 := hl.2.1
  have a1 : r3 w 2 = s := Fin.ext ((part 0 7 2 3 hl.2.2.2.2 (by decide) (by decide)).trans (by have b0 := s.isLt; clear * - b0; omega))
  refine wf_ok (by rw [e0]; decide) ?_ hf
  rw [flat28 w _ e0]; unfold decode28
  simp only [e1, e2, e3, e4, e5, a1, Nat.reduceEqDiff, OfNat.ofNat_ne_zero, OfNat.zero_ne_ofNat, one_ne_zero, zero_ne_one, OfNat.one_ne_ofNat, OfNat.ofNat_ne_one, false_and, and_false, and_self, true_and, and_true, reduceIte]

theorem fenceAcq (s : Fin 8) : Statement (.fenceAcq s) := by
  intro hf w nx he
  have hw : w = 0x50000002 + s.val * 4 := one (rfl : encode (.fenceAcq s) = [0x50000002 + s.val * 4]) he
  have hl := layR (c := 40) (d := 0) (a := 0) (b := 0) (x := s.val * 4 + 2) (hw.trans (by clear * -; omega)) (by decide) (by decide) (by decide) (by have b0 := s.isLt; clear * - b0; omega)
  have e0 := hl.1
  have e1 : fld w 0 2 = 2 := (part 0 7 0 2 hl.2.2.2.2 (by decide) (by decide)).trans (by have b0 := s.isLt; clear * - b0; omega)
  have e2 : fld w 5 2 = 0 := (part 0 7 5 2 hl.2.2.2.2 (by decide) (by decide)).trans (by have b0 := s.isLt; clear * - b0; omega)
  have e3 : fld w 7 6 = 0 := hl.2.2.2.1
  have e4 : fld w 13 6 = 0 := hl.2.2.1
  have e5 : fld w 19 6 = 0 := hl.2.1
  have a1 : r3 w 2 = s := Fin.ext ((part 0 7 2 3 hl.2.2.2.2 (by decide) (by decide)).trans (by have b0 := s.isLt; clear * - b0; omega))
  refine wf_ok (by rw [e0]; decide) ?_ hf
  rw [flat28 w _ e0]; unfold decode28
  simp only [e1, e2, e3, e4, e5, a1, Nat.reduceEqDiff, OfNat.ofNat_ne_zero, OfNat.zero_ne_ofNat, one_ne_zero, zero_ne_one, OfNat.one_ne_ofNat, OfNat.ofNat_ne_one, false_and, and_false, and_self, true_and, and_true, reduceIte]

theorem fenceAr (s : Fin 8) : Statement (.fenceAr s) := by
  intro hf w nx he
  have hw : w = 0x50000003 + s.val * 4 := one (rfl : encode (.fenceAr s) = [0x50000003 + s.val * 4]) he
  have hl := layR (c := 40) (d := 0) (a := 0) (b := 0) (x := s.val * 4 + 3) (hw.trans (by clear * -; omega)) (by decide) (by decide) (by decide) (by have b0 := s.isLt; clear * - b0; omega)
  have e0 := hl.1
  have e1 : fld w 0 2 = 3 := (part 0 7 0 2 hl.2.2.2.2 (by decide) (by decide)).trans (by have b0 := s.isLt; clear * - b0; omega)
  have e2 : fld w 5 2 = 0 := (part 0 7 5 2 hl.2.2.2.2 (by decide) (by decide)).trans (by have b0 := s.isLt; clear * - b0; omega)
  have e3 : fld w 7 6 = 0 := hl.2.2.2.1
  have e4 : fld w 13 6 = 0 := hl.2.2.1
  have e5 : fld w 19 6 = 0 := hl.2.1
  have a1 : r3 w 2 = s := Fin.ext ((part 0 7 2 3 hl.2.2.2.2 (by decide) (by decide)).trans (by have b0 := s.isLt; clear * - b0; omega))
  refine wf_ok (by rw [e0]; decide) ?_ hf
  rw [flat28 w _ e0]; unfold decode28
  simp only [e1, e2, e3, e4, e5, a1, Nat.reduceEqDiff, OfNat.ofNat_ne_zero, OfNat.zero_ne_ofNat, one_ne_zero, zero_ne_one, OfNat.one_ne_ofNat, OfNat.ofNat_ne_one, false_and, and_false, and_self, true_and, and_true, reduceIte]

theorem pf (a : Fin 64) (i : BitVec 13) : Statement (.pf a i) := by
  intro hf w nx he
  have hw : w = 0x52000000 + a.val * 8192 + i.toNat := one (rfl : encode (.pf a i) = [0x52000000 + a.val * 8192 + i.toNat]) he
  have hl := layI (c := 41) (d := 0) (a := a.val) (x := i.toNat) (hw.trans (by clear * -; omega)) (by decide) (a.isLt) (i.isLt)
  have e0 := hl.1
  have e1 : fld w 19 6 = 0 := hl.2.1
  have a1 : r6 w 13 = a := Fin.ext (hl.2.2.1)
  have a2 : i13 w = i := BitVec.eq_of_toNat_eq ((BitVec.toNat_ofNat ..).trans (low hl.2.2.2))
  refine wf_ok (by rw [e0]; decide) ?_ hf
  rw [flat29 w _ e0]; unfold decode29
  simp only [e1, a1, a2, Nat.reduceEqDiff, OfNat.ofNat_ne_zero, OfNat.zero_ne_ofNat, one_ne_zero, zero_ne_one, OfNat.one_ne_ofNat, OfNat.ofNat_ne_one, false_and, and_false, and_self, true_and, and_true, reduceIte]

theorem pfW (a : Fin 64) (i : BitVec 13) : Statement (.pfW a i) := by
  intro hf w nx he
  have hw : w = 0x52080000 + a.val * 8192 + i.toNat := one (rfl : encode (.pfW a i) = [0x52080000 + a.val * 8192 + i.toNat]) he
  have hl := layI (c := 41) (d := 1) (a := a.val) (x := i.toNat) (hw.trans (by clear * -; omega)) (by decide) (a.isLt) (i.isLt)
  have e0 := hl.1
  have e1 : fld w 19 6 = 1 := hl.2.1
  have a1 : r6 w 13 = a := Fin.ext (hl.2.2.1)
  have a2 : i13 w = i := BitVec.eq_of_toNat_eq ((BitVec.toNat_ofNat ..).trans (low hl.2.2.2))
  refine wf_ok (by rw [e0]; decide) ?_ hf
  rw [flat29 w _ e0]; unfold decode29
  simp only [e1, a1, a2, Nat.reduceEqDiff, OfNat.ofNat_ne_zero, OfNat.zero_ne_ofNat, one_ne_zero, zero_ne_one, OfNat.one_ne_ofNat, OfNat.ofNat_ne_one, false_and, and_false, and_self, true_and, and_true, reduceIte]

theorem pfKeep (a : Fin 64) (i : BitVec 13) : Statement (.pfKeep a i) := by
  intro hf w nx he
  have hw : w = 0x52100000 + a.val * 8192 + i.toNat := one (rfl : encode (.pfKeep a i) = [0x52100000 + a.val * 8192 + i.toNat]) he
  have hl := layI (c := 41) (d := 2) (a := a.val) (x := i.toNat) (hw.trans (by clear * -; omega)) (by decide) (a.isLt) (i.isLt)
  have e0 := hl.1
  have e1 : fld w 19 6 = 2 := hl.2.1
  have a1 : r6 w 13 = a := Fin.ext (hl.2.2.1)
  have a2 : i13 w = i := BitVec.eq_of_toNat_eq ((BitVec.toNat_ofNat ..).trans (low hl.2.2.2))
  refine wf_ok (by rw [e0]; decide) ?_ hf
  rw [flat29 w _ e0]; unfold decode29
  simp only [e1, a1, a2, Nat.reduceEqDiff, OfNat.ofNat_ne_zero, OfNat.zero_ne_ofNat, one_ne_zero, zero_ne_one, OfNat.one_ne_ofNat, OfNat.ofNat_ne_one, false_and, and_false, and_self, true_and, and_true, reduceIte]

theorem pfDrop (a : Fin 64) (i : BitVec 13) : Statement (.pfDrop a i) := by
  intro hf w nx he
  have hw : w = 0x52180000 + a.val * 8192 + i.toNat := one (rfl : encode (.pfDrop a i) = [0x52180000 + a.val * 8192 + i.toNat]) he
  have hl := layI (c := 41) (d := 3) (a := a.val) (x := i.toNat) (hw.trans (by clear * -; omega)) (by decide) (a.isLt) (i.isLt)
  have e0 := hl.1
  have e1 : fld w 19 6 = 3 := hl.2.1
  have a1 : r6 w 13 = a := Fin.ext (hl.2.2.1)
  have a2 : i13 w = i := BitVec.eq_of_toNat_eq ((BitVec.toNat_ofNat ..).trans (low hl.2.2.2))
  refine wf_ok (by rw [e0]; decide) ?_ hf
  rw [flat29 w _ e0]; unfold decode29
  simp only [e1, a1, a2, Nat.reduceEqDiff, OfNat.ofNat_ne_zero, OfNat.zero_ne_ofNat, one_ne_zero, zero_ne_one, OfNat.one_ne_ofNat, OfNat.ofNat_ne_one, false_and, and_false, and_self, true_and, and_true, reduceIte]

theorem mon (d : Fin 64) (a : Fin 64) (b : Fin 64) : Statement (.mon d a b) := by
  intro hf w nx he
  have hw : w = 0x54000000 + d.val * 524288 + a.val * 8192 + b.val * 128 := one (rfl : encode (.mon d a b) = [0x54000000 + d.val * 524288 + a.val * 8192 + b.val * 128]) he
  have hl := layR (c := 42) (d := d.val) (a := a.val) (b := b.val) (x := 0) (hw.trans (by clear * -; omega)) (d.isLt) (a.isLt) (b.isLt) (by decide)
  have e0 := hl.1
  have e1 : fld w 0 7 = 0 := hl.2.2.2.2
  have a1 : r6 w 19 = d := Fin.ext (hl.2.1)
  have a2 : r6 w 13 = a := Fin.ext (hl.2.2.1)
  have a3 : r6 w 7 = b := Fin.ext (hl.2.2.2.1)
  refine wf_ok (by rw [e0]; decide) ?_ hf
  rw [flat2A w _ e0]; unfold decode2A
  simp only [e1, a1, a2, a3, Nat.reduceEqDiff, OfNat.ofNat_ne_zero, OfNat.zero_ne_ofNat, one_ne_zero, zero_ne_one, OfNat.one_ne_ofNat, OfNat.ofNat_ne_one, false_and, and_false, and_self, true_and, and_true, reduceIte]

theorem mwait (d : Fin 64) (a : Fin 64) : Statement (.mwait d a) := by
  intro hf w nx he
  have hw : w = 0x54000001 + d.val * 524288 + a.val * 8192 := one (rfl : encode (.mwait d a) = [0x54000001 + d.val * 524288 + a.val * 8192]) he
  have hl := layR (c := 42) (d := d.val) (a := a.val) (b := 0) (x := 1) (hw.trans (by clear * -; omega)) (d.isLt) (a.isLt) (by decide) (by decide)
  have e0 := hl.1
  have e1 : fld w 0 7 = 1 := hl.2.2.2.2
  have e2 : fld w 7 6 = 0 := hl.2.2.2.1
  have a1 : r6 w 19 = d := Fin.ext (hl.2.1)
  have a2 : r6 w 13 = a := Fin.ext (hl.2.2.1)
  refine wf_ok (by rw [e0]; decide) ?_ hf
  rw [flat2A w _ e0]; unfold decode2A
  simp only [e1, e2, a1, a2, Nat.reduceEqDiff, OfNat.ofNat_ne_zero, OfNat.zero_ne_ofNat, one_ne_zero, zero_ne_one, OfNat.one_ne_ofNat, OfNat.ofNat_ne_one, false_and, and_false, and_self, true_and, and_true, reduceIte]

theorem gbar (s : Fin 8) : Statement (.gbar s) := by
  intro hf w nx he
  have hw : w = 0x56000000 + s.val * 8 := one (rfl : encode (.gbar s) = [0x56000000 + s.val * 8]) he
  have hl := layR (c := 43) (d := 0) (a := 0) (b := 0) (x := s.val * 8) (hw.trans (by clear * -; omega)) (by decide) (by decide) (by decide) (by have b0 := s.isLt; clear * - b0; omega)
  have e0 := hl.1
  have e1 : fld w 0 3 = 0 := (part 0 7 0 3 hl.2.2.2.2 (by decide) (by decide)).trans (by have b0 := s.isLt; clear * - b0; omega)
  have e2 : fld w 6 1 = 0 := (part 0 7 6 1 hl.2.2.2.2 (by decide) (by decide)).trans (by have b0 := s.isLt; clear * - b0; omega)
  have e3 : fld w 7 6 = 0 := hl.2.2.2.1
  have e4 : fld w 13 6 = 0 := hl.2.2.1
  have e5 : fld w 19 6 = 0 := hl.2.1
  have a1 : r3 w 3 = s := Fin.ext ((part 0 7 3 3 hl.2.2.2.2 (by decide) (by decide)).trans (by have b0 := s.isLt; clear * - b0; omega))
  refine wf_ok (by rw [e0]; decide) ?_ hf
  rw [flat2B w _ e0]; unfold decode2B
  simp only [e1, e2, e3, e4, e5, a1, Nat.reduceEqDiff, OfNat.ofNat_ne_zero, OfNat.zero_ne_ofNat, one_ne_zero, zero_ne_one, OfNat.one_ne_ofNat, OfNat.ofNat_ne_one, false_and, and_false, and_self, true_and, and_true, reduceIte]

theorem gvoteAnd (d : Fin 64) (a : Fin 64) (s : Fin 8) : Statement (.gvoteAnd d a s) := by
  intro hf w nx he
  have hw : w = 0x56000001 + d.val * 524288 + a.val * 8192 + s.val * 8 := one (rfl : encode (.gvoteAnd d a s) = [0x56000001 + d.val * 524288 + a.val * 8192 + s.val * 8]) he
  have hl := layR (c := 43) (d := d.val) (a := a.val) (b := 0) (x := s.val * 8 + 1) (hw.trans (by clear * -; omega)) (d.isLt) (a.isLt) (by decide) (by have b0 := s.isLt; clear * - b0; omega)
  have e0 := hl.1
  have e1 : fld w 0 3 = 1 := (part 0 7 0 3 hl.2.2.2.2 (by decide) (by decide)).trans (by have b0 := s.isLt; clear * - b0; omega)
  have e2 : fld w 6 1 = 0 := (part 0 7 6 1 hl.2.2.2.2 (by decide) (by decide)).trans (by have b0 := s.isLt; clear * - b0; omega)
  have e3 : fld w 7 6 = 0 := hl.2.2.2.1
  have a1 : r6 w 19 = d := Fin.ext (hl.2.1)
  have a2 : r6 w 13 = a := Fin.ext (hl.2.2.1)
  have a3 : r3 w 3 = s := Fin.ext ((part 0 7 3 3 hl.2.2.2.2 (by decide) (by decide)).trans (by have b0 := s.isLt; clear * - b0; omega))
  refine wf_ok (by rw [e0]; decide) ?_ hf
  rw [flat2B w _ e0]; unfold decode2B
  simp only [e1, e2, e3, a1, a2, a3, Nat.reduceEqDiff, OfNat.ofNat_ne_zero, OfNat.zero_ne_ofNat, one_ne_zero, zero_ne_one, OfNat.one_ne_ofNat, OfNat.ofNat_ne_one, false_and, and_false, and_self, true_and, and_true, reduceIte]

theorem gvoteOr (d : Fin 64) (a : Fin 64) (s : Fin 8) : Statement (.gvoteOr d a s) := by
  intro hf w nx he
  have hw : w = 0x56000002 + d.val * 524288 + a.val * 8192 + s.val * 8 := one (rfl : encode (.gvoteOr d a s) = [0x56000002 + d.val * 524288 + a.val * 8192 + s.val * 8]) he
  have hl := layR (c := 43) (d := d.val) (a := a.val) (b := 0) (x := s.val * 8 + 2) (hw.trans (by clear * -; omega)) (d.isLt) (a.isLt) (by decide) (by have b0 := s.isLt; clear * - b0; omega)
  have e0 := hl.1
  have e1 : fld w 0 3 = 2 := (part 0 7 0 3 hl.2.2.2.2 (by decide) (by decide)).trans (by have b0 := s.isLt; clear * - b0; omega)
  have e2 : fld w 6 1 = 0 := (part 0 7 6 1 hl.2.2.2.2 (by decide) (by decide)).trans (by have b0 := s.isLt; clear * - b0; omega)
  have e3 : fld w 7 6 = 0 := hl.2.2.2.1
  have a1 : r6 w 19 = d := Fin.ext (hl.2.1)
  have a2 : r6 w 13 = a := Fin.ext (hl.2.2.1)
  have a3 : r3 w 3 = s := Fin.ext ((part 0 7 3 3 hl.2.2.2.2 (by decide) (by decide)).trans (by have b0 := s.isLt; clear * - b0; omega))
  refine wf_ok (by rw [e0]; decide) ?_ hf
  rw [flat2B w _ e0]; unfold decode2B
  simp only [e1, e2, e3, a1, a2, a3, Nat.reduceEqDiff, OfNat.ofNat_ne_zero, OfNat.zero_ne_ofNat, one_ne_zero, zero_ne_one, OfNat.one_ne_ofNat, OfNat.ofNat_ne_one, false_and, and_false, and_self, true_and, and_true, reduceIte]

theorem gvoteMinU (d : Fin 64) (a : Fin 64) (s : Fin 8) : Statement (.gvoteMinU d a s) := by
  intro hf w nx he
  have hw : w = 0x56000003 + d.val * 524288 + a.val * 8192 + s.val * 8 := one (rfl : encode (.gvoteMinU d a s) = [0x56000003 + d.val * 524288 + a.val * 8192 + s.val * 8]) he
  have hl := layR (c := 43) (d := d.val) (a := a.val) (b := 0) (x := s.val * 8 + 3) (hw.trans (by clear * -; omega)) (d.isLt) (a.isLt) (by decide) (by have b0 := s.isLt; clear * - b0; omega)
  have e0 := hl.1
  have e1 : fld w 0 3 = 3 := (part 0 7 0 3 hl.2.2.2.2 (by decide) (by decide)).trans (by have b0 := s.isLt; clear * - b0; omega)
  have e2 : fld w 6 1 = 0 := (part 0 7 6 1 hl.2.2.2.2 (by decide) (by decide)).trans (by have b0 := s.isLt; clear * - b0; omega)
  have e3 : fld w 7 6 = 0 := hl.2.2.2.1
  have a1 : r6 w 19 = d := Fin.ext (hl.2.1)
  have a2 : r6 w 13 = a := Fin.ext (hl.2.2.1)
  have a3 : r3 w 3 = s := Fin.ext ((part 0 7 3 3 hl.2.2.2.2 (by decide) (by decide)).trans (by have b0 := s.isLt; clear * - b0; omega))
  refine wf_ok (by rw [e0]; decide) ?_ hf
  rw [flat2B w _ e0]; unfold decode2B
  simp only [e1, e2, e3, a1, a2, a3, Nat.reduceEqDiff, OfNat.ofNat_ne_zero, OfNat.zero_ne_ofNat, one_ne_zero, zero_ne_one, OfNat.one_ne_ofNat, OfNat.ofNat_ne_one, false_and, and_false, and_self, true_and, and_true, reduceIte]

theorem gvoteMaxU (d : Fin 64) (a : Fin 64) (s : Fin 8) : Statement (.gvoteMaxU d a s) := by
  intro hf w nx he
  have hw : w = 0x56000004 + d.val * 524288 + a.val * 8192 + s.val * 8 := one (rfl : encode (.gvoteMaxU d a s) = [0x56000004 + d.val * 524288 + a.val * 8192 + s.val * 8]) he
  have hl := layR (c := 43) (d := d.val) (a := a.val) (b := 0) (x := s.val * 8 + 4) (hw.trans (by clear * -; omega)) (d.isLt) (a.isLt) (by decide) (by have b0 := s.isLt; clear * - b0; omega)
  have e0 := hl.1
  have e1 : fld w 0 3 = 4 := (part 0 7 0 3 hl.2.2.2.2 (by decide) (by decide)).trans (by have b0 := s.isLt; clear * - b0; omega)
  have e2 : fld w 6 1 = 0 := (part 0 7 6 1 hl.2.2.2.2 (by decide) (by decide)).trans (by have b0 := s.isLt; clear * - b0; omega)
  have e3 : fld w 7 6 = 0 := hl.2.2.2.1
  have a1 : r6 w 19 = d := Fin.ext (hl.2.1)
  have a2 : r6 w 13 = a := Fin.ext (hl.2.2.1)
  have a3 : r3 w 3 = s := Fin.ext ((part 0 7 3 3 hl.2.2.2.2 (by decide) (by decide)).trans (by have b0 := s.isLt; clear * - b0; omega))
  refine wf_ok (by rw [e0]; decide) ?_ hf
  rw [flat2B w _ e0]; unfold decode2B
  simp only [e1, e2, e3, a1, a2, a3, Nat.reduceEqDiff, OfNat.ofNat_ne_zero, OfNat.zero_ne_ofNat, one_ne_zero, zero_ne_one, OfNat.one_ne_ofNat, OfNat.ofNat_ne_one, false_and, and_false, and_self, true_and, and_true, reduceIte]

theorem gvoteAdd (d : Fin 64) (a : Fin 64) (s : Fin 8) : Statement (.gvoteAdd d a s) := by
  intro hf w nx he
  have hw : w = 0x56000005 + d.val * 524288 + a.val * 8192 + s.val * 8 := one (rfl : encode (.gvoteAdd d a s) = [0x56000005 + d.val * 524288 + a.val * 8192 + s.val * 8]) he
  have hl := layR (c := 43) (d := d.val) (a := a.val) (b := 0) (x := s.val * 8 + 5) (hw.trans (by clear * -; omega)) (d.isLt) (a.isLt) (by decide) (by have b0 := s.isLt; clear * - b0; omega)
  have e0 := hl.1
  have e1 : fld w 0 3 = 5 := (part 0 7 0 3 hl.2.2.2.2 (by decide) (by decide)).trans (by have b0 := s.isLt; clear * - b0; omega)
  have e2 : fld w 6 1 = 0 := (part 0 7 6 1 hl.2.2.2.2 (by decide) (by decide)).trans (by have b0 := s.isLt; clear * - b0; omega)
  have e3 : fld w 7 6 = 0 := hl.2.2.2.1
  have a1 : r6 w 19 = d := Fin.ext (hl.2.1)
  have a2 : r6 w 13 = a := Fin.ext (hl.2.2.1)
  have a3 : r3 w 3 = s := Fin.ext ((part 0 7 3 3 hl.2.2.2.2 (by decide) (by decide)).trans (by have b0 := s.isLt; clear * - b0; omega))
  refine wf_ok (by rw [e0]; decide) ?_ hf
  rw [flat2B w _ e0]; unfold decode2B
  simp only [e1, e2, e3, a1, a2, a3, Nat.reduceEqDiff, OfNat.ofNat_ne_zero, OfNat.zero_ne_ofNat, one_ne_zero, zero_ne_one, OfNat.one_ne_ofNat, OfNat.ofNat_ne_one, false_and, and_false, and_self, true_and, and_true, reduceIte]

theorem rcap (d : Fin 64) (a : Fin 64) (b : Fin 64) (c : Fin 4) : Statement (.rcap d a b c) := by
  intro hf w nx he
  have hw : w = 0x60000000 + d.val * 524288 + a.val * 8192 + b.val * 128 + c.val := one (rfl : encode (.rcap d a b c) = [0x60000000 + d.val * 524288 + a.val * 8192 + b.val * 128 + c.val]) he
  have hl := layR (c := 48) (d := d.val) (a := a.val) (b := b.val) (x := c.val) (hw.trans (by clear * -; omega)) (d.isLt) (a.isLt) (b.isLt) (by have b0 := c.isLt; clear * - b0; omega)
  have e0 := hl.1
  have e1 : fld w 2 5 = 0 := (part 0 7 2 5 hl.2.2.2.2 (by decide) (by decide)).trans (by have b0 := c.isLt; clear * - b0; omega)
  have a1 : r6 w 19 = d := Fin.ext (hl.2.1)
  have a2 : r6 w 13 = a := Fin.ext (hl.2.2.1)
  have a3 : r6 w 7 = b := Fin.ext (hl.2.2.2.1)
  have a4 : r2 w 0 = c := Fin.ext ((part 0 7 0 2 hl.2.2.2.2 (by decide) (by decide)).trans (by have b0 := c.isLt; clear * - b0; omega))
  refine wf_ok (by rw [e0]; decide) ?_ hf
  rw [flat30 w _ e0]; unfold decode30
  simp only [e1, a1, a2, a3, a4, Nat.reduceEqDiff, OfNat.ofNat_ne_zero, OfNat.zero_ne_ofNat, one_ne_zero, zero_ne_one, OfNat.one_ne_ofNat, OfNat.ofNat_ne_one, false_and, and_false, and_self, true_and, and_true, reduceIte]

theorem rcapC (d : Fin 64) (a : Fin 64) (b : Fin 64) : Statement (.rcapC d a b) := by
  intro hf w nx he
  have hw : w = 0x60000004 + d.val * 524288 + a.val * 8192 + b.val * 128 := one (rfl : encode (.rcapC d a b) = [0x60000004 + d.val * 524288 + a.val * 8192 + b.val * 128]) he
  have hl := layR (c := 48) (d := d.val) (a := a.val) (b := b.val) (x := 4) (hw.trans (by clear * -; omega)) (d.isLt) (a.isLt) (b.isLt) (by decide)
  have e0 := hl.1
  have e1 : fld w 2 5 = 1 := (part 0 7 2 5 hl.2.2.2.2 (by decide) (by decide)).trans (by decide)
  have e2 : fld w 0 7 = 4 := hl.2.2.2.2
  have a1 : r6 w 19 = d := Fin.ext (hl.2.1)
  have a2 : r6 w 13 = a := Fin.ext (hl.2.2.1)
  have a3 : r6 w 7 = b := Fin.ext (hl.2.2.2.1)
  refine wf_ok (by rw [e0]; decide) ?_ hf
  rw [flat30 w _ e0]; unfold decode30
  simp only [e1, e2, a1, a2, a3, Nat.reduceEqDiff, OfNat.ofNat_ne_zero, OfNat.zero_ne_ofNat, one_ne_zero, zero_ne_one, OfNat.one_ne_ofNat, OfNat.ofNat_ne_one, false_and, and_false, and_self, true_and, and_true, reduceIte]

theorem rarm (a : Fin 64) (b : Fin 64) (c : Fin 4) : Statement (.rarm a b c) := by
  intro hf w nx he
  have hw : w = 0x60000008 + a.val * 8192 + b.val * 128 + c.val := one (rfl : encode (.rarm a b c) = [0x60000008 + a.val * 8192 + b.val * 128 + c.val]) he
  have hl := layR (c := 48) (d := 0) (a := a.val) (b := b.val) (x := c.val + 8) (hw.trans (by clear * -; omega)) (by decide) (a.isLt) (b.isLt) (by have b0 := c.isLt; clear * - b0; omega)
  have e0 := hl.1
  have e1 : fld w 2 5 = 2 := (part 0 7 2 5 hl.2.2.2.2 (by decide) (by decide)).trans (by have b0 := c.isLt; clear * - b0; omega)
  have e2 : fld w 19 6 = 0 := hl.2.1
  have n1 : (fld w 0 7 = 4) = False := eq_false (by unfold fld; clear * - hw; omega)
  have a1 : r6 w 13 = a := Fin.ext (hl.2.2.1)
  have a2 : r6 w 7 = b := Fin.ext (hl.2.2.2.1)
  have a3 : r2 w 0 = c := Fin.ext ((part 0 7 0 2 hl.2.2.2.2 (by decide) (by decide)).trans (by have b0 := c.isLt; clear * - b0; omega))
  refine wf_ok (by rw [e0]; decide) ?_ hf
  rw [flat30 w _ e0]; unfold decode30
  simp only [e1, e2, a1, a2, a3, Nat.reduceEqDiff, OfNat.ofNat_ne_zero, OfNat.zero_ne_ofNat, one_ne_zero, zero_ne_one, OfNat.one_ne_ofNat, OfNat.ofNat_ne_one, false_and, and_false, and_self, true_and, and_true, reduceIte, n1]

theorem rdis (a : Fin 64) (b : Fin 64) (c : Fin 4) : Statement (.rdis a b c) := by
  intro hf w nx he
  have hw : w = 0x6000000c + a.val * 8192 + b.val * 128 + c.val := one (rfl : encode (.rdis a b c) = [0x6000000c + a.val * 8192 + b.val * 128 + c.val]) he
  have hl := layR (c := 48) (d := 0) (a := a.val) (b := b.val) (x := c.val + 12) (hw.trans (by clear * -; omega)) (by decide) (a.isLt) (b.isLt) (by have b0 := c.isLt; clear * - b0; omega)
  have e0 := hl.1
  have e1 : fld w 2 5 = 3 := (part 0 7 2 5 hl.2.2.2.2 (by decide) (by decide)).trans (by have b0 := c.isLt; clear * - b0; omega)
  have e2 : fld w 19 6 = 0 := hl.2.1
  have n1 : (fld w 0 7 = 4) = False := eq_false (by unfold fld; clear * - hw; omega)
  have a1 : r6 w 13 = a := Fin.ext (hl.2.2.1)
  have a2 : r6 w 7 = b := Fin.ext (hl.2.2.2.1)
  have a3 : r2 w 0 = c := Fin.ext ((part 0 7 0 2 hl.2.2.2.2 (by decide) (by decide)).trans (by have b0 := c.isLt; clear * - b0; omega))
  refine wf_ok (by rw [e0]; decide) ?_ hf
  rw [flat30 w _ e0]; unfold decode30
  simp only [e1, e2, a1, a2, a3, Nat.reduceEqDiff, OfNat.ofNat_ne_zero, OfNat.zero_ne_ofNat, one_ne_zero, zero_ne_one, OfNat.one_ne_ofNat, OfNat.ofNat_ne_one, false_and, and_false, and_self, true_and, and_true, reduceIte, n1]

theorem rstat (d : Fin 64) (c : Fin 4) : Statement (.rstat d c) := by
  intro hf w nx he
  have hw : w = 0x60000010 + d.val * 524288 + c.val := one (rfl : encode (.rstat d c) = [0x60000010 + d.val * 524288 + c.val]) he
  have hl := layR (c := 48) (d := d.val) (a := 0) (b := 0) (x := c.val + 16) (hw.trans (by clear * -; omega)) (d.isLt) (by decide) (by decide) (by have b0 := c.isLt; clear * - b0; omega)
  have e0 := hl.1
  have e1 : fld w 2 5 = 4 := (part 0 7 2 5 hl.2.2.2.2 (by decide) (by decide)).trans (by have b0 := c.isLt; clear * - b0; omega)
  have e2 : fld w 7 6 = 0 := hl.2.2.2.1
  have e3 : fld w 13 6 = 0 := hl.2.2.1
  have n1 : (fld w 0 7 = 4) = False := eq_false (by unfold fld; clear * - hw; omega)
  have a1 : r6 w 19 = d := Fin.ext (hl.2.1)
  have a2 : r2 w 0 = c := Fin.ext ((part 0 7 0 2 hl.2.2.2.2 (by decide) (by decide)).trans (by have b0 := c.isLt; clear * - b0; omega))
  refine wf_ok (by rw [e0]; decide) ?_ hf
  rw [flat30 w _ e0]; unfold decode30
  simp only [e1, e2, e3, a1, a2, Nat.reduceEqDiff, OfNat.ofNat_ne_zero, OfNat.zero_ne_ofNat, one_ne_zero, zero_ne_one, OfNat.one_ne_ofNat, OfNat.ofNat_ne_one, false_and, and_false, and_self, true_and, and_true, reduceIte, n1]

theorem rcapX (d : Fin 64) (a : Fin 64) (b : Fin 64) : Statement (.rcapX d a b) := by
  intro hf w nx he
  have hw : w = 0x60000014 + d.val * 524288 + a.val * 8192 + b.val * 128 := one (rfl : encode (.rcapX d a b) = [0x60000014 + d.val * 524288 + a.val * 8192 + b.val * 128]) he
  have hl := layR (c := 48) (d := d.val) (a := a.val) (b := b.val) (x := 20) (hw.trans (by clear * -; omega)) (d.isLt) (a.isLt) (b.isLt) (by decide)
  have e0 := hl.1
  have e1 : fld w 2 5 = 5 := (part 0 7 2 5 hl.2.2.2.2 (by decide) (by decide)).trans (by decide)
  have e2 : fld w 0 7 = 20 := hl.2.2.2.2
  have a1 : r6 w 19 = d := Fin.ext (hl.2.1)
  have a2 : r6 w 13 = a := Fin.ext (hl.2.2.1)
  have a3 : r6 w 7 = b := Fin.ext (hl.2.2.2.1)
  refine wf_ok (by rw [e0]; decide) ?_ hf
  rw [flat30 w _ e0]; unfold decode30
  simp only [e1, e2, a1, a2, a3, Nat.reduceEqDiff, OfNat.ofNat_ne_zero, OfNat.zero_ne_ofNat, one_ne_zero, zero_ne_one, OfNat.one_ne_ofNat, OfNat.ofNat_ne_one, false_and, and_false, and_self, true_and, and_true, reduceIte]

theorem rput (d : Fin 64) (a : Fin 64) (b : Fin 64) (o : Fin 8) (c : Fin 4) : Statement (.rput d a b o c) := by
  intro hf w nx he
  have hw : w = 0x62000000 + d.val * 524288 + a.val * 8192 + b.val * 128 + o.val * 4 + c.val := one (rfl : encode (.rput d a b o c) = [0x62000000 + d.val * 524288 + a.val * 8192 + b.val * 128 + o.val * 4 + c.val]) he
  have hl := layR (c := 49) (d := d.val) (a := a.val) (b := b.val) (x := o.val * 4 + c.val) (hw.trans (by clear * -; omega)) (d.isLt) (a.isLt) (b.isLt) (by have b0 := o.isLt; have b1 := c.isLt; clear * - b0 b1; omega)
  have e0 := hl.1
  have e1 : fld w 5 2 = 0 := (part 0 7 5 2 hl.2.2.2.2 (by decide) (by decide)).trans (by have b0 := o.isLt; have b1 := c.isLt; clear * - b0 b1; omega)
  have a1 : r6 w 19 = d := Fin.ext (hl.2.1)
  have a2 : r6 w 13 = a := Fin.ext (hl.2.2.1)
  have a3 : r6 w 7 = b := Fin.ext (hl.2.2.2.1)
  have a4 : r3 w 2 = o := Fin.ext ((part 0 7 2 3 hl.2.2.2.2 (by decide) (by decide)).trans (by have b0 := o.isLt; have b1 := c.isLt; clear * - b0 b1; omega))
  have a5 : r2 w 0 = c := Fin.ext ((part 0 7 0 2 hl.2.2.2.2 (by decide) (by decide)).trans (by have b0 := o.isLt; have b1 := c.isLt; clear * - b0 b1; omega))
  refine wf_ok (by rw [e0]; decide) ?_ hf
  rw [flat31 w _ e0]; unfold decode31
  simp only [e1, a1, a2, a3, a4, a5, Nat.reduceEqDiff, OfNat.ofNat_ne_zero, OfNat.zero_ne_ofNat, one_ne_zero, zero_ne_one, OfNat.one_ne_ofNat, OfNat.ofNat_ne_one, false_and, and_false, and_self, true_and, and_true, reduceIte]

theorem fmset (d : Fin 64) (b : Fin 64) : Statement (.fmset d b) := by
  intro hf w nx he
  have hw : w = 0x6c000000 + d.val * 524288 + b.val * 128 := one (rfl : encode (.fmset d b) = [0x6c000000 + d.val * 524288 + b.val * 128]) he
  have hl := layR (c := 54) (d := d.val) (a := 0) (b := b.val) (x := 0) (hw.trans (by clear * -; omega)) (d.isLt) (by decide) (b.isLt) (by decide)
  have e0 := hl.1
  have e1 : fld w 0 7 = 0 := hl.2.2.2.2
  have e2 : fld w 13 6 = 0 := hl.2.2.1
  have a1 : r6 w 19 = d := Fin.ext (hl.2.1)
  have a2 : r6 w 7 = b := Fin.ext (hl.2.2.2.1)
  refine wf_ok (by rw [e0]; decide) ?_ hf
  rw [flat36 w _ e0]; unfold decode36
  simp only [e1, e2, a1, a2, Nat.reduceEqDiff, OfNat.ofNat_ne_zero, OfNat.zero_ne_ofNat, one_ne_zero, zero_ne_one, OfNat.one_ne_ofNat, OfNat.ofNat_ne_one, false_and, and_false, and_self, true_and, and_true, reduceIte]

theorem fmsetK (d : Fin 64) (k : KRef) : Statement (.fmsetK d k) := by
  intro hf w nx he
  have hx : w = 0x6c000040 + d.val * 524288 ∧ nx = k.word := two (rfl : encode (.fmsetK d k) = [0x6c000040 + d.val * 524288, k.word]) he
  rw [hx.2]; replace hw := hx.1
  have hl := layR (c := 54) (d := d.val) (a := 0) (b := 0) (x := 64) (hw.trans (by clear * -; omega)) (d.isLt) (by decide) (by decide) (by decide)
  have e0 := hl.1
  have e1 : fld w 0 7 = 64 := hl.2.2.2.2
  have e2 : fld w 13 6 = 0 := hl.2.2.1
  have e3 : fld w 7 6 = 0 := hl.2.2.2.1
  have a1 : r6 w 19 = d := Fin.ext (hl.2.1)
  refine wf_ok (by rw [e0]; decide) ?_ hf
  rw [flat36 w _ e0]; unfold decode36
  simp only [e1, e2, e3, a1, (kref_word k).1, Nat.reduceEqDiff, OfNat.ofNat_ne_zero, OfNat.zero_ne_ofNat, one_ne_zero, zero_ne_one, OfNat.one_ne_ofNat, OfNat.ofNat_ne_one, false_and, and_false, and_self, true_and, and_true, reduceIte, (kref_word k).2]

theorem fmget (d : Fin 64) (a : Fin 64) : Statement (.fmget d a) := by
  intro hf w nx he
  have hw : w = 0x6c000001 + d.val * 524288 + a.val * 8192 := one (rfl : encode (.fmget d a) = [0x6c000001 + d.val * 524288 + a.val * 8192]) he
  have hl := layR (c := 54) (d := d.val) (a := a.val) (b := 0) (x := 1) (hw.trans (by clear * -; omega)) (d.isLt) (a.isLt) (by decide) (by decide)
  have e0 := hl.1
  have e1 : fld w 0 7 = 1 := hl.2.2.2.2
  have e2 : fld w 7 6 = 0 := hl.2.2.2.1
  have a1 : r6 w 19 = d := Fin.ext (hl.2.1)
  have a2 : r6 w 13 = a := Fin.ext (hl.2.2.1)
  refine wf_ok (by rw [e0]; decide) ?_ hf
  rw [flat36 w _ e0]; unfold decode36
  simp only [e1, e2, a1, a2, Nat.reduceEqDiff, OfNat.ofNat_ne_zero, OfNat.zero_ne_ofNat, one_ne_zero, zero_ne_one, OfNat.one_ne_ofNat, OfNat.ofNat_ne_one, false_and, and_false, and_self, true_and, and_true, reduceIte]

theorem getsr (d : Fin 64) (a : Fin 64) : Statement (.getsr d a) := by
  intro hf w nx he
  have hw : w = 0x6e000000 + d.val * 524288 + a.val * 8192 := one (rfl : encode (.getsr d a) = [0x6e000000 + d.val * 524288 + a.val * 8192]) he
  have hl := layR (c := 55) (d := d.val) (a := a.val) (b := 0) (x := 0) (hw.trans (by clear * -; omega)) (d.isLt) (a.isLt) (by decide) (by decide)
  have e0 := hl.1
  have e1 : fld w 0 7 = 0 := hl.2.2.2.2
  have e2 : fld w 7 6 = 0 := hl.2.2.2.1
  have a1 : r6 w 19 = d := Fin.ext (hl.2.1)
  have a2 : r6 w 13 = a := Fin.ext (hl.2.2.1)
  refine wf_ok (by rw [e0]; decide) ?_ hf
  rw [flat37 w _ e0]; unfold decode37
  simp only [e1, e2, a1, a2, Nat.reduceEqDiff, OfNat.ofNat_ne_zero, OfNat.zero_ne_ofNat, one_ne_zero, zero_ne_one, OfNat.one_ne_ofNat, OfNat.ofNat_ne_one, false_and, and_false, and_self, true_and, and_true, reduceIte]

theorem setsr (a : Fin 64) (b : Fin 64) : Statement (.setsr a b) := by
  intro hf w nx he
  have hw : w = 0x6e000001 + a.val * 8192 + b.val * 128 := one (rfl : encode (.setsr a b) = [0x6e000001 + a.val * 8192 + b.val * 128]) he
  have hl := layR (c := 55) (d := 0) (a := a.val) (b := b.val) (x := 1) (hw.trans (by clear * -; omega)) (by decide) (a.isLt) (b.isLt) (by decide)
  have e0 := hl.1
  have e1 : fld w 0 7 = 1 := hl.2.2.2.2
  have e2 : fld w 19 6 = 0 := hl.2.1
  have a1 : r6 w 13 = a := Fin.ext (hl.2.2.1)
  have a2 : r6 w 7 = b := Fin.ext (hl.2.2.2.1)
  refine wf_ok (by rw [e0]; decide) ?_ hf
  rw [flat37 w _ e0]; unfold decode37
  simp only [e1, e2, a1, a2, Nat.reduceEqDiff, OfNat.ofNat_ne_zero, OfNat.zero_ne_ofNat, one_ne_zero, zero_ne_one, OfNat.one_ne_ofNat, OfNat.ofNat_ne_one, false_and, and_false, and_self, true_and, and_true, reduceIte]

theorem tcnt (d : Fin 64) : Statement (.tcnt d) := by
  intro hf w nx he
  have hw : w = 0x6e000002 + d.val * 524288 := one (rfl : encode (.tcnt d) = [0x6e000002 + d.val * 524288]) he
  have hl := layR (c := 55) (d := d.val) (a := 0) (b := 0) (x := 2) (hw.trans (by clear * -; omega)) (d.isLt) (by decide) (by decide) (by decide)
  have e0 := hl.1
  have e1 : fld w 0 7 = 2 := hl.2.2.2.2
  have e2 : fld w 7 6 = 0 := hl.2.2.2.1
  have e3 : fld w 13 6 = 0 := hl.2.2.1
  have a1 : r6 w 19 = d := Fin.ext (hl.2.1)
  refine wf_ok (by rw [e0]; decide) ?_ hf
  rw [flat37 w _ e0]; unfold decode37
  simp only [e1, e2, e3, a1, Nat.reduceEqDiff, OfNat.ofNat_ne_zero, OfNat.zero_ne_ofNat, one_ne_zero, zero_ne_one, OfNat.one_ne_ofNat, OfNat.ofNat_ne_one, false_and, and_false, and_self, true_and, and_true, reduceIte]

theorem setcw (d : Fin 64) (b : Fin 64) : Statement (.setcw d b) := by
  intro hf w nx he
  have hw : w = 0x6e000003 + d.val * 524288 + b.val * 128 := one (rfl : encode (.setcw d b) = [0x6e000003 + d.val * 524288 + b.val * 128]) he
  have hl := layR (c := 55) (d := d.val) (a := 0) (b := b.val) (x := 3) (hw.trans (by clear * -; omega)) (d.isLt) (by decide) (b.isLt) (by decide)
  have e0 := hl.1
  have e1 : fld w 0 7 = 3 := hl.2.2.2.2
  have e2 : fld w 13 6 = 0 := hl.2.2.1
  have a1 : r6 w 19 = d := Fin.ext (hl.2.1)
  have a2 : r6 w 7 = b := Fin.ext (hl.2.2.2.1)
  refine wf_ok (by rw [e0]; decide) ?_ hf
  rw [flat37 w _ e0]; unfold decode37
  simp only [e1, e2, a1, a2, Nat.reduceEqDiff, OfNat.ofNat_ne_zero, OfNat.zero_ne_ofNat, one_ne_zero, zero_ne_one, OfNat.one_ne_ofNat, OfNat.ofNat_ne_one, false_and, and_false, and_self, true_and, and_true, reduceIte]

theorem sys (i : BitVec 13) : Statement (.sys i) := by
  intro hf w nx he
  have hw : w = 0x70000000 + i.toNat := one (rfl : encode (.sys i) = [0x70000000 + i.toNat]) he
  have hl := layI (c := 56) (d := 0) (a := 0) (x := i.toNat) (hw.trans (by clear * -; omega)) (by decide) (by decide) (i.isLt)
  have e0 := hl.1
  have e1 : fld w 13 6 = 0 := hl.2.2.1
  have e2 : fld w 19 6 = 0 := hl.2.1
  have a1 : i13 w = i := BitVec.eq_of_toNat_eq ((BitVec.toNat_ofNat ..).trans (low hl.2.2.2))
  refine wf_ok (by rw [e0]; decide) ?_ hf
  rw [flat38 w _ e0]; unfold decode38
  simp only [e1, e2, a1, Nat.reduceEqDiff, OfNat.ofNat_ne_zero, OfNat.zero_ne_ofNat, one_ne_zero, zero_ne_one, OfNat.one_ne_ofNat, OfNat.ofNat_ne_one, false_and, and_false, and_self, true_and, and_true, reduceIte]

theorem trap : Statement (.trap) := by
  intro hf w nx he
  have hw : w = 0x70080000 := one (rfl : encode (.trap) = [0x70080000]) he
  have hl := layR (c := 56) (d := 1) (a := 0) (b := 0) (x := 0) (hw.trans (by clear * -; omega)) (by decide) (by decide) (by decide) (by decide)
  have e0 := hl.1
  have e1 : fld w 13 6 = 0 := hl.2.2.1
  have e2 : fld w 19 6 = 1 := hl.2.1
  have e3 : fld w 0 7 = 0 := hl.2.2.2.2
  have e4 : fld w 7 6 = 0 := hl.2.2.2.1
  refine wf_ok (by rw [e0]; decide) ?_ hf
  rw [flat38 w _ e0]; unfold decode38
  simp only [e1, e2, e3, e4, Nat.reduceEqDiff, OfNat.ofNat_ne_zero, OfNat.zero_ne_ofNat, one_ne_zero, zero_ne_one, OfNat.one_ne_ofNat, OfNat.ofNat_ne_one, false_and, and_false, and_self, true_and, and_true, reduceIte]

theorem rfe : Statement (.rfe) := by
  intro hf w nx he
  have hw : w = 0x70100000 := one (rfl : encode (.rfe) = [0x70100000]) he
  have hl := layR (c := 56) (d := 2) (a := 0) (b := 0) (x := 0) (hw.trans (by clear * -; omega)) (by decide) (by decide) (by decide) (by decide)
  have e0 := hl.1
  have e1 : fld w 13 6 = 0 := hl.2.2.1
  have e2 : fld w 19 6 = 2 := hl.2.1
  have e3 : fld w 0 7 = 0 := hl.2.2.2.2
  have e4 : fld w 7 6 = 0 := hl.2.2.2.1
  refine wf_ok (by rw [e0]; decide) ?_ hf
  rw [flat38 w _ e0]; unfold decode38
  simp only [e1, e2, e3, e4, Nat.reduceEqDiff, OfNat.ofNat_ne_zero, OfNat.zero_ne_ofNat, one_ne_zero, zero_ne_one, OfNat.one_ne_ofNat, OfNat.ofNat_ne_one, false_and, and_false, and_self, true_and, and_true, reduceIte]

theorem launch (d : Fin 64) (a : Fin 64) : Statement (.launch d a) := by
  intro hf w nx he
  have hw : w = 0x72000000 + d.val * 524288 + a.val * 8192 := one (rfl : encode (.launch d a) = [0x72000000 + d.val * 524288 + a.val * 8192]) he
  have hl := layR (c := 57) (d := d.val) (a := a.val) (b := 0) (x := 0) (hw.trans (by clear * -; omega)) (d.isLt) (a.isLt) (by decide) (by decide)
  have e0 := hl.1
  have e1 : fld w 0 7 = 0 := hl.2.2.2.2
  have e2 : fld w 7 6 = 0 := hl.2.2.2.1
  have a1 : r6 w 19 = d := Fin.ext (hl.2.1)
  have a2 : r6 w 13 = a := Fin.ext (hl.2.2.1)
  refine wf_ok (by rw [e0]; decide) ?_ hf
  rw [flat39 w _ e0]; unfold decode39
  simp only [e1, e2, a1, a2, Nat.reduceEqDiff, OfNat.ofNat_ne_zero, OfNat.zero_ne_ofNat, one_ne_zero, zero_ne_one, OfNat.one_ne_ofNat, OfNat.ofNat_ne_one, false_and, and_false, and_self, true_and, and_true, reduceIte]

theorem cpush (d : Fin 64) (a : Fin 64) : Statement (.cpush d a) := by
  intro hf w nx he
  have hw : w = 0x72000001 + d.val * 524288 + a.val * 8192 := one (rfl : encode (.cpush d a) = [0x72000001 + d.val * 524288 + a.val * 8192]) he
  have hl := layR (c := 57) (d := d.val) (a := a.val) (b := 0) (x := 1) (hw.trans (by clear * -; omega)) (d.isLt) (a.isLt) (by decide) (by decide)
  have e0 := hl.1
  have e1 : fld w 0 7 = 1 := hl.2.2.2.2
  have e2 : fld w 7 6 = 0 := hl.2.2.2.1
  have a1 : r6 w 19 = d := Fin.ext (hl.2.1)
  have a2 : r6 w 13 = a := Fin.ext (hl.2.2.1)
  refine wf_ok (by rw [e0]; decide) ?_ hf
  rw [flat39 w _ e0]; unfold decode39
  simp only [e1, e2, a1, a2, Nat.reduceEqDiff, OfNat.ofNat_ne_zero, OfNat.zero_ne_ofNat, one_ne_zero, zero_ne_one, OfNat.one_ne_ofNat, OfNat.ofNat_ne_one, false_and, and_false, and_self, true_and, and_true, reduceIte]

theorem cjoin (a : Fin 64) : Statement (.cjoin a) := by
  intro hf w nx he
  have hw : w = 0x72000002 + a.val * 8192 := one (rfl : encode (.cjoin a) = [0x72000002 + a.val * 8192]) he
  have hl := layR (c := 57) (d := 0) (a := a.val) (b := 0) (x := 2) (hw.trans (by clear * -; omega)) (by decide) (a.isLt) (by decide) (by decide)
  have e0 := hl.1
  have e1 : fld w 0 7 = 2 := hl.2.2.2.2
  have e2 : fld w 7 6 = 0 := hl.2.2.2.1
  have e3 : fld w 19 6 = 0 := hl.2.1
  have a1 : r6 w 13 = a := Fin.ext (hl.2.2.1)
  refine wf_ok (by rw [e0]; decide) ?_ hf
  rw [flat39 w _ e0]; unfold decode39
  simp only [e1, e2, e3, a1, Nat.reduceEqDiff, OfNat.ofNat_ne_zero, OfNat.zero_ne_ofNat, one_ne_zero, zero_ne_one, OfNat.one_ne_ofNat, OfNat.ofNat_ne_one, false_and, and_false, and_self, true_and, and_true, reduceIte]

theorem stopat (a : Fin 64) (b : Fin 64) : Statement (.stopat a b) := by
  intro hf w nx he
  have hw : w = 0x72000003 + a.val * 8192 + b.val * 128 := one (rfl : encode (.stopat a b) = [0x72000003 + a.val * 8192 + b.val * 128]) he
  have hl := layR (c := 57) (d := 0) (a := a.val) (b := b.val) (x := 3) (hw.trans (by clear * -; omega)) (by decide) (a.isLt) (b.isLt) (by decide)
  have e0 := hl.1
  have e1 : fld w 0 7 = 3 := hl.2.2.2.2
  have e2 : fld w 19 6 = 0 := hl.2.1
  have a1 : r6 w 13 = a := Fin.ext (hl.2.2.1)
  have a2 : r6 w 7 = b := Fin.ext (hl.2.2.2.1)
  refine wf_ok (by rw [e0]; decide) ?_ hf
  rw [flat39 w _ e0]; unfold decode39
  simp only [e1, e2, a1, a2, Nat.reduceEqDiff, OfNat.ofNat_ne_zero, OfNat.zero_ne_ofNat, one_ne_zero, zero_ne_one, OfNat.one_ne_ofNat, OfNat.ofNat_ne_one, false_and, and_false, and_self, true_and, and_true, reduceIte]

theorem hq (d : Fin 64) (a : Fin 64) : Statement (.hq d a) := by
  intro hf w nx he
  have hw : w = 0x74000000 + d.val * 524288 + a.val * 8192 := one (rfl : encode (.hq d a) = [0x74000000 + d.val * 524288 + a.val * 8192]) he
  have hl := layR (c := 58) (d := d.val) (a := a.val) (b := 0) (x := 0) (hw.trans (by clear * -; omega)) (d.isLt) (a.isLt) (by decide) (by decide)
  have e0 := hl.1
  have e1 : fld w 0 7 = 0 := hl.2.2.2.2
  have e2 : fld w 7 6 = 0 := hl.2.2.2.1
  have a1 : r6 w 19 = d := Fin.ext (hl.2.1)
  have a2 : r6 w 13 = a := Fin.ext (hl.2.2.1)
  refine wf_ok (by rw [e0]; decide) ?_ hf
  rw [flat3A w _ e0]; unfold decode3A
  simp only [e1, e2, a1, a2, Nat.reduceEqDiff, OfNat.ofNat_ne_zero, OfNat.zero_ne_ofNat, one_ne_zero, zero_ne_one, OfNat.one_ne_ofNat, OfNat.ofNat_ne_one, false_and, and_false, and_self, true_and, and_true, reduceIte]

theorem hqRd (d : Fin 64) (a : Fin 64) : Statement (.hqRd d a) := by
  intro hf w nx he
  have hw : w = 0x74000001 + d.val * 524288 + a.val * 8192 := one (rfl : encode (.hqRd d a) = [0x74000001 + d.val * 524288 + a.val * 8192]) he
  have hl := layR (c := 58) (d := d.val) (a := a.val) (b := 0) (x := 1) (hw.trans (by clear * -; omega)) (d.isLt) (a.isLt) (by decide) (by decide)
  have e0 := hl.1
  have e1 : fld w 0 7 = 1 := hl.2.2.2.2
  have e2 : fld w 7 6 = 0 := hl.2.2.2.1
  have a1 : r6 w 19 = d := Fin.ext (hl.2.1)
  have a2 : r6 w 13 = a := Fin.ext (hl.2.2.1)
  refine wf_ok (by rw [e0]; decide) ?_ hf
  rw [flat3A w _ e0]; unfold decode3A
  simp only [e1, e2, a1, a2, Nat.reduceEqDiff, OfNat.ofNat_ne_zero, OfNat.zero_ne_ofNat, one_ne_zero, zero_ne_one, OfNat.one_ne_ofNat, OfNat.ofNat_ne_one, false_and, and_false, and_self, true_and, and_true, reduceIte]

theorem lack : Statement (.lack) := by
  intro hf w nx he
  have hw : w = 0x74000002 := one (rfl : encode (.lack) = [0x74000002]) he
  have hl := layR (c := 58) (d := 0) (a := 0) (b := 0) (x := 2) (hw.trans (by clear * -; omega)) (by decide) (by decide) (by decide) (by decide)
  have e0 := hl.1
  have e1 : fld w 0 7 = 2 := hl.2.2.2.2
  have e2 : fld w 7 6 = 0 := hl.2.2.2.1
  have e3 : fld w 13 6 = 0 := hl.2.2.1
  have e4 : fld w 19 6 = 0 := hl.2.1
  refine wf_ok (by rw [e0]; decide) ?_ hf
  rw [flat3A w _ e0]; unfold decode3A
  simp only [e1, e2, e3, e4, Nat.reduceEqDiff, OfNat.ofNat_ne_zero, OfNat.zero_ne_ofNat, one_ne_zero, zero_ne_one, OfNat.one_ne_ofNat, OfNat.ofNat_ne_one, false_and, and_false, and_self, true_and, and_true, reduceIte]

theorem lackOff : Statement (.lackOff) := by
  intro hf w nx he
  have hw : w = 0x74000003 := one (rfl : encode (.lackOff) = [0x74000003]) he
  have hl := layR (c := 58) (d := 0) (a := 0) (b := 0) (x := 3) (hw.trans (by clear * -; omega)) (by decide) (by decide) (by decide) (by decide)
  have e0 := hl.1
  have e1 : fld w 0 7 = 3 := hl.2.2.2.2
  have e2 : fld w 7 6 = 0 := hl.2.2.2.1
  have e3 : fld w 13 6 = 0 := hl.2.2.1
  have e4 : fld w 19 6 = 0 := hl.2.1
  refine wf_ok (by rw [e0]; decide) ?_ hf
  rw [flat3A w _ e0]; unfold decode3A
  simp only [e1, e2, e3, e4, Nat.reduceEqDiff, OfNat.ofNat_ne_zero, OfNat.zero_ne_ofNat, one_ne_zero, zero_ne_one, OfNat.one_ne_ofNat, OfNat.ofNat_ne_one, false_and, and_false, and_self, true_and, and_true, reduceIte]

theorem hauth (a : Fin 64) (b : Fin 64) : Statement (.hauth a b) := by
  intro hf w nx he
  have hw : w = 0x74000004 + a.val * 8192 + b.val * 128 := one (rfl : encode (.hauth a b) = [0x74000004 + a.val * 8192 + b.val * 128]) he
  have hl := layR (c := 58) (d := 0) (a := a.val) (b := b.val) (x := 4) (hw.trans (by clear * -; omega)) (by decide) (a.isLt) (b.isLt) (by decide)
  have e0 := hl.1
  have e1 : fld w 0 7 = 4 := hl.2.2.2.2
  have e2 : fld w 19 6 = 0 := hl.2.1
  have a1 : r6 w 13 = a := Fin.ext (hl.2.2.1)
  have a2 : r6 w 7 = b := Fin.ext (hl.2.2.2.1)
  refine wf_ok (by rw [e0]; decide) ?_ hf
  rw [flat3A w _ e0]; unfold decode3A
  simp only [e1, e2, a1, a2, Nat.reduceEqDiff, OfNat.ofNat_ne_zero, OfNat.zero_ne_ofNat, one_ne_zero, zero_ne_one, OfNat.one_ne_ofNat, OfNat.ofNat_ne_one, false_and, and_false, and_self, true_and, and_true, reduceIte]

theorem pmig (a : Fin 64) (b : Fin 64) : Statement (.pmig a b) := by
  intro hf w nx he
  have hw : w = 0x7c000000 + a.val * 8192 + b.val * 128 := one (rfl : encode (.pmig a b) = [0x7c000000 + a.val * 8192 + b.val * 128]) he
  have hl := layR (c := 62) (d := 0) (a := a.val) (b := b.val) (x := 0) (hw.trans (by clear * -; omega)) (by decide) (a.isLt) (b.isLt) (by decide)
  have e0 := hl.1
  have e1 : fld w 0 7 = 0 := hl.2.2.2.2
  have e2 : fld w 19 6 = 0 := hl.2.1
  have a1 : r6 w 13 = a := Fin.ext (hl.2.2.1)
  have a2 : r6 w 7 = b := Fin.ext (hl.2.2.2.1)
  refine wf_ok (by rw [e0]; decide) ?_ hf
  rw [flat3E w _ e0]; unfold decode3E
  simp only [e1, e2, a1, a2, Nat.reduceEqDiff, OfNat.ofNat_ne_zero, OfNat.zero_ne_ofNat, one_ne_zero, zero_ne_one, OfNat.one_ne_ofNat, OfNat.ofNat_ne_one, false_and, and_false, and_self, true_and, and_true, reduceIte]

theorem pmigClr (a : Fin 64) : Statement (.pmigClr a) := by
  intro hf w nx he
  have hw : w = 0x7c000001 + a.val * 8192 := one (rfl : encode (.pmigClr a) = [0x7c000001 + a.val * 8192]) he
  have hl := layR (c := 62) (d := 0) (a := a.val) (b := 0) (x := 1) (hw.trans (by clear * -; omega)) (by decide) (a.isLt) (by decide) (by decide)
  have e0 := hl.1
  have e1 : fld w 0 7 = 1 := hl.2.2.2.2
  have e2 : fld w 19 6 = 0 := hl.2.1
  have e3 : fld w 7 6 = 0 := hl.2.2.2.1
  have a1 : r6 w 13 = a := Fin.ext (hl.2.2.1)
  refine wf_ok (by rw [e0]; decide) ?_ hf
  rw [flat3E w _ e0]; unfold decode3E
  simp only [e1, e2, e3, a1, Nat.reduceEqDiff, OfNat.ofNat_ne_zero, OfNat.zero_ne_ofNat, one_ne_zero, zero_ne_one, OfNat.one_ne_ofNat, OfNat.ofNat_ne_one, false_and, and_false, and_self, true_and, and_true, reduceIte]

theorem mcohHw (a : Fin 64) (b : Fin 64) : Statement (.mcohHw a b) := by
  intro hf w nx he
  have hw : w = 0x7c000002 + a.val * 8192 + b.val * 128 := one (rfl : encode (.mcohHw a b) = [0x7c000002 + a.val * 8192 + b.val * 128]) he
  have hl := layR (c := 62) (d := 0) (a := a.val) (b := b.val) (x := 2) (hw.trans (by clear * -; omega)) (by decide) (a.isLt) (b.isLt) (by decide)
  have e0 := hl.1
  have e1 : fld w 0 7 = 2 := hl.2.2.2.2
  have e2 : fld w 19 6 = 0 := hl.2.1
  have a1 : r6 w 13 = a := Fin.ext (hl.2.2.1)
  have a2 : r6 w 7 = b := Fin.ext (hl.2.2.2.1)
  refine wf_ok (by rw [e0]; decide) ?_ hf
  rw [flat3E w _ e0]; unfold decode3E
  simp only [e1, e2, a1, a2, Nat.reduceEqDiff, OfNat.ofNat_ne_zero, OfNat.zero_ne_ofNat, one_ne_zero, zero_ne_one, OfNat.one_ne_ofNat, OfNat.ofNat_ne_one, false_and, and_false, and_self, true_and, and_true, reduceIte]

theorem mcohSw (a : Fin 64) : Statement (.mcohSw a) := by
  intro hf w nx he
  have hw : w = 0x7c000003 + a.val * 8192 := one (rfl : encode (.mcohSw a) = [0x7c000003 + a.val * 8192]) he
  have hl := layR (c := 62) (d := 0) (a := a.val) (b := 0) (x := 3) (hw.trans (by clear * -; omega)) (by decide) (a.isLt) (by decide) (by decide)
  have e0 := hl.1
  have e1 : fld w 0 7 = 3 := hl.2.2.2.2
  have e2 : fld w 19 6 = 0 := hl.2.1
  have e3 : fld w 7 6 = 0 := hl.2.2.2.1
  have a1 : r6 w 13 = a := Fin.ext (hl.2.2.1)
  refine wf_ok (by rw [e0]; decide) ?_ hf
  rw [flat3E w _ e0]; unfold decode3E
  simp only [e1, e2, e3, a1, Nat.reduceEqDiff, OfNat.ofNat_ne_zero, OfNat.zero_ne_ofNat, one_ne_zero, zero_ne_one, OfNat.one_ne_ofNat, OfNat.ofNat_ne_one, false_and, and_false, and_self, true_and, and_true, reduceIte]

theorem wmask (a : Fin 64) (b : Fin 64) : Statement (.wmask a b) := by
  intro hf w nx he
  have hw : w = 0x7c000004 + a.val * 8192 + b.val * 128 := one (rfl : encode (.wmask a b) = [0x7c000004 + a.val * 8192 + b.val * 128]) he
  have hl := layR (c := 62) (d := 0) (a := a.val) (b := b.val) (x := 4) (hw.trans (by clear * -; omega)) (by decide) (a.isLt) (b.isLt) (by decide)
  have e0 := hl.1
  have e1 : fld w 0 7 = 4 := hl.2.2.2.2
  have e2 : fld w 19 6 = 0 := hl.2.1
  have a1 : r6 w 13 = a := Fin.ext (hl.2.2.1)
  have a2 : r6 w 7 = b := Fin.ext (hl.2.2.2.1)
  refine wf_ok (by rw [e0]; decide) ?_ hf
  rw [flat3E w _ e0]; unfold decode3E
  simp only [e1, e2, a1, a2, Nat.reduceEqDiff, OfNat.ofNat_ne_zero, OfNat.zero_ne_ofNat, one_ne_zero, zero_ne_one, OfNat.one_ne_ofNat, OfNat.ofNat_ne_one, false_and, and_false, and_self, true_and, and_true, reduceIte]

theorem vaddF (t : Fin 4) (d : Fin 64) (a : Fin 64) (b : BOp) (g : Fin 8) : Statement (.vaddF t d a b g) := by
  intro hf w nx he
  cases b with
  | reg r =>
    rcases (by omega : t.val = 0 ∨ t.val = 1 ∨ t.val = 2 ∨ t.val = 3) with ht | ht | ht | ht
    · have hw : w = 0x80000000 + t.val * 33554432 + d.val * 524288 + a.val * 8192 + r.val * 128 + g.val * 8 := one (rfl : encode (.vaddF t d a (.reg r) g) = [0x80000000 + t.val * 33554432 + d.val * 524288 + a.val * 8192 + r.val * 128 + g.val * 8]) he
      have hl := layR (c := 64) (d := d.val) (a := a.val) (b := r.val) (x := g.val * 8) (hw.trans (by clear * - ht; omega)) (d.isLt) (a.isLt) (r.isLt) (by have b0 := g.isLt; clear * - b0; omega)
      have e0 := hl.1
      have e1 : fld w 0 3 = 0 := (part 0 7 0 3 hl.2.2.2.2 (by decide) (by decide)).trans (by have b0 := g.isLt; clear * - b0; omega)
      have e2 : fld w 6 1 = 0 := (part 0 7 6 1 hl.2.2.2.2 (by decide) (by decide)).trans (by have b0 := g.isLt; clear * - b0; omega)
      have a1 : r2 w 25 = t := Fin.ext (by show w / 2 ^ 25 % 4 = t.val; clear * - hw ht; omega)
      have a2 : r6 w 19 = d := Fin.ext (hl.2.1)
      have a3 : r6 w 13 = a := Fin.ext (hl.2.2.1)
      have a4 : r6 w 7 = r := Fin.ext (hl.2.2.2.1)
      have a5 : r3 w 3 = g := Fin.ext ((part 0 7 3 3 hl.2.2.2.2 (by decide) (by decide)).trans (by have b0 := g.isLt; clear * - b0; omega))
      refine wf_ok (by rw [e0]; decide) ?_ hf
      rw [flat40 w _ e0]; unfold decode40
      simp only [e1, e2, a1, a2, a3, a4, a5, Nat.reduceEqDiff, OfNat.ofNat_ne_zero, OfNat.zero_ne_ofNat, one_ne_zero, zero_ne_one, OfNat.one_ne_ofNat, OfNat.ofNat_ne_one, false_and, and_false, and_self, true_and, and_true, reduceIte]
    · have hw : w = 0x80000000 + t.val * 33554432 + d.val * 524288 + a.val * 8192 + r.val * 128 + g.val * 8 := one (rfl : encode (.vaddF t d a (.reg r) g) = [0x80000000 + t.val * 33554432 + d.val * 524288 + a.val * 8192 + r.val * 128 + g.val * 8]) he
      have hl := layR (c := 65) (d := d.val) (a := a.val) (b := r.val) (x := g.val * 8) (hw.trans (by clear * - ht; omega)) (d.isLt) (a.isLt) (r.isLt) (by have b0 := g.isLt; clear * - b0; omega)
      have e0 := hl.1
      have e1 : fld w 0 3 = 0 := (part 0 7 0 3 hl.2.2.2.2 (by decide) (by decide)).trans (by have b0 := g.isLt; clear * - b0; omega)
      have e2 : fld w 6 1 = 0 := (part 0 7 6 1 hl.2.2.2.2 (by decide) (by decide)).trans (by have b0 := g.isLt; clear * - b0; omega)
      have a1 : r2 w 25 = t := Fin.ext (by show w / 2 ^ 25 % 4 = t.val; clear * - hw ht; omega)
      have a2 : r6 w 19 = d := Fin.ext (hl.2.1)
      have a3 : r6 w 13 = a := Fin.ext (hl.2.2.1)
      have a4 : r6 w 7 = r := Fin.ext (hl.2.2.2.1)
      have a5 : r3 w 3 = g := Fin.ext ((part 0 7 3 3 hl.2.2.2.2 (by decide) (by decide)).trans (by have b0 := g.isLt; clear * - b0; omega))
      refine wf_ok (by rw [e0]; decide) ?_ hf
      rw [flat41 w _ e0]; unfold decode41
      simp only [e1, e2, a1, a2, a3, a4, a5, Nat.reduceEqDiff, OfNat.ofNat_ne_zero, OfNat.zero_ne_ofNat, one_ne_zero, zero_ne_one, OfNat.one_ne_ofNat, OfNat.ofNat_ne_one, false_and, and_false, and_self, true_and, and_true, reduceIte]
    · have hw : w = 0x80000000 + t.val * 33554432 + d.val * 524288 + a.val * 8192 + r.val * 128 + g.val * 8 := one (rfl : encode (.vaddF t d a (.reg r) g) = [0x80000000 + t.val * 33554432 + d.val * 524288 + a.val * 8192 + r.val * 128 + g.val * 8]) he
      have hl := layR (c := 66) (d := d.val) (a := a.val) (b := r.val) (x := g.val * 8) (hw.trans (by clear * - ht; omega)) (d.isLt) (a.isLt) (r.isLt) (by have b0 := g.isLt; clear * - b0; omega)
      have e0 := hl.1
      have e1 : fld w 0 3 = 0 := (part 0 7 0 3 hl.2.2.2.2 (by decide) (by decide)).trans (by have b0 := g.isLt; clear * - b0; omega)
      have e2 : fld w 6 1 = 0 := (part 0 7 6 1 hl.2.2.2.2 (by decide) (by decide)).trans (by have b0 := g.isLt; clear * - b0; omega)
      have a1 : r2 w 25 = t := Fin.ext (by show w / 2 ^ 25 % 4 = t.val; clear * - hw ht; omega)
      have a2 : r6 w 19 = d := Fin.ext (hl.2.1)
      have a3 : r6 w 13 = a := Fin.ext (hl.2.2.1)
      have a4 : r6 w 7 = r := Fin.ext (hl.2.2.2.1)
      have a5 : r3 w 3 = g := Fin.ext ((part 0 7 3 3 hl.2.2.2.2 (by decide) (by decide)).trans (by have b0 := g.isLt; clear * - b0; omega))
      refine wf_ok (by rw [e0]; decide) ?_ hf
      rw [flat42 w _ e0]; unfold decode42
      simp only [e1, e2, a1, a2, a3, a4, a5, Nat.reduceEqDiff, OfNat.ofNat_ne_zero, OfNat.zero_ne_ofNat, one_ne_zero, zero_ne_one, OfNat.one_ne_ofNat, OfNat.ofNat_ne_one, false_and, and_false, and_self, true_and, and_true, reduceIte]
    · exact absurd (show (decide (t.val < 3) && vv d a && BOp.isV (BOp.reg r)) = true from hf) (by simp [ht])
  | konst k =>
    rcases (by omega : t.val = 0 ∨ t.val = 1 ∨ t.val = 2 ∨ t.val = 3) with ht | ht | ht | ht
    · have hx : w = 0x80000000 + t.val * 33554432 + d.val * 524288 + a.val * 8192 + 64 + g.val * 8 ∧ nx = k.word := two (rfl : encode (.vaddF t d a (.konst k) g) = [0x80000000 + t.val * 33554432 + d.val * 524288 + a.val * 8192 + 64 + g.val * 8, k.word]) he
      rw [hx.2]; replace hw := hx.1
      have hl := layR (c := 64) (d := d.val) (a := a.val) (b := 0) (x := g.val * 8 + 64) (hw.trans (by clear * - ht; omega)) (d.isLt) (a.isLt) (by decide) (by have b0 := g.isLt; clear * - b0; omega)
      have e0 := hl.1
      have e1 : fld w 0 3 = 0 := (part 0 7 0 3 hl.2.2.2.2 (by decide) (by decide)).trans (by have b0 := g.isLt; clear * - b0; omega)
      have e2 : fld w 6 1 = 1 := (part 0 7 6 1 hl.2.2.2.2 (by decide) (by decide)).trans (by have b0 := g.isLt; clear * - b0; omega)
      have e3 : fld w 7 6 = 0 := hl.2.2.2.1
      have a1 : r2 w 25 = t := Fin.ext (by show w / 2 ^ 25 % 4 = t.val; clear * - hw ht; omega)
      have a2 : r6 w 19 = d := Fin.ext (hl.2.1)
      have a3 : r6 w 13 = a := Fin.ext (hl.2.2.1)
      have a4 : r3 w 3 = g := Fin.ext ((part 0 7 3 3 hl.2.2.2.2 (by decide) (by decide)).trans (by have b0 := g.isLt; clear * - b0; omega))
      refine wf_ok (by rw [e0]; decide) ?_ hf
      rw [flat40 w _ e0]; unfold decode40
      simp only [e1, e2, e3, a1, a2, a3, (kref_word k).1, a4, Nat.reduceEqDiff, OfNat.ofNat_ne_zero, OfNat.zero_ne_ofNat, one_ne_zero, zero_ne_one, OfNat.one_ne_ofNat, OfNat.ofNat_ne_one, false_and, and_false, and_self, true_and, and_true, reduceIte, (kref_word k).2]
    · have hx : w = 0x80000000 + t.val * 33554432 + d.val * 524288 + a.val * 8192 + 64 + g.val * 8 ∧ nx = k.word := two (rfl : encode (.vaddF t d a (.konst k) g) = [0x80000000 + t.val * 33554432 + d.val * 524288 + a.val * 8192 + 64 + g.val * 8, k.word]) he
      rw [hx.2]; replace hw := hx.1
      have hl := layR (c := 65) (d := d.val) (a := a.val) (b := 0) (x := g.val * 8 + 64) (hw.trans (by clear * - ht; omega)) (d.isLt) (a.isLt) (by decide) (by have b0 := g.isLt; clear * - b0; omega)
      have e0 := hl.1
      have e1 : fld w 0 3 = 0 := (part 0 7 0 3 hl.2.2.2.2 (by decide) (by decide)).trans (by have b0 := g.isLt; clear * - b0; omega)
      have e2 : fld w 6 1 = 1 := (part 0 7 6 1 hl.2.2.2.2 (by decide) (by decide)).trans (by have b0 := g.isLt; clear * - b0; omega)
      have e3 : fld w 7 6 = 0 := hl.2.2.2.1
      have a1 : r2 w 25 = t := Fin.ext (by show w / 2 ^ 25 % 4 = t.val; clear * - hw ht; omega)
      have a2 : r6 w 19 = d := Fin.ext (hl.2.1)
      have a3 : r6 w 13 = a := Fin.ext (hl.2.2.1)
      have a4 : r3 w 3 = g := Fin.ext ((part 0 7 3 3 hl.2.2.2.2 (by decide) (by decide)).trans (by have b0 := g.isLt; clear * - b0; omega))
      refine wf_ok (by rw [e0]; decide) ?_ hf
      rw [flat41 w _ e0]; unfold decode41
      simp only [e1, e2, e3, a1, a2, a3, (kref_word k).1, a4, Nat.reduceEqDiff, OfNat.ofNat_ne_zero, OfNat.zero_ne_ofNat, one_ne_zero, zero_ne_one, OfNat.one_ne_ofNat, OfNat.ofNat_ne_one, false_and, and_false, and_self, true_and, and_true, reduceIte, (kref_word k).2]
    · have hx : w = 0x80000000 + t.val * 33554432 + d.val * 524288 + a.val * 8192 + 64 + g.val * 8 ∧ nx = k.word := two (rfl : encode (.vaddF t d a (.konst k) g) = [0x80000000 + t.val * 33554432 + d.val * 524288 + a.val * 8192 + 64 + g.val * 8, k.word]) he
      rw [hx.2]; replace hw := hx.1
      have hl := layR (c := 66) (d := d.val) (a := a.val) (b := 0) (x := g.val * 8 + 64) (hw.trans (by clear * - ht; omega)) (d.isLt) (a.isLt) (by decide) (by have b0 := g.isLt; clear * - b0; omega)
      have e0 := hl.1
      have e1 : fld w 0 3 = 0 := (part 0 7 0 3 hl.2.2.2.2 (by decide) (by decide)).trans (by have b0 := g.isLt; clear * - b0; omega)
      have e2 : fld w 6 1 = 1 := (part 0 7 6 1 hl.2.2.2.2 (by decide) (by decide)).trans (by have b0 := g.isLt; clear * - b0; omega)
      have e3 : fld w 7 6 = 0 := hl.2.2.2.1
      have a1 : r2 w 25 = t := Fin.ext (by show w / 2 ^ 25 % 4 = t.val; clear * - hw ht; omega)
      have a2 : r6 w 19 = d := Fin.ext (hl.2.1)
      have a3 : r6 w 13 = a := Fin.ext (hl.2.2.1)
      have a4 : r3 w 3 = g := Fin.ext ((part 0 7 3 3 hl.2.2.2.2 (by decide) (by decide)).trans (by have b0 := g.isLt; clear * - b0; omega))
      refine wf_ok (by rw [e0]; decide) ?_ hf
      rw [flat42 w _ e0]; unfold decode42
      simp only [e1, e2, e3, a1, a2, a3, (kref_word k).1, a4, Nat.reduceEqDiff, OfNat.ofNat_ne_zero, OfNat.zero_ne_ofNat, one_ne_zero, zero_ne_one, OfNat.one_ne_ofNat, OfNat.ofNat_ne_one, false_and, and_false, and_self, true_and, and_true, reduceIte, (kref_word k).2]
    · exact absurd (show (decide (t.val < 3) && vv d a && BOp.isV (BOp.konst k)) = true from hf) (by simp [ht])

theorem vsubF (t : Fin 4) (d : Fin 64) (a : Fin 64) (b : BOp) (g : Fin 8) : Statement (.vsubF t d a b g) := by
  intro hf w nx he
  cases b with
  | reg r =>
    rcases (by omega : t.val = 0 ∨ t.val = 1 ∨ t.val = 2 ∨ t.val = 3) with ht | ht | ht | ht
    · have hw : w = 0x80000001 + t.val * 33554432 + d.val * 524288 + a.val * 8192 + r.val * 128 + g.val * 8 := one (rfl : encode (.vsubF t d a (.reg r) g) = [0x80000001 + t.val * 33554432 + d.val * 524288 + a.val * 8192 + r.val * 128 + g.val * 8]) he
      have hl := layR (c := 64) (d := d.val) (a := a.val) (b := r.val) (x := g.val * 8 + 1) (hw.trans (by clear * - ht; omega)) (d.isLt) (a.isLt) (r.isLt) (by have b0 := g.isLt; clear * - b0; omega)
      have e0 := hl.1
      have e1 : fld w 0 3 = 1 := (part 0 7 0 3 hl.2.2.2.2 (by decide) (by decide)).trans (by have b0 := g.isLt; clear * - b0; omega)
      have e2 : fld w 6 1 = 0 := (part 0 7 6 1 hl.2.2.2.2 (by decide) (by decide)).trans (by have b0 := g.isLt; clear * - b0; omega)
      have a1 : r2 w 25 = t := Fin.ext (by show w / 2 ^ 25 % 4 = t.val; clear * - hw ht; omega)
      have a2 : r6 w 19 = d := Fin.ext (hl.2.1)
      have a3 : r6 w 13 = a := Fin.ext (hl.2.2.1)
      have a4 : r6 w 7 = r := Fin.ext (hl.2.2.2.1)
      have a5 : r3 w 3 = g := Fin.ext ((part 0 7 3 3 hl.2.2.2.2 (by decide) (by decide)).trans (by have b0 := g.isLt; clear * - b0; omega))
      refine wf_ok (by rw [e0]; decide) ?_ hf
      rw [flat40 w _ e0]; unfold decode40
      simp only [e1, e2, a1, a2, a3, a4, a5, Nat.reduceEqDiff, OfNat.ofNat_ne_zero, OfNat.zero_ne_ofNat, one_ne_zero, zero_ne_one, OfNat.one_ne_ofNat, OfNat.ofNat_ne_one, false_and, and_false, and_self, true_and, and_true, reduceIte]
    · have hw : w = 0x80000001 + t.val * 33554432 + d.val * 524288 + a.val * 8192 + r.val * 128 + g.val * 8 := one (rfl : encode (.vsubF t d a (.reg r) g) = [0x80000001 + t.val * 33554432 + d.val * 524288 + a.val * 8192 + r.val * 128 + g.val * 8]) he
      have hl := layR (c := 65) (d := d.val) (a := a.val) (b := r.val) (x := g.val * 8 + 1) (hw.trans (by clear * - ht; omega)) (d.isLt) (a.isLt) (r.isLt) (by have b0 := g.isLt; clear * - b0; omega)
      have e0 := hl.1
      have e1 : fld w 0 3 = 1 := (part 0 7 0 3 hl.2.2.2.2 (by decide) (by decide)).trans (by have b0 := g.isLt; clear * - b0; omega)
      have e2 : fld w 6 1 = 0 := (part 0 7 6 1 hl.2.2.2.2 (by decide) (by decide)).trans (by have b0 := g.isLt; clear * - b0; omega)
      have a1 : r2 w 25 = t := Fin.ext (by show w / 2 ^ 25 % 4 = t.val; clear * - hw ht; omega)
      have a2 : r6 w 19 = d := Fin.ext (hl.2.1)
      have a3 : r6 w 13 = a := Fin.ext (hl.2.2.1)
      have a4 : r6 w 7 = r := Fin.ext (hl.2.2.2.1)
      have a5 : r3 w 3 = g := Fin.ext ((part 0 7 3 3 hl.2.2.2.2 (by decide) (by decide)).trans (by have b0 := g.isLt; clear * - b0; omega))
      refine wf_ok (by rw [e0]; decide) ?_ hf
      rw [flat41 w _ e0]; unfold decode41
      simp only [e1, e2, a1, a2, a3, a4, a5, Nat.reduceEqDiff, OfNat.ofNat_ne_zero, OfNat.zero_ne_ofNat, one_ne_zero, zero_ne_one, OfNat.one_ne_ofNat, OfNat.ofNat_ne_one, false_and, and_false, and_self, true_and, and_true, reduceIte]
    · have hw : w = 0x80000001 + t.val * 33554432 + d.val * 524288 + a.val * 8192 + r.val * 128 + g.val * 8 := one (rfl : encode (.vsubF t d a (.reg r) g) = [0x80000001 + t.val * 33554432 + d.val * 524288 + a.val * 8192 + r.val * 128 + g.val * 8]) he
      have hl := layR (c := 66) (d := d.val) (a := a.val) (b := r.val) (x := g.val * 8 + 1) (hw.trans (by clear * - ht; omega)) (d.isLt) (a.isLt) (r.isLt) (by have b0 := g.isLt; clear * - b0; omega)
      have e0 := hl.1
      have e1 : fld w 0 3 = 1 := (part 0 7 0 3 hl.2.2.2.2 (by decide) (by decide)).trans (by have b0 := g.isLt; clear * - b0; omega)
      have e2 : fld w 6 1 = 0 := (part 0 7 6 1 hl.2.2.2.2 (by decide) (by decide)).trans (by have b0 := g.isLt; clear * - b0; omega)
      have a1 : r2 w 25 = t := Fin.ext (by show w / 2 ^ 25 % 4 = t.val; clear * - hw ht; omega)
      have a2 : r6 w 19 = d := Fin.ext (hl.2.1)
      have a3 : r6 w 13 = a := Fin.ext (hl.2.2.1)
      have a4 : r6 w 7 = r := Fin.ext (hl.2.2.2.1)
      have a5 : r3 w 3 = g := Fin.ext ((part 0 7 3 3 hl.2.2.2.2 (by decide) (by decide)).trans (by have b0 := g.isLt; clear * - b0; omega))
      refine wf_ok (by rw [e0]; decide) ?_ hf
      rw [flat42 w _ e0]; unfold decode42
      simp only [e1, e2, a1, a2, a3, a4, a5, Nat.reduceEqDiff, OfNat.ofNat_ne_zero, OfNat.zero_ne_ofNat, one_ne_zero, zero_ne_one, OfNat.one_ne_ofNat, OfNat.ofNat_ne_one, false_and, and_false, and_self, true_and, and_true, reduceIte]
    · exact absurd (show (decide (t.val < 3) && vv d a && BOp.isV (BOp.reg r)) = true from hf) (by simp [ht])
  | konst k =>
    rcases (by omega : t.val = 0 ∨ t.val = 1 ∨ t.val = 2 ∨ t.val = 3) with ht | ht | ht | ht
    · have hx : w = 0x80000001 + t.val * 33554432 + d.val * 524288 + a.val * 8192 + 64 + g.val * 8 ∧ nx = k.word := two (rfl : encode (.vsubF t d a (.konst k) g) = [0x80000001 + t.val * 33554432 + d.val * 524288 + a.val * 8192 + 64 + g.val * 8, k.word]) he
      rw [hx.2]; replace hw := hx.1
      have hl := layR (c := 64) (d := d.val) (a := a.val) (b := 0) (x := g.val * 8 + 65) (hw.trans (by clear * - ht; omega)) (d.isLt) (a.isLt) (by decide) (by have b0 := g.isLt; clear * - b0; omega)
      have e0 := hl.1
      have e1 : fld w 0 3 = 1 := (part 0 7 0 3 hl.2.2.2.2 (by decide) (by decide)).trans (by have b0 := g.isLt; clear * - b0; omega)
      have e2 : fld w 6 1 = 1 := (part 0 7 6 1 hl.2.2.2.2 (by decide) (by decide)).trans (by have b0 := g.isLt; clear * - b0; omega)
      have e3 : fld w 7 6 = 0 := hl.2.2.2.1
      have a1 : r2 w 25 = t := Fin.ext (by show w / 2 ^ 25 % 4 = t.val; clear * - hw ht; omega)
      have a2 : r6 w 19 = d := Fin.ext (hl.2.1)
      have a3 : r6 w 13 = a := Fin.ext (hl.2.2.1)
      have a4 : r3 w 3 = g := Fin.ext ((part 0 7 3 3 hl.2.2.2.2 (by decide) (by decide)).trans (by have b0 := g.isLt; clear * - b0; omega))
      refine wf_ok (by rw [e0]; decide) ?_ hf
      rw [flat40 w _ e0]; unfold decode40
      simp only [e1, e2, e3, a1, a2, a3, (kref_word k).1, a4, Nat.reduceEqDiff, OfNat.ofNat_ne_zero, OfNat.zero_ne_ofNat, one_ne_zero, zero_ne_one, OfNat.one_ne_ofNat, OfNat.ofNat_ne_one, false_and, and_false, and_self, true_and, and_true, reduceIte, (kref_word k).2]
    · have hx : w = 0x80000001 + t.val * 33554432 + d.val * 524288 + a.val * 8192 + 64 + g.val * 8 ∧ nx = k.word := two (rfl : encode (.vsubF t d a (.konst k) g) = [0x80000001 + t.val * 33554432 + d.val * 524288 + a.val * 8192 + 64 + g.val * 8, k.word]) he
      rw [hx.2]; replace hw := hx.1
      have hl := layR (c := 65) (d := d.val) (a := a.val) (b := 0) (x := g.val * 8 + 65) (hw.trans (by clear * - ht; omega)) (d.isLt) (a.isLt) (by decide) (by have b0 := g.isLt; clear * - b0; omega)
      have e0 := hl.1
      have e1 : fld w 0 3 = 1 := (part 0 7 0 3 hl.2.2.2.2 (by decide) (by decide)).trans (by have b0 := g.isLt; clear * - b0; omega)
      have e2 : fld w 6 1 = 1 := (part 0 7 6 1 hl.2.2.2.2 (by decide) (by decide)).trans (by have b0 := g.isLt; clear * - b0; omega)
      have e3 : fld w 7 6 = 0 := hl.2.2.2.1
      have a1 : r2 w 25 = t := Fin.ext (by show w / 2 ^ 25 % 4 = t.val; clear * - hw ht; omega)
      have a2 : r6 w 19 = d := Fin.ext (hl.2.1)
      have a3 : r6 w 13 = a := Fin.ext (hl.2.2.1)
      have a4 : r3 w 3 = g := Fin.ext ((part 0 7 3 3 hl.2.2.2.2 (by decide) (by decide)).trans (by have b0 := g.isLt; clear * - b0; omega))
      refine wf_ok (by rw [e0]; decide) ?_ hf
      rw [flat41 w _ e0]; unfold decode41
      simp only [e1, e2, e3, a1, a2, a3, (kref_word k).1, a4, Nat.reduceEqDiff, OfNat.ofNat_ne_zero, OfNat.zero_ne_ofNat, one_ne_zero, zero_ne_one, OfNat.one_ne_ofNat, OfNat.ofNat_ne_one, false_and, and_false, and_self, true_and, and_true, reduceIte, (kref_word k).2]
    · have hx : w = 0x80000001 + t.val * 33554432 + d.val * 524288 + a.val * 8192 + 64 + g.val * 8 ∧ nx = k.word := two (rfl : encode (.vsubF t d a (.konst k) g) = [0x80000001 + t.val * 33554432 + d.val * 524288 + a.val * 8192 + 64 + g.val * 8, k.word]) he
      rw [hx.2]; replace hw := hx.1
      have hl := layR (c := 66) (d := d.val) (a := a.val) (b := 0) (x := g.val * 8 + 65) (hw.trans (by clear * - ht; omega)) (d.isLt) (a.isLt) (by decide) (by have b0 := g.isLt; clear * - b0; omega)
      have e0 := hl.1
      have e1 : fld w 0 3 = 1 := (part 0 7 0 3 hl.2.2.2.2 (by decide) (by decide)).trans (by have b0 := g.isLt; clear * - b0; omega)
      have e2 : fld w 6 1 = 1 := (part 0 7 6 1 hl.2.2.2.2 (by decide) (by decide)).trans (by have b0 := g.isLt; clear * - b0; omega)
      have e3 : fld w 7 6 = 0 := hl.2.2.2.1
      have a1 : r2 w 25 = t := Fin.ext (by show w / 2 ^ 25 % 4 = t.val; clear * - hw ht; omega)
      have a2 : r6 w 19 = d := Fin.ext (hl.2.1)
      have a3 : r6 w 13 = a := Fin.ext (hl.2.2.1)
      have a4 : r3 w 3 = g := Fin.ext ((part 0 7 3 3 hl.2.2.2.2 (by decide) (by decide)).trans (by have b0 := g.isLt; clear * - b0; omega))
      refine wf_ok (by rw [e0]; decide) ?_ hf
      rw [flat42 w _ e0]; unfold decode42
      simp only [e1, e2, e3, a1, a2, a3, (kref_word k).1, a4, Nat.reduceEqDiff, OfNat.ofNat_ne_zero, OfNat.zero_ne_ofNat, one_ne_zero, zero_ne_one, OfNat.one_ne_ofNat, OfNat.ofNat_ne_one, false_and, and_false, and_self, true_and, and_true, reduceIte, (kref_word k).2]
    · exact absurd (show (decide (t.val < 3) && vv d a && BOp.isV (BOp.konst k)) = true from hf) (by simp [ht])

theorem vmulF (t : Fin 4) (d : Fin 64) (a : Fin 64) (b : BOp) (g : Fin 8) : Statement (.vmulF t d a b g) := by
  intro hf w nx he
  cases b with
  | reg r =>
    rcases (by omega : t.val = 0 ∨ t.val = 1 ∨ t.val = 2 ∨ t.val = 3) with ht | ht | ht | ht
    · have hw : w = 0x80000002 + t.val * 33554432 + d.val * 524288 + a.val * 8192 + r.val * 128 + g.val * 8 := one (rfl : encode (.vmulF t d a (.reg r) g) = [0x80000002 + t.val * 33554432 + d.val * 524288 + a.val * 8192 + r.val * 128 + g.val * 8]) he
      have hl := layR (c := 64) (d := d.val) (a := a.val) (b := r.val) (x := g.val * 8 + 2) (hw.trans (by clear * - ht; omega)) (d.isLt) (a.isLt) (r.isLt) (by have b0 := g.isLt; clear * - b0; omega)
      have e0 := hl.1
      have e1 : fld w 0 3 = 2 := (part 0 7 0 3 hl.2.2.2.2 (by decide) (by decide)).trans (by have b0 := g.isLt; clear * - b0; omega)
      have e2 : fld w 6 1 = 0 := (part 0 7 6 1 hl.2.2.2.2 (by decide) (by decide)).trans (by have b0 := g.isLt; clear * - b0; omega)
      have a1 : r2 w 25 = t := Fin.ext (by show w / 2 ^ 25 % 4 = t.val; clear * - hw ht; omega)
      have a2 : r6 w 19 = d := Fin.ext (hl.2.1)
      have a3 : r6 w 13 = a := Fin.ext (hl.2.2.1)
      have a4 : r6 w 7 = r := Fin.ext (hl.2.2.2.1)
      have a5 : r3 w 3 = g := Fin.ext ((part 0 7 3 3 hl.2.2.2.2 (by decide) (by decide)).trans (by have b0 := g.isLt; clear * - b0; omega))
      refine wf_ok (by rw [e0]; decide) ?_ hf
      rw [flat40 w _ e0]; unfold decode40
      simp only [e1, e2, a1, a2, a3, a4, a5, Nat.reduceEqDiff, OfNat.ofNat_ne_zero, OfNat.zero_ne_ofNat, one_ne_zero, zero_ne_one, OfNat.one_ne_ofNat, OfNat.ofNat_ne_one, false_and, and_false, and_self, true_and, and_true, reduceIte]
    · have hw : w = 0x80000002 + t.val * 33554432 + d.val * 524288 + a.val * 8192 + r.val * 128 + g.val * 8 := one (rfl : encode (.vmulF t d a (.reg r) g) = [0x80000002 + t.val * 33554432 + d.val * 524288 + a.val * 8192 + r.val * 128 + g.val * 8]) he
      have hl := layR (c := 65) (d := d.val) (a := a.val) (b := r.val) (x := g.val * 8 + 2) (hw.trans (by clear * - ht; omega)) (d.isLt) (a.isLt) (r.isLt) (by have b0 := g.isLt; clear * - b0; omega)
      have e0 := hl.1
      have e1 : fld w 0 3 = 2 := (part 0 7 0 3 hl.2.2.2.2 (by decide) (by decide)).trans (by have b0 := g.isLt; clear * - b0; omega)
      have e2 : fld w 6 1 = 0 := (part 0 7 6 1 hl.2.2.2.2 (by decide) (by decide)).trans (by have b0 := g.isLt; clear * - b0; omega)
      have a1 : r2 w 25 = t := Fin.ext (by show w / 2 ^ 25 % 4 = t.val; clear * - hw ht; omega)
      have a2 : r6 w 19 = d := Fin.ext (hl.2.1)
      have a3 : r6 w 13 = a := Fin.ext (hl.2.2.1)
      have a4 : r6 w 7 = r := Fin.ext (hl.2.2.2.1)
      have a5 : r3 w 3 = g := Fin.ext ((part 0 7 3 3 hl.2.2.2.2 (by decide) (by decide)).trans (by have b0 := g.isLt; clear * - b0; omega))
      refine wf_ok (by rw [e0]; decide) ?_ hf
      rw [flat41 w _ e0]; unfold decode41
      simp only [e1, e2, a1, a2, a3, a4, a5, Nat.reduceEqDiff, OfNat.ofNat_ne_zero, OfNat.zero_ne_ofNat, one_ne_zero, zero_ne_one, OfNat.one_ne_ofNat, OfNat.ofNat_ne_one, false_and, and_false, and_self, true_and, and_true, reduceIte]
    · have hw : w = 0x80000002 + t.val * 33554432 + d.val * 524288 + a.val * 8192 + r.val * 128 + g.val * 8 := one (rfl : encode (.vmulF t d a (.reg r) g) = [0x80000002 + t.val * 33554432 + d.val * 524288 + a.val * 8192 + r.val * 128 + g.val * 8]) he
      have hl := layR (c := 66) (d := d.val) (a := a.val) (b := r.val) (x := g.val * 8 + 2) (hw.trans (by clear * - ht; omega)) (d.isLt) (a.isLt) (r.isLt) (by have b0 := g.isLt; clear * - b0; omega)
      have e0 := hl.1
      have e1 : fld w 0 3 = 2 := (part 0 7 0 3 hl.2.2.2.2 (by decide) (by decide)).trans (by have b0 := g.isLt; clear * - b0; omega)
      have e2 : fld w 6 1 = 0 := (part 0 7 6 1 hl.2.2.2.2 (by decide) (by decide)).trans (by have b0 := g.isLt; clear * - b0; omega)
      have a1 : r2 w 25 = t := Fin.ext (by show w / 2 ^ 25 % 4 = t.val; clear * - hw ht; omega)
      have a2 : r6 w 19 = d := Fin.ext (hl.2.1)
      have a3 : r6 w 13 = a := Fin.ext (hl.2.2.1)
      have a4 : r6 w 7 = r := Fin.ext (hl.2.2.2.1)
      have a5 : r3 w 3 = g := Fin.ext ((part 0 7 3 3 hl.2.2.2.2 (by decide) (by decide)).trans (by have b0 := g.isLt; clear * - b0; omega))
      refine wf_ok (by rw [e0]; decide) ?_ hf
      rw [flat42 w _ e0]; unfold decode42
      simp only [e1, e2, a1, a2, a3, a4, a5, Nat.reduceEqDiff, OfNat.ofNat_ne_zero, OfNat.zero_ne_ofNat, one_ne_zero, zero_ne_one, OfNat.one_ne_ofNat, OfNat.ofNat_ne_one, false_and, and_false, and_self, true_and, and_true, reduceIte]
    · exact absurd (show (decide (t.val < 3) && vv d a && BOp.isV (BOp.reg r)) = true from hf) (by simp [ht])
  | konst k =>
    rcases (by omega : t.val = 0 ∨ t.val = 1 ∨ t.val = 2 ∨ t.val = 3) with ht | ht | ht | ht
    · have hx : w = 0x80000002 + t.val * 33554432 + d.val * 524288 + a.val * 8192 + 64 + g.val * 8 ∧ nx = k.word := two (rfl : encode (.vmulF t d a (.konst k) g) = [0x80000002 + t.val * 33554432 + d.val * 524288 + a.val * 8192 + 64 + g.val * 8, k.word]) he
      rw [hx.2]; replace hw := hx.1
      have hl := layR (c := 64) (d := d.val) (a := a.val) (b := 0) (x := g.val * 8 + 66) (hw.trans (by clear * - ht; omega)) (d.isLt) (a.isLt) (by decide) (by have b0 := g.isLt; clear * - b0; omega)
      have e0 := hl.1
      have e1 : fld w 0 3 = 2 := (part 0 7 0 3 hl.2.2.2.2 (by decide) (by decide)).trans (by have b0 := g.isLt; clear * - b0; omega)
      have e2 : fld w 6 1 = 1 := (part 0 7 6 1 hl.2.2.2.2 (by decide) (by decide)).trans (by have b0 := g.isLt; clear * - b0; omega)
      have e3 : fld w 7 6 = 0 := hl.2.2.2.1
      have a1 : r2 w 25 = t := Fin.ext (by show w / 2 ^ 25 % 4 = t.val; clear * - hw ht; omega)
      have a2 : r6 w 19 = d := Fin.ext (hl.2.1)
      have a3 : r6 w 13 = a := Fin.ext (hl.2.2.1)
      have a4 : r3 w 3 = g := Fin.ext ((part 0 7 3 3 hl.2.2.2.2 (by decide) (by decide)).trans (by have b0 := g.isLt; clear * - b0; omega))
      refine wf_ok (by rw [e0]; decide) ?_ hf
      rw [flat40 w _ e0]; unfold decode40
      simp only [e1, e2, e3, a1, a2, a3, (kref_word k).1, a4, Nat.reduceEqDiff, OfNat.ofNat_ne_zero, OfNat.zero_ne_ofNat, one_ne_zero, zero_ne_one, OfNat.one_ne_ofNat, OfNat.ofNat_ne_one, false_and, and_false, and_self, true_and, and_true, reduceIte, (kref_word k).2]
    · have hx : w = 0x80000002 + t.val * 33554432 + d.val * 524288 + a.val * 8192 + 64 + g.val * 8 ∧ nx = k.word := two (rfl : encode (.vmulF t d a (.konst k) g) = [0x80000002 + t.val * 33554432 + d.val * 524288 + a.val * 8192 + 64 + g.val * 8, k.word]) he
      rw [hx.2]; replace hw := hx.1
      have hl := layR (c := 65) (d := d.val) (a := a.val) (b := 0) (x := g.val * 8 + 66) (hw.trans (by clear * - ht; omega)) (d.isLt) (a.isLt) (by decide) (by have b0 := g.isLt; clear * - b0; omega)
      have e0 := hl.1
      have e1 : fld w 0 3 = 2 := (part 0 7 0 3 hl.2.2.2.2 (by decide) (by decide)).trans (by have b0 := g.isLt; clear * - b0; omega)
      have e2 : fld w 6 1 = 1 := (part 0 7 6 1 hl.2.2.2.2 (by decide) (by decide)).trans (by have b0 := g.isLt; clear * - b0; omega)
      have e3 : fld w 7 6 = 0 := hl.2.2.2.1
      have a1 : r2 w 25 = t := Fin.ext (by show w / 2 ^ 25 % 4 = t.val; clear * - hw ht; omega)
      have a2 : r6 w 19 = d := Fin.ext (hl.2.1)
      have a3 : r6 w 13 = a := Fin.ext (hl.2.2.1)
      have a4 : r3 w 3 = g := Fin.ext ((part 0 7 3 3 hl.2.2.2.2 (by decide) (by decide)).trans (by have b0 := g.isLt; clear * - b0; omega))
      refine wf_ok (by rw [e0]; decide) ?_ hf
      rw [flat41 w _ e0]; unfold decode41
      simp only [e1, e2, e3, a1, a2, a3, (kref_word k).1, a4, Nat.reduceEqDiff, OfNat.ofNat_ne_zero, OfNat.zero_ne_ofNat, one_ne_zero, zero_ne_one, OfNat.one_ne_ofNat, OfNat.ofNat_ne_one, false_and, and_false, and_self, true_and, and_true, reduceIte, (kref_word k).2]
    · have hx : w = 0x80000002 + t.val * 33554432 + d.val * 524288 + a.val * 8192 + 64 + g.val * 8 ∧ nx = k.word := two (rfl : encode (.vmulF t d a (.konst k) g) = [0x80000002 + t.val * 33554432 + d.val * 524288 + a.val * 8192 + 64 + g.val * 8, k.word]) he
      rw [hx.2]; replace hw := hx.1
      have hl := layR (c := 66) (d := d.val) (a := a.val) (b := 0) (x := g.val * 8 + 66) (hw.trans (by clear * - ht; omega)) (d.isLt) (a.isLt) (by decide) (by have b0 := g.isLt; clear * - b0; omega)
      have e0 := hl.1
      have e1 : fld w 0 3 = 2 := (part 0 7 0 3 hl.2.2.2.2 (by decide) (by decide)).trans (by have b0 := g.isLt; clear * - b0; omega)
      have e2 : fld w 6 1 = 1 := (part 0 7 6 1 hl.2.2.2.2 (by decide) (by decide)).trans (by have b0 := g.isLt; clear * - b0; omega)
      have e3 : fld w 7 6 = 0 := hl.2.2.2.1
      have a1 : r2 w 25 = t := Fin.ext (by show w / 2 ^ 25 % 4 = t.val; clear * - hw ht; omega)
      have a2 : r6 w 19 = d := Fin.ext (hl.2.1)
      have a3 : r6 w 13 = a := Fin.ext (hl.2.2.1)
      have a4 : r3 w 3 = g := Fin.ext ((part 0 7 3 3 hl.2.2.2.2 (by decide) (by decide)).trans (by have b0 := g.isLt; clear * - b0; omega))
      refine wf_ok (by rw [e0]; decide) ?_ hf
      rw [flat42 w _ e0]; unfold decode42
      simp only [e1, e2, e3, a1, a2, a3, (kref_word k).1, a4, Nat.reduceEqDiff, OfNat.ofNat_ne_zero, OfNat.zero_ne_ofNat, one_ne_zero, zero_ne_one, OfNat.one_ne_ofNat, OfNat.ofNat_ne_one, false_and, and_false, and_self, true_and, and_true, reduceIte, (kref_word k).2]
    · exact absurd (show (decide (t.val < 3) && vv d a && BOp.isV (BOp.konst k)) = true from hf) (by simp [ht])

theorem vminF (t : Fin 4) (d : Fin 64) (a : Fin 64) (b : BOp) (g : Fin 8) : Statement (.vminF t d a b g) := by
  intro hf w nx he
  cases b with
  | reg r =>
    rcases (by omega : t.val = 0 ∨ t.val = 1 ∨ t.val = 2 ∨ t.val = 3) with ht | ht | ht | ht
    · have hw : w = 0x80000003 + t.val * 33554432 + d.val * 524288 + a.val * 8192 + r.val * 128 + g.val * 8 := one (rfl : encode (.vminF t d a (.reg r) g) = [0x80000003 + t.val * 33554432 + d.val * 524288 + a.val * 8192 + r.val * 128 + g.val * 8]) he
      have hl := layR (c := 64) (d := d.val) (a := a.val) (b := r.val) (x := g.val * 8 + 3) (hw.trans (by clear * - ht; omega)) (d.isLt) (a.isLt) (r.isLt) (by have b0 := g.isLt; clear * - b0; omega)
      have e0 := hl.1
      have e1 : fld w 0 3 = 3 := (part 0 7 0 3 hl.2.2.2.2 (by decide) (by decide)).trans (by have b0 := g.isLt; clear * - b0; omega)
      have e2 : fld w 6 1 = 0 := (part 0 7 6 1 hl.2.2.2.2 (by decide) (by decide)).trans (by have b0 := g.isLt; clear * - b0; omega)
      have a1 : r2 w 25 = t := Fin.ext (by show w / 2 ^ 25 % 4 = t.val; clear * - hw ht; omega)
      have a2 : r6 w 19 = d := Fin.ext (hl.2.1)
      have a3 : r6 w 13 = a := Fin.ext (hl.2.2.1)
      have a4 : r6 w 7 = r := Fin.ext (hl.2.2.2.1)
      have a5 : r3 w 3 = g := Fin.ext ((part 0 7 3 3 hl.2.2.2.2 (by decide) (by decide)).trans (by have b0 := g.isLt; clear * - b0; omega))
      refine wf_ok (by rw [e0]; decide) ?_ hf
      rw [flat40 w _ e0]; unfold decode40
      simp only [e1, e2, a1, a2, a3, a4, a5, Nat.reduceEqDiff, OfNat.ofNat_ne_zero, OfNat.zero_ne_ofNat, one_ne_zero, zero_ne_one, OfNat.one_ne_ofNat, OfNat.ofNat_ne_one, false_and, and_false, and_self, true_and, and_true, reduceIte]
    · have hw : w = 0x80000003 + t.val * 33554432 + d.val * 524288 + a.val * 8192 + r.val * 128 + g.val * 8 := one (rfl : encode (.vminF t d a (.reg r) g) = [0x80000003 + t.val * 33554432 + d.val * 524288 + a.val * 8192 + r.val * 128 + g.val * 8]) he
      have hl := layR (c := 65) (d := d.val) (a := a.val) (b := r.val) (x := g.val * 8 + 3) (hw.trans (by clear * - ht; omega)) (d.isLt) (a.isLt) (r.isLt) (by have b0 := g.isLt; clear * - b0; omega)
      have e0 := hl.1
      have e1 : fld w 0 3 = 3 := (part 0 7 0 3 hl.2.2.2.2 (by decide) (by decide)).trans (by have b0 := g.isLt; clear * - b0; omega)
      have e2 : fld w 6 1 = 0 := (part 0 7 6 1 hl.2.2.2.2 (by decide) (by decide)).trans (by have b0 := g.isLt; clear * - b0; omega)
      have a1 : r2 w 25 = t := Fin.ext (by show w / 2 ^ 25 % 4 = t.val; clear * - hw ht; omega)
      have a2 : r6 w 19 = d := Fin.ext (hl.2.1)
      have a3 : r6 w 13 = a := Fin.ext (hl.2.2.1)
      have a4 : r6 w 7 = r := Fin.ext (hl.2.2.2.1)
      have a5 : r3 w 3 = g := Fin.ext ((part 0 7 3 3 hl.2.2.2.2 (by decide) (by decide)).trans (by have b0 := g.isLt; clear * - b0; omega))
      refine wf_ok (by rw [e0]; decide) ?_ hf
      rw [flat41 w _ e0]; unfold decode41
      simp only [e1, e2, a1, a2, a3, a4, a5, Nat.reduceEqDiff, OfNat.ofNat_ne_zero, OfNat.zero_ne_ofNat, one_ne_zero, zero_ne_one, OfNat.one_ne_ofNat, OfNat.ofNat_ne_one, false_and, and_false, and_self, true_and, and_true, reduceIte]
    · have hw : w = 0x80000003 + t.val * 33554432 + d.val * 524288 + a.val * 8192 + r.val * 128 + g.val * 8 := one (rfl : encode (.vminF t d a (.reg r) g) = [0x80000003 + t.val * 33554432 + d.val * 524288 + a.val * 8192 + r.val * 128 + g.val * 8]) he
      have hl := layR (c := 66) (d := d.val) (a := a.val) (b := r.val) (x := g.val * 8 + 3) (hw.trans (by clear * - ht; omega)) (d.isLt) (a.isLt) (r.isLt) (by have b0 := g.isLt; clear * - b0; omega)
      have e0 := hl.1
      have e1 : fld w 0 3 = 3 := (part 0 7 0 3 hl.2.2.2.2 (by decide) (by decide)).trans (by have b0 := g.isLt; clear * - b0; omega)
      have e2 : fld w 6 1 = 0 := (part 0 7 6 1 hl.2.2.2.2 (by decide) (by decide)).trans (by have b0 := g.isLt; clear * - b0; omega)
      have a1 : r2 w 25 = t := Fin.ext (by show w / 2 ^ 25 % 4 = t.val; clear * - hw ht; omega)
      have a2 : r6 w 19 = d := Fin.ext (hl.2.1)
      have a3 : r6 w 13 = a := Fin.ext (hl.2.2.1)
      have a4 : r6 w 7 = r := Fin.ext (hl.2.2.2.1)
      have a5 : r3 w 3 = g := Fin.ext ((part 0 7 3 3 hl.2.2.2.2 (by decide) (by decide)).trans (by have b0 := g.isLt; clear * - b0; omega))
      refine wf_ok (by rw [e0]; decide) ?_ hf
      rw [flat42 w _ e0]; unfold decode42
      simp only [e1, e2, a1, a2, a3, a4, a5, Nat.reduceEqDiff, OfNat.ofNat_ne_zero, OfNat.zero_ne_ofNat, one_ne_zero, zero_ne_one, OfNat.one_ne_ofNat, OfNat.ofNat_ne_one, false_and, and_false, and_self, true_and, and_true, reduceIte]
    · exact absurd (show (decide (t.val < 3) && vv d a && BOp.isV (BOp.reg r)) = true from hf) (by simp [ht])
  | konst k =>
    rcases (by omega : t.val = 0 ∨ t.val = 1 ∨ t.val = 2 ∨ t.val = 3) with ht | ht | ht | ht
    · have hx : w = 0x80000003 + t.val * 33554432 + d.val * 524288 + a.val * 8192 + 64 + g.val * 8 ∧ nx = k.word := two (rfl : encode (.vminF t d a (.konst k) g) = [0x80000003 + t.val * 33554432 + d.val * 524288 + a.val * 8192 + 64 + g.val * 8, k.word]) he
      rw [hx.2]; replace hw := hx.1
      have hl := layR (c := 64) (d := d.val) (a := a.val) (b := 0) (x := g.val * 8 + 67) (hw.trans (by clear * - ht; omega)) (d.isLt) (a.isLt) (by decide) (by have b0 := g.isLt; clear * - b0; omega)
      have e0 := hl.1
      have e1 : fld w 0 3 = 3 := (part 0 7 0 3 hl.2.2.2.2 (by decide) (by decide)).trans (by have b0 := g.isLt; clear * - b0; omega)
      have e2 : fld w 6 1 = 1 := (part 0 7 6 1 hl.2.2.2.2 (by decide) (by decide)).trans (by have b0 := g.isLt; clear * - b0; omega)
      have e3 : fld w 7 6 = 0 := hl.2.2.2.1
      have a1 : r2 w 25 = t := Fin.ext (by show w / 2 ^ 25 % 4 = t.val; clear * - hw ht; omega)
      have a2 : r6 w 19 = d := Fin.ext (hl.2.1)
      have a3 : r6 w 13 = a := Fin.ext (hl.2.2.1)
      have a4 : r3 w 3 = g := Fin.ext ((part 0 7 3 3 hl.2.2.2.2 (by decide) (by decide)).trans (by have b0 := g.isLt; clear * - b0; omega))
      refine wf_ok (by rw [e0]; decide) ?_ hf
      rw [flat40 w _ e0]; unfold decode40
      simp only [e1, e2, e3, a1, a2, a3, (kref_word k).1, a4, Nat.reduceEqDiff, OfNat.ofNat_ne_zero, OfNat.zero_ne_ofNat, one_ne_zero, zero_ne_one, OfNat.one_ne_ofNat, OfNat.ofNat_ne_one, false_and, and_false, and_self, true_and, and_true, reduceIte, (kref_word k).2]
    · have hx : w = 0x80000003 + t.val * 33554432 + d.val * 524288 + a.val * 8192 + 64 + g.val * 8 ∧ nx = k.word := two (rfl : encode (.vminF t d a (.konst k) g) = [0x80000003 + t.val * 33554432 + d.val * 524288 + a.val * 8192 + 64 + g.val * 8, k.word]) he
      rw [hx.2]; replace hw := hx.1
      have hl := layR (c := 65) (d := d.val) (a := a.val) (b := 0) (x := g.val * 8 + 67) (hw.trans (by clear * - ht; omega)) (d.isLt) (a.isLt) (by decide) (by have b0 := g.isLt; clear * - b0; omega)
      have e0 := hl.1
      have e1 : fld w 0 3 = 3 := (part 0 7 0 3 hl.2.2.2.2 (by decide) (by decide)).trans (by have b0 := g.isLt; clear * - b0; omega)
      have e2 : fld w 6 1 = 1 := (part 0 7 6 1 hl.2.2.2.2 (by decide) (by decide)).trans (by have b0 := g.isLt; clear * - b0; omega)
      have e3 : fld w 7 6 = 0 := hl.2.2.2.1
      have a1 : r2 w 25 = t := Fin.ext (by show w / 2 ^ 25 % 4 = t.val; clear * - hw ht; omega)
      have a2 : r6 w 19 = d := Fin.ext (hl.2.1)
      have a3 : r6 w 13 = a := Fin.ext (hl.2.2.1)
      have a4 : r3 w 3 = g := Fin.ext ((part 0 7 3 3 hl.2.2.2.2 (by decide) (by decide)).trans (by have b0 := g.isLt; clear * - b0; omega))
      refine wf_ok (by rw [e0]; decide) ?_ hf
      rw [flat41 w _ e0]; unfold decode41
      simp only [e1, e2, e3, a1, a2, a3, (kref_word k).1, a4, Nat.reduceEqDiff, OfNat.ofNat_ne_zero, OfNat.zero_ne_ofNat, one_ne_zero, zero_ne_one, OfNat.one_ne_ofNat, OfNat.ofNat_ne_one, false_and, and_false, and_self, true_and, and_true, reduceIte, (kref_word k).2]
    · have hx : w = 0x80000003 + t.val * 33554432 + d.val * 524288 + a.val * 8192 + 64 + g.val * 8 ∧ nx = k.word := two (rfl : encode (.vminF t d a (.konst k) g) = [0x80000003 + t.val * 33554432 + d.val * 524288 + a.val * 8192 + 64 + g.val * 8, k.word]) he
      rw [hx.2]; replace hw := hx.1
      have hl := layR (c := 66) (d := d.val) (a := a.val) (b := 0) (x := g.val * 8 + 67) (hw.trans (by clear * - ht; omega)) (d.isLt) (a.isLt) (by decide) (by have b0 := g.isLt; clear * - b0; omega)
      have e0 := hl.1
      have e1 : fld w 0 3 = 3 := (part 0 7 0 3 hl.2.2.2.2 (by decide) (by decide)).trans (by have b0 := g.isLt; clear * - b0; omega)
      have e2 : fld w 6 1 = 1 := (part 0 7 6 1 hl.2.2.2.2 (by decide) (by decide)).trans (by have b0 := g.isLt; clear * - b0; omega)
      have e3 : fld w 7 6 = 0 := hl.2.2.2.1
      have a1 : r2 w 25 = t := Fin.ext (by show w / 2 ^ 25 % 4 = t.val; clear * - hw ht; omega)
      have a2 : r6 w 19 = d := Fin.ext (hl.2.1)
      have a3 : r6 w 13 = a := Fin.ext (hl.2.2.1)
      have a4 : r3 w 3 = g := Fin.ext ((part 0 7 3 3 hl.2.2.2.2 (by decide) (by decide)).trans (by have b0 := g.isLt; clear * - b0; omega))
      refine wf_ok (by rw [e0]; decide) ?_ hf
      rw [flat42 w _ e0]; unfold decode42
      simp only [e1, e2, e3, a1, a2, a3, (kref_word k).1, a4, Nat.reduceEqDiff, OfNat.ofNat_ne_zero, OfNat.zero_ne_ofNat, one_ne_zero, zero_ne_one, OfNat.one_ne_ofNat, OfNat.ofNat_ne_one, false_and, and_false, and_self, true_and, and_true, reduceIte, (kref_word k).2]
    · exact absurd (show (decide (t.val < 3) && vv d a && BOp.isV (BOp.konst k)) = true from hf) (by simp [ht])

theorem vmaxF (t : Fin 4) (d : Fin 64) (a : Fin 64) (b : BOp) (g : Fin 8) : Statement (.vmaxF t d a b g) := by
  intro hf w nx he
  cases b with
  | reg r =>
    rcases (by omega : t.val = 0 ∨ t.val = 1 ∨ t.val = 2 ∨ t.val = 3) with ht | ht | ht | ht
    · have hw : w = 0x80000004 + t.val * 33554432 + d.val * 524288 + a.val * 8192 + r.val * 128 + g.val * 8 := one (rfl : encode (.vmaxF t d a (.reg r) g) = [0x80000004 + t.val * 33554432 + d.val * 524288 + a.val * 8192 + r.val * 128 + g.val * 8]) he
      have hl := layR (c := 64) (d := d.val) (a := a.val) (b := r.val) (x := g.val * 8 + 4) (hw.trans (by clear * - ht; omega)) (d.isLt) (a.isLt) (r.isLt) (by have b0 := g.isLt; clear * - b0; omega)
      have e0 := hl.1
      have e1 : fld w 0 3 = 4 := (part 0 7 0 3 hl.2.2.2.2 (by decide) (by decide)).trans (by have b0 := g.isLt; clear * - b0; omega)
      have e2 : fld w 6 1 = 0 := (part 0 7 6 1 hl.2.2.2.2 (by decide) (by decide)).trans (by have b0 := g.isLt; clear * - b0; omega)
      have a1 : r2 w 25 = t := Fin.ext (by show w / 2 ^ 25 % 4 = t.val; clear * - hw ht; omega)
      have a2 : r6 w 19 = d := Fin.ext (hl.2.1)
      have a3 : r6 w 13 = a := Fin.ext (hl.2.2.1)
      have a4 : r6 w 7 = r := Fin.ext (hl.2.2.2.1)
      have a5 : r3 w 3 = g := Fin.ext ((part 0 7 3 3 hl.2.2.2.2 (by decide) (by decide)).trans (by have b0 := g.isLt; clear * - b0; omega))
      refine wf_ok (by rw [e0]; decide) ?_ hf
      rw [flat40 w _ e0]; unfold decode40
      simp only [e1, e2, a1, a2, a3, a4, a5, Nat.reduceEqDiff, OfNat.ofNat_ne_zero, OfNat.zero_ne_ofNat, one_ne_zero, zero_ne_one, OfNat.one_ne_ofNat, OfNat.ofNat_ne_one, false_and, and_false, and_self, true_and, and_true, reduceIte]
    · have hw : w = 0x80000004 + t.val * 33554432 + d.val * 524288 + a.val * 8192 + r.val * 128 + g.val * 8 := one (rfl : encode (.vmaxF t d a (.reg r) g) = [0x80000004 + t.val * 33554432 + d.val * 524288 + a.val * 8192 + r.val * 128 + g.val * 8]) he
      have hl := layR (c := 65) (d := d.val) (a := a.val) (b := r.val) (x := g.val * 8 + 4) (hw.trans (by clear * - ht; omega)) (d.isLt) (a.isLt) (r.isLt) (by have b0 := g.isLt; clear * - b0; omega)
      have e0 := hl.1
      have e1 : fld w 0 3 = 4 := (part 0 7 0 3 hl.2.2.2.2 (by decide) (by decide)).trans (by have b0 := g.isLt; clear * - b0; omega)
      have e2 : fld w 6 1 = 0 := (part 0 7 6 1 hl.2.2.2.2 (by decide) (by decide)).trans (by have b0 := g.isLt; clear * - b0; omega)
      have a1 : r2 w 25 = t := Fin.ext (by show w / 2 ^ 25 % 4 = t.val; clear * - hw ht; omega)
      have a2 : r6 w 19 = d := Fin.ext (hl.2.1)
      have a3 : r6 w 13 = a := Fin.ext (hl.2.2.1)
      have a4 : r6 w 7 = r := Fin.ext (hl.2.2.2.1)
      have a5 : r3 w 3 = g := Fin.ext ((part 0 7 3 3 hl.2.2.2.2 (by decide) (by decide)).trans (by have b0 := g.isLt; clear * - b0; omega))
      refine wf_ok (by rw [e0]; decide) ?_ hf
      rw [flat41 w _ e0]; unfold decode41
      simp only [e1, e2, a1, a2, a3, a4, a5, Nat.reduceEqDiff, OfNat.ofNat_ne_zero, OfNat.zero_ne_ofNat, one_ne_zero, zero_ne_one, OfNat.one_ne_ofNat, OfNat.ofNat_ne_one, false_and, and_false, and_self, true_and, and_true, reduceIte]
    · have hw : w = 0x80000004 + t.val * 33554432 + d.val * 524288 + a.val * 8192 + r.val * 128 + g.val * 8 := one (rfl : encode (.vmaxF t d a (.reg r) g) = [0x80000004 + t.val * 33554432 + d.val * 524288 + a.val * 8192 + r.val * 128 + g.val * 8]) he
      have hl := layR (c := 66) (d := d.val) (a := a.val) (b := r.val) (x := g.val * 8 + 4) (hw.trans (by clear * - ht; omega)) (d.isLt) (a.isLt) (r.isLt) (by have b0 := g.isLt; clear * - b0; omega)
      have e0 := hl.1
      have e1 : fld w 0 3 = 4 := (part 0 7 0 3 hl.2.2.2.2 (by decide) (by decide)).trans (by have b0 := g.isLt; clear * - b0; omega)
      have e2 : fld w 6 1 = 0 := (part 0 7 6 1 hl.2.2.2.2 (by decide) (by decide)).trans (by have b0 := g.isLt; clear * - b0; omega)
      have a1 : r2 w 25 = t := Fin.ext (by show w / 2 ^ 25 % 4 = t.val; clear * - hw ht; omega)
      have a2 : r6 w 19 = d := Fin.ext (hl.2.1)
      have a3 : r6 w 13 = a := Fin.ext (hl.2.2.1)
      have a4 : r6 w 7 = r := Fin.ext (hl.2.2.2.1)
      have a5 : r3 w 3 = g := Fin.ext ((part 0 7 3 3 hl.2.2.2.2 (by decide) (by decide)).trans (by have b0 := g.isLt; clear * - b0; omega))
      refine wf_ok (by rw [e0]; decide) ?_ hf
      rw [flat42 w _ e0]; unfold decode42
      simp only [e1, e2, a1, a2, a3, a4, a5, Nat.reduceEqDiff, OfNat.ofNat_ne_zero, OfNat.zero_ne_ofNat, one_ne_zero, zero_ne_one, OfNat.one_ne_ofNat, OfNat.ofNat_ne_one, false_and, and_false, and_self, true_and, and_true, reduceIte]
    · exact absurd (show (decide (t.val < 3) && vv d a && BOp.isV (BOp.reg r)) = true from hf) (by simp [ht])
  | konst k =>
    rcases (by omega : t.val = 0 ∨ t.val = 1 ∨ t.val = 2 ∨ t.val = 3) with ht | ht | ht | ht
    · have hx : w = 0x80000004 + t.val * 33554432 + d.val * 524288 + a.val * 8192 + 64 + g.val * 8 ∧ nx = k.word := two (rfl : encode (.vmaxF t d a (.konst k) g) = [0x80000004 + t.val * 33554432 + d.val * 524288 + a.val * 8192 + 64 + g.val * 8, k.word]) he
      rw [hx.2]; replace hw := hx.1
      have hl := layR (c := 64) (d := d.val) (a := a.val) (b := 0) (x := g.val * 8 + 68) (hw.trans (by clear * - ht; omega)) (d.isLt) (a.isLt) (by decide) (by have b0 := g.isLt; clear * - b0; omega)
      have e0 := hl.1
      have e1 : fld w 0 3 = 4 := (part 0 7 0 3 hl.2.2.2.2 (by decide) (by decide)).trans (by have b0 := g.isLt; clear * - b0; omega)
      have e2 : fld w 6 1 = 1 := (part 0 7 6 1 hl.2.2.2.2 (by decide) (by decide)).trans (by have b0 := g.isLt; clear * - b0; omega)
      have e3 : fld w 7 6 = 0 := hl.2.2.2.1
      have a1 : r2 w 25 = t := Fin.ext (by show w / 2 ^ 25 % 4 = t.val; clear * - hw ht; omega)
      have a2 : r6 w 19 = d := Fin.ext (hl.2.1)
      have a3 : r6 w 13 = a := Fin.ext (hl.2.2.1)
      have a4 : r3 w 3 = g := Fin.ext ((part 0 7 3 3 hl.2.2.2.2 (by decide) (by decide)).trans (by have b0 := g.isLt; clear * - b0; omega))
      refine wf_ok (by rw [e0]; decide) ?_ hf
      rw [flat40 w _ e0]; unfold decode40
      simp only [e1, e2, e3, a1, a2, a3, (kref_word k).1, a4, Nat.reduceEqDiff, OfNat.ofNat_ne_zero, OfNat.zero_ne_ofNat, one_ne_zero, zero_ne_one, OfNat.one_ne_ofNat, OfNat.ofNat_ne_one, false_and, and_false, and_self, true_and, and_true, reduceIte, (kref_word k).2]
    · have hx : w = 0x80000004 + t.val * 33554432 + d.val * 524288 + a.val * 8192 + 64 + g.val * 8 ∧ nx = k.word := two (rfl : encode (.vmaxF t d a (.konst k) g) = [0x80000004 + t.val * 33554432 + d.val * 524288 + a.val * 8192 + 64 + g.val * 8, k.word]) he
      rw [hx.2]; replace hw := hx.1
      have hl := layR (c := 65) (d := d.val) (a := a.val) (b := 0) (x := g.val * 8 + 68) (hw.trans (by clear * - ht; omega)) (d.isLt) (a.isLt) (by decide) (by have b0 := g.isLt; clear * - b0; omega)
      have e0 := hl.1
      have e1 : fld w 0 3 = 4 := (part 0 7 0 3 hl.2.2.2.2 (by decide) (by decide)).trans (by have b0 := g.isLt; clear * - b0; omega)
      have e2 : fld w 6 1 = 1 := (part 0 7 6 1 hl.2.2.2.2 (by decide) (by decide)).trans (by have b0 := g.isLt; clear * - b0; omega)
      have e3 : fld w 7 6 = 0 := hl.2.2.2.1
      have a1 : r2 w 25 = t := Fin.ext (by show w / 2 ^ 25 % 4 = t.val; clear * - hw ht; omega)
      have a2 : r6 w 19 = d := Fin.ext (hl.2.1)
      have a3 : r6 w 13 = a := Fin.ext (hl.2.2.1)
      have a4 : r3 w 3 = g := Fin.ext ((part 0 7 3 3 hl.2.2.2.2 (by decide) (by decide)).trans (by have b0 := g.isLt; clear * - b0; omega))
      refine wf_ok (by rw [e0]; decide) ?_ hf
      rw [flat41 w _ e0]; unfold decode41
      simp only [e1, e2, e3, a1, a2, a3, (kref_word k).1, a4, Nat.reduceEqDiff, OfNat.ofNat_ne_zero, OfNat.zero_ne_ofNat, one_ne_zero, zero_ne_one, OfNat.one_ne_ofNat, OfNat.ofNat_ne_one, false_and, and_false, and_self, true_and, and_true, reduceIte, (kref_word k).2]
    · have hx : w = 0x80000004 + t.val * 33554432 + d.val * 524288 + a.val * 8192 + 64 + g.val * 8 ∧ nx = k.word := two (rfl : encode (.vmaxF t d a (.konst k) g) = [0x80000004 + t.val * 33554432 + d.val * 524288 + a.val * 8192 + 64 + g.val * 8, k.word]) he
      rw [hx.2]; replace hw := hx.1
      have hl := layR (c := 66) (d := d.val) (a := a.val) (b := 0) (x := g.val * 8 + 68) (hw.trans (by clear * - ht; omega)) (d.isLt) (a.isLt) (by decide) (by have b0 := g.isLt; clear * - b0; omega)
      have e0 := hl.1
      have e1 : fld w 0 3 = 4 := (part 0 7 0 3 hl.2.2.2.2 (by decide) (by decide)).trans (by have b0 := g.isLt; clear * - b0; omega)
      have e2 : fld w 6 1 = 1 := (part 0 7 6 1 hl.2.2.2.2 (by decide) (by decide)).trans (by have b0 := g.isLt; clear * - b0; omega)
      have e3 : fld w 7 6 = 0 := hl.2.2.2.1
      have a1 : r2 w 25 = t := Fin.ext (by show w / 2 ^ 25 % 4 = t.val; clear * - hw ht; omega)
      have a2 : r6 w 19 = d := Fin.ext (hl.2.1)
      have a3 : r6 w 13 = a := Fin.ext (hl.2.2.1)
      have a4 : r3 w 3 = g := Fin.ext ((part 0 7 3 3 hl.2.2.2.2 (by decide) (by decide)).trans (by have b0 := g.isLt; clear * - b0; omega))
      refine wf_ok (by rw [e0]; decide) ?_ hf
      rw [flat42 w _ e0]; unfold decode42
      simp only [e1, e2, e3, a1, a2, a3, (kref_word k).1, a4, Nat.reduceEqDiff, OfNat.ofNat_ne_zero, OfNat.zero_ne_ofNat, one_ne_zero, zero_ne_one, OfNat.one_ne_ofNat, OfNat.ofNat_ne_one, false_and, and_false, and_self, true_and, and_true, reduceIte, (kref_word k).2]
    · exact absurd (show (decide (t.val < 3) && vv d a && BOp.isV (BOp.konst k)) = true from hf) (by simp [ht])

theorem vfma (t : Fin 4) (d : Fin 64) (a : Fin 64) (b : BOp) (g : Fin 8) : Statement (.vfma t d a b g) := by
  intro hf w nx he
  cases b with
  | reg r =>
    rcases (by omega : t.val = 0 ∨ t.val = 1 ∨ t.val = 2 ∨ t.val = 3) with ht | ht | ht | ht
    · have hw : w = 0x80000005 + t.val * 33554432 + d.val * 524288 + a.val * 8192 + r.val * 128 + g.val * 8 := one (rfl : encode (.vfma t d a (.reg r) g) = [0x80000005 + t.val * 33554432 + d.val * 524288 + a.val * 8192 + r.val * 128 + g.val * 8]) he
      have hl := layR (c := 64) (d := d.val) (a := a.val) (b := r.val) (x := g.val * 8 + 5) (hw.trans (by clear * - ht; omega)) (d.isLt) (a.isLt) (r.isLt) (by have b0 := g.isLt; clear * - b0; omega)
      have e0 := hl.1
      have e1 : fld w 0 3 = 5 := (part 0 7 0 3 hl.2.2.2.2 (by decide) (by decide)).trans (by have b0 := g.isLt; clear * - b0; omega)
      have e2 : fld w 6 1 = 0 := (part 0 7 6 1 hl.2.2.2.2 (by decide) (by decide)).trans (by have b0 := g.isLt; clear * - b0; omega)
      have a1 : r2 w 25 = t := Fin.ext (by show w / 2 ^ 25 % 4 = t.val; clear * - hw ht; omega)
      have a2 : r6 w 19 = d := Fin.ext (hl.2.1)
      have a3 : r6 w 13 = a := Fin.ext (hl.2.2.1)
      have a4 : r6 w 7 = r := Fin.ext (hl.2.2.2.1)
      have a5 : r3 w 3 = g := Fin.ext ((part 0 7 3 3 hl.2.2.2.2 (by decide) (by decide)).trans (by have b0 := g.isLt; clear * - b0; omega))
      refine wf_ok (by rw [e0]; decide) ?_ hf
      rw [flat40 w _ e0]; unfold decode40
      simp only [e1, e2, a1, a2, a3, a4, a5, Nat.reduceEqDiff, OfNat.ofNat_ne_zero, OfNat.zero_ne_ofNat, one_ne_zero, zero_ne_one, OfNat.one_ne_ofNat, OfNat.ofNat_ne_one, false_and, and_false, and_self, true_and, and_true, reduceIte]
    · have hw : w = 0x80000005 + t.val * 33554432 + d.val * 524288 + a.val * 8192 + r.val * 128 + g.val * 8 := one (rfl : encode (.vfma t d a (.reg r) g) = [0x80000005 + t.val * 33554432 + d.val * 524288 + a.val * 8192 + r.val * 128 + g.val * 8]) he
      have hl := layR (c := 65) (d := d.val) (a := a.val) (b := r.val) (x := g.val * 8 + 5) (hw.trans (by clear * - ht; omega)) (d.isLt) (a.isLt) (r.isLt) (by have b0 := g.isLt; clear * - b0; omega)
      have e0 := hl.1
      have e1 : fld w 0 3 = 5 := (part 0 7 0 3 hl.2.2.2.2 (by decide) (by decide)).trans (by have b0 := g.isLt; clear * - b0; omega)
      have e2 : fld w 6 1 = 0 := (part 0 7 6 1 hl.2.2.2.2 (by decide) (by decide)).trans (by have b0 := g.isLt; clear * - b0; omega)
      have a1 : r2 w 25 = t := Fin.ext (by show w / 2 ^ 25 % 4 = t.val; clear * - hw ht; omega)
      have a2 : r6 w 19 = d := Fin.ext (hl.2.1)
      have a3 : r6 w 13 = a := Fin.ext (hl.2.2.1)
      have a4 : r6 w 7 = r := Fin.ext (hl.2.2.2.1)
      have a5 : r3 w 3 = g := Fin.ext ((part 0 7 3 3 hl.2.2.2.2 (by decide) (by decide)).trans (by have b0 := g.isLt; clear * - b0; omega))
      refine wf_ok (by rw [e0]; decide) ?_ hf
      rw [flat41 w _ e0]; unfold decode41
      simp only [e1, e2, a1, a2, a3, a4, a5, Nat.reduceEqDiff, OfNat.ofNat_ne_zero, OfNat.zero_ne_ofNat, one_ne_zero, zero_ne_one, OfNat.one_ne_ofNat, OfNat.ofNat_ne_one, false_and, and_false, and_self, true_and, and_true, reduceIte]
    · have hw : w = 0x80000005 + t.val * 33554432 + d.val * 524288 + a.val * 8192 + r.val * 128 + g.val * 8 := one (rfl : encode (.vfma t d a (.reg r) g) = [0x80000005 + t.val * 33554432 + d.val * 524288 + a.val * 8192 + r.val * 128 + g.val * 8]) he
      have hl := layR (c := 66) (d := d.val) (a := a.val) (b := r.val) (x := g.val * 8 + 5) (hw.trans (by clear * - ht; omega)) (d.isLt) (a.isLt) (r.isLt) (by have b0 := g.isLt; clear * - b0; omega)
      have e0 := hl.1
      have e1 : fld w 0 3 = 5 := (part 0 7 0 3 hl.2.2.2.2 (by decide) (by decide)).trans (by have b0 := g.isLt; clear * - b0; omega)
      have e2 : fld w 6 1 = 0 := (part 0 7 6 1 hl.2.2.2.2 (by decide) (by decide)).trans (by have b0 := g.isLt; clear * - b0; omega)
      have a1 : r2 w 25 = t := Fin.ext (by show w / 2 ^ 25 % 4 = t.val; clear * - hw ht; omega)
      have a2 : r6 w 19 = d := Fin.ext (hl.2.1)
      have a3 : r6 w 13 = a := Fin.ext (hl.2.2.1)
      have a4 : r6 w 7 = r := Fin.ext (hl.2.2.2.1)
      have a5 : r3 w 3 = g := Fin.ext ((part 0 7 3 3 hl.2.2.2.2 (by decide) (by decide)).trans (by have b0 := g.isLt; clear * - b0; omega))
      refine wf_ok (by rw [e0]; decide) ?_ hf
      rw [flat42 w _ e0]; unfold decode42
      simp only [e1, e2, a1, a2, a3, a4, a5, Nat.reduceEqDiff, OfNat.ofNat_ne_zero, OfNat.zero_ne_ofNat, one_ne_zero, zero_ne_one, OfNat.one_ne_ofNat, OfNat.ofNat_ne_one, false_and, and_false, and_self, true_and, and_true, reduceIte]
    · exact absurd (show (decide (t.val < 3) && vv d a && BOp.isV (BOp.reg r)) = true from hf) (by simp [ht])
  | konst k =>
    rcases (by omega : t.val = 0 ∨ t.val = 1 ∨ t.val = 2 ∨ t.val = 3) with ht | ht | ht | ht
    · have hx : w = 0x80000005 + t.val * 33554432 + d.val * 524288 + a.val * 8192 + 64 + g.val * 8 ∧ nx = k.word := two (rfl : encode (.vfma t d a (.konst k) g) = [0x80000005 + t.val * 33554432 + d.val * 524288 + a.val * 8192 + 64 + g.val * 8, k.word]) he
      rw [hx.2]; replace hw := hx.1
      have hl := layR (c := 64) (d := d.val) (a := a.val) (b := 0) (x := g.val * 8 + 69) (hw.trans (by clear * - ht; omega)) (d.isLt) (a.isLt) (by decide) (by have b0 := g.isLt; clear * - b0; omega)
      have e0 := hl.1
      have e1 : fld w 0 3 = 5 := (part 0 7 0 3 hl.2.2.2.2 (by decide) (by decide)).trans (by have b0 := g.isLt; clear * - b0; omega)
      have e2 : fld w 6 1 = 1 := (part 0 7 6 1 hl.2.2.2.2 (by decide) (by decide)).trans (by have b0 := g.isLt; clear * - b0; omega)
      have e3 : fld w 7 6 = 0 := hl.2.2.2.1
      have a1 : r2 w 25 = t := Fin.ext (by show w / 2 ^ 25 % 4 = t.val; clear * - hw ht; omega)
      have a2 : r6 w 19 = d := Fin.ext (hl.2.1)
      have a3 : r6 w 13 = a := Fin.ext (hl.2.2.1)
      have a4 : r3 w 3 = g := Fin.ext ((part 0 7 3 3 hl.2.2.2.2 (by decide) (by decide)).trans (by have b0 := g.isLt; clear * - b0; omega))
      refine wf_ok (by rw [e0]; decide) ?_ hf
      rw [flat40 w _ e0]; unfold decode40
      simp only [e1, e2, e3, a1, a2, a3, (kref_word k).1, a4, Nat.reduceEqDiff, OfNat.ofNat_ne_zero, OfNat.zero_ne_ofNat, one_ne_zero, zero_ne_one, OfNat.one_ne_ofNat, OfNat.ofNat_ne_one, false_and, and_false, and_self, true_and, and_true, reduceIte, (kref_word k).2]
    · have hx : w = 0x80000005 + t.val * 33554432 + d.val * 524288 + a.val * 8192 + 64 + g.val * 8 ∧ nx = k.word := two (rfl : encode (.vfma t d a (.konst k) g) = [0x80000005 + t.val * 33554432 + d.val * 524288 + a.val * 8192 + 64 + g.val * 8, k.word]) he
      rw [hx.2]; replace hw := hx.1
      have hl := layR (c := 65) (d := d.val) (a := a.val) (b := 0) (x := g.val * 8 + 69) (hw.trans (by clear * - ht; omega)) (d.isLt) (a.isLt) (by decide) (by have b0 := g.isLt; clear * - b0; omega)
      have e0 := hl.1
      have e1 : fld w 0 3 = 5 := (part 0 7 0 3 hl.2.2.2.2 (by decide) (by decide)).trans (by have b0 := g.isLt; clear * - b0; omega)
      have e2 : fld w 6 1 = 1 := (part 0 7 6 1 hl.2.2.2.2 (by decide) (by decide)).trans (by have b0 := g.isLt; clear * - b0; omega)
      have e3 : fld w 7 6 = 0 := hl.2.2.2.1
      have a1 : r2 w 25 = t := Fin.ext (by show w / 2 ^ 25 % 4 = t.val; clear * - hw ht; omega)
      have a2 : r6 w 19 = d := Fin.ext (hl.2.1)
      have a3 : r6 w 13 = a := Fin.ext (hl.2.2.1)
      have a4 : r3 w 3 = g := Fin.ext ((part 0 7 3 3 hl.2.2.2.2 (by decide) (by decide)).trans (by have b0 := g.isLt; clear * - b0; omega))
      refine wf_ok (by rw [e0]; decide) ?_ hf
      rw [flat41 w _ e0]; unfold decode41
      simp only [e1, e2, e3, a1, a2, a3, (kref_word k).1, a4, Nat.reduceEqDiff, OfNat.ofNat_ne_zero, OfNat.zero_ne_ofNat, one_ne_zero, zero_ne_one, OfNat.one_ne_ofNat, OfNat.ofNat_ne_one, false_and, and_false, and_self, true_and, and_true, reduceIte, (kref_word k).2]
    · have hx : w = 0x80000005 + t.val * 33554432 + d.val * 524288 + a.val * 8192 + 64 + g.val * 8 ∧ nx = k.word := two (rfl : encode (.vfma t d a (.konst k) g) = [0x80000005 + t.val * 33554432 + d.val * 524288 + a.val * 8192 + 64 + g.val * 8, k.word]) he
      rw [hx.2]; replace hw := hx.1
      have hl := layR (c := 66) (d := d.val) (a := a.val) (b := 0) (x := g.val * 8 + 69) (hw.trans (by clear * - ht; omega)) (d.isLt) (a.isLt) (by decide) (by have b0 := g.isLt; clear * - b0; omega)
      have e0 := hl.1
      have e1 : fld w 0 3 = 5 := (part 0 7 0 3 hl.2.2.2.2 (by decide) (by decide)).trans (by have b0 := g.isLt; clear * - b0; omega)
      have e2 : fld w 6 1 = 1 := (part 0 7 6 1 hl.2.2.2.2 (by decide) (by decide)).trans (by have b0 := g.isLt; clear * - b0; omega)
      have e3 : fld w 7 6 = 0 := hl.2.2.2.1
      have a1 : r2 w 25 = t := Fin.ext (by show w / 2 ^ 25 % 4 = t.val; clear * - hw ht; omega)
      have a2 : r6 w 19 = d := Fin.ext (hl.2.1)
      have a3 : r6 w 13 = a := Fin.ext (hl.2.2.1)
      have a4 : r3 w 3 = g := Fin.ext ((part 0 7 3 3 hl.2.2.2.2 (by decide) (by decide)).trans (by have b0 := g.isLt; clear * - b0; omega))
      refine wf_ok (by rw [e0]; decide) ?_ hf
      rw [flat42 w _ e0]; unfold decode42
      simp only [e1, e2, e3, a1, a2, a3, (kref_word k).1, a4, Nat.reduceEqDiff, OfNat.ofNat_ne_zero, OfNat.zero_ne_ofNat, one_ne_zero, zero_ne_one, OfNat.one_ne_ofNat, OfNat.ofNat_ne_one, false_and, and_false, and_self, true_and, and_true, reduceIte, (kref_word k).2]
    · exact absurd (show (decide (t.val < 3) && vv d a && BOp.isV (BOp.konst k)) = true from hf) (by simp [ht])

theorem vfms (t : Fin 4) (d : Fin 64) (a : Fin 64) (b : BOp) (g : Fin 8) : Statement (.vfms t d a b g) := by
  intro hf w nx he
  cases b with
  | reg r =>
    rcases (by omega : t.val = 0 ∨ t.val = 1 ∨ t.val = 2 ∨ t.val = 3) with ht | ht | ht | ht
    · have hw : w = 0x80000006 + t.val * 33554432 + d.val * 524288 + a.val * 8192 + r.val * 128 + g.val * 8 := one (rfl : encode (.vfms t d a (.reg r) g) = [0x80000006 + t.val * 33554432 + d.val * 524288 + a.val * 8192 + r.val * 128 + g.val * 8]) he
      have hl := layR (c := 64) (d := d.val) (a := a.val) (b := r.val) (x := g.val * 8 + 6) (hw.trans (by clear * - ht; omega)) (d.isLt) (a.isLt) (r.isLt) (by have b0 := g.isLt; clear * - b0; omega)
      have e0 := hl.1
      have e1 : fld w 0 3 = 6 := (part 0 7 0 3 hl.2.2.2.2 (by decide) (by decide)).trans (by have b0 := g.isLt; clear * - b0; omega)
      have e2 : fld w 6 1 = 0 := (part 0 7 6 1 hl.2.2.2.2 (by decide) (by decide)).trans (by have b0 := g.isLt; clear * - b0; omega)
      have a1 : r2 w 25 = t := Fin.ext (by show w / 2 ^ 25 % 4 = t.val; clear * - hw ht; omega)
      have a2 : r6 w 19 = d := Fin.ext (hl.2.1)
      have a3 : r6 w 13 = a := Fin.ext (hl.2.2.1)
      have a4 : r6 w 7 = r := Fin.ext (hl.2.2.2.1)
      have a5 : r3 w 3 = g := Fin.ext ((part 0 7 3 3 hl.2.2.2.2 (by decide) (by decide)).trans (by have b0 := g.isLt; clear * - b0; omega))
      refine wf_ok (by rw [e0]; decide) ?_ hf
      rw [flat40 w _ e0]; unfold decode40
      simp only [e1, e2, a1, a2, a3, a4, a5, Nat.reduceEqDiff, OfNat.ofNat_ne_zero, OfNat.zero_ne_ofNat, one_ne_zero, zero_ne_one, OfNat.one_ne_ofNat, OfNat.ofNat_ne_one, false_and, and_false, and_self, true_and, and_true, reduceIte]
    · have hw : w = 0x80000006 + t.val * 33554432 + d.val * 524288 + a.val * 8192 + r.val * 128 + g.val * 8 := one (rfl : encode (.vfms t d a (.reg r) g) = [0x80000006 + t.val * 33554432 + d.val * 524288 + a.val * 8192 + r.val * 128 + g.val * 8]) he
      have hl := layR (c := 65) (d := d.val) (a := a.val) (b := r.val) (x := g.val * 8 + 6) (hw.trans (by clear * - ht; omega)) (d.isLt) (a.isLt) (r.isLt) (by have b0 := g.isLt; clear * - b0; omega)
      have e0 := hl.1
      have e1 : fld w 0 3 = 6 := (part 0 7 0 3 hl.2.2.2.2 (by decide) (by decide)).trans (by have b0 := g.isLt; clear * - b0; omega)
      have e2 : fld w 6 1 = 0 := (part 0 7 6 1 hl.2.2.2.2 (by decide) (by decide)).trans (by have b0 := g.isLt; clear * - b0; omega)
      have a1 : r2 w 25 = t := Fin.ext (by show w / 2 ^ 25 % 4 = t.val; clear * - hw ht; omega)
      have a2 : r6 w 19 = d := Fin.ext (hl.2.1)
      have a3 : r6 w 13 = a := Fin.ext (hl.2.2.1)
      have a4 : r6 w 7 = r := Fin.ext (hl.2.2.2.1)
      have a5 : r3 w 3 = g := Fin.ext ((part 0 7 3 3 hl.2.2.2.2 (by decide) (by decide)).trans (by have b0 := g.isLt; clear * - b0; omega))
      refine wf_ok (by rw [e0]; decide) ?_ hf
      rw [flat41 w _ e0]; unfold decode41
      simp only [e1, e2, a1, a2, a3, a4, a5, Nat.reduceEqDiff, OfNat.ofNat_ne_zero, OfNat.zero_ne_ofNat, one_ne_zero, zero_ne_one, OfNat.one_ne_ofNat, OfNat.ofNat_ne_one, false_and, and_false, and_self, true_and, and_true, reduceIte]
    · have hw : w = 0x80000006 + t.val * 33554432 + d.val * 524288 + a.val * 8192 + r.val * 128 + g.val * 8 := one (rfl : encode (.vfms t d a (.reg r) g) = [0x80000006 + t.val * 33554432 + d.val * 524288 + a.val * 8192 + r.val * 128 + g.val * 8]) he
      have hl := layR (c := 66) (d := d.val) (a := a.val) (b := r.val) (x := g.val * 8 + 6) (hw.trans (by clear * - ht; omega)) (d.isLt) (a.isLt) (r.isLt) (by have b0 := g.isLt; clear * - b0; omega)
      have e0 := hl.1
      have e1 : fld w 0 3 = 6 := (part 0 7 0 3 hl.2.2.2.2 (by decide) (by decide)).trans (by have b0 := g.isLt; clear * - b0; omega)
      have e2 : fld w 6 1 = 0 := (part 0 7 6 1 hl.2.2.2.2 (by decide) (by decide)).trans (by have b0 := g.isLt; clear * - b0; omega)
      have a1 : r2 w 25 = t := Fin.ext (by show w / 2 ^ 25 % 4 = t.val; clear * - hw ht; omega)
      have a2 : r6 w 19 = d := Fin.ext (hl.2.1)
      have a3 : r6 w 13 = a := Fin.ext (hl.2.2.1)
      have a4 : r6 w 7 = r := Fin.ext (hl.2.2.2.1)
      have a5 : r3 w 3 = g := Fin.ext ((part 0 7 3 3 hl.2.2.2.2 (by decide) (by decide)).trans (by have b0 := g.isLt; clear * - b0; omega))
      refine wf_ok (by rw [e0]; decide) ?_ hf
      rw [flat42 w _ e0]; unfold decode42
      simp only [e1, e2, a1, a2, a3, a4, a5, Nat.reduceEqDiff, OfNat.ofNat_ne_zero, OfNat.zero_ne_ofNat, one_ne_zero, zero_ne_one, OfNat.one_ne_ofNat, OfNat.ofNat_ne_one, false_and, and_false, and_self, true_and, and_true, reduceIte]
    · exact absurd (show (decide (t.val < 3) && vv d a && BOp.isV (BOp.reg r)) = true from hf) (by simp [ht])
  | konst k =>
    rcases (by omega : t.val = 0 ∨ t.val = 1 ∨ t.val = 2 ∨ t.val = 3) with ht | ht | ht | ht
    · have hx : w = 0x80000006 + t.val * 33554432 + d.val * 524288 + a.val * 8192 + 64 + g.val * 8 ∧ nx = k.word := two (rfl : encode (.vfms t d a (.konst k) g) = [0x80000006 + t.val * 33554432 + d.val * 524288 + a.val * 8192 + 64 + g.val * 8, k.word]) he
      rw [hx.2]; replace hw := hx.1
      have hl := layR (c := 64) (d := d.val) (a := a.val) (b := 0) (x := g.val * 8 + 70) (hw.trans (by clear * - ht; omega)) (d.isLt) (a.isLt) (by decide) (by have b0 := g.isLt; clear * - b0; omega)
      have e0 := hl.1
      have e1 : fld w 0 3 = 6 := (part 0 7 0 3 hl.2.2.2.2 (by decide) (by decide)).trans (by have b0 := g.isLt; clear * - b0; omega)
      have e2 : fld w 6 1 = 1 := (part 0 7 6 1 hl.2.2.2.2 (by decide) (by decide)).trans (by have b0 := g.isLt; clear * - b0; omega)
      have e3 : fld w 7 6 = 0 := hl.2.2.2.1
      have a1 : r2 w 25 = t := Fin.ext (by show w / 2 ^ 25 % 4 = t.val; clear * - hw ht; omega)
      have a2 : r6 w 19 = d := Fin.ext (hl.2.1)
      have a3 : r6 w 13 = a := Fin.ext (hl.2.2.1)
      have a4 : r3 w 3 = g := Fin.ext ((part 0 7 3 3 hl.2.2.2.2 (by decide) (by decide)).trans (by have b0 := g.isLt; clear * - b0; omega))
      refine wf_ok (by rw [e0]; decide) ?_ hf
      rw [flat40 w _ e0]; unfold decode40
      simp only [e1, e2, e3, a1, a2, a3, (kref_word k).1, a4, Nat.reduceEqDiff, OfNat.ofNat_ne_zero, OfNat.zero_ne_ofNat, one_ne_zero, zero_ne_one, OfNat.one_ne_ofNat, OfNat.ofNat_ne_one, false_and, and_false, and_self, true_and, and_true, reduceIte, (kref_word k).2]
    · have hx : w = 0x80000006 + t.val * 33554432 + d.val * 524288 + a.val * 8192 + 64 + g.val * 8 ∧ nx = k.word := two (rfl : encode (.vfms t d a (.konst k) g) = [0x80000006 + t.val * 33554432 + d.val * 524288 + a.val * 8192 + 64 + g.val * 8, k.word]) he
      rw [hx.2]; replace hw := hx.1
      have hl := layR (c := 65) (d := d.val) (a := a.val) (b := 0) (x := g.val * 8 + 70) (hw.trans (by clear * - ht; omega)) (d.isLt) (a.isLt) (by decide) (by have b0 := g.isLt; clear * - b0; omega)
      have e0 := hl.1
      have e1 : fld w 0 3 = 6 := (part 0 7 0 3 hl.2.2.2.2 (by decide) (by decide)).trans (by have b0 := g.isLt; clear * - b0; omega)
      have e2 : fld w 6 1 = 1 := (part 0 7 6 1 hl.2.2.2.2 (by decide) (by decide)).trans (by have b0 := g.isLt; clear * - b0; omega)
      have e3 : fld w 7 6 = 0 := hl.2.2.2.1
      have a1 : r2 w 25 = t := Fin.ext (by show w / 2 ^ 25 % 4 = t.val; clear * - hw ht; omega)
      have a2 : r6 w 19 = d := Fin.ext (hl.2.1)
      have a3 : r6 w 13 = a := Fin.ext (hl.2.2.1)
      have a4 : r3 w 3 = g := Fin.ext ((part 0 7 3 3 hl.2.2.2.2 (by decide) (by decide)).trans (by have b0 := g.isLt; clear * - b0; omega))
      refine wf_ok (by rw [e0]; decide) ?_ hf
      rw [flat41 w _ e0]; unfold decode41
      simp only [e1, e2, e3, a1, a2, a3, (kref_word k).1, a4, Nat.reduceEqDiff, OfNat.ofNat_ne_zero, OfNat.zero_ne_ofNat, one_ne_zero, zero_ne_one, OfNat.one_ne_ofNat, OfNat.ofNat_ne_one, false_and, and_false, and_self, true_and, and_true, reduceIte, (kref_word k).2]
    · have hx : w = 0x80000006 + t.val * 33554432 + d.val * 524288 + a.val * 8192 + 64 + g.val * 8 ∧ nx = k.word := two (rfl : encode (.vfms t d a (.konst k) g) = [0x80000006 + t.val * 33554432 + d.val * 524288 + a.val * 8192 + 64 + g.val * 8, k.word]) he
      rw [hx.2]; replace hw := hx.1
      have hl := layR (c := 66) (d := d.val) (a := a.val) (b := 0) (x := g.val * 8 + 70) (hw.trans (by clear * - ht; omega)) (d.isLt) (a.isLt) (by decide) (by have b0 := g.isLt; clear * - b0; omega)
      have e0 := hl.1
      have e1 : fld w 0 3 = 6 := (part 0 7 0 3 hl.2.2.2.2 (by decide) (by decide)).trans (by have b0 := g.isLt; clear * - b0; omega)
      have e2 : fld w 6 1 = 1 := (part 0 7 6 1 hl.2.2.2.2 (by decide) (by decide)).trans (by have b0 := g.isLt; clear * - b0; omega)
      have e3 : fld w 7 6 = 0 := hl.2.2.2.1
      have a1 : r2 w 25 = t := Fin.ext (by show w / 2 ^ 25 % 4 = t.val; clear * - hw ht; omega)
      have a2 : r6 w 19 = d := Fin.ext (hl.2.1)
      have a3 : r6 w 13 = a := Fin.ext (hl.2.2.1)
      have a4 : r3 w 3 = g := Fin.ext ((part 0 7 3 3 hl.2.2.2.2 (by decide) (by decide)).trans (by have b0 := g.isLt; clear * - b0; omega))
      refine wf_ok (by rw [e0]; decide) ?_ hf
      rw [flat42 w _ e0]; unfold decode42
      simp only [e1, e2, e3, a1, a2, a3, (kref_word k).1, a4, Nat.reduceEqDiff, OfNat.ofNat_ne_zero, OfNat.zero_ne_ofNat, one_ne_zero, zero_ne_one, OfNat.one_ne_ofNat, OfNat.ofNat_ne_one, false_and, and_false, and_self, true_and, and_true, reduceIte, (kref_word k).2]
    · exact absurd (show (decide (t.val < 3) && vv d a && BOp.isV (BOp.konst k)) = true from hf) (by simp [ht])

theorem vabs (d : Fin 64) (a : Fin 64) (t : Fin 64) (g : Fin 8) : Statement (.vabs d a t g) := by
  intro hf w nx he
  have hw : w = 0x86000000 + d.val * 524288 + a.val * 8192 + t.val * 128 + g.val * 8 := one (rfl : encode (.vabs d a t g) = [0x86000000 + d.val * 524288 + a.val * 8192 + t.val * 128 + g.val * 8]) he
  have hl := layR (c := 67) (d := d.val) (a := a.val) (b := t.val) (x := g.val * 8) (hw.trans (by clear * -; omega)) (d.isLt) (a.isLt) (t.isLt) (by have b0 := g.isLt; clear * - b0; omega)
  have e0 := hl.1
  have e1 : fld w 0 3 = 0 := (part 0 7 0 3 hl.2.2.2.2 (by decide) (by decide)).trans (by have b0 := g.isLt; clear * - b0; omega)
  have e2 : fld w 6 1 = 0 := (part 0 7 6 1 hl.2.2.2.2 (by decide) (by decide)).trans (by have b0 := g.isLt; clear * - b0; omega)
  have a1 : r6 w 19 = d := Fin.ext (hl.2.1)
  have a2 : r6 w 13 = a := Fin.ext (hl.2.2.1)
  have a3 : r6 w 7 = t := Fin.ext (hl.2.2.2.1)
  have a4 : r3 w 3 = g := Fin.ext ((part 0 7 3 3 hl.2.2.2.2 (by decide) (by decide)).trans (by have b0 := g.isLt; clear * - b0; omega))
  refine wf_ok (by rw [e0]; decide) ?_ hf
  rw [flat43 w _ e0]; unfold decode43
  simp only [e1, e2, a1, a2, a3, a4, Nat.reduceEqDiff, OfNat.ofNat_ne_zero, OfNat.zero_ne_ofNat, one_ne_zero, zero_ne_one, OfNat.one_ne_ofNat, OfNat.ofNat_ne_one, false_and, and_false, and_self, true_and, and_true, reduceIte]

theorem vneg (d : Fin 64) (a : Fin 64) (t : Fin 64) (g : Fin 8) : Statement (.vneg d a t g) := by
  intro hf w nx he
  have hw : w = 0x86000001 + d.val * 524288 + a.val * 8192 + t.val * 128 + g.val * 8 := one (rfl : encode (.vneg d a t g) = [0x86000001 + d.val * 524288 + a.val * 8192 + t.val * 128 + g.val * 8]) he
  have hl := layR (c := 67) (d := d.val) (a := a.val) (b := t.val) (x := g.val * 8 + 1) (hw.trans (by clear * -; omega)) (d.isLt) (a.isLt) (t.isLt) (by have b0 := g.isLt; clear * - b0; omega)
  have e0 := hl.1
  have e1 : fld w 0 3 = 1 := (part 0 7 0 3 hl.2.2.2.2 (by decide) (by decide)).trans (by have b0 := g.isLt; clear * - b0; omega)
  have e2 : fld w 6 1 = 0 := (part 0 7 6 1 hl.2.2.2.2 (by decide) (by decide)).trans (by have b0 := g.isLt; clear * - b0; omega)
  have a1 : r6 w 19 = d := Fin.ext (hl.2.1)
  have a2 : r6 w 13 = a := Fin.ext (hl.2.2.1)
  have a3 : r6 w 7 = t := Fin.ext (hl.2.2.2.1)
  have a4 : r3 w 3 = g := Fin.ext ((part 0 7 3 3 hl.2.2.2.2 (by decide) (by decide)).trans (by have b0 := g.isLt; clear * - b0; omega))
  refine wf_ok (by rw [e0]; decide) ?_ hf
  rw [flat43 w _ e0]; unfold decode43
  simp only [e1, e2, a1, a2, a3, a4, Nat.reduceEqDiff, OfNat.ofNat_ne_zero, OfNat.zero_ne_ofNat, one_ne_zero, zero_ne_one, OfNat.one_ne_ofNat, OfNat.ofNat_ne_one, false_and, and_false, and_self, true_and, and_true, reduceIte]

theorem vexp2 (d : Fin 64) (a : Fin 64) (t : Fin 64) (g : Fin 8) : Statement (.vexp2 d a t g) := by
  intro hf w nx he
  have hw : w = 0x86000002 + d.val * 524288 + a.val * 8192 + t.val * 128 + g.val * 8 := one (rfl : encode (.vexp2 d a t g) = [0x86000002 + d.val * 524288 + a.val * 8192 + t.val * 128 + g.val * 8]) he
  have hl := layR (c := 67) (d := d.val) (a := a.val) (b := t.val) (x := g.val * 8 + 2) (hw.trans (by clear * -; omega)) (d.isLt) (a.isLt) (t.isLt) (by have b0 := g.isLt; clear * - b0; omega)
  have e0 := hl.1
  have e1 : fld w 0 3 = 2 := (part 0 7 0 3 hl.2.2.2.2 (by decide) (by decide)).trans (by have b0 := g.isLt; clear * - b0; omega)
  have e2 : fld w 6 1 = 0 := (part 0 7 6 1 hl.2.2.2.2 (by decide) (by decide)).trans (by have b0 := g.isLt; clear * - b0; omega)
  have a1 : r6 w 19 = d := Fin.ext (hl.2.1)
  have a2 : r6 w 13 = a := Fin.ext (hl.2.2.1)
  have a3 : r6 w 7 = t := Fin.ext (hl.2.2.2.1)
  have a4 : r3 w 3 = g := Fin.ext ((part 0 7 3 3 hl.2.2.2.2 (by decide) (by decide)).trans (by have b0 := g.isLt; clear * - b0; omega))
  refine wf_ok (by rw [e0]; decide) ?_ hf
  rw [flat43 w _ e0]; unfold decode43
  simp only [e1, e2, a1, a2, a3, a4, Nat.reduceEqDiff, OfNat.ofNat_ne_zero, OfNat.zero_ne_ofNat, one_ne_zero, zero_ne_one, OfNat.one_ne_ofNat, OfNat.ofNat_ne_one, false_and, and_false, and_self, true_and, and_true, reduceIte]

theorem vrcp (d : Fin 64) (a : Fin 64) (t : Fin 64) (g : Fin 8) : Statement (.vrcp d a t g) := by
  intro hf w nx he
  have hw : w = 0x86000003 + d.val * 524288 + a.val * 8192 + t.val * 128 + g.val * 8 := one (rfl : encode (.vrcp d a t g) = [0x86000003 + d.val * 524288 + a.val * 8192 + t.val * 128 + g.val * 8]) he
  have hl := layR (c := 67) (d := d.val) (a := a.val) (b := t.val) (x := g.val * 8 + 3) (hw.trans (by clear * -; omega)) (d.isLt) (a.isLt) (t.isLt) (by have b0 := g.isLt; clear * - b0; omega)
  have e0 := hl.1
  have e1 : fld w 0 3 = 3 := (part 0 7 0 3 hl.2.2.2.2 (by decide) (by decide)).trans (by have b0 := g.isLt; clear * - b0; omega)
  have e2 : fld w 6 1 = 0 := (part 0 7 6 1 hl.2.2.2.2 (by decide) (by decide)).trans (by have b0 := g.isLt; clear * - b0; omega)
  have a1 : r6 w 19 = d := Fin.ext (hl.2.1)
  have a2 : r6 w 13 = a := Fin.ext (hl.2.2.1)
  have a3 : r6 w 7 = t := Fin.ext (hl.2.2.2.1)
  have a4 : r3 w 3 = g := Fin.ext ((part 0 7 3 3 hl.2.2.2.2 (by decide) (by decide)).trans (by have b0 := g.isLt; clear * - b0; omega))
  refine wf_ok (by rw [e0]; decide) ?_ hf
  rw [flat43 w _ e0]; unfold decode43
  simp only [e1, e2, a1, a2, a3, a4, Nat.reduceEqDiff, OfNat.ofNat_ne_zero, OfNat.zero_ne_ofNat, one_ne_zero, zero_ne_one, OfNat.one_ne_ofNat, OfNat.ofNat_ne_one, false_and, and_false, and_self, true_and, and_true, reduceIte]

theorem vrsq (d : Fin 64) (a : Fin 64) (t : Fin 64) (g : Fin 8) : Statement (.vrsq d a t g) := by
  intro hf w nx he
  have hw : w = 0x86000004 + d.val * 524288 + a.val * 8192 + t.val * 128 + g.val * 8 := one (rfl : encode (.vrsq d a t g) = [0x86000004 + d.val * 524288 + a.val * 8192 + t.val * 128 + g.val * 8]) he
  have hl := layR (c := 67) (d := d.val) (a := a.val) (b := t.val) (x := g.val * 8 + 4) (hw.trans (by clear * -; omega)) (d.isLt) (a.isLt) (t.isLt) (by have b0 := g.isLt; clear * - b0; omega)
  have e0 := hl.1
  have e1 : fld w 0 3 = 4 := (part 0 7 0 3 hl.2.2.2.2 (by decide) (by decide)).trans (by have b0 := g.isLt; clear * - b0; omega)
  have e2 : fld w 6 1 = 0 := (part 0 7 6 1 hl.2.2.2.2 (by decide) (by decide)).trans (by have b0 := g.isLt; clear * - b0; omega)
  have a1 : r6 w 19 = d := Fin.ext (hl.2.1)
  have a2 : r6 w 13 = a := Fin.ext (hl.2.2.1)
  have a3 : r6 w 7 = t := Fin.ext (hl.2.2.2.1)
  have a4 : r3 w 3 = g := Fin.ext ((part 0 7 3 3 hl.2.2.2.2 (by decide) (by decide)).trans (by have b0 := g.isLt; clear * - b0; omega))
  refine wf_ok (by rw [e0]; decide) ?_ hf
  rw [flat43 w _ e0]; unfold decode43
  simp only [e1, e2, a1, a2, a3, a4, Nat.reduceEqDiff, OfNat.ofNat_ne_zero, OfNat.zero_ne_ofNat, one_ne_zero, zero_ne_one, OfNat.one_ne_ofNat, OfNat.ofNat_ne_one, false_and, and_false, and_self, true_and, and_true, reduceIte]

theorem vcmpEqF (t : Fin 4) (d : Fin 64) (a : Fin 64) (b : BOp) (g : Fin 8) : Statement (.vcmpEqF t d a b g) := by
  intro hf w nx he
  cases b with
  | reg r =>
    rcases (by omega : t.val = 0 ∨ t.val = 1 ∨ t.val = 2 ∨ t.val = 3) with ht | ht | ht | ht
    · have hw : w = 0x88000000 + t.val * 33554432 + d.val * 524288 + a.val * 8192 + r.val * 128 + g.val * 8 := one (rfl : encode (.vcmpEqF t d a (.reg r) g) = [0x88000000 + t.val * 33554432 + d.val * 524288 + a.val * 8192 + r.val * 128 + g.val * 8]) he
      have hl := layR (c := 68) (d := d.val) (a := a.val) (b := r.val) (x := g.val * 8) (hw.trans (by clear * - ht; omega)) (d.isLt) (a.isLt) (r.isLt) (by have b0 := g.isLt; clear * - b0; omega)
      have e0 := hl.1
      have e1 : fld w 0 3 = 0 := (part 0 7 0 3 hl.2.2.2.2 (by decide) (by decide)).trans (by have b0 := g.isLt; clear * - b0; omega)
      have e2 : fld w 6 1 = 0 := (part 0 7 6 1 hl.2.2.2.2 (by decide) (by decide)).trans (by have b0 := g.isLt; clear * - b0; omega)
      have a1 : r2 w 25 = t := Fin.ext (by show w / 2 ^ 25 % 4 = t.val; clear * - hw ht; omega)
      have a2 : r6 w 19 = d := Fin.ext (hl.2.1)
      have a3 : r6 w 13 = a := Fin.ext (hl.2.2.1)
      have a4 : r6 w 7 = r := Fin.ext (hl.2.2.2.1)
      have a5 : r3 w 3 = g := Fin.ext ((part 0 7 3 3 hl.2.2.2.2 (by decide) (by decide)).trans (by have b0 := g.isLt; clear * - b0; omega))
      refine wf_ok (by rw [e0]; decide) ?_ hf
      rw [flat44 w _ e0]; unfold decode44
      simp only [e1, e2, a1, a2, a3, a4, a5, Nat.reduceEqDiff, OfNat.ofNat_ne_zero, OfNat.zero_ne_ofNat, one_ne_zero, zero_ne_one, OfNat.one_ne_ofNat, OfNat.ofNat_ne_one, false_and, and_false, and_self, true_and, and_true, reduceIte]
    · have hw : w = 0x88000000 + t.val * 33554432 + d.val * 524288 + a.val * 8192 + r.val * 128 + g.val * 8 := one (rfl : encode (.vcmpEqF t d a (.reg r) g) = [0x88000000 + t.val * 33554432 + d.val * 524288 + a.val * 8192 + r.val * 128 + g.val * 8]) he
      have hl := layR (c := 69) (d := d.val) (a := a.val) (b := r.val) (x := g.val * 8) (hw.trans (by clear * - ht; omega)) (d.isLt) (a.isLt) (r.isLt) (by have b0 := g.isLt; clear * - b0; omega)
      have e0 := hl.1
      have e1 : fld w 0 3 = 0 := (part 0 7 0 3 hl.2.2.2.2 (by decide) (by decide)).trans (by have b0 := g.isLt; clear * - b0; omega)
      have e2 : fld w 6 1 = 0 := (part 0 7 6 1 hl.2.2.2.2 (by decide) (by decide)).trans (by have b0 := g.isLt; clear * - b0; omega)
      have a1 : r2 w 25 = t := Fin.ext (by show w / 2 ^ 25 % 4 = t.val; clear * - hw ht; omega)
      have a2 : r6 w 19 = d := Fin.ext (hl.2.1)
      have a3 : r6 w 13 = a := Fin.ext (hl.2.2.1)
      have a4 : r6 w 7 = r := Fin.ext (hl.2.2.2.1)
      have a5 : r3 w 3 = g := Fin.ext ((part 0 7 3 3 hl.2.2.2.2 (by decide) (by decide)).trans (by have b0 := g.isLt; clear * - b0; omega))
      refine wf_ok (by rw [e0]; decide) ?_ hf
      rw [flat45 w _ e0]; unfold decode45
      simp only [e1, e2, a1, a2, a3, a4, a5, Nat.reduceEqDiff, OfNat.ofNat_ne_zero, OfNat.zero_ne_ofNat, one_ne_zero, zero_ne_one, OfNat.one_ne_ofNat, OfNat.ofNat_ne_one, false_and, and_false, and_self, true_and, and_true, reduceIte]
    · have hw : w = 0x88000000 + t.val * 33554432 + d.val * 524288 + a.val * 8192 + r.val * 128 + g.val * 8 := one (rfl : encode (.vcmpEqF t d a (.reg r) g) = [0x88000000 + t.val * 33554432 + d.val * 524288 + a.val * 8192 + r.val * 128 + g.val * 8]) he
      have hl := layR (c := 70) (d := d.val) (a := a.val) (b := r.val) (x := g.val * 8) (hw.trans (by clear * - ht; omega)) (d.isLt) (a.isLt) (r.isLt) (by have b0 := g.isLt; clear * - b0; omega)
      have e0 := hl.1
      have e1 : fld w 0 3 = 0 := (part 0 7 0 3 hl.2.2.2.2 (by decide) (by decide)).trans (by have b0 := g.isLt; clear * - b0; omega)
      have e2 : fld w 6 1 = 0 := (part 0 7 6 1 hl.2.2.2.2 (by decide) (by decide)).trans (by have b0 := g.isLt; clear * - b0; omega)
      have a1 : r2 w 25 = t := Fin.ext (by show w / 2 ^ 25 % 4 = t.val; clear * - hw ht; omega)
      have a2 : r6 w 19 = d := Fin.ext (hl.2.1)
      have a3 : r6 w 13 = a := Fin.ext (hl.2.2.1)
      have a4 : r6 w 7 = r := Fin.ext (hl.2.2.2.1)
      have a5 : r3 w 3 = g := Fin.ext ((part 0 7 3 3 hl.2.2.2.2 (by decide) (by decide)).trans (by have b0 := g.isLt; clear * - b0; omega))
      refine wf_ok (by rw [e0]; decide) ?_ hf
      rw [flat46 w _ e0]; unfold decode46
      simp only [e1, e2, a1, a2, a3, a4, a5, Nat.reduceEqDiff, OfNat.ofNat_ne_zero, OfNat.zero_ne_ofNat, one_ne_zero, zero_ne_one, OfNat.one_ne_ofNat, OfNat.ofNat_ne_one, false_and, and_false, and_self, true_and, and_true, reduceIte]
    · exact absurd (show (decide (t.val < 3 ∧ d.val < 8 ∧ a.val < 32) && BOp.isV (BOp.reg r)) = true from hf) (by simp [ht])
  | konst k =>
    rcases (by omega : t.val = 0 ∨ t.val = 1 ∨ t.val = 2 ∨ t.val = 3) with ht | ht | ht | ht
    · have hx : w = 0x88000000 + t.val * 33554432 + d.val * 524288 + a.val * 8192 + 64 + g.val * 8 ∧ nx = k.word := two (rfl : encode (.vcmpEqF t d a (.konst k) g) = [0x88000000 + t.val * 33554432 + d.val * 524288 + a.val * 8192 + 64 + g.val * 8, k.word]) he
      rw [hx.2]; replace hw := hx.1
      have hl := layR (c := 68) (d := d.val) (a := a.val) (b := 0) (x := g.val * 8 + 64) (hw.trans (by clear * - ht; omega)) (d.isLt) (a.isLt) (by decide) (by have b0 := g.isLt; clear * - b0; omega)
      have e0 := hl.1
      have e1 : fld w 0 3 = 0 := (part 0 7 0 3 hl.2.2.2.2 (by decide) (by decide)).trans (by have b0 := g.isLt; clear * - b0; omega)
      have e2 : fld w 6 1 = 1 := (part 0 7 6 1 hl.2.2.2.2 (by decide) (by decide)).trans (by have b0 := g.isLt; clear * - b0; omega)
      have e3 : fld w 7 6 = 0 := hl.2.2.2.1
      have a1 : r2 w 25 = t := Fin.ext (by show w / 2 ^ 25 % 4 = t.val; clear * - hw ht; omega)
      have a2 : r6 w 19 = d := Fin.ext (hl.2.1)
      have a3 : r6 w 13 = a := Fin.ext (hl.2.2.1)
      have a4 : r3 w 3 = g := Fin.ext ((part 0 7 3 3 hl.2.2.2.2 (by decide) (by decide)).trans (by have b0 := g.isLt; clear * - b0; omega))
      refine wf_ok (by rw [e0]; decide) ?_ hf
      rw [flat44 w _ e0]; unfold decode44
      simp only [e1, e2, e3, a1, a2, a3, (kref_word k).1, a4, Nat.reduceEqDiff, OfNat.ofNat_ne_zero, OfNat.zero_ne_ofNat, one_ne_zero, zero_ne_one, OfNat.one_ne_ofNat, OfNat.ofNat_ne_one, false_and, and_false, and_self, true_and, and_true, reduceIte, (kref_word k).2]
    · have hx : w = 0x88000000 + t.val * 33554432 + d.val * 524288 + a.val * 8192 + 64 + g.val * 8 ∧ nx = k.word := two (rfl : encode (.vcmpEqF t d a (.konst k) g) = [0x88000000 + t.val * 33554432 + d.val * 524288 + a.val * 8192 + 64 + g.val * 8, k.word]) he
      rw [hx.2]; replace hw := hx.1
      have hl := layR (c := 69) (d := d.val) (a := a.val) (b := 0) (x := g.val * 8 + 64) (hw.trans (by clear * - ht; omega)) (d.isLt) (a.isLt) (by decide) (by have b0 := g.isLt; clear * - b0; omega)
      have e0 := hl.1
      have e1 : fld w 0 3 = 0 := (part 0 7 0 3 hl.2.2.2.2 (by decide) (by decide)).trans (by have b0 := g.isLt; clear * - b0; omega)
      have e2 : fld w 6 1 = 1 := (part 0 7 6 1 hl.2.2.2.2 (by decide) (by decide)).trans (by have b0 := g.isLt; clear * - b0; omega)
      have e3 : fld w 7 6 = 0 := hl.2.2.2.1
      have a1 : r2 w 25 = t := Fin.ext (by show w / 2 ^ 25 % 4 = t.val; clear * - hw ht; omega)
      have a2 : r6 w 19 = d := Fin.ext (hl.2.1)
      have a3 : r6 w 13 = a := Fin.ext (hl.2.2.1)
      have a4 : r3 w 3 = g := Fin.ext ((part 0 7 3 3 hl.2.2.2.2 (by decide) (by decide)).trans (by have b0 := g.isLt; clear * - b0; omega))
      refine wf_ok (by rw [e0]; decide) ?_ hf
      rw [flat45 w _ e0]; unfold decode45
      simp only [e1, e2, e3, a1, a2, a3, (kref_word k).1, a4, Nat.reduceEqDiff, OfNat.ofNat_ne_zero, OfNat.zero_ne_ofNat, one_ne_zero, zero_ne_one, OfNat.one_ne_ofNat, OfNat.ofNat_ne_one, false_and, and_false, and_self, true_and, and_true, reduceIte, (kref_word k).2]
    · have hx : w = 0x88000000 + t.val * 33554432 + d.val * 524288 + a.val * 8192 + 64 + g.val * 8 ∧ nx = k.word := two (rfl : encode (.vcmpEqF t d a (.konst k) g) = [0x88000000 + t.val * 33554432 + d.val * 524288 + a.val * 8192 + 64 + g.val * 8, k.word]) he
      rw [hx.2]; replace hw := hx.1
      have hl := layR (c := 70) (d := d.val) (a := a.val) (b := 0) (x := g.val * 8 + 64) (hw.trans (by clear * - ht; omega)) (d.isLt) (a.isLt) (by decide) (by have b0 := g.isLt; clear * - b0; omega)
      have e0 := hl.1
      have e1 : fld w 0 3 = 0 := (part 0 7 0 3 hl.2.2.2.2 (by decide) (by decide)).trans (by have b0 := g.isLt; clear * - b0; omega)
      have e2 : fld w 6 1 = 1 := (part 0 7 6 1 hl.2.2.2.2 (by decide) (by decide)).trans (by have b0 := g.isLt; clear * - b0; omega)
      have e3 : fld w 7 6 = 0 := hl.2.2.2.1
      have a1 : r2 w 25 = t := Fin.ext (by show w / 2 ^ 25 % 4 = t.val; clear * - hw ht; omega)
      have a2 : r6 w 19 = d := Fin.ext (hl.2.1)
      have a3 : r6 w 13 = a := Fin.ext (hl.2.2.1)
      have a4 : r3 w 3 = g := Fin.ext ((part 0 7 3 3 hl.2.2.2.2 (by decide) (by decide)).trans (by have b0 := g.isLt; clear * - b0; omega))
      refine wf_ok (by rw [e0]; decide) ?_ hf
      rw [flat46 w _ e0]; unfold decode46
      simp only [e1, e2, e3, a1, a2, a3, (kref_word k).1, a4, Nat.reduceEqDiff, OfNat.ofNat_ne_zero, OfNat.zero_ne_ofNat, one_ne_zero, zero_ne_one, OfNat.one_ne_ofNat, OfNat.ofNat_ne_one, false_and, and_false, and_self, true_and, and_true, reduceIte, (kref_word k).2]
    · exact absurd (show (decide (t.val < 3 ∧ d.val < 8 ∧ a.val < 32) && BOp.isV (BOp.konst k)) = true from hf) (by simp [ht])

theorem vcmpNeF (t : Fin 4) (d : Fin 64) (a : Fin 64) (b : BOp) (g : Fin 8) : Statement (.vcmpNeF t d a b g) := by
  intro hf w nx he
  cases b with
  | reg r =>
    rcases (by omega : t.val = 0 ∨ t.val = 1 ∨ t.val = 2 ∨ t.val = 3) with ht | ht | ht | ht
    · have hw : w = 0x88000001 + t.val * 33554432 + d.val * 524288 + a.val * 8192 + r.val * 128 + g.val * 8 := one (rfl : encode (.vcmpNeF t d a (.reg r) g) = [0x88000001 + t.val * 33554432 + d.val * 524288 + a.val * 8192 + r.val * 128 + g.val * 8]) he
      have hl := layR (c := 68) (d := d.val) (a := a.val) (b := r.val) (x := g.val * 8 + 1) (hw.trans (by clear * - ht; omega)) (d.isLt) (a.isLt) (r.isLt) (by have b0 := g.isLt; clear * - b0; omega)
      have e0 := hl.1
      have e1 : fld w 0 3 = 1 := (part 0 7 0 3 hl.2.2.2.2 (by decide) (by decide)).trans (by have b0 := g.isLt; clear * - b0; omega)
      have e2 : fld w 6 1 = 0 := (part 0 7 6 1 hl.2.2.2.2 (by decide) (by decide)).trans (by have b0 := g.isLt; clear * - b0; omega)
      have a1 : r2 w 25 = t := Fin.ext (by show w / 2 ^ 25 % 4 = t.val; clear * - hw ht; omega)
      have a2 : r6 w 19 = d := Fin.ext (hl.2.1)
      have a3 : r6 w 13 = a := Fin.ext (hl.2.2.1)
      have a4 : r6 w 7 = r := Fin.ext (hl.2.2.2.1)
      have a5 : r3 w 3 = g := Fin.ext ((part 0 7 3 3 hl.2.2.2.2 (by decide) (by decide)).trans (by have b0 := g.isLt; clear * - b0; omega))
      refine wf_ok (by rw [e0]; decide) ?_ hf
      rw [flat44 w _ e0]; unfold decode44
      simp only [e1, e2, a1, a2, a3, a4, a5, Nat.reduceEqDiff, OfNat.ofNat_ne_zero, OfNat.zero_ne_ofNat, one_ne_zero, zero_ne_one, OfNat.one_ne_ofNat, OfNat.ofNat_ne_one, false_and, and_false, and_self, true_and, and_true, reduceIte]
    · have hw : w = 0x88000001 + t.val * 33554432 + d.val * 524288 + a.val * 8192 + r.val * 128 + g.val * 8 := one (rfl : encode (.vcmpNeF t d a (.reg r) g) = [0x88000001 + t.val * 33554432 + d.val * 524288 + a.val * 8192 + r.val * 128 + g.val * 8]) he
      have hl := layR (c := 69) (d := d.val) (a := a.val) (b := r.val) (x := g.val * 8 + 1) (hw.trans (by clear * - ht; omega)) (d.isLt) (a.isLt) (r.isLt) (by have b0 := g.isLt; clear * - b0; omega)
      have e0 := hl.1
      have e1 : fld w 0 3 = 1 := (part 0 7 0 3 hl.2.2.2.2 (by decide) (by decide)).trans (by have b0 := g.isLt; clear * - b0; omega)
      have e2 : fld w 6 1 = 0 := (part 0 7 6 1 hl.2.2.2.2 (by decide) (by decide)).trans (by have b0 := g.isLt; clear * - b0; omega)
      have a1 : r2 w 25 = t := Fin.ext (by show w / 2 ^ 25 % 4 = t.val; clear * - hw ht; omega)
      have a2 : r6 w 19 = d := Fin.ext (hl.2.1)
      have a3 : r6 w 13 = a := Fin.ext (hl.2.2.1)
      have a4 : r6 w 7 = r := Fin.ext (hl.2.2.2.1)
      have a5 : r3 w 3 = g := Fin.ext ((part 0 7 3 3 hl.2.2.2.2 (by decide) (by decide)).trans (by have b0 := g.isLt; clear * - b0; omega))
      refine wf_ok (by rw [e0]; decide) ?_ hf
      rw [flat45 w _ e0]; unfold decode45
      simp only [e1, e2, a1, a2, a3, a4, a5, Nat.reduceEqDiff, OfNat.ofNat_ne_zero, OfNat.zero_ne_ofNat, one_ne_zero, zero_ne_one, OfNat.one_ne_ofNat, OfNat.ofNat_ne_one, false_and, and_false, and_self, true_and, and_true, reduceIte]
    · have hw : w = 0x88000001 + t.val * 33554432 + d.val * 524288 + a.val * 8192 + r.val * 128 + g.val * 8 := one (rfl : encode (.vcmpNeF t d a (.reg r) g) = [0x88000001 + t.val * 33554432 + d.val * 524288 + a.val * 8192 + r.val * 128 + g.val * 8]) he
      have hl := layR (c := 70) (d := d.val) (a := a.val) (b := r.val) (x := g.val * 8 + 1) (hw.trans (by clear * - ht; omega)) (d.isLt) (a.isLt) (r.isLt) (by have b0 := g.isLt; clear * - b0; omega)
      have e0 := hl.1
      have e1 : fld w 0 3 = 1 := (part 0 7 0 3 hl.2.2.2.2 (by decide) (by decide)).trans (by have b0 := g.isLt; clear * - b0; omega)
      have e2 : fld w 6 1 = 0 := (part 0 7 6 1 hl.2.2.2.2 (by decide) (by decide)).trans (by have b0 := g.isLt; clear * - b0; omega)
      have a1 : r2 w 25 = t := Fin.ext (by show w / 2 ^ 25 % 4 = t.val; clear * - hw ht; omega)
      have a2 : r6 w 19 = d := Fin.ext (hl.2.1)
      have a3 : r6 w 13 = a := Fin.ext (hl.2.2.1)
      have a4 : r6 w 7 = r := Fin.ext (hl.2.2.2.1)
      have a5 : r3 w 3 = g := Fin.ext ((part 0 7 3 3 hl.2.2.2.2 (by decide) (by decide)).trans (by have b0 := g.isLt; clear * - b0; omega))
      refine wf_ok (by rw [e0]; decide) ?_ hf
      rw [flat46 w _ e0]; unfold decode46
      simp only [e1, e2, a1, a2, a3, a4, a5, Nat.reduceEqDiff, OfNat.ofNat_ne_zero, OfNat.zero_ne_ofNat, one_ne_zero, zero_ne_one, OfNat.one_ne_ofNat, OfNat.ofNat_ne_one, false_and, and_false, and_self, true_and, and_true, reduceIte]
    · exact absurd (show (decide (t.val < 3 ∧ d.val < 8 ∧ a.val < 32) && BOp.isV (BOp.reg r)) = true from hf) (by simp [ht])
  | konst k =>
    rcases (by omega : t.val = 0 ∨ t.val = 1 ∨ t.val = 2 ∨ t.val = 3) with ht | ht | ht | ht
    · have hx : w = 0x88000001 + t.val * 33554432 + d.val * 524288 + a.val * 8192 + 64 + g.val * 8 ∧ nx = k.word := two (rfl : encode (.vcmpNeF t d a (.konst k) g) = [0x88000001 + t.val * 33554432 + d.val * 524288 + a.val * 8192 + 64 + g.val * 8, k.word]) he
      rw [hx.2]; replace hw := hx.1
      have hl := layR (c := 68) (d := d.val) (a := a.val) (b := 0) (x := g.val * 8 + 65) (hw.trans (by clear * - ht; omega)) (d.isLt) (a.isLt) (by decide) (by have b0 := g.isLt; clear * - b0; omega)
      have e0 := hl.1
      have e1 : fld w 0 3 = 1 := (part 0 7 0 3 hl.2.2.2.2 (by decide) (by decide)).trans (by have b0 := g.isLt; clear * - b0; omega)
      have e2 : fld w 6 1 = 1 := (part 0 7 6 1 hl.2.2.2.2 (by decide) (by decide)).trans (by have b0 := g.isLt; clear * - b0; omega)
      have e3 : fld w 7 6 = 0 := hl.2.2.2.1
      have a1 : r2 w 25 = t := Fin.ext (by show w / 2 ^ 25 % 4 = t.val; clear * - hw ht; omega)
      have a2 : r6 w 19 = d := Fin.ext (hl.2.1)
      have a3 : r6 w 13 = a := Fin.ext (hl.2.2.1)
      have a4 : r3 w 3 = g := Fin.ext ((part 0 7 3 3 hl.2.2.2.2 (by decide) (by decide)).trans (by have b0 := g.isLt; clear * - b0; omega))
      refine wf_ok (by rw [e0]; decide) ?_ hf
      rw [flat44 w _ e0]; unfold decode44
      simp only [e1, e2, e3, a1, a2, a3, (kref_word k).1, a4, Nat.reduceEqDiff, OfNat.ofNat_ne_zero, OfNat.zero_ne_ofNat, one_ne_zero, zero_ne_one, OfNat.one_ne_ofNat, OfNat.ofNat_ne_one, false_and, and_false, and_self, true_and, and_true, reduceIte, (kref_word k).2]
    · have hx : w = 0x88000001 + t.val * 33554432 + d.val * 524288 + a.val * 8192 + 64 + g.val * 8 ∧ nx = k.word := two (rfl : encode (.vcmpNeF t d a (.konst k) g) = [0x88000001 + t.val * 33554432 + d.val * 524288 + a.val * 8192 + 64 + g.val * 8, k.word]) he
      rw [hx.2]; replace hw := hx.1
      have hl := layR (c := 69) (d := d.val) (a := a.val) (b := 0) (x := g.val * 8 + 65) (hw.trans (by clear * - ht; omega)) (d.isLt) (a.isLt) (by decide) (by have b0 := g.isLt; clear * - b0; omega)
      have e0 := hl.1
      have e1 : fld w 0 3 = 1 := (part 0 7 0 3 hl.2.2.2.2 (by decide) (by decide)).trans (by have b0 := g.isLt; clear * - b0; omega)
      have e2 : fld w 6 1 = 1 := (part 0 7 6 1 hl.2.2.2.2 (by decide) (by decide)).trans (by have b0 := g.isLt; clear * - b0; omega)
      have e3 : fld w 7 6 = 0 := hl.2.2.2.1
      have a1 : r2 w 25 = t := Fin.ext (by show w / 2 ^ 25 % 4 = t.val; clear * - hw ht; omega)
      have a2 : r6 w 19 = d := Fin.ext (hl.2.1)
      have a3 : r6 w 13 = a := Fin.ext (hl.2.2.1)
      have a4 : r3 w 3 = g := Fin.ext ((part 0 7 3 3 hl.2.2.2.2 (by decide) (by decide)).trans (by have b0 := g.isLt; clear * - b0; omega))
      refine wf_ok (by rw [e0]; decide) ?_ hf
      rw [flat45 w _ e0]; unfold decode45
      simp only [e1, e2, e3, a1, a2, a3, (kref_word k).1, a4, Nat.reduceEqDiff, OfNat.ofNat_ne_zero, OfNat.zero_ne_ofNat, one_ne_zero, zero_ne_one, OfNat.one_ne_ofNat, OfNat.ofNat_ne_one, false_and, and_false, and_self, true_and, and_true, reduceIte, (kref_word k).2]
    · have hx : w = 0x88000001 + t.val * 33554432 + d.val * 524288 + a.val * 8192 + 64 + g.val * 8 ∧ nx = k.word := two (rfl : encode (.vcmpNeF t d a (.konst k) g) = [0x88000001 + t.val * 33554432 + d.val * 524288 + a.val * 8192 + 64 + g.val * 8, k.word]) he
      rw [hx.2]; replace hw := hx.1
      have hl := layR (c := 70) (d := d.val) (a := a.val) (b := 0) (x := g.val * 8 + 65) (hw.trans (by clear * - ht; omega)) (d.isLt) (a.isLt) (by decide) (by have b0 := g.isLt; clear * - b0; omega)
      have e0 := hl.1
      have e1 : fld w 0 3 = 1 := (part 0 7 0 3 hl.2.2.2.2 (by decide) (by decide)).trans (by have b0 := g.isLt; clear * - b0; omega)
      have e2 : fld w 6 1 = 1 := (part 0 7 6 1 hl.2.2.2.2 (by decide) (by decide)).trans (by have b0 := g.isLt; clear * - b0; omega)
      have e3 : fld w 7 6 = 0 := hl.2.2.2.1
      have a1 : r2 w 25 = t := Fin.ext (by show w / 2 ^ 25 % 4 = t.val; clear * - hw ht; omega)
      have a2 : r6 w 19 = d := Fin.ext (hl.2.1)
      have a3 : r6 w 13 = a := Fin.ext (hl.2.2.1)
      have a4 : r3 w 3 = g := Fin.ext ((part 0 7 3 3 hl.2.2.2.2 (by decide) (by decide)).trans (by have b0 := g.isLt; clear * - b0; omega))
      refine wf_ok (by rw [e0]; decide) ?_ hf
      rw [flat46 w _ e0]; unfold decode46
      simp only [e1, e2, e3, a1, a2, a3, (kref_word k).1, a4, Nat.reduceEqDiff, OfNat.ofNat_ne_zero, OfNat.zero_ne_ofNat, one_ne_zero, zero_ne_one, OfNat.one_ne_ofNat, OfNat.ofNat_ne_one, false_and, and_false, and_self, true_and, and_true, reduceIte, (kref_word k).2]
    · exact absurd (show (decide (t.val < 3 ∧ d.val < 8 ∧ a.val < 32) && BOp.isV (BOp.konst k)) = true from hf) (by simp [ht])

theorem vcmpLtF (t : Fin 4) (d : Fin 64) (a : Fin 64) (b : BOp) (g : Fin 8) : Statement (.vcmpLtF t d a b g) := by
  intro hf w nx he
  cases b with
  | reg r =>
    rcases (by omega : t.val = 0 ∨ t.val = 1 ∨ t.val = 2 ∨ t.val = 3) with ht | ht | ht | ht
    · have hw : w = 0x88000002 + t.val * 33554432 + d.val * 524288 + a.val * 8192 + r.val * 128 + g.val * 8 := one (rfl : encode (.vcmpLtF t d a (.reg r) g) = [0x88000002 + t.val * 33554432 + d.val * 524288 + a.val * 8192 + r.val * 128 + g.val * 8]) he
      have hl := layR (c := 68) (d := d.val) (a := a.val) (b := r.val) (x := g.val * 8 + 2) (hw.trans (by clear * - ht; omega)) (d.isLt) (a.isLt) (r.isLt) (by have b0 := g.isLt; clear * - b0; omega)
      have e0 := hl.1
      have e1 : fld w 0 3 = 2 := (part 0 7 0 3 hl.2.2.2.2 (by decide) (by decide)).trans (by have b0 := g.isLt; clear * - b0; omega)
      have e2 : fld w 6 1 = 0 := (part 0 7 6 1 hl.2.2.2.2 (by decide) (by decide)).trans (by have b0 := g.isLt; clear * - b0; omega)
      have a1 : r2 w 25 = t := Fin.ext (by show w / 2 ^ 25 % 4 = t.val; clear * - hw ht; omega)
      have a2 : r6 w 19 = d := Fin.ext (hl.2.1)
      have a3 : r6 w 13 = a := Fin.ext (hl.2.2.1)
      have a4 : r6 w 7 = r := Fin.ext (hl.2.2.2.1)
      have a5 : r3 w 3 = g := Fin.ext ((part 0 7 3 3 hl.2.2.2.2 (by decide) (by decide)).trans (by have b0 := g.isLt; clear * - b0; omega))
      refine wf_ok (by rw [e0]; decide) ?_ hf
      rw [flat44 w _ e0]; unfold decode44
      simp only [e1, e2, a1, a2, a3, a4, a5, Nat.reduceEqDiff, OfNat.ofNat_ne_zero, OfNat.zero_ne_ofNat, one_ne_zero, zero_ne_one, OfNat.one_ne_ofNat, OfNat.ofNat_ne_one, false_and, and_false, and_self, true_and, and_true, reduceIte]
    · have hw : w = 0x88000002 + t.val * 33554432 + d.val * 524288 + a.val * 8192 + r.val * 128 + g.val * 8 := one (rfl : encode (.vcmpLtF t d a (.reg r) g) = [0x88000002 + t.val * 33554432 + d.val * 524288 + a.val * 8192 + r.val * 128 + g.val * 8]) he
      have hl := layR (c := 69) (d := d.val) (a := a.val) (b := r.val) (x := g.val * 8 + 2) (hw.trans (by clear * - ht; omega)) (d.isLt) (a.isLt) (r.isLt) (by have b0 := g.isLt; clear * - b0; omega)
      have e0 := hl.1
      have e1 : fld w 0 3 = 2 := (part 0 7 0 3 hl.2.2.2.2 (by decide) (by decide)).trans (by have b0 := g.isLt; clear * - b0; omega)
      have e2 : fld w 6 1 = 0 := (part 0 7 6 1 hl.2.2.2.2 (by decide) (by decide)).trans (by have b0 := g.isLt; clear * - b0; omega)
      have a1 : r2 w 25 = t := Fin.ext (by show w / 2 ^ 25 % 4 = t.val; clear * - hw ht; omega)
      have a2 : r6 w 19 = d := Fin.ext (hl.2.1)
      have a3 : r6 w 13 = a := Fin.ext (hl.2.2.1)
      have a4 : r6 w 7 = r := Fin.ext (hl.2.2.2.1)
      have a5 : r3 w 3 = g := Fin.ext ((part 0 7 3 3 hl.2.2.2.2 (by decide) (by decide)).trans (by have b0 := g.isLt; clear * - b0; omega))
      refine wf_ok (by rw [e0]; decide) ?_ hf
      rw [flat45 w _ e0]; unfold decode45
      simp only [e1, e2, a1, a2, a3, a4, a5, Nat.reduceEqDiff, OfNat.ofNat_ne_zero, OfNat.zero_ne_ofNat, one_ne_zero, zero_ne_one, OfNat.one_ne_ofNat, OfNat.ofNat_ne_one, false_and, and_false, and_self, true_and, and_true, reduceIte]
    · have hw : w = 0x88000002 + t.val * 33554432 + d.val * 524288 + a.val * 8192 + r.val * 128 + g.val * 8 := one (rfl : encode (.vcmpLtF t d a (.reg r) g) = [0x88000002 + t.val * 33554432 + d.val * 524288 + a.val * 8192 + r.val * 128 + g.val * 8]) he
      have hl := layR (c := 70) (d := d.val) (a := a.val) (b := r.val) (x := g.val * 8 + 2) (hw.trans (by clear * - ht; omega)) (d.isLt) (a.isLt) (r.isLt) (by have b0 := g.isLt; clear * - b0; omega)
      have e0 := hl.1
      have e1 : fld w 0 3 = 2 := (part 0 7 0 3 hl.2.2.2.2 (by decide) (by decide)).trans (by have b0 := g.isLt; clear * - b0; omega)
      have e2 : fld w 6 1 = 0 := (part 0 7 6 1 hl.2.2.2.2 (by decide) (by decide)).trans (by have b0 := g.isLt; clear * - b0; omega)
      have a1 : r2 w 25 = t := Fin.ext (by show w / 2 ^ 25 % 4 = t.val; clear * - hw ht; omega)
      have a2 : r6 w 19 = d := Fin.ext (hl.2.1)
      have a3 : r6 w 13 = a := Fin.ext (hl.2.2.1)
      have a4 : r6 w 7 = r := Fin.ext (hl.2.2.2.1)
      have a5 : r3 w 3 = g := Fin.ext ((part 0 7 3 3 hl.2.2.2.2 (by decide) (by decide)).trans (by have b0 := g.isLt; clear * - b0; omega))
      refine wf_ok (by rw [e0]; decide) ?_ hf
      rw [flat46 w _ e0]; unfold decode46
      simp only [e1, e2, a1, a2, a3, a4, a5, Nat.reduceEqDiff, OfNat.ofNat_ne_zero, OfNat.zero_ne_ofNat, one_ne_zero, zero_ne_one, OfNat.one_ne_ofNat, OfNat.ofNat_ne_one, false_and, and_false, and_self, true_and, and_true, reduceIte]
    · exact absurd (show (decide (t.val < 3 ∧ d.val < 8 ∧ a.val < 32) && BOp.isV (BOp.reg r)) = true from hf) (by simp [ht])
  | konst k =>
    rcases (by omega : t.val = 0 ∨ t.val = 1 ∨ t.val = 2 ∨ t.val = 3) with ht | ht | ht | ht
    · have hx : w = 0x88000002 + t.val * 33554432 + d.val * 524288 + a.val * 8192 + 64 + g.val * 8 ∧ nx = k.word := two (rfl : encode (.vcmpLtF t d a (.konst k) g) = [0x88000002 + t.val * 33554432 + d.val * 524288 + a.val * 8192 + 64 + g.val * 8, k.word]) he
      rw [hx.2]; replace hw := hx.1
      have hl := layR (c := 68) (d := d.val) (a := a.val) (b := 0) (x := g.val * 8 + 66) (hw.trans (by clear * - ht; omega)) (d.isLt) (a.isLt) (by decide) (by have b0 := g.isLt; clear * - b0; omega)
      have e0 := hl.1
      have e1 : fld w 0 3 = 2 := (part 0 7 0 3 hl.2.2.2.2 (by decide) (by decide)).trans (by have b0 := g.isLt; clear * - b0; omega)
      have e2 : fld w 6 1 = 1 := (part 0 7 6 1 hl.2.2.2.2 (by decide) (by decide)).trans (by have b0 := g.isLt; clear * - b0; omega)
      have e3 : fld w 7 6 = 0 := hl.2.2.2.1
      have a1 : r2 w 25 = t := Fin.ext (by show w / 2 ^ 25 % 4 = t.val; clear * - hw ht; omega)
      have a2 : r6 w 19 = d := Fin.ext (hl.2.1)
      have a3 : r6 w 13 = a := Fin.ext (hl.2.2.1)
      have a4 : r3 w 3 = g := Fin.ext ((part 0 7 3 3 hl.2.2.2.2 (by decide) (by decide)).trans (by have b0 := g.isLt; clear * - b0; omega))
      refine wf_ok (by rw [e0]; decide) ?_ hf
      rw [flat44 w _ e0]; unfold decode44
      simp only [e1, e2, e3, a1, a2, a3, (kref_word k).1, a4, Nat.reduceEqDiff, OfNat.ofNat_ne_zero, OfNat.zero_ne_ofNat, one_ne_zero, zero_ne_one, OfNat.one_ne_ofNat, OfNat.ofNat_ne_one, false_and, and_false, and_self, true_and, and_true, reduceIte, (kref_word k).2]
    · have hx : w = 0x88000002 + t.val * 33554432 + d.val * 524288 + a.val * 8192 + 64 + g.val * 8 ∧ nx = k.word := two (rfl : encode (.vcmpLtF t d a (.konst k) g) = [0x88000002 + t.val * 33554432 + d.val * 524288 + a.val * 8192 + 64 + g.val * 8, k.word]) he
      rw [hx.2]; replace hw := hx.1
      have hl := layR (c := 69) (d := d.val) (a := a.val) (b := 0) (x := g.val * 8 + 66) (hw.trans (by clear * - ht; omega)) (d.isLt) (a.isLt) (by decide) (by have b0 := g.isLt; clear * - b0; omega)
      have e0 := hl.1
      have e1 : fld w 0 3 = 2 := (part 0 7 0 3 hl.2.2.2.2 (by decide) (by decide)).trans (by have b0 := g.isLt; clear * - b0; omega)
      have e2 : fld w 6 1 = 1 := (part 0 7 6 1 hl.2.2.2.2 (by decide) (by decide)).trans (by have b0 := g.isLt; clear * - b0; omega)
      have e3 : fld w 7 6 = 0 := hl.2.2.2.1
      have a1 : r2 w 25 = t := Fin.ext (by show w / 2 ^ 25 % 4 = t.val; clear * - hw ht; omega)
      have a2 : r6 w 19 = d := Fin.ext (hl.2.1)
      have a3 : r6 w 13 = a := Fin.ext (hl.2.2.1)
      have a4 : r3 w 3 = g := Fin.ext ((part 0 7 3 3 hl.2.2.2.2 (by decide) (by decide)).trans (by have b0 := g.isLt; clear * - b0; omega))
      refine wf_ok (by rw [e0]; decide) ?_ hf
      rw [flat45 w _ e0]; unfold decode45
      simp only [e1, e2, e3, a1, a2, a3, (kref_word k).1, a4, Nat.reduceEqDiff, OfNat.ofNat_ne_zero, OfNat.zero_ne_ofNat, one_ne_zero, zero_ne_one, OfNat.one_ne_ofNat, OfNat.ofNat_ne_one, false_and, and_false, and_self, true_and, and_true, reduceIte, (kref_word k).2]
    · have hx : w = 0x88000002 + t.val * 33554432 + d.val * 524288 + a.val * 8192 + 64 + g.val * 8 ∧ nx = k.word := two (rfl : encode (.vcmpLtF t d a (.konst k) g) = [0x88000002 + t.val * 33554432 + d.val * 524288 + a.val * 8192 + 64 + g.val * 8, k.word]) he
      rw [hx.2]; replace hw := hx.1
      have hl := layR (c := 70) (d := d.val) (a := a.val) (b := 0) (x := g.val * 8 + 66) (hw.trans (by clear * - ht; omega)) (d.isLt) (a.isLt) (by decide) (by have b0 := g.isLt; clear * - b0; omega)
      have e0 := hl.1
      have e1 : fld w 0 3 = 2 := (part 0 7 0 3 hl.2.2.2.2 (by decide) (by decide)).trans (by have b0 := g.isLt; clear * - b0; omega)
      have e2 : fld w 6 1 = 1 := (part 0 7 6 1 hl.2.2.2.2 (by decide) (by decide)).trans (by have b0 := g.isLt; clear * - b0; omega)
      have e3 : fld w 7 6 = 0 := hl.2.2.2.1
      have a1 : r2 w 25 = t := Fin.ext (by show w / 2 ^ 25 % 4 = t.val; clear * - hw ht; omega)
      have a2 : r6 w 19 = d := Fin.ext (hl.2.1)
      have a3 : r6 w 13 = a := Fin.ext (hl.2.2.1)
      have a4 : r3 w 3 = g := Fin.ext ((part 0 7 3 3 hl.2.2.2.2 (by decide) (by decide)).trans (by have b0 := g.isLt; clear * - b0; omega))
      refine wf_ok (by rw [e0]; decide) ?_ hf
      rw [flat46 w _ e0]; unfold decode46
      simp only [e1, e2, e3, a1, a2, a3, (kref_word k).1, a4, Nat.reduceEqDiff, OfNat.ofNat_ne_zero, OfNat.zero_ne_ofNat, one_ne_zero, zero_ne_one, OfNat.one_ne_ofNat, OfNat.ofNat_ne_one, false_and, and_false, and_self, true_and, and_true, reduceIte, (kref_word k).2]
    · exact absurd (show (decide (t.val < 3 ∧ d.val < 8 ∧ a.val < 32) && BOp.isV (BOp.konst k)) = true from hf) (by simp [ht])

theorem vcmpLeF (t : Fin 4) (d : Fin 64) (a : Fin 64) (b : BOp) (g : Fin 8) : Statement (.vcmpLeF t d a b g) := by
  intro hf w nx he
  cases b with
  | reg r =>
    rcases (by omega : t.val = 0 ∨ t.val = 1 ∨ t.val = 2 ∨ t.val = 3) with ht | ht | ht | ht
    · have hw : w = 0x88000003 + t.val * 33554432 + d.val * 524288 + a.val * 8192 + r.val * 128 + g.val * 8 := one (rfl : encode (.vcmpLeF t d a (.reg r) g) = [0x88000003 + t.val * 33554432 + d.val * 524288 + a.val * 8192 + r.val * 128 + g.val * 8]) he
      have hl := layR (c := 68) (d := d.val) (a := a.val) (b := r.val) (x := g.val * 8 + 3) (hw.trans (by clear * - ht; omega)) (d.isLt) (a.isLt) (r.isLt) (by have b0 := g.isLt; clear * - b0; omega)
      have e0 := hl.1
      have e1 : fld w 0 3 = 3 := (part 0 7 0 3 hl.2.2.2.2 (by decide) (by decide)).trans (by have b0 := g.isLt; clear * - b0; omega)
      have e2 : fld w 6 1 = 0 := (part 0 7 6 1 hl.2.2.2.2 (by decide) (by decide)).trans (by have b0 := g.isLt; clear * - b0; omega)
      have a1 : r2 w 25 = t := Fin.ext (by show w / 2 ^ 25 % 4 = t.val; clear * - hw ht; omega)
      have a2 : r6 w 19 = d := Fin.ext (hl.2.1)
      have a3 : r6 w 13 = a := Fin.ext (hl.2.2.1)
      have a4 : r6 w 7 = r := Fin.ext (hl.2.2.2.1)
      have a5 : r3 w 3 = g := Fin.ext ((part 0 7 3 3 hl.2.2.2.2 (by decide) (by decide)).trans (by have b0 := g.isLt; clear * - b0; omega))
      refine wf_ok (by rw [e0]; decide) ?_ hf
      rw [flat44 w _ e0]; unfold decode44
      simp only [e1, e2, a1, a2, a3, a4, a5, Nat.reduceEqDiff, OfNat.ofNat_ne_zero, OfNat.zero_ne_ofNat, one_ne_zero, zero_ne_one, OfNat.one_ne_ofNat, OfNat.ofNat_ne_one, false_and, and_false, and_self, true_and, and_true, reduceIte]
    · have hw : w = 0x88000003 + t.val * 33554432 + d.val * 524288 + a.val * 8192 + r.val * 128 + g.val * 8 := one (rfl : encode (.vcmpLeF t d a (.reg r) g) = [0x88000003 + t.val * 33554432 + d.val * 524288 + a.val * 8192 + r.val * 128 + g.val * 8]) he
      have hl := layR (c := 69) (d := d.val) (a := a.val) (b := r.val) (x := g.val * 8 + 3) (hw.trans (by clear * - ht; omega)) (d.isLt) (a.isLt) (r.isLt) (by have b0 := g.isLt; clear * - b0; omega)
      have e0 := hl.1
      have e1 : fld w 0 3 = 3 := (part 0 7 0 3 hl.2.2.2.2 (by decide) (by decide)).trans (by have b0 := g.isLt; clear * - b0; omega)
      have e2 : fld w 6 1 = 0 := (part 0 7 6 1 hl.2.2.2.2 (by decide) (by decide)).trans (by have b0 := g.isLt; clear * - b0; omega)
      have a1 : r2 w 25 = t := Fin.ext (by show w / 2 ^ 25 % 4 = t.val; clear * - hw ht; omega)
      have a2 : r6 w 19 = d := Fin.ext (hl.2.1)
      have a3 : r6 w 13 = a := Fin.ext (hl.2.2.1)
      have a4 : r6 w 7 = r := Fin.ext (hl.2.2.2.1)
      have a5 : r3 w 3 = g := Fin.ext ((part 0 7 3 3 hl.2.2.2.2 (by decide) (by decide)).trans (by have b0 := g.isLt; clear * - b0; omega))
      refine wf_ok (by rw [e0]; decide) ?_ hf
      rw [flat45 w _ e0]; unfold decode45
      simp only [e1, e2, a1, a2, a3, a4, a5, Nat.reduceEqDiff, OfNat.ofNat_ne_zero, OfNat.zero_ne_ofNat, one_ne_zero, zero_ne_one, OfNat.one_ne_ofNat, OfNat.ofNat_ne_one, false_and, and_false, and_self, true_and, and_true, reduceIte]
    · have hw : w = 0x88000003 + t.val * 33554432 + d.val * 524288 + a.val * 8192 + r.val * 128 + g.val * 8 := one (rfl : encode (.vcmpLeF t d a (.reg r) g) = [0x88000003 + t.val * 33554432 + d.val * 524288 + a.val * 8192 + r.val * 128 + g.val * 8]) he
      have hl := layR (c := 70) (d := d.val) (a := a.val) (b := r.val) (x := g.val * 8 + 3) (hw.trans (by clear * - ht; omega)) (d.isLt) (a.isLt) (r.isLt) (by have b0 := g.isLt; clear * - b0; omega)
      have e0 := hl.1
      have e1 : fld w 0 3 = 3 := (part 0 7 0 3 hl.2.2.2.2 (by decide) (by decide)).trans (by have b0 := g.isLt; clear * - b0; omega)
      have e2 : fld w 6 1 = 0 := (part 0 7 6 1 hl.2.2.2.2 (by decide) (by decide)).trans (by have b0 := g.isLt; clear * - b0; omega)
      have a1 : r2 w 25 = t := Fin.ext (by show w / 2 ^ 25 % 4 = t.val; clear * - hw ht; omega)
      have a2 : r6 w 19 = d := Fin.ext (hl.2.1)
      have a3 : r6 w 13 = a := Fin.ext (hl.2.2.1)
      have a4 : r6 w 7 = r := Fin.ext (hl.2.2.2.1)
      have a5 : r3 w 3 = g := Fin.ext ((part 0 7 3 3 hl.2.2.2.2 (by decide) (by decide)).trans (by have b0 := g.isLt; clear * - b0; omega))
      refine wf_ok (by rw [e0]; decide) ?_ hf
      rw [flat46 w _ e0]; unfold decode46
      simp only [e1, e2, a1, a2, a3, a4, a5, Nat.reduceEqDiff, OfNat.ofNat_ne_zero, OfNat.zero_ne_ofNat, one_ne_zero, zero_ne_one, OfNat.one_ne_ofNat, OfNat.ofNat_ne_one, false_and, and_false, and_self, true_and, and_true, reduceIte]
    · exact absurd (show (decide (t.val < 3 ∧ d.val < 8 ∧ a.val < 32) && BOp.isV (BOp.reg r)) = true from hf) (by simp [ht])
  | konst k =>
    rcases (by omega : t.val = 0 ∨ t.val = 1 ∨ t.val = 2 ∨ t.val = 3) with ht | ht | ht | ht
    · have hx : w = 0x88000003 + t.val * 33554432 + d.val * 524288 + a.val * 8192 + 64 + g.val * 8 ∧ nx = k.word := two (rfl : encode (.vcmpLeF t d a (.konst k) g) = [0x88000003 + t.val * 33554432 + d.val * 524288 + a.val * 8192 + 64 + g.val * 8, k.word]) he
      rw [hx.2]; replace hw := hx.1
      have hl := layR (c := 68) (d := d.val) (a := a.val) (b := 0) (x := g.val * 8 + 67) (hw.trans (by clear * - ht; omega)) (d.isLt) (a.isLt) (by decide) (by have b0 := g.isLt; clear * - b0; omega)
      have e0 := hl.1
      have e1 : fld w 0 3 = 3 := (part 0 7 0 3 hl.2.2.2.2 (by decide) (by decide)).trans (by have b0 := g.isLt; clear * - b0; omega)
      have e2 : fld w 6 1 = 1 := (part 0 7 6 1 hl.2.2.2.2 (by decide) (by decide)).trans (by have b0 := g.isLt; clear * - b0; omega)
      have e3 : fld w 7 6 = 0 := hl.2.2.2.1
      have a1 : r2 w 25 = t := Fin.ext (by show w / 2 ^ 25 % 4 = t.val; clear * - hw ht; omega)
      have a2 : r6 w 19 = d := Fin.ext (hl.2.1)
      have a3 : r6 w 13 = a := Fin.ext (hl.2.2.1)
      have a4 : r3 w 3 = g := Fin.ext ((part 0 7 3 3 hl.2.2.2.2 (by decide) (by decide)).trans (by have b0 := g.isLt; clear * - b0; omega))
      refine wf_ok (by rw [e0]; decide) ?_ hf
      rw [flat44 w _ e0]; unfold decode44
      simp only [e1, e2, e3, a1, a2, a3, (kref_word k).1, a4, Nat.reduceEqDiff, OfNat.ofNat_ne_zero, OfNat.zero_ne_ofNat, one_ne_zero, zero_ne_one, OfNat.one_ne_ofNat, OfNat.ofNat_ne_one, false_and, and_false, and_self, true_and, and_true, reduceIte, (kref_word k).2]
    · have hx : w = 0x88000003 + t.val * 33554432 + d.val * 524288 + a.val * 8192 + 64 + g.val * 8 ∧ nx = k.word := two (rfl : encode (.vcmpLeF t d a (.konst k) g) = [0x88000003 + t.val * 33554432 + d.val * 524288 + a.val * 8192 + 64 + g.val * 8, k.word]) he
      rw [hx.2]; replace hw := hx.1
      have hl := layR (c := 69) (d := d.val) (a := a.val) (b := 0) (x := g.val * 8 + 67) (hw.trans (by clear * - ht; omega)) (d.isLt) (a.isLt) (by decide) (by have b0 := g.isLt; clear * - b0; omega)
      have e0 := hl.1
      have e1 : fld w 0 3 = 3 := (part 0 7 0 3 hl.2.2.2.2 (by decide) (by decide)).trans (by have b0 := g.isLt; clear * - b0; omega)
      have e2 : fld w 6 1 = 1 := (part 0 7 6 1 hl.2.2.2.2 (by decide) (by decide)).trans (by have b0 := g.isLt; clear * - b0; omega)
      have e3 : fld w 7 6 = 0 := hl.2.2.2.1
      have a1 : r2 w 25 = t := Fin.ext (by show w / 2 ^ 25 % 4 = t.val; clear * - hw ht; omega)
      have a2 : r6 w 19 = d := Fin.ext (hl.2.1)
      have a3 : r6 w 13 = a := Fin.ext (hl.2.2.1)
      have a4 : r3 w 3 = g := Fin.ext ((part 0 7 3 3 hl.2.2.2.2 (by decide) (by decide)).trans (by have b0 := g.isLt; clear * - b0; omega))
      refine wf_ok (by rw [e0]; decide) ?_ hf
      rw [flat45 w _ e0]; unfold decode45
      simp only [e1, e2, e3, a1, a2, a3, (kref_word k).1, a4, Nat.reduceEqDiff, OfNat.ofNat_ne_zero, OfNat.zero_ne_ofNat, one_ne_zero, zero_ne_one, OfNat.one_ne_ofNat, OfNat.ofNat_ne_one, false_and, and_false, and_self, true_and, and_true, reduceIte, (kref_word k).2]
    · have hx : w = 0x88000003 + t.val * 33554432 + d.val * 524288 + a.val * 8192 + 64 + g.val * 8 ∧ nx = k.word := two (rfl : encode (.vcmpLeF t d a (.konst k) g) = [0x88000003 + t.val * 33554432 + d.val * 524288 + a.val * 8192 + 64 + g.val * 8, k.word]) he
      rw [hx.2]; replace hw := hx.1
      have hl := layR (c := 70) (d := d.val) (a := a.val) (b := 0) (x := g.val * 8 + 67) (hw.trans (by clear * - ht; omega)) (d.isLt) (a.isLt) (by decide) (by have b0 := g.isLt; clear * - b0; omega)
      have e0 := hl.1
      have e1 : fld w 0 3 = 3 := (part 0 7 0 3 hl.2.2.2.2 (by decide) (by decide)).trans (by have b0 := g.isLt; clear * - b0; omega)
      have e2 : fld w 6 1 = 1 := (part 0 7 6 1 hl.2.2.2.2 (by decide) (by decide)).trans (by have b0 := g.isLt; clear * - b0; omega)
      have e3 : fld w 7 6 = 0 := hl.2.2.2.1
      have a1 : r2 w 25 = t := Fin.ext (by show w / 2 ^ 25 % 4 = t.val; clear * - hw ht; omega)
      have a2 : r6 w 19 = d := Fin.ext (hl.2.1)
      have a3 : r6 w 13 = a := Fin.ext (hl.2.2.1)
      have a4 : r3 w 3 = g := Fin.ext ((part 0 7 3 3 hl.2.2.2.2 (by decide) (by decide)).trans (by have b0 := g.isLt; clear * - b0; omega))
      refine wf_ok (by rw [e0]; decide) ?_ hf
      rw [flat46 w _ e0]; unfold decode46
      simp only [e1, e2, e3, a1, a2, a3, (kref_word k).1, a4, Nat.reduceEqDiff, OfNat.ofNat_ne_zero, OfNat.zero_ne_ofNat, one_ne_zero, zero_ne_one, OfNat.one_ne_ofNat, OfNat.ofNat_ne_one, false_and, and_false, and_self, true_and, and_true, reduceIte, (kref_word k).2]
    · exact absurd (show (decide (t.val < 3 ∧ d.val < 8 ∧ a.val < 32) && BOp.isV (BOp.konst k)) = true from hf) (by simp [ht])

theorem vcmpUnF (t : Fin 4) (d : Fin 64) (a : Fin 64) (b : BOp) (g : Fin 8) : Statement (.vcmpUnF t d a b g) := by
  intro hf w nx he
  cases b with
  | reg r =>
    rcases (by omega : t.val = 0 ∨ t.val = 1 ∨ t.val = 2 ∨ t.val = 3) with ht | ht | ht | ht
    · have hw : w = 0x88000004 + t.val * 33554432 + d.val * 524288 + a.val * 8192 + r.val * 128 + g.val * 8 := one (rfl : encode (.vcmpUnF t d a (.reg r) g) = [0x88000004 + t.val * 33554432 + d.val * 524288 + a.val * 8192 + r.val * 128 + g.val * 8]) he
      have hl := layR (c := 68) (d := d.val) (a := a.val) (b := r.val) (x := g.val * 8 + 4) (hw.trans (by clear * - ht; omega)) (d.isLt) (a.isLt) (r.isLt) (by have b0 := g.isLt; clear * - b0; omega)
      have e0 := hl.1
      have e1 : fld w 0 3 = 4 := (part 0 7 0 3 hl.2.2.2.2 (by decide) (by decide)).trans (by have b0 := g.isLt; clear * - b0; omega)
      have e2 : fld w 6 1 = 0 := (part 0 7 6 1 hl.2.2.2.2 (by decide) (by decide)).trans (by have b0 := g.isLt; clear * - b0; omega)
      have a1 : r2 w 25 = t := Fin.ext (by show w / 2 ^ 25 % 4 = t.val; clear * - hw ht; omega)
      have a2 : r6 w 19 = d := Fin.ext (hl.2.1)
      have a3 : r6 w 13 = a := Fin.ext (hl.2.2.1)
      have a4 : r6 w 7 = r := Fin.ext (hl.2.2.2.1)
      have a5 : r3 w 3 = g := Fin.ext ((part 0 7 3 3 hl.2.2.2.2 (by decide) (by decide)).trans (by have b0 := g.isLt; clear * - b0; omega))
      refine wf_ok (by rw [e0]; decide) ?_ hf
      rw [flat44 w _ e0]; unfold decode44
      simp only [e1, e2, a1, a2, a3, a4, a5, Nat.reduceEqDiff, OfNat.ofNat_ne_zero, OfNat.zero_ne_ofNat, one_ne_zero, zero_ne_one, OfNat.one_ne_ofNat, OfNat.ofNat_ne_one, false_and, and_false, and_self, true_and, and_true, reduceIte]
    · have hw : w = 0x88000004 + t.val * 33554432 + d.val * 524288 + a.val * 8192 + r.val * 128 + g.val * 8 := one (rfl : encode (.vcmpUnF t d a (.reg r) g) = [0x88000004 + t.val * 33554432 + d.val * 524288 + a.val * 8192 + r.val * 128 + g.val * 8]) he
      have hl := layR (c := 69) (d := d.val) (a := a.val) (b := r.val) (x := g.val * 8 + 4) (hw.trans (by clear * - ht; omega)) (d.isLt) (a.isLt) (r.isLt) (by have b0 := g.isLt; clear * - b0; omega)
      have e0 := hl.1
      have e1 : fld w 0 3 = 4 := (part 0 7 0 3 hl.2.2.2.2 (by decide) (by decide)).trans (by have b0 := g.isLt; clear * - b0; omega)
      have e2 : fld w 6 1 = 0 := (part 0 7 6 1 hl.2.2.2.2 (by decide) (by decide)).trans (by have b0 := g.isLt; clear * - b0; omega)
      have a1 : r2 w 25 = t := Fin.ext (by show w / 2 ^ 25 % 4 = t.val; clear * - hw ht; omega)
      have a2 : r6 w 19 = d := Fin.ext (hl.2.1)
      have a3 : r6 w 13 = a := Fin.ext (hl.2.2.1)
      have a4 : r6 w 7 = r := Fin.ext (hl.2.2.2.1)
      have a5 : r3 w 3 = g := Fin.ext ((part 0 7 3 3 hl.2.2.2.2 (by decide) (by decide)).trans (by have b0 := g.isLt; clear * - b0; omega))
      refine wf_ok (by rw [e0]; decide) ?_ hf
      rw [flat45 w _ e0]; unfold decode45
      simp only [e1, e2, a1, a2, a3, a4, a5, Nat.reduceEqDiff, OfNat.ofNat_ne_zero, OfNat.zero_ne_ofNat, one_ne_zero, zero_ne_one, OfNat.one_ne_ofNat, OfNat.ofNat_ne_one, false_and, and_false, and_self, true_and, and_true, reduceIte]
    · have hw : w = 0x88000004 + t.val * 33554432 + d.val * 524288 + a.val * 8192 + r.val * 128 + g.val * 8 := one (rfl : encode (.vcmpUnF t d a (.reg r) g) = [0x88000004 + t.val * 33554432 + d.val * 524288 + a.val * 8192 + r.val * 128 + g.val * 8]) he
      have hl := layR (c := 70) (d := d.val) (a := a.val) (b := r.val) (x := g.val * 8 + 4) (hw.trans (by clear * - ht; omega)) (d.isLt) (a.isLt) (r.isLt) (by have b0 := g.isLt; clear * - b0; omega)
      have e0 := hl.1
      have e1 : fld w 0 3 = 4 := (part 0 7 0 3 hl.2.2.2.2 (by decide) (by decide)).trans (by have b0 := g.isLt; clear * - b0; omega)
      have e2 : fld w 6 1 = 0 := (part 0 7 6 1 hl.2.2.2.2 (by decide) (by decide)).trans (by have b0 := g.isLt; clear * - b0; omega)
      have a1 : r2 w 25 = t := Fin.ext (by show w / 2 ^ 25 % 4 = t.val; clear * - hw ht; omega)
      have a2 : r6 w 19 = d := Fin.ext (hl.2.1)
      have a3 : r6 w 13 = a := Fin.ext (hl.2.2.1)
      have a4 : r6 w 7 = r := Fin.ext (hl.2.2.2.1)
      have a5 : r3 w 3 = g := Fin.ext ((part 0 7 3 3 hl.2.2.2.2 (by decide) (by decide)).trans (by have b0 := g.isLt; clear * - b0; omega))
      refine wf_ok (by rw [e0]; decide) ?_ hf
      rw [flat46 w _ e0]; unfold decode46
      simp only [e1, e2, a1, a2, a3, a4, a5, Nat.reduceEqDiff, OfNat.ofNat_ne_zero, OfNat.zero_ne_ofNat, one_ne_zero, zero_ne_one, OfNat.one_ne_ofNat, OfNat.ofNat_ne_one, false_and, and_false, and_self, true_and, and_true, reduceIte]
    · exact absurd (show (decide (t.val < 3 ∧ d.val < 8 ∧ a.val < 32) && BOp.isV (BOp.reg r)) = true from hf) (by simp [ht])
  | konst k =>
    rcases (by omega : t.val = 0 ∨ t.val = 1 ∨ t.val = 2 ∨ t.val = 3) with ht | ht | ht | ht
    · have hx : w = 0x88000004 + t.val * 33554432 + d.val * 524288 + a.val * 8192 + 64 + g.val * 8 ∧ nx = k.word := two (rfl : encode (.vcmpUnF t d a (.konst k) g) = [0x88000004 + t.val * 33554432 + d.val * 524288 + a.val * 8192 + 64 + g.val * 8, k.word]) he
      rw [hx.2]; replace hw := hx.1
      have hl := layR (c := 68) (d := d.val) (a := a.val) (b := 0) (x := g.val * 8 + 68) (hw.trans (by clear * - ht; omega)) (d.isLt) (a.isLt) (by decide) (by have b0 := g.isLt; clear * - b0; omega)
      have e0 := hl.1
      have e1 : fld w 0 3 = 4 := (part 0 7 0 3 hl.2.2.2.2 (by decide) (by decide)).trans (by have b0 := g.isLt; clear * - b0; omega)
      have e2 : fld w 6 1 = 1 := (part 0 7 6 1 hl.2.2.2.2 (by decide) (by decide)).trans (by have b0 := g.isLt; clear * - b0; omega)
      have e3 : fld w 7 6 = 0 := hl.2.2.2.1
      have a1 : r2 w 25 = t := Fin.ext (by show w / 2 ^ 25 % 4 = t.val; clear * - hw ht; omega)
      have a2 : r6 w 19 = d := Fin.ext (hl.2.1)
      have a3 : r6 w 13 = a := Fin.ext (hl.2.2.1)
      have a4 : r3 w 3 = g := Fin.ext ((part 0 7 3 3 hl.2.2.2.2 (by decide) (by decide)).trans (by have b0 := g.isLt; clear * - b0; omega))
      refine wf_ok (by rw [e0]; decide) ?_ hf
      rw [flat44 w _ e0]; unfold decode44
      simp only [e1, e2, e3, a1, a2, a3, (kref_word k).1, a4, Nat.reduceEqDiff, OfNat.ofNat_ne_zero, OfNat.zero_ne_ofNat, one_ne_zero, zero_ne_one, OfNat.one_ne_ofNat, OfNat.ofNat_ne_one, false_and, and_false, and_self, true_and, and_true, reduceIte, (kref_word k).2]
    · have hx : w = 0x88000004 + t.val * 33554432 + d.val * 524288 + a.val * 8192 + 64 + g.val * 8 ∧ nx = k.word := two (rfl : encode (.vcmpUnF t d a (.konst k) g) = [0x88000004 + t.val * 33554432 + d.val * 524288 + a.val * 8192 + 64 + g.val * 8, k.word]) he
      rw [hx.2]; replace hw := hx.1
      have hl := layR (c := 69) (d := d.val) (a := a.val) (b := 0) (x := g.val * 8 + 68) (hw.trans (by clear * - ht; omega)) (d.isLt) (a.isLt) (by decide) (by have b0 := g.isLt; clear * - b0; omega)
      have e0 := hl.1
      have e1 : fld w 0 3 = 4 := (part 0 7 0 3 hl.2.2.2.2 (by decide) (by decide)).trans (by have b0 := g.isLt; clear * - b0; omega)
      have e2 : fld w 6 1 = 1 := (part 0 7 6 1 hl.2.2.2.2 (by decide) (by decide)).trans (by have b0 := g.isLt; clear * - b0; omega)
      have e3 : fld w 7 6 = 0 := hl.2.2.2.1
      have a1 : r2 w 25 = t := Fin.ext (by show w / 2 ^ 25 % 4 = t.val; clear * - hw ht; omega)
      have a2 : r6 w 19 = d := Fin.ext (hl.2.1)
      have a3 : r6 w 13 = a := Fin.ext (hl.2.2.1)
      have a4 : r3 w 3 = g := Fin.ext ((part 0 7 3 3 hl.2.2.2.2 (by decide) (by decide)).trans (by have b0 := g.isLt; clear * - b0; omega))
      refine wf_ok (by rw [e0]; decide) ?_ hf
      rw [flat45 w _ e0]; unfold decode45
      simp only [e1, e2, e3, a1, a2, a3, (kref_word k).1, a4, Nat.reduceEqDiff, OfNat.ofNat_ne_zero, OfNat.zero_ne_ofNat, one_ne_zero, zero_ne_one, OfNat.one_ne_ofNat, OfNat.ofNat_ne_one, false_and, and_false, and_self, true_and, and_true, reduceIte, (kref_word k).2]
    · have hx : w = 0x88000004 + t.val * 33554432 + d.val * 524288 + a.val * 8192 + 64 + g.val * 8 ∧ nx = k.word := two (rfl : encode (.vcmpUnF t d a (.konst k) g) = [0x88000004 + t.val * 33554432 + d.val * 524288 + a.val * 8192 + 64 + g.val * 8, k.word]) he
      rw [hx.2]; replace hw := hx.1
      have hl := layR (c := 70) (d := d.val) (a := a.val) (b := 0) (x := g.val * 8 + 68) (hw.trans (by clear * - ht; omega)) (d.isLt) (a.isLt) (by decide) (by have b0 := g.isLt; clear * - b0; omega)
      have e0 := hl.1
      have e1 : fld w 0 3 = 4 := (part 0 7 0 3 hl.2.2.2.2 (by decide) (by decide)).trans (by have b0 := g.isLt; clear * - b0; omega)
      have e2 : fld w 6 1 = 1 := (part 0 7 6 1 hl.2.2.2.2 (by decide) (by decide)).trans (by have b0 := g.isLt; clear * - b0; omega)
      have e3 : fld w 7 6 = 0 := hl.2.2.2.1
      have a1 : r2 w 25 = t := Fin.ext (by show w / 2 ^ 25 % 4 = t.val; clear * - hw ht; omega)
      have a2 : r6 w 19 = d := Fin.ext (hl.2.1)
      have a3 : r6 w 13 = a := Fin.ext (hl.2.2.1)
      have a4 : r3 w 3 = g := Fin.ext ((part 0 7 3 3 hl.2.2.2.2 (by decide) (by decide)).trans (by have b0 := g.isLt; clear * - b0; omega))
      refine wf_ok (by rw [e0]; decide) ?_ hf
      rw [flat46 w _ e0]; unfold decode46
      simp only [e1, e2, e3, a1, a2, a3, (kref_word k).1, a4, Nat.reduceEqDiff, OfNat.ofNat_ne_zero, OfNat.zero_ne_ofNat, one_ne_zero, zero_ne_one, OfNat.one_ne_ofNat, OfNat.ofNat_ne_one, false_and, and_false, and_self, true_and, and_true, reduceIte, (kref_word k).2]
    · exact absurd (show (decide (t.val < 3 ∧ d.val < 8 ∧ a.val < 32) && BOp.isV (BOp.konst k)) = true from hf) (by simp [ht])

theorem vaddW (d : Fin 64) (a : Fin 64) (b : BOp) (g : Fin 8) : Statement (.vaddW d a b g) := by
  intro hf w nx he
  cases b with
  | reg r =>
    have hw : w = 0x8e000000 + d.val * 524288 + a.val * 8192 + r.val * 128 + g.val * 8 := one (rfl : encode (.vaddW d a (.reg r) g) = [0x8e000000 + d.val * 524288 + a.val * 8192 + r.val * 128 + g.val * 8]) he
    have hl := layR (c := 71) (d := d.val) (a := a.val) (b := r.val) (x := g.val * 8) (hw.trans (by clear * -; omega)) (d.isLt) (a.isLt) (r.isLt) (by have b0 := g.isLt; clear * - b0; omega)
    have e0 := hl.1
    have e1 : fld w 0 3 = 0 := (part 0 7 0 3 hl.2.2.2.2 (by decide) (by decide)).trans (by have b0 := g.isLt; clear * - b0; omega)
    have e2 : fld w 6 1 = 0 := (part 0 7 6 1 hl.2.2.2.2 (by decide) (by decide)).trans (by have b0 := g.isLt; clear * - b0; omega)
    have a1 : r6 w 19 = d := Fin.ext (hl.2.1)
    have a2 : r6 w 13 = a := Fin.ext (hl.2.2.1)
    have a3 : r6 w 7 = r := Fin.ext (hl.2.2.2.1)
    have a4 : r3 w 3 = g := Fin.ext ((part 0 7 3 3 hl.2.2.2.2 (by decide) (by decide)).trans (by have b0 := g.isLt; clear * - b0; omega))
    refine wf_ok (by rw [e0]; decide) ?_ hf
    rw [flat47 w _ e0]; unfold decode47
    simp only [e1, e2, a1, a2, a3, a4, Nat.reduceEqDiff, OfNat.ofNat_ne_zero, OfNat.zero_ne_ofNat, one_ne_zero, zero_ne_one, OfNat.one_ne_ofNat, OfNat.ofNat_ne_one, false_and, and_false, and_self, true_and, and_true, reduceIte]
  | konst k =>
    have hx : w = 0x8e000000 + d.val * 524288 + a.val * 8192 + 64 + g.val * 8 ∧ nx = k.word := two (rfl : encode (.vaddW d a (.konst k) g) = [0x8e000000 + d.val * 524288 + a.val * 8192 + 64 + g.val * 8, k.word]) he
    rw [hx.2]; replace hw := hx.1
    have hl := layR (c := 71) (d := d.val) (a := a.val) (b := 0) (x := g.val * 8 + 64) (hw.trans (by clear * -; omega)) (d.isLt) (a.isLt) (by decide) (by have b0 := g.isLt; clear * - b0; omega)
    have e0 := hl.1
    have e1 : fld w 0 3 = 0 := (part 0 7 0 3 hl.2.2.2.2 (by decide) (by decide)).trans (by have b0 := g.isLt; clear * - b0; omega)
    have e2 : fld w 6 1 = 1 := (part 0 7 6 1 hl.2.2.2.2 (by decide) (by decide)).trans (by have b0 := g.isLt; clear * - b0; omega)
    have e3 : fld w 7 6 = 0 := hl.2.2.2.1
    have a1 : r6 w 19 = d := Fin.ext (hl.2.1)
    have a2 : r6 w 13 = a := Fin.ext (hl.2.2.1)
    have a3 : r3 w 3 = g := Fin.ext ((part 0 7 3 3 hl.2.2.2.2 (by decide) (by decide)).trans (by have b0 := g.isLt; clear * - b0; omega))
    refine wf_ok (by rw [e0]; decide) ?_ hf
    rw [flat47 w _ e0]; unfold decode47
    simp only [e1, e2, e3, a1, a2, (kref_word k).1, a3, Nat.reduceEqDiff, OfNat.ofNat_ne_zero, OfNat.zero_ne_ofNat, one_ne_zero, zero_ne_one, OfNat.one_ne_ofNat, OfNat.ofNat_ne_one, false_and, and_false, and_self, true_and, and_true, reduceIte, (kref_word k).2]

theorem vsubW (d : Fin 64) (a : Fin 64) (b : BOp) (g : Fin 8) : Statement (.vsubW d a b g) := by
  intro hf w nx he
  cases b with
  | reg r =>
    have hw : w = 0x8e000001 + d.val * 524288 + a.val * 8192 + r.val * 128 + g.val * 8 := one (rfl : encode (.vsubW d a (.reg r) g) = [0x8e000001 + d.val * 524288 + a.val * 8192 + r.val * 128 + g.val * 8]) he
    have hl := layR (c := 71) (d := d.val) (a := a.val) (b := r.val) (x := g.val * 8 + 1) (hw.trans (by clear * -; omega)) (d.isLt) (a.isLt) (r.isLt) (by have b0 := g.isLt; clear * - b0; omega)
    have e0 := hl.1
    have e1 : fld w 0 3 = 1 := (part 0 7 0 3 hl.2.2.2.2 (by decide) (by decide)).trans (by have b0 := g.isLt; clear * - b0; omega)
    have e2 : fld w 6 1 = 0 := (part 0 7 6 1 hl.2.2.2.2 (by decide) (by decide)).trans (by have b0 := g.isLt; clear * - b0; omega)
    have a1 : r6 w 19 = d := Fin.ext (hl.2.1)
    have a2 : r6 w 13 = a := Fin.ext (hl.2.2.1)
    have a3 : r6 w 7 = r := Fin.ext (hl.2.2.2.1)
    have a4 : r3 w 3 = g := Fin.ext ((part 0 7 3 3 hl.2.2.2.2 (by decide) (by decide)).trans (by have b0 := g.isLt; clear * - b0; omega))
    refine wf_ok (by rw [e0]; decide) ?_ hf
    rw [flat47 w _ e0]; unfold decode47
    simp only [e1, e2, a1, a2, a3, a4, Nat.reduceEqDiff, OfNat.ofNat_ne_zero, OfNat.zero_ne_ofNat, one_ne_zero, zero_ne_one, OfNat.one_ne_ofNat, OfNat.ofNat_ne_one, false_and, and_false, and_self, true_and, and_true, reduceIte]
  | konst k =>
    have hx : w = 0x8e000001 + d.val * 524288 + a.val * 8192 + 64 + g.val * 8 ∧ nx = k.word := two (rfl : encode (.vsubW d a (.konst k) g) = [0x8e000001 + d.val * 524288 + a.val * 8192 + 64 + g.val * 8, k.word]) he
    rw [hx.2]; replace hw := hx.1
    have hl := layR (c := 71) (d := d.val) (a := a.val) (b := 0) (x := g.val * 8 + 65) (hw.trans (by clear * -; omega)) (d.isLt) (a.isLt) (by decide) (by have b0 := g.isLt; clear * - b0; omega)
    have e0 := hl.1
    have e1 : fld w 0 3 = 1 := (part 0 7 0 3 hl.2.2.2.2 (by decide) (by decide)).trans (by have b0 := g.isLt; clear * - b0; omega)
    have e2 : fld w 6 1 = 1 := (part 0 7 6 1 hl.2.2.2.2 (by decide) (by decide)).trans (by have b0 := g.isLt; clear * - b0; omega)
    have e3 : fld w 7 6 = 0 := hl.2.2.2.1
    have a1 : r6 w 19 = d := Fin.ext (hl.2.1)
    have a2 : r6 w 13 = a := Fin.ext (hl.2.2.1)
    have a3 : r3 w 3 = g := Fin.ext ((part 0 7 3 3 hl.2.2.2.2 (by decide) (by decide)).trans (by have b0 := g.isLt; clear * - b0; omega))
    refine wf_ok (by rw [e0]; decide) ?_ hf
    rw [flat47 w _ e0]; unfold decode47
    simp only [e1, e2, e3, a1, a2, (kref_word k).1, a3, Nat.reduceEqDiff, OfNat.ofNat_ne_zero, OfNat.zero_ne_ofNat, one_ne_zero, zero_ne_one, OfNat.one_ne_ofNat, OfNat.ofNat_ne_one, false_and, and_false, and_self, true_and, and_true, reduceIte, (kref_word k).2]

theorem vmulW (d : Fin 64) (a : Fin 64) (b : BOp) (g : Fin 8) : Statement (.vmulW d a b g) := by
  intro hf w nx he
  cases b with
  | reg r =>
    have hw : w = 0x8e000002 + d.val * 524288 + a.val * 8192 + r.val * 128 + g.val * 8 := one (rfl : encode (.vmulW d a (.reg r) g) = [0x8e000002 + d.val * 524288 + a.val * 8192 + r.val * 128 + g.val * 8]) he
    have hl := layR (c := 71) (d := d.val) (a := a.val) (b := r.val) (x := g.val * 8 + 2) (hw.trans (by clear * -; omega)) (d.isLt) (a.isLt) (r.isLt) (by have b0 := g.isLt; clear * - b0; omega)
    have e0 := hl.1
    have e1 : fld w 0 3 = 2 := (part 0 7 0 3 hl.2.2.2.2 (by decide) (by decide)).trans (by have b0 := g.isLt; clear * - b0; omega)
    have e2 : fld w 6 1 = 0 := (part 0 7 6 1 hl.2.2.2.2 (by decide) (by decide)).trans (by have b0 := g.isLt; clear * - b0; omega)
    have a1 : r6 w 19 = d := Fin.ext (hl.2.1)
    have a2 : r6 w 13 = a := Fin.ext (hl.2.2.1)
    have a3 : r6 w 7 = r := Fin.ext (hl.2.2.2.1)
    have a4 : r3 w 3 = g := Fin.ext ((part 0 7 3 3 hl.2.2.2.2 (by decide) (by decide)).trans (by have b0 := g.isLt; clear * - b0; omega))
    refine wf_ok (by rw [e0]; decide) ?_ hf
    rw [flat47 w _ e0]; unfold decode47
    simp only [e1, e2, a1, a2, a3, a4, Nat.reduceEqDiff, OfNat.ofNat_ne_zero, OfNat.zero_ne_ofNat, one_ne_zero, zero_ne_one, OfNat.one_ne_ofNat, OfNat.ofNat_ne_one, false_and, and_false, and_self, true_and, and_true, reduceIte]
  | konst k =>
    have hx : w = 0x8e000002 + d.val * 524288 + a.val * 8192 + 64 + g.val * 8 ∧ nx = k.word := two (rfl : encode (.vmulW d a (.konst k) g) = [0x8e000002 + d.val * 524288 + a.val * 8192 + 64 + g.val * 8, k.word]) he
    rw [hx.2]; replace hw := hx.1
    have hl := layR (c := 71) (d := d.val) (a := a.val) (b := 0) (x := g.val * 8 + 66) (hw.trans (by clear * -; omega)) (d.isLt) (a.isLt) (by decide) (by have b0 := g.isLt; clear * - b0; omega)
    have e0 := hl.1
    have e1 : fld w 0 3 = 2 := (part 0 7 0 3 hl.2.2.2.2 (by decide) (by decide)).trans (by have b0 := g.isLt; clear * - b0; omega)
    have e2 : fld w 6 1 = 1 := (part 0 7 6 1 hl.2.2.2.2 (by decide) (by decide)).trans (by have b0 := g.isLt; clear * - b0; omega)
    have e3 : fld w 7 6 = 0 := hl.2.2.2.1
    have a1 : r6 w 19 = d := Fin.ext (hl.2.1)
    have a2 : r6 w 13 = a := Fin.ext (hl.2.2.1)
    have a3 : r3 w 3 = g := Fin.ext ((part 0 7 3 3 hl.2.2.2.2 (by decide) (by decide)).trans (by have b0 := g.isLt; clear * - b0; omega))
    refine wf_ok (by rw [e0]; decide) ?_ hf
    rw [flat47 w _ e0]; unfold decode47
    simp only [e1, e2, e3, a1, a2, (kref_word k).1, a3, Nat.reduceEqDiff, OfNat.ofNat_ne_zero, OfNat.zero_ne_ofNat, one_ne_zero, zero_ne_one, OfNat.one_ne_ofNat, OfNat.ofNat_ne_one, false_and, and_false, and_self, true_and, and_true, reduceIte, (kref_word k).2]

theorem vminW (d : Fin 64) (a : Fin 64) (b : BOp) (g : Fin 8) : Statement (.vminW d a b g) := by
  intro hf w nx he
  cases b with
  | reg r =>
    have hw : w = 0x8e000003 + d.val * 524288 + a.val * 8192 + r.val * 128 + g.val * 8 := one (rfl : encode (.vminW d a (.reg r) g) = [0x8e000003 + d.val * 524288 + a.val * 8192 + r.val * 128 + g.val * 8]) he
    have hl := layR (c := 71) (d := d.val) (a := a.val) (b := r.val) (x := g.val * 8 + 3) (hw.trans (by clear * -; omega)) (d.isLt) (a.isLt) (r.isLt) (by have b0 := g.isLt; clear * - b0; omega)
    have e0 := hl.1
    have e1 : fld w 0 3 = 3 := (part 0 7 0 3 hl.2.2.2.2 (by decide) (by decide)).trans (by have b0 := g.isLt; clear * - b0; omega)
    have e2 : fld w 6 1 = 0 := (part 0 7 6 1 hl.2.2.2.2 (by decide) (by decide)).trans (by have b0 := g.isLt; clear * - b0; omega)
    have a1 : r6 w 19 = d := Fin.ext (hl.2.1)
    have a2 : r6 w 13 = a := Fin.ext (hl.2.2.1)
    have a3 : r6 w 7 = r := Fin.ext (hl.2.2.2.1)
    have a4 : r3 w 3 = g := Fin.ext ((part 0 7 3 3 hl.2.2.2.2 (by decide) (by decide)).trans (by have b0 := g.isLt; clear * - b0; omega))
    refine wf_ok (by rw [e0]; decide) ?_ hf
    rw [flat47 w _ e0]; unfold decode47
    simp only [e1, e2, a1, a2, a3, a4, Nat.reduceEqDiff, OfNat.ofNat_ne_zero, OfNat.zero_ne_ofNat, one_ne_zero, zero_ne_one, OfNat.one_ne_ofNat, OfNat.ofNat_ne_one, false_and, and_false, and_self, true_and, and_true, reduceIte]
  | konst k =>
    have hx : w = 0x8e000003 + d.val * 524288 + a.val * 8192 + 64 + g.val * 8 ∧ nx = k.word := two (rfl : encode (.vminW d a (.konst k) g) = [0x8e000003 + d.val * 524288 + a.val * 8192 + 64 + g.val * 8, k.word]) he
    rw [hx.2]; replace hw := hx.1
    have hl := layR (c := 71) (d := d.val) (a := a.val) (b := 0) (x := g.val * 8 + 67) (hw.trans (by clear * -; omega)) (d.isLt) (a.isLt) (by decide) (by have b0 := g.isLt; clear * - b0; omega)
    have e0 := hl.1
    have e1 : fld w 0 3 = 3 := (part 0 7 0 3 hl.2.2.2.2 (by decide) (by decide)).trans (by have b0 := g.isLt; clear * - b0; omega)
    have e2 : fld w 6 1 = 1 := (part 0 7 6 1 hl.2.2.2.2 (by decide) (by decide)).trans (by have b0 := g.isLt; clear * - b0; omega)
    have e3 : fld w 7 6 = 0 := hl.2.2.2.1
    have a1 : r6 w 19 = d := Fin.ext (hl.2.1)
    have a2 : r6 w 13 = a := Fin.ext (hl.2.2.1)
    have a3 : r3 w 3 = g := Fin.ext ((part 0 7 3 3 hl.2.2.2.2 (by decide) (by decide)).trans (by have b0 := g.isLt; clear * - b0; omega))
    refine wf_ok (by rw [e0]; decide) ?_ hf
    rw [flat47 w _ e0]; unfold decode47
    simp only [e1, e2, e3, a1, a2, (kref_word k).1, a3, Nat.reduceEqDiff, OfNat.ofNat_ne_zero, OfNat.zero_ne_ofNat, one_ne_zero, zero_ne_one, OfNat.one_ne_ofNat, OfNat.ofNat_ne_one, false_and, and_false, and_self, true_and, and_true, reduceIte, (kref_word k).2]

theorem vmaxW (d : Fin 64) (a : Fin 64) (b : BOp) (g : Fin 8) : Statement (.vmaxW d a b g) := by
  intro hf w nx he
  cases b with
  | reg r =>
    have hw : w = 0x8e000004 + d.val * 524288 + a.val * 8192 + r.val * 128 + g.val * 8 := one (rfl : encode (.vmaxW d a (.reg r) g) = [0x8e000004 + d.val * 524288 + a.val * 8192 + r.val * 128 + g.val * 8]) he
    have hl := layR (c := 71) (d := d.val) (a := a.val) (b := r.val) (x := g.val * 8 + 4) (hw.trans (by clear * -; omega)) (d.isLt) (a.isLt) (r.isLt) (by have b0 := g.isLt; clear * - b0; omega)
    have e0 := hl.1
    have e1 : fld w 0 3 = 4 := (part 0 7 0 3 hl.2.2.2.2 (by decide) (by decide)).trans (by have b0 := g.isLt; clear * - b0; omega)
    have e2 : fld w 6 1 = 0 := (part 0 7 6 1 hl.2.2.2.2 (by decide) (by decide)).trans (by have b0 := g.isLt; clear * - b0; omega)
    have a1 : r6 w 19 = d := Fin.ext (hl.2.1)
    have a2 : r6 w 13 = a := Fin.ext (hl.2.2.1)
    have a3 : r6 w 7 = r := Fin.ext (hl.2.2.2.1)
    have a4 : r3 w 3 = g := Fin.ext ((part 0 7 3 3 hl.2.2.2.2 (by decide) (by decide)).trans (by have b0 := g.isLt; clear * - b0; omega))
    refine wf_ok (by rw [e0]; decide) ?_ hf
    rw [flat47 w _ e0]; unfold decode47
    simp only [e1, e2, a1, a2, a3, a4, Nat.reduceEqDiff, OfNat.ofNat_ne_zero, OfNat.zero_ne_ofNat, one_ne_zero, zero_ne_one, OfNat.one_ne_ofNat, OfNat.ofNat_ne_one, false_and, and_false, and_self, true_and, and_true, reduceIte]
  | konst k =>
    have hx : w = 0x8e000004 + d.val * 524288 + a.val * 8192 + 64 + g.val * 8 ∧ nx = k.word := two (rfl : encode (.vmaxW d a (.konst k) g) = [0x8e000004 + d.val * 524288 + a.val * 8192 + 64 + g.val * 8, k.word]) he
    rw [hx.2]; replace hw := hx.1
    have hl := layR (c := 71) (d := d.val) (a := a.val) (b := 0) (x := g.val * 8 + 68) (hw.trans (by clear * -; omega)) (d.isLt) (a.isLt) (by decide) (by have b0 := g.isLt; clear * - b0; omega)
    have e0 := hl.1
    have e1 : fld w 0 3 = 4 := (part 0 7 0 3 hl.2.2.2.2 (by decide) (by decide)).trans (by have b0 := g.isLt; clear * - b0; omega)
    have e2 : fld w 6 1 = 1 := (part 0 7 6 1 hl.2.2.2.2 (by decide) (by decide)).trans (by have b0 := g.isLt; clear * - b0; omega)
    have e3 : fld w 7 6 = 0 := hl.2.2.2.1
    have a1 : r6 w 19 = d := Fin.ext (hl.2.1)
    have a2 : r6 w 13 = a := Fin.ext (hl.2.2.1)
    have a3 : r3 w 3 = g := Fin.ext ((part 0 7 3 3 hl.2.2.2.2 (by decide) (by decide)).trans (by have b0 := g.isLt; clear * - b0; omega))
    refine wf_ok (by rw [e0]; decide) ?_ hf
    rw [flat47 w _ e0]; unfold decode47
    simp only [e1, e2, e3, a1, a2, (kref_word k).1, a3, Nat.reduceEqDiff, OfNat.ofNat_ne_zero, OfNat.zero_ne_ofNat, one_ne_zero, zero_ne_one, OfNat.one_ne_ofNat, OfNat.ofNat_ne_one, false_and, and_false, and_self, true_and, and_true, reduceIte, (kref_word k).2]

theorem vminUW (d : Fin 64) (a : Fin 64) (b : BOp) (g : Fin 8) : Statement (.vminUW d a b g) := by
  intro hf w nx he
  cases b with
  | reg r =>
    have hw : w = 0x8e000005 + d.val * 524288 + a.val * 8192 + r.val * 128 + g.val * 8 := one (rfl : encode (.vminUW d a (.reg r) g) = [0x8e000005 + d.val * 524288 + a.val * 8192 + r.val * 128 + g.val * 8]) he
    have hl := layR (c := 71) (d := d.val) (a := a.val) (b := r.val) (x := g.val * 8 + 5) (hw.trans (by clear * -; omega)) (d.isLt) (a.isLt) (r.isLt) (by have b0 := g.isLt; clear * - b0; omega)
    have e0 := hl.1
    have e1 : fld w 0 3 = 5 := (part 0 7 0 3 hl.2.2.2.2 (by decide) (by decide)).trans (by have b0 := g.isLt; clear * - b0; omega)
    have e2 : fld w 6 1 = 0 := (part 0 7 6 1 hl.2.2.2.2 (by decide) (by decide)).trans (by have b0 := g.isLt; clear * - b0; omega)
    have a1 : r6 w 19 = d := Fin.ext (hl.2.1)
    have a2 : r6 w 13 = a := Fin.ext (hl.2.2.1)
    have a3 : r6 w 7 = r := Fin.ext (hl.2.2.2.1)
    have a4 : r3 w 3 = g := Fin.ext ((part 0 7 3 3 hl.2.2.2.2 (by decide) (by decide)).trans (by have b0 := g.isLt; clear * - b0; omega))
    refine wf_ok (by rw [e0]; decide) ?_ hf
    rw [flat47 w _ e0]; unfold decode47
    simp only [e1, e2, a1, a2, a3, a4, Nat.reduceEqDiff, OfNat.ofNat_ne_zero, OfNat.zero_ne_ofNat, one_ne_zero, zero_ne_one, OfNat.one_ne_ofNat, OfNat.ofNat_ne_one, false_and, and_false, and_self, true_and, and_true, reduceIte]
  | konst k =>
    have hx : w = 0x8e000005 + d.val * 524288 + a.val * 8192 + 64 + g.val * 8 ∧ nx = k.word := two (rfl : encode (.vminUW d a (.konst k) g) = [0x8e000005 + d.val * 524288 + a.val * 8192 + 64 + g.val * 8, k.word]) he
    rw [hx.2]; replace hw := hx.1
    have hl := layR (c := 71) (d := d.val) (a := a.val) (b := 0) (x := g.val * 8 + 69) (hw.trans (by clear * -; omega)) (d.isLt) (a.isLt) (by decide) (by have b0 := g.isLt; clear * - b0; omega)
    have e0 := hl.1
    have e1 : fld w 0 3 = 5 := (part 0 7 0 3 hl.2.2.2.2 (by decide) (by decide)).trans (by have b0 := g.isLt; clear * - b0; omega)
    have e2 : fld w 6 1 = 1 := (part 0 7 6 1 hl.2.2.2.2 (by decide) (by decide)).trans (by have b0 := g.isLt; clear * - b0; omega)
    have e3 : fld w 7 6 = 0 := hl.2.2.2.1
    have a1 : r6 w 19 = d := Fin.ext (hl.2.1)
    have a2 : r6 w 13 = a := Fin.ext (hl.2.2.1)
    have a3 : r3 w 3 = g := Fin.ext ((part 0 7 3 3 hl.2.2.2.2 (by decide) (by decide)).trans (by have b0 := g.isLt; clear * - b0; omega))
    refine wf_ok (by rw [e0]; decide) ?_ hf
    rw [flat47 w _ e0]; unfold decode47
    simp only [e1, e2, e3, a1, a2, (kref_word k).1, a3, Nat.reduceEqDiff, OfNat.ofNat_ne_zero, OfNat.zero_ne_ofNat, one_ne_zero, zero_ne_one, OfNat.one_ne_ofNat, OfNat.ofNat_ne_one, false_and, and_false, and_self, true_and, and_true, reduceIte, (kref_word k).2]

theorem vmaxUW (d : Fin 64) (a : Fin 64) (b : BOp) (g : Fin 8) : Statement (.vmaxUW d a b g) := by
  intro hf w nx he
  cases b with
  | reg r =>
    have hw : w = 0x8e000006 + d.val * 524288 + a.val * 8192 + r.val * 128 + g.val * 8 := one (rfl : encode (.vmaxUW d a (.reg r) g) = [0x8e000006 + d.val * 524288 + a.val * 8192 + r.val * 128 + g.val * 8]) he
    have hl := layR (c := 71) (d := d.val) (a := a.val) (b := r.val) (x := g.val * 8 + 6) (hw.trans (by clear * -; omega)) (d.isLt) (a.isLt) (r.isLt) (by have b0 := g.isLt; clear * - b0; omega)
    have e0 := hl.1
    have e1 : fld w 0 3 = 6 := (part 0 7 0 3 hl.2.2.2.2 (by decide) (by decide)).trans (by have b0 := g.isLt; clear * - b0; omega)
    have e2 : fld w 6 1 = 0 := (part 0 7 6 1 hl.2.2.2.2 (by decide) (by decide)).trans (by have b0 := g.isLt; clear * - b0; omega)
    have a1 : r6 w 19 = d := Fin.ext (hl.2.1)
    have a2 : r6 w 13 = a := Fin.ext (hl.2.2.1)
    have a3 : r6 w 7 = r := Fin.ext (hl.2.2.2.1)
    have a4 : r3 w 3 = g := Fin.ext ((part 0 7 3 3 hl.2.2.2.2 (by decide) (by decide)).trans (by have b0 := g.isLt; clear * - b0; omega))
    refine wf_ok (by rw [e0]; decide) ?_ hf
    rw [flat47 w _ e0]; unfold decode47
    simp only [e1, e2, a1, a2, a3, a4, Nat.reduceEqDiff, OfNat.ofNat_ne_zero, OfNat.zero_ne_ofNat, one_ne_zero, zero_ne_one, OfNat.one_ne_ofNat, OfNat.ofNat_ne_one, false_and, and_false, and_self, true_and, and_true, reduceIte]
  | konst k =>
    have hx : w = 0x8e000006 + d.val * 524288 + a.val * 8192 + 64 + g.val * 8 ∧ nx = k.word := two (rfl : encode (.vmaxUW d a (.konst k) g) = [0x8e000006 + d.val * 524288 + a.val * 8192 + 64 + g.val * 8, k.word]) he
    rw [hx.2]; replace hw := hx.1
    have hl := layR (c := 71) (d := d.val) (a := a.val) (b := 0) (x := g.val * 8 + 70) (hw.trans (by clear * -; omega)) (d.isLt) (a.isLt) (by decide) (by have b0 := g.isLt; clear * - b0; omega)
    have e0 := hl.1
    have e1 : fld w 0 3 = 6 := (part 0 7 0 3 hl.2.2.2.2 (by decide) (by decide)).trans (by have b0 := g.isLt; clear * - b0; omega)
    have e2 : fld w 6 1 = 1 := (part 0 7 6 1 hl.2.2.2.2 (by decide) (by decide)).trans (by have b0 := g.isLt; clear * - b0; omega)
    have e3 : fld w 7 6 = 0 := hl.2.2.2.1
    have a1 : r6 w 19 = d := Fin.ext (hl.2.1)
    have a2 : r6 w 13 = a := Fin.ext (hl.2.2.1)
    have a3 : r3 w 3 = g := Fin.ext ((part 0 7 3 3 hl.2.2.2.2 (by decide) (by decide)).trans (by have b0 := g.isLt; clear * - b0; omega))
    refine wf_ok (by rw [e0]; decide) ?_ hf
    rw [flat47 w _ e0]; unfold decode47
    simp only [e1, e2, e3, a1, a2, (kref_word k).1, a3, Nat.reduceEqDiff, OfNat.ofNat_ne_zero, OfNat.zero_ne_ofNat, one_ne_zero, zero_ne_one, OfNat.one_ne_ofNat, OfNat.ofNat_ne_one, false_and, and_false, and_self, true_and, and_true, reduceIte, (kref_word k).2]

theorem vandW (d : Fin 64) (a : Fin 64) (b : BOp) (g : Fin 8) : Statement (.vandW d a b g) := by
  intro hf w nx he
  cases b with
  | reg r =>
    have hw : w = 0x90000000 + d.val * 524288 + a.val * 8192 + r.val * 128 + g.val * 8 := one (rfl : encode (.vandW d a (.reg r) g) = [0x90000000 + d.val * 524288 + a.val * 8192 + r.val * 128 + g.val * 8]) he
    have hl := layR (c := 72) (d := d.val) (a := a.val) (b := r.val) (x := g.val * 8) (hw.trans (by clear * -; omega)) (d.isLt) (a.isLt) (r.isLt) (by have b0 := g.isLt; clear * - b0; omega)
    have e0 := hl.1
    have e1 : fld w 0 3 = 0 := (part 0 7 0 3 hl.2.2.2.2 (by decide) (by decide)).trans (by have b0 := g.isLt; clear * - b0; omega)
    have e2 : fld w 6 1 = 0 := (part 0 7 6 1 hl.2.2.2.2 (by decide) (by decide)).trans (by have b0 := g.isLt; clear * - b0; omega)
    have a1 : r6 w 19 = d := Fin.ext (hl.2.1)
    have a2 : r6 w 13 = a := Fin.ext (hl.2.2.1)
    have a3 : r6 w 7 = r := Fin.ext (hl.2.2.2.1)
    have a4 : r3 w 3 = g := Fin.ext ((part 0 7 3 3 hl.2.2.2.2 (by decide) (by decide)).trans (by have b0 := g.isLt; clear * - b0; omega))
    refine wf_ok (by rw [e0]; decide) ?_ hf
    rw [flat48 w _ e0]; unfold decode48
    simp only [e1, e2, a1, a2, a3, a4, Nat.reduceEqDiff, OfNat.ofNat_ne_zero, OfNat.zero_ne_ofNat, one_ne_zero, zero_ne_one, OfNat.one_ne_ofNat, OfNat.ofNat_ne_one, false_and, and_false, and_self, true_and, and_true, reduceIte]
  | konst k =>
    have hx : w = 0x90000000 + d.val * 524288 + a.val * 8192 + 64 + g.val * 8 ∧ nx = k.word := two (rfl : encode (.vandW d a (.konst k) g) = [0x90000000 + d.val * 524288 + a.val * 8192 + 64 + g.val * 8, k.word]) he
    rw [hx.2]; replace hw := hx.1
    have hl := layR (c := 72) (d := d.val) (a := a.val) (b := 0) (x := g.val * 8 + 64) (hw.trans (by clear * -; omega)) (d.isLt) (a.isLt) (by decide) (by have b0 := g.isLt; clear * - b0; omega)
    have e0 := hl.1
    have e1 : fld w 0 3 = 0 := (part 0 7 0 3 hl.2.2.2.2 (by decide) (by decide)).trans (by have b0 := g.isLt; clear * - b0; omega)
    have e2 : fld w 6 1 = 1 := (part 0 7 6 1 hl.2.2.2.2 (by decide) (by decide)).trans (by have b0 := g.isLt; clear * - b0; omega)
    have e3 : fld w 7 6 = 0 := hl.2.2.2.1
    have a1 : r6 w 19 = d := Fin.ext (hl.2.1)
    have a2 : r6 w 13 = a := Fin.ext (hl.2.2.1)
    have a3 : r3 w 3 = g := Fin.ext ((part 0 7 3 3 hl.2.2.2.2 (by decide) (by decide)).trans (by have b0 := g.isLt; clear * - b0; omega))
    refine wf_ok (by rw [e0]; decide) ?_ hf
    rw [flat48 w _ e0]; unfold decode48
    simp only [e1, e2, e3, a1, a2, (kref_word k).1, a3, Nat.reduceEqDiff, OfNat.ofNat_ne_zero, OfNat.zero_ne_ofNat, one_ne_zero, zero_ne_one, OfNat.one_ne_ofNat, OfNat.ofNat_ne_one, false_and, and_false, and_self, true_and, and_true, reduceIte, (kref_word k).2]

theorem vorW (d : Fin 64) (a : Fin 64) (b : BOp) (g : Fin 8) : Statement (.vorW d a b g) := by
  intro hf w nx he
  cases b with
  | reg r =>
    have hw : w = 0x90000001 + d.val * 524288 + a.val * 8192 + r.val * 128 + g.val * 8 := one (rfl : encode (.vorW d a (.reg r) g) = [0x90000001 + d.val * 524288 + a.val * 8192 + r.val * 128 + g.val * 8]) he
    have hl := layR (c := 72) (d := d.val) (a := a.val) (b := r.val) (x := g.val * 8 + 1) (hw.trans (by clear * -; omega)) (d.isLt) (a.isLt) (r.isLt) (by have b0 := g.isLt; clear * - b0; omega)
    have e0 := hl.1
    have e1 : fld w 0 3 = 1 := (part 0 7 0 3 hl.2.2.2.2 (by decide) (by decide)).trans (by have b0 := g.isLt; clear * - b0; omega)
    have e2 : fld w 6 1 = 0 := (part 0 7 6 1 hl.2.2.2.2 (by decide) (by decide)).trans (by have b0 := g.isLt; clear * - b0; omega)
    have a1 : r6 w 19 = d := Fin.ext (hl.2.1)
    have a2 : r6 w 13 = a := Fin.ext (hl.2.2.1)
    have a3 : r6 w 7 = r := Fin.ext (hl.2.2.2.1)
    have a4 : r3 w 3 = g := Fin.ext ((part 0 7 3 3 hl.2.2.2.2 (by decide) (by decide)).trans (by have b0 := g.isLt; clear * - b0; omega))
    refine wf_ok (by rw [e0]; decide) ?_ hf
    rw [flat48 w _ e0]; unfold decode48
    simp only [e1, e2, a1, a2, a3, a4, Nat.reduceEqDiff, OfNat.ofNat_ne_zero, OfNat.zero_ne_ofNat, one_ne_zero, zero_ne_one, OfNat.one_ne_ofNat, OfNat.ofNat_ne_one, false_and, and_false, and_self, true_and, and_true, reduceIte]
  | konst k =>
    have hx : w = 0x90000001 + d.val * 524288 + a.val * 8192 + 64 + g.val * 8 ∧ nx = k.word := two (rfl : encode (.vorW d a (.konst k) g) = [0x90000001 + d.val * 524288 + a.val * 8192 + 64 + g.val * 8, k.word]) he
    rw [hx.2]; replace hw := hx.1
    have hl := layR (c := 72) (d := d.val) (a := a.val) (b := 0) (x := g.val * 8 + 65) (hw.trans (by clear * -; omega)) (d.isLt) (a.isLt) (by decide) (by have b0 := g.isLt; clear * - b0; omega)
    have e0 := hl.1
    have e1 : fld w 0 3 = 1 := (part 0 7 0 3 hl.2.2.2.2 (by decide) (by decide)).trans (by have b0 := g.isLt; clear * - b0; omega)
    have e2 : fld w 6 1 = 1 := (part 0 7 6 1 hl.2.2.2.2 (by decide) (by decide)).trans (by have b0 := g.isLt; clear * - b0; omega)
    have e3 : fld w 7 6 = 0 := hl.2.2.2.1
    have a1 : r6 w 19 = d := Fin.ext (hl.2.1)
    have a2 : r6 w 13 = a := Fin.ext (hl.2.2.1)
    have a3 : r3 w 3 = g := Fin.ext ((part 0 7 3 3 hl.2.2.2.2 (by decide) (by decide)).trans (by have b0 := g.isLt; clear * - b0; omega))
    refine wf_ok (by rw [e0]; decide) ?_ hf
    rw [flat48 w _ e0]; unfold decode48
    simp only [e1, e2, e3, a1, a2, (kref_word k).1, a3, Nat.reduceEqDiff, OfNat.ofNat_ne_zero, OfNat.zero_ne_ofNat, one_ne_zero, zero_ne_one, OfNat.one_ne_ofNat, OfNat.ofNat_ne_one, false_and, and_false, and_self, true_and, and_true, reduceIte, (kref_word k).2]

theorem vxorW (d : Fin 64) (a : Fin 64) (b : BOp) (g : Fin 8) : Statement (.vxorW d a b g) := by
  intro hf w nx he
  cases b with
  | reg r =>
    have hw : w = 0x90000002 + d.val * 524288 + a.val * 8192 + r.val * 128 + g.val * 8 := one (rfl : encode (.vxorW d a (.reg r) g) = [0x90000002 + d.val * 524288 + a.val * 8192 + r.val * 128 + g.val * 8]) he
    have hl := layR (c := 72) (d := d.val) (a := a.val) (b := r.val) (x := g.val * 8 + 2) (hw.trans (by clear * -; omega)) (d.isLt) (a.isLt) (r.isLt) (by have b0 := g.isLt; clear * - b0; omega)
    have e0 := hl.1
    have e1 : fld w 0 3 = 2 := (part 0 7 0 3 hl.2.2.2.2 (by decide) (by decide)).trans (by have b0 := g.isLt; clear * - b0; omega)
    have e2 : fld w 6 1 = 0 := (part 0 7 6 1 hl.2.2.2.2 (by decide) (by decide)).trans (by have b0 := g.isLt; clear * - b0; omega)
    have a1 : r6 w 19 = d := Fin.ext (hl.2.1)
    have a2 : r6 w 13 = a := Fin.ext (hl.2.2.1)
    have a3 : r6 w 7 = r := Fin.ext (hl.2.2.2.1)
    have a4 : r3 w 3 = g := Fin.ext ((part 0 7 3 3 hl.2.2.2.2 (by decide) (by decide)).trans (by have b0 := g.isLt; clear * - b0; omega))
    refine wf_ok (by rw [e0]; decide) ?_ hf
    rw [flat48 w _ e0]; unfold decode48
    simp only [e1, e2, a1, a2, a3, a4, Nat.reduceEqDiff, OfNat.ofNat_ne_zero, OfNat.zero_ne_ofNat, one_ne_zero, zero_ne_one, OfNat.one_ne_ofNat, OfNat.ofNat_ne_one, false_and, and_false, and_self, true_and, and_true, reduceIte]
  | konst k =>
    have hx : w = 0x90000002 + d.val * 524288 + a.val * 8192 + 64 + g.val * 8 ∧ nx = k.word := two (rfl : encode (.vxorW d a (.konst k) g) = [0x90000002 + d.val * 524288 + a.val * 8192 + 64 + g.val * 8, k.word]) he
    rw [hx.2]; replace hw := hx.1
    have hl := layR (c := 72) (d := d.val) (a := a.val) (b := 0) (x := g.val * 8 + 66) (hw.trans (by clear * -; omega)) (d.isLt) (a.isLt) (by decide) (by have b0 := g.isLt; clear * - b0; omega)
    have e0 := hl.1
    have e1 : fld w 0 3 = 2 := (part 0 7 0 3 hl.2.2.2.2 (by decide) (by decide)).trans (by have b0 := g.isLt; clear * - b0; omega)
    have e2 : fld w 6 1 = 1 := (part 0 7 6 1 hl.2.2.2.2 (by decide) (by decide)).trans (by have b0 := g.isLt; clear * - b0; omega)
    have e3 : fld w 7 6 = 0 := hl.2.2.2.1
    have a1 : r6 w 19 = d := Fin.ext (hl.2.1)
    have a2 : r6 w 13 = a := Fin.ext (hl.2.2.1)
    have a3 : r3 w 3 = g := Fin.ext ((part 0 7 3 3 hl.2.2.2.2 (by decide) (by decide)).trans (by have b0 := g.isLt; clear * - b0; omega))
    refine wf_ok (by rw [e0]; decide) ?_ hf
    rw [flat48 w _ e0]; unfold decode48
    simp only [e1, e2, e3, a1, a2, (kref_word k).1, a3, Nat.reduceEqDiff, OfNat.ofNat_ne_zero, OfNat.zero_ne_ofNat, one_ne_zero, zero_ne_one, OfNat.one_ne_ofNat, OfNat.ofNat_ne_one, false_and, and_false, and_self, true_and, and_true, reduceIte, (kref_word k).2]

theorem vshlW (d : Fin 64) (a : Fin 64) (b : BOp) (g : Fin 8) : Statement (.vshlW d a b g) := by
  intro hf w nx he
  cases b with
  | reg r =>
    have hw : w = 0x90000003 + d.val * 524288 + a.val * 8192 + r.val * 128 + g.val * 8 := one (rfl : encode (.vshlW d a (.reg r) g) = [0x90000003 + d.val * 524288 + a.val * 8192 + r.val * 128 + g.val * 8]) he
    have hl := layR (c := 72) (d := d.val) (a := a.val) (b := r.val) (x := g.val * 8 + 3) (hw.trans (by clear * -; omega)) (d.isLt) (a.isLt) (r.isLt) (by have b0 := g.isLt; clear * - b0; omega)
    have e0 := hl.1
    have e1 : fld w 0 3 = 3 := (part 0 7 0 3 hl.2.2.2.2 (by decide) (by decide)).trans (by have b0 := g.isLt; clear * - b0; omega)
    have e2 : fld w 6 1 = 0 := (part 0 7 6 1 hl.2.2.2.2 (by decide) (by decide)).trans (by have b0 := g.isLt; clear * - b0; omega)
    have a1 : r6 w 19 = d := Fin.ext (hl.2.1)
    have a2 : r6 w 13 = a := Fin.ext (hl.2.2.1)
    have a3 : r6 w 7 = r := Fin.ext (hl.2.2.2.1)
    have a4 : r3 w 3 = g := Fin.ext ((part 0 7 3 3 hl.2.2.2.2 (by decide) (by decide)).trans (by have b0 := g.isLt; clear * - b0; omega))
    refine wf_ok (by rw [e0]; decide) ?_ hf
    rw [flat48 w _ e0]; unfold decode48
    simp only [e1, e2, a1, a2, a3, a4, Nat.reduceEqDiff, OfNat.ofNat_ne_zero, OfNat.zero_ne_ofNat, one_ne_zero, zero_ne_one, OfNat.one_ne_ofNat, OfNat.ofNat_ne_one, false_and, and_false, and_self, true_and, and_true, reduceIte]
  | konst k =>
    have hx : w = 0x90000003 + d.val * 524288 + a.val * 8192 + 64 + g.val * 8 ∧ nx = k.word := two (rfl : encode (.vshlW d a (.konst k) g) = [0x90000003 + d.val * 524288 + a.val * 8192 + 64 + g.val * 8, k.word]) he
    rw [hx.2]; replace hw := hx.1
    have hl := layR (c := 72) (d := d.val) (a := a.val) (b := 0) (x := g.val * 8 + 67) (hw.trans (by clear * -; omega)) (d.isLt) (a.isLt) (by decide) (by have b0 := g.isLt; clear * - b0; omega)
    have e0 := hl.1
    have e1 : fld w 0 3 = 3 := (part 0 7 0 3 hl.2.2.2.2 (by decide) (by decide)).trans (by have b0 := g.isLt; clear * - b0; omega)
    have e2 : fld w 6 1 = 1 := (part 0 7 6 1 hl.2.2.2.2 (by decide) (by decide)).trans (by have b0 := g.isLt; clear * - b0; omega)
    have e3 : fld w 7 6 = 0 := hl.2.2.2.1
    have a1 : r6 w 19 = d := Fin.ext (hl.2.1)
    have a2 : r6 w 13 = a := Fin.ext (hl.2.2.1)
    have a3 : r3 w 3 = g := Fin.ext ((part 0 7 3 3 hl.2.2.2.2 (by decide) (by decide)).trans (by have b0 := g.isLt; clear * - b0; omega))
    refine wf_ok (by rw [e0]; decide) ?_ hf
    rw [flat48 w _ e0]; unfold decode48
    simp only [e1, e2, e3, a1, a2, (kref_word k).1, a3, Nat.reduceEqDiff, OfNat.ofNat_ne_zero, OfNat.zero_ne_ofNat, one_ne_zero, zero_ne_one, OfNat.one_ne_ofNat, OfNat.ofNat_ne_one, false_and, and_false, and_self, true_and, and_true, reduceIte, (kref_word k).2]

theorem vshrW (d : Fin 64) (a : Fin 64) (b : BOp) (g : Fin 8) : Statement (.vshrW d a b g) := by
  intro hf w nx he
  cases b with
  | reg r =>
    have hw : w = 0x90000004 + d.val * 524288 + a.val * 8192 + r.val * 128 + g.val * 8 := one (rfl : encode (.vshrW d a (.reg r) g) = [0x90000004 + d.val * 524288 + a.val * 8192 + r.val * 128 + g.val * 8]) he
    have hl := layR (c := 72) (d := d.val) (a := a.val) (b := r.val) (x := g.val * 8 + 4) (hw.trans (by clear * -; omega)) (d.isLt) (a.isLt) (r.isLt) (by have b0 := g.isLt; clear * - b0; omega)
    have e0 := hl.1
    have e1 : fld w 0 3 = 4 := (part 0 7 0 3 hl.2.2.2.2 (by decide) (by decide)).trans (by have b0 := g.isLt; clear * - b0; omega)
    have e2 : fld w 6 1 = 0 := (part 0 7 6 1 hl.2.2.2.2 (by decide) (by decide)).trans (by have b0 := g.isLt; clear * - b0; omega)
    have a1 : r6 w 19 = d := Fin.ext (hl.2.1)
    have a2 : r6 w 13 = a := Fin.ext (hl.2.2.1)
    have a3 : r6 w 7 = r := Fin.ext (hl.2.2.2.1)
    have a4 : r3 w 3 = g := Fin.ext ((part 0 7 3 3 hl.2.2.2.2 (by decide) (by decide)).trans (by have b0 := g.isLt; clear * - b0; omega))
    refine wf_ok (by rw [e0]; decide) ?_ hf
    rw [flat48 w _ e0]; unfold decode48
    simp only [e1, e2, a1, a2, a3, a4, Nat.reduceEqDiff, OfNat.ofNat_ne_zero, OfNat.zero_ne_ofNat, one_ne_zero, zero_ne_one, OfNat.one_ne_ofNat, OfNat.ofNat_ne_one, false_and, and_false, and_self, true_and, and_true, reduceIte]
  | konst k =>
    have hx : w = 0x90000004 + d.val * 524288 + a.val * 8192 + 64 + g.val * 8 ∧ nx = k.word := two (rfl : encode (.vshrW d a (.konst k) g) = [0x90000004 + d.val * 524288 + a.val * 8192 + 64 + g.val * 8, k.word]) he
    rw [hx.2]; replace hw := hx.1
    have hl := layR (c := 72) (d := d.val) (a := a.val) (b := 0) (x := g.val * 8 + 68) (hw.trans (by clear * -; omega)) (d.isLt) (a.isLt) (by decide) (by have b0 := g.isLt; clear * - b0; omega)
    have e0 := hl.1
    have e1 : fld w 0 3 = 4 := (part 0 7 0 3 hl.2.2.2.2 (by decide) (by decide)).trans (by have b0 := g.isLt; clear * - b0; omega)
    have e2 : fld w 6 1 = 1 := (part 0 7 6 1 hl.2.2.2.2 (by decide) (by decide)).trans (by have b0 := g.isLt; clear * - b0; omega)
    have e3 : fld w 7 6 = 0 := hl.2.2.2.1
    have a1 : r6 w 19 = d := Fin.ext (hl.2.1)
    have a2 : r6 w 13 = a := Fin.ext (hl.2.2.1)
    have a3 : r3 w 3 = g := Fin.ext ((part 0 7 3 3 hl.2.2.2.2 (by decide) (by decide)).trans (by have b0 := g.isLt; clear * - b0; omega))
    refine wf_ok (by rw [e0]; decide) ?_ hf
    rw [flat48 w _ e0]; unfold decode48
    simp only [e1, e2, e3, a1, a2, (kref_word k).1, a3, Nat.reduceEqDiff, OfNat.ofNat_ne_zero, OfNat.zero_ne_ofNat, one_ne_zero, zero_ne_one, OfNat.one_ne_ofNat, OfNat.ofNat_ne_one, false_and, and_false, and_self, true_and, and_true, reduceIte, (kref_word k).2]

theorem vsraW (d : Fin 64) (a : Fin 64) (b : BOp) (g : Fin 8) : Statement (.vsraW d a b g) := by
  intro hf w nx he
  cases b with
  | reg r =>
    have hw : w = 0x90000005 + d.val * 524288 + a.val * 8192 + r.val * 128 + g.val * 8 := one (rfl : encode (.vsraW d a (.reg r) g) = [0x90000005 + d.val * 524288 + a.val * 8192 + r.val * 128 + g.val * 8]) he
    have hl := layR (c := 72) (d := d.val) (a := a.val) (b := r.val) (x := g.val * 8 + 5) (hw.trans (by clear * -; omega)) (d.isLt) (a.isLt) (r.isLt) (by have b0 := g.isLt; clear * - b0; omega)
    have e0 := hl.1
    have e1 : fld w 0 3 = 5 := (part 0 7 0 3 hl.2.2.2.2 (by decide) (by decide)).trans (by have b0 := g.isLt; clear * - b0; omega)
    have e2 : fld w 6 1 = 0 := (part 0 7 6 1 hl.2.2.2.2 (by decide) (by decide)).trans (by have b0 := g.isLt; clear * - b0; omega)
    have a1 : r6 w 19 = d := Fin.ext (hl.2.1)
    have a2 : r6 w 13 = a := Fin.ext (hl.2.2.1)
    have a3 : r6 w 7 = r := Fin.ext (hl.2.2.2.1)
    have a4 : r3 w 3 = g := Fin.ext ((part 0 7 3 3 hl.2.2.2.2 (by decide) (by decide)).trans (by have b0 := g.isLt; clear * - b0; omega))
    refine wf_ok (by rw [e0]; decide) ?_ hf
    rw [flat48 w _ e0]; unfold decode48
    simp only [e1, e2, a1, a2, a3, a4, Nat.reduceEqDiff, OfNat.ofNat_ne_zero, OfNat.zero_ne_ofNat, one_ne_zero, zero_ne_one, OfNat.one_ne_ofNat, OfNat.ofNat_ne_one, false_and, and_false, and_self, true_and, and_true, reduceIte]
  | konst k =>
    have hx : w = 0x90000005 + d.val * 524288 + a.val * 8192 + 64 + g.val * 8 ∧ nx = k.word := two (rfl : encode (.vsraW d a (.konst k) g) = [0x90000005 + d.val * 524288 + a.val * 8192 + 64 + g.val * 8, k.word]) he
    rw [hx.2]; replace hw := hx.1
    have hl := layR (c := 72) (d := d.val) (a := a.val) (b := 0) (x := g.val * 8 + 69) (hw.trans (by clear * -; omega)) (d.isLt) (a.isLt) (by decide) (by have b0 := g.isLt; clear * - b0; omega)
    have e0 := hl.1
    have e1 : fld w 0 3 = 5 := (part 0 7 0 3 hl.2.2.2.2 (by decide) (by decide)).trans (by have b0 := g.isLt; clear * - b0; omega)
    have e2 : fld w 6 1 = 1 := (part 0 7 6 1 hl.2.2.2.2 (by decide) (by decide)).trans (by have b0 := g.isLt; clear * - b0; omega)
    have e3 : fld w 7 6 = 0 := hl.2.2.2.1
    have a1 : r6 w 19 = d := Fin.ext (hl.2.1)
    have a2 : r6 w 13 = a := Fin.ext (hl.2.2.1)
    have a3 : r3 w 3 = g := Fin.ext ((part 0 7 3 3 hl.2.2.2.2 (by decide) (by decide)).trans (by have b0 := g.isLt; clear * - b0; omega))
    refine wf_ok (by rw [e0]; decide) ?_ hf
    rw [flat48 w _ e0]; unfold decode48
    simp only [e1, e2, e3, a1, a2, (kref_word k).1, a3, Nat.reduceEqDiff, OfNat.ofNat_ne_zero, OfNat.zero_ne_ofNat, one_ne_zero, zero_ne_one, OfNat.one_ne_ofNat, OfNat.ofNat_ne_one, false_and, and_false, and_self, true_and, and_true, reduceIte, (kref_word k).2]

theorem vaddH (d : Fin 64) (a : Fin 64) (b : BOp) (g : Fin 8) : Statement (.vaddH d a b g) := by
  intro hf w nx he
  cases b with
  | reg r =>
    have hw : w = 0x92000000 + d.val * 524288 + a.val * 8192 + r.val * 128 + g.val * 8 := one (rfl : encode (.vaddH d a (.reg r) g) = [0x92000000 + d.val * 524288 + a.val * 8192 + r.val * 128 + g.val * 8]) he
    have hl := layR (c := 73) (d := d.val) (a := a.val) (b := r.val) (x := g.val * 8) (hw.trans (by clear * -; omega)) (d.isLt) (a.isLt) (r.isLt) (by have b0 := g.isLt; clear * - b0; omega)
    have e0 := hl.1
    have e1 : fld w 0 3 = 0 := (part 0 7 0 3 hl.2.2.2.2 (by decide) (by decide)).trans (by have b0 := g.isLt; clear * - b0; omega)
    have e2 : fld w 6 1 = 0 := (part 0 7 6 1 hl.2.2.2.2 (by decide) (by decide)).trans (by have b0 := g.isLt; clear * - b0; omega)
    have a1 : r6 w 19 = d := Fin.ext (hl.2.1)
    have a2 : r6 w 13 = a := Fin.ext (hl.2.2.1)
    have a3 : r6 w 7 = r := Fin.ext (hl.2.2.2.1)
    have a4 : r3 w 3 = g := Fin.ext ((part 0 7 3 3 hl.2.2.2.2 (by decide) (by decide)).trans (by have b0 := g.isLt; clear * - b0; omega))
    refine wf_ok (by rw [e0]; decide) ?_ hf
    rw [flat49 w _ e0]; unfold decode49
    simp only [e1, e2, a1, a2, a3, a4, Nat.reduceEqDiff, OfNat.ofNat_ne_zero, OfNat.zero_ne_ofNat, one_ne_zero, zero_ne_one, OfNat.one_ne_ofNat, OfNat.ofNat_ne_one, false_and, and_false, and_self, true_and, and_true, reduceIte]
  | konst k =>
    have hx : w = 0x92000000 + d.val * 524288 + a.val * 8192 + 64 + g.val * 8 ∧ nx = k.word := two (rfl : encode (.vaddH d a (.konst k) g) = [0x92000000 + d.val * 524288 + a.val * 8192 + 64 + g.val * 8, k.word]) he
    rw [hx.2]; replace hw := hx.1
    have hl := layR (c := 73) (d := d.val) (a := a.val) (b := 0) (x := g.val * 8 + 64) (hw.trans (by clear * -; omega)) (d.isLt) (a.isLt) (by decide) (by have b0 := g.isLt; clear * - b0; omega)
    have e0 := hl.1
    have e1 : fld w 0 3 = 0 := (part 0 7 0 3 hl.2.2.2.2 (by decide) (by decide)).trans (by have b0 := g.isLt; clear * - b0; omega)
    have e2 : fld w 6 1 = 1 := (part 0 7 6 1 hl.2.2.2.2 (by decide) (by decide)).trans (by have b0 := g.isLt; clear * - b0; omega)
    have e3 : fld w 7 6 = 0 := hl.2.2.2.1
    have a1 : r6 w 19 = d := Fin.ext (hl.2.1)
    have a2 : r6 w 13 = a := Fin.ext (hl.2.2.1)
    have a3 : r3 w 3 = g := Fin.ext ((part 0 7 3 3 hl.2.2.2.2 (by decide) (by decide)).trans (by have b0 := g.isLt; clear * - b0; omega))
    refine wf_ok (by rw [e0]; decide) ?_ hf
    rw [flat49 w _ e0]; unfold decode49
    simp only [e1, e2, e3, a1, a2, (kref_word k).1, a3, Nat.reduceEqDiff, OfNat.ofNat_ne_zero, OfNat.zero_ne_ofNat, one_ne_zero, zero_ne_one, OfNat.one_ne_ofNat, OfNat.ofNat_ne_one, false_and, and_false, and_self, true_and, and_true, reduceIte, (kref_word k).2]

theorem vsubH (d : Fin 64) (a : Fin 64) (b : BOp) (g : Fin 8) : Statement (.vsubH d a b g) := by
  intro hf w nx he
  cases b with
  | reg r =>
    have hw : w = 0x92000001 + d.val * 524288 + a.val * 8192 + r.val * 128 + g.val * 8 := one (rfl : encode (.vsubH d a (.reg r) g) = [0x92000001 + d.val * 524288 + a.val * 8192 + r.val * 128 + g.val * 8]) he
    have hl := layR (c := 73) (d := d.val) (a := a.val) (b := r.val) (x := g.val * 8 + 1) (hw.trans (by clear * -; omega)) (d.isLt) (a.isLt) (r.isLt) (by have b0 := g.isLt; clear * - b0; omega)
    have e0 := hl.1
    have e1 : fld w 0 3 = 1 := (part 0 7 0 3 hl.2.2.2.2 (by decide) (by decide)).trans (by have b0 := g.isLt; clear * - b0; omega)
    have e2 : fld w 6 1 = 0 := (part 0 7 6 1 hl.2.2.2.2 (by decide) (by decide)).trans (by have b0 := g.isLt; clear * - b0; omega)
    have a1 : r6 w 19 = d := Fin.ext (hl.2.1)
    have a2 : r6 w 13 = a := Fin.ext (hl.2.2.1)
    have a3 : r6 w 7 = r := Fin.ext (hl.2.2.2.1)
    have a4 : r3 w 3 = g := Fin.ext ((part 0 7 3 3 hl.2.2.2.2 (by decide) (by decide)).trans (by have b0 := g.isLt; clear * - b0; omega))
    refine wf_ok (by rw [e0]; decide) ?_ hf
    rw [flat49 w _ e0]; unfold decode49
    simp only [e1, e2, a1, a2, a3, a4, Nat.reduceEqDiff, OfNat.ofNat_ne_zero, OfNat.zero_ne_ofNat, one_ne_zero, zero_ne_one, OfNat.one_ne_ofNat, OfNat.ofNat_ne_one, false_and, and_false, and_self, true_and, and_true, reduceIte]
  | konst k =>
    have hx : w = 0x92000001 + d.val * 524288 + a.val * 8192 + 64 + g.val * 8 ∧ nx = k.word := two (rfl : encode (.vsubH d a (.konst k) g) = [0x92000001 + d.val * 524288 + a.val * 8192 + 64 + g.val * 8, k.word]) he
    rw [hx.2]; replace hw := hx.1
    have hl := layR (c := 73) (d := d.val) (a := a.val) (b := 0) (x := g.val * 8 + 65) (hw.trans (by clear * -; omega)) (d.isLt) (a.isLt) (by decide) (by have b0 := g.isLt; clear * - b0; omega)
    have e0 := hl.1
    have e1 : fld w 0 3 = 1 := (part 0 7 0 3 hl.2.2.2.2 (by decide) (by decide)).trans (by have b0 := g.isLt; clear * - b0; omega)
    have e2 : fld w 6 1 = 1 := (part 0 7 6 1 hl.2.2.2.2 (by decide) (by decide)).trans (by have b0 := g.isLt; clear * - b0; omega)
    have e3 : fld w 7 6 = 0 := hl.2.2.2.1
    have a1 : r6 w 19 = d := Fin.ext (hl.2.1)
    have a2 : r6 w 13 = a := Fin.ext (hl.2.2.1)
    have a3 : r3 w 3 = g := Fin.ext ((part 0 7 3 3 hl.2.2.2.2 (by decide) (by decide)).trans (by have b0 := g.isLt; clear * - b0; omega))
    refine wf_ok (by rw [e0]; decide) ?_ hf
    rw [flat49 w _ e0]; unfold decode49
    simp only [e1, e2, e3, a1, a2, (kref_word k).1, a3, Nat.reduceEqDiff, OfNat.ofNat_ne_zero, OfNat.zero_ne_ofNat, one_ne_zero, zero_ne_one, OfNat.one_ne_ofNat, OfNat.ofNat_ne_one, false_and, and_false, and_self, true_and, and_true, reduceIte, (kref_word k).2]

theorem vmulH (d : Fin 64) (a : Fin 64) (b : BOp) (g : Fin 8) : Statement (.vmulH d a b g) := by
  intro hf w nx he
  cases b with
  | reg r =>
    have hw : w = 0x92000002 + d.val * 524288 + a.val * 8192 + r.val * 128 + g.val * 8 := one (rfl : encode (.vmulH d a (.reg r) g) = [0x92000002 + d.val * 524288 + a.val * 8192 + r.val * 128 + g.val * 8]) he
    have hl := layR (c := 73) (d := d.val) (a := a.val) (b := r.val) (x := g.val * 8 + 2) (hw.trans (by clear * -; omega)) (d.isLt) (a.isLt) (r.isLt) (by have b0 := g.isLt; clear * - b0; omega)
    have e0 := hl.1
    have e1 : fld w 0 3 = 2 := (part 0 7 0 3 hl.2.2.2.2 (by decide) (by decide)).trans (by have b0 := g.isLt; clear * - b0; omega)
    have e2 : fld w 6 1 = 0 := (part 0 7 6 1 hl.2.2.2.2 (by decide) (by decide)).trans (by have b0 := g.isLt; clear * - b0; omega)
    have a1 : r6 w 19 = d := Fin.ext (hl.2.1)
    have a2 : r6 w 13 = a := Fin.ext (hl.2.2.1)
    have a3 : r6 w 7 = r := Fin.ext (hl.2.2.2.1)
    have a4 : r3 w 3 = g := Fin.ext ((part 0 7 3 3 hl.2.2.2.2 (by decide) (by decide)).trans (by have b0 := g.isLt; clear * - b0; omega))
    refine wf_ok (by rw [e0]; decide) ?_ hf
    rw [flat49 w _ e0]; unfold decode49
    simp only [e1, e2, a1, a2, a3, a4, Nat.reduceEqDiff, OfNat.ofNat_ne_zero, OfNat.zero_ne_ofNat, one_ne_zero, zero_ne_one, OfNat.one_ne_ofNat, OfNat.ofNat_ne_one, false_and, and_false, and_self, true_and, and_true, reduceIte]
  | konst k =>
    have hx : w = 0x92000002 + d.val * 524288 + a.val * 8192 + 64 + g.val * 8 ∧ nx = k.word := two (rfl : encode (.vmulH d a (.konst k) g) = [0x92000002 + d.val * 524288 + a.val * 8192 + 64 + g.val * 8, k.word]) he
    rw [hx.2]; replace hw := hx.1
    have hl := layR (c := 73) (d := d.val) (a := a.val) (b := 0) (x := g.val * 8 + 66) (hw.trans (by clear * -; omega)) (d.isLt) (a.isLt) (by decide) (by have b0 := g.isLt; clear * - b0; omega)
    have e0 := hl.1
    have e1 : fld w 0 3 = 2 := (part 0 7 0 3 hl.2.2.2.2 (by decide) (by decide)).trans (by have b0 := g.isLt; clear * - b0; omega)
    have e2 : fld w 6 1 = 1 := (part 0 7 6 1 hl.2.2.2.2 (by decide) (by decide)).trans (by have b0 := g.isLt; clear * - b0; omega)
    have e3 : fld w 7 6 = 0 := hl.2.2.2.1
    have a1 : r6 w 19 = d := Fin.ext (hl.2.1)
    have a2 : r6 w 13 = a := Fin.ext (hl.2.2.1)
    have a3 : r3 w 3 = g := Fin.ext ((part 0 7 3 3 hl.2.2.2.2 (by decide) (by decide)).trans (by have b0 := g.isLt; clear * - b0; omega))
    refine wf_ok (by rw [e0]; decide) ?_ hf
    rw [flat49 w _ e0]; unfold decode49
    simp only [e1, e2, e3, a1, a2, (kref_word k).1, a3, Nat.reduceEqDiff, OfNat.ofNat_ne_zero, OfNat.zero_ne_ofNat, one_ne_zero, zero_ne_one, OfNat.one_ne_ofNat, OfNat.ofNat_ne_one, false_and, and_false, and_self, true_and, and_true, reduceIte, (kref_word k).2]

theorem vminH (d : Fin 64) (a : Fin 64) (b : BOp) (g : Fin 8) : Statement (.vminH d a b g) := by
  intro hf w nx he
  cases b with
  | reg r =>
    have hw : w = 0x92000003 + d.val * 524288 + a.val * 8192 + r.val * 128 + g.val * 8 := one (rfl : encode (.vminH d a (.reg r) g) = [0x92000003 + d.val * 524288 + a.val * 8192 + r.val * 128 + g.val * 8]) he
    have hl := layR (c := 73) (d := d.val) (a := a.val) (b := r.val) (x := g.val * 8 + 3) (hw.trans (by clear * -; omega)) (d.isLt) (a.isLt) (r.isLt) (by have b0 := g.isLt; clear * - b0; omega)
    have e0 := hl.1
    have e1 : fld w 0 3 = 3 := (part 0 7 0 3 hl.2.2.2.2 (by decide) (by decide)).trans (by have b0 := g.isLt; clear * - b0; omega)
    have e2 : fld w 6 1 = 0 := (part 0 7 6 1 hl.2.2.2.2 (by decide) (by decide)).trans (by have b0 := g.isLt; clear * - b0; omega)
    have a1 : r6 w 19 = d := Fin.ext (hl.2.1)
    have a2 : r6 w 13 = a := Fin.ext (hl.2.2.1)
    have a3 : r6 w 7 = r := Fin.ext (hl.2.2.2.1)
    have a4 : r3 w 3 = g := Fin.ext ((part 0 7 3 3 hl.2.2.2.2 (by decide) (by decide)).trans (by have b0 := g.isLt; clear * - b0; omega))
    refine wf_ok (by rw [e0]; decide) ?_ hf
    rw [flat49 w _ e0]; unfold decode49
    simp only [e1, e2, a1, a2, a3, a4, Nat.reduceEqDiff, OfNat.ofNat_ne_zero, OfNat.zero_ne_ofNat, one_ne_zero, zero_ne_one, OfNat.one_ne_ofNat, OfNat.ofNat_ne_one, false_and, and_false, and_self, true_and, and_true, reduceIte]
  | konst k =>
    have hx : w = 0x92000003 + d.val * 524288 + a.val * 8192 + 64 + g.val * 8 ∧ nx = k.word := two (rfl : encode (.vminH d a (.konst k) g) = [0x92000003 + d.val * 524288 + a.val * 8192 + 64 + g.val * 8, k.word]) he
    rw [hx.2]; replace hw := hx.1
    have hl := layR (c := 73) (d := d.val) (a := a.val) (b := 0) (x := g.val * 8 + 67) (hw.trans (by clear * -; omega)) (d.isLt) (a.isLt) (by decide) (by have b0 := g.isLt; clear * - b0; omega)
    have e0 := hl.1
    have e1 : fld w 0 3 = 3 := (part 0 7 0 3 hl.2.2.2.2 (by decide) (by decide)).trans (by have b0 := g.isLt; clear * - b0; omega)
    have e2 : fld w 6 1 = 1 := (part 0 7 6 1 hl.2.2.2.2 (by decide) (by decide)).trans (by have b0 := g.isLt; clear * - b0; omega)
    have e3 : fld w 7 6 = 0 := hl.2.2.2.1
    have a1 : r6 w 19 = d := Fin.ext (hl.2.1)
    have a2 : r6 w 13 = a := Fin.ext (hl.2.2.1)
    have a3 : r3 w 3 = g := Fin.ext ((part 0 7 3 3 hl.2.2.2.2 (by decide) (by decide)).trans (by have b0 := g.isLt; clear * - b0; omega))
    refine wf_ok (by rw [e0]; decide) ?_ hf
    rw [flat49 w _ e0]; unfold decode49
    simp only [e1, e2, e3, a1, a2, (kref_word k).1, a3, Nat.reduceEqDiff, OfNat.ofNat_ne_zero, OfNat.zero_ne_ofNat, one_ne_zero, zero_ne_one, OfNat.one_ne_ofNat, OfNat.ofNat_ne_one, false_and, and_false, and_self, true_and, and_true, reduceIte, (kref_word k).2]

theorem vmaxH (d : Fin 64) (a : Fin 64) (b : BOp) (g : Fin 8) : Statement (.vmaxH d a b g) := by
  intro hf w nx he
  cases b with
  | reg r =>
    have hw : w = 0x92000004 + d.val * 524288 + a.val * 8192 + r.val * 128 + g.val * 8 := one (rfl : encode (.vmaxH d a (.reg r) g) = [0x92000004 + d.val * 524288 + a.val * 8192 + r.val * 128 + g.val * 8]) he
    have hl := layR (c := 73) (d := d.val) (a := a.val) (b := r.val) (x := g.val * 8 + 4) (hw.trans (by clear * -; omega)) (d.isLt) (a.isLt) (r.isLt) (by have b0 := g.isLt; clear * - b0; omega)
    have e0 := hl.1
    have e1 : fld w 0 3 = 4 := (part 0 7 0 3 hl.2.2.2.2 (by decide) (by decide)).trans (by have b0 := g.isLt; clear * - b0; omega)
    have e2 : fld w 6 1 = 0 := (part 0 7 6 1 hl.2.2.2.2 (by decide) (by decide)).trans (by have b0 := g.isLt; clear * - b0; omega)
    have a1 : r6 w 19 = d := Fin.ext (hl.2.1)
    have a2 : r6 w 13 = a := Fin.ext (hl.2.2.1)
    have a3 : r6 w 7 = r := Fin.ext (hl.2.2.2.1)
    have a4 : r3 w 3 = g := Fin.ext ((part 0 7 3 3 hl.2.2.2.2 (by decide) (by decide)).trans (by have b0 := g.isLt; clear * - b0; omega))
    refine wf_ok (by rw [e0]; decide) ?_ hf
    rw [flat49 w _ e0]; unfold decode49
    simp only [e1, e2, a1, a2, a3, a4, Nat.reduceEqDiff, OfNat.ofNat_ne_zero, OfNat.zero_ne_ofNat, one_ne_zero, zero_ne_one, OfNat.one_ne_ofNat, OfNat.ofNat_ne_one, false_and, and_false, and_self, true_and, and_true, reduceIte]
  | konst k =>
    have hx : w = 0x92000004 + d.val * 524288 + a.val * 8192 + 64 + g.val * 8 ∧ nx = k.word := two (rfl : encode (.vmaxH d a (.konst k) g) = [0x92000004 + d.val * 524288 + a.val * 8192 + 64 + g.val * 8, k.word]) he
    rw [hx.2]; replace hw := hx.1
    have hl := layR (c := 73) (d := d.val) (a := a.val) (b := 0) (x := g.val * 8 + 68) (hw.trans (by clear * -; omega)) (d.isLt) (a.isLt) (by decide) (by have b0 := g.isLt; clear * - b0; omega)
    have e0 := hl.1
    have e1 : fld w 0 3 = 4 := (part 0 7 0 3 hl.2.2.2.2 (by decide) (by decide)).trans (by have b0 := g.isLt; clear * - b0; omega)
    have e2 : fld w 6 1 = 1 := (part 0 7 6 1 hl.2.2.2.2 (by decide) (by decide)).trans (by have b0 := g.isLt; clear * - b0; omega)
    have e3 : fld w 7 6 = 0 := hl.2.2.2.1
    have a1 : r6 w 19 = d := Fin.ext (hl.2.1)
    have a2 : r6 w 13 = a := Fin.ext (hl.2.2.1)
    have a3 : r3 w 3 = g := Fin.ext ((part 0 7 3 3 hl.2.2.2.2 (by decide) (by decide)).trans (by have b0 := g.isLt; clear * - b0; omega))
    refine wf_ok (by rw [e0]; decide) ?_ hf
    rw [flat49 w _ e0]; unfold decode49
    simp only [e1, e2, e3, a1, a2, (kref_word k).1, a3, Nat.reduceEqDiff, OfNat.ofNat_ne_zero, OfNat.zero_ne_ofNat, one_ne_zero, zero_ne_one, OfNat.one_ne_ofNat, OfNat.ofNat_ne_one, false_and, and_false, and_self, true_and, and_true, reduceIte, (kref_word k).2]

theorem vminUH (d : Fin 64) (a : Fin 64) (b : BOp) (g : Fin 8) : Statement (.vminUH d a b g) := by
  intro hf w nx he
  cases b with
  | reg r =>
    have hw : w = 0x92000005 + d.val * 524288 + a.val * 8192 + r.val * 128 + g.val * 8 := one (rfl : encode (.vminUH d a (.reg r) g) = [0x92000005 + d.val * 524288 + a.val * 8192 + r.val * 128 + g.val * 8]) he
    have hl := layR (c := 73) (d := d.val) (a := a.val) (b := r.val) (x := g.val * 8 + 5) (hw.trans (by clear * -; omega)) (d.isLt) (a.isLt) (r.isLt) (by have b0 := g.isLt; clear * - b0; omega)
    have e0 := hl.1
    have e1 : fld w 0 3 = 5 := (part 0 7 0 3 hl.2.2.2.2 (by decide) (by decide)).trans (by have b0 := g.isLt; clear * - b0; omega)
    have e2 : fld w 6 1 = 0 := (part 0 7 6 1 hl.2.2.2.2 (by decide) (by decide)).trans (by have b0 := g.isLt; clear * - b0; omega)
    have a1 : r6 w 19 = d := Fin.ext (hl.2.1)
    have a2 : r6 w 13 = a := Fin.ext (hl.2.2.1)
    have a3 : r6 w 7 = r := Fin.ext (hl.2.2.2.1)
    have a4 : r3 w 3 = g := Fin.ext ((part 0 7 3 3 hl.2.2.2.2 (by decide) (by decide)).trans (by have b0 := g.isLt; clear * - b0; omega))
    refine wf_ok (by rw [e0]; decide) ?_ hf
    rw [flat49 w _ e0]; unfold decode49
    simp only [e1, e2, a1, a2, a3, a4, Nat.reduceEqDiff, OfNat.ofNat_ne_zero, OfNat.zero_ne_ofNat, one_ne_zero, zero_ne_one, OfNat.one_ne_ofNat, OfNat.ofNat_ne_one, false_and, and_false, and_self, true_and, and_true, reduceIte]
  | konst k =>
    have hx : w = 0x92000005 + d.val * 524288 + a.val * 8192 + 64 + g.val * 8 ∧ nx = k.word := two (rfl : encode (.vminUH d a (.konst k) g) = [0x92000005 + d.val * 524288 + a.val * 8192 + 64 + g.val * 8, k.word]) he
    rw [hx.2]; replace hw := hx.1
    have hl := layR (c := 73) (d := d.val) (a := a.val) (b := 0) (x := g.val * 8 + 69) (hw.trans (by clear * -; omega)) (d.isLt) (a.isLt) (by decide) (by have b0 := g.isLt; clear * - b0; omega)
    have e0 := hl.1
    have e1 : fld w 0 3 = 5 := (part 0 7 0 3 hl.2.2.2.2 (by decide) (by decide)).trans (by have b0 := g.isLt; clear * - b0; omega)
    have e2 : fld w 6 1 = 1 := (part 0 7 6 1 hl.2.2.2.2 (by decide) (by decide)).trans (by have b0 := g.isLt; clear * - b0; omega)
    have e3 : fld w 7 6 = 0 := hl.2.2.2.1
    have a1 : r6 w 19 = d := Fin.ext (hl.2.1)
    have a2 : r6 w 13 = a := Fin.ext (hl.2.2.1)
    have a3 : r3 w 3 = g := Fin.ext ((part 0 7 3 3 hl.2.2.2.2 (by decide) (by decide)).trans (by have b0 := g.isLt; clear * - b0; omega))
    refine wf_ok (by rw [e0]; decide) ?_ hf
    rw [flat49 w _ e0]; unfold decode49
    simp only [e1, e2, e3, a1, a2, (kref_word k).1, a3, Nat.reduceEqDiff, OfNat.ofNat_ne_zero, OfNat.zero_ne_ofNat, one_ne_zero, zero_ne_one, OfNat.one_ne_ofNat, OfNat.ofNat_ne_one, false_and, and_false, and_self, true_and, and_true, reduceIte, (kref_word k).2]

theorem vmaxUH (d : Fin 64) (a : Fin 64) (b : BOp) (g : Fin 8) : Statement (.vmaxUH d a b g) := by
  intro hf w nx he
  cases b with
  | reg r =>
    have hw : w = 0x92000006 + d.val * 524288 + a.val * 8192 + r.val * 128 + g.val * 8 := one (rfl : encode (.vmaxUH d a (.reg r) g) = [0x92000006 + d.val * 524288 + a.val * 8192 + r.val * 128 + g.val * 8]) he
    have hl := layR (c := 73) (d := d.val) (a := a.val) (b := r.val) (x := g.val * 8 + 6) (hw.trans (by clear * -; omega)) (d.isLt) (a.isLt) (r.isLt) (by have b0 := g.isLt; clear * - b0; omega)
    have e0 := hl.1
    have e1 : fld w 0 3 = 6 := (part 0 7 0 3 hl.2.2.2.2 (by decide) (by decide)).trans (by have b0 := g.isLt; clear * - b0; omega)
    have e2 : fld w 6 1 = 0 := (part 0 7 6 1 hl.2.2.2.2 (by decide) (by decide)).trans (by have b0 := g.isLt; clear * - b0; omega)
    have a1 : r6 w 19 = d := Fin.ext (hl.2.1)
    have a2 : r6 w 13 = a := Fin.ext (hl.2.2.1)
    have a3 : r6 w 7 = r := Fin.ext (hl.2.2.2.1)
    have a4 : r3 w 3 = g := Fin.ext ((part 0 7 3 3 hl.2.2.2.2 (by decide) (by decide)).trans (by have b0 := g.isLt; clear * - b0; omega))
    refine wf_ok (by rw [e0]; decide) ?_ hf
    rw [flat49 w _ e0]; unfold decode49
    simp only [e1, e2, a1, a2, a3, a4, Nat.reduceEqDiff, OfNat.ofNat_ne_zero, OfNat.zero_ne_ofNat, one_ne_zero, zero_ne_one, OfNat.one_ne_ofNat, OfNat.ofNat_ne_one, false_and, and_false, and_self, true_and, and_true, reduceIte]
  | konst k =>
    have hx : w = 0x92000006 + d.val * 524288 + a.val * 8192 + 64 + g.val * 8 ∧ nx = k.word := two (rfl : encode (.vmaxUH d a (.konst k) g) = [0x92000006 + d.val * 524288 + a.val * 8192 + 64 + g.val * 8, k.word]) he
    rw [hx.2]; replace hw := hx.1
    have hl := layR (c := 73) (d := d.val) (a := a.val) (b := 0) (x := g.val * 8 + 70) (hw.trans (by clear * -; omega)) (d.isLt) (a.isLt) (by decide) (by have b0 := g.isLt; clear * - b0; omega)
    have e0 := hl.1
    have e1 : fld w 0 3 = 6 := (part 0 7 0 3 hl.2.2.2.2 (by decide) (by decide)).trans (by have b0 := g.isLt; clear * - b0; omega)
    have e2 : fld w 6 1 = 1 := (part 0 7 6 1 hl.2.2.2.2 (by decide) (by decide)).trans (by have b0 := g.isLt; clear * - b0; omega)
    have e3 : fld w 7 6 = 0 := hl.2.2.2.1
    have a1 : r6 w 19 = d := Fin.ext (hl.2.1)
    have a2 : r6 w 13 = a := Fin.ext (hl.2.2.1)
    have a3 : r3 w 3 = g := Fin.ext ((part 0 7 3 3 hl.2.2.2.2 (by decide) (by decide)).trans (by have b0 := g.isLt; clear * - b0; omega))
    refine wf_ok (by rw [e0]; decide) ?_ hf
    rw [flat49 w _ e0]; unfold decode49
    simp only [e1, e2, e3, a1, a2, (kref_word k).1, a3, Nat.reduceEqDiff, OfNat.ofNat_ne_zero, OfNat.zero_ne_ofNat, one_ne_zero, zero_ne_one, OfNat.one_ne_ofNat, OfNat.ofNat_ne_one, false_and, and_false, and_self, true_and, and_true, reduceIte, (kref_word k).2]

theorem vandH (d : Fin 64) (a : Fin 64) (b : BOp) (g : Fin 8) : Statement (.vandH d a b g) := by
  intro hf w nx he
  cases b with
  | reg r =>
    have hw : w = 0x94000000 + d.val * 524288 + a.val * 8192 + r.val * 128 + g.val * 8 := one (rfl : encode (.vandH d a (.reg r) g) = [0x94000000 + d.val * 524288 + a.val * 8192 + r.val * 128 + g.val * 8]) he
    have hl := layR (c := 74) (d := d.val) (a := a.val) (b := r.val) (x := g.val * 8) (hw.trans (by clear * -; omega)) (d.isLt) (a.isLt) (r.isLt) (by have b0 := g.isLt; clear * - b0; omega)
    have e0 := hl.1
    have e1 : fld w 0 3 = 0 := (part 0 7 0 3 hl.2.2.2.2 (by decide) (by decide)).trans (by have b0 := g.isLt; clear * - b0; omega)
    have e2 : fld w 6 1 = 0 := (part 0 7 6 1 hl.2.2.2.2 (by decide) (by decide)).trans (by have b0 := g.isLt; clear * - b0; omega)
    have a1 : r6 w 19 = d := Fin.ext (hl.2.1)
    have a2 : r6 w 13 = a := Fin.ext (hl.2.2.1)
    have a3 : r6 w 7 = r := Fin.ext (hl.2.2.2.1)
    have a4 : r3 w 3 = g := Fin.ext ((part 0 7 3 3 hl.2.2.2.2 (by decide) (by decide)).trans (by have b0 := g.isLt; clear * - b0; omega))
    refine wf_ok (by rw [e0]; decide) ?_ hf
    rw [flat4A w _ e0]; unfold decode4A
    simp only [e1, e2, a1, a2, a3, a4, Nat.reduceEqDiff, OfNat.ofNat_ne_zero, OfNat.zero_ne_ofNat, one_ne_zero, zero_ne_one, OfNat.one_ne_ofNat, OfNat.ofNat_ne_one, false_and, and_false, and_self, true_and, and_true, reduceIte]
  | konst k =>
    have hx : w = 0x94000000 + d.val * 524288 + a.val * 8192 + 64 + g.val * 8 ∧ nx = k.word := two (rfl : encode (.vandH d a (.konst k) g) = [0x94000000 + d.val * 524288 + a.val * 8192 + 64 + g.val * 8, k.word]) he
    rw [hx.2]; replace hw := hx.1
    have hl := layR (c := 74) (d := d.val) (a := a.val) (b := 0) (x := g.val * 8 + 64) (hw.trans (by clear * -; omega)) (d.isLt) (a.isLt) (by decide) (by have b0 := g.isLt; clear * - b0; omega)
    have e0 := hl.1
    have e1 : fld w 0 3 = 0 := (part 0 7 0 3 hl.2.2.2.2 (by decide) (by decide)).trans (by have b0 := g.isLt; clear * - b0; omega)
    have e2 : fld w 6 1 = 1 := (part 0 7 6 1 hl.2.2.2.2 (by decide) (by decide)).trans (by have b0 := g.isLt; clear * - b0; omega)
    have e3 : fld w 7 6 = 0 := hl.2.2.2.1
    have a1 : r6 w 19 = d := Fin.ext (hl.2.1)
    have a2 : r6 w 13 = a := Fin.ext (hl.2.2.1)
    have a3 : r3 w 3 = g := Fin.ext ((part 0 7 3 3 hl.2.2.2.2 (by decide) (by decide)).trans (by have b0 := g.isLt; clear * - b0; omega))
    refine wf_ok (by rw [e0]; decide) ?_ hf
    rw [flat4A w _ e0]; unfold decode4A
    simp only [e1, e2, e3, a1, a2, (kref_word k).1, a3, Nat.reduceEqDiff, OfNat.ofNat_ne_zero, OfNat.zero_ne_ofNat, one_ne_zero, zero_ne_one, OfNat.one_ne_ofNat, OfNat.ofNat_ne_one, false_and, and_false, and_self, true_and, and_true, reduceIte, (kref_word k).2]

theorem vorH (d : Fin 64) (a : Fin 64) (b : BOp) (g : Fin 8) : Statement (.vorH d a b g) := by
  intro hf w nx he
  cases b with
  | reg r =>
    have hw : w = 0x94000001 + d.val * 524288 + a.val * 8192 + r.val * 128 + g.val * 8 := one (rfl : encode (.vorH d a (.reg r) g) = [0x94000001 + d.val * 524288 + a.val * 8192 + r.val * 128 + g.val * 8]) he
    have hl := layR (c := 74) (d := d.val) (a := a.val) (b := r.val) (x := g.val * 8 + 1) (hw.trans (by clear * -; omega)) (d.isLt) (a.isLt) (r.isLt) (by have b0 := g.isLt; clear * - b0; omega)
    have e0 := hl.1
    have e1 : fld w 0 3 = 1 := (part 0 7 0 3 hl.2.2.2.2 (by decide) (by decide)).trans (by have b0 := g.isLt; clear * - b0; omega)
    have e2 : fld w 6 1 = 0 := (part 0 7 6 1 hl.2.2.2.2 (by decide) (by decide)).trans (by have b0 := g.isLt; clear * - b0; omega)
    have a1 : r6 w 19 = d := Fin.ext (hl.2.1)
    have a2 : r6 w 13 = a := Fin.ext (hl.2.2.1)
    have a3 : r6 w 7 = r := Fin.ext (hl.2.2.2.1)
    have a4 : r3 w 3 = g := Fin.ext ((part 0 7 3 3 hl.2.2.2.2 (by decide) (by decide)).trans (by have b0 := g.isLt; clear * - b0; omega))
    refine wf_ok (by rw [e0]; decide) ?_ hf
    rw [flat4A w _ e0]; unfold decode4A
    simp only [e1, e2, a1, a2, a3, a4, Nat.reduceEqDiff, OfNat.ofNat_ne_zero, OfNat.zero_ne_ofNat, one_ne_zero, zero_ne_one, OfNat.one_ne_ofNat, OfNat.ofNat_ne_one, false_and, and_false, and_self, true_and, and_true, reduceIte]
  | konst k =>
    have hx : w = 0x94000001 + d.val * 524288 + a.val * 8192 + 64 + g.val * 8 ∧ nx = k.word := two (rfl : encode (.vorH d a (.konst k) g) = [0x94000001 + d.val * 524288 + a.val * 8192 + 64 + g.val * 8, k.word]) he
    rw [hx.2]; replace hw := hx.1
    have hl := layR (c := 74) (d := d.val) (a := a.val) (b := 0) (x := g.val * 8 + 65) (hw.trans (by clear * -; omega)) (d.isLt) (a.isLt) (by decide) (by have b0 := g.isLt; clear * - b0; omega)
    have e0 := hl.1
    have e1 : fld w 0 3 = 1 := (part 0 7 0 3 hl.2.2.2.2 (by decide) (by decide)).trans (by have b0 := g.isLt; clear * - b0; omega)
    have e2 : fld w 6 1 = 1 := (part 0 7 6 1 hl.2.2.2.2 (by decide) (by decide)).trans (by have b0 := g.isLt; clear * - b0; omega)
    have e3 : fld w 7 6 = 0 := hl.2.2.2.1
    have a1 : r6 w 19 = d := Fin.ext (hl.2.1)
    have a2 : r6 w 13 = a := Fin.ext (hl.2.2.1)
    have a3 : r3 w 3 = g := Fin.ext ((part 0 7 3 3 hl.2.2.2.2 (by decide) (by decide)).trans (by have b0 := g.isLt; clear * - b0; omega))
    refine wf_ok (by rw [e0]; decide) ?_ hf
    rw [flat4A w _ e0]; unfold decode4A
    simp only [e1, e2, e3, a1, a2, (kref_word k).1, a3, Nat.reduceEqDiff, OfNat.ofNat_ne_zero, OfNat.zero_ne_ofNat, one_ne_zero, zero_ne_one, OfNat.one_ne_ofNat, OfNat.ofNat_ne_one, false_and, and_false, and_self, true_and, and_true, reduceIte, (kref_word k).2]

theorem vxorH (d : Fin 64) (a : Fin 64) (b : BOp) (g : Fin 8) : Statement (.vxorH d a b g) := by
  intro hf w nx he
  cases b with
  | reg r =>
    have hw : w = 0x94000002 + d.val * 524288 + a.val * 8192 + r.val * 128 + g.val * 8 := one (rfl : encode (.vxorH d a (.reg r) g) = [0x94000002 + d.val * 524288 + a.val * 8192 + r.val * 128 + g.val * 8]) he
    have hl := layR (c := 74) (d := d.val) (a := a.val) (b := r.val) (x := g.val * 8 + 2) (hw.trans (by clear * -; omega)) (d.isLt) (a.isLt) (r.isLt) (by have b0 := g.isLt; clear * - b0; omega)
    have e0 := hl.1
    have e1 : fld w 0 3 = 2 := (part 0 7 0 3 hl.2.2.2.2 (by decide) (by decide)).trans (by have b0 := g.isLt; clear * - b0; omega)
    have e2 : fld w 6 1 = 0 := (part 0 7 6 1 hl.2.2.2.2 (by decide) (by decide)).trans (by have b0 := g.isLt; clear * - b0; omega)
    have a1 : r6 w 19 = d := Fin.ext (hl.2.1)
    have a2 : r6 w 13 = a := Fin.ext (hl.2.2.1)
    have a3 : r6 w 7 = r := Fin.ext (hl.2.2.2.1)
    have a4 : r3 w 3 = g := Fin.ext ((part 0 7 3 3 hl.2.2.2.2 (by decide) (by decide)).trans (by have b0 := g.isLt; clear * - b0; omega))
    refine wf_ok (by rw [e0]; decide) ?_ hf
    rw [flat4A w _ e0]; unfold decode4A
    simp only [e1, e2, a1, a2, a3, a4, Nat.reduceEqDiff, OfNat.ofNat_ne_zero, OfNat.zero_ne_ofNat, one_ne_zero, zero_ne_one, OfNat.one_ne_ofNat, OfNat.ofNat_ne_one, false_and, and_false, and_self, true_and, and_true, reduceIte]
  | konst k =>
    have hx : w = 0x94000002 + d.val * 524288 + a.val * 8192 + 64 + g.val * 8 ∧ nx = k.word := two (rfl : encode (.vxorH d a (.konst k) g) = [0x94000002 + d.val * 524288 + a.val * 8192 + 64 + g.val * 8, k.word]) he
    rw [hx.2]; replace hw := hx.1
    have hl := layR (c := 74) (d := d.val) (a := a.val) (b := 0) (x := g.val * 8 + 66) (hw.trans (by clear * -; omega)) (d.isLt) (a.isLt) (by decide) (by have b0 := g.isLt; clear * - b0; omega)
    have e0 := hl.1
    have e1 : fld w 0 3 = 2 := (part 0 7 0 3 hl.2.2.2.2 (by decide) (by decide)).trans (by have b0 := g.isLt; clear * - b0; omega)
    have e2 : fld w 6 1 = 1 := (part 0 7 6 1 hl.2.2.2.2 (by decide) (by decide)).trans (by have b0 := g.isLt; clear * - b0; omega)
    have e3 : fld w 7 6 = 0 := hl.2.2.2.1
    have a1 : r6 w 19 = d := Fin.ext (hl.2.1)
    have a2 : r6 w 13 = a := Fin.ext (hl.2.2.1)
    have a3 : r3 w 3 = g := Fin.ext ((part 0 7 3 3 hl.2.2.2.2 (by decide) (by decide)).trans (by have b0 := g.isLt; clear * - b0; omega))
    refine wf_ok (by rw [e0]; decide) ?_ hf
    rw [flat4A w _ e0]; unfold decode4A
    simp only [e1, e2, e3, a1, a2, (kref_word k).1, a3, Nat.reduceEqDiff, OfNat.ofNat_ne_zero, OfNat.zero_ne_ofNat, one_ne_zero, zero_ne_one, OfNat.one_ne_ofNat, OfNat.ofNat_ne_one, false_and, and_false, and_self, true_and, and_true, reduceIte, (kref_word k).2]

theorem vshlH (d : Fin 64) (a : Fin 64) (b : BOp) (g : Fin 8) : Statement (.vshlH d a b g) := by
  intro hf w nx he
  cases b with
  | reg r =>
    have hw : w = 0x94000003 + d.val * 524288 + a.val * 8192 + r.val * 128 + g.val * 8 := one (rfl : encode (.vshlH d a (.reg r) g) = [0x94000003 + d.val * 524288 + a.val * 8192 + r.val * 128 + g.val * 8]) he
    have hl := layR (c := 74) (d := d.val) (a := a.val) (b := r.val) (x := g.val * 8 + 3) (hw.trans (by clear * -; omega)) (d.isLt) (a.isLt) (r.isLt) (by have b0 := g.isLt; clear * - b0; omega)
    have e0 := hl.1
    have e1 : fld w 0 3 = 3 := (part 0 7 0 3 hl.2.2.2.2 (by decide) (by decide)).trans (by have b0 := g.isLt; clear * - b0; omega)
    have e2 : fld w 6 1 = 0 := (part 0 7 6 1 hl.2.2.2.2 (by decide) (by decide)).trans (by have b0 := g.isLt; clear * - b0; omega)
    have a1 : r6 w 19 = d := Fin.ext (hl.2.1)
    have a2 : r6 w 13 = a := Fin.ext (hl.2.2.1)
    have a3 : r6 w 7 = r := Fin.ext (hl.2.2.2.1)
    have a4 : r3 w 3 = g := Fin.ext ((part 0 7 3 3 hl.2.2.2.2 (by decide) (by decide)).trans (by have b0 := g.isLt; clear * - b0; omega))
    refine wf_ok (by rw [e0]; decide) ?_ hf
    rw [flat4A w _ e0]; unfold decode4A
    simp only [e1, e2, a1, a2, a3, a4, Nat.reduceEqDiff, OfNat.ofNat_ne_zero, OfNat.zero_ne_ofNat, one_ne_zero, zero_ne_one, OfNat.one_ne_ofNat, OfNat.ofNat_ne_one, false_and, and_false, and_self, true_and, and_true, reduceIte]
  | konst k =>
    have hx : w = 0x94000003 + d.val * 524288 + a.val * 8192 + 64 + g.val * 8 ∧ nx = k.word := two (rfl : encode (.vshlH d a (.konst k) g) = [0x94000003 + d.val * 524288 + a.val * 8192 + 64 + g.val * 8, k.word]) he
    rw [hx.2]; replace hw := hx.1
    have hl := layR (c := 74) (d := d.val) (a := a.val) (b := 0) (x := g.val * 8 + 67) (hw.trans (by clear * -; omega)) (d.isLt) (a.isLt) (by decide) (by have b0 := g.isLt; clear * - b0; omega)
    have e0 := hl.1
    have e1 : fld w 0 3 = 3 := (part 0 7 0 3 hl.2.2.2.2 (by decide) (by decide)).trans (by have b0 := g.isLt; clear * - b0; omega)
    have e2 : fld w 6 1 = 1 := (part 0 7 6 1 hl.2.2.2.2 (by decide) (by decide)).trans (by have b0 := g.isLt; clear * - b0; omega)
    have e3 : fld w 7 6 = 0 := hl.2.2.2.1
    have a1 : r6 w 19 = d := Fin.ext (hl.2.1)
    have a2 : r6 w 13 = a := Fin.ext (hl.2.2.1)
    have a3 : r3 w 3 = g := Fin.ext ((part 0 7 3 3 hl.2.2.2.2 (by decide) (by decide)).trans (by have b0 := g.isLt; clear * - b0; omega))
    refine wf_ok (by rw [e0]; decide) ?_ hf
    rw [flat4A w _ e0]; unfold decode4A
    simp only [e1, e2, e3, a1, a2, (kref_word k).1, a3, Nat.reduceEqDiff, OfNat.ofNat_ne_zero, OfNat.zero_ne_ofNat, one_ne_zero, zero_ne_one, OfNat.one_ne_ofNat, OfNat.ofNat_ne_one, false_and, and_false, and_self, true_and, and_true, reduceIte, (kref_word k).2]

theorem vshrH (d : Fin 64) (a : Fin 64) (b : BOp) (g : Fin 8) : Statement (.vshrH d a b g) := by
  intro hf w nx he
  cases b with
  | reg r =>
    have hw : w = 0x94000004 + d.val * 524288 + a.val * 8192 + r.val * 128 + g.val * 8 := one (rfl : encode (.vshrH d a (.reg r) g) = [0x94000004 + d.val * 524288 + a.val * 8192 + r.val * 128 + g.val * 8]) he
    have hl := layR (c := 74) (d := d.val) (a := a.val) (b := r.val) (x := g.val * 8 + 4) (hw.trans (by clear * -; omega)) (d.isLt) (a.isLt) (r.isLt) (by have b0 := g.isLt; clear * - b0; omega)
    have e0 := hl.1
    have e1 : fld w 0 3 = 4 := (part 0 7 0 3 hl.2.2.2.2 (by decide) (by decide)).trans (by have b0 := g.isLt; clear * - b0; omega)
    have e2 : fld w 6 1 = 0 := (part 0 7 6 1 hl.2.2.2.2 (by decide) (by decide)).trans (by have b0 := g.isLt; clear * - b0; omega)
    have a1 : r6 w 19 = d := Fin.ext (hl.2.1)
    have a2 : r6 w 13 = a := Fin.ext (hl.2.2.1)
    have a3 : r6 w 7 = r := Fin.ext (hl.2.2.2.1)
    have a4 : r3 w 3 = g := Fin.ext ((part 0 7 3 3 hl.2.2.2.2 (by decide) (by decide)).trans (by have b0 := g.isLt; clear * - b0; omega))
    refine wf_ok (by rw [e0]; decide) ?_ hf
    rw [flat4A w _ e0]; unfold decode4A
    simp only [e1, e2, a1, a2, a3, a4, Nat.reduceEqDiff, OfNat.ofNat_ne_zero, OfNat.zero_ne_ofNat, one_ne_zero, zero_ne_one, OfNat.one_ne_ofNat, OfNat.ofNat_ne_one, false_and, and_false, and_self, true_and, and_true, reduceIte]
  | konst k =>
    have hx : w = 0x94000004 + d.val * 524288 + a.val * 8192 + 64 + g.val * 8 ∧ nx = k.word := two (rfl : encode (.vshrH d a (.konst k) g) = [0x94000004 + d.val * 524288 + a.val * 8192 + 64 + g.val * 8, k.word]) he
    rw [hx.2]; replace hw := hx.1
    have hl := layR (c := 74) (d := d.val) (a := a.val) (b := 0) (x := g.val * 8 + 68) (hw.trans (by clear * -; omega)) (d.isLt) (a.isLt) (by decide) (by have b0 := g.isLt; clear * - b0; omega)
    have e0 := hl.1
    have e1 : fld w 0 3 = 4 := (part 0 7 0 3 hl.2.2.2.2 (by decide) (by decide)).trans (by have b0 := g.isLt; clear * - b0; omega)
    have e2 : fld w 6 1 = 1 := (part 0 7 6 1 hl.2.2.2.2 (by decide) (by decide)).trans (by have b0 := g.isLt; clear * - b0; omega)
    have e3 : fld w 7 6 = 0 := hl.2.2.2.1
    have a1 : r6 w 19 = d := Fin.ext (hl.2.1)
    have a2 : r6 w 13 = a := Fin.ext (hl.2.2.1)
    have a3 : r3 w 3 = g := Fin.ext ((part 0 7 3 3 hl.2.2.2.2 (by decide) (by decide)).trans (by have b0 := g.isLt; clear * - b0; omega))
    refine wf_ok (by rw [e0]; decide) ?_ hf
    rw [flat4A w _ e0]; unfold decode4A
    simp only [e1, e2, e3, a1, a2, (kref_word k).1, a3, Nat.reduceEqDiff, OfNat.ofNat_ne_zero, OfNat.zero_ne_ofNat, one_ne_zero, zero_ne_one, OfNat.one_ne_ofNat, OfNat.ofNat_ne_one, false_and, and_false, and_self, true_and, and_true, reduceIte, (kref_word k).2]

theorem vsraH (d : Fin 64) (a : Fin 64) (b : BOp) (g : Fin 8) : Statement (.vsraH d a b g) := by
  intro hf w nx he
  cases b with
  | reg r =>
    have hw : w = 0x94000005 + d.val * 524288 + a.val * 8192 + r.val * 128 + g.val * 8 := one (rfl : encode (.vsraH d a (.reg r) g) = [0x94000005 + d.val * 524288 + a.val * 8192 + r.val * 128 + g.val * 8]) he
    have hl := layR (c := 74) (d := d.val) (a := a.val) (b := r.val) (x := g.val * 8 + 5) (hw.trans (by clear * -; omega)) (d.isLt) (a.isLt) (r.isLt) (by have b0 := g.isLt; clear * - b0; omega)
    have e0 := hl.1
    have e1 : fld w 0 3 = 5 := (part 0 7 0 3 hl.2.2.2.2 (by decide) (by decide)).trans (by have b0 := g.isLt; clear * - b0; omega)
    have e2 : fld w 6 1 = 0 := (part 0 7 6 1 hl.2.2.2.2 (by decide) (by decide)).trans (by have b0 := g.isLt; clear * - b0; omega)
    have a1 : r6 w 19 = d := Fin.ext (hl.2.1)
    have a2 : r6 w 13 = a := Fin.ext (hl.2.2.1)
    have a3 : r6 w 7 = r := Fin.ext (hl.2.2.2.1)
    have a4 : r3 w 3 = g := Fin.ext ((part 0 7 3 3 hl.2.2.2.2 (by decide) (by decide)).trans (by have b0 := g.isLt; clear * - b0; omega))
    refine wf_ok (by rw [e0]; decide) ?_ hf
    rw [flat4A w _ e0]; unfold decode4A
    simp only [e1, e2, a1, a2, a3, a4, Nat.reduceEqDiff, OfNat.ofNat_ne_zero, OfNat.zero_ne_ofNat, one_ne_zero, zero_ne_one, OfNat.one_ne_ofNat, OfNat.ofNat_ne_one, false_and, and_false, and_self, true_and, and_true, reduceIte]
  | konst k =>
    have hx : w = 0x94000005 + d.val * 524288 + a.val * 8192 + 64 + g.val * 8 ∧ nx = k.word := two (rfl : encode (.vsraH d a (.konst k) g) = [0x94000005 + d.val * 524288 + a.val * 8192 + 64 + g.val * 8, k.word]) he
    rw [hx.2]; replace hw := hx.1
    have hl := layR (c := 74) (d := d.val) (a := a.val) (b := 0) (x := g.val * 8 + 69) (hw.trans (by clear * -; omega)) (d.isLt) (a.isLt) (by decide) (by have b0 := g.isLt; clear * - b0; omega)
    have e0 := hl.1
    have e1 : fld w 0 3 = 5 := (part 0 7 0 3 hl.2.2.2.2 (by decide) (by decide)).trans (by have b0 := g.isLt; clear * - b0; omega)
    have e2 : fld w 6 1 = 1 := (part 0 7 6 1 hl.2.2.2.2 (by decide) (by decide)).trans (by have b0 := g.isLt; clear * - b0; omega)
    have e3 : fld w 7 6 = 0 := hl.2.2.2.1
    have a1 : r6 w 19 = d := Fin.ext (hl.2.1)
    have a2 : r6 w 13 = a := Fin.ext (hl.2.2.1)
    have a3 : r3 w 3 = g := Fin.ext ((part 0 7 3 3 hl.2.2.2.2 (by decide) (by decide)).trans (by have b0 := g.isLt; clear * - b0; omega))
    refine wf_ok (by rw [e0]; decide) ?_ hf
    rw [flat4A w _ e0]; unfold decode4A
    simp only [e1, e2, e3, a1, a2, (kref_word k).1, a3, Nat.reduceEqDiff, OfNat.ofNat_ne_zero, OfNat.zero_ne_ofNat, one_ne_zero, zero_ne_one, OfNat.one_ne_ofNat, OfNat.ofNat_ne_one, false_and, and_false, and_self, true_and, and_true, reduceIte, (kref_word k).2]

theorem vcmpEqW (d : Fin 64) (a : Fin 64) (b : BOp) (g : Fin 8) : Statement (.vcmpEqW d a b g) := by
  intro hf w nx he
  cases b with
  | reg r =>
    have hw : w = 0x96000000 + d.val * 524288 + a.val * 8192 + r.val * 128 + g.val * 8 := one (rfl : encode (.vcmpEqW d a (.reg r) g) = [0x96000000 + d.val * 524288 + a.val * 8192 + r.val * 128 + g.val * 8]) he
    have hl := layR (c := 75) (d := d.val) (a := a.val) (b := r.val) (x := g.val * 8) (hw.trans (by clear * -; omega)) (d.isLt) (a.isLt) (r.isLt) (by have b0 := g.isLt; clear * - b0; omega)
    have e0 := hl.1
    have e1 : fld w 0 3 = 0 := (part 0 7 0 3 hl.2.2.2.2 (by decide) (by decide)).trans (by have b0 := g.isLt; clear * - b0; omega)
    have e2 : fld w 6 1 = 0 := (part 0 7 6 1 hl.2.2.2.2 (by decide) (by decide)).trans (by have b0 := g.isLt; clear * - b0; omega)
    have a1 : r6 w 19 = d := Fin.ext (hl.2.1)
    have a2 : r6 w 13 = a := Fin.ext (hl.2.2.1)
    have a3 : r6 w 7 = r := Fin.ext (hl.2.2.2.1)
    have a4 : r3 w 3 = g := Fin.ext ((part 0 7 3 3 hl.2.2.2.2 (by decide) (by decide)).trans (by have b0 := g.isLt; clear * - b0; omega))
    refine wf_ok (by rw [e0]; decide) ?_ hf
    rw [flat4B w _ e0]; unfold decode4B
    simp only [e1, e2, a1, a2, a3, a4, Nat.reduceEqDiff, OfNat.ofNat_ne_zero, OfNat.zero_ne_ofNat, one_ne_zero, zero_ne_one, OfNat.one_ne_ofNat, OfNat.ofNat_ne_one, false_and, and_false, and_self, true_and, and_true, reduceIte]
  | konst k =>
    have hx : w = 0x96000000 + d.val * 524288 + a.val * 8192 + 64 + g.val * 8 ∧ nx = k.word := two (rfl : encode (.vcmpEqW d a (.konst k) g) = [0x96000000 + d.val * 524288 + a.val * 8192 + 64 + g.val * 8, k.word]) he
    rw [hx.2]; replace hw := hx.1
    have hl := layR (c := 75) (d := d.val) (a := a.val) (b := 0) (x := g.val * 8 + 64) (hw.trans (by clear * -; omega)) (d.isLt) (a.isLt) (by decide) (by have b0 := g.isLt; clear * - b0; omega)
    have e0 := hl.1
    have e1 : fld w 0 3 = 0 := (part 0 7 0 3 hl.2.2.2.2 (by decide) (by decide)).trans (by have b0 := g.isLt; clear * - b0; omega)
    have e2 : fld w 6 1 = 1 := (part 0 7 6 1 hl.2.2.2.2 (by decide) (by decide)).trans (by have b0 := g.isLt; clear * - b0; omega)
    have e3 : fld w 7 6 = 0 := hl.2.2.2.1
    have a1 : r6 w 19 = d := Fin.ext (hl.2.1)
    have a2 : r6 w 13 = a := Fin.ext (hl.2.2.1)
    have a3 : r3 w 3 = g := Fin.ext ((part 0 7 3 3 hl.2.2.2.2 (by decide) (by decide)).trans (by have b0 := g.isLt; clear * - b0; omega))
    refine wf_ok (by rw [e0]; decide) ?_ hf
    rw [flat4B w _ e0]; unfold decode4B
    simp only [e1, e2, e3, a1, a2, (kref_word k).1, a3, Nat.reduceEqDiff, OfNat.ofNat_ne_zero, OfNat.zero_ne_ofNat, one_ne_zero, zero_ne_one, OfNat.one_ne_ofNat, OfNat.ofNat_ne_one, false_and, and_false, and_self, true_and, and_true, reduceIte, (kref_word k).2]

theorem vcmpNeW (d : Fin 64) (a : Fin 64) (b : BOp) (g : Fin 8) : Statement (.vcmpNeW d a b g) := by
  intro hf w nx he
  cases b with
  | reg r =>
    have hw : w = 0x96000001 + d.val * 524288 + a.val * 8192 + r.val * 128 + g.val * 8 := one (rfl : encode (.vcmpNeW d a (.reg r) g) = [0x96000001 + d.val * 524288 + a.val * 8192 + r.val * 128 + g.val * 8]) he
    have hl := layR (c := 75) (d := d.val) (a := a.val) (b := r.val) (x := g.val * 8 + 1) (hw.trans (by clear * -; omega)) (d.isLt) (a.isLt) (r.isLt) (by have b0 := g.isLt; clear * - b0; omega)
    have e0 := hl.1
    have e1 : fld w 0 3 = 1 := (part 0 7 0 3 hl.2.2.2.2 (by decide) (by decide)).trans (by have b0 := g.isLt; clear * - b0; omega)
    have e2 : fld w 6 1 = 0 := (part 0 7 6 1 hl.2.2.2.2 (by decide) (by decide)).trans (by have b0 := g.isLt; clear * - b0; omega)
    have a1 : r6 w 19 = d := Fin.ext (hl.2.1)
    have a2 : r6 w 13 = a := Fin.ext (hl.2.2.1)
    have a3 : r6 w 7 = r := Fin.ext (hl.2.2.2.1)
    have a4 : r3 w 3 = g := Fin.ext ((part 0 7 3 3 hl.2.2.2.2 (by decide) (by decide)).trans (by have b0 := g.isLt; clear * - b0; omega))
    refine wf_ok (by rw [e0]; decide) ?_ hf
    rw [flat4B w _ e0]; unfold decode4B
    simp only [e1, e2, a1, a2, a3, a4, Nat.reduceEqDiff, OfNat.ofNat_ne_zero, OfNat.zero_ne_ofNat, one_ne_zero, zero_ne_one, OfNat.one_ne_ofNat, OfNat.ofNat_ne_one, false_and, and_false, and_self, true_and, and_true, reduceIte]
  | konst k =>
    have hx : w = 0x96000001 + d.val * 524288 + a.val * 8192 + 64 + g.val * 8 ∧ nx = k.word := two (rfl : encode (.vcmpNeW d a (.konst k) g) = [0x96000001 + d.val * 524288 + a.val * 8192 + 64 + g.val * 8, k.word]) he
    rw [hx.2]; replace hw := hx.1
    have hl := layR (c := 75) (d := d.val) (a := a.val) (b := 0) (x := g.val * 8 + 65) (hw.trans (by clear * -; omega)) (d.isLt) (a.isLt) (by decide) (by have b0 := g.isLt; clear * - b0; omega)
    have e0 := hl.1
    have e1 : fld w 0 3 = 1 := (part 0 7 0 3 hl.2.2.2.2 (by decide) (by decide)).trans (by have b0 := g.isLt; clear * - b0; omega)
    have e2 : fld w 6 1 = 1 := (part 0 7 6 1 hl.2.2.2.2 (by decide) (by decide)).trans (by have b0 := g.isLt; clear * - b0; omega)
    have e3 : fld w 7 6 = 0 := hl.2.2.2.1
    have a1 : r6 w 19 = d := Fin.ext (hl.2.1)
    have a2 : r6 w 13 = a := Fin.ext (hl.2.2.1)
    have a3 : r3 w 3 = g := Fin.ext ((part 0 7 3 3 hl.2.2.2.2 (by decide) (by decide)).trans (by have b0 := g.isLt; clear * - b0; omega))
    refine wf_ok (by rw [e0]; decide) ?_ hf
    rw [flat4B w _ e0]; unfold decode4B
    simp only [e1, e2, e3, a1, a2, (kref_word k).1, a3, Nat.reduceEqDiff, OfNat.ofNat_ne_zero, OfNat.zero_ne_ofNat, one_ne_zero, zero_ne_one, OfNat.one_ne_ofNat, OfNat.ofNat_ne_one, false_and, and_false, and_self, true_and, and_true, reduceIte, (kref_word k).2]

theorem vcmpLtW (d : Fin 64) (a : Fin 64) (b : BOp) (g : Fin 8) : Statement (.vcmpLtW d a b g) := by
  intro hf w nx he
  cases b with
  | reg r =>
    have hw : w = 0x96000002 + d.val * 524288 + a.val * 8192 + r.val * 128 + g.val * 8 := one (rfl : encode (.vcmpLtW d a (.reg r) g) = [0x96000002 + d.val * 524288 + a.val * 8192 + r.val * 128 + g.val * 8]) he
    have hl := layR (c := 75) (d := d.val) (a := a.val) (b := r.val) (x := g.val * 8 + 2) (hw.trans (by clear * -; omega)) (d.isLt) (a.isLt) (r.isLt) (by have b0 := g.isLt; clear * - b0; omega)
    have e0 := hl.1
    have e1 : fld w 0 3 = 2 := (part 0 7 0 3 hl.2.2.2.2 (by decide) (by decide)).trans (by have b0 := g.isLt; clear * - b0; omega)
    have e2 : fld w 6 1 = 0 := (part 0 7 6 1 hl.2.2.2.2 (by decide) (by decide)).trans (by have b0 := g.isLt; clear * - b0; omega)
    have a1 : r6 w 19 = d := Fin.ext (hl.2.1)
    have a2 : r6 w 13 = a := Fin.ext (hl.2.2.1)
    have a3 : r6 w 7 = r := Fin.ext (hl.2.2.2.1)
    have a4 : r3 w 3 = g := Fin.ext ((part 0 7 3 3 hl.2.2.2.2 (by decide) (by decide)).trans (by have b0 := g.isLt; clear * - b0; omega))
    refine wf_ok (by rw [e0]; decide) ?_ hf
    rw [flat4B w _ e0]; unfold decode4B
    simp only [e1, e2, a1, a2, a3, a4, Nat.reduceEqDiff, OfNat.ofNat_ne_zero, OfNat.zero_ne_ofNat, one_ne_zero, zero_ne_one, OfNat.one_ne_ofNat, OfNat.ofNat_ne_one, false_and, and_false, and_self, true_and, and_true, reduceIte]
  | konst k =>
    have hx : w = 0x96000002 + d.val * 524288 + a.val * 8192 + 64 + g.val * 8 ∧ nx = k.word := two (rfl : encode (.vcmpLtW d a (.konst k) g) = [0x96000002 + d.val * 524288 + a.val * 8192 + 64 + g.val * 8, k.word]) he
    rw [hx.2]; replace hw := hx.1
    have hl := layR (c := 75) (d := d.val) (a := a.val) (b := 0) (x := g.val * 8 + 66) (hw.trans (by clear * -; omega)) (d.isLt) (a.isLt) (by decide) (by have b0 := g.isLt; clear * - b0; omega)
    have e0 := hl.1
    have e1 : fld w 0 3 = 2 := (part 0 7 0 3 hl.2.2.2.2 (by decide) (by decide)).trans (by have b0 := g.isLt; clear * - b0; omega)
    have e2 : fld w 6 1 = 1 := (part 0 7 6 1 hl.2.2.2.2 (by decide) (by decide)).trans (by have b0 := g.isLt; clear * - b0; omega)
    have e3 : fld w 7 6 = 0 := hl.2.2.2.1
    have a1 : r6 w 19 = d := Fin.ext (hl.2.1)
    have a2 : r6 w 13 = a := Fin.ext (hl.2.2.1)
    have a3 : r3 w 3 = g := Fin.ext ((part 0 7 3 3 hl.2.2.2.2 (by decide) (by decide)).trans (by have b0 := g.isLt; clear * - b0; omega))
    refine wf_ok (by rw [e0]; decide) ?_ hf
    rw [flat4B w _ e0]; unfold decode4B
    simp only [e1, e2, e3, a1, a2, (kref_word k).1, a3, Nat.reduceEqDiff, OfNat.ofNat_ne_zero, OfNat.zero_ne_ofNat, one_ne_zero, zero_ne_one, OfNat.one_ne_ofNat, OfNat.ofNat_ne_one, false_and, and_false, and_self, true_and, and_true, reduceIte, (kref_word k).2]

theorem vcmpLeW (d : Fin 64) (a : Fin 64) (b : BOp) (g : Fin 8) : Statement (.vcmpLeW d a b g) := by
  intro hf w nx he
  cases b with
  | reg r =>
    have hw : w = 0x96000003 + d.val * 524288 + a.val * 8192 + r.val * 128 + g.val * 8 := one (rfl : encode (.vcmpLeW d a (.reg r) g) = [0x96000003 + d.val * 524288 + a.val * 8192 + r.val * 128 + g.val * 8]) he
    have hl := layR (c := 75) (d := d.val) (a := a.val) (b := r.val) (x := g.val * 8 + 3) (hw.trans (by clear * -; omega)) (d.isLt) (a.isLt) (r.isLt) (by have b0 := g.isLt; clear * - b0; omega)
    have e0 := hl.1
    have e1 : fld w 0 3 = 3 := (part 0 7 0 3 hl.2.2.2.2 (by decide) (by decide)).trans (by have b0 := g.isLt; clear * - b0; omega)
    have e2 : fld w 6 1 = 0 := (part 0 7 6 1 hl.2.2.2.2 (by decide) (by decide)).trans (by have b0 := g.isLt; clear * - b0; omega)
    have a1 : r6 w 19 = d := Fin.ext (hl.2.1)
    have a2 : r6 w 13 = a := Fin.ext (hl.2.2.1)
    have a3 : r6 w 7 = r := Fin.ext (hl.2.2.2.1)
    have a4 : r3 w 3 = g := Fin.ext ((part 0 7 3 3 hl.2.2.2.2 (by decide) (by decide)).trans (by have b0 := g.isLt; clear * - b0; omega))
    refine wf_ok (by rw [e0]; decide) ?_ hf
    rw [flat4B w _ e0]; unfold decode4B
    simp only [e1, e2, a1, a2, a3, a4, Nat.reduceEqDiff, OfNat.ofNat_ne_zero, OfNat.zero_ne_ofNat, one_ne_zero, zero_ne_one, OfNat.one_ne_ofNat, OfNat.ofNat_ne_one, false_and, and_false, and_self, true_and, and_true, reduceIte]
  | konst k =>
    have hx : w = 0x96000003 + d.val * 524288 + a.val * 8192 + 64 + g.val * 8 ∧ nx = k.word := two (rfl : encode (.vcmpLeW d a (.konst k) g) = [0x96000003 + d.val * 524288 + a.val * 8192 + 64 + g.val * 8, k.word]) he
    rw [hx.2]; replace hw := hx.1
    have hl := layR (c := 75) (d := d.val) (a := a.val) (b := 0) (x := g.val * 8 + 67) (hw.trans (by clear * -; omega)) (d.isLt) (a.isLt) (by decide) (by have b0 := g.isLt; clear * - b0; omega)
    have e0 := hl.1
    have e1 : fld w 0 3 = 3 := (part 0 7 0 3 hl.2.2.2.2 (by decide) (by decide)).trans (by have b0 := g.isLt; clear * - b0; omega)
    have e2 : fld w 6 1 = 1 := (part 0 7 6 1 hl.2.2.2.2 (by decide) (by decide)).trans (by have b0 := g.isLt; clear * - b0; omega)
    have e3 : fld w 7 6 = 0 := hl.2.2.2.1
    have a1 : r6 w 19 = d := Fin.ext (hl.2.1)
    have a2 : r6 w 13 = a := Fin.ext (hl.2.2.1)
    have a3 : r3 w 3 = g := Fin.ext ((part 0 7 3 3 hl.2.2.2.2 (by decide) (by decide)).trans (by have b0 := g.isLt; clear * - b0; omega))
    refine wf_ok (by rw [e0]; decide) ?_ hf
    rw [flat4B w _ e0]; unfold decode4B
    simp only [e1, e2, e3, a1, a2, (kref_word k).1, a3, Nat.reduceEqDiff, OfNat.ofNat_ne_zero, OfNat.zero_ne_ofNat, one_ne_zero, zero_ne_one, OfNat.one_ne_ofNat, OfNat.ofNat_ne_one, false_and, and_false, and_self, true_and, and_true, reduceIte, (kref_word k).2]

theorem vcmpLtUW (d : Fin 64) (a : Fin 64) (b : BOp) (g : Fin 8) : Statement (.vcmpLtUW d a b g) := by
  intro hf w nx he
  cases b with
  | reg r =>
    have hw : w = 0x96000004 + d.val * 524288 + a.val * 8192 + r.val * 128 + g.val * 8 := one (rfl : encode (.vcmpLtUW d a (.reg r) g) = [0x96000004 + d.val * 524288 + a.val * 8192 + r.val * 128 + g.val * 8]) he
    have hl := layR (c := 75) (d := d.val) (a := a.val) (b := r.val) (x := g.val * 8 + 4) (hw.trans (by clear * -; omega)) (d.isLt) (a.isLt) (r.isLt) (by have b0 := g.isLt; clear * - b0; omega)
    have e0 := hl.1
    have e1 : fld w 0 3 = 4 := (part 0 7 0 3 hl.2.2.2.2 (by decide) (by decide)).trans (by have b0 := g.isLt; clear * - b0; omega)
    have e2 : fld w 6 1 = 0 := (part 0 7 6 1 hl.2.2.2.2 (by decide) (by decide)).trans (by have b0 := g.isLt; clear * - b0; omega)
    have a1 : r6 w 19 = d := Fin.ext (hl.2.1)
    have a2 : r6 w 13 = a := Fin.ext (hl.2.2.1)
    have a3 : r6 w 7 = r := Fin.ext (hl.2.2.2.1)
    have a4 : r3 w 3 = g := Fin.ext ((part 0 7 3 3 hl.2.2.2.2 (by decide) (by decide)).trans (by have b0 := g.isLt; clear * - b0; omega))
    refine wf_ok (by rw [e0]; decide) ?_ hf
    rw [flat4B w _ e0]; unfold decode4B
    simp only [e1, e2, a1, a2, a3, a4, Nat.reduceEqDiff, OfNat.ofNat_ne_zero, OfNat.zero_ne_ofNat, one_ne_zero, zero_ne_one, OfNat.one_ne_ofNat, OfNat.ofNat_ne_one, false_and, and_false, and_self, true_and, and_true, reduceIte]
  | konst k =>
    have hx : w = 0x96000004 + d.val * 524288 + a.val * 8192 + 64 + g.val * 8 ∧ nx = k.word := two (rfl : encode (.vcmpLtUW d a (.konst k) g) = [0x96000004 + d.val * 524288 + a.val * 8192 + 64 + g.val * 8, k.word]) he
    rw [hx.2]; replace hw := hx.1
    have hl := layR (c := 75) (d := d.val) (a := a.val) (b := 0) (x := g.val * 8 + 68) (hw.trans (by clear * -; omega)) (d.isLt) (a.isLt) (by decide) (by have b0 := g.isLt; clear * - b0; omega)
    have e0 := hl.1
    have e1 : fld w 0 3 = 4 := (part 0 7 0 3 hl.2.2.2.2 (by decide) (by decide)).trans (by have b0 := g.isLt; clear * - b0; omega)
    have e2 : fld w 6 1 = 1 := (part 0 7 6 1 hl.2.2.2.2 (by decide) (by decide)).trans (by have b0 := g.isLt; clear * - b0; omega)
    have e3 : fld w 7 6 = 0 := hl.2.2.2.1
    have a1 : r6 w 19 = d := Fin.ext (hl.2.1)
    have a2 : r6 w 13 = a := Fin.ext (hl.2.2.1)
    have a3 : r3 w 3 = g := Fin.ext ((part 0 7 3 3 hl.2.2.2.2 (by decide) (by decide)).trans (by have b0 := g.isLt; clear * - b0; omega))
    refine wf_ok (by rw [e0]; decide) ?_ hf
    rw [flat4B w _ e0]; unfold decode4B
    simp only [e1, e2, e3, a1, a2, (kref_word k).1, a3, Nat.reduceEqDiff, OfNat.ofNat_ne_zero, OfNat.zero_ne_ofNat, one_ne_zero, zero_ne_one, OfNat.one_ne_ofNat, OfNat.ofNat_ne_one, false_and, and_false, and_self, true_and, and_true, reduceIte, (kref_word k).2]

theorem vcmpLeUW (d : Fin 64) (a : Fin 64) (b : BOp) (g : Fin 8) : Statement (.vcmpLeUW d a b g) := by
  intro hf w nx he
  cases b with
  | reg r =>
    have hw : w = 0x96000005 + d.val * 524288 + a.val * 8192 + r.val * 128 + g.val * 8 := one (rfl : encode (.vcmpLeUW d a (.reg r) g) = [0x96000005 + d.val * 524288 + a.val * 8192 + r.val * 128 + g.val * 8]) he
    have hl := layR (c := 75) (d := d.val) (a := a.val) (b := r.val) (x := g.val * 8 + 5) (hw.trans (by clear * -; omega)) (d.isLt) (a.isLt) (r.isLt) (by have b0 := g.isLt; clear * - b0; omega)
    have e0 := hl.1
    have e1 : fld w 0 3 = 5 := (part 0 7 0 3 hl.2.2.2.2 (by decide) (by decide)).trans (by have b0 := g.isLt; clear * - b0; omega)
    have e2 : fld w 6 1 = 0 := (part 0 7 6 1 hl.2.2.2.2 (by decide) (by decide)).trans (by have b0 := g.isLt; clear * - b0; omega)
    have a1 : r6 w 19 = d := Fin.ext (hl.2.1)
    have a2 : r6 w 13 = a := Fin.ext (hl.2.2.1)
    have a3 : r6 w 7 = r := Fin.ext (hl.2.2.2.1)
    have a4 : r3 w 3 = g := Fin.ext ((part 0 7 3 3 hl.2.2.2.2 (by decide) (by decide)).trans (by have b0 := g.isLt; clear * - b0; omega))
    refine wf_ok (by rw [e0]; decide) ?_ hf
    rw [flat4B w _ e0]; unfold decode4B
    simp only [e1, e2, a1, a2, a3, a4, Nat.reduceEqDiff, OfNat.ofNat_ne_zero, OfNat.zero_ne_ofNat, one_ne_zero, zero_ne_one, OfNat.one_ne_ofNat, OfNat.ofNat_ne_one, false_and, and_false, and_self, true_and, and_true, reduceIte]
  | konst k =>
    have hx : w = 0x96000005 + d.val * 524288 + a.val * 8192 + 64 + g.val * 8 ∧ nx = k.word := two (rfl : encode (.vcmpLeUW d a (.konst k) g) = [0x96000005 + d.val * 524288 + a.val * 8192 + 64 + g.val * 8, k.word]) he
    rw [hx.2]; replace hw := hx.1
    have hl := layR (c := 75) (d := d.val) (a := a.val) (b := 0) (x := g.val * 8 + 69) (hw.trans (by clear * -; omega)) (d.isLt) (a.isLt) (by decide) (by have b0 := g.isLt; clear * - b0; omega)
    have e0 := hl.1
    have e1 : fld w 0 3 = 5 := (part 0 7 0 3 hl.2.2.2.2 (by decide) (by decide)).trans (by have b0 := g.isLt; clear * - b0; omega)
    have e2 : fld w 6 1 = 1 := (part 0 7 6 1 hl.2.2.2.2 (by decide) (by decide)).trans (by have b0 := g.isLt; clear * - b0; omega)
    have e3 : fld w 7 6 = 0 := hl.2.2.2.1
    have a1 : r6 w 19 = d := Fin.ext (hl.2.1)
    have a2 : r6 w 13 = a := Fin.ext (hl.2.2.1)
    have a3 : r3 w 3 = g := Fin.ext ((part 0 7 3 3 hl.2.2.2.2 (by decide) (by decide)).trans (by have b0 := g.isLt; clear * - b0; omega))
    refine wf_ok (by rw [e0]; decide) ?_ hf
    rw [flat4B w _ e0]; unfold decode4B
    simp only [e1, e2, e3, a1, a2, (kref_word k).1, a3, Nat.reduceEqDiff, OfNat.ofNat_ne_zero, OfNat.zero_ne_ofNat, one_ne_zero, zero_ne_one, OfNat.one_ne_ofNat, OfNat.ofNat_ne_one, false_and, and_false, and_self, true_and, and_true, reduceIte, (kref_word k).2]

theorem vcmpEqH (d : Fin 64) (a : Fin 64) (b : BOp) (g : Fin 8) : Statement (.vcmpEqH d a b g) := by
  intro hf w nx he
  cases b with
  | reg r =>
    have hw : w = 0x98000000 + d.val * 524288 + a.val * 8192 + r.val * 128 + g.val * 8 := one (rfl : encode (.vcmpEqH d a (.reg r) g) = [0x98000000 + d.val * 524288 + a.val * 8192 + r.val * 128 + g.val * 8]) he
    have hl := layR (c := 76) (d := d.val) (a := a.val) (b := r.val) (x := g.val * 8) (hw.trans (by clear * -; omega)) (d.isLt) (a.isLt) (r.isLt) (by have b0 := g.isLt; clear * - b0; omega)
    have e0 := hl.1
    have e1 : fld w 0 3 = 0 := (part 0 7 0 3 hl.2.2.2.2 (by decide) (by decide)).trans (by have b0 := g.isLt; clear * - b0; omega)
    have e2 : fld w 6 1 = 0 := (part 0 7 6 1 hl.2.2.2.2 (by decide) (by decide)).trans (by have b0 := g.isLt; clear * - b0; omega)
    have a1 : r6 w 19 = d := Fin.ext (hl.2.1)
    have a2 : r6 w 13 = a := Fin.ext (hl.2.2.1)
    have a3 : r6 w 7 = r := Fin.ext (hl.2.2.2.1)
    have a4 : r3 w 3 = g := Fin.ext ((part 0 7 3 3 hl.2.2.2.2 (by decide) (by decide)).trans (by have b0 := g.isLt; clear * - b0; omega))
    refine wf_ok (by rw [e0]; decide) ?_ hf
    rw [flat4C w _ e0]; unfold decode4C
    simp only [e1, e2, a1, a2, a3, a4, Nat.reduceEqDiff, OfNat.ofNat_ne_zero, OfNat.zero_ne_ofNat, one_ne_zero, zero_ne_one, OfNat.one_ne_ofNat, OfNat.ofNat_ne_one, false_and, and_false, and_self, true_and, and_true, reduceIte]
  | konst k =>
    have hx : w = 0x98000000 + d.val * 524288 + a.val * 8192 + 64 + g.val * 8 ∧ nx = k.word := two (rfl : encode (.vcmpEqH d a (.konst k) g) = [0x98000000 + d.val * 524288 + a.val * 8192 + 64 + g.val * 8, k.word]) he
    rw [hx.2]; replace hw := hx.1
    have hl := layR (c := 76) (d := d.val) (a := a.val) (b := 0) (x := g.val * 8 + 64) (hw.trans (by clear * -; omega)) (d.isLt) (a.isLt) (by decide) (by have b0 := g.isLt; clear * - b0; omega)
    have e0 := hl.1
    have e1 : fld w 0 3 = 0 := (part 0 7 0 3 hl.2.2.2.2 (by decide) (by decide)).trans (by have b0 := g.isLt; clear * - b0; omega)
    have e2 : fld w 6 1 = 1 := (part 0 7 6 1 hl.2.2.2.2 (by decide) (by decide)).trans (by have b0 := g.isLt; clear * - b0; omega)
    have e3 : fld w 7 6 = 0 := hl.2.2.2.1
    have a1 : r6 w 19 = d := Fin.ext (hl.2.1)
    have a2 : r6 w 13 = a := Fin.ext (hl.2.2.1)
    have a3 : r3 w 3 = g := Fin.ext ((part 0 7 3 3 hl.2.2.2.2 (by decide) (by decide)).trans (by have b0 := g.isLt; clear * - b0; omega))
    refine wf_ok (by rw [e0]; decide) ?_ hf
    rw [flat4C w _ e0]; unfold decode4C
    simp only [e1, e2, e3, a1, a2, (kref_word k).1, a3, Nat.reduceEqDiff, OfNat.ofNat_ne_zero, OfNat.zero_ne_ofNat, one_ne_zero, zero_ne_one, OfNat.one_ne_ofNat, OfNat.ofNat_ne_one, false_and, and_false, and_self, true_and, and_true, reduceIte, (kref_word k).2]

theorem vcmpNeH (d : Fin 64) (a : Fin 64) (b : BOp) (g : Fin 8) : Statement (.vcmpNeH d a b g) := by
  intro hf w nx he
  cases b with
  | reg r =>
    have hw : w = 0x98000001 + d.val * 524288 + a.val * 8192 + r.val * 128 + g.val * 8 := one (rfl : encode (.vcmpNeH d a (.reg r) g) = [0x98000001 + d.val * 524288 + a.val * 8192 + r.val * 128 + g.val * 8]) he
    have hl := layR (c := 76) (d := d.val) (a := a.val) (b := r.val) (x := g.val * 8 + 1) (hw.trans (by clear * -; omega)) (d.isLt) (a.isLt) (r.isLt) (by have b0 := g.isLt; clear * - b0; omega)
    have e0 := hl.1
    have e1 : fld w 0 3 = 1 := (part 0 7 0 3 hl.2.2.2.2 (by decide) (by decide)).trans (by have b0 := g.isLt; clear * - b0; omega)
    have e2 : fld w 6 1 = 0 := (part 0 7 6 1 hl.2.2.2.2 (by decide) (by decide)).trans (by have b0 := g.isLt; clear * - b0; omega)
    have a1 : r6 w 19 = d := Fin.ext (hl.2.1)
    have a2 : r6 w 13 = a := Fin.ext (hl.2.2.1)
    have a3 : r6 w 7 = r := Fin.ext (hl.2.2.2.1)
    have a4 : r3 w 3 = g := Fin.ext ((part 0 7 3 3 hl.2.2.2.2 (by decide) (by decide)).trans (by have b0 := g.isLt; clear * - b0; omega))
    refine wf_ok (by rw [e0]; decide) ?_ hf
    rw [flat4C w _ e0]; unfold decode4C
    simp only [e1, e2, a1, a2, a3, a4, Nat.reduceEqDiff, OfNat.ofNat_ne_zero, OfNat.zero_ne_ofNat, one_ne_zero, zero_ne_one, OfNat.one_ne_ofNat, OfNat.ofNat_ne_one, false_and, and_false, and_self, true_and, and_true, reduceIte]
  | konst k =>
    have hx : w = 0x98000001 + d.val * 524288 + a.val * 8192 + 64 + g.val * 8 ∧ nx = k.word := two (rfl : encode (.vcmpNeH d a (.konst k) g) = [0x98000001 + d.val * 524288 + a.val * 8192 + 64 + g.val * 8, k.word]) he
    rw [hx.2]; replace hw := hx.1
    have hl := layR (c := 76) (d := d.val) (a := a.val) (b := 0) (x := g.val * 8 + 65) (hw.trans (by clear * -; omega)) (d.isLt) (a.isLt) (by decide) (by have b0 := g.isLt; clear * - b0; omega)
    have e0 := hl.1
    have e1 : fld w 0 3 = 1 := (part 0 7 0 3 hl.2.2.2.2 (by decide) (by decide)).trans (by have b0 := g.isLt; clear * - b0; omega)
    have e2 : fld w 6 1 = 1 := (part 0 7 6 1 hl.2.2.2.2 (by decide) (by decide)).trans (by have b0 := g.isLt; clear * - b0; omega)
    have e3 : fld w 7 6 = 0 := hl.2.2.2.1
    have a1 : r6 w 19 = d := Fin.ext (hl.2.1)
    have a2 : r6 w 13 = a := Fin.ext (hl.2.2.1)
    have a3 : r3 w 3 = g := Fin.ext ((part 0 7 3 3 hl.2.2.2.2 (by decide) (by decide)).trans (by have b0 := g.isLt; clear * - b0; omega))
    refine wf_ok (by rw [e0]; decide) ?_ hf
    rw [flat4C w _ e0]; unfold decode4C
    simp only [e1, e2, e3, a1, a2, (kref_word k).1, a3, Nat.reduceEqDiff, OfNat.ofNat_ne_zero, OfNat.zero_ne_ofNat, one_ne_zero, zero_ne_one, OfNat.one_ne_ofNat, OfNat.ofNat_ne_one, false_and, and_false, and_self, true_and, and_true, reduceIte, (kref_word k).2]

theorem vcmpLtH (d : Fin 64) (a : Fin 64) (b : BOp) (g : Fin 8) : Statement (.vcmpLtH d a b g) := by
  intro hf w nx he
  cases b with
  | reg r =>
    have hw : w = 0x98000002 + d.val * 524288 + a.val * 8192 + r.val * 128 + g.val * 8 := one (rfl : encode (.vcmpLtH d a (.reg r) g) = [0x98000002 + d.val * 524288 + a.val * 8192 + r.val * 128 + g.val * 8]) he
    have hl := layR (c := 76) (d := d.val) (a := a.val) (b := r.val) (x := g.val * 8 + 2) (hw.trans (by clear * -; omega)) (d.isLt) (a.isLt) (r.isLt) (by have b0 := g.isLt; clear * - b0; omega)
    have e0 := hl.1
    have e1 : fld w 0 3 = 2 := (part 0 7 0 3 hl.2.2.2.2 (by decide) (by decide)).trans (by have b0 := g.isLt; clear * - b0; omega)
    have e2 : fld w 6 1 = 0 := (part 0 7 6 1 hl.2.2.2.2 (by decide) (by decide)).trans (by have b0 := g.isLt; clear * - b0; omega)
    have a1 : r6 w 19 = d := Fin.ext (hl.2.1)
    have a2 : r6 w 13 = a := Fin.ext (hl.2.2.1)
    have a3 : r6 w 7 = r := Fin.ext (hl.2.2.2.1)
    have a4 : r3 w 3 = g := Fin.ext ((part 0 7 3 3 hl.2.2.2.2 (by decide) (by decide)).trans (by have b0 := g.isLt; clear * - b0; omega))
    refine wf_ok (by rw [e0]; decide) ?_ hf
    rw [flat4C w _ e0]; unfold decode4C
    simp only [e1, e2, a1, a2, a3, a4, Nat.reduceEqDiff, OfNat.ofNat_ne_zero, OfNat.zero_ne_ofNat, one_ne_zero, zero_ne_one, OfNat.one_ne_ofNat, OfNat.ofNat_ne_one, false_and, and_false, and_self, true_and, and_true, reduceIte]
  | konst k =>
    have hx : w = 0x98000002 + d.val * 524288 + a.val * 8192 + 64 + g.val * 8 ∧ nx = k.word := two (rfl : encode (.vcmpLtH d a (.konst k) g) = [0x98000002 + d.val * 524288 + a.val * 8192 + 64 + g.val * 8, k.word]) he
    rw [hx.2]; replace hw := hx.1
    have hl := layR (c := 76) (d := d.val) (a := a.val) (b := 0) (x := g.val * 8 + 66) (hw.trans (by clear * -; omega)) (d.isLt) (a.isLt) (by decide) (by have b0 := g.isLt; clear * - b0; omega)
    have e0 := hl.1
    have e1 : fld w 0 3 = 2 := (part 0 7 0 3 hl.2.2.2.2 (by decide) (by decide)).trans (by have b0 := g.isLt; clear * - b0; omega)
    have e2 : fld w 6 1 = 1 := (part 0 7 6 1 hl.2.2.2.2 (by decide) (by decide)).trans (by have b0 := g.isLt; clear * - b0; omega)
    have e3 : fld w 7 6 = 0 := hl.2.2.2.1
    have a1 : r6 w 19 = d := Fin.ext (hl.2.1)
    have a2 : r6 w 13 = a := Fin.ext (hl.2.2.1)
    have a3 : r3 w 3 = g := Fin.ext ((part 0 7 3 3 hl.2.2.2.2 (by decide) (by decide)).trans (by have b0 := g.isLt; clear * - b0; omega))
    refine wf_ok (by rw [e0]; decide) ?_ hf
    rw [flat4C w _ e0]; unfold decode4C
    simp only [e1, e2, e3, a1, a2, (kref_word k).1, a3, Nat.reduceEqDiff, OfNat.ofNat_ne_zero, OfNat.zero_ne_ofNat, one_ne_zero, zero_ne_one, OfNat.one_ne_ofNat, OfNat.ofNat_ne_one, false_and, and_false, and_self, true_and, and_true, reduceIte, (kref_word k).2]

theorem vcmpLeH (d : Fin 64) (a : Fin 64) (b : BOp) (g : Fin 8) : Statement (.vcmpLeH d a b g) := by
  intro hf w nx he
  cases b with
  | reg r =>
    have hw : w = 0x98000003 + d.val * 524288 + a.val * 8192 + r.val * 128 + g.val * 8 := one (rfl : encode (.vcmpLeH d a (.reg r) g) = [0x98000003 + d.val * 524288 + a.val * 8192 + r.val * 128 + g.val * 8]) he
    have hl := layR (c := 76) (d := d.val) (a := a.val) (b := r.val) (x := g.val * 8 + 3) (hw.trans (by clear * -; omega)) (d.isLt) (a.isLt) (r.isLt) (by have b0 := g.isLt; clear * - b0; omega)
    have e0 := hl.1
    have e1 : fld w 0 3 = 3 := (part 0 7 0 3 hl.2.2.2.2 (by decide) (by decide)).trans (by have b0 := g.isLt; clear * - b0; omega)
    have e2 : fld w 6 1 = 0 := (part 0 7 6 1 hl.2.2.2.2 (by decide) (by decide)).trans (by have b0 := g.isLt; clear * - b0; omega)
    have a1 : r6 w 19 = d := Fin.ext (hl.2.1)
    have a2 : r6 w 13 = a := Fin.ext (hl.2.2.1)
    have a3 : r6 w 7 = r := Fin.ext (hl.2.2.2.1)
    have a4 : r3 w 3 = g := Fin.ext ((part 0 7 3 3 hl.2.2.2.2 (by decide) (by decide)).trans (by have b0 := g.isLt; clear * - b0; omega))
    refine wf_ok (by rw [e0]; decide) ?_ hf
    rw [flat4C w _ e0]; unfold decode4C
    simp only [e1, e2, a1, a2, a3, a4, Nat.reduceEqDiff, OfNat.ofNat_ne_zero, OfNat.zero_ne_ofNat, one_ne_zero, zero_ne_one, OfNat.one_ne_ofNat, OfNat.ofNat_ne_one, false_and, and_false, and_self, true_and, and_true, reduceIte]
  | konst k =>
    have hx : w = 0x98000003 + d.val * 524288 + a.val * 8192 + 64 + g.val * 8 ∧ nx = k.word := two (rfl : encode (.vcmpLeH d a (.konst k) g) = [0x98000003 + d.val * 524288 + a.val * 8192 + 64 + g.val * 8, k.word]) he
    rw [hx.2]; replace hw := hx.1
    have hl := layR (c := 76) (d := d.val) (a := a.val) (b := 0) (x := g.val * 8 + 67) (hw.trans (by clear * -; omega)) (d.isLt) (a.isLt) (by decide) (by have b0 := g.isLt; clear * - b0; omega)
    have e0 := hl.1
    have e1 : fld w 0 3 = 3 := (part 0 7 0 3 hl.2.2.2.2 (by decide) (by decide)).trans (by have b0 := g.isLt; clear * - b0; omega)
    have e2 : fld w 6 1 = 1 := (part 0 7 6 1 hl.2.2.2.2 (by decide) (by decide)).trans (by have b0 := g.isLt; clear * - b0; omega)
    have e3 : fld w 7 6 = 0 := hl.2.2.2.1
    have a1 : r6 w 19 = d := Fin.ext (hl.2.1)
    have a2 : r6 w 13 = a := Fin.ext (hl.2.2.1)
    have a3 : r3 w 3 = g := Fin.ext ((part 0 7 3 3 hl.2.2.2.2 (by decide) (by decide)).trans (by have b0 := g.isLt; clear * - b0; omega))
    refine wf_ok (by rw [e0]; decide) ?_ hf
    rw [flat4C w _ e0]; unfold decode4C
    simp only [e1, e2, e3, a1, a2, (kref_word k).1, a3, Nat.reduceEqDiff, OfNat.ofNat_ne_zero, OfNat.zero_ne_ofNat, one_ne_zero, zero_ne_one, OfNat.one_ne_ofNat, OfNat.ofNat_ne_one, false_and, and_false, and_self, true_and, and_true, reduceIte, (kref_word k).2]

theorem vcmpLtUH (d : Fin 64) (a : Fin 64) (b : BOp) (g : Fin 8) : Statement (.vcmpLtUH d a b g) := by
  intro hf w nx he
  cases b with
  | reg r =>
    have hw : w = 0x98000004 + d.val * 524288 + a.val * 8192 + r.val * 128 + g.val * 8 := one (rfl : encode (.vcmpLtUH d a (.reg r) g) = [0x98000004 + d.val * 524288 + a.val * 8192 + r.val * 128 + g.val * 8]) he
    have hl := layR (c := 76) (d := d.val) (a := a.val) (b := r.val) (x := g.val * 8 + 4) (hw.trans (by clear * -; omega)) (d.isLt) (a.isLt) (r.isLt) (by have b0 := g.isLt; clear * - b0; omega)
    have e0 := hl.1
    have e1 : fld w 0 3 = 4 := (part 0 7 0 3 hl.2.2.2.2 (by decide) (by decide)).trans (by have b0 := g.isLt; clear * - b0; omega)
    have e2 : fld w 6 1 = 0 := (part 0 7 6 1 hl.2.2.2.2 (by decide) (by decide)).trans (by have b0 := g.isLt; clear * - b0; omega)
    have a1 : r6 w 19 = d := Fin.ext (hl.2.1)
    have a2 : r6 w 13 = a := Fin.ext (hl.2.2.1)
    have a3 : r6 w 7 = r := Fin.ext (hl.2.2.2.1)
    have a4 : r3 w 3 = g := Fin.ext ((part 0 7 3 3 hl.2.2.2.2 (by decide) (by decide)).trans (by have b0 := g.isLt; clear * - b0; omega))
    refine wf_ok (by rw [e0]; decide) ?_ hf
    rw [flat4C w _ e0]; unfold decode4C
    simp only [e1, e2, a1, a2, a3, a4, Nat.reduceEqDiff, OfNat.ofNat_ne_zero, OfNat.zero_ne_ofNat, one_ne_zero, zero_ne_one, OfNat.one_ne_ofNat, OfNat.ofNat_ne_one, false_and, and_false, and_self, true_and, and_true, reduceIte]
  | konst k =>
    have hx : w = 0x98000004 + d.val * 524288 + a.val * 8192 + 64 + g.val * 8 ∧ nx = k.word := two (rfl : encode (.vcmpLtUH d a (.konst k) g) = [0x98000004 + d.val * 524288 + a.val * 8192 + 64 + g.val * 8, k.word]) he
    rw [hx.2]; replace hw := hx.1
    have hl := layR (c := 76) (d := d.val) (a := a.val) (b := 0) (x := g.val * 8 + 68) (hw.trans (by clear * -; omega)) (d.isLt) (a.isLt) (by decide) (by have b0 := g.isLt; clear * - b0; omega)
    have e0 := hl.1
    have e1 : fld w 0 3 = 4 := (part 0 7 0 3 hl.2.2.2.2 (by decide) (by decide)).trans (by have b0 := g.isLt; clear * - b0; omega)
    have e2 : fld w 6 1 = 1 := (part 0 7 6 1 hl.2.2.2.2 (by decide) (by decide)).trans (by have b0 := g.isLt; clear * - b0; omega)
    have e3 : fld w 7 6 = 0 := hl.2.2.2.1
    have a1 : r6 w 19 = d := Fin.ext (hl.2.1)
    have a2 : r6 w 13 = a := Fin.ext (hl.2.2.1)
    have a3 : r3 w 3 = g := Fin.ext ((part 0 7 3 3 hl.2.2.2.2 (by decide) (by decide)).trans (by have b0 := g.isLt; clear * - b0; omega))
    refine wf_ok (by rw [e0]; decide) ?_ hf
    rw [flat4C w _ e0]; unfold decode4C
    simp only [e1, e2, e3, a1, a2, (kref_word k).1, a3, Nat.reduceEqDiff, OfNat.ofNat_ne_zero, OfNat.zero_ne_ofNat, one_ne_zero, zero_ne_one, OfNat.one_ne_ofNat, OfNat.ofNat_ne_one, false_and, and_false, and_self, true_and, and_true, reduceIte, (kref_word k).2]

theorem vcmpLeUH (d : Fin 64) (a : Fin 64) (b : BOp) (g : Fin 8) : Statement (.vcmpLeUH d a b g) := by
  intro hf w nx he
  cases b with
  | reg r =>
    have hw : w = 0x98000005 + d.val * 524288 + a.val * 8192 + r.val * 128 + g.val * 8 := one (rfl : encode (.vcmpLeUH d a (.reg r) g) = [0x98000005 + d.val * 524288 + a.val * 8192 + r.val * 128 + g.val * 8]) he
    have hl := layR (c := 76) (d := d.val) (a := a.val) (b := r.val) (x := g.val * 8 + 5) (hw.trans (by clear * -; omega)) (d.isLt) (a.isLt) (r.isLt) (by have b0 := g.isLt; clear * - b0; omega)
    have e0 := hl.1
    have e1 : fld w 0 3 = 5 := (part 0 7 0 3 hl.2.2.2.2 (by decide) (by decide)).trans (by have b0 := g.isLt; clear * - b0; omega)
    have e2 : fld w 6 1 = 0 := (part 0 7 6 1 hl.2.2.2.2 (by decide) (by decide)).trans (by have b0 := g.isLt; clear * - b0; omega)
    have a1 : r6 w 19 = d := Fin.ext (hl.2.1)
    have a2 : r6 w 13 = a := Fin.ext (hl.2.2.1)
    have a3 : r6 w 7 = r := Fin.ext (hl.2.2.2.1)
    have a4 : r3 w 3 = g := Fin.ext ((part 0 7 3 3 hl.2.2.2.2 (by decide) (by decide)).trans (by have b0 := g.isLt; clear * - b0; omega))
    refine wf_ok (by rw [e0]; decide) ?_ hf
    rw [flat4C w _ e0]; unfold decode4C
    simp only [e1, e2, a1, a2, a3, a4, Nat.reduceEqDiff, OfNat.ofNat_ne_zero, OfNat.zero_ne_ofNat, one_ne_zero, zero_ne_one, OfNat.one_ne_ofNat, OfNat.ofNat_ne_one, false_and, and_false, and_self, true_and, and_true, reduceIte]
  | konst k =>
    have hx : w = 0x98000005 + d.val * 524288 + a.val * 8192 + 64 + g.val * 8 ∧ nx = k.word := two (rfl : encode (.vcmpLeUH d a (.konst k) g) = [0x98000005 + d.val * 524288 + a.val * 8192 + 64 + g.val * 8, k.word]) he
    rw [hx.2]; replace hw := hx.1
    have hl := layR (c := 76) (d := d.val) (a := a.val) (b := 0) (x := g.val * 8 + 69) (hw.trans (by clear * -; omega)) (d.isLt) (a.isLt) (by decide) (by have b0 := g.isLt; clear * - b0; omega)
    have e0 := hl.1
    have e1 : fld w 0 3 = 5 := (part 0 7 0 3 hl.2.2.2.2 (by decide) (by decide)).trans (by have b0 := g.isLt; clear * - b0; omega)
    have e2 : fld w 6 1 = 1 := (part 0 7 6 1 hl.2.2.2.2 (by decide) (by decide)).trans (by have b0 := g.isLt; clear * - b0; omega)
    have e3 : fld w 7 6 = 0 := hl.2.2.2.1
    have a1 : r6 w 19 = d := Fin.ext (hl.2.1)
    have a2 : r6 w 13 = a := Fin.ext (hl.2.2.1)
    have a3 : r3 w 3 = g := Fin.ext ((part 0 7 3 3 hl.2.2.2.2 (by decide) (by decide)).trans (by have b0 := g.isLt; clear * - b0; omega))
    refine wf_ok (by rw [e0]; decide) ?_ hf
    rw [flat4C w _ e0]; unfold decode4C
    simp only [e1, e2, e3, a1, a2, (kref_word k).1, a3, Nat.reduceEqDiff, OfNat.ofNat_ne_zero, OfNat.zero_ne_ofNat, one_ne_zero, zero_ne_one, OfNat.one_ne_ofNat, OfNat.ofNat_ne_one, false_and, and_false, and_self, true_and, and_true, reduceIte, (kref_word k).2]

theorem vselW (d : Fin 64) (a : Fin 64) (b : Fin 64) (s : Fin 8) : Statement (.vselW d a b s) := by
  intro hf w nx he
  have hw : w = 0x9a000000 + d.val * 524288 + a.val * 8192 + b.val * 128 + s.val * 8 := one (rfl : encode (.vselW d a b s) = [0x9a000000 + d.val * 524288 + a.val * 8192 + b.val * 128 + s.val * 8]) he
  have hl := layR (c := 77) (d := d.val) (a := a.val) (b := b.val) (x := s.val * 8) (hw.trans (by clear * -; omega)) (d.isLt) (a.isLt) (b.isLt) (by have b0 := s.isLt; clear * - b0; omega)
  have e0 := hl.1
  have e1 : fld w 0 3 = 0 := (part 0 7 0 3 hl.2.2.2.2 (by decide) (by decide)).trans (by have b0 := s.isLt; clear * - b0; omega)
  have e2 : fld w 6 1 = 0 := (part 0 7 6 1 hl.2.2.2.2 (by decide) (by decide)).trans (by have b0 := s.isLt; clear * - b0; omega)
  have a1 : r6 w 19 = d := Fin.ext (hl.2.1)
  have a2 : r6 w 13 = a := Fin.ext (hl.2.2.1)
  have a3 : r6 w 7 = b := Fin.ext (hl.2.2.2.1)
  have a4 : r3 w 3 = s := Fin.ext ((part 0 7 3 3 hl.2.2.2.2 (by decide) (by decide)).trans (by have b0 := s.isLt; clear * - b0; omega))
  refine wf_ok (by rw [e0]; decide) ?_ hf
  rw [flat4D w _ e0]; unfold decode4D
  simp only [e1, e2, a1, a2, a3, a4, Nat.reduceEqDiff, OfNat.ofNat_ne_zero, OfNat.zero_ne_ofNat, one_ne_zero, zero_ne_one, OfNat.one_ne_ofNat, OfNat.ofNat_ne_one, false_and, and_false, and_self, true_and, and_true, reduceIte]

theorem vselH (d : Fin 64) (a : Fin 64) (b : Fin 64) (s : Fin 8) : Statement (.vselH d a b s) := by
  intro hf w nx he
  have hw : w = 0x9a000001 + d.val * 524288 + a.val * 8192 + b.val * 128 + s.val * 8 := one (rfl : encode (.vselH d a b s) = [0x9a000001 + d.val * 524288 + a.val * 8192 + b.val * 128 + s.val * 8]) he
  have hl := layR (c := 77) (d := d.val) (a := a.val) (b := b.val) (x := s.val * 8 + 1) (hw.trans (by clear * -; omega)) (d.isLt) (a.isLt) (b.isLt) (by have b0 := s.isLt; clear * - b0; omega)
  have e0 := hl.1
  have e1 : fld w 0 3 = 1 := (part 0 7 0 3 hl.2.2.2.2 (by decide) (by decide)).trans (by have b0 := s.isLt; clear * - b0; omega)
  have e2 : fld w 6 1 = 0 := (part 0 7 6 1 hl.2.2.2.2 (by decide) (by decide)).trans (by have b0 := s.isLt; clear * - b0; omega)
  have a1 : r6 w 19 = d := Fin.ext (hl.2.1)
  have a2 : r6 w 13 = a := Fin.ext (hl.2.2.1)
  have a3 : r6 w 7 = b := Fin.ext (hl.2.2.2.1)
  have a4 : r3 w 3 = s := Fin.ext ((part 0 7 3 3 hl.2.2.2.2 (by decide) (by decide)).trans (by have b0 := s.isLt; clear * - b0; omega))
  refine wf_ok (by rw [e0]; decide) ?_ hf
  rw [flat4D w _ e0]; unfold decode4D
  simp only [e1, e2, a1, a2, a3, a4, Nat.reduceEqDiff, OfNat.ofNat_ne_zero, OfNat.zero_ne_ofNat, one_ne_zero, zero_ne_one, OfNat.one_ne_ofNat, OfNat.ofNat_ne_one, false_and, and_false, and_self, true_and, and_true, reduceIte]

theorem vcvtF16F32 (d : Fin 64) (a : Fin 64) (h : Fin 64) (g : Fin 8) : Statement (.vcvtF16F32 d a h g) := by
  intro hf w nx he
  have hw : w = 0x9c000000 + d.val * 524288 + a.val * 8192 + h.val * 128 + g.val * 8 := one (rfl : encode (.vcvtF16F32 d a h g) = [0x9c000000 + d.val * 524288 + a.val * 8192 + h.val * 128 + g.val * 8]) he
  have hl := layR (c := 78) (d := d.val) (a := a.val) (b := h.val) (x := g.val * 8) (hw.trans (by clear * -; omega)) (d.isLt) (a.isLt) (h.isLt) (by have b0 := g.isLt; clear * - b0; omega)
  have e0 := hl.1
  have e1 : fld w 0 3 = 0 := (part 0 7 0 3 hl.2.2.2.2 (by decide) (by decide)).trans (by have b0 := g.isLt; clear * - b0; omega)
  have e2 : fld w 6 1 = 0 := (part 0 7 6 1 hl.2.2.2.2 (by decide) (by decide)).trans (by have b0 := g.isLt; clear * - b0; omega)
  have a1 : r6 w 19 = d := Fin.ext (hl.2.1)
  have a2 : r6 w 13 = a := Fin.ext (hl.2.2.1)
  have a3 : r6 w 7 = h := Fin.ext (hl.2.2.2.1)
  have a4 : r3 w 3 = g := Fin.ext ((part 0 7 3 3 hl.2.2.2.2 (by decide) (by decide)).trans (by have b0 := g.isLt; clear * - b0; omega))
  refine wf_ok (by rw [e0]; decide) ?_ hf
  rw [flat4E w _ e0]; unfold decode4E
  simp only [e1, e2, a1, a2, a3, a4, Nat.reduceEqDiff, OfNat.ofNat_ne_zero, OfNat.zero_ne_ofNat, one_ne_zero, zero_ne_one, OfNat.one_ne_ofNat, OfNat.ofNat_ne_one, false_and, and_false, and_self, true_and, and_true, reduceIte]

theorem vcvtBf16F32 (d : Fin 64) (a : Fin 64) (h : Fin 64) (g : Fin 8) : Statement (.vcvtBf16F32 d a h g) := by
  intro hf w nx he
  have hw : w = 0x9c000001 + d.val * 524288 + a.val * 8192 + h.val * 128 + g.val * 8 := one (rfl : encode (.vcvtBf16F32 d a h g) = [0x9c000001 + d.val * 524288 + a.val * 8192 + h.val * 128 + g.val * 8]) he
  have hl := layR (c := 78) (d := d.val) (a := a.val) (b := h.val) (x := g.val * 8 + 1) (hw.trans (by clear * -; omega)) (d.isLt) (a.isLt) (h.isLt) (by have b0 := g.isLt; clear * - b0; omega)
  have e0 := hl.1
  have e1 : fld w 0 3 = 1 := (part 0 7 0 3 hl.2.2.2.2 (by decide) (by decide)).trans (by have b0 := g.isLt; clear * - b0; omega)
  have e2 : fld w 6 1 = 0 := (part 0 7 6 1 hl.2.2.2.2 (by decide) (by decide)).trans (by have b0 := g.isLt; clear * - b0; omega)
  have a1 : r6 w 19 = d := Fin.ext (hl.2.1)
  have a2 : r6 w 13 = a := Fin.ext (hl.2.2.1)
  have a3 : r6 w 7 = h := Fin.ext (hl.2.2.2.1)
  have a4 : r3 w 3 = g := Fin.ext ((part 0 7 3 3 hl.2.2.2.2 (by decide) (by decide)).trans (by have b0 := g.isLt; clear * - b0; omega))
  refine wf_ok (by rw [e0]; decide) ?_ hf
  rw [flat4E w _ e0]; unfold decode4E
  simp only [e1, e2, a1, a2, a3, a4, Nat.reduceEqDiff, OfNat.ofNat_ne_zero, OfNat.zero_ne_ofNat, one_ne_zero, zero_ne_one, OfNat.one_ne_ofNat, OfNat.ofNat_ne_one, false_and, and_false, and_self, true_and, and_true, reduceIte]

theorem vcvtF32F16 (d : Fin 64) (a : Fin 64) (h : Fin 64) (g : Fin 8) : Statement (.vcvtF32F16 d a h g) := by
  intro hf w nx he
  have hw : w = 0x9c000002 + d.val * 524288 + a.val * 8192 + h.val * 128 + g.val * 8 := one (rfl : encode (.vcvtF32F16 d a h g) = [0x9c000002 + d.val * 524288 + a.val * 8192 + h.val * 128 + g.val * 8]) he
  have hl := layR (c := 78) (d := d.val) (a := a.val) (b := h.val) (x := g.val * 8 + 2) (hw.trans (by clear * -; omega)) (d.isLt) (a.isLt) (h.isLt) (by have b0 := g.isLt; clear * - b0; omega)
  have e0 := hl.1
  have e1 : fld w 0 3 = 2 := (part 0 7 0 3 hl.2.2.2.2 (by decide) (by decide)).trans (by have b0 := g.isLt; clear * - b0; omega)
  have e2 : fld w 6 1 = 0 := (part 0 7 6 1 hl.2.2.2.2 (by decide) (by decide)).trans (by have b0 := g.isLt; clear * - b0; omega)
  have a1 : r6 w 19 = d := Fin.ext (hl.2.1)
  have a2 : r6 w 13 = a := Fin.ext (hl.2.2.1)
  have a3 : r6 w 7 = h := Fin.ext (hl.2.2.2.1)
  have a4 : r3 w 3 = g := Fin.ext ((part 0 7 3 3 hl.2.2.2.2 (by decide) (by decide)).trans (by have b0 := g.isLt; clear * - b0; omega))
  refine wf_ok (by rw [e0]; decide) ?_ hf
  rw [flat4E w _ e0]; unfold decode4E
  simp only [e1, e2, a1, a2, a3, a4, Nat.reduceEqDiff, OfNat.ofNat_ne_zero, OfNat.zero_ne_ofNat, one_ne_zero, zero_ne_one, OfNat.one_ne_ofNat, OfNat.ofNat_ne_one, false_and, and_false, and_self, true_and, and_true, reduceIte]

theorem vcvtF32Bf16 (d : Fin 64) (a : Fin 64) (h : Fin 64) (g : Fin 8) : Statement (.vcvtF32Bf16 d a h g) := by
  intro hf w nx he
  have hw : w = 0x9c000003 + d.val * 524288 + a.val * 8192 + h.val * 128 + g.val * 8 := one (rfl : encode (.vcvtF32Bf16 d a h g) = [0x9c000003 + d.val * 524288 + a.val * 8192 + h.val * 128 + g.val * 8]) he
  have hl := layR (c := 78) (d := d.val) (a := a.val) (b := h.val) (x := g.val * 8 + 3) (hw.trans (by clear * -; omega)) (d.isLt) (a.isLt) (h.isLt) (by have b0 := g.isLt; clear * - b0; omega)
  have e0 := hl.1
  have e1 : fld w 0 3 = 3 := (part 0 7 0 3 hl.2.2.2.2 (by decide) (by decide)).trans (by have b0 := g.isLt; clear * - b0; omega)
  have e2 : fld w 6 1 = 0 := (part 0 7 6 1 hl.2.2.2.2 (by decide) (by decide)).trans (by have b0 := g.isLt; clear * - b0; omega)
  have a1 : r6 w 19 = d := Fin.ext (hl.2.1)
  have a2 : r6 w 13 = a := Fin.ext (hl.2.2.1)
  have a3 : r6 w 7 = h := Fin.ext (hl.2.2.2.1)
  have a4 : r3 w 3 = g := Fin.ext ((part 0 7 3 3 hl.2.2.2.2 (by decide) (by decide)).trans (by have b0 := g.isLt; clear * - b0; omega))
  refine wf_ok (by rw [e0]; decide) ?_ hf
  rw [flat4E w _ e0]; unfold decode4E
  simp only [e1, e2, a1, a2, a3, a4, Nat.reduceEqDiff, OfNat.ofNat_ne_zero, OfNat.zero_ne_ofNat, one_ne_zero, zero_ne_one, OfNat.one_ne_ofNat, OfNat.ofNat_ne_one, false_and, and_false, and_self, true_and, and_true, reduceIte]

theorem vcvtWF32 (d : Fin 64) (a : Fin 64) (g : Fin 8) : Statement (.vcvtWF32 d a g) := by
  intro hf w nx he
  have hw : w = 0x9c000004 + d.val * 524288 + a.val * 8192 + g.val * 8 := one (rfl : encode (.vcvtWF32 d a g) = [0x9c000004 + d.val * 524288 + a.val * 8192 + g.val * 8]) he
  have hl := layR (c := 78) (d := d.val) (a := a.val) (b := 0) (x := g.val * 8 + 4) (hw.trans (by clear * -; omega)) (d.isLt) (a.isLt) (by decide) (by have b0 := g.isLt; clear * - b0; omega)
  have e0 := hl.1
  have e1 : fld w 0 3 = 4 := (part 0 7 0 3 hl.2.2.2.2 (by decide) (by decide)).trans (by have b0 := g.isLt; clear * - b0; omega)
  have e2 : fld w 6 1 = 0 := (part 0 7 6 1 hl.2.2.2.2 (by decide) (by decide)).trans (by have b0 := g.isLt; clear * - b0; omega)
  have e3 : fld w 7 6 = 0 := hl.2.2.2.1
  have a1 : r6 w 19 = d := Fin.ext (hl.2.1)
  have a2 : r6 w 13 = a := Fin.ext (hl.2.2.1)
  have a3 : r3 w 3 = g := Fin.ext ((part 0 7 3 3 hl.2.2.2.2 (by decide) (by decide)).trans (by have b0 := g.isLt; clear * - b0; omega))
  refine wf_ok (by rw [e0]; decide) ?_ hf
  rw [flat4E w _ e0]; unfold decode4E
  simp only [e1, e2, e3, a1, a2, a3, Nat.reduceEqDiff, OfNat.ofNat_ne_zero, OfNat.zero_ne_ofNat, one_ne_zero, zero_ne_one, OfNat.one_ne_ofNat, OfNat.ofNat_ne_one, false_and, and_false, and_self, true_and, and_true, reduceIte]

theorem vcvtF32W (d : Fin 64) (a : Fin 64) (g : Fin 8) : Statement (.vcvtF32W d a g) := by
  intro hf w nx he
  have hw : w = 0x9c000005 + d.val * 524288 + a.val * 8192 + g.val * 8 := one (rfl : encode (.vcvtF32W d a g) = [0x9c000005 + d.val * 524288 + a.val * 8192 + g.val * 8]) he
  have hl := layR (c := 78) (d := d.val) (a := a.val) (b := 0) (x := g.val * 8 + 5) (hw.trans (by clear * -; omega)) (d.isLt) (a.isLt) (by decide) (by have b0 := g.isLt; clear * - b0; omega)
  have e0 := hl.1
  have e1 : fld w 0 3 = 5 := (part 0 7 0 3 hl.2.2.2.2 (by decide) (by decide)).trans (by have b0 := g.isLt; clear * - b0; omega)
  have e2 : fld w 6 1 = 0 := (part 0 7 6 1 hl.2.2.2.2 (by decide) (by decide)).trans (by have b0 := g.isLt; clear * - b0; omega)
  have e3 : fld w 7 6 = 0 := hl.2.2.2.1
  have a1 : r6 w 19 = d := Fin.ext (hl.2.1)
  have a2 : r6 w 13 = a := Fin.ext (hl.2.2.1)
  have a3 : r3 w 3 = g := Fin.ext ((part 0 7 3 3 hl.2.2.2.2 (by decide) (by decide)).trans (by have b0 := g.isLt; clear * - b0; omega))
  refine wf_ok (by rw [e0]; decide) ?_ hf
  rw [flat4E w _ e0]; unfold decode4E
  simp only [e1, e2, e3, a1, a2, a3, Nat.reduceEqDiff, OfNat.ofNat_ne_zero, OfNat.zero_ne_ofNat, one_ne_zero, zero_ne_one, OfNat.one_ne_ofNat, OfNat.ofNat_ne_one, false_and, and_false, and_self, true_and, and_true, reduceIte]

theorem vcvtN (d : Fin 64) (a : Fin 64) (b : Fin 64) (g : Fin 8) (q : Fin 4) : Statement (.vcvtN d a b g q) := by
  intro hf w nx he
  have hw : w = 0x9e000000 + d.val * 524288 + a.val * 8192 + b.val * 128 + g.val * 8 + q.val := one (rfl : encode (.vcvtN d a b g q) = [0x9e000000 + d.val * 524288 + a.val * 8192 + b.val * 128 + g.val * 8 + q.val]) he
  have hl := layR (c := 79) (d := d.val) (a := a.val) (b := b.val) (x := g.val * 8 + q.val) (hw.trans (by clear * -; omega)) (d.isLt) (a.isLt) (b.isLt) (by have b0 := g.isLt; have b1 := q.isLt; clear * - b0 b1; omega)
  have e0 := hl.1
  have e1 : fld w 2 1 = 0 := (part 0 7 2 1 hl.2.2.2.2 (by decide) (by decide)).trans (by have b0 := g.isLt; have b1 := q.isLt; clear * - b0 b1; omega)
  have e2 : fld w 6 1 = 0 := (part 0 7 6 1 hl.2.2.2.2 (by decide) (by decide)).trans (by have b0 := g.isLt; have b1 := q.isLt; clear * - b0 b1; omega)
  have a1 : r6 w 19 = d := Fin.ext (hl.2.1)
  have a2 : r6 w 13 = a := Fin.ext (hl.2.2.1)
  have a3 : r6 w 7 = b := Fin.ext (hl.2.2.2.1)
  have a4 : r3 w 3 = g := Fin.ext ((part 0 7 3 3 hl.2.2.2.2 (by decide) (by decide)).trans (by have b0 := g.isLt; have b1 := q.isLt; clear * - b0 b1; omega))
  have a5 : r2 w 0 = q := Fin.ext ((part 0 7 0 2 hl.2.2.2.2 (by decide) (by decide)).trans (by have b0 := g.isLt; have b1 := q.isLt; clear * - b0 b1; omega))
  refine wf_ok (by rw [e0]; decide) ?_ hf
  rw [flat4F w _ e0]; unfold decode4F
  simp only [e1, e2, a1, a2, a3, a4, a5, Nat.reduceEqDiff, OfNat.ofNat_ne_zero, OfNat.zero_ne_ofNat, one_ne_zero, zero_ne_one, OfNat.one_ne_ofNat, OfNat.ofNat_ne_one, false_and, and_false, and_self, true_and, and_true, reduceIte]

theorem vcvtNf (d : Fin 64) (a : Fin 64) (b : Fin 64) (g : Fin 8) (q : Fin 4) : Statement (.vcvtNf d a b g q) := by
  intro hf w nx he
  have hw : w = 0x9e000004 + d.val * 524288 + a.val * 8192 + b.val * 128 + g.val * 8 + q.val := one (rfl : encode (.vcvtNf d a b g q) = [0x9e000004 + d.val * 524288 + a.val * 8192 + b.val * 128 + g.val * 8 + q.val]) he
  have hl := layR (c := 79) (d := d.val) (a := a.val) (b := b.val) (x := g.val * 8 + q.val + 4) (hw.trans (by clear * -; omega)) (d.isLt) (a.isLt) (b.isLt) (by have b0 := g.isLt; have b1 := q.isLt; clear * - b0 b1; omega)
  have e0 := hl.1
  have e1 : fld w 2 1 = 1 := (part 0 7 2 1 hl.2.2.2.2 (by decide) (by decide)).trans (by have b0 := g.isLt; have b1 := q.isLt; clear * - b0 b1; omega)
  have e2 : fld w 6 1 = 0 := (part 0 7 6 1 hl.2.2.2.2 (by decide) (by decide)).trans (by have b0 := g.isLt; have b1 := q.isLt; clear * - b0 b1; omega)
  have a1 : r6 w 19 = d := Fin.ext (hl.2.1)
  have a2 : r6 w 13 = a := Fin.ext (hl.2.2.1)
  have a3 : r6 w 7 = b := Fin.ext (hl.2.2.2.1)
  have a4 : r3 w 3 = g := Fin.ext ((part 0 7 3 3 hl.2.2.2.2 (by decide) (by decide)).trans (by have b0 := g.isLt; have b1 := q.isLt; clear * - b0 b1; omega))
  have a5 : r2 w 0 = q := Fin.ext ((part 0 7 0 2 hl.2.2.2.2 (by decide) (by decide)).trans (by have b0 := g.isLt; have b1 := q.isLt; clear * - b0 b1; omega))
  refine wf_ok (by rw [e0]; decide) ?_ hf
  rw [flat4F w _ e0]; unfold decode4F
  simp only [e1, e2, a1, a2, a3, a4, a5, Nat.reduceEqDiff, OfNat.ofNat_ne_zero, OfNat.zero_ne_ofNat, one_ne_zero, zero_ne_one, OfNat.one_ne_ofNat, OfNat.ofNat_ne_one, false_and, and_false, and_self, true_and, and_true, reduceIte]

theorem vmov (d : Fin 64) (a : Fin 64) (g : Fin 8) : Statement (.vmov d a g) := by
  intro hf w nx he
  have hw : w = 0xa0000000 + d.val * 524288 + a.val * 8192 + g.val * 8 := one (rfl : encode (.vmov d a g) = [0xa0000000 + d.val * 524288 + a.val * 8192 + g.val * 8]) he
  have hl := layR (c := 80) (d := d.val) (a := a.val) (b := 0) (x := g.val * 8) (hw.trans (by clear * -; omega)) (d.isLt) (a.isLt) (by decide) (by have b0 := g.isLt; clear * - b0; omega)
  have e0 := hl.1
  have e1 : fld w 0 3 = 0 := (part 0 7 0 3 hl.2.2.2.2 (by decide) (by decide)).trans (by have b0 := g.isLt; clear * - b0; omega)
  have e2 : fld w 6 1 = 0 := (part 0 7 6 1 hl.2.2.2.2 (by decide) (by decide)).trans (by have b0 := g.isLt; clear * - b0; omega)
  have e3 : fld w 7 6 = 0 := hl.2.2.2.1
  have a1 : r6 w 19 = d := Fin.ext (hl.2.1)
  have a2 : r6 w 13 = a := Fin.ext (hl.2.2.1)
  have a3 : r3 w 3 = g := Fin.ext ((part 0 7 3 3 hl.2.2.2.2 (by decide) (by decide)).trans (by have b0 := g.isLt; clear * - b0; omega))
  refine wf_ok (by rw [e0]; decide) ?_ hf
  rw [flat50 w _ e0]; unfold decode50
  simp only [e1, e2, e3, a1, a2, a3, Nat.reduceEqDiff, OfNat.ofNat_ne_zero, OfNat.zero_ne_ofNat, one_ne_zero, zero_ne_one, OfNat.one_ne_ofNat, OfNat.ofNat_ne_one, false_and, and_false, and_self, true_and, and_true, reduceIte]

theorem vpermW (d : Fin 64) (a : Fin 64) (b : Fin 64) (g : Fin 8) : Statement (.vpermW d a b g) := by
  intro hf w nx he
  have hw : w = 0xa0000001 + d.val * 524288 + a.val * 8192 + b.val * 128 + g.val * 8 := one (rfl : encode (.vpermW d a b g) = [0xa0000001 + d.val * 524288 + a.val * 8192 + b.val * 128 + g.val * 8]) he
  have hl := layR (c := 80) (d := d.val) (a := a.val) (b := b.val) (x := g.val * 8 + 1) (hw.trans (by clear * -; omega)) (d.isLt) (a.isLt) (b.isLt) (by have b0 := g.isLt; clear * - b0; omega)
  have e0 := hl.1
  have e1 : fld w 0 3 = 1 := (part 0 7 0 3 hl.2.2.2.2 (by decide) (by decide)).trans (by have b0 := g.isLt; clear * - b0; omega)
  have e2 : fld w 6 1 = 0 := (part 0 7 6 1 hl.2.2.2.2 (by decide) (by decide)).trans (by have b0 := g.isLt; clear * - b0; omega)
  have a1 : r6 w 19 = d := Fin.ext (hl.2.1)
  have a2 : r6 w 13 = a := Fin.ext (hl.2.2.1)
  have a3 : r6 w 7 = b := Fin.ext (hl.2.2.2.1)
  have a4 : r3 w 3 = g := Fin.ext ((part 0 7 3 3 hl.2.2.2.2 (by decide) (by decide)).trans (by have b0 := g.isLt; clear * - b0; omega))
  refine wf_ok (by rw [e0]; decide) ?_ hf
  rw [flat50 w _ e0]; unfold decode50
  simp only [e1, e2, a1, a2, a3, a4, Nat.reduceEqDiff, OfNat.ofNat_ne_zero, OfNat.zero_ne_ofNat, one_ne_zero, zero_ne_one, OfNat.one_ne_ofNat, OfNat.ofNat_ne_one, false_and, and_false, and_self, true_and, and_true, reduceIte]

theorem vpermH (d : Fin 64) (a : Fin 64) (b : Fin 64) (g : Fin 8) : Statement (.vpermH d a b g) := by
  intro hf w nx he
  have hw : w = 0xa0000002 + d.val * 524288 + a.val * 8192 + b.val * 128 + g.val * 8 := one (rfl : encode (.vpermH d a b g) = [0xa0000002 + d.val * 524288 + a.val * 8192 + b.val * 128 + g.val * 8]) he
  have hl := layR (c := 80) (d := d.val) (a := a.val) (b := b.val) (x := g.val * 8 + 2) (hw.trans (by clear * -; omega)) (d.isLt) (a.isLt) (b.isLt) (by have b0 := g.isLt; clear * - b0; omega)
  have e0 := hl.1
  have e1 : fld w 0 3 = 2 := (part 0 7 0 3 hl.2.2.2.2 (by decide) (by decide)).trans (by have b0 := g.isLt; clear * - b0; omega)
  have e2 : fld w 6 1 = 0 := (part 0 7 6 1 hl.2.2.2.2 (by decide) (by decide)).trans (by have b0 := g.isLt; clear * - b0; omega)
  have a1 : r6 w 19 = d := Fin.ext (hl.2.1)
  have a2 : r6 w 13 = a := Fin.ext (hl.2.2.1)
  have a3 : r6 w 7 = b := Fin.ext (hl.2.2.2.1)
  have a4 : r3 w 3 = g := Fin.ext ((part 0 7 3 3 hl.2.2.2.2 (by decide) (by decide)).trans (by have b0 := g.isLt; clear * - b0; omega))
  refine wf_ok (by rw [e0]; decide) ?_ hf
  rw [flat50 w _ e0]; unfold decode50
  simp only [e1, e2, a1, a2, a3, a4, Nat.reduceEqDiff, OfNat.ofNat_ne_zero, OfNat.zero_ne_ofNat, one_ne_zero, zero_ne_one, OfNat.one_ne_ofNat, OfNat.ofNat_ne_one, false_and, and_false, and_self, true_and, and_true, reduceIte]

theorem vbcstW (d : Fin 64) (a : Fin 64) (g : Fin 8) : Statement (.vbcstW d a g) := by
  intro hf w nx he
  have hw : w = 0xa0000003 + d.val * 524288 + a.val * 8192 + g.val * 8 := one (rfl : encode (.vbcstW d a g) = [0xa0000003 + d.val * 524288 + a.val * 8192 + g.val * 8]) he
  have hl := layR (c := 80) (d := d.val) (a := a.val) (b := 0) (x := g.val * 8 + 3) (hw.trans (by clear * -; omega)) (d.isLt) (a.isLt) (by decide) (by have b0 := g.isLt; clear * - b0; omega)
  have e0 := hl.1
  have e1 : fld w 0 3 = 3 := (part 0 7 0 3 hl.2.2.2.2 (by decide) (by decide)).trans (by have b0 := g.isLt; clear * - b0; omega)
  have e2 : fld w 6 1 = 0 := (part 0 7 6 1 hl.2.2.2.2 (by decide) (by decide)).trans (by have b0 := g.isLt; clear * - b0; omega)
  have e3 : fld w 7 6 = 0 := hl.2.2.2.1
  have a1 : r6 w 19 = d := Fin.ext (hl.2.1)
  have a2 : r6 w 13 = a := Fin.ext (hl.2.2.1)
  have a3 : r3 w 3 = g := Fin.ext ((part 0 7 3 3 hl.2.2.2.2 (by decide) (by decide)).trans (by have b0 := g.isLt; clear * - b0; omega))
  refine wf_ok (by rw [e0]; decide) ?_ hf
  rw [flat50 w _ e0]; unfold decode50
  simp only [e1, e2, e3, a1, a2, a3, Nat.reduceEqDiff, OfNat.ofNat_ne_zero, OfNat.zero_ne_ofNat, one_ne_zero, zero_ne_one, OfNat.one_ne_ofNat, OfNat.ofNat_ne_one, false_and, and_false, and_self, true_and, and_true, reduceIte]

theorem vbcstH (d : Fin 64) (a : Fin 64) (g : Fin 8) : Statement (.vbcstH d a g) := by
  intro hf w nx he
  have hw : w = 0xa0000004 + d.val * 524288 + a.val * 8192 + g.val * 8 := one (rfl : encode (.vbcstH d a g) = [0xa0000004 + d.val * 524288 + a.val * 8192 + g.val * 8]) he
  have hl := layR (c := 80) (d := d.val) (a := a.val) (b := 0) (x := g.val * 8 + 4) (hw.trans (by clear * -; omega)) (d.isLt) (a.isLt) (by decide) (by have b0 := g.isLt; clear * - b0; omega)
  have e0 := hl.1
  have e1 : fld w 0 3 = 4 := (part 0 7 0 3 hl.2.2.2.2 (by decide) (by decide)).trans (by have b0 := g.isLt; clear * - b0; omega)
  have e2 : fld w 6 1 = 0 := (part 0 7 6 1 hl.2.2.2.2 (by decide) (by decide)).trans (by have b0 := g.isLt; clear * - b0; omega)
  have e3 : fld w 7 6 = 0 := hl.2.2.2.1
  have a1 : r6 w 19 = d := Fin.ext (hl.2.1)
  have a2 : r6 w 13 = a := Fin.ext (hl.2.2.1)
  have a3 : r3 w 3 = g := Fin.ext ((part 0 7 3 3 hl.2.2.2.2 (by decide) (by decide)).trans (by have b0 := g.isLt; clear * - b0; omega))
  refine wf_ok (by rw [e0]; decide) ?_ hf
  rw [flat50 w _ e0]; unfold decode50
  simp only [e1, e2, e3, a1, a2, a3, Nat.reduceEqDiff, OfNat.ofNat_ne_zero, OfNat.zero_ne_ofNat, one_ne_zero, zero_ne_one, OfNat.one_ne_ofNat, OfNat.ofNat_ne_one, false_and, and_false, and_self, true_and, and_true, reduceIte]

theorem vextW (d : Fin 64) (a : Fin 64) (b : Fin 64) : Statement (.vextW d a b) := by
  intro hf w nx he
  have hw : w = 0xa0000005 + d.val * 524288 + a.val * 8192 + b.val * 128 := one (rfl : encode (.vextW d a b) = [0xa0000005 + d.val * 524288 + a.val * 8192 + b.val * 128]) he
  have hl := layR (c := 80) (d := d.val) (a := a.val) (b := b.val) (x := 5) (hw.trans (by clear * -; omega)) (d.isLt) (a.isLt) (b.isLt) (by decide)
  have e0 := hl.1
  have e1 : fld w 0 3 = 5 := (part 0 7 0 3 hl.2.2.2.2 (by decide) (by decide)).trans (by decide)
  have e2 : fld w 6 1 = 0 := (part 0 7 6 1 hl.2.2.2.2 (by decide) (by decide)).trans (by decide)
  have e3 : fld w 0 7 = 5 := hl.2.2.2.2
  have a1 : r6 w 19 = d := Fin.ext (hl.2.1)
  have a2 : r6 w 13 = a := Fin.ext (hl.2.2.1)
  have a3 : r6 w 7 = b := Fin.ext (hl.2.2.2.1)
  refine wf_ok (by rw [e0]; decide) ?_ hf
  rw [flat50 w _ e0]; unfold decode50
  simp only [e1, e2, e3, a1, a2, a3, Nat.reduceEqDiff, OfNat.ofNat_ne_zero, OfNat.zero_ne_ofNat, one_ne_zero, zero_ne_one, OfNat.one_ne_ofNat, OfNat.ofNat_ne_one, false_and, and_false, and_self, true_and, and_true, reduceIte]

theorem vextH (d : Fin 64) (a : Fin 64) (b : Fin 64) : Statement (.vextH d a b) := by
  intro hf w nx he
  have hw : w = 0xa0000006 + d.val * 524288 + a.val * 8192 + b.val * 128 := one (rfl : encode (.vextH d a b) = [0xa0000006 + d.val * 524288 + a.val * 8192 + b.val * 128]) he
  have hl := layR (c := 80) (d := d.val) (a := a.val) (b := b.val) (x := 6) (hw.trans (by clear * -; omega)) (d.isLt) (a.isLt) (b.isLt) (by decide)
  have e0 := hl.1
  have e1 : fld w 0 3 = 6 := (part 0 7 0 3 hl.2.2.2.2 (by decide) (by decide)).trans (by decide)
  have e2 : fld w 6 1 = 0 := (part 0 7 6 1 hl.2.2.2.2 (by decide) (by decide)).trans (by decide)
  have e3 : fld w 0 7 = 6 := hl.2.2.2.2
  have a1 : r6 w 19 = d := Fin.ext (hl.2.1)
  have a2 : r6 w 13 = a := Fin.ext (hl.2.2.1)
  have a3 : r6 w 7 = b := Fin.ext (hl.2.2.2.1)
  refine wf_ok (by rw [e0]; decide) ?_ hf
  rw [flat50 w _ e0]; unfold decode50
  simp only [e1, e2, e3, a1, a2, a3, Nat.reduceEqDiff, OfNat.ofNat_ne_zero, OfNat.zero_ne_ofNat, one_ne_zero, zero_ne_one, OfNat.one_ne_ofNat, OfNat.ofNat_ne_one, false_and, and_false, and_self, true_and, and_true, reduceIte]

theorem vredSumF32 (d : Fin 64) (a : Fin 64) (g : Fin 8) : Statement (.vredSumF32 d a g) := by
  intro hf w nx he
  have hw : w = 0xa2000000 + d.val * 524288 + a.val * 8192 + g.val * 8 := one (rfl : encode (.vredSumF32 d a g) = [0xa2000000 + d.val * 524288 + a.val * 8192 + g.val * 8]) he
  have hl := layR (c := 81) (d := d.val) (a := a.val) (b := 0) (x := g.val * 8) (hw.trans (by clear * -; omega)) (d.isLt) (a.isLt) (by decide) (by have b0 := g.isLt; clear * - b0; omega)
  have e0 := hl.1
  have e1 : fld w 0 3 = 0 := (part 0 7 0 3 hl.2.2.2.2 (by decide) (by decide)).trans (by have b0 := g.isLt; clear * - b0; omega)
  have e2 : fld w 6 1 = 0 := (part 0 7 6 1 hl.2.2.2.2 (by decide) (by decide)).trans (by have b0 := g.isLt; clear * - b0; omega)
  have e3 : fld w 7 6 = 0 := hl.2.2.2.1
  have a1 : r6 w 19 = d := Fin.ext (hl.2.1)
  have a2 : r6 w 13 = a := Fin.ext (hl.2.2.1)
  have a3 : r3 w 3 = g := Fin.ext ((part 0 7 3 3 hl.2.2.2.2 (by decide) (by decide)).trans (by have b0 := g.isLt; clear * - b0; omega))
  refine wf_ok (by rw [e0]; decide) ?_ hf
  rw [flat51 w _ e0]; unfold decode51
  simp only [e1, e2, e3, a1, a2, a3, Nat.reduceEqDiff, OfNat.ofNat_ne_zero, OfNat.zero_ne_ofNat, one_ne_zero, zero_ne_one, OfNat.one_ne_ofNat, OfNat.ofNat_ne_one, false_and, and_false, and_self, true_and, and_true, reduceIte]

theorem vredSumF16 (d : Fin 64) (a : Fin 64) (g : Fin 8) : Statement (.vredSumF16 d a g) := by
  intro hf w nx he
  have hw : w = 0xa2000001 + d.val * 524288 + a.val * 8192 + g.val * 8 := one (rfl : encode (.vredSumF16 d a g) = [0xa2000001 + d.val * 524288 + a.val * 8192 + g.val * 8]) he
  have hl := layR (c := 81) (d := d.val) (a := a.val) (b := 0) (x := g.val * 8 + 1) (hw.trans (by clear * -; omega)) (d.isLt) (a.isLt) (by decide) (by have b0 := g.isLt; clear * - b0; omega)
  have e0 := hl.1
  have e1 : fld w 0 3 = 1 := (part 0 7 0 3 hl.2.2.2.2 (by decide) (by decide)).trans (by have b0 := g.isLt; clear * - b0; omega)
  have e2 : fld w 6 1 = 0 := (part 0 7 6 1 hl.2.2.2.2 (by decide) (by decide)).trans (by have b0 := g.isLt; clear * - b0; omega)
  have e3 : fld w 7 6 = 0 := hl.2.2.2.1
  have a1 : r6 w 19 = d := Fin.ext (hl.2.1)
  have a2 : r6 w 13 = a := Fin.ext (hl.2.2.1)
  have a3 : r3 w 3 = g := Fin.ext ((part 0 7 3 3 hl.2.2.2.2 (by decide) (by decide)).trans (by have b0 := g.isLt; clear * - b0; omega))
  refine wf_ok (by rw [e0]; decide) ?_ hf
  rw [flat51 w _ e0]; unfold decode51
  simp only [e1, e2, e3, a1, a2, a3, Nat.reduceEqDiff, OfNat.ofNat_ne_zero, OfNat.zero_ne_ofNat, one_ne_zero, zero_ne_one, OfNat.one_ne_ofNat, OfNat.ofNat_ne_one, false_and, and_false, and_self, true_and, and_true, reduceIte]

theorem vredSumBf16 (d : Fin 64) (a : Fin 64) (g : Fin 8) : Statement (.vredSumBf16 d a g) := by
  intro hf w nx he
  have hw : w = 0xa2000002 + d.val * 524288 + a.val * 8192 + g.val * 8 := one (rfl : encode (.vredSumBf16 d a g) = [0xa2000002 + d.val * 524288 + a.val * 8192 + g.val * 8]) he
  have hl := layR (c := 81) (d := d.val) (a := a.val) (b := 0) (x := g.val * 8 + 2) (hw.trans (by clear * -; omega)) (d.isLt) (a.isLt) (by decide) (by have b0 := g.isLt; clear * - b0; omega)
  have e0 := hl.1
  have e1 : fld w 0 3 = 2 := (part 0 7 0 3 hl.2.2.2.2 (by decide) (by decide)).trans (by have b0 := g.isLt; clear * - b0; omega)
  have e2 : fld w 6 1 = 0 := (part 0 7 6 1 hl.2.2.2.2 (by decide) (by decide)).trans (by have b0 := g.isLt; clear * - b0; omega)
  have e3 : fld w 7 6 = 0 := hl.2.2.2.1
  have a1 : r6 w 19 = d := Fin.ext (hl.2.1)
  have a2 : r6 w 13 = a := Fin.ext (hl.2.2.1)
  have a3 : r3 w 3 = g := Fin.ext ((part 0 7 3 3 hl.2.2.2.2 (by decide) (by decide)).trans (by have b0 := g.isLt; clear * - b0; omega))
  refine wf_ok (by rw [e0]; decide) ?_ hf
  rw [flat51 w _ e0]; unfold decode51
  simp only [e1, e2, e3, a1, a2, a3, Nat.reduceEqDiff, OfNat.ofNat_ne_zero, OfNat.zero_ne_ofNat, one_ne_zero, zero_ne_one, OfNat.one_ne_ofNat, OfNat.ofNat_ne_one, false_and, and_false, and_self, true_and, and_true, reduceIte]

theorem vredMaxF32 (d : Fin 64) (a : Fin 64) (g : Fin 8) : Statement (.vredMaxF32 d a g) := by
  intro hf w nx he
  have hw : w = 0xa2000003 + d.val * 524288 + a.val * 8192 + g.val * 8 := one (rfl : encode (.vredMaxF32 d a g) = [0xa2000003 + d.val * 524288 + a.val * 8192 + g.val * 8]) he
  have hl := layR (c := 81) (d := d.val) (a := a.val) (b := 0) (x := g.val * 8 + 3) (hw.trans (by clear * -; omega)) (d.isLt) (a.isLt) (by decide) (by have b0 := g.isLt; clear * - b0; omega)
  have e0 := hl.1
  have e1 : fld w 0 3 = 3 := (part 0 7 0 3 hl.2.2.2.2 (by decide) (by decide)).trans (by have b0 := g.isLt; clear * - b0; omega)
  have e2 : fld w 6 1 = 0 := (part 0 7 6 1 hl.2.2.2.2 (by decide) (by decide)).trans (by have b0 := g.isLt; clear * - b0; omega)
  have e3 : fld w 7 6 = 0 := hl.2.2.2.1
  have a1 : r6 w 19 = d := Fin.ext (hl.2.1)
  have a2 : r6 w 13 = a := Fin.ext (hl.2.2.1)
  have a3 : r3 w 3 = g := Fin.ext ((part 0 7 3 3 hl.2.2.2.2 (by decide) (by decide)).trans (by have b0 := g.isLt; clear * - b0; omega))
  refine wf_ok (by rw [e0]; decide) ?_ hf
  rw [flat51 w _ e0]; unfold decode51
  simp only [e1, e2, e3, a1, a2, a3, Nat.reduceEqDiff, OfNat.ofNat_ne_zero, OfNat.zero_ne_ofNat, one_ne_zero, zero_ne_one, OfNat.one_ne_ofNat, OfNat.ofNat_ne_one, false_and, and_false, and_self, true_and, and_true, reduceIte]

theorem vredMinF32 (d : Fin 64) (a : Fin 64) (g : Fin 8) : Statement (.vredMinF32 d a g) := by
  intro hf w nx he
  have hw : w = 0xa2000004 + d.val * 524288 + a.val * 8192 + g.val * 8 := one (rfl : encode (.vredMinF32 d a g) = [0xa2000004 + d.val * 524288 + a.val * 8192 + g.val * 8]) he
  have hl := layR (c := 81) (d := d.val) (a := a.val) (b := 0) (x := g.val * 8 + 4) (hw.trans (by clear * -; omega)) (d.isLt) (a.isLt) (by decide) (by have b0 := g.isLt; clear * - b0; omega)
  have e0 := hl.1
  have e1 : fld w 0 3 = 4 := (part 0 7 0 3 hl.2.2.2.2 (by decide) (by decide)).trans (by have b0 := g.isLt; clear * - b0; omega)
  have e2 : fld w 6 1 = 0 := (part 0 7 6 1 hl.2.2.2.2 (by decide) (by decide)).trans (by have b0 := g.isLt; clear * - b0; omega)
  have e3 : fld w 7 6 = 0 := hl.2.2.2.1
  have a1 : r6 w 19 = d := Fin.ext (hl.2.1)
  have a2 : r6 w 13 = a := Fin.ext (hl.2.2.1)
  have a3 : r3 w 3 = g := Fin.ext ((part 0 7 3 3 hl.2.2.2.2 (by decide) (by decide)).trans (by have b0 := g.isLt; clear * - b0; omega))
  refine wf_ok (by rw [e0]; decide) ?_ hf
  rw [flat51 w _ e0]; unfold decode51
  simp only [e1, e2, e3, a1, a2, a3, Nat.reduceEqDiff, OfNat.ofNat_ne_zero, OfNat.zero_ne_ofNat, one_ne_zero, zero_ne_one, OfNat.one_ne_ofNat, OfNat.ofNat_ne_one, false_and, and_false, and_self, true_and, and_true, reduceIte]

theorem vredSumW (d : Fin 64) (a : Fin 64) (g : Fin 8) : Statement (.vredSumW d a g) := by
  intro hf w nx he
  have hw : w = 0xa2000005 + d.val * 524288 + a.val * 8192 + g.val * 8 := one (rfl : encode (.vredSumW d a g) = [0xa2000005 + d.val * 524288 + a.val * 8192 + g.val * 8]) he
  have hl := layR (c := 81) (d := d.val) (a := a.val) (b := 0) (x := g.val * 8 + 5) (hw.trans (by clear * -; omega)) (d.isLt) (a.isLt) (by decide) (by have b0 := g.isLt; clear * - b0; omega)
  have e0 := hl.1
  have e1 : fld w 0 3 = 5 := (part 0 7 0 3 hl.2.2.2.2 (by decide) (by decide)).trans (by have b0 := g.isLt; clear * - b0; omega)
  have e2 : fld w 6 1 = 0 := (part 0 7 6 1 hl.2.2.2.2 (by decide) (by decide)).trans (by have b0 := g.isLt; clear * - b0; omega)
  have e3 : fld w 7 6 = 0 := hl.2.2.2.1
  have a1 : r6 w 19 = d := Fin.ext (hl.2.1)
  have a2 : r6 w 13 = a := Fin.ext (hl.2.2.1)
  have a3 : r3 w 3 = g := Fin.ext ((part 0 7 3 3 hl.2.2.2.2 (by decide) (by decide)).trans (by have b0 := g.isLt; clear * - b0; omega))
  refine wf_ok (by rw [e0]; decide) ?_ hf
  rw [flat51 w _ e0]; unfold decode51
  simp only [e1, e2, e3, a1, a2, a3, Nat.reduceEqDiff, OfNat.ofNat_ne_zero, OfNat.zero_ne_ofNat, one_ne_zero, zero_ne_one, OfNat.one_ne_ofNat, OfNat.ofNat_ne_one, false_and, and_false, and_self, true_and, and_true, reduceIte]

theorem pand (d : Fin 64) (a : Fin 64) (b : Fin 64) : Statement (.pand d a b) := by
  intro hf w nx he
  have hw : w = 0xa4000000 + d.val * 524288 + a.val * 8192 + b.val * 128 := one (rfl : encode (.pand d a b) = [0xa4000000 + d.val * 524288 + a.val * 8192 + b.val * 128]) he
  have hl := layR (c := 82) (d := d.val) (a := a.val) (b := b.val) (x := 0) (hw.trans (by clear * -; omega)) (d.isLt) (a.isLt) (b.isLt) (by decide)
  have e0 := hl.1
  have e1 : fld w 0 7 = 0 := hl.2.2.2.2
  have a1 : r6 w 19 = d := Fin.ext (hl.2.1)
  have a2 : r6 w 13 = a := Fin.ext (hl.2.2.1)
  have a3 : r6 w 7 = b := Fin.ext (hl.2.2.2.1)
  refine wf_ok (by rw [e0]; decide) ?_ hf
  rw [flat52 w _ e0]; unfold decode52
  simp only [e1, a1, a2, a3, Nat.reduceEqDiff, OfNat.ofNat_ne_zero, OfNat.zero_ne_ofNat, one_ne_zero, zero_ne_one, OfNat.one_ne_ofNat, OfNat.ofNat_ne_one, false_and, and_false, and_self, true_and, and_true, reduceIte]

theorem por (d : Fin 64) (a : Fin 64) (b : Fin 64) : Statement (.por d a b) := by
  intro hf w nx he
  have hw : w = 0xa4000001 + d.val * 524288 + a.val * 8192 + b.val * 128 := one (rfl : encode (.por d a b) = [0xa4000001 + d.val * 524288 + a.val * 8192 + b.val * 128]) he
  have hl := layR (c := 82) (d := d.val) (a := a.val) (b := b.val) (x := 1) (hw.trans (by clear * -; omega)) (d.isLt) (a.isLt) (b.isLt) (by decide)
  have e0 := hl.1
  have e1 : fld w 0 7 = 1 := hl.2.2.2.2
  have a1 : r6 w 19 = d := Fin.ext (hl.2.1)
  have a2 : r6 w 13 = a := Fin.ext (hl.2.2.1)
  have a3 : r6 w 7 = b := Fin.ext (hl.2.2.2.1)
  refine wf_ok (by rw [e0]; decide) ?_ hf
  rw [flat52 w _ e0]; unfold decode52
  simp only [e1, a1, a2, a3, Nat.reduceEqDiff, OfNat.ofNat_ne_zero, OfNat.zero_ne_ofNat, one_ne_zero, zero_ne_one, OfNat.one_ne_ofNat, OfNat.ofNat_ne_one, false_and, and_false, and_self, true_and, and_true, reduceIte]

theorem pxor (d : Fin 64) (a : Fin 64) (b : Fin 64) : Statement (.pxor d a b) := by
  intro hf w nx he
  have hw : w = 0xa4000002 + d.val * 524288 + a.val * 8192 + b.val * 128 := one (rfl : encode (.pxor d a b) = [0xa4000002 + d.val * 524288 + a.val * 8192 + b.val * 128]) he
  have hl := layR (c := 82) (d := d.val) (a := a.val) (b := b.val) (x := 2) (hw.trans (by clear * -; omega)) (d.isLt) (a.isLt) (b.isLt) (by decide)
  have e0 := hl.1
  have e1 : fld w 0 7 = 2 := hl.2.2.2.2
  have a1 : r6 w 19 = d := Fin.ext (hl.2.1)
  have a2 : r6 w 13 = a := Fin.ext (hl.2.2.1)
  have a3 : r6 w 7 = b := Fin.ext (hl.2.2.2.1)
  refine wf_ok (by rw [e0]; decide) ?_ hf
  rw [flat52 w _ e0]; unfold decode52
  simp only [e1, a1, a2, a3, Nat.reduceEqDiff, OfNat.ofNat_ne_zero, OfNat.zero_ne_ofNat, one_ne_zero, zero_ne_one, OfNat.one_ne_ofNat, OfNat.ofNat_ne_one, false_and, and_false, and_self, true_and, and_true, reduceIte]

theorem pandn (d : Fin 64) (a : Fin 64) (b : Fin 64) : Statement (.pandn d a b) := by
  intro hf w nx he
  have hw : w = 0xa4000003 + d.val * 524288 + a.val * 8192 + b.val * 128 := one (rfl : encode (.pandn d a b) = [0xa4000003 + d.val * 524288 + a.val * 8192 + b.val * 128]) he
  have hl := layR (c := 82) (d := d.val) (a := a.val) (b := b.val) (x := 3) (hw.trans (by clear * -; omega)) (d.isLt) (a.isLt) (b.isLt) (by decide)
  have e0 := hl.1
  have e1 : fld w 0 7 = 3 := hl.2.2.2.2
  have a1 : r6 w 19 = d := Fin.ext (hl.2.1)
  have a2 : r6 w 13 = a := Fin.ext (hl.2.2.1)
  have a3 : r6 w 7 = b := Fin.ext (hl.2.2.2.1)
  refine wf_ok (by rw [e0]; decide) ?_ hf
  rw [flat52 w _ e0]; unfold decode52
  simp only [e1, a1, a2, a3, Nat.reduceEqDiff, OfNat.ofNat_ne_zero, OfNat.zero_ne_ofNat, one_ne_zero, zero_ne_one, OfNat.one_ne_ofNat, OfNat.ofNat_ne_one, false_and, and_false, and_self, true_and, and_true, reduceIte]

theorem pwhileH (d : Fin 64) (a : Fin 64) : Statement (.pwhileH d a) := by
  intro hf w nx he
  have hw : w = 0xa4000004 + d.val * 524288 + a.val * 8192 := one (rfl : encode (.pwhileH d a) = [0xa4000004 + d.val * 524288 + a.val * 8192]) he
  have hl := layR (c := 82) (d := d.val) (a := a.val) (b := 0) (x := 4) (hw.trans (by clear * -; omega)) (d.isLt) (a.isLt) (by decide) (by decide)
  have e0 := hl.1
  have e1 : fld w 0 7 = 4 := hl.2.2.2.2
  have e2 : fld w 7 6 = 0 := hl.2.2.2.1
  have a1 : r6 w 19 = d := Fin.ext (hl.2.1)
  have a2 : r6 w 13 = a := Fin.ext (hl.2.2.1)
  refine wf_ok (by rw [e0]; decide) ?_ hf
  rw [flat52 w _ e0]; unfold decode52
  simp only [e1, e2, a1, a2, Nat.reduceEqDiff, OfNat.ofNat_ne_zero, OfNat.zero_ne_ofNat, one_ne_zero, zero_ne_one, OfNat.one_ne_ofNat, OfNat.ofNat_ne_one, false_and, and_false, and_self, true_and, and_true, reduceIte]

theorem pwhileW (d : Fin 64) (a : Fin 64) : Statement (.pwhileW d a) := by
  intro hf w nx he
  have hw : w = 0xa4000005 + d.val * 524288 + a.val * 8192 := one (rfl : encode (.pwhileW d a) = [0xa4000005 + d.val * 524288 + a.val * 8192]) he
  have hl := layR (c := 82) (d := d.val) (a := a.val) (b := 0) (x := 5) (hw.trans (by clear * -; omega)) (d.isLt) (a.isLt) (by decide) (by decide)
  have e0 := hl.1
  have e1 : fld w 0 7 = 5 := hl.2.2.2.2
  have e2 : fld w 7 6 = 0 := hl.2.2.2.1
  have a1 : r6 w 19 = d := Fin.ext (hl.2.1)
  have a2 : r6 w 13 = a := Fin.ext (hl.2.2.1)
  refine wf_ok (by rw [e0]; decide) ?_ hf
  rw [flat52 w _ e0]; unfold decode52
  simp only [e1, e2, a1, a2, Nat.reduceEqDiff, OfNat.ofNat_ne_zero, OfNat.zero_ne_ofNat, one_ne_zero, zero_ne_one, OfNat.one_ne_ofNat, OfNat.ofNat_ne_one, false_and, and_false, and_self, true_and, and_true, reduceIte]

theorem pmov (d : Fin 64) (a : Fin 64) : Statement (.pmov d a) := by
  intro hf w nx he
  have hw : w = 0xa4000006 + d.val * 524288 + a.val * 8192 := one (rfl : encode (.pmov d a) = [0xa4000006 + d.val * 524288 + a.val * 8192]) he
  have hl := layR (c := 82) (d := d.val) (a := a.val) (b := 0) (x := 6) (hw.trans (by clear * -; omega)) (d.isLt) (a.isLt) (by decide) (by decide)
  have e0 := hl.1
  have e1 : fld w 0 7 = 6 := hl.2.2.2.2
  have e2 : fld w 7 6 = 0 := hl.2.2.2.1
  have a1 : r6 w 19 = d := Fin.ext (hl.2.1)
  have a2 : r6 w 13 = a := Fin.ext (hl.2.2.1)
  refine wf_ok (by rw [e0]; decide) ?_ hf
  rw [flat52 w _ e0]; unfold decode52
  simp only [e1, e2, a1, a2, Nat.reduceEqDiff, OfNat.ofNat_ne_zero, OfNat.zero_ne_ofNat, one_ne_zero, zero_ne_one, OfNat.one_ne_ofNat, OfNat.ofNat_ne_one, false_and, and_false, and_self, true_and, and_true, reduceIte]

theorem pget (d : Fin 64) (a : Fin 64) : Statement (.pget d a) := by
  intro hf w nx he
  have hw : w = 0xa4000007 + d.val * 524288 + a.val * 8192 := one (rfl : encode (.pget d a) = [0xa4000007 + d.val * 524288 + a.val * 8192]) he
  have hl := layR (c := 82) (d := d.val) (a := a.val) (b := 0) (x := 7) (hw.trans (by clear * -; omega)) (d.isLt) (a.isLt) (by decide) (by decide)
  have e0 := hl.1
  have e1 : fld w 0 7 = 7 := hl.2.2.2.2
  have e2 : fld w 7 6 = 0 := hl.2.2.2.1
  have a1 : r6 w 19 = d := Fin.ext (hl.2.1)
  have a2 : r6 w 13 = a := Fin.ext (hl.2.2.1)
  refine wf_ok (by rw [e0]; decide) ?_ hf
  rw [flat52 w _ e0]; unfold decode52
  simp only [e1, e2, a1, a2, Nat.reduceEqDiff, OfNat.ofNat_ne_zero, OfNat.zero_ne_ofNat, one_ne_zero, zero_ne_one, OfNat.one_ne_ofNat, OfNat.ofNat_ne_one, false_and, and_false, and_self, true_and, and_true, reduceIte]

theorem vld (d : Fin 64) (a : Fin 64) (b : BOp) (g : Fin 8) : Statement (.vld d a b g) := by
  intro hf w nx he
  cases b with
  | reg r =>
    have hw : w = 0xa6000000 + d.val * 524288 + a.val * 8192 + r.val * 128 + g.val * 8 := one (rfl : encode (.vld d a (.reg r) g) = [0xa6000000 + d.val * 524288 + a.val * 8192 + r.val * 128 + g.val * 8]) he
    have hl := layR (c := 83) (d := d.val) (a := a.val) (b := r.val) (x := g.val * 8) (hw.trans (by clear * -; omega)) (d.isLt) (a.isLt) (r.isLt) (by have b0 := g.isLt; clear * - b0; omega)
    have e0 := hl.1
    have e1 : fld w 0 3 = 0 := (part 0 7 0 3 hl.2.2.2.2 (by decide) (by decide)).trans (by have b0 := g.isLt; clear * - b0; omega)
    have e2 : fld w 6 1 = 0 := (part 0 7 6 1 hl.2.2.2.2 (by decide) (by decide)).trans (by have b0 := g.isLt; clear * - b0; omega)
    have a1 : r6 w 19 = d := Fin.ext (hl.2.1)
    have a2 : r6 w 13 = a := Fin.ext (hl.2.2.1)
    have a3 : r6 w 7 = r := Fin.ext (hl.2.2.2.1)
    have a4 : r3 w 3 = g := Fin.ext ((part 0 7 3 3 hl.2.2.2.2 (by decide) (by decide)).trans (by have b0 := g.isLt; clear * - b0; omega))
    refine wf_ok (by rw [e0]; decide) ?_ hf
    rw [flat53 w _ e0]; unfold decode53
    simp only [e1, e2, a1, a2, a3, a4, Nat.reduceEqDiff, OfNat.ofNat_ne_zero, OfNat.zero_ne_ofNat, one_ne_zero, zero_ne_one, OfNat.one_ne_ofNat, OfNat.ofNat_ne_one, false_and, and_false, and_self, true_and, and_true, reduceIte]
  | konst k =>
    have hx : w = 0xa6000000 + d.val * 524288 + a.val * 8192 + 64 + g.val * 8 ∧ nx = k.word := two (rfl : encode (.vld d a (.konst k) g) = [0xa6000000 + d.val * 524288 + a.val * 8192 + 64 + g.val * 8, k.word]) he
    rw [hx.2]; replace hw := hx.1
    have hl := layR (c := 83) (d := d.val) (a := a.val) (b := 0) (x := g.val * 8 + 64) (hw.trans (by clear * -; omega)) (d.isLt) (a.isLt) (by decide) (by have b0 := g.isLt; clear * - b0; omega)
    have e0 := hl.1
    have e1 : fld w 0 3 = 0 := (part 0 7 0 3 hl.2.2.2.2 (by decide) (by decide)).trans (by have b0 := g.isLt; clear * - b0; omega)
    have e2 : fld w 6 1 = 1 := (part 0 7 6 1 hl.2.2.2.2 (by decide) (by decide)).trans (by have b0 := g.isLt; clear * - b0; omega)
    have e3 : fld w 7 6 = 0 := hl.2.2.2.1
    have a1 : r6 w 19 = d := Fin.ext (hl.2.1)
    have a2 : r6 w 13 = a := Fin.ext (hl.2.2.1)
    have a3 : r3 w 3 = g := Fin.ext ((part 0 7 3 3 hl.2.2.2.2 (by decide) (by decide)).trans (by have b0 := g.isLt; clear * - b0; omega))
    refine wf_ok (by rw [e0]; decide) ?_ hf
    rw [flat53 w _ e0]; unfold decode53
    simp only [e1, e2, e3, a1, a2, (kref_word k).1, a3, Nat.reduceEqDiff, OfNat.ofNat_ne_zero, OfNat.zero_ne_ofNat, one_ne_zero, zero_ne_one, OfNat.one_ne_ofNat, OfNat.ofNat_ne_one, false_and, and_false, and_self, true_and, and_true, reduceIte, (kref_word k).2]

theorem vst (d : Fin 64) (a : Fin 64) (b : BOp) (g : Fin 8) : Statement (.vst d a b g) := by
  intro hf w nx he
  cases b with
  | reg r =>
    have hw : w = 0xa6000001 + d.val * 524288 + a.val * 8192 + r.val * 128 + g.val * 8 := one (rfl : encode (.vst d a (.reg r) g) = [0xa6000001 + d.val * 524288 + a.val * 8192 + r.val * 128 + g.val * 8]) he
    have hl := layR (c := 83) (d := d.val) (a := a.val) (b := r.val) (x := g.val * 8 + 1) (hw.trans (by clear * -; omega)) (d.isLt) (a.isLt) (r.isLt) (by have b0 := g.isLt; clear * - b0; omega)
    have e0 := hl.1
    have e1 : fld w 0 3 = 1 := (part 0 7 0 3 hl.2.2.2.2 (by decide) (by decide)).trans (by have b0 := g.isLt; clear * - b0; omega)
    have e2 : fld w 6 1 = 0 := (part 0 7 6 1 hl.2.2.2.2 (by decide) (by decide)).trans (by have b0 := g.isLt; clear * - b0; omega)
    have a1 : r6 w 19 = d := Fin.ext (hl.2.1)
    have a2 : r6 w 13 = a := Fin.ext (hl.2.2.1)
    have a3 : r6 w 7 = r := Fin.ext (hl.2.2.2.1)
    have a4 : r3 w 3 = g := Fin.ext ((part 0 7 3 3 hl.2.2.2.2 (by decide) (by decide)).trans (by have b0 := g.isLt; clear * - b0; omega))
    refine wf_ok (by rw [e0]; decide) ?_ hf
    rw [flat53 w _ e0]; unfold decode53
    simp only [e1, e2, a1, a2, a3, a4, Nat.reduceEqDiff, OfNat.ofNat_ne_zero, OfNat.zero_ne_ofNat, one_ne_zero, zero_ne_one, OfNat.one_ne_ofNat, OfNat.ofNat_ne_one, false_and, and_false, and_self, true_and, and_true, reduceIte]
  | konst k =>
    have hx : w = 0xa6000001 + d.val * 524288 + a.val * 8192 + 64 + g.val * 8 ∧ nx = k.word := two (rfl : encode (.vst d a (.konst k) g) = [0xa6000001 + d.val * 524288 + a.val * 8192 + 64 + g.val * 8, k.word]) he
    rw [hx.2]; replace hw := hx.1
    have hl := layR (c := 83) (d := d.val) (a := a.val) (b := 0) (x := g.val * 8 + 65) (hw.trans (by clear * -; omega)) (d.isLt) (a.isLt) (by decide) (by have b0 := g.isLt; clear * - b0; omega)
    have e0 := hl.1
    have e1 : fld w 0 3 = 1 := (part 0 7 0 3 hl.2.2.2.2 (by decide) (by decide)).trans (by have b0 := g.isLt; clear * - b0; omega)
    have e2 : fld w 6 1 = 1 := (part 0 7 6 1 hl.2.2.2.2 (by decide) (by decide)).trans (by have b0 := g.isLt; clear * - b0; omega)
    have e3 : fld w 7 6 = 0 := hl.2.2.2.1
    have a1 : r6 w 19 = d := Fin.ext (hl.2.1)
    have a2 : r6 w 13 = a := Fin.ext (hl.2.2.1)
    have a3 : r3 w 3 = g := Fin.ext ((part 0 7 3 3 hl.2.2.2.2 (by decide) (by decide)).trans (by have b0 := g.isLt; clear * - b0; omega))
    refine wf_ok (by rw [e0]; decide) ?_ hf
    rw [flat53 w _ e0]; unfold decode53
    simp only [e1, e2, e3, a1, a2, (kref_word k).1, a3, Nat.reduceEqDiff, OfNat.ofNat_ne_zero, OfNat.zero_ne_ofNat, one_ne_zero, zero_ne_one, OfNat.one_ne_ofNat, OfNat.ofNat_ne_one, false_and, and_false, and_self, true_and, and_true, reduceIte, (kref_word k).2]

theorem vldBcW (d : Fin 64) (a : Fin 64) (b : BOp) (g : Fin 8) : Statement (.vldBcW d a b g) := by
  intro hf w nx he
  cases b with
  | reg r =>
    have hw : w = 0xa6000002 + d.val * 524288 + a.val * 8192 + r.val * 128 + g.val * 8 := one (rfl : encode (.vldBcW d a (.reg r) g) = [0xa6000002 + d.val * 524288 + a.val * 8192 + r.val * 128 + g.val * 8]) he
    have hl := layR (c := 83) (d := d.val) (a := a.val) (b := r.val) (x := g.val * 8 + 2) (hw.trans (by clear * -; omega)) (d.isLt) (a.isLt) (r.isLt) (by have b0 := g.isLt; clear * - b0; omega)
    have e0 := hl.1
    have e1 : fld w 0 3 = 2 := (part 0 7 0 3 hl.2.2.2.2 (by decide) (by decide)).trans (by have b0 := g.isLt; clear * - b0; omega)
    have e2 : fld w 6 1 = 0 := (part 0 7 6 1 hl.2.2.2.2 (by decide) (by decide)).trans (by have b0 := g.isLt; clear * - b0; omega)
    have a1 : r6 w 19 = d := Fin.ext (hl.2.1)
    have a2 : r6 w 13 = a := Fin.ext (hl.2.2.1)
    have a3 : r6 w 7 = r := Fin.ext (hl.2.2.2.1)
    have a4 : r3 w 3 = g := Fin.ext ((part 0 7 3 3 hl.2.2.2.2 (by decide) (by decide)).trans (by have b0 := g.isLt; clear * - b0; omega))
    refine wf_ok (by rw [e0]; decide) ?_ hf
    rw [flat53 w _ e0]; unfold decode53
    simp only [e1, e2, a1, a2, a3, a4, Nat.reduceEqDiff, OfNat.ofNat_ne_zero, OfNat.zero_ne_ofNat, one_ne_zero, zero_ne_one, OfNat.one_ne_ofNat, OfNat.ofNat_ne_one, false_and, and_false, and_self, true_and, and_true, reduceIte]
  | konst k =>
    have hx : w = 0xa6000002 + d.val * 524288 + a.val * 8192 + 64 + g.val * 8 ∧ nx = k.word := two (rfl : encode (.vldBcW d a (.konst k) g) = [0xa6000002 + d.val * 524288 + a.val * 8192 + 64 + g.val * 8, k.word]) he
    rw [hx.2]; replace hw := hx.1
    have hl := layR (c := 83) (d := d.val) (a := a.val) (b := 0) (x := g.val * 8 + 66) (hw.trans (by clear * -; omega)) (d.isLt) (a.isLt) (by decide) (by have b0 := g.isLt; clear * - b0; omega)
    have e0 := hl.1
    have e1 : fld w 0 3 = 2 := (part 0 7 0 3 hl.2.2.2.2 (by decide) (by decide)).trans (by have b0 := g.isLt; clear * - b0; omega)
    have e2 : fld w 6 1 = 1 := (part 0 7 6 1 hl.2.2.2.2 (by decide) (by decide)).trans (by have b0 := g.isLt; clear * - b0; omega)
    have e3 : fld w 7 6 = 0 := hl.2.2.2.1
    have a1 : r6 w 19 = d := Fin.ext (hl.2.1)
    have a2 : r6 w 13 = a := Fin.ext (hl.2.2.1)
    have a3 : r3 w 3 = g := Fin.ext ((part 0 7 3 3 hl.2.2.2.2 (by decide) (by decide)).trans (by have b0 := g.isLt; clear * - b0; omega))
    refine wf_ok (by rw [e0]; decide) ?_ hf
    rw [flat53 w _ e0]; unfold decode53
    simp only [e1, e2, e3, a1, a2, (kref_word k).1, a3, Nat.reduceEqDiff, OfNat.ofNat_ne_zero, OfNat.zero_ne_ofNat, one_ne_zero, zero_ne_one, OfNat.one_ne_ofNat, OfNat.ofNat_ne_one, false_and, and_false, and_self, true_and, and_true, reduceIte, (kref_word k).2]

theorem vldBcH (d : Fin 64) (a : Fin 64) (b : BOp) (g : Fin 8) : Statement (.vldBcH d a b g) := by
  intro hf w nx he
  cases b with
  | reg r =>
    have hw : w = 0xa6000003 + d.val * 524288 + a.val * 8192 + r.val * 128 + g.val * 8 := one (rfl : encode (.vldBcH d a (.reg r) g) = [0xa6000003 + d.val * 524288 + a.val * 8192 + r.val * 128 + g.val * 8]) he
    have hl := layR (c := 83) (d := d.val) (a := a.val) (b := r.val) (x := g.val * 8 + 3) (hw.trans (by clear * -; omega)) (d.isLt) (a.isLt) (r.isLt) (by have b0 := g.isLt; clear * - b0; omega)
    have e0 := hl.1
    have e1 : fld w 0 3 = 3 := (part 0 7 0 3 hl.2.2.2.2 (by decide) (by decide)).trans (by have b0 := g.isLt; clear * - b0; omega)
    have e2 : fld w 6 1 = 0 := (part 0 7 6 1 hl.2.2.2.2 (by decide) (by decide)).trans (by have b0 := g.isLt; clear * - b0; omega)
    have a1 : r6 w 19 = d := Fin.ext (hl.2.1)
    have a2 : r6 w 13 = a := Fin.ext (hl.2.2.1)
    have a3 : r6 w 7 = r := Fin.ext (hl.2.2.2.1)
    have a4 : r3 w 3 = g := Fin.ext ((part 0 7 3 3 hl.2.2.2.2 (by decide) (by decide)).trans (by have b0 := g.isLt; clear * - b0; omega))
    refine wf_ok (by rw [e0]; decide) ?_ hf
    rw [flat53 w _ e0]; unfold decode53
    simp only [e1, e2, a1, a2, a3, a4, Nat.reduceEqDiff, OfNat.ofNat_ne_zero, OfNat.zero_ne_ofNat, one_ne_zero, zero_ne_one, OfNat.one_ne_ofNat, OfNat.ofNat_ne_one, false_and, and_false, and_self, true_and, and_true, reduceIte]
  | konst k =>
    have hx : w = 0xa6000003 + d.val * 524288 + a.val * 8192 + 64 + g.val * 8 ∧ nx = k.word := two (rfl : encode (.vldBcH d a (.konst k) g) = [0xa6000003 + d.val * 524288 + a.val * 8192 + 64 + g.val * 8, k.word]) he
    rw [hx.2]; replace hw := hx.1
    have hl := layR (c := 83) (d := d.val) (a := a.val) (b := 0) (x := g.val * 8 + 67) (hw.trans (by clear * -; omega)) (d.isLt) (a.isLt) (by decide) (by have b0 := g.isLt; clear * - b0; omega)
    have e0 := hl.1
    have e1 : fld w 0 3 = 3 := (part 0 7 0 3 hl.2.2.2.2 (by decide) (by decide)).trans (by have b0 := g.isLt; clear * - b0; omega)
    have e2 : fld w 6 1 = 1 := (part 0 7 6 1 hl.2.2.2.2 (by decide) (by decide)).trans (by have b0 := g.isLt; clear * - b0; omega)
    have e3 : fld w 7 6 = 0 := hl.2.2.2.1
    have a1 : r6 w 19 = d := Fin.ext (hl.2.1)
    have a2 : r6 w 13 = a := Fin.ext (hl.2.2.1)
    have a3 : r3 w 3 = g := Fin.ext ((part 0 7 3 3 hl.2.2.2.2 (by decide) (by decide)).trans (by have b0 := g.isLt; clear * - b0; omega))
    refine wf_ok (by rw [e0]; decide) ?_ hf
    rw [flat53 w _ e0]; unfold decode53
    simp only [e1, e2, e3, a1, a2, (kref_word k).1, a3, Nat.reduceEqDiff, OfNat.ofNat_ne_zero, OfNat.zero_ne_ofNat, one_ne_zero, zero_ne_one, OfNat.one_ne_ofNat, OfNat.ofNat_ne_one, false_and, and_false, and_self, true_and, and_true, reduceIte, (kref_word k).2]

theorem mmac (a : Fin 64) (b : Fin 64) (t : Fin 4) (z : Fin 4) : Statement (.mmac a b t z) := by
  intro hf w nx he
  have hw : w = 0xc0000000 + a.val * 8192 + b.val * 128 + t.val * 16 + z.val := one (rfl : encode (.mmac a b t z) = [0xc0000000 + a.val * 8192 + b.val * 128 + t.val * 16 + z.val]) he
  have hl := layR (c := 96) (d := 0) (a := a.val) (b := b.val) (x := t.val * 16 + z.val) (hw.trans (by clear * -; omega)) (by decide) (a.isLt) (b.isLt) (by have b0 := t.isLt; have b1 := z.isLt; clear * - b0 b1; omega)
  have e0 := hl.1
  have e1 : fld w 2 2 = 0 := (part 0 7 2 2 hl.2.2.2.2 (by decide) (by decide)).trans (by have b0 := t.isLt; have b1 := z.isLt; clear * - b0 b1; omega)
  have e2 : fld w 6 1 = 0 := (part 0 7 6 1 hl.2.2.2.2 (by decide) (by decide)).trans (by have b0 := t.isLt; have b1 := z.isLt; clear * - b0 b1; omega)
  have e3 : fld w 19 6 = 0 := hl.2.1
  have a1 : r6 w 13 = a := Fin.ext (hl.2.2.1)
  have a2 : r6 w 7 = b := Fin.ext (hl.2.2.2.1)
  have a3 : r2 w 4 = t := Fin.ext ((part 0 7 4 2 hl.2.2.2.2 (by decide) (by decide)).trans (by have b0 := t.isLt; have b1 := z.isLt; clear * - b0 b1; omega))
  have a4 : r2 w 0 = z := Fin.ext ((part 0 7 0 2 hl.2.2.2.2 (by decide) (by decide)).trans (by have b0 := t.isLt; have b1 := z.isLt; clear * - b0 b1; omega))
  refine wf_ok (by rw [e0]; decide) ?_ hf
  rw [flat60 w _ e0]; unfold decode60
  simp only [e1, e2, e3, a1, a2, a3, a4, Nat.reduceEqDiff, OfNat.ofNat_ne_zero, OfNat.zero_ne_ofNat, one_ne_zero, zero_ne_one, OfNat.one_ne_ofNat, OfNat.ofNat_ne_one, false_and, and_false, and_self, true_and, and_true, reduceIte]

theorem mmacS (d : Fin 64) (a : Fin 64) (b : Fin 64) (t : Fin 4) (z : Fin 4) : Statement (.mmacS d a b t z) := by
  intro hf w nx he
  have hw : w = 0xc0000004 + d.val * 524288 + a.val * 8192 + b.val * 128 + t.val * 16 + z.val := one (rfl : encode (.mmacS d a b t z) = [0xc0000004 + d.val * 524288 + a.val * 8192 + b.val * 128 + t.val * 16 + z.val]) he
  have hl := layR (c := 96) (d := d.val) (a := a.val) (b := b.val) (x := t.val * 16 + z.val + 4) (hw.trans (by clear * -; omega)) (d.isLt) (a.isLt) (b.isLt) (by have b0 := t.isLt; have b1 := z.isLt; clear * - b0 b1; omega)
  have e0 := hl.1
  have e1 : fld w 2 2 = 1 := (part 0 7 2 2 hl.2.2.2.2 (by decide) (by decide)).trans (by have b0 := t.isLt; have b1 := z.isLt; clear * - b0 b1; omega)
  have e2 : fld w 6 1 = 0 := (part 0 7 6 1 hl.2.2.2.2 (by decide) (by decide)).trans (by have b0 := t.isLt; have b1 := z.isLt; clear * - b0 b1; omega)
  have a1 : r6 w 19 = d := Fin.ext (hl.2.1)
  have a2 : r6 w 13 = a := Fin.ext (hl.2.2.1)
  have a3 : r6 w 7 = b := Fin.ext (hl.2.2.2.1)
  have a4 : r2 w 4 = t := Fin.ext ((part 0 7 4 2 hl.2.2.2.2 (by decide) (by decide)).trans (by have b0 := t.isLt; have b1 := z.isLt; clear * - b0 b1; omega))
  have a5 : r2 w 0 = z := Fin.ext ((part 0 7 0 2 hl.2.2.2.2 (by decide) (by decide)).trans (by have b0 := t.isLt; have b1 := z.isLt; clear * - b0 b1; omega))
  refine wf_ok (by rw [e0]; decide) ?_ hf
  rw [flat60 w _ e0]; unfold decode60
  simp only [e1, e2, a1, a2, a3, a4, a5, Nat.reduceEqDiff, OfNat.ofNat_ne_zero, OfNat.zero_ne_ofNat, one_ne_zero, zero_ne_one, OfNat.one_ne_ofNat, OfNat.ofNat_ne_one, false_and, and_false, and_self, true_and, and_true, reduceIte]

theorem mmacSs (d : Fin 64) (a : Fin 64) (b : Fin 64) (t : Fin 4) (z : Fin 4) : Statement (.mmacSs d a b t z) := by
  intro hf w nx he
  have hw : w = 0xc0000008 + d.val * 524288 + a.val * 8192 + b.val * 128 + t.val * 16 + z.val := one (rfl : encode (.mmacSs d a b t z) = [0xc0000008 + d.val * 524288 + a.val * 8192 + b.val * 128 + t.val * 16 + z.val]) he
  have hl := layR (c := 96) (d := d.val) (a := a.val) (b := b.val) (x := t.val * 16 + z.val + 8) (hw.trans (by clear * -; omega)) (d.isLt) (a.isLt) (b.isLt) (by have b0 := t.isLt; have b1 := z.isLt; clear * - b0 b1; omega)
  have e0 := hl.1
  have e1 : fld w 2 2 = 2 := (part 0 7 2 2 hl.2.2.2.2 (by decide) (by decide)).trans (by have b0 := t.isLt; have b1 := z.isLt; clear * - b0 b1; omega)
  have e2 : fld w 6 1 = 0 := (part 0 7 6 1 hl.2.2.2.2 (by decide) (by decide)).trans (by have b0 := t.isLt; have b1 := z.isLt; clear * - b0 b1; omega)
  have a1 : r6 w 19 = d := Fin.ext (hl.2.1)
  have a2 : r6 w 13 = a := Fin.ext (hl.2.2.1)
  have a3 : r6 w 7 = b := Fin.ext (hl.2.2.2.1)
  have a4 : r2 w 4 = t := Fin.ext ((part 0 7 4 2 hl.2.2.2.2 (by decide) (by decide)).trans (by have b0 := t.isLt; have b1 := z.isLt; clear * - b0 b1; omega))
  have a5 : r2 w 0 = z := Fin.ext ((part 0 7 0 2 hl.2.2.2.2 (by decide) (by decide)).trans (by have b0 := t.isLt; have b1 := z.isLt; clear * - b0 b1; omega))
  refine wf_ok (by rw [e0]; decide) ?_ hf
  rw [flat60 w _ e0]; unfold decode60
  simp only [e1, e2, a1, a2, a3, a4, a5, Nat.reduceEqDiff, OfNat.ofNat_ne_zero, OfNat.zero_ne_ofNat, one_ne_zero, zero_ne_one, OfNat.one_ne_ofNat, OfNat.ofNat_ne_one, false_and, and_false, and_self, true_and, and_true, reduceIte]

theorem mmacTri (a : Fin 64) (b : Fin 64) (t : Fin 4) (z : Fin 4) : Statement (.mmacTri a b t z) := by
  intro hf w nx he
  have hw : w = 0xc2000000 + a.val * 8192 + b.val * 128 + t.val * 16 + z.val := one (rfl : encode (.mmacTri a b t z) = [0xc2000000 + a.val * 8192 + b.val * 128 + t.val * 16 + z.val]) he
  have hl := layR (c := 97) (d := 0) (a := a.val) (b := b.val) (x := t.val * 16 + z.val) (hw.trans (by clear * -; omega)) (by decide) (a.isLt) (b.isLt) (by have b0 := t.isLt; have b1 := z.isLt; clear * - b0 b1; omega)
  have e0 := hl.1
  have e1 : fld w 2 2 = 0 := (part 0 7 2 2 hl.2.2.2.2 (by decide) (by decide)).trans (by have b0 := t.isLt; have b1 := z.isLt; clear * - b0 b1; omega)
  have e2 : fld w 6 1 = 0 := (part 0 7 6 1 hl.2.2.2.2 (by decide) (by decide)).trans (by have b0 := t.isLt; have b1 := z.isLt; clear * - b0 b1; omega)
  have e3 : fld w 19 6 = 0 := hl.2.1
  have a1 : r6 w 13 = a := Fin.ext (hl.2.2.1)
  have a2 : r6 w 7 = b := Fin.ext (hl.2.2.2.1)
  have a3 : r2 w 4 = t := Fin.ext ((part 0 7 4 2 hl.2.2.2.2 (by decide) (by decide)).trans (by have b0 := t.isLt; have b1 := z.isLt; clear * - b0 b1; omega))
  have a4 : r2 w 0 = z := Fin.ext ((part 0 7 0 2 hl.2.2.2.2 (by decide) (by decide)).trans (by have b0 := t.isLt; have b1 := z.isLt; clear * - b0 b1; omega))
  refine wf_ok (by rw [e0]; decide) ?_ hf
  rw [flat61 w _ e0]; unfold decode61
  simp only [e1, e2, e3, a1, a2, a3, a4, Nat.reduceEqDiff, OfNat.ofNat_ne_zero, OfNat.zero_ne_ofNat, one_ne_zero, zero_ne_one, OfNat.one_ne_ofNat, OfNat.ofNat_ne_one, false_and, and_false, and_self, true_and, and_true, reduceIte]

theorem mgrp (d : Fin 64) (a : Fin 64) (b : Fin 64) (t : Fin 4) (z : Fin 4) : Statement (.mgrp d a b t z) := by
  intro hf w nx he
  have hw : w = 0xc4000000 + d.val * 524288 + a.val * 8192 + b.val * 128 + t.val * 16 + z.val := one (rfl : encode (.mgrp d a b t z) = [0xc4000000 + d.val * 524288 + a.val * 8192 + b.val * 128 + t.val * 16 + z.val]) he
  have hl := layR (c := 98) (d := d.val) (a := a.val) (b := b.val) (x := t.val * 16 + z.val) (hw.trans (by clear * -; omega)) (d.isLt) (a.isLt) (b.isLt) (by have b0 := t.isLt; have b1 := z.isLt; clear * - b0 b1; omega)
  have e0 := hl.1
  have e1 : fld w 2 2 = 0 := (part 0 7 2 2 hl.2.2.2.2 (by decide) (by decide)).trans (by have b0 := t.isLt; have b1 := z.isLt; clear * - b0 b1; omega)
  have e2 : fld w 6 1 = 0 := (part 0 7 6 1 hl.2.2.2.2 (by decide) (by decide)).trans (by have b0 := t.isLt; have b1 := z.isLt; clear * - b0 b1; omega)
  have a1 : r6 w 19 = d := Fin.ext (hl.2.1)
  have a2 : r6 w 13 = a := Fin.ext (hl.2.2.1)
  have a3 : r6 w 7 = b := Fin.ext (hl.2.2.2.1)
  have a4 : r2 w 4 = t := Fin.ext ((part 0 7 4 2 hl.2.2.2.2 (by decide) (by decide)).trans (by have b0 := t.isLt; have b1 := z.isLt; clear * - b0 b1; omega))
  have a5 : r2 w 0 = z := Fin.ext ((part 0 7 0 2 hl.2.2.2.2 (by decide) (by decide)).trans (by have b0 := t.isLt; have b1 := z.isLt; clear * - b0 b1; omega))
  refine wf_ok (by rw [e0]; decide) ?_ hf
  rw [flat62 w _ e0]; unfold decode62
  simp only [e1, e2, a1, a2, a3, a4, a5, Nat.reduceEqDiff, OfNat.ofNat_ne_zero, OfNat.zero_ne_ofNat, one_ne_zero, zero_ne_one, OfNat.one_ne_ofNat, OfNat.ofNat_ne_one, false_and, and_false, and_self, true_and, and_true, reduceIte]

theorem zclr (a : Fin 64) (z : Fin 4) : Statement (.zclr a z) := by
  intro hf w nx he
  have hw : w = 0xc6000000 + a.val * 8192 + z.val := one (rfl : encode (.zclr a z) = [0xc6000000 + a.val * 8192 + z.val]) he
  have hl := layR (c := 99) (d := 0) (a := a.val) (b := 0) (x := z.val) (hw.trans (by clear * -; omega)) (by decide) (a.isLt) (by decide) (by have b0 := z.isLt; clear * - b0; omega)
  have e0 := hl.1
  have e1 : fld w 2 5 = 0 := (part 0 7 2 5 hl.2.2.2.2 (by decide) (by decide)).trans (by have b0 := z.isLt; clear * - b0; omega)
  have e2 : fld w 7 6 = 0 := hl.2.2.2.1
  have e3 : fld w 19 6 = 0 := hl.2.1
  have a1 : r6 w 13 = a := Fin.ext (hl.2.2.1)
  have a2 : r2 w 0 = z := Fin.ext ((part 0 7 0 2 hl.2.2.2.2 (by decide) (by decide)).trans (by have b0 := z.isLt; clear * - b0; omega))
  refine wf_ok (by rw [e0]; decide) ?_ hf
  rw [flat63 w _ e0]; unfold decode63
  simp only [e1, e2, e3, a1, a2, Nat.reduceEqDiff, OfNat.ofNat_ne_zero, OfNat.zero_ne_ofNat, one_ne_zero, zero_ne_one, OfNat.one_ne_ofNat, OfNat.ofNat_ne_one, false_and, and_false, and_self, true_and, and_true, reduceIte]

theorem zanchor (a : Fin 64) (z : Fin 4) : Statement (.zanchor a z) := by
  intro hf w nx he
  have hw : w = 0xc6000004 + a.val * 8192 + z.val := one (rfl : encode (.zanchor a z) = [0xc6000004 + a.val * 8192 + z.val]) he
  have hl := layR (c := 99) (d := 0) (a := a.val) (b := 0) (x := z.val + 4) (hw.trans (by clear * -; omega)) (by decide) (a.isLt) (by decide) (by have b0 := z.isLt; clear * - b0; omega)
  have e0 := hl.1
  have e1 : fld w 2 5 = 1 := (part 0 7 2 5 hl.2.2.2.2 (by decide) (by decide)).trans (by have b0 := z.isLt; clear * - b0; omega)
  have e2 : fld w 7 6 = 0 := hl.2.2.2.1
  have e3 : fld w 19 6 = 0 := hl.2.1
  have a1 : r6 w 13 = a := Fin.ext (hl.2.2.1)
  have a2 : r2 w 0 = z := Fin.ext ((part 0 7 0 2 hl.2.2.2.2 (by decide) (by decide)).trans (by have b0 := z.isLt; clear * - b0; omega))
  refine wf_ok (by rw [e0]; decide) ?_ hf
  rw [flat63 w _ e0]; unfold decode63
  simp only [e1, e2, e3, a1, a2, Nat.reduceEqDiff, OfNat.ofNat_ne_zero, OfNat.zero_ne_ofNat, one_ne_zero, zero_ne_one, OfNat.one_ne_ofNat, OfNat.ofNat_ne_one, false_and, and_false, and_self, true_and, and_true, reduceIte]

theorem zfit (a : Fin 64) (z : Fin 4) : Statement (.zfit a z) := by
  intro hf w nx he
  have hw : w = 0xc6000008 + a.val * 8192 + z.val := one (rfl : encode (.zfit a z) = [0xc6000008 + a.val * 8192 + z.val]) he
  have hl := layR (c := 99) (d := 0) (a := a.val) (b := 0) (x := z.val + 8) (hw.trans (by clear * -; omega)) (by decide) (a.isLt) (by decide) (by have b0 := z.isLt; clear * - b0; omega)
  have e0 := hl.1
  have e1 : fld w 2 5 = 2 := (part 0 7 2 5 hl.2.2.2.2 (by decide) (by decide)).trans (by have b0 := z.isLt; clear * - b0; omega)
  have e2 : fld w 7 6 = 0 := hl.2.2.2.1
  have e3 : fld w 19 6 = 0 := hl.2.1
  have a1 : r6 w 13 = a := Fin.ext (hl.2.2.1)
  have a2 : r2 w 0 = z := Fin.ext ((part 0 7 0 2 hl.2.2.2.2 (by decide) (by decide)).trans (by have b0 := z.isLt; clear * - b0; omega))
  refine wf_ok (by rw [e0]; decide) ?_ hf
  rw [flat63 w _ e0]; unfold decode63
  simp only [e1, e2, e3, a1, a2, Nat.reduceEqDiff, OfNat.ofNat_ne_zero, OfNat.zero_ne_ofNat, one_ne_zero, zero_ne_one, OfNat.one_ne_ofNat, OfNat.ofNat_ne_one, false_and, and_false, and_self, true_and, and_true, reduceIte]

theorem zread (a : Fin 64) (b : Fin 64) (f : Fin 2) (z : Fin 4) : Statement (.zread a b f z) := by
  intro hf w nx he
  have hw : w = 0xc8000000 + a.val * 8192 + b.val * 128 + f.val * 16 + z.val := one (rfl : encode (.zread a b f z) = [0xc8000000 + a.val * 8192 + b.val * 128 + f.val * 16 + z.val]) he
  have hl := layR (c := 100) (d := 0) (a := a.val) (b := b.val) (x := f.val * 16 + z.val) (hw.trans (by clear * -; omega)) (by decide) (a.isLt) (b.isLt) (by have b0 := f.isLt; have b1 := z.isLt; clear * - b0 b1; omega)
  have e0 := hl.1
  have e1 : fld w 2 2 = 0 := (part 0 7 2 2 hl.2.2.2.2 (by decide) (by decide)).trans (by have b0 := f.isLt; have b1 := z.isLt; clear * - b0 b1; omega)
  have e2 : fld w 5 2 = 0 := (part 0 7 5 2 hl.2.2.2.2 (by decide) (by decide)).trans (by have b0 := f.isLt; have b1 := z.isLt; clear * - b0 b1; omega)
  have e3 : fld w 19 6 = 0 := hl.2.1
  have a1 : r6 w 13 = a := Fin.ext (hl.2.2.1)
  have a2 : r6 w 7 = b := Fin.ext (hl.2.2.2.1)
  have a3 : r1 w 4 = f := Fin.ext ((part 0 7 4 1 hl.2.2.2.2 (by decide) (by decide)).trans (by have b0 := f.isLt; have b1 := z.isLt; clear * - b0 b1; omega))
  have a4 : r2 w 0 = z := Fin.ext ((part 0 7 0 2 hl.2.2.2.2 (by decide) (by decide)).trans (by have b0 := f.isLt; have b1 := z.isLt; clear * - b0 b1; omega))
  refine wf_ok (by rw [e0]; decide) ?_ hf
  rw [flat64 w _ e0]; unfold decode64
  simp only [e1, e2, e3, a1, a2, a3, a4, Nat.reduceEqDiff, OfNat.ofNat_ne_zero, OfNat.zero_ne_ofNat, one_ne_zero, zero_ne_one, OfNat.one_ne_ofNat, OfNat.ofNat_ne_one, false_and, and_false, and_self, true_and, and_true, reduceIte]

theorem zreadTri (d : Fin 64) (a : Fin 64) (b : Fin 64) (f : Fin 2) (z : Fin 4) : Statement (.zreadTri d a b f z) := by
  intro hf w nx he
  have hw : w = 0xc8000004 + d.val * 524288 + a.val * 8192 + b.val * 128 + f.val * 16 + z.val := one (rfl : encode (.zreadTri d a b f z) = [0xc8000004 + d.val * 524288 + a.val * 8192 + b.val * 128 + f.val * 16 + z.val]) he
  have hl := layR (c := 100) (d := d.val) (a := a.val) (b := b.val) (x := f.val * 16 + z.val + 4) (hw.trans (by clear * -; omega)) (d.isLt) (a.isLt) (b.isLt) (by have b0 := f.isLt; have b1 := z.isLt; clear * - b0 b1; omega)
  have e0 := hl.1
  have e1 : fld w 2 2 = 1 := (part 0 7 2 2 hl.2.2.2.2 (by decide) (by decide)).trans (by have b0 := f.isLt; have b1 := z.isLt; clear * - b0 b1; omega)
  have e2 : fld w 5 2 = 0 := (part 0 7 5 2 hl.2.2.2.2 (by decide) (by decide)).trans (by have b0 := f.isLt; have b1 := z.isLt; clear * - b0 b1; omega)
  have a1 : r6 w 19 = d := Fin.ext (hl.2.1)
  have a2 : r6 w 13 = a := Fin.ext (hl.2.2.1)
  have a3 : r6 w 7 = b := Fin.ext (hl.2.2.2.1)
  have a4 : r1 w 4 = f := Fin.ext ((part 0 7 4 1 hl.2.2.2.2 (by decide) (by decide)).trans (by have b0 := f.isLt; have b1 := z.isLt; clear * - b0 b1; omega))
  have a5 : r2 w 0 = z := Fin.ext ((part 0 7 0 2 hl.2.2.2.2 (by decide) (by decide)).trans (by have b0 := f.isLt; have b1 := z.isLt; clear * - b0 b1; omega))
  refine wf_ok (by rw [e0]; decide) ?_ hf
  rw [flat64 w _ e0]; unfold decode64
  simp only [e1, e2, a1, a2, a3, a4, a5, Nat.reduceEqDiff, OfNat.ofNat_ne_zero, OfNat.zero_ne_ofNat, one_ne_zero, zero_ne_one, OfNat.one_ne_ofNat, OfNat.ofNat_ne_one, false_and, and_false, and_self, true_and, and_true, reduceIte]

theorem zraw (a : Fin 64) (b : Fin 64) (z : Fin 4) : Statement (.zraw a b z) := by
  intro hf w nx he
  have hw : w = 0xc8000008 + a.val * 8192 + b.val * 128 + z.val := one (rfl : encode (.zraw a b z) = [0xc8000008 + a.val * 8192 + b.val * 128 + z.val]) he
  have hl := layR (c := 100) (d := 0) (a := a.val) (b := b.val) (x := z.val + 8) (hw.trans (by clear * -; omega)) (by decide) (a.isLt) (b.isLt) (by have b0 := z.isLt; clear * - b0; omega)
  have e0 := hl.1
  have e1 : fld w 2 2 = 2 := (part 0 7 2 2 hl.2.2.2.2 (by decide) (by decide)).trans (by have b0 := z.isLt; clear * - b0; omega)
  have e2 : fld w 5 2 = 0 := (part 0 7 5 2 hl.2.2.2.2 (by decide) (by decide)).trans (by have b0 := z.isLt; clear * - b0; omega)
  have e3 : fld w 19 6 = 0 := hl.2.1
  have e4 : fld w 2 5 = 2 := (part 0 7 2 5 hl.2.2.2.2 (by decide) (by decide)).trans (by have b0 := z.isLt; clear * - b0; omega)
  have a1 : r6 w 13 = a := Fin.ext (hl.2.2.1)
  have a2 : r6 w 7 = b := Fin.ext (hl.2.2.2.1)
  have a3 : r2 w 0 = z := Fin.ext ((part 0 7 0 2 hl.2.2.2.2 (by decide) (by decide)).trans (by have b0 := z.isLt; clear * - b0; omega))
  refine wf_ok (by rw [e0]; decide) ?_ hf
  rw [flat64 w _ e0]; unfold decode64
  simp only [e1, e2, e3, e4, a1, a2, a3, Nat.reduceEqDiff, OfNat.ofNat_ne_zero, OfNat.zero_ne_ofNat, one_ne_zero, zero_ne_one, OfNat.one_ne_ofNat, OfNat.ofNat_ne_one, false_and, and_false, and_self, true_and, and_true, reduceIte]

theorem dcut (d : Fin 64) (a : Fin 64) (b : Fin 64) (t : Fin 4) : Statement (.dcut d a b t) := by
  intro hf w nx he
  have hw : w = 0xca000000 + d.val * 524288 + a.val * 8192 + b.val * 128 + t.val * 4 := one (rfl : encode (.dcut d a b t) = [0xca000000 + d.val * 524288 + a.val * 8192 + b.val * 128 + t.val * 4]) he
  have hl := layR (c := 101) (d := d.val) (a := a.val) (b := b.val) (x := t.val * 4) (hw.trans (by clear * -; omega)) (d.isLt) (a.isLt) (b.isLt) (by have b0 := t.isLt; clear * - b0; omega)
  have e0 := hl.1
  have e1 : fld w 0 2 = 0 := (part 0 7 0 2 hl.2.2.2.2 (by decide) (by decide)).trans (by have b0 := t.isLt; clear * - b0; omega)
  have e2 : fld w 4 3 = 0 := (part 0 7 4 3 hl.2.2.2.2 (by decide) (by decide)).trans (by have b0 := t.isLt; clear * - b0; omega)
  have a1 : r6 w 19 = d := Fin.ext (hl.2.1)
  have a2 : r6 w 13 = a := Fin.ext (hl.2.2.1)
  have a3 : r6 w 7 = b := Fin.ext (hl.2.2.2.1)
  have a4 : r2 w 2 = t := Fin.ext ((part 0 7 2 2 hl.2.2.2.2 (by decide) (by decide)).trans (by have b0 := t.isLt; clear * - b0; omega))
  refine wf_ok (by rw [e0]; decide) ?_ hf
  rw [flat65 w _ e0]; unfold decode65
  simp only [e1, e2, a1, a2, a3, a4, Nat.reduceEqDiff, OfNat.ofNat_ne_zero, OfNat.zero_ne_ofNat, one_ne_zero, zero_ne_one, OfNat.one_ne_ofNat, OfNat.ofNat_ne_one, false_and, and_false, and_self, true_and, and_true, reduceIte]

theorem dcutP (d : Fin 64) (a : Fin 64) (b : Fin 64) (t : Fin 4) : Statement (.dcutP d a b t) := by
  intro hf w nx he
  have hw : w = 0xca000001 + d.val * 524288 + a.val * 8192 + b.val * 128 + t.val * 4 := one (rfl : encode (.dcutP d a b t) = [0xca000001 + d.val * 524288 + a.val * 8192 + b.val * 128 + t.val * 4]) he
  have hl := layR (c := 101) (d := d.val) (a := a.val) (b := b.val) (x := t.val * 4 + 1) (hw.trans (by clear * -; omega)) (d.isLt) (a.isLt) (b.isLt) (by have b0 := t.isLt; clear * - b0; omega)
  have e0 := hl.1
  have e1 : fld w 0 2 = 1 := (part 0 7 0 2 hl.2.2.2.2 (by decide) (by decide)).trans (by have b0 := t.isLt; clear * - b0; omega)
  have e2 : fld w 4 3 = 0 := (part 0 7 4 3 hl.2.2.2.2 (by decide) (by decide)).trans (by have b0 := t.isLt; clear * - b0; omega)
  have a1 : r6 w 19 = d := Fin.ext (hl.2.1)
  have a2 : r6 w 13 = a := Fin.ext (hl.2.2.1)
  have a3 : r6 w 7 = b := Fin.ext (hl.2.2.2.1)
  have a4 : r2 w 2 = t := Fin.ext ((part 0 7 2 2 hl.2.2.2.2 (by decide) (by decide)).trans (by have b0 := t.isLt; clear * - b0; omega))
  refine wf_ok (by rw [e0]; decide) ?_ hf
  rw [flat65 w _ e0]; unfold decode65
  simp only [e1, e2, a1, a2, a3, a4, Nat.reduceEqDiff, OfNat.ofNat_ne_zero, OfNat.zero_ne_ofNat, one_ne_zero, zero_ne_one, OfNat.one_ne_ofNat, OfNat.ofNat_ne_one, false_and, and_false, and_self, true_and, and_true, reduceIte]

theorem dcutCo (d : Fin 64) (a : Fin 64) (b : Fin 64) (t : Fin 4) : Statement (.dcutCo d a b t) := by
  intro hf w nx he
  have hw : w = 0xca000002 + d.val * 524288 + a.val * 8192 + b.val * 128 + t.val * 4 := one (rfl : encode (.dcutCo d a b t) = [0xca000002 + d.val * 524288 + a.val * 8192 + b.val * 128 + t.val * 4]) he
  have hl := layR (c := 101) (d := d.val) (a := a.val) (b := b.val) (x := t.val * 4 + 2) (hw.trans (by clear * -; omega)) (d.isLt) (a.isLt) (b.isLt) (by have b0 := t.isLt; clear * - b0; omega)
  have e0 := hl.1
  have e1 : fld w 0 2 = 2 := (part 0 7 0 2 hl.2.2.2.2 (by decide) (by decide)).trans (by have b0 := t.isLt; clear * - b0; omega)
  have e2 : fld w 4 3 = 0 := (part 0 7 4 3 hl.2.2.2.2 (by decide) (by decide)).trans (by have b0 := t.isLt; clear * - b0; omega)
  have a1 : r6 w 19 = d := Fin.ext (hl.2.1)
  have a2 : r6 w 13 = a := Fin.ext (hl.2.2.1)
  have a3 : r6 w 7 = b := Fin.ext (hl.2.2.2.1)
  have a4 : r2 w 2 = t := Fin.ext ((part 0 7 2 2 hl.2.2.2.2 (by decide) (by decide)).trans (by have b0 := t.isLt; clear * - b0; omega))
  refine wf_ok (by rw [e0]; decide) ?_ hf
  rw [flat65 w _ e0]; unfold decode65
  simp only [e1, e2, a1, a2, a3, a4, Nat.reduceEqDiff, OfNat.ofNat_ne_zero, OfNat.zero_ne_ofNat, one_ne_zero, zero_ne_one, OfNat.one_ne_ofNat, OfNat.ofNat_ne_one, false_and, and_false, and_self, true_and, and_true, reduceIte]

theorem mtbr (d : Fin 64) (a : Fin 64) : Statement (.mtbr d a) := by
  intro hf w nx he
  have hw : w = 0xcc000000 + d.val * 524288 + a.val * 8192 := one (rfl : encode (.mtbr d a) = [0xcc000000 + d.val * 524288 + a.val * 8192]) he
  have hl := layR (c := 102) (d := d.val) (a := a.val) (b := 0) (x := 0) (hw.trans (by clear * -; omega)) (d.isLt) (a.isLt) (by decide) (by decide)
  have e0 := hl.1
  have e1 : fld w 0 7 = 0 := hl.2.2.2.2
  have e2 : fld w 7 6 = 0 := hl.2.2.2.1
  have a1 : r6 w 19 = d := Fin.ext (hl.2.1)
  have a2 : r6 w 13 = a := Fin.ext (hl.2.2.1)
  refine wf_ok (by rw [e0]; decide) ?_ hf
  rw [flat66 w _ e0]; unfold decode66
  simp only [e1, e2, a1, a2, Nat.reduceEqDiff, OfNat.ofNat_ne_zero, OfNat.zero_ne_ofNat, one_ne_zero, zero_ne_one, OfNat.one_ne_ofNat, OfNat.ofNat_ne_one, false_and, and_false, and_self, true_and, and_true, reduceIte]

theorem mtbw (d : Fin 64) (a : Fin 64) : Statement (.mtbw d a) := by
  intro hf w nx he
  have hw : w = 0xcc000001 + d.val * 524288 + a.val * 8192 := one (rfl : encode (.mtbw d a) = [0xcc000001 + d.val * 524288 + a.val * 8192]) he
  have hl := layR (c := 102) (d := d.val) (a := a.val) (b := 0) (x := 1) (hw.trans (by clear * -; omega)) (d.isLt) (a.isLt) (by decide) (by decide)
  have e0 := hl.1
  have e1 : fld w 0 7 = 1 := hl.2.2.2.2
  have e2 : fld w 7 6 = 0 := hl.2.2.2.1
  have a1 : r6 w 19 = d := Fin.ext (hl.2.1)
  have a2 : r6 w 13 = a := Fin.ext (hl.2.2.1)
  refine wf_ok (by rw [e0]; decide) ?_ hf
  rw [flat66 w _ e0]; unfold decode66
  simp only [e1, e2, a1, a2, Nat.reduceEqDiff, OfNat.ofNat_ne_zero, OfNat.zero_ne_ofNat, one_ne_zero, zero_ne_one, OfNat.one_ne_ofNat, OfNat.ofNat_ne_one, false_and, and_false, and_self, true_and, and_true, reduceIte]

theorem sbind (d : Fin 64) (a : Fin 64) (b : Fin 64) (n : Fin 4) (e : Fin 2) (r : Fin 2) : Statement (.sbind d a b n e r) := by
  intro hf w nx he
  have hw : w = 0xd0000000 + d.val * 524288 + a.val * 8192 + b.val * 128 + n.val * 16 + e.val * 8 + r.val * 4 := one (rfl : encode (.sbind d a b n e r) = [0xd0000000 + d.val * 524288 + a.val * 8192 + b.val * 128 + n.val * 16 + e.val * 8 + r.val * 4]) he
  have hl := layR (c := 104) (d := d.val) (a := a.val) (b := b.val) (x := n.val * 16 + e.val * 8 + r.val * 4) (hw.trans (by clear * -; omega)) (d.isLt) (a.isLt) (b.isLt) (by have b0 := n.isLt; have b1 := e.isLt; have b2 := r.isLt; clear * - b0 b1 b2; omega)
  have e0 := hl.1
  have e1 : fld w 0 2 = 0 := (part 0 7 0 2 hl.2.2.2.2 (by decide) (by decide)).trans (by have b0 := n.isLt; have b1 := e.isLt; have b2 := r.isLt; clear * - b0 b1 b2; omega)
  have e2 : fld w 6 1 = 0 := (part 0 7 6 1 hl.2.2.2.2 (by decide) (by decide)).trans (by have b0 := n.isLt; have b1 := e.isLt; have b2 := r.isLt; clear * - b0 b1 b2; omega)
  have a1 : r6 w 19 = d := Fin.ext (hl.2.1)
  have a2 : r6 w 13 = a := Fin.ext (hl.2.2.1)
  have a3 : r6 w 7 = b := Fin.ext (hl.2.2.2.1)
  have a4 : r2 w 4 = n := Fin.ext ((part 0 7 4 2 hl.2.2.2.2 (by decide) (by decide)).trans (by have b0 := n.isLt; have b1 := e.isLt; have b2 := r.isLt; clear * - b0 b1 b2; omega))
  have a5 : r1 w 3 = e := Fin.ext ((part 0 7 3 1 hl.2.2.2.2 (by decide) (by decide)).trans (by have b0 := n.isLt; have b1 := e.isLt; have b2 := r.isLt; clear * - b0 b1 b2; omega))
  have a6 : r1 w 2 = r := Fin.ext ((part 0 7 2 1 hl.2.2.2.2 (by decide) (by decide)).trans (by have b0 := n.isLt; have b1 := e.isLt; have b2 := r.isLt; clear * - b0 b1 b2; omega))
  refine wf_ok (by rw [e0]; decide) ?_ hf
  rw [flat68 w _ e0]; unfold decode68
  simp only [e1, e2, a1, a2, a3, a4, a5, a6, Nat.reduceEqDiff, OfNat.ofNat_ne_zero, OfNat.zero_ne_ofNat, one_ne_zero, zero_ne_one, OfNat.one_ne_ofNat, OfNat.ofNat_ne_one, false_and, and_false, and_self, true_and, and_true, reduceIte]

theorem sfree (d : Fin 64) : Statement (.sfree d) := by
  intro hf w nx he
  have hw : w = 0xd0000001 + d.val * 524288 := one (rfl : encode (.sfree d) = [0xd0000001 + d.val * 524288]) he
  have hl := layR (c := 104) (d := d.val) (a := 0) (b := 0) (x := 1) (hw.trans (by clear * -; omega)) (d.isLt) (by decide) (by decide) (by decide)
  have e0 := hl.1
  have e1 : fld w 0 2 = 1 := (part 0 7 0 2 hl.2.2.2.2 (by decide) (by decide)).trans (by decide)
  have e2 : fld w 6 1 = 0 := (part 0 7 6 1 hl.2.2.2.2 (by decide) (by decide)).trans (by decide)
  have e3 : fld w 0 7 = 1 := hl.2.2.2.2
  have e4 : fld w 7 6 = 0 := hl.2.2.2.1
  have e5 : fld w 13 6 = 0 := hl.2.2.1
  have a1 : r6 w 19 = d := Fin.ext (hl.2.1)
  refine wf_ok (by rw [e0]; decide) ?_ hf
  rw [flat68 w _ e0]; unfold decode68
  simp only [e1, e2, e3, e4, e5, a1, Nat.reduceEqDiff, OfNat.ofNat_ne_zero, OfNat.zero_ne_ofNat, one_ne_zero, zero_ne_one, OfNat.one_ne_ofNat, OfNat.ofNat_ne_one, false_and, and_false, and_self, true_and, and_true, reduceIte]

theorem sstat (d : Fin 64) (a : Fin 64) : Statement (.sstat d a) := by
  intro hf w nx he
  have hw : w = 0xd0000002 + d.val * 524288 + a.val * 8192 := one (rfl : encode (.sstat d a) = [0xd0000002 + d.val * 524288 + a.val * 8192]) he
  have hl := layR (c := 104) (d := d.val) (a := a.val) (b := 0) (x := 2) (hw.trans (by clear * -; omega)) (d.isLt) (a.isLt) (by decide) (by decide)
  have e0 := hl.1
  have e1 : fld w 0 2 = 2 := (part 0 7 0 2 hl.2.2.2.2 (by decide) (by decide)).trans (by decide)
  have e2 : fld w 6 1 = 0 := (part 0 7 6 1 hl.2.2.2.2 (by decide) (by decide)).trans (by decide)
  have e3 : fld w 0 7 = 2 := hl.2.2.2.2
  have e4 : fld w 7 6 = 0 := hl.2.2.2.1
  have a1 : r6 w 19 = d := Fin.ext (hl.2.1)
  have a2 : r6 w 13 = a := Fin.ext (hl.2.2.1)
  refine wf_ok (by rw [e0]; decide) ?_ hf
  rw [flat68 w _ e0]; unfold decode68
  simp only [e1, e2, e3, e4, a1, a2, Nat.reduceEqDiff, OfNat.ofNat_ne_zero, OfNat.zero_ne_ofNat, one_ne_zero, zero_ne_one, OfNat.one_ne_ofNat, OfNat.ofNat_ne_one, false_and, and_false, and_self, true_and, and_true, reduceIte]

theorem cpy (d : Fin 64) (a : Fin 64) (b : Fin 64) (o : Fin 2) : Statement (.cpy d a b o) := by
  intro hf w nx he
  have hw : w = 0xd2000000 + d.val * 524288 + a.val * 8192 + b.val * 128 + o.val * 2 := one (rfl : encode (.cpy d a b o) = [0xd2000000 + d.val * 524288 + a.val * 8192 + b.val * 128 + o.val * 2]) he
  have hl := layR (c := 105) (d := d.val) (a := a.val) (b := b.val) (x := o.val * 2) (hw.trans (by clear * -; omega)) (d.isLt) (a.isLt) (b.isLt) (by have b0 := o.isLt; clear * - b0; omega)
  have e0 := hl.1
  have e1 : fld w 0 1 = 0 := (part 0 7 0 1 hl.2.2.2.2 (by decide) (by decide)).trans (by have b0 := o.isLt; clear * - b0; omega)
  have e2 : fld w 2 5 = 0 := (part 0 7 2 5 hl.2.2.2.2 (by decide) (by decide)).trans (by have b0 := o.isLt; clear * - b0; omega)
  have a1 : r6 w 19 = d := Fin.ext (hl.2.1)
  have a2 : r6 w 13 = a := Fin.ext (hl.2.2.1)
  have a3 : r6 w 7 = b := Fin.ext (hl.2.2.2.1)
  have a4 : r1 w 1 = o := Fin.ext ((part 0 7 1 1 hl.2.2.2.2 (by decide) (by decide)).trans (by have b0 := o.isLt; clear * - b0; omega))
  refine wf_ok (by rw [e0]; decide) ?_ hf
  rw [flat69 w _ e0]; unfold decode69
  simp only [e1, e2, a1, a2, a3, a4, Nat.reduceEqDiff, OfNat.ofNat_ne_zero, OfNat.zero_ne_ofNat, one_ne_zero, zero_ne_one, OfNat.one_ne_ofNat, OfNat.ofNat_ne_one, false_and, and_false, and_self, true_and, and_true, reduceIte]

theorem cpyMc (d : Fin 64) (a : Fin 64) (b : Fin 64) (o : Fin 2) : Statement (.cpyMc d a b o) := by
  intro hf w nx he
  have hw : w = 0xd2000001 + d.val * 524288 + a.val * 8192 + b.val * 128 + o.val * 2 := one (rfl : encode (.cpyMc d a b o) = [0xd2000001 + d.val * 524288 + a.val * 8192 + b.val * 128 + o.val * 2]) he
  have hl := layR (c := 105) (d := d.val) (a := a.val) (b := b.val) (x := o.val * 2 + 1) (hw.trans (by clear * -; omega)) (d.isLt) (a.isLt) (b.isLt) (by have b0 := o.isLt; clear * - b0; omega)
  have e0 := hl.1
  have e1 : fld w 0 1 = 1 := (part 0 7 0 1 hl.2.2.2.2 (by decide) (by decide)).trans (by have b0 := o.isLt; clear * - b0; omega)
  have e2 : fld w 2 5 = 0 := (part 0 7 2 5 hl.2.2.2.2 (by decide) (by decide)).trans (by have b0 := o.isLt; clear * - b0; omega)
  have a1 : r6 w 19 = d := Fin.ext (hl.2.1)
  have a2 : r6 w 13 = a := Fin.ext (hl.2.2.1)
  have a3 : r6 w 7 = b := Fin.ext (hl.2.2.2.1)
  have a4 : r1 w 1 = o := Fin.ext ((part 0 7 1 1 hl.2.2.2.2 (by decide) (by decide)).trans (by have b0 := o.isLt; clear * - b0; omega))
  refine wf_ok (by rw [e0]; decide) ?_ hf
  rw [flat69 w _ e0]; unfold decode69
  simp only [e1, e2, a1, a2, a3, a4, Nat.reduceEqDiff, OfNat.ofNat_ne_zero, OfNat.zero_ne_ofNat, one_ne_zero, zero_ne_one, OfNat.one_ne_ofNat, OfNat.ofNat_ne_one, false_and, and_false, and_self, true_and, and_true, reduceIte]

theorem mbset (d : Fin 64) (a : Fin 64) (b : Fin 64) : Statement (.mbset d a b) := by
  intro hf w nx he
  have hw : w = 0xd4000000 + d.val * 524288 + a.val * 8192 + b.val * 128 := one (rfl : encode (.mbset d a b) = [0xd4000000 + d.val * 524288 + a.val * 8192 + b.val * 128]) he
  have hl := layR (c := 106) (d := d.val) (a := a.val) (b := b.val) (x := 0) (hw.trans (by clear * -; omega)) (d.isLt) (a.isLt) (b.isLt) (by decide)
  have e0 := hl.1
  have e1 : fld w 0 7 = 0 := hl.2.2.2.2
  have a1 : r6 w 19 = d := Fin.ext (hl.2.1)
  have a2 : r6 w 13 = a := Fin.ext (hl.2.2.1)
  have a3 : r6 w 7 = b := Fin.ext (hl.2.2.2.1)
  refine wf_ok (by rw [e0]; decide) ?_ hf
  rw [flat6A w _ e0]; unfold decode6A
  simp only [e1, a1, a2, a3, Nat.reduceEqDiff, OfNat.ofNat_ne_zero, OfNat.zero_ne_ofNat, one_ne_zero, zero_ne_one, OfNat.one_ne_ofNat, OfNat.ofNat_ne_one, false_and, and_false, and_self, true_and, and_true, reduceIte]

theorem msend (d : Fin 64) (a : Fin 64) (o : Fin 8) : Statement (.msend d a o) := by
  intro hf w nx he
  have hw : w = 0xd4000001 + d.val * 524288 + a.val * 8192 + o.val * 8 := one (rfl : encode (.msend d a o) = [0xd4000001 + d.val * 524288 + a.val * 8192 + o.val * 8]) he
  have hl := layR (c := 106) (d := d.val) (a := a.val) (b := 0) (x := o.val * 8 + 1) (hw.trans (by clear * -; omega)) (d.isLt) (a.isLt) (by decide) (by have b0 := o.isLt; clear * - b0; omega)
  have e0 := hl.1
  have e1 : fld w 0 3 = 1 := (part 0 7 0 3 hl.2.2.2.2 (by decide) (by decide)).trans (by have b0 := o.isLt; clear * - b0; omega)
  have e2 : fld w 6 1 = 0 := (part 0 7 6 1 hl.2.2.2.2 (by decide) (by decide)).trans (by have b0 := o.isLt; clear * - b0; omega)
  have e3 : fld w 7 6 = 0 := hl.2.2.2.1
  have n1 : (fld w 0 7 = 0) = False := eq_false (by unfold fld; clear * - hw; omega)
  have a1 : r6 w 19 = d := Fin.ext (hl.2.1)
  have a2 : r6 w 13 = a := Fin.ext (hl.2.2.1)
  have a3 : r3 w 3 = o := Fin.ext ((part 0 7 3 3 hl.2.2.2.2 (by decide) (by decide)).trans (by have b0 := o.isLt; clear * - b0; omega))
  refine wf_ok (by rw [e0]; decide) ?_ hf
  rw [flat6A w _ e0]; unfold decode6A
  simp only [e1, e2, e3, a1, a2, a3, Nat.reduceEqDiff, OfNat.ofNat_ne_zero, OfNat.zero_ne_ofNat, one_ne_zero, zero_ne_one, OfNat.one_ne_ofNat, OfNat.ofNat_ne_one, false_and, and_false, and_self, true_and, and_true, reduceIte, n1]

theorem mrecv (d : Fin 64) (a : Fin 64) (b : Fin 64) : Statement (.mrecv d a b) := by
  intro hf w nx he
  have hw : w = 0xd6000000 + d.val * 524288 + a.val * 8192 + b.val * 128 := one (rfl : encode (.mrecv d a b) = [0xd6000000 + d.val * 524288 + a.val * 8192 + b.val * 128]) he
  have hl := layR (c := 107) (d := d.val) (a := a.val) (b := b.val) (x := 0) (hw.trans (by clear * -; omega)) (d.isLt) (a.isLt) (b.isLt) (by decide)
  have e0 := hl.1
  have e1 : fld w 0 7 = 0 := hl.2.2.2.2
  have a1 : r6 w 19 = d := Fin.ext (hl.2.1)
  have a2 : r6 w 13 = a := Fin.ext (hl.2.2.1)
  have a3 : r6 w 7 = b := Fin.ext (hl.2.2.2.1)
  refine wf_ok (by rw [e0]; decide) ?_ hf
  rw [flat6B w _ e0]; unfold decode6B
  simp only [e1, a1, a2, a3, Nat.reduceEqDiff, OfNat.ofNat_ne_zero, OfNat.zero_ne_ofNat, one_ne_zero, zero_ne_one, OfNat.one_ne_ofNat, OfNat.ofNat_ne_one, false_and, and_false, and_self, true_and, and_true, reduceIte]

theorem mcnt (d : Fin 64) (a : Fin 64) : Statement (.mcnt d a) := by
  intro hf w nx he
  have hw : w = 0xd8000000 + d.val * 524288 + a.val * 8192 := one (rfl : encode (.mcnt d a) = [0xd8000000 + d.val * 524288 + a.val * 8192]) he
  have hl := layR (c := 108) (d := d.val) (a := a.val) (b := 0) (x := 0) (hw.trans (by clear * -; omega)) (d.isLt) (a.isLt) (by decide) (by decide)
  have e0 := hl.1
  have e1 : fld w 0 7 = 0 := hl.2.2.2.2
  have e2 : fld w 7 6 = 0 := hl.2.2.2.1
  have a1 : r6 w 19 = d := Fin.ext (hl.2.1)
  have a2 : r6 w 13 = a := Fin.ext (hl.2.2.1)
  refine wf_ok (by rw [e0]; decide) ?_ hf
  rw [flat6C w _ e0]; unfold decode6C
  simp only [e1, e2, a1, a2, Nat.reduceEqDiff, OfNat.ofNat_ne_zero, OfNat.zero_ne_ofNat, one_ne_zero, zero_ne_one, OfNat.one_ne_ofNat, OfNat.ofNat_ne_one, false_and, and_false, and_self, true_and, and_true, reduceIte]

theorem mcntSet (a : Fin 64) (b : Fin 64) : Statement (.mcntSet a b) := by
  intro hf w nx he
  have hw : w = 0xd8000001 + a.val * 8192 + b.val * 128 := one (rfl : encode (.mcntSet a b) = [0xd8000001 + a.val * 8192 + b.val * 128]) he
  have hl := layR (c := 108) (d := 0) (a := a.val) (b := b.val) (x := 1) (hw.trans (by clear * -; omega)) (by decide) (a.isLt) (b.isLt) (by decide)
  have e0 := hl.1
  have e1 : fld w 0 7 = 1 := hl.2.2.2.2
  have e2 : fld w 19 6 = 0 := hl.2.1
  have a1 : r6 w 13 = a := Fin.ext (hl.2.2.1)
  have a2 : r6 w 7 = b := Fin.ext (hl.2.2.2.1)
  refine wf_ok (by rw [e0]; decide) ?_ hf
  rw [flat6C w _ e0]; unfold decode6C
  simp only [e1, e2, a1, a2, Nat.reduceEqDiff, OfNat.ofNat_ne_zero, OfNat.zero_ne_ofNat, one_ne_zero, zero_ne_one, OfNat.one_ne_ofNat, OfNat.ofNat_ne_one, false_and, and_false, and_self, true_and, and_true, reduceIte]

theorem mwcnt (a : Fin 64) (b : Fin 64) : Statement (.mwcnt a b) := by
  intro hf w nx he
  have hw : w = 0xd8000002 + a.val * 8192 + b.val * 128 := one (rfl : encode (.mwcnt a b) = [0xd8000002 + a.val * 8192 + b.val * 128]) he
  have hl := layR (c := 108) (d := 0) (a := a.val) (b := b.val) (x := 2) (hw.trans (by clear * -; omega)) (by decide) (a.isLt) (b.isLt) (by decide)
  have e0 := hl.1
  have e1 : fld w 0 7 = 2 := hl.2.2.2.2
  have e2 : fld w 19 6 = 0 := hl.2.1
  have a1 : r6 w 13 = a := Fin.ext (hl.2.2.1)
  have a2 : r6 w 7 = b := Fin.ext (hl.2.2.2.1)
  refine wf_ok (by rw [e0]; decide) ?_ hf
  rw [flat6C w _ e0]; unfold decode6C
  simp only [e1, e2, a1, a2, Nat.reduceEqDiff, OfNat.ofNat_ne_zero, OfNat.zero_ne_ofNat, one_ne_zero, zero_ne_one, OfNat.one_ne_ofNat, OfNat.ofNat_ne_one, false_and, and_false, and_self, true_and, and_true, reduceIte]

theorem wfm (d : Fin 64) : Statement (.wfm d) := by
  intro hf w nx he
  have hw : w = 0xda000000 + d.val * 524288 := one (rfl : encode (.wfm d) = [0xda000000 + d.val * 524288]) he
  have hl := layR (c := 109) (d := d.val) (a := 0) (b := 0) (x := 0) (hw.trans (by clear * -; omega)) (d.isLt) (by decide) (by decide) (by decide)
  have e0 := hl.1
  have e1 : fld w 0 7 = 0 := hl.2.2.2.2
  have e2 : fld w 7 6 = 0 := hl.2.2.2.1
  have e3 : fld w 13 6 = 0 := hl.2.2.1
  have a1 : r6 w 19 = d := Fin.ext (hl.2.1)
  refine wf_ok (by rw [e0]; decide) ?_ hf
  rw [flat6D w _ e0]; unfold decode6D
  simp only [e1, e2, e3, a1, Nat.reduceEqDiff, OfNat.ofNat_ne_zero, OfNat.zero_ne_ofNat, one_ne_zero, zero_ne_one, OfNat.one_ne_ofNat, OfNat.ofNat_ne_one, false_and, and_false, and_self, true_and, and_true, reduceIte]

theorem mpop (d : Fin 64) : Statement (.mpop d) := by
  intro hf w nx he
  have hw : w = 0xda000001 + d.val * 524288 := one (rfl : encode (.mpop d) = [0xda000001 + d.val * 524288]) he
  have hl := layR (c := 109) (d := d.val) (a := 0) (b := 0) (x := 1) (hw.trans (by clear * -; omega)) (d.isLt) (by decide) (by decide) (by decide)
  have e0 := hl.1
  have e1 : fld w 0 7 = 1 := hl.2.2.2.2
  have e2 : fld w 7 6 = 0 := hl.2.2.2.1
  have e3 : fld w 13 6 = 0 := hl.2.2.1
  have a1 : r6 w 19 = d := Fin.ext (hl.2.1)
  refine wf_ok (by rw [e0]; decide) ?_ hf
  rw [flat6D w _ e0]; unfold decode6D
  simp only [e1, e2, e3, a1, Nat.reduceEqDiff, OfNat.ofNat_ne_zero, OfNat.zero_ne_ofNat, one_ne_zero, zero_ne_one, OfNat.one_ne_ofNat, OfNat.ofNat_ne_one, false_and, and_false, and_self, true_and, and_true, reduceIte]

theorem feset (a : Fin 64) (b : Fin 64) : Statement (.feset a b) := by
  intro hf w nx he
  have hw : w = 0xdc000000 + a.val * 8192 + b.val * 128 := one (rfl : encode (.feset a b) = [0xdc000000 + a.val * 8192 + b.val * 128]) he
  have hl := layR (c := 110) (d := 0) (a := a.val) (b := b.val) (x := 0) (hw.trans (by clear * -; omega)) (by decide) (a.isLt) (b.isLt) (by decide)
  have e0 := hl.1
  have e1 : fld w 0 7 = 0 := hl.2.2.2.2
  have e2 : fld w 19 6 = 0 := hl.2.1
  have a1 : r6 w 13 = a := Fin.ext (hl.2.2.1)
  have a2 : r6 w 7 = b := Fin.ext (hl.2.2.2.1)
  refine wf_ok (by rw [e0]; decide) ?_ hf
  rw [flat6E w _ e0]; unfold decode6E
  simp only [e1, e2, a1, a2, Nat.reduceEqDiff, OfNat.ofNat_ne_zero, OfNat.zero_ne_ofNat, one_ne_zero, zero_ne_one, OfNat.one_ne_ofNat, OfNat.ofNat_ne_one, false_and, and_false, and_self, true_and, and_true, reduceIte]

theorem feclr (a : Fin 64) (b : Fin 64) : Statement (.feclr a b) := by
  intro hf w nx he
  have hw : w = 0xdc000001 + a.val * 8192 + b.val * 128 := one (rfl : encode (.feclr a b) = [0xdc000001 + a.val * 8192 + b.val * 128]) he
  have hl := layR (c := 110) (d := 0) (a := a.val) (b := b.val) (x := 1) (hw.trans (by clear * -; omega)) (by decide) (a.isLt) (b.isLt) (by decide)
  have e0 := hl.1
  have e1 : fld w 0 7 = 1 := hl.2.2.2.2
  have e2 : fld w 19 6 = 0 := hl.2.1
  have a1 : r6 w 13 = a := Fin.ext (hl.2.2.1)
  have a2 : r6 w 7 = b := Fin.ext (hl.2.2.2.1)
  refine wf_ok (by rw [e0]; decide) ?_ hf
  rw [flat6E w _ e0]; unfold decode6E
  simp only [e1, e2, a1, a2, Nat.reduceEqDiff, OfNat.ofNat_ne_zero, OfNat.zero_ne_ofNat, one_ne_zero, zero_ne_one, OfNat.one_ne_ofNat, OfNat.ofNat_ne_one, false_and, and_false, and_self, true_and, and_true, reduceIte]

theorem pkload (d : Fin 64) (a : Fin 64) : Statement (.pkload d a) := by
  intro hf w nx he
  have hw : w = 0xe0000000 + d.val * 524288 + a.val * 8192 := one (rfl : encode (.pkload d a) = [0xe0000000 + d.val * 524288 + a.val * 8192]) he
  have hl := layR (c := 112) (d := d.val) (a := a.val) (b := 0) (x := 0) (hw.trans (by clear * -; omega)) (d.isLt) (a.isLt) (by decide) (by decide)
  have e0 := hl.1
  have e1 : fld w 0 7 = 0 := hl.2.2.2.2
  have e2 : fld w 7 6 = 0 := hl.2.2.2.1
  have a1 : r6 w 19 = d := Fin.ext (hl.2.1)
  have a2 : r6 w 13 = a := Fin.ext (hl.2.2.1)
  refine wf_ok (by rw [e0]; decide) ?_ hf
  rw [flat70 w _ e0]; unfold decode70
  simp only [e1, e2, a1, a2, Nat.reduceEqDiff, OfNat.ofNat_ne_zero, OfNat.zero_ne_ofNat, one_ne_zero, zero_ne_one, OfNat.one_ne_ofNat, OfNat.ofNat_ne_one, false_and, and_false, and_self, true_and, and_true, reduceIte]

theorem pkrun (d : Fin 64) (a : Fin 64) (b : Fin 64) (k : Fin 4) : Statement (.pkrun d a b k) := by
  intro hf w nx he
  have hw : w = 0xe0000001 + d.val * 524288 + a.val * 8192 + b.val * 128 + k.val * 8 := one (rfl : encode (.pkrun d a b k) = [0xe0000001 + d.val * 524288 + a.val * 8192 + b.val * 128 + k.val * 8]) he
  have hl := layR (c := 112) (d := d.val) (a := a.val) (b := b.val) (x := k.val * 8 + 1) (hw.trans (by clear * -; omega)) (d.isLt) (a.isLt) (b.isLt) (by have b0 := k.isLt; clear * - b0; omega)
  have e0 := hl.1
  have e1 : fld w 0 3 = 1 := (part 0 7 0 3 hl.2.2.2.2 (by decide) (by decide)).trans (by have b0 := k.isLt; clear * - b0; omega)
  have e2 : fld w 5 2 = 0 := (part 0 7 5 2 hl.2.2.2.2 (by decide) (by decide)).trans (by have b0 := k.isLt; clear * - b0; omega)
  have n1 : (fld w 0 7 = 0) = False := eq_false (by unfold fld; clear * - hw; omega)
  have a1 : r6 w 19 = d := Fin.ext (hl.2.1)
  have a2 : r6 w 13 = a := Fin.ext (hl.2.2.1)
  have a3 : r6 w 7 = b := Fin.ext (hl.2.2.2.1)
  have a4 : r2 w 3 = k := Fin.ext ((part 0 7 3 2 hl.2.2.2.2 (by decide) (by decide)).trans (by have b0 := k.isLt; clear * - b0; omega))
  refine wf_ok (by rw [e0]; decide) ?_ hf
  rw [flat70 w _ e0]; unfold decode70
  simp only [e1, e2, a1, a2, a3, a4, Nat.reduceEqDiff, OfNat.ofNat_ne_zero, OfNat.zero_ne_ofNat, one_ne_zero, zero_ne_one, OfNat.one_ne_ofNat, OfNat.ofNat_ne_one, false_and, and_false, and_self, true_and, and_true, reduceIte, n1]

theorem pkstat (d : Fin 64) (a : Fin 64) : Statement (.pkstat d a) := by
  intro hf w nx he
  have hw : w = 0xe0000002 + d.val * 524288 + a.val * 8192 := one (rfl : encode (.pkstat d a) = [0xe0000002 + d.val * 524288 + a.val * 8192]) he
  have hl := layR (c := 112) (d := d.val) (a := a.val) (b := 0) (x := 2) (hw.trans (by clear * -; omega)) (d.isLt) (a.isLt) (by decide) (by decide)
  have e0 := hl.1
  have e1 : fld w 0 7 = 2 := hl.2.2.2.2
  have e2 : fld w 7 6 = 0 := hl.2.2.2.1
  have e3 : fld w 0 3 = 2 := (part 0 7 0 3 hl.2.2.2.2 (by decide) (by decide)).trans (by decide)
  have e4 : fld w 5 2 = 0 := (part 0 7 5 2 hl.2.2.2.2 (by decide) (by decide)).trans (by decide)
  have a1 : r6 w 19 = d := Fin.ext (hl.2.1)
  have a2 : r6 w 13 = a := Fin.ext (hl.2.2.1)
  refine wf_ok (by rw [e0]; decide) ?_ hf
  rw [flat70 w _ e0]; unfold decode70
  simp only [e1, e2, e3, e4, a1, a2, Nat.reduceEqDiff, OfNat.ofNat_ne_zero, OfNat.zero_ne_ofNat, one_ne_zero, zero_ne_one, OfNat.one_ne_ofNat, OfNat.ofNat_ne_one, false_and, and_false, and_self, true_and, and_true, reduceIte]

theorem pkstop (a : Fin 64) : Statement (.pkstop a) := by
  intro hf w nx he
  have hw : w = 0xe0000003 + a.val * 8192 := one (rfl : encode (.pkstop a) = [0xe0000003 + a.val * 8192]) he
  have hl := layR (c := 112) (d := 0) (a := a.val) (b := 0) (x := 3) (hw.trans (by clear * -; omega)) (by decide) (a.isLt) (by decide) (by decide)
  have e0 := hl.1
  have e1 : fld w 0 7 = 3 := hl.2.2.2.2
  have e2 : fld w 7 6 = 0 := hl.2.2.2.1
  have e3 : fld w 0 3 = 3 := (part 0 7 0 3 hl.2.2.2.2 (by decide) (by decide)).trans (by decide)
  have e4 : fld w 5 2 = 0 := (part 0 7 5 2 hl.2.2.2.2 (by decide) (by decide)).trans (by decide)
  have e5 : fld w 19 6 = 0 := hl.2.1
  have a1 : r6 w 13 = a := Fin.ext (hl.2.2.1)
  refine wf_ok (by rw [e0]; decide) ?_ hf
  rw [flat70 w _ e0]; unfold decode70
  simp only [e1, e2, e3, e4, e5, a1, Nat.reduceEqDiff, OfNat.ofNat_ne_zero, OfNat.zero_ne_ofNat, one_ne_zero, zero_ne_one, OfNat.one_ne_ofNat, OfNat.ofNat_ne_one, false_and, and_false, and_self, true_and, and_true, reduceIte]

theorem fbopen (d : Fin 64) (a : Fin 64) : Statement (.fbopen d a) := by
  intro hf w nx he
  have hw : w = 0xe2000000 + d.val * 524288 + a.val * 8192 := one (rfl : encode (.fbopen d a) = [0xe2000000 + d.val * 524288 + a.val * 8192]) he
  have hl := layR (c := 113) (d := d.val) (a := a.val) (b := 0) (x := 0) (hw.trans (by clear * -; omega)) (d.isLt) (a.isLt) (by decide) (by decide)
  have e0 := hl.1
  have e1 : fld w 0 7 = 0 := hl.2.2.2.2
  have e2 : fld w 7 6 = 0 := hl.2.2.2.1
  have a1 : r6 w 19 = d := Fin.ext (hl.2.1)
  have a2 : r6 w 13 = a := Fin.ext (hl.2.2.1)
  refine wf_ok (by rw [e0]; decide) ?_ hf
  rw [flat71 w _ e0]; unfold decode71
  simp only [e1, e2, a1, a2, Nat.reduceEqDiff, OfNat.ofNat_ne_zero, OfNat.zero_ne_ofNat, one_ne_zero, zero_ne_one, OfNat.one_ne_ofNat, OfNat.ofNat_ne_one, false_and, and_false, and_self, true_and, and_true, reduceIte]

theorem fbadv (d : Fin 64) (a : Fin 64) : Statement (.fbadv d a) := by
  intro hf w nx he
  have hw : w = 0xe2000001 + d.val * 524288 + a.val * 8192 := one (rfl : encode (.fbadv d a) = [0xe2000001 + d.val * 524288 + a.val * 8192]) he
  have hl := layR (c := 113) (d := d.val) (a := a.val) (b := 0) (x := 1) (hw.trans (by clear * -; omega)) (d.isLt) (a.isLt) (by decide) (by decide)
  have e0 := hl.1
  have e1 : fld w 0 7 = 1 := hl.2.2.2.2
  have e2 : fld w 7 6 = 0 := hl.2.2.2.1
  have a1 : r6 w 19 = d := Fin.ext (hl.2.1)
  have a2 : r6 w 13 = a := Fin.ext (hl.2.2.1)
  refine wf_ok (by rw [e0]; decide) ?_ hf
  rw [flat71 w _ e0]; unfold decode71
  simp only [e1, e2, a1, a2, Nat.reduceEqDiff, OfNat.ofNat_ne_zero, OfNat.zero_ne_ofNat, one_ne_zero, zero_ne_one, OfNat.one_ne_ofNat, OfNat.ofNat_ne_one, false_and, and_false, and_self, true_and, and_true, reduceIte]

theorem fbend (d : Fin 64) (a : Fin 64) : Statement (.fbend d a) := by
  intro hf w nx he
  have hw : w = 0xe2000002 + d.val * 524288 + a.val * 8192 := one (rfl : encode (.fbend d a) = [0xe2000002 + d.val * 524288 + a.val * 8192]) he
  have hl := layR (c := 113) (d := d.val) (a := a.val) (b := 0) (x := 2) (hw.trans (by clear * -; omega)) (d.isLt) (a.isLt) (by decide) (by decide)
  have e0 := hl.1
  have e1 : fld w 0 7 = 2 := hl.2.2.2.2
  have e2 : fld w 7 6 = 0 := hl.2.2.2.1
  have a1 : r6 w 19 = d := Fin.ext (hl.2.1)
  have a2 : r6 w 13 = a := Fin.ext (hl.2.2.1)
  refine wf_ok (by rw [e0]; decide) ?_ hf
  rw [flat71 w _ e0]; unfold decode71
  simp only [e1, e2, a1, a2, Nat.reduceEqDiff, OfNat.ofNat_ne_zero, OfNat.zero_ne_ofNat, one_ne_zero, zero_ne_one, OfNat.one_ne_ofNat, OfNat.ofNat_ne_one, false_and, and_false, and_self, true_and, and_true, reduceIte]

theorem fbclose (a : Fin 64) : Statement (.fbclose a) := by
  intro hf w nx he
  have hw : w = 0xe2000003 + a.val * 8192 := one (rfl : encode (.fbclose a) = [0xe2000003 + a.val * 8192]) he
  have hl := layR (c := 113) (d := 0) (a := a.val) (b := 0) (x := 3) (hw.trans (by clear * -; omega)) (by decide) (a.isLt) (by decide) (by decide)
  have e0 := hl.1
  have e1 : fld w 0 7 = 3 := hl.2.2.2.2
  have e2 : fld w 7 6 = 0 := hl.2.2.2.1
  have e3 : fld w 19 6 = 0 := hl.2.1
  have a1 : r6 w 13 = a := Fin.ext (hl.2.2.1)
  refine wf_ok (by rw [e0]; decide) ?_ hf
  rw [flat71 w _ e0]; unfold decode71
  simp only [e1, e2, e3, a1, Nat.reduceEqDiff, OfNat.ofNat_ne_zero, OfNat.zero_ne_ofNat, one_ne_zero, zero_ne_one, OfNat.one_ne_ofNat, OfNat.ofNat_ne_one, false_and, and_false, and_self, true_and, and_true, reduceIte]

theorem fbdot (d : Fin 64) (a : Fin 64) (b : Fin 64) : Statement (.fbdot d a b) := by
  intro hf w nx he
  have hw : w = 0xe4000000 + d.val * 524288 + a.val * 8192 + b.val * 128 := one (rfl : encode (.fbdot d a b) = [0xe4000000 + d.val * 524288 + a.val * 8192 + b.val * 128]) he
  have hl := layR (c := 114) (d := d.val) (a := a.val) (b := b.val) (x := 0) (hw.trans (by clear * -; omega)) (d.isLt) (a.isLt) (b.isLt) (by decide)
  have e0 := hl.1
  have e1 : fld w 0 7 = 0 := hl.2.2.2.2
  have a1 : r6 w 19 = d := Fin.ext (hl.2.1)
  have a2 : r6 w 13 = a := Fin.ext (hl.2.2.1)
  have a3 : r6 w 7 = b := Fin.ext (hl.2.2.2.1)
  refine wf_ok (by rw [e0]; decide) ?_ hf
  rw [flat72 w _ e0]; unfold decode72
  simp only [e1, a1, a2, a3, Nat.reduceEqDiff, OfNat.ofNat_ne_zero, OfNat.zero_ne_ofNat, one_ne_zero, zero_ne_one, OfNat.one_ne_ofNat, OfNat.ofNat_ne_one, false_and, and_false, and_self, true_and, and_true, reduceIte]

theorem fdecl (d : Fin 64) (a : Fin 64) : Statement (.fdecl d a) := by
  intro hf w nx he
  have hw : w = 0xe8000000 + d.val * 524288 + a.val * 8192 := one (rfl : encode (.fdecl d a) = [0xe8000000 + d.val * 524288 + a.val * 8192]) he
  have hl := layR (c := 116) (d := d.val) (a := a.val) (b := 0) (x := 0) (hw.trans (by clear * -; omega)) (d.isLt) (a.isLt) (by decide) (by decide)
  have e0 := hl.1
  have e1 : fld w 0 7 = 0 := hl.2.2.2.2
  have e2 : fld w 7 6 = 0 := hl.2.2.2.1
  have a1 : r6 w 19 = d := Fin.ext (hl.2.1)
  have a2 : r6 w 13 = a := Fin.ext (hl.2.2.1)
  refine wf_ok (by rw [e0]; decide) ?_ hf
  rw [flat74 w _ e0]; unfold decode74
  simp only [e1, e2, a1, a2, Nat.reduceEqDiff, OfNat.ofNat_ne_zero, OfNat.zero_ne_ofNat, one_ne_zero, zero_ne_one, OfNat.one_ne_ofNat, OfNat.ofNat_ne_one, false_and, and_false, and_self, true_and, and_true, reduceIte]

theorem fstart (d : Fin 64) (a : Fin 64) : Statement (.fstart d a) := by
  intro hf w nx he
  have hw : w = 0xe8000001 + d.val * 524288 + a.val * 8192 := one (rfl : encode (.fstart d a) = [0xe8000001 + d.val * 524288 + a.val * 8192]) he
  have hl := layR (c := 116) (d := d.val) (a := a.val) (b := 0) (x := 1) (hw.trans (by clear * -; omega)) (d.isLt) (a.isLt) (by decide) (by decide)
  have e0 := hl.1
  have e1 : fld w 0 7 = 1 := hl.2.2.2.2
  have e2 : fld w 7 6 = 0 := hl.2.2.2.1
  have a1 : r6 w 19 = d := Fin.ext (hl.2.1)
  have a2 : r6 w 13 = a := Fin.ext (hl.2.2.1)
  refine wf_ok (by rw [e0]; decide) ?_ hf
  rw [flat74 w _ e0]; unfold decode74
  simp only [e1, e2, a1, a2, Nat.reduceEqDiff, OfNat.ofNat_ne_zero, OfNat.zero_ne_ofNat, one_ne_zero, zero_ne_one, OfNat.one_ne_ofNat, OfNat.ofNat_ne_one, false_and, and_false, and_self, true_and, and_true, reduceIte]

theorem fstop (a : Fin 64) : Statement (.fstop a) := by
  intro hf w nx he
  have hw : w = 0xe8000002 + a.val * 8192 := one (rfl : encode (.fstop a) = [0xe8000002 + a.val * 8192]) he
  have hl := layR (c := 116) (d := 0) (a := a.val) (b := 0) (x := 2) (hw.trans (by clear * -; omega)) (by decide) (a.isLt) (by decide) (by decide)
  have e0 := hl.1
  have e1 : fld w 0 7 = 2 := hl.2.2.2.2
  have e2 : fld w 7 6 = 0 := hl.2.2.2.1
  have e3 : fld w 19 6 = 0 := hl.2.1
  have a1 : r6 w 13 = a := Fin.ext (hl.2.2.1)
  refine wf_ok (by rw [e0]; decide) ?_ hf
  rw [flat74 w _ e0]; unfold decode74
  simp only [e1, e2, e3, a1, Nat.reduceEqDiff, OfNat.ofNat_ne_zero, OfNat.zero_ne_ofNat, one_ne_zero, zero_ne_one, OfNat.one_ne_ofNat, OfNat.ofNat_ne_one, false_and, and_false, and_self, true_and, and_true, reduceIte]

theorem fstep (d : Fin 64) (a : Fin 64) (b : Fin 64) : Statement (.fstep d a b) := by
  intro hf w nx he
  have hw : w = 0xe8000003 + d.val * 524288 + a.val * 8192 + b.val * 128 := one (rfl : encode (.fstep d a b) = [0xe8000003 + d.val * 524288 + a.val * 8192 + b.val * 128]) he
  have hl := layR (c := 116) (d := d.val) (a := a.val) (b := b.val) (x := 3) (hw.trans (by clear * -; omega)) (d.isLt) (a.isLt) (b.isLt) (by decide)
  have e0 := hl.1
  have e1 : fld w 0 7 = 3 := hl.2.2.2.2
  have a1 : r6 w 19 = d := Fin.ext (hl.2.1)
  have a2 : r6 w 13 = a := Fin.ext (hl.2.2.1)
  have a3 : r6 w 7 = b := Fin.ext (hl.2.2.2.1)
  refine wf_ok (by rw [e0]; decide) ?_ hf
  rw [flat74 w _ e0]; unfold decode74
  simp only [e1, a1, a2, a3, Nat.reduceEqDiff, OfNat.ofNat_ne_zero, OfNat.zero_ne_ofNat, one_ne_zero, zero_ne_one, OfNat.one_ne_ofNat, OfNat.ofNat_ne_one, false_and, and_false, and_self, true_and, and_true, reduceIte]

theorem fctl (d : Fin 64) (a : Fin 64) (b : Fin 64) : Statement (.fctl d a b) := by
  intro hf w nx he
  have hw : w = 0xe8000004 + d.val * 524288 + a.val * 8192 + b.val * 128 := one (rfl : encode (.fctl d a b) = [0xe8000004 + d.val * 524288 + a.val * 8192 + b.val * 128]) he
  have hl := layR (c := 116) (d := d.val) (a := a.val) (b := b.val) (x := 4) (hw.trans (by clear * -; omega)) (d.isLt) (a.isLt) (b.isLt) (by decide)
  have e0 := hl.1
  have e1 : fld w 0 7 = 4 := hl.2.2.2.2
  have a1 : r6 w 19 = d := Fin.ext (hl.2.1)
  have a2 : r6 w 13 = a := Fin.ext (hl.2.2.1)
  have a3 : r6 w 7 = b := Fin.ext (hl.2.2.2.1)
  refine wf_ok (by rw [e0]; decide) ?_ hf
  rw [flat74 w _ e0]; unfold decode74
  simp only [e1, a1, a2, a3, Nat.reduceEqDiff, OfNat.ofNat_ne_zero, OfNat.zero_ne_ofNat, one_ne_zero, zero_ne_one, OfNat.one_ne_ofNat, OfNat.ofNat_ne_one, false_and, and_false, and_self, true_and, and_true, reduceIte]

theorem fq (d : Fin 64) (a : Fin 64) : Statement (.fq d a) := by
  intro hf w nx he
  have hw : w = 0xe8000005 + d.val * 524288 + a.val * 8192 := one (rfl : encode (.fq d a) = [0xe8000005 + d.val * 524288 + a.val * 8192]) he
  have hl := layR (c := 116) (d := d.val) (a := a.val) (b := 0) (x := 5) (hw.trans (by clear * -; omega)) (d.isLt) (a.isLt) (by decide) (by decide)
  have e0 := hl.1
  have e1 : fld w 0 7 = 5 := hl.2.2.2.2
  have e2 : fld w 7 6 = 0 := hl.2.2.2.1
  have a1 : r6 w 19 = d := Fin.ext (hl.2.1)
  have a2 : r6 w 13 = a := Fin.ext (hl.2.2.1)
  refine wf_ok (by rw [e0]; decide) ?_ hf
  rw [flat74 w _ e0]; unfold decode74
  simp only [e1, e2, a1, a2, Nat.reduceEqDiff, OfNat.ofNat_ne_zero, OfNat.zero_ne_ofNat, one_ne_zero, zero_ne_one, OfNat.one_ne_ofNat, OfNat.ofNat_ne_one, false_and, and_false, and_self, true_and, and_true, reduceIte]

theorem fpull (d : Fin 64) (a : Fin 64) (b : Fin 64) : Statement (.fpull d a b) := by
  intro hf w nx he
  have hw : w = 0xea000000 + d.val * 524288 + a.val * 8192 + b.val * 128 := one (rfl : encode (.fpull d a b) = [0xea000000 + d.val * 524288 + a.val * 8192 + b.val * 128]) he
  have hl := layR (c := 117) (d := d.val) (a := a.val) (b := b.val) (x := 0) (hw.trans (by clear * -; omega)) (d.isLt) (a.isLt) (b.isLt) (by decide)
  have e0 := hl.1
  have e1 : fld w 0 7 = 0 := hl.2.2.2.2
  have a1 : r6 w 19 = d := Fin.ext (hl.2.1)
  have a2 : r6 w 13 = a := Fin.ext (hl.2.2.1)
  have a3 : r6 w 7 = b := Fin.ext (hl.2.2.2.1)
  refine wf_ok (by rw [e0]; decide) ?_ hf
  rw [flat75 w _ e0]; unfold decode75
  simp only [e1, a1, a2, a3, Nat.reduceEqDiff, OfNat.ofNat_ne_zero, OfNat.zero_ne_ofNat, one_ne_zero, zero_ne_one, OfNat.one_ne_ofNat, OfNat.ofNat_ne_one, false_and, and_false, and_self, true_and, and_true, reduceIte]

theorem fcoup (d : Fin 64) (a : Fin 64) (b : Fin 64) : Statement (.fcoup d a b) := by
  intro hf w nx he
  have hw : w = 0xea000001 + d.val * 524288 + a.val * 8192 + b.val * 128 := one (rfl : encode (.fcoup d a b) = [0xea000001 + d.val * 524288 + a.val * 8192 + b.val * 128]) he
  have hl := layR (c := 117) (d := d.val) (a := a.val) (b := b.val) (x := 1) (hw.trans (by clear * -; omega)) (d.isLt) (a.isLt) (b.isLt) (by decide)
  have e0 := hl.1
  have e1 : fld w 0 7 = 1 := hl.2.2.2.2
  have a1 : r6 w 19 = d := Fin.ext (hl.2.1)
  have a2 : r6 w 13 = a := Fin.ext (hl.2.2.1)
  have a3 : r6 w 7 = b := Fin.ext (hl.2.2.2.1)
  refine wf_ok (by rw [e0]; decide) ?_ hf
  rw [flat75 w _ e0]; unfold decode75
  simp only [e1, a1, a2, a3, Nat.reduceEqDiff, OfNat.ofNat_ne_zero, OfNat.zero_ne_ofNat, one_ne_zero, zero_ne_one, OfNat.one_ne_ofNat, OfNat.ofNat_ne_one, false_and, and_false, and_self, true_and, and_true, reduceIte]

theorem fwait (d : Fin 64) (a : Fin 64) (b : Fin 64) : Statement (.fwait d a b) := by
  intro hf w nx he
  have hw : w = 0xea000002 + d.val * 524288 + a.val * 8192 + b.val * 128 := one (rfl : encode (.fwait d a b) = [0xea000002 + d.val * 524288 + a.val * 8192 + b.val * 128]) he
  have hl := layR (c := 117) (d := d.val) (a := a.val) (b := b.val) (x := 2) (hw.trans (by clear * -; omega)) (d.isLt) (a.isLt) (b.isLt) (by decide)
  have e0 := hl.1
  have e1 : fld w 0 7 = 2 := hl.2.2.2.2
  have a1 : r6 w 19 = d := Fin.ext (hl.2.1)
  have a2 : r6 w 13 = a := Fin.ext (hl.2.2.1)
  have a3 : r6 w 7 = b := Fin.ext (hl.2.2.2.1)
  refine wf_ok (by rw [e0]; decide) ?_ hf
  rw [flat75 w _ e0]; unfold decode75
  simp only [e1, a1, a2, a3, Nat.reduceEqDiff, OfNat.ofNat_ne_zero, OfNat.zero_ne_ofNat, one_ne_zero, zero_ne_one, OfNat.one_ne_ofNat, OfNat.ofNat_ne_one, false_and, and_false, and_self, true_and, and_true, reduceIte]

theorem powerOn : Statement (.powerOn) := by
  intro _ w nx he; exact absurd he (by simp [encode, encodeFlat])

theorem timeCounterLock (ref : Option Nat) (peers : List Nat) : Statement (.timeCounterLock ref peers) := by
  intro _ w nx he; exact absurd he (by simp [encode, encodeFlat])

theorem sensorSample (d : Nat) (s : Nat) (temp : BitVec 16) : Statement (.sensorSample d s temp) := by
  intro _ w nx he; exact absurd he (by simp [encode, encodeFlat])

theorem thermRead (d : Nat) (s : Nat) : Statement (.thermRead d s) := by
  intro _ w nx he; exact absurd he (by simp [encode, encodeFlat])

theorem powerStageCutoff : Statement (.powerStageCutoff) := by
  intro _ w nx he; exact absurd he (by simp [encode, encodeFlat])

theorem kslotStage (t : Nat) (off : Nat) (v : BitVec 64) : Statement (.kslotStage t off v) := by
  intro _ w nx he; exact absurd he (by simp [encode, encodeFlat])

theorem kslotCommit (t : Nat) (v : BitVec 64) : Statement (.kslotCommit t v) := by
  intro _ w nx he; exact absurd he (by simp [encode, encodeFlat])

theorem mextStage (off : Nat) (v : BitVec 64) : Statement (.mextStage off v) := by
  intro _ w nx he; exact absurd he (by simp [encode, encodeFlat])

theorem mextExtend (v : BitVec 64) : Statement (.mextExtend v) := by
  intro _ w nx he; exact absurd he (by simp [encode, encodeFlat])

theorem measLatch (n : Nat) : Statement (.measLatch n) := by
  intro _ w nx he; exact absurd he (by simp [encode, encodeFlat])

theorem rtabWrite (n : Nat) (v : BitVec 64) : Statement (.rtabWrite n v) := by
  intro _ w nx he; exact absurd he (by simp [encode, encodeFlat])

theorem ddeadClear (n : Nat) (v : BitVec 64) : Statement (.ddeadClear n v) := by
  intro _ w nx he; exact absurd he (by simp [encode, encodeFlat])

theorem ldeadClear (n : Nat) (v : BitVec 64) : Statement (.ldeadClear n v) := by
  intro _ w nx he; exact absurd he (by simp [encode, encodeFlat])

theorem configWrite (addr : Nat) (v : BitVec 64) : Statement (.configWrite addr v) := by
  intro _ w nx he; exact absurd he (by simp [encode, encodeFlat])

theorem linkFlitReplay (port : Nat) : Statement (.linkFlitReplay port) := by
  intro _ w nx he; exact absurd he (by simp [encode, encodeFlat])

theorem heartbeat (port : Nat) (heard : Bool) : Statement (.heartbeat port heard) := by
  intro _ w nx he; exact absurd he (by simp [encode, encodeFlat])

theorem linkDead (port : Nat) : Statement (.linkDead port) := by
  intro _ w nx he; exact absurd he (by simp [encode, encodeFlat])

theorem deviceDead (n : Nat) : Statement (.deviceDead n) := by
  intro _ w nx he; exact absurd he (by simp [encode, encodeFlat])

theorem deadPeerSynthesis (k : Nat) : Statement (.deadPeerSynthesis k) := by
  intro _ w nx he; exact absurd he (by simp [encode, encodeFlat])

theorem qosFrame : Statement (.qosFrame) := by
  intro _ w nx he; exact absurd he (by simp [encode, encodeFlat])

theorem storeQueueLeave (h : Nat) (slot : Nat) : Statement (.storeQueueLeave h slot) := by
  intro _ w nx he; exact absurd he (by simp [encode, encodeFlat])

theorem writeApplied (k : Nat) : Statement (.writeApplied k) := by
  intro _ w nx he; exact absurd he (by simp [encode, encodeFlat])

theorem recallComplete (k : Nat) : Statement (.recallComplete k) := by
  intro _ w nx he; exact absurd he (by simp [encode, encodeFlat])

theorem loadReturn (h : Nat) (slot : Nat) : Statement (.loadReturn h slot) := by
  intro _ w nx he; exact absurd he (by simp [encode, encodeFlat])

theorem atomicPerformed (k : Nat) : Statement (.atomicPerformed k) := by
  intro _ w nx he; exact absurd he (by simp [encode, encodeFlat])

theorem completionProbeAnswer (h : Nat) (slot : Nat) (agent : Nat) : Statement (.completionProbeAnswer h slot agent) := by
  intro _ w nx he; exact absurd he (by simp [encode, encodeFlat])

theorem asyncTrapEntry : Statement (.asyncTrapEntry) := by
  intro _ w nx he; exact absurd he (by simp [encode, encodeFlat])

theorem contextEnd (h : Nat) (slot : Nat) : Statement (.contextEnd h slot) := by
  intro _ w nx he; exact absurd he (by simp [encode, encodeFlat])

theorem stopCycleReached (t : Nat) : Statement (.stopCycleReached t) := by
  intro _ w nx he; exact absurd he (by simp [encode, encodeFlat])

theorem feltToken (t : Nat) : Statement (.feltToken t) := by
  intro _ w nx he; exact absurd he (by simp [encode, encodeFlat])

theorem stopComplete (t : Nat) : Statement (.stopComplete t) := by
  intro _ w nx he; exact absurd he (by simp [encode, encodeFlat])

theorem tresumeWrite (t : Nat) (v : BitVec 64) : Statement (.tresumeWrite t v) := by
  intro _ w nx he; exact absurd he (by simp [encode, encodeFlat])

theorem resumeStart (t : Nat) : Statement (.resumeStart t) := by
  intro _ w nx he; exact absurd he (by simp [encode, encodeFlat])

theorem dhaltHalt (h : Nat) : Statement (.dhaltHalt h) := by
  intro _ w nx he; exact absurd he (by simp [encode, encodeFlat])

theorem dhaltRelease (h : Nat) : Statement (.dhaltRelease h) := by
  intro _ w nx he; exact absurd he (by simp [encode, encodeFlat])

theorem scoreboardWrite (h : Nat) (off : Nat) (v : BitVec 64) : Statement (.scoreboardWrite h off v) := by
  intro _ w nx he; exact absurd he (by simp [encode, encodeFlat])

theorem dcmdWrite (h : Nat) : Statement (.dcmdWrite h) := by
  intro _ w nx he; exact absurd he (by simp [encode, encodeFlat])

theorem dcmdRead (h : Nat) : Statement (.dcmdRead h) := by
  intro _ w nx he; exact absurd he (by simp [encode, encodeFlat])

theorem ctxctlResume (h : Nat) (slot : Nat) : Statement (.ctxctlResume h slot) := by
  intro _ w nx he; exact absurd he (by simp [encode, encodeFlat])

theorem ctxctlDismiss (h : Nat) (slot : Nat) : Statement (.ctxctlDismiss h slot) := by
  intro _ w nx he; exact absurd he (by simp [encode, encodeFlat])

theorem locationSavedToCold (id : Nat) : Statement (.locationSavedToCold id) := by
  intro _ w nx he; exact absurd he (by simp [encode, encodeFlat])

theorem locationColdToSaved (id : Nat) : Statement (.locationColdToSaved id) := by
  intro _ w nx he; exact absurd he (by simp [encode, encodeFlat])

theorem tpartWrite (t : Nat) (v : BitVec 64) : Statement (.tpartWrite t v) := by
  intro _ w nx he; exact absurd he (by simp [encode, encodeFlat])

theorem tinvWrite (t : Nat) (v : BitVec 64) : Statement (.tinvWrite t v) := by
  intro _ w nx he; exact absurd he (by simp [encode, encodeFlat])

theorem tlbWalk (h : Nat) (t : Nat) (va : Nat) : Statement (.tlbWalk h t va) := by
  intro _ w nx he; exact absurd he (by simp [encode, encodeFlat])

theorem fabArrivalResolve (k : Nat) : Statement (.fabArrivalResolve k) := by
  intro _ w nx he; exact absurd he (by simp [encode, encodeFlat])

theorem arrivalApply (k : Nat) : Statement (.arrivalApply k) := by
  intro _ w nx he; exact absurd he (by simp [encode, encodeFlat])

theorem arrivalCreditReturn (k : Nat) : Statement (.arrivalCreditReturn k) := by
  intro _ w nx he; exact absurd he (by simp [encode, encodeFlat])

theorem mailboxEntry (h : Nat) (slot : Nat) : Statement (.mailboxEntry h slot) := by
  intro _ w nx he; exact absurd he (by simp [encode, encodeFlat])

theorem engineAnswer (h : Nat) (slot : Nat) : Statement (.engineAnswer h slot) := by
  intro _ w nx he; exact absurd he (by simp [encode, encodeFlat])

theorem matrixCommandTake (h : Nat) : Statement (.matrixCommandTake h) := by
  intro _ w nx he; exact absurd he (by simp [encode, encodeFlat])

theorem operandRead (h : Nat) (granule : Nat) : Statement (.operandRead h granule) := by
  intro _ w nx he; exact absurd he (by simp [encode, encodeFlat])

theorem matrixCommandRetire (h : Nat) : Statement (.matrixCommandRetire h) := by
  intro _ w nx he; exact absurd he (by simp [encode, encodeFlat])

theorem remoteCommandArrival (k : Nat) : Statement (.remoteCommandArrival k) := by
  intro _ w nx he; exact absurd he (by simp [encode, encodeFlat])

theorem streamReadAhead (h : Nat) (slot : Nat) (g : Nat) : Statement (.streamReadAhead h slot g) := by
  intro _ w nx he; exact absurd he (by simp [encode, encodeFlat])

theorem streamElementWrite (h : Nat) (slot : Nat) (g : Nat) : Statement (.streamElementWrite h slot g) := by
  intro _ w nx he; exact absurd he (by simp [encode, encodeFlat])

theorem cpyLine (h : Nat) (k : Nat) : Statement (.cpyLine h k) := by
  intro _ w nx he; exact absurd he (by simp [encode, encodeFlat])

theorem multicastRequest (h : Nat) (k : Nat) : Statement (.multicastRequest h k) := by
  intro _ w nx he; exact absurd he (by simp [encode, encodeFlat])

theorem multicastEntryTimeout (k : Nat) : Statement (.multicastEntryTimeout k) := by
  intro _ w nx he; exact absurd he (by simp [encode, encodeFlat])

theorem messageArrival (k : Nat) : Statement (.messageArrival k) := by
  intro _ w nx he; exact absurd he (by simp [encode, encodeFlat])

theorem messageCounterIncrement (h : Nat) : Statement (.messageCounterIncrement h) := by
  intro _ w nx he; exact absurd he (by simp [encode, encodeFlat])

theorem sendAllowanceReturn (k : Nat) : Statement (.sendAllowanceReturn k) := by
  intro _ w nx he; exact absurd he (by simp [encode, encodeFlat])

theorem indexReadAhead (h : Nat) (n : Nat) : Statement (.indexReadAhead h n) := by
  intro _ w nx he; exact absurd he (by simp [encode, encodeFlat])

theorem kernelRun (h : Nat) (n : Nat) : Statement (.kernelRun h n) := by
  intro _ w nx he; exact absurd he (by simp [encode, encodeFlat])

theorem kldReturn (h : Nat) (n : Nat) : Statement (.kldReturn h n) := by
  intro _ w nx he; exact absurd he (by simp [encode, encodeFlat])

theorem gatherStep (h : Nat) (n : Nat) : Statement (.gatherStep h n) := by
  intro _ w nx he; exact absurd he (by simp [encode, encodeFlat])

theorem scatterStep (h : Nat) (n : Nat) : Statement (.scatterStep h n) := by
  intro _ w nx he; exact absurd he (by simp [encode, encodeFlat])

theorem pkloadImageRead (h : Nat) (n : Nat) : Statement (.pkloadImageRead h n) := by
  intro _ w nx he; exact absurd he (by simp [encode, encodeFlat])

theorem fibreReadAhead (h : Nat) (slot : Nat) (n : Nat) : Statement (.fibreReadAhead h slot n) := by
  intro _ w nx he; exact absurd he (by simp [encode, encodeFlat])

theorem siteUpdate (f : Nat) (site : Nat) : Statement (.siteUpdate f site) := by
  intro _ w nx he; exact absurd he (by simp [encode, encodeFlat])

theorem phaseReport (f : Nat) (vat : Nat) : Statement (.phaseReport f vat) := by
  intro _ w nx he; exact absurd he (by simp [encode, encodeFlat])

theorem boundaryPublish (f : Nat) : Statement (.boundaryPublish f) := by
  intro _ w nx he; exact absurd he (by simp [encode, encodeFlat])

theorem boundaryReceive (f : Nat) (vat : Nat) : Statement (.boundaryReceive f vat) := by
  intro _ w nx he; exact absurd he (by simp [encode, encodeFlat])

theorem pullBackgroundCopy (f : Nat) (k : Nat) (line : Nat) : Statement (.pullBackgroundCopy f k line) := by
  intro _ w nx he; exact absurd he (by simp [encode, encodeFlat])

theorem pullComplete (f : Nat) (k : Nat) : Statement (.pullComplete f k) := by
  intro _ w nx he; exact absurd he (by simp [encode, encodeFlat])

theorem pageTakeHeld (frame : Nat) (dev : Nat) (write : Bool) : Statement (.pageTakeHeld frame dev write) := by
  intro _ w nx he; exact absurd he (by simp [encode, encodeFlat])

theorem pageGiveUp (frame : Nat) (dev : Nat) : Statement (.pageGiveUp frame dev) := by
  intro _ w nx he; exact absurd he (by simp [encode, encodeFlat])

theorem migrationReplay (frame : Nat) : Statement (.migrationReplay frame) := by
  intro _ w nx he; exact absurd he (by simp [encode, encodeFlat])

theorem gangPlacement (t : Nat) : Statement (.gangPlacement t) := by
  intro _ w nx he; exact absurd he (by simp [encode, encodeFlat])

theorem gangEnd (k : Nat) : Statement (.gangEnd k) := by
  intro _ w nx he; exact absurd he (by simp [encode, encodeFlat])

theorem continuationPop (h : Nat) (slot : Nat) : Statement (.continuationPop h slot) := by
  intro _ w nx he; exact absurd he (by simp [encode, encodeFlat])

theorem yieldSignal (t : Nat) : Statement (.yieldSignal t) := by
  intro _ w nx he; exact absurd he (by simp [encode, encodeFlat])

theorem barrierArrival (h : Nat) (slot : Nat) : Statement (.barrierArrival h slot) := by
  intro _ w nx he; exact absurd he (by simp [encode, encodeFlat])

theorem mwaitTimeout (h : Nat) (slot : Nat) : Statement (.mwaitTimeout h slot) := by
  intro _ w nx he; exact absurd he (by simp [encode, encodeFlat])

theorem leaseDue (x : Nat) : Statement (.leaseDue x) := by
  intro _ w nx he; exact absurd he (by simp [encode, encodeFlat])

theorem leaseTake (q : Nat) : Statement (.leaseTake q) := by
  intro _ w nx he; exact absurd he (by simp [encode, encodeFlat])

theorem testSessionEnd (q : Nat) (miscompare : Bool) : Statement (.testSessionEnd q miscompare) := by
  intro _ w nx he; exact absurd he (by simp [encode, encodeFlat])

theorem fadeEvent (x : Nat) (kind : Nat) : Statement (.fadeEvent x kind) := by
  intro _ w nx he; exact absurd he (by simp [encode, encodeFlat])

theorem scoreHalving : Statement (.scoreHalving) := by
  intro _ w nx he; exact absurd he (by simp [encode, encodeFlat])

theorem channelRetirementRetry (x : Nat) : Statement (.channelRetirementRetry x) := by
  intro _ w nx he; exact absurd he (by simp [encode, encodeFlat])

theorem powerLoss : Statement (.powerLoss) := by
  intro _ w nx he; exact absurd he (by simp [encode, encodeFlat])

theorem flat_of {w x : Nat} {i : Instr} (h : decode w x = some i) (hm : ∀ a c, i ≠ .mcmd a c) : decodeFlat w x = some i := by
  unfold decode at h
  split at h
  · split at h
    · split at h
      · split at h
        · exact absurd (Option.some.inj h).symm (hm _ _)
        · exact nomatch h
      · exact nomatch h
    · exact nomatch h
  · split at h
    · rename_i j hj
      split at h
      · rw [hj, ← Option.some.inj h]
      · exact nomatch h
    · exact nomatch h

/-- An instruction that `mcmd` may carry reads back from its one word, before any filter of field values. -/
theorem carried {c : Instr} (hc : c.carriable = true) (hw : c.wfFlat = true) : ∃ y, encodeFlat c = [y] ∧ decodeFlat y 0 = some c := by
  cases c <;> first
    | exact absurd hc Bool.false_ne_true
    | exact ⟨_, rfl, flat_of (mmac _ _ _ _ hw _ 0 (.inl rfl)) (by intros; exact Instr.noConfusion)⟩
    | exact ⟨_, rfl, flat_of (mmacS _ _ _ _ _ hw _ 0 (.inl rfl)) (by intros; exact Instr.noConfusion)⟩
    | exact ⟨_, rfl, flat_of (mmacSs _ _ _ _ _ hw _ 0 (.inl rfl)) (by intros; exact Instr.noConfusion)⟩
    | exact ⟨_, rfl, flat_of (mmacTri _ _ _ _ hw _ 0 (.inl rfl)) (by intros; exact Instr.noConfusion)⟩
    | exact ⟨_, rfl, flat_of (mgrp _ _ _ _ _ hw _ 0 (.inl rfl)) (by intros; exact Instr.noConfusion)⟩
    | exact ⟨_, rfl, flat_of (zclr _ _ hw _ 0 (.inl rfl)) (by intros; exact Instr.noConfusion)⟩
    | exact ⟨_, rfl, flat_of (zanchor _ _ hw _ 0 (.inl rfl)) (by intros; exact Instr.noConfusion)⟩
    | exact ⟨_, rfl, flat_of (zfit _ _ hw _ 0 (.inl rfl)) (by intros; exact Instr.noConfusion)⟩
    | exact ⟨_, rfl, flat_of (zread _ _ _ _ hw _ 0 (.inl rfl)) (by intros; exact Instr.noConfusion)⟩
    | exact ⟨_, rfl, flat_of (zreadTri _ _ _ _ _ hw _ 0 (.inl rfl)) (by intros; exact Instr.noConfusion)⟩
    | exact ⟨_, rfl, flat_of (zraw _ _ _ hw _ 0 (.inl rfl)) (by intros; exact Instr.noConfusion)⟩

theorem mcmd (a : Fin 64) (c : Instr) : Statement (.mcmd a c) := by
  intro hf w nx he
  have hc : c.carriable = true := (Bool.and_eq_true_iff.mp (show (c.carriable && c.wfFlat) = true from hf)).1
  have hwf : c.wfFlat = true := (Bool.and_eq_true_iff.mp (show (c.carriable && c.wfFlat) = true from hf)).2
  obtain ⟨y, hy, hd⟩ := carried hc hwf
  have hx := two ((congrArg (List.cons (0xCE000000 + a.val * 8192)) hy : encode (.mcmd a c) = [0xCE000000 + a.val * 8192, y])) he
  rw [hx.2]; have hw := hx.1
  have hl := layI (c := 103) (d := 0) (a := a.val) (x := 0) (hw.trans (by clear * -; omega)) (by decide) a.isLt (by decide)
  have e1 : fld w 0 13 = 0 := hl.2.2.2
  have e2 : fld w 19 6 = 0 := hl.2.1
  have a1 : r6 w 13 = a := Fin.ext hl.2.2.1
  unfold decode
  rw [if_pos (show w / 33554432 = 0x67 from hl.1), if_pos ⟨e1, e2⟩, hd, a1]
  exact if_pos hf

end Sys2Proof.Laws.RoundTrip
end

