-- ==== Sys2Proof/Tests/Slice0.lean ====
section
/-! SUPPORT. Tests: ill-formed instructions are refused, words of the specification's encodings decode to their instructions, single steps give the values that the rules state, and every premise of the statements is met by a small concrete state. -/

set_option Elab.async false

namespace Sys2Proof.Tests

open Sys2Proof Sys2Proof.Machine

/-! ### A small machine for the tests -/

/-- A capability over core 0's scratch memory, at an offset. -/
def capS (off perm : Nat) : Wreg := ⟨BitVec.ofNat 128 (0x10000000000 + off + perm * 2 ^ 64 + 4 * 2 ^ 80 + 0x60000 * 2 ^ 109), true⟩

/-- A capability over the first 64 GiB of virtual addresses. -/
def capV (a perm : Nat) : Wreg := ⟨BitVec.ofNat 128 (a + perm * 2 ^ 64 + 20 * 2 ^ 84 + 65536 * 2 ^ 109), true⟩

/-- Sealed, with its kind kept in OKIND. -/
def sealedV : Wreg := ⟨(capV 0 4095).bits ||| (3 : BitVec 128) <<< 80, true⟩

/-- A name of w5 of the context with identifier 1 and generation 1. -/
def nameW5 : Wreg := ⟨BitVec.ofNat 128 (0x20000000000 + 2 ^ 17 + 5 * 128 + 2 ^ 56 + (128 + 32 + 2048) * 2 ^ 64 + 2 ^ 80), true⟩

/-- Context registers over those of reset. -/
def regsOf (l : List (Nat × Wreg)) : Vector Wreg 64 := l.foldl (fun v x => v.setIfInBounds x.1 x.2) Ctx.reset.w

/-- The registers that the tests use. -/
def file : Vector Wreg 64 :=
  regsOf [(2, .plain 6), (3, .plain 0), (4, capS 0x100 4095), (5, capV 0x20000 4095), (6, .plain 16), (7, sealedV), (8, nameW5), (9, .plain 0x7E030739)]

/-- Headers of blocks of 4 and 1 words at 0x10000 and 0x10020; in the first, after one word, `add w10, w2, w3` and `br 0`. -/
def code : Memory := [(0x10000, 4), (0x10007, 0xFE), (0x1000C, 0x80), (0x1000D, 0x41), (0x1000E, 0x50), (0x10013, 0x30), (0x10020, 1), (0x10027, 0xFE)].foldl (fun m x => m.setByte x.1 x.2) Memory.init

/-- Core 0's control context of tenant 0 within a block of four words; the first GiB of virtual addresses is mapped to device memory. -/
def base : State := { State.reset with
  core := { Core.reset with tlb := [⟨0, 0, 30, 0, true, true, true, 0, 0⟩], gang := some (1, 0) }
  cpu := { Ctx.reset with
    run := .issuing, ident := 1, gen := 1, code := capV 0x10000 4095, tvec := capV 0x40000 4095, hdr := 0x10000, len := 4, pc := 0x10008, w := file
    cw := Vector.replicate 8 (capV 0x30000 4095) }
  mem := code
  tenants := [(0, { Tenant.reset with troot := 1 })]
  locs := [(1, { Loc.free with state := .resident, gen := 1 })] }

/-- The base with its context changed. -/
def withCpu (f : Ctx → Ctx) : State := base.onCpu f

/-- The base with its constants in core 0's scratch, and with a constant that has been read. -/
def near : State := withCpu fun c => { c with cw := Vector.replicate 8 (capS 0 4095) }

/-- A constant has come back for the instruction that issues. -/
def fetched : State := withCpu fun c => { c with kv := some 5 }

/-- A value was found. -/
def ok {ε α : Type} (r : Except ε α) : Bool := match r with | .ok _ => true | .error _ => false

/-- A value was found, and has a property. -/
def got {ε α : Type} (r : Except ε α) (f : α → Bool) : Bool := match r with | .ok x => f x | .error _ => false

/-- A generator of two elements bound to w48 or v16. -/
def strm (wr clsW : Bool) : Stream := { Stream.reset with cap := capS 0 4095, bnd := true, wr := wr, clsW := clsW, cnt := 2, str := 8, started := true }

/-- The base with generator 0 bound. -/
def bound (x : Stream) : State := withCpu fun c => c.setStream 0 x

/-- In a handler. -/
def trapped : State := withCpu fun c => { c with st := 1, epc := 0x10008, erh := 0x10000, esr := 0 }

/-- Privileged. -/
def prved : State := withCpu fun c => { c with st := c.st ||| (1 : Word) <<< 15 }

/-- With a store on its way. -/
def storing : State := base.enqueue (.store [])

/-- A trap of this cause was taken. -/
def traps {α : Type} (r : Except Stop α) (k : Nat) : Bool := match r with | .error (.trap x) => x.code == k | _ => false

/-! ### Ill-formed instructions -/

/-- Terms for the checks of `Instr.wfFlat`, each with a field just outside what its entry allows. -/
theorem test_ill_formed_core : ([
   .add 0 0 0, .shli 1 2 64, .shri 1 2 64, .srai 1 2 0x1FFF, .hstart 10 1 2, .fmt 6 0 0 0 0, .rep 0, .rep 4096, .repW 0, .ldSized 1 2 3 7 0 0, .ldSized 1 2 3 0 1 3, .ldSizedK 1 2 ⟨0, 0⟩ 7 0 0, .stSized 1 2 3 7 0,
   .stSizedK 1 2 ⟨0, 0⟩ 7 0, .ldfeP 3 1 2, .ldfeP 0 1 2, .ldfeClrP 63 1 2, .amoAddScoped 0 1 2 3 0 0, .amoCasScoped 3 1 2 3 0 1] : List Instr).all (fun i => !i.wellFormed) = true := by decide +kernel

/-- Terms for the checks of `Instr.wfFlat`, each with a field just outside what its entry allows. -/
theorem test_ill_formed_registers : ([
   .fenceRel 6, .fenceAcq 7, .fenceAr 6, .gbar 6, .gvoteAnd 1 2 6, .gvoteAdd 1 2 7, .rcap 1 0 0 0, .rcap 1 60 4 0, .rcap 1 30 2 1, .rcap 1 7 1 2, .rcap 1 1 0 3, .rcapC 1 0 0, .rarm 0 0 0, .rdis 63 1 0, .rstat 1 3,
   .rput 0 1 2 7 0, .rput 0 1 2 0 3, .rput 0 1 32 0 1, .rput 0 1 8 0 2, .fmset 8 1, .fmsetK 8 ⟨0, 0⟩, .fmget 1 8, .getsr 1 8, .setsr 3 1, .setsr 8 1, .setcw 8 1, .launch 1 0, .launch 1 60, .cpush 1 62] : List Instr).all (fun i => !i.wellFormed) = true := by decide +kernel

/-- Terms for the checks of `Instr.wfFlat`, each with a field just outside what its entry allows. -/
theorem test_ill_formed_vector : ([
   .vaddF 3 1 2 (.reg 3) 0, .vaddF 0 32 2 (.reg 3) 0, .vmulF 0 1 32 (.reg 3) 0, .vfma 0 1 2 (.reg 32) 0, .vabs 1 2 3 0, .vrsq 32 2 0 0, .vcmpEqF 3 1 2 (.reg 3) 0, .vcmpUnF 0 8 2 (.reg 3) 0, .vaddW 32 1 (.reg 2) 0,
   .vsraH 1 2 (.reg 32) 0, .vcmpEqW 8 1 (.reg 2) 0, .vcmpLeUH 1 32 (.konst ⟨0, 0⟩) 0, .vselW 1 2 32 0, .vselH 32 2 3 0, .vcvtF16F32 1 2 2 0, .vcvtF32Bf16 1 32 1 0, .vcvtWF32 32 1 0, .vcvtF32W 1 32 0, .vcvtN 32 1 2 0 0, .vcvtNf 1 32 2 0 0,
   .vmov 32 1 0, .vpermW 1 2 32 0, .vpermH 1 32 2 0, .vbcstW 32 1 0, .vbcstH 63 1 0, .vextW 1 32 2, .vextH 1 32 2, .vredSumF32 1 32 0, .vredSumW 1 63 0, .pand 8 1 2, .por 1 8 2, .pandn 1 2 8, .pwhileH 8 1, .pwhileW 8 1, .pmov 8 1, .pget 1 8] : List Instr).all (fun i => !i.wellFormed) = true := by decide +kernel

/-- Terms for the checks of `Instr.wfFlat`, each with a field just outside what its entry allows. -/
theorem test_ill_formed_engines : ([
   .vld 32 1 (.reg 2) 0, .vst 32 1 (.reg 2) 0, .vldBcW 32 1 (.reg 2) 0, .vldBcH 32 1 (.reg 2) 0, .mmac 1 2 3 0, .mmac 0 2 0 0, .mmacTri 62 2 0 0, .mmacS 8 1 2 0 0, .mmacSs 1 1 2 0 0, .mgrp 1 62 2 0 0, .dcut 8 1 2 0, .dcut 0 61 2 0, .dcutP 0 63 2 0,
   .dcutCo 1 1 2 0, .dcutCo 0 57 2 0, .mtbr 1 8, .mtbw 8 1, .sbind 8 1 2 0 0 0, .sbind 0 1 32 0 0 0, .sbind 0 1 2 0 1 0, .sbind 0 61 2 0 0 0, .sfree 8, .sstat 1 8, .mbset 8 1 2, .msend 1 2 7, .mrecv 1 2 0, .mrecv 1 2 63, .mcnt 1 32, .mcntSet 32 1, .mwcnt 32 1] : List Instr).all (fun i => !i.wellFormed) = true := by decide +kernel

/-- Terms for the checks of `Instr.wfFlat` and of `mcmd`, each with a field just outside what its entry allows. -/
theorem test_ill_formed_prefetch : ([
   .pkload 4 1, .pkrun 4 1 2 0, .pkrun 0 61 2 0, .pkstat 1 4, .pkstop 4, .fbopen 8 1, .fbopen 0 62, .fbadv 2 8, .fbadv 3 0, .fbadv 0 0, .fbend 1 8, .fbclose 8, .fbdot 1 8 0, .fbdot 1 2 2, .fpull 1 2 0, .fcoup 1 2 63, .mcmd 1 .nop, .mcmd 1 (.mcmd 2 (.zclr 1 0)), .mcmd 1 (.mmac 0 2 0 0)] : List Instr).all (fun i => !i.wellFormed) = true := by decide +kernel


/-! ### Words decode to their instructions -/

/-- Every word, with the one after it, decodes to its instruction, which is well formed. -/
noncomputable def decodes (l : List (Nat × Nat × Instr)) : Bool := l.all fun (w, x, i) => decide (decode w x = some i ∧ i.wellFormed = true)

/-- Words that the entries of the specification write out beside their assembly. -/
theorem test_decode_words_of_the_entries_1 : decodes [
  (0x0040A300, 0, .add 8 5 6), (0x0240A302, 0, .cmpLt 8 5 6), (0x0428A020, 0, .addi 5 5 32), (0x04401FFF, 0, .addi 8 0 0x1FFF), (0x2030A380, 0, .cbnd 6 5 7),
  (0x3007FFFC, 0, .br 0x7FFFC), (0x38300005, 0, .loop 6 5), (0x3E000000, 0, .nop), (0x3E000004, 0, .rep 4), (0x3E00A000, 0, .repW 5), (0x4040A010, 0, .ld 8 5 16),
  (0x4240A018, 0, .st 8 5 24), (0x4448C020, 0, .ldc 9 6 32), (0x46485FF0, 0, .stc 9 2 0x1FF0), (0x4840A306, 0, .ldSized 8 5 6 0 1 2),
  (0x4848C02B, 0, .ldSized 9 6 0 5 0 3), (0x4A40C02B, 0, .stSized 8 6 0 5 3), (0x4C40C005, 0, .ldfeClrG 8 6 0), (0x4C40C007, 0, .stfeWait 8 6 0),
  (0x4E48C387, 0, .amoCas 9 6 7 0 0), (0x50000009, 0, .fenceRel 2), (0x50000013, 0, .fenceAr 4), (0x5200C080, 0, .pf 6 128), (0x5440C000, 0, .mon 8 6 0),
  (0x54512001, 0, .mwait 10 9), (0x56000020, 0, .gbar 4), (0x56412023, 0, .gvoteMinU 8 9 4), (0x604A8180, 0, .rcap 9 20 3 0)] = true := by decide +kernel

theorem test_decode_words_of_the_entries_2 : decodes [
  (0x60028188, 0, .rarm 20 3 0), (0x6002818C, 0, .rdis 20 3 0), (0x60400010, 0, .rstat 8 0), (0x62092614, 0, .rput 1 9 12 5 0), (0x6E406000, 0, .getsr 8 3),
  (0x6E000481, 0, .setsr 0 9), (0x6E400002, 0, .tcnt 8), (0x6E100483, 0, .setcw 2 9), (0x70000007, 0, .sys 7), (0x70080000, 0, .trap), (0x70100000, 0, .rfe),
  (0x72010483, 0, .stopat 8 9), (0x724A8000, 0, .launch 9 20), (0x74490000, 0, .hq 9 8), (0x7C010484, 0, .wmask 8 9), (0x7C012001, 0, .pmigClr 9),
  (0x7C012500, 0, .pmig 9 10), (0x7C028003, 0, .mcohSw 20), (0x7C028A82, 0, .mcohHw 20 21), (0x80182100, 0, .vaddF 0 3 1 (.reg 2) 0),
  (0x8020A315, 0, .vfma 0 4 5 (.reg 6) 2), (0x86102002, 0, .vexp2 2 1 0 0), (0x88082102, 0, .vcmpLtF 0 1 1 (.reg 2) 0), (0x9C282080, 0, .vcvtF16F32 5 1 1 0),
  (0x9E402480, 0, .vcvtN 8 1 9 0 0), (0xA0390003, 0, .vbcstW 7 8 0), (0xA2406000, 0, .vredSumF32 8 3 0), (0xA4182100, 0, .pand 3 1 2)] = true := by decide +kernel

theorem test_decode_words_of_the_entries_3 : decodes [
  (0xA610A300, 0, .vld 2 5 (.reg 6) 0), (0xC0010601, 0, .mmac 8 12 0 1), (0xC0110604, 0, .mmacS 2 8 12 0 0), (0xC2010602, 0, .mmacTri 8 12 0 2),
  (0xC4810623, 0, .mgrp 16 8 12 2 3), (0xC6000000, 0, .zclr 0 0), (0xC6012005, 0, .zanchor 9 1), (0xC6012009, 0, .zfit 9 1), (0xC800C380, 0, .zread 6 7 0 0),
  (0xC850C394, 0, .zreadTri 10 6 7 1 0), (0xC800C38B, 0, .zraw 6 7 3), (0xCA028C00, 0, .dcut 0 20 24 0), (0xCA038F01, 0, .dcutP 0 28 30 0),
  (0xCA140C0A, 0, .dcutCo 2 32 24 2), (0xCC480000, 0, .mtbr 9 0), (0xCC012001, 0, .mtbw 0 9), (0xD0028010, 0, .sbind 0 20 0 1 0 0),
  (0xD01B090C, 0, .sbind 3 24 18 0 1 1), (0xD0180001, 0, .sfree 3), (0xD0404002, 0, .sstat 8 2), (0xD230A380, 0, .cpy 6 5 7 0), (0xD230A381, 0, .cpyMc 6 5 7 0),
  (0xD230A382, 0, .cpy 6 5 7 1), (0xD4090480, 0, .mbset 1 8 9), (0xD448C001, 0, .msend 9 6 0), (0xD448C029, 0, .msend 9 6 5), (0xD648C500, 0, .mrecv 9 6 10),
  (0xD8406000, 0, .mcnt 8 3)] = true := by decide +kernel

theorem test_decode_words_of_the_entries_4 : decodes [
  (0xD8006001, 0, .mcntSet 3 0), (0xD8006482, 0, .mwcnt 3 9), (0xDA500000, 0, .wfm 10), (0xDAC00001, 0, .mpop 24), (0xDC00C380, 0, .feset 6 7),
  (0xDC00C381, 0, .feclr 6 7), (0xE008A000, 0, .pkload 1 5), (0xE0028489, 0, .pkrun 0 20 9 1), (0xE0404002, 0, .pkstat 8 2), (0xE0004003, 0, .pkstop 2),
  (0xE2028000, 0, .fbopen 0 20), (0xE2500001, 0, .fbadv 10 0), (0xE2600002, 0, .fbend 12 0), (0xE2000003, 0, .fbclose 0), (0xE4480080, 0, .fbdot 9 0 1),
  (0xE84A8000, 0, .fdecl 9 20), (0xE84A8001, 0, .fstart 9 20), (0xE8028002, 0, .fstop 20), (0xE84A8503, 0, .fstep 9 20 10), (0xE84A8504, 0, .fctl 9 20 10),
  (0xE8428005, 0, .fq 8 20), (0xEA4A8B00, 0, .fpull 9 20 22), (0xEA4A8B01, 0, .fcoup 9 20 22), (0xEA428482, 0, .fwait 8 20 9)] = true := by decide +kernel

/-- The word of R236 with the word of R228. -/
theorem test_decode_words_in_pairs : decodes [
  (0xCE012000, 0xC0010601, .mcmd 9 (.mmac 8 12 0 1))] = true := by decide +kernel

/-- The K forms of vector operations name a constant in place of a register (R58). -/
theorem test_decode_vector_constants : decodes [
  (0x8E30A068, 0xB234B, .vaddW 6 5 (.konst ⟨5, 0x1234B⟩) 5), (0x8230A068, 0xB234B, .vaddF 1 6 5 (.konst ⟨5, 0x1234B⟩) 5),
  (0x8A30A06A, 0xB234B, .vcmpLtF 1 6 5 (.konst ⟨5, 0x1234B⟩) 5), (0xA630A068, 0xB234B, .vld 6 5 (.konst ⟨5, 0x1234B⟩) 5)] = true := by decide +kernel

/-- Words made from the field places of the encoding table, one of each mnemonic. -/
theorem test_decode_integer_1 : decodes [
  (0x0132B600, 0x0, .add 38 21 44), (0x0132B601, 0x0, .sub 38 21 44), (0x0132B602, 0x0, .mul 38 21 44), (0x0132B603, 0x0, .mulh 38 21 44),
  (0x0132B604, 0x0, .mulhU 38 21 44), (0x0132B605, 0x0, .div 38 21 44), (0x0132B606, 0x0, .divU 38 21 44), (0x0132B607, 0x0, .rem 38 21 44),
  (0x0132B608, 0x0, .remU 38 21 44), (0x0132B609, 0x0, .and 38 21 44), (0x0132B60A, 0x0, .or 38 21 44), (0x0132B60B, 0x0, .xor 38 21 44),
  (0x0132B60C, 0x0, .shl 38 21 44), (0x0132B60D, 0x0, .shr 38 21 44), (0x0132B60E, 0x0, .sra 38 21 44), (0x0132B60F, 0x0, .min 38 21 44),
  (0x0132B610, 0x0, .minU 38 21 44), (0x0132B611, 0x0, .max 38 21 44), (0x0132B612, 0x0, .maxU 38 21 44), (0x0132B613, 0x0, .sel 38 21 44),
  (0x0132A014, 0x0, .clz 38 21), (0x0132A015, 0x0, .popc 38 21), (0x0132A040, 0xB234B, .addK 38 21 ⟨5, 0x1234B⟩), (0x0132A041, 0xB234B, .subK 38 21 ⟨5, 0x1234B⟩),
  (0x0132A042, 0xB234B, .mulK 38 21 ⟨5, 0x1234B⟩)] = true := by decide +kernel

theorem test_decode_integer_2 : decodes [
  (0x0132A043, 0xB234B, .mulhK 38 21 ⟨5, 0x1234B⟩), (0x0132A044, 0xB234B, .mulhUK 38 21 ⟨5, 0x1234B⟩), (0x0132A045, 0xB234B, .divK 38 21 ⟨5, 0x1234B⟩),
  (0x0132A046, 0xB234B, .divUK 38 21 ⟨5, 0x1234B⟩), (0x0132A047, 0xB234B, .remK 38 21 ⟨5, 0x1234B⟩), (0x0132A048, 0xB234B, .remUK 38 21 ⟨5, 0x1234B⟩),
  (0x0132A049, 0xB234B, .andK 38 21 ⟨5, 0x1234B⟩), (0x0132A04A, 0xB234B, .orK 38 21 ⟨5, 0x1234B⟩), (0x0132A04B, 0xB234B, .xorK 38 21 ⟨5, 0x1234B⟩),
  (0x0132A04C, 0xB234B, .shlK 38 21 ⟨5, 0x1234B⟩), (0x0132A04D, 0xB234B, .shrK 38 21 ⟨5, 0x1234B⟩), (0x0132A04E, 0xB234B, .sraK 38 21 ⟨5, 0x1234B⟩),
  (0x0132A04F, 0xB234B, .minK 38 21 ⟨5, 0x1234B⟩), (0x0132A050, 0xB234B, .minUK 38 21 ⟨5, 0x1234B⟩), (0x0132A051, 0xB234B, .maxK 38 21 ⟨5, 0x1234B⟩),
  (0x0132A052, 0xB234B, .maxUK 38 21 ⟨5, 0x1234B⟩), (0x0132A053, 0xB234B, .selK 38 21 ⟨5, 0x1234B⟩), (0x0332B600, 0x0, .cmpEq 38 21 44),
  (0x0332B601, 0x0, .cmpNe 38 21 44), (0x0332B602, 0x0, .cmpLt 38 21 44), (0x0332B603, 0x0, .cmpGe 38 21 44), (0x0332B604, 0x0, .cmpLtU 38 21 44),
  (0x0332B605, 0x0, .cmpGeU 38 21 44), (0x0332A040, 0xB234B, .cmpEqK 38 21 ⟨5, 0x1234B⟩), (0x0332A041, 0xB234B, .cmpNeK 38 21 ⟨5, 0x1234B⟩)] = true := by decide +kernel

theorem test_decode_integer_3 : decodes [
  (0x0332A042, 0xB234B, .cmpLtK 38 21 ⟨5, 0x1234B⟩), (0x0332A043, 0xB234B, .cmpGeK 38 21 ⟨5, 0x1234B⟩), (0x0332A044, 0xB234B, .cmpLtUK 38 21 ⟨5, 0x1234B⟩),
  (0x0332A045, 0xB234B, .cmpGeUK 38 21 ⟨5, 0x1234B⟩), (0x0532BA35, 0x0, .addi 38 21 6709), (0x0732BA35, 0x0, .andi 38 21 6709), (0x0932BA35, 0x0, .ori 38 21 6709),
  (0x0B32BA35, 0x0, .xori 38 21 6709), (0x0C30A025, 0x0, .shli 6 5 37), (0x0E30A025, 0x0, .shri 6 5 37), (0x1030A025, 0x0, .srai 6 5 37),
  (0x1332BA35, 0x0, .lhi 38 21 6709)] = true := by decide +kernel

theorem test_decode_capability_1 : decodes [
  (0x2132B600, 0x0, .cbnd 38 21 44), (0x2132B601, 0x0, .cbndX 38 21 44), (0x2132B602, 0x0, .cprm 38 21 44), (0x2132A003, 0x0, .csea 38 21),
  (0x2132A004, 0x0, .cuns 38 21), (0x2132B605, 0x0, .cadr 38 21 44), (0x2132A006, 0x0, .clen 38 21), (0x2132A007, 0x0, .cbas 38 21), (0x2132B608, 0x0, .ctst 38 21 44),
  (0x2332BA35, 0x0, .cadrInc 38 21 6709)] = true := by decide +kernel

theorem test_decode_control_1 : decodes [
  (0x3005A5A5, 0x0, .br 370085), (0x300DA5A5, 0x0, .call 370085), (0x329DA5A5, 0x0, .bc 19 370085), (0x349DA5A5, 0x0, .bcZ 19 370085),
  (0x362DA5A5, 0x0, .bpAny 5 370085), (0x366DA5A5, 0x0, .bpAll 5 370085), (0x36ADA5A5, 0x0, .bpNone 5 370085), (0x36EDA5A5, 0x0, .bpNall 5 370085),
  (0x389DA5A5, 0x0, .loop 19 370085), (0x3A02A000, 0x0, .jr 21), (0x3A000001, 0x0, .ret), (0x3A02A002, 0x0, .callReg 21), (0x3A30A183, 0x0, .hstart 6 5 3),
  (0x3A000004, 0x0, .hend), (0x3A02A005, 0x0, .hjoin 21), (0x3A000006, 0x0, .yield), (0x3C0007A5, 0x0, .fmt 1 1 6 4 5), (0x3E000000, 0x0, .nop),
  (0x3E000025, 0x0, .rep 37), (0x3E02A000, 0x0, .repW 21)] = true := by decide +kernel

theorem test_decode_memory_1 : decodes [
  (0x4132BA35, 0x0, .ld 38 21 6709), (0x4332BA35, 0x0, .st 38 21 6709), (0x4532BA35, 0x0, .ldc 38 21 6709), (0x4732BA35, 0x0, .stc 38 21 6709),
  (0x4932B62D, 0x0, .ldSized 38 21 44 5 1 1), (0x4932A06D, 0xB234B, .ldSizedK 38 21 ⟨5, 0x1234B⟩ 5 1 1), (0x4B32B629, 0x0, .stSized 38 21 44 5 1),
  (0x4B32A069, 0xB234B, .stSizedK 38 21 ⟨5, 0x1234B⟩ 5 1), (0x4D32B600, 0x0, .ldfe 38 21 44), (0x4D32B601, 0x0, .ldfeG 38 21 44), (0x4D32B602, 0x0, .ldfeP 38 21 44),
  (0x4D32B603, 0x0, .stfe 38 21 44), (0x4D32B604, 0x0, .ldfeClr 38 21 44), (0x4D32B605, 0x0, .ldfeClrG 38 21 44), (0x4D32B606, 0x0, .ldfeClrP 38 21 44),
  (0x4D32B607, 0x0, .stfeWait 38 21 44), (0x4F32B618, 0x0, .amoAdd 38 21 44 1 1), (0x4F32B619, 0x0, .amoAnd 38 21 44 1 1), (0x4F32B61A, 0x0, .amoOr 38 21 44 1 1),
  (0x4F32B61B, 0x0, .amoXor 38 21 44 1 1), (0x4F32B61C, 0x0, .amoMinU 38 21 44 1 1), (0x4F32B61D, 0x0, .amoMaxU 38 21 44 1 1), (0x4F32B61E, 0x0, .amoSwap 38 21 44 1 1),
  (0x4F32B61F, 0x0, .amoCas 38 21 44 1 1), (0x50000015, 0x0, .fenceRel 5)] = true := by decide +kernel

theorem test_decode_memory_2 : decodes [
  (0x50000016, 0x0, .fenceAcq 5), (0x50000017, 0x0, .fenceAr 5), (0x5202BA35, 0x0, .pf 21 6709), (0x520ABA35, 0x0, .pfW 21 6709), (0x5212BA35, 0x0, .pfKeep 21 6709),
  (0x521ABA35, 0x0, .pfDrop 21 6709), (0x5532B600, 0x0, .mon 38 21 44), (0x5532A001, 0x0, .mwait 38 21), (0x56000028, 0x0, .gbar 5),
  (0x5732A029, 0x0, .gvoteAnd 38 21 5), (0x5732A02A, 0x0, .gvoteOr 38 21 5), (0x5732A02B, 0x0, .gvoteMinU 38 21 5), (0x5732A02C, 0x0, .gvoteMaxU 38 21 5),
  (0x5732A02D, 0x0, .gvoteAdd 38 21 5), (0x5F32B618, 0x0, .amoAddScoped 3 38 21 44 1 1), (0x5F32B619, 0x0, .amoAndScoped 3 38 21 44 1 1),
  (0x5F32B61A, 0x0, .amoOrScoped 3 38 21 44 1 1), (0x5F32B61B, 0x0, .amoXorScoped 3 38 21 44 1 1), (0x5F32B61C, 0x0, .amoMinUScoped 3 38 21 44 1 1),
  (0x5F32B61D, 0x0, .amoMaxUScoped 3 38 21 44 1 1), (0x5F32B61E, 0x0, .amoSwapScoped 3 38 21 44 1 1), (0x5F32B61F, 0x0, .amoCasScoped 3 38 21 44 1 1)] = true := by decide +kernel

theorem test_decode_registers_and_system_1 : decodes [
  (0x6132A501, 0x0, .rcap 38 21 10 1), (0x6030A184, 0x0, .rcapC 6 5 3), (0x6002B508, 0x0, .rarm 21 42 0), (0x6002268D, 0x0, .rdis 17 13 1),
  (0x60300012, 0x0, .rstat 6 2), (0x6132B614, 0x0, .rcapX 38 21 44), (0x6230A18A, 0x0, .rput 6 5 3 2 2), (0x6C300180, 0x0, .fmset 6 3),
  (0x6C300040, 0xB234B, .fmsetK 6 ⟨5, 0x1234B⟩), (0x6C30A001, 0x0, .fmget 6 5), (0x6E30A000, 0x0, .getsr 6 5), (0x6E00A181, 0x0, .setsr 5 3),
  (0x6F300002, 0x0, .tcnt 38), (0x6E300183, 0x0, .setcw 6 3), (0x70001A35, 0x0, .sys 6709), (0x70080000, 0x0, .trap), (0x70100000, 0x0, .rfe),
  (0x7332A000, 0x0, .launch 38 21), (0x7332A001, 0x0, .cpush 38 21), (0x7202A002, 0x0, .cjoin 21), (0x7202B603, 0x0, .stopat 21 44), (0x7532A000, 0x0, .hq 38 21),
  (0x7532A001, 0x0, .hqRd 38 21), (0x74000002, 0x0, .lack), (0x74000003, 0x0, .lackOff)] = true := by decide +kernel

theorem test_decode_registers_and_system_2 : decodes [
  (0x7402B604, 0x0, .hauth 21 44), (0x7C02B600, 0x0, .pmig 21 44), (0x7C02A001, 0x0, .pmigClr 21), (0x7C02B602, 0x0, .mcohHw 21 44), (0x7C02A003, 0x0, .mcohSw 21),
  (0x7C02B604, 0x0, .wmask 21 44)] = true := by decide +kernel

theorem test_decode_vector_float_1 : decodes [
  (0x8230A1A8, 0x0, .vaddF 1 6 5 (.reg 3) 5), (0x8230A1A9, 0x0, .vsubF 1 6 5 (.reg 3) 5), (0x8230A1AA, 0x0, .vmulF 1 6 5 (.reg 3) 5),
  (0x8230A1AB, 0x0, .vminF 1 6 5 (.reg 3) 5), (0x8230A1AC, 0x0, .vmaxF 1 6 5 (.reg 3) 5), (0x8230A1AD, 0x0, .vfma 1 6 5 (.reg 3) 5),
  (0x8230A1AE, 0x0, .vfms 1 6 5 (.reg 3) 5), (0x8630A0A8, 0x0, .vabs 6 5 1 5), (0x8630A0A9, 0x0, .vneg 6 5 1 5), (0x8630A0AA, 0x0, .vexp2 6 5 1 5),
  (0x8630A0AB, 0x0, .vrcp 6 5 1 5), (0x8630A0AC, 0x0, .vrsq 6 5 1 5), (0x8A30A1A8, 0x0, .vcmpEqF 1 6 5 (.reg 3) 5), (0x8A30A1A9, 0x0, .vcmpNeF 1 6 5 (.reg 3) 5),
  (0x8A30A1AA, 0x0, .vcmpLtF 1 6 5 (.reg 3) 5), (0x8A30A1AB, 0x0, .vcmpLeF 1 6 5 (.reg 3) 5), (0x8A30A1AC, 0x0, .vcmpUnF 1 6 5 (.reg 3) 5)] = true := by decide +kernel

theorem test_decode_vector_1 : decodes [
  (0x8E30A1A8, 0x0, .vaddW 6 5 (.reg 3) 5), (0x8E30A1A9, 0x0, .vsubW 6 5 (.reg 3) 5), (0x8E30A1AA, 0x0, .vmulW 6 5 (.reg 3) 5), (0x8E30A1AB, 0x0, .vminW 6 5 (.reg 3) 5),
  (0x8E30A1AC, 0x0, .vmaxW 6 5 (.reg 3) 5), (0x8E30A1AD, 0x0, .vminUW 6 5 (.reg 3) 5), (0x8E30A1AE, 0x0, .vmaxUW 6 5 (.reg 3) 5),
  (0x9030A1A8, 0x0, .vandW 6 5 (.reg 3) 5), (0x9030A1A9, 0x0, .vorW 6 5 (.reg 3) 5), (0x9030A1AA, 0x0, .vxorW 6 5 (.reg 3) 5), (0x9030A1AB, 0x0, .vshlW 6 5 (.reg 3) 5),
  (0x9030A1AC, 0x0, .vshrW 6 5 (.reg 3) 5), (0x9030A1AD, 0x0, .vsraW 6 5 (.reg 3) 5), (0x9230A1A8, 0x0, .vaddH 6 5 (.reg 3) 5), (0x9230A1A9, 0x0, .vsubH 6 5 (.reg 3) 5),
  (0x9230A1AA, 0x0, .vmulH 6 5 (.reg 3) 5), (0x9230A1AB, 0x0, .vminH 6 5 (.reg 3) 5), (0x9230A1AC, 0x0, .vmaxH 6 5 (.reg 3) 5),
  (0x9230A1AD, 0x0, .vminUH 6 5 (.reg 3) 5), (0x9230A1AE, 0x0, .vmaxUH 6 5 (.reg 3) 5), (0x9430A1A8, 0x0, .vandH 6 5 (.reg 3) 5),
  (0x9430A1A9, 0x0, .vorH 6 5 (.reg 3) 5), (0x9430A1AA, 0x0, .vxorH 6 5 (.reg 3) 5), (0x9430A1AB, 0x0, .vshlH 6 5 (.reg 3) 5), (0x9430A1AC, 0x0, .vshrH 6 5 (.reg 3) 5)] = true := by decide +kernel

theorem test_decode_vector_2 : decodes [
  (0x9430A1AD, 0x0, .vsraH 6 5 (.reg 3) 5), (0x9630A1A8, 0x0, .vcmpEqW 6 5 (.reg 3) 5), (0x9630A1A9, 0x0, .vcmpNeW 6 5 (.reg 3) 5),
  (0x9630A1AA, 0x0, .vcmpLtW 6 5 (.reg 3) 5), (0x9630A1AB, 0x0, .vcmpLeW 6 5 (.reg 3) 5), (0x9630A1AC, 0x0, .vcmpLtUW 6 5 (.reg 3) 5),
  (0x9630A1AD, 0x0, .vcmpLeUW 6 5 (.reg 3) 5), (0x9830A1A8, 0x0, .vcmpEqH 6 5 (.reg 3) 5), (0x9830A1A9, 0x0, .vcmpNeH 6 5 (.reg 3) 5),
  (0x9830A1AA, 0x0, .vcmpLtH 6 5 (.reg 3) 5), (0x9830A1AB, 0x0, .vcmpLeH 6 5 (.reg 3) 5), (0x9830A1AC, 0x0, .vcmpLtUH 6 5 (.reg 3) 5),
  (0x9830A1AD, 0x0, .vcmpLeUH 6 5 (.reg 3) 5), (0x9A30A190, 0x0, .vselW 6 5 3 2), (0x9A30A191, 0x0, .vselH 6 5 3 2), (0x9C30A0A8, 0x0, .vcvtF16F32 6 5 1 5),
  (0x9C30A0A9, 0x0, .vcvtBf16F32 6 5 1 5), (0x9C30A0AA, 0x0, .vcvtF32F16 6 5 1 5), (0x9C30A0AB, 0x0, .vcvtF32Bf16 6 5 1 5), (0x9C30A02C, 0x0, .vcvtWF32 6 5 5),
  (0x9C30A02D, 0x0, .vcvtF32W 6 5 5), (0x9E30A1AA, 0x0, .vcvtN 6 5 3 5 2), (0x9E30A1AE, 0x0, .vcvtNf 6 5 3 5 2), (0xA030A028, 0x0, .vmov 6 5 5),
  (0xA030A1A9, 0x0, .vpermW 6 5 3 5)] = true := by decide +kernel

theorem test_decode_vector_3 : decodes [
  (0xA030A1AA, 0x0, .vpermH 6 5 3 5), (0xA030A02B, 0x0, .vbcstW 6 5 5), (0xA030A02C, 0x0, .vbcstH 6 5 5), (0xA132B605, 0x0, .vextW 38 21 44),
  (0xA132B606, 0x0, .vextH 38 21 44), (0xA332A028, 0x0, .vredSumF32 38 21 5), (0xA332A029, 0x0, .vredSumF16 38 21 5), (0xA332A02A, 0x0, .vredSumBf16 38 21 5),
  (0xA332A02B, 0x0, .vredMaxF32 38 21 5), (0xA332A02C, 0x0, .vredMinF32 38 21 5), (0xA332A02D, 0x0, .vredSumW 38 21 5), (0xA430A180, 0x0, .pand 6 5 3),
  (0xA430A181, 0x0, .por 6 5 3), (0xA430A182, 0x0, .pxor 6 5 3), (0xA430A183, 0x0, .pandn 6 5 3), (0xA430A004, 0x0, .pwhileH 6 5), (0xA430A005, 0x0, .pwhileW 6 5),
  (0xA430A006, 0x0, .pmov 6 5), (0xA430A007, 0x0, .pget 6 5), (0xA630A1A8, 0x0, .vld 6 5 (.reg 3) 5), (0xA630A1A9, 0x0, .vst 6 5 (.reg 3) 5),
  (0xA630A1AA, 0x0, .vldBcW 6 5 (.reg 3) 5), (0xA630A1AB, 0x0, .vldBcH 6 5 (.reg 3) 5)] = true := by decide +kernel

theorem test_decode_matrix_1 : decodes [
  (0xC002B621, 0x0, .mmac 21 44 2 1), (0xC030A195, 0x0, .mmacS 6 5 3 1 1), (0xC030A199, 0x0, .mmacSs 6 5 3 1 1), (0xC202B621, 0x0, .mmacTri 21 44 2 1),
  (0xC532B621, 0x0, .mgrp 38 21 44 2 1), (0xC602A001, 0x0, .zclr 21 1), (0xC602A005, 0x0, .zanchor 21 1), (0xC602A009, 0x0, .zfit 21 1),
  (0xC802B611, 0x0, .zread 21 44 1 1), (0xC932B615, 0x0, .zreadTri 38 21 44 1 1), (0xC802B609, 0x0, .zraw 21 44 1), (0xCA30A184, 0x0, .dcut 6 5 3 1),
  (0xCA30A185, 0x0, .dcutP 6 5 3 1), (0xCA30A186, 0x0, .dcutCo 6 5 3 1), (0xCC30A000, 0x0, .mtbr 6 5), (0xCC30A001, 0x0, .mtbw 6 5)] = true := by decide +kernel

theorem test_decode_transfer_1 : decodes [
  (0xD0300001, 0x0, .sfree 6), (0xD030A002, 0x0, .sstat 6 5), (0xD332B602, 0x0, .cpy 38 21 44 1), (0xD332B603, 0x0, .cpyMc 38 21 44 1), (0xD430A180, 0x0, .mbset 6 5 3),
  (0xD532A029, 0x0, .msend 38 21 5), (0xD732B600, 0x0, .mrecv 38 21 44), (0xD932A000, 0x0, .mcnt 38 21), (0xD802B601, 0x0, .mcntSet 21 44),
  (0xD802B602, 0x0, .mwcnt 21 44), (0xDB300000, 0x0, .wfm 38), (0xDB300001, 0x0, .mpop 38), (0xDC02B600, 0x0, .feset 21 44), (0xDC02B601, 0x0, .feclr 21 44)] = true := by decide +kernel

theorem test_decode_prefetch_and_field_1 : decodes [
  (0xE230A000, 0x0, .fbopen 6 5), (0xE230A001, 0x0, .fbadv 6 5), (0xE230A002, 0x0, .fbend 6 5), (0xE200A003, 0x0, .fbclose 5), (0xE430A180, 0x0, .fbdot 6 5 3),
  (0xE932A000, 0x0, .fdecl 38 21), (0xE932A001, 0x0, .fstart 38 21), (0xE802A002, 0x0, .fstop 21), (0xE932B603, 0x0, .fstep 38 21 44), (0xE932B604, 0x0, .fctl 38 21 44),
  (0xE932A005, 0x0, .fq 38 21), (0xEB32B600, 0x0, .fpull 38 21 44), (0xEB32B601, 0x0, .fcoup 38 21 44), (0xEB32B602, 0x0, .fwait 38 21 44)] = true := by decide +kernel


/-! ### The premises of the statements are met -/

theorem test_premises_IntegerResults : useW base 10 1 = .ok () ∧ useW base 0 1 = .ok () ∧ useW (bound (strm true true)) 48 1 = .ok () ∧
    readW base 2 2 = .ok (.plain 6) ∧ readW base 3 3 = .ok (.plain 0) ∧ ok (readW base 10 1) := by decide +kernel

theorem test_premises_IntegerConstants : ok (konst near ⟨0, 0⟩) ∧ ok (konst near ⟨7, 0xBFFF⟩) ∧ ok (konst fetched ⟨7, 0x1FFFF⟩) ∧ useW base 10 1 = .ok () ∧ readW base 2 2 = .ok (.plain 6) := by decide +kernel

theorem test_premises_CapabilityBounds : readW base 4 2 = .ok (capS 0x100 4095) ∧ (capS 0x100 4095).tag = true ∧ capMalformed (capS 0x100 4095) = false ∧
    capKind (capS 0x100 4095) = 4 ∧ capHas (capS 0x100 4095) permD = true ∧ capMalformed (capV 0x20000 4095) = false ∧ capKind (capV 0x20000 4095) = 0 ∧
    got (deriveBounds false (capS 0x100 4095) 6) (fun r => ok (mayAppend base 10 r)) ∧
    got (deriveBounds true (capS 0x100 4095) 0x5FF00) (fun r => ok (mayAppend base 10 r)) ∧
    ok (deriveBounds false (capV 0x20000 4095) 0xFFFFE0000) := by decide +kernel

theorem test_premises_CapabilityValues : ok (addrOk (capS 0x100 4095)) ∧ ok (addrOk (.plain 6)) ∧ ok (mayAppend base 10 (withAddr (capS 0x100 4095) 8)) ∧
    sealedV.tag = true ∧ capMalformed sealedV = false ∧ capKind sealedV = 3 ∧ capOkind sealedV = 0 ∧ ok (mayAppend prved 10 (unsealed sealedV)) ∧
    (∀ j, j < 128 → j < 77 ∨ 84 ≤ j → sealedV.bits.getLsbD j = (capV 0 4095).bits.getLsbD j) ∧ (Wreg.plain 6).tag = false ∧
    (capV 0 (4095 - 2048)).bits.getLsbD 75 = false ∧ capMalformed (capV 0 (4095 - 2048)) = false ∧ nameW5.tag = true ∧ capMalformed nameW5 = false ∧ capKind nameW5 = 1 := by decide +kernel

theorem test_premises_RegisterOperands :
    (withCpu fun c => { c with awW := 1 <<< 63 }).cpu.awW.getLsbD 63 = true ∧ base.cpu.boundW 63 = none ∧ (bound (strm false true)).cpu.boundW 48 = some 0 ∧
    (strm false true).wr = false ∧ (strm true true).wr = true ∧ { strm false true with done := 2 }.total ≤ { strm false true with done := 2 }.done ∧
    { strm false true with done := 1 }.done < { strm false true with done := 1 }.total := by decide +kernel

theorem test_premises_Completion : (withCpu fun c => { c with st := (2 : Word) <<< 16 }).cpu.rc = 2 ∧ base.cpu.rc < 2 ∧ base.cpu.pp = false ∧
    base.cpu.pc.toNat + 4 * 3 < base.cpu.hdr.toNat + 8 + 4 * base.cpu.len ∧ base.cpu.hdr.toNat + 8 + 4 * base.cpu.len ≤ base.cpu.pc.toNat + 4 * 4 := by decide +kernel

theorem test_premises_CallsAndReturns : base.cpu.tm = false ∧ trapped.cpu.tm = true ∧ trapped.cpu.erl = none ∧ trapped.cpu.epc.toNat = trapped.cpu.erh.toNat + 8 + 4 * 0 ∧
    (let u := { trapped with cpu := { trapped.cpu with st := stRestored trapped.cpu.esr } }
     got (fetchAt u u.cpu.execCap trapped.cpu.erh 8) (fun x => decide (x.1 / 2 ^ 57 = 0x7F ∧ headerOk x.1 = true ∧ 0 < x.1 % 256))) ∧
    (let s := trapped.onCpu fun c => { c with epc := 0x10000 }
     s.cpu.epc.toNat < s.cpu.erh.toNat + 8) ∧
    (let s := trapped.onCpu fun c => { c with epc := 0x10014, erl := some (4, 0, some 0x10014) }
     s.cpu.epc.toNat = s.cpu.erh.toNat + 8 + 4 * 3 ∧ s.cpu.erl = some (4, 0, some s.cpu.epc)) ∧
    (let s := trapped.onCpu fun c => { c with epc := 0x10018, erl := some (4, 0, none) }
     s.cpu.epc.toNat = s.cpu.erh.toNat + 8 + 4 * 4 ∧ s.cpu.erl = some (4, 0, none)) ∧
    (let s := { trapped with core := { trapped.core with tlb := [⟨0, 0, 30, 0, true, true, false, 0, 0⟩] } }
     let u := { s with cpu := { s.cpu with st := stRestored s.cpu.esr } }
     traps (fetchAt u u.cpu.execCap s.cpu.erh 8) 0x09) := by decide +kernel

theorem test_premises_SystemRegisters : base.cpu.prv = false ∧ base.cpu.tm = false ∧ trapped.cpu.tm = true ∧ fmtValid 0x7E030739 = true ∧ fmtValid 0xFF = false ∧
    ok (mayAppend base 10 base.cpu.tvec) := by decide +kernel

theorem test_premises_ControlTransfers : base.cpu.ldepth = 0 ∧ base.cpu.cont = none ∧ ok (transfer base id 0x10000) ∧ ok (transfer base (fun c => c.popAll [2]) 0x10020) ∧
    ok (transfer trapped id 0x10000) ∧ useW base 1 0 = .ok () ∧ (Wreg.plain 6).lo ≠ 0 ∧ readP base 0 = .ok 0 ∧
    readP (withCpu fun c => { c with p := c.p.set 1 (BitVec.allOnes 64) }) 1 = .ok (BitVec.allOnes 64) ∧ ok (readW base 1 0) := by decide +kernel

/-- What block entry tests of a code capability at a header. -/
def entering (c : Wreg) (h : Word) : Bool × Bool × Nat × Bool × Bool := (c.tag, capMalformed c, capKind c, capHas c permX, capCovers c h.toNat 8)

theorem test_premises_TransferFaults : entering base.cpu.code 0x10000 = (true, false, 0, true, true) ∧ entering sealedV 0x10000 = (true, false, 3, true, true) ∧
    entering (.plain 6) 0x10000 = (false, false, 0, false, false) ∧ (entering nameW5 0x10000).2.2.1 = 1 ∧ entering (capV 0x10000 1) 0x10000 = (true, false, 0, false, true) ∧
    entering (capS 0 4095) 0x10000 = (true, false, 4, true, false) := by decide +kernel

theorem test_premises_TransferFaults_of_headers :
    base.cpu.arHeld = false ∧ (0x10004 : Word).toNat % 8 ≠ 0 ∧
    got (fetchAt base base.cpu.code 0x10008 8) (fun x => decide (x.1 / 2 ^ 57 ≠ 0x7F)) ∧
    (let s := { base with mem := code.setByte 0x10000 0 }
     got (fetchAt s s.cpu.code 0x10000 8) (fun x => decide (x.1 / 2 ^ 57 = 0x7F ∧ headerOk x.1 = false))) ∧
    (let c : Wreg := ⟨BitVec.ofNat 128 (0x10000 + 4095 * 2 ^ 64 + 0x10000 * 2 ^ 90 + 0x10010 * 2 ^ 109), true⟩
     capCovers c 0x10000 8 = true ∧ capCovers c 0x10000 (8 + 4 * 4) = false ∧ got (fetchAt base c 0x10000 8) (fun x => decide (x.1 / 2 ^ 57 = 0x7F ∧ headerOk x.1 = true ∧ x.1 % 256 = 4))) ∧
    (let s := { base with core := { base.core with tlb := [⟨0, 0, 30, 0, true, true, false, 0, 0⟩] } }
     traps (fetchAt s s.cpu.code 0x10000 8) 0x09) := by decide +kernel

theorem test_premises_LoopsAndPrefixes : readW base 2 1 = .ok (.plain 6) ∧ readW base 3 1 = .ok (.plain 0) ∧ base.cpu.nextHdr.toNat = 0x10018 ∧
    (base.cpu.hdr.toNat : Int) + 8 * (3 : BitVec 19).toInt = 0x10018 ∧ (base.cpu.hdr.toNat : Int) + 8 * (4 : BitVec 19).toInt = 0x10020 ∧
    ok (transfer base (fun c => c.popAll [3]) (BitVec.ofInt 64 0x10020)) ∧ (withCpu fun c => c.setSt 32 3 4).cpu.ldepth = 4 ∧
    (let x : BitVec 128 := BitVec.ofNat 128 (2 + 0x2003 * 2 ^ 32 + 2 ^ 86)
     bits x 0 32 = 2 ∧ 8 * bits x 32 54 + 8 * bits x 86 19 = 0x10020) ∧
    governed base = .ok (1, true) ∧ governed (withCpu fun c => { c with pc := 0x1000C }) = .ok (1, false) := by decide +kernel

theorem test_premises_HelperContexts : base.slot = 0 ∧ (∀ i < 10, (base.ctx base.cur (i + 1)).isOpen = false ∧ (base.ctx base.cur (i + 1)).run = .idle) ∧ base.cpu.sq = [] ∧
    (base.focus 0 1).slot ≠ 0 ∧ ok (readW (base.focus 0 1) 2 2) ∧ base.cpu.passed = none ∧ (withCpu fun c => { c with passed := some 0 }).cpu.passed ≠ none := by decide +kernel

theorem test_premises_MemoryWrites : code.wf = true ∧ regionOf 0x10000000000 = .scratch 0 ∧ regionOf 0x1003FFDFFFF = .scratch 2047 ∧ regionOf 0x1003FFE0000 = .hole ∧
    regionOf 0xBFFFFFFFFF = .dram ∧ regionOf 0xC000000000 = .hole ∧ regionOf (6143 * 2 ^ 43) = .dram ∧ regionOf (6144 * 2 ^ 43) = .hole ∧
    regionOf 0x20000000000 = .fabric ∧ regionOf 0x21FFFFFFFFF = .fabric ∧ regionOf 0x40000000000 = .config ∧ regionOf 0x40FFFFFFFFF = .config ∧
    regionOf 0x41000000000 = .hole ∧ regionOf 0xFFFFFFFFFFF = .hole ∧ regionOf 0x10040000000 = .hole ∧ regionOf 0x22000000000 = .hole := by decide +kernel

/-- What `ScratchLoads` asks of an access of n bytes at w4. -/
def serves (s : State) (n perm : Nat) (use : Use) (cfg pass : Bool) : Bool :=
  got (access s (capS 0x100 4095) 2 (capAddr (capS 0x100 4095)) n n perm use cfg pass) fun (p, t) => decide (t.agentRd p.pa = .bank t.cur ∧ t.agentOf p.pa = .bank t.cur ∧ regionOf p.pa = .scratch 0 ∧ devOf p.pa = t.dev ∧ t.open ⟨p.pa, p.swz, none⟩ = true ∧ t.open p = true ∧ t.net = [] ∧
      t.cpu.sq = [] ∧ t.cpu.sqCount < 16 ∧ t.swLine p.pa = false ∧ t.mem.poisoned p.swz p.pa n (ones 128 n) = none ∧ Tab.get false t.mdl.ddead (devOf p.pa) = false ∧ t.fieldOwned (frameOf p.pa) = false)

theorem test_premises_Loads : serves base 8 permL .rd true true = true ∧ serves base 16 permL .rd false true = true ∧ serves base 1 permL .rd true true = true ∧
    ok (mayAppend base 10 (capS 0 1)) ∧ ok (konst near ⟨0, 0⟩) ∧
    got (access base (capV 0x20000 4095) 2 0x20000 8 8 permL .rd true true) (fun x => decide (regionOf x.1.pa = .dram ∧ x.2.cpu.sq = [] ∧ x.2.swLine x.1.pa = false)) ∧
    capCovers (capS 0x100 4095) 0x1000005FFF8 8 = true ∧ capCovers (capS 0x100 4095) 0x1000005FFF9 8 = false ∧ capHas (capS 0 2) permL = false := by decide +kernel

theorem test_premises_Forwarding :
    (let w : WriteOp := ⟨0x10000000102, 0, 1, 7, 1, false, false⟩
     let s := base.enqueue (.store [(.bank 0, w)])
     s.cpu.sq = [] ++ [.store [(.bank 0, w)]] ∧ w.mask.getLsbD 0 = true ∧ s.cpu.queued 0x10000000102 = some 7 ∧ s.cpu.queued 0x10000000103 = none ∧
       readW s 4 2 = .ok (capS 0x100 4095) ∧
       got (access s (capS 0x100 4095) 2 0x10000000100 8 8 permL .rd true true) (fun (p, t) => decide (regionOf p.pa = .scratch 0 ∧ t.agentRd p.pa = .bank t.cur ∧ t.open p = true ∧
         t.swLine p.pa = false ∧ t.mem.poisoned p.swz p.pa 8 (ones 128 8) = none ∧ t.net = [] ∧
         ∀ j < 8, 7 * 2 ^ 16 / 2 ^ (8 * j) % 256 = match t.cpu.queued (locate p.swz (p.pa + j)) with | some b => b.toNat | none => t.mem.read p.swz (p.pa + j) 1)) ∧
       got (access s (capV 0x20000 4095) 2 0x20000 8 8 permL .rd true true) (fun (p, t) => decide (regionOf p.pa = .dram ∧ t.swLine p.pa = false))) ∧
    (⟨0x10000000100, 0, 8, ones 128 8, 0, .plain⟩ : ReadOp).mask.getLsbD 7 = true := by decide +kernel

theorem test_premises_Stores : serves base 8 permS .wr true false = true ∧ serves base 16 (permS + permSC) .wr false false = true ∧
    ok (globalOk base (capS 0 4095) (capS 0x100 4095) 0x10000000100) ∧ ok (checkCap (capS 0x100 4095) 2 (capAddr (capS 0x100 4095)) permS) ∧
    serves base 32 permL .rd false true = true ∧ (granules 0 0x10000000100 32).all base.mem.fullAt = true ∧
    (let s := { base with mem := base.mem.setFull 0x1000000010 false }
     serves s 8 permL .rd false true = true ∧ serves s 16 permS .wr false false = true ∧ s.mem.fullAt 0x1000000010 = false) := by decide +kernel

theorem test_premises_AtomicsAndFences : serves base 8 (permL + permS) .wr false true = true ∧ serves base 4 (permL + permS) .wr false true = true ∧
    base.cpu.aset = [] ∧ base.net = [] ∧ storing.cpu.sq ≠ [] ∧ readW base 4 2 = .ok (capS 0x100 4095) ∧ capKind (capS 0x100 4095) = 4 ∧
    hintOk base base.cur base.cpu.tenant (capS 0x100 4095) 0x10000000100 permL = true ∧ hintOk base base.cur base.cpu.tenant (.plain 6) 6 permL = false := by decide +kernel

theorem test_premises_AtomicQueues : readW base 5 2 = .ok (capV 0x20000 4095) ∧
    got (access base (capV 0x20000 4095) 2 (capV 0x20000 4095).lo 8 8 (permL + permS) .wr false true) (fun (p, t) => decide (t.fieldOwned (frameOf p.pa) = false ∧ t.cpu.arHeld = false ∧
      t.cpu.sqCount < 16 ∧ t.performedAtOnce p 8 = false)) ∧
    got (access base (capV 0x20000 4095) 2 (capV 0x20000 4095).lo 4 4 (permL + permS) .wr false true) (fun (p, t) => decide (t.fieldOwned (frameOf p.pa) = false ∧ t.performedAtOnce p 4 = false)) ∧
    got (access storing (capS 0x100 4095) 2 0x10000000100 8 8 (permL + permS) .wr false true) (fun (p, t) => decide (t.fieldOwned (frameOf p.pa) = false ∧ t.cpu.arHeld = false ∧
      t.cpu.sqCount < 16 ∧ t.performedAtOnce p 8 = false)) := by decide +kernel

theorem test_premises_WatchesAndBarriers : serves base 8 (permL + permW) .rd false true = true ∧ base.core.watches.length < 8 ∧
    (let w := withCpu fun c => { c with passed := some 9 }
     w.cpu.passed = some 9 ∧ w.cpu.stopMark = false ∧ w.cpu.failedMon = false ∧ w.time < 9) ∧
    base.cpu.gbar = none ∧ base.cpu.passed = none ∧ base.core.gang = some (1, 0) ∧ (base.onCore fun k => { k with gang := none }).core.gang = none := by decide +kernel

theorem test_premises_RegisterFabric : base.mdl.devno.toNat < 6144 ∧ (∀ r, r < 64 → base.cpu.boundIn 0 r = false) ∧ (bound (strm false true)).cpu.boundIn 0 48 = true ∧
    readW base 8 2 = .ok nameW5 ∧ ok (rputSource base 0 2) ∧ ok (rputName base nameW5 0 0 false false) ∧ base.routed 0 = true ∧ bits nameW5.bits 13 4 = 0 ∧
    (let s := { base with mdl := { base.mdl with devno := 1 } }
     s.routed (bits nameW5.bits 43 13) = false ∧ bits nameW5.bits 84 6 = 0 ∧ ok (rputSource s 0 2)) ∧ base.cpu.credits < 8 ∧ (withCpu fun c => { c with credits := 8 }).cpu.credits = 8 ∧
    bits nameW5.bits 84 6 < 1 ∧ ok (readW prved 8 2) ∧ capHas nameW5 permN = true ∧ ok (mayAppend prved 10 (grantOf nameW5 0)) := by decide +kernel

/-- A value on its way to w5 of the context with identifier 1. -/
def arrival : Arrival := ⟨0x20000000000 + 2 ^ 17 + 5 * 128, 1, 0, false, 0, 1, 1, 0, 0, 0, 0, 7, false, none⟩

theorem test_premises_ArrivalSteps :
    (let s := { base with arrivals := [arrival] }
     s.arrivalAhead 0 arrival = false ∧ arrival.faddr / 2 ^ 43 = s.mdl.devno.toNat ∧ (s.loc arrival.ident).state = .resident ∧ (s.loc arrival.ident).gen = arrival.gen ∧
       arrival.cls = 0 ∧ arrival.reg = 5 ∧ s.cpu.povr = none ∧ (s.loc arrival.ident).gen ≠ { arrival with gen := 2 }.gen) ∧
    (let a := { arrival with atPort := some (0, 0) }
     let s := { base with arrivals := [a], creditsDue := [(1, 1)] }
     s.arrivalAhead 0 a = false ∧ (s.loc a.ident).hidx.toNat = 0 ∧ (s.loc a.ident).slot.toNat = 0 ∧ s.heldAt 1 = some (0, 0) ∧ (s.ctx 0 0).gen = 1) := by decide +kernel

theorem test_premises_VectorIntegers : governing base 0 = .ok (BitVec.allOnes 64) ∧ governing base 1 = .ok 0 ∧ useV base 5 1 = .ok () ∧ useV (bound (strm true false)) 16 1 = .ok () ∧
    ok (readV base 2 2) ∧ ok (operandB base (.reg 3) 32) ∧ ok (operandB near (.konst ⟨7, 0xBFFF⟩) 16) ∧ useP base 2 = .ok () := by decide +kernel

theorem test_premises_VectorFloats : governing base 0 = .ok (BitVec.allOnes 64) ∧ useV base 5 1 = .ok () ∧ readV base 5 1 = .ok 0 ∧ ok (readV base 2 2) ∧
    ok (operandB base (.reg 3) 32) ∧ ok (operandB near (.konst ⟨7, 0xBFFF⟩) 16) ∧ useP base 2 = .ok () ∧ (0 : Fin 4).val < 3 ∧ (0 : Fin 64).val = (0 : Fin 4).val := by decide +kernel

theorem test_premises_VectorMoves : readP base 1 = .ok 0 ∧ governing base 0 = .ok (BitVec.allOnes 64) ∧ useV base 5 1 = .ok () ∧ ok (readV base 2 2) ∧ ok (readV base 3 3) ∧
    ok (readW base 2 2) ∧ useW base 10 1 = .ok () ∧ ok (readW base 2 3) ∧ useP base 2 = .ok () := by decide +kernel

theorem test_premises_VectorConversions : (1 : Fin 64).val < 2 ∧ governing base 0 = .ok (BitVec.allOnes 64) ∧ useV base 5 1 = .ok () ∧ ok (readV base 2 2) ∧
    useW base 10 1 = .ok () ∧ fmBsm (base.cpu.fmOf 6) ≠ 0 ∧ fmBsm (base.cpu.fmOf 0) ≠ 0 ∧ useW base 10 3 = .ok () ∧ ok (readW base 10 3) ∧
    (let s := withCpu fun c => { c with fm := Vector.replicate 8 0x7E010739 }
     fmBsm (s.cpu.fmOf 6) = 0 ∧ fmBsm (s.cpu.fmOf 0) = 0 ∧ useV s 5 1 = .ok ()) := by decide +kernel

/-- What `VectorMemory` asks of the one read that serves a load. -/
def servedV (u : State) (c : Wreg) (ea : Word) (mask : BitVec 128) (lo hi al : Nat) : Bool :=
  got (vParts u c ea al permL .rd mask lo hi) fun (l, t) => match joinOwn t (readsOf t l) with
    | [(g, r)] => decide (g = .bank t.cur ∧ r.n ≤ 128 ∧ r.off = 0 ∧ r.kind = .plain ∧ t.agentRd r.pa = .bank t.cur ∧ t.open ⟨r.pa, r.swz, none⟩ = true ∧ t.net = [] ∧ t.cpu.sq = [] ∧
        t.swLine r.pa = false ∧ t.mem.poisoned r.swz r.pa r.n r.mask = none ∧ Tab.get false t.mdl.ddead (devOf r.pa) = false)
    | _ => false

theorem test_premises_VectorMemory : governing base 0 = .ok (BitVec.allOnes 64) ∧ readW base 4 2 = .ok (capS 0x100 4095) ∧ got (indexB base (.reg 6)) (fun x => x.1 = 16) ∧
    useV base 5 1 = .ok () ∧ readV base 5 1 = .ok 0 ∧ maskEnds (laneBytes (BitVec.allOnes 64)) = some (0, 127) ∧ elemBytes 32 (BitVec.allOnes 64) ≠ 0 ∧ laneBytes 0 = 0 ∧
    servedV base (capS 0x100 4095) 0x10000000110 (laneBytes (BitVec.allOnes 64)) 0 127 16 = true ∧ servedV base (capS 0x100 4095) 0x10000000110 (ones 128 4) 0 3 4 = true ∧
    servedV base (capS 0x100 4095) 0x10000000110 (ones 128 2) 0 1 2 = true ∧
    got (vParts base (capS 0x100 4095) 0x10000000110 16 permS .wr (laneBytes (BitVec.allOnes 64)) 0 127) (fun (l, t) => decide (t.cpu.sqCount < 16) && ok (partsOwned t 0x10000000110 l)) := by decide +kernel

/-- Tiles, arrays and a geometry of one row, one column and K = 1 in registers of the test's context. -/
def tiled : State := withCpu fun c => { c with w := regsOf [(20, capS 0x400 4095), (21, capS 0x800 4095), (22, capS 0xC00 4095), (24, capS 0x1000 4095), (25, capS 0x1400 4095), (26, capS 0x1800 4095),
  (28, .plain 0), (30, .plain (1 <<< 11 ||| 16 <<< 24 ||| 16 <<< 40)), (31, capS 0x2000 4095), (32, .plain (2 ||| 64 <<< 12)), (33, .plain 1)] }

theorem test_premises_MatrixCommands : ok (denseCapture tiled false (.mmac 0 false 0 0) 20 30 0 none) ∧ ok (denseCapture tiled false (.mmac 0 true 2 3) 20 30 2 none) ∧
    ok (denseCapture tiled false (.mgrp 0 0) 20 30 0 (some 33)) ∧ ok (sparseCapture tiled false 1 0 20 30 0 0) ∧ ok (sparseCapture tiled false 2 0 20 30 0 0) ∧
    ok (anchorCapture tiled (.zclr 0) 28) ∧ ok (anchorCapture tiled (.zanchor 0) 28) ∧ ok (anchorCapture tiled (.zfit 0) 28) ∧
    ok (readoutCapture tiled (.zread false 0 0) 20 32 none 4 0) ∧ ok (readoutCapture tiled (.zread true 1 0) 20 32 (some 28) 2 0) ∧ ok (readoutCapture tiled (.zraw 0) 20 32 none 16 16) ∧
    ok (cutCapture tiled 0 0 20 31 0 4 [0, 1, 2]) ∧ ok (cutCapture tiled 2 6 20 31 0 8 [0, 1, 2, 4, 5, 6]) ∧
    tiled.useTb 0 = .ok 0 ∧ sourceCheck (capS 0x400 4095) = .ok () ∧ tileCheck (capS 0x2000 4095) 3 (permS + permE) [(0, 0)] 16 (bits (0x800 : Word) 24 16) = .ok () ∧
    tileHere tiled false (capS 0x2000 4095) 3 [(0, 0)] = .ok () ∧ tiled.roomFor 2 = true ∧ tiled.firstFor tiled.slot 2 = true ∧ tiled.cpu.sq = [] ∧ (tiled.enqueue (.store [])).cpu.sq ≠ [] ∧
    (let s := tiled.onCore fun k => { k with mq := List.replicate 16 (tiled.capture .cpy 0 [] []) }
     s.roomFor 2 = false ∧ ok (denseCapture s false (.mmac 0 false 0 0) 20 30 0 none)) := by decide +kernel

theorem test_premises_MatrixOperands : readW tiled 20 2 = .ok (capS 0x400 4095) ∧ readW tiled 21 2 = .ok (capS 0x800 4095) ∧ readW tiled 22 2 = .ok (capS 0xC00 4095) ∧ ok (readW tiled 30 3) ∧
    (let g := geoOf (1 <<< 11 ||| 16 <<< 24 ||| 16 <<< 40)
     tileCheck (capS 0x400 4095) 2 (permL + permE) (g.spanA 2) 16 16 = .ok () ∧ tileCheck (capS 0x800 4095) 2 (permL + permE) (g.spanB 2 0) 16 16 = .ok () ∧
     tileIn tiled.dev (tiled.cur / 16) (capS 0x400 4095) (g.spanA 2) = true ∧ tileIn tiled.dev (tiled.cur / 16) (capS 0x800 4095) (g.spanB 2 0) = true) ∧
    checkCap (capS 0x400 4095) 2 (capAddr (capS 0x400 4095)) (permL + permE) = .ok () ∧ capCovers (capS 0x400 4095) 0x1000005FFFF 2 = false ∧ checkCap (capS 0x401 4095) 2 0x10000000401 (permL + permE) = .ok () ∧
    tiled.cpu.tbPend.getLsbD 0 = false ∧ (withCpu fun c => { c with tbPend := 1 }).cpu.tbPend.getLsbD 0 = true ∧ useW tiled 1 1 = .ok () ∧ ok (readW tiled 0 2) ∧
    Tab.wf Elem.zero [(2047, ⟨5, 0, true⟩)] = true ∧ [(Fp.fin false 1 0, false), (.fin true 3 2, false)].Perm [(.fin true 3 2, false), (.fin false 1 0, false)] ∧
    (let all := fun l : List (Fp × Bool) => l.foldl (fun (y : Elem × Sticky) p => ((y.1.add 0 p).1, y.2.join (y.1.add 0 p).2)) (Elem.zero, {})
     (all [(.fin false 1 0, false), (.fin true 3 2, false)]).2.zo = false ∧ (all [(.fin true 3 2, false), (.fin false 1 0, false)]).2.zo = false) := by decide +kernel

theorem test_premises_MatrixOperands_of_TYPE_2 :
    (let g := geoOf (1 <<< 11 ||| 16 <<< 24 ||| 16 <<< 40)
     tileCheck (capS 0x400 4095) 2 (permL + permE) (g.spanA 1) 16 16 = .ok () ∧ tileCheck (capS 0x800 4095) 2 (permL + permE) (g.spanB 1 0) 16 16 = .ok () ∧
     tileIn tiled.dev (tiled.cur / 16) (capS 0x400 4095) (g.spanA 1) = true ∧ tileIn tiled.dev (tiled.cur / 16) (capS 0x800 4095) (g.spanB 1 0) = true) ∧
    fmBsm (tiled.cpu.fmOf 0) = 1 ∧ fmBsm (tiled.cpu.fmOf 3) = 1 ∧
    tileCheck (capS 0xC00 4095) 2 (permL + permE) [(0, 1), (1, 1)] 1 0 = .ok () ∧ tileIn tiled.dev (tiled.cur / 16) (capS 0xC00 4095) [(0, 1), (1, 1)] = true ∧
    ok (denseCapture tiled false (.mmac 0 false 2 0) 20 30 2 none) ∧ capHas (capS 0x400 1) (permL + permE) = false ∧ capKind (capS 0x400 1) = 4 := by decide +kernel

/-- A unit capability of core 0 of this device, for tenant 0. -/
def unit0 : Wreg := ⟨((2 : BitVec 128) <<< 80) ||| (4095 : BitVec 128) <<< 64, true⟩

/-- A command of the test's context. -/
def cmdOf (op : CmdOp) (regs : List Wreg) : Cmd := tiled.capture op 0 regs []

/-- Commands for core 0's matrix engine from core 0. -/
def remoted (u : Wreg) : State := { tiled with remotes := [⟨u, 0, 0, cmdOf (.zclr 0) [.plain 5]⟩] }

/-- Core 0 changed. -/
def withCore (f : Core → Core) : State := tiled.onCore f

/-- A write of one byte of scratch. -/
def write1 : WriteOp := ⟨0x10000000400, 4, 1, 7, 1, false, true⟩

theorem test_premises_MatrixEngine : capKind unit0 = 2 ∧ capMalformed unit0 = false ∧ unit0.tag = true ∧ capHas unit0 permM = true ∧ capMalformed sealedV = false ∧ capKind sealedV = 3 ∧
    ok (carriedCapture tiled (.mmac 20 30 0 0)) ∧ bits unit0.bits 11 13 < 6144 ∧
    (let s := remoted unit0
     let r : RemoteCmd := ⟨unit0, 0, 0, cmdOf (.zclr 0) [.plain 5]⟩
     s.remotes[0]? = some r ∧ (s.tenantOf 0).tokenDone = false ∧ s.canPost r.cmd 2 = true ∧ bits unit0.bits 11 13 = s.dev ∧ bits unit0.bits 30 2 = 0 ∧ bits unit0.bits 56 8 = 0 ∧
       bits unit0.bits 24 6 = r.cmd.tenant ∧ bits unit0.bits 32 24 = (s.coreOf 0).gseq.toNat ∧ (s.coreOf 0).mrq.length + (s.coreOf 0).unposted true < 8 ∧
       r.cmd.tiles.all (fun (c, spans) => tileIn s.dev 0 c spans) = true ∧ (cmdOf (.mmac 0 false 0 0) [⟨(capS 0x400 4095).bits + 0x4000000, true⟩, .zero, .zero, .plain (1 <<< 11)]).tiles.all (fun (c, spans) => tileIn s.dev 0 c spans) = false) ∧
    (let c := cmdOf (.zclr 0) [.plain 5]
     let s := withCore fun k => { k with mq := [c] }
     let r := withCore fun k => { k with mrq := [c] }
     (s.coreOf 0).mayTake c = true ∧ (s.coreOf 0).mq = [c] ∧ (s.coreOf 0).mrq = [] ∧ (r.coreOf 0).mayTake c = true ∧ (r.coreOf 0).mrq = [c] ∧ (r.coreOf 0).mq = [] ∧
       s.canPost c 2 = true ∧ ((withCore fun k => { k with mact := [(false, c)] }).coreOf 0).uncovered c.ident c.gen 0 + 1 < 255 ∧ c.prog = 0 ∧ c.got = [] ∧
       regionOf (0x1000000040 * 16) = .scratch 0 ∧ s.mem.poisonAt 0x1000000040 = false ∧ s.engineReady 0 c.h c.after .rd ⟨0x1000000040 * 16, 0, none⟩ 16 = true ∧
       s.writeReady 0 c.h c.after write1 = true) ∧
    (let c : Cmd := { cmdOf (.dcut 0 0 3) [] with prog := 1, tbs := [(3, 9)] }
     let s := withCore fun k => { k with mact := [(false, c)] }
     (s.coreOf 0).mact = [(false, c)] ∧ s.canPost c 2 = true ∧ c.outs = []) := by decide +kernel

theorem test_premises_StreamBinding : useW base 10 1 = .ok () ∧
    (let s := withCpu fun c => { c with w := regsOf [(34, capS 0 4095), (35, .plain 2), (36, .plain 8), (37, .plain 0)] }
     let x : Stream := { Stream.reset with cap := capS 0 4095, bnd := true, wr := true, clsW := true, reg := 8, cnt := 2, str := 8 }
     readBlock s 34 4 = .ok [capS 0 4095, .plain 2, .plain 8, .plain 0] ∧ x.check = .ok () ∧ { x with cnt := 0 }.check = .ok () ∧ (s.cpu.stream 1).bnd = false ∧
       (s.cpu.boundIn 0 56 || s.cpu.awaits 0 56) = false ∧ (∀ i : Fin 4, bits (2 : Word) (16 * i.val) 16 = 0 ↔ (0 : Fin 4) < i) ∧ ¬(∀ i : Fin 4, bits (0 : Word) (16 * i.val) 16 = 0 ↔ (0 : Fin 4) < i) ∧
       s.roomFor 3 = true ∧ s.firstFor s.slot 3 = true ∧ s.cpu.sq = [] ∧ storing.cpu.sq ≠ [] ∧ ((bound x).cpu.boundIn 0 56) = true) ∧
    (base.cpu.stream 0).bnd = false ∧ ((bound (strm false true)).cpu.stream 0).bnd = true ∧ ((bound (strm true true)).cpu.stream 0).wr = true ∧ (bound (strm true true)).roomFor 3 = true ∧ (bound (strm true true)).firstFor 0 3 = true ∧
    (let s := bound (strm false true)
     let x := (s.ctx 0 0).stream 0
     x.bnd = true ∧ x.flt = false ∧ x.started = true ∧ s.stopped 0 = false ∧ x.head + x.held.length < x.total ∧
       ok (s.engAccess 0 0 x.cap (x.addr 0) .rd false) ∧ ok ((⟨0, 0, 0, x.after, [], x.cap, false⟩ : Reader).bytes x.size s (x.addr 0)) ∧ s.canPostTo (s.ctx 0 0) 3 = true) ∧
    (let s := bound { strm false true with cap := capV 0x40000000 4095 }
     let x := (s.ctx 0 0).stream 0
     (match (⟨0, 0, 0, x.after, [], x.cap, false⟩ : Reader).bytes x.size s (x.addr 0) with | .error (code, _) => decide (code ≠ notYet) | _ => false) = true ∧ s.canPostTo (s.ctx 0 0) 3 = true) ∧
    (let s := bound { strm true true with held := [(5, false)], done := 1 }
     let x := (s.ctx 0 0).stream 0
     got (s.pieces 0 0 x.cap false 130 (x.addr 0) (leBytes x.size 5)) (fun (ws, t) => ws.all fun w => t.writeReady 0 0 x.after w)) ∧
    (let s := bound { strm true true with cap := capV 0x40000000 4095, held := [(5, false)], done := 1 }
     let x := (s.ctx 0 0).stream 0
     (match s.pieces 0 0 x.cap false 130 (x.addr 0) (leBytes x.size 5) with | .error (code, _) => decide (code ≠ notYet) | _ => false) = true) := by decide +kernel

/-- A copy of n bytes between two places of core 0's scratch. -/
def copying (n : Nat) : State := withCpu fun c => { c with w := regsOf [(1, capS 0x400 4095), (2, capS 0x800 4095), (3, .plain (BitVec.ofNat 64 n))] }

/-- A multicast of 128 bytes for cores 0 and 1. -/
def casting (mask : Nat) : State := withCpu fun c => { c with w := regsOf [(1, capS 0x400 4095), (2, capV 0x20000 4095), (3, .plain (BitVec.ofNat 64 (128 + mask * 2 ^ 32)))] }

/-- Core 0's transfer queue holds one command. -/
def moving (c : Cmd) : State := withCore fun k => { k with tq := [c] }

theorem test_premises_CopyCommands :
    (let s := copying 64
     checkCap (capS 0x400 4095) 1 0x10000000400 (permS + permE) = .ok () ∧ capCovers (capS 0x400 4095) 0x10000000400 64 = true ∧ checkCap (capS 0x800 4095) 2 0x10000000800 (permL + permE) = .ok () ∧
       capCovers (capS 0x800 4095) 0x10000000800 64 = true ∧ s.roomFor 3 = true ∧ s.firstFor s.slot 3 = true ∧ s.cpu.sq = [] ∧ ok (readW s 1 1) ∧ ok (readW s 2 2) ∧ ok (readW s 3 3) ∧ s.cpu.sqCount < 16 ∧
       capCovers (capS 0x400 4095) 0x10000000400 0x401 = true ∧ capCovers (capS 0x800 4095) 0x10000000800 0x401 = true ∧
       checkCap (capS 0x800 4095) 2 0x10000000800 permS = .ok () ∧ ok (fullPlaces s (capS 0x800 4095) 2 0 64) ∧ ok (fullPlaces s (capS 0x800 4095) 2 0 8208) ∧
       (withCore fun k => { k with tq := List.replicate 32 (cmdOf .cpy []) }).roomFor 3 = false) ∧
    (let s := casting 3
     checkKind0 (capV 0x20000 4095) 2 0x20000 (permL + permE) = .ok () ∧ capCovers (capV 0x20000 4095) 0x20000 128 = true ∧ s.ownWindow 0x10000000400 128 = true ∧
       (BitVec.ofNat 128 (128 + 3 * 2 ^ 32)).getLsbD (32 + s.cur % 16) = true ∧ (BitVec.ofNat 128 (128 + 2 * 2 ^ 32)).getLsbD (32 + s.cur % 16) = false ∧ capKind (capS 0x400 4095) = 4) ∧
    (let c := cmdOf .cpy [capS 0x400 4095, capS 0x800 4095, .plain 64]
     let s := moving c
     (s.coreOf 0).tq[0]? = some c ∧ s.ordBefore 0 c = false ∧ s.canPost c 3 = true ∧ c.taken = false ∧ c.prog < 1 ∧
       got (s.engAccess 0 c.tenant (c.reg 0) 0x10000000400 .wr false) (fun (p, t) => t.engineReady 0 0 c.after .wr p 64 &&
         got (t.copyWrites 0 c) (fun (l, _) => l.all fun q => !q.2))) ∧
    (let c : Cmd := { cmdOf .cpy [capS 0x400 4095, capS 0x800 4095, .plain 64] with taken := true, outs := [write1] }
     let s := { moving c with owned := [⟨8, 0, true⟩] }
     (s.coreOf 0).tq = [c] ∧ s.ordBefore 0 c = false ∧ c.got = [] ∧
       ({ s with owned := [⟨lineOf write1.swz write1.pa, 0, true⟩] } : State).owned[0]? = some ⟨lineOf write1.swz write1.pa, 0, true⟩) ∧
    (let c : Cmd := cmdOf .cpy [capS 0x400 4095, capV 0x40000000 4095, .plain 64]
     (moving c).canPost c 3 = true ∧ got ((moving c).engAccess 0 c.tenant (c.reg 0) 0x10000000400 .wr false) (fun (_, t) =>
       match t.copyWrites 0 c with | .error (code, _) => decide (code ≠ notYet) | _ => false)) ∧
    (let c : Cmd := cmdOf .cpy [capV 0x40000000 4095, capS 0x400 4095, .plain 64]
     (match (moving c).engAccess 0 c.tenant (c.reg 0) 0x40000000 .wr false with | .error (code, _) => decide (code ≠ notYet) | _ => false) = true) ∧
    (let c := cmdOf .cpyMc [capS 0x400 4095, capV 0x20000 4095, .plain (128 + 3 * 2 ^ 32)]
     let s := moving c
     c.prog < 1 ∧ s.mcast = [] ∧ s.canPost { c with got := [(0, 0)] } 3 = true ∧
       got (s.engAccess 0 c.tenant (c.reg 1) 0x20000 .rd false) (fun (p, t) => decide (t.engineReady 0 0 c.after .rd p 128 = true ∧ devOf p.pa = s.dev ∧ regionOf p.pa = .dram ∧ (s.coreOf 0).dhalt = false ∧
         (⟨p.pa / 128, 0, (c.reg 2).bits.extractLsb' 32 16, c.tenant, [(0, c.slot * 2 ^ 16 + c.seq.toNat, c.prog)], s.time, false⟩ : McEntry).complete = false))) ∧
    ({ (⟨0x400, 0, 7, 0, [(1, 0, 0)], 0, true⟩ : McEntry) with joined := [(1, 0, 0), (0, 0, 0)] }).complete = false ∧ (⟨0x400, 0, 7, 0, [(1, 0, 0)], 0, true⟩ : McEntry).closed = true ∧
    (let s := { moving (cmdOf .cpy []) with time := 256, mcast := [⟨0x400, 0, 3, 0, [], 0, false⟩], owned := [⟨8, 0, true⟩] }
     s.mcast[0]? = some ⟨0x400, 0, 3, 0, [], 0, false⟩ ∧ s.time ≥ 0 + 256 ∧ s.lineOpen 0 (0x400 * 128) = true ∧ s.owned[0]? = some ⟨8, 0, true⟩ ∧ ∀ c ∈ (s.coreOf 0).tq, c.taken = false) := by decide +kernel

/-- A message of one granule to core 0, and a receive that it fits. -/
def msg0 : Msg := ⟨0, 0, 0, 0, 0, 0, 0, 5, 9, [9], 0⟩

/-- Any sender, any tag, one granule, counter 3. -/
def recv0 : PostedRecv := ⟨capS 0x400 4095, 0, true, 0, 0, 0, 3⟩

/-- A gang of tenant 0 on core 0. -/
def gang0 : Gang := ⟨1, 1, 0, 0, [0], ⟨[]⟩, false⟩

theorem test_premises_MessageCommands :
    checkCap (capS 0x400 4095) 2 0x10000000400 (permS + permE) = .ok () ∧ checkRange (capS 0x400 4095) 2 0x10000000400 16 16 = .ok () ∧ useW tiled 1 1 = .ok () ∧ readW tiled 20 2 = .ok (capS 0x400 4095) ∧
    got (place tiled (capS 0x400 4095) 2 0x10000000400 .wr false) (fun p => targetOf p.pa == some 0 && got (claimAt tiled p 2 0x10000000400) (fun t => decide (t.cpu.sq = []))) ∧
    tiled.cpu.mb[0].toNat < 2 ^ 35 ∧ tiled.cpu.allow < 4 ∧ tiled.roomFor 3 = true ∧ tiled.firstFor tiled.slot 3 = true ∧ (withCpu fun c => { c with allow := 4 }).cpu.allow = 4 ∧ (withCpu fun c => { c with mb := Vector.replicate 8 (2 ^ 35) }).cpu.mb[0] = 2 ^ 35 ∧
    ok (readW tiled 30 3) ∧ ok (readW tiled 31 3) ∧ capKind (capS 0x400 4095) = 4 ∧ tiled.ownWindow 0x10000000400 16 = true ∧ recv0.fits msg0 = true ∧
    (∀ m ∈ tiled.core.overflow, recv0.fits m = false) ∧ tiled.core.posted.length < 64 ∧ 64 ≤ (withCore fun k => { k with posted := List.replicate 64 recv0 }).core.posted.length ∧
    (withCore fun k => { k with overflow := [msg0] }).core.overflow = [msg0] ∧
    (let s := { tiled with msgs := [msg0], gangs := [gang0], allowDue := [(1, 1)] }
     s.msgs[0]? = some msg0 ∧ msg0.target / 2048 = s.dev ∧ s.net = [] ∧ s.mayPost msg0.sender msg0.sgen 3 = true ∧ (s.loc 1).gen = 1 ∧ (s.loc 1).state ≠ .free ∧ s.heldAt 1 = some (0, 0) ∧ s.gangOf 0 = some gang0 ∧ gang0.tenant = msg0.tenant ∧ s.allowDue[0]? = some (1, 1) ∧ ((s.onCore fun k => { k with posted := [recv0] }).coreOf 0).posted = [recv0]) ∧
    (let s := ({ base with cpu := { base.cpu with run := .idle }, gangs := [gang0], msgs := [msg0] } : State).onCore fun k => { k with overflow := List.replicate 32 msg0 }
     s.msgs[0]? = some msg0 ∧ (s.ctx 0 0).live = false ∧ s.gangOf 0 = some gang0 ∧ (s.coreOf 0).posted = [] ∧ 32 ≤ (s.coreOf 0).overflow.length ∧ s.mayPost msg0.sender msg0.sgen 3 = true ∧ (s.ctx 0 0).rovf = none) ∧
    (let s := { tiled with msgs := [msg0], allowDue := [(1, 1)], posts := [⟨1, 1, 3 <<< 4⟩], locs := [(1, { Loc.free with state := .cold, gen := 1 })] }
     s.heldAt 1 = none ∧ (s.loc 1).gen = 1 ∧ (s.loc 1).state ≠ .free) ∧
    (let s := { tiled with msgs := [{ msg0 with sender := 1, sgen := 1 }], posts := [⟨1, 1, 3 <<< 4⟩] }
     s.mayPost 1 1 3 = false ∧ s.gangOf 0 = none) ∧
    ({ tiled with msgs := [msg0] } : State).gangOf 0 = none ∧ ((withCore fun k => { k with deliveries := [⟨3⟩] }).coreOf 0).deliveries = [⟨3⟩] := by decide +kernel

theorem test_premises_MailboxResults : useW base 10 1 = .ok () ∧ readW base 2 3 = .ok (.plain 6) ∧ base.cpu.passed = none ∧ base.cpu.mbox = [] ∧ (withCpu fun c => { c with passed := some 0, mbox := [5] }).cpu.mbox = [5] ∧
    ((0 : BitVec 32) - (Wreg.plain 0).bits.setWidth 32).toNat < 2 ^ 31 ∧ ¬((0 : BitVec 32) - (Wreg.plain 6).bits.setWidth 32).toNat < 2 ^ 31 ∧
    (let s := { base with posts := [⟨1, 1, 5⟩] }
     (s.ctx 0 0).live = true ∧ (s.ctx 0 0).stopHalted = false ∧ (s.ctx 0 0).mbox.length < 16 ∧ s.owed = [] ∧ s.posts = [⟨1, 1, 5⟩] ∧ (s.ctx 0 0).ident = 1 ∧ (s.ctx 0 0).gen = 1) := by decide +kernel

/-- A walk's command: indices of 4 bytes, targets, a gather buffer and ARG. -/
def pkCmd : Cmd := { cmdOf (.pkrun 1 0) [capS 0x400 4095, capS 0x800 4095, capS 0 4095, .plain (2 + 2 ^ 32), .plain 7] with taken := true }

/-- Walker 0 of core 0 runs kernel 1 in the given state. -/
def walks (w : Walker) : State := withCore fun k => { k with ks := k.ks.set 1 ⟨2, List.replicate 32 0⟩, pw := k.pw.set 0 w }

/-- The walker before its first step. -/
def walker0 : Walker := { Walker.idle with busy := true, slotK := 1, cmd := some pkCmd }

/-- A run that waits. -/
def runOf (k : KWait) : KRun := ⟨0, [1, 0, 7, 0, 0, 0, 0, 0], 1, k, false⟩

theorem test_premises_PrefetchCommands : engCap (capS 0x400 4095) 2 (permL + permE) 128 8 = .ok () ∧ ok (readW tiled 20 2) ∧ useW base 10 1 = .ok () ∧
    base.core.ks[0].state ≠ 1 ∧ base.core.pw.toList.all (fun w => !w.busy) = true ∧ (withCore fun k => { k with ks := k.ks.set 0 ⟨1, []⟩ }).core.ks[0].state = 1 ∧ base.roomFor 4 = true ∧ base.firstFor base.slot 4 = true ∧ base.cpu.sq = [] ∧
    (withCore fun k => { k with pq := List.replicate 8 pkCmd }).roomFor 4 = false ∧
    (let s := (walks .idle).onCpu fun c => { c with w := regsOf [(20, capS 0x400 4095), (21, capS 0x800 4095), (22, capS 0 4095), (23, .plain (2 + 2 ^ 32)), (24, .plain 7)] }
     readBlock s 20 4 = .ok [capS 0x400 4095, capS 0x800 4095, capS 0 4095, .plain (2 + 2 ^ 32)] ∧ readW s 24 3 = .ok (.plain 7) ∧ s.core.ks[1].state = 2 ∧
       engCap (capS 0x400 4095) 2 (permL + permE) 8 4 = .ok () ∧ checkCap (capS 0x800 4095) 2 0x10000000800 (permE + permL + permS) = .ok () ∧ kernelHas s.core.ks[1].words [10, 11, 12, 13] = false ∧
       checkCap (capS 0 4095) 2 0x10000000000 (permL + permS + permE) = .ok () ∧ capKind (capS 0 4095) = 4 ∧ gatherUsable s (capS 0 4095) = true ∧ s.core.pw[0].busy = false ∧ s.core.ks[0].state ≠ 2 ∧
       checkCap (capS 0x800 4095) 2 0x10000000800 permE = .ok ()) ∧
    (let s := { walks walker0 with posts := [⟨1, 1, 4 <<< 4⟩] }
     s.core.pw[0].busy = true ∧ s.canPost pkCmd 4 = false) ∧ (walks walker0).canPost pkCmd 4 = true ∧
    (walks walker0).core.pw[0].busy = true ∧ walker0.cmd = some pkCmd := by decide +kernel

theorem test_premises_WalkSteps :
    (let s := walks walker0
     s.walking 0 0 = some (walker0, pkCmd) ∧ walker0.next + walker0.read.length < pkCmd.count ∧ walker0.read.length ≤ 3 * (128 / pkCmd.isz) ∧
       ok (readIndices (pkCmd.reader 0 0 false) 4 (capAddr (pkCmd.reg 0)).toNat 2 0 s)) ∧
    (let w := { walker0 with read := [5] }
     (walks w).walking 0 0 = some (w, pkCmd) ∧ w.runs.length < 8) ∧
    (let w := { walker0 with next := 2 }
     (walks w).walking 0 0 = some (w, pkCmd) ∧ pkCmd.count ≤ w.next ∧ (walks w).canPost pkCmd 4 = true) ∧
    (let w := { walker0 with runs := [runOf (.kld 3 0x10000000900)] }
     (walks w).walking 0 0 = some (w, pkCmd) ∧ ok ((pkCmd.reader 0 1 false).word (walks w) false 8 0x10000000900)) ∧
    (let w := { walker0 with runs := [runOf (.gather 0x10000000900 8 none)] }
     (walks w).walking 0 0 = some (w, pkCmd) ∧ ok ((pkCmd.reader 0 1 false).raws 8 (walks w) 0x10000000900)) ∧
    (let w := { walker0 with runs := [runOf (.gather 0x10000000900 8 (some (9, false)))] }
     let g := granuleOf (capSwz (pkCmd.reg 2)) (w.slotAddr (pkCmd.reg 2))
     let s := { walks w with mem := (walks w).mem.setFull g false }
     s.walking 0 0 = some (w, pkCmd) ∧ s.mem.fullAt g = false ∧ s.slotReady 0 pkCmd (pkCmd.reg 2) (w.slotAddr (pkCmd.reg 2)) = true) ∧
    (let w := { walker0 with runs := [runOf (.scatter 0x10000000900 8 true)] }
     let s := walks w
     let g := granuleOf (capSwz (pkCmd.reg 2)) (w.slotAddr (pkCmd.reg 2))
     s.walking 0 0 = some (w, pkCmd) ∧ s.mem.fullAt g = true ∧ s.slotReady 0 pkCmd (pkCmd.reg 2) (w.slotAddr (pkCmd.reg 2)) = true ∧
       got (s.engAccess 0 pkCmd.tenant (pkCmd.reg 1) 0x10000000900 .wr false) (fun (p, t) => t.engineReady 0 pkCmd.h pkCmd.after .wr p 8 && !t.mem.poisonAt g)) ∧
    (let c := cmdOf (.pkload 0) [capS 0x400 4095]
     let s := withCore fun k => { k with pq := [c] }
     (s.coreOf 0).pq = [c] ∧ s.canPost c 4 = true ∧
       got ((c.reader 0 0 false).words false 4 ((List.range 32).map fun j => (capAddr (c.reg 0)).toNat + 4 * j) s) (fun (l, _) => kernelBad (l.map (BitVec.ofNat 32)) == none)) := by decide +kernel

/-- A dense fibre of two 32-bit values, open at its start. -/
def fibre0 : Fibre := { Fibre.closed with capV := capS 0x400 4095, len := 2, vt := 5, dns := true, opn := true, started := true }

/-- The base with fibres 0 and 1. -/
def fibred (f g : Fibre) : State := withCpu fun c => { c with fb := (c.fb.set 0 f).set 1 g }

theorem test_premises_KernelsAndFibres : (List.replicate 8 (0 : BitVec 64)).length = 8 ∧
    (let x : BitVec 128 := 2 + (5 : BitVec 128) <<< 33 + (1 : BitVec 128) <<< 36
     let s := withCpu fun c => { c with w := regsOf [(20, capS 0x400 4095), (21, capS 0x800 4095), (22, ⟨x, false⟩)] }
     readBlock s 20 3 = .ok [capS 0x400 4095, capS 0x800 4095, ⟨x, false⟩] ∧ bits x 33 3 < 6 ∧ x.getLsbD 36 = true ∧ engCap (capS 0x400 4095) 2 (permL + permE) 4 2 = .ok () ∧
       engCap (capS 0x800 4095) 2 (permL + permE) (2 * valueBytes 5) (valueBytes 5) = .ok () ∧ s.cpu.sq = []) ∧
    useW base 10 1 = .ok () ∧ useW base 11 1 = .ok () ∧ (base.cpu.fb.toList.getD 0 .closed).opn = false ∧
    ((fibred { fibre0 with pos := 2 } fibre0).cpu.fb.toList.getD 0 .closed).pos = 2 ∧ ((fibred fibre0 fibre0).cpu.fb.toList.getD 0 .closed).ahead = [] ∧ fibre0.pos.toNat < fibre0.len.toNat ∧
    ((fibred { fibre0 with ahead := [⟨some 0, 5, 0⟩] } fibre0).cpu.fb.toList.getD 0 .closed).ahead = [⟨some 0, 5, 0⟩] ∧
    (let f := { fibre0 with ahead := [⟨some 0, 5, 0⟩, ⟨some 1, 6, 0⟩] }
     f.opn = true ∧ 3 ≤ f.vt.val ∧ f.vt.val ≤ 5 ∧ f.allRead = true ∧ (∀ e ∈ f.ahead, e.fault = 0 ∧ e.idx ≠ none) ∧ (f.ahead.map fun e => ((e.idx.getD 0).toNat, e.val.toNat)).Pairwise (fun x y => x.1 < y.1)) ∧
    (let s := fibred fibre0 .closed
     let x := (s.ctx 0 0).fibre 0
     x.opn = true ∧ x.started = true ∧ x.pos.toNat + x.ahead.length < x.len.toNat ∧ x.ahead.length < 8 ∧ (∀ e ∈ x.ahead, e.fault = 0) ∧ s.stopped 0 = false ∧ x.dns = true ∧
       ok ((⟨0, 0, 0, x.after, [], x.capV, false⟩ : Reader).word s false 4 0x10000000400)) := by decide +kernel

/-- A descriptor of two sites on a line, with one neighbour at the offset `o` and the routine `r`; its arrays follow it at 0x20100. -/
def descOf (o r : Nat) : BitVec 2048 := BitVec.ofNat 2048 ((capV 0x20100 4095).bits.toNat + (capV 0x20200 4095).bits.toNat * 2 ^ 128 + (capV 0x20300 4095).bits.toNat * 2 ^ 256 +
  (1 + 2 ^ 42 + 2 ^ 47 + 2 ^ 60 + 2 ^ 64 + r * 2 ^ 114) * 2 ^ 1024 + 0x3F800000 * 2 ^ 1216 + o * 2 ^ 1280)

/-- A field of that descriptor, in hold at its first boundary. -/
def field (o r : Nat) : Field := ⟨5, 0, 1, 1, 0x20000, descOf o r, [(2, 2)], [2], [], 0x3F800000, .hold, 0, 0, 0, false, false, false, [], [], [], none, [], [], none, none, 0⟩

/-- The base with page 2 pinned, a field and a request of the test's context to the phase master. -/
def fielded (f : List Field) (op : CmdOp) (regs : List Wreg) : State :=
  { withCpu fun c => { c with answer := some (5, []) } with
    core := { base.core with tlb := [⟨0, 0x20000, 16, 0x20000, true, true, true, 2, 7⟩] }, policy := [(2, 3)], pins := [(2, some ⟨7, 0, 15⟩)], fields := f
    requests := [(5, base.capture op 0 ([capV 0x20000 4095] ++ regs ++ [.plain 0x20000]) [])] }

/-- What every statement about an answer of the phase master asks of its state. -/
def asked (s : State) (f : Field) : Bool :=
  match s.requests with
  | [(5, c)] => decide (s.heldAt c.ident = some (0, 0) ∧ (s.ctx 0 0).answer = some (5, []) ∧ (s.ctx 0 0).gen = c.gen ∧ (s.ctx 0 0).stopHalted = false ∧ c.taken = false ∧
      devOf (c.regs.getLastD .zero).lo.toNat = s.dev ∧ s.fields.find? (fun g => g.desc = (c.regs.getLastD .zero).lo.toNat && (g.tenant = c.tenant || c.prv)) = some f)
  | _ => false

theorem test_premises_FieldQuery : (fielded [field 1 0] .fq [.zero]).heldAt 1 = some (0, 0) ∧ asked (fielded [field 1 0] .fq [.zero]) (field 1 0) = true ∧ (base.capture .fq 0 [] []).op = .fq := by decide +kernel

theorem test_premises_FieldRequests : readW base 5 2 = .ok (capV 0x20000 4095) ∧ ok (readW base 2 1) ∧ useW base 10 1 = .ok () ∧ ok (readW base 2 3) ∧ ok (readW base 3 3) ∧
    checkKind0 (capV 0x20000 4095) 2 (capAddr (capV 0x20000 4095)) (permL + permF + permLC) = .ok () ∧ checkRange (capV 0x20000 4095) 2 (capAddr (capV 0x20000 4095)) 256 256 = .ok () ∧
    got (descAt base (capV 0x20000 4095)) (fun (_, t) => decide (t.cpu.sq = [])) ∧ storing.cpu.sq ≠ [] ∧
    engCap (capV 0x20000 4095) 3 (permS + permE) (bits (Wreg.plain (2 ^ 32)).lo 32 32 * 128) 128 = .ok () ∧
    asked (fielded [field 1 0] .fstart [.zero]) (field 1 0) = true ∧
    (let s := fielded [] .fstart [.zero]
     (∀ f ∈ s.fields, f.desc ≠ 0x20000) ∧ s.heldAt 1 = some (0, 0)) ∧
    (let s := { fielded [] .fstart [.zero] with requests := [(5, base.capture .fstart 0 [capV 0x20000 4095, .zero, .plain (2 ^ 43)] [])] }
     devOf (2 ^ 43) ≠ s.dev ∧ s.heldAt 1 = some (0, 0) ∧ (s.ctx 0 0).answer = some (5, []) ∧ (s.ctx 0 0).gen = 1) ∧
    (let f := { field 1 0 with mode := .run }
     asked (fielded [f] .fstop [.zero]) f = true ∧ asked (fielded [{ f with ended := true }] .fwait [.plain 3, .zero]) { f with ended := true } = true) ∧
    (let f := { field 1 0 with mode := .faulted }
     asked (fielded [f] .fstart [.zero]) f = true) ∧
    (let f := { field 1 0 with mode := .step, steps := 3, started := true, pulls := [⟨0, 0, 1, capV 0x20000 4095, base.capture .fpull 0 [] [], true, []⟩] }
     asked (fielded [f] .fstep [.plain 2, .zero]) f = true ∧ f.bound + f.steps + 2 ≤ 2 ^ 32 * (bits f.parms 1084 4 + 1) - 1) ∧
    (let f := { field 1 0 with spent := true }
     asked (fielded [f] .fctl [.plain (2 ^ 33), .plain 1]) f = true) ∧
    (let x : Word := 0x3F000000 + 2 ^ 32
     bits x 33 2 < 2 ∧ bits x 35 29 = 0 ∧ x.getLsbD 32 = true ∧ (f32.decode (bits x 0 32)).special = false ∧ asked (fielded [field 1 0] .fctl [.plain x, .plain 1]) (field 1 0) = true) ∧
    (let f := { field 1 0 with bound := 2 ^ 33 - 2 }
     asked (fielded [f] .fwait [.plain (2 ^ 33 - 1), .zero]) f = true ∧ f.bound < 2 ^ 33 - 1) ∧
    (let x : Word := 0
     bits x 0 32 + (bits x 33 3 + 1) ≤ (field 1 0).d.positions (x.getLsbD 32) ∧ bits x 36 28 = 0) ∧
    (let x : Word := 2 ^ 32
     0 < bits x 32 32 ∧ bits x 0 32 + bits x 32 32 ≤ (field 1 0).d.lines) := by decide +kernel

/-- Memory that holds the descriptor at 0x20000, with its capabilities' tags. -/
def descMem (x : BitVec 2048) : Memory :=
  ((List.range 256).foldl (fun m i => m.setByte (0x20000 + i) (x.extractLsb' (8 * i) 8)) code).setTag 0x2000 true |>.setTag 0x2001 true |>.setTag 0x2002 true

/-- What a declaration asks, by its steps. -/
def declares (s : State) : Bool :=
  match s.requests with
  | [(5, c)] =>
    let base := (c.reg 0).lo.toNat
    got (descGranules ⟨c.h, c.tenant, c.h, c.after, [], c.reg 0, false⟩ base 16 0 { s with requests := [] }) fun (gs, t) =>
      let d : Desc := ⟨BitVec.ofNat 2048 ((gs.take 16).foldr (fun g a => g.bits.toNat + a * 2 ^ 128) 0)⟩
      let caps := (c.reg 0, base, 256) :: (d.arrays.filter fun a => a.1 ≠ 5).map fun (g, _, n, _) => (gs.getD g .zero, d.cap g, n)
      let (m, u, e) := touchPages c.h c.tenant caps (sortNat (caps.map fun (_, a, n) => pagesOf a n).flatten) t
      decide (arraysFault gs d.arrays = none ∧ d.ok base = true ∧ d.rout ≠ 3 ∧ devOf (c.regs.getLastD .zero).lo.toNat = s.dev ∧ s.heldAt c.ident = some (0, 0) ∧ e = none) &&
        u.pagesQuiet c (m.map (·.2)) && (m.all fun p => u.takable p.2) && decide (u.fields.length < 64)
  | _ => false

/-- Both sites' biases are not numbers. -/
def nanBias (s : State) : State := { s with mem := [0x20300, 0x20302].foldl (fun m a => m.setByte (a + 1) 0x7E) s.mem }

theorem test_premises_FieldPhases : declares { fielded [] .fdecl [.zero] with mem := descMem (descOf 1 0) } = true ∧
    (let f := { field 1 0 with started := true, mode := .run }
     let s := fielded [f] .fq [.zero]
     s.field 5 = some f ∧ s.vatsOf f = [7] ∧ f.bound ≠ 2 ^ 32 * f.d.c - 1 ∧ f.furnish = [] ∧ f.pulls = []) ∧
    (let f := { field 1 0 with started := true, mode := .run, received := [7] }
     let s := fielded [f] .fq [.zero]
     s.vatOf f 0 = 7 ∧ s.phaseOf f 0 = 0 ∧ s.phaseOf f 1 = 1 ∧ 0 < f.d.ns ∧ s.neighbour f 0 0 = some 1 ∧ s.colour f 0 = 0 ∧ s.colour f 1 = 1 ∧ f.d.nb = 1 ∧
       s.updateOf { f with sites := [0] } 0 ≠ .leave ∧ (nanBias s).updateOf { f with sites := [0] } 0 = .nonFinite) ∧
    (let f := { field 1 3 with started := true, mode := .run, received := [7] }
     let s := fielded [f] .fq [.zero]
     s.field 5 = some f ∧ s.updateOf { f with sites := [0] } 0 = .leave ∧ s.colour f 1 ≠ 0) ∧
    (let f := { field 0 0 with started := true, mode := .run, received := [7] }
     let s := fielded [f] .fq [.zero]
     s.field 5 = some f ∧ s.neighbour f 0 0 = some 0) ∧
    (let f := { field 1 0 with started := true, mode := .step, steps := 1, received := [7], sites := [0], reports := [7] }
     let s := fielded [f] .fq [.zero]
     s.field 5 = some f ∧ (∀ v ∈ s.vatsOf f, v ∈ f.reports) ∧ f.ended = false ∧ f.conflict = none ∧ f.stopBy = none ∧ f.saved = none ∧ s.stopped f.tenant = false ∧ { f with steps := 2 }.steps > 1 ∧
       s.mayPost f.owner f.ogen 5 = true ∧ ({ s with posts := [⟨f.owner, f.ogen, 5 <<< 4⟩] } : State).mayPost f.owner f.ogen 5 = false ∧ ({ f with conflict := some 1 } : Field).conflict ≠ none ∧
       (base.capture .fstop 0 [] []).op = .fstop ∧ f.furnish = []) ∧
    (let e : Furnish := ⟨1, [(0, 5), (1, 6)], true, some 0x3F000000, some .hold⟩
     let f := { field 1 0 with started := true, mode := .run, received := [7], sites := [0], reports := [7], furnish := [e, { e with bound := 2 }], pulls := [⟨1, 0, 1, capS 0x400 4095, base.capture .fpull 0 [] [], false, []⟩] }
     let s := fielded [f] .fq [.zero]
     s.field 5 = some f ∧ (∀ v ∈ s.vatsOf f, v ∈ f.reports) ∧ f.bound + 1 < 2 ^ 32 * f.d.c ∧ (f.furnish.filter fun e => e.bound = f.bound + 1) = [e] ∧
       (s.applyFurnishes { f with furnish := [] } [e]).2.mode = .hold) ∧
    (let c := base.capture .fstop 0 [] []
     let f := { field 1 0 with stopBy := some c }
     f.pulls = [] ∧ f.furnish = [] ∧ (fielded [f] .fq [.zero]).canPost c 5 = true) ∧
    (let f := { field 1 0 with started := true, mode := .run, received := [7], reports := [7], bound := 2 ^ 33 - 1 }
     (∀ v ∈ (fielded [f] .fq [.zero]).vatsOf f, v ∈ f.reports) ∧ f.bound = 2 ^ 32 * f.d.c - 1) := by decide +kernel

theorem test_premises_FieldPulls :
    (let p : Pull := ⟨0, 0, 1, capS 0x400 4095, base.capture .fpull 0 [] [], true, []⟩
     let f := { field 1 0 with pulls := [p] }
     let s := fielded [f] .fq [.zero]
     s.field 5 = some f ∧ f.pulls[0]? = some p ∧ p.live = true ∧ f.stopBy = none ∧ s.stopped f.tenant = false ∧ 0 ∉ p.lines ∧
       got (s.engAccess 0 0 p.dest 0x10000000400 .wr false) (fun (q, t) => t.writeReady 0 0 p.cmd.after ⟨q.pa, q.swz, 128, 0, ones 128 128, false, true⟩) ∧
       s.canPost p.cmd 5 = true ∧ { p with lines := [0] }.count ≤ { p with lines := [0] }.lines.length) ∧
    (let p : Pull := ⟨0, 0, 1, capV 0x40000000 4095, base.capture .fpull 0 [] [], true, []⟩
     let f := { field 1 0 with pulls := [p] }
     let s := fielded [f] .fq [.zero]
     (match s.engAccess 0 0 p.dest 0x40000000 .wr false with | .error (code, _) => decide (code ≠ notYet) | _ => false) = true ∧ s.canPost p.cmd 5 = true ∧
       ({ s with posts := [⟨1, 1, 5 <<< 4⟩] } : State).canPost p.cmd 5 = false) ∧
    (let s := { fielded [field 1 0] .fq [.zero] with tenants := [(0, { Tenant.reset with tstate := 2 })] }
     s.stopped 0 = true ∧ (field 1 0).started = false) := by decide +kernel

/-- A request of the test's context to an engine, for which it waits. -/
def asking (eng : Nat) (op : CmdOp) (regs : List Wreg) : State :=
  { withCpu fun c => { c with answer := some (eng, []) } with requests := [(eng, base.capture op 0 regs [])] }

/-- What every statement about an answer asks of its state. -/
def awaiting (s : State) (eng : Nat) : Bool :=
  match s.requests with
  | [(e, c)] => decide (e = eng ∧ s.heldAt c.ident = some (0, 0) ∧ (s.ctx 0 0).gen = c.gen ∧ (s.ctx 0 0).answer = some (eng, []) ∧ (s.ctx 0 0).stopHalted = false)
  | _ => false

/-- A `wmask` of tenant 0 for slice 7 with a mask. -/
def masking (m : Nat) (taken : Bool) : Cmd := { base.capture .wmask 0 [.plain 7, .plain (BitVec.ofNat 64 m)] [] with taken := taken }

/-- Tenant 0's copy of line 7 in quadrant 0, in way w, with its first byte written. -/
def copyOf (w : Nat) : QLine := ⟨9, 1, 0, 0, true, 0, w⟩

theorem test_premises_WayMasks : prved.cpu.prv = true ∧ prved.cpu.sq = [] ∧ ok (readW prved 2 2) ∧ ok (readW prved 3 3) ∧
    (let s := { prved with requests := [(6, masking 0xFFFF false)] }
     s.requests[0]? = some (6, masking 0xFFFF false) ∧ (masking 0xFFFF false).op = .wmask ∧ (masking 0xFFFF false).regs = [.plain 7, .plain 0xFFFF] ∧ s.canPost (masking 0xFFFF false) 6 = true ∧
       Tab.get 0xFFFF s.wmk (7 * 64) &&& ~~~BitVec.ofNat 16 0xFFFF = 0 ∧ Tab.get 0xFFFF s.wmk (7 * 64) &&& ~~~BitVec.ofNat 16 3 ≠ 0) ∧
    (let s := { prved with requests := [(6, masking 3 true)] }
     s.canPost (masking 3 true) 6 = true ∧ s.sliceHeld 7 0 = false ∧ s.usableWays 7 0 = [0, 1] ∧
       ({ s with owned := [⟨7, 0, true⟩] } : State).sliceHeld (s.homeSlice (7 * 128)) (s.tenantAt 0) = true) ∧
    (let s := { prved with pins := [(9, some ⟨7, 0, 15⟩)], requests := [(6, masking 0 false)] }
     s.canPost (masking 0 false) 6 = true ∧ s.pins = [(9, some ⟨7, 0, 15⟩)]) ∧
    (let s := ({ base with swm := [(0, BitVec.allOnes 512)] } : State).setQline 0 7 (copyOf 3)
     Tab.wf .none s.qlines = true ∧ s.qline 0 7 = copyOf 3 ∧ bit (8 : BitVec 16) (s.qline 0 7).way = true ∧ s.mcast = [] ∧ s.mem.wf = true) := by decide +kernel

theorem test_premises_SliceCommands : prved.cpu.prv = true ∧ base.cpu.prv = false ∧ prved.cpu.sq = [] ∧ storing.cpu.sq ≠ [] ∧ ok (readW prved 2 2) ∧ ok (readW prved 3 3) ∧
    (0x30000 : Word).toNat % 65536 = 0 ∧ (0x30000 : Word).toNat / 2 ^ 43 = prved.mdl.devno.toNat ∧ (0x30000 : Word).toNat % 2 ^ 43 < 0xC000000000 ∧
    (let r : Wreg := ⟨BitVec.ofNat 128 (0x20000 + 8191 * 2 ^ 64 + 0x20000 * 2 ^ 90 + 0x30000 * 2 ^ 109), true⟩
     regionArg r = .ok () ∧ engCap (capV 0x20000 4095) 3 (permS + permE) (capLength (capS 0x400 4095)) 16 = .ok ()) := by decide +kernel

/-- A `pmig` or `pmig.clr` of frames 3 and 4 at the slice. -/
def migrating (op : CmdOp) : State := { base with requests := [(6, base.capture op 0 [.plain 0x30000, .plain 0x40000] [])] }

theorem test_premises_MigrationSteps :
    (let s := migrating .pmig
     let c := base.capture .pmig 0 [.plain 0x30000, .plain 0x40000] []
     s.requests[0]? = some (6, c) ∧ s.canPost c 6 = true ∧ (Tab.get none s.pins 3).isSome = false ∧ s.fieldOwned 3 = false ∧ Tab.get 0 s.policy 4 = 0 ∧ s.guests = [] ∧
       s.frameBusy 3 = false ∧ s.frameBusy 4 = false ∧ s.fast.sessions = [] ∧ (Tab.get none { s with pins := [(3, some ⟨7, 0, 15⟩)] }.pins 3).isSome = true ∧ Tab.get 0 { s with policy := [(4, 1)] }.policy 4 ≠ 0 ∧
       { s with blocked := [⟨3, 5, none, 0⟩] }.frameBusy 3 = true) ∧
    (migrating .pmigClr).requests[0]? = some (6, base.capture .pmigClr 0 [.plain 0x30000, .plain 0x40000] []) ∧
    (let s := fielded [field 1 0] .fq [.zero]
     s.fieldOwned 2 = true) ∧
    (let c := base.capture .pmigClr 0 [.plain 0x30000, .plain 0x40000] []
     let s := { base with blocked := [⟨3, 4, some c, 0⟩] }
     s.canPost c 6 = true ∧ s.frameHeld (s.dev * 2 ^ 27 + 3) = false ∧ s.frameHeld (s.dev * 2 ^ 27 + 4) = false ∧ s.net = [] ∧
       (PacketOp.write ⟨0x30000, 0, 8, 0, 255, false, false⟩).range = some (0x30000, 0, 8) ∧ frameOf 0x30000 = s.dev * 2 ^ 27 + 3 ∧ Tab.get 0 { s with policy := [(3, 1)] }.policy 3 ≠ 0) ∧
    base.pageMoves 3 = true ∧ devOf (3 * 65536) = base.dev ∧ 1 ≠ base.dev ∧ Tab.get false base.mdl.ddead 1 = false ∧ Tab.get .home base.pageDir 3 = .home ∧ base.frameHeld 3 = false ∧
    (let s := { base with guestb := 5 * 65536 + 2 ^ 43 }
     let f := 2 ^ 27 + 3
     s.pageMoves f = true ∧ devOf (f * 65536) ≠ s.dev ∧ Tab.get false s.mdl.ddead (devOf (f * 65536)) = false ∧ s.leaving = [] ∧ Tab.get .home s.pageDir f = .home ∧ Tab.get none s.guests f = none ∧
       s.freeGuests = [5] ∧ base.freeGuests = []) ∧
    (let s := { base with pageDir := [(2 ^ 27 + 3, .held 0)], guests := [(2 ^ 27 + 3, some 5)] }
     Tab.get .home s.pageDir (2 ^ 27 + 3) = .held 0 ∧ s.dev = 0 ∧ s.frameHeld (2 ^ 27 + 3) = false ∧ Tab.get none s.guests (2 ^ 27 + 3) = some 5 ∧ s.leaving = [] ∧
       frameOf ((2 ^ 27 + 3) * 65536) ∈ ({ s with leaving := [2 ^ 27 + 3] } : State).leaving) ∧
    Tab.get .home { base with pageDir := [(3, .held 1)] }.pageDir 3 = .held 1 ∧ Tab.get .home { base with pageDir := [(3, .shared [1, 2])] }.pageDir 3 = .shared [1, 2] := by decide +kernel

/-- The region of page 2, and a capability for its records. -/
def region0 : Wreg := ⟨BitVec.ofNat 128 (0x20000 + 8191 * 2 ^ 64 + 0x20000 * 2 ^ 90 + 0x30000 * 2 ^ 109), true⟩

/-- A command for the region, with room for no record. -/
def regional (op : CmdOp) (taken : Bool) (l : List Nat) : Cmd := { base.capture op 0 [region0, .zero] [] with taken := taken, imgs := l.map (BitVec.ofNat 384) }

/-- Page 2 is software-managed, and the quadrants of the ranks 0 and 1 have written the first byte of its first line. -/
def managed (c : Cmd) (x y : BitVec 1024) : State :=
  (({ base with swm := [(2, BitVec.allOnes 512)], requests := [(6, c)] } : State).setQline 0 1024 ⟨x, 1, 0, 0, true, 0, 0⟩).setQline 1 1024 ⟨y, 1, 0, 0, true, 0, 0⟩

theorem test_premises_RegionSteps :
    (let c := regional .mcohSw false []
     let s := { base with requests := [(6, c)] }
     s.requests[0]? = some (6, c) ∧ s.canPost c 6 = true ∧ c.taken = false ∧ capLength (c.reg 0) / 65536 = 1) ∧
    (let c := regional .mcohSw true [2]
     let s := { base with requests := [(6, c)] }
     c.imgs[c.prog]? = some (BitVec.ofNat 384 2) ∧ s.frameHeld 2 = false ∧ ({ s with owned := [⟨1024, 0, true⟩] } : State).frameHeld 2 = true ∧
       { c with prog := 1 }.imgs[1]? = none ∧ s.canPost c 6 = true) ∧
    (let c := regional .mcohHw true [2]
     let s := managed c 5 5
     let r := managed c 5 6
     s.requests[0]? = some (6, c) ∧ c.imgs[c.prog / 512]? = some (BitVec.ofNat 384 2) ∧ s.swLine (1024 * 128) = true ∧ base.swLine (1024 * 128) = false ∧
       s.engineReady c.h c.h c.after .rd ⟨1024 * 128, 0, none⟩ 128 = true ∧ s.canPost c 6 = true ∧ s.mcast = [] ∧ s.mem.wf = true ∧ Tab.wf .none s.qlines = true ∧ Tab.wf 0 s.swm = true ∧
       ((List.range 16).filter fun r => (s.qline r 1024).dirty.getLsbD 0) = [0, 1] ∧ bits (s.qline 0 1024).data 0 8 = 5 ∧ bits (r.qline 1 1024).data 0 8 = 6 ∧
       capLength (c.reg 1) / 16 ≤ c.tally 3 ∧ c.tally 2 < 2 ^ 64) ∧
    (let c : Cmd := { regional .mcohHw true [2] with prog := 512 }
     c.imgs[c.prog / 512]? = none ∧ capLength (c.reg 1) / 16 ≤ c.tally 3 ∧ ({ base with requests := [(6, c)] } : State).canPost c 6 = true) ∧
    (let c : Cmd := { base.capture .mcohHw 0 [region0, capV 0x20000 4095] [] with taken := true, prog := 512, imgs := [2] }
     let s := { base with requests := [(6, c)] }
     c.tally 3 < capLength (c.reg 1) / 16 ∧
       got (s.pieces c.h c.tenant (c.reg 1) false 2 ((capAddr (c.reg 1)).toNat + 16 * c.tally 3) (leBytes 16 0)) (fun (l, t) => l.all fun w => t.writeReady c.h c.h c.after w)) := by decide +kernel

/-- Registers for the requests of launches. -/
def launching : State := prved.onCpu fun c => { c with w := regsOf [(20, capV 0x10000 4095), (21, capV 0x20000 4095), (22, .plain (1 <<< 11)), (23, .plain 0), (24, .plain 0)] }

theorem test_premises_DispatchRequests : ok (readW launching 20 2) ∧ ok (readW launching 22 3) ∧ useW launching 10 1 = .ok () ∧ launching.cpu.sq = [] ∧ launching.cpu.aset = [] ∧ launching.net = [] ∧
    launching.cpu.prv = true ∧ readBlock launching 20 5 = .ok [capV 0x10000 4095, capV 0x20000 4095, .plain (1 <<< 11), .plain 0, .plain 0] ∧ codeArg (capV 0x10000 4095) = .ok () ∧
    wordN (1 <<< 11) ≠ 0 ∧ checkKind0 (capV 0x20000 4095) 2 0x20000 (permL + permS + permSC + permE) = .ok () ∧ checkRange (capV 0x20000 4095) 2 0x20000 512 16 = .ok () ∧
    checkCap (capV 0x20000 4095) 2 0x20000 (permL + permS + permLC + permSC) = .ok () ∧ checkRange (capV 0x20000 4095) 2 0x20000 5152 16 = .ok () ∧
    (launching.onCpu fun c => { c with aset := [.slice 0] }).cpu.aset ≠ [] ∧ launching.cpu.sg.toList.all (fun g => !g.bnd) = true ∧
    (let s := bound (strm true true)
     (s.cpu.sg.toList.filter fun g => g.bnd && g.wr).length = 1 ∧ s.tqCount + 1 ≤ 32 ∧ s.firstFor s.slot 3 = true ∧ s.cpu.sq = [] ∧
       ¬(s.onCore fun k => { k with tq := List.replicate 32 (cmdOf .cpy []) }).tqCount + 1 ≤ 32) := by decide +kernel

/-- Tenant 0 with eight cores and a continuation queue at 0x50000. -/
def tenant0 : Tenant := { Tenant.reset with troot := 1, tpart := 8 * 65536, cqb := 5 * 65536 }

theorem test_premises_DispatchAnswers : awaiting (asking 7 .cjoin [.plain 0]) 7 = true ∧ awaiting (asking 7 .launch [capV 0x10000 4095, capV 0x20000 4095, .plain 0, .plain 0, .plain 0]) 7 = true ∧
    awaiting (asking 7 .cpush [capV 0x10000 4095, capV 0x20000 4095, .plain 0]) 7 = true ∧
    (let x := { tenant0 with qslots := [(0, { QSlot.free with used := true })] }
     let s := { asking 7 .cjoin [.plain 0] with tenants := [(0, x)], mem := code.setByte 0x50020 5 }
     (s.qslot 0 0).used = true ∧ (s.qslot 0 0).sgen.toNat = 0 ∧ 0 < (s.tenantOf 0).slots ∧ (s.recWord 0 0).toNat / 2 ^ 39 % 64 = 0 ∧ (s.recWord 0 0).toNat % 2 ^ 32 ≠ 0 ∧
       ({ s with mem := code } : State).recWord 0 0 = 0 ∧ s.recOpen 0 0 = true ∧ s.unitFault (s.recAddr 0 0) = none ∧
       ({ s with tenants := [(0, { x with cqb := 2 * 65536 })], fields := [field 1 0] } : State).unitFault (2 * 65536) = some 0x0B ∧ s.canPost (base.capture .cjoin 0 [.plain 0] []) 7 = true) ∧
    (let s := { asking 7 .cpush [capV 0x10000 4095, capV 0x20000 4095, .plain 0] with tenants := [(0, tenant0)] }
     s.freeSlot 0 ≠ none ∧ s.unitFault (s.recAddr 0 0) = none ∧ s.recOpen 0 0 = true) ∧
    (let s := { asking 7 .launch [capV 0x10000 4095, capV 0x20000 4095, .plain 0, .plain 0, .plain 0] with tenants := [(0, tenant0)] }
     ¬(s.tenantOf 0).tpart.toNat / 2 ^ 16 % 4096 < 1 ∧ ((s.tenantOf 0).obj 0).done = true ∧ s.launches.length < 256 ∧ (s.tenantOf 0).tprio.toNat = 127 ∧
       ({ (s.tenantOf 0) with objs := [(0, ⟨1, false⟩)] } : Tenant).obj 0 = ⟨1, false⟩) ∧
    ({ base with tenants := [(0, { tenant0 with cqb := 0 })] } : State).freeSlot 0 = none ∧
    ((2 ^ 39 - 1 : Word).toNat / 2 ^ 39 = 0) := by decide +kernel

theorem test_premises_StopRequests : awaiting (asking 7 .stopat [.plain 0, .plain 5000]) 7 = true ∧ prved.cpu.prv = true ∧ base.cpu.prv = false ∧ prved.cpu.sq = [] ∧ prved.cpu.aset = [] ∧ prved.net = [] ∧
    ok (readW prved 2 2) ∧ ok (readW prved 3 3) ∧
    (let s := { asking 7 .stopat [.plain 0, .plain 5000] with tenants := [(0, tenant0)] }
     (s.tenantOf 0).tstate = 0 ∧ ¬(5000 : Word).toNat < s.counter + 4096 ∧ bits (s.tenantOf 0).tpart 16 12 ≠ 0) ∧ bits (base.tenantOf 0).tpart 16 12 = 0 ∧ (4095 : Word).toNat < base.counter + 4096 ∧
    ({ base with tenants := [(0, { tenant0 with tstate := 1 })] } : State).stopped 0 = true ∧
    ¬({ tenant0 with tstate := 2 } : Tenant).tstate = 0 := by decide +kernel

theorem test_premises_FastnessAnswers : awaiting (asking 8 .hq [.plain 5]) 8 = true ∧ awaiting (asking 8 .hauth [.plain 5, .plain 2]) 8 = true ∧ (base.fstat 5).state ≠ 5 ∧ (base.fstat 5).reports = [] ∧
    (5 : Word).toNat % 2 ^ 14 / 4096 = 0 ∧ ¬((2048 : Word).toNat % 2 ^ 14 / 4096 = 0 ∧ (2048 : Word).toNat % 4096 < 2048) ∧ base.fast.reg.length < 256 ∧ base.proposed 0 = [] ∧
    ((base.setFstat 5 { FStat.reset with state := 3 }).fstat 5).state = 3 ∧ ((base.setFstat 5 { FStat.reset with state := 4 }).fstat 5).state = 4 ∧ base.fast.log.length < 4096 ∧
    ({ base with fast := { base.fast with reg := [(1, 1, 0)] } } : State).fast.reg ≠ [] := by decide +kernel

/-- Tables at 0x70000 that map the first GiB to itself. -/
def mapped (m : Memory) : Memory := [(0x70000, 1), (0x70001, 0x10), (0x70002, 7), (0x71000, 1), (0x71001, 0x20), (0x71002, 7), (0x72000, 0x0F)].foldl (fun (m : Memory) (x : Nat × BitVec 8) => m.setByte x.1 x.2) m

theorem test_premises_RegionSteps_of_pages :
    (let s := { base with tenants := [(0, { tenant0 with troot := 0x70001 })], mem := mapped code, requests := [(6, regional .mcohSw false [])] }
     let c := regional .mcohSw false []
     got (s.regionFrames c (capLength (c.reg 0) / 65536) (capAddr (c.reg 0)).toNat) (fun l => decide (l = [(2, 0)])) = true ∧ (1 < Tab.get 0 { s with policy := [(2, 3)] }.policy 2) ∧
       devOf (2 * 65536) = s.dev ∧ s.frameBusy 2 = false ∧ { s with blocked := [⟨2, 5, none, 0⟩] }.frameBusy 2 = true ∧
       (match ({ s with mem := code } : State).regionFrames c 1 0x20000 with | .error (code, _) => decide (code ≠ notYet) | _ => false) = true) := by decide +kernel

/-- A launch of one gang of one core of tenant 0, with code at 0x10000 and an empty argument table at 0x20000. -/
def launch0 (n ra : Nat) : Launch := ⟨1, 0, 1, 1, 3, false, capV 0x10000 4095, capV 0x20000 4095, 1, n, 5, ra, 0, 0, 0, [], 0, 0, none⟩

/-- No context lives, and tenant 0 has eight cores. -/
def quietCore : State := { base with cpu := { Ctx.reset with ident := 1, gen := 1 }, core := { base.core with gang := none }, tenants := [(0, tenant0)] }

theorem test_premises_GangSteps :
    (let s := { quietCore with launches := [launch0 0 1] }
     s.stopped 0 = false ∧ s.launches.find? (fun l => l.tenant = 0 && l.count = 0 && s.eligible l && l.canEnd s) = some (launch0 0 1) ∧ (launch0 0 1).failed = none ∧ (launch0 0 1).ra = 1 ∧
       (s.loc 1).state ≠ .free ∧ (s.loc 1).gen = 1 ∧ s.mayPost 1 1 7 = true) ∧
    (let s := { quietCore with launches := [launch0 1 0] }
     s.stopped 0 = false ∧ (∀ k ∈ s.launches, ¬(k.tenant = 0 ∧ k.count = 0 ∧ s.eligible k = true ∧ k.canEnd s = true)) ∧ s.firstLaunch 0 = some (launch0 1 0) ∧ s.fitting 0 1 = some [0] ∧
       ok (s.records (launch0 1 0) 0 [0]).1) ∧
    (let s := { quietCore with launches := [{ launch0 1 0 with next := 1 }], gangs := [gang0] }
     s.gangs[0]? = some gang0 ∧ gang0.saved = false ∧ (∀ h ∈ gang0.members, s.coreDone h = true) ∧ s.launches.find? (fun l => l.id = gang0.launch) = some { launch0 1 0 with next := 1 } ∧
       (∀ g' ∈ listDrop s.gangs 0, g'.launch ≠ 1) ∧
       { launch0 1 0 with next := 1 }.canEnd (gang0.members.foldl State.freeCore { s with gangs := listDrop s.gangs 0 }) = true) ∧
    (let l := { launch0 1 0 with table := capV 0x80000000 4095 }
     let s := { quietCore with launches := [l] }
     (match (s.records l 0 [0]).1 with | .error (code, _) => decide (code ≠ notYet) | _ => false) = true ∧ { l with failed := some (2, 0, 0) }.canEnd (s.records l 0 [0]).2 = true ∧ s.gangs = []) := by decide +kernel

theorem test_premises_GangSteps_of_joins :
    (let x := { tenant0 with cqb := 2 * 65536, qslots := [(0, { QSlot.free with used := true })] }
     let s := { fielded [field 1 0] .fq [.zero] with tenants := [(0, x)], launches := [launch0 0 2] }
     (launch0 0 2).failed = none ∧ (launch0 0 2).ra = 2 ∧ (s.qslot 0 ((launch0 0 2).handle.toNat % 65536)).used = true ∧ (s.loc 1).state ≠ .free ∧ (s.loc 1).gen = 1 ∧ s.mayPost 1 1 7 = true ∧
       s.unitFault (s.recAddr 0 0) = some 0x0B) := by decide +kernel

/-- A continuation record in slot 0 of tenant 0's queue: code at 0x10000, a frame at 0x60000, priority p, ready. -/
def recorded (p : Nat) : State :=
  let s := { base with tenants := [(0, { tenant0 with qslots := [(0, { QSlot.free with used := true })] })], gangs := [gang0] }
  ((s.unitWrite 0x50000 16 ((capV 0x10000 4095).bits.setWidth 1024) true).unitWrite 0x50010 16 ((capV 0x60000 4095).bits.setWidth 1024) true).unitWrite 0x50020 16 (BitVec.ofNat 1024 (p * 2 ^ 32)) false

theorem test_premises_ContinuationSteps :
    (let u := (base.onCpu fun c => { c with run := .parked .ending }).focus 0 0
     u.cpu.run = .parked .ending ∧ u.cpu.sq = [] ∧ u.engineBusy = false ∧ (List.range 10).all fun i => !(u.ctx 0 (i + 1)).live) ∧
    (let q := { QSlot.free with used := true, ident := 1 }
     let s := { recorded 5 with tenants := [(0, { tenant0 with troot := 0x70001, qslots := [(0, q)] })], mem := mapped (recorded 5).mem }
     let u := s.unitWrite 0x50020 16 (BitVec.ofNat 1024 (5 * 2 ^ 32 + 2 ^ 45)) false
     let v := (u.setCtx 0 2 { Ctx.reset with isOpen := true }).focus 0 2
     bit (v.recWord 0 0) 45 = true ∧ u.bestRecord 0 = some (0, 5, 0) ∧
       ((v.setQslot 0 0 { q with busy := true }).comeBack 0 0 (v.recCap 0 0 0) (v.recCap 0 0 1) q 0 5).isSome = true) ∧
    (let s := (recorded 5).setCtx 0 2 { Ctx.reset with isOpen := true }
     s.servedTenant 0 = some 0 ∧ s.stopped 0 = false ∧ s.bestRecord 0 = some (0, 5, 0) ∧ (s.focus 0 2).cpu.isOpen = true ∧ (s.focus 0 2).cpu.live = false ∧ bit ((s.focus 0 2).recWord 0 0) 45 = false) ∧
    (let s := (recorded 5).setCtx 0 2 { Ctx.reset with isOpen := true, run := .ready, cont := some (1, 0, 4, .zero) }
     s.stopped 0 = false ∧ s.bestRecord 0 = some (0, 5, 0) ∧ s.openSlots 0 = [(0, 2)] ∧ (∀ x ∈ s.openSlots 0, (s.ctx x.1 x.2).live = true ∧ (s.ctx x.1 x.2).yieldSig = false)) ∧
    (let s := ({ base with gangs := [gang0] } : State).onCpu fun c => { c with sq := [.barrier none] }
     (s.ctx 0 0).sq = [.barrier none] ∧ (s.coreOf 0).gang = some (1, 0) ∧ s.gangs.find? (fun x => x.id = 1) = some gang0 ∧ gang0.barrier.arrivals.length + 1 ≥ gang0.members.length ∧
       1 < { gang0 with members := [0, 1] }.members.length) := by decide +kernel

/-- A continuation of slot 0, signalled, with a save area. -/
def yielding (frame : Wreg) : State := (recorded 5).onCpu fun c => { c with cont := some (0, 0, 5, frame), yieldSig := true }

/-- The doubleword of a header whose P bit is set, with the first groups of w and v live. -/
def yieldHdr : Nat := 0x7F * 2 ^ 57 + 2 ^ 32 + 2 ^ 24 + 2 ^ 8 + 4

theorem test_premises_YieldSteps :
    (let s := yielding (capS 0x1000 4095)
     s.cpu.cont = some (0, 0, 5, capS 0x1000 4095) ∧ s.cpu.yieldSig = true ∧ yieldHdr / 2 ^ 32 % 2 = 1 ∧ s.cpu.ldepth = 0 ∧ s.cpu.mbox = [] ∧ s.engineBusy = false ∧ s.cpu.awW = 0 ∧ s.cpu.awV = 0 ∧
       s.cpu.awP = 0 ∧ got (s.savePlaces (capS 0x1000 4095) .wr (s.cpu.yieldImage yieldHdr)) (fun l => s.saveClear l) = true ∧ s.unitFault (s.recAddr 0 0) = none ∧ s.cpu.sq = [] ∧ s.recOpen 0 0 = true ∧
       (s.enqueue (.store [])).cpu.sq ≠ []) ∧
    (let s := yielding (capS 0x60000 4095)
     (match s.savePlaces (capS 0x60000 4095) .wr (s.cpu.yieldImage yieldHdr) with | .error (code, _) => decide (code = 0x09) | _ => false) = true) ∧
    (let s := { yielding (capS 0x1000 4095) with fields := [{ field 1 0 with pages := [5] }] }
     s.unitFault (s.recAddr 0 0) = some 0x0B ∧ ok (s.savePlaces (capS 0x1000 4095) .wr (s.cpu.yieldImage yieldHdr))) ∧
    (base.cpu.redirect base.cpu.ldepth 0x10000).2 = (0x10000, false) ∧ ok (enterBlock (base.onCpu fun c => { c with passed := none }) base.cpu.execCap 0x10000) ∧
    (1 : Fin 64) ≠ 0 ∧ yieldHdr / 2 ^ (8 + 1 / 4) % 2 = 1 ∧ yieldHdr / 2 ^ (24 + 3 / 4) % 2 = 1 := by decide +kernel

theorem test_premises_StopSteps :
    (let s := { base with tenants := [(0, { tenant0 with tstate := 1 })] }
     (s.tenantOf 0).tstate = 1 ∧ s.counter ≥ (s.tenantOf 0).tstop.toNat) ∧ (base.tenantOf 0).tstate ≠ 1 ∧
    (let s := { quietCore with tenants := [(0, { tenant0 with tstate := 2 })] }
     (s.tenantOf 0).tstate = 2 ∧ (s.tenantOf 0).tokenDone = false ∧ (∀ x ∈ s.contextsOf 0, (s.ctx x.1 x.2).drained = true ∧ (s.coreOf x.1).drained = true) ∧ s.loadsDone 0 = true ∧ s.fields = [] ∧ s.slicesDone 0 = true ∧ s.net = []) ∧
    (let s := { base with tenants := [(0, { tenant0 with tstate := 2, tokenDone := true })], cpu := { base.cpu with run := .halted .stop none } }
     let u : State := { s with locs := [(1, { Loc.free with state := .moving, gen := 1 })] }
     (s.loc (s.ctx 0 0).ident).state ≠ .moving ∧ (0, 0) ∈ s.contextsOf 0 ∧ s.slicesDone 0 = true ∧ s.net = [] ∧ ∀ x ∈ u.contextsOf 0, (u.loc (u.ctx x.1 x.2).ident).state = .moving) ∧
    (let s := { quietCore with tenants := [(0, { tenant0 with tstate := 4 })], gangs := [{ gang0 with saved := true }], locs := [] }
     (s.tenantOf 0).tstate = 4 ∧ (s.coreOf 0).gang = none ∧ s.locs = [] ∧ (s.gangs.filter fun g => g.tenant = 0 && g.saved) = [{ gang0 with saved := true }] ∧ s.late { gang0 with saved := true } = false ∧
       ((s.setFstat 0 { FStat.reset with state := 1 }).fstat 0).state = 1 ∧ (s.setFstat 0 { FStat.reset with state := 2 }).hole 0 = true ∧ (s.onCore fun k => { k with gang := some (1, 0) }).core.gang ≠ none ∧
       ({ s with tenants := [(0, tenant0)] } : State).restored 0 = [] ∧ s.coresFree { gang0 with saved := true } = true ∧ (tenant0).tstate = 0 ∧
       ({ s with locs := [(9, { Loc.free with state := .cold })] } : State).hasCold 0 = true) ∧
    (let s := { base with tenants := [(0, { tenant0 with tstate := 4 })], gangs := [gang0], cpu := { base.cpu with run := .halted .stop none }, locs := [(1, { Loc.free with state := .moving, gen := 1 })] }
     (s.gangs.filter fun g => g.tenant = 0 && g.saved) = [] ∧ gang0.saved = false ∧ (0, 0) ∈ s.contextsOf 0 ∧ (s.loc (s.ctx 0 0).ident).state = .moving ∧ (s.ctx 0 0).run ≠ .parked .restore ∧
       ({ s with tenants := [(0, tenant0)] } : State).restored 0 ≠ []) ∧ ({ tenant0 with tstate := 3 } : Tenant).tstate = 3 := by decide +kernel

theorem test_premises_DebugSteps : (base.coreOf 0).dhalt = false ∧ ((base.onCore fun k => { k with dhalt := true }).coreOf 0).dhalt = true ∧ (withCpu fun c => { c with run := .parked (.watch 9) }).cpu.run = .parked (.watch 9) ∧
    (let s := base.onCore fun k => { k with dhalt := true, dsel := 0x500 }
     (s.coreOf 0).dsel.toNat / 16 % 16 = 0 ∧ (s.coreOf 0).dsel.toNat % 16 ≤ 10 ∧ (s.coreOf 0).dsel.toNat / 2 ^ 8 % 2 ^ 8 = 5) ∧
    (withCpu fun c => { c with dbl := true }).ctx 0 0 = { base.cpu with dbl := true } ∧
    ok (returnTo ((trapped).onCpu fun c => { c with st := stRestored c.esr })) := by decide +kernel

/-- Core 0's context with one entry in its store queue. -/
def leaving (e : SqEntry) : State := withCpu fun c => { c with sq := [e] }

/-- A write of one byte of core 1's scratch, and of device memory. -/
def farWrite (a : Nat) : WriteOp := ⟨a, 0, 1, 7, 1, false, true⟩

/-- A packet of core 0's context. -/
def packet0 (dest : Agent) (op : PacketOp) : Packet := ⟨0, 0, 0, 0, dest, op, .egress, 0, 0, false⟩

theorem test_premises_QueueSteps : ((leaving (.store [(.bank 0, write1)])).focus 0 0).cpu.sq = [.store [(.bank 0, write1)]] ∧ base.agentOf write1.pa = .bank base.cur ∧ base.bankTakes write1.pa write1.swz write1.n = true ∧
    ({ base with owned := [⟨lineOf write1.swz write1.pa, 0, true⟩] } : State).bankTakes write1.pa write1.swz write1.n = false ∧
    (let parts := [(Agent.bank 0, write1), (Agent.bank 0, write1)]
     (leaving (.store parts)).partsReady parts = [0, 1] ∧ ({ leaving (.store parts) with owned := [⟨lineOf write1.swz write1.pa, 0, true⟩] } : State).partsReady parts = []) ∧
    (leaving (.command 3 (cmdOf .cpy []))).tqHeld < 32 ∧ 32 ≤ ((leaving (.command 3 (cmdOf .cpy []))).onCore fun k => { k with tq := List.replicate 32 (cmdOf .cpy []) }).tqHeld ∧
    base.agentOf 0x10000000400 = .bank base.cur ∧ base.agentOf (farWrite 0x10000080000).pa ≠ .bank base.cur ∧
    (PacketOp.amo .add 0x10000080000 0 8 1 0).range = some (0x10000080000, 0, 8) ∧ base.bankTakes 0x10000000400 0 16 = true ∧
    (let v := leaving (.fence 5 false)
     v.cpu.aset.filter (needsApplied 5 v.cur) = [] ∧ v.net = []) ∧
    (let v := { leaving (.fence 2 false) with net := [{ packet0 (.bank 1) (.write (farWrite 0x10000080000)) with stage := .port }] }
     v.cpu.aset.filter (needsApplied 2 v.cur) = [] ∧ v.net.any (fun p => decide (p.h = v.cur ∧ p.slot = v.slot ∧ p.op.writes = true ∧ p.farEnough 2 = false)) = true) ∧
    (let v := (leaving (.fence 5 false)).onCpu fun c => { c with aset := [.slice 3] }
     v.cpu.aset.filter (needsApplied 5 v.cur) = [.slice 3] ∧ v.probing (.slice 3) = false ∧ ({ v with net := [packet0 (.slice 3) .probe] } : State).probing (.slice 3) = true) := by decide +kernel

/-- The base with packets of the network. -/
def carrying (l : List Packet) : State := { base with net := l }

/-- A load of a word for w10 with reads that are still out, and a poisoned byte. -/
def pending0 (l : Nat) (x : Option Nat) : Pending := ⟨.word 10 8 false, [], 1, 0, 0, none, 0x400, l, 0, false, x⟩

/-- A load parks for its reads. -/
def loading (l : Nat) (x : Option Nat) : State := withCpu fun c => { c with run := .parked .load, pend := some (pending0 l x) }

theorem test_premises_AgentSteps :
    (let p := packet0 (.bank 0) (.write write1)
     (carrying [p]).net[0]? = some p ∧ (carrying [p]).admits p = true ∧ (carrying [p]).ownedBy write1.pa = false) ∧ (fielded [field 1 0] .fq [.zero]).ownedBy 0x20000 = true ∧
    (carrying [packet0 (.bank 0) (.fullBits 0x10000000400 0 16 false)]).admits (packet0 (.bank 0) (.fullBits 0x10000000400 0 16 false)) = true ∧
    (carrying [packet0 (.config 1) (.cfgWrite 0x40002000100 5)]).admits (packet0 (.config 1) (.cfgWrite 0x40002000100 5)) = true ∧
    (let r : ReadOp := ⟨0x10000000400, 0, 8, ones 128 8, 0, .consume true⟩
     let p := packet0 (.bank 0) (.read r)
     let s := { loading 1 none with net := [p] }
     s.admits p = true ∧ (s.ctx 0 0).pend = some (pending0 1 none) ∧ s.allFull r = true ∧ ({ s with mem := s.mem.setFull (granuleOf 0 0x10000000400) false } : State).allFull r = false ∧ p.waiting = false ∧
       (s.serve 0 { r with kind := .watch } 0).2.2 = none) ∧
    (let w : WriteOp := ⟨0x10000000400, 0, 16, 7, ones 128 16, false, true⟩
     let p := packet0 (.bank 0) (.stfeWait w)
     (carrying [p]).admits p = true ∧ (carrying [p]).bitsReady p.op = false ∧
       ({ carrying [p] with mem := code.setFull (granuleOf 0 0x10000000400) false } : State).bitsReady p.op = true) ∧
    (let p := packet0 (.bank 0) (.amo .add 0x10000000400 0 8 1 0)
     let q := { packet0 (.bank 0) (.write write1) with id := 0 }
     let s := carrying [q, { p with id := 1 }]
     s.poisonFor 0 0 0x10000000400 8 (ones 128 8) = none ∧ (carrying [p]).admits p = true ∧ q.bars (.bank 0) 0x10000000400 4 8 = true ∧ s.admits { p with id := 1, op := .amo .add 0x10000000400 4 8 1 0 } = false ∧
       ({ s with mem := code.setPoison (granuleOf 0 0x10000000400) true } : State).poisonFor 0 0 0x10000000400 8 (ones 128 8) ≠ none) ∧
    (let q := { packet0 (.bank 2) (.write ⟨0x10000100000, 0, 1, 7, 1, false, true⟩) with h := 1, stage := .ring }
     let p := { packet0 (.bank 2) (.write ⟨0x10000100000, 0, 1, 7, 1, false, true⟩) with id := 1, stage := .port }
     q.bars p.dest 0x10000100000 0 1 = true ∧ q.id ≠ p.id ∧ q.h / 16 = p.h / 16) ∧
    (let p := packet0 (.slice 3) (.write (farWrite 0))
     let s := { base with wcc := [(3 * 64, 0xFFFF)] }
     p.op.writes = true ∧ p.stage ≠ .agent ∧ Tab.get 0 s.wcc (3 * 64 + p.tenant) ≥ 0xFFFF ∧ s.admits p = false) ∧
    (let p := { packet0 (.slice 3) .probe with id := 1 }
     let q := packet0 (.slice 3) (.write (farWrite 0))
     q.before p = true ∧ q.tenant = p.tenant ∧ q.op.writes = true) ∧
    (let p := packet0 (.slice 3) .probe
     let s := (carrying [p]).onCpu fun c => { c with aset := [.slice 3] }
     (s.ctx 0 0).aset[0]? = some (.slice 3) ∧ s.net.findIdx? (fun p => decide (p.h = 0 ∧ p.slot = 0 ∧ p.dest = .slice 3 ∧ p.op = .probe)) = some 0 ∧
       s.net.all (fun q => !(q.before p && q.op.writes)) = true) := by decide +kernel

theorem test_premises_AgentSteps_of_blocks_and_tags :
    (let p := { packet0 (.config 1) (.cfgWrite 0x40002000100 5) with id := 1 }
     let q := packet0 (.config 1) (.cfgWrite 0x40002000108 5)
     let s := carrying [q, p]
     p.op.range = none ∧ q ∈ s.net ∧ q.op.block = p.op.block ∧ q.waiting = false ∧ q.h = p.h ∧ q.id < p.id ∧ (carrying [packet0 (.config 1) (.cfgRead 0x40002000100)]).admits (packet0 (.config 1) (.cfgRead 0x40002000100)) = true) ∧
    base.deadAgent (.slice 3) = false ∧ ({ base with mdl := { base.mdl with ddead := [(5, true)] } } : State).deadAgent (.remote 5) = true ∧
    (let s := { base with oldTag := [(3, 2)] }
     Tab.get 0 s.policy (frameOf 0x30000) = 0 ∧ Tab.get 0 s.oldTag (frameOf 0x30000) = 2 ∧ Tab.get 0 base.oldTag (frameOf 0x30000) = 0) := by decide +kernel

theorem test_premises_ReturnSteps :
    (let s := loading 0 none
     (s.focus 0 0).cpu.pend = some (pending0 0 none) ∧ (s.focus 0 0).cpu.boundW 10 = none ∧ (s.focus 0 0).cpu.run = .parked .load) ∧
    (loading 1 none).cpu.pend = some (pending0 1 none) ∧ (loading 0 (some 3)).cpu.tm = false ∧
    (let s := (withCpu fun c => { c with walk := some (0, 2) }).askWalk 0 0 2
     s.walkRuns 0 0 2 = true ∧ (∀ a ∈ s.walkReads 0 0x20000 5 0 0, s.open ⟨a, 0, none⟩ = true) ∧ s.joiners 0 0 2 = [0] ∧ ok (s.walk 0 0 0x20000) = false ∧ s.walkRuns 0 0 3 = false) ∧
    (∃ a ∈ ({ base with owned := [⟨0, 0, true⟩] } : State).walkReads 0 0x20000 5 0 0, ({ base with owned := [⟨0, 0, true⟩] } : State).open ⟨a, 0, none⟩ = false) ∧
    (let s := { base with tenants := [(0, { tenant0 with troot := 0x70001 })], core := { base.core with tlb := [] }, mem := mapped code }
     s.walk 0 0 0x20000 = .ok ⟨0, 0, 30, 0, true, true, false, 0, 0⟩ ∧ s.tlbFind 0 0 0x20000 = none) ∧
    base.cpu.run = .issuing ∧ base.cpu.tm = false ∧ base.cpu.answer = none ∧ (withCpu fun c => { c with povr := some 5 }).cpu.povr = some 5 ∧ (withCpu fun c => { c with rovf := some 5 }).cpu.rovf = some 5 ∧
    (let s := withCpu fun c => { c with mbox := [5], st := c.st ||| (1 : Word) <<< 35 }
     s.cpu.mbox ≠ [] ∧ s.cpu.mbie = true ∧ s.cpu.povr = none ∧ s.cpu.rovf = none ∧ s.asyncReady = true) ∧ base.asyncReady = false ∧
    (withCpu fun c => { c with povr := some 5 }).asyncReady = true ∧
    (let s := { (withCpu fun c => { c with run := .parked (.watch 9) }) with time := 9 }
     (s.ctx 0 0).run = .parked (.watch 9) ∧ (s.coreOf 0).dhalt = false ∧ s.time ≥ 9) ∧
    (let p := packet0 (.remote 5) (.write (farWrite (5 * 2 ^ 43)))
     let s := { carrying [p] with mdl := { base.mdl with ddead := [(5, true)] } }
     s.net[0]? = some p ∧ Tab.get false s.mdl.ddead 5 = true ∧ Tab.get false base.mdl.ddead 5 = false) := by decide +kernel

theorem test_premises_FastnessSteps : (base.fstat 5).state = 0 ∧ base.fast.lintc ≠ 0 ∧
    (let f : FStat := { FStat.reset with score := 512 }
     let s := { base.setFstat 5 f with time := 85000 * 850000000 }
     (s.fstat 5).state = 0 ∧ 4 * ((s.time - (s.fstat 5).since) / 850000000) ≥ s.fast.lintc.toNat ∧ (s.coreOf 5).gang = none) ∧
    (let s := base.setFstat 5 { FStat.reset with state := 1, duePos := some 0 }
     s.retirable 0 = none ∧ s.fast.sessions = [] ∧ s.dueIn 0 = [5] ∧ (s.coreOf 5).gang = none ∧ s.blocked = []) ∧
    (let s : State := { base.setFstat 5 { FStat.reset with state := 2 } with fast := { (base.setFstat 5 { FStat.reset with state := 2 }).fast with sessions := [⟨0, 5, true, []⟩] } }
     s.fast.sessions.find? (fun y => y.quad = 0 && y.told) = some ⟨0, 5, true, []⟩ ∧ (s.fstat 5).state = 2) ∧
    Nat.min 0xFFFF ((1000 : BitVec 16).toNat + 64) ≥ 1024 ∧ bit base.fast.stand 0 = false ∧ statClass 5 = 0 ∧
    (let s := { base with time := 73440000000000, fast := { base.fast with stat := [(5, { FStat.reset with score := 9 })] } }
     s.counter / 73440000000000 > s.fast.lastHalving ∧ s.fast.stat = [(5, { FStat.reset with score := 9 })]) ∧
    (let s := base.setFstat 2200 { FStat.reset with state := 4, wanted := some 2 }
     (s.fstat 2200).wanted = some 2 ∧ s.moving 2200 = false ∧ s.channelBusy 2200 = false ∧ s.fast.log.length < 4096 ∧ (s.fstat 2200).state = 4) ∧
    (base.setFstat 2200 { FStat.reset with state := 3, wanted := some 2 }).reserveFor 2200 = false ∧
    (let p := packet0 (.remote 5) (.read ⟨5 * 2 ^ 43, 0, 8, ones 128 8, 0, .plain⟩)
     (carrying [p]).net = [p] ∧ p.dest = .remote 5 ∧ 1 ∉ (carrying [p]).mdl.ports 5 ∧ ({ base.mdl with rtab := [(5, 0x81)] } : Module).ports 5 = [1] ∧ code.wf = true ∧ ((carrying [p]).fstat 2050).state ≠ 5) ∧ base.net = [] := by decide +kernel

/-- A link is leased by the peer of the lower number, which Config leaves open: one of the two cases holds. -/
theorem test_premises_FastnessSteps_of_links : (let s := base.setFstat 2048 { FStat.reset with state := 1, duePos := some 0 }
     s.retirable 0 = none ∧ s.fast.sessions = [] ∧ s.dueIn 0 = [2048] ∧ s.blocked = []) ∧ (base.dev < Config.peerOf 0 ∨ Config.peerOf 0 ≤ base.dev) :=
  ⟨by decide +kernel, Nat.lt_or_ge _ _⟩

theorem test_premises_ModuleSteps : ({ base with mdl := { base.mdl with stage := 4, locked := true } } : State).residentRuns = true ∧ base.residentRuns = false ∧ byResident (.dhaltHalt 0) = true ∧
    base.mdl.refDev = none ∧ ({ base with mdl := { base.mdl with recovery := true } } : State).mdl.recovery = true ∧ base.mdl.power = true ∧ base.mdl.stage = 0 ∧ base.mdl.recovery = false ∧ base.mdl.locked = false ∧ base.mdl.slowLen = 0 ∧ (5 : Nat) ≥ base.counter ∧ { base with time := 6 }.counter = 6 ∧
    { base with time := 1024 }.counter / 1024 > base.frame ∧
    (let s := (List.range 7).foldl (fun (s : State) i => match exec (.kslotStage 0 (8 * i) 5) s with | .next t => t | _ => s) base
     (Tab.get ⟨0, 0, 0, 0⟩ s.mdl.kslot 0).written = 0x7F) ∧
    (let s := (List.range 6).foldl (fun (s : State) i => match exec (.mextStage (8 * i) 5) s with | .next t => t | _ => s) base
     6 ≤ s.mdl.mextN) := by decide +kernel

theorem test_premises_LinkSteps : Tab.get false base.mdl.ldead 5 = false ∧ (base.fstat 2053).state ≠ 5 ∧
    Tab.get 0 ({ base.mdl with missed := [(5, 3)] } : Module).missed 5 ≥ 3 ∧ Tab.get 0 base.mdl.replays 5 = 0 ∧ bit (2 : BitVec 64) 1 = true ∧ bit (0 : BitVec 64) 1 = false ∧
    (let s := { base with time := 25500, mdl := { base.mdl with replays := [(5, 1)] } }
     Tab.get 0 s.mdl.replays 5 ≠ 0 ∧ s.time + 1 ≥ Tab.get 0 s.mdl.replays 5 + 25500 ∧ Tab.get 0 s.mdl.missed 5 < 3) ∧
    (let old := { base with mdl := { base.mdl with rtab := [(9, 0x81)] } }
     let s := { old with mdl := { old.mdl with ldead := [(1, true)] } }
     Tab.wf 0 s.mdl.routedAt = true ∧ 9 ∈ old.mdl.rtab.map (·.1) ∧ old.routeLive 9 = true ∧ s.routeLive 9 = false) ∧
    (let s := { base with mdl := { base.mdl with ddead := [(9, true)], refDev := some 9, peers := [0, 9] } }
     Tab.get false s.mdl.ddead 9 = true ∧ s.mdl.refDev = some 9) ∧
    (let s := { base.setFstat 2053 { FStat.reset with state := 6 } with mdl := { base.mdl with ldead := [(5, true)] } }
     Tab.get false s.mdl.ldead 5 = true ∧ (s.fstat 2053).state = 6) ∧
    (let s := { base with time := 25500, pageDir := [(3, .held 9)] }
     9 ≠ s.dev ∧ Tab.get false s.mdl.ddead 9 = false ∧ s.mdl.ports 9 = [] ∧ s.time ≥ Tab.get 0 s.mdl.routedAt 9 + 25500 ∧ s.pageDir = [(3, .held 9)] ∧ devOf (3 * 65536) = s.dev) ∧
    (let s := { base with mdl := { base.mdl with rtab := [(9, 0x81)] } }
     s.mdl.ports 9 = [1] ∧ s.portLive 1 = true) := by decide +kernel

theorem test_premises_ConfigSteps : (base.tenantOf 3).tstate = 0 ∧ base.gangs = [] ∧ (5 + 8 * 65536 : BitVec 64).toNat % 2 ^ 11 + (5 + 8 * 65536 : BitVec 64).toNat / 2 ^ 16 % 2 ^ 12 ≤ 2048 ∧
    (2047 + 2 * 65536 : BitVec 64).toNat % 2 ^ 11 + (2047 + 2 * 65536 : BitVec 64).toNat / 2 ^ 16 % 2 ^ 12 > 2048 ∧ ({ Loc.free with state := .saved }).state = .saved ∧ (4 : Word).toNat % 8 = 4 := by decide +kernel

/-- What `StepRunsDecoded` asks of a state: core 0 issues within a block. -/
def issues (s : State) : Bool :=
  decide (s.mdl.power = true ∧ s.agenda = [.issue 0] ∧ s.cur = 0 ∧ s.core.ring.val = s.slot ∧ s.cpu.run = .issuing ∧ s.core.lastIssue ≠ some s.time ∧ s.cpu.entry = .inside ∧ s.cpu.walk = none ∧
    s.core.dhalt = false ∧ s.stopped s.cpu.tenant = false ∧ s.cpu.asyncPending = false)

/-- The base about to issue at an address. -/
def issuing (pc : Word) : State := ({ base with agenda := [.issue 0] } : State).onCore (fun k => { k with ring := 0 }) |>.onCpu fun c => { c with pc := pc }

/-- The state in which a step reads the word at the program counter. -/
def fetching (s : State) : State := (({ s with agenda := [] } : State).onCore fun c => { c with lastIssue := some s.time }).onCpu fun c => { c with stalled := false }

/-- The base with a word at 0x10008, the first of its block, and the one after it. -/
def worded (w x : Nat) : State :=
  let s := issuing 0x10008
  { s with mem := (List.range 4).foldl (fun m i => (m.setByte (0x10008 + i) (BitVec.ofNat 8 (w / 2 ^ (8 * i)))).setByte (0x1000C + i) (BitVec.ofNat 8 (x / 2 ^ (8 * i)))) code }

theorem test_premises_StepRunsDecoded : issues (issuing 0x1000C) = true ∧
    (let s := issuing 0x1000C
     let u := fetching s
     got (codeWord u u.cpu.pc) (fun (w, t) => decide (w / 2 ^ 25 ≠ 0x67 ∧ w / 64 % 2 ≠ 1 ∧ u.cpu.pc.toNat + 8 ≤ u.cpu.blockEnd) && (match decode w 0 with
       | some i => decide (i.words = 1) && (!t.cpu.pp || prefixOk i) && t.core.mayIssue t.cpu.tm (classOf i) t.time
       | none => false))) ∧
    (let s := worded 20095040 729931
     let u := fetching s
     issues s = true ∧ got (codeWord u u.cpu.pc) (fun (w, t) => got (codeWord t (u.cpu.pc + 4)) fun (x, v) => decide (w / 64 % 2 = 1 ∧ u.cpu.pc.toNat + 8 ≤ u.cpu.blockEnd) && (match decode w x with
       | some i => decide (i.words = 2) && (!v.cpu.pp || prefixOk i) && v.core.mayIssue v.cpu.tm (classOf i) v.time
       | none => false))) ∧
    (let s := (issuing 0x1000C).onCpu fun c => { c with counted := true }
     issues s = true ∧ (fetching s).cpu.counted = true ∧ ok (codeWord (fetching s) (fetching s).cpu.pc) = true) ∧
    (let s := worded 0xFE000000 5
     let u := fetching s
     issues s = true ∧ got (codeWord u u.cpu.pc) (fun (w, t) => decide (w / 2 ^ 25 ≠ 0x67 ∧ w / 64 % 2 ≠ 1 ∧ decode w 0 = none) && t.core.mayIssue t.cpu.tm 0 t.time)) := by decide +kernel

theorem test_premises_EncodeDecodeRoundTrip : (Instr.add 8 5 6).isWord = true ∧ (Instr.powerOn).isWord = false ∧ (Instr.add 8 5 6).wellFormed = true ∧ encode (.add 8 5 6) = [0x0040A300] ∧ (Instr.mcmd 9 (.mmac 8 12 0 1)).wellFormed = true ∧ encode (.mcmd 9 (.mmac 8 12 0 1)) = [0xCE012000, 0xC0010601] := by
  decide +kernel

theorem test_premises_MemoryFormKept : code.wf = true ∧ (match step (issuing 0x1000C) with | .next t => decide (t.cpu.w[10] = .plain 6 ∧ t.cpu.pc = 0x10010) | _ => false) = true := by decide +kernel

theorem test_premises_TrapEntry : base.cpu.tm = false ∧ base.cpu.entry = .inside ∧ trapped.cpu.tm = true ∧ (withCpu fun c => { c with entry := .fall }).cpu.entry = .fall := by decide +kernel

theorem test_premises_StreamSummary : useW base 10 1 = .ok () := by decide +kernel

/-! ### Single steps -/

/-- The state after an instruction. -/
def after (i : Instr) (s : State) : State := match exec i s with | .next t => t | _ => s

/-- A register after an instruction of the base with these registers. -/
def res (l : List (Nat × Wreg)) (i : Instr) (r : Fin 64) : Wreg := (after i (withCpu fun c => { c with w := regsOf l })).cpu.w[r]

theorem test_add_wraps : res [(5, .plain (BitVec.allOnes 64)), (6, .plain 1)] (.add 8 5 6) 8 = .plain 0 := by decide +kernel

/-- The example of R118: all ones, and DZ. -/
theorem test_div_by_zero : let t := after (.div 8 2 0) base
    t.cpu.w[8] = .plain 0xFFFFFFFFFFFFFFFF ∧ t.cpu.st = 1 <<< 41 := by decide +kernel

theorem test_div_rounds_toward_zero : res [(5, .plain (-7)), (6, .plain 2)] (.div 8 5 6) 8 = .plain (-3) ∧ res [(5, .plain (-7)), (6, .plain 2)] (.rem 8 5 6) 8 = .plain (-1) := by decide +kernel

theorem test_mulh_signs : res [(5, .plain (-1))] (.mulh 8 5 5) 8 = .plain 0 ∧ res [(5, .plain (-1))] (.mulhU 8 5 5) 8 = .plain 0xFFFFFFFFFFFFFFFE := by decide +kernel

theorem test_cmp_signs : res [(5, .plain (-1))] (.cmpLt 8 5 0) 8 = .plain 1 ∧ res [(5, .plain (-1))] (.cmpLtU 8 5 0) 8 = .plain 0 := by decide +kernel

theorem test_clz_zero : res [] (.clz 8 0) 8 = .plain 64 ∧ res [(5, .plain 1)] (.clz 8 5) 8 = .plain 63 := by decide +kernel

/-- The examples of R120. -/
theorem test_immediates : res [(8, .plain 3)] (.lhi 8 8 0x1FFF) 8 = .plain 0x7FFF ∧ res [] (.addi 8 0 0x1FFF) 8 = .plain 0xFFFFFFFFFFFFFFFF := by decide +kernel

/-- The worked example of R121: BASE, TOP and E of the rounded bounds, and the bounds. -/
theorem test_cbnd_worked_example : let r := res [(5, capV 0x123456 4095), (7, .plain 0x100003)] (.cbnd 6 5 7) 6
    bits r.bits 90 19 = 0x48D15 ∧ bits r.bits 109 19 = 0x08D17 ∧ bits r.bits 84 6 = 2 ∧ capBounds r = some (0x123454, 0x22345C) ∧ r.tag = true := by decide +kernel

/-- The same operands make `cbnd.x` fault, and the fault keeps w6. -/
theorem test_cbnd_exact_faults : let t := after (.cbndX 6 5 7) (withCpu fun c => { c with w := regsOf [(5, capV 0x123456 4095), (6, .plain 9), (7, .plain 0x100003)] })
    t.cpu.ecause = 0x204 ∧ t.cpu.einfo = 0x123456 ∧ t.cpu.w[6] = .plain 9 ∧ t.cpu.tm = true := by decide +kernel

/-- The examples of R122. -/
theorem test_cprm_csea : capPerm (res [(6, capV 0 4095), (9, .plain 3)] (.cprm 6 6 9) 6) = permL + permS ∧ capKind (res [(6, capV 0 4095)] (.csea 7 6) 7) = 3 ∧ capOkind (res [(6, capV 0 4095)] (.csea 7 6) 7) = 0 := by
  decide +kernel

/-- A system call takes cause 0x14 with the address after it, its header, st and the immediate (R108, R110). -/
theorem test_sys_enters_the_handler : let t := after (.sys 7) base
    t.cpu.epc = 0x1000C ∧ t.cpu.erh = 0x10000 ∧ t.cpu.esr = 0 ∧ t.cpu.ecause = 0x14 ∧ t.cpu.einfo = 7 ∧ t.cpu.tm = true ∧ t.cpu.pc = 0x40000 := by decide +kernel

/-- A system register that only trap mode may write takes 0x13 outside it (R157). -/
theorem test_setsr_epc_outside_trap_mode : (after (.setsr 1 2) base).cpu.ecause = 0x13 ∧ (after (.setsr 1 2) trapped).cpu.epc = 6 := by decide +kernel

/-- Scratch memory at an offset that holds four bytes. -/
def byted : State := { withCpu (fun c => { c with w := regsOf [(5, capS 0x400 4095), (6, .plain 0x1122334455667788)] }) with
  mem := [(0x10000000400, 1), (0x10000000401, 2), (0x10000000402, 3), (0x10000000403, 0x84)].foldl (fun (m : Memory) (x : Nat × BitVec 8) => m.setByte x.1 x.2) code }

/-- The lowest address holds the least significant byte, and a word is extended as asked (R18, R143). -/
theorem test_ld_word_extends : (after (.ldSized 8 5 0 0 1 2) byted).cpu.w[8] = .plain 0xFFFFFFFF84030201 ∧ (after (.ldSized 8 5 0 0 0 2) byted).cpu.w[8] = .plain 0x84030201 := by decide +kernel

/-- A store waits in the store queue, and a load of the same bytes takes them from there (R27). -/
theorem test_st_then_ld : let t := after (.st 6 5 8) byted
    t.cpu.sq.length = 1 ∧ t.mem = byted.mem ∧ (after (.ld 8 5 8) t).cpu.w[8] = .plain 0x1122334455667788 := by decide +kernel

/-- The example of R101: offset 0x2410 under code 2 stands in bank 8 of its row. -/
theorem test_swizzle_example : locate 2 0x10000002410 = 0x10000002480 := by decide +kernel

/-- The example of R159: the name of w20 to w23 of context 0xA5C, generation 7, on device 3. -/
theorem test_rcap_example : let n := ((after (.rcap 9 20 3 0) { withCpu (fun c => { c with ident := 0xA5C, gen := 7 }) with mdl := { base.mdl with devno := 3 } }).cpu.w[9])
    n.lo = 0x07001A0014B80A00 ∧ bits n.bits 84 6 = 3 := by decide +kernel

/-- Every half of a vector wraps on its own, and a disabled one stays (R178, R185). -/
theorem test_vadd_halves : let s := withCpu fun c => { c with v := (c.v.set 1 0xFFFFFFFF).set 2 0x00010001, p := c.p.set 1 1 }
    (after (.vaddH 3 1 (.reg 2) 0) s).cpu.v[3] = 0 ∧ (after (.vaddW 3 1 (.reg 2) 0) s).cpu.v[3] = 0x00010000 ∧ (after (.vaddH 2 1 (.reg 2) 1) s).cpu.v[2] = 0x00010000 := by decide +kernel

/-- A sum that lies halfway between two FP16 numbers goes to the even one, and IX is set (R74, R76). -/
theorem test_vadd_f16_ties_to_even : let t := after (.vaddF 1 3 1 (.reg 2) 1) (withCpu fun c => { c with v := (c.v.set 1 0x3C00).set 2 0x1000, p := c.p.set 1 1 })
    t.cpu.v[3] = 0x3C00 ∧ t.cpu.st = 1 <<< 44 := by decide +kernel

/-- The worked example of R190: four elements into MXFP8, with CLP, IX and UF. -/
theorem test_vcvt_n_worked_example : let t := after (.vcvtN 8 1 9 1 0) (withCpu fun c => { c with v := c.v.set 1 0x3A83126F43FA0000BF90000040C00000, p := c.p.set 1 0x55 })
    t.cpu.v[8] = 0x017EB94C ∧ t.cpu.w[9] = .plain 0x7F ∧ t.cpu.st = 1 <<< 43 ||| 1 <<< 44 ||| 1 <<< 46 := by decide +kernel

/-- The worked example of the anchored accumulator: three MXFP8 products at anchor −20. -/
def dotExample : Elem × Sticky :=
  [(0x4C, 0x7E, 0xB9, 0x81), (0x01, 0x7E, 0x01, 0x7D), (0x81, 0x7E, 0x01, 0x7D)].foldl (fun (x : Elem × Sticky) (p : Nat × Nat × Nat × Nat) =>
    let r := x.1.add (-20) (mulFp (operandFp 2 0x7E030739 p.2.1 p.1) (operandFp 2 0x7E030739 p.2.2.2 p.2.2.1))
    (r.1, x.2.join r.2)) (Elem.zero, {})

theorem test_dot_worked_example : dotExample.1.q.toInt = -14155777 ∧ dotExample.1.tag = 0 ∧ dotExample.2 = { zi := true } := by decide +kernel

/-- Its readouts: FP32 exactly, BF16 rounded by each mode. -/
theorem test_readout_worked_example : dotExample.1.readout (-20) f32 .rne = (0xC1580001, {}) ∧ dotExample.1.readout (-20) bf16 .rne = (0xC158, { ix := true }) ∧
    dotExample.1.readout (-20) bf16 .rdn = (0xC159, { ix := true }) ∧ dotExample.1.readout (-20) bf16 .rup = (0xC158, { ix := true }) := by decide +kernel

/-- The worked example of R288: −2.0, and NFS alone. -/
theorem test_fbdot_worked_example : let f : Fibre := { fibre0 with len := 3, dns := false, ahead := [⟨some 1, 0x40000000, 0⟩, ⟨some 4, 0x40400000, 0⟩, ⟨some 6, 0x7F800000, 0⟩] }
    let g : Fibre := { fibre0 with len := 6, ahead := [⟨some 0, 0x3F800000, 0⟩, ⟨some 1, 0x3F000000, 0⟩, ⟨some 2, 0x40E00000, 0⟩, ⟨some 3, 0x7FC00000, 0⟩, ⟨some 4, 0xBF800000, 0⟩, ⟨some 5, 0x40A00000, 0⟩] }
    let t := after (.fbdot 9 0 1) (fibred f g)
    t.cpu.w[9] = .plain 0xC0000000 ∧ t.cpu.st = 1 <<< 45 := by decide +kernel

/-- The published test vector of Philox4x32-10 with counter and key zero. -/
theorem test_philox_zero : philox 0 0 0 0 = [0x6627E8D5, 0xE169C58D, 0xBC57AC4C, 0x9B00DBD8] := by decide +kernel

/-- The published digest of "abc". -/
theorem test_sha384_abc : (sha384 [0x61, 0x62, 0x63]).take 8 = [0xCB, 0x00, 0x75, 0x3F, 0x45, 0xA3, 0x5E, 0x8B] := by decide +kernel

/-- The oldest message leaves first; an empty mailbox gives zero (R273). -/
theorem test_mpop_empties : let s := withCpu fun c => { c with mbox := [5, 6] }
    (after (.mpop 10) s).cpu.w[10] = ⟨5, false⟩ ∧ (after (.mpop 10) s).cpu.mbox = [6] ∧ (after (.mpop 10) base).cpu.w[10] = .zero := by decide +kernel

end Sys2Proof.Tests
end

section

namespace Sys2Proof.Machine

/-! ### The summary of a stream generator (R268) -/

/-- Every field of the summary is below the weight of the next one, so the fields neither overlap nor carry, and each reads back from its own bits (R268). -/
theorem Stream.summary_layout (x : Stream) :
    bits x.summary 0 1 = x.bnd.toNat ∧ bits x.summary 1 1 = x.wr.toNat ∧ bits x.summary 2 1 = x.clsW.toNat ∧ bits x.summary 3 1 = x.tg.toNat ∧
    bits x.summary 4 4 = x.reg.val ∧ bits x.summary 8 2 = x.ndim.val ∧ bits x.summary 10 1 = x.flt.toNat ∧ bits x.summary 11 5 = 0 ∧
    bits x.summary 16 3 = x.held.length % 8 ∧ bits x.summary 19 13 = 0 ∧ bits x.summary 32 32 = x.done % 2 ^ 32 := by
  have hbnd := x.bnd.toNat_lt
  have hwr := x.wr.toNat_lt
  have hcls := x.clsW.toNat_lt
  have htg := x.tg.toNat_lt
  have hflt := x.flt.toNat_lt
  simp only [bits, Stream.summary, BitVec.toNat_ofNat]
  and_intros <;> omega

/-- With a destination that takes a result, `sstat` completes with the summary of the generator as it stands at issue (R268). -/
theorem exec_sstat {d a : Fin 64} {s : State} (h : useW s d 1 = .ok ()) :
    exec (.sstat d a) s = .next (s.finishW 1 [] d (.plain (s.cpu.stream a.val).summary)) := by
  have arm : exec (.sstat d a) s = execSstat d a s := rfl
  rw [arm, execSstat, h]
  exact conclude_ok

/-- Settles O27: `sstat` completes with the generator's summary, whose fields stand where R268 lays them out. -/
theorem streamSummary : Obligations.StreamSummary :=
  fun _ a s h => ⟨(s.cpu.stream a.val).summary, exec_sstat h, (s.cpu.stream a.val).summary_layout⟩

end Sys2Proof.Machine
end

section

namespace Sys2Proof.Machine

/-! ### Answers of the engines (R327, R336) -/

/-- The oldest request of a slot that can be answered is the one that its engine answers: those before it are of other slots, or wait. -/
theorem State.engineAnswers_of_first {s t : State} {n eng : Nat} {c : Cmd} (hn : s.requests[n]? = some (eng, c))
    (hfirst : ∀ j e q, j < n → s.requests[j]? = some (e, q) → q.h = c.h → q.slot = c.slot → s.answerTo j e q = none)
    (ht : s.answerTo n eng c = some t) : s.engineAnswers c.h c.slot = some t := by
  obtain ⟨hlt, -⟩ := List.getElem?_eq_some_iff.mp hn
  obtain ⟨later, hsplit⟩ : List.range (n + 1) <+: List.range s.requests.length := by
    simpa [List.take_range, Nat.min_eq_left (Nat.succ_le_of_lt hlt)] using List.take_prefix (n + 1) (List.range s.requests.length)
  refine List.findSome?_eq_some_iff.mpr ⟨List.range n, n, later, by simp [← hsplit, List.range_succ], by simp [hn, ht], fun j hj => ?_⟩
  cases hq : s.requests[j]? with
  | none => rfl
  | some r =>
    obtain ⟨e, q⟩ := r
    by_cases hslot : q.h = c.h ∧ q.slot = c.slot
    · simpa [hslot] using hfirst j e q (List.mem_range.mp hj) hq hslot.1 hslot.2
    · simp [hslot]

/-- A request whose context still waits for it, where no migration blocks the registers, ends with the value that its engine replies (R170, R327). -/
theorem State.answerTo_value {s t : State} {k eng h slot : Nat} {c : Cmd} {uses : List Nat} {x : Option Wreg} (hheld : s.heldAt c.ident = some (h, slot))
    (hans : (s.ctx h slot).answer = some (eng, uses)) (hgen : (s.ctx h slot).gen = c.gen)
    (hopen : h < 2048 ∨ s.isBlocked (frameOf (s.loc c.ident).img.toNat) = false)
    (hr : { s with requests := listDrop s.requests k }.reply eng c = .value x t) :
    s.answerTo k eng c = some (t.onRegs h slot fun y => y.answered c.d uses x) := by
  have hpass : ¬(eng ≠ eng ∨ (s.ctx h slot).gen ≠ c.gen ∨ (h ≥ 2048 ∧ s.isBlocked (frameOf (s.loc c.ident).img.toNat))) := by
    rcases hopen with hlt | hfree
    · simp [hgen, hlt]
    · simp [hgen, hfree]
  simp only [State.answerTo, hheld, hans, if_neg hpass, hr]

/-- ENGINE_ANSWER to the first request that can be answered gives the context the value that the engine replies. -/
theorem gives_of_reply {s t : State} {n eng h slot : Nat} {c : Cmd} {uses : List Nat} {x : Option Wreg} (ha : Claims.Asked s n eng c h slot uses)
    (hr : { s with requests := listDrop s.requests n }.reply eng c = .value x t) : Claims.Gives s c h slot uses x t := by
  obtain ⟨hn, hfirst, hheld, hans, hgen, hopen⟩ := ha
  have arm : exec (.engineAnswer c.h c.slot) s = execEngineAnswer c.h c.slot s := rfl
  rw [Claims.Gives, arm, execEngineAnswer, State.engineAnswers_of_first hn hfirst (State.answerTo_value hheld hans hgen hopen hr), event_some]

/-! ### The state of a field (R334) -/

/-- The phase master answers `fq` with the state of the field that it finds by the descriptor, and changes nothing (R327, R334). -/
theorem vatReply_fq {s : State} {c : Cmd} {f : Field} (hop : c.op = .fq) (htaken : c.taken = false) (hdev : devOf (c.regs.getLastD .zero).lo.toNat = s.dev)
    (hf : s.fields.find? (fun g => g.desc = (c.regs.getLastD .zero).lo.toNat && (g.tenant = c.tenant || c.prv)) = some f) :
    vatReply s c = .value (some f.query) s := by
  simp only [vatReply, if_neg (not_not_intro hdev), htaken, hf, hop, reduceCtorEq, Bool.false_eq_true, if_false]

/-- The code of a field's mode: 4 for one that is ending, whatever it was set to (R334). -/
def Field.modeCode (f : Field) : Nat :=
  if f.stopBy.isSome then 4 else match f.mode with | .hold => 0 | .run => 1 | .step => 2 | .faulted => 3

theorem Field.modeCode_lt (f : Field) : f.modeCode < 2 ^ 3 := by
  unfold Field.modeCode
  split
  · decide
  · cases f.mode <;> decide

/-- Every field of the value stays below the weight of the next one, so the fields neither overlap nor carry, and each reads back from its own bits (R334). -/
theorem Field.query_layout (f : Field) :
    bits f.query.bits 0 36 = f.bound % 2 ^ 36 ∧ bits f.query.bits 36 3 = f.modeCode ∧ bits f.query.bits 39 1 = 0 ∧ bits f.query.bits 40 24 = f.steps % 2 ^ 24 ∧
    bits f.query.bits 64 32 = f.nfc % 2 ^ 32 ∧ bits f.query.bits 96 6 = f.num % 64 ∧ bits f.query.bits 102 4 = bits f.parms 1084 4 ∧
    bits f.query.bits 106 3 = f.pulls.length % 8 ∧ bits f.query.bits 109 19 = 0 := by
  have hmode := f.modeCode_lt
  have hcol : bits f.parms 1084 4 < 2 ^ 4 := Nat.mod_lt _ (by decide)
  have hval : f.query.bits.toNat = (f.bound % 2 ^ 36 + f.modeCode * 2 ^ 36 + f.steps % 2 ^ 24 * 2 ^ 40 + f.nfc % 2 ^ 32 * 2 ^ 64 + f.num % 64 * 2 ^ 96
      + bits f.parms 1084 4 * 2 ^ 102 + f.pulls.length % 8 * 2 ^ 106) % 2 ^ 128 :=
    BitVec.toNat_ofNat ..
  generalize bits f.parms 1084 4 = col at hcol hval ⊢
  simp only [bits, hval]
  and_intros <;> omega

/-- Settles O34: the answer to `fq` is the phase master's state of the field, whose fields stand where R334 lays them out. -/
theorem fieldQuery : Obligations.FieldQuery := by
  intro s n h slot f c uses ha hop htaken pa hdev hf
  have hreply : { s with requests := listDrop s.requests n }.reply 5 c = .value (some f.query) { s with requests := listDrop s.requests n } :=
    vatReply_fq hop htaken hdev hf
  exact ⟨f.query, gives_of_reply ha hreply, rfl, f.query_layout⟩

end Sys2Proof.Machine
end

section

namespace Sys2Proof.Machine

/-! ### Refusals of the engines (R327, R336) -/

/-- A request whose context still waits for it, where no migration blocks the registers and no stop halts the context, ends in the trap that its engine replies (R170, R336). -/
theorem State.answerTo_trapped {s t : State} {k eng h slot code opnd info : Nat} {c : Cmd} {uses : List Nat} (hheld : s.heldAt c.ident = some (h, slot))
    (hans : (s.ctx h slot).answer = some (eng, uses)) (hgen : (s.ctx h slot).gen = c.gen)
    (hopen : h < 2048 ∨ s.isBlocked (frameOf (s.loc c.ident).img.toNat) = false) (hrun : (s.ctx h slot).stopHalted = false)
    (hr : { s with requests := listDrop s.requests k }.reply eng c = .trapped code opnd info t) :
    s.answerTo k eng c =
      some (((t.focus h slot).onCpu fun y => { y with answer := none, run := .ready }).takeTrap ⟨code, opnd, BitVec.ofNat 64 info, false, false⟩) := by
  have hpass : ¬(eng ≠ eng ∨ (s.ctx h slot).gen ≠ c.gen ∨ (h ≥ 2048 ∧ s.isBlocked (frameOf (s.loc c.ident).img.toNat))) := by
    rcases hopen with hlt | hfree
    · simp [hgen, hlt]
    · simp [hgen, hfree]
  simp only [State.answerTo, hheld, hans, if_neg hpass, hr, hrun, Bool.false_eq_true, if_false]

/-- ENGINE_ANSWER to the first request that can be answered takes the trap that the engine replies in the context that asked. -/
theorem traps_of_reply {s t : State} {n eng h slot code opnd info : Nat} {c : Cmd} {uses : List Nat} (ha : Claims.Asked s n eng c h slot uses)
    (hr : { s with requests := listDrop s.requests n }.reply eng c = .trapped code opnd info t) : Claims.Traps s c h slot t code opnd info := by
  obtain ⟨hn, hfirst, hheld, hans, hgen, hopen⟩ := ha
  intro hrun
  have arm : exec (.engineAnswer c.h c.slot) s = execEngineAnswer c.h c.slot s := rfl
  rw [arm, execEngineAnswer, State.engineAnswers_of_first hn hfirst (State.answerTo_trapped hheld hans hgen hopen hrun hr), event_some]

/-! ### Requests of a context that has nothing on its way (R37, R327, R383) -/

/-- With no older store in the queue a request enters its engine's path at once, and the context parks for the answer (R37, R103). -/
theorem State.ask_now {s : State} (eng : Fin 9) (op : CmdOp) (d : Fin 64) (regs : List Wreg) (uses : List Nat) (h : s.cpu.sq = []) :
    let u := (s.takeSeq eng).2.onCpu fun x => { x with answer := some (eng.val, uses), run := .parked (.answer eng.val) }
    s.ask eng op d regs uses false = { u with requests := u.requests ++ [(eng.val, { s.capture op s.cpu.seqs[eng] regs [] with d := d })] } := by
  intro u
  have hu : u.cpu.sq = [] := h
  exact State.command_now hu

/-- The release of a dispatch request needs no marker where nothing of the device is on its way, so the request goes to the engine as it is (R32, R383). -/
theorem State.askDispatch_quiet {s : State} (op : CmdOp) (d : Fin 64) (regs : List Wreg) (uses : List Nat) (hsq : s.cpu.sq = []) (haset : s.cpu.aset = [])
    (hnet : s.net = []) : s.askDispatch op d regs uses = s.ask 7 op d regs uses false := by
  rw [State.askDispatch, State.release_idle 4 false hsq haset (by simp [hnet])]

/-! ### `stopat` at issue (R387) -/

/-- A user context takes the privilege trap, with the word of the instruction (R110, R387). -/
theorem exec_stopat_user (a b : Fin 64) {s : State} (h : s.cpu.prv = false) :
    exec (.stopat a b) s = .next (s.takeTrap ⟨0x13, 0, thisWord s, false, false⟩) := by
  have arm : exec (.stopat a b) s = execStopat a b s := rfl
  rw [arm, execStopat, privileged, h, need_false]
  exact conclude_trap _

/-- A privileged context with its operands read asks the dispatch engine (R387). -/
theorem exec_stopat_asks {a b : Fin 64} {s : State} {x y : Wreg} (hprv : s.cpu.prv = true) (hx : readW s a 2 = .ok x) (hy : readW s b 3 = .ok y) :
    exec (.stopat a b) s = .next (s.askDispatch .stopat 0 [x, y] [a.val, b.val]) := by
  have arm : exec (.stopat a b) s = execStopat a b s := rfl
  rw [arm, execStopat, privileged, hprv, need_true, hx, hy]
  exact conclude_ok

/-! ### `stopat` at the engine (R387) -/

/-- The tenant that a `stopat` names (R387). -/
def Cmd.stopTenant (c : Cmd) : Nat := (c.reg 0).lo.toNat % 64

/-- A stop of the tenant may still be set, or set anew: it runs or has a stop pending, and its stop cycle has not come (R379, R387). -/
abbrev State.mayStop (s : State) (t : Nat) : Prop := ((s.tenantOf t).tstate = 0 ∨ (s.tenantOf t).tstate = 1) ∧ s.stopped t = false

/-- The engine's reply to a `stopat`, in the order of its checks (R387). -/
theorem State.reply_stopat (s : State) {c : Cmd} (hop : c.op = .stopat) :
    s.reply 7 c =
      if ¬s.mayStop c.stopTenant ∨ (c.reg 1).lo.toNat < s.counter + 4096 then .refusal 0xB8 s
      else if bits (s.tenantOf c.stopTenant).tpart 16 12 = 0 then .refusal 0xB9 s
      else .value none (s.setTenant c.stopTenant { s.tenantOf c.stopTenant with tstop := (c.reg 1).lo, tstate := 1 }) := by
  have arm : s.reply 7 c = dispatchReply s c := rfl
  have hlow : bits (c.reg 0).lo 0 6 = c.stopTenant := by simp [bits, Cmd.stopTenant]
  have hstate (i : Fin 5) : i.val > 1 ↔ ¬(i = 0 ∨ i = 1) := by omega
  simp only [arm, dispatchReply, hop, stopatReply, hlow, hstate, State.mayStop, not_and_or, Bool.not_eq_false, or_assoc]

section

variable (s : State) {c : Cmd} (hop : c.op = .stopat)

include hop

/-- A tenant that may not be stopped, or a stop cycle too near, is refused with 0xB8 (R387). -/
theorem State.reply_stopat_refused (hbad : ¬s.mayStop c.stopTenant ∨ (c.reg 1).lo.toNat < s.counter + 4096) : s.reply 7 c = .refusal 0xB8 s :=
  (s.reply_stopat hop).trans (if_pos hbad)

variable (hmay : s.mayStop c.stopTenant) (hfar : ¬(c.reg 1).lo.toNat < s.counter + 4096)

include hmay hfar

/-- A tenant without a partition is refused with 0xB9 (R387). -/
theorem State.reply_stopat_noPartition (hplen : bits (s.tenantOf c.stopTenant).tpart 16 12 = 0) : s.reply 7 c = .refusal 0xB9 s := by
  rw [s.reply_stopat hop, if_neg (not_or.mpr ⟨not_not_intro hmay, hfar⟩), if_pos hplen]

/-- Otherwise the stop cycle is set and a stop is pending, in the place of one that was pending before (R379, R387). -/
theorem State.reply_stopat_sets (hplen : bits (s.tenantOf c.stopTenant).tpart 16 12 ≠ 0) :
    s.reply 7 c = .value none (s.setTenant c.stopTenant { s.tenantOf c.stopTenant with tstop := (c.reg 1).lo, tstate := 1 }) := by
  rw [s.reply_stopat hop, if_neg (not_or.mpr ⟨not_not_intro hmay, hfar⟩), if_neg hplen]

end

/-- Settles O42: the privilege trap and the request at issue, and at the engine the answer by the case of the tenant's state, the stop cycle and the partition. -/
theorem stopRequests : Obligations.StopRequests := by
  refine ⟨fun a b s => exec_stopat_user a b, fun a b s x y hprv hx hy hsq haset hnet => ?_, fun s h k n uses c ha hop => ?_⟩
  · rw [exec_stopat_asks hprv hx hy, State.askDispatch_quiet _ _ _ _ hsq haset hnet]
    exact congrArg _ (State.ask_now 7 .stopat 0 [x, y] [a.val, b.val] hsq)
  · intro u refused t x T
    have refused_of_bad (hbad : ¬u.mayStop c.stopTenant ∨ T.toNat < u.counter + 4096) : refused 0xB8 := traps_of_reply ha (u.reply_stopat_refused hop hbad)
    refine ⟨fun hstate => ?_, fun hstopped => ?_, fun _ hnear => ?_, fun hstate hrun hfar hplen => ?_, fun hstate hrun hfar hplen => ?_⟩
    · exact refused_of_bad (.inl fun hmay => hstate hmay.1)
    · exact refused_of_bad (.inl fun hmay => Bool.false_ne_true (hmay.2.symm.trans hstopped))
    · exact refused_of_bad (.inr hnear)
    · exact traps_of_reply ha (u.reply_stopat_noPartition hop ⟨hstate, hrun⟩ hfar hplen)
    · exact gives_of_reply ha (u.reply_stopat_sets hop ⟨hstate, hrun⟩ hfar hplen)

end Sys2Proof.Machine
end
